-- ==== Sys2Proof/Word.lean ====
section
/-! DEFINITION. The word type of the LN-7256 and the sizes of R4. -/

namespace Sys2Proof

/-- A dword: the width of scalar registers and virtual addresses (R4, R67, R145). -/
abbrev Word := BitVec 64

/-- An instruction word (R4, R135). -/
abbrev IWord := BitVec 32

/-- A byte (R4). -/
abbrev Byte := BitVec 8

end Sys2Proof
end

