-- ==== Sys2Proof/Machine/Bits.lean ====
section
/-! DEFINITION. Bit fields, extension and byte order (R3, R7). -/

namespace Sys2Proof.Machine

/-- sext(x, n): the low n bits of a word, sign-extended to 64 (R7). -/
def sextN (n : Nat) (x : Word) : Word := (BitVec.ofNat n x.toNat).signExtend 64

/-- zext(x, n): the low n bits of a word (R7). -/
def zextN (n : Nat) (x : Word) : Word := BitVec.ofNat 64 (x.toNat % 2 ^ n)

/-- Bits [lo+w-1:lo] of a word, as a number. -/
def bitsAt (x : Word) (lo w : Nat) : Nat := x.toNat / 2 ^ lo % 2 ^ w

/-- One bit of a number. -/
def bitOf (x : Nat) (i : Nat) : Bool := x.testBit i

/-- A truth value as the word 1 or 0. -/
def boolWord (b : Bool) : Word := if b then 1#64 else 0#64

/-- The value of bytes, byte 0 least significant (R3). -/
def leNat : List Byte → Nat
  | [] => 0
  | b :: r => b.toNat + 256 * leNat r

/-- The low n bytes of a number, lowest address first (R3). -/
def leBytes : Nat → Nat → List Byte
  | 0, _ => []
  | n + 1, v => BitVec.ofNat 8 v :: leBytes n (v / 256)

/-- A little-endian field of n bytes at a place of a list of bytes. -/
def fieldAt (l : List Byte) (off n : Nat) : Nat := leNat ((l.drop off).take n)

/-- A signed number as the w low bits of its two's complement. -/
def ofInt (w : Nat) (z : Int) : Nat := (z % (2 ^ w : Int)).toNat

/-- The low w bits of a number read as two's complement. -/
def toInt (w x : Nat) : Int :=
  let y := x % 2 ^ w
  if 2 * y < 2 ^ w then (y : Int) else (y : Int) - (2 ^ w : Int)

/-- n rounded up to a multiple of m. -/
def roundUp (n m : Nat) : Nat := (n + m - 1) / m * m

/-- floor(n / m) rounded up. -/
def ceilDiv (n m : Nat) : Nat := (n + m - 1) / m

/-- The number of set bits below bit n. -/
def popBelow (x : Nat) : Nat → Nat
  | 0 => 0
  | n + 1 => popBelow x n + (if x.testBit n then 1 else 0)

/-- The lowest set bit at or above i, of n bits looked at; the default when none is. -/
def lowBit (x : Nat) (d : Nat) : Nat → Nat → Nat
  | 0, _ => d
  | n + 1, i => if x.testBit i then i else lowBit x d n (i + 1)

/-- The highest set bit below n, plus 1; 0 when there is none. -/
def highLen (x : Nat) : Nat → Nat
  | 0 => 0
  | n + 1 => if x.testBit n then n + 1 else highLen x n

/-- n zero bytes. -/
def zeros (n : Nat) : List Byte := List.replicate n 0#8

/-- Exclusive or of the polynomial for each low bit: one byte of CRC-32C (R258). -/
def crcStep : Nat → BitVec 32 → BitVec 32
  | 0, c => c
  | n + 1, c => crcStep n (if c.getLsbD 0 then (c >>> 1) ^^^ 0x82F63B78#32 else c >>> 1)

/-- crc32c_extend(c, bytes) of R258. -/
def crc32c (c : BitVec 32) (bytes : List Byte) : BitVec 32 :=
  bytes.foldl (fun a b => crcStep 8 (a ^^^ b.setWidth 32)) (c ^^^ 0xFFFFFFFF#32) ^^^ 0xFFFFFFFF#32

/-- One byte of CRC-64/ECMA, most significant bit first (R275). -/
def crc64Step : Nat → BitVec 64 → BitVec 64
  | 0, c => c
  | n + 1, c => crc64Step n (if c.getLsbD 63 then (c <<< 1) ^^^ 0x42F0E1EBA9EA3693#64 else c <<< 1)

/-- CRC-64/ECMA of R275: initial value 0, no reflection, no final exclusive or. -/
def crc64 (bytes : List Byte) : BitVec 64 :=
  bytes.foldl (fun a b => crc64Step 8 (a ^^^ BitVec.shiftLeft (b.setWidth 64) 56)) 0#64

end Sys2Proof.Machine
end

