-- ==== Sys2Proof/Machine/Ecc.lean ====
section
/-! DEFINITION. The end-to-end code of a 32-byte sector: Reed–Solomon over GF(256) (R91). Symbols 0 to 31 of a codeword are the data, 32 to 37 the address, which is never stored, and 38 to 41 the check bytes; symbol 0 is the highest power. -/

namespace Sys2Proof.Machine

/-- x times the generator of a field of 256 elements with a polynomial. -/
def gfDouble (poly x : Nat) : Nat := if x < 128 then 2 * x else Nat.xor (2 * x) poly

/-- The product of the n low bits of y with x. -/
def gfMulBits (poly : Nat) : Nat → Nat → Nat → Nat
  | 0, _, _ => 0
  | n + 1, x, y => Nat.xor (if y % 2 = 1 then x else 0) (gfMulBits poly n (gfDouble poly x) (y / 2))

/-- The product in a field of 256 elements. -/
def gfMul (poly x y : Nat) : Nat := gfMulBits poly 8 x y

/-- The product of x^2, x^4, … for n squarings. -/
def gfSquares (poly : Nat) : Nat → Nat → Nat
  | 0, _ => 1
  | n + 1, x => let q := gfMul poly x x; gfMul poly q (gfSquares poly n q)

/-- The inverse, which is x^254; 0 for 0. -/
def gfInv (poly x : Nat) : Nat := gfSquares poly 7 x

/-- The field polynomial of R91. -/
def rsPoly : Nat := 0x11D

/-- Symbols of a codeword (R91). -/
def rsLen : Nat := 42

/-- α^n. -/
def rsAlpha : Nat → Nat
  | 0 => 1
  | n + 1 => gfDouble rsPoly (rsAlpha n)

/-- The locator of symbol i. -/
def rsLoc (i : Nat) : Nat := rsAlpha (rsLen - 1 - i)

/-- An error: which symbols are wrong, and by what (symbol, exclusive or). -/
abbrev Wrong := List (Nat × Byte)

/-- x^j in the field of R91. -/
def rsPow (x : Nat) : Nat → Nat
  | 0 => 1
  | j + 1 => gfMul rsPoly x (rsPow x j)

/-- Syndrome j of an error: the code is linear, so it is that of what was read. -/
def rsSyndrome (e : Wrong) (j : Nat) : Nat :=
  e.foldl (fun z x => Nat.xor z (gfMul rsPoly x.2.toNat (rsPow (rsLoc x.1) j))) 0

/-- The correction of at most two symbols with four given syndromes; nothing where there is none. -/
def rsCorrect (s0 s1 s2 s3 : Nat) : Option Wrong :=
  let mul := gfMul rsPoly
  if s0 = 0 ∧ s1 = 0 ∧ s2 = 0 ∧ s3 = 0 then some []
  else
    let one := (List.range rsLen).filter (fun p => let x := rsLoc p; s0 != 0 && mul s0 x == s1 && mul s1 x == s2 && mul s2 x == s3)
    match one with
    | p :: _ => some [(p, BitVec.ofNat 8 s0)]
    | [] =>
      let d := Nat.xor (mul s0 s2) (mul s1 s1)
      if d = 0 then none
      else
        let a := mul (Nat.xor (mul s0 s3) (mul s1 s2)) (gfInv rsPoly d)
        let b := mul (Nat.xor (mul s1 s3) (mul s2 s2)) (gfInv rsPoly d)
        -- the locators of the two symbols are the roots of x^2 + a x + b
        match (List.range rsLen).filter (fun p => let x := rsLoc p; Nat.xor (mul x x) (Nat.xor (mul a x) b) == 0) with
        | [p, q] =>
          let v := mul (Nat.xor s1 (mul s0 (rsLoc p))) (gfInv rsPoly (Nat.xor (rsLoc p) (rsLoc q)))
          let u := Nat.xor s0 v
          if u = 0 ∨ v = 0 then none else some [(p, BitVec.ofNat 8 u), (q, BitVec.ofNat 8 v)]
        | _ => none

/-- What a read of a sector with an error gives (R91): nothing where it is uncorrectable, a correction in an address symbol among them; else what was corrected. -/
def rsDecode (e : Wrong) : Option Wrong :=
  match rsCorrect (rsSyndrome e 0) (rsSyndrome e 1) (rsSyndrome e 2) (rsSyndrome e 3) with
  | none => none
  | some c => if c.any (fun x => 32 ≤ x.1 && x.1 < 38) then none else some c

/-- The four check bytes of a message: those that make every syndrome 0 (R91). -/
def rsCheck (data : List Byte) (sector : Nat) : List Byte :=
  let m := data ++ leBytes 6 sector
  -- division by the generator polynomial with roots α^0 to α^3
  let g := [0, 1, 2, 3].foldl (fun (g : List Nat) j => List.zipWith Nat.xor (g ++ [0]) (0 :: g.map (gfMul rsPoly (rsAlpha j)))) [1]
  (m.foldl (fun (r : List Nat) b =>
    let f := Nat.xor b.toNat (r.headD 0)
    List.zipWith Nat.xor (r.drop 1 ++ [0]) ((g.drop 1).map (gfMul rsPoly f))) [0, 0, 0, 0]).map (BitVec.ofNat 8)

/-- The check bytes with which a spare bank starts differ so from those of any word that it is uncorrectable (R307). -/
def spareWrong : Wrong := [(38, 1#8), (39, 1#8), (40, 1#8)]

end Sys2Proof.Machine
end

