-- ==== Sys2Proof/Machine/Cipher.lean ====
section
/-! DEFINITION. AES-256-XTS over 32-byte sectors (R92): FIPS 197 and IEEE 1619, the tweak being the physical address of the sector. The first half of a key slot's 64 bytes is the data key, the second the tweak key. -/

namespace Sys2Proof.Machine

/-- The field polynomial of AES. -/
def aesPoly : Nat := 0x11B

/-- A byte rotated left. -/
def rotl8 (x n : Nat) : Nat := (x * 2 ^ n + x / 2 ^ (8 - n)) % 256

/-- The AES substitution, and its inverse. -/
def aesSub (x : Nat) : Nat :=
  let b := gfInv aesPoly x
  Nat.xor (Nat.xor (Nat.xor b (rotl8 b 1)) (Nat.xor (rotl8 b 2) (rotl8 b 3))) (Nat.xor (rotl8 b 4) 0x63)
def aesUnsub (y : Nat) : Nat := gfInv aesPoly (Nat.xor (Nat.xor (rotl8 y 1) (rotl8 y 3)) (Nat.xor (rotl8 y 6) 0x05))

def xorBytes (a b : List Nat) : List Nat := List.zipWith Nat.xor a b

/-- The round constant of the i-th group of eight key words, i from 1. -/
def aesRcon : Nat → Nat
  | 0 => 1
  | 1 => 1
  | n + 1 => gfDouble aesPoly (aesRcon n)

/-- Key words i, i + 1, …: each is 4 bytes, and `w` holds those before, the newest first. -/
def aesExpand : Nat → Nat → List (List Nat) → List (List Nat)
  | 0, _, w => w
  | n + 1, i, w =>
    let t := w.headD []
    let t := if i % 8 = 0 then xorBytes ((t.drop 1 ++ t.take 1).map aesSub) [aesRcon (i / 8), 0, 0, 0]
      else if i % 8 = 4 then t.map aesSub else t
    aesExpand n (i + 1) (xorBytes (w.getD 7 []) t :: w)

/-- The fifteen round keys of a 32-byte key. -/
def aesKeys (key : List Nat) : List (List Nat) :=
  let w := (aesExpand 52 8 ((List.range 8).map (fun i => (key.drop (4 * i)).take 4)).reverse).reverse
  (List.range 15).map (fun r => ((w.drop (4 * r)).take 4).flatten)

/-- Byte r + 4c of a block comes from byte r + 4(c + r), or from r + 4(c - r). -/
def aesShift (x : List Nat) : List Nat := (List.range 16).map (fun i => x.getD (i % 4 + 4 * ((i / 4 + i % 4) % 4)) 0)
def aesUnshift (x : List Nat) : List Nat := (List.range 16).map (fun i => x.getD (i % 4 + 4 * ((i / 4 + 4 - i % 4) % 4)) 0)

/-- Columns multiplied by the circulant matrix of a first row. -/
def aesMix (row : List Nat) (x : List Nat) : List Nat :=
  (List.range 16).map (fun i =>
    (List.range 4).foldl (fun z k => Nat.xor z (gfMul aesPoly (row.getD ((k + 4 - i % 4) % 4) 0) (x.getD (i / 4 * 4 + k) 0))) 0)

/-- One block of 16 bytes enciphered. -/
def aesEnc (keys : List (List Nat)) (x : List Nat) : List Nat :=
  let y := ((keys.drop 1).take 13).foldl (fun x k => xorBytes (aesMix [2, 3, 1, 1] (aesShift (x.map aesSub))) k) (xorBytes x (keys.headD []))
  xorBytes (aesShift (y.map aesSub)) (keys.getD 14 [])

/-- One block deciphered. -/
def aesDec (keys : List (List Nat)) (x : List Nat) : List Nat :=
  let y := (((keys.drop 1).take 13).reverse).foldl (fun x k => aesMix [14, 11, 13, 9] (xorBytes ((aesUnshift x).map aesUnsub) k)) (xorBytes x (keys.getD 14 []))
  xorBytes ((aesUnshift y).map aesUnsub) (keys.headD [])

/-- Bytes as numbers, a number as 16 bytes, and the double of a tweak. -/
def natBytes (l : List Byte) : List Nat := l.map (·.toNat)
def tweakBytes (n : Nat) : List Nat := natBytes (leBytes 16 n)
def tweakDouble (n : Nat) : Nat := if n < 2 ^ 127 then 2 * n else Nat.xor (2 * n - 2 ^ 128) 0x87

/-- A 32-byte sector through a block function between its tweaks. -/
def xtsSector (f : List Nat → List Nat) (tweak : Nat) (x : List Byte) : List Byte :=
  let block (t : Nat) (b : List Nat) : List Nat := xorBytes (f (xorBytes b (tweakBytes t))) (tweakBytes t)
  let x := natBytes x
  (block tweak (x.take 16) ++ block (tweakDouble tweak) (x.drop 16)).map (BitVec.ofNat 8)

/-- The tweak of a sector at a physical address under a key (R92). -/
def xtsTweak (key : List Byte) (pa : Nat) : Nat :=
  leNat ((aesEnc (aesKeys (natBytes (key.drop 32))) (tweakBytes pa)).map (BitVec.ofNat 8))

/-- A sector enciphered, and deciphered, under 64 key bytes; the empty key is no encryption (R87, R92). -/
def encipher (key : List Byte) (pa : Nat) (x : List Byte) : List Byte :=
  if key.isEmpty then x else xtsSector (aesEnc (aesKeys (natBytes (key.take 32)))) (xtsTweak key pa) x
def decipher (key : List Byte) (pa : Nat) (x : List Byte) : List Byte :=
  if key.isEmpty then x else xtsSector (aesDec (aesKeys (natBytes (key.take 32)))) (xtsTweak key pa) x

end Sys2Proof.Machine
end

