-- ==== Sys2Proof/Config.lean ====
section
/-! DEFINITION. What an LN-7256 package fixes for itself, and the values the manual leaves open. The opaque constants have no body: no proof can see their value. -/

namespace Sys2Proof.Config

/-- The encoding identity of this stepping (R1, R20). -/
def encid : BitVec 32 := 0x7C1A0E35#32

/-- Number of cores (R11), partitions (R15), contexts per partition (R21) and streams per job (R21). -/
def nCores : Nat := 256
def nParts : Nat := 16
def nCtxs : Nat := 8
def nStreams : Nat := 5

/-- First physical address of each range of R68. -/
def hbmEnd : Nat := 0x6000000000
def recordBase : Nat := 0x6000000000
def recordSize : Nat := 0x4000000
def vaultBase : Nat := 0x8000000000
def vaultStride : Nat := 0x1000000
def coreBase : Nat := 0x8100000000
def coreStride : Nat := 0x400000
def pctlBase : Nat := 0x8200000000
def pctlSize : Nat := 0x1000000
def capBase : Nat := 0x8300000000
def capSize : Nat := 0x10000
def hostBase : Nat := 0x1000000000000
def physEnd : Nat := 0x10000000000000

/-- Sizes within the core window and the vault (R70, R72, R74). -/
def scratchSize : Nat := 0x180000
def accOffset : Nat := 0x200000
def accSize : Nat := 0x80000
def descOffset : Nat := 0x300000
def sregOffset : Nat := 0x310000
def keepOffset : Nat := 0x320000
def blockOffset : Nat := 0x3A0000
def recOffset : Nat := 0x3A2000
def vaultSize : Nat := 0xC00000

/-- The package id of this package (R316: "per package"). DESIGN CHOICE free value, safe; entry 7. -/
opaque pkgid : BitVec 5

/-- The fused critical trip temperature (R328: "fused for each part"), before it is bounded. DESIGN CHOICE free value, safe; entry 7. -/
opaque critRaw : BitVec 16

/-- CRIT lies between 0x0640 and 0x06E0 whatever was fused (R328). -/
def crit : BitVec 16 := 0x0640#16 + BitVec.ofNat 16 (critRaw.toNat % 0xA1)

/-- Calendar cycles that pass with the step of counter value `n`. DESIGN CHOICE free value: timing is not modelled; entry 2. -/
opaque elapsed : Nat → Nat

/-- The raw choice of which level serves the request of counter value `n` (R79: "cannot be told in advance"). Free value, safe; entry 7. -/
opaque servedRaw : Nat → Nat

/-- The m that a completion reports: 0 when no request went to HBM, else 3 to 8 (R81). -/
def servedM (n : Nat) : Nat :=
  let r := servedRaw n % 7
  if r = 0 then 0 else r + 2

/-- Core cycles a stream is frozen by the instruction-cache miss of counter value `n` (R64, R66). Free value, safe; entry 2. -/
opaque missCycles : Nat → Nat

/-- The fused hash of the image's public key (R324 step 4). Free value, safe; entry 14. -/
opaque fusedKeyHash : BitVec 256

/-- The fused minimum of the security version number (R324 step 6). Free value, safe; entry 14. -/
opaque fusedSvn : BitVec 64

/-- Bytes of the signature of an attestation report: it rests on the device identity key (R325). Free value, safe; entry 14. -/
opaque reportByte : Nat → Nat → Byte

/-- Whether an intake command goes before a job's copy at counter value `n` (R249: "not ordered"). Free value, safe; entry 22. -/
opaque intakeFirst : Nat → Bool

/-- Whether the host completes the read of host memory at address `a` at counter value `n` with Unsupported Request or Completer Abort (R321). Free value, safe; entry 13. -/
opaque hostRefuses : Nat → Nat → Bool

/-- Whether an uncorrectable error strikes the mesh or seam traffic that completes at counter value `n` (R17). Free value, safe; entry 12. -/
opaque transitError : Nat → Bool

/-- The whole rotations by which a recalled access completes later, less 1, at counter value `n` (R78). Free value, safe; entry 7. -/
opaque recallRaw : Nat → Nat

/-- Which 64-byte unit of a remote store the destination's fault names, before it is bounded, at counter value `n` (R114, R235). Free value, safe; entry 13. -/
opaque remoteUnit : Nat → Nat

/-- Whether a VQ operation has a further part at counter value `n`, and which lanes of its accumulator rows are named for it (R201: "chosen lane by lane"). Free values, safe; entry 9. -/
opaque vqParts : Nat → Bool
opaque vqLane : Nat → Nat → Nat → Bool

end Sys2Proof.Config
end

