-- ==== Sys2Proof/Syntax.lean ====
section
/-! DEFINITION. The steps of the LN-7256: one constructor for each row of spec/opcode_table.json. Rows with an encoding (R136, R142) carry the fields of their word; rows without one are events of the part, and carry what tells one such event from another. -/

namespace Sys2Proof

/-- A scalar register field s0 to s63 (R137). -/
abbrev Reg := BitVec 6
/-- A vector register field v0 to v63 (R137, R146). -/
abbrev VReg := BitVec 6
/-- A mask register m0 to m7 (R137). -/
abbrev MReg := BitVec 3
/-- An accumulator tile a0 to a7 (R137). -/
abbrev TileNo := BitVec 3
/-- A queue handle (R137, R149). -/
abbrev Handle := BitVec 5
/-- An address pattern p0 to p7 (R224). -/
abbrev Pat := BitVec 3
/-- A core number (R11). -/
abbrev CoreNo := BitVec 8
/-- A partition number (R15). -/
abbrev PartNo := BitVec 4
/-- A context number (R21). -/
abbrev CtxNo := BitVec 3

/-- Rounding modes of an encoding (R142, R143, R238). -/
inductive Rounding where
  | rne | rtz | rdn | rup
  deriving DecidableEq, Repr

/-- Ordering suffix of an atomic (R143). -/
inductive Order where
  | rlx | acq | rel | ar | sc
  deriving DecidableEq, Repr

/-- Width of an atomic (R143). -/
inductive Width where
  | w | d
  deriving DecidableEq, Repr

/-- Operand spaces of the A and X engines (R224). -/
inductive Space where
  | va | vault | scratch
  deriving DecidableEq, Repr

/-- Target types of VCVT, by type code (R8, R143). -/
inductive CvtType where
  | f32 | bf16 | f16 | i32
  deriving DecidableEq, Repr

/-- Operations of vscan (R209). -/
inductive ScanOp where
  | add | max | min
  deriving DecidableEq, Repr

/-- Bulk bank-side operations (R241). -/
inductive VaultOp where
  | radd | fadd | max | cas | sac
  deriving DecidableEq, Repr

/-- Out-of-range modes of a table slot (R219). -/
inductive OobMode where
  | clamp | identity | zero | extend
  deriving DecidableEq, Repr

/-- Completion actions (R243). -/
inductive Action where
  | none | decrement | interrupt | arrival
  deriving DecidableEq, Repr

/-- Identity registers read by rdid (R142). -/
inductive IdReg where
  | coreid | streamid | jobid | part
  deriving DecidableEq, Repr

/-- The two copy queues of the X engine (R103, R235). -/
inductive XQueue where | xvq | xhq
  deriving DecidableEq, Repr

/-- The queues whose requests travel to memory (R103). -/
inductive MQueue where | lq | sq | aq | xhq
  deriving DecidableEq, Repr

/-- The matrix operations an xflw word may carry (R140). -/
inductive FollowForm where | mmac | mmacs | mmacg | mmacsg | mclr
  deriving DecidableEq, Repr

/-- The M word carried by xflw (R140, R240). -/
structure Follow where
  form : FollowForm
  acc : TileNo
  qa : Handle
  qb : Handle
  qm : Handle
  deriving DecidableEq, Repr

/-- What bytes 5 to 251 of a link flit say (R322, R114), whose coding the spec does not give (log entry 37): a remote store of `bytes` to `va` in a context of a partition. -/
structure Flit where
  dest : BitVec 5
  part : PartNo
  ctx : CtxNo
  va : Word
  bytes : List Byte
  arrival : Option (BitVec 12)
  deriving DecidableEq, Repr

/-- A write by firmware to a register with no behaviour of its own: in a partition's block (R316), or to the routing table, the port enables or the key port, for which the spec gives no address (R323, R326). -/
inductive RegWrite where
  | block (p : PartNo) (offset : BitVec 20) (v : Word)
  | route (pkg : BitVec 5) (port : Option (BitVec 4))
  | ports (mask : BitVec 13)
  | key (slot : BitVec 9) (bytes : List Byte)
  deriving DecidableEq, Repr

/-- A host request through a virtual function or function 0 (R319, R320, R332). Function `fn` 0 is function 0, p + 1 is partition p. -/
inductive HostReq where
  | bar0Read (fn : BitVec 5) (offset : BitVec 20) (n : BitVec 4)
  | bar0Write (fn : BitVec 5) (offset : BitVec 20) (bytes : List Byte)
  | bar2Read (fn : BitVec 5) (offset : BitVec 39) (n : BitVec 7)
  | bar2Write (fn : BitVec 5) (offset : BitVec 39) (bytes : List Byte)
  | fetchAdd (fn : BitVec 5) (offset : BitVec 39) (wd : Width) (v : Word)
  | swap (fn : BitVec 5) (offset : BitVec 39) (wd : Width) (v : Word)
  | cas (fn : BitVec 5) (offset : BitVec 39) (wd : Width) (c v : Word)
  | unsupported (fn : BitVec 5)
  deriving DecidableEq, Repr

/-- One step of the part: an instruction, or an event that has no word. -/
inductive Instr where
  /-- ADD (R160). Writes the wrapped 64-bit sum of s[a] and s[b] to s[d]. -/
  | add (d : Reg) (a : Reg) (b : Reg)
  /-- SUB (R160). Writes the wrapped difference s[a] − s[b] to s[d]. -/
  | sub (d : Reg) (a : Reg) (b : Reg)
  /-- AND (R160). Writes the bitwise AND of s[a] and s[b] to s[d]. -/
  | and (d : Reg) (a : Reg) (b : Reg)
  /-- OR (R160). Writes the bitwise OR of s[a] and s[b] to s[d]. -/
  | or (d : Reg) (a : Reg) (b : Reg)
  /-- XOR (R160). Writes the bitwise XOR of s[a] and s[b] to s[d]. -/
  | xor (d : Reg) (a : Reg) (b : Reg)
  /-- ANDN (R160). Writes s[a] AND NOT s[b] to s[d]. -/
  | andn (d : Reg) (a : Reg) (b : Reg)
  /-- SLL (R160). Shifts s[a] left by s[b][5:0], with zeros shifted in. -/
  | sll (d : Reg) (a : Reg) (b : Reg)
  /-- SRL (R160). Shifts s[a] right by s[b][5:0], with zeros shifted in. -/
  | srl (d : Reg) (a : Reg) (b : Reg)
  /-- SRA (R160). Shifts s[a] right by s[b][5:0], with copies of bit 63 shifted in. -/
  | sra (d : Reg) (a : Reg) (b : Reg)
  /-- ROL (R160). Rotates s[a] left by s[b][5:0]. -/
  | rol (d : Reg) (a : Reg) (b : Reg)
  /-- MUL (R160). Writes the low 64 bits of s[a] × s[b] to s[d]. -/
  | mul (d : Reg) (a : Reg) (b : Reg)
  /-- MULH (R160). Writes the high 64 bits of the signed 128-bit product to s[d]. -/
  | mulh (d : Reg) (a : Reg) (b : Reg)
  /-- MULHU (R160). Writes the high 64 bits of the unsigned 128-bit product to s[d]. -/
  | mulhu (d : Reg) (a : Reg) (b : Reg)
  /-- DIV (R160). Writes the signed quotient to s[d] under the division rules of R118. -/
  | div (d : Reg) (a : Reg) (b : Reg)
  /-- DIVU (R160). Writes the unsigned quotient to s[d] under R118. -/
  | divu (d : Reg) (a : Reg) (b : Reg)
  /-- REM (R160). Writes the signed remainder to s[d] under R118. -/
  | rem (d : Reg) (a : Reg) (b : Reg)
  /-- REMU (R160). Writes the unsigned remainder to s[d] under R118. -/
  | remu (d : Reg) (a : Reg) (b : Reg)
  /-- MIN (R160). Writes the signed lesser of s[a] and s[b] to s[d]. -/
  | min (d : Reg) (a : Reg) (b : Reg)
  /-- MINU (R160). Writes the unsigned lesser of s[a] and s[b] to s[d]. -/
  | minu (d : Reg) (a : Reg) (b : Reg)
  /-- MAX (R160). Writes the signed greater of s[a] and s[b] to s[d]. -/
  | max (d : Reg) (a : Reg) (b : Reg)
  /-- MAXU (R160). Writes the unsigned greater of s[a] and s[b] to s[d]. -/
  | maxu (d : Reg) (a : Reg) (b : Reg)
  /-- SEQ (R160). Writes 1 to s[d] if s[a] equals s[b], else 0. -/
  | seq (d : Reg) (a : Reg) (b : Reg)
  /-- SNE (R160). Writes 1 to s[d] if s[a] differs from s[b], else 0. -/
  | sne (d : Reg) (a : Reg) (b : Reg)
  /-- SLT (R160). Writes 1 to s[d] if s[a] < s[b] as signed values, else 0. -/
  | slt (d : Reg) (a : Reg) (b : Reg)
  /-- SLTU (R160). Writes 1 to s[d] if s[a] < s[b] as unsigned values, else 0. -/
  | sltu (d : Reg) (a : Reg) (b : Reg)
  /-- SLE (R160). Writes 1 to s[d] if s[a] ≤ s[b] as signed values, else 0. -/
  | sle (d : Reg) (a : Reg) (b : Reg)
  /-- SLEU (R160). Writes 1 to s[d] if s[a] ≤ s[b] as unsigned values, else 0. -/
  | sleu (d : Reg) (a : Reg) (b : Reg)
  /-- CLZ (R160). Writes the number of leading zero bits of s[a] to s[d]. -/
  | clz (d : Reg) (a : Reg)
  /-- CTZ (R160). Writes the number of trailing zero bits of s[a] to s[d]. -/
  | ctz (d : Reg) (a : Reg)
  /-- POPC (R160). Writes the number of one bits of s[a] to s[d]. -/
  | popc (d : Reg) (a : Reg)
  /-- BSWAP (R160). Writes the eight bytes of s[a] in reverse order to s[d]. -/
  | bswap (d : Reg) (a : Reg)
  /-- SEXB (R160). Sign-extends the low byte of s[a] into s[d]. -/
  | sexb (d : Reg) (a : Reg)
  /-- SEXH (R160). Sign-extends the low half of s[a] into s[d]. -/
  | sexh (d : Reg) (a : Reg)
  /-- SEXW (R160). Sign-extends the low word of s[a] into s[d]. -/
  | sexw (d : Reg) (a : Reg)
  /-- FADD (R160). Writes the f32 sum of the operands, rounded to nearest even, and sets flags. -/
  | fadd (d : Reg) (a : Reg) (b : Reg)
  /-- FSUB (R160). Writes the f32 difference of the operands, rounded to nearest even, and sets flags. -/
  | fsub (d : Reg) (a : Reg) (b : Reg)
  /-- FMUL (R160). Writes the f32 product of the operands, rounded to nearest even, and sets flags. -/
  | fmul (d : Reg) (a : Reg) (b : Reg)
  /-- FDIV (R160). Writes the f32 quotient of the operands, rounded to nearest even, and sets flags. -/
  | fdiv (d : Reg) (a : Reg) (b : Reg)
  /-- FMIN (R160). Writes the f32 minimum of the operands under R128. -/
  | fmin (d : Reg) (a : Reg) (b : Reg)
  /-- FMAX (R160). Writes the f32 maximum of the operands under R128. -/
  | fmax (d : Reg) (a : Reg) (b : Reg)
  /-- FMINP (R160). Writes the NaN-propagating f32 minimum of the operands. -/
  | fminp (d : Reg) (a : Reg) (b : Reg)
  /-- FMAXP (R160). Writes the NaN-propagating f32 maximum of the operands. -/
  | fmaxp (d : Reg) (a : Reg) (b : Reg)
  /-- FCVTFI (R161). Converts an f32 to i32 in the named rounding mode and sign-extends the result into s[d]. -/
  | fcvtfi (d : Reg) (a : Reg) (rm : Rounding)
  /-- FCVTIF (R161). Converts an i32 to f32 in the named rounding mode. -/
  | fcvtif (d : Reg) (a : Reg) (rm : Rounding)
  /-- FEQ (R160). Writes 1 to s[d] if the f32 operands compare equal under R120, else 0. -/
  | feq (d : Reg) (a : Reg) (b : Reg)
  /-- FLT (R160). Writes 1 to s[d] if the first f32 operand is less than the second under R120, else 0. -/
  | flt (d : Reg) (a : Reg) (b : Reg)
  /-- FLE (R160). Writes 1 to s[d] if the first f32 operand is less than or equal to the second under R120, else 0. -/
  | fle (d : Reg) (a : Reg) (b : Reg)
  /-- ADDI (R162). Adds the sign-extended imm11 to s[a]. -/
  | addi (d : Reg) (a : Reg) (imm : BitVec 11)
  /-- ANDI (R162). ANDs s[a] with the sign-extended imm11. -/
  | andi (d : Reg) (a : Reg) (imm : BitVec 11)
  /-- ORI (R162). ORs s[a] with the sign-extended imm11. -/
  | ori (d : Reg) (a : Reg) (imm : BitVec 11)
  /-- XORI (R162). XORs s[a] with the sign-extended imm11. -/
  | xori (d : Reg) (a : Reg) (imm : BitVec 11)
  /-- SLLI (R162). Shifts s[a] left by imm11[5:0]. -/
  | slli (d : Reg) (a : Reg) (sh : BitVec 6)
  /-- SRLI (R162). Shifts s[a] right logically by imm11[5:0]. -/
  | srli (d : Reg) (a : Reg) (sh : BitVec 6)
  /-- SRAI (R162). Shifts s[a] right arithmetically by imm11[5:0]. -/
  | srai (d : Reg) (a : Reg) (sh : BitVec 6)
  /-- SLTI (R162). Writes 1 to s[d] if signed s[a] is less than the sign-extended imm11, else 0. -/
  | slti (d : Reg) (a : Reg) (imm : BitVec 11)
  /-- LUI (R163). Writes sext(off20) × 2^11 to s[d]. -/
  | lui (d : Reg) (imm : BitVec 20)
  /-- LIX (R163). Writes the sign-extended 32-bit extension word to s[d]. -/
  | lix (d : Reg) (imm : BitVec 32)
  /-- LIHX (R163). Writes the extension word to s[d][63:32] and keeps the low half. -/
  | lihx (d : Reg) (imm : BitVec 32)
  /-- ADDX (R163). Adds the sign-extended 32-bit extension word to s[a]. -/
  | addx (d : Reg) (a : Reg) (imm : BitVec 32)
  /-- BEQ (R164). Branches when s[a] equals s[b]. -/
  | beq (a : Reg) (b : Reg) (off : BitVec 11)
  /-- BNE (R164). Branches when s[a] differs from s[b]. -/
  | bne (a : Reg) (b : Reg) (off : BitVec 11)
  /-- BLT (R164). Branches when s[a] < s[b] as signed values. -/
  | blt (a : Reg) (b : Reg) (off : BitVec 11)
  /-- BGE (R164). Branches when s[a] ≥ s[b] as signed values. -/
  | bge (a : Reg) (b : Reg) (off : BitVec 11)
  /-- BLTU (R164). Branches when s[a] < s[b] as unsigned values. -/
  | bltu (a : Reg) (b : Reg) (off : BitVec 11)
  /-- BGEU (R164). Branches when s[a] ≥ s[b] as unsigned values. -/
  | bgeu (a : Reg) (b : Reg) (off : BitVec 11)
  /-- BSET (R164). Branches when s[a] AND s[b] is nonzero. -/
  | bset (a : Reg) (b : Reg) (off : BitVec 11)
  /-- BCLR (R164). Branches when s[a] AND s[b] is zero. -/
  | bclr (a : Reg) (b : Reg) (off : BitVec 11)
  /-- JAL (R165). Writes PC + 4 to s[d] and jumps PC-relative. -/
  | jal (d : Reg) (off : BitVec 20)
  /-- JALR (R165). Writes PC + 4 to s[d] and jumps to s[a] + imm with bits [1:0] cleared. -/
  | jalr (d : Reg) (a : Reg) (imm : BitVec 11)
  /-- LOOP (R166). Starts a hardware loop whose count is taken from a scalar register. -/
  | loop (lvl : BitVec 2) (len : BitVec 10) (s : Reg)
  /-- LOOPI (R166). Starts a hardware loop with an immediate count. -/
  | loopi (lvl : BitVec 2) (len : BitVec 10) (cnt : BitVec 12)
  /-- LOOPK (R166). Starts a hardware loop whose count is taken from a step register. -/
  | loopk (lvl : BitVec 2) (len : BitVec 10) (k : BitVec 4)
  /-- LOOPM (R166). Starts a hardware loop whose count is taken from a partition mailbox word. -/
  | loopm (lvl : BitVec 2) (len : BitVec 10) (s : Reg)
  /-- QWAIT (R171). Waits until every named queue has at least n filled slots. -/
  | qwait (qa : Handle) (qb : Option Handle) (qd : Option Handle) (n : BitVec 3)
  /-- QROOM (R171). Waits until every named queue has at least n free slots. -/
  | qroom (qa : Handle) (qb : Option Handle) (qd : Option Handle) (n : BitVec 3)
  /-- QADV (R171). Waits for the consuming operations to be performed, then advances HEAD by n. -/
  | qadv (qa : Handle) (qb : Option Handle) (qd : Option Handle) (n : BitVec 3)
  /-- QADVP (R171). Waits for the producing writes to be performed, then advances TAIL by n. -/
  | qadvp (qa : Handle) (qb : Option Handle) (qd : Option Handle) (n : BitVec 3)
  /-- QRST (R171). Waits until no operation naming the queue is outstanding, then resets HEAD and TAIL to 0. -/
  | qrst (qa : Handle) (qb : Option Handle) (qd : Option Handle)
  /-- QPOP (R172). Waits for a filled slot, reads the head slot into s[d] and advances HEAD by 1. -/
  | qpop (d : Reg) (q : Handle)
  /-- QPEEK (R172). Waits until slot HEAD + j is filled and reads it without moving any pointer. -/
  | qpeek (d : Reg) (a : Reg) (q : Handle)
  /-- QPUT (R172). Waits for a free slot, writes s[a] into the tail slot and advances TAIL by 1. -/
  | qput (a : Reg) (q : Handle)
  /-- QCFG (R172). Waits until no operation names the handle, then copies a 64-byte descriptor from scratchpad. -/
  | qcfg (a : Reg) (q : Handle)
  /-- QCNT (R172). Returns the filled and free slot counts of a queue without waiting. -/
  | qcnt (d : Reg) (q : Handle)
  /-- BQT (R173). Waits for an outcome slot and branches if its bit is 1. -/
  | bqt (q : Handle) (off : BitVec 11)
  /-- BQF (R173). Waits for an outcome slot and branches if its bit is 0. -/
  | bqf (q : Handle) (off : BitVec 11)
  /-- NOP (R174). Does nothing. -/
  | nop
  /-- RDV_0 (R35). Arrives at the barrier among all five streams of the job and waits. -/
  | rdv0
  /-- RDV_END (R35). Ends the stream; the stream issues nothing more in this job. -/
  | rdvEnd
  /-- RDV_STREAM_SET (R174). Arrives at the barrier among the named set of streams and waits. -/
  | rdvStreamSet (set : BitVec 5)
  /-- RDV_COMPLETE (R35). Four cycles after the last arrival, all waiting streams resume together. -/
  | rdvComplete (n : CoreNo) (set : BitVec 5)
  /-- PBAR (R176). Arrives in the stream's next phase of a pennant tag and waits for that phase to complete. -/
  | pbar (tag : BitVec 3)
  /-- PBARA (R176). Arrives in the stream's next phase of a pennant tag and continues without waiting. -/
  | pbara (tag : BitVec 3)
  /-- PBARW (R176). Waits for completion of the phase of the stream's latest pbara on the tag. -/
  | pbarw (tag : BitVec 3)
  /-- PENNANT_ARRIVAL (R112). A stream's arrival on a pennant tag is signalled once its earlier queued operations have been performed. -/
  | pennantArrival (n : CoreNo) (t : BitVec 3)
  /-- PENNANT_COMPLETION (R112). A pennant phase completes 40 or 120 cycles after its last arrival. -/
  | pennantCompletion (p : PartNo) (c : CtxNo) (tag : BitVec 3)
  /-- WFI (R177). Waits until an interrupt, a queue, a window or a pennant event occurs. -/
  | wfi
  /-- IPREF (R178). Prefetches n instruction-cache lines starting at s[a]. -/
  | ipref (a : Reg) (n : BitVec 6)
  /-- RDC (R179). Reads a control register into s[d]. -/
  | rdc (d : Reg) (n : BitVec 12)
  /-- WRC (R179). Writes s[d] to a control register. -/
  | wrc (d : Reg) (n : BitVec 12)
  /-- RDK (R179). Reads a step register into s[d]. -/
  | rdk (d : Reg) (k : BitVec 4)
  /-- RDCYC (R179). Reads CYCLE into s[d]. -/
  | rdcyc (d : Reg)
  /-- RDID (R179). Reads COREID, STREAMID, JOBID or PART into s[d]. -/
  | rdid (d : Reg) (which : IdReg)
  /-- RDLOOP (R28). Returns the task's index at a spatial loop level, or the trip count of a temporal level. -/
  | rdloop (d : Reg) (level : BitVec 3)
  /-- LDB (R180). Loads a zero-extended byte. -/
  | ldb (d : Reg) (a : Reg) (imm : BitVec 11)
  /-- LDBS (R180). Loads a sign-extended byte. -/
  | ldbs (d : Reg) (a : Reg) (imm : BitVec 11)
  /-- LDH (R180). Loads a zero-extended half. -/
  | ldh (d : Reg) (a : Reg) (imm : BitVec 11)
  /-- LDHS (R180). Loads a sign-extended half. -/
  | ldhs (d : Reg) (a : Reg) (imm : BitVec 11)
  /-- LDW (R180). Loads a zero-extended word. -/
  | ldw (d : Reg) (a : Reg) (imm : BitVec 11)
  /-- LDWS (R180). Loads a sign-extended word. -/
  | ldws (d : Reg) (a : Reg) (imm : BitVec 11)
  /-- LDD (R180). Loads a dword. -/
  | ldd (d : Reg) (a : Reg) (imm : BitVec 11)
  /-- STB (R180). Stores a byte. -/
  | stb (d : Reg) (a : Reg) (imm : BitVec 11)
  /-- STH (R180). Stores a half. -/
  | sth (d : Reg) (a : Reg) (imm : BitVec 11)
  /-- STW (R180). Stores a word. -/
  | stw (d : Reg) (a : Reg) (imm : BitVec 11)
  /-- STD (R180). Stores a dword. -/
  | std (d : Reg) (a : Reg) (imm : BitVec 11)
  /-- LSMARK (R101). Enters both C-stream queues as a marker that orders everything ahead of it before everything behind it. -/
  | lsmark
  /-- L1INV (R181). Invalidates the L1 lines that overlap a range. -/
  | l1inv (a : Reg) (b : Reg)
  /-- L1INVA (R181). Invalidates every L1 line that is not owned. -/
  | l1inva
  /-- PREF (R181). Allocates the line that holds s[a] in L1 when it is readable HBM. -/
  | pref (a : Reg)
  /-- OWN (R182). Registers an owned range of HBM lines and returns a status. -/
  | own (d : Reg) (a : Reg) (b : Reg)
  /-- DISOWN (R182). Releases an owned range, writing its dirty lines to L2. -/
  | disown (d : Reg) (a : Reg)
  /-- AMOADD (R183). Atomically adds the operand to the memory word or dword and returns the old value. -/
  | amoadd (d : Reg) (a : Reg) (b : Reg) (ord : Order) (wd : Width)
  /-- AMOAND (R183). Atomically ANDs the operand into memory and returns the old value. -/
  | amoand (d : Reg) (a : Reg) (b : Reg) (ord : Order) (wd : Width)
  /-- AMOOR (R183). Atomically ORs the operand into memory and returns the old value. -/
  | amoor (d : Reg) (a : Reg) (b : Reg) (ord : Order) (wd : Width)
  /-- AMOXOR (R183). Atomically XORs the operand into memory and returns the old value. -/
  | amoxor (d : Reg) (a : Reg) (b : Reg) (ord : Order) (wd : Width)
  /-- AMOMIN (R183). Atomically stores the signed minimum and returns the old value. -/
  | amomin (d : Reg) (a : Reg) (b : Reg) (ord : Order) (wd : Width)
  /-- AMOMINU (R183). Atomically stores the unsigned minimum and returns the old value. -/
  | amominu (d : Reg) (a : Reg) (b : Reg) (ord : Order) (wd : Width)
  /-- AMOMAX (R183). Atomically stores the signed maximum and returns the old value. -/
  | amomax (d : Reg) (a : Reg) (b : Reg) (ord : Order) (wd : Width)
  /-- AMOMAXU (R183). Atomically stores the unsigned maximum and returns the old value. -/
  | amomaxu (d : Reg) (a : Reg) (b : Reg) (ord : Order) (wd : Width)
  /-- AMOSWP (R183). Atomically swaps the operand into memory and returns the old value. -/
  | amoswp (d : Reg) (a : Reg) (b : Reg) (ord : Order) (wd : Width)
  /-- AMOCAS (R183). Atomically compares memory with s[d] and exchanges on a match, returning the old value. -/
  | amocas (d : Reg) (a : Reg) (b : Reg) (ord : Order) (wd : Width)
  /-- AMOFADD (R183). Atomically adds an f32 to a memory word with no flags set and returns the old word. -/
  | amofadd (d : Reg) (a : Reg) (b : Reg) (ord : Order)
  /-- FENCE (R104). Acts as a qfence of all seven queues, waits for earlier spawns and depdecs, and is an acquire. -/
  | fence
  /-- QFENCE (R104). Waits until every earlier operation of the named queues has been performed. -/
  | qfence (mask : BitVec 7)
  /-- SPAWN (R58). Creates a task of a named node and returns a ticket or a failure status. -/
  | spawn (d : Reg) (a : Reg) (b : Reg)
  /-- SPWAIT (R59). Waits until the ticket's task is complete. -/
  | spwait (d : Reg) (a : Reg)
  /-- SPTEST (R59). Returns whether the ticket's task is complete, without waiting. -/
  | sptest (d : Reg) (a : Reg)
  /-- DEPDEC (R50). Decrements a named task's dependence counter and returns a status. -/
  | depdec (d : Reg) (a : Reg)
  /-- DEPINC (R50). Increments a named task's dependence counter and returns a status. -/
  | depinc (d : Reg) (a : Reg)
  /-- WLCFG (R187). Binds a work-list descriptor to a list number, or unbinds it. -/
  | wlcfg (d : Reg) (a : Reg) (b : Reg)
  /-- WLPUSH (R187). Appends a value to a work-list. -/
  | wlpush (d : Reg) (a : Reg) (b : Reg)
  /-- WLINS (R187). Appends a value unless its presence bit is already set. -/
  | wlins (d : Reg) (a : Reg) (b : Reg)
  /-- WLPOPB (R187). Pops up to n entries into memory. -/
  | wlpopb (d : Reg) (a : Reg) (b : Reg)
  /-- WLCNT (R187). Returns the number of entries a work-list holds. -/
  | wlcnt (d : Reg) (a : Reg)
  /-- WLDRAIN (R187). Removes every entry of a work-list. -/
  | wldrain (d : Reg) (a : Reg)
  /-- FRNCK (R283). Probes a Firn entry and, on a hit, copies the cached result into the result buffer. -/
  | frnck (d : Reg) (a : Reg) (b : Reg)
  /-- FRNPUT (R283). Requests installation of a tile's input and result as the Firn entry. -/
  | frnput (d : Reg) (a : Reg) (b : Reg)
  /-- FRNINV (R283). Empties a Firn entry. -/
  | frninv (d : Reg) (a : Reg) (b : Reg)
  /-- FRNSTAT (R283). Returns the FRNSTAT word of a Firn entry. -/
  | frnstat (d : Reg) (a : Reg) (b : Reg)
  /-- FRNFLUSH (R283). Empties every Firn entry of a layer, or of the whole graph. -/
  | frnflush (d : Reg) (a : Reg)
  /-- INSTALLATION (R281). Writes the input and result into a free arena slot and makes it the current entry. -/
  | installation (n : CoreNo)
  /-- VTADD (R189). Reduce-adds into a vault word through the window and returns the old word. -/
  | vtadd (d : Reg) (a : Reg) (b : Reg)
  /-- VTFADD (R189). Performs an FP32 add on a vault word and returns the old word. -/
  | vtfadd (d : Reg) (a : Reg) (b : Reg)
  /-- VTMAX (R189). Performs a max on a vault word and returns the old word. -/
  | vtmax (d : Reg) (a : Reg) (b : Reg)
  /-- VTCAS (R189). Performs a compare-exchange on a vault word and returns the old word. -/
  | vtcas (d : Reg) (a : Reg) (b : Reg)
  /-- VTSAC (R189). Performs a scale-accumulate on a vault word and returns the old word. -/
  | vtsac (d : Reg) (a : Reg) (b : Reg)
  /-- BANK_SIDE_OPERATION (R75). A vault bank applies an arriving read-compute-write on one word indivisibly. -/
  | bankSideOperation (n : CoreNo)
  /-- TRAP (R190). Raises TRAP with s[a] recorded in the status word. -/
  | trap (a : Reg)
  /-- ERET (R298). Returns from the supervisor handler, restarting the handled stream. -/
  | eret
  /-- UIRET (R191). Returns from the user-interrupt handler. -/
  | uiret
  /-- BRK (R190). Raises BREAK. -/
  | brk
  /-- SYSC (R190). Raises TRAP with status bit 63 set and EPC at the next instruction. -/
  | sysc (a : Reg)
  /-- RTFILL (R192). Completes a retry-ring entry and replays or fills the accesses parked behind it. -/
  | rtfill (d : Reg) (a : Reg)
  /-- RTNEXT (R192). Returns the index of the oldest pending retry-ring entry. -/
  | rtnext (d : Reg)
  /-- RESUME (R193). Restarts a job suspended by an index fault at its progress cursor. -/
  | resume (d : Reg) (a : Reg)
  /-- KILL (R193). Ends a staged or active job and completes its task. -/
  | kill (d : Reg) (a : Reg)
  /-- TLBINV (R194). Invalidates translations of a page, of the context or of the partition. -/
  | tlbinv (a : Reg) (b : Reg)
  /-- APCFG (R224). Configures an address pattern from a dimension block. -/
  | apcfg (p : Pat) (a : Reg) (b : Reg) (space : Space) (lge : BitVec 4) (dims : BitVec 2)
  /-- ASTRM (R226). Reads the next n pattern elements into slots of a data queue. -/
  | astrm (q : Handle) (p : Pat) (n : BitVec 3)
  /-- ASTRO (R226). Writes n queue slots out to the next pattern elements. -/
  | astro (q : Handle) (p : Pat) (n : BitVec 3)
  /-- AGATH (R227). Gathers elements named by an index queue into a data queue. -/
  | agath (q : Handle) (qi : Handle) (p : Pat) (n : BitVec 3)
  /-- ASCAT (R227). Scatters data-queue slots to elements named by an index queue. -/
  | ascat (q : Handle) (qi : Handle) (p : Pat) (n : BitVec 3)
  /-- AWCFG (R231). Configures the window generator and returns the output position count. -/
  | awcfg (d : Reg) (a : Reg) (b : Reg) (space : Space) (lge : BitVec 2)
  /-- AWIN (R234). Writes the next n window slots of the current pass into a queue. -/
  | awin (q : Handle) (n : BitVec 3)
  /-- AWPASS (R233). Selects a window pass and returns its slot count. -/
  | awpass (d : Reg) (a : Reg)
  /-- APRF (R230). Prefetches the lines of the next pattern elements into L2. -/
  | aprf (a : Reg) (p : Pat)
  /-- AQ_OPERATION_PERFORMED (R228). An A-stream memory operation is performed, or fails at an element and raises its cause at the next boundary. -/
  | aqOperationPerformed (n : CoreNo)
  /-- VADD (R203). Adds the rows lane by lane. -/
  | vadd (d : VReg) (a : VReg) (b : VReg)
  /-- VSUB (R203). Subtracts the rows lane by lane. -/
  | vsub (d : VReg) (a : VReg) (b : VReg)
  /-- VMUL (R203). Multiplies the rows lane by lane. -/
  | vmul (d : VReg) (a : VReg) (b : VReg)
  /-- VFMA (R203). Computes x × y + z per lane with a single rounding. -/
  | vfma (d : VReg) (a : VReg) (b : VReg)
  /-- VFMS (R203). Computes x × y − z per lane with a single rounding. -/
  | vfms (d : VReg) (a : VReg) (b : VReg)
  /-- VFNMA (R203). Computes −(x × y) + z per lane with a single rounding. -/
  | vfnma (d : VReg) (a : VReg) (b : VReg)
  /-- VMIN (R203). Takes the lane minimum. -/
  | vmin (d : VReg) (a : VReg) (b : VReg)
  /-- VMAX (R203). Takes the lane maximum. -/
  | vmax (d : VReg) (a : VReg) (b : VReg)
  /-- VMINP (R203). Takes the NaN-propagating lane minimum. -/
  | vminp (d : VReg) (a : VReg) (b : VReg)
  /-- VMAXP (R203). Takes the NaN-propagating lane maximum. -/
  | vmaxp (d : VReg) (a : VReg) (b : VReg)
  /-- VABS (R203). Takes the lane absolute value. -/
  | vabs (d : VReg) (a : VReg)
  /-- VNEG (R203). Negates each lane. -/
  | vneg (d : VReg) (a : VReg)
  /-- VDIV (R203). Divides the rows lane by lane. -/
  | vdiv (d : VReg) (a : VReg) (b : VReg)
  /-- VSQRT (R203). Takes the square root of each lane. -/
  | vsqrt (d : VReg) (a : VReg)
  /-- VSGN (R203). Takes the sign of each lane. -/
  | vsgn (d : VReg) (a : VReg)
  /-- VAND (R204). Takes the bitwise AND of the rows. -/
  | vand (d : VReg) (a : VReg) (b : VReg)
  /-- VOR (R204). Takes the bitwise OR of the rows. -/
  | vor (d : VReg) (a : VReg) (b : VReg)
  /-- VXOR (R204). Takes the bitwise XOR of the rows. -/
  | vxor (d : VReg) (a : VReg) (b : VReg)
  /-- VNOT (R204). Takes the bitwise NOT of a row. -/
  | vnot (d : VReg) (a : VReg)
  /-- VSLL (R204). Shifts i32 lanes left. -/
  | vsll (d : VReg) (a : VReg) (b : VReg)
  /-- VSRL (R204). Shifts i32 lanes right logically. -/
  | vsrl (d : VReg) (a : VReg) (b : VReg)
  /-- VSRA (R204). Shifts i32 lanes right arithmetically. -/
  | vsra (d : VReg) (a : VReg) (b : VReg)
  /-- VADDSAT (R204). Adds i32 lanes with saturation. -/
  | vaddsat (d : VReg) (a : VReg) (b : VReg)
  /-- VSUBSAT (R204). Subtracts i32 lanes with saturation. -/
  | vsubsat (d : VReg) (a : VReg) (b : VReg)
  /-- VMULHI (R204). Takes the high 32 bits of the signed lane product. -/
  | vmulhi (d : VReg) (a : VReg) (b : VReg)
  /-- VCEQ (R205). Sets mask bits where the lanes are equal. -/
  | vceq (d : MReg) (a : VReg) (b : VReg)
  /-- VCNE (R205). Sets mask bits where the lanes are not equal. -/
  | vcne (d : MReg) (a : VReg) (b : VReg)
  /-- VCLT (R205). Sets mask bits where a lane is less than the other. -/
  | vclt (d : MReg) (a : VReg) (b : VReg)
  /-- VCLE (R205). Sets mask bits where a lane is less than or equal to the other. -/
  | vcle (d : MReg) (a : VReg) (b : VReg)
  /-- VCGT (R205). Sets mask bits where a lane is greater than the other. -/
  | vcgt (d : MReg) (a : VReg) (b : VReg)
  /-- VCGE (R205). Sets mask bits where a lane is greater than or equal to the other. -/
  | vcge (d : MReg) (a : VReg) (b : VReg)
  /-- VCUN (R205). Sets mask bits where either lane is a NaN. -/
  | vcun (d : MReg) (a : VReg) (b : VReg)
  /-- VSEL (R206). Copies the lanes of row a whose mask bit is set. -/
  | vsel (d : VReg) (a : VReg) (b : MReg)
  /-- MAND (R206). ANDs two mask registers. -/
  | mand (d : MReg) (a : MReg) (b : MReg)
  /-- MOR (R206). ORs two mask registers. -/
  | mor (d : MReg) (a : MReg) (b : MReg)
  /-- MXOR (R206). XORs two mask registers. -/
  | mxor (d : MReg) (a : MReg) (b : MReg)
  /-- MNOT (R206). Inverts a mask register. -/
  | mnot (d : MReg) (a : MReg)
  /-- MPOP (R206). Counts the set bits of a mask register. -/
  | mpop (d : Reg) (a : MReg)
  /-- MFIRST (R206). Returns the index of the lowest set mask bit, or 256. -/
  | mfirst (d : Reg) (a : MReg)
  /-- VCVT (R207). Converts lanes between tile types in the named rounding mode. -/
  | vcvt (d : VReg) (a : VReg) (h : BitVec 1) (t : CvtType) (rm : Rounding) (sat : Bool)
  /-- VRSUM (R208). Sums the masked lanes by a halving tree into lane 0. -/
  | vrsum (d : VReg) (a : VReg) (m : MReg)
  /-- VRMAX (R208). Takes the maximum of the masked lanes into lane 0. -/
  | vrmax (d : VReg) (a : VReg) (m : MReg)
  /-- VRMIN (R208). Takes the minimum of the masked lanes into lane 0. -/
  | vrmin (d : VReg) (a : VReg) (m : MReg)
  /-- VSCAN (R209). Computes an inclusive masked scan in lane order. -/
  | vscan (d : VReg) (a : VReg) (o : ScanOp) (m : MReg)
  /-- VMOV (R210). Copies a row. -/
  | vmov (d : VReg) (a : VReg)
  /-- VBCAST (R210). Broadcasts a scalar into every lane. -/
  | vbcast (d : VReg) (a : Reg)
  /-- VEXT (R210). Extracts one lane into a scalar register. -/
  | vext (d : Reg) (a : VReg) (b : Reg)
  /-- VINS (R210). Inserts a scalar into one lane. -/
  | vins (d : VReg) (a : Reg) (b : Reg)
  /-- VPERM (R211). Permutes lanes by an index row through the crossbar as a VQ operation. -/
  | vperm (d : VReg) (a : VReg) (b : VReg)
  /-- VROT (R210). Rotates the lanes of a row. -/
  | vrot (d : VReg) (a : VReg) (b : Reg)
  /-- VIDX (R210). Writes base + i into each lane i. -/
  | vidx (d : VReg) (a : Reg)
  /-- VPACK (R210). Packs the low halves of two 32-bit rows into a 16-bit row. -/
  | vpack (d : VReg) (a : VReg) (b : VReg)
  /-- VUNPK (R210). Zero-extends half of a 16-bit row into a 32-bit row. -/
  | vunpk (d : VReg) (a : VReg) (h : BitVec 1)
  /-- VLD (R212). Loads n rows from scratchpad through the VQ. -/
  | vld (d : VReg) (a : Reg) (n : BitVec 6)
  /-- VST (R212). Stores n rows to scratchpad through the VQ. -/
  | vst (d : VReg) (a : Reg) (n : BitVec 6)
  /-- VLDQ (R213). Loads n queue slots into rows. -/
  | vldq (d : VReg) (q : Handle) (n : BitVec 3)
  /-- VSTQ (R213). Stores n rows into queue slots. -/
  | vstq (d : VReg) (q : Handle) (n : BitVec 3)
  /-- VGAT (R214). Gathers lanes from scratchpad by an index row. -/
  | vgat (d : VReg) (a : VReg) (b : Reg)
  /-- VSCT (R214). Scatters lanes to scratchpad by an index row. -/
  | vsct (d : VReg) (a : VReg) (b : Reg)
  /-- SWAIT (R215). Waits until SWC is at most n. -/
  | swait (n : BitVec 6)
  /-- VQ_OPERATION_PERFORMED (R200). A VQ operation is performed in issue order, decrementing SWC, or fails and raises its cause at the next boundary. -/
  | vqOperationPerformed (n : CoreNo)
  /-- VPART (R217). Writes the set and clear lane numbers of a mask into two index queues. -/
  | vpart (q : Handle) (a : VReg) (b : MReg)
  /-- VCMPK (R218). Compacts the masked lanes to the front of the row. -/
  | vcmpk (d : VReg) (a : VReg) (b : MReg)
  /-- VEXPD (R218). Expands the leading lanes into the masked positions. -/
  | vexpd (d : VReg) (a : VReg) (b : MReg)
  /-- VTCFG (R219). Copies a lookup table from scratchpad into a table slot. -/
  | vtcfg (t : BitVec 2) (a : Reg) (b : Reg) (kind : BitVec 1) (hi : OobMode) (lo : OobMode) (e : BitVec 8) (nm1 : BitVec 12)
  /-- VTAB (R220). Looks up the nearest point-table entry per lane. -/
  | vtab (d : VReg) (a : VReg) (t : BitVec 2)
  /-- VTABL (R220). Interpolates linearly in a point table per lane. -/
  | vtabl (d : VReg) (a : VReg) (t : BitVec 2)
  /-- VTABQ (R220). Evaluates a quadratic segment table per lane. -/
  | vtabq (d : VReg) (a : VReg) (t : BitVec 2)
  /-- VEXP2 (R221). Computes 2^x per lane. -/
  | vexp2 (d : VReg) (a : VReg)
  /-- VLOG2 (R221). Computes log2 x per lane. -/
  | vlog2 (d : VReg) (a : VReg)
  /-- FLMATCH (R286). Matches token keys and makes the handle live with the resulting map. -/
  | flmatch (h : BitVec 3) (a : Reg) (b : Reg)
  /-- FLMERGE (R287). Merges source tokens into merged tokens by the map. -/
  | flmerge (h : BitVec 3) (a : Reg) (b : Reg)
  /-- FLUNMG (R287). Unmerges tokens by copying each merged token to its originals. -/
  | flunmg (h : BitVec 3) (a : Reg) (b : Reg)
  /-- FLSIZE (R287). Writes the sizes of merged tokens into a row. -/
  | flsize (d : VReg) (h : BitVec 3) (b : Reg)
  /-- FLSIG (R287). Returns the signature of a live map. -/
  | flsig (d : Reg) (h : BitVec 3)
  /-- FLSAVE (R288). Writes a saved map image to scratchpad. -/
  | flsave (h : BitVec 3) (a : Reg)
  /-- FLLOAD (R288). Checks a saved map image and makes the handle live with it. -/
  | flload (h : BitVec 3) (a : Reg)
  /-- FLFREE (R287). Frees a map handle. -/
  | flfree (h : BitVec 3)
  /-- VSMX (R289). Computes a row softmax over n key lanes. -/
  | vsmx (d : VReg) (a : VReg) (b : Reg)
  /-- VSMXS (R289). Computes a size-corrected softmax over n key lanes. -/
  | vsmxs (d : VReg) (a : VReg) (b : Reg)
  /-- PRUNEPK (R269). Keeps the N highest-ranked lanes of each group of M in a mask. -/
  | prunepk (d : MReg) (a : VReg) (lgm : BitVec 2) (nk : BitVec 4)
  /-- PRUNEPKT (R270). Prunes four rows, with a transposable pattern at M = 4. -/
  | prunepkt (d : MReg) (a : VReg) (lgm : BitVec 2) (nk : BitVec 4)
  /-- MDPACK (R271). Packs the kept offsets of a mask into index words and a pattern word. -/
  | mdpack (d : VReg) (w : BitVec 1) (k : MReg) (lgm : BitVec 2) (nk : BitVec 4)
  /-- MDCHK (R272). Extends a CRC-32C over the bytes of a row. -/
  | mdchk (d : Reg) (a : VReg) (b : Reg)
  /-- MMAC (R259). Issues a dense band product into the MQ. -/
  | mmac (acc : TileNo) (qa : Handle) (qb : Handle) (qm : Handle)
  /-- MMACS (R259). Issues a sparse band product into the MQ. -/
  | mmacs (acc : TileNo) (qa : Handle) (qb : Handle) (qm : Handle)
  /-- MMACG (R259). Issues a dense band product on gathered A rows. -/
  | mmacg (acc : TileNo) (qa : Handle) (qb : Handle) (qm : Handle)
  /-- MMACSG (R259). Issues a sparse band product on gathered A rows. -/
  | mmacsg (acc : TileNo) (qa : Handle) (qb : Handle) (qm : Handle)
  /-- MCLR (R265). Clears an accumulator tile through the MQ. -/
  | mclr (acc : TileNo)
  /-- MCFG (R253). Checks and enqueues a matrix configuration word. -/
  | mcfg (s : BitVec 5)
  /-- MHDR (R266). Reads a tile header and returns its latency or the negated cause. -/
  | mhdr (s : BitVec 5) (qm : Handle)
  /-- MTRN (R267). Transposes a 128 × 128 tile through the MQ. -/
  | mtrn (acc : TileNo) (src : TileNo)
  /-- MQ_OPERATION_START (R264). An MQ operation starts when the previous one releases the array and applies its header checks. -/
  | mqOperationStart (n : CoreNo)
  /-- MATRIX_STEP (R260). A started product proceeds through K step j once that step's slots are filled, checking metadata order. -/
  | matrixStep (n : CoreNo)
  /-- MQ_OPERATION_PERFORMED (R264). A product commits its band at once and clears the busy bit, or faults and commits nothing. -/
  | mqOperationPerformed (n : CoreNo)
  /-- XCPY (R236). Issues a byte copy command. -/
  | xcpy (d : Reg) (a : Reg) (b : Reg) (ss : Space) (ds : Space)
  /-- XCP2 (R237). Issues a two-dimensional copy command. -/
  | xcp2 (d : Reg) (a : Reg) (b : Reg) (ss : Space) (ds : Space)
  /-- XCP3 (R237). Issues a three-dimensional copy command. -/
  | xcp3 (d : Reg) (a : Reg) (b : Reg) (ss : Space) (ds : Space)
  /-- XCVT (R238). Issues a converting copy command. -/
  | xcvt (d : Reg) (a : Reg) (b : Reg) (ss : Space) (ds : Space) (st : BitVec 4) (dt : BitVec 4) (rm : Rounding) (sr : BitVec 1) (sat : BitVec 1)
  /-- XMCAST (R239). Issues a multicast read from HBM into the scratchpads of many cores. -/
  | xmcast (d : Reg) (a : Reg) (b : Reg) (rows : BitVec 8) (cols : BitVec 16)
  /-- XFLW (R240). Attaches a follow-on matrix command to the latest copy command. -/
  | xflw (f : Follow)
  /-- XVOP (R241). Issues bulk bank-side operations over vault words. -/
  | xvop (d : Reg) (a : Reg) (b : Reg) (op : VaultOp) (va : BitVec 1)
  /-- XREM (R242). Issues a remote store to another package. -/
  | xrem (d : Reg) (a : Reg) (b : Reg) (pkg : BitVec 5)
  /-- XWAIT (R244). Waits until the named X queues hold at most n commands and returns the largest m. -/
  | xwait (d : Reg) (n : BitVec 7) (mask : BitVec 2)
  /-- XCMPL (R243). Arms a completion action and optional record for the next copy command. -/
  | xcmpl (a : Reg) (act : Action) (qrec : BitVec 1) (h : Handle)
  /-- COPY_COMMAND_PERFORMED (R235). A copy command has every byte performed, or faults at a unit. -/
  | copyCommandPerformed (n : CoreNo) (q : XQueue)
  /-- COMPLETION_RECORD (R243). Writes a completion record into the completion queue once it has a free slot and advances TAIL. -/
  | completionRecord (n : CoreNo)
  /-- TXINIT (R246). Resets a transaction barrier. -/
  | txinit (a : Reg)
  /-- TXEXP (R246). Adds expected bytes to a barrier, arms it, and returns PH. -/
  | txexp (d : Reg) (a : Reg) (b : Reg)
  /-- TXARR (R246). Adds arrived bytes to a barrier. -/
  | txarr (a : Reg) (b : Reg)
  /-- TXWAIT (R246). Waits until a barrier phase is complete; acts as an acquire. -/
  | txwait (d : Reg) (a : Reg) (b : Reg)
  /-- TXTEST (R246). Returns whether a barrier phase is complete. -/
  | txtest (d : Reg) (a : Reg) (b : Reg)
  /-- INTAKE_PACKET_TAKE (R249). The serving X engine takes a READY intake packet, checks it and issues its command. -/
  | intakePacketTake (p : PartNo) (q : BitVec 2)
  /-- USER_INTERRUPT_DELIVERY (R247). Delivers a pending unmasked user interrupt to the C stream at its next boundary. -/
  | userInterruptDelivery (n : CoreNo)
  /-- DISPATCH_ROUND (R52). Every eighth calendar cycle, each die's round makes up to 16 selections of eligible nodes. -/
  | dispatchRound (p : PartNo)
  /-- PROBE_OUTCOME (R60). A scheduler probe's outcome becomes known; a hit starts a reuse copy and a miss returns the task to ready. -/
  | probeOutcome (p : PartNo) (c : CtxNo) (node : BitVec 10) (tile : BitVec 24)
  /-- REUSE_COPY_PERFORMED (R51). A probe hit's reuse copy is performed and the task completes. -/
  | reuseCopyPerformed (p : PartNo) (c : CtxNo) (node : BitVec 10) (tile : BitVec 24)
  /-- JOB_START (R30). A staged job starts once its prefetch has finished and the keep handover has ended. -/
  | jobStart (n : CoreNo)
  /-- JOB_RETIRE (R36). In the first cycle in which every drain condition holds, the job retires and its task completes. -/
  | jobRetire (n : CoreNo)
  /-- WATCHDOG_DEADLOCK (R38). Raises WATCHDOG after a job has been deadlocked for 65,536 cycles. -/
  | watchdogDeadlock (n : CoreNo)
  /-- STALL_WINDOW_EXPIRY (R63). A launch with no progress for STALLWIN cycles is ended with stop_err(WATCHDOG). -/
  | stallWindowExpiry (p : PartNo)
  /-- SLICE_END (R22). When the slice quantum expires, dispatch of the context stops and its staged jobs are returned to ready. -/
  | sliceEnd (p : PartNo)
  /-- SWITCH_BUDGET_EXPIRY (R22). A column whose job has not retired within the switch budget makes a forced pre-emption. -/
  | switchBudgetExpiry (n : CoreNo)
  /-- NPBUDGET_EXPIRY (R311). When NPBUDGET reaches 0, the job becomes pre-emptible and WATCHDOG is raised. -/
  | npbudgetExpiry (n : CoreNo)
  /-- TRAP_DELIVERY (R297). Delivers a pending trap into the supervisor handler at the C stream's next boundary. -/
  | trapDelivery (n : CoreNo)
  /-- CALENDAR_SLOT_ISSUE (R82). A request issues in its core's slot as the slot passes, or misses it and rebinds one rotation later. -/
  | calendarSlotIssue (n : CoreNo) (q : MQueue)
  /-- HOME_SLICE_PERFORM (R83). A request arrives at its home slice and is performed there, recalling owned lines if needed. -/
  | homeSlicePerform (n : CoreNo) (q : MQueue)
  /-- READ_COMPLETION (R81). Read data, or a multicast, arrives at the issuing core and its destinations at the fixed latency. -/
  | readCompletion (n : CoreNo)
  /-- WRITE_ACK (R83). A write acknowledgement arrives in the issuing core's slot. -/
  | writeAck (n : CoreNo)
  /-- TRANSLATION_WALK_COMPLETE (R88). A translation walk ends in a mapping, a miss, a violation or an uncorrectable table read. -/
  | translationWalkComplete (n : CoreNo) (va : Word)
  /-- WINDOW_ACCESS_ARRIVAL (R71). A core-window or vault-window access arrives over the mesh and is applied to its target. -/
  | windowAccessArrival (n : CoreNo) (q : MQueue)
  /-- GO (R40). A GO write clears DONE, ERR and SQERR and starts the step loop at SQSTEP. -/
  | go (p : PartNo) (c : CtxNo) (stop : Bool)
  /-- STOP (R40). A STOP write requests that the step loop stop after the current step. -/
  | stop (p : PartNo) (c : CtxNo)
  /-- STEP_RECORD_ARRIVAL (R42). A step record read arrives; the step registers are loaded and the graph is launched. -/
  | stepRecordArrival (p : PartNo) (c : CtxNo)
  /-- SNAPSHOT_COMMIT (R95). When every column's copies are performed, writes the commit word and lets the sequencer advance. -/
  | snapshotCommit (p : PartNo) (c : CtxNo)
  /-- ROLLBACK_REQUEST (R306). A CTXCTL.RB write requests a rollback of a stopped context. -/
  | rollbackRequest (p : PartNo) (c : CtxNo)
  /-- ROLLBACK (R96). Once no job is active, restores the committed image, the Firn checkpoint and SQSTEP. -/
  | rollback (p : PartNo) (c : CtxNo)
  /-- VAULT_BANK_FAILURE (R307). A failed vault bank, bus or layer is spared, and the affected contexts stop and roll back. -/
  | vaultBankFailure (n : CoreNo) (bank : BitVec 6) (all : Bool)
  /-- GRAPH_LOAD (R318). A GLCMD load reads, checks and reserves a graph. -/
  | graphLoad (p : PartNo) (c : CtxNo)
  /-- GRAPH_UNLOAD (R318). A GLCMD unload releases the graph's Firn entries, work-lists, handles and keep residency. -/
  | graphUnload (p : PartNo) (c : CtxNo)
  /-- GRAPH_COMMAND_END (R318). A load or unload ends, GLSTAT is updated and EVENT bit 5 is set. -/
  | graphCommandEnd (p : PartNo) (c : CtxNo)
  /-- CONTEXT_ENABLE (R317). Writing CTXCTL.EN enables or disables a context in the slice rotation. -/
  | contextEnable (p : PartNo) (c : CtxNo) (en : Bool)
  /-- VAULT_RANGE_DECLARE (R98). Writing VRANGE declares a range, sets all dirty bits and marks both images uncommitted. -/
  | vaultRangeDeclare (p : PartNo) (c : CtxNo) (v : Word)
  /-- PBSET_WRITE (R175). Writes a pennant participant set; the write is held while a phase of the tag has arrivals. -/
  | pbsetWrite (p : PartNo) (c : CtxNo) (tag : BitVec 3) (v : BitVec 320)
  /-- RELEASE_DELIVER (R304). Releases a frozen core by making its trap pending for delivery. -/
  | releaseDeliver (p : PartNo) (n : CoreNo)
  /-- RELEASE_KILL (R304). Releases a frozen core by killing its active slot. -/
  | releaseKill (p : PartNo) (n : CoreNo)
  /-- VACATE (R311). A management request to vacate a column, held while a non-pre-emptible job runs. -/
  | vacate (n : CoreNo)
  /-- THROTN_WRITE (R329). Sets a column's issue throttle from the column's next cycle. -/
  | throtnWrite (n : CoreNo) (v : Word)
  /-- SENSOR_UPDATE (R328). A temperature sensor updates on its 4,096-cycle schedule and may raise an alert. -/
  | sensorUpdate (sensor : BitVec 9) (raw : BitVec 16)
  /-- MGMT_TRAP_ENTRY (R334). The management core enters its handler, or stops when no handler can be entered. -/
  | mgmtTrapEntry (cause : Byte) (faddr : BitVec 32)
  /-- COLUMN_ENTER_C1 (R327). A column idle for 64 cycles enters C1. -/
  | columnEnterC1 (n : CoreNo)
  /-- COLUMN_ENTER_DEEP (R327). A column idle for 65,536 cycles saves its keep regions and enters C2 or C3. -/
  | columnEnterDeep (n : CoreNo)
  /-- COLUMN_WAKE (R327). A column returns to C0 after its exit latency. -/
  | columnWake (n : CoreNo)
  /-- FLIT_RECEIVE (R114). A link flit is received and either accepted in sequence or discarded on a bad CRC with replay. -/
  | flitReceive (port : BitVec 4) (raw : List Byte) (f : Flit)
  /-- REMOTE_STORE_ACK (R114). A remote store's acknowledgement arrives, possibly carrying a destination fault. -/
  | remoteStoreAck (n : CoreNo) (cause : Byte)
  /-- INGRESS_RELEASE (R310). Held ingress traffic is performed in arrival order once its columns have switched. -/
  | ingressRelease (p : PartNo)
  /-- HOST_REQUEST (R320). A host read, write or AtomicOp arrives through a virtual function's BAR. -/
  | hostRequest (r : HostReq)
  /-- BOOTGO (R324). Starts the boot ROM's copy of the firmware image. -/
  | bootgo
  /-- BOOT_IMAGE_LOADED (R324). The copied image is hashed, verified and checked against SVN, then started or refused. -/
  | bootImageLoaded
  /-- ATTGO (R325). Starts writing a signed attestation report. -/
  | attgo (fn : BitVec 5)
  /-- ATTESTATION_DONE (R325). The report has been written; ATTSTAT.BUSY clears and the routes lock. -/
  | attestationDone (fn : BitVec 5)
  /-- WARMRST (R330). Warm reset ends every job and context and clears the repair registers. -/
  | warmrst
  /-- COLD_RESET (R330). Power-on or fundamental reset returns every register to its reset value. -/
  | coldReset
  /-- FUNCTION_LEVEL_RESET (R330). Resets one partition's jobs, graphs, contexts, mailboxes and EVENT. -/
  | functionLevelReset (p : PartNo)
  /-- PACKAGE_POWER_LOSS (R17). Loss of package power acts on every partition. -/
  | packagePowerLoss
  /-- REGISTER_WRITE (R6). A write to a register with no behaviour of its own updates its fields by their access codes. -/
  | registerWrite (r : RegWrite)
  /-- ILLEGAL_ENCODING (R141). A stream issues a word whose major opcode, fn, cond or kind is unassigned, and raises ILLEGAL. -/
  | illegalEncoding
  /-- FABRIC_ACCESS_COMPLETION (R85). A window, partition-control, capability-list or host-memory access completes at its issuer after a time that no rule fixes, returning data, an acknowledgement or, for a host Unsupported Request or Completer Abort, DATA_UE. -/
  | fabricAccessCompletion (n : CoreNo) (q : MQueue) (ur : Bool)
  /-- REPAIR_REPLAY (R314). Firmware replays the vertical-bus repair records after a warm reset, ending the VAULT_UNREPAIRED state of every vault. -/
  | repairReplay
  /-- FROZEN_PORT_RELEASE (R304). Firmware releases a link port, or a host function's traffic, that was frozen for a partition after a violation. -/
  | frozenPortRelease (p : PartNo) (port : BitVec 4)
  deriving DecidableEq, Repr

end Sys2Proof
end

