-- ==== Sys2Proof/WellFormed.lean ====
section
/-! DEFINITION. Which steps carry a combination of fields that an encoding may hold: the checks of R138 to R142, R224, R231, R235, R238, R239, R243 and R244 that a word's own fields decide. A word that fails one raises ILLEGAL (R141). -/

namespace Sys2Proof

/-- A named queue field differs from the others that are named (R139). -/
def distinctHandles (qa : Handle) (qb qd : Option Handle) : Bool :=
  qb != some qa && qd != some qa && (qb == none || qb != qd)

/-- The rows of *xcvt pairs* (R238), with RND, SR and SAT reserved in the exact ones and RND 0 under SR. -/
def xcvtPairOk (st dt : BitVec 4) (rm : Rounding) (sr sat : BitVec 1) : Bool :=
  match st.toNat, dt.toNat with
  | 0, 1 | 0, 3 | 0, 4 | 1, 3 | 1, 4 => sr == 0#1 || rm == .rne
  | 1, 0 | 3, 1 | 3, 0 | 4, 1 | 4, 0 => rm == .rne && sr == 0#1 && sat == 0#1
  | _, _ => false

/-- The fields of a step are a combination its encoding admits. -/
def Instr.wf : Instr → Bool
  | .loop _ len _ => len != 0#10
  | .loopi _ len _ => len != 0#10
  | .loopk _ len _ => len != 0#10
  | .loopm _ len _ => len != 0#10
  | .qwait qa qb qd _ => distinctHandles qa qb qd
  | .qroom qa qb qd _ => distinctHandles qa qb qd
  | .qadv qa qb qd _ => distinctHandles qa qb qd
  | .qadvp qa qb qd _ => distinctHandles qa qb qd
  | .qrst qa qb qd => distinctHandles qa qb qd
  | .rdvStreamSet set => set != 0#5
  | .apcfg _ _ _ _ lge _ => lge.toNat ≤ 9
  | .awcfg _ _ _ _ lge => lge.toNat ≤ 2
  | .xcvt _ _ _ _ _ st dt rm sr sat => xcvtPairOk st dt rm sr sat
  | .xmcast _ _ _ rows cols => rows != 0#8 && cols != 0#16
  | .xwait _ n mask => n.toNat ≤ 64 && mask != 0#2
  | .xcmpl _ _ qrec h => qrec == 1#1 || h == 0#5
  | _ => true

/-- The step has an instruction word (R136); the other rows are events. -/
def Instr.isWord : Instr → Bool
  | .rdvComplete _ _ => false
  | .pennantArrival _ _ => false
  | .pennantCompletion _ _ _ => false
  | .installation _ => false
  | .bankSideOperation _ => false
  | .aqOperationPerformed _ => false
  | .vqOperationPerformed _ => false
  | .mqOperationStart _ => false
  | .matrixStep _ => false
  | .mqOperationPerformed _ => false
  | .copyCommandPerformed _ _ => false
  | .completionRecord _ => false
  | .intakePacketTake _ _ => false
  | .userInterruptDelivery _ => false
  | .dispatchRound _ => false
  | .probeOutcome _ _ _ _ => false
  | .reuseCopyPerformed _ _ _ _ => false
  | .jobStart _ => false
  | .jobRetire _ => false
  | .watchdogDeadlock _ => false
  | .stallWindowExpiry _ => false
  | .sliceEnd _ => false
  | .switchBudgetExpiry _ => false
  | .npbudgetExpiry _ => false
  | .trapDelivery _ => false
  | .calendarSlotIssue _ _ => false
  | .homeSlicePerform _ _ => false
  | .readCompletion _ => false
  | .writeAck _ => false
  | .translationWalkComplete _ _ => false
  | .windowAccessArrival _ _ => false
  | .go _ _ _ => false
  | .stop _ _ => false
  | .stepRecordArrival _ _ => false
  | .snapshotCommit _ _ => false
  | .rollbackRequest _ _ => false
  | .rollback _ _ => false
  | .vaultBankFailure _ _ _ => false
  | .graphLoad _ _ => false
  | .graphUnload _ _ => false
  | .graphCommandEnd _ _ => false
  | .contextEnable _ _ _ => false
  | .vaultRangeDeclare _ _ _ => false
  | .pbsetWrite _ _ _ _ => false
  | .releaseDeliver _ _ => false
  | .releaseKill _ _ => false
  | .vacate _ => false
  | .throtnWrite _ _ => false
  | .sensorUpdate _ _ => false
  | .mgmtTrapEntry _ _ => false
  | .columnEnterC1 _ => false
  | .columnEnterDeep _ => false
  | .columnWake _ => false
  | .flitReceive _ _ _ => false
  | .remoteStoreAck _ _ => false
  | .ingressRelease _ => false
  | .hostRequest _ => false
  | .bootgo => false
  | .bootImageLoaded => false
  | .attgo _ => false
  | .attestationDone _ => false
  | .warmrst => false
  | .coldReset => false
  | .functionLevelReset _ => false
  | .packagePowerLoss => false
  | .registerWrite _ => false
  | .illegalEncoding => false
  | .fabricAccessCompletion _ _ _ => false
  | .repairReplay => false
  | .frozenPortRelease _ _ => false
  | _ => true

end Sys2Proof
end

