-- ==== Sys2Proof/Decode.lean ====
section
/-! DEFINITION. Decoding and encoding of instruction words (R135 to R144): `decode` reads the bytes at a 4-byte-aligned address, `encode` gives the words of a well-formed instruction. -/

namespace Sys2Proof

/-- Why a word is no instruction. Every one raises ILLEGAL (R141), except `truncated`, which is a fetch fault (R135). -/
inductive DecodeError where
  | unassignedMajor | unassignedFunction | reservedField | unassignedField | badOperand | truncated
  deriving DecidableEq, Repr

def Rounding.ofBits (b : BitVec 2) : Rounding :=
  match b.toNat with
  | 0 => .rne
  | 1 => .rtz
  | 2 => .rdn
  | _ => .rup

def Rounding.toBits : Rounding → BitVec 2
  | .rne => 0#2
  | .rtz => 1#2
  | .rdn => 2#2
  | .rup => 3#2

def Order.ofBits (b : BitVec 3) : Option Order :=
  match b.toNat with
  | 0 => some .rlx
  | 1 => some .acq
  | 2 => some .rel
  | 3 => some .ar
  | 4 => some .sc
  | _ => none

def Order.toBits : Order → BitVec 3
  | .rlx => 0#3
  | .acq => 1#3
  | .rel => 2#3
  | .ar => 3#3
  | .sc => 4#3

def Width.ofBits (b : BitVec 1) : Width :=
  match b.toNat with
  | 0 => .w
  | _ => .d

def Width.toBits : Width → BitVec 1
  | .w => 0#1
  | .d => 1#1

def Space.ofBits (b : BitVec 2) : Option Space :=
  match b.toNat with
  | 0 => some .va
  | 1 => some .vault
  | 2 => some .scratch
  | _ => none

def Space.toBits : Space → BitVec 2
  | .va => 0#2
  | .vault => 1#2
  | .scratch => 2#2

def CvtType.ofBits (b : BitVec 4) : Option CvtType :=
  match b.toNat with
  | 0 => some .f32
  | 1 => some .bf16
  | 2 => some .f16
  | 5 => some .i32
  | _ => none

def CvtType.toBits : CvtType → BitVec 4
  | .f32 => 0#4
  | .bf16 => 1#4
  | .f16 => 2#4
  | .i32 => 5#4

def ScanOp.ofBits (b : BitVec 2) : Option ScanOp :=
  match b.toNat with
  | 0 => some .add
  | 1 => some .max
  | 2 => some .min
  | _ => none

def ScanOp.toBits : ScanOp → BitVec 2
  | .add => 0#2
  | .max => 1#2
  | .min => 2#2

def VaultOp.ofBits (b : BitVec 3) : Option VaultOp :=
  match b.toNat with
  | 0 => some .radd
  | 1 => some .fadd
  | 2 => some .max
  | 3 => some .cas
  | 4 => some .sac
  | _ => none

def VaultOp.toBits : VaultOp → BitVec 3
  | .radd => 0#3
  | .fadd => 1#3
  | .max => 2#3
  | .cas => 3#3
  | .sac => 4#3

def OobMode.ofBits (b : BitVec 2) : OobMode :=
  match b.toNat with
  | 0 => .clamp
  | 1 => .identity
  | 2 => .zero
  | _ => .extend

def OobMode.toBits : OobMode → BitVec 2
  | .clamp => 0#2
  | .identity => 1#2
  | .zero => 2#2
  | .extend => 3#2

def Action.ofBits (b : BitVec 2) : Action :=
  match b.toNat with
  | 0 => .none
  | 1 => .decrement
  | 2 => .interrupt
  | _ => .arrival

def Action.toBits : Action → BitVec 2
  | .none => 0#2
  | .decrement => 1#2
  | .interrupt => 2#2
  | .arrival => 3#2

def IdReg.ofBits (b : BitVec 2) : IdReg :=
  match b.toNat with
  | 0 => .coreid
  | 1 => .streamid
  | 2 => .jobid
  | _ => .part

def IdReg.toBits : IdReg → BitVec 2
  | .coreid => 0#2
  | .streamid => 1#2
  | .jobid => 2#2
  | .part => 3#2

/-- The words of each format, fields from the most significant bit down (R136). -/
def packR (op : BitVec 6) (d a b : BitVec 6) (fn : BitVec 8) : IWord := op ++ d ++ a ++ b ++ fn
def packI (op : BitVec 6) (d a : BitVec 6) (fn3 : BitVec 3) (imm : BitVec 11) : IWord := op ++ d ++ a ++ fn3 ++ imm
def packB (op : BitVec 6) (a b : BitVec 6) (cond : BitVec 3) (off : BitVec 11) : IWord := op ++ a ++ b ++ cond ++ off
def packJ (op : BitVec 6) (d : BitVec 6) (off : BitVec 20) : IWord := op ++ d ++ off
def packL (op : BitVec 6) (lvl kind : BitVec 2) (len : BitVec 10) (cnt : BitVec 12) : IWord := op ++ lvl ++ kind ++ len ++ cnt
def packQ (op : BitVec 6) (qd qa qb : BitVec 5) (n : BitVec 3) (fn : BitVec 8) : IWord := op ++ qd ++ qa ++ qb ++ n ++ fn
def packM (op : BitVec 6) (acc : BitVec 3) (qa qb qm : BitVec 5) (fn : BitVec 8) : IWord := op ++ acc ++ qa ++ qb ++ qm ++ fn

/-- The fields of a word, by their bit positions (R136). -/
def fOp (w : IWord) : BitVec 6 := w.extractLsb' 26 6
def fD (w : IWord) : BitVec 6 := w.extractLsb' 20 6
def fA (w : IWord) : BitVec 6 := w.extractLsb' 14 6
def fB (w : IWord) : BitVec 6 := w.extractLsb' 8 6
def fFn (w : IWord) : BitVec 8 := w.extractLsb' 0 8
def fFn3 (w : IWord) : BitVec 3 := w.extractLsb' 11 3
def fImm11 (w : IWord) : BitVec 11 := w.extractLsb' 0 11
def fOff20 (w : IWord) : BitVec 20 := w.extractLsb' 0 20
def fLvl (w : IWord) : BitVec 2 := w.extractLsb' 24 2
def fKind (w : IWord) : BitVec 2 := w.extractLsb' 22 2
def fLen (w : IWord) : BitVec 10 := w.extractLsb' 12 10
def fCnt (w : IWord) : BitVec 12 := w.extractLsb' 0 12
def fQd (w : IWord) : BitVec 5 := w.extractLsb' 21 5
def fQa (w : IWord) : BitVec 5 := w.extractLsb' 16 5
def fQb (w : IWord) : BitVec 5 := w.extractLsb' 11 5
def fN3 (w : IWord) : BitVec 3 := w.extractLsb' 8 3
def fAcc (w : IWord) : BitVec 3 := w.extractLsb' 23 3
def fMa (w : IWord) : BitVec 5 := w.extractLsb' 18 5
def fMb (w : IWord) : BitVec 5 := w.extractLsb' 13 5
def fMm (w : IWord) : BitVec 5 := w.extractLsb' 8 5

/-- Whether a first word belongs to a two-word instruction; it alone decides (R135). -/
def isTwoWord (w : IWord) : Bool :=
  match (fOp w).toNat with
  | 0x03 => (fFn w).toNat ≤ 2
  | 0x2A => (fFn w).toNat ≤ 9
  | 0x18 => fFn w == 0#8 || fFn w == 5#8
  | 0x23 => fFn w == 0#8
  | _ => false

abbrev DecodeResult := Except DecodeError Instr

/-- The instruction, if the fields its form leaves unused are 0 (R137, R141 check 5). -/
def zeroed (c : Bool) (i : Instr) : DecodeResult := if c then .ok i else .error .reservedField

/-- The meaning of a subfield value, if it is assigned (R141 check 3). -/
def need {α : Type} (o : Option α) : Except DecodeError α :=
  match o with
  | some v => .ok v
  | none => .error .unassignedField

/-- An optional queue field of a Q word: named when its fn bit is set, else 0 (R139). -/
def optHandle (named : Bool) (q : BitVec 5) : Except DecodeError (Option Handle) :=
  if named then .ok (some q) else if q = 0#5 then .ok none else .error .reservedField

/-- The M word an xflw carries: op 0x28 and fn 0 to 4, any other ILLEGAL (R140). -/
def decodeFollow (e : IWord) : Except DecodeError Follow :=
  if fOp e = 0x28#6 then
    match (fFn e).toNat with
    | 0 => .ok ⟨.mmac, fAcc e, fMa e, fMb e, fMm e⟩
    | 1 => .ok ⟨.mmacs, fAcc e, fMa e, fMb e, fMm e⟩
    | 2 => .ok ⟨.mmacg, fAcc e, fMa e, fMb e, fMm e⟩
    | 3 => .ok ⟨.mmacsg, fAcc e, fMa e, fMb e, fMm e⟩
    | 4 => .ok ⟨.mclr, fAcc e, fMa e, fMb e, fMm e⟩
    | _ => .error .unassignedField
  else .error .unassignedField

def FollowForm.fn : FollowForm → BitVec 8
  | .mmac => 0#8 | .mmacs => 1#8 | .mmacg => 2#8 | .mmacsg => 3#8 | .mclr => 4#8

def encodeFollow (f : Follow) : IWord := packM 0x28#6 f.acc f.qa f.qb f.qm f.form.fn

def decodeAlu (w : IWord) : DecodeResult :=
  match (fFn w).toNat with
  | 0 => .ok (.add (fD w) (fA w) (fB w))
  | 1 => .ok (.sub (fD w) (fA w) (fB w))
  | 2 => .ok (.and (fD w) (fA w) (fB w))
  | 3 => .ok (.or (fD w) (fA w) (fB w))
  | 4 => .ok (.xor (fD w) (fA w) (fB w))
  | 5 => .ok (.andn (fD w) (fA w) (fB w))
  | 6 => .ok (.sll (fD w) (fA w) (fB w))
  | 7 => .ok (.srl (fD w) (fA w) (fB w))
  | 8 => .ok (.sra (fD w) (fA w) (fB w))
  | 9 => .ok (.rol (fD w) (fA w) (fB w))
  | 10 => .ok (.mul (fD w) (fA w) (fB w))
  | 11 => .ok (.mulh (fD w) (fA w) (fB w))
  | 12 => .ok (.mulhu (fD w) (fA w) (fB w))
  | 13 => .ok (.div (fD w) (fA w) (fB w))
  | 14 => .ok (.divu (fD w) (fA w) (fB w))
  | 15 => .ok (.rem (fD w) (fA w) (fB w))
  | 16 => .ok (.remu (fD w) (fA w) (fB w))
  | 17 => .ok (.min (fD w) (fA w) (fB w))
  | 18 => .ok (.minu (fD w) (fA w) (fB w))
  | 19 => .ok (.max (fD w) (fA w) (fB w))
  | 20 => .ok (.maxu (fD w) (fA w) (fB w))
  | 21 => .ok (.seq (fD w) (fA w) (fB w))
  | 22 => .ok (.sne (fD w) (fA w) (fB w))
  | 23 => .ok (.slt (fD w) (fA w) (fB w))
  | 24 => .ok (.sltu (fD w) (fA w) (fB w))
  | 25 => .ok (.sle (fD w) (fA w) (fB w))
  | 26 => .ok (.sleu (fD w) (fA w) (fB w))
  | 27 => zeroed ((fB w) = 0#6) (.clz (fD w) (fA w))
  | 28 => zeroed ((fB w) = 0#6) (.ctz (fD w) (fA w))
  | 29 => zeroed ((fB w) = 0#6) (.popc (fD w) (fA w))
  | 30 => zeroed ((fB w) = 0#6) (.bswap (fD w) (fA w))
  | 31 => zeroed ((fB w) = 0#6) (.sexb (fD w) (fA w))
  | 32 => zeroed ((fB w) = 0#6) (.sexh (fD w) (fA w))
  | 33 => zeroed ((fB w) = 0#6) (.sexw (fD w) (fA w))
  | 34 => .ok (.fadd (fD w) (fA w) (fB w))
  | 35 => .ok (.fsub (fD w) (fA w) (fB w))
  | 36 => .ok (.fmul (fD w) (fA w) (fB w))
  | 37 => .ok (.fdiv (fD w) (fA w) (fB w))
  | 38 => .ok (.fmin (fD w) (fA w) (fB w))
  | 39 => .ok (.fmax (fD w) (fA w) (fB w))
  | 40 => .ok (.fminp (fD w) (fA w) (fB w))
  | 41 => .ok (.fmaxp (fD w) (fA w) (fB w))
  | 42 => zeroed (((fB w).extractLsb' 2 4) = 0#4) (.fcvtfi (fD w) (fA w) (Rounding.ofBits ((fB w).extractLsb' 0 2)))
  | 43 => zeroed (((fB w).extractLsb' 2 4) = 0#4) (.fcvtif (fD w) (fA w) (Rounding.ofBits ((fB w).extractLsb' 0 2)))
  | 44 => .ok (.feq (fD w) (fA w) (fB w))
  | 45 => .ok (.flt (fD w) (fA w) (fB w))
  | 46 => .ok (.fle (fD w) (fA w) (fB w))
  | _ => .error .unassignedFunction

def decodeAluI (w : IWord) : DecodeResult :=
  match (fFn3 w).toNat with
  | 0 => .ok (.addi (fD w) (fA w) (fImm11 w))
  | 1 => .ok (.andi (fD w) (fA w) (fImm11 w))
  | 2 => .ok (.ori (fD w) (fA w) (fImm11 w))
  | 3 => .ok (.xori (fD w) (fA w) (fImm11 w))
  | 4 => zeroed (((fImm11 w).extractLsb' 6 5) = 0#5) (.slli (fD w) (fA w) ((fImm11 w).extractLsb' 0 6))
  | 5 => zeroed (((fImm11 w).extractLsb' 6 5) = 0#5) (.srli (fD w) (fA w) ((fImm11 w).extractLsb' 0 6))
  | 6 => zeroed (((fImm11 w).extractLsb' 6 5) = 0#5) (.srai (fD w) (fA w) ((fImm11 w).extractLsb' 0 6))
  | 7 => .ok (.slti (fD w) (fA w) (fImm11 w))
  | _ => .error .unassignedFunction

def decodeLui (w : IWord) : DecodeResult :=
  .ok (.lui (fD w) (fOff20 w))

def decodeLix (w e : IWord) : DecodeResult :=
  match (fFn w).toNat with
  | 0 => zeroed ((fA w) = 0#6 && (fB w) = 0#6) (.lix (fD w) e)
  | 1 => zeroed ((fA w) = 0#6 && (fB w) = 0#6) (.lihx (fD w) e)
  | 2 => zeroed ((fB w) = 0#6) (.addx (fD w) (fA w) e)
  | _ => .error .unassignedFunction

def decodeBr (w : IWord) : DecodeResult :=
  match (fFn3 w).toNat with
  | 0 => .ok (.beq (fD w) (fA w) (fImm11 w))
  | 1 => .ok (.bne (fD w) (fA w) (fImm11 w))
  | 2 => .ok (.blt (fD w) (fA w) (fImm11 w))
  | 3 => .ok (.bge (fD w) (fA w) (fImm11 w))
  | 4 => .ok (.bltu (fD w) (fA w) (fImm11 w))
  | 5 => .ok (.bgeu (fD w) (fA w) (fImm11 w))
  | 6 => .ok (.bset (fD w) (fA w) (fImm11 w))
  | 7 => .ok (.bclr (fD w) (fA w) (fImm11 w))
  | _ => .error .unassignedFunction

def decodeJal (w : IWord) : DecodeResult :=
  .ok (.jal (fD w) (fOff20 w))

def decodeJalr (w : IWord) : DecodeResult :=
  match (fFn3 w).toNat with
  | 0 => .ok (.jalr (fD w) (fA w) (fImm11 w))
  | _ => .error .unassignedFunction

def decodeLoop (w : IWord) : DecodeResult :=
  match (fKind w).toNat with
  | 0 => zeroed (((fCnt w).extractLsb' 6 6) = 0#6) (.loop (fLvl w) (fLen w) ((fCnt w).extractLsb' 0 6))
  | 1 => .ok (.loopi (fLvl w) (fLen w) (fCnt w))
  | 2 => zeroed (((fCnt w).extractLsb' 4 8) = 0#8) (.loopk (fLvl w) (fLen w) ((fCnt w).extractLsb' 0 4))
  | 3 => zeroed (((fCnt w).extractLsb' 6 6) = 0#6) (.loopm (fLvl w) (fLen w) ((fCnt w).extractLsb' 0 6))
  | _ => .error .unassignedFunction

def decodeQctl (w : IWord) : DecodeResult :=
  match ((fFn w).extractLsb' 0 5).toNat with
  | 0 => do
      let qb ← optHandle ((fFn w).getLsbD 6) (fQb w)
      let qd ← optHandle ((fFn w).getLsbD 7) (fQd w)
      zeroed ((fFn w).getLsbD 5 = false) (.qwait (fQa w) qb qd (fN3 w))
  | 1 => do
      let qb ← optHandle ((fFn w).getLsbD 6) (fQb w)
      let qd ← optHandle ((fFn w).getLsbD 7) (fQd w)
      zeroed ((fFn w).getLsbD 5 = false) (.qroom (fQa w) qb qd (fN3 w))
  | 2 => do
      let qb ← optHandle ((fFn w).getLsbD 6) (fQb w)
      let qd ← optHandle ((fFn w).getLsbD 7) (fQd w)
      zeroed ((fFn w).getLsbD 5 = false) (.qadv (fQa w) qb qd (fN3 w))
  | 3 => do
      let qb ← optHandle ((fFn w).getLsbD 6) (fQb w)
      let qd ← optHandle ((fFn w).getLsbD 7) (fQd w)
      zeroed ((fFn w).getLsbD 5 = false) (.qadvp (fQa w) qb qd (fN3 w))
  | 4 => do
      let qb ← optHandle ((fFn w).getLsbD 6) (fQb w)
      let qd ← optHandle ((fFn w).getLsbD 7) (fQd w)
      zeroed ((fFn w).getLsbD 5 = false && fN3 w = 0#3) (.qrst (fQa w) qb qd)
  | _ => .error .unassignedFunction

def decodeQxfr (w : IWord) : DecodeResult :=
  match (fFn w).toNat with
  | 0 => zeroed ((fA w) = 0#6 && ((fB w).extractLsb' 5 1) = 0#1) (.qpop (fD w) ((fB w).extractLsb' 0 5))
  | 1 => zeroed (((fB w).extractLsb' 5 1) = 0#1) (.qpeek (fD w) (fA w) ((fB w).extractLsb' 0 5))
  | 2 => zeroed ((fD w) = 0#6 && ((fB w).extractLsb' 5 1) = 0#1) (.qput (fA w) ((fB w).extractLsb' 0 5))
  | 3 => zeroed ((fD w) = 0#6 && ((fB w).extractLsb' 5 1) = 0#1) (.qcfg (fA w) ((fB w).extractLsb' 0 5))
  | 4 => zeroed ((fA w) = 0#6 && ((fB w).extractLsb' 5 1) = 0#1) (.qcnt (fD w) ((fB w).extractLsb' 0 5))
  | _ => .error .unassignedFunction

def decodeBq (w : IWord) : DecodeResult :=
  match (fFn3 w).toNat with
  | 0 => zeroed (((fD w).extractLsb' 5 1) = 0#1 && (fA w) = 0#6) (.bqt ((fD w).extractLsb' 0 5) (fImm11 w))
  | 1 => zeroed (((fD w).extractLsb' 5 1) = 0#1 && (fA w) = 0#6) (.bqf ((fD w).extractLsb' 0 5) (fImm11 w))
  | _ => .error .unassignedFunction

def decodeSync (w : IWord) : DecodeResult :=
  match (fFn w).toNat with
  | 0 => zeroed ((fD w) = 0#6 && (fA w) = 0#6 && (fB w) = 0#6) (.nop)
  | 1 =>
    if fB w = 0#6 then zeroed (fD w = 0#6 && fA w = 0#6) .rdv0
    else if fB w = 63#6 then zeroed (fD w = 0#6 && fA w = 0#6) .rdvEnd
    else if (fB w).extractLsb' 5 1 = 0#1 then zeroed (fD w = 0#6 && fA w = 0#6) (.rdvStreamSet ((fB w).extractLsb' 0 5))
    else .error .unassignedField
  | 2 => zeroed ((fD w) = 0#6 && (fA w) = 0#6 && ((fB w).extractLsb' 3 3) = 0#3) (.pbar ((fB w).extractLsb' 0 3))
  | 3 => zeroed ((fD w) = 0#6 && (fA w) = 0#6 && ((fB w).extractLsb' 3 3) = 0#3) (.pbara ((fB w).extractLsb' 0 3))
  | 4 => zeroed ((fD w) = 0#6 && (fA w) = 0#6 && ((fB w).extractLsb' 3 3) = 0#3) (.pbarw ((fB w).extractLsb' 0 3))
  | 5 => zeroed ((fD w) = 0#6 && (fA w) = 0#6 && (fB w) = 0#6) (.wfi)
  | 6 => zeroed ((fD w) = 0#6) (.ipref (fA w) (fB w))
  | _ => .error .unassignedFunction

def decodeCtl (w : IWord) : DecodeResult :=
  match (fFn w).toNat with
  | 0 => .ok (.rdc (fD w) (fA w ++ fB w))
  | 1 => .ok (.wrc (fD w) (fA w ++ fB w))
  | 2 => zeroed ((fA w) = 0#6 && ((fB w).extractLsb' 4 2) = 0#2) (.rdk (fD w) ((fB w).extractLsb' 0 4))
  | 3 => zeroed ((fA w) = 0#6 && (fB w) = 0#6) (.rdcyc (fD w))
  | 4 => zeroed ((fA w) = 0#6 && ((fB w).extractLsb' 2 4) = 0#4) (.rdid (fD w) (IdReg.ofBits ((fB w).extractLsb' 0 2)))
  | 5 => zeroed ((fA w) = 0#6 && ((fB w).extractLsb' 3 3) = 0#3) (.rdloop (fD w) ((fB w).extractLsb' 0 3))
  | _ => .error .unassignedFunction

def decodeLoad (w : IWord) : DecodeResult :=
  match (fFn3 w).toNat with
  | 0 => .ok (.ldb (fD w) (fA w) (fImm11 w))
  | 1 => .ok (.ldbs (fD w) (fA w) (fImm11 w))
  | 2 => .ok (.ldh (fD w) (fA w) (fImm11 w))
  | 3 => .ok (.ldhs (fD w) (fA w) (fImm11 w))
  | 4 => .ok (.ldw (fD w) (fA w) (fImm11 w))
  | 5 => .ok (.ldws (fD w) (fA w) (fImm11 w))
  | 6 => .ok (.ldd (fD w) (fA w) (fImm11 w))
  | _ => .error .unassignedFunction

def decodeStore (w : IWord) : DecodeResult :=
  match (fFn3 w).toNat with
  | 0 => .ok (.stb (fD w) (fA w) (fImm11 w))
  | 1 => .ok (.sth (fD w) (fA w) (fImm11 w))
  | 2 => .ok (.stw (fD w) (fA w) (fImm11 w))
  | 3 => .ok (.std (fD w) (fA w) (fImm11 w))
  | _ => .error .unassignedFunction

def decodeMemc (w : IWord) : DecodeResult :=
  match (fFn w).toNat with
  | 0 => zeroed ((fD w) = 0#6 && (fA w) = 0#6 && (fB w) = 0#6) (.lsmark)
  | 1 => zeroed ((fD w) = 0#6) (.l1inv (fA w) (fB w))
  | 2 => zeroed ((fD w) = 0#6 && (fA w) = 0#6 && (fB w) = 0#6) (.l1inva)
  | 3 => zeroed ((fD w) = 0#6 && (fB w) = 0#6) (.pref (fA w))
  | 4 => .ok (.own (fD w) (fA w) (fB w))
  | 5 => zeroed ((fB w) = 0#6) (.disown (fD w) (fA w))
  | _ => .error .unassignedFunction

def decodeAtom (w : IWord) : DecodeResult :=
  match ((fFn w).extractLsb' 4 4).toNat with
  | 0 => do
      let ord ← need (Order.ofBits ((fFn w).extractLsb' 1 3))
      .ok (.amoadd (fD w) (fA w) (fB w) ord (Width.ofBits ((fFn w).extractLsb' 0 1)))
  | 1 => do
      let ord ← need (Order.ofBits ((fFn w).extractLsb' 1 3))
      .ok (.amoand (fD w) (fA w) (fB w) ord (Width.ofBits ((fFn w).extractLsb' 0 1)))
  | 2 => do
      let ord ← need (Order.ofBits ((fFn w).extractLsb' 1 3))
      .ok (.amoor (fD w) (fA w) (fB w) ord (Width.ofBits ((fFn w).extractLsb' 0 1)))
  | 3 => do
      let ord ← need (Order.ofBits ((fFn w).extractLsb' 1 3))
      .ok (.amoxor (fD w) (fA w) (fB w) ord (Width.ofBits ((fFn w).extractLsb' 0 1)))
  | 4 => do
      let ord ← need (Order.ofBits ((fFn w).extractLsb' 1 3))
      .ok (.amomin (fD w) (fA w) (fB w) ord (Width.ofBits ((fFn w).extractLsb' 0 1)))
  | 5 => do
      let ord ← need (Order.ofBits ((fFn w).extractLsb' 1 3))
      .ok (.amominu (fD w) (fA w) (fB w) ord (Width.ofBits ((fFn w).extractLsb' 0 1)))
  | 6 => do
      let ord ← need (Order.ofBits ((fFn w).extractLsb' 1 3))
      .ok (.amomax (fD w) (fA w) (fB w) ord (Width.ofBits ((fFn w).extractLsb' 0 1)))
  | 7 => do
      let ord ← need (Order.ofBits ((fFn w).extractLsb' 1 3))
      .ok (.amomaxu (fD w) (fA w) (fB w) ord (Width.ofBits ((fFn w).extractLsb' 0 1)))
  | 8 => do
      let ord ← need (Order.ofBits ((fFn w).extractLsb' 1 3))
      .ok (.amoswp (fD w) (fA w) (fB w) ord (Width.ofBits ((fFn w).extractLsb' 0 1)))
  | 9 => do
      let ord ← need (Order.ofBits ((fFn w).extractLsb' 1 3))
      .ok (.amocas (fD w) (fA w) (fB w) ord (Width.ofBits ((fFn w).extractLsb' 0 1)))
  | 10 => if (fFn w).getLsbD 0 then .error .unassignedFunction else do
      let ord ← need (Order.ofBits ((fFn w).extractLsb' 1 3))
      .ok (.amofadd (fD w) (fA w) (fB w) ord)
  | _ => .error .unassignedFunction

def decodeFence (w : IWord) : DecodeResult :=
  match (fFn w).toNat with
  | 0 => zeroed ((fD w) = 0#6 && (fA w) = 0#6 && (fB w) = 0#6) (.fence)
  | 1 => zeroed ((fD w) = 0#6 && (fA w).extractLsb' 1 5 = 0#5) (.qfence ((fA w).extractLsb' 0 1 ++ fB w))
  | _ => .error .unassignedFunction

def decodeTask (w : IWord) : DecodeResult :=
  match (fFn w).toNat with
  | 0 => .ok (.spawn (fD w) (fA w) (fB w))
  | 1 => zeroed ((fB w) = 0#6) (.spwait (fD w) (fA w))
  | 2 => zeroed ((fB w) = 0#6) (.sptest (fD w) (fA w))
  | 3 => zeroed ((fB w) = 0#6) (.depdec (fD w) (fA w))
  | 4 => zeroed ((fB w) = 0#6) (.depinc (fD w) (fA w))
  | _ => .error .unassignedFunction

def decodeWlist (w : IWord) : DecodeResult :=
  match (fFn w).toNat with
  | 0 => .ok (.wlcfg (fD w) (fA w) (fB w))
  | 1 => .ok (.wlpush (fD w) (fA w) (fB w))
  | 2 => .ok (.wlins (fD w) (fA w) (fB w))
  | 3 => .ok (.wlpopb (fD w) (fA w) (fB w))
  | 4 => zeroed ((fB w) = 0#6) (.wlcnt (fD w) (fA w))
  | 5 => zeroed ((fB w) = 0#6) (.wldrain (fD w) (fA w))
  | _ => .error .unassignedFunction

def decodeFirn (w : IWord) : DecodeResult :=
  match (fFn w).toNat with
  | 0 => .ok (.frnck (fD w) (fA w) (fB w))
  | 1 => .ok (.frnput (fD w) (fA w) (fB w))
  | 2 => .ok (.frninv (fD w) (fA w) (fB w))
  | 3 => .ok (.frnstat (fD w) (fA w) (fB w))
  | 4 => zeroed ((fB w) = 0#6) (.frnflush (fD w) (fA w))
  | _ => .error .unassignedFunction

def decodeVaultC (w : IWord) : DecodeResult :=
  match (fFn w).toNat with
  | 0 => .ok (.vtadd (fD w) (fA w) (fB w))
  | 1 => .ok (.vtfadd (fD w) (fA w) (fB w))
  | 2 => .ok (.vtmax (fD w) (fA w) (fB w))
  | 3 => .ok (.vtcas (fD w) (fA w) (fB w))
  | 4 => .ok (.vtsac (fD w) (fA w) (fB w))
  | _ => .error .unassignedFunction

def decodeSys (w : IWord) : DecodeResult :=
  match (fFn w).toNat with
  | 0 => zeroed ((fD w) = 0#6 && (fB w) = 0#6) (.trap (fA w))
  | 1 => zeroed ((fD w) = 0#6 && (fA w) = 0#6 && (fB w) = 0#6) (.eret)
  | 2 => zeroed ((fD w) = 0#6 && (fA w) = 0#6 && (fB w) = 0#6) (.uiret)
  | 3 => zeroed ((fD w) = 0#6 && (fA w) = 0#6 && (fB w) = 0#6) (.brk)
  | 4 => zeroed ((fD w) = 0#6 && (fB w) = 0#6) (.sysc (fA w))
  | 5 => zeroed ((fB w) = 0#6) (.rtfill (fD w) (fA w))
  | 6 => zeroed ((fA w) = 0#6 && (fB w) = 0#6) (.rtnext (fD w))
  | 7 => zeroed ((fB w) = 0#6) (.resume (fD w) (fA w))
  | 8 => zeroed ((fB w) = 0#6) (.kill (fD w) (fA w))
  | 9 => zeroed ((fD w) = 0#6) (.tlbinv (fA w) (fB w))
  | _ => .error .unassignedFunction

def decodeApat (w e : IWord) : DecodeResult :=
  match (fFn w).toNat with
  | 0 => do
      let space ← need (Space.ofBits (e.extractLsb' 30 2))
      zeroed (((fD w).extractLsb' 3 3) = 0#3 && (e.extractLsb' 0 24) = 0#24) (.apcfg ((fD w).extractLsb' 0 3) (fA w) (fB w) space (e.extractLsb' 26 4) (e.extractLsb' 24 2))
  | 1 => zeroed (((fD w).extractLsb' 5 1) = 0#1 && (fA w) = 0#6) (.astrm ((fD w).extractLsb' 0 5) ((fB w).extractLsb' 3 3) ((fB w).extractLsb' 0 3))
  | 2 => zeroed (((fD w).extractLsb' 5 1) = 0#1 && (fA w) = 0#6) (.astro ((fD w).extractLsb' 0 5) ((fB w).extractLsb' 3 3) ((fB w).extractLsb' 0 3))
  | 3 => zeroed (((fD w).extractLsb' 5 1) = 0#1 && ((fA w).extractLsb' 5 1) = 0#1) (.agath ((fD w).extractLsb' 0 5) ((fA w).extractLsb' 0 5) ((fB w).extractLsb' 3 3) ((fB w).extractLsb' 0 3))
  | 4 => zeroed (((fD w).extractLsb' 5 1) = 0#1 && ((fA w).extractLsb' 5 1) = 0#1) (.ascat ((fD w).extractLsb' 0 5) ((fA w).extractLsb' 0 5) ((fB w).extractLsb' 3 3) ((fB w).extractLsb' 0 3))
  | 5 => do
      let space ← need (Space.ofBits (e.extractLsb' 30 2))
      zeroed ((e.extractLsb' 0 28) = 0#28) (.awcfg (fD w) (fA w) (fB w) space (e.extractLsb' 28 2))
  | 6 => zeroed (((fD w).extractLsb' 5 1) = 0#1 && (fA w) = 0#6 && ((fB w).extractLsb' 3 3) = 0#3) (.awin ((fD w).extractLsb' 0 5) ((fB w).extractLsb' 0 3))
  | 7 => zeroed ((fB w) = 0#6) (.awpass (fD w) (fA w))
  | 8 => zeroed ((fD w) = 0#6 && ((fB w).extractLsb' 0 3) = 0#3) (.aprf (fA w) ((fB w).extractLsb' 3 3))
  | _ => .error .unassignedFunction

def decodeVarith (w : IWord) : DecodeResult :=
  match (fFn w).toNat with
  | 0 => .ok (.vadd (fD w) (fA w) (fB w))
  | 1 => .ok (.vsub (fD w) (fA w) (fB w))
  | 2 => .ok (.vmul (fD w) (fA w) (fB w))
  | 3 => .ok (.vfma (fD w) (fA w) (fB w))
  | 4 => .ok (.vfms (fD w) (fA w) (fB w))
  | 5 => .ok (.vfnma (fD w) (fA w) (fB w))
  | 6 => .ok (.vmin (fD w) (fA w) (fB w))
  | 7 => .ok (.vmax (fD w) (fA w) (fB w))
  | 8 => .ok (.vminp (fD w) (fA w) (fB w))
  | 9 => .ok (.vmaxp (fD w) (fA w) (fB w))
  | 10 => zeroed ((fB w) = 0#6) (.vabs (fD w) (fA w))
  | 11 => zeroed ((fB w) = 0#6) (.vneg (fD w) (fA w))
  | 12 => .ok (.vdiv (fD w) (fA w) (fB w))
  | 13 => zeroed ((fB w) = 0#6) (.vsqrt (fD w) (fA w))
  | 14 => zeroed ((fB w) = 0#6) (.vsgn (fD w) (fA w))
  | _ => .error .unassignedFunction

def decodeVint (w : IWord) : DecodeResult :=
  match (fFn w).toNat with
  | 0 => .ok (.vand (fD w) (fA w) (fB w))
  | 1 => .ok (.vor (fD w) (fA w) (fB w))
  | 2 => .ok (.vxor (fD w) (fA w) (fB w))
  | 3 => zeroed ((fB w) = 0#6) (.vnot (fD w) (fA w))
  | 4 => .ok (.vsll (fD w) (fA w) (fB w))
  | 5 => .ok (.vsrl (fD w) (fA w) (fB w))
  | 6 => .ok (.vsra (fD w) (fA w) (fB w))
  | 7 => .ok (.vaddsat (fD w) (fA w) (fB w))
  | 8 => .ok (.vsubsat (fD w) (fA w) (fB w))
  | 9 => .ok (.vmulhi (fD w) (fA w) (fB w))
  | _ => .error .unassignedFunction

def decodeVcmp (w : IWord) : DecodeResult :=
  match (fFn w).toNat with
  | 0 => zeroed (((fD w).extractLsb' 3 3) = 0#3) (.vceq ((fD w).extractLsb' 0 3) (fA w) (fB w))
  | 1 => zeroed (((fD w).extractLsb' 3 3) = 0#3) (.vcne ((fD w).extractLsb' 0 3) (fA w) (fB w))
  | 2 => zeroed (((fD w).extractLsb' 3 3) = 0#3) (.vclt ((fD w).extractLsb' 0 3) (fA w) (fB w))
  | 3 => zeroed (((fD w).extractLsb' 3 3) = 0#3) (.vcle ((fD w).extractLsb' 0 3) (fA w) (fB w))
  | 4 => zeroed (((fD w).extractLsb' 3 3) = 0#3) (.vcgt ((fD w).extractLsb' 0 3) (fA w) (fB w))
  | 5 => zeroed (((fD w).extractLsb' 3 3) = 0#3) (.vcge ((fD w).extractLsb' 0 3) (fA w) (fB w))
  | 6 => zeroed (((fD w).extractLsb' 3 3) = 0#3) (.vcun ((fD w).extractLsb' 0 3) (fA w) (fB w))
  | _ => .error .unassignedFunction

def decodeVmask (w : IWord) : DecodeResult :=
  match (fFn w).toNat with
  | 0 => zeroed (((fB w).extractLsb' 3 3) = 0#3) (.vsel (fD w) (fA w) ((fB w).extractLsb' 0 3))
  | 1 => zeroed (((fD w).extractLsb' 3 3) = 0#3 && ((fA w).extractLsb' 3 3) = 0#3 && ((fB w).extractLsb' 3 3) = 0#3) (.mand ((fD w).extractLsb' 0 3) ((fA w).extractLsb' 0 3) ((fB w).extractLsb' 0 3))
  | 2 => zeroed (((fD w).extractLsb' 3 3) = 0#3 && ((fA w).extractLsb' 3 3) = 0#3 && ((fB w).extractLsb' 3 3) = 0#3) (.mor ((fD w).extractLsb' 0 3) ((fA w).extractLsb' 0 3) ((fB w).extractLsb' 0 3))
  | 3 => zeroed (((fD w).extractLsb' 3 3) = 0#3 && ((fA w).extractLsb' 3 3) = 0#3 && ((fB w).extractLsb' 3 3) = 0#3) (.mxor ((fD w).extractLsb' 0 3) ((fA w).extractLsb' 0 3) ((fB w).extractLsb' 0 3))
  | 4 => zeroed (((fD w).extractLsb' 3 3) = 0#3 && ((fA w).extractLsb' 3 3) = 0#3 && (fB w) = 0#6) (.mnot ((fD w).extractLsb' 0 3) ((fA w).extractLsb' 0 3))
  | 5 => zeroed (((fA w).extractLsb' 3 3) = 0#3 && (fB w) = 0#6) (.mpop (fD w) ((fA w).extractLsb' 0 3))
  | 6 => zeroed (((fA w).extractLsb' 3 3) = 0#3 && (fB w) = 0#6) (.mfirst (fD w) ((fA w).extractLsb' 0 3))
  | _ => .error .unassignedFunction

def decodeVcvt (w : IWord) : DecodeResult :=
  do
    let t ← need (CvtType.ofBits ((fFn w).extractLsb' 4 4))
    zeroed (((fB w).extractLsb' 1 5) = 0#5 && (fFn w).getLsbD 0 = false) (.vcvt (fD w) (fA w) ((fB w).extractLsb' 0 1) t (Rounding.ofBits ((fFn w).extractLsb' 2 2)) ((fFn w).getLsbD 1))

def decodeVred (w : IWord) : DecodeResult :=
  match (fFn w).toNat with
  | 0 => zeroed (((fB w).extractLsb' 3 3) = 0#3) (.vrsum (fD w) (fA w) ((fB w).extractLsb' 0 3))
  | 1 => zeroed (((fB w).extractLsb' 3 3) = 0#3) (.vrmax (fD w) (fA w) ((fB w).extractLsb' 0 3))
  | 2 => zeroed (((fB w).extractLsb' 3 3) = 0#3) (.vrmin (fD w) (fA w) ((fB w).extractLsb' 0 3))
  | 3 => do
      let o ← need (ScanOp.ofBits ((fB w).extractLsb' 3 2))
      zeroed (((fB w).extractLsb' 5 1) = 0#1) (.vscan (fD w) (fA w) o ((fB w).extractLsb' 0 3))
  | _ => .error .unassignedFunction

def decodeVmov (w : IWord) : DecodeResult :=
  match (fFn w).toNat with
  | 0 => zeroed ((fB w) = 0#6) (.vmov (fD w) (fA w))
  | 1 => zeroed ((fB w) = 0#6) (.vbcast (fD w) (fA w))
  | 2 => .ok (.vext (fD w) (fA w) (fB w))
  | 3 => .ok (.vins (fD w) (fA w) (fB w))
  | 4 => .ok (.vperm (fD w) (fA w) (fB w))
  | 5 => .ok (.vrot (fD w) (fA w) (fB w))
  | 6 => zeroed ((fB w) = 0#6) (.vidx (fD w) (fA w))
  | 7 => .ok (.vpack (fD w) (fA w) (fB w))
  | 8 => zeroed (((fB w).extractLsb' 1 5) = 0#5) (.vunpk (fD w) (fA w) ((fB w).extractLsb' 0 1))
  | _ => .error .unassignedFunction

def decodeVmem (w : IWord) : DecodeResult :=
  match (fFn w).toNat with
  | 0 => .ok (.vld (fD w) (fA w) (fB w))
  | 1 => .ok (.vst (fD w) (fA w) (fB w))
  | 2 => zeroed (((fA w).extractLsb' 5 1) = 0#1 && ((fB w).extractLsb' 3 3) = 0#3) (.vldq (fD w) ((fA w).extractLsb' 0 5) ((fB w).extractLsb' 0 3))
  | 3 => zeroed (((fA w).extractLsb' 5 1) = 0#1 && ((fB w).extractLsb' 3 3) = 0#3) (.vstq (fD w) ((fA w).extractLsb' 0 5) ((fB w).extractLsb' 0 3))
  | 4 => .ok (.vgat (fD w) (fA w) (fB w))
  | 5 => .ok (.vsct (fD w) (fA w) (fB w))
  | 6 => zeroed ((fD w) = 0#6 && (fA w) = 0#6) (.swait (fB w))
  | _ => .error .unassignedFunction

def decodeVpart (w : IWord) : DecodeResult :=
  match (fFn w).toNat with
  | 0 => zeroed (((fD w).extractLsb' 5 1) = 0#1 && ((fB w).extractLsb' 3 3) = 0#3) (.vpart ((fD w).extractLsb' 0 5) (fA w) ((fB w).extractLsb' 0 3))
  | 1 => zeroed (((fB w).extractLsb' 3 3) = 0#3) (.vcmpk (fD w) (fA w) ((fB w).extractLsb' 0 3))
  | 2 => zeroed (((fB w).extractLsb' 3 3) = 0#3) (.vexpd (fD w) (fA w) ((fB w).extractLsb' 0 3))
  | _ => .error .unassignedFunction

noncomputable def decodeVtab (w e : IWord) : DecodeResult :=
  match (fFn w).toNat with
  | 0 => zeroed (((fD w).extractLsb' 2 4) = 0#4 && (e.extractLsb' 25 7) = 0#7) (.vtcfg ((fD w).extractLsb' 0 2) (fA w) (fB w) (e.extractLsb' 24 1) (OobMode.ofBits (e.extractLsb' 22 2)) (OobMode.ofBits (e.extractLsb' 20 2)) (e.extractLsb' 12 8) (e.extractLsb' 0 12))
  | 1 => zeroed (((fB w).extractLsb' 2 4) = 0#4) (.vtab (fD w) (fA w) ((fB w).extractLsb' 0 2))
  | 2 => zeroed (((fB w).extractLsb' 2 4) = 0#4) (.vtabl (fD w) (fA w) ((fB w).extractLsb' 0 2))
  | 3 => zeroed (((fB w).extractLsb' 2 4) = 0#4) (.vtabq (fD w) (fA w) ((fB w).extractLsb' 0 2))
  | 4 => zeroed ((fB w) = 0#6) (.vexp2 (fD w) (fA w))
  | 5 => zeroed ((fB w) = 0#6) (.vlog2 (fD w) (fA w))
  | _ => .error .unassignedFunction

noncomputable def decodeFloe (w : IWord) : DecodeResult :=
  match (fFn w).toNat with
  | 0 => zeroed (((fD w).extractLsb' 3 3) = 0#3) (.flmatch ((fD w).extractLsb' 0 3) (fA w) (fB w))
  | 1 => zeroed (((fD w).extractLsb' 3 3) = 0#3) (.flmerge ((fD w).extractLsb' 0 3) (fA w) (fB w))
  | 2 => zeroed (((fD w).extractLsb' 3 3) = 0#3) (.flunmg ((fD w).extractLsb' 0 3) (fA w) (fB w))
  | 3 => zeroed (((fA w).extractLsb' 3 3) = 0#3) (.flsize (fD w) ((fA w).extractLsb' 0 3) (fB w))
  | 4 => zeroed (((fA w).extractLsb' 3 3) = 0#3 && (fB w) = 0#6) (.flsig (fD w) ((fA w).extractLsb' 0 3))
  | 5 => zeroed (((fD w).extractLsb' 3 3) = 0#3 && (fB w) = 0#6) (.flsave ((fD w).extractLsb' 0 3) (fA w))
  | 6 => zeroed (((fD w).extractLsb' 3 3) = 0#3 && (fB w) = 0#6) (.flload ((fD w).extractLsb' 0 3) (fA w))
  | 7 => zeroed (((fD w).extractLsb' 3 3) = 0#3 && (fA w) = 0#6 && (fB w) = 0#6) (.flfree ((fD w).extractLsb' 0 3))
  | _ => .error .unassignedFunction

noncomputable def decodeVattn (w : IWord) : DecodeResult :=
  match (fFn w).toNat with
  | 0 => .ok (.vsmx (fD w) (fA w) (fB w))
  | 1 => .ok (.vsmxs (fD w) (fA w) (fB w))
  | _ => .error .unassignedFunction

noncomputable def decodeSprs (w : IWord) : DecodeResult :=
  match (fFn w).toNat with
  | 0 => zeroed (((fD w).extractLsb' 3 3) = 0#3) (.prunepk ((fD w).extractLsb' 0 3) (fA w) ((fB w).extractLsb' 4 2) ((fB w).extractLsb' 0 4))
  | 1 => zeroed (((fD w).extractLsb' 3 3) = 0#3) (.prunepkt ((fD w).extractLsb' 0 3) (fA w) ((fB w).extractLsb' 4 2) ((fB w).extractLsb' 0 4))
  | 2 => zeroed (((fA w).extractLsb' 4 2) = 0#2) (.mdpack (fD w) ((fA w).extractLsb' 3 1) ((fA w).extractLsb' 0 3) ((fB w).extractLsb' 4 2) ((fB w).extractLsb' 0 4))
  | 3 => .ok (.mdchk (fD w) (fA w) (fB w))
  | _ => .error .unassignedFunction

noncomputable def decodeMat (w : IWord) : DecodeResult :=
  match (fFn w).toNat with
  | 0 => .ok (.mmac (fAcc w) (fMa w) (fMb w) (fMm w))
  | 1 => .ok (.mmacs (fAcc w) (fMa w) (fMb w) (fMm w))
  | 2 => .ok (.mmacg (fAcc w) (fMa w) (fMb w) (fMm w))
  | 3 => .ok (.mmacsg (fAcc w) (fMa w) (fMb w) (fMm w))
  | 4 => zeroed ((fMa w) = 0#5 && (fMb w) = 0#5 && (fMm w) = 0#5) (.mclr (fAcc w))
  | 5 => zeroed ((fAcc w) = 0#3 && (fMb w) = 0#5 && (fMm w) = 0#5) (.mcfg (fMa w))
  | 6 => zeroed ((fAcc w) = 0#3 && (fMb w) = 0#5) (.mhdr (fMa w) (fMm w))
  | 7 => zeroed (((fMa w).extractLsb' 3 2) = 0#2 && (fMb w) = 0#5 && (fMm w) = 0#5) (.mtrn (fAcc w) ((fMa w).extractLsb' 0 3))
  | _ => .error .unassignedFunction

noncomputable def decodeXcopy (w e : IWord) : DecodeResult :=
  match (fFn w).toNat with
  | 0 => do
      let ss ← need (Space.ofBits (e.extractLsb' 30 2))
      let ds ← need (Space.ofBits (e.extractLsb' 28 2))
      zeroed ((e.extractLsb' 0 28) = 0#28) (.xcpy (fD w) (fA w) (fB w) ss ds)
  | 1 => do
      let ss ← need (Space.ofBits (e.extractLsb' 30 2))
      let ds ← need (Space.ofBits (e.extractLsb' 28 2))
      zeroed ((e.extractLsb' 0 28) = 0#28) (.xcp2 (fD w) (fA w) (fB w) ss ds)
  | 2 => do
      let ss ← need (Space.ofBits (e.extractLsb' 30 2))
      let ds ← need (Space.ofBits (e.extractLsb' 28 2))
      zeroed ((e.extractLsb' 0 28) = 0#28) (.xcp3 (fD w) (fA w) (fB w) ss ds)
  | 3 => do
      let ss ← need (Space.ofBits (e.extractLsb' 30 2))
      let ds ← need (Space.ofBits (e.extractLsb' 28 2))
      zeroed ((e.extractLsb' 0 16) = 0#16) (.xcvt (fD w) (fA w) (fB w) ss ds (e.extractLsb' 24 4) (e.extractLsb' 20 4) (Rounding.ofBits (e.extractLsb' 18 2)) (e.extractLsb' 17 1) (e.extractLsb' 16 1))
  | 4 => zeroed ((e.extractLsb' 0 8) = 0#8) (.xmcast (fD w) (fA w) (fB w) (e.extractLsb' 24 8) (e.extractLsb' 8 16))
  | 5 => do
      let f ← decodeFollow e
      zeroed ((fD w) = 0#6 && (fA w) = 0#6 && (fB w) = 0#6) (.xflw f)
  | 6 => do
      let op ← need (VaultOp.ofBits (e.extractLsb' 29 3))
      zeroed ((e.extractLsb' 0 28) = 0#28) (.xvop (fD w) (fA w) (fB w) op (e.extractLsb' 28 1))
  | 7 => zeroed ((e.extractLsb' 0 27) = 0#27) (.xrem (fD w) (fA w) (fB w) (e.extractLsb' 27 5))
  | 8 => zeroed ((fA w) = 0#6 && (fB w) = 0#6 && (e.extractLsb' 15 17) = 0#17 && (e.extractLsb' 2 6) = 0#6) (.xwait (fD w) (e.extractLsb' 8 7) (e.extractLsb' 0 2))
  | 9 => zeroed ((fD w) = 0#6 && (fB w) = 0#6 && (e.extractLsb' 0 24) = 0#24) (.xcmpl (fA w) (Action.ofBits (e.extractLsb' 30 2)) (e.extractLsb' 29 1) (e.extractLsb' 24 5))
  | _ => .error .unassignedFunction

noncomputable def decodeTxb (w : IWord) : DecodeResult :=
  match (fFn w).toNat with
  | 0 => zeroed ((fD w) = 0#6 && (fB w) = 0#6) (.txinit (fA w))
  | 1 => .ok (.txexp (fD w) (fA w) (fB w))
  | 2 => zeroed ((fD w) = 0#6) (.txarr (fA w) (fB w))
  | 3 => .ok (.txwait (fD w) (fA w) (fB w))
  | 4 => .ok (.txtest (fD w) (fA w) (fB w))
  | _ => .error .unassignedFunction

/-- The instruction of a first word and its extension word (ignored where the first word is the whole instruction): checks 2, 3 and 5 of R141. -/
noncomputable def decodeRaw (w e : IWord) : DecodeResult :=
  match (fOp w).toNat with
  | 0 => decodeAlu w
  | 1 => decodeAluI w
  | 2 => decodeLui w
  | 3 => decodeLix w e
  | 4 => decodeBr w
  | 5 => decodeJal w
  | 6 => decodeJalr w
  | 7 => decodeLoop w
  | 8 => decodeQctl w
  | 9 => decodeQxfr w
  | 10 => decodeBq w
  | 11 => decodeSync w
  | 12 => decodeCtl w
  | 13 => decodeLoad w
  | 14 => decodeStore w
  | 15 => decodeMemc w
  | 16 => decodeAtom w
  | 17 => decodeFence w
  | 18 => decodeTask w
  | 19 => decodeWlist w
  | 20 => decodeFirn w
  | 21 => decodeVaultC w
  | 22 => decodeSys w
  | 24 => decodeApat w e
  | 26 => decodeVarith w
  | 27 => decodeVint w
  | 28 => decodeVcmp w
  | 29 => decodeVmask w
  | 30 => decodeVcvt w
  | 31 => decodeVred w
  | 32 => decodeVmov w
  | 33 => decodeVmem w
  | 34 => decodeVpart w
  | 35 => decodeVtab w e
  | 36 => decodeFloe w
  | 37 => decodeVattn w
  | 38 => decodeSprs w
  | 40 => decodeMat w
  | 42 => decodeXcopy w e
  | 43 => decodeTxb w
  | _ => .error .unassignedMajor

/-- Decoding of two words, with the checks that the fields together decide (`Instr.wf`). -/
noncomputable def decodeWords (w e : IWord) : DecodeResult :=
  match decodeRaw w e with
  | .ok i => if i.wf then .ok i else .error .badOperand
  | .error x => .error x

/-- Bytes of an instruction, by its first word (R135). -/
def instrBytes (w : IWord) : Nat := if isTwoWord w then 8 else 4

/-- Four bytes as a little-endian word (R3). -/
def iwordOfBytes (b0 b1 b2 b3 : Byte) : IWord := b3 ++ b2 ++ b1 ++ b0

/-- The instruction at the head of a list of bytes, and the rest of the list. -/
noncomputable def decode : List Byte → Except DecodeError (Instr × List Byte)
  | b0 :: b1 :: b2 :: b3 :: rest =>
    let w := iwordOfBytes b0 b1 b2 b3
    if isTwoWord w then
      match rest with
      | c0 :: c1 :: c2 :: c3 :: rest' =>
        match decodeWords w (iwordOfBytes c0 c1 c2 c3) with
        | .ok i => .ok (i, rest')
        | .error x => .error x
      | _ => .error .truncated
    else
      match decodeWords w 0#32 with
      | .ok i => .ok (i, rest)
      | .error x => .error x
  | _ => .error .truncated

/-- The words of an instruction, first word first (R136 to R144); events have none. -/
def encode : Instr → List IWord
  | .add d a b => [packR 0#6 d a b 0#8]
  | .sub d a b => [packR 0#6 d a b 1#8]
  | .and d a b => [packR 0#6 d a b 2#8]
  | .or d a b => [packR 0#6 d a b 3#8]
  | .xor d a b => [packR 0#6 d a b 4#8]
  | .andn d a b => [packR 0#6 d a b 5#8]
  | .sll d a b => [packR 0#6 d a b 6#8]
  | .srl d a b => [packR 0#6 d a b 7#8]
  | .sra d a b => [packR 0#6 d a b 8#8]
  | .rol d a b => [packR 0#6 d a b 9#8]
  | .mul d a b => [packR 0#6 d a b 10#8]
  | .mulh d a b => [packR 0#6 d a b 11#8]
  | .mulhu d a b => [packR 0#6 d a b 12#8]
  | .div d a b => [packR 0#6 d a b 13#8]
  | .divu d a b => [packR 0#6 d a b 14#8]
  | .rem d a b => [packR 0#6 d a b 15#8]
  | .remu d a b => [packR 0#6 d a b 16#8]
  | .min d a b => [packR 0#6 d a b 17#8]
  | .minu d a b => [packR 0#6 d a b 18#8]
  | .max d a b => [packR 0#6 d a b 19#8]
  | .maxu d a b => [packR 0#6 d a b 20#8]
  | .seq d a b => [packR 0#6 d a b 21#8]
  | .sne d a b => [packR 0#6 d a b 22#8]
  | .slt d a b => [packR 0#6 d a b 23#8]
  | .sltu d a b => [packR 0#6 d a b 24#8]
  | .sle d a b => [packR 0#6 d a b 25#8]
  | .sleu d a b => [packR 0#6 d a b 26#8]
  | .clz d a => [packR 0#6 d a 0#6 27#8]
  | .ctz d a => [packR 0#6 d a 0#6 28#8]
  | .popc d a => [packR 0#6 d a 0#6 29#8]
  | .bswap d a => [packR 0#6 d a 0#6 30#8]
  | .sexb d a => [packR 0#6 d a 0#6 31#8]
  | .sexh d a => [packR 0#6 d a 0#6 32#8]
  | .sexw d a => [packR 0#6 d a 0#6 33#8]
  | .fadd d a b => [packR 0#6 d a b 34#8]
  | .fsub d a b => [packR 0#6 d a b 35#8]
  | .fmul d a b => [packR 0#6 d a b 36#8]
  | .fdiv d a b => [packR 0#6 d a b 37#8]
  | .fmin d a b => [packR 0#6 d a b 38#8]
  | .fmax d a b => [packR 0#6 d a b 39#8]
  | .fminp d a b => [packR 0#6 d a b 40#8]
  | .fmaxp d a b => [packR 0#6 d a b 41#8]
  | .fcvtfi d a rm => [packR 0#6 d a (0#4 ++ rm.toBits) 42#8]
  | .fcvtif d a rm => [packR 0#6 d a (0#4 ++ rm.toBits) 43#8]
  | .feq d a b => [packR 0#6 d a b 44#8]
  | .flt d a b => [packR 0#6 d a b 45#8]
  | .fle d a b => [packR 0#6 d a b 46#8]
  | .addi d a imm => [packI 1#6 d a 0#3 imm]
  | .andi d a imm => [packI 1#6 d a 1#3 imm]
  | .ori d a imm => [packI 1#6 d a 2#3 imm]
  | .xori d a imm => [packI 1#6 d a 3#3 imm]
  | .slli d a sh => [packI 1#6 d a 4#3 (0#5 ++ sh)]
  | .srli d a sh => [packI 1#6 d a 5#3 (0#5 ++ sh)]
  | .srai d a sh => [packI 1#6 d a 6#3 (0#5 ++ sh)]
  | .slti d a imm => [packI 1#6 d a 7#3 imm]
  | .lui d imm => [packJ 2#6 d imm]
  | .lix d imm => [packR 3#6 d 0#6 0#6 0#8, imm]
  | .lihx d imm => [packR 3#6 d 0#6 0#6 1#8, imm]
  | .addx d a imm => [packR 3#6 d a 0#6 2#8, imm]
  | .beq a b off => [packB 4#6 a b 0#3 off]
  | .bne a b off => [packB 4#6 a b 1#3 off]
  | .blt a b off => [packB 4#6 a b 2#3 off]
  | .bge a b off => [packB 4#6 a b 3#3 off]
  | .bltu a b off => [packB 4#6 a b 4#3 off]
  | .bgeu a b off => [packB 4#6 a b 5#3 off]
  | .bset a b off => [packB 4#6 a b 6#3 off]
  | .bclr a b off => [packB 4#6 a b 7#3 off]
  | .jal d off => [packJ 5#6 d off]
  | .jalr d a imm => [packI 6#6 d a 0#3 imm]
  | .loop lvl len s => [packL 7#6 lvl 0#2 len (0#6 ++ s)]
  | .loopi lvl len cnt => [packL 7#6 lvl 1#2 len cnt]
  | .loopk lvl len k => [packL 7#6 lvl 2#2 len (0#8 ++ k)]
  | .loopm lvl len s => [packL 7#6 lvl 3#2 len (0#6 ++ s)]
  | .qwait qa qb qd n => [packQ 8#6 (qd.getD 0#5) qa (qb.getD 0#5) n (BitVec.ofBool qd.isSome ++ BitVec.ofBool qb.isSome ++ 0#1 ++ 0#5)]
  | .qroom qa qb qd n => [packQ 8#6 (qd.getD 0#5) qa (qb.getD 0#5) n (BitVec.ofBool qd.isSome ++ BitVec.ofBool qb.isSome ++ 0#1 ++ 1#5)]
  | .qadv qa qb qd n => [packQ 8#6 (qd.getD 0#5) qa (qb.getD 0#5) n (BitVec.ofBool qd.isSome ++ BitVec.ofBool qb.isSome ++ 0#1 ++ 2#5)]
  | .qadvp qa qb qd n => [packQ 8#6 (qd.getD 0#5) qa (qb.getD 0#5) n (BitVec.ofBool qd.isSome ++ BitVec.ofBool qb.isSome ++ 0#1 ++ 3#5)]
  | .qrst qa qb qd => [packQ 8#6 (qd.getD 0#5) qa (qb.getD 0#5) 0#3 (BitVec.ofBool qd.isSome ++ BitVec.ofBool qb.isSome ++ 0#1 ++ 4#5)]
  | .qpop d q => [packR 9#6 d 0#6 (0#1 ++ q) 0#8]
  | .qpeek d a q => [packR 9#6 d a (0#1 ++ q) 1#8]
  | .qput a q => [packR 9#6 0#6 a (0#1 ++ q) 2#8]
  | .qcfg a q => [packR 9#6 0#6 a (0#1 ++ q) 3#8]
  | .qcnt d q => [packR 9#6 d 0#6 (0#1 ++ q) 4#8]
  | .bqt q off => [packB 10#6 (0#1 ++ q) 0#6 0#3 off]
  | .bqf q off => [packB 10#6 (0#1 ++ q) 0#6 1#3 off]
  | .nop => [packR 11#6 0#6 0#6 0#6 0#8]
  | .rdv0 => [packR 11#6 0#6 0#6 0#6 1#8]
  | .rdvEnd => [packR 11#6 0#6 0#6 63#6 1#8]
  | .rdvStreamSet set => [packR 11#6 0#6 0#6 (0#1 ++ set) 1#8]
  | .pbar tag => [packR 11#6 0#6 0#6 (0#3 ++ tag) 2#8]
  | .pbara tag => [packR 11#6 0#6 0#6 (0#3 ++ tag) 3#8]
  | .pbarw tag => [packR 11#6 0#6 0#6 (0#3 ++ tag) 4#8]
  | .wfi => [packR 11#6 0#6 0#6 0#6 5#8]
  | .ipref a n => [packR 11#6 0#6 a n 6#8]
  | .rdc d n => [packR 12#6 d (n.extractLsb' 6 6) (n.extractLsb' 0 6) 0#8]
  | .wrc d n => [packR 12#6 d (n.extractLsb' 6 6) (n.extractLsb' 0 6) 1#8]
  | .rdk d k => [packR 12#6 d 0#6 (0#2 ++ k) 2#8]
  | .rdcyc d => [packR 12#6 d 0#6 0#6 3#8]
  | .rdid d which => [packR 12#6 d 0#6 (0#4 ++ which.toBits) 4#8]
  | .rdloop d level => [packR 12#6 d 0#6 (0#3 ++ level) 5#8]
  | .ldb d a imm => [packI 13#6 d a 0#3 imm]
  | .ldbs d a imm => [packI 13#6 d a 1#3 imm]
  | .ldh d a imm => [packI 13#6 d a 2#3 imm]
  | .ldhs d a imm => [packI 13#6 d a 3#3 imm]
  | .ldw d a imm => [packI 13#6 d a 4#3 imm]
  | .ldws d a imm => [packI 13#6 d a 5#3 imm]
  | .ldd d a imm => [packI 13#6 d a 6#3 imm]
  | .stb d a imm => [packI 14#6 d a 0#3 imm]
  | .sth d a imm => [packI 14#6 d a 1#3 imm]
  | .stw d a imm => [packI 14#6 d a 2#3 imm]
  | .std d a imm => [packI 14#6 d a 3#3 imm]
  | .lsmark => [packR 15#6 0#6 0#6 0#6 0#8]
  | .l1inv a b => [packR 15#6 0#6 a b 1#8]
  | .l1inva => [packR 15#6 0#6 0#6 0#6 2#8]
  | .pref a => [packR 15#6 0#6 a 0#6 3#8]
  | .own d a b => [packR 15#6 d a b 4#8]
  | .disown d a => [packR 15#6 d a 0#6 5#8]
  | .amoadd d a b ord wd => [packR 16#6 d a b (0#4 ++ ord.toBits ++ wd.toBits)]
  | .amoand d a b ord wd => [packR 16#6 d a b (1#4 ++ ord.toBits ++ wd.toBits)]
  | .amoor d a b ord wd => [packR 16#6 d a b (2#4 ++ ord.toBits ++ wd.toBits)]
  | .amoxor d a b ord wd => [packR 16#6 d a b (3#4 ++ ord.toBits ++ wd.toBits)]
  | .amomin d a b ord wd => [packR 16#6 d a b (4#4 ++ ord.toBits ++ wd.toBits)]
  | .amominu d a b ord wd => [packR 16#6 d a b (5#4 ++ ord.toBits ++ wd.toBits)]
  | .amomax d a b ord wd => [packR 16#6 d a b (6#4 ++ ord.toBits ++ wd.toBits)]
  | .amomaxu d a b ord wd => [packR 16#6 d a b (7#4 ++ ord.toBits ++ wd.toBits)]
  | .amoswp d a b ord wd => [packR 16#6 d a b (8#4 ++ ord.toBits ++ wd.toBits)]
  | .amocas d a b ord wd => [packR 16#6 d a b (9#4 ++ ord.toBits ++ wd.toBits)]
  | .amofadd d a b ord => [packR 16#6 d a b (10#4 ++ ord.toBits ++ 0#1)]
  | .fence => [packR 17#6 0#6 0#6 0#6 0#8]
  | .qfence mask => [packR 17#6 0#6 (0#5 ++ mask.extractLsb' 6 1) (mask.extractLsb' 0 6) 1#8]
  | .spawn d a b => [packR 18#6 d a b 0#8]
  | .spwait d a => [packR 18#6 d a 0#6 1#8]
  | .sptest d a => [packR 18#6 d a 0#6 2#8]
  | .depdec d a => [packR 18#6 d a 0#6 3#8]
  | .depinc d a => [packR 18#6 d a 0#6 4#8]
  | .wlcfg d a b => [packR 19#6 d a b 0#8]
  | .wlpush d a b => [packR 19#6 d a b 1#8]
  | .wlins d a b => [packR 19#6 d a b 2#8]
  | .wlpopb d a b => [packR 19#6 d a b 3#8]
  | .wlcnt d a => [packR 19#6 d a 0#6 4#8]
  | .wldrain d a => [packR 19#6 d a 0#6 5#8]
  | .frnck d a b => [packR 20#6 d a b 0#8]
  | .frnput d a b => [packR 20#6 d a b 1#8]
  | .frninv d a b => [packR 20#6 d a b 2#8]
  | .frnstat d a b => [packR 20#6 d a b 3#8]
  | .frnflush d a => [packR 20#6 d a 0#6 4#8]
  | .vtadd d a b => [packR 21#6 d a b 0#8]
  | .vtfadd d a b => [packR 21#6 d a b 1#8]
  | .vtmax d a b => [packR 21#6 d a b 2#8]
  | .vtcas d a b => [packR 21#6 d a b 3#8]
  | .vtsac d a b => [packR 21#6 d a b 4#8]
  | .trap a => [packR 22#6 0#6 a 0#6 0#8]
  | .eret => [packR 22#6 0#6 0#6 0#6 1#8]
  | .uiret => [packR 22#6 0#6 0#6 0#6 2#8]
  | .brk => [packR 22#6 0#6 0#6 0#6 3#8]
  | .sysc a => [packR 22#6 0#6 a 0#6 4#8]
  | .rtfill d a => [packR 22#6 d a 0#6 5#8]
  | .rtnext d => [packR 22#6 d 0#6 0#6 6#8]
  | .resume d a => [packR 22#6 d a 0#6 7#8]
  | .kill d a => [packR 22#6 d a 0#6 8#8]
  | .tlbinv a b => [packR 22#6 0#6 a b 9#8]
  | .apcfg p a b space lge dims => [packR 24#6 (0#3 ++ p) a b 0#8, (space.toBits ++ lge ++ dims ++ 0#24)]
  | .astrm q p n => [packR 24#6 (0#1 ++ q) 0#6 (p ++ n) 1#8]
  | .astro q p n => [packR 24#6 (0#1 ++ q) 0#6 (p ++ n) 2#8]
  | .agath q qi p n => [packR 24#6 (0#1 ++ q) (0#1 ++ qi) (p ++ n) 3#8]
  | .ascat q qi p n => [packR 24#6 (0#1 ++ q) (0#1 ++ qi) (p ++ n) 4#8]
  | .awcfg d a b space lge => [packR 24#6 d a b 5#8, (space.toBits ++ lge ++ 0#28)]
  | .awin q n => [packR 24#6 (0#1 ++ q) 0#6 (0#3 ++ n) 6#8]
  | .awpass d a => [packR 24#6 d a 0#6 7#8]
  | .aprf a p => [packR 24#6 0#6 a (p ++ 0#3) 8#8]
  | .vadd d a b => [packR 26#6 d a b 0#8]
  | .vsub d a b => [packR 26#6 d a b 1#8]
  | .vmul d a b => [packR 26#6 d a b 2#8]
  | .vfma d a b => [packR 26#6 d a b 3#8]
  | .vfms d a b => [packR 26#6 d a b 4#8]
  | .vfnma d a b => [packR 26#6 d a b 5#8]
  | .vmin d a b => [packR 26#6 d a b 6#8]
  | .vmax d a b => [packR 26#6 d a b 7#8]
  | .vminp d a b => [packR 26#6 d a b 8#8]
  | .vmaxp d a b => [packR 26#6 d a b 9#8]
  | .vabs d a => [packR 26#6 d a 0#6 10#8]
  | .vneg d a => [packR 26#6 d a 0#6 11#8]
  | .vdiv d a b => [packR 26#6 d a b 12#8]
  | .vsqrt d a => [packR 26#6 d a 0#6 13#8]
  | .vsgn d a => [packR 26#6 d a 0#6 14#8]
  | .vand d a b => [packR 27#6 d a b 0#8]
  | .vor d a b => [packR 27#6 d a b 1#8]
  | .vxor d a b => [packR 27#6 d a b 2#8]
  | .vnot d a => [packR 27#6 d a 0#6 3#8]
  | .vsll d a b => [packR 27#6 d a b 4#8]
  | .vsrl d a b => [packR 27#6 d a b 5#8]
  | .vsra d a b => [packR 27#6 d a b 6#8]
  | .vaddsat d a b => [packR 27#6 d a b 7#8]
  | .vsubsat d a b => [packR 27#6 d a b 8#8]
  | .vmulhi d a b => [packR 27#6 d a b 9#8]
  | .vceq d a b => [packR 28#6 (0#3 ++ d) a b 0#8]
  | .vcne d a b => [packR 28#6 (0#3 ++ d) a b 1#8]
  | .vclt d a b => [packR 28#6 (0#3 ++ d) a b 2#8]
  | .vcle d a b => [packR 28#6 (0#3 ++ d) a b 3#8]
  | .vcgt d a b => [packR 28#6 (0#3 ++ d) a b 4#8]
  | .vcge d a b => [packR 28#6 (0#3 ++ d) a b 5#8]
  | .vcun d a b => [packR 28#6 (0#3 ++ d) a b 6#8]
  | .vsel d a b => [packR 29#6 d a (0#3 ++ b) 0#8]
  | .mand d a b => [packR 29#6 (0#3 ++ d) (0#3 ++ a) (0#3 ++ b) 1#8]
  | .mor d a b => [packR 29#6 (0#3 ++ d) (0#3 ++ a) (0#3 ++ b) 2#8]
  | .mxor d a b => [packR 29#6 (0#3 ++ d) (0#3 ++ a) (0#3 ++ b) 3#8]
  | .mnot d a => [packR 29#6 (0#3 ++ d) (0#3 ++ a) 0#6 4#8]
  | .mpop d a => [packR 29#6 d (0#3 ++ a) 0#6 5#8]
  | .mfirst d a => [packR 29#6 d (0#3 ++ a) 0#6 6#8]
  | .vcvt d a h t rm sat => [packR 30#6 d a (0#5 ++ h) (t.toBits ++ rm.toBits ++ BitVec.ofBool sat ++ 0#1)]
  | .vrsum d a m => [packR 31#6 d a (0#3 ++ m) 0#8]
  | .vrmax d a m => [packR 31#6 d a (0#3 ++ m) 1#8]
  | .vrmin d a m => [packR 31#6 d a (0#3 ++ m) 2#8]
  | .vscan d a o m => [packR 31#6 d a (0#1 ++ o.toBits ++ m) 3#8]
  | .vmov d a => [packR 32#6 d a 0#6 0#8]
  | .vbcast d a => [packR 32#6 d a 0#6 1#8]
  | .vext d a b => [packR 32#6 d a b 2#8]
  | .vins d a b => [packR 32#6 d a b 3#8]
  | .vperm d a b => [packR 32#6 d a b 4#8]
  | .vrot d a b => [packR 32#6 d a b 5#8]
  | .vidx d a => [packR 32#6 d a 0#6 6#8]
  | .vpack d a b => [packR 32#6 d a b 7#8]
  | .vunpk d a h => [packR 32#6 d a (0#5 ++ h) 8#8]
  | .vld d a n => [packR 33#6 d a n 0#8]
  | .vst d a n => [packR 33#6 d a n 1#8]
  | .vldq d q n => [packR 33#6 d (0#1 ++ q) (0#3 ++ n) 2#8]
  | .vstq d q n => [packR 33#6 d (0#1 ++ q) (0#3 ++ n) 3#8]
  | .vgat d a b => [packR 33#6 d a b 4#8]
  | .vsct d a b => [packR 33#6 d a b 5#8]
  | .swait n => [packR 33#6 0#6 0#6 n 6#8]
  | .vpart q a b => [packR 34#6 (0#1 ++ q) a (0#3 ++ b) 0#8]
  | .vcmpk d a b => [packR 34#6 d a (0#3 ++ b) 1#8]
  | .vexpd d a b => [packR 34#6 d a (0#3 ++ b) 2#8]
  | .vtcfg t a b kind hi lo e nm1 => [packR 35#6 (0#4 ++ t) a b 0#8, (0#7 ++ kind ++ hi.toBits ++ lo.toBits ++ e ++ nm1)]
  | .vtab d a t => [packR 35#6 d a (0#4 ++ t) 1#8]
  | .vtabl d a t => [packR 35#6 d a (0#4 ++ t) 2#8]
  | .vtabq d a t => [packR 35#6 d a (0#4 ++ t) 3#8]
  | .vexp2 d a => [packR 35#6 d a 0#6 4#8]
  | .vlog2 d a => [packR 35#6 d a 0#6 5#8]
  | .flmatch h a b => [packR 36#6 (0#3 ++ h) a b 0#8]
  | .flmerge h a b => [packR 36#6 (0#3 ++ h) a b 1#8]
  | .flunmg h a b => [packR 36#6 (0#3 ++ h) a b 2#8]
  | .flsize d h b => [packR 36#6 d (0#3 ++ h) b 3#8]
  | .flsig d h => [packR 36#6 d (0#3 ++ h) 0#6 4#8]
  | .flsave h a => [packR 36#6 (0#3 ++ h) a 0#6 5#8]
  | .flload h a => [packR 36#6 (0#3 ++ h) a 0#6 6#8]
  | .flfree h => [packR 36#6 (0#3 ++ h) 0#6 0#6 7#8]
  | .vsmx d a b => [packR 37#6 d a b 0#8]
  | .vsmxs d a b => [packR 37#6 d a b 1#8]
  | .prunepk d a lgm nk => [packR 38#6 (0#3 ++ d) a (lgm ++ nk) 0#8]
  | .prunepkt d a lgm nk => [packR 38#6 (0#3 ++ d) a (lgm ++ nk) 1#8]
  | .mdpack d w k lgm nk => [packR 38#6 d (0#2 ++ w ++ k) (lgm ++ nk) 2#8]
  | .mdchk d a b => [packR 38#6 d a b 3#8]
  | .mmac acc qa qb qm => [packM 40#6 acc qa qb qm 0#8]
  | .mmacs acc qa qb qm => [packM 40#6 acc qa qb qm 1#8]
  | .mmacg acc qa qb qm => [packM 40#6 acc qa qb qm 2#8]
  | .mmacsg acc qa qb qm => [packM 40#6 acc qa qb qm 3#8]
  | .mclr acc => [packM 40#6 acc 0#5 0#5 0#5 4#8]
  | .mcfg s => [packM 40#6 0#3 s 0#5 0#5 5#8]
  | .mhdr s qm => [packM 40#6 0#3 s 0#5 qm 6#8]
  | .mtrn acc src => [packM 40#6 acc (0#2 ++ src) 0#5 0#5 7#8]
  | .xcpy d a b ss ds => [packR 42#6 d a b 0#8, (ss.toBits ++ ds.toBits ++ 0#28)]
  | .xcp2 d a b ss ds => [packR 42#6 d a b 1#8, (ss.toBits ++ ds.toBits ++ 0#28)]
  | .xcp3 d a b ss ds => [packR 42#6 d a b 2#8, (ss.toBits ++ ds.toBits ++ 0#28)]
  | .xcvt d a b ss ds st dt rm sr sat => [packR 42#6 d a b 3#8, (ss.toBits ++ ds.toBits ++ st ++ dt ++ rm.toBits ++ sr ++ sat ++ 0#16)]
  | .xmcast d a b rows cols => [packR 42#6 d a b 4#8, (rows ++ cols ++ 0#8)]
  | .xflw f => [packR 42#6 0#6 0#6 0#6 5#8, encodeFollow f]
  | .xvop d a b op va => [packR 42#6 d a b 6#8, (op.toBits ++ va ++ 0#28)]
  | .xrem d a b pkg => [packR 42#6 d a b 7#8, (pkg ++ 0#27)]
  | .xwait d n mask => [packR 42#6 d 0#6 0#6 8#8, (0#17 ++ n ++ 0#6 ++ mask)]
  | .xcmpl a act qrec h => [packR 42#6 0#6 a 0#6 9#8, (act.toBits ++ qrec ++ h ++ 0#24)]
  | .txinit a => [packR 43#6 0#6 a 0#6 0#8]
  | .txexp d a b => [packR 43#6 d a b 1#8]
  | .txarr a b => [packR 43#6 0#6 a b 2#8]
  | .txwait d a b => [packR 43#6 d a b 3#8]
  | .txtest d a b => [packR 43#6 d a b 4#8]
  | _ => []

/-- Word k of an instruction laid out as bit k*32 of the number `w` onwards (the numbering of spec/opcode_table.json). -/
def tableWord (w k : Nat) : IWord := BitVec.ofNat 32 (w >>> (32 * k))

/-- The bytes of a word, lowest address first (R3). -/
def bytesOfIWord (w : IWord) : List Byte :=
  [w.extractLsb' 0 8, w.extractLsb' 8 8, w.extractLsb' 16 8, w.extractLsb' 24 8]

/-- What `decode` reads from an instruction whose bits are `w`; every bit above `nbits` is 0. -/
noncomputable def decodeTableWord (nbits w : Nat) : Option Instr :=
  let v := w % 2 ^ nbits
  match decode (bytesOfIWord (tableWord v 0) ++ bytesOfIWord (tableWord v 1)) with
  | .ok (i, _) => some i
  | .error _ => none

end Sys2Proof
end

