-- ==== Sys2Proof/Machine/Table.lean ====
section
/-! DEFINITION. Sparse tables: lists of a key and a value with rising keys. A key that is not listed has the default its reader names. -/

namespace Sys2Proof.Machine

/-- Values by key, keys rising, no key twice. -/
abbrev Table (α : Type) := List (Nat × α)

/-- The value listed for a key. -/
def tfind {α : Type} (t : Table α) (k : Nat) : Option α :=
  match t with
  | [] => none
  | (j, v) :: r => if j = k then some v else tfind r k

/-- The value of a key, or the default where it is not listed. -/
def tget {α : Type} (d : α) (t : Table α) (k : Nat) : α := (tfind t k).getD d

/-- The table with one key set. -/
def tset {α : Type} (t : Table α) (k : Nat) (v : α) : Table α :=
  match t with
  | [] => [(k, v)]
  | (j, w) :: r =>
    if k < j then (k, v) :: (j, w) :: r
    else if k = j then (k, v) :: r
    else (j, w) :: tset r k v

/-- The table without one key. -/
def tdel {α : Type} (t : Table α) (k : Nat) : Table α := t.filter (fun e => e.1 != k)

/-- The table with the value of one key changed, a missing key counting as the default. -/
def tmod {α : Type} (d : α) (t : Table α) (k : Nat) (f : α → α) : Table α := tset t k (f (tget d t k))

/-- Keys listed, rising. -/
def tkeys {α : Type} (t : Table α) : List Nat := t.map (·.1)

/-- The table's keys rise. -/
def Rising {α : Type} : Table α → Prop
  | [] => True
  | (k, _) :: r => (∀ e ∈ r, k < e.1) ∧ Rising r

/-- The element of a list at a place, or the default. -/
def nth {α : Type} (d : α) (l : List α) (i : Nat) : α := l.getD i d

/-- The list with the element at a place replaced. -/
def setNth {α : Type} (l : List α) (i : Nat) (v : α) : List α := l.set i v

end Sys2Proof.Machine
end

