-- ==== Sys2Proof/Machine/State.lean ====
section
/-! DEFINITION. The state of an LN-7256 package, as plain data, and the state after a cold reset (R330). A comment on a field names the rule that gives it; fields of the model's own are marked so. -/

namespace Sys2Proof.Machine

/-- Why the machine stops as a whole. -/
inductive Fault where
  /-- The package has lost its power (R17, R330); raised by `step`, until a COLD_RESET. Safe: nothing runs. -/
  | noPower
  deriving DecidableEq, Repr

/-- Why a step has no meaning. -/
inductive Refusal where
  /-- An instruction whose meaning is not written; raised by an arm of `exec`. Safe: the run stops. -/
  | notModelled (mnemonic : String)
  deriving DecidableEq, Repr

/-- The five streams of a job (R33, R34). -/
inductive Sid where | c | a | v | m | x
  deriving DecidableEq, Repr

/-- STREAMID of a stream (R33). -/
def sidNum : Sid → Nat
  | .c => 0 | .a => 1 | .v => 2 | .m => 3 | .x => 4

/-- The stream of a stream id. -/
def sidOf : Nat → Sid
  | 0 => .c | 1 => .a | 2 => .v | 3 => .m | _ => .x

/-- The streams in ascending id. -/
def allSids : List Sid := [.c, .a, .v, .m, .x]

/-- Who issues an instruction: a stream of the job in a slot of a core, or the management core (R34, R328). -/
inductive Agent where
  | stream (core slot : Nat) (sid : Sid)
  | mgmt
  deriving DecidableEq, Repr

/-- One move of the part: an event, or an agent that issues its next instruction. Model's own (log entry 1). -/
inductive Move where
  | event (i : Instr)
  | issue (a : Agent)
  deriving DecidableEq, Repr

/-- Physical storage by byte. Addresses are those of R68; management SRAM byte a stands at 2^52 + a (R328). -/
structure Memory where
  /-- Bytes that differ from what an unlisted byte reads as, addresses rising. -/
  cells : List Host.Cell := []
  /-- What unlisted scratchpad bytes of core n read as: the fill pattern of R32 and R309; 0 where not listed. -/
  fills : Table Byte := []
  /-- Key bytes that a 32-byte sector was written under (R92), by address / 32; no encryption where not listed. -/
  keyOf : Table (List Byte) := []
  /-- Ranges [lo, hi) of storage each sector of which is read with an error of its codeword (R91, R307); an error in an address symbol is a misdirected access. -/
  flaws : List (Nat × Nat × Wrong) := []
  deriving DecidableEq, Repr

/-- One hardware loop level (R150, R166). `age` orders activations; `held` counts handlers that suspend it (R168). -/
structure Loop where
  cnt : BitVec 32 := 0#32
  stop : Word := 0#64
  start : Word := 0#64
  act : Bool := false
  age : Nat := 0
  held : Nat := 0
  deriving DecidableEq, Repr

/-- What a stream does at its PC (R295, R299). -/
inductive Run where
  /-- issues -/
  | running
  /-- waits until a queue has k filled slots, or, where `room`, k free ones -/
  | onQueue (h : Handle) (k : Nat) (room : Bool)
  /-- arrived at instance k of a rendezvous of a stream set -/
  | atRdv (set : BitVec 5) (k : Nat)
  /-- in `wfi`; woken once an event of R177 has come -/
  | inWfi (woken : Bool)
  /-- any other wait inside an instruction -/
  | waiting
  /-- stopped by a trap, a breakpoint or a step -/
  | stopped
  /-- at `rdv end` -/
  | ended
  deriving DecidableEq, Repr

/-- A fault of an engine operation that its stream has yet to raise (R295, R296). -/
structure EFault where
  cause : Byte
  cmd : BitVec 32
  status : Word := 0#64
  faddr : Word := 0#64
  /-- a violation, which freezes the core when it is raised (R304) -/
  freeze : Bool := false
  /-- a violation that has frozen the core already, while its stream raised nothing; its record shows FROZEN (R304) -/
  frozen : Bool := false
  deriving DecidableEq, Repr

/-- Where `pbar` stands in a stream's phase of a tag (R112, R176). -/
structure PbarArrival where
  tag : Nat
  /-- operations of the job with a lower number must be performed before the arrival is signalled -/
  limit : Nat
  /-- command indices of the follow-on words that were outstanding at the arrival: they must have entered the MQ (R251) -/
  words : List (BitVec 32) := []
  /-- by a `pbar`, whose abandoned wait takes an arrival not yet signalled with it -/
  held : Bool := false
  deriving DecidableEq, Repr

/-- One stream (R32, R34, R145, R150). Register n is key n of `regs`; s0 is never listed. -/
structure Stream where
  used : Bool := false
  pc : Word := 0#64
  regs : Table Word := []
  /-- registers whose value is still to come (R90, R115), with the operation that brings it -/
  due : Table Nat := []
  fflags : BitVec 5 := 0#5
  slip : BitVec 32 := 0#32
  loops : Table Loop := []
  cmd : BitVec 32 := 0#32
  run : Run := .ended
  /-- has reached `rdv end`, whether or not it has been stopped there since (R35, R273) -/
  atEnd : Bool := false
  faults : List EFault := []
  /-- instances of each stream set at which this stream has arrived (R174) -/
  rdv : Table Nat := []
  /-- arrivals at pennants still to be signalled (R112) -/
  pbars : List PbarArrival := []
  /-- each `pbar` that has arrived and waits: its tag and its address (R176) -/
  inPbar : List (Nat × Word) := []
  /-- largest m since the last `xwait` (R244) -/
  maxM : Nat := 0
  /-- most recent engine operation, for the step record (R300, R312): 0 none, else its number plus 1 -/
  launched : Nat := 0
  /-- what the status word of that operation says in every state: FLW of a matrix word, HANDLE of a Floe operation (R262, R287) -/
  launchInfo : Word := 0#64
  deriving DecidableEq, Repr

/-- One value for each stream of a job. -/
structure Five (α : Type) where
  c : α
  a : α
  v : α
  m : α
  x : α
  deriving DecidableEq, Repr

/-- The value of one stream. -/
def Five.get {α : Type} (f : Five α) : Sid → α
  | .c => f.c | .a => f.a | .v => f.v | .m => f.m | .x => f.x

/-- One stream's value replaced. -/
def Five.set {α : Type} (f : Five α) (t : Sid) (y : α) : Five α :=
  match t with
  | .c => { f with c := y } | .a => { f with a := y } | .v => { f with v := y }
  | .m => { f with m := y } | .x => { f with x := y }

/-- A dimension of a pattern: count and signed byte stride (R224). -/
structure Dim where
  count : Nat
  stride : Int
  deriving DecidableEq, Repr

/-- A configured address pattern (R224). -/
structure Pattern where
  base : Word
  lge : Nat
  space : Space
  dims : List Dim
  cursor : Nat := 0
  deriving DecidableEq, Repr

/-- The window generator (R231, R232). -/
structure Window where
  base : Word
  space : Space
  lge : Nat
  h : Nat
  w : Nat
  c : Nat
  kh : Nat
  kw : Nat
  sh : Nat
  sw : Nat
  dh : Nat
  dw : Nat
  pt : Nat
  pb : Nat
  pl : Nat
  pr : Nat
  pitch : Nat
  pad : List Byte
  pass : Nat := 0
  cursor : Nat := 0
  deriving DecidableEq, Repr

/-- A completion action armed by `xcmpl` (R243). -/
structure Armed where
  act : Action := .none
  operand : Word := 0#64
  record : Option Handle := none
  /-- the completion word of an intake packet: VA and index (R249) -/
  word : Option (Word × Nat) := none
  deriving DecidableEq, Repr

/-- The copy commands (R235). -/
inductive CopyForm where | cpy | cp2 | cp3 | cvt | mcast | vop | rem
  deriving DecidableEq, Repr

/-- A copy command with its operands as they stood at issue (R235 to R242). -/
structure Copy where
  form : CopyForm
  src : Word
  dst : Word
  /-- length in bytes, or count of elements or words -/
  len : Nat
  ss : Space := .va
  ds : Space := .va
  /-- shape block: L0 n1 n2 ss1 ds1 ss2 ds2 (R237) -/
  shape : List Int := []
  seed : BitVec 32 := 0#32
  st : Nat := 0
  dt : Nat := 0
  rm : Rounding := .rne
  sr : Bool := false
  sat : Bool := false
  /-- flags of the elements converted so far (R127) -/
  fl : BitVec 5 := 0#5
  rows : Nat := 0
  cols : Nat := 0
  vop : VaultOp := .radd
  pkg : Nat := 0
  deriving DecidableEq, Repr

/-- What an operation that stands in a queue will do when it is performed. Addresses `pa` are physical, translated at issue (log entry 8). -/
inductive OpKind where
  -- C stream, LQ (R101)
  | load (va : Word) (pa key n : Nat) (signed : Bool) (d : Nat)
  | l1inv (lo hi : Nat)
  | l1inva
  /-- `lsmark`, standing in both queues (R101) -/
  | mark
  -- C stream, SQ
  | store (va : Word) (pa key n val : Nat)
  | atomic (op : BitVec 4) (wd : Width) (ord : Order) (va : Word) (pa key : Nat) (d : Nat) (v c : Word)
  | vaultWord (op : VaultOp) (va : Word) (pa : Nat) (d : Nat) (x y : BitVec 32)
  | own (a b : Word) (d : Nat)
  | disown (a : Word) (d : Nat)
  | spawn (d : Nat) (a b : Word)
  | sptest (d : Nat) (a : Word)
  | depdec (d : Nat) (a : Word)
  | depinc (d : Nat) (a : Word)
  | wlcfg (d : Nat) (a b : Word)
  | wlpush (d : Nat) (a b : Word)
  | wlins (d : Nat) (a b : Word)
  | wlpopb (d : Nat) (a b : Word)
  | wlcnt (d : Nat) (a : Word)
  | wldrain (d : Nat) (a : Word)
  | frnck (d : Nat) (a b : Word)
  | frnput (d : Nat) (a b : Word)
  | frninv (d : Nat) (a b : Word)
  | frnstat (d : Nat) (a b : Word)
  | frnflush (d : Nat) (a : Word)
  -- A stream, AQ (R226, R227, R234): first slot taken of each queue, elements from `start`
  | astrm (q : Handle) (slot pn : Nat) (p : Pattern) (start count : Nat)
  | astro (q : Handle) (slot pn : Nat) (p : Pattern) (start count : Nat)
  | agath (q qi : Handle) (slot islot : Nat) (pn : Nat) (p : Pattern) (start count : Nat)
  | ascat (q qi : Handle) (slot islot : Nat) (pn : Nat) (p : Pattern) (start count : Nat)
  | awin (q : Handle) (slot : Nat) (w : Window) (start count : Nat)
  -- V stream, VQ (R200): rows are accumulator rows
  | vld (row off n : Nat)
  | vst (row off n : Nat)
  | vldq (row : Nat) (q : Handle) (slot n : Nat)
  | vstq (row : Nat) (q : Handle) (slot n : Nat)
  | vgat (d a off w : Nat)
  | vsct (d a off w : Nat)
  | vperm (d a b w : Nat)
  | vpart (h : Handle) (row slot slot' lanes mask : Nat)
  | vtcfg (t off x0 : Nat) (kind hi lo : Nat) (e : Int) (n : Nat)
  | flmatch (h off p r : Nat)
  | flmerge (h src dst : Nat)
  | flunmg (h src dst : Nat)
  | flsize (row h base : Nat)
  | flsave (h off : Nat)
  | flload (h off : Nat)
  | flfree (h : Nat)
  -- M stream, MQ (R252)
  | mcfg (w : Word)
  /-- `slots`: HEAD of each queue at entry; `rows`: the rows of a gathered A, once they are read -/
  | product (form : FollowForm) (acc : Nat) (qa qb qm : Handle) (slots : List Nat) (cfg : Word) (flw : Bool) (rows : List (List Nat))
  | mclr (t : Nat) (flw : Bool)
  | mtrn (d s : Nat)
  -- X stream, XVQ and XHQ
  | copy (c : Copy) (armed : Option Armed) (follow : List (Follow × BitVec 32))
  /-- a completion record that waits for a free slot (R243) -/
  | record (h : Handle) (idx : BitVec 32) (m : Nat)
  deriving DecidableEq, Repr

/-- An operation in a queue (R101, R103). -/
structure Op where
  kind : OpKind
  sid : Sid
  cmd : BitVec 32
  /-- order of entry into the queues of the job -/
  seq : Nat
  /-- 0 issued; 1 in its calendar slot (R80, R82); 2 at its home slice (R83); for a product, steps started plus 1 (R260); for a remote store, sent (R315); for a VQ operation, a part of it done (R201) -/
  stage : Nat := 0
  /-- of a started product, its header and then the entries of the steps taken, as they were read (R256, R259); of a VQ operation performed in parts, its source rows as read (R201) -/
  read : List (List Byte) := []
  /-- units already done, where it restarts in the middle (R90, R229) -/
  done : Nat := 0
  /-- of a VQ operation performed in parts, the lanes (row, lane) that have gone (R201) -/
  gone : List (Nat × Nat) := []
  /-- handles it names (R171) -/
  names : List Handle := []
  /-- ring entry behind which it is parked, plus 1 (R90); 0 where it is not parked; 4,097 for the operation whose failure suspended the job (R229) -/
  parked : Nat := 0
  /-- ring entry, plus 1, whose completion has begun and waits for it (R102); 0 where none does -/
  filled : Nat := 0
  /-- most rotations by which a recall has delayed an access of it (R78) -/
  rotations : Nat := 0
  /-- an intake command: queue, packet index and the context it was taken for (R249) -/
  intake : Option (Nat × Nat × Nat) := none
  /-- issued at supervisor privilege (R293) -/
  sup : Bool := false
  deriving DecidableEq, Repr

/-- The queues of R103, in mask-bit order. -/
inductive Queue where | lq | sq | aq | vq | mq | xvq | xhq
  deriving DecidableEq, Repr

/-- A value on its way to a register (R81, R85): performed, not yet arrived. -/
structure Landing where
  sid : Sid
  d : Nat
  value : Word
  op : Nat
  /-- over the fabric rather than the calendar -/
  fabric : Bool
  /-- host memory, which may answer Unsupported Request (R321) -/
  host : Bool := false
  queue : MQueue := .lq
  cmd : BitVec 32 := 0#32
  va : Word := 0#64
  /-- an uncorrectable error has struck it on the mesh or the seam (R17) -/
  wrong : Bool := false
  deriving DecidableEq, Repr

/-- A table slot of the V stream (R219): entries are f32 words. -/
structure TableSlot where
  kind : Nat
  hi : OobMode
  lo : OobMode
  e : Int
  x0 : Nat
  n : Nat
  words : List Nat
  deriving DecidableEq, Repr

/-- A token-merging map (R286). -/
structure FloeMap where
  t : Nat
  p : Nat
  r : Nat
  idx : List Nat
  sig : Word
  deriving DecidableEq, Repr

/-- The state of a map handle (R284). -/
inductive FloeState where
  | free
  | live (m : FloeMap)
  | lost
  deriving DecidableEq, Repr

/-- A map handle and the context that last made it live (R284). -/
structure FloeHandle where
  state : FloeState := .free
  owner : Option Nat := none
  deriving DecidableEq, Repr

/-- Fields of a kernel header (R155). -/
structure Kernel where
  addr : Word := 0#64
  used : Nat := 0
  handles : Nat := 0
  tiletype : Nat := 0
  entries : List Nat := []
  codeLen : Nat := 0
  discards : List (Nat × Nat) := []
  descs : List (Nat × List Byte) := []
  deriving DecidableEq, Repr

/-- A Firn descriptor as graph load read it (R275). -/
structure FirnDesc where
  va : Word
  layer : Nat
  metric : Nat
  itype : Nat
  maxAge : Nat
  refresh : Nat
  thr : Nat
  count : Nat
  ibase : Word
  tstride : Nat
  rows : Nat
  hu : Nat
  hd : Nat
  rb : Nat
  pitch : Nat
  rbase : Word
  rbytes : Nat
  rstride : Nat
  sigbase : Word
  abase : Word
  aspace : Nat
  probe : Bool
  hash : Word
  deriving DecidableEq, Repr

/-- A node record (R156). Levels are kind, trip source and value. -/
structure Node where
  kernel : Kernel := {}
  depInit : Nat := 0
  prio : Nat := 0
  np : Bool := false
  budget : Nat := 0
  levels : List (Nat × Nat × Nat) := []
  gang : Nat := 0
  firn : Option FirnDesc := none
  keeps : List (Nat × Nat) := []
  backing : Word := 0#64
  deriving DecidableEq, Repr

/-- An edge record (R156). -/
structure Edge where
  prod : Nat
  cons : Nat
  cap : Nat
  deriving DecidableEq, Repr

/-- A loaded graph (R23, R318). -/
structure Graph where
  nodes : List Node
  edges : List Edge
  gen : Nat
  deriving DecidableEq, Repr

/-- Where a task stands (R29, R60). -/
inductive TaskState where
  | waiting
  | ready
  | probing
  | dispatched
  | complete
  deriving DecidableEq, Repr

/-- A task of a launch (R29, R57). -/
structure Task where
  node : Nat
  tile : Nat
  ctr : Nat := 0
  st : TaskState := .waiting
  probed : Bool := false
  /-- holds places in its output edges (R46) -/
  reserved : Bool := false
  depth : Nat := 0
  /-- pool entry of a spawned task (R58) -/
  pool : Option Nat := none
  deriving DecidableEq, Repr

/-- Tokens and reservations of an edge (R46), by task key. -/
structure EdgeQ where
  tokens : List Nat := []
  resv : List Nat := []
  deriving DecidableEq, Repr

/-- A probe in flight (R60). -/
structure Probe where
  task : Nat
  die : Nat
  /-- reads done, hit pending its reuse copy -/
  hit : Bool := false
  /-- ring entry it waits for, plus 1 (R62) -/
  parked : Nat := 0
  /-- its place in the arrival order at its entry (R280) -/
  stamp : Nat := 0
  deriving DecidableEq, Repr

/-- A launch (R23, R26). Task keys: node × 2^25 + tile id, or node × 2^25 + 2^24 + pool entry for a spawned task. -/
structure Launch where
  trips : Table (List Nat) := []
  tasks : Table Task := []
  /-- ready order of each node (R29) -/
  order : Table (List Nat) := []
  ages : Table Nat := []
  edgeq : Table EdgeQ := []
  probes : List Probe := []
  /-- calendar cycle since which the launch has made no progress (R63) -/
  quietSince : Option Nat := none
  deriving DecidableEq, Repr

/-- Arrivals at a pennant tag (R112, R175): positions are core × 8 + stream. -/
structure Pennant where
  set : BitVec 320 := 0#320
  /-- a rewrite held until the phase completes -/
  held : Option (BitVec 320) := none
  /-- phases completed -/
  phase : Nat := 0
  arrived : List Nat := []
  /-- of the positions that have arrived in the phase, those that did so with `pbara`: their streams are woken from `wfi` (R177) -/
  split : List Nat := []
  /-- phase of the latest arrival of each position -/
  last : Table Nat := []
  /-- phase of the latest arrival of each position with `pbara`, for which `pbarw` waits (R176) -/
  lastSplit : Table Nat := []
  deriving DecidableEq, Repr

/-- A bound work-list (R186). -/
structure WorkList where
  desc : Word
  buf : Word
  cap : Nat
  domain : Nat
  bitmap : Word
  entries : List Nat := []
  /-- values whose presence bit is set -/
  bits : List Nat := []
  deriving DecidableEq, Repr

/-- A Firn entry (R274); `slot` is its current arena slot (R276). -/
structure FirnEntry where
  valid : Bool := false
  stamp : Nat := 0
  bitmap : Nat := 0
  sig : Word := 0#64
  hash : Word := 0#64
  slot : Nat := 0
  deriving DecidableEq, Repr

/-- A Firn instruction of a C stream that has arrived at its entry, or at all entries where none is named, and waits there or holds it (R280): its place in the arrival order and the operation. -/
structure FirnTurn where
  layer : Option Nat
  tile : Option Nat
  stamp : Nat
  core : Nat
  slot : Nat
  seq : Nat
  deriving DecidableEq, Repr

/-- Progress of a vault snapshot (R95): image, step, blocks still to copy (column, block). -/
structure Snapshot where
  image : Nat
  step : Nat
  deriving DecidableEq, Repr

/-- The progress cursor of a suspended job (R302). -/
structure Cursor where
  cause : Byte := 0#8
  pattern : Nat := 0
  cmd : BitVec 32 := 0#32
  element : Nat := 0
  value : Word := 0#64
  pcur : Nat := 0
  wcur : Nat := 0
  wpass : Nat := 0
  deriving DecidableEq, Repr

/-- Where the C stream goes after a handler (R297). -/
structure Return where
  pc : Word := 0#64
  ended : Bool := false
  deriving DecidableEq, Repr

/-- A `qfence` or `fence` in progress (R104): queues named, and the first number of operations it does not cover. -/
structure Fence where
  mask : BitVec 7
  limit : Nat
  deriving DecidableEq, Repr

/-- A job (R21, R32, R297, R308). -/
structure Job where
  part : Nat := 0
  ctx : Nat := 0
  node : Nat := 0
  tile : Nat := 0
  /-- key of its task in the launch -/
  task : Nat := 0
  depth : Nat := 0
  limit : Nat := 8
  kernel : Word := 0#64
  codeLen : Nat := 0
  discards : List (Nat × Nat) := []
  streams : Five Stream := ⟨{}, {}, {}, {}, {}⟩
  /-- latest instance of each stream set known to be complete whatever its streams do since (R35, R273) -/
  met : Table Nat := []
  tiletype : BitVec 32 := 0#32
  vwb : BitVec 10 := 0#10
  masks : Table (BitVec 256) := []
  /-- transposable markers of m0 to m7 (R268) -/
  markers : BitVec 8 := 0#8
  tables : Table TableSlot := []
  patterns : Table Pattern := []
  window : Option Window := none
  /-- matrix configuration of the last `mcfg` that entered the MQ (R252) -/
  mcfg : Option Word := none
  uivec : Word := 0#64
  pend : BitVec 8 := 0#8
  inh : Bool := false
  uimask : BitVec 8 := 0xFF#8
  uiret : Return := {}
  shadow : Table Word := []
  trapvec : Word := 0#64
  sv : Bool := false
  ts : Sid := .c
  /-- traps not yet delivered, in order (R297) -/
  traps : List Sid := []
  epc : Word := 0#64
  ecause : Byte := 0#8
  ret : Return := {}
  bank : Table Word := []
  dbgctl : BitVec 5 := 0#5
  /-- calendar cycle at which NPBUDGET reaches 0 (R311) -/
  npUntil : Option Nat := none
  /-- cycles left in NPBUDGET of a job that is not active (R308, R311) -/
  npLeft : Option Nat := none
  /-- a suspension that waits for the job's issued operations (R229, R303): cause, failing element and value -/
  suspending : Option (Byte × Nat × Word) := none
  /-- calendar cycle since which it has stood in a deadlock with nothing written to the descriptor window (R38) -/
  deadSince : Option Nat := none
  armed : Option Armed := none
  /-- follow-on words of performed copies that wait for room in the MQ (R240), each with the command index of its `xflw` -/
  flw : List (Follow × BitVec 32) := []
  /-- number of the most recent copy command, and whether it failed (R240) -/
  lastCopy : Option (Nat × Bool) := none
  lq : List Op := []
  sq : List Op := []
  aq : List Op := []
  vq : List Op := []
  mq : List Op := []
  xvq : List Op := []
  xhq : List Op := []
  landings : List Landing := []
  /-- write acknowledgements on their way (R83) -/
  acks : Nat := 0
  /-- rendezvous completed, per stream set (R35, R174) -/
  rdvDone : Table Nat := []
  fence : Option Fence := none
  /-- number of the next operation -/
  seq : Nat := 0
  cursor : Cursor := {}
  killed : Bool := false
  deriving DecidableEq, Repr

/-- The states of a job slot (R302). -/
inductive SlotState where
  | empty | staged | active | drain | suspended | frozen | saved
  deriving DecidableEq, Repr

/-- A job slot (R30, R302). -/
structure Slot where
  st : SlotState := .empty
  job : Job := {}
  step : BitVec 5 := 0#5
  /-- a staged job that `resume` put back (R303) -/
  resumed : Bool := false
  /-- a suspended job whose scratchpad, accumulators and descriptors still stand in the core: no other job has run there (R229, R303) -/
  intact : Bool := false
  deriving DecidableEq, Repr

/-- A line of the C stream's L1 (R77, R78). -/
structure Line where
  addr : Nat
  bytes : List Byte
  dirty : Bool := false
  /-- key slot of the page it was filled through (R92) -/
  key : Nat := 0
  deriving DecidableEq, Repr

/-- A range registered by `own` (R78, R182): where it begins, its length, and those of its lines that are still owned. -/
structure OwnRange where
  /-- context and task key of the job that registered it -/
  owner : Nat × Nat
  va : Word
  len : Nat
  lines : List Nat
  deriving DecidableEq, Repr

/-- A TLB entry (R89): a leaf of R87, tagged by partition and context. -/
structure TlbEntry where
  part : Nat
  ctx : Nat
  /-- first VA of the page, and its size -/
  va : Nat
  size : Nat
  entry : Word
  deriving DecidableEq, Repr

/-- A transaction barrier (R245). -/
structure TxBarrier where
  ph : BitVec 32 := 0#32
  exp : BitVec 48 := 0#48
  arr : BitVec 48 := 0#48
  armed : Bool := false
  deriving DecidableEq, Repr

/-- The column power states (R327). -/
inductive Power where | c0 | c1 | c2 | c3
  deriving DecidableEq, Repr

/-- A core and its column (R11). -/
structure Core where
  slot0 : Slot := {}
  slot1 : Slot := {}
  active : Option Nat := none
  /-- context to which the column has switched, and whether its slice has ended (R22) -/
  ctx : Option Nat := none
  ending : Bool := false
  /-- its active job is to be pre-empted by force as soon as that may begin (R22, R306, R309, R311) -/
  forced : Bool := false
  /-- node and context whose keep regions are resident (R30) -/
  resident : Option (Nat × Nat) := none
  /-- partition and context of the last job (R32) -/
  lastCtx : Option (Nat × Nat) := none
  frozen : Bool := false
  doubleFault : Bool := false
  /-- a column of no partition stands in C3 (R15) -/
  power : Power := .c3
  /-- calendar cycles in which the clock was gated, and the cycle at which it stopped (R327, R151) -/
  gated : Nat := 0
  gatedAt : Option Nat := some 0
  /-- least recently used first (R77) -/
  l1 : List Line := []
  icache : List Nat := []
  /-- calendar cycles at which instruction prefetches still outstanding arrive (R65) -/
  prefetches : List Nat := []
  tlb : List TlbEntry := []
  /-- registered ranges (R78, R182) -/
  owned : List OwnRange := []
  /-- transaction barriers by context × 16 + number (R245) -/
  txb : Table TxBarrier := []
  floe : Table FloeHandle := []
  /-- commands taken from intake queues (R249) -/
  intake : List Op := []
  /-- queue pointers kept for a node's persistent queues, by context × 1,024 × 32 + node × 32 + handle (R37) -/
  persist : Table (Nat × Nat) := []
  /-- vault dirty bits of image 0 and 1, by block (R95) -/
  dirty0 : List Nat := []
  dirty1 : List Nat := []
  deriving DecidableEq, Repr

/-- The Step Sequencer block and the context block (R40, R317, R318), and the context's state. -/
structure Context where
  busy : Bool := false
  done : Bool := false
  err : Bool := false
  stopReq : Bool := false
  sqrec : Word := 0#64
  sqcount : BitVec 16 := 0#16
  sqstep : BitVec 16 := 0#16
  sqgraph : Word := 0#64
  sqerr : Word := 0#64
  k : Table Word := []
  capbase : Word := 0x8300000000#64
  xroot : Nat := 0
  en : Bool := false
  /-- a rollback is requested (R306, R307) -/
  rb : Bool := false
  sliceq : Nat := 0x100000
  swbudget : Nat := 0x100000
  vrange : Word := 0#64
  snaparea : Word := 0#64
  savearea : Word := 0#64
  pennants : Table Pennant := []
  gladdr : Word := 0#64
  glbusy : Bool := false
  /-- command that runs: 1 load, 2 unload -/
  glcmd : Nat := 0
  glnode : Nat := 0
  glcause : Byte := 0#8
  gen : BitVec 16 := 0#16
  graph : Option Graph := none
  launch : Option Launch := none
  lists : Table WorkList := []
  /-- Firn entries by layer × 2^24 + tile (R274) -/
  firn : Table FirnEntry := []
  /-- checkpoints of image 0 and 1 (R282) -/
  check0 : Table FirnEntry := []
  check1 : Table FirnEntry := []
  /-- Firn instructions that have arrived at their entries, and the next place in the arrival order (R280) -/
  turns : List FirnTurn := []
  arrivals : Nat := 0
  snap : Option Snapshot := none
  /-- stopped after DATA_UE (R306) -/
  stopped : Bool := false
  /-- the commit words of a vault range just declared are still to be written (R98) -/
  commitDue : Bool := false
  /-- jobs saved by forced pre-emption or suspension, by core × 2 + slot, with the Floe handles of the core (R305, R284) -/
  saved : Table (Job × Table FloeHandle) := []
  deriving DecidableEq, Repr

/-- A retry-ring entry (R301). -/
structure RingEntry where
  va : Word
  kind : Nat
  pend : Bool
  write : Bool
  sid : Nat
  slot : Nat
  ctx : Nat
  queue : Nat
  core : Nat
  node : Nat
  cmd : BitVec 32
  behind : Nat := 0
  seq : BitVec 32
  /-- posted by an intake queue's access (R249), whose fields another one of slot 0 and node 0x3FF could have as well; model's own -/
  intake : Bool := false
  /-- its completion has begun (R102): 0 not yet, 1 with status 0, 2 with status −3; model's own -/
  filling : Nat := 0
  deriving DecidableEq, Repr

/-- A partition (R16, R316). -/
structure Partition where
  pgran : BitVec 16 := 0#16
  phbm : Word := 0#64
  pways : Word := 0#64
  pkeys : Word := 0#64
  pfirnq : BitVec 20 := 0#20
  splimit : BitVec 4 := 8#4
  stallwin : BitVec 32 := 0x1000000#32
  fill : Byte := 0xFF#8
  handler : Word := 0#64
  lattol : BitVec 32 := 0#32
  cecount : BitVec 32 := 0#32
  event : BitVec 6 := 0#6
  hkey : BitVec 9 := 0#9
  iqhdr : Table Word := []
  iqcore : Table Byte := []
  iqerr : Word := 0#64
  /-- GANGMAP bytes; 0xFF where not listed -/
  gangmap : Table Byte := []
  mail : Table (BitVec 32) := []
  rtring : Word := 0#64
  ring : Table RingEntry := []
  ringLast : Nat := 4095
  ringSeq : BitVec 32 := 0#32
  /-- pending-launch pool: generations and entries taken (R58, R59) -/
  poolGen : Table (BitVec 16) := []
  poolUsed : List Nat := []
  ctxs : Table Context := []
  /-- context that holds the slice (R317) -/
  running : Option Nat := none
  /-- flits held in the ingress buffer, each with the port it came by (R310) -/
  ingress : List (Nat × Flit) := []
  /-- link ports frozen for the partition; 12 is the host port (R304, R320) -/
  portFrozen : BitVec 16 := 0#16
  /-- ring entries, with their contexts, whose bytes are still to be written after a kill (R301); model's own -/
  ringDue : List (Nat × Nat) := []
  /-- INDEX entries that wait for a free ring place: the core, the slot and the context of the suspended job (R229) -/
  ringWait : List (Nat × Nat × Nat) := []
  deriving DecidableEq, Repr

/-- The management core (R328, R333, R334). -/
structure Mgmt where
  running : Bool := false
  stopped : Bool := false
  stream : Stream := { used := true }
  mtvec : Word := 0#64
  mepc : Word := 0#64
  mcause : BitVec 9 := 0#9
  mfaddr : BitVec 32 := 0#32
  /-- TEMPn by sensor: reading and samples (R328) -/
  temps : Table (BitVec 16 × BitVec 32) := []
  throt : Table (BitVec 4) := []
  alerthi : BitVec 16 := 0x0550#16
  mevent : BitVec 4 := 0#4
  alerts : BitVec 272 := 0#272
  /-- vacate requests held (R311) -/
  vacates : List Nat := []
  deriving DecidableEq, Repr

/-- A link port (R114, R322); port 12 is the host port. -/
structure Port where
  /-- has gone down, until a cold reset -/
  down : Bool := false
  enabled : Bool := false
  /-- sequence number of the next flit that is accepted, and the latest one that the peer has acknowledged -/
  next : BitVec 16 := 0#16
  acked : BitVec 16 := 0#16
  replays : Nat := 0
  deriving DecidableEq, Repr

/-- Boot and attestation registers of a function (R332). -/
structure Attest where
  nonce : List Byte := []
  addr : Word := 0#64
  /-- nonce and address as they stood at ATTGO (R332) -/
  askNonce : List Byte := []
  askAddr : Word := 0#64
  stat : BitVec 2 := 0#2
  busy : Bool := false
  deriving DecidableEq, Repr

/-- The whole package. -/
structure State where
  /-- counter for free values; model's own -/
  tick : Nat := 0
  /-- moves that the next steps make; model's own -/
  agenda : List Move := []
  /-- who moves when the agenda is empty; model's own -/
  turn : Agent := .mgmt
  /-- calendar cycle (R80) -/
  now : Nat := 0
  powered : Bool := true
  mem : Memory := {}
  /-- shared translation cache of each die (R89) -/
  dieXlat : Table (List TlbEntry) := []
  cores : Table Core := []
  parts : Table Partition := []
  mgmt : Mgmt := {}
  vaultReady : Bool := true
  clamped : Bool := false
  bootaddr : Word := 0#64
  bootlen : BitVec 32 := 0#32
  bootgo : Bool := false
  bootstat : Byte := 0xFF#8
  /-- SHAKE256 of the image that runs, and its security version number (R325) -/
  bootHash : List Byte := []
  bootSvn : Word := 0#64
  mgmtstat : BitVec 16 := 0#16
  attests : Table Attest := []
  /-- port of each destination package (R323) -/
  routes : Table Nat := []
  locked : Bool := false
  ports : Table Port := []
  keySlots : Table (List Byte) := []
  /-- MSI-X vectors raised: function and vector (R316) -/
  msix : List (Nat × Nat) := []
  /-- completions sent to the host: function, and bytes or nothing for Completer Abort (R319, R320) -/
  hostReplies : List (Nat × Option (List Byte)) := []
  deriving DecidableEq, Repr

/-- The package right after a cold reset (R330). No column belongs to a partition, so every one stands in C3, and its vault words are uncorrectable until they are written (R15, R327). -/
def State.reset : State := { mem := { flaws := [(Config.vaultBase, Config.coreBase, spareWrong)] } }

end Sys2Proof.Machine
end

