-- ==== Sys2Proof/Machine/Mem.lean ====
section
/-! DEFINITION. Bytes of physical storage: the physical map (R68, R70), reading and writing with the end-to-end code (R91) and the key of a sector (R92). -/

namespace Sys2Proof.Machine

open Sys2Proof.Config

/-- Where a physical address lies (R68). -/
inductive Region where
  | hbm
  | record
  | vault (core off : Nat)
  | core (core off : Nat)
  | pctl (part off : Nat)
  | cap (off : Nat)
  | host
  | reserved
  deriving DecidableEq, Repr

/-- The range of R68 that holds a physical address. -/
def region (pa : Nat) : Region :=
  if pa < hbmEnd then .hbm
  else if pa < recordBase + recordSize then .record
  else if pa < vaultBase then .reserved
  else if pa < coreBase then .vault ((pa - vaultBase) / vaultStride) ((pa - vaultBase) % vaultStride)
  else if pa < coreBase + nCores * coreStride then .core ((pa - coreBase) / coreStride) ((pa - coreBase) % coreStride)
  else if pa < pctlBase then .reserved
  else if pa < pctlBase + pctlSize then .pctl ((pa - pctlBase) / 0x100000) ((pa - pctlBase) % 0x100000)
  else if pa < capBase then .reserved
  else if pa < capBase + capSize then .cap (pa - capBase)
  else if pa < hostBase then .reserved
  else if pa < physEnd then .host
  else .reserved

/-- First byte of a core's window, and of its vault (R11). -/
def coreAt (n : Nat) : Nat := coreBase + n * coreStride
def vaultAt (n : Nat) : Nat := vaultBase + n * vaultStride

/-- Address of a byte of management SRAM in `Memory`. -/
def sramAt (a : Nat) : Nat := physEnd + a

/-- What an unlisted byte reads as: the fill pattern in a scratchpad, elsewhere 0 (log entry 3). -/
def dflt (m : Memory) (a : Nat) : Byte :=
  if coreBase ≤ a ∧ a < coreBase + nCores * coreStride ∧ (a - coreBase) % coreStride < scratchSize then
    tget 0#8 m.fills ((a - coreBase) / coreStride)
  else 0#8

/-- One byte. -/
def memRead (m : Memory) (a : Nat) : Byte := tget (dflt m a) m.cells a

/-- n bytes from an address up. -/
def memReadN (m : Memory) (a : Nat) : Nat → List Byte
  | 0 => []
  | n + 1 => memRead m a :: memReadN m (a + 1) n

/-- The listed cells of a run of bytes: those that differ from the default. -/
def runCells (m : Memory) : Nat → List Byte → List Host.Cell
  | _, [] => []
  | a, b :: r => if b = dflt m a then runCells m (a + 1) r else (a, b) :: runCells m (a + 1) r

/-- The memory with a run of bytes written; nothing else changes. -/
def memWrite (m : Memory) (a : Nat) (l : List Byte) : Memory :=
  { m with cells := m.cells.filter (fun e => e.1 < a) ++ runCells m a l
      ++ m.cells.filter (fun e => a + l.length ≤ e.1) }

/-- The scratchpad of a core at its fill pattern (R32, R309). -/
def fillScratch (m : Memory) (n : Nat) (b : Byte) : Memory :=
  { m with
    cells := m.cells.filter (fun e => !(coreAt n ≤ e.1 && e.1 < coreAt n + scratchSize))
    fills := tset m.fills n b }

/-- A range of bytes back at its default. -/
def memClear (m : Memory) (a len : Nat) : Memory :=
  { m with cells := m.cells.filter (fun e => !(a ≤ e.1 && e.1 < a + len)) }

/-- The canonical form of memory: addresses rise, and no byte is listed at what it reads as unlisted. -/
abbrev Memory.wf (m : Memory) : Prop := m.cells.Pairwise (fun x y => x.1 < y.1) ∧ ∀ e ∈ m.cells, e.2 ≠ dflt m e.1

/-- The error with which the sector at an address is read: that of the range listed last (R91). -/
def wrongAt (m : Memory) (a : Nat) : Wrong := m.flaws.foldl (fun e f => if f.1 < a + 32 ∧ a < f.2.1 then f.2.2 else e) []

/-- The flaws without a range that has been written whole. -/
def clearFlaws (fl : List (Nat × Nat × Wrong)) (lo hi : Nat) : List (Nat × Nat × Wrong) :=
  fl.flatMap (fun f =>
    if hi ≤ f.1 || f.2.1 ≤ lo then [f]
    else (if f.1 < lo then [(f.1, lo, f.2.2)] else []) ++ (if hi < f.2.1 then [(hi, f.2.1, f.2.2)] else []))

/-- First bytes of the 32-byte sectors that a range touches (R4). -/
def sectorsOf (a len : Nat) : List Nat :=
  if len = 0 then [] else (List.range ((a + len - 1) / 32 - a / 32 + 1)).map (fun i => (a / 32 + i) * 32)

/-- HBM and vault storage carry the end-to-end code (R91). -/
def isCoded (pa : Nat) : Bool := pa < recordBase + recordSize || (vaultBase ≤ pa && pa < coreBase)

/-- HBM and host storage are held under keys (R92). -/
def isKeyed (pa : Nat) : Bool := pa < hbmEnd || hostBase ≤ pa

/-- Bytes with exclusive ors at some places. -/
def xorAt (l : List Byte) (e : Wrong) : List Byte := e.foldl (fun l x => l.set x.1 (l.getD x.1 0#8 ^^^ x.2)) l

/-- The error of a sector as the code sees it: one in enciphered data reaches the whole block of 16 bytes when it is deciphered, before the check (R92). -/
def wrongSeen (m : Memory) (a : Nat) (key : List Byte) : Wrong :=
  let e := wrongAt m a
  if key.isEmpty || e.all (fun x => 32 ≤ x.1) then e
  else
    let p := memReadN m a 32
    let x := decipher key a (xorAt (encipher key a p) e)
    (List.zipWith (· ^^^ ·) p x).zipIdx.filterMap (fun y => if y.1 = 0#8 then none else some (y.2, y.1)) ++ e.filter (fun x => 32 ≤ x.1)

/-- The key bytes under which a sector stands; none where it is not enciphered (R92). -/
def keyAt (m : Memory) (a : Nat) : List Byte := tget [] m.keyOf (a / 32)

/-- A read of the coded sector at an address under a key: nothing where it is uncorrectable, one written under another key among them (R91, R92); else how many corrections were made, 0 or 1, and what is still wrong with its data. -/
def readSector (m : Memory) (a : Nat) (key : List Byte) : Option (Nat × Wrong) :=
  if keyAt m a ≠ key then none
  else
    let e := wrongSeen m a key
    (rsDecode e).map (fun c => (if c.isEmpty then 0 else 1, (e ++ c).filter (fun x => x.1 < 32)))

/-- What a coded read finds: uncorrectable, or the number of sectors corrected and what is still wrong, by address (R91, R92). -/
def checkSectors (m : Memory) (a len : Nat) (key : List Byte) : Option (Nat × Wrong) :=
  (sectorsOf a len).foldl (fun r s =>
    match r with
    | none => none
    | some (k, e) => (readSector m s key).map (fun x => (k + x.1, e ++ x.2.map (fun y => (s + y.1, y.2))))) (some (0, []))

/-- A sector of host memory as it reads under a key: it has no code that would refuse another one (R91, R92). -/
def hostSector (m : Memory) (a : Nat) (key : List Byte) : List Byte :=
  let p := memReadN m a 32
  if keyAt m a = key then p else decipher key a (encipher (keyAt m a) a p)

/-- Bytes at addresses from a on, with what is still wrong of them. -/
def xorFrom (a : Nat) (l : List Byte) (e : Wrong) : List Byte :=
  if e.isEmpty then l else xorAt l (e.filterMap (fun x => if a ≤ x.1 ∧ x.1 < a + l.length then some (x.1 - a, x.2) else none))

/-- Host memory is held in sectors that have no code (R91). -/
def isHost (pa : Nat) : Bool := hostBase ≤ pa && pa < physEnd

/-- A read of coded or plain storage under a key: nothing where it is uncorrectable (R93), else the bytes and the corrections made (R91). -/
def storeRead (m : Memory) (a len : Nat) (key : List Byte) : Option (List Byte × Nat) :=
  if isCoded a then (checkSectors m a len key).map (fun x => (xorFrom a (memReadN m a len) x.2, x.1))
  else if isHost a then
    some ((((sectorsOf a len).flatMap (fun s => hostSector m s key)).drop (a % 32)).take len, 0)
  else some (memReadN m a len, 0)

/-- A sector that a write covers in part, as the rest of it is written again: corrected, and under the key of the write (R91 to R93). -/
def mergeSector (m : Memory) (a : Nat) (key : List Byte) : Option (Memory × Nat) :=
  if isCoded a then (readSector m a key).map (fun x => (if x.2.isEmpty then m else memWrite m a (xorAt (memReadN m a 32) x.2), x.1))
  else if isHost a && keyAt m a != key then some (memWrite m a (hostSector m a key), 0)
  else some (m, 0)

/-- The sectors that a write covers in part are merged: nothing where one is uncorrectable (R93), else the corrections made. -/
def mergeAll (key : List Byte) : List Nat → Memory → Option (Memory × Nat)
  | [], m => some (m, 0)
  | a :: r, m =>
    match mergeSector m a key with
    | none => none
    | some (m, k) => (mergeAll key r m).map (fun x => (x.1, k + x.2))

/-- The sectors of a range stand under a key. -/
def tagSectors (t : Table (List Byte)) (key : List Byte) (l : List Nat) : Table (List Byte) :=
  l.foldl (fun t s => if key.isEmpty then tdel t (s / 32) else tset t (s / 32) key) t

/-- The sectors of a range that a write covers in part. -/
def partSectors (a len : Nat) : List Nat := (sectorsOf a len).filter (fun s => s < a || a + len < s + 32)

/-- A write to storage under a key, and the corrections its merges made: nothing where a merge is uncorrectable (R93). -/
def storeWrite (m : Memory) (a : Nat) (key : List Byte) (l : List Byte) : Option (Memory × Nat) :=
  let len := l.length
  match mergeAll key (partSectors a len) m with
  | none => none
  | some (m, k) =>
    let m := if isKeyed a then { m with keyOf := tagSectors m.keyOf key (sectorsOf a len) } else m
    let m := if m.flaws = [] || len = 0 then m else { m with flaws := clearFlaws m.flaws (a / 32 * 32) ((a + len + 31) / 32 * 32) }
    some (memWrite m a l, k)

/-- The corrections that reads of sectors make, though another one is uncorrectable (R91). -/
def fixesOf (m : Memory) (key : List Byte) (l : List Nat) : Nat :=
  l.foldl (fun k a => k + (if isCoded a then (match readSector m a key with | some x => x.1 | none => 0) else 0)) 0

/-- The key bytes of a slot, which 0 has none of (R87, R92, R326). -/
def keyBytes (s : State) (k : Nat) : List Byte := if k = 0 then [] else tget (zeros 64) s.keySlots k

end Sys2Proof.Machine
end

