-- ==== Sys2Proof/Machine/Ops.lean ====
section
/-! DEFINITION. Shared operations over the state: cores, slots, jobs and streams; registers (R145); traps, their delivery and the return (R294 to R299, R304, R334); the checks of issue (R141) and what retiring an instruction does (R167, R168, R296, R312). -/

namespace Sys2Proof.Machine

open Sys2Proof.Config

/-! Cause codes (R294). -/
def cIllegal : Byte := 0x01#8
def cPriv : Byte := 0x02#8
def cAlign : Byte := 0x03#8
def cXlatPerm : Byte := 0x04#8
def cXlatMiss : Byte := 0x05#8
def cQueue : Byte := 0x06#8
def cTileType : Byte := 0x07#8
def cMdMagic : Byte := 0x08#8
def cMdShape : Byte := 0x09#8
def cMdOrder : Byte := 0x0A#8
def cMdCrc : Byte := 0x0B#8
def cMdType : Byte := 0x0C#8
def cIndex : Byte := 0x0D#8
def cMapLost : Byte := 0x0E#8
def cMapInvalid : Byte := 0x0F#8
def cFirnDesc : Byte := 0x10#8
def cFirnNores : Byte := 0x11#8
def cEncMismatch : Byte := 0x12#8
def cVaultUnrepaired : Byte := 0x13#8
def cDataUe : Byte := 0x14#8
def cFetch : Byte := 0x15#8
def cBreak : Byte := 0x16#8
def cStep : Byte := 0x17#8
def cWatchdog : Byte := 0x18#8
def cTrap : Byte := 0x19#8
def cLoop : Byte := 0x1A#8

/-! Cores, slots, jobs, partitions and contexts. -/

def coreOf (s : State) (n : Nat) : Core := tget {} s.cores n
def setCore (s : State) (n : Nat) (c : Core) : State := { s with cores := tset s.cores n c }
def modCore (s : State) (n : Nat) (f : Core → Core) : State := setCore s n (f (coreOf s n))

def slotOf (c : Core) (j : Nat) : Slot := if j = 0 then c.slot0 else c.slot1
def setSlot (c : Core) (j : Nat) (sl : Slot) : Core := if j = 0 then { c with slot0 := sl } else { c with slot1 := sl }
def modSlot (s : State) (n j : Nat) (f : Slot → Slot) : State :=
  modCore s n (fun c => setSlot c j (f (slotOf c j)))

/-- A slot that its job has left: it keeps its STEP mask (R302). -/
def emptySlot (sl : Slot) : Slot := { step := sl.step }

def jobOf (s : State) (n j : Nat) : Job := (slotOf (coreOf s n) j).job
def modJob (s : State) (n j : Nat) (f : Job → Job) : State := modSlot s n j (fun sl => { sl with job := f sl.job })

def partOf (s : State) (p : Nat) : Partition := tget {} s.parts p
def modPart (s : State) (p : Nat) (f : Partition → Partition) : State :=
  { s with parts := tset s.parts p (f (partOf s p)) }

def ctxOf (s : State) (p c : Nat) : Context := tget {} (partOf s p).ctxs c
def modCtx (s : State) (p c : Nat) (f : Context → Context) : State :=
  modPart s p (fun q => { q with ctxs := tset q.ctxs c (f (tget {} q.ctxs c)) })

/-- The partition that owns a core's granule (R15). DESIGN CHOICE: where two masks name a granule, which the spec says never happens, the lowest-numbered partition owns it (log entry 32). -/
def partOfCore (s : State) (n : Nat) : Option Nat :=
  (List.range nParts).find? (fun p => (partOf s p).pgran.getLsbD (n / 16))

/-- The cores of a partition, ascending (R15). -/
def coresOf (s : State) (p : Nat) : List Nat :=
  (List.range nCores).filter (fun n => (partOf s p).pgran.getLsbD (n / 16))

/-- The job of an agent; the management core has none (R333). -/
def agentJob (s : State) : Agent → Job
  | .stream n j _ => jobOf s n j
  | .mgmt => {}

def streamOf (s : State) : Agent → Stream
  | .stream n j t => (jobOf s n j).streams.get t
  | .mgmt => s.mgmt.stream

def modStream (s : State) (a : Agent) (f : Stream → Stream) : State :=
  match a with
  | .stream n j t => modJob s n j (fun b => { b with streams := b.streams.set t (f (b.streams.get t)) })
  | .mgmt => { s with mgmt := { s.mgmt with stream := f s.mgmt.stream } }

def modAgentJob (s : State) (a : Agent) (f : Job → Job) : State :=
  match a with
  | .stream n j _ => modJob s n j f
  | .mgmt => s

/-- The stream id of an agent; the management core runs as a C stream (R328). -/
def sidOfAgent : Agent → Sid
  | .stream _ _ t => t
  | .mgmt => .c

def coreOfAgent : Agent → Nat
  | .stream n _ _ => n
  | .mgmt => 0

def slotOfAgent : Agent → Nat
  | .stream _ j _ => j
  | .mgmt => 0

/-- Whether an agent runs at supervisor privilege (R293). -/
def supervisor (s : State) : Agent → Bool
  | .stream n j .c => (jobOf s n j).sv
  | _ => false

/-! Registers (R145). A register has a place: 0 to 63 ordinary, 64 to 69 the supervisor bank, 128 to 135 the shadow bank. -/

/-- The register that a name selects: the shadow bank under a user-interrupt handler, the supervisor bank under a supervisor handler (R145, R297). -/
def regPlace (s : State) (a : Agent) (r : Reg) : Nat :=
  match a with
  | .stream n j .c =>
    let b := jobOf s n j
    if b.sv ∧ 56 ≤ r.toNat ∧ r.toNat ≤ 61 then 64 + (r.toNat - 56)
    else if b.inh ∧ 48 ≤ r.toNat ∧ r.toNat ≤ 55 then 128 + (r.toNat - 48)
    else r.toNat
  | _ => r.toNat

def readPlace (s : State) (a : Agent) (i : Nat) : Word :=
  if i = 0 then 0#64
  else if i < 64 then tget 0#64 (streamOf s a).regs i
  else if i < 128 then tget 0#64 (agentJob s a).bank (i - 64)
  else tget 0#64 (agentJob s a).shadow (i - 128)

/-- A register written; a value still on its way to it is overtaken. Register 0 discards the write. -/
def writePlace (s : State) (a : Agent) (i : Nat) (v : Word) : State :=
  if i = 0 then s
  else
    let s := modStream s a (fun st => { st with due := tdel st.due i, regs := if i < 64 then tset st.regs i v else st.regs })
    if i < 64 then s
    else if i < 128 then modAgentJob s a (fun b => { b with bank := tset b.bank (i - 64) v })
    else modAgentJob s a (fun b => { b with shadow := tset b.shadow (i - 128) v })

/-- s[r] of an agent (R145). -/
def reg (s : State) (a : Agent) (r : Reg) : Word := readPlace s a (regPlace s a r)

/-- s[r] := v (R145). -/
def setReg (s : State) (a : Agent) (r : Reg) (v : Word) : State := writePlace s a (regPlace s a r) v

/-- The value of a register is still to come (R90, R115). -/
def isDue (s : State) (a : Agent) (r : Reg) : Bool :=
  r != 0#6 && (tfind (streamOf s a).due (regPlace s a r)).isSome

/-- A register no longer awaits operation `op`, whose value never comes. -/
def dropDue (s : State) (a : Agent) (op : Nat) : State :=
  modStream s a (fun st => { st with due := st.due.filter (fun e => e.2 != op) })

/-- The register awaits the value of operation `op`. -/
def setDue (s : State) (a : Agent) (i op : Nat) : State :=
  if i = 0 then s else modStream s a (fun st => { st with due := tset st.due i op })

/-- The awaited value arrives: it is written where the register still awaits this operation. -/
def arrive (s : State) (a : Agent) (i op : Nat) (v : Word) : State :=
  if tfind (streamOf s a).due i = some op then writePlace s a i v else s

/-- FFLAGS gains the flags of an operation (R122, R126). -/
def setFlags (s : State) (a : Agent) (f : BitVec 5) : State :=
  modStream s a (fun st => { st with fflags := st.fflags ||| f })

/-! Events of a partition, and MSI-X (R316). -/

/-- EVENT bit b becomes set and raises its vector, unless it is set already (R316). -/
def partEvent (s : State) (p b : Nat) : State :=
  if (partOf s p).event.getLsbD b then s
  else
    let s := modPart s p (fun q => { q with event := q.event ||| BitVec.ofNat 6 (2 ^ b) })
    { s with msix := s.msix ++ [(p + 1, b)] }

/-- Progress of a launch is noted for the stall window (R63). -/
def progress (s : State) (p c : Nat) : State :=
  modCtx s p c (fun x => { x with launch := x.launch.map (fun la => { la with quietSince := none }) })

/-- stop_err(cause, node) (R42). -/
def stopErr (s : State) (p c : Nat) (cause : Byte) (node : Nat) : State :=
  partEvent (modCtx s p c (fun x => { x with
    busy := false, err := true, stopReq := false, sqerr := BitVec.ofNat 64 (node % 1024 * 2 ^ 32 + cause.toNat) })) p 2

/-- The active job of a core belongs to a context of a partition. -/
def runsCtx (s : State) (n p c : Nat) : Bool :=
  match (coreOf s n).active with
  | some j => (jobOf s n j).part == p && (jobOf s n j).ctx == c
  | none => false

/-- Uncorrectable data stops a context (R306): its loop stops with stop_err(cause, node), it dispatches nothing more, and every active job of it but the consumer's is to be pre-empted by force. -/
def stopContext (s : State) (p c : Nat) (cause : Byte) (node : Nat) (me : Option Nat) : State :=
  if (ctxOf s p c).stopped then s
  else
    let s := partEvent (modCtx (stopErr s p c cause node) p c (fun x => { x with stopped := true })) p 1
    (coresOf s p).foldl (fun s n => if some n != me && runsCtx s n p c then modCore s n (fun k => { k with forced := true }) else s) s

/-! Hardware loops (R166 to R168). -/

def loopOf (st : Stream) (l : Nat) : Loop := tget {} st.loops l

/-- Levels that are active and not suspended by a handler (R168). -/
def liveLoops (st : Stream) : List (Nat × Loop) := st.loops.filter (fun e => e.2.act && e.2.held == 0)

/-- The most recently activated of some levels. -/
def newestLoop : List (Nat × Loop) → Option (Nat × Loop)
  | [] => none
  | e :: r =>
    match newestLoop r with
    | none => some e
    | some f => if f.2.age < e.2.age then some e else some f

/-- End tests at a PC reached in sequence (R167): at most one test for each level. -/
def endTest (st : Stream) : Nat → Stream
  | 0 => st
  | fuel + 1 =>
    match newestLoop ((liveLoops st).filter (fun e => e.2.stop == st.pc)) with
    | none => st
    | some (l, p) =>
      if p.cnt ≠ 0#32 then
        { st with pc := p.start, loops := tset st.loops l { p with cnt := p.cnt - 1#32 } }
      else endTest { st with loops := tset st.loops l { p with act := false } } fuel

/-- The PC reaches an address in sequence, with the end tests of R167. -/
def seqTo (st : Stream) (pc : Word) : Stream := endTest { st with pc := pc } 4

/-- A level holds an address in its body: [START, END) (R168). -/
def inBody (p : Loop) (t : Word) : Bool := p.start.toNat ≤ t.toNat && t.toNat < p.stop.toNat

/-- A jump cancels each live level whose body its target leaves, and every level activated after that one (R168). -/
def jumpTo (st : Stream) (t : Word) : Stream :=
  let out := (liveLoops st).filter (fun e => !inBody e.2 t)
  { st with
    pc := t
    loops := st.loops.map (fun e =>
      if e.2.act && e.2.held == 0 && out.any (fun o => o.2.age ≤ e.2.age) then (e.1, { e.2 with act := false }) else e) }

/-- Handler entry suspends the active levels; return resumes them (R168). -/
def holdLoops (st : Stream) : Stream :=
  { st with loops := st.loops.map (fun e => if e.2.act then (e.1, { e.2 with held := e.2.held + 1 }) else e) }
def releaseLoops (st : Stream) : Stream :=
  { st with loops := st.loops.map (fun e => if 0 < e.2.held then (e.1, { e.2 with held := e.2.held - 1 }) else e) }

/-! Rendezvous (R35, R174, R273). -/

/-- A stream of a job has arrived at instance k of a stream set, or has ended (R35, R174). -/
def rdvArrived (b : Job) (set : BitVec 5) (k : Nat) (t : Sid) : Bool :=
  let st := b.streams.get t
  st.run == .ended || st.atEnd || k ≤ tget 0 st.rdv set.toNat

/-- Every stream that a set names has arrived at instance k, or had at a time that is noted. -/
def rdvMet (b : Job) (set : BitVec 5) (k : Nat) : Bool :=
  k ≤ tget 0 b.met set.toNat || allSids.all (fun t => !set.getLsbD (sidNum t) || rdvArrived b set k t)

/-- The rendezvous of a job that are complete stay so, though a stream that counts as arrived at its `rdv end` is about to be moved off it (R35, R273). -/
def noteMet (b : Job) : Job :=
  { b with met := allSids.foldl (fun m t =>
      match (b.streams.get t).run with
      | .atRdv set k => if rdvMet b set k then tset m set.toNat (max k (tget 0 m set.toNat)) else m
      | _ => m) b.met }

/-- A stream that leaves its wait at a rendezvous: past it where every named stream had arrived, else with its arrival withdrawn (R273). -/
def leaveRdv (b : Job) (t : Sid) : Job :=
  let st := b.streams.get t
  match st.run with
  | .atRdv set k =>
    if rdvMet b set k then
      { b with streams := b.streams.set t { seqTo { st with run := .running } (st.pc + 4#64) with cmd := st.cmd + 1#32 } }
    else
      { b with streams := b.streams.set t { st with run := .running, rdv := tset st.rdv set.toNat (k - 1) } }
  | _ => b

/-- A `pbar` whose wait is abandoned before its arrival was signalled has not arrived (R176). -/
def leavePbar (st : Stream) : Stream :=
  let gone := (st.pbars.filter (·.held)).map (·.tag)
  { st with
    pbars := st.pbars.filter (fun e => !e.held)
    inPbar := st.inPbar.filter (fun e => !gone.contains e.1) }

/-- A stream leaves the instruction it waits in, unretired (R273, R295, R297, R247). A fence it waited in holds nothing further (R104). -/
def leaveWait (b : Job) (t : Sid) : Job :=
  let b := leaveRdv b t
  let b := if t = .c then { b with fence := none } else b
  { b with streams := b.streams.set t (leavePbar (b.streams.get t)) }

/-! Traps (R294 to R299). -/

/-- A cause raised by an instruction or by an operation. -/
structure Trap where
  cause : Byte
  status : Word := 0#64
  faddr : Word := 0#64
  /-- restart point, where it is not the faulting instruction (R294): the instruction has been issued for good and is counted (R296) -/
  next : Option Word := none
  /-- a violation, which freezes the core (R304) -/
  freeze : Bool := false
  /-- a violation that has frozen the core before its stream raises it (R304) -/
  frozen : Bool := false
  deriving DecidableEq, Repr

/-- The PC of an agent's stream where a cause leaves it: the instruction, or the one after it, reached in sequence with the end tests of R167, where that is the restart point. -/
def Trap.stopAt (tr : Trap) (st : Stream) : Stream :=
  match tr.next with
  | some x => seqTo st x
  | none => st

/-- The state byte of a STOPS entry, and its queue (R299). -/
def stopCode (st : Stream) (me : Bool) : Nat × Nat :=
  if me then (2, 0)
  else match st.run with
    | .onQueue h _ _ => (1, h.toNat)
    | .stopped => (2, 0)
    | .ended => (3, 0)
    | _ => (0, 0)

/-- One STOPS entry (R299). -/
def stopEntry (b : Job) (t me : Sid) : List Byte :=
  let st := b.streams.get t
  let (c, q) := stopCode st (t == me)
  let rel := if st.used then (st.pc - b.kernel).toNat % 2 ^ 32 else 0xFFFFFFFF
  leBytes 4 rel ++ [BitVec.ofNat 8 c, BitVec.ofNat 8 q]

/-- The trap record of stream t (R299); `name` is the stream its byte 1 names. -/
def trapRecord (b : Job) (t name : Sid) (tr : Trap) (flags : Nat) (cmd : BitVec 32) : List Byte :=
  [tr.cause, BitVec.ofNat 8 (sidNum name), BitVec.ofNat 8 flags, 0#8] ++ leBytes 4 cmd.toNat
    ++ leBytes 8 (b.streams.get t).pc.toNat ++ leBytes 8 tr.status.toNat ++ leBytes 8 tr.faddr.toNat
    ++ allSids.flatMap (fun u => stopEntry b u t) ++ [0#8, 0#8]

/-- Physical address of the record of stream t in slot j of core n (R299). -/
def recordAt (n j : Nat) (t : Sid) : Nat := coreAt n + recOffset + j * 0x800 + sidNum t * 64

/-- The core freezes: its slot shows frozen, and the partition's event is raised; one frozen under DOUBLE stays so until it is killed (R304). -/
def freezeCore (s : State) (n j : Nat) (double : Bool) : State :=
  let s := modCore s n (fun c => { c with frozen := true, doubleFault := c.doubleFault || double })
  let s := modSlot s n j (fun sl => { sl with st := .frozen })
  match partOfCore s n with
  | some p => partEvent s p 0
  | none => s

/-- Delivery of the oldest pending trap to the C stream (R297): EPC, ECAUSE, STATUS and the return point are written, loops are suspended, and the C stream enters the handler at TRAPVEC. Without effect while SV is 1, on a frozen core, or with nothing pending. -/
def deliverTrap (s : State) (n j : Nat) : State :=
  let b := jobOf s n j
  match b.traps with
  | [] => s
  | t :: rest =>
    if b.sv || (coreOf s n).frozen then s
    else
      let b := if t = .c then b else leaveWait b .c
      let c := b.streams.c
      let c' := holdLoops { c with pc := b.trapvec, run := .running }
      let sl := slotOf (coreOf s n) j
      modSlot s n j (fun _ => { sl with
        st := if sl.st = .drain then .active else sl.st
        job := { b with
          traps := rest, sv := true, ts := t
          epc := (b.streams.get t).pc &&& 0x00FFFFFFFFFFFFFC#64
          ecause := memRead s.mem (recordAt n j t)
          ret := { pc := c.pc, ended := c.run == .ended }
          streams := { b.streams with c := c' } } })

/-- A stream stops with a cause (R295, R299): its record is written in that cycle and the trap becomes pending. `late` marks a fault of an earlier operation; a violation, and a cause in a supervisor handler, freeze the core (R298, R304). -/
def stopStill (s : State) (n j : Nat) (t : Sid) (tr : Trap) (late : Bool) (cmd : BitVec 32) (name : Sid) : State :=
  let s := modJob s n j (fun b => leaveWait b t)
  let b := jobOf s n j
  let double := t == .c && b.sv
  let freeze := double || tr.freeze
  let sysc := tr.cause == cTrap && tr.status.getLsbD 63
  let flags := (if late then 1 else 0) + (if sysc then 2 else 0) + (if double then 4 else 0) + (if freeze || tr.frozen then 8 else 0)
  let s := { s with mem := memWrite s.mem (recordAt n j t) (trapRecord b t name tr flags cmd) }
  let s := modStream s (.stream n j t) (fun st => { tr.stopAt st with
    run := .stopped, cmd := if tr.next.isSome && !double then st.cmd + 1#32 else st.cmd })
  let s := modJob s n j (fun b => { b with traps := b.traps ++ [t] })
  let s := if tr.cause == cDataUe then stopContext s b.part b.ctx cDataUe b.node (some n) else s
  if freeze then freezeCore s n j double else s

/-- A stream stops with a cause; a trap of the C stream is delivered at once, where one can be (R295, R297). -/
def stopStream (s : State) (n j : Nat) (t : Sid) (tr : Trap) (late : Bool) (cmd : BitVec 32) (name : Sid) : State :=
  let u := stopStill s n j t tr late cmd name
  if t = .c then deliverTrap u n j else u

/-- The management core takes a cause (R334): its handler, or a stop that MGMTSTAT shows. -/
def mgmtTrap (s : State) (tr : Trap) : State :=
  let m := s.mgmt
  let st := tr.stopAt m.stream
  if m.mcause.getLsbD 8 || m.mtvec = 0#64 then
    { s with mgmt := { m with stopped := true }, mgmtstat := (tr.cause ++ 1#8) }
  else
    { s with mgmt := { m with
        mepc := st.pc &&& 0x3FFFC#64
        mcause := 1#1 ++ tr.cause
        mfaddr := tr.faddr.setWidth 32
        stream := { st with pc := m.mtvec, run := .running } } }

/-- TAKING AN EXCEPTION: an agent raises a cause at the instruction it stands at (R295, R297, R334). The instruction has no other effect. -/
def takeTrap (s : State) (a : Agent) (tr : Trap) : State :=
  match a with
  | .mgmt => mgmtTrap s tr
  | .stream n j t => stopStream s n j t tr false (streamOf s a).cmd t

/-- The handled stream restarts at EPC (R298); a stream that its kernel does not use stands at its implicit `rdv end` again (R32). One in use that EPC moves away from its stopping point `was` has not reached `rdv end`. -/
def restartAt (st : Stream) (was epc : Word) : Stream :=
  { st with pc := epc, run := if st.used then .running else .ended, atEnd := st.atEnd && (!st.used || epc == was) }

/-- THE RETURN FROM THE SUPERVISOR HANDLER (R298): SV clears, loops resume, the C stream goes on at its return point, or at EPC when TS names it; the handled stream restarts at EPC. -/
def returnTrap (s : State) (n j : Nat) : State :=
  let b := jobOf s n j
  let c := releaseLoops b.streams.c
  let c' := if b.ts = .c then restartAt c b.ret.pc b.epc
    else { c with pc := b.ret.pc, run := if b.ret.ended then .ended else .running }
  let fs := b.streams.set .c c'
  let fs := if b.ts = .c then fs else
    fs.set b.ts (restartAt (fs.get b.ts) (fs.get b.ts).pc b.epc)
  modJob s n j (fun b => { noteMet b with sv := false, streams := fs })

/-- eret on the management core (R334). -/
def returnMgmt (s : State) : State :=
  { s with mgmt := { s.mgmt with
      mcause := 0#1 ++ (s.mgmt.mcause.extractLsb' 0 8)
      stream := { s.mgmt.stream with pc := s.mgmt.mepc, run := .running } } }

/-- A fault of an operation becomes pending for its stream, in ascending command index (R295, R296). -/
def insertFault (l : List EFault) (f : EFault) : List EFault :=
  match l with
  | [] => [f]
  | g :: r => if f.cmd.toNat < g.cmd.toNat then f :: g :: r else g :: insertFault r f

/-- A stream is stopped by its own trap: by its run, or, for the C stream, until the `eret` of the handler of its trap, which may be delivered after that of another stream (R296). -/
def heldByTrap (b : Job) (t : Sid) : Bool := (b.streams.get t).run == .stopped || (t == .c && (b.traps.contains .c || (b.sv && b.ts == .c)))

/-- A fault of an operation becomes pending for its stream. A violation freezes the core when the stream raises it (R304), and at once where the stream raises nothing meanwhile: it is stopped by a trap of its own, or its job is being suspended (log entry 75); its record then shows FROZEN when it is raised. -/
def engineFault (s : State) (n j : Nat) (t : Sid) (f : EFault) : State :=
  let put (f : EFault) : State := modStream s (.stream n j t) (fun st => { st with faults := insertFault st.faults f })
  let b := jobOf s n j
  if b.killed then s
  else if f.freeze && (heldByTrap b t || b.suspending.isSome) && (coreOf s n).active == some j then freezeCore (put { f with freeze := false, frozen := true }) n j false
  else put f

/-- The stream raises its first pending fault at its boundary (R296); it leaves the instruction it waits in. -/
def raisePending (s : State) (n j : Nat) (t : Sid) : State :=
  match (streamOf s (.stream n j t)).faults with
  | [] => s
  | f :: rest =>
    let s := modStream s (.stream n j t) (fun st => { st with faults := rest })
    stopStream s n j t { cause := f.cause, status := f.status, faddr := f.faddr, freeze := f.freeze, frozen := f.frozen } true f.cmd t

/-! Issue and retirement. -/

/-- How control goes on after an instruction. -/
inductive Flow where
  /-- to the next instruction, with end tests -/
  | seq
  /-- a taken branch or jump (R164, R165) -/
  | jump (t : Word)
  /-- the zero-count skip of a loop instruction, with end tests (R166) -/
  | skip (t : Word)
  /-- a return to an address, with no end test and nothing cancelled (R191) -/
  | ret (t : Word)
  /-- the effect has set the PC itself; nothing is counted -/
  | stay
  deriving DecidableEq, Repr

/-- What an instruction's body answers: its effect, a wait, or a cause. -/
inductive Res where
  | ok (s : State) (f : Flow)
  | wait (s : State) (r : Run)
  | trap (t : Trap)
  /-- a cause, found after a translation walk that left its results in the caches (R89) -/
  | trapIn (s : State) (t : Trap)

/-- A cause with nothing else to report. -/
def raise (c : Byte) : Res := .trap { cause := c }

/-- A cause with the address of the access (R299). -/
def raiseAt (c : Byte) (va : Word) : Res := .trap { cause := c, faddr := va }

abbrev Result := Host.Outcome State Fault Refusal

/-- What an instruction needs before its own checks: streams that may issue it, supervisor privilege, whether the management core has it, and the registers it reads. -/
structure Need where
  streams : List Sid := allSids
  sup : Bool := false
  mgmt : Bool := true
  reads : List Reg := []

/-- A column throttled to t does not issue in the last t cycles of each 16 (R13, R329). -/
def throttled (s : State) (n : Nat) : Bool :=
  let t := (tget 0#4 s.mgmt.throt n).toNat
  t != 0 && 16 ≤ s.now % 16 + t

/-- The agent has instructions to issue: its core is not frozen, its job is active, and it is neither stopped nor at `rdv end`. -/
def mayMove (s : State) (a : Agent) : Bool :=
  match a with
  | .stream n j t =>
    let c := coreOf s n
    let r := (streamOf s (.stream n j t)).run
    !c.frozen && c.active == some j && (slotOf c j).st == .active && (slotOf c j).job.suspending.isNone && r != .stopped && r != .ended
  | .mgmt => s.mgmt.running && !s.mgmt.stopped

/-- The agent may issue in this cycle: its column is not throttled in it. -/
def canIssue (s : State) (a : Agent) : Bool :=
  mayMove s a && match a with | .stream n _ _ => !throttled s n | .mgmt => true

/-- The first word of a two-word instruction ends the body of an active loop (R138). -/
def cutByLoop (st : Stream) (words : Nat) : Bool :=
  words == 2 && st.loops.any (fun e => e.2.act && e.2.stop == st.pc + 4#64)

/-- Checks 4 and 6 of R141, and R138 for two words; on the management core R333 instead of privilege. -/
def issueCheck (s : State) (a : Agent) (words : Nat) (nd : Need) : Option Byte :=
  match a with
  | .mgmt => if nd.mgmt && nd.streams.contains .c then (if cutByLoop s.mgmt.stream words then some cIllegal else none) else some cIllegal
  | .stream n j t =>
    if !nd.streams.contains t then some cIllegal
    else if cutByLoop (streamOf s (.stream n j t)) words then some cIllegal
    else if nd.sup && !supervisor s (.stream n j t) then some cPriv
    else none

/-- The stream waits at its instruction. -/
def waitAt (s : State) (a : Agent) (r : Run) : State := modStream s a (fun st => { st with run := r })

/-- A stream is stepped (R312). -/
def isStepped (s : State) (n j : Nat) (t : Sid) : Bool := (jobOf s n j).dbgctl.getLsbD (sidNum t) && !supervisor s (.stream n j t)

/-- The cause of a step with the status of the engine operation that the instruction launched (R300, R312): operations of the LQ and SQ are no engine operations. -/
def stepCause (s : State) (n j : Nat) (t : Sid) : Trap :=
  let b := jobOf s n j
  let st := streamOf s (.stream n j t)
  let status : Word := if st.launched = 0 || t == .c then 0#64 else
    if (b.aq ++ b.vq ++ b.mq ++ b.xvq ++ b.xhq).any (fun o => o.seq + 1 == st.launched)
    then st.launchInfo else if st.launchInfo.getLsbD 63 then st.launchInfo else st.launchInfo ||| 0x4000000000000000#64
  { cause := cStep, status := status }

/-- The single-step trap of R312, at the instruction after the one that retired. -/
def stepTrap (s : State) (a : Agent) : State :=
  match a with
  | .mgmt => s
  | .stream n j t =>
    if isStepped s n j t then
      let st := streamOf s (.stream n j t)
      if !st.faults.isEmpty then raisePending s n j t else stopStream s n j t (stepCause s n j t) false (st.cmd - 1#32) t
    else s

/-- A stream that waits at a rendezvous at which every named stream has arrived is past it: its `rdv` retires, and a stepped stream stops behind it (R273, R312). -/
def finishRdv (s : State) (n j : Nat) (t : Sid) : State :=
  match (streamOf s (.stream n j t)).run with
  | .atRdv set k => if rdvMet (jobOf s n j) set k then stepTrap (modJob s n j (fun b => leaveRdv b t)) (.stream n j t) else s
  | _ => s

/-- The same as the job is stopped for a save (R308): what a stepped stream stops with, and what it has still to raise, stay pending, to be delivered once the job is back. -/
def finishStill (s : State) (n j : Nat) (t : Sid) : State :=
  match (streamOf s (.stream n j t)).run with
  | .atRdv set k =>
    if rdvMet (jobOf s n j) set k then
      let s := modJob s n j (fun b => leaveRdv b t)
      let st := streamOf s (.stream n j t)
      if isStepped s n j t && st.faults.isEmpty then stopStill s n j t (stepCause s n j t) false (st.cmd - 1#32) t else s
    else s
  | _ => s

/-- The oldest pending trap of a job is delivered, where one can be (R297): an `rdv` of the C stream that all named streams have reached retires first (R273). -/
def deliverDue (s : State) (n j : Nat) : State :=
  let b := jobOf s n j
  if b.sv || b.traps.isEmpty || (coreOf s n).frozen then s else deliverTrap (finishRdv s n j .c) n j

/-- An instruction of a number of words retires: the PC moves (R164 to R168), the instruction is counted unless it ran at supervisor privilege (R296), and a stepped stream stops (R312). -/
def retire (s : State) (a : Agent) (words : Nat) (f : Flow) : State :=
  match f with
  | .stay => s
  | _ =>
    let sup := supervisor s a
    let s := modStream s a (fun st =>
      let st := { st with run := .running, cmd := if sup then st.cmd else st.cmd + 1#32 }
      match f with
      | .jump t => jumpTo st t
      | .skip t => seqTo st t
      | .ret t => { st with pc := t }
      | _ => seqTo st (st.pc + BitVec.ofNat 64 (4 * words)))
    stepTrap s a

/-- The operation-launch mark of the step record is cleared before an instruction (R300). -/
def beginInstr (s : State) (a : Agent) : State := modStream s a (fun st => { st with launched := 0 })

/-- AN INSTRUCTION ISSUES (R141): the checks that do not depend on its operands, the wait for registers still to come (R115), then its body; what the body answers is retired, waited for or raised. An agent that cannot issue changes nothing. -/
def issue (words : Nat) (nd : Need) (s : State) (body : State → Agent → Res) : Result :=
  let a := s.turn
  if !canIssue s a then .next s
  else match issueCheck s a words nd with
    | some c => .next (takeTrap s a { cause := c })
    | none =>
      if nd.reads.any (isDue s a) then .next (waitAt s a .waiting)
      else match body (beginInstr s a) a with
        | .ok s' f => .next (retire s' a words f)
        | .wait s' r => .next (waitAt s' a r)
        | .trap t => .next (takeTrap s a t)
        | .trapIn s' t => .next (takeTrap s' a t)

/-- The word that the word at the PC does not decode to raises ILLEGAL (R141 checks 2, 3 and 5). -/
def illegal (s : State) : Result :=
  if canIssue s s.turn then .next (takeTrap s s.turn { cause := cIllegal }) else .next s

/-- A stream in `wfi` is woken where a condition on its id holds (R177). -/
def wakeWfi (s : State) (n j : Nat) (p : Sid → Bool) : State :=
  modJob s n j (fun b => { b with streams := allSids.foldl (fun fs t =>
    let st := fs.get t
    if p t && st.run == .inWfi false then fs.set t { st with run := .inWfi true } else fs) b.streams })

/-- Operations of a queue of a job, and their replacement. -/
def queueOf (b : Job) : Queue → List Op
  | .lq => b.lq | .sq => b.sq | .aq => b.aq | .vq => b.vq | .mq => b.mq | .xvq => b.xvq | .xhq => b.xhq

def setQueue (b : Job) (q : Queue) (l : List Op) : Job :=
  match q with
  | .lq => { b with lq := l } | .sq => { b with sq := l } | .aq => { b with aq := l } | .vq => { b with vq := l }
  | .mq => { b with mq := l } | .xvq => { b with xvq := l } | .xhq => { b with xhq := l }

/-- Mask bit of a queue (R103). -/
def queueBit : Queue → Nat
  | .lq => 0 | .sq => 1 | .aq => 2 | .vq => 3 | .mq => 4 | .xvq => 5 | .xhq => 6

def allQueues : List Queue := [.lq, .sq, .aq, .vq, .mq, .xvq, .xhq]

def ofMQueue : MQueue → Queue
  | .lq => .lq | .sq => .sq | .aq => .aq | .xhq => .xhq

/-- The part of an operation's status word that does not depend on its state: HANDLE of a Floe operation, FLW of a matrix word entered by `xflw` (R262, R287). -/
def opInfo : OpKind → Word
  | .flmatch h _ _ _ => BitVec.ofNat 64 (h * 2 ^ 40)
  | .flmerge h _ _ => BitVec.ofNat 64 (h * 2 ^ 40)
  | .flunmg h _ _ => BitVec.ofNat 64 (h * 2 ^ 40)
  | .flsize _ h _ => BitVec.ofNat 64 (h * 2 ^ 40)
  | .flsave h _ => BitVec.ofNat 64 (h * 2 ^ 40)
  | .flload h _ => BitVec.ofNat 64 (h * 2 ^ 40)
  | .flfree h => BitVec.ofNat 64 (h * 2 ^ 40)
  | .product _ _ _ _ _ _ _ flw _ => if flw then 0x100000000000000#64 else 0#64
  | .mclr _ flw => if flw then 0x100000000000000#64 else 0#64
  | _ => 0#64

/-- A stream has launched an operation with a number (R300). -/
def markLaunch (st : Stream) (seq : Nat) (k : OpKind) : Stream := { st with launched := seq + 1, launchInfo := opInfo k }

/-- An operation enters a queue when its instruction issues (R103). -/
def enqueue (s : State) (a : Agent) (q : Queue) (k : OpKind) (names : List Handle) : State :=
  match a with
  | .mgmt => s
  | .stream n j t =>
    let b := jobOf s n j
    let o : Op := { kind := k, sid := t, cmd := (b.streams.get t).cmd, seq := b.seq, names := names, sup := supervisor s a }
    let s := modJob s n j (fun b => { setQueue b q (queueOf b q ++ [o]) with seq := b.seq + 1 })
    modStream s a (fun st => markLaunch st b.seq k)

/-- The number that the next operation of an agent's job will have. -/
def nextSeq (s : State) (a : Agent) : Nat := (agentJob s a).seq

/-- Every operation of a job that stands in a queue. -/
def allOps (b : Job) : List Op := b.lq ++ b.sq ++ b.aq ++ b.vq ++ b.mq ++ b.xvq ++ b.xhq

/-- The queues that a follow-on word names (R171). -/
def followNames (f : Follow) : List Handle := if f.form == .mclr then [] else [f.qa, f.qb, f.qm]

/-- An operation of the job names a handle (R171). -/
def names (b : Job) (h : Handle) : Bool :=
  (allOps b).any (fun o => o.names.contains h) || b.flw.any (fun f => (followNames f.1).contains h)

end Sys2Proof.Machine
end

