-- ==== Sys2Proof/Machine/Operands.lean ====
section
/-! DEFINITION. Operand forms: immediates and targets (R137), queue descriptors and slots (R169, R170), accumulator rows and lanes (R73, R146, R197), tiles and their busy bits (R148, R264). -/

namespace Sys2Proof.Machine

open Sys2Proof.Config

/-! Immediates (R137). -/

def imm11 (i : BitVec 11) : Word := i.signExtend 64
/-- The target of a branch: its own address + 4 × sext(off11). -/
def target11 (pc : Word) (off : BitVec 11) : Word := pc + (off.signExtend 64 <<< 2)
/-- The target of `jal`. -/
def target20 (pc : Word) (off : BitVec 20) : Word := pc + (off.signExtend 64 <<< 2)
/-- The address of a load or store. -/
def memAddr (s : State) (a : Agent) (r : Reg) (i : BitVec 11) : Word := reg s a r + imm11 i

/-! Queue descriptors (R169, R170). -/

/-- The fields of a queue descriptor. -/
structure QDesc where
  base : Nat
  lgs : Nat
  lgc : Nat
  kind : Nat
  valid : Bool
  persist : Bool
  cons : Nat
  prod : Nat
  head : Nat
  tail : Nat
  /-- every reserved bit is 0 -/
  clean : Bool
  deriving DecidableEq, Repr

/-- The fields of 64 descriptor bytes (R169). -/
def parseDesc (l : List Byte) : QDesc :=
  let b7 := fieldAt l 7 1
  { base := fieldAt l 0 4, lgs := fieldAt l 4 1, lgc := fieldAt l 5 1, kind := fieldAt l 6 1
    valid := b7 / 128 = 1, persist := b7 / 64 % 2 = 1, cons := b7 / 8 % 8, prod := b7 % 8
    head := fieldAt l 8 2, tail := fieldAt l 10 2
    clean := (l.drop 12).all (· == 0#8) }

def QDescSize : Nat := 64

/-- Physical address of descriptor h of slot j of core n (R70). -/
def descAt (n j : Nat) (h : Handle) : Nat := coreAt n + descOffset + j * 0x800 + h.toNat * 64

def descOf (s : State) (n j : Nat) (h : Handle) : QDesc := parseDesc (memReadN s.mem (descAt n j h) 64)

def qCount (d : QDesc) : Nat := 2 ^ d.lgc
def qSize (d : QDesc) : Nat := 2 ^ d.lgs
def qFilled (d : QDesc) : Nat := (d.tail + 2 * qCount d - d.head) % (2 * qCount d)
def qFree (d : QDesc) : Nat := qCount d - qFilled d
/-- Scratchpad offset of slot p (R170). -/
def qSlot (d : QDesc) (p : Nat) : Nat := d.base + p % qCount d * qSize d

/-- The descriptor passes R170, apart from which end the stream is. -/
def descOk (d : QDesc) : Bool :=
  d.valid && d.clean && d.base < 2 ^ 21 && d.base % 64 == 0 && 2 ≤ d.lgs && d.lgs ≤ 12 && 1 ≤ d.lgc && d.lgc ≤ 12
    && d.kind ≤ 4 && d.cons ≤ 5 && d.prod ≤ 5 && d.head < 2 * qCount d && d.tail < 2 * qCount d
    && d.base + qCount d * qSize d ≤ scratchSize && qFilled d ≤ qCount d
    && (d.kind != 2 || d.lgs == 2) && (d.kind != 4 || (3 ≤ d.lgs && d.prod == 4))

/-- The ends an instruction may require of a queue (R170). -/
inductive QEnd where | consumer | producer | either | any
  deriving DecidableEq, Repr

def endOk (d : QDesc) (e : QEnd) (t : Sid) : Bool :=
  match e with
  | .consumer => d.cons == sidNum t
  | .producer => d.prod == sidNum t
  | .either => d.cons == sidNum t || d.prod == sidNum t
  | .any => true

/-- The descriptor that an agent's instruction names, where it passes R170 for that end. -/
def queueFor (s : State) (a : Agent) (h : Handle) (e : QEnd) : Option QDesc :=
  match a with
  | .mgmt => none
  | .stream n j t =>
    let d := descOf s n j h
    if descOk d && endOk d e t then some d else none

/-- Descriptor h changed from d to e: a stream in `wfi` is woken where a slot became filled for its consumer or free for its producer (R177). -/
def wakeEnds (s : State) (n j : Nat) (d e : QDesc) : State :=
  wakeWfi s n j (fun t => (e.cons == sidNum t && qFilled d < qFilled e) || (e.prod == sidNum t && qFree d < qFree e))

/-- Bytes of descriptor h of a slot written by its own core (R169). -/
def setDesc (s : State) (n j : Nat) (h : Handle) (off : Nat) (l : List Byte) : State :=
  let d := descOf s n j h
  let s := { s with mem := memWrite s.mem (descAt n j h + off) l }
  wakeEnds s n j d (descOf s n j h)

/-- HEAD := v, or TAIL := v (R169). -/
def setHead (s : State) (n j : Nat) (h : Handle) (v : Nat) : State := setDesc s n j h 8 (leBytes 2 v)
def setTail (s : State) (n j : Nat) (h : Handle) (v : Nat) : State := setDesc s n j h 10 (leBytes 2 v)

/-! Own scratchpad (R72). -/

def spAt (n off : Nat) : Nat := coreAt n + off
def spRead (s : State) (n off len : Nat) : List Byte := memReadN s.mem (spAt n off) len
def spWrite (s : State) (n off : Nat) (l : List Byte) : State := { s with mem := memWrite s.mem (spAt n off) l }

/-- Scratchpad offset in a register: bits [20:0]. -/
def off21 (v : Word) : Nat := bitsAt v 0 21

/-! Accumulator rows (R73, R146) and tiles (R148, R264). -/

/-- The row that a vector field names (R146). -/
def rowOf (b : Job) (v : VReg) : Nat := (b.vwb.toNat + v.toNat) % 1024
def tileOf (row : Nat) : Nat := row / 128
/-- The type code of a tile (R148). -/
def tileCode (b : Job) (t : Nat) : Nat := bitsAt (b.tiletype.setWidth 64) (4 * t) 4
def rowCode (b : Job) (row : Nat) : Nat := tileCode b (tileOf row)
/-- Codes that a V or M instruction accepts (R148). -/
def validCode (c : Nat) : Bool := c == 0 || c == 1 || c == 2 || c == 5
/-- Lane width in bytes and lane count of a code (R73). -/
def laneW (c : Nat) : Nat := if c == 1 || c == 2 then 2 else 4
def laneN (c : Nat) : Nat := if c == 1 || c == 2 then 256 else 128
def isFloat (c : Nat) : Bool := c == 0 || c == 1 || c == 2

def rowAt (n row : Nat) : Nat := coreAt n + accOffset + row * 512

/-- Bytes in groups of w, as numbers; the fuel is the number of groups. -/
def lanesOf (w : Nat) : Nat → List Byte → List Nat
  | 0, _ => []
  | k + 1, l => leNat (l.take w) :: lanesOf w k (l.drop w)

def bytesOf (w : Nat) (l : List Nat) : List Byte := l.flatMap (leBytes w)

/-- The lanes of a row, w bytes each. -/
def readRow (s : State) (n row w : Nat) : List Nat := lanesOf w (512 / w) (memReadN s.mem (rowAt n row) 512)
def writeRow (s : State) (n row w : Nat) (l : List Nat) : State :=
  { s with mem := memWrite s.mem (rowAt n row) (bytesOf w l) }

/-- A mask register (R147). -/
def maskOf (b : Job) (m : MReg) : BitVec 256 := tget 0#256 b.masks m.toNat
/-- A mask register written; its transposable marker clears (R268). -/
def setMask (b : Job) (m : MReg) (v : BitVec 256) : Job :=
  { b with masks := tset b.masks m.toNat v, markers := b.markers &&& ~~~(BitVec.ofNat 8 (2 ^ m.toNat)) }

/-- Tiles that an operation in the MQ writes or holds busy (R264). -/
def opTiles : OpKind → List Nat
  | .product _ acc _ _ _ _ _ _ _ => [acc]
  | .mclr t _ => [t]
  | .mtrn d s => [d, s]
  | _ => []

/-- The busy bit of a tile (R264). -/
def tileBusy (b : Job) (t : Nat) : Bool := b.mq.any (fun o => (opTiles o.kind).contains t)

/-- An operation that a `qfence` in progress holds in its queue (R104). -/
def heldByFence (b : Job) (q : Queue) (o : Op) : Bool :=
  match b.fence with
  | some f => f.mask.getLsbD (queueBit q) && f.limit ≤ o.seq
  | none => false

def rowsFrom (row n : Nat) : List Nat := (List.range n).map (fun i => (row + i) % 1024)

/-- Rows that a VQ operation names (R148). -/
def opRows : OpKind → List Nat
  | .vld r _ n => rowsFrom r n
  | .vst r _ n => rowsFrom r n
  | .vldq r _ _ n => rowsFrom r n
  | .vstq r _ _ n => rowsFrom r n
  | .vgat d a _ _ => [d, a]
  | .vsct d a _ _ => [d, a]
  | .vperm d a b _ => [d, a, b]
  | .flsize r _ _ => [r]
  | .vpart _ r _ _ _ _ => [r]
  | _ => []

/-- Control state of a job: its step registers are its context's (R43). -/
def kOf (s : State) (b : Job) (i : Nat) : Word := tget 0#64 (ctxOf s b.part b.ctx).k i

end Sys2Proof.Machine
end

