-- ==== Sys2Proof/Machine/Pctl.lean ====
section
/-! DEFINITION. Partition control: the registers of R316 to R318 and R40 as they read, and what a write to each does. -/

namespace Sys2Proof.Machine

open Sys2Proof.Config

def w64 (n : Nat) : Word := BitVec.ofNat 64 n

/-- Mask of the cores of a partition in a PBSET value (R175). -/
def pbsetMask (q : Partition) : BitVec 320 :=
  let cores := (List.range 16).foldl (fun z g => if q.pgran.getLsbD g then z + 0xFFFF * 2 ^ (16 * g) else z) 0
  BitVec.ofNat 320 (cores + 0x1F * 2 ^ 256)

/-- The frozen mask (R316), bits 64i to 64i + 63. -/
def frozenWord (s : State) (p i : Nat) : Word :=
  w64 ((List.range 64).foldl (fun z k =>
    let n := 64 * i + k
    if (partOf s p).pgran.getLsbD (n / 16) && (coreOf s n).frozen then z + 2 ^ k else z) 0)

/-- GLSTAT (R318). -/
def glstat (x : Context) : Word :=
  w64 ((if x.glbusy then 2 ^ 63 else 0) + (if x.graph.isSome then 2 ^ 62 else 0) + x.glnode % 1024 * 2 ^ 32
    + x.glcause.toNat * 2 ^ 16 + x.gen.toNat)

/-- SQCTL as it reads (R40). -/
def sqctl (x : Context) : Word :=
  w64 ((if x.err then 16 else 0) + (if x.done then 8 else 0) + (if x.busy then 4 else 0))

def pennantOf (x : Context) (t : Nat) : Pennant := tget {} x.pennants t

/-- A register of context c's block (R40, R317), by its offset in the block. -/
def ctxRead (s : State) (p c off : Nat) : Word :=
  let x := ctxOf s p c
  match off with
  | 0x00 => sqctl x
  | 0x08 => x.sqrec
  | 0x10 => x.sqcount.setWidth 64
  | 0x18 => x.sqstep.setWidth 64
  | 0x20 => x.sqgraph
  | 0x28 => x.sqerr
  | 0x40 => w64 x.xroot
  | 0x48 => w64 ((if x.en then 1 else 0) + (if (partOf s p).running == some c then 512 else 0))
  | 0x50 => w64 x.sliceq
  | 0x58 => w64 x.swbudget
  | 0x60 => x.vrange
  | 0x68 => x.snaparea
  | 0x70 => x.savearea
  | 0x300 => x.gladdr
  | 0x310 => glstat x
  | _ =>
    if 0x80 ≤ off ∧ off < 0x280 ∧ (off - 0x80) % 64 < 40 then
      (pennantOf x ((off - 0x80) / 64)).set.extractLsb' ((off - 0x80) % 64 * 8) 64
    else 0#64

/-- A dword of eight table bytes. -/
def bytes8 (d : Byte) (t : Table Byte) (i : Nat) : Word := w64 (leNat ((List.range 8).map (fun k => tget d t (i + k))))

/-- Attestation registers of a function (R332), by offset from ATTNONCE; function 0 is 0. -/
def attRead (s : State) (fn off : Nat) : Word :=
  let a := tget {} s.attests fn
  if off < 0x20 then w64 (fieldAt (a.nonce ++ zeros 32) off 8)
  else match off with
    | 0x20 => a.addr
    | 0x30 => a.stat.setWidth 64
    | _ => 0#64

/-- The dword at an offset of partition p's block, a multiple of 8 (R316). -/
def pctlRead (s : State) (p off : Nat) : Word :=
  let q := partOf s p
  if off < 0x100 then (tget 0#32 q.mail (off / 4 + 1) ++ tget 0#32 q.mail (off / 4))
  else if 0x10000 ≤ off ∧ off < 0x18000 then ctxRead s p ((off - 0x10000) / 0x1000) (off % 0x1000)
  else if 0x180 ≤ off ∧ off < 0x1A0 then frozenWord s p ((off - 0x180) / 8)
  else if 0x200 ≤ off ∧ off < 0x240 then
    let i := (off - 0x200) / 16
    if off % 16 = 0 then tget 0#64 q.iqhdr i else (tget 0#8 q.iqcore i).setWidth 64
  else if 0x300 ≤ off ∧ off < 0x320 then bytes8 0xFF#8 q.gangmap (off - 0x300)
  else if 0x400 ≤ off ∧ off < 0x438 then attRead s (p + 1) (off - 0x400)
  else match off with
    | 0x100 => q.pgran.setWidth 64
    | 0x108 => q.phbm
    | 0x110 => q.pways
    | 0x118 => q.pkeys
    | 0x120 => q.pfirnq.setWidth 64
    | 0x128 => q.splimit.setWidth 64
    | 0x130 => q.stallwin.setWidth 64
    | 0x138 => q.fill.setWidth 64
    | 0x140 => q.handler
    | 0x148 => q.lattol.setWidth 64
    | 0x150 => q.cecount.setWidth 64
    | 0x158 => q.event.setWidth 64
    | 0x168 => q.hkey.setWidth 64
    | 0x240 => q.iqerr
    | 0x320 => pkgid.setWidth 64
    | _ => 0#64

/-- Offsets whose reads do not say what the other bytes of a partial write should hold: W1C and WO registers (R6). -/
def readsAsZeroForMerge (off : Nat) : Bool :=
  off == 0x158 || off == 0x160 || off == 0x428 || (0x10000 ≤ off && (off % 0x1000 == 0 || off % 0x1000 == 0x308))

/-! What control writes start. -/

/-- A pool entry is freed and its generation rises (R59). -/
def freePool (s : State) (p e : Nat) : State :=
  modPart s p (fun q => { q with poolUsed := q.poolUsed.filter (· != e), poolGen := tmod 0#16 q.poolGen e (· + 1#16) })

/-- The key of no task: a job whose launch has been discarded completes none. -/
def noTask : Nat := 2 ^ 60

/-- A slot of a column as its context's launch is discarded (R306): a staged or suspended job is gone, and an active one no longer counts. -/
def discardSlot (p c : Nat) (sl : Slot) : Slot :=
  if sl.job.part != p || sl.job.ctx != c then sl
  else match sl.st with
    | .staged | .suspended | .saved => emptySlot sl
    | .empty => sl
    | _ => { sl with job := { sl.job with task := noTask } }

/-- PEND of some ring entries clears; their bytes follow at the end of the step (R301). -/
def clearEntries (s : State) (p : Nat) (f : Nat → RingEntry → Bool) : State :=
  modPart s p (fun q => { q with
    ring := q.ring.map (fun e => if e.2.pend && f e.1 e.2 then (e.1, { e.2 with pend := false, filling := 0 }) else e)
    ringDue := q.ringDue ++ (q.ring.filter (fun e => e.2.pend && f e.1 e.2)).map (fun e => (e.2.ctx, e.1)) })

/-- The launch of a context is discarded (R63, R306): its incomplete tasks with their pool entries, its staged jobs and its saved images. A job of it that still runs belongs to no launch; `rdk` and `rdloop` give it what its context holds then, the next launch's values or none (log entry 47). -/
def discardLaunch (s : State) (p c : Nat) : State :=
  let tasks := match (ctxOf s p c).launch with | some la => la.tasks | none => []
  let s := tasks.foldl (fun s e =>
    match e.2.pool with
    | some k => if e.2.st == .complete then s else freePool s p k
    | none => s) s
  let s := clearEntries s p (fun _ e => e.kind == 4 && e.ctx == c)
  let s := (coresOf s p).foldl (fun s n => modCore s n (fun k => { k with slot0 := discardSlot p c k.slot0, slot1 := discardSlot p c k.slot1 })) s
  let s := modPart s p (fun q => { q with ringWait := q.ringWait.filter (fun e => e.2.2 != c) })
  modCtx s p c (fun x => { x with
    launch := none, snap := none, saved := [], stopped := false
    turns := x.turns.filter (fun t => (coreOf s t.core).active == some t.slot) })

/-- The loop of a context is started (R40): with no step left, SQSTEP at SQCOUNT or beyond, it is done at once, whoever holds the slice, and a rollback that still waits goes on waiting (log entry 72). DONE, ERR, SQERR and a left-over stop request clear; without the loaded graph's handle it stops at once with ILLEGAL and node 0x3FF. A launch that an error stopped is discarded first (R306). -/
def goLoop (s : State) (p c : Nat) (stop : Bool) : State :=
  let x := ctxOf s p c
  if x.busy then (if stop then modCtx s p c (fun x => { x with stopReq := true }) else s)
  else
    let s := discardLaunch s p c
    let x := { ctxOf s p c with done := false, err := false, sqerr := 0#64, stopReq := stop }
    match x.graph with
    | some g =>
      if x.sqgraph = w64 g.gen then
        if x.sqstep.toNat < x.sqcount.toNat then modCtx s p c (fun _ => { x with busy := true })
        else partEvent (modCtx s p c (fun _ => { x with done := true })) p 2
      else partEvent (modCtx s p c (fun _ => { x with err := true, stopReq := false, sqerr := w64 (0x3FF * 2 ^ 32 + 1) })) p 2
    | none => partEvent (modCtx s p c (fun _ => { x with err := true, stopReq := false, sqerr := w64 (0x3FF * 2 ^ 32 + 1) })) p 2

/-- STOP while BUSY (R40). -/
def stopLoop (s : State) (p c : Nat) : State :=
  modCtx s p c (fun x => if x.busy then { x with stopReq := true } else x)

/-- A write of GLCMD (R318). -/
def glCommand (s : State) (p c cmd : Nat) : State :=
  modCtx s p c (fun x => if x.glbusy || (cmd != 1 && cmd != 2) then x else { x with glbusy := true, glcmd := cmd })

/-- The next enabled context after c in ascending number, c itself last (R317). -/
def nextCtx (s : State) (p c : Nat) : Option Nat :=
  ((List.range nCtxs).map (fun i => (c + 1 + i) % nCtxs)).find? (fun i => (ctxOf s p i).en)

/-- Every column of a partition is to switch (R22). -/
def endSlice (s : State) (p : Nat) : State := (coresOf s p).foldl (fun s n => modCore s n (fun k => { k with ending := true })) s

/-- CTXCTL.EN is written (R317): a first enabled context takes the slice. Where the context that holds the slice is disabled, its slice ends at once and passes to the next enabled one, or to none (DESIGN CHOICE, log entry 81). -/
def ctxEnable (s : State) (p c : Nat) (en : Bool) : State :=
  let s := modCtx s p c (fun x => { x with en := en })
  if en && (partOf s p).running.isNone then
    endSlice (modPart s p (fun q => { q with running := some c })) p
  else if !en && (partOf s p).running == some c then
    endSlice (modPart s p (fun q => { q with running := nextCtx s p c })) p
  else s

/-- Blocks of a vault range: first and count (R317). -/
def vrangeOf (x : Context) : Nat × Nat := (bitsAt x.vrange 0 12, bitsAt x.vrange 16 12)

/-- A vault range is declared, and every dirty bit of it is set in every column (R95); without effect while EN is 1 (R317). -/
def declareRange (s : State) (p c : Nat) (v : Word) : State :=
  if (ctxOf s p c).en then s
  else
    let s := modCtx s p c (fun x => { x with vrange := v &&& 0x0FFF0FFF#64, commitDue := bitsAt v 16 12 != 0 })
    let (b, k) := vrangeOf (ctxOf s p c)
    let blocks := (List.range k).map (b + ·)
    (coresOf s p).foldl (fun s n => modCore s n (fun m =>
      { m with dirty0 := blocks ++ m.dirty0.filter (fun d => !blocks.contains d)
               dirty1 := blocks ++ m.dirty1.filter (fun d => !blocks.contains d) })) s

/-- PBSETt := v, held while a phase has arrivals (R175). -/
def writePbset (s : State) (p c t : Nat) (v : BitVec 320) : State :=
  let v := v &&& pbsetMask (partOf s p)
  modCtx s p c (fun x =>
    let w := pennantOf x t
    { x with pennants := tset x.pennants t (if w.arrived.isEmpty then { w with set := v, held := none } else { w with held := some v }) })

/-- The streams of a killed job stop at their boundaries, with nothing pending. -/
def killStream (st : Stream) : Stream := { st with run := .ended, atEnd := true, faults := [], pbars := [], due := [], inPbar := [] }

/-- An issued operation is still performed after a kill; one that is parked, and an installation not yet made, is not (R193). -/
def outlivesKill (o : Op) : Bool := o.parked == 0 && (match o.kind with | .frnput _ _ _ => false | _ => true)

/-- A job as a kill leaves it (R193). -/
def killedJob (b : Job) : Job :=
  let f := b.streams
  { b with
    killed := true, sv := false, traps := [], fence := none, suspending := none, deadSince := none
    streams := ⟨killStream f.c, killStream f.a, killStream f.v, killStream f.m, killStream f.x⟩
    lq := b.lq.filter outlivesKill, sq := b.sq.filter outlivesKill, aq := b.aq.filter outlivesKill
    xvq := b.xvq.filter outlivesKill, xhq := b.xhq.filter outlivesKill }

/-- Ring entries behind which operations of a job are parked. -/
def parkedBehind (b : Job) : List Nat := (allOps b).filterMap (fun o => if o.parked = 0 then none else some (o.parked - 1))

/-- The entries of a job in a slot are discarded, no intake queue's among them, and its places at Firn entries but those of `kept` operations (R193, R280, R301). -/
def discardEntries (s : State) (p n j : Nat) (b : Job) (kept : List Op) : State :=
  let mine := parkedBehind b
  let s := clearEntries s p (fun i e => mine.contains i || (!e.intake && e.core == n && e.slot == j && e.ctx == b.ctx))
  let s := modPart s p (fun q => { q with ringWait := q.ringWait.filter (fun e => e != (n, j, b.ctx)) })
  modCtx s p b.ctx (fun x => { x with turns := x.turns.filter (fun t => !(t.core == n && t.slot == j) || kept.any (fun o => o.seq == t.seq)) })

/-- A kill of an active job (R193): the handler ends, traps and faults are discarded, every stream stops at its boundary, ring entries are discarded and installations not yet made are abandoned. -/
def killActive (s : State) (n j : Nat) : State :=
  let b := jobOf s n j
  let s := modSlot s n j (fun sl => { sl with st := .drain, job := killedJob b })
  match partOfCore s n with
  | some p => discardEntries s p n j b (killedJob b).sq
  | none => s

/-- RELEASE with action deliver (R304): the frozen core's trap becomes deliverable. Ignored for a core that is not frozen, not in the partition, or frozen with DOUBLE. -/
def releaseDeliver (s : State) (p n : Nat) : State :=
  let c := coreOf s n
  if !c.frozen || !(partOf s p).pgran.getLsbD (n / 16) || c.doubleFault then s
  else
    let s := modCore s n (fun c => { c with frozen := false })
    match c.active with
    | some j =>
      let s := modSlot s n j (fun sl => { sl with st := .active })
      deliverDue s n j
    | none => s

/-- RELEASE with action kill (R304). -/
def releaseKill (s : State) (p n : Nat) : State :=
  let c := coreOf s n
  if !c.frozen || !(partOf s p).pgran.getLsbD (n / 16) then s
  else
    let s := modCore s n (fun c => { c with frozen := false, doubleFault := false })
    match c.active with
    | some j => killActive s n j
    | none => s

/-- ATTGO (R325, R332): ignored while BUSY; an unaligned report address sets ERR and writes nothing. -/
def attGo (s : State) (fn : Nat) : State :=
  let a := tget {} s.attests fn
  if a.busy then s
  else if a.addr.toNat % 64 ≠ 0 then { s with attests := tset s.attests fn { a with stat := 2#2 } }
  else { s with attests := tset s.attests fn { a with stat := 1#2, busy := true, askNonce := a.nonce, askAddr := a.addr } }

/-- Attestation registers written, by offset from ATTNONCE (R332). -/
def attWrite (s : State) (fn off : Nat) (v : Word) : State :=
  let a := tget {} s.attests fn
  if off < 0x20 then
    let l := (a.nonce ++ zeros 32).take 32
    { s with attests := tset s.attests fn { a with nonce := l.take off ++ leBytes 8 v.toNat ++ l.drop (off + 8) } }
  else if off = 0x20 then { s with attests := tset s.attests fn { a with addr := v } }
  else if off = 0x28 then (if v.getLsbD 0 then attGo s fn else s)
  else s

/-- A rollback of a context is requested (R306): it is of a stopped context, so a request while the loop is BUSY is not remembered (log entry 33). -/
def requestRollback (s : State) (p c : Nat) : State := modCtx s p c (fun x => if x.busy then x else { x with rb := true })

/-- A register of context c's block := v (R40, R317, R318). -/
def ctxWrite (s : State) (p c off : Nat) (v : Word) : State :=
  let x := ctxOf s p c
  let set (f : Context → Context) : State := modCtx s p c f
  match off with
  | 0x00 =>
    let s := modCtx s p c (fun x => { x with done := x.done && !v.getLsbD 3, err := x.err && !v.getLsbD 4 })
    if v.getLsbD 0 && !x.busy then goLoop s p c (v.getLsbD 1)
    else if v.getLsbD 1 then stopLoop s p c else s
  | 0x08 => if x.busy then s else set (fun x => { x with sqrec := v &&& 0x00FFFFFFFFFFFFC0#64 })
  | 0x10 => if x.busy then s else set (fun x => { x with sqcount := v.setWidth 16 })
  | 0x18 => if x.busy then s else set (fun x => { x with sqstep := v.setWidth 16 })
  | 0x20 => if x.busy then s else set (fun x => { x with sqgraph := v })
  | 0x40 => if x.en then s else set (fun x => { x with xroot := (v &&& 0x000FFFFFFFF00000#64).toNat })
  | 0x48 =>
    let s := if v.getLsbD 8 then requestRollback s p c else s
    if v.getLsbD 0 == x.en then s else ctxEnable s p c (v.getLsbD 0)
  | 0x50 => if bitsAt v 0 32 < 1024 then s else set (fun x => { x with sliceq := bitsAt v 0 32 })
  | 0x58 => set (fun x => { x with swbudget := bitsAt v 0 32 })
  | 0x60 => declareRange s p c v
  | 0x68 => if x.en then s else set (fun x => { x with snaparea := v &&& 0x00FFFFFFFFFFFFC0#64 })
  | 0x70 => if x.en then s else set (fun x => { x with savearea := v &&& 0x00FFFFFFFFFFFFC0#64 })
  | 0x300 => set (fun x => { x with gladdr := v &&& 0x00FFFFFFFFFFFFFF#64 })
  | 0x308 => glCommand s p c (bitsAt v 0 2)
  | _ =>
    if 0x80 ≤ off ∧ off < 0x280 ∧ (off - 0x80) % 64 < 40 then
      let t := (off - 0x80) / 64
      let w := pennantOf x t
      let old := (w.held.getD w.set).toNat
      let lo := (off - 0x80) % 64 * 8
      let new := old - old / 2 ^ lo % 2 ^ 64 * 2 ^ lo + v.toNat * 2 ^ lo
      writePbset s p c t (BitVec.ofNat 320 new)
    else s

/-- Firmware configures a partition (R59, R284): its pool starts afresh and the map handles of its cores are free. -/
def configure (s : State) (p : Nat) (g : BitVec 16) : State :=
  let s := modPart s p (fun q => { q with pgran := g, poolGen := [], poolUsed := [] })
  (coresOf s p).foldl (fun s n => modCore s n (fun c => { c with floe := [] })) s

/-- The dword at an offset of partition p's block := v (R316). `fw` is firmware, which alone writes the firmware fields. -/
def pctlWrite (s : State) (p off : Nat) (v : Word) (fw : Bool) : State :=
  let set (f : Partition → Partition) : State := modPart s p f
  if off < 0x100 then
    set (fun q => { q with mail := tset (tset q.mail (off / 4) (v.setWidth 32)) (off / 4 + 1) ((v >>> 32).setWidth 32) })
  else if 0x10000 ≤ off ∧ off < 0x18000 then ctxWrite s p ((off - 0x10000) / 0x1000) (off % 0x1000) v
  else if 0x200 ≤ off ∧ off < 0x240 then
    let i := (off - 0x200) / 16
    if off % 16 = 0 then
      set (fun q =>
        if v.getLsbD 0 && (tget 0#64 q.iqhdr i).getLsbD 0 then q
        else { q with iqhdr := tset q.iqhdr i (v &&& 0x00FFFFFFFFFFFFC1#64) })
    else set (fun q => { q with iqcore := tset q.iqcore i (v.setWidth 8) })
  else if 0x300 ≤ off ∧ off < 0x320 then
    set (fun q => { q with gangmap := (List.range 8).foldl (fun t k => tset t (off - 0x300 + k) ((v >>> (8 * k)).setWidth 8)) q.gangmap })
  else if 0x400 ≤ off ∧ off < 0x438 then attWrite s (p + 1) (off - 0x400) v
  else match off with
    | 0x100 => if fw then configure s p (v.setWidth 16) else s
    | 0x108 => if fw then set (fun q => { q with phbm := v &&& 0x01FF01FF#64 }) else s
    | 0x110 => if fw then set (fun q => { q with pways := v &&& 0xFFFFFFFFFFFF#64 }) else s
    | 0x118 => if fw then set (fun q => { q with pkeys := v &&& 0x03FF01FF#64 }) else s
    | 0x120 => if fw then set (fun q => { q with pfirnq := v.setWidth 20 }) else s
    | 0x128 => if bitsAt v 0 4 ≤ 8 then set (fun q => { q with splimit := v.setWidth 4 }) else s
    | 0x130 =>
      let x := v.toNat
      if x = 0 ∨ (2 ^ 16 ≤ x ∧ x ≤ 2 ^ 30) then set (fun q => { q with stallwin := v.setWidth 32 }) else s
    | 0x138 => set (fun q => { q with fill := v.setWidth 8 })
    | 0x140 => set (fun q => { q with handler := v &&& 0x00FFFFFFFFFFFFFC#64 })
    | 0x148 => set (fun q => { q with lattol := v.setWidth 32 })
    | 0x158 => set (fun q => { q with event := q.event &&& ~~~(v.setWidth 6) })
    | 0x160 =>
      let n := bitsAt v 0 8
      if v.getLsbD 8 then releaseKill s p n else releaseDeliver s p n
    | 0x168 => set (fun q => { q with hkey := v.setWidth 9 })
    | _ => s

/-- A write of bytes to partition control: each dword touched is merged with what stands there and written (R6). -/
def pctlWriteBytes (s : State) (p off : Nat) (l : List Byte) (fw : Bool) : State :=
  let first := off / 8
  let last := (off + l.length - 1) / 8
  if l.isEmpty then s
  else (List.range (last - first + 1)).foldl (fun s i =>
    let o := (first + i) * 8
    let old := if readsAsZeroForMerge o then 0#64 else pctlRead s p o
    let b := (List.range 8).map (fun k =>
      if off ≤ o + k ∧ o + k < off + l.length then l.getD (o + k - off) 0#8 else (old >>> (8 * k)).setWidth 8)
    pctlWrite s p o (w64 (leNat b)) fw) s

/-- A byte of partition control. -/
def pctlByte (s : State) (p off : Nat) : Byte := (pctlRead s p (off / 8 * 8) >>> (8 * (off % 8))).setWidth 8

end Sys2Proof.Machine
end

