-- ==== Sys2Proof/Machine/Phys.lean ====
section
/-! DEFINITION. Access to physical addresses at their points of coherence (R99): windows of a core (R70, R71, R31, R302), vaults (R74, R95), HBM with owned lines (R77, R78, R109), the capability list (R18, R19). -/

namespace Sys2Proof.Machine

open Sys2Proof.Config

/-- The 32-bit words of a capability record with its header (R18, R19). -/
def capRecord (id next : Nat) (body : List Nat) : List Byte :=
  leBytes 4 id ++ leBytes 4 1 ++ leBytes 4 (4 * body.length) ++ leBytes 4 next ++ body.flatMap (leBytes 4)

/-- The capability list as partition p sees it; the offsets of its records, and the zeros between them and behind the last one, are the model's (log entry 20). -/
def capBytes (s : State) (p : Nat) : List Byte :=
  capRecord 1 32 [7256, encid.toNat, 256, 16] ++ capRecord 2 64 [384, 12288, 2048, 196608]
    ++ capRecord 3 96 [1, 12] ++ zeros 8 ++ capRecord 4 128 [p, (partOf s p).pgran.toNat] ++ zeros 8
    ++ capRecord 5 160 [786432] ++ zeros 12 ++ capRecord 6 192 [512] ++ zeros 12 ++ capRecord 7 0 [1664525]

/-- STATE of a slot (R302). -/
def slotCode : SlotState → Nat
  | .empty => 0 | .staged => 1 | .active => 2 | .drain => 3 | .suspended => 4 | .frozen => 5 | .saved => 6

/-- JOBID of the job in a slot (R33). -/
def jobId (b : Job) (j : Nat) : Word := w64 (b.ctx * 2 ^ 41 + j * 2 ^ 40 + b.node * 2 ^ 30 + b.tile)

/-- STATE of a slot: an active job whose five streams have reached `rdv end` is in drain (R36, R302). -/
def slotState (sl : Slot) : Nat :=
  if sl.st == .active && allSids.all (fun t => (sl.job.streams.get t).run == .ended) then 3 else slotCode sl.st

/-- Bytes 0 to 51 of a slot control block (R302). -/
def ctlBlock (s : State) (n j : Nat) : List Byte :=
  let sl := slotOf (coreOf s n) j
  let k := sl.job.cursor
  (if sl.st == .empty then zeros 8 else leBytes 8 (jobId sl.job j).toNat)
    ++ [BitVec.ofNat 8 (slotState sl), sl.step.setWidth 8] ++ zeros 6
    ++ [k.cause, BitVec.ofNat 8 k.pattern, 0#8, 0#8] ++ leBytes 4 k.cmd.toNat ++ leBytes 4 k.element ++ zeros 4
    ++ leBytes 8 k.value.toNat ++ leBytes 4 k.pcur ++ leBytes 4 k.wcur ++ leBytes 4 k.wpass

/-- Where an offset into the scalar register files points: slot, stream and register place (R70, R145, R297). -/
def sregPlace (o : Nat) : Option (Nat × Sid × Nat) :=
  let j := o / 0x1000
  let r := o % 0x1000
  if r < 0xA00 then some (j, sidOf (r / 0x200), r % 0x200 / 8)
  else if r < 0xA40 then some (j, .c, 128 + (r - 0xA00) / 8)
  else if r < 0xA70 then some (j, .c, 64 + (r - 0xA40) / 8)
  else none

/-- A byte of a core window (R70, R31). -/
def coreByte (s : State) (n off : Nat) : Byte :=
  if off < scratchSize then memRead s.mem (coreAt n + off)
  else if accOffset ≤ off ∧ off < accOffset + accSize then memRead s.mem (coreAt n + off)
  else if descOffset ≤ off ∧ off < descOffset + 0x1000 then memRead s.mem (coreAt n + off)
  else if sregOffset ≤ off ∧ off < sregOffset + 0x2000 then
    match sregPlace (off - sregOffset) with
    | some (j, t, i) => (readPlace s (.stream n j t) i >>> (8 * (off % 8))).setWidth 8
    | none => 0#8
  else if keepOffset ≤ off ∧ off < blockOffset then memRead s.mem (coreAt n + off)
  else if blockOffset ≤ off ∧ off < recOffset then
    (ctlBlock s n ((off - blockOffset) / 0x1000)).getD ((off - blockOffset) % 0x1000) 0#8
  else if recOffset ≤ off ∧ off < recOffset + 0x1000 then
    if (off - recOffset) % 0x800 < 0x140 then memRead s.mem (coreAt n + off) else 0#8
  else 0#8

/-- Part of a write that falls into one range of a window: the bytes from lo to hi - 1. -/
def clipRun (a : Nat) (l : List Byte) (lo hi : Nat) : Nat × List Byte :=
  if a < lo then (lo, (l.drop (lo - a)).take (hi - lo)) else (a, l.take (hi - a))

/-- Raw storage of a core window in one range. -/
def coreRaw (s : State) (n off : Nat) (l : List Byte) (lo hi : Nat) : State :=
  let (a, r) := clipRun off l lo hi
  if r.isEmpty then s else { s with mem := memWrite s.mem (coreAt n + a) r }

/-- Scalar registers written through the window, dword by dword (R71): only of a stopped stream, or of an empty slot. -/
def sregWrite (s : State) (n off : Nat) (l : List Byte) : State :=
  (List.range (if l.isEmpty then 0 else (off + l.length - 1) / 8 - off / 8 + 1)).foldl (fun s i =>
    let o := (off / 8 + i) * 8
    match sregPlace o with
    | none => s
    | some (j, t, r) =>
      let a := Agent.stream n j t
      if (streamOf s a).run == .stopped || (slotOf (coreOf s n) j).st == .empty then
        let old := readPlace s a r
        let b := (List.range 8).map (fun k => if off ≤ o + k ∧ o + k < off + l.length then l.getD (o + k - off) 0#8 else (old >>> (8 * k)).setWidth 8)
        writePlace s a r (w64 (leNat b))
      else s) s

/-- A write to a core's descriptor window: its jobs are not deadlocked in this cycle (R38). -/
def stirJobs (s : State) (n : Nat) : State :=
  let stir (b : Job) : Job := { b with deadSince := none }
  modJob (modJob s n 0 stir) n 1 stir

/-- A write into a core window (R70, R71, R31, R302). -/
def coreWrite (s : State) (n off : Nat) (l : List Byte) : State :=
  let hi := off + l.length
  let s := if off < scratchSize then coreRaw s n off l 0 scratchSize else s
  let s := if off < accOffset + accSize ∧ accOffset < hi then coreRaw s n off l accOffset (accOffset + accSize) else s
  let s := if off < descOffset + 0x1000 ∧ descOffset < hi then
      wakeWfi (wakeWfi (stirJobs (coreRaw s n off l descOffset (descOffset + 0x1000)) n) n 0 (fun _ => true)) n 1 (fun _ => true) else s
  let s := if off < sregOffset + 0x2000 ∧ sregOffset < hi then
      let (a, r) := clipRun off l sregOffset (sregOffset + 0x2000)
      sregWrite s n (a - sregOffset) r else s
  [0, 1].foldl (fun s j =>
    let at9 := blockOffset + j * 0x1000 + 9
    if off ≤ at9 ∧ at9 < hi then modSlot s n j (fun sl => { sl with step := (l.getD (at9 - off) 0#8).setWidth 5 }) else s) s

/-- A window access to an accumulator row of a busy tile waits (R71). -/
def accBusy (s : State) (pa len : Nat) : Bool :=
  match region pa with
  | .core n off =>
    off < accOffset + accSize && accOffset < off + len &&
      (List.range 8).any (fun t =>
        off < accOffset + (t + 1) * 65536 && accOffset + t * 65536 < off + len &&
          match (coreOf s n).active with
          | some j => tileBusy (jobOf s n j) t
          | none => false)
  | _ => false

/-- A column returns to C0 (R327). -/
def wakeColumn (s : State) (n : Nat) : State :=
  if (coreOf s n).power == .c0 then s
  else modCore s n (fun c => { c with
    power := .c0
    gated := c.gated + (match c.gatedAt with | some g => s.now - g | none => 0)
    gatedAt := none })

/-- Dirty bits of the 4 KiB blocks that a vault write touches, where some context of the partition declares them (R95). DESIGN CHOICE (log 93): contexts whose ranges overlap share the bits. -/
def markDirty (s : State) (n off len : Nat) : State :=
  match partOfCore s n with
  | none => s
  | some p =>
    let q := partOf s p
    let declared (k : Nat) : Bool := q.ctxs.any (fun e => let r := vrangeOf e.2; r.1 ≤ k && k < r.1 + r.2)
    let blocks := ((List.range (if len = 0 then 0 else (off + len - 1) / 4096 - off / 4096 + 1)).map (off / 4096 + ·)).filter declared
    if blocks.isEmpty then s
    else modCore s n (fun c => { c with
      dirty0 := blocks ++ c.dirty0.filter (fun d => !blocks.contains d)
      dirty1 := blocks ++ c.dirty1.filter (fun d => !blocks.contains d) })

/-! The C stream's L1 (R77, R78). -/

/-- First byte of the 128-byte line of an address. -/
def lineAt (pa : Nat) : Nat := pa / 128 * 128

def lineOwned (c : Core) (l : Nat) : Bool := c.owned.any (fun r => r.lines.contains l)

def findLine (c : Core) (l : Nat) : Option Line := c.l1.find? (fun x => x.addr == l)

/-- A dirty line written back to its home (R77, R78); nothing is lost to a merge, because a line covers whole sectors. -/
def writeBack (s : State) (x : Line) : State :=
  if x.dirty then
    match storeWrite s.mem x.addr (keyBytes s x.key) x.bytes with
    | some (m, _) => { s with mem := m }
    | none => s
  else s

/-- Lines of a core that satisfy a condition leave its L1, dirty ones written back first (R77). -/
def dropLines (s : State) (n : Nat) (p : Line → Bool) : State :=
  let out := (coreOf s n).l1.filter p
  let s := out.foldl writeBack s
  modCore s n (fun c => { c with l1 := c.l1.filter (fun x => !p x) })

/-- An acquire invalidates every line of the core's L1 that is not owned (R77). -/
def acquire (s : State) (n : Nat) : State :=
  modCore s n (fun c => { c with l1 := c.l1.filter (fun x => lineOwned c x.addr) })

/-- A line enters L1 as the most recently used; the least recently used of its set leaves when the set is full (R77). The set is the line number mod 64 (log entry 6). -/
def fillLine (s : State) (n : Nat) (x : Line) : State :=
  let c := coreOf s n
  let same := c.l1.filter (fun y => y.addr / 128 % 64 == x.addr / 128 % 64 && y.addr != x.addr)
  let s := match (if 8 ≤ same.length then same.head? else none) with
    | some v => dropLines s n (fun y => y.addr == v.addr)
    | none => s
  modCore s n (fun c => { c with l1 := c.l1.filter (fun y => y.addr != x.addr) ++ [x] })

/-- Bytes of a line at an address replaced. -/
def patchLine (x : Line) (pa : Nat) (l : List Byte) (dirty : Bool) : Line :=
  { x with bytes := x.bytes.take (pa - x.addr) ++ l ++ x.bytes.drop (pa - x.addr + l.length), dirty := x.dirty || dirty }

/-- Every other agent's access recalls owned lines: the owner writes them back and they stop being owned (R78, R109). `me` is a core whose C stream makes the access. DESIGN CHOICE (log 94): the line stays in the L1, clean and not owned. -/
def recallLine (s : State) (me : Option Nat) (pa len : Nat) : State :=
  let hit (l : Nat) : Bool := l < pa + len && pa < l + 128
  s.cores.foldl (fun s e =>
    if some e.1 = me || !(e.2.owned.any (fun r => r.lines.any hit)) then s
    else
      let s := (e.2.l1.filter (fun x => hit x.addr && lineOwned e.2 x.addr)).foldl writeBack s
      modCore s e.1 (fun c => { c with
        l1 := c.l1.map (fun x => if hit x.addr && lineOwned c x.addr then { x with dirty := false } else x)
        owned := c.owned.map (fun r => { r with lines := r.lines.filter (fun l => !hit l) }) })) s

/-- The corrected-error count of a partition rises (R91, R316). -/
def countCorrected (s : State) (p k : Nat) : State :=
  if k = 0 then s else modPart s p (fun q => { q with cecount := BitVec.ofNat 32 (min (q.cecount.toNat + k) (2 ^ 32 - 1)) })

/-- HBM range of a partition: first byte and length (R316). -/
def hbmRange (q : Partition) : Nat × Nat := (bitsAt q.phbm 0 9 * 2 ^ 30, bitsAt q.phbm 16 9 * 2 ^ 30)

def inHbm (q : Partition) (pa : Nat) : Bool :=
  let r := hbmRange q
  r.1 ≤ pa && pa < r.1 + r.2

/-- The partition that owns storage with a code (R16, R17). -/
def ownerAt (s : State) (pa : Nat) : Option Nat :=
  match region pa with
  | .hbm => (tkeys s.parts).find? (fun p => inHbm (partOf s p) pa)
  | .vault n _ => partOfCore s n
  | _ => none

/-- Corrections counted for the partition that owns storage (R91). -/
def countOwner (s : State) (pa k : Nat) : State := match ownerAt s pa with | some p => countCorrected s p k | none => s

/-- Storage written, with the corrections its merges made counted for its owner, those of one that fails among them (R91, R93). -/
def storePut (s : State) (pa : Nat) (key : Nat) (l : List Byte) : State × Except Byte Unit :=
  match storeWrite s.mem pa (keyBytes s key) l with
  | none => (countOwner s pa (fixesOf s.mem (keyBytes s key) (partSectors pa l.length)), .error cDataUe)
  | some (m, k) => (countOwner { s with mem := m } pa k, .ok ())

/-- Storage read for a partition, with the corrections made counted, those of a read that fails among them (R91, R93). -/
def storeGet (s : State) (p pa len key : Nat) : State × Option (List Byte) :=
  match storeRead s.mem pa len (keyBytes s key) with
  | some (l, k) => (countCorrected s p k, some l)
  | none => (countCorrected s p (fixesOf s.mem (keyBytes s key) (sectorsOf pa len)), none)

/-- The host port has gone down (R322), or the host refuses a read of its memory (R321). -/
def hostDown (s : State) : Bool := (tget {} s.ports 12).down
def hostRefuses (s : State) (pa : Nat) : Bool := hostDown s || Config.hostRefuses s.tick pa

/-- A read at its point of coherence by anyone but a C stream's own L1: the bytes, or the cause (R91 to R93, R314, R321, R322). -/
def physRead (s : State) (p pa len key : Nat) : State × Except Byte (List Byte) :=
  let get (s : State) (key : Nat) : State × Except Byte (List Byte) :=
    match storeGet s p pa len key with
    | (s, some l) => (s, .ok l)
    | (s, none) => (s, .error cDataUe)
  match region pa with
  | .hbm | .record => get (recallLine s none pa len) key
  | .host => if hostRefuses s pa then (s, .error cDataUe) else get s key
  | .vault n off =>
    let s := wakeColumn s n
    if !s.vaultReady then (s, .error cVaultUnrepaired)
    else if vaultSize ≤ off then (s, .ok (zeros len))
    else get s 0
  | .core n off =>
    let s := wakeColumn s n
    (s, .ok ((List.range len).map (fun i => coreByte s n (off + i))))
  | .pctl q off => (s, .ok ((List.range len).map (fun i => pctlByte s q (off + i))))
  | .cap off => (s, .ok ((List.range len).map (fun i => (capBytes s p).getD (off + i) 0#8)))
  | .reserved => (s, .ok (zeros len))

/-- A write at its point of coherence, with its cause where it fails. A write to the capability page, which R19 does not speak of, is ignored (log entry 20). -/
def physWrite (s : State) (pa key : Nat) (l : List Byte) : State × Except Byte Unit :=
  match region pa with
  | .hbm | .record => storePut (recallLine s none pa l.length) pa key l
  | .host => if hostDown s then (s, .error cDataUe) else storePut s pa key l
  | .vault n off =>
    let s := wakeColumn s n
    if !s.vaultReady then (s, .error cVaultUnrepaired)
    else if vaultSize ≤ off then (s, .ok ())
    else match storePut s pa 0 l with
      | (s, .ok _) => (markDirty s n off l.length, .ok ())
      | r => r
  | .core n off => (coreWrite (wakeColumn s n) n off l, .ok ())
  | .pctl q off => (pctlWriteBytes s q off l false, .ok ())
  | .cap _ => (s, .ok ())
  | .reserved => (s, .ok ())

/-- A C-stream load of core n performed on HBM (R77, R99): a hit reads the line, a miss reads home and allocates. -/
def cachedRead (s : State) (p n pa len key : Nat) : State × Except Byte (List Byte) :=
  let l := lineAt pa
  match findLine (coreOf s n) l with
  | some x =>
    (modCore s n (fun c => { c with l1 := c.l1.filter (fun y => y.addr != l) ++ [x] }), .ok ((x.bytes.drop (pa - l)).take len))
  | none =>
    let s := recallLine s (some n) pa len
    match storeGet s p l 128 key with
    | (s, some x) => (fillLine s n { addr := l, bytes := x, key := key }, .ok ((x.drop (pa - l)).take len))
    | (t, none) =>
      -- some sector of the line is uncorrectable: nothing is allocated, and the bytes asked for are delivered where they can be
      match storeRead s.mem pa len (keyBytes s key) with
      | some b => (t, .ok b.1)
      | none => (t, .error cDataUe)

/-- A C-stream store of core n performed on HBM (R77, R99, R109): in the owner's L1, or written through with a line already present updated. A store to a line that is not owned counts as no use of it for replacement (log entry 6). -/
def cachedWrite (s : State) (n pa key : Nat) (b : List Byte) : State × Except Byte Unit :=
  let l := lineAt pa
  let c := coreOf s n
  if lineOwned c l then
    match findLine c l with
    | some x => (fillLine s n (patchLine { x with key := key } pa b true), .ok ())
    | none =>
      match storeGet s ((ownerAt s pa).getD 0) l 128 key with
      | (s, some x) => (fillLine s n (patchLine { addr := l, bytes := x, key := key } pa b true), .ok ())
      | (s, none) => (s, .error cDataUe)
  else
    match storePut (recallLine s (some n) pa b.length) pa key b with
    | (s, .ok _) => (modCore s n (fun c => { c with l1 := c.l1.map (fun x => if x.addr == l then patchLine x pa b false else x) }), .ok ())
    | r => r

end Sys2Proof.Machine
end

