-- ==== Sys2Proof/Machine/Xlat.lean ====
section
/-! DEFINITION. Translation (R86 to R89), what an access may reach (R67 to R71, R316), the retry ring (R90, R301), and reads and writes of virtual ranges. -/

namespace Sys2Proof.Machine

open Sys2Proof.Config

/-- What an access does (R88). -/
inductive Acc where | read | write | fetch
  deriving DecidableEq, Repr

/-- How a walk ends (R88). -/
inductive Walk where
  | leaf (entry : Word) (shift : Nat)
  | miss
  | bad
  | ue
  deriving DecidableEq, Repr

/-- How a translation ends: a physical address and key, a miss, a write to a page under WPW, a refusal that is no violation (R67), a violation, or an uncorrectable table. -/
inductive Xl where
  | ok (pa key : Nat)
  | miss
  | wpw (pa key : Nat)
  | refuse
  | violation
  | ue
  deriving DecidableEq, Repr

/-- A key slot that a partition owns; 0 is no encryption (R87, R316). -/
def ownsKey (q : Partition) (k : Nat) : Bool :=
  k == 0 || (bitsAt q.pkeys 0 9 ≤ k && k < bitsAt q.pkeys 0 9 + bitsAt q.pkeys 16 10)

/-- A partition escape (R69). -/
def escapes (s : State) (p pa : Nat) : Bool :=
  let q := partOf s p
  match region pa with
  | .hbm => !inHbm q pa
  | .record => true
  | .vault n _ => !q.pgran.getLsbD (n / 16)
  | .core n _ => !q.pgran.getLsbD (n / 16)
  | .pctl r _ => r != p
  | .cap _ => false
  | .host => false
  | .reserved => true

/-- A table entry as a walk reads it, with the corrections made: from the owner's L1 where it holds the line dirty (R109), else from HBM. No leaf gives a key for tables: a sector is read under the key it was written with (log entry 11). -/
def tableEntry (s : State) (pa : Nat) : Option (Word × Nat) :=
  let l := lineAt pa
  let dirty (e : Nat × Core) : Bool := lineOwned e.2 l && (match findLine e.2 l with | some x => x.dirty | none => false)
  match (s.cores.find? dirty).bind (fun e => findLine e.2 l) with
  | some x => some (w64 (leNat ((x.bytes.drop (pa - l)).take 8)), 0)
  | none => (storeRead s.mem pa 8 (keyAt s.mem pa)).map (fun r => (w64 (leNat r.1), r.2))

/-- What a table entry of a level says: the next table, or how the walk ends (R86 to R88). -/
def entryNext (e : Word) (lv shift : Nat) : Walk ⊕ Nat :=
  if !e.getLsbD 0 then .inl .miss
  else if bitsAt e 61 3 ≠ 0 ∨ bitsAt e 6 2 ≠ 0 then .inl .bad
  else if e.getLsbD 1 then
    .inl (if lv = 3 ∨ bitsAt e 10 6 ≠ 0 ∨ bitsAt e 16 (shift - 16) ≠ 0 then .bad else .leaf e shift)
  else if lv = 0 ∨ bitsAt e 52 9 ≠ 0 ∨ bitsAt e 2 4 ≠ 0 then .inl .bad
  else
    let next := bitsAt e 8 44 * 256
    if lv ≠ 1 ∧ next % 4096 ≠ 0 then .inl .bad else .inr next

/-- The lowest address bit that a level indexes by (R86). -/
def levelShift (lv : Nat) : Nat := if lv = 3 then 39 else if lv = 2 then 30 else if lv = 1 then 21 else 16

/-- Physical address of the entry of an address in a level's table (R86). -/
def walkEntry (table va lv : Nat) : Nat :=
  table + va / 2 ^ levelShift lv % 2 ^ (if lv = 3 then 17 else if lv = 0 then 5 else 9) * 8

/-- The walk from a level down (R86 to R88), with the corrections made on the way (R91): level 3 first, `table` the physical address of the level's table. -/
def walkCounted (s : State) (q : Partition) (va : Nat) (table : Nat) : Nat → Walk × Nat
  | 0 => (.bad, 0)
  | lv + 1 =>
    let pa := walkEntry table va lv
    if !inHbm q pa then (.bad, 0)
    else
      match tableEntry s pa with
      | none => (.ue, 0)
      | some (e, k) =>
        match entryNext e lv (levelShift lv) with
        | .inl w => (w, k)
        | .inr next => let r := walkCounted s q va next lv; (r.1, k + r.2)

/-- How a walk ends. -/
def walkFrom (s : State) (q : Partition) (va table lv : Nat) : Walk := (walkCounted s q va table lv).1

/-- An entry of a list that holds a page of a context. -/
def pageIn (l : List TlbEntry) (p c va : Nat) : Option TlbEntry :=
  l.find? (fun e => e.part == p && e.ctx == c && e.va ≤ va && va < e.va + e.size)

/-- An entry of a core's TLB, or of its die's translation cache, that holds a page of a context (R89). -/
def tlbFind (s : State) (p c : Nat) (core : Option Nat) (va : Nat) : Option (Word × Nat) :=
  match core with
  | none => none
  | some n =>
    match pageIn (coreOf s n).tlb p c va with
    | some e => some (e.entry, Nat.log2 e.size)
    | none => (pageIn (tget [] s.dieXlat (n / 128)) p c va).map (fun e => (e.entry, Nat.log2 e.size))

/-- The physical address that a leaf gives an address (R87). -/
def leafPa (e : Word) (shift va : Nat) : Nat := bitsAt e 16 36 * 2 ^ 16 / 2 ^ shift * 2 ^ shift + va % 2 ^ shift

/-- The leaf that maps an address now, with its page size, through a core's TLB where it has the page (R89). -/
def leafOf (s : State) (p c : Nat) (core : Option Nat) (va : Nat) : Option (Word × Nat) :=
  match tlbFind s p c core va with
  | some r => some r
  | none =>
    match walkFrom s (partOf s p) va (ctxOf s p c).xroot 4 with
    | .leaf e sh => some (e, sh)
    | _ => none

/-- What a leaf allows (R87, R88), with the privilege rules of windows and partition control (R71, R316). -/
def leafAccess (s : State) (p : Nat) (e : Word) (shift va : Nat) (acc : Acc) (user : Bool) : Xl :=
  let pa := leafPa e shift va
  let key := bitsAt e 52 9
  let allowed := (match acc with | .read => e.getLsbD 2 | .write => e.getLsbD 3 | .fetch => e.getLsbD 4) && (!user || e.getLsbD 5)
  let host := hostBase ≤ pa
  if !allowed || !ownsKey (partOf s p) key || e.getLsbD 8 != decide host || escapes s p pa then .violation
  else if user && (match region pa with | .core _ off => sregOffset ≤ off | .pctl _ off => 0x100 ≤ off | _ => false) then .refuse
  else if e.getLsbD 9 && acc == .write then .wpw pa key
  else .ok pa key

/-- Translation of one address for a context of a partition, through a core's TLB where one is named (R86 to R89). -/
def translate (s : State) (p c : Nat) (core : Option Nat) (va : Word) (acc : Acc) (user : Bool) : Xl :=
  if bitsAt va 56 8 ≠ 0 then .refuse
  else
    match tlbFind s p c core va.toNat with
    | some (e, sh) => leafAccess s p e sh va.toNat acc user
    | none =>
      match walkFrom s (partOf s p) va.toNat (ctxOf s p c).xroot 4 with
      | .leaf e sh => leafAccess s p e sh va.toNat acc user
      | .miss => .miss
      | .bad => .violation
      | .ue => .ue

/-! Virtual ranges, read and written in pieces that one page holds. -/

/-- Why a range could not be accessed, and where. -/
inductive VErr where
  | miss (va : Word)
  | wpw (va : Word)
  | fault (cause : Byte) (freeze : Bool) (va : Word)
  /-- an accumulator row of a busy tile, which the access waits for (R71) -/
  | busy
  deriving DecidableEq, Repr

/-- Who accesses a range: partition, context, the core whose TLB it uses, and its privilege. -/
structure Who where
  p : Nat
  c : Nat
  core : Option Nat := none
  user : Bool := false
  deriving DecidableEq, Repr

def xlErr (va : Word) : Xl → VErr
  | .ok _ _ => .miss va
  | .miss => .miss va
  | .wpw _ _ => .wpw va
  | .refuse => .fault cXlatPerm false va
  | .violation => .fault cXlatPerm true va
  | .ue => .fault cDataUe false va

/-- Bytes from an address to the end of its 64 KiB page, at most len. -/
def pageRun (va len : Nat) : Nat := min len (0x10000 - va % 0x10000)

/-- Of a piece of a range at a physical address, the part that one rule of privilege holds for: a user's access to the mailboxes ends with them (R316). -/
def ruleRun (w : Who) (pa k : Nat) : Nat :=
  match region pa with
  | .pctl _ off => if w.user && off < 0x100 then min k (0x100 - off) else k
  | _ => k

/-! What a walk does beside its result (R78, R89, R91, R97). -/

/-- A core's TLB with one entry more: the oldest of its size class leaves when the class is full (R89; log entry 6). -/
def addEntry (l : List TlbEntry) (e : TlbEntry) : List TlbEntry :=
  let cls (x : TlbEntry) : Bool := (x.size == 0x10000) == (e.size == 0x10000)
  let cap := if e.size == 0x10000 then 2048 else 64
  let same := l.filter cls
  (if cap ≤ same.length then (match same.head? with | some v => l.erase v | none => l) else l) ++ [e]

/-- A die's translation cache with one entry more: the oldest leaves when all 65,536 are taken (R89; log entry 6). -/
def addDieEntry (l : List TlbEntry) (e : TlbEntry) : List TlbEntry := (if 65536 ≤ l.length then l.drop 1 else l) ++ [e]

/-- A page's leaf enters the TLB of a core. -/
def fillTlb (s : State) (n : Nat) (e : TlbEntry) : State := modCore s n (fun k => { k with tlb := addEntry k.tlb e })

/-- The lines that hold the table entries of a walk, which reads them through L2, are recalled from their owners (R78, R86, R109). -/
def walkRecalls (s : State) (q : Partition) (va : Nat) (table : Nat) : Nat → State
  | 0 => s
  | lv + 1 =>
    let pa := walkEntry table va lv
    if !inHbm q pa then s
    else
      let s := recallLine s none pa 8
      match tableEntry s pa with
      | none => s
      | some (e, _) =>
        match entryNext e lv (levelShift lv) with
        | .inl _ => s
        | .inr next => walkRecalls s q va next lv

/-- A walk is made for an access of a context: owned lines of its tables are recalled, and its corrections counted. -/
def walkMade (s : State) (p c : Nat) (va : Word) : State :=
  let q := partOf s p
  countCorrected (walkRecalls s q va.toNat (ctxOf s p c).xroot 4) p (walkCounted s q va.toNat (ctxOf s p c).xroot 4).2

/-- Who must walk to translate an address: neither the core's TLB nor its die's translation cache has the page, or no core is named. -/
def mustWalk (s : State) (w : Who) (va : Word) : Bool := bitsAt va 56 8 == 0 && (tlbFind s w.p w.c w.core va.toNat).isNone

/-- An uncorrectable error strikes the table reads of a walk on the mesh or the seam (R17): a free value (log entry 12). -/
def walkStruck (s : State) (w : Who) (va : Word) : Bool := mustWalk s w va && transitError s.tick

/-- THE WALK OF AN ACCESS (R89, R97): an access whose page its core's TLB does not hold takes it from the die's translation cache, and walks where that has not got it either; a walk that ends in a leaf fills both, so that later misses of the die to the page are served by the one walk. What names no core fills nothing. -/
def walked (s : State) (w : Who) (va : Word) : State :=
  if bitsAt va 56 8 ≠ 0 then s
  else match w.core with
    | none => walkMade s w.p w.c va
    | some n =>
      if (pageIn (coreOf s n).tlb w.p w.c va.toNat).isSome then s
      else match pageIn (tget [] s.dieXlat (n / 128)) w.p w.c va.toNat with
        | some e => fillTlb s n e
        | none =>
          let t := walkMade s w.p w.c va
          match walkFrom s (partOf s w.p) va.toNat (ctxOf s w.p w.c).xroot 4 with
          | .leaf l sh =>
            let e : TlbEntry := { part := w.p, ctx := w.c, va := va.toNat / 2 ^ sh * 2 ^ sh, size := 2 ^ sh, entry := l }
            fillTlb { t with dieXlat := tset t.dieXlat (n / 128) (addDieEntry (tget [] t.dieXlat (n / 128)) e) } n e
          | _ => t

/-- The pages of a range, as their first address within it. -/
def pageStarts (va : Word) (len : Nat) : List Word :=
  (List.range (if len = 0 then 0 else (va.toNat % 65536 + len - 1) / 65536 + 1)).map (fun i =>
    if i = 0 then va else va - w64 (va.toNat % 65536) + w64 (65536 * i))

/-- The pages of a range are translated, with the walks that takes. -/
def walkedRange (s : State) (w : Who) (va : Word) (len : Nat) : State := (pageStarts va len).foldl (fun s a => walked s w a) s

/-! The retry ring (R90, R301). -/

/-- Entries posted and not completed. -/
def ringPending (q : Partition) : Nat := (q.ring.filter (fun e => e.2.pend)).length

/-- The 32 bytes of a ring entry (R301). -/
def ringBytes (e : RingEntry) : List Byte :=
  leBytes 8 e.va.toNat ++ [BitVec.ofNat 8 e.kind, BitVec.ofNat 8 ((if e.pend then 1 else 0) + (if e.write then 2 else 0)),
    BitVec.ofNat 8 (e.sid + 8 * e.slot + 16 * e.ctx), BitVec.ofNat 8 e.queue]
    ++ leBytes 2 e.core ++ leBytes 2 e.node ++ leBytes 4 e.cmd.toNat ++ leBytes 4 e.behind ++ leBytes 4 e.seq.toNat ++ zeros 4

/-- The bytes of ring slot i written where RTRING.BASE maps in a context (log entry 16). -/
def ringStore (s : State) (p c i : Nat) : State :=
  match tfind (partOf s p).ring i with
  | none => s
  | some e =>
    let va := ((partOf s p).rtring &&& 0x00FFFFFFFFFE0000#64) + w64 (32 * i)
    match translate s p c none va .write false with
    | .ok pa key => (physWrite (walkMade s p c va) pa key (ringBytes e)).1
    | _ => walkMade s p c va

/-- The first ring slot after the last one posted whose PEND is 0 (R301). -/
def ringSlot (q : Partition) : Option Nat :=
  ((List.range 4096).map (fun i => (q.ringLast + 1 + i) % 4096)).find? (fun i =>
    match tfind q.ring i with
    | some e => !e.pend
    | none => true)

/-- An entry posted; nothing where the ring is disabled or full (R90). -/
def ringPost (s : State) (p c : Nat) (e : RingEntry) : Option (State × Nat) :=
  let q := partOf s p
  if !q.rtring.getLsbD 0 || 4096 ≤ ringPending q then none
  else
    match ringSlot q with
    | none => none
    | some i =>
      let e := { e with pend := true, seq := q.ringSeq, behind := 0 }
      let s := modPart s p (fun q => { q with ring := tset q.ring i e, ringLast := i, ringSeq := q.ringSeq + 1#32 })
      some (ringStore s p c i, i)

/-- A ring entry changed, and its bytes. -/
def ringMod (s : State) (p c i : Nat) (f : RingEntry → RingEntry) : State :=
  match tfind (partOf s p).ring i with
  | none => s
  | some e => ringStore (modPart s p (fun q => { q with ring := tset q.ring i (f e) })) p c i

/-! Ranges read and written. -/

/-- len bytes at a virtual address; the fuel is at least the number of pieces. -/
def vaReadFrom (w : Who) : Nat → State → Word → Nat → State × Except VErr (List Byte)
  | 0, s, _, _ => (s, .ok [])
  | fuel + 1, s, va, len =>
    if len = 0 then (s, .ok [])
    else
      match translate s w.p w.c w.core va .read w.user with
      | .ok pa key =>
        let k := ruleRun w pa (pageRun va.toNat len)
        let (s, r) := physRead (walked s w va) w.p pa k key
        match r with
        | .error c => (s, .error (.fault c false va))
        | .ok l =>
          let (s, r) := vaReadFrom w fuel s (va + w64 k) (len - k)
          match r with
          | .ok l' => (s, .ok (l ++ l'))
          | .error e => (s, .error e)
      | x => (walked s w va, .error (xlErr va x))

def vaRead (s : State) (w : Who) (va : Word) (len : Nat) : State × Except VErr (List Byte) :=
  vaReadFrom w (len / 0x10000 + 3) s va len

/-- Every page of a range translates for an access. -/
def vaCheckFrom (w : Who) (acc : Acc) (s : State) : Nat → Word → Nat → Option VErr
  | 0, _, _ => none
  | fuel + 1, va, len =>
    if len = 0 then none
    else
      match translate s w.p w.c w.core va acc w.user with
      | .ok pa _ =>
        let k := ruleRun w pa (pageRun va.toNat len)
        vaCheckFrom w acc s fuel (va + w64 k) (len - k)
      | x => some (xlErr va x)

def vaCheck (s : State) (w : Who) (acc : Acc) (va : Word) (len : Nat) : Option VErr :=
  vaCheckFrom w acc s (len / 0x10000 + 3) va len

/-- Bytes written at a virtual address, page by page. DESIGN CHOICE (log 90): where a page fails, those before it are written. -/
def vaWriteFrom (w : Who) : Nat → State → Word → List Byte → State × Except VErr Unit
  | 0, s, _, _ => (s, .ok ())
  | fuel + 1, s, va, l =>
    if l.isEmpty then (s, .ok ())
    else
      match translate s w.p w.c w.core va .write w.user with
      | .ok pa key =>
        let k := ruleRun w pa (pageRun va.toNat l.length)
        match physWrite (walked s w va) pa key (l.take k) with
        | (s, .error c) => (s, .error (.fault c false va))
        | (s, .ok _) => vaWriteFrom w fuel s (va + w64 k) (l.drop k)
      | x => (walked s w va, .error (xlErr va x))

def vaWrite (s : State) (w : Who) (va : Word) (l : List Byte) : State × Except VErr Unit :=
  vaWriteFrom w (l.length / 0x10000 + 3) s va l

/-- The cause byte of a failed access; a miss is XLAT_MISS (R26, R42, R157). DESIGN CHOICE (log 87): so is a destination page under WPW, where the access does not park (R187). -/
def causeOf : VErr → Byte
  | .miss _ => cXlatMiss
  | .wpw _ => cXlatMiss
  | .fault c _ _ => c
  | .busy => cXlatMiss

def addrOf : VErr → Word
  | .miss a => a
  | .wpw a => a
  | .fault _ _ a => a
  | .busy => 0#64

end Sys2Proof.Machine
end

