-- ==== Sys2Proof/Machine/Park.lean ====
section
/-! DEFINITION. How an engine access ends: performed, parked on the retry ring, or failed (R90, R228, R295, R303), and reads and writes of an engine's spaces (R224). -/

namespace Sys2Proof.Machine

open Sys2Proof.Config

/-- What performing an operation gives. -/
inductive Perf where
  /-- it is performed -/
  | done (s : State)
  /-- it leaves its queue and waits behind a ring entry (R90) -/
  | park (s : State) (o : Op)
  /-- it fails, and its stream will raise the cause (R295) -/
  | fault (s : State) (f : EFault)
  /-- it suspends the job (R229): the operation, the cause, the failing element and its index or address -/
  | suspend (s : State) (o : Op) (cause : Byte) (element : Nat) (value : Word)
  /-- it waits where it stands, with what it has done (R71) -/
  | hold (s : State) (o : Op)

/-- Through whom an operation accesses memory: its translation, its core, its slot and node, and its queue. -/
structure Via where
  who : Who
  n : Nat
  slot : Nat
  node : Nat
  q : Queue
  sid : Sid
  /-- an intake queue's access (R249) -/
  intake : Bool := false

/-- Whose translation a job's access uses (R88): user privilege, but for the C stream in its supervisor handler (R293). -/
def jobWho (b : Job) (n : Nat) : Who := { p := b.part, c := b.ctx, core := some n, user := true }

def jobVia (s : State) (n j : Nat) (q : Queue) (t : Sid) : Via :=
  let b := jobOf s n j
  { who := jobWho b n, n := n, slot := j, node := b.node, q := q, sid := t }

/-- An entry was posted by an access of a queue: by its fields, or, for a PROBE entry, by a Firn instruction that waits in the queue. -/
def postedBy (s : State) (v : Via) (i : Nat) (e : RingEntry) : Bool :=
  if e.kind == 3 then v.q == .sq && e.ctx == v.who.c && (jobOf s v.n v.slot).sq.any (fun o => o.parked == i + 1)
  else (e.kind == 1 || e.kind == 2) && e.core == v.n && e.slot == v.slot && e.ctx == v.who.c && e.queue == queueBit v.q && e.node == v.node && e.intake == v.intake

/-- The pending ring entry behind which an access to a page parks, if any (R90). Behind one whose completion has begun nothing parks any more: what the queue sends then is translated anew, and its place in the queue is behind the accesses that are being completed (log entry 51). -/
def ringBehind (s : State) (v : Via) (va : Word) : Option Nat :=
  ((partOf s v.who.p).ring.find? (fun e => e.2.pend && e.2.filling == 0 && e.2.va.toNat / 65536 == va.toNat / 65536 && postedBy s v e.1 e.2)).map (·.1)

/-- The entry for an access (R301). -/
def ringFor (v : Via) (va : Word) (kind : Nat) (write : Bool) (cmd : BitVec 32) : RingEntry :=
  { va := va, kind := kind, pend := true, write := write, sid := sidNum v.sid, slot := v.slot, ctx := v.who.c, queue := queueBit v.q
    core := v.n, node := v.node, cmd := cmd, seq := 0#32, intake := v.intake }

/-- An access goes behind the pending entry of its page, or posts one; nothing where the ring is disabled or full (R90). -/
def parkAt (s : State) (v : Via) (va : Word) (kind : Nat) (write : Bool) (cmd : BitVec 32) : Option (State × Nat) :=
  match ringBehind s v va with
  | some i => some (ringMod s v.who.p v.who.c i (fun e => { e with behind := e.behind + 1 }), i)
  | none => ringPost s v.who.p v.who.c (ringFor v va kind write cmd)

/-- A page of the range for which an entry is pending. -/
def blockedPage (s : State) (v : Via) (va : Word) (len : Nat) : Option Word :=
  (pageStarts va len).find? (fun a => (ringBehind s v a).isSome)

/-- A space's size (R72, R74). -/
def spaceSize : Space → Nat
  | .vault => vaultSize
  | .scratch => scratchSize
  | .va => 2 ^ 56

/-- A piece of a range lies in an accumulator row of a busy tile (R71). -/
def rangeBusy (s : State) (w : Who) (acc : Acc) (va : Word) (len : Nat) : Bool :=
  (pageStarts va len).any (fun a =>
    match translate s w.p w.c w.core a acc w.user with
    | .ok pa _ => accBusy s pa (min (pageRun a.toNat len) (va.toNat + len - a.toNat))
    | _ => false)

/-- A piece of a range lies in HBM. -/
def rangeHbm (s : State) (w : Who) (va : Word) (len : Nat) : Bool :=
  (pageStarts va len).any (fun a =>
    match translate s w.p w.c w.core a .read false with
    | .ok pa _ => region pa == .hbm
    | _ => false)

/-- len bytes of a space at an exact address (R224, R225). An access of a queue whose page has a pending entry counts as a miss. -/
def spaceRead (s : State) (v : Via) (sp : Space) (a : Int) (len : Nat) : State × Except VErr (List Byte) :=
  if a < 0 ∨ (spaceSize sp : Int) < a + len then (s, .error (.fault cXlatPerm false (if sp == Space.va then BitVec.ofInt 64 a else 0#64)))
  else
    let x := a.toNat
    match sp with
    | .scratch => (s, .ok (spRead s v.n x len))
    | .vault =>
      let (s, r) := physRead s v.who.p (vaultAt v.n + x) len 0
      (s, match r with | .ok l => .ok l | .error c => .error (.fault c false 0#64))
    | .va =>
      match blockedPage s v (w64 x) len with
      | some va => (s, .error (.miss va))
      | none =>
        if rangeBusy s v.who .read (w64 x) len then (s, .error .busy) else vaRead s v.who (w64 x) len

/-- Bytes written into a space at an exact address. -/
def spaceWrite (s : State) (v : Via) (sp : Space) (a : Int) (l : List Byte) : State × Except VErr Unit :=
  if a < 0 ∨ (spaceSize sp : Int) < a + l.length then (s, .error (.fault cXlatPerm false (if sp == Space.va then BitVec.ofInt 64 a else 0#64)))
  else
    let x := a.toNat
    match sp with
    | .scratch => (spWrite s v.n x l, .ok ())
    | .vault =>
      match physWrite s (vaultAt v.n + x) 0 l with
      | (s, .ok _) => (s, .ok ())
      | (s, .error c) => (s, .error (.fault c false 0#64))
    | .va =>
      match blockedPage s v (w64 x) l.length with
      | some va => (s, .error (.miss va))
      | none =>
        match vaCheck s v.who .write (w64 x) l.length with
        | some e => (walkedRange s v.who (w64 x) l.length, .error e)
        | none => if rangeBusy s v.who .write (w64 x) l.length then (s, .error .busy) else vaWrite s v.who (w64 x) l

/-! Recalls (R78). -/

/-- Owned lines of the package. -/
def ownedCount (s : State) : Nat := s.cores.foldl (fun z e => e.2.owned.foldl (fun z r => z + r.lines.length) z) 0

/-- The rotations by which recalls delayed accesses made between two states: 0 where none was recalled (R78); otherwise from 1 to what the 4 bits of an m can say (R243; log entry 7). -/
def recallM (s0 s : State) : Nat := if ownedCount s < ownedCount s0 then 1 + recallRaw s0.tick % 15 else 0

/-- A status word whose M is at least some number of rotations (R78, R300). -/
def raiseM (w : Word) (m : Nat) : Word :=
  if (w.extractLsb' 44 4).toNat < m % 16 then (w &&& ~~~0xF00000000000#64) ||| w64 (m % 16 * 2 ^ 44) else w

/-- An operation reports the recalls of its accesses (R78). -/
def recallMark (s0 : State) (o0 : Op) : Perf → Perf
  | .fault s f => .fault s { f with status := raiseM f.status (max o0.rotations (recallM s0 s)) }
  | .park s o => .park s { o with rotations := max o.rotations (recallM s0 s) }
  | .hold s o => .hold s { o with rotations := max o.rotations (recallM s0 s) }
  | .suspend s o c e v => .suspend s { o with rotations := max o.rotations (recallM s0 s) } c e v
  | .done s => .done s

/-- The engine status word of a failing unit (R300). -/
def unitWord (cause : Byte) (m detail : Nat) : Word := w64 (2 ^ 63 + cause.toNat * 2 ^ 48 + m % 16 * 2 ^ 44 + detail % 2 ^ 32)

/-- What becomes of an operation whose unit i could not be accessed: it waits, parks, or fails with the cause; a miss without a ring place suspends the A stream's job (R229) and is XLAT_MISS elsewhere (R90). `hbm`: a request of it has reached HBM, so that the status word reports an m (R81, R300). -/
def endBy (s : State) (v : Via) (o : Op) (i : Nat) (write hbm : Bool) (e : VErr) : Perf :=
  let o' := { o with done := i }
  let m : Nat := if hbm then servedM s.tick else 0
  let miss (va : Word) (kind : Nat) : Perf :=
    match parkAt s v va kind write o.cmd with
    | some (s, k) => .park s { o' with parked := k + 1, filled := 0 }
    | none =>
      if o.sid == .a then .suspend s o' cXlatMiss i va
      else .fault s { cause := cXlatMiss, cmd := o.cmd, status := unitWord cXlatMiss m i, faddr := va }
  match e with
  | .miss va => miss va 1
  | .wpw va => miss va 2
  | .busy => .hold s o'
  | .fault c fz va => .fault s { cause := c, cmd := o.cmd, status := unitWord c m i, faddr := va, freeze := fz }

/-- A range of a space, on one side of a unit of an engine operation. -/
structure Side where
  space : Space
  at' : Int
  len : Nat

/-- Some byte of a side lies in HBM, so that its request is one of the calendar's (R80, R81). -/
def sideHbm (s : State) (v : Via) (x : Side) : Bool := x.space == .va && 0 ≤ x.at' && rangeHbm s v.who (w64 x.at'.toNat) x.len

/-- A request of an operation has reached HBM when its unit i fails (R81, R300): one of an earlier unit, the read of a unit whose write fails, or the very access, where what it brings is uncorrectable. `rd` and `wr` give the sides of a unit that it reads and writes. -/
def reachedHbm (s : State) (v : Via) (rd wr : Nat → List Side) (i : Nat) (write : Bool) (e : VErr) : Bool :=
  let hbm (l : List Side) : Bool := l.any (sideHbm s v)
  let ue : Bool := match e with | .fault c _ _ => c == cDataUe | _ => false
  (List.range i).any (fun k => hbm (rd k) || hbm (wr k))
    || (if write then hbm (rd i) || (ue && hbm (wr i)) else ue && hbm (rd i))

end Sys2Proof.Machine
end

