-- ==== Sys2Proof/Machine/Access.lean ====
section
/-! DEFINITION. Address patterns and the window generator, and the A engine (R224 to R234). -/

namespace Sys2Proof.Machine

open Sys2Proof.Config

/-! Patterns (R224, R225). -/

def patElems (p : Pattern) : Nat := p.dims.foldl (fun z d => z * d.count) 1

/-- The displacement of element e, dimension 0 innermost (R225). -/
def dimOffset : List Dim → Nat → Int
  | [], _ => 0
  | d :: r, e => (e % d.count : Nat) * d.stride + dimOffset r (e / d.count)

/-- addr(e), exact (R225). -/
def patAddr (p : Pattern) (e : Nat) : Int := p.base.toNat + dimOffset p.dims e

/-- Bound c_0 of the indices of a gather or scatter (R227). -/
def patBound (p : Pattern) : Nat := (p.dims.headD { count := 0, stride := 0 }).count

/-- The pattern that an operation of the AQ names (R224). -/
def opPattern : OpKind → Option Nat
  | .astrm _ _ p _ _ _ => some p
  | .astro _ _ p _ _ _ => some p
  | .agath _ _ _ _ p _ _ _ => some p
  | .ascat _ _ _ _ p _ _ _ => some p
  | _ => none

/-- A scratchpad block of 32 bytes at an offset: alignment, then extent (R224, R231; the order is a DESIGN CHOICE, log 91). -/
def block32 (off : Nat) : Option Byte :=
  if off % 32 ≠ 0 then some cAlign else if scratchSize < off + 32 then some cXlatPerm else none

/-- An A-stream instruction. -/
def accIssue (words : Nat) (reads : List Reg) (s : State) (body : State → Nat → Nat → Job → Res) : Result :=
  issue words { streams := [.a], reads := reads } s (fun s g =>
    match g with
    | .mgmt => raise cIllegal
    | .stream n j _ => body s n j (jobOf s n j))

/-- The A stream of a job as an agent. -/
def aAgent (n j : Nat) : Agent := .stream n j .a

/-- apcfg (R224). -/
def execApcfg (p : Pat) (a b : Reg) (space : Space) (lge : BitVec 4) (dims : BitVec 2) (s : State) : Result :=
  accIssue 2 [a, b] s (fun s n j job =>
    let off := off21 (reg s (aAgent n j) b)
    match block32 off with
    | some c => raise c
    | none =>
      if job.aq.any (fun o => opPattern o.kind == some p.toNat) then .wait s .waiting
      else
        let l := spRead s n off 32
        let ds : List Dim := (List.range (dims.toNat + 1)).map (fun k =>
          { count := fieldAt l (8 * k) 4, stride := toInt 32 (fieldAt l (8 * k + 4) 4) })
        if ds.any (fun d => d.count == 0) then raise cIllegal
        else
          let pat : Pattern := { base := reg s (aAgent n j) a, lge := lge.toNat, space := space, dims := ds }
          .ok (modJob s n j (fun b => { b with patterns := tset b.patterns p.toNat pat })) .seq)

/-- AQ operations that have not left the queue (R90, R228). -/
def aqCount (b : Job) : Nat := (b.aq.filter (fun o => o.parked == 0)).length

/-- An operation enters the AQ, or waits while 64 are outstanding (R228). -/
def aqPut (s : State) (n j : Nat) (k : OpKind) (names : List Handle) : Res :=
  if 64 ≤ aqCount (jobOf s n j) then .wait s .waiting else .ok (enqueue s (aAgent n j) .aq k names) .seq

/-- A data queue of an A instruction: KIND data, slots of E bytes, n within its count (R228). -/
def aQueue (s : State) (n j : Nat) (q : Handle) (e : QEnd) (kind size count : Nat) : Option QDesc :=
  match queueFor s (aAgent n j) q e with
  | some d => if d.kind = kind ∧ qSize d = size ∧ count ≤ qCount d then some d else none
  | none => none

/-- The cursor of a pattern moved on by n elements, mod P (R225, R226). -/
def moveCursor (p : Pattern) (n : Nat) : Pattern := { p with cursor := (p.cursor + n) % patElems p }

/-- astrm and astro (R226). -/
def streamOp (load : Bool) (q : Handle) (pn : Pat) (n : BitVec 3) (s : State) : Result :=
  accIssue 1 [] s (fun s c j job =>
    let k := n.toNat + 1
    match tfind job.patterns pn.toNat with
    | none => raise cIllegal
    | some p =>
      match aQueue s c j q (if load then .producer else .consumer) 0 (2 ^ p.lge) k with
      | none => raise cQueue
      | some d =>
        if (if load then qFree d else qFilled d) < k then .wait s (.onQueue q k load)
        else
          let kind : OpKind := if load then .astrm q d.tail pn.toNat p p.cursor k else .astro q d.head pn.toNat p p.cursor k
          match aqPut s c j kind [q] with
          | .ok s f => .ok (modJob s c j (fun b => { b with patterns := tset b.patterns pn.toNat (moveCursor p k) })) f
          | r => r)

/-- astrm (R226). -/
def execAstrm (q : Handle) (p : Pat) (n : BitVec 3) (s : State) : Result := streamOp true q p n s
/-- astro (R226). -/
def execAstro (q : Handle) (p : Pat) (n : BitVec 3) (s : State) : Result := streamOp false q p n s

/-- agath and ascat (R227). -/
def indexedOp (gather : Bool) (q qi : Handle) (pn : Pat) (n : BitVec 3) (s : State) : Result :=
  accIssue 1 [] s (fun s c j job =>
    let k := n.toNat + 1
    match tfind job.patterns pn.toNat with
    | none => raise cIllegal
    | some p =>
      match aQueue s c j q (if gather then .producer else .consumer) 0 (2 ^ p.lge) k, aQueue s c j qi .consumer 1 4 k with
      | some d, some e =>
        if (if gather then qFree d else qFilled d) < k then .wait s (.onQueue q k gather)
        else if qFilled e < k then .wait s (.onQueue qi k false)
        else aqPut s c j (if gather then .agath q qi d.tail e.head pn.toNat p 0 k else .ascat q qi d.head e.head pn.toNat p 0 k) [q, qi]
      | _, _ => raise cQueue)

/-- agath (R227). -/
def execAgath (q qi : Handle) (p : Pat) (n : BitVec 3) (s : State) : Result := indexedOp true q qi p n s
/-- ascat (R227). -/
def execAscat (q qi : Handle) (p : Pat) (n : BitVec 3) (s : State) : Result := indexedOp false q qi p n s

/-- aprf (R230): a prefetch into L2, of which no rule gives the program any sight. -/
def execAprf (a : Reg) (p : Pat) (s : State) : Result :=
  accIssue 1 [a] s (fun s _ _ job =>
    match tfind job.patterns p.toNat with
    | none => raise cIllegal
    | some _ => .ok s .seq)

/-! The window generator (R231 to R234). -/

/-- An output extent (R232). -/
def outExtent (h p q d k st : Nat) : Nat := ((((h + p + q : Nat) : Int) - d * (k - 1 : Nat) - 1) / (st : Int) + 1).toNat

def winOH (w : Window) : Nat := outExtent w.h w.pt w.pb w.dh w.kh w.sh
def winOW (w : Window) : Nat := outExtent w.w w.pl w.pr w.dw w.kw w.sw
def winPH (w : Window) : Nat := ceilDiv w.kh 16
def winPW (w : Window) : Nat := ceilDiv w.kw 16
/-- Rows and columns of taps of the selected pass (R232). -/
def winTh (w : Window) : Nat := min 16 (w.kh - 16 * (w.pass / winPW w))
def winTw (w : Window) : Nat := min 16 (w.kw - 16 * (w.pass % winPW w))
def winSlots (w : Window) : Nat := winTh w * winTw w * winOH w * winOW w

/-- The window that a descriptor of 32 bytes gives, where its fields are in range (R231). -/
def parseWindow (l : List Byte) (space : Space) (lge : Nat) (pad : List Byte) : Option Window :=
  let f (o n : Nat) : Nat := fieldAt l o n
  let w : Window := { base := w64 (f 0 8), space := space, lge := lge, h := f 8 2, w := f 10 2, c := f 12 2, kh := f 14 1, kw := f 15 1
                      sh := f 16 1, sw := f 17 1, dh := f 18 1, dw := f 19 1, pt := f 20 1, pb := f 21 1, pl := f 22 1, pr := f 23 1
                      pitch := f 24 4, pad := pad }
  let ce := w.c * 2 ^ lge
  if w.base.toNat < spaceSize space ∧ 1 ≤ w.h ∧ 1 ≤ w.w ∧ 1 ≤ w.c ∧ w.c ≤ 4096 ∧ 1 ≤ w.kh ∧ 1 ≤ w.kw ∧ 1 ≤ w.sh ∧ 1 ≤ w.sw ∧ 1 ≤ w.dh ∧ 1 ≤ w.dw
      ∧ w.pitch % ce = 0 ∧ w.w * ce ≤ w.pitch ∧ f 28 4 = 0 then some w
  else none

/-- awcfg (R231). -/
def execAwcfg (d a b : Reg) (space : Space) (lge : BitVec 2) (s : State) : Result :=
  accIssue 2 [a, b] s (fun s n j _ =>
    let off := off21 (reg s (aAgent n j) a)
    match block32 off with
    | some c => raise c
    | none =>
      let pad := leBytes (2 ^ lge.toNat) (reg s (aAgent n j) b).toNat
      match parseWindow (spRead s n off 32) space lge.toNat pad with
      | none => raise cIllegal
      | some w => .ok (setReg (modJob s n j (fun b => { b with window := some w })) (aAgent n j) d (w64 (winOH w * winOW w))) .seq)

/-- awpass (R233). -/
def execAwpass (d a : Reg) (s : State) : Result :=
  accIssue 1 [a] s (fun s n j job =>
    match job.window with
    | none => raise cIllegal
    | some w =>
      let p := (reg s (aAgent n j) a).toNat
      if winPH w * winPW w ≤ p then .ok (setReg s (aAgent n j) d (-1#64)) .seq
      else
        let w := { w with pass := p, cursor := 0 }
        .ok (setReg (modJob s n j (fun b => { b with window := some w })) (aAgent n j) d (w64 (winSlots w))) .seq)

/-- awin (R234). -/
def execAwin (q : Handle) (n : BitVec 3) (s : State) : Result :=
  accIssue 1 [] s (fun s c j job =>
    let k := n.toNat + 1
    match job.window with
    | none => raise cIllegal
    | some w =>
      match aQueue s c j q .producer 0 (w.c * 2 ^ w.lge) k with
      | none => raise cQueue
      | some d =>
        if winSlots w = 0 then .ok s .seq
        else if qFree d < k then .wait s (.onQueue q k true)
        else
          match aqPut s c j (.awin q d.tail w w.cursor k) [q] with
          | .ok s f => .ok (modJob s c j (fun b => { b with window := some { w with cursor := (w.cursor + k) % winSlots w } })) f
          | r => r)

/-! Performance of A operations (R225 to R228, R232). -/

/-- Alignment of an element to min(E, 64) (R225). -/
def misaligned (a : Int) (lge : Nat) : Bool := a % (min (2 ^ lge) 64 : Nat) ≠ 0

/-- ALIGN at an element. -/
def alignErr (sp : Space) (a : Int) : VErr := .fault cAlign false (if sp == Space.va then BitVec.ofInt 64 a else 0#64)

/-- Element bytes at an address of a pattern's space. -/
def elemRead (s : State) (n j : Nat) (p : Pattern) (a : Int) : State × Except VErr (List Byte) :=
  if misaligned a p.lge then (s, .error (alignErr p.space a)) else spaceRead s (jobVia s n j .aq .a) p.space a (2 ^ p.lge)

def elemWrite (s : State) (n j : Nat) (p : Pattern) (a : Int) (l : List Byte) : State × Except VErr Unit :=
  if misaligned a p.lge then (s, .error (alignErr p.space a)) else spaceWrite s (jobVia s n j .aq .a) p.space a l

/-- Why element i of an A operation was not done. -/
inductive AStop where
  | err (write : Bool) (e : VErr)
  | index (x : Nat)
  deriving DecidableEq, Repr

/-- Index i of an indexed operation: none for a pad (R227). -/
def indexAt (s : State) (n j : Nat) (qi : Handle) (islot i : Nat) : Option Nat :=
  let d := descOf s n j qi
  let x := fieldAt (spRead s n (qSlot d (islot + i)) 4) 0 4
  if x = 0xFFFFFFFF then none else some x

/-- The element address of slot k of a window; nothing where it lies in the padding (R232). -/
def windowAddr (w : Window) (k : Nat) : Option Int :=
  let np := winOH w * winOW w
  let tau := k / np
  let pos := k % np
  let kh := 16 * (w.pass / winPW w) + tau / winTw w
  let kw := 16 * (w.pass % winPW w) + tau % winTw w
  let iy : Int := (pos / winOW w * w.sh : Nat) - (w.pt : Int) + (kh * w.dh : Nat)
  let ix : Int := (pos % winOW w * w.sw : Nat) - (w.pl : Int) + (kw * w.dw : Nat)
  if 0 ≤ iy ∧ iy < w.h ∧ 0 ≤ ix ∧ ix < w.w then some (w.base.toNat + iy * w.pitch + ix * (w.c * 2 ^ w.lge : Nat)) else none

/-- One window slot of k (R232): its bytes, or the failure. -/
def windowSlot (s : State) (n j : Nat) (w : Window) (k : Nat) : State × Except VErr (List Byte) :=
  match windowAddr w k with
  | some a => if misaligned a w.lge then (s, .error (alignErr w.space a)) else spaceRead s (jobVia s n j .aq .a) w.space a (w.c * 2 ^ w.lge)
  | none => (s, .ok ((List.range w.c).flatMap (fun _ => w.pad)))

/-- Element i of an A operation. -/
def aElem (s : State) (n j : Nat) (k : OpKind) (i : Nat) : State × Except AStop Unit :=
  let put (s : State) (q : Handle) (slot : Nat) (l : List Byte) : State := spWrite s n (qSlot (descOf s n j q) (slot + i)) l
  let get (s : State) (q : Handle) (slot len : Nat) : List Byte := spRead s n (qSlot (descOf s n j q) (slot + i)) len
  match k with
  | .astrm q slot _ p start _ =>
    match elemRead s n j p (patAddr p ((start + i) % patElems p)) with
    | (s, .ok l) => (put s q slot l, .ok ())
    | (s, .error e) => (s, .error (.err false e))
  | .astro q slot _ p start _ =>
    match elemWrite s n j p (patAddr p ((start + i) % patElems p)) (get s q slot (2 ^ p.lge)) with
    | (s, .ok _) => (s, .ok ())
    | (s, .error e) => (s, .error (.err true e))
  | .agath q qi slot islot _ p _ _ =>
    match indexAt s n j qi islot i with
    | none => (put s q slot (zeros (2 ^ p.lge)), .ok ())
    | some x =>
      if patBound p ≤ x then (s, .error (.index x))
      else match elemRead s n j p (p.base.toNat + x * 2 ^ p.lge : Nat) with
        | (s, .ok l) => (put s q slot l, .ok ())
        | (s, .error e) => (s, .error (.err false e))
  | .ascat q qi slot islot _ p _ _ =>
    match indexAt s n j qi islot i with
    | none => (s, .ok ())
    | some x =>
      if patBound p ≤ x then (s, .error (.index x))
      else match elemWrite s n j p (p.base.toNat + x * 2 ^ p.lge : Nat) (get s q slot (2 ^ p.lge)) with
        | (s, .ok _) => (s, .ok ())
        | (s, .error e) => (s, .error (.err true e))
  | .awin q slot w start _ =>
    match windowSlot s n j w ((start + i) % winSlots w) with
    | (s, .ok l) => (put s q slot l, .ok ())
    | (s, .error e) => (s, .error (.err false e))
  | _ => (s, .ok ())

/-- Where the memory side of element i of an A operation lies; nothing for a pad and for an index beyond the bound, neither of which makes a request (R225 to R227, R232). -/
def aSide (s : State) (n j : Nat) (k : OpKind) (i : Nat) : List Side :=
  let elem (p : Pattern) (a : Int) : List Side := [{ space := p.space, at' := a, len := 2 ^ p.lge }]
  let indexed (qi : Handle) (islot : Nat) (p : Pattern) : List Side :=
    match indexAt s n j qi islot i with
    | none => []
    | some x => if patBound p ≤ x then [] else elem p (p.base.toNat + x * 2 ^ p.lge : Nat)
  match k with
  | .astrm _ _ _ p start _ => elem p (patAddr p ((start + i) % patElems p))
  | .astro _ _ _ p start _ => elem p (patAddr p ((start + i) % patElems p))
  | .agath _ qi _ islot _ p _ _ => indexed qi islot p
  | .ascat _ qi _ islot _ p _ _ => indexed qi islot p
  | .awin _ _ w start _ =>
    match windowAddr w ((start + i) % winSlots w) with
    | some a => [{ space := w.space, at' := a, len := w.c * 2 ^ w.lge }]
    | none => []
  | _ => []

/-- Elements i, i + 1, … of an A operation, up to its count; the fuel is the number left. -/
def aFrom (s : State) (n j : Nat) (o : Op) : Nat → Nat → Perf
  | 0, _ => .done s
  | fuel + 1, i =>
    match aElem s n j o.kind i with
    | (s, .ok _) => aFrom s n j o fuel (i + 1)
    | (s, .error (.index x)) => .suspend s { o with done := i } cIndex i (w64 x)
    | (s, .error (.err w e)) => endBy s (jobVia s n j .aq .a) o i w (reachedHbm s (jobVia s n j .aq .a) (aSide s n j o.kind) (fun _ => []) i false e) e

/-- Elements of an A operation. -/
def aCount : OpKind → Nat
  | .astrm _ _ _ _ _ k => k
  | .astro _ _ _ _ _ k => k
  | .agath _ _ _ _ _ _ _ k => k
  | .ascat _ _ _ _ _ _ _ k => k
  | .awin _ _ _ _ k => k
  | _ => 0

/-- An A operation is performed, from the elements it has done (R228). -/
def aPerform (s : State) (n j : Nat) (o : Op) : Perf := recallMark s o (aFrom s n j o (aCount o.kind - o.done) o.done)

/-- The pattern and window cursors of the progress cursor (R302). -/
def aPatternNo (k : OpKind) : Nat := (opPattern k).getD 0

end Sys2Proof.Machine
end

