-- ==== Sys2Proof/Machine/Flags.lean ====
section
/-! DEFINITION. The FFLAGS bits (R126), and the flags of a rounding (R122). -/

namespace Sys2Proof.Machine

def fNV : BitVec 5 := 16#5
def fDZ : BitVec 5 := 8#5
def fOF : BitVec 5 := 4#5
def fUF : BitVec 5 := 2#5
def fNX : BitVec 5 := 1#5

/-- A flag where a condition holds. -/
def flagIf (c : Bool) (f : BitVec 5) : BitVec 5 := if c then f else 0#5

/-- The flags of a rounding (R122): inexact, overflow, and underflow of an inexact tiny result. -/
def roundFlags (inexact overflow tiny : Bool) : BitVec 5 :=
  flagIf (inexact || overflow) fNX ||| flagIf overflow fOF ||| flagIf (inexact && tiny) fUF

end Sys2Proof.Machine
end

