-- ==== Sys2Proof/Machine/Float.lean ====
section
/-! DEFINITION. Floating-point formats, exact values, rounding and arithmetic (R116 to R131). A value in a format is held as its bits, a Nat; every operation answers bits and flags. -/

namespace Sys2Proof.Machine

/-- A floating-point format (R116): exponent and fraction widths, and the largest finite pattern. -/
structure Fmt where
  eb : Nat
  mb : Nat
  maxFin : Nat
  deriving DecidableEq, Repr

def fmtF32 : Fmt := ⟨8, 23, 0x7F7FFFFF⟩
def fmtBf16 : Fmt := ⟨8, 7, 0x7F7F⟩
def fmtF16 : Fmt := ⟨5, 10, 0x7BFF⟩
def fmtE4 : Fmt := ⟨4, 3, 0x7E⟩
def fmtE5 : Fmt := ⟨5, 2, 0x7B⟩

/-- The format of a floating type code (R8). -/
def fmtOf : Nat → Fmt
  | 0 => fmtF32 | 1 => fmtBf16 | 2 => fmtF16 | 3 => fmtE4 | _ => fmtE5

def fBias (f : Fmt) : Int := 2 ^ (f.eb - 1) - 1
def fSign (f : Fmt) : Nat := f.eb + f.mb
/-- Exponent of the smallest subnormal: the unit of fraction at e = 0. -/
def fMin (f : Fmt) : Int := 1 - fBias f - f.mb
def fInf (f : Fmt) : Nat := (2 ^ f.eb - 1) * 2 ^ f.mb
/-- The canonical NaN (R116). -/
def fNan (f : Fmt) : Nat := if f.eb = 4 then 0x7F else fInf f + 2 ^ (f.mb - 1)

/-- The value of a pattern: a NaN, an infinity, or (-1)^neg × m × 2^e. -/
inductive Fv where
  | nan (signalling : Bool)
  | inf (neg : Bool)
  | fin (neg : Bool) (m : Nat) (e : Int)
  deriving DecidableEq, Repr

/-- The value of the low bits of x in a format (R116). -/
def fDec (f : Fmt) (x : Nat) : Fv :=
  let neg := x.testBit (fSign f)
  let ex := x / 2 ^ f.mb % 2 ^ f.eb
  let fr := x % 2 ^ f.mb
  if f.eb = 4 ∧ ex = 15 ∧ fr = 7 then .nan false
  else if f.eb ≠ 4 ∧ ex = 2 ^ f.eb - 1 then
    if fr = 0 then .inf neg else .nan (!fr.testBit (f.mb - 1))
  else if ex = 0 then .fin neg fr (fMin f)
  else .fin neg (2 ^ f.mb + fr) (fMin f + (ex - 1 : Nat))

/-- Bits in a number: floor(log2 x) + 1, or 0. -/
def bitLen (x : Nat) : Nat := if x = 0 then 0 else Nat.log2 x + 1

/-- Rounding modes of R121 and R123; `sr` carries its draw. -/
inductive Mode where
  | rne | rtz | rdn | rup
  | sr (draw : Nat)
  deriving DecidableEq, Repr

def modeOf : Rounding → Mode
  | .rne => .rne | .rtz => .rtz | .rdn => .rdn | .rup => .rup

/-- The value |v| = (n + (rem + s) / 2^sh) units, s a positive amount below 1 where `sticky`: whether the unit above is picked (R121, R123). -/
def pickUp (md : Mode) (neg : Bool) (n rem sh : Nat) (sticky : Bool) : Bool :=
  let inexact := rem ≠ 0 || sticky
  match md with
  | .rne => 2 ^ sh < 2 * rem || (2 * rem = 2 ^ sh && (sh ≠ 0) && (sticky || n % 2 = 1))
  | .rtz => false
  | .rdn => neg && inexact
  | .rup => !neg && inexact
  | .sr x => inexact && x * 2 ^ sh < rem * 2 ^ 32

/-- Split of m × 2^e at a unit 2^q. -/
def splitAt (m : Nat) (e q : Int) : Nat × Nat × Nat :=
  if q ≤ e then (m * 2 ^ (e - q).toNat, 0, 0)
  else
    let sh := (q - e).toNat
    (m / 2 ^ sh, m % 2 ^ sh, sh)

/-- What an overflowing result is (R121, R124). -/
def overBits (f : Fmt) (md : Mode) (neg sat : Bool) : Nat :=
  let sg := if neg then 2 ^ fSign f else 0
  let big := sg + f.maxFin
  let inf := if f.eb = 4 then fNan f else sg + fInf f
  if sat then big
  else match md with
    | .rtz => big
    | .rdn => if neg then inf else big
    | .rup => if neg then big else inf
    | _ => inf

/-- round_to(v, T, mode), with sat (R121, R122): v is (-1)^neg × (m + s) × 2^e, s a positive amount below 1 where `sticky`. DESIGN CHOICE (log 85): a value is tiny when rounded to the format's precision with the exponent unbounded below, not when rounded on R121's grid. -/
def fRound (f : Fmt) (md : Mode) (sat neg : Bool) (m : Nat) (e : Int) (sticky : Bool) : Nat × BitVec 5 :=
  let sg := if neg then 2 ^ fSign f else 0
  if m = 0 ∧ !sticky then (sg, 0#5)
  else
    let top : Int := e + bitLen m - 1
    let qn : Int := top - f.mb
    let q : Int := max qn (fMin f)
    let (n, rem, sh) := splitAt m e q
    let n' := if pickUp md neg n rem sh sticky then n + 1 else n
    let inexact := rem ≠ 0 || sticky
    let bits := (q - fMin f).toNat * 2 ^ f.mb + n'
    let ovf := f.maxFin < bits
    let tiny :=
      if top < fMin f + f.mb then
        let (k, r, h) := splitAt m e qn
        let k' := if pickUp md neg k r h sticky then k + 1 else k
        !(top = fMin f + f.mb - 1 && k' = 2 ^ (f.mb + 1))
      else false
    if ovf then (overBits f md neg sat, roundFlags true true false)
    else (sg + bits, roundFlags inexact false tiny)

/-- round_rne to a format. -/
def fRne (f : Fmt) (neg : Bool) (m : Nat) (e : Int) (sticky : Bool) : Nat × BitVec 5 := fRound f .rne false neg m e sticky

/-- A canonical NaN with or without invalid. -/
def nanOut (f : Fmt) (invalid : Bool) : Nat × BitVec 5 := (fNan f, flagIf invalid fNV)

def infBits (f : Fmt) (neg : Bool) : Nat := if neg then 2 ^ fSign f + fInf f else fInf f

def isSnan : Fv → Bool
  | .nan s => s
  | _ => false

def isNan : Fv → Bool
  | .nan _ => true
  | _ => false

/-- Zero of either sign. -/
def isZero : Fv → Bool
  | .fin _ 0 _ => true
  | _ => false

/-- m × 2^e as an integer number of units 2^q, q at most e. -/
def units (neg : Bool) (m : Nat) (e q : Int) : Int :=
  let v : Int := m * 2 ^ (e - q).toNat
  if neg then -v else v

/-- The exact sum of two finite values: sign, magnitude and exponent. An exact zero is -0 only of -0 + -0 (R119). -/
def addExact (n1 : Bool) (m1 : Nat) (e1 : Int) (n2 : Bool) (m2 : Nat) (e2 : Int) : Bool × Nat × Int :=
  let q := min e1 e2
  let z := units n1 m1 e1 q + units n2 m2 e2 q
  if z = 0 then (n1 && n2 && m1 == 0 && m2 == 0, 0, q)
  else (z < 0, z.natAbs, q)

/-- Addition in value form, rounded to a format (R119). -/
def addV (f : Fmt) (x y : Fv) : Nat × BitVec 5 :=
  match x, y with
  | .nan a, .nan b => nanOut f (a || b)
  | .nan a, _ => nanOut f a
  | _, .nan b => nanOut f b
  | .inf a, .inf b => if a = b then (infBits f a, 0#5) else nanOut f true
  | .inf a, _ => (infBits f a, 0#5)
  | _, .inf b => (infBits f b, 0#5)
  | .fin n1 m1 e1, .fin n2 m2 e2 =>
    let (n, m, e) := addExact n1 m1 e1 n2 m2 e2
    fRne f n m e false

def negV : Fv → Fv
  | .nan s => .nan s
  | .inf n => .inf (!n)
  | .fin n m e => .fin (!n) m e

/-- fma: x × y + z, one rounding (R119). 0 × ∞ is invalid whatever z is. -/
def fmaV (f : Fmt) (x y z : Fv) : Nat × BitVec 5 :=
  let zInf := (match x, y with
    | .inf _, .fin _ 0 _ => true
    | .fin _ 0 _, .inf _ => true
    | _, _ => false)
  if zInf then nanOut f true
  else if isNan x || isNan y || isNan z then nanOut f (isSnan x || isSnan y || isSnan z)
  else
    let sgn (v : Fv) : Bool := match v with | .inf n => n | .fin n _ _ => n | .nan _ => false
    let p := sgn x != sgn y
    match x, y, z with
    | .fin _ m1 e1, .fin _ m2 e2, .fin n3 m3 e3 =>
      let (n, m, e) := addExact p (m1 * m2) (e1 + e2) n3 m3 e3
      fRne f n m e false
    | .fin _ _ _, .fin _ _ _, .inf n => (infBits f n, 0#5)
    | _, _, .inf n => if n = p then (infBits f n, 0#5) else nanOut f true
    | _, _, _ => (infBits f p, 0#5)

/-- Multiplication (R119). -/
def mulV (f : Fmt) (x y : Fv) : Nat × BitVec 5 :=
  match x, y with
  | .nan a, .nan b => nanOut f (a || b)
  | .nan a, _ => nanOut f a
  | _, .nan b => nanOut f b
  | .inf a, .inf b => (infBits f (a != b), 0#5)
  | .inf a, .fin b m _ => if m = 0 then nanOut f true else (infBits f (a != b), 0#5)
  | .fin a m _, .inf b => if m = 0 then nanOut f true else (infBits f (a != b), 0#5)
  | .fin n1 m1 e1, .fin n2 m2 e2 => fRne f (n1 != n2) (m1 * m2) (e1 + e2) false

/-- Division (R119). -/
def divV (f : Fmt) (x y : Fv) : Nat × BitVec 5 :=
  match x, y with
  | .nan a, .nan b => nanOut f (a || b)
  | .nan a, _ => nanOut f a
  | _, .nan b => nanOut f b
  | .inf _, .inf _ => nanOut f true
  | .inf a, .fin b _ _ => (infBits f (a != b), 0#5)
  | .fin a _ _, .inf b => fRne f (a != b) 0 0 false
  | .fin n1 m1 e1, .fin n2 m2 e2 =>
    let n := n1 != n2
    if m2 = 0 then (if m1 = 0 then nanOut f true else (infBits f n, fDZ))
    else if m1 = 0 then fRne f n 0 0 false
    else
      let k := bitLen m2 + 64
      fRne f n (m1 * 2 ^ k / m2) (e1 - e2 - k) (m1 * 2 ^ k % m2 ≠ 0)

/-- floor(sqrt x), bit by bit from bit i-1 down. -/
def isqrtFrom (x : Nat) : Nat → Nat → Nat
  | 0, r => r
  | i + 1, r =>
    let r' := r + 2 ^ i
    if r' * r' ≤ x then isqrtFrom x i r' else isqrtFrom x i r

def isqrt (x : Nat) : Nat := isqrtFrom x (bitLen x / 2 + 1) 0

/-- Square root (R119). -/
def sqrtV (f : Fmt) (x : Fv) : Nat × BitVec 5 :=
  match x with
  | .nan a => nanOut f a
  | .inf n => if n then nanOut f true else (infBits f false, 0#5)
  | .fin n m e =>
    if m = 0 then fRne f n 0 0 false
    else if n then nanOut f true
    else
      let k : Nat := if e % 2 = 0 then 128 else 129
      let x := m * 2 ^ k
      let r := isqrt x
      fRne f false r ((e - k) / 2) (r * r ≠ x)

/-- rsq of R132: round_rne(1 / sqrt x, f32). -/
def rsqV (x : Fv) : Nat × BitVec 5 :=
  let f := fmtF32
  match x with
  | .nan a => nanOut f a
  | .inf n => if n then nanOut f true else (0, 0#5)
  | .fin n m e =>
    if m = 0 then (infBits f n, fDZ)
    else if n then nanOut f true
    else
      let m := if e % 2 = 0 then m else 2 * m
      let e := if e % 2 = 0 then e else e - 1
      let k := 2 * (bitLen m + 64)
      let r := isqrt (2 ^ k / m)
      fRne f false r (-(e / 2) - (k / 2 : Nat)) (r * r * m ≠ 2 ^ k)

/-- Order of two values that are not NaN: -1, 0 or 1; the zeros are equal (R120). -/
def cmpV (x y : Fv) : Int :=
  match x, y with
  | .inf a, .inf b => if a = b then 0 else if a then -1 else 1
  | .inf a, _ => if a then -1 else 1
  | _, .inf b => if b then 1 else -1
  | .fin n1 m1 e1, .fin n2 m2 e2 =>
    let q := min e1 e2
    let d := units n1 m1 e1 q - units n2 m2 e2 q
    if d < 0 then -1 else if d = 0 then 0 else 1
  | _, _ => 0

/-- The relations of R120, in the order of VCMP fn 0 to 6 (R205). -/
inductive Rel where | eq | ne | lt | le | gt | ge | un
  deriving DecidableEq, Repr

/-- A comparison and its flags (R120). -/
def relV (r : Rel) (x y : Fv) : Bool × BitVec 5 :=
  if isNan x || isNan y then
    let quietSets := match r with | .lt | .le | .gt | .ge => true | _ => false
    ((match r with | .ne | .un => true | _ => false), flagIf (quietSets || isSnan x || isSnan y) fNV)
  else
    let c := cmpV x y
    ((match r with
      | .eq => c == 0 | .ne => c != 0 | .lt => c < 0 | .le => c ≤ 0 | .gt => c > 0 | .ge => c ≥ 0 | .un => false), 0#5)

/-- The greater (or lesser) of two numbers, -0 below +0 (R128). Patterns a and b hold x and y. -/
def pickMax (mx : Bool) (f : Fmt) (a b : Nat) : Nat :=
  let c := cmpV (fDec f a) (fDec f b)
  let aNeg := a.testBit (fSign f)
  let aGreater := c > 0 || (c = 0 && !aNeg)
  if mx = aGreater then a else b

/-- min and max of R128; `prop` the propagating forms. -/
def minmaxF (mx prop : Bool) (f : Fmt) (a b : Nat) : Nat × BitVec 5 :=
  let x := fDec f a
  let y := fDec f b
  if isSnan x || isSnan y then nanOut f true
  else if isNan x && isNan y then nanOut f false
  else if isNan x then (if prop then nanOut f false else (b, 0#5))
  else if isNan y then (if prop then nanOut f false else (a, 0#5))
  else (pickMax mx f a b, 0#5)

/-- Conversion between floating types (R124). -/
def cvtFF (src dst : Fmt) (md : Mode) (sat : Bool) (x : Nat) : Nat × BitVec 5 :=
  match fDec src x with
  | .nan s => nanOut dst s
  | .inf n =>
    let sg := if n then 2 ^ fSign dst else 0
    if sat then (sg + dst.maxFin, fNX)
    else if dst.eb = 4 then (fNan dst, fNV)
    else (infBits dst n, 0#5)
  | .fin n m e => fRound dst md sat n m e false

/-- Conversion to a signed integer of w bits (R125); the result is two's complement. -/
def cvtFI (src : Fmt) (w : Nat) (md : Mode) (x : Nat) : Nat × BitVec 5 :=
  let lo : Int := -(2 ^ (w - 1) : Int)
  let hi : Int := 2 ^ (w - 1) - 1
  match fDec src x with
  | .nan _ => (0, fNV)
  | .inf n => (ofInt w (if n then lo else hi), fNV)
  | .fin n m e =>
    let (k, rem, sh) := splitAt m e 0
    let k := if pickUp md n k rem sh false then k + 1 else k
    let z : Int := if n then -(k : Int) else k
    if z < lo then (ofInt w lo, fNV)
    else if hi < z then (ofInt w hi, fNV)
    else (ofInt w z, flagIf (rem ≠ 0) fNX)

/-- Conversion of an integer to a floating type (R125). -/
def cvtIF (dst : Fmt) (md : Mode) (z : Int) : Nat × BitVec 5 :=
  fRound dst md false (z < 0) z.natAbs 0 false

/-! Operations on f32 patterns. -/
def addF (f : Fmt) (a b : Nat) : Nat × BitVec 5 := addV f (fDec f a) (fDec f b)
def subF (f : Fmt) (a b : Nat) : Nat × BitVec 5 := addV f (fDec f a) (negV (fDec f b))
def mulF (f : Fmt) (a b : Nat) : Nat × BitVec 5 := mulV f (fDec f a) (fDec f b)
def divF (f : Fmt) (a b : Nat) : Nat × BitVec 5 := divV f (fDec f a) (fDec f b)
def fmaF (f : Fmt) (a b c : Nat) : Nat × BitVec 5 := fmaV f (fDec f a) (fDec f b) (fDec f c)

/-- The state of an exact block sum (R130): invalid infinities and NaNs seen, and the finite sum in units 2^q. -/
structure BlockSum where
  any : Bool := false
  snan : Bool := false
  qnan : Bool := false
  pinf : Bool := false
  ninf : Bool := false
  sum : Int := 0
  q : Int := 0
  deriving DecidableEq, Repr

/-- One pair enters a block sum, unless either element is ±0 (R130). -/
def blockPair (b : BlockSum) (x y : Fv) : BlockSum :=
  if isZero x || isZero y then b
  else
    let b := { b with any := true }
    match x, y with
    | .nan s, .nan t => { b with snan := b.snan || s || t, qnan := true }
    | .nan s, _ => { b with snan := b.snan || s, qnan := true }
    | _, .nan t => { b with snan := b.snan || t, qnan := true }
    | .inf a, .inf c => if a != c then { b with ninf := true } else { b with pinf := true }
    | .inf a, .fin c _ _ => if a != c then { b with ninf := true } else { b with pinf := true }
    | .fin a _ _, .inf c => if a != c then { b with ninf := true } else { b with pinf := true }
    | .fin n1 m1 e1, .fin n2 m2 e2 =>
      let e := e1 + e2
      let q := min b.q e
      { b with sum := b.sum * 2 ^ (b.q - q).toNat + units (n1 != n2) (m1 * m2) e q, q := q }

/-- round_rne(S, f32) of a block with an effectual pair (R130). DESIGN CHOICE (log 84): a quiet NaN beside infinite products of both signs gives the canonical NaN and no flag. -/
def blockRound (b : BlockSum) : Nat × BitVec 5 :=
  if b.snan then nanOut fmtF32 true
  else if b.qnan then nanOut fmtF32 false
  else if b.pinf && b.ninf then nanOut fmtF32 true
  else if b.pinf then (infBits fmtF32 false, 0#5)
  else if b.ninf then (infBits fmtF32 true, 0#5)
  else fRne fmtF32 (b.sum < 0) b.sum.natAbs b.q false

/-- One K-block added to an accumulator (R130). -/
def dotBlock (acc : Nat) (pairs : List (Fv × Fv)) : Nat × BitVec 5 :=
  let b := pairs.foldl (fun b p => blockPair b p.1 p.2) {}
  if b.any then
    let (s, f1) := blockRound b
    let (r, f2) := addF fmtF32 acc s
    (r, f1 ||| f2)
  else (acc, 0#5)

/-- A K range added to an accumulator, in K-blocks of 16 (R130); the fuel is the number of blocks. -/
def dotBlocks : Nat → Nat × BitVec 5 → List (Fv × Fv) → Nat × BitVec 5
  | 0, r, _ => r
  | n + 1, (acc, fl), l =>
    let (a, f) := dotBlock acc (l.take 16)
    dotBlocks n (a, fl ||| f) (l.drop 16)

/-- dot of R130 and R132 over pairs, from an accumulator. -/
def dotF (acc : Nat) (pairs : List (Fv × Fv)) : Nat × BitVec 5 := dotBlocks (ceilDiv pairs.length 16) (acc, 0#5) pairs

/-- A halving tree over a list of length 2^n (R129). -/
def halve {α : Type} (op : α → α → α) : Nat → List α → List α
  | 0, l => l
  | n + 1, l =>
    let h := l.length / 2
    halve op n (List.zipWith op (l.take h) (l.drop h))

/-- A pattern with the flags gathered on the way to it. -/
abbrev Fl := Nat × BitVec 5

/-- An operation on patterns that gathers flags. -/
def withFl (op : Nat → Nat → Nat × BitVec 5) (x y : Fl) : Fl :=
  let (r, f) := op x.1 y.1
  (r, x.2 ||| y.2 ||| f)

/-! Bank-side FP32 operations (R75): no flags, and a NaN result is canonical. -/
def bankAdd (x v : BitVec 32) : BitVec 32 := BitVec.ofNat 32 (addF fmtF32 x.toNat v.toNat).1
def bankSac (x a y : BitVec 32) : BitVec 32 := BitVec.ofNat 32 (fmaF fmtF32 a.toNat x.toNat y.toNat).1

end Sys2Proof.Machine
end

