-- ==== Sys2Proof/Machine/Alu.lean ====
section
/-! DEFINITION. Scalar arithmetic: ALU, ALUI and the constants (R160 to R163, R118). -/

namespace Sys2Proof.Machine

/-- Two registers in, one out (R160). -/
def aluOp (d a b : Reg) (f : Word → Word → Word) (s : State) : Result :=
  issue 1 { reads := [a, b] } s (fun s g => .ok (setReg s g d (f (reg s g a) (reg s g b))) .seq)

/-- One register in, one out (R160). -/
def aluOp1 (d a : Reg) (f : Word → Word) (s : State) : Result :=
  issue 1 { reads := [a] } s (fun s g => .ok (setReg s g d (f (reg s g a))) .seq)

/-- The f32 pattern in a register: bits [31:0] (R145). -/
def f32In (v : Word) : Nat := bitsAt v 0 32

/-- Two f32 operands in, a 32-bit result and flags out (R145, R160). -/
def fpOp (d a b : Reg) (f : Nat → Nat → Nat × BitVec 5) (s : State) : Result :=
  issue 1 { reads := [a, b] } s (fun s g =>
    let r := f (f32In (reg s g a)) (f32In (reg s g b))
    .ok (setFlags (setReg s g d (w64 r.1)) g r.2) .seq)

/-- An f32 relation as 1 or 0 (R120). -/
def fpRel (d a b : Reg) (r : Rel) (s : State) : Result :=
  fpOp d a b (fun x y => let o := relV r (fDec fmtF32 x) (fDec fmtF32 y); (if o.1 then 1 else 0, o.2)) s

/-- A shift amount: bits [5:0] (R160). -/
def shamt (v : Word) : Nat := bitsAt v 0 6

/-- Signed division of R118. -/
def divS (x y : Word) : Word := if y = 0#64 then -1#64 else BitVec.sdiv x y
/-- Unsigned division of R118. -/
def divU (x y : Word) : Word := if y = 0#64 then -1#64 else x / y
/-- Signed remainder of R118. -/
def remS (x y : Word) : Word := if y = 0#64 then x else BitVec.srem x y
/-- Unsigned remainder of R118. -/
def remU (x y : Word) : Word := if y = 0#64 then x else x % y

/-- High half of a signed product. -/
def mulHighS (x y : Word) : Word := (x.signExtend 128 * y.signExtend 128).extractLsb' 64 64
/-- High half of an unsigned product. -/
def mulHighU (x y : Word) : Word := (x.setWidth 128 * y.setWidth 128).extractLsb' 64 64

/-- Leading zero bits; 64 for 0. -/
def clz64 (x : Word) : Word := w64 (64 - highLen x.toNat 64)
/-- Trailing zero bits; 64 for 0. -/
def ctz64 (x : Word) : Word := w64 (lowBit x.toNat 64 64 0)
/-- One bits. -/
def popc64 (x : Word) : Word := w64 (popBelow x.toNat 64)
/-- Bytes in reverse order. -/
def bswap64 (x : Word) : Word := w64 (leNat (leBytes 8 x.toNat).reverse)

/-- add (R160). -/
def execAdd (d a b : Reg) (s : State) : Result := aluOp d a b (fun x y => x + y) s

/-- sub (R160). -/
def execSub (d a b : Reg) (s : State) : Result := aluOp d a b (fun x y => x - y) s

/-- and (R160). -/
def execAnd (d a b : Reg) (s : State) : Result := aluOp d a b (fun x y => x &&& y) s

/-- or (R160). -/
def execOr (d a b : Reg) (s : State) : Result := aluOp d a b (fun x y => x ||| y) s

/-- xor (R160). -/
def execXor (d a b : Reg) (s : State) : Result := aluOp d a b (fun x y => x ^^^ y) s

/-- andn (R160). -/
def execAndn (d a b : Reg) (s : State) : Result := aluOp d a b (fun x y => x &&& ~~~y) s

/-- sll (R160). -/
def execSll (d a b : Reg) (s : State) : Result := aluOp d a b (fun x y => x <<< shamt y) s

/-- srl (R160). -/
def execSrl (d a b : Reg) (s : State) : Result := aluOp d a b (fun x y => x >>> shamt y) s

/-- sra (R160). -/
def execSra (d a b : Reg) (s : State) : Result := aluOp d a b (fun x y => x.sshiftRight (shamt y)) s

/-- rol (R160). -/
def execRol (d a b : Reg) (s : State) : Result := aluOp d a b (fun x y => x.rotateLeft (shamt y)) s

/-- mul (R160). -/
def execMul (d a b : Reg) (s : State) : Result := aluOp d a b (fun x y => x * y) s

/-- mulh (R160). -/
def execMulh (d a b : Reg) (s : State) : Result := aluOp d a b (fun x y => mulHighS x y) s

/-- mulhu (R160). -/
def execMulhu (d a b : Reg) (s : State) : Result := aluOp d a b (fun x y => mulHighU x y) s

/-- div (R160, R118). -/
def execDiv (d a b : Reg) (s : State) : Result := aluOp d a b (fun x y => divS x y) s

/-- divu (R160, R118). -/
def execDivu (d a b : Reg) (s : State) : Result := aluOp d a b (fun x y => divU x y) s

/-- rem (R160, R118). -/
def execRem (d a b : Reg) (s : State) : Result := aluOp d a b (fun x y => remS x y) s

/-- remu (R160, R118). -/
def execRemu (d a b : Reg) (s : State) : Result := aluOp d a b (fun x y => remU x y) s

/-- min (R160). -/
def execMin (d a b : Reg) (s : State) : Result := aluOp d a b (fun x y => if x.slt y then x else y) s

/-- minu (R160). -/
def execMinu (d a b : Reg) (s : State) : Result := aluOp d a b (fun x y => if x.ult y then x else y) s

/-- max (R160). -/
def execMax (d a b : Reg) (s : State) : Result := aluOp d a b (fun x y => if x.slt y then y else x) s

/-- maxu (R160). -/
def execMaxu (d a b : Reg) (s : State) : Result := aluOp d a b (fun x y => if x.ult y then y else x) s

/-- seq (R160). -/
def execSeq (d a b : Reg) (s : State) : Result := aluOp d a b (fun x y => boolWord (x == y)) s

/-- sne (R160). -/
def execSne (d a b : Reg) (s : State) : Result := aluOp d a b (fun x y => boolWord (x != y)) s

/-- slt (R160). -/
def execSlt (d a b : Reg) (s : State) : Result := aluOp d a b (fun x y => boolWord (x.slt y)) s

/-- sltu (R160). -/
def execSltu (d a b : Reg) (s : State) : Result := aluOp d a b (fun x y => boolWord (x.ult y)) s

/-- sle (R160). -/
def execSle (d a b : Reg) (s : State) : Result := aluOp d a b (fun x y => boolWord (x.sle y)) s

/-- sleu (R160). -/
def execSleu (d a b : Reg) (s : State) : Result := aluOp d a b (fun x y => boolWord (x.ule y)) s

/-- clz (R160). -/
def execClz (d a : Reg) (s : State) : Result := aluOp1 d a (fun x => clz64 x) s

/-- ctz (R160). -/
def execCtz (d a : Reg) (s : State) : Result := aluOp1 d a (fun x => ctz64 x) s

/-- popc (R160). -/
def execPopc (d a : Reg) (s : State) : Result := aluOp1 d a (fun x => popc64 x) s

/-- bswap (R160). -/
def execBswap (d a : Reg) (s : State) : Result := aluOp1 d a (fun x => bswap64 x) s

/-- sexb (R160). -/
def execSexb (d a : Reg) (s : State) : Result := aluOp1 d a (fun x => sextN 8 x) s

/-- sexh (R160). -/
def execSexh (d a : Reg) (s : State) : Result := aluOp1 d a (fun x => sextN 16 x) s

/-- sexw (R160). -/
def execSexw (d a : Reg) (s : State) : Result := aluOp1 d a (fun x => sextN 32 x) s

/-- fadd (R119). -/
def execFadd (d a b : Reg) (s : State) : Result := fpOp d a b (addF fmtF32) s

/-- fsub (R119). -/
def execFsub (d a b : Reg) (s : State) : Result := fpOp d a b (subF fmtF32) s

/-- fmul (R119). -/
def execFmul (d a b : Reg) (s : State) : Result := fpOp d a b (mulF fmtF32) s

/-- fdiv (R119). -/
def execFdiv (d a b : Reg) (s : State) : Result := fpOp d a b (divF fmtF32) s

/-- fmin (R128). -/
def execFmin (d a b : Reg) (s : State) : Result := fpOp d a b (minmaxF false false fmtF32) s

/-- fmax (R128). -/
def execFmax (d a b : Reg) (s : State) : Result := fpOp d a b (minmaxF true false fmtF32) s

/-- fminp (R128). -/
def execFminp (d a b : Reg) (s : State) : Result := fpOp d a b (minmaxF false true fmtF32) s

/-- fmaxp (R128). -/
def execFmaxp (d a b : Reg) (s : State) : Result := fpOp d a b (minmaxF true true fmtF32) s

/-- fcvtfi (R161, R125). -/
def execFcvtfi (d a : Reg) (rm : Rounding) (s : State) : Result :=
  issue 1 { reads := [a] } s (fun s g =>
    let r := cvtFI fmtF32 32 (modeOf rm) (f32In (reg s g a))
    .ok (setFlags (setReg s g d (sextN 32 (w64 r.1))) g r.2) .seq)

/-- fcvtif (R161, R125). -/
def execFcvtif (d a : Reg) (rm : Rounding) (s : State) : Result :=
  issue 1 { reads := [a] } s (fun s g =>
    let r := cvtIF fmtF32 (modeOf rm) (toInt 32 (f32In (reg s g a)))
    .ok (setFlags (setReg s g d (w64 r.1)) g r.2) .seq)

/-- feq (R120). -/
def execFeq (d a b : Reg) (s : State) : Result := fpRel d a b .eq s

/-- flt (R120). -/
def execFlt (d a b : Reg) (s : State) : Result := fpRel d a b .lt s

/-- fle (R120). -/
def execFle (d a b : Reg) (s : State) : Result := fpRel d a b .le s

/-- addi (R162). -/
def execAddi (d a : Reg) (imm : BitVec 11) (s : State) : Result := aluOp1 d a (fun x => x + imm11 imm) s

/-- andi (R162). -/
def execAndi (d a : Reg) (imm : BitVec 11) (s : State) : Result := aluOp1 d a (fun x => x &&& imm11 imm) s

/-- ori (R162). -/
def execOri (d a : Reg) (imm : BitVec 11) (s : State) : Result := aluOp1 d a (fun x => x ||| imm11 imm) s

/-- xori (R162). -/
def execXori (d a : Reg) (imm : BitVec 11) (s : State) : Result := aluOp1 d a (fun x => x ^^^ imm11 imm) s

/-- slti (R162). -/
def execSlti (d a : Reg) (imm : BitVec 11) (s : State) : Result := aluOp1 d a (fun x => boolWord (x.slt (imm11 imm))) s

/-- slli (R162). -/
def execSlli (d a : Reg) (sh : BitVec 6) (s : State) : Result := aluOp1 d a (fun x => x <<< sh.toNat) s

/-- srli (R162). -/
def execSrli (d a : Reg) (sh : BitVec 6) (s : State) : Result := aluOp1 d a (fun x => x >>> sh.toNat) s

/-- srai (R162). -/
def execSrai (d a : Reg) (sh : BitVec 6) (s : State) : Result := aluOp1 d a (fun x => x.sshiftRight sh.toNat) s

/-- lui: sext(off20, 20) × 2^11 (R163). -/
def execLui (d : Reg) (imm : BitVec 20) (s : State) : Result :=
  issue 1 {} s (fun s g => .ok (setReg s g d (imm.signExtend 64 <<< 11)) .seq)

/-- lix: the sign-extended extension word (R163). -/
def execLix (d : Reg) (imm : BitVec 32) (s : State) : Result :=
  issue 2 {} s (fun s g => .ok (setReg s g d (imm.signExtend 64)) .seq)

/-- lihx: the extension word in the high half; the low half is kept (R163). -/
def execLihx (d : Reg) (imm : BitVec 32) (s : State) : Result :=
  issue 2 { reads := [d] } s (fun s g => .ok (setReg s g d (imm ++ (reg s g d).extractLsb' 0 32)) .seq)

/-- addx (R163). -/
def execAddx (d a : Reg) (imm : BitVec 32) (s : State) : Result :=
  issue 2 { reads := [a] } s (fun s g => .ok (setReg s g d (reg s g a + imm.signExtend 64)) .seq)

end Sys2Proof.Machine
end

