-- ==== Sys2Proof/Machine/Branch.lean ====
section
/-! DEFINITION. Branches, jumps and hardware loops (R164 to R168). -/

namespace Sys2Proof.Machine

/-- A conditional branch (R164). -/
def branchOp (a b : Reg) (off : BitVec 11) (c : Word → Word → Bool) (s : State) : Result :=
  issue 1 { reads := [a, b] } s (fun s g =>
    .ok s (if c (reg s g a) (reg s g b) then .jump (target11 (streamOf s g).pc off) else .seq))

/-- beq (R164). -/
def execBeq (a b : Reg) (off : BitVec 11) (s : State) : Result := branchOp a b off (fun x y => x == y) s
/-- bne (R164). -/
def execBne (a b : Reg) (off : BitVec 11) (s : State) : Result := branchOp a b off (fun x y => x != y) s
/-- blt (R164). -/
def execBlt (a b : Reg) (off : BitVec 11) (s : State) : Result := branchOp a b off (fun x y => x.slt y) s
/-- bge (R164). -/
def execBge (a b : Reg) (off : BitVec 11) (s : State) : Result := branchOp a b off (fun x y => !x.slt y) s
/-- bltu (R164). -/
def execBltu (a b : Reg) (off : BitVec 11) (s : State) : Result := branchOp a b off (fun x y => x.ult y) s
/-- bgeu (R164). -/
def execBgeu (a b : Reg) (off : BitVec 11) (s : State) : Result := branchOp a b off (fun x y => !x.ult y) s
/-- bset (R164). -/
def execBset (a b : Reg) (off : BitVec 11) (s : State) : Result := branchOp a b off (fun x y => x &&& y != 0#64) s
/-- bclr (R164). -/
def execBclr (a b : Reg) (off : BitVec 11) (s : State) : Result := branchOp a b off (fun x y => x &&& y == 0#64) s

/-- jal (R165). -/
def execJal (d : Reg) (off : BitVec 20) (s : State) : Result :=
  issue 1 {} s (fun s g =>
    let pc := (streamOf s g).pc
    .ok (setReg s g d (pc + 4#64)) (.jump (target20 pc off)))

/-- jalr (R165): the target is formed from the old s[a]. -/
def execJalr (d a : Reg) (imm : BitVec 11) (s : State) : Result :=
  issue 1 { reads := [a] } s (fun s g =>
    let t := (reg s g a + imm11 imm) &&& ~~~3#64
    .ok (setReg s g d ((streamOf s g).pc + 4#64)) (.jump t))

/-- The age of the next loop activation. -/
def nextAge (st : Stream) : Nat := st.loops.foldl (fun m e => max m e.2.age) 0 + 1

/-- A loop instruction with its count (R166): an end test at PC + 4 is due to an enclosing level only if this word were its last, which the LOOP check excludes. -/
def loopOp (nd : Need) (lvl : BitVec 2) (len : BitVec 10) (count : State → Agent → BitVec 32) (s : State) : Result :=
  issue 1 nd s (fun s g =>
    let n := count s g
    let st := streamOf s g
    let e := st.pc + 4#64 + (len.setWidth 64 <<< 2)
    if n = 0#32 then .ok s (.skip e)
    else if (loopOf st lvl.toNat).act || st.loops.any (fun q => q.2.act && q.2.stop.ult e) then raise cLoop
    else
      let p : Loop := { cnt := n - 1#32, stop := e, start := st.pc + 4#64, act := true, age := nextAge st }
      .ok (modStream s g (fun st => { st with loops := tset st.loops lvl.toNat p })) .seq)

/-- loop (R138, R166). -/
def execLoop (lvl : BitVec 2) (len : BitVec 10) (r : Reg) (s : State) : Result :=
  loopOp { reads := [r] } lvl len (fun s g => (reg s g r).setWidth 32) s
/-- loopi (R138, R166). -/
def execLoopi (lvl : BitVec 2) (len : BitVec 10) (cnt : BitVec 12) (s : State) : Result :=
  loopOp {} lvl len (fun _ _ => cnt.setWidth 32) s
/-- loopk (R138, R166): bits [31:0] of a step register. -/
def execLoopk (lvl : BitVec 2) (len : BitVec 10) (k : BitVec 4) (s : State) : Result :=
  loopOp { mgmt := false } lvl len (fun s g => (kOf s (agentJob s g) k.toNat).setWidth 32) s
/-- loopm (R138, R166): a mailbox word of the partition, read at issue. -/
def execLoopm (lvl : BitVec 2) (len : BitVec 10) (r : Reg) (s : State) : Result :=
  loopOp { mgmt := false, reads := [r] } lvl len
    (fun s g => tget 0#32 (partOf s (agentJob s g).part).mail (bitsAt (reg s g r) 0 6)) s

end Sys2Proof.Machine
end

