-- ==== Sys2Proof/Machine/Ctl.lean ====
section
/-! DEFINITION. Control registers and identity (R18, R20, R28, R33, R57, R66, R90, R126, R144, R146, R148, R150, R151, R179, R215, R247, R297, R311, R312, R333). -/

namespace Sys2Proof.Machine

open Sys2Proof.Config

/-- CYCLE (R151): cycles of the agent's own clock. -/
def cycleOf (s : State) : Agent → Word
  | .stream n _ _ => w64 (s.now - (coreOf s n).gated)
  | .mgmt => w64 s.now

/-- LENDl (R150). -/
def lendWord (p : Loop) : Word := (p.stop &&& 0x00FFFFFFFFFFFFFC#64) ||| boolWord p.act

/-- SWC (R215): VQ operations of the V stream not yet performed. -/
def swc (b : Job) : Nat := (b.vq.filter (fun o => o.sid == .v)).length

/-- The numbers that R151 names. -/
def isCreg (n : Nat) : Bool :=
  n ≤ 4 || (0x10 ≤ n && n ≤ 0x13) || (0x20 ≤ n && n ≤ 0x22) || n == 0x30 || (0x40 ≤ n && n ≤ 0x44) || n == 0x50 || n == 0x60
    || n == 0x70 || n == 0x71 || n == 0x80 || n == 0x81 || (0x90 ≤ n && n ≤ 0x97)

/-- The numbers that the management core reaches (R333). -/
def isMgmtCreg (n : Nat) : Bool := n == 0x04 || n == 0x11 || n == 0x70 || (0x90 ≤ n && n ≤ 0x97)

/-- A user-privilege read is PRIV (R151). -/
def privRead (n : Nat) : Bool :=
  0x40 ≤ n && !(n == 0x70 || n == 0x71 || n == 0x81 || (0x90 ≤ n && n ≤ 0x97))

/-- A user-privilege write is PRIV (R151). -/
def privWrite (n : Nat) : Bool := 0x40 ≤ n && !(n == 0x70 || n == 0x81 || (0x90 ≤ n && n ≤ 0x97))

/-- STATUS (R298). -/
def statusWord (b : Job) : Word :=
  w64 ((allSids.foldl (fun z t => if b.traps.contains t then z + 2 ^ (8 + sidNum t) else z) 0) + sidNum b.ts * 4 + (if b.sv then 1 else 0))

/-- A control register of a stream (R151). -/
def cregRead (s : State) (n j : Nat) (t : Sid) (num : Nat) : Word :=
  let b := jobOf s n j
  let st := b.streams.get t
  match num with
  | 0x000 => jobId b j
  | 0x001 => w64 n
  | 0x002 => w64 (sidNum t)
  | 0x003 => w64 b.part
  | 0x004 => cycleOf s (.stream n j t)
  | 0x010 => if t == .v then b.vwb.setWidth 64 else 0#64
  | 0x011 => st.fflags.setWidth 64
  | 0x012 => st.slip.setWidth 64
  | 0x013 => if t == .v then w64 (swc b) else 0#64
  | 0x020 => b.uivec
  | 0x021 => boolWord b.inh <<< 63 ||| b.pend.setWidth 64
  | 0x022 => b.uimask.setWidth 64
  | 0x030 => b.tiletype.setWidth 64
  | 0x040 => b.trapvec
  | 0x041 => if b.sv then w64 (recordAt n j b.ts) else 0#64
  | 0x042 => statusWord b
  | 0x043 => b.epc
  | 0x044 => b.ecause.setWidth 64
  | 0x050 => (partOf s b.part).rtring
  | 0x060 => b.dbgctl.setWidth 64
  | 0x070 => encid.setWidth 64
  | 0x071 => (ctxOf s b.part b.ctx).capbase
  | 0x080 => match b.npUntil with
    | some u => w64 (u - s.now)
    | none => 0#64
  | 0x081 => w64 (b.limit * 256 + b.depth)
  | _ =>
    let p := loopOf st ((num - 0x90) / 2)
    if num % 2 = 0 then p.cnt.setWidth 64 else lendWord p

/-- A loop count written (R150, R196). -/
def writeLcnt (st : Stream) (num : Nat) (v : Word) : Stream :=
  if num % 2 = 0 then
    let l := (num - 0x90) / 2
    { st with loops := tset st.loops l { loopOf st l with cnt := v.setWidth 32 } }
  else st

/-- Tiles whose code a TILETYPE value changes (R148). -/
def changedTiles (b : Job) (v : Word) : List Nat :=
  (List.range 8).filter (fun t => tileCode b t != bitsAt v (4 * t) 4)

/-- A write to TILETYPE waits while a tile it changes is busy, or a VQ operation on it is outstanding (R148). -/
def tiletypeBlocked (b : Job) (v : Word) : Bool :=
  (changedTiles b v).any (fun t => tileBusy b t || b.vq.any (fun o => (opRows o.kind).any (fun r => tileOf r == t)))

/-- A control register of a stream := v (R151). -/
def cregWrite (s : State) (n j : Nat) (t : Sid) (num : Nat) (v : Word) : State :=
  let job (f : Job → Job) : State := modJob s n j f
  let a56 := v &&& 0x00FFFFFFFFFFFFFC#64
  match num with
  | 0x010 => if t == .v then job (fun b => { b with vwb := v.setWidth 10 }) else s
  | 0x011 => modStream s (.stream n j t) (fun st => { st with fflags := v.setWidth 5 })
  | 0x020 => job (fun b => { b with uivec := a56 })
  | 0x021 => job (fun b => { b with pend := b.pend &&& ~~~(v.setWidth 8) })
  | 0x022 => job (fun b => { b with uimask := v.setWidth 8 })
  | 0x030 => job (fun b => { b with tiletype := v.setWidth 32 })
  | 0x040 => job (fun b => { b with trapvec := a56 })
  | 0x043 => job (fun b => { b with epc := a56 })
  | 0x050 => modPart s (jobOf s n j).part (fun q => { q with rtring := v &&& 0x00FFFFFFFFFE0001#64 })
  | 0x060 => job (fun b => { b with dbgctl := v.setWidth 5 })
  | 0x071 => modCtx s (jobOf s n j).part (jobOf s n j).ctx (fun x => { x with capbase := v })
  | 0x080 => job (fun b => { b with npUntil := if bitsAt v 0 25 = 0 then none else some (s.now + bitsAt v 0 25) })
  | _ => if 0x90 ≤ num ∧ num ≤ 0x97 then modStream s (.stream n j t) (fun st => writeLcnt st num v) else s

/-- A control register of the management core (R333). -/
def mgmtCreg (s : State) (num : Nat) : Word :=
  let st := s.mgmt.stream
  match num with
  | 0x004 => cycleOf s .mgmt
  | 0x011 => st.fflags.setWidth 64
  | 0x070 => encid.setWidth 64
  | _ =>
    let p := loopOf st ((num - 0x90) / 2)
    if num % 2 = 0 then p.cnt.setWidth 64 else lendWord p

/-- rdc (R144, R151, R179). -/
def execRdc (d : Reg) (num : BitVec 12) (s : State) : Result :=
  issue 1 {} s (fun s g =>
    match g with
    | .mgmt => if isMgmtCreg num.toNat then .ok (setReg s g d (mgmtCreg s num.toNat)) .seq else raise cIllegal
    | .stream n j t =>
      if !isCreg num.toNat then raise cIllegal
      else if privRead num.toNat && !supervisor s g then raise cPriv
      else .ok (setReg s g d (cregRead s n j t num.toNat)) .seq)

/-- wrc (R144, R151, R179). -/
def execWrc (d : Reg) (num : BitVec 12) (s : State) : Result :=
  issue 1 { reads := [d] } s (fun s g =>
    let v := reg s g d
    match g with
    | .mgmt =>
      if !isMgmtCreg num.toNat then raise cIllegal
      else if num = 0x011#12 then .ok (modStream s g (fun st => { st with fflags := v.setWidth 5 })) .seq
      else if 0x90 ≤ num.toNat then .ok (modStream s g (fun st => writeLcnt st num.toNat v)) .seq
      else .ok s .seq
    | .stream n j t =>
      if !isCreg num.toNat then raise cIllegal
      else if privWrite num.toNat && !supervisor s g then raise cPriv
      else if num = 0x030#12 && tiletypeBlocked (jobOf s n j) v then .wait s .waiting
      else .ok (cregWrite s n j t num.toNat v) .seq)

/-- rdk (R43, R179). -/
def execRdk (d : Reg) (k : BitVec 4) (s : State) : Result :=
  issue 1 { mgmt := false } s (fun s g => .ok (setReg s g d (kOf s (agentJob s g) k.toNat)) .seq)

/-- rdcyc (R179). -/
def execRdcyc (d : Reg) (s : State) : Result :=
  issue 1 {} s (fun s g => .ok (setReg s g d (cycleOf s g)) .seq)

/-- rdid (R179). -/
def execRdid (d : Reg) (which : IdReg) (s : State) : Result :=
  issue 1 { mgmt := false } s (fun s g =>
    match g with
    | .mgmt => raise cIllegal
    | .stream n j t =>
      let num := match which with
        | .coreid => 1 | .streamid => 2 | .jobid => 0 | .part => 3
      .ok (setReg s g d (cregRead s n j t num)) .seq)

/-- Indices of a spawned task at its spatial levels, innermost first; a trip of 0 counts as 1 and the outermost takes the quotient that remains (R57). -/
def spawnedIndices : List Nat → Nat → List Nat
  | [], _ => []
  | [_], id => [id]
  | t :: r, id => id % max t 1 :: spawnedIndices r (id / max t 1)

/-- Indices of an activation's task at its spatial levels, innermost first (R27). -/
def tileIndices : List Nat → Nat → List Nat
  | [], _ => []
  | t :: r, id => id % max t 1 :: tileIndices r (id / max t 1)

/-- A level is spatial: its kind is not temporal (R156). -/
def isSpatial (l : Nat × Nat × Nat) : Bool := l.1 != 0

/-- What rdloop returns for a level of a job (R28, R57). -/
def rdloopValue (s : State) (b : Job) (l : Nat) : Nat :=
  let x := ctxOf s b.part b.ctx
  match x.graph, x.launch with
  | some g, some la =>
    let levels := (g.nodes.getD b.node {}).levels
    let trips := tget [] la.trips b.node
    let spatial := (List.range levels.length).filter (fun i => isSpatial (levels.getD i (0, 0, 0)))
    if levels.length ≤ l then 0
    else if !spatial.contains l then trips.getD l 0
    else
      let inner := spatial.reverse
      let tr := inner.map (fun i => trips.getD i 0)
      let spawned := (tget { node := 0, tile := 0 } la.tasks b.task).pool.isSome
      let idx := if spawned then spawnedIndices tr b.tile else tileIndices tr b.tile
      idx.getD (inner.idxOf l) 0
  | _, _ => 0

/-- rdloop (R28). -/
def execRdloop (d : Reg) (level : BitVec 3) (s : State) : Result :=
  issue 1 { mgmt := false } s (fun s g =>
    .ok (setReg s g d (w64 (rdloopValue s (agentJob s g) level.toNat))) .seq)

end Sys2Proof.Machine
end

