-- ==== Sys2Proof/Machine/Trans.lean ====
section
/-! DEFINITION. 2^x, log2, exp and ln, rounded once from their exact values (R134, R221, R289): fixed-point bounds on both sides of the value are computed at a growing precision until both round alike (log entry 15). -/

namespace Sys2Proof.Machine

/-- The sum of z^(2k+1) / (2k+1) for n terms from k on, in units of 2^-p: `pw` is z^(2k+1), `zz` is z^2. -/
def atanhTerms (p zz : Nat) : Nat → Nat → Nat → Nat
  | 0, _, _ => 0
  | n + 1, k, pw => pw / (2 * k + 1) + atanhTerms p zz n (k + 1) (pw * zz / 2 ^ p)

/-- ln(num / den) for num / den from 1 to 2, in units of 2^-p: 2 atanh((num - den) / (num + den)). -/
def lnFixed (p num den : Nat) : Nat :=
  let z := (num - den) * 2 ^ p / (num + den)
  2 * atanhTerms p (z * z / 2 ^ p) (p / 3 + 2) 0 z

/-- ln 2 in units of 2^-p. -/
def ln2Fixed (p : Nat) : Nat := lnFixed p 2 1

/-- The sum of x^k / k! for n terms from k on: `t` is x^k / k!, in units of 2^-p. -/
def expTerms (p x : Nat) : Nat → Nat → Nat → Nat
  | 0, _, _ => 0
  | n + 1, k, t => t + expTerms p x n (k + 1) (t * x / 2 ^ p / (k + 1))

/-- exp(x / 2^p) for 0 ≤ x < 2^p, in units of 2^-p. -/
def expFixed (p x : Nat) : Nat := expTerms p x (p / 4 + 20) 0 (2 ^ p)

/-- A bound on the error of the sums above, in units of 2^-p. -/
def slack : Nat := 2 ^ 12

/-- Rounding of a value known to lie strictly between lo and hi in units 2^e: the answer where both ends round alike. -/
def roundBoth (f : Fmt) (neg : Bool) (lo hi : Nat) (e : Int) : Option (Nat × BitVec 5) :=
  let a := fRne f neg lo e true
  let b := fRne f neg hi e true
  if a = b then some a else none

/-- 2^k × 2^(x / 2^p), 0 ≤ x < 2^p, at working precision p. -/
def tryExp2 (f : Fmt) (k : Int) (x p : Nat) : Option (Nat × BitVec 5) :=
  let v := expFixed p (x * ln2Fixed p / 2 ^ p)
  roundBoth f false (v - slack) (v + slack) (k - p)

/-- exp of m × 2^e (signed), at working precision p: the argument over ln 2 is split into a whole part and a fraction. -/
def tryExp (f : Fmt) (neg : Bool) (m : Nat) (e : Int) (p : Nat) : Option (Nat × BitVec 5) :=
  let x : Nat := if 0 ≤ e + p then m * 2 ^ (e + p).toNat else m / 2 ^ (-(e + p)).toNat
  let l2 := ln2Fixed p
  let z : Int := if neg then -(x : Int) else x
  let k : Int := z / l2
  let r : Nat := (z % l2).toNat
  let v := expFixed p r
  -- the error of ln 2 is taken |k| times
  let sl := slack * (k.natAbs + 1)
  roundBoth f false (v - 2 * sl) (v + 2 * sl) (k - p)

/-- log2 (or ln) of m × 2^e, m from 2^(n-1) to 2^n - 1, at working precision p. -/
def tryLog (f : Fmt) (base2 : Bool) (m n : Nat) (e : Int) (p : Nat) : Option (Nat × BitVec 5) :=
  let ex : Int := e + n - 1
  let l2 := ln2Fixed p
  let lf := lnFixed p m (2 ^ (n - 1))
  let v : Int := if base2 then ex * 2 ^ p + (lf * 2 ^ p / l2 : Nat) else ex * l2 + lf
  let sl := slack * (ex.natAbs + 1)
  if v.natAbs ≤ 2 * sl then none
  else roundBoth f (v < 0) (v.natAbs - 2 * sl) (v.natAbs + 2 * sl) (-p)

/-- The first answer of a computation at precisions p, 2p, 4p, and so on; the last precision's midpoint is not needed in practice, and answers a NaN. -/
def ziv (f : Fmt) (g : Nat → Option (Nat × BitVec 5)) : Nat → Nat → Nat × BitVec 5
  | 0, _ => nanOut f false
  | n + 1, p =>
    match g p with
    | some r => r
    | none => ziv f g n (2 * p)

/-- 2^x to a format (R221). -/
def exp2V (f : Fmt) (x : Fv) : Nat × BitVec 5 :=
  match x with
  | .nan s => nanOut f s
  | .inf n => if n then (0, 0#5) else (infBits f false, 0#5)
  | .fin n m e =>
    if m = 0 then fRne f false 1 0 false
    else
      let big := 10 < e + bitLen m
      if big then (if n then fRne f false (2 ^ 64) (-100000) true else fRne f false (2 ^ 64) 100000 true)
      else
        -- m × 2^e as a whole part and a fraction of 2^q units
        let q : Nat := (-e).toNat
        let z : Int := units n m e (-(q : Int))
        let k : Int := z / (2 ^ q : Int)
        let r : Nat := (z % (2 ^ q : Int)).toNat
        if r = 0 then fRne f false 1 k false
        else ziv f (fun p => if q ≤ p then tryExp2 f k (r * 2 ^ (p - q)) p else none) 8 160

/-- log2 x to a format (R221). -/
def log2V (f : Fmt) (x : Fv) : Nat × BitVec 5 :=
  match x with
  | .nan s => nanOut f s
  | .inf n => if n then nanOut f true else (infBits f false, 0#5)
  | .fin n m e =>
    if m = 0 then (infBits f true, fDZ)
    else if n then nanOut f true
    else
      let b := bitLen m
      if m = 2 ^ (b - 1) then
        let k : Int := e + b - 1
        fRne f (k < 0) k.natAbs 0 false
      else ziv f (tryLog f true m b e) 8 128

/-- exp x to f32 (R134). -/
def expV (x : Fv) : Nat × BitVec 5 :=
  let f := fmtF32
  match x with
  | .nan s => nanOut f s
  | .inf n => if n then (0, 0#5) else (infBits f false, 0#5)
  | .fin n m e =>
    if m = 0 then fRne f false 1 0 false
    else if 10 < e + bitLen m then (if n then fRne f false (2 ^ 64) (-100000) true else fRne f false (2 ^ 64) 100000 true)
    else if e + bitLen m < -100 then fRne f false (if n then 2 ^ 80 - 1 else 2 ^ 80) (-80) true
    else ziv f (tryExp f n m e) 8 192

/-- ln x to f32, with the special values of R289. -/
def lnV (x : Fv) : Nat × BitVec 5 :=
  let f := fmtF32
  match x with
  | .nan _ => nanOut f true
  | .inf n => if n then nanOut f true else (infBits f false, 0#5)
  | .fin n m e =>
    if m = 0 then (infBits f true, 0#5)
    else if n then nanOut f true
    else
      let b := bitLen m
      if m = 2 ^ (b - 1) ∧ e + b - 1 = 0 then (0, 0#5)
      else ziv f (tryLog f false m b e) 8 128

end Sys2Proof.Machine
end

