-- ==== Sys2Proof/Machine/Vector.lean ====
section
/-! DEFINITION. Vector pipe instructions: arithmetic, integer operations, comparisons, masks, conversions, reductions, moves (R197 to R210, R218, R221). -/

namespace Sys2Proof.Machine

open Sys2Proof.Config

/-! Issue of a V instruction. -/

/-- The rows of vector fields (R146). -/
def rowsOf (b : Job) (l : List VReg) : List Nat := l.map (rowOf b)

/-- A V instruction over rows: their tiles hold valid codes, and one code where `same` (R148, R197); it waits while one of them is busy (R199). DESIGN CHOICE (log 91): TILETYPE comes before the wait, and both before the other checks. -/
def vecIssue (words : Nat) (reads : List Reg) (rows : List VReg) (same : Bool) (s : State)
    (body : State → Nat → Nat → Job → List Nat → Res) : Result :=
  issue words { streams := [.v], reads := reads } s (fun s g =>
    match g with
    | .mgmt => raise cIllegal
    | .stream n j _ =>
      let b := jobOf s n j
      let rs := rowsOf b rows
      let codes := rs.map (rowCode b)
      if !codes.all validCode || (same && !codes.all (· == codes.headD 0)) then raise cTileType
      else if rs.any (fun r => tileBusy b (tileOf r)) then .wait s .waiting
      else body s n j b rs)

/-- The V stream of a job as an agent. -/
def vAgent (n j : Nat) : Agent := .stream n j .v

/-- Flags of lanes gathered. -/
def flagsOf (l : List (Nat × BitVec 5)) : BitVec 5 := l.foldl (fun f x => f ||| x.2) 0#5

/-- A row written with lane results, and their flags set (R199). -/
def putLanes (s : State) (n j row w : Nat) (l : List (Nat × BitVec 5)) : Res :=
  .ok (setFlags (writeRow s n row w (l.map (·.1))) (vAgent n j) (flagsOf l)) .seq

/-- One function of three lanes: a, b and the old d (R203). -/
abbrev LaneFn := Nat → Nat → Nat → Nat × BitVec 5

def map3 (f : LaneFn) : List Nat → List Nat → List Nat → List (Nat × BitVec 5)
  | x :: xs, y :: ys, z :: zs => f x y z :: map3 f xs ys zs
  | _, _, _ => []

/-- A lane operation of rows a and b into d, by the tile code; no function is TILETYPE (R203, R204). -/
def laneOp (d a b : VReg) (f : Nat → Option LaneFn) (s : State) : Result :=
  vecIssue 1 [] [d, a, b] true s (fun s n j job rs =>
    let code := rowCode job (rs.getD 0 0)
    match f code with
    | none => raise cTileType
    | some f =>
      let w := laneW code
      let row (i : Nat) : List Nat := readRow s n (rs.getD i 0) w
      putLanes s n j (rs.getD 0 0) w (map3 f (row 1) (row 2) (row 0)))

/-- The unary form: the function ignores b. -/
def laneOp1 (d a : VReg) (f : Nat → Option LaneFn) (s : State) : Result := laneOp d a a f s

/-- An integer lane result with no flag. -/
def intLane (z : Int) : Nat × BitVec 5 := (ofInt 32 z, 0#5)

/-- A function by kind of tile: floating formats, or i32. -/
def byCode (ff : Fmt → LaneFn) (fi : Option LaneFn) (code : Nat) : Option LaneFn :=
  if isFloat code then some (ff (fmtOf code)) else fi

/-- A lane as a signed integer. -/
def s32 (x : Nat) : Int := toInt 32 x

/-- Signed division of R118 at width 32. -/
def div32 (x y : Nat) : Nat :=
  let a := BitVec.ofNat 32 x
  let b := BitVec.ofNat 32 y
  (if b = 0#32 then -1#32 else BitVec.sdiv a b).toNat

/-- |x| in a format (R203). -/
def absF (f : Fmt) (x : Nat) : Nat × BitVec 5 :=
  match fDec f x with
  | .nan s => nanOut f s
  | _ => (x % 2 ^ fSign f, 0#5)
/-- -x in a format (R203). -/
def negF (f : Fmt) (x : Nat) : Nat × BitVec 5 :=
  match fDec f x with
  | .nan s => nanOut f s
  | _ => (if x.testBit (fSign f) then x % 2 ^ fSign f else x + 2 ^ fSign f, 0#5)
/-- The sign of x in a format (R203). -/
def sgnF (f : Fmt) (x : Nat) : Nat × BitVec 5 :=
  match fDec f x with
  | .nan s => nanOut f s
  | v =>
    if isZero v then (x, 0#5)
    else
      let one := (fBias f).toNat * 2 ^ f.mb
      (if x.testBit (fSign f) then one + 2 ^ fSign f else one, 0#5)

/-- vadd (R203). -/
def execVadd (d a b : VReg) (s : State) : Result :=
  laneOp d a b (byCode (fun f x y _ => addF f x y) (some (fun x y _ => intLane (s32 x + s32 y)))) s

/-- vsub (R203). -/
def execVsub (d a b : VReg) (s : State) : Result :=
  laneOp d a b (byCode (fun f x y _ => subF f x y) (some (fun x y _ => intLane (s32 x - s32 y)))) s

/-- vmul (R203). -/
def execVmul (d a b : VReg) (s : State) : Result :=
  laneOp d a b (byCode (fun f x y _ => mulF f x y) (some (fun x y _ => intLane (s32 x * s32 y)))) s

/-- vfma (R203). -/
def execVfma (d a b : VReg) (s : State) : Result :=
  laneOp d a b (byCode (fun f x y z => fmaF f x y z) (some (fun x y z => intLane (s32 x * s32 y + s32 z)))) s

/-- vfms (R203). -/
def execVfms (d a b : VReg) (s : State) : Result :=
  laneOp d a b (byCode (fun f x y z => fmaV f (fDec f x) (fDec f y) (negV (fDec f z))) (some (fun x y z => intLane (s32 x * s32 y - s32 z)))) s

/-- vfnma (R203). -/
def execVfnma (d a b : VReg) (s : State) : Result :=
  laneOp d a b (byCode (fun f x y z => fmaV f (negV (fDec f x)) (fDec f y) (fDec f z)) (some (fun x y z => intLane (s32 z - s32 x * s32 y)))) s

/-- vmin (R128, R203). -/
def execVmin (d a b : VReg) (s : State) : Result :=
  laneOp d a b (byCode (fun f x y _ => minmaxF false false f x y) (some (fun x y _ => intLane (min (s32 x) (s32 y))))) s

/-- vmax (R128, R203). -/
def execVmax (d a b : VReg) (s : State) : Result :=
  laneOp d a b (byCode (fun f x y _ => minmaxF true false f x y) (some (fun x y _ => intLane (max (s32 x) (s32 y))))) s

/-- vminp (R128, R203). -/
def execVminp (d a b : VReg) (s : State) : Result :=
  laneOp d a b (byCode (fun f x y _ => minmaxF false true f x y) (some (fun x y _ => intLane (min (s32 x) (s32 y))))) s

/-- vmaxp (R128, R203). -/
def execVmaxp (d a b : VReg) (s : State) : Result :=
  laneOp d a b (byCode (fun f x y _ => minmaxF true true f x y) (some (fun x y _ => intLane (max (s32 x) (s32 y))))) s

/-- vabs (R203). -/
def execVabs (d a : VReg) (s : State) : Result :=
  laneOp1 d a (byCode (fun f x _ _ => absF f x) (some (fun x _ _ => intLane (s32 x).natAbs))) s

/-- vneg (R203). -/
def execVneg (d a : VReg) (s : State) : Result :=
  laneOp1 d a (byCode (fun f x _ _ => negF f x) (some (fun x _ _ => intLane (-(s32 x))))) s

/-- vdiv (R118, R203). -/
def execVdiv (d a b : VReg) (s : State) : Result :=
  laneOp d a b (byCode (fun f x y _ => divF f x y) (some (fun x y _ => (div32 x y, 0#5)))) s

/-- vsqrt (R203): TILETYPE on i32. -/
def execVsqrt (d a : VReg) (s : State) : Result :=
  laneOp1 d a (byCode (fun f x _ _ => sqrtV f (fDec f x)) none) s

/-- vsgn (R203). -/
def execVsgn (d a : VReg) (s : State) : Result :=
  laneOp1 d a (byCode (fun f x _ _ => sgnF f x) (some (fun x _ _ => intLane (if s32 x < 0 then -1 else if s32 x = 0 then 0 else 1)))) s

/-- vand (R204). -/
def execVand (d a b : VReg) (s : State) : Result :=
  laneOp d a b (fun _ => some (fun x y _ => (x &&& y, 0#5))) s

/-- vor (R204). -/
def execVor (d a b : VReg) (s : State) : Result :=
  laneOp d a b (fun _ => some (fun x y _ => (x ||| y, 0#5))) s

/-- vxor (R204). -/
def execVxor (d a b : VReg) (s : State) : Result :=
  laneOp d a b (fun _ => some (fun x y _ => (x ^^^ y, 0#5))) s

/-- vnot (R204). -/
def execVnot (d a : VReg) (s : State) : Result :=
  laneOp1 d a (fun code => some (fun x _ _ => (2 ^ (8 * laneW code) - 1 - x, 0#5))) s

/-- An operation of i32 tiles alone (R204). -/
def i32Only (f : Nat → Nat → Int) (code : Nat) : Option LaneFn :=
  if code = 5 then some (fun x y _ => intLane (f x y)) else none

/-- Saturation to i32 (R204). -/
def clamp32 (z : Int) : Int := max (-(2 ^ 31)) (min z (2 ^ 31 - 1))

/-- vsll (R204). -/
def execVsll (d a b : VReg) (s : State) : Result :=
  laneOp d a b (i32Only (fun x y => ((x <<< (y % 32) : Nat) : Int))) s

/-- vsrl (R204). -/
def execVsrl (d a b : VReg) (s : State) : Result :=
  laneOp d a b (i32Only (fun x y => ((x >>> (y % 32) : Nat) : Int))) s

/-- vsra (R204). -/
def execVsra (d a b : VReg) (s : State) : Result :=
  laneOp d a b (i32Only (fun x y => s32 x >>> (y % 32))) s

/-- vaddsat (R204). -/
def execVaddsat (d a b : VReg) (s : State) : Result :=
  laneOp d a b (i32Only (fun x y => clamp32 (s32 x + s32 y))) s

/-- vsubsat (R204). -/
def execVsubsat (d a b : VReg) (s : State) : Result :=
  laneOp d a b (i32Only (fun x y => clamp32 (s32 x - s32 y))) s

/-- vmulhi (R204). -/
def execVmulhi (d a b : VReg) (s : State) : Result :=
  laneOp d a b (i32Only (fun x y => (s32 x * s32 y) >>> 32)) s

/-! Comparisons and masks (R205, R206). -/

/-- A list of truth values as a mask, lane 0 first. -/
def maskBits : List Bool → Nat
  | [] => 0
  | b :: r => (if b then 1 else 0) + 2 * maskBits r

/-- A relation of two i32 lanes (R205). -/
def relI (r : Rel) (x y : Int) : Bool :=
  match r with
  | .eq => x == y | .ne => x != y | .lt => x < y | .le => x ≤ y | .gt => x > y | .ge => x ≥ y | .un => false

/-- A comparison into a mask register (R205). -/
def cmpOp (d : MReg) (a b : VReg) (r : Rel) (s : State) : Result :=
  vecIssue 1 [] [a, b] true s (fun s n j job rs =>
    let code := rowCode job (rs.getD 0 0)
    let w := laneW code
    let f (x y : Nat) : Bool × BitVec 5 :=
      if isFloat code then relV r (fDec (fmtOf code) x) (fDec (fmtOf code) y) else (relI r (s32 x) (s32 y), 0#5)
    let l := List.zipWith f (readRow s n (rs.getD 0 0) w) (readRow s n (rs.getD 1 0) w)
    let s := modJob s n j (fun b => setMask b d (BitVec.ofNat 256 (maskBits (l.map (·.1)))))
    .ok (setFlags s (vAgent n j) (l.foldl (fun z x => z ||| x.2) 0#5)) .seq)

/-- vceq (R120, R205). -/
def execVceq (d : MReg) (a b : VReg) (s : State) : Result := cmpOp d a b .eq s

/-- vcne (R120, R205). -/
def execVcne (d : MReg) (a b : VReg) (s : State) : Result := cmpOp d a b .ne s

/-- vclt (R120, R205). -/
def execVclt (d : MReg) (a b : VReg) (s : State) : Result := cmpOp d a b .lt s

/-- vcle (R120, R205). -/
def execVcle (d : MReg) (a b : VReg) (s : State) : Result := cmpOp d a b .le s

/-- vcgt (R120, R205). -/
def execVcgt (d : MReg) (a b : VReg) (s : State) : Result := cmpOp d a b .gt s

/-- vcge (R120, R205). -/
def execVcge (d : MReg) (a b : VReg) (s : State) : Result := cmpOp d a b .ge s

/-- vcun (R120, R205). -/
def execVcun (d : MReg) (a b : VReg) (s : State) : Result := cmpOp d a b .un s

/-- Lanes of a row with those whose bit is set replaced. -/
def selLanes (m : BitVec 256) (old new : List Nat) : List Nat :=
  (List.range old.length).map (fun i => if m.getLsbD i then new.getD i 0 else old.getD i 0)

/-- vsel (R206). -/
def execVsel (d a : VReg) (b : MReg) (s : State) : Result :=
  vecIssue 1 [] [d, a] true s (fun s n _ job rs =>
    let w := laneW (rowCode job (rs.getD 0 0))
    .ok (writeRow s n (rs.getD 0 0) w (selLanes (maskOf job b) (readRow s n (rs.getD 0 0) w) (readRow s n (rs.getD 1 0) w))) .seq)

/-- A mask instruction: it names no tile and never waits on one (R206). -/
def maskOp (s : State) (body : State → Nat → Nat → Job → Res) : Result :=
  issue 1 { streams := [.v] } s (fun s g =>
    match g with
    | .mgmt => raise cIllegal
    | .stream n j _ => body s n j (jobOf s n j))

/-- mand (R206). -/
def execMand (d a b : MReg) (s : State) : Result :=
  maskOp s (fun s n j k => .ok (modJob s n j (fun x => setMask x d (maskOf k a &&& maskOf k b))) .seq)
/-- mor (R206). -/
def execMor (d a b : MReg) (s : State) : Result :=
  maskOp s (fun s n j k => .ok (modJob s n j (fun x => setMask x d (maskOf k a ||| maskOf k b))) .seq)
/-- mxor (R206). -/
def execMxor (d a b : MReg) (s : State) : Result :=
  maskOp s (fun s n j k => .ok (modJob s n j (fun x => setMask x d (maskOf k a ^^^ maskOf k b))) .seq)
/-- mnot (R206). -/
def execMnot (d a : MReg) (s : State) : Result :=
  maskOp s (fun s n j k => .ok (modJob s n j (fun x => setMask x d (~~~maskOf k a))) .seq)
/-- mpop (R206). -/
def execMpop (d : Reg) (a : MReg) (s : State) : Result :=
  maskOp s (fun s n j k => .ok (setReg s (vAgent n j) d (w64 (popBelow (maskOf k a).toNat 256))) .seq)
/-- mfirst (R206). -/
def execMfirst (d : Reg) (a : MReg) (s : State) : Result :=
  maskOp s (fun s n j k => .ok (setReg s (vAgent n j) d (w64 (lowBit (maskOf k a).toNat 256 256 0))) .seq)

/-! Conversions (R207). -/

/-- The type code of a target (R8). -/
def cvtCode : CvtType → Nat
  | .f32 => 0 | .bf16 => 1 | .f16 => 2 | .i32 => 5

/-- cvt of R207 between tile types. -/
def cvtLane (src dst : Nat) (md : Mode) (sat : Bool) (x : Nat) : Nat × BitVec 5 :=
  if isFloat src then
    if isFloat dst then
      if src = dst then (match fDec (fmtOf src) x with | .nan s => nanOut (fmtOf src) s | _ => (x, 0#5))
      else cvtFF (fmtOf src) (fmtOf dst) md sat x
    else cvtFI (fmtOf src) 32 md x
  else if isFloat dst then
    let z := s32 x
    fRound (fmtOf dst) md sat (z < 0) z.natAbs 0 false
  else (x, 0#5)

/-- vcvt (R207). DESIGN CHOICE (log 91): which cause is raised where several checks fail, and where the wait stands: TILETYPE of the rows, the wait, TILETYPE of the target code, ILLEGAL. -/
def execVcvt (d a : VReg) (h : BitVec 1) (t : CvtType) (rm : Rounding) (sat : Bool) (s : State) : Result :=
  vecIssue 1 [] [d, a] false s (fun s n j job rs =>
    let rd := rs.getD 0 0
    let ra := rs.getD 1 0
    let src := rowCode job ra
    let dst := cvtCode t
    let cv := cvtLane src dst (modeOf rm) sat
    if rowCode job rd ≠ dst then raise cTileType
    else if laneW src = laneW dst then
      if h ≠ 0#1 then raise cIllegal
      else putLanes s n j rd (laneW dst) ((readRow s n ra (laneW src)).map cv)
    else if laneW src = 4 then
      let r := (readRow s n ra 4).map cv
      let old := readRow s n rd 2
      let new := r.map (·.1)
      let l := if h = 0#1 then new ++ old.drop 128 else old.take 128 ++ new
      .ok (setFlags (writeRow s n rd 2 l) (vAgent n j) (flagsOf r)) .seq
    else putLanes s n j rd 4 ((((readRow s n ra 2).drop (128 * h.toNat)).take 128).map cv))

/-! Reductions and scans (R129, R208, R209). -/

/-- A lane of a floating tile widened to f32, exactly: a NaN stays the NaN it is, a signalling one for the operation that takes it (R128, R129). -/
def widenF (code x : Nat) : Fl :=
  if code = 0 then (x, 0#5)
  else
    let f := fmtOf code
    match fDec f x with
    | .nan _ => (x / 2 ^ (f.eb + f.mb) % 2 * 2 ^ 31 + 0x7F800000 + x % 2 ^ f.mb * 2 ^ (23 - f.mb), 0#5)
    | _ => cvtFF f fmtF32 .rne false x

/-- An f32 value with flags rounded once more to a tile's type; a NaN becomes canonical for f32 too (R117, R124). -/
def narrowF (code : Nat) (r : Fl) : Fl :=
  let o := cvtFF fmtF32 (fmtOf code) .rne false r.1
  (o.1, r.2 ||| o.2)

/-- The f32 operation of a reduction (R129). -/
def redF (o : ScanOp) : Nat → Nat → Nat × BitVec 5 :=
  match o with
  | .add => addF fmtF32
  | .max => minmaxF true false fmtF32
  | .min => minmaxF false false fmtF32
/-- Its identity: -0, -∞ or +∞ (R129). -/
def idF : ScanOp → Nat
  | .add => 0x80000000 | .max => 0xFF800000 | .min => 0x7F800000
/-- The i32 operation of a reduction. -/
def redI (o : ScanOp) (x y : Int) : Int :=
  match o with
  | .add => toInt 32 (ofInt 32 (x + y)) | .max => max x y | .min => min x y
def idI : ScanOp → Int
  | .add => 0 | .max => -(2 ^ 31) | .min => 2 ^ 31 - 1

/-- The masked lanes of a row through the halving tree, in the tile's type (R129, R208). -/
def reduceRow (o : ScanOp) (code : Nat) (m : BitVec 256) (l : List Nat) : Nat × BitVec 5 :=
  let n := l.length
  let pick {α : Type} (f : Nat → α) (e : α) : List α := (List.range n).map (fun i => if m.getLsbD i then f (l.getD i 0) else e)
  if isFloat code then
    narrowF code ((halve (withFl (redF o)) (Nat.log2 n) (pick (widenF code) (idF o, 0#5))).headD (idF o, 0#5))
  else (ofInt 32 ((halve (redI o) (Nat.log2 n) (pick s32 (idI o))).headD (idI o)), 0#5)

/-- A reduction into lane 0 (R208). -/
def redOp (d a : VReg) (m : MReg) (o : ScanOp) (s : State) : Result :=
  vecIssue 1 [] [d, a] true s (fun s n j job rs =>
    let code := rowCode job (rs.getD 0 0)
    let w := laneW code
    let r := reduceRow o code (maskOf job m) (readRow s n (rs.getD 1 0) w)
    .ok (setFlags (writeRow s n (rs.getD 0 0) w (r.1 :: (readRow s n (rs.getD 0 0) w).drop 1)) (vAgent n j) r.2) .seq)

/-- vrsum (R208). -/
def execVrsum (d a : VReg) (m : MReg) (s : State) : Result := redOp d a m .add s
/-- vrmax (R208). -/
def execVrmax (d a : VReg) (m : MReg) (s : State) : Result := redOp d a m .max s
/-- vrmin (R208). -/
def execVrmin (d a : VReg) (m : MReg) (s : State) : Result := redOp d a m .min s

/-- A floating scan (R209): the running f32 value, with each output rounded on its own. -/
def scanF (o : ScanOp) (code : Nat) (m : BitVec 256) : Nat → Nat → List Nat → List Fl
  | _, _, [] => []
  | i, r, x :: xs =>
    let w := widenF code x
    let q := if m.getLsbD i then withFl (redF o) (r, 0#5) w else (r, 0#5)
    narrowF code q :: scanF o code m (i + 1) q.1 xs

/-- An i32 scan (R209). -/
def scanI (o : ScanOp) (m : BitVec 256) : Nat → Int → List Nat → List Fl
  | _, _, [] => []
  | i, r, x :: xs =>
    let q := if m.getLsbD i then redI o r (s32 x) else r
    intLane q :: scanI o m (i + 1) q xs

/-- vscan (R209). -/
def execVscan (d a : VReg) (o : ScanOp) (m : MReg) (s : State) : Result :=
  vecIssue 1 [] [d, a] true s (fun s n j job rs =>
    let code := rowCode job (rs.getD 0 0)
    let l := readRow s n (rs.getD 1 0) (laneW code)
    putLanes s n j (rs.getD 0 0) (laneW code)
      (if isFloat code then scanF o code (maskOf job m) 0 (idF o) l else scanI o (maskOf job m) 0 (idI o) l))

/-! Moves (R202, R210, R218). -/

/-- vmov (R210). -/
def execVmov (d a : VReg) (s : State) : Result :=
  vecIssue 1 [] [d, a] true s (fun s n _ _ rs => .ok (writeRow s n (rs.getD 0 0) 4 (readRow s n (rs.getD 1 0) 4)) .seq)

/-- vbcast (R210). -/
def execVbcast (d : VReg) (a : Reg) (s : State) : Result :=
  vecIssue 1 [a] [d] true s (fun s n j job rs =>
    let code := rowCode job (rs.getD 0 0)
    let x := bitsAt (reg s (vAgent n j) a) 0 (8 * laneW code)
    .ok (writeRow s n (rs.getD 0 0) (laneW code) (List.replicate (laneN code) x)) .seq)

/-- vext (R210). -/
def execVext (d : Reg) (a : VReg) (b : Reg) (s : State) : Result :=
  vecIssue 1 [b] [a] true s (fun s n j job rs =>
    let code := rowCode job (rs.getD 0 0)
    let x := (readRow s n (rs.getD 0 0) (laneW code)).getD ((reg s (vAgent n j) b).toNat % laneN code) 0
    .ok (setReg s (vAgent n j) d (if code = 5 then sextN 32 (w64 x) else w64 x)) .seq)

/-- vins (R210). -/
def execVins (d : VReg) (a b : Reg) (s : State) : Result :=
  vecIssue 1 [a, b] [d] true s (fun s n j job rs =>
    let code := rowCode job (rs.getD 0 0)
    let w := laneW code
    let x := bitsAt (reg s (vAgent n j) a) 0 (8 * w)
    .ok (writeRow s n (rs.getD 0 0) w ((readRow s n (rs.getD 0 0) w).set ((reg s (vAgent n j) b).toNat % laneN code) x)) .seq)

/-- vrot (R210). -/
def execVrot (d a : VReg) (b : Reg) (s : State) : Result :=
  vecIssue 1 [b] [d, a] true s (fun s n j job rs =>
    let code := rowCode job (rs.getD 0 0)
    let l := readRow s n (rs.getD 1 0) (laneW code)
    .ok (writeRow s n (rs.getD 0 0) (laneW code) (l.rotateLeft ((reg s (vAgent n j) b).toNat % laneN code))) .seq)

/-- vidx (R210). -/
def execVidx (d : VReg) (a : Reg) (s : State) : Result :=
  vecIssue 1 [a] [d] true s (fun s n j job rs =>
    let code := rowCode job (rs.getD 0 0)
    let x := bitsAt (reg s (vAgent n j) a) 0 32
    putLanes s n j (rs.getD 0 0) (laneW code) ((List.range (laneN code)).map (fun (i : Nat) =>
      if isFloat code then cvtIF (fmtOf code) .rne (s32 x + (i : Int)) else ((x + i) % 2 ^ 32, 0#5))))

/-- Pairings of types of vpack and vunpk (R210). -/
def is16 (c : Nat) : Bool := c == 1 || c == 2
def is32 (c : Nat) : Bool := c == 0 || c == 5

/-- vpack (R210). -/
def execVpack (d a b : VReg) (s : State) : Result :=
  vecIssue 1 [] [d, a, b] false s (fun s n _ job rs =>
    let c (i : Nat) : Nat := rowCode job (rs.getD i 0)
    if !(is16 (c 0) && is32 (c 1) && c 1 == c 2) then raise cTileType
    else
      let half (i : Nat) : List Nat := (readRow s n (rs.getD i 0) 4).map (· % 2 ^ 16)
      .ok (writeRow s n (rs.getD 0 0) 2 (half 1 ++ half 2)) .seq)

/-- vunpk (R210). -/
def execVunpk (d a : VReg) (h : BitVec 1) (s : State) : Result :=
  vecIssue 1 [] [d, a] false s (fun s n _ job rs =>
    let c (i : Nat) : Nat := rowCode job (rs.getD i 0)
    if !(is32 (c 0) && is16 (c 1)) then raise cTileType
    else .ok (writeRow s n (rs.getD 0 0) 4 (((readRow s n (rs.getD 1 0) 2).drop (128 * h.toNat)).take 128)) .seq)

/-- vcmpk (R218). -/
def execVcmpk (d a : VReg) (b : MReg) (s : State) : Result :=
  vecIssue 1 [] [d, a] true s (fun s n _ job rs =>
    let code := rowCode job (rs.getD 0 0)
    let l := readRow s n (rs.getD 1 0) (laneW code)
    let kept := ((List.range (laneN code)).filter (fun i => (maskOf job b).getLsbD i)).map (fun i => l.getD i 0)
    .ok (writeRow s n (rs.getD 0 0) (laneW code) (kept ++ List.replicate (laneN code - kept.length) 0)) .seq)

/-- vexpd (R218). -/
def execVexpd (d a : VReg) (b : MReg) (s : State) : Result :=
  vecIssue 1 [] [d, a] true s (fun s n _ job rs =>
    let code := rowCode job (rs.getD 0 0)
    let w := laneW code
    let m := maskOf job b
    let l := readRow s n (rs.getD 1 0) w
    let old := readRow s n (rs.getD 0 0) w
    .ok (writeRow s n (rs.getD 0 0) w ((List.range (laneN code)).map (fun i =>
      if m.getLsbD i then l.getD (popBelow m.toNat i) 0 else old.getD i 0))) .seq)

/-- A function of one floating lane; i32 tiles raise TILETYPE (R221). -/
def floatLane (d a : VReg) (f : Fmt → Nat → Nat × BitVec 5) (s : State) : Result :=
  laneOp1 d a (byCode (fun m x _ _ => f m x) none) s

/-- vexp2 (R221). -/
def execVexp2 (d a : VReg) (s : State) : Result := floatLane d a (fun f x => exp2V f (fDec f x)) s
/-- vlog2 (R221). -/
def execVlog2 (d a : VReg) (s : State) : Result := floatLane d a (fun f x => log2V f (fDec f x)) s

end Sys2Proof.Machine
end

