-- ==== Sys2Proof/Machine/VMem.lean ====
section
/-! DEFINITION. Vector instructions that go through the VQ, their performance, and the table unit (R200, R211 to R217, R219, R220). -/

namespace Sys2Proof.Machine

open Sys2Proof.Config

/-- An operation enters the VQ, or waits while 64 are outstanding (R200). -/
def vqPut (s : State) (n j : Nat) (k : OpKind) (names : List Handle) : Res :=
  if 64 ≤ swc (jobOf s n j) then .wait s .waiting else .ok (enqueue s (vAgent n j) .vq k names) .seq

/-- The checks of a run of whole rows in scratchpad: alignment to 64, then extent (R212). -/
def extentCheck (off len : Nat) : Option Byte :=
  if off % 64 ≠ 0 then some cAlign
  else if scratchSize < off + len then some cXlatPerm
  else none

/-- The vector fields of n consecutive rows (R212). -/
def fieldsFrom (d : VReg) (n : Nat) : List VReg := (List.range (min n 64)).map (fun i => d + BitVec.ofNat 6 i)

/-- Checks and waits of the rows that vld, vst, vldq and vstq move: valid codes, no busy tile (R148, R197, R199). -/
def rawRows (s : State) (b : Job) (row n : Nat) : Option Res :=
  let rs := rowsFrom row n
  if !(rs.map (rowCode b)).all validCode then some (raise cTileType)
  else if rs.any (fun r => tileBusy b (tileOf r)) then some (.wait s .waiting)
  else none

/-- vld and vst (R212). DESIGN CHOICE (log 91): which cause is raised where several checks fail: ALIGN, XLAT_PERM, TILETYPE. -/
def vldstOp (d : VReg) (a : Reg) (n : BitVec 6) (mk : Nat → Nat → Nat → OpKind) (s : State) : Result :=
  issue 1 { streams := [.v], reads := [a] } s (fun s g =>
    match g with
    | .mgmt => raise cIllegal
    | .stream c j _ =>
      let b := jobOf s c j
      let row := rowOf b d
      let k := n.toNat + 1
      let off := off21 (reg s g a)
      match extentCheck off (512 * k) with
      | some e => raise e
      | none =>
        match rawRows s b row k with
        | some r => r
        | none => vqPut s c j (mk row off k) [])

/-- vld (R212). -/
def execVld (d : VReg) (a : Reg) (n : BitVec 6) (s : State) : Result := vldstOp d a n .vld s
/-- vst (R212). -/
def execVst (d : VReg) (a : Reg) (n : BitVec 6) (s : State) : Result := vldstOp d a n .vst s

/-- vldq and vstq (R213): n slots of 512 bytes. DESIGN CHOICE (log 91): which cause is raised where several checks fail, and where the waits stand: QUEUE, the slots, TILETYPE. -/
def vqueueOp (d : VReg) (q : Handle) (n : BitVec 3) (load : Bool) (s : State) : Result :=
  issue 1 { streams := [.v] } s (fun s g =>
    match g with
    | .mgmt => raise cIllegal
    | .stream c j _ =>
      let b := jobOf s c j
      let row := rowOf b d
      let k := n.toNat + 1
      match queueFor s g q (if load then .consumer else .producer) with
      | none => raise cQueue
      | some e =>
        if e.lgs ≠ 9 ∨ qCount e < k then raise cQueue
        else if (if load then qFilled e else qFree e) < k then .wait s (.onQueue q k (!load))
        else
          match rawRows s b row k with
          | some r => r
          | none => vqPut s c j (if load then .vldq row q e.head k else .vstq row q e.tail k) [q])

/-- vldq (R213). -/
def execVldq (d : VReg) (q : Handle) (n : BitVec 3) (s : State) : Result := vqueueOp d q n true s
/-- vstq (R213). -/
def execVstq (d : VReg) (q : Handle) (n : BitVec 3) (s : State) : Result := vqueueOp d q n false s

/-- vgat and vsct (R214): row d gives the width. DESIGN CHOICE (log 91): which cause is raised where several checks fail, and where the wait stands: TILETYPE, the wait, ALIGN, XLAT_PERM. -/
def vindexOp (d a : VReg) (r : Reg) (mk : Nat → Nat → Nat → Nat → OpKind) (s : State) : Result :=
  vecIssue 1 [r] [d, a] false s (fun s n j b rs =>
    let w := laneW (rowCode b (rs.getD 0 0))
    let off := off21 (reg s (vAgent n j) r)
    if off % w ≠ 0 then raise cAlign
    else if scratchSize ≤ off then raise cXlatPerm
    else vqPut s n j (mk (rs.getD 0 0) (rs.getD 1 0) off w) [])

/-- vgat (R214). -/
def execVgat (d a : VReg) (b : Reg) (s : State) : Result := vindexOp d a b .vgat s
/-- vsct (R214). -/
def execVsct (d a : VReg) (b : Reg) (s : State) : Result := vindexOp d a b .vsct s

/-- vperm (R211): rows d and a agree; row b holds any valid code. -/
def execVperm (d a b : VReg) (s : State) : Result :=
  vecIssue 1 [] [d, a, b] false s (fun s n j k rs =>
    if rowCode k (rs.getD 0 0) ≠ rowCode k (rs.getD 1 0) then raise cTileType
    else vqPut s n j (.vperm (rs.getD 0 0) (rs.getD 1 0) (rs.getD 2 0) (laneW (rowCode k (rs.getD 0 0)))) [])

/-- swait (R215). -/
def execSwait (n : BitVec 6) (s : State) : Result :=
  issue 1 { streams := [.v] } s (fun s g => if swc (agentJob s g) ≤ n.toNat then .ok s .seq else .wait s .waiting)

/-- vpart (R217): the mask is read at issue. DESIGN CHOICE (log 91): which cause is raised where several checks fail, and where the wait stands: TILETYPE, the wait, QUEUE. -/
def execVpart (q : Handle) (a : VReg) (m : MReg) (s : State) : Result :=
  vecIssue 1 [] [a] true s (fun s n j b rs =>
    if q = 31#5 then raise cQueue
    else
      match queueFor s (vAgent n j) q .producer, queueFor s (vAgent n j) (q + 1#5) .producer with
      | some e, some f =>
        if e.lgs ≠ 9 ∨ f.lgs ≠ 9 then raise cQueue
        else if qFree e < 1 then .wait s (.onQueue q 1 true)
        else if qFree f < 1 then .wait s (.onQueue (q + 1#5) 1 true)
        else vqPut s n j (.vpart q (rs.getD 0 0) e.tail f.tail (laneN (rowCode b (rs.getD 0 0))) (maskOf b m).toNat) [q, q + 1#5]
      | _, _ => raise cQueue)

/-- vtcfg (R219). DESIGN CHOICE (log 91): which cause is raised where several checks fail: ILLEGAL, ALIGN, XLAT_PERM. -/
def execVtcfg (t : BitVec 2) (a b : Reg) (kind : BitVec 1) (hi lo : OobMode) (e : BitVec 8) (nm1 : BitVec 12) (s : State) : Result :=
  issue 2 { streams := [.v], reads := [a, b] } s (fun s g =>
    match g with
    | .mgmt => raise cIllegal
    | .stream n j _ =>
      let cnt := nm1.toNat + 1
      let off := off21 (reg s g a)
      let x0 := bitsAt (reg s g b) 0 32
      let bytes := cnt * (if kind = 0#1 then 4 else 12)
      let finite := match fDec fmtF32 x0 with | .fin _ _ _ => true | _ => false
      let oob (m : OobMode) : Nat := match m with | .clamp => 0 | .identity => 1 | .zero => 2 | .extend => 3
      if (kind = 0#1 ∧ cnt < 2) ∨ (kind = 1#1 ∧ 1365 < cnt) ∨ !finite then raise cIllegal
      else match extentCheck off bytes with
        | some c => raise c
        | none => vqPut s n j (.vtcfg t.toNat off x0 kind.toNat (oob hi) (oob lo) e.toInt cnt) [])

/-! Performance of VQ operations. -/

/-- The engine status word of a failing unit (R300). -/
def faultWord (cause : Byte) (m detail : Nat) : Word := w64 (2 ^ 63 + cause.toNat * 2 ^ 48 + m % 16 * 2 ^ 44 + detail % 2 ^ 32)

/-- Lane indices of an index row: none for a pad (R214). -/
def indexLanes (s : State) (n row w : Nat) : List (Option Nat) :=
  (readRow s n row w).map (fun x => if x = 2 ^ (8 * w) - 1 then none else some x)

/-- The first lane whose index leaves the scratchpad (R214). -/
def badLane (off w : Nat) (l : List (Option Nat)) : Option Nat :=
  (List.range l.length).find? (fun i => match l.getD i none with | some x => scratchSize < off + w * x + w | none => false)

/-- Entries of one arm of vpart: lane numbers, then pads (R217). -/
def armBytes (lanes w mask : Nat) (bit : Bool) : List Byte :=
  let l := (List.range lanes).filter (fun i => mask.testBit i == bit)
  bytesOf w (l ++ List.replicate (lanes - l.length) (2 ^ (8 * w) - 1))

/-- Byte offset of a queue slot by its pointer. -/
def slotAt (s : State) (n j : Nat) (q : Handle) (p : Nat) : Nat := qSlot (descOf s n j q) p

def oobOf : Nat → OobMode
  | 0 => .clamp | 1 => .identity | 2 => .zero | _ => .extend

/-- What a VQ operation of this chapter does when it is performed (R200, R211 to R214, R217, R219): its state, or the failing lane of an INDEX. Floe operations leave the state to their own definition. -/
def vqBody (s : State) (n j : Nat) : OpKind → Except Nat State
  | .vld row off k => .ok ((List.range k).foldl (fun s i =>
      { s with mem := memWrite s.mem (rowAt n ((row + i) % 1024)) (spRead s n (off + 512 * i) 512) }) s)
  | .vst row off k => .ok ((List.range k).foldl (fun s i =>
      spWrite s n (off + 512 * i) (memReadN s.mem (rowAt n ((row + i) % 1024)) 512)) s)
  | .vldq row q p k => .ok ((List.range k).foldl (fun s i =>
      { s with mem := memWrite s.mem (rowAt n ((row + i) % 1024)) (spRead s n (slotAt s n j q (p + i)) 512) }) s)
  | .vstq row q p k => .ok ((List.range k).foldl (fun s i =>
      spWrite s n (slotAt s n j q (p + i)) (memReadN s.mem (rowAt n ((row + i) % 1024)) 512)) s)
  | .vgat d a off w =>
    let idx := indexLanes s n a w
    match badLane off w idx with
    | some i => .error i
    | none => .ok (writeRow s n d w (idx.map (fun x => match x with | some x => leNat (spRead s n (off + w * x) w) | none => 0)))
  | .vsct d a off w =>
    let idx := indexLanes s n a w
    match badLane off w idx with
    | some i => .error i
    | none => .ok ((List.zip idx (readRow s n d w)).foldl (fun s p =>
        match p.1 with | some x => spWrite s n (off + w * x) (leBytes w p.2) | none => s) s)
  | .vperm d a b w =>
    let l := readRow s n a w
    .ok (writeRow s n d w ((readRow s n b w).map (fun x => l.getD (x % l.length) 0)))
  | .vpart h _ p p' lanes mask =>
    let w := 512 / lanes
    let s := spWrite s n (slotAt s n j h p) (armBytes lanes w mask true)
    .ok (spWrite s n (slotAt s n j (h + 1#5) p') (armBytes lanes w mask false))
  | .vtcfg t off x0 kind hi lo e cnt =>
    let k := if kind = 0 then cnt else 3 * cnt
    .ok (modJob s n j (fun b => { b with tables := tset b.tables t (TableSlot.mk kind (oobOf hi) (oobOf lo) e x0 cnt (lanesOf 4 k (spRead s n off (4 * k)))) }))
  | _ => .ok s

/-! The table unit (R220). -/

/-- Where a table value falls: its side and mode (R220). -/
def tableMode (t : TableSlot) (hi : Nat) (x : Nat) : Option (Bool × OobMode) :=
  if (relV .lt (fDec fmtF32 x) (fDec fmtF32 0)).1 then some (true, t.lo)
  else if (relV .gt (fDec fmtF32 x) (fDec fmtF32 (cvtIF fmtF32 .rne hi).1)).1 then some (false, t.hi)
  else none

/-- floor of a nonnegative finite f32. -/
def floorF (x : Nat) : Nat := (cvtFI fmtF32 32 .rtz x).1

/-- The table instructions (R220). -/
inductive TabForm where | near | linear | quad
  deriving DecidableEq, Repr

/-- eval(j, f) of R220. -/
def tabEval (form : TabForm) (t : TableSlot) (j f : Nat) : Fl :=
  let at' (i : Nat) : Nat := t.words.getD i 0
  match form with
  | .near =>
    let half := 0x3F000000
    let k := if (relV .lt (fDec fmtF32 f) (fDec fmtF32 half)).1 then j
      else if (relV .gt (fDec fmtF32 f) (fDec fmtF32 half)).1 then j + 1
      else if j % 2 = 0 then j else j + 1
    (at' k, 0#5)
  | .linear =>
    let d := subF fmtF32 (at' (j + 1)) (at' j)
    let y := fmaF fmtF32 f d.1 (at' j)
    (y.1, d.2 ||| y.2)
  | .quad =>
    let y := fmaF fmtF32 (at' (3 * j + 2)) f (at' (3 * j + 1))
    let z := fmaF fmtF32 y.1 f (at' (3 * j))
    (z.1, y.2 ||| z.2)

/-- One lane through a table, in f32 (R220). -/
def tabLane (form : TabForm) (t : TableSlot) (x : Fl) : Fl :=
  match fDec fmtF32 x.1 with
  | .nan sg => (fNan fmtF32, x.2 ||| flagIf sg fNV)
  | _ =>
    let u := subF fmtF32 x.1 t.x0
    let v := match fDec fmtF32 u.1 with
      | .fin n m e => fRne fmtF32 n m (e - t.e) false
      | _ => (u.1, 0#5)
    let fl := x.2 ||| u.2 ||| v.2
    let hi := if t.kind = 0 then t.n - 1 else t.n
    let hiF := (cvtIF fmtF32 .rne hi).1
    let side := tableMode t hi v.1
    let mode := match side with
      | some (_, .extend) => if form == TabForm.near then some OobMode.clamp else some .extend
      | some (_, m) => some m
      | none => none
    match mode with
    | some .identity => (x.1, fl)
    | some .zero => (0, fl)
    | _ =>
      let low := match side with | some (l, _) => l | none => false
      let tv := if mode == some OobMode.clamp then (if low then 0 else hiF) else v.1
      let j := if mode == some OobMode.extend then (if low then 0 else hi - 1) else min (floorF tv) (hi - 1)
      let f := subF fmtF32 tv (cvtIF fmtF32 .rne j).1
      let y := tabEval form t j f.1
      (y.1, fl ||| f.2 ||| y.2)

/-- A table instruction (R220): it waits for an earlier vtcfg of its slot (R219). -/
def tabOp (form : TabForm) (d a : VReg) (t : BitVec 2) (s : State) : Result :=
  vecIssue 1 [] [d, a] true s (fun s n j b rs =>
    let code := rowCode b (rs.getD 0 0)
    if !isFloat code then raise cTileType
    else if b.vq.any (fun o => match o.kind with | .vtcfg u _ _ _ _ _ _ _ => u == t.toNat | _ => false) then .wait s .waiting
    else
      match tfind b.tables t.toNat with
      | none => raise cIllegal
      | some tb =>
        if tb.kind ≠ (if form == TabForm.quad then 1 else 0) then raise cIllegal
        else putLanes s n j (rs.getD 0 0) (laneW code)
          ((readRow s n (rs.getD 1 0) (laneW code)).map (fun x => narrowF code (tabLane form tb (widenF code x)))))

/-- vtab (R220). -/
def execVtab (d a : VReg) (t : BitVec 2) (s : State) : Result := tabOp .near d a t s
/-- vtabl (R220). -/
def execVtabl (d a : VReg) (t : BitVec 2) (s : State) : Result := tabOp .linear d a t s
/-- vtabq (R220). -/
def execVtabq (d a : VReg) (t : BitVec 2) (s : State) : Result := tabOp .quad d a t s

end Sys2Proof.Machine
end

