-- ==== Sys2Proof/Machine/Matrix.lean ====
section
/-! DEFINITION. Matrix and sparsity instructions, and the matrix engine (R130, R131, R252 to R272). -/

namespace Sys2Proof.Machine

open Sys2Proof.Config

/-! The configuration (R252, R253). -/

def cfgA (w : Word) : Nat := bitsAt w 0 4
def cfgB (w : Word) : Nat := bitsAt w 4 4
def cfgK (w : Word) : Nat := bitsAt w 8 12 + 1
def cfgBand (w : Word) : Nat := bitsAt w 20 4
def cfgBase (w : Word) : Nat := bitsAt w 27 21
def cfgRows (w : Word) : Nat := bitsAt w 48 16

/-- Element size of an input type code. -/
def inSize (code : Nat) : Nat := if code = 1 ∨ code = 2 then 2 else 1
/-- The step size S (R253). -/
def stepSize (code : Nat) : Nat := if inSize code = 2 then 64 else 128
def kBlocks (w : Word) : Nat := ceilDiv (cfgK w) 16
def kSteps (w : Word) : Nat := ceilDiv (cfgK w) (stepSize (cfgA w))
/-- Row pitch of a gathered A (R253). -/
def aPitch (w : Word) : Nat := kBlocks w * 16 * inSize (cfgA w)
/-- The accumulator's code (R253). -/
def accCode (w : Word) : Nat := if cfgA w = 7 then 5 else 0

/-- The checks of mcfg (R253; their order is a DESIGN CHOICE, log 91). -/
def cfgCheck (w : Word) : Option Byte :=
  let a := cfgA w
  let b := cfgB w
  let e8 (x : Nat) : Bool := x == 3 || x == 4
  if !((a == b && (a == 1 || a == 2 || a == 7)) || (e8 a && e8 b)) || bitsAt w 24 3 ≠ 0 then some cIllegal
  else if cfgBase w % 64 ≠ 0 then some cAlign
  else if scratchSize < cfgBase w + cfgRows w * aPitch w then some cXlatPerm
  else none

/-! Headers and metadata (R256, R257). -/

structure Header where
  magic : Nat
  n : Nat
  m : Nat
  type : Nat
  flags : Nat
  k : Nat
  ce : Nat
  groups : Nat
  crc : Nat
  deriving DecidableEq, Repr

def parseHeader (l : List Byte) : Header :=
  { magic := fieldAt l 0 2, n := fieldAt l 2 1, m := fieldAt l 3 1, type := fieldAt l 4 1, flags := fieldAt l 5 1
    k := fieldAt l 6 2, ce := fieldAt l 8 2, groups := fieldAt l 10 2, crc := fieldAt l 12 4 }

def isDense (h : Header) : Bool := h.flags / 2 % 2 = 1

/-- The fields of a header other than its magic and type, for its kind of tile (R256). -/
def shapeOk (h : Header) : Bool :=
  1 ≤ h.ce && h.ce ≤ 128 && 1 ≤ h.k && h.k ≤ 4096 && h.flags < 8
    && (if isDense h then h.n == 0 && h.m == 0 && h.flags % 2 == 0 && h.groups == 0 && h.crc == 0
      else (h.m == 2 || h.m == 4 || h.m == 8 || h.m == 16) && 1 ≤ h.n && h.n < h.m && (h.flags % 2 == 0 || h.m == 4)
        && h.k % h.m == 0 && h.groups == h.k / h.m)

/-- Whether a header is well formed, else its cause (R256). -/
def headerFault (h : Header) : Option Byte :=
  if h.magic ≠ 0x4E4D then some cMdMagic
  else if !(h.type == 1 || h.type == 2 || h.type == 3 || h.type == 4 || h.type == 7) then some cMdType
  else if !shapeOk h then some cMdShape
  else none

def isSparse : FollowForm → Bool
  | .mmacs => true | .mmacsg => true | _ => false
def isGather : FollowForm → Bool
  | .mmacg => true | .mmacsg => true | _ => false

/-- The header checks of a product (R256, R259). -/
def productHeaderFault (form : FollowForm) (w : Word) (h : Header) : Option Byte :=
  match headerFault h with
  | some c => some c
  | none =>
    if h.type ≠ cfgB w then some cMdType
    else if h.k ≠ cfgK w ∨ isSparse form = isDense h then some cMdShape
    else none

/-- Words of a chunk, bytes of an entry and slots of an entry (R257); lg is log2 of the slot size. -/
def chunkWords (h : Header) : Nat := ceilDiv (2 * h.n * Nat.log2 h.m) h.m
def entryBytes (h : Header) (s : Nat) : Nat := 4 * h.ce * chunkWords h * (s / 64)
def entrySlots (h : Header) (s lg : Nat) : Nat := ceilDiv (entryBytes h s) (2 ^ lg)

/-- The header latency L (R263). -/
def headerLatency (h : Header) : Nat :=
  let s := stepSize h.type
  if isDense h then 24 + 8 * ceilDiv h.k s else 24 + 8 * ceilDiv (h.k * max (4 * h.n) h.m) (4 * h.m * s)

/-- Smallest power of two at least x, as its exponent; x is at most 2^16. -/
def lgAtLeast (x : Nat) : Nat := (List.range 17).findIdx (fun i => x ≤ 2 ^ i)

/-- log2 of the slot size of B (R254). -/
def sparseSlotLg (h : Header) (eb : Nat) : Nat := lgAtLeast (16 * h.n / h.m * 128 * eb)

/-- A queue of the job for the M stream's consumer end, of a kind. -/
def mQueue (s : State) (n j : Nat) (q : Handle) (kind : Nat) : Option QDesc :=
  let d := descOf s n j q
  if descOk d && endOk d .consumer .m && d.kind == kind then some d else none

/-- Checks 2 to 4 of R255 under a configuration. -/
def productCheck (s : State) (n j : Nat) (form : FollowForm) (acc : TileNo) (qa qb qm : Handle) (w : Word) : Option Byte :=
  let b := jobOf s n j
  if qa = qb ∨ qa = qm ∨ qb = qm then some cIllegal
  else if tileCode b acc.toNat ≠ accCode w then some cTileType
  else
    let okA := match mQueue s n j qa (if isGather form then 1 else 0) with
      | some d => if isGather form then d.lgs == 2 && 8 ≤ qCount d else qSize d == 128 * inSize (cfgA w) && kBlocks w ≤ qCount d
      | none => false
    let okB := match mQueue s n j qb 0 with
      | some d => (isSparse form || qSize d == 2048 * inSize (cfgB w)) && kBlocks w ≤ qCount d
      | none => false
    let okM := match mQueue s n j qm 3 with
      | some d => 4 ≤ d.lgs
      | none => false
    if okA && okB && okM then none else some cQueue

/-- Slots filled at or beyond pointer p. -/
def filledFrom (d : QDesc) (p : Nat) : Nat := (d.tail + 2 * qCount d - p) % (2 * qCount d)

/-- The bytes of len bytes that run through the slots of a queue from slot p. -/
def slotRun (s : State) (n : Nat) (d : QDesc) (p len : Nat) : List Byte :=
  ((List.range (ceilDiv len (qSize d))).flatMap (fun i => spRead s n (qSlot d (p + i)) (qSize d))).take len

/-- The header at slot p of a queue. -/
def headerAt (s : State) (n : Nat) (d : QDesc) (p : Nat) : Header := parseHeader (spRead s n (qSlot d p) 16)

/-- The header of a started product, as it was read (R259). -/
def readHeader (read : List (List Byte)) : Header := parseHeader (read.getD 0 [])

/-- A handle for which the slots of K step 0 are not all filled, if any, with how many must be (R260). -/
def step0Waits (s : State) (n j : Nat) (form : FollowForm) (qa qb qm : Handle) (w : Word) : Option (Handle × Nat) :=
  let da := descOf s n j qa
  let db := descOf s n j qb
  let dm := descOf s n j qm
  let first := min (stepSize (cfgA w) / 16) (kBlocks w)
  let rows := if isGather form then 8 else first
  if qFilled da < rows then some (qa, rows)
  else if qFilled db < first then some (qb, first)
  else if qFilled dm < 1 then some (qm, 1)
  else
    let h := headerAt s n dm dm.head
    let k := 1 + entrySlots h (stepSize (cfgA w)) dm.lgs
    if isSparse form && (headerFault h).isNone && !isDense h && qFilled dm < k then some (qm, k)
    else none

/-- The operation of a product as it enters the MQ. -/
def productOp (s : State) (n j : Nat) (form : FollowForm) (acc : TileNo) (qa qb qm : Handle) (w : Word) (flw : Bool) : OpKind :=
  .product form acc.toNat qa qb qm [(descOf s n j qa).head, (descOf s n j qb).head, (descOf s n j qm).head] w flw []

/-- The MQ holds 16 operations (R260). -/
def mqFull (b : Job) : Bool := 16 ≤ b.mq.length

/-- A MAT instruction of the M stream. -/
def matIssue (s : State) (reads : List Reg) (body : State → Nat → Nat → Res) : Result :=
  issue 1 { streams := [.m], reads := reads } s (fun s g =>
    match g with
    | .mgmt => raise cIllegal
    | .stream n j _ => body s n j)

/-- An operation enters the MQ, or waits while it is full. -/
def mqPut (s : State) (n j : Nat) (k : OpKind) (names : List Handle) : Res :=
  if mqFull (jobOf s n j) then .wait s .waiting else .ok (enqueue s (.stream n j .m) .mq k names) .seq

/-- The four products (R255, R259, R260). -/
def productIssue (form : FollowForm) (acc : TileNo) (qa qb qm : Handle) (s : State) : Result :=
  matIssue s [] (fun s n j =>
    match (jobOf s n j).mcfg with
    | none => raise cIllegal
    | some w =>
      match productCheck s n j form acc qa qb qm w with
      | some c => raise c
      | none =>
        match step0Waits s n j form qa qb qm w with
        | some q => .wait s (.onQueue q.1 q.2 false)
        | none => mqPut s n j (productOp s n j form acc qa qb qm w false) [qa, qb, qm])

/-- mmac (R259). -/
def execMmac (acc : TileNo) (qa qb qm : Handle) (s : State) : Result := productIssue .mmac acc qa qb qm s
/-- mmacs (R259). -/
def execMmacs (acc : TileNo) (qa qb qm : Handle) (s : State) : Result := productIssue .mmacs acc qa qb qm s
/-- mmacg (R259). -/
def execMmacg (acc : TileNo) (qa qb qm : Handle) (s : State) : Result := productIssue .mmacg acc qa qb qm s
/-- mmacsg (R259). -/
def execMmacsg (acc : TileNo) (qa qb qm : Handle) (s : State) : Result := productIssue .mmacsg acc qa qb qm s

/-- mclr (R265). -/
def execMclr (acc : TileNo) (s : State) : Result :=
  matIssue s [] (fun s n j =>
    if !validCode (tileCode (jobOf s n j) acc.toNat) then raise cTileType
    else mqPut s n j (.mclr acc.toNat false) [])

/-- mcfg (R253): the configuration serves every operation that enters the MQ behind it. -/
def execMcfg (r : BitVec 5) (s : State) : Result :=
  let rg : Reg := 0#1 ++ r
  matIssue s [rg] (fun s n j =>
    let w := reg s (.stream n j .m) rg
    match cfgCheck w with
    | some c => raise c
    | none =>
      if mqFull (jobOf s n j) then .wait s .waiting
      else .ok (modJob (enqueue s (.stream n j .m) .mq (.mcfg w) []) n j (fun b => { b with mcfg := some w })) .seq)

/-- mhdr (R266). -/
def execMhdr (r : BitVec 5) (qm : Handle) (s : State) : Result :=
  matIssue s [] (fun s n j =>
    match mQueue s n j qm 3 with
    | none => raise cQueue
    | some d =>
      if qFilled d < 1 then .wait s (.onQueue qm 1 false)
      else
        let h := headerAt s n d d.head
        let v : Word := match headerFault h with
          | some c => -(c.setWidth 64)
          | none => w64 (headerLatency h)
        .ok (setReg s (.stream n j .m) (0#1 ++ r) v) .seq)

/-- mtrn (R267). -/
def execMtrn (acc src : TileNo) (s : State) : Result :=
  matIssue s [] (fun s n j =>
    let b := jobOf s n j
    let c := tileCode b acc.toNat
    if c ≠ tileCode b src.toNat ∨ (c ≠ 0 ∧ c ≠ 5) then raise cTileType
    else mqPut s n j (.mtrn acc.toNat src.toNat) [])

/-! The array (R259 to R264). -/

/-- The status word of a failing matrix operation (R262). -/
def matWord (flw : Bool) (cause : Byte) (ipos detail : Nat) : Word :=
  w64 (2 ^ 63 + (if flw then 2 ^ 56 else 0) + cause.toNat * 2 ^ 48 + ipos * 2 ^ 40 + detail % 2 ^ 32)

/-- A failure of an operation: cause, index position, DETAIL. -/
abbrev MatErr := Byte × Nat × Nat

/-- Rows of a gathered A: pads give rows of zeros (R259). -/
def gatherRows (s : State) (n : Nat) (w : Word) (d : QDesc) (p : Nat) : Except MatErr (List (List Nat)) :=
  let idx := (List.range 8).map (fun i => fieldAt (spRead s n (qSlot d (p + i)) 4) 0 4)
  match (List.range 8).find? (fun i => idx.getD i 0 ≠ 0xFFFFFFFF ∧ cfgRows w ≤ idx.getD i 0) with
  | some i => .error (cIndex, i, idx.getD i 0)
  | none => .ok (idx.map (fun x =>
      if x = 0xFFFFFFFF then List.replicate (cfgK w) 0
      else lanesOf (inSize (cfgA w)) (cfgK w) (spRead s n (cfgBase w + x * aPitch w) (cfgK w * inSize (cfgA w)))))

/-- The checks made when a product starts (R255, R256, R259). -/
def startChecks (s : State) (n j : Nat) (form : FollowForm) (qb qm : Handle) (pm : Nat) (w : Word) : Option MatErr :=
  let dm := descOf s n j qm
  let h := headerAt s n dm pm
  match productHeaderFault form w h with
  | some c => some (c, 0, 0xFFFFFFFF)
  | none =>
    if isSparse form then
      let steps := kSteps w
      if (descOf s n j qb).lgs ≠ sparseSlotLg h (inSize (cfgB w)) ∨ qCount dm < 1 + steps * entrySlots h (stepSize (cfgA w)) dm.lgs
      then some (cQueue, 0, 0)
      else none
    else none

/-- The bytes of entry i (R257). -/
def entryAt (s : State) (n : Nat) (d : QDesc) (pm : Nat) (h : Header) (ss i : Nat) : List Byte :=
  slotRun s n d (pm + 1 + i * entrySlots h ss d.lgs) (entryBytes h ss)

/-- The kept indices of a column's group g within chunk c of an entry (R257). -/
def groupIndices (h : Header) (ss : Nat) (entry : List Byte) (col chunk g : Nat) : List Nat :=
  let b := Nat.log2 h.m
  let wc := chunkWords h
  let stream := fieldAt entry (4 * ((col * (ss / 64) + chunk) * wc)) (4 * wc)
  (List.range h.n).map (fun t => stream / 2 ^ ((g * h.n + t) * b) % 2 ^ b)

def ascending : List Nat → Bool
  | a :: b :: r => a < b && ascending (b :: r)
  | _ => true

/-- The groups of entry i that lie below K, as (first k, chunk, group in chunk), ascending. -/
def entryGroups (h : Header) (ss i : Nat) : List (Nat × Nat × Nat) :=
  (List.range (ss / h.m)).filterMap (fun q =>
    let k := ss * i + q * h.m
    if k < h.k then some (k, q * h.m / 64, q * h.m % 64 / h.m) else none)

/-- The first group of entry i whose indices do not ascend (R259). -/
def orderFault (h : Header) (ss i : Nat) (entry : List Byte) : Option MatErr :=
  (List.range h.ce).findSome? (fun c =>
    (entryGroups h ss i).findSome? (fun (k, ch, g) =>
      if ascending (groupIndices h ss entry c ch g) then none else some (cMdOrder, 0, c * (h.k / h.m) + k / h.m)))

/-- The value at place p of a column in a slot of B (R254). -/
def bValue (h : Header) (eb per : Nat) (slot : List Byte) (p c : Nat) : Nat :=
  let at' := if h.flags / 4 % 2 = 0 then (p * 128 + c) * eb else (c * per + p) * eb
  fieldAt slot at' eb

/-- Column c of B over k = 0 to K - 1: zeros where nothing is kept (R254, R259). -/
def bColumn (form : FollowForm) (w : Word) (h : Header) (slots : List (List Byte)) (entries : List (List Byte)) (c : Nat) : List Nat :=
  let kk := cfgK w
  let eb := inSize (cfgB w)
  let ss := stepSize (cfgA w)
  if h.ce ≤ c then List.replicate kk 0
  else if isSparse form then
    let per := 16 * h.n / h.m
    (List.range (kk / h.m)).flatMap (fun gg =>
      let k0 := gg * h.m
      let e := entries.getD (k0 / ss) []
      let idx := groupIndices h ss e c (k0 % ss / 64) (k0 % 64 / h.m)
      let slot := slots.getD (k0 / 16) []
      let base := k0 % 16 / h.m * h.n
      (List.range h.m).map (fun o =>
        match idx.idxOf? o with
        | some t => bValue h eb per slot (base + t) c
        | none => 0))
  else (List.range kk).map (fun k => bValue h eb 16 (slots.getD (k / 16) []) (k % 16) c)

/-- Row i of A over k = 0 to K - 1, from its slots (R254). -/
def aRow (w : Word) (slots : List (List Byte)) (i : Nat) : List Nat :=
  let ea := inSize (cfgA w)
  (List.range (cfgK w)).map (fun k => fieldAt (slots.getD (k / 16) []) ((i * 16 + k % 16) * ea) ea)

/-- One new element of the band (R130, R131). -/
def bandElem (w : Word) (acc : Nat) (a b : List Nat) : Nat × BitVec 5 :=
  if cfgA w = 7 then
    (ofInt 32 ((List.zip a b).foldl (fun z p => z + toInt 8 p.1 * toInt 8 p.2) (toInt 32 acc)), 0#5)
  else dotF acc ((List.zip a b).map (fun p => (fDec (fmtOf (cfgA w)) p.1, fDec (fmtOf (cfgB w)) p.2)))

/-- A product performed (R258, R259), from its header and entries as they were read: the CRC check, then the band committed at once with its flags. -/
def productBody (s : State) (n j : Nat) (form : FollowForm) (acc : Nat) (qa qb : Handle) (slots : List Nat) (w : Word) (rows : List (List Nat))
    (read : List (List Byte)) : Except MatErr (State × BitVec 5) :=
  let da := descOf s n j qa
  let db := descOf s n j qb
  let pa := slots.getD 0 0
  let pb := slots.getD 1 0
  let h := readHeader read
  let entries := read.drop 1
  if isSparse form && (crc32c 0#32 entries.flatten).toNat != h.crc then .error (cMdCrc, 0, h.ce * (h.k / h.m))
  else
    let bs := (List.range (kBlocks w)).map (fun i => spRead s n (qSlot db (pb + i)) (qSize db))
    let as := if isGather form then rows
      else
        let l := (List.range (kBlocks w)).map (fun i => spRead s n (qSlot da (pa + i)) (qSize da))
        (List.range 8).map (aRow w l)
    let cols := (List.range 128).map (bColumn form w h bs entries)
    let row0 := 128 * acc + 8 * cfgBand w
    let out := (List.range 8).map (fun i =>
      List.zipWith (fun x col => bandElem w x (as.getD i []) col) (readRow s n (row0 + i) 4) cols)
    let s := (List.range 8).foldl (fun s i => writeRow s n (row0 + i) 4 ((out.getD i []).map (·.1))) s
    .ok (s, out.foldl (fun f l => f ||| flagsOf l) 0#5)

/-- A tile transposed (R267). -/
def transposeTile (s : State) (n d src : Nat) : State :=
  let rows := (List.range 128).map (fun i => readRow s n (128 * src + i) 4)
  (List.range 128).foldl (fun s i => writeRow s n (128 * d + i) 4 (rows.map (fun r => r.getD i 0))) s

/-- A tile cleared (R265). -/
def clearTile (s : State) (n t : Nat) : State :=
  { s with mem := memWrite s.mem (rowAt n (128 * t)) (zeros (128 * 512)) }

/-- The first MQ operation of the active job that no fence holds. -/
def mqHead (s : State) (n : Nat) : Option (Nat × Op) :=
  match (coreOf s n).active with
  | none => none
  | some j =>
    match (jobOf s n j).mq with
    | [] => none
    | o :: _ => if heldByFence (jobOf s n j) .mq o then none else some (j, o)

/-- The first MQ operation changed. -/
def mqMod (s : State) (n j : Nat) (f : Op → Op) : State :=
  modJob s n j (fun b => match b.mq with | [] => b | o :: r => { b with mq := f o :: r })

/-- A follow-on word enters the MQ (R240, R261): the checks of R255 are made now, and a failure is the M stream's. -/
def followEnter (s : State) (n j : Nat) (f : Follow) (cmd : BitVec 32) : State :=
  let b := jobOf s n j
  let put (k : OpKind) (nm : List Handle) : State := modJob s n j (fun b => { b with
    mq := b.mq ++ [{ kind := k, sid := .m, cmd := cmd, seq := b.seq, names := nm }], seq := b.seq + 1 })
  let fail (c : Byte) : State := engineFault s n j .m { cause := c, cmd := cmd, status := matWord true c 0 0 }
  match f.form with
  | .mclr =>
    -- the word's own checks, reserved fields first (R140, R141)
    if f.qa ≠ 0#5 ∨ f.qb ≠ 0#5 ∨ f.qm ≠ 0#5 then fail cIllegal
    else if validCode (tileCode b f.acc.toNat) then put (.mclr f.acc.toNat true) [] else fail cTileType
  | form =>
    match b.mcfg with
    | none => fail cIllegal
    | some w =>
      match productCheck s n j form f.acc f.qa f.qb f.qm w with
      | some c => fail c
      | none => put (productOp s n j form f.acc f.qa f.qb f.qm w true) [f.qa, f.qb, f.qm]

/-- Waiting follow-on words enter the MQ in order while it has room (R240, R260); the fuel is their number. -/
def drainFollow (s : State) (n j : Nat) : Nat → State
  | 0 => s
  | k + 1 =>
    match (jobOf s n j).flw with
    | [] => s
    | (f, cmd) :: r =>
      if mqFull (jobOf s n j) then s
      else drainFollow (followEnter (modJob s n j (fun b => { b with flw := r })) n j f cmd) n j k

/-- The follow-on words of a performed copy are taken up (R240). -/
def takeFollow (s : State) (n j : Nat) (l : List (Follow × BitVec 32)) : State :=
  let s := modJob s n j (fun b => { b with flw := b.flw ++ l })
  drainFollow s n j (jobOf s n j).flw.length

/-- The first MQ operation leaves the queue, with a fault for the M stream where it failed (R261). -/
def mqDone (s : State) (n j : Nat) (o : Op) (flw : Bool) (e : Option MatErr) : State :=
  let s := modJob s n j (fun b => { b with mq := b.mq.drop 1 })
  let s := match e with
    | none => s
    | some (c, ipos, d) => engineFault s n j .m { cause := c, cmd := o.cmd, status := matWord flw c ipos d }
  drainFollow s n j (jobOf s n j).flw.length

/-- The rows of a gathered A are read, where its index slots are filled (R259). -/
def gatherIfReady (s : State) (n j : Nat) (o : Op) : Except MatErr Op :=
  match o.kind with
  | .product form acc qa qb qm slots w flw [] =>
    let d := descOf s n j qa
    if isGather form && 8 ≤ filledFrom d (slots.getD 0 0) then
      match gatherRows s n w d (slots.getD 0 0) with
      | .ok r => .ok { o with kind := .product form acc qa qb qm slots w flw r }
      | .error e => .error e
    else .ok o
  | _ => .ok o

/-- MQ_OPERATION_START (R255, R256, R259, R264): the operation takes the array; a product first waits for its header slot, and its header checks may end it. -/
def execMqOperationStart (n : CoreNo) (s : State) : Result :=
  match mqHead s n.toNat with
  | none => .next s
  | some (j, o) =>
    if o.stage ≠ 0 then .next s
    else match o.kind with
      | .product form _ _ qb qm slots w flw _ =>
        let pm := slots.getD 2 0
        if filledFrom (descOf s n.toNat j qm) pm < 1 then .next s
        else match startChecks s n.toNat j form qb qm pm w with
          | some e => .next (mqDone s n.toNat j o flw (some e))
          | none =>
            match gatherIfReady s n.toNat j o with
            | .error e => .next (mqDone s n.toNat j o flw (some e))
            | .ok o' => .next (mqMod s n.toNat j (fun _ => { o' with stage := 1, read := [spRead s n.toNat (qSlot (descOf s n.toNat j qm) pm) 16] }))
      | _ => .next (mqMod s n.toNat j (fun o => { o with stage := 1 }))

/-- The slots of K step i are filled (R260). -/
def stepFilled (s : State) (n j : Nat) (h : Header) (form : FollowForm) (qa qb qm : Handle) (slots : List Nat) (w : Word) (i : Nat) : Bool :=
  let ss := stepSize (cfgA w)
  let upTo := min ((i + 1) * (ss / 16)) (kBlocks w)
  let dm := descOf s n j qm
  let pm := slots.getD 2 0
  (if isGather form then 8 else upTo) ≤ filledFrom (descOf s n j qa) (slots.getD 0 0)
    && upTo ≤ filledFrom (descOf s n j qb) (slots.getD 1 0)
    && (!isSparse form || 1 + (i + 1) * entrySlots h ss dm.lgs ≤ filledFrom dm pm)

/-- MATRIX_STEP (R259, R260): the next K step of a started product, once its slots are filled; metadata out of order ends the product. -/
def execMatrixStep (n : CoreNo) (s : State) : Result :=
  match mqHead s n.toNat with
  | none => .next s
  | some (j, o) =>
    match o.kind with
    | .product form _ qa qb qm slots w flw _ =>
      let i := o.stage - 1
      let h := readHeader o.read
      if o.stage = 0 ∨ kSteps w < o.stage ∨ !stepFilled s n.toNat j h form qa qb qm slots w i then .next s
      else match gatherIfReady s n.toNat j o with
        | .error e => .next (mqDone s n.toNat j o flw (some e))
        | .ok o' =>
          let dm := descOf s n.toNat j qm
          let pm := slots.getD 2 0
          let ss := stepSize (cfgA w)
          let entry := if isSparse form then [entryAt s n.toNat dm pm h ss i] else []
          match entry.findSome? (orderFault h ss i) with
          | some e => .next (mqDone s n.toNat j o flw (some e))
          | none => .next (mqMod s n.toNat j (fun _ => { o' with stage := o.stage + 1, read := o.read ++ entry }))
    | _ => .next s

/-- MQ_OPERATION_PERFORMED (R259, R261, R264 to R267). -/
def execMqOperationPerformed (n : CoreNo) (s : State) : Result :=
  match mqHead s n.toNat with
  | none => .next s
  | some (j, o) =>
    match o.kind with
    | .product form acc qa qb _ slots w flw rows =>
      if o.stage ≤ kSteps w then .next s
      else match productBody s n.toNat j form acc qa qb slots w rows o.read with
        | .error e => .next (mqDone s n.toNat j o flw (some e))
        | .ok (s', f) => .next (setFlags (mqDone s' n.toNat j o flw none) (.stream n.toNat j .m) f)
    | .mclr t flw => if o.stage = 0 then .next s else .next (mqDone (clearTile s n.toNat t) n.toNat j o flw none)
    | .mtrn d src => if o.stage = 0 then .next s else .next (mqDone (transposeTile s n.toNat d src) n.toNat j o false none)
    | _ => if o.stage = 0 then .next s else .next (mqDone s n.toNat j o false none)

/-! Pruning and packing in the V stream (R268 to R272). -/

/-- M of a shape: b[5:4] is log2 M - 1 (R268). -/
def shapeM (lgm : BitVec 2) : Nat := 2 ^ (lgm.toNat + 1)

/-- Rank of a lane: any NaN, then any infinity, then the magnitude (R269). -/
def laneRank (f : Fmt) (x : Nat) : Nat :=
  match fDec f x with
  | .nan _ => 2 ^ fSign f + 1
  | .inf _ => 2 ^ fSign f
  | _ => x % 2 ^ fSign f

/-- Whether lane i is among the first k of a group by rank, equal ranks by lower lane. -/
def keptLane (r : List Nat) (k i : Nat) : Bool :=
  ((List.range r.length).filter (fun o => r.getD i 0 < r.getD o 0 || (r.getD o 0 == r.getD i 0 && o < i))).length < k

/-- Groups of m, each a list of ranks, and the bits kept. -/
def pruneGroups (m k : Nat) : Nat → List Nat → List Bool
  | 0, _ => []
  | g + 1, l => (List.range m).map (keptLane (l.take m) k) ++ pruneGroups m k g (l.drop m)

/-- The mask of one pruned row (R269). -/
def pruneRow (f : Fmt) (m k : Nat) (l : List Nat) : Nat := maskBits (pruneGroups m k (l.length / m) (l.map (laneRank f)))

/-- prunepk (R269). -/
def execPrunepk (d : MReg) (a : VReg) (lgm : BitVec 2) (nk : BitVec 4) (s : State) : Result :=
  vecIssue 1 [] [a] true s (fun s n j b rs =>
    let code := rowCode b (rs.getD 0 0)
    let m := shapeM lgm
    if nk.toNat = 0 ∨ m ≤ nk.toNat then raise cIllegal
    else if !isFloat code then raise cTileType
    else
      let l := readRow s n (rs.getD 0 0) (laneW code)
      .ok (modJob s n j (fun b => setMask b d (BitVec.ofNat 256 (pruneRow (fmtOf code) m nk.toNat l)))) .seq)

/-- Rows of four bits with k ones. -/
def nibbles (k : Nat) : List Nat := (List.range 16).filter (fun x => popBelow x 4 == k)

/-- The masks of R270: 4 × 4 matrices with k ones in each row and column, row 0 in bits 15 to 12, lane 0 in each row's high bit; ascending. -/
def maskLibrary (k : Nat) : List Nat :=
  ((nibbles k).flatMap (fun a => (nibbles k).flatMap (fun b => (nibbles k).flatMap (fun c => (nibbles k).map (fun d => a * 4096 + b * 256 + c * 16 + d))))).filter
    (fun v => (List.range 4).all (fun q => ((List.range 4).filter (fun r => v.testBit (4 * r + q))).length == k))

/-- Key of a set of lanes: NaNs, infinities, and the exact sum of finite magnitudes (R270). -/
def laneKey (f : Fmt) (x : Nat) : Nat × Nat × Nat :=
  match fDec f x with
  | .nan _ => (1, 0, 0)
  | .inf _ => (0, 1, 0)
  | .fin _ m e => (0, 0, m * 2 ^ (e - fMin f).toNat)

def keyLess (x y : Nat × Nat × Nat) : Bool :=
  x.1 < y.1 || (x.1 == y.1 && (x.2.1 < y.2.1 || (x.2.1 == y.2.1 && x.2.2 < y.2.2)))

/-- The mask chosen for a block of sixteen keys, row by row (R270). -/
def chooseMask (lib : List Nat) (keys : List (Nat × Nat × Nat)) : Nat :=
  let keyOf (v : Nat) : Nat × Nat × Nat :=
    (List.range 16).foldl (fun z i => if v.testBit (15 - i) then
      let x := keys.getD i (0, 0, 0)
      (z.1 + x.1, z.2.1 + x.2.1, z.2.2 + x.2.2) else z) (0, 0, 0)
  match lib with
  | [] => 0
  | v :: r => (r.foldl (fun (best : Nat × (Nat × Nat × Nat)) x => let k := keyOf x; if keyLess best.2 k then (x, k) else best) (v, keyOf v)).1

/-- The chosen masks of each block of four lanes of four rows. -/
def pruneBlocks (f : Fmt) (k : Nat) (rows : List (List Nat)) : List Nat :=
  let lib := maskLibrary k
  (List.range ((rows.getD 0 []).length / 4)).map (fun q =>
    chooseMask lib (rows.flatMap (fun l => (List.range 4).map (fun o => laneKey f (l.getD (4 * q + o) 0)))))

/-- prunepkt (R270): for M other than 4 each row is pruned on its own. -/
def execPrunepkt (d : MReg) (a : VReg) (lgm : BitVec 2) (nk : BitVec 4) (s : State) : Result :=
  issue 1 { streams := [.v] } s (fun s g =>
    match g with
    | .mgmt => raise cIllegal
    | .stream n j _ =>
      let b := jobOf s n j
      let rs := rowsFrom (rowOf b a) 4
      let code := rowCode b (rs.getD 0 0)
      let m := shapeM lgm
      let k := nk.toNat
      if k = 0 ∨ m ≤ k ∨ 4 < d.toNat then raise cIllegal
      else if !isFloat code || !rs.all (fun r => rowCode b r == code) then raise cTileType
      else if rs.any (fun r => tileBusy b (tileOf r)) then .wait s .waiting
      else
        let rows := rs.map (fun r => readRow s n r (laneW code))
        let masks : List Nat := if m = 4 then
            let bl := pruneBlocks (fmtOf code) k rows
            (List.range 4).map (fun r => maskBits (bl.flatMap (fun v => (List.range 4).map (fun o => v.testBit (15 - (4 * r + o))))))
          else rows.map (pruneRow (fmtOf code) m k)
        let s := (List.range 4).foldl (fun s r =>
          modJob s n j (fun b => setMask b (d + BitVec.ofNat 3 r) (BitVec.ofNat 256 (masks.getD r 0)))) s
        .ok (if m = 4 then modJob s n j (fun b => { b with markers := b.markers ||| BitVec.ofNat 8 (15 * 2 ^ d.toNat) }) else s) .seq)

/-- Kept offsets of a group as a number of b-bit fields. -/
def packFields (b : Nat) : List Nat → Nat
  | [] => 0
  | x :: r => x + 2 ^ b * packFields b r

/-- mdpack (R271). -/
def execMdpack (d : VReg) (w : BitVec 1) (k : MReg) (lgm : BitVec 2) (nk : BitVec 4) (s : State) : Result :=
  vecIssue 1 [] [d] true s (fun s n _ b rs =>
    let m := shapeM lgm
    let cnt := nk.toNat
    if cnt = 0 ∨ m ≤ cnt then raise cIllegal
    else if rowCode b (rs.getD 0 0) ≠ 5 then raise cTileType
    else
      let mask := (maskOf b k).toNat
      let chunks := if w = 0#1 then 2 else 4
      let per := 64 / m
      let group (q : Nat) : List Nat := (List.range m).filter (fun o => mask.testBit (m * q + o))
      match (List.range (chunks * per)).find? (fun q => (group q).length ≠ cnt) with
      | some q => .trap { cause := cMdShape, status := faultWord cMdShape 0 q }
      | none =>
        let bw := Nat.log2 m
        let wc := ceilDiv (2 * cnt * bw) m
        let words := (List.range chunks).flatMap (fun h =>
          lanesOf 4 wc (leBytes (4 * wc) (packFields bw ((List.range per).flatMap (fun q => group (h * per + q))))))
        let marker := if b.markers.getLsbD k.toNat then 65536 else 0
        .ok (writeRow s n (rs.getD 0 0) 4 (words ++ List.replicate (127 - words.length) 0 ++ [cnt + 256 * m + marker])) .seq)

/-- mdchk (R272). -/
def execMdchk (d : Reg) (a : VReg) (r : Reg) (s : State) : Result :=
  vecIssue 1 [r] [a] true s (fun s n j _ rs =>
    let v := reg s (vAgent n j) r
    let k := bitsAt v 32 10
    if 512 < k then raise cIllegal
    else .ok (setReg s (vAgent n j) d ((crc32c (BitVec.ofNat 32 (bitsAt v 0 32)) (memReadN s.mem (rowAt n (rs.getD 0 0)) k)).setWidth 64)) .seq)

end Sys2Proof.Machine
end

