-- ==== Sys2Proof/Machine/Copy.lean ====
section
/-! DEFINITION. The X engine: copy commands, their completion actions as they are armed, follow-on words and waits (R235 to R244), and what each command does unit by unit. -/

namespace Sys2Proof.Machine

open Sys2Proof.Config

/-! Commands at issue. -/

/-- The X stream of a job as an agent. -/
def xAgent (n j : Nat) : Agent := .stream n j .x

/-- An X-stream instruction. -/
def xIssue (words : Nat) (reads : List Reg) (s : State) (body : State → Nat → Nat → Job → Res) : Result :=
  issue words { streams := [.x], reads := reads } s (fun s g =>
    match g with
    | .mgmt => raise cIllegal
    | .stream n j _ => body s n j (jobOf s n j))

/-- The queue of a command: the XVQ when both its ends are spaces 1 or 2 (R235). -/
def copyQueue (c : Copy) : Queue :=
  match c.form with
  | .mcast => .xhq
  | .rem => .xhq
  | .vop => if c.ds == .va then .xhq else .xvq
  | _ => if c.ss != .va && c.ds != .va then .xvq else .xhq

/-- Commands of a queue that have not left it (R90, R235). -/
def xCount (b : Job) (q : Queue) : Nat :=
  ((queueOf b q).filter (fun o => o.parked == 0 && (match o.kind with | .copy _ _ _ => true | _ => false))).length

/-- Commands of a queue that are not performed, parked ones among them (R90, R244). -/
def xOutstanding (b : Job) (q : Queue) : Nat :=
  ((queueOf b q).filter (fun o => match o.kind with | .copy _ _ _ => true | _ => false)).length

/-- The armed action names a core outside the partition (R243). -/
def armedEscapes (s : State) (b : Job) : Bool :=
  match b.armed with
  | some r => r.act == .arrival && !(partOf s b.part).pgran.getLsbD (bitsAt r.operand 4 8 / 16)
  | none => false

/-- A copy command enters its queue with the action armed for it, or waits while 64 are outstanding (R235, R243). -/
def copyPut (s : State) (n j : Nat) (c : Copy) : Res :=
  let b := jobOf s n j
  let q := copyQueue c
  if armedEscapes s b then raise cXlatPerm
  else if 64 ≤ xCount b q then .wait s .waiting
  else
    let nm := match b.armed with
      | some r => (match r.record with | some h => [h] | none => [])
      | none => []
    .ok (modJob (enqueue s (xAgent n j) q (.copy c b.armed []) nm) n j (fun k => { k with armed := none, lastCopy := some (b.seq, false) })) .seq

/-- xcpy (R235, R236). -/
def execXcpy (d a b : Reg) (ss ds : Space) (s : State) : Result :=
  xIssue 2 [d, a, b] s (fun s n j _ =>
    let g := xAgent n j
    copyPut s n j { form := .cpy, src := reg s g a, dst := reg s g b, len := bitsAt (reg s g d) 0 32, ss := ss, ds := ds })

/-- The shape block as it stands (R237): L0, n1, n2, ss1, ds1, ss2, ds2; xcp2 has one plane. -/
def parseShape (l : List Byte) (three : Bool) : List Int :=
  let u (o : Nat) : Int := fieldAt l o 4
  let i (o : Nat) : Int := toInt 32 (fieldAt l o 4)
  if three then [u 0, u 4, u 8, i 12, i 16, i 20, i 24] else [u 0, u 4, 1, i 12, i 16, 0, 0]

/-- xcp2 and xcp3 (R237). -/
def shapedCopy (three : Bool) (d a b : Reg) (ss ds : Space) (s : State) : Result :=
  xIssue 2 [d, a, b] s (fun s n j _ =>
    let g := xAgent n j
    let off := off21 (reg s g d)
    match block32 off with
    | some c => raise c
    | none =>
      let sh := parseShape (spRead s n off 28) three
      copyPut s n j { form := if three then .cp3 else .cp2, src := reg s g a, dst := reg s g b, len := (sh.getD 0 0).toNat, ss := ss, ds := ds, shape := sh })

/-- xcp2 (R237). -/
def execXcp2 (d a b : Reg) (ss ds : Space) (s : State) : Result := shapedCopy false d a b ss ds s
/-- xcp3 (R237). -/
def execXcp3 (d a b : Reg) (ss ds : Space) (s : State) : Result := shapedCopy true d a b ss ds s

/-- xcvt (R238). -/
def execXcvt (d a b : Reg) (ss ds : Space) (st dt : BitVec 4) (rm : Rounding) (sr sat : BitVec 1) (s : State) : Result :=
  xIssue 2 [d, a, b] s (fun s n j _ =>
    let g := xAgent n j
    let v := reg s g d
    copyPut s n j { form := .cvt, src := reg s g a, dst := reg s g b, len := bitsAt v 0 32, ss := ss, ds := ds, seed := (v >>> 32).setWidth 32
                    st := st.toNat, dt := dt.toNat, rm := rm, sr := sr == 1#1, sat := sat == 1#1 })

/-- The cores of the issuing die that a row mask and a column mask name (R11, R239). -/
def mcastCores (n rows cols : Nat) : List Nat :=
  (List.range 128).filterMap (fun p => if rows.testBit (p / 16) && cols.testBit (p % 16) then some (n / 128 * 128 + p) else none)

/-- An address is mapped to something other than HBM, whatever its leaf allows (R84, R239). -/
def notHbm (s : State) (w : Who) (va : Word) : Bool :=
  match leafOf s w.p w.c w.core va.toNat with
  | some (e, sh) => region (leafPa e sh va.toNat) != .hbm
  | none => false

/-- xmcast (R84, R239): what its pages allow is found when it is performed (R235). -/
def execXmcast (d a b : Reg) (rows : BitVec 8) (cols : BitVec 16) (s : State) : Result :=
  xIssue 2 [d, a, b] s (fun s n j job =>
    let g := xAgent n j
    let len := bitsAt (reg s g d) 0 32
    let va := reg s g a
    let pg := (partOf s job.part).pgran
    if len < 64 ∨ 0x100000 < len then raise cIllegal
    else if !(mcastCores n rows.toNat cols.toNat).all (fun m => pg.getLsbD (m / 16)) then raise cXlatPerm
    else
      match (pageStarts va len).find? (notHbm s (jobWho job n)) with
      | some p => .trap { cause := cXlatPerm, faddr := p }
      | none => copyPut s n j { form := .mcast, src := va, dst := w64 (off21 (reg s g b)), len := len, ds := .scratch, rows := rows.toNat, cols := cols.toNat })

/-- xvop (R241). -/
def execXvop (d a b : Reg) (op : VaultOp) (va : BitVec 1) (s : State) : Result :=
  xIssue 2 [d, a, b] s (fun s n j _ =>
    let g := xAgent n j
    let v := reg s g d
    copyPut s n j { form := .vop, src := w64 (off21 (reg s g a)), dst := reg s g b, len := bitsAt v 0 32, ss := .scratch
                    ds := if va = 1#1 then .va else .vault, seed := (v >>> 32).setWidth 32, vop := op })

/-- Another package has a route and stands in the issuing partition's GANGMAP (R323). -/
def packageReached (s : State) (p pkg : Nat) : Bool :=
  (tfind s.routes pkg).isSome && (List.range 32).any (fun g => tget 0xFF#8 (partOf s p).gangmap g == BitVec.ofNat 8 pkg)

/-- xrem (R242, R323). -/
def execXrem (d a b : Reg) (pkg : BitVec 5) (s : State) : Result :=
  xIssue 2 [d, a, b] s (fun s n j job =>
    let g := xAgent n j
    let len := bitsAt (reg s g d) 0 32
    if len = 0 ∨ 4096 < len then raise cIllegal
    else if pkg ≠ pkgid ∧ !packageReached s job.part pkg.toNat then .trap { cause := cXlatPerm, faddr := reg s g b, freeze := true }
    else copyPut s n j { form := .rem, src := w64 (off21 (reg s g a)), dst := reg s g b, len := len, ss := .scratch, pkg := pkg.toNat })

/-- A follow-on word enters the MQ as its `xflw` issues (R240); the X stream has then launched an operation, whose status word says FLW, or the failure of the word's own checks (R262, R300). -/
def followNow (s : State) (n j : Nat) (f : Follow) (cmd : BitVec 32) : State :=
  let b := jobOf s n j
  let t := followEnter s n j f cmd
  let info : Word :=
    if b.mq.length < (jobOf t n j).mq.length then 0x100000000000000#64
    else match (jobOf t n j).streams.m.faults.find? (fun e => e.cmd == cmd) with | some e => e.status | none => 0#64
  modStream t (xAgent n j) (fun st => { st with launched := b.seq + 1, launchInfo := info })

/-- xflw (R240): the word goes with the most recent copy command, enters the MQ at once where that is performed or absent, and is discarded where it failed. -/
def execXflw (f : Follow) (s : State) : Result :=
  xIssue 2 [] s (fun s n j job =>
    let cmd := job.streams.x.cmd
    let now (_ : Unit) : Res :=
      if mqFull job || !job.flw.isEmpty then .wait s .waiting else .ok (followNow s n j f cmd) .seq
    match job.lastCopy with
    | none => now ()
    | some (_, true) => .ok s .seq
    | some (k, false) =>
      let here (o : Op) : Bool := o.seq == k && (match o.kind with | .copy _ _ _ => true | _ => false)
      if (job.xvq ++ job.xhq).any here then
        let add (o : Op) : Op :=
          if here o then
            match o.kind with
            | .copy c a l => { o with kind := .copy c a (l ++ [(f, cmd)]), names := o.names ++ followNames f }
            | _ => o
          else o
        .ok (modJob s n j (fun b => { b with xvq := b.xvq.map add, xhq := b.xhq.map add })) .seq
      else now ())

/-- xwait (R244). -/
def execXwait (d : Reg) (n : BitVec 7) (mask : BitVec 2) (s : State) : Result :=
  xIssue 2 [] s (fun s c j job =>
    let out := (if mask.getLsbD 0 then xOutstanding job .xvq else 0) + (if mask.getLsbD 1 then xOutstanding job .xhq else 0)
    if n.toNat < out then .wait s .waiting
    else
      let s' := setReg s (xAgent c j) d (w64 job.streams.x.maxM)
      .ok (modStream s' (xAgent c j) (fun st => { st with maxM := 0 })) .seq)

/-- xcmpl (R243). -/
def execXcmpl (a : Reg) (act : Action) (qrec : BitVec 1) (h : Handle) (s : State) : Result :=
  xIssue 2 [a] s (fun s n j _ =>
    let g := xAgent n j
    let arm (r : Option Handle) : Res :=
      .ok (modJob s n j (fun b => { b with armed := some { act := act, operand := reg s g a, record := r } })) .seq
    if qrec = 0#1 then arm none
    else match queueFor s g h .producer with
      | some d => if d.kind = 4 then arm (some h) else raise cQueue
      | none => raise cQueue)

/-! Performance, unit by unit. -/

/-- Element sizes of xcvt types (R238). -/
def cvtSize (t : Nat) : Nat := if t = 0 then 4 else if t = 1 ∨ t = 2 then 2 else 1

/-- 64-byte units of a row, and units of a command (R235). -/
def rowUnits (c : Copy) : Nat := ceilDiv c.len 64
def copyRows (c : Copy) : Nat :=
  match c.form with
  | .cp2 => (c.shape.getD 1 0).toNat * (c.shape.getD 2 0).toNat
  | .cp3 => (c.shape.getD 1 0).toNat * (c.shape.getD 2 0).toNat
  | _ => 1
def copyUnits (c : Copy) : Nat :=
  match c.form with
  | .cvt => c.len
  | .vop => c.len
  | _ => copyRows c * rowUnits c

/-- Bytes that a command writes, as a barrier arrival counts them (R243). -/
def copyBytes (c : Copy) : Nat :=
  match c.form with
  | .cvt => c.len * cvtSize c.dt
  | .vop => 4 * c.len
  | _ => copyRows c * c.len

/-- First source and destination address of row r (R237). -/
def rowStart (c : Copy) (r : Nat) : Int × Int :=
  let g (i : Nat) : Int := c.shape.getD i 0
  let n1 := (g 1).toNat
  let i1 := r % max n1 1
  let i2 := r / max n1 1
  (c.src.toNat + i2 * g 5 + i1 * g 3, c.dst.toNat + i2 * g 6 + i1 * g 4)

/-- Source, destination and length of unit i (R235, R236). -/
def unitPlace (c : Copy) (i : Nat) : Int × Int × Nat :=
  let u := i % max (rowUnits c) 1
  let (a, b) := rowStart c (i / max (rowUnits c) 1)
  (a + 64 * u, b + 64 * u, min 64 (c.len - 64 * u))

/-- Why a unit was not done. -/
structure XStop where
  write : Bool
  err : VErr

/-- The address of an access for the trap record: only virtual addresses are shown (R299). -/
def spaceAddr (sp : Space) (a : Int) : Word := if sp == .va then BitVec.ofInt 64 a else 0#64

/-- The first 64-byte unit of a remote store that reaches beyond own scratchpad (R72, R235). -/
def remoteBad (c : Copy) : Option Nat := (List.range (rowUnits c)).find? (fun i => let (a, _, k) := unitPlace c i; (scratchSize : Int) < a + k)

/-- One step of the generator of R123. -/
def srDraw (x : BitVec 32) : BitVec 32 := x * 1664525#32 + 1013904223#32

/-- One element of xcvt: its result, its flags and the generator's next state (R121 to R124, R238). -/
def cvtElem (c : Copy) (x : Nat) : Nat × BitVec 5 × BitVec 32 :=
  let d := srDraw c.seed
  let md := if c.sr then Mode.sr d.toNat else modeOf c.rm
  let r := cvtFF (fmtOf c.st) (fmtOf c.dt) md c.sat x
  (r.1, r.2, d)

/-- The new word of a bank-side operation on x with operands v and w (R75): e then v for the exchange, a then y for scale-accumulate. -/
def bankWord (op : VaultOp) (x v w : BitVec 32) : BitVec 32 :=
  match op with
  | .radd => x + v
  | .fadd => bankAdd x v
  | .max => if x.slt v then v else x
  | .cas => if x = v then w else x
  | .sac => bankSac x v w

/-- A bank-side operation on the vault word at a physical address: the old word (R75). -/
def bankApply (s : State) (p pa : Nat) (op : VaultOp) (v w : BitVec 32) : State × Except Byte (BitVec 32) :=
  match physRead s p pa 4 0 with
  | (s, .error c) => (s, .error c)
  | (s, .ok l) =>
    let x := BitVec.ofNat 32 (leNat l)
    match physWrite s pa 0 (leBytes 4 (bankWord op x v w).toNat) with
    | (s, .ok _) => (s, .ok x)
    | (s, .error c) => (s, .error c)

/-- The vault word of an xvop at an exact address of its destination space (R241), with the walk that its translation takes. -/
def vopPlace (s : State) (v : Via) (c : Copy) (a : Int) : State × Except VErr Nat :=
  if a % 4 ≠ 0 then (s, .error (.fault cAlign false (spaceAddr c.ds a)))
  else if a < 0 ∨ (spaceSize c.ds : Int) < a + 4 then (s, .error (.fault cXlatPerm false (spaceAddr c.ds a)))
  else if c.ds != .va then (s, .ok (vaultAt v.n + a.toNat))
  else match blockedPage s v (w64 a.toNat) 4 with
    | some va => (s, .error (.miss va))
    | none =>
      (walked s v.who (w64 a.toNat),
        match translate s v.who.p v.who.c v.who.core (w64 a.toNat) .write v.who.user with
        | .ok pa _ => (match region pa with | .vault _ _ => .ok pa | _ => .error (.fault cXlatPerm false (w64 a.toNat)))
        | x => .error (xlErr (w64 a.toNat) x))

/-- One word of an xvop (R241). -/
def vopUnit (s : State) (v : Via) (c : Copy) (i : Nat) : State × Except XStop Unit :=
  let size : Nat := if c.vop == .cas then 8 else 4
  let src : Int := (c.src.toNat + size * i : Nat)
  let fail (w : Bool) (e : VErr) : State × Except XStop Unit := (s, .error ⟨w, e⟩)
  if src % 4 ≠ 0 then fail false (.fault cAlign false 0#64)
  else match spaceRead s v .scratch src size with
    | (_, .error e) => fail false e
    | (s', .ok l) =>
      match vopPlace s' v c (c.dst.toNat + 4 * i) with
      | (s', .error e) => (s', .error ⟨true, e⟩)
      | (s', .ok pa) =>
        let x := BitVec.ofNat 32 (fieldAt l 0 4)
        let y := BitVec.ofNat 32 (fieldAt l 4 4)
        let r := if c.vop == .sac then bankApply s' v.who.p pa c.vop c.seed x else bankApply s' v.who.p pa c.vop x y
        match r with
        | (s', .error e) => (s', .error ⟨true, .fault e false (spaceAddr c.ds (c.dst.toNat + 4 * i))⟩)
        | (s', .ok old) => (if c.vop == .cas then spWrite s' v.n src.toNat (leBytes 4 old.toNat) else s', .ok ())

/-- One 64-byte unit of an xmcast (R239). -/
def mcastUnit (s : State) (v : Via) (c : Copy) (i : Nat) : State × Except XStop Unit :=
  let fail (e : VErr) : State × Except XStop Unit := (s, .error ⟨false, e⟩)
  if c.src.toNat % 64 ≠ 0 ∨ c.dst.toNat % 64 ≠ 0 ∨ c.len % 64 ≠ 0 then fail (.fault cAlign false c.src)
  else if scratchSize < c.dst.toNat + 64 * i + 64 then fail (.fault cXlatPerm false 0#64)
  else if notHbm s v.who (c.src + w64 (64 * i)) then fail (.fault cXlatPerm false (c.src + w64 (64 * i)))
  else match spaceRead s v .va (c.src.toNat + 64 * i) 64 with
    | (s', .error e) => (s', .error ⟨false, e⟩)
    | (s', .ok l) => ((mcastCores v.n c.rows c.cols).foldl (fun s m => spWrite s m (c.dst.toNat + 64 * i) l) s', .ok ())

/-- One element of an xcvt: also the command with its generator and flags moved on (R238). -/
def cvtUnit (s : State) (v : Via) (c : Copy) (i : Nat) : State × Except XStop Copy :=
  let es := cvtSize c.st
  let ed := cvtSize c.dt
  let src : Int := c.src.toNat + es * i
  let dst : Int := c.dst.toNat + ed * i
  if src % es ≠ 0 then (s, .error ⟨false, .fault cAlign false (spaceAddr c.ss src)⟩)
  else if dst % ed ≠ 0 then (s, .error ⟨true, .fault cAlign false (spaceAddr c.ds dst)⟩)
  else match spaceRead s v c.ss src es with
    | (s', .error e) => (s', .error ⟨false, e⟩)
    | (s', .ok l) =>
      let (y, f, d) := cvtElem c (leNat l)
      match spaceWrite s' v c.ds dst (leBytes ed y) with
      | (s', .error e) => (s', .error ⟨true, e⟩)
      | (s', .ok _) => (s', .ok { c with seed := d, fl := c.fl ||| f })

/-- One 64-byte unit of a byte copy (R236). -/
def byteUnit (s : State) (v : Via) (c : Copy) (i : Nat) : State × Except XStop Unit :=
  let (a, b, k) := unitPlace c i
  match spaceRead s v c.ss a k with
  | (s', .error e) => (s', .error ⟨false, e⟩)
  | (s', .ok l) =>
    match spaceWrite s' v c.ds b l with
    | (s', .error e) => (s', .error ⟨true, e⟩)
    | (s', .ok _) => (s', .ok ())

/-- Unit i of a command, and the command after it. -/
def copyUnit (s : State) (v : Via) (c : Copy) (i : Nat) : State × Except XStop Copy :=
  let keep (r : State × Except XStop Unit) : State × Except XStop Copy :=
    (r.1, match r.2 with | .ok _ => .ok c | .error e => .error e)
  match c.form with
  | .cvt => cvtUnit s v c i
  | .vop => keep (vopUnit s v c i)
  | .mcast => keep (mcastUnit s v c i)
  | _ => keep (byteUnit s v c i)

/-- Some byte of a command's ranges lies in HBM, so that its requests have an m (R81, R85). -/
def copyHbm (s : State) (v : Via) (c : Copy) : Bool :=
  let rng (sp : Space) (a : Int) (len : Nat) : Bool := sp == .va && 0 ≤ a && rangeHbm s v.who (w64 a.toNat) len
  match c.form with
  | .vop => false
  | .cvt => rng c.ss c.src.toNat (c.len * cvtSize c.st) || rng c.ds c.dst.toNat (c.len * cvtSize c.dt)
  | _ => (List.range (copyRows c)).any (fun r => let (a, b) := rowStart c r; rng c.ss a c.len || rng c.ds b c.len)

/-- What unit i of a command reads, beside the vault word of an xvop. -/
def unitReads (c : Copy) (i : Nat) : List Side :=
  match c.form with
  | .cvt => [{ space := c.ss, at' := c.src.toNat + cvtSize c.st * i, len := cvtSize c.st }]
  | .vop => let k : Nat := if c.vop == .cas then 8 else 4; [{ space := .scratch, at' := c.src.toNat + k * i, len := k }]
  | .mcast => [{ space := .va, at' := c.src.toNat + 64 * i, len := 64 }]
  | _ => let (a, _, k) := unitPlace c i; [{ space := c.ss, at' := a, len := k }]

/-- What unit i of a command writes, beside the scratchpads of an xmcast. -/
def unitWrites (c : Copy) (i : Nat) : List Side :=
  match c.form with
  | .cvt => [{ space := c.ds, at' := c.dst.toNat + cvtSize c.dt * i, len := cvtSize c.dt }]
  | .vop => { space := c.ds, at' := c.dst.toNat + 4 * i, len := 4 } :: (if c.vop == .cas then unitReads c i else [])
  | .mcast => []
  | _ => let (_, b, k) := unitPlace c i; [{ space := c.ds, at' := b, len := k }]

/-- The exception flags of a performed command go to the X stream of its job, or, for an intake command, of the job that its core then runs (R127, R238, R249; log entry 22). -/
def copyFlags (s : State) (n j : Nat) (o : Op) (f : BitVec 5) : State :=
  match o.intake, (coreOf s n).active with
  | none, _ => setFlags s (xAgent n j) f
  | some _, some k => setFlags s (xAgent n k) f
  | some _, none => s

/-- Units i, i + 1, … of a command; the fuel is the number left. -/
def copyFrom (s : State) (n j : Nat) (v : Via) (o : Op) (ar : Option Armed) (fo : List (Follow × BitVec 32)) : Copy → Nat → Nat → Perf
  | c, 0, _ => .done (copyFlags s n j o c.fl)
  | c, fuel + 1, i =>
    match copyUnit s v c i with
    | (s', .ok c') => copyFrom s' n j v o ar fo c' fuel (i + 1)
    | (s', .error e) => endBy s' v { o with kind := .copy c ar fo } i e.write (reachedHbm s' v (unitReads c) (unitWrites c) i e.write e.err) e.err

/-- A copy command is performed from the units it has done (R235). -/
def copyPerform (s : State) (n j : Nat) (v : Via) (o : Op) : Perf :=
  match o.kind with
  | .copy c ar fo => recallMark s o (copyFrom s n j v o ar fo c (copyUnits c - o.done) o.done)
  | _ => .done s

/-- Whose access a copy makes: its job's, or an intake queue's (R249; log entry 22). -/
def copyVia (s : State) (n j : Nat) (q : Queue) (o : Op) : Via :=
  match o.intake with
  | none => jobVia s n j q .x
  | some (_, _, c) =>
    { who := { p := (partOfCore s n).getD nParts, c := c, core := some n, user := true }, n := n, slot := 0, node := 0x3FF, q := .xhq, sid := .x, intake := true }

end Sys2Proof.Machine
end

