-- ==== Sys2Proof/Machine/Floe.lean ====
section
/-! DEFINITION. Token merging and softmax (R132 to R134, R284 to R289). -/

namespace Sys2Proof.Machine

open Sys2Proof.Config

/-! Token array blocks (R285). -/

/-- A token array: base, pitch, tokens, elements and type code. -/
structure TokArr where
  base : Nat
  pitch : Nat
  cnt : Nat
  dim : Nat
  type : Nat
  deriving DecidableEq, Repr

def elemSize (type : Nat) : Nat := if type = 0 then 4 else 2

/-- One past the last byte of an array. -/
def tokEnd (t : TokArr) : Nat := t.base + (t.cnt - 1) * t.pitch + t.dim * elemSize t.type

/-- The array that a block of 16 bytes describes, where its fields are in range (R285). -/
def tokBlock (s : State) (n off : Nat) : Option TokArr :=
  let l := spRead s n off 16
  let t : TokArr := { base := fieldAt l 0 4, pitch := fieldAt l 4 4, cnt := fieldAt l 8 2, dim := fieldAt l 10 2, type := fieldAt l 12 1 }
  if t.base % 64 = 0 ∧ t.pitch % 64 = 0 ∧ t.dim * elemSize t.type ≤ t.pitch ∧ 1 ≤ t.cnt ∧ t.cnt ≤ 16384 ∧ 1 ≤ t.dim ∧ t.dim ≤ 4096
      ∧ t.type ≤ 2 ∧ fieldAt l 13 3 = 0 ∧ tokEnd t ≤ scratchSize then some t
  else none

/-- The bytes of token j. -/
def tokBytes (s : State) (n : Nat) (t : TokArr) (i : Nat) : List Byte := spRead s n (t.base + i * t.pitch) (t.dim * elemSize t.type)

/-- Token i as patterns of its type. -/
def tokElems (s : State) (n : Nat) (t : TokArr) (i : Nat) : List Nat := lanesOf (elemSize t.type) t.dim (tokBytes s n t i)

/-- Two arrays share a part of their extents (log entry 21). -/
def tokOverlap (x y : TokArr) : Bool := x.base < tokEnd y && y.base < tokEnd x

/-! Matching (R132, R286). -/

/-- dot of R132 over two lists of values. -/
def dotV (u w : List Fv) : Fl := dotF 0 (List.zip u w)

/-- Similarity of two keys (R132). -/
def simV (ka kb : List Fv) : Fl :=
  let na := dotV ka ka
  let nb := dotV kb kb
  let ia := rsqV (fDec fmtF32 na.1)
  let ib := rsqV (fDec fmtF32 nb.1)
  let d := dotV ka kb
  let p := mulF fmtF32 d.1 ia.1
  let q := mulF fmtF32 p.1 ib.1
  (q.1, na.2 ||| nb.2 ||| ia.2 ||| ib.2 ||| d.2 ||| p.2 ||| q.2)

/-- A score for ordering: a NaN counts as -∞ (R286). -/
def scoreV (x : Nat) : Fv := match fDec fmtF32 x with | .nan _ => .inf true | v => v

/-- The counts nA and nB of a matching (R286). -/
def countA (t p : Nat) : Nat := (t - p + 1) / 2
def countB (t p : Nat) : Nat := (t - p) / 2

/-- Best partner of one key among (position, key) pairs: the greatest similarity, the lowest position among equals. -/
def bestOf (ka : List Fv) : List (Nat × List Fv) → (Option (Nat × Fv)) × BitVec 5 → (Option (Nat × Fv)) × BitVec 5
  | [], r => r
  | (p, kb) :: l, (best, fl) =>
    let x := simV ka kb
    let v := scoreV x.1
    let best' := match best with
      | none => some (p, v)
      | some (q, w) => if cmpV v w > 0 then some (p, v) else some (q, w)
    bestOf ka l (best', fl ||| x.2)

/-- The r entries of greatest score, equal scores to the lowest position; entries are (position, score), positions rising. -/
def topScores : Nat → List (Nat × Fv) → List Nat
  | 0, _ => []
  | r + 1, l =>
    match l.foldl (fun (m : Option (Nat × Fv)) e => match m with | none => some e | some w => if cmpV e.2 w.2 > 0 then some e else m) none with
    | none => []
    | some w => w.1 :: topScores r (l.filter (fun e => e.1 != w.1))

/-- The index array of a merge: protected positions, unmerged A, then B (R286). -/
def mergeIndex (t p : Nat) (merged : List (Nat × Nat)) : List Nat :=
  let nA := countA t p
  let nB := countB t p
  let sA := merged.map (·.1)
  let order := List.range p ++ ((List.range nA).map (fun i => p + 2 * i)).filter (fun a => !sA.contains a) ++ (List.range nB).map (fun i => p + 2 * i + 1)
  (List.range t).map (fun j =>
    match merged.find? (fun e => e.1 == j) with
    | some e => order.idxOf e.2
    | none => order.idxOf j)

/-- The signature of an index array (R275, R286). -/
def mapSig (idx : List Nat) : Word := crc64 (bytesOf 2 idx)

/-- A matching over keys, with its flags (R286). -/
def matching (keys : List (List Fv)) (p r : Nat) : FloeMap × BitVec 5 :=
  let t := keys.length
  let bs := (List.range (countB t p)).map (fun i => (p + 2 * i + 1, keys.getD (p + 2 * i + 1) []))
  let rows := (List.range (countA t p)).map (fun i => (p + 2 * i, bestOf (keys.getD (p + 2 * i) []) bs (none, 0#5)))
  let scored := rows.filterMap (fun e => match e.2.1 with | some (_, v) => some (e.1, v) | none => none)
  let chosen := topScores r scored
  let merged := rows.filterMap (fun e => match e.2.1 with | some (b, _) => if chosen.contains e.1 then some (e.1, b) else none | none => none)
  let idx := mergeIndex t p merged
  ({ t := t, p := p, r := r, idx := idx, sig := mapSig idx }, rows.foldl (fun f e => f ||| e.2.2) 0#5)

/-! Handles and the map area (R284). -/

def handleOf (c : Core) (h : Nat) : FloeHandle := tget {} c.floe h

/-- Bytes of the map area that a live map of t tokens takes. -/
def mapBytes (t : Nat) : Nat := 64 + roundUp (2 * t) 64

/-- Bytes that live maps hold. -/
def mapUse (c : Core) : Nat := c.floe.foldl (fun z e => match e.2.state with | .live m => z + mapBytes m.t | _ => z) 0

/-- A handle becomes live with a map, for a context. -/
def setLive (s : State) (n h ctx : Nat) (m : FloeMap) : State :=
  modCore s n (fun c => { c with floe := tset c.floe h { state := .live m, owner := some ctx } })

/-- A refused Floe operation: its cause and DETAIL (R288). -/
abbrev FloeErr := Byte × Nat

/-- The status word of a refused Floe operation (R288). -/
def floeWord (e : FloeErr) (h : Nat) : Word := w64 (2 ^ 63 + e.1.toNat * 2 ^ 48 + h * 2 ^ 40 + e.2)

/-- The map of a handle that must be live. -/
def liveMap (c : Core) (h : Nat) : Except FloeErr FloeMap :=
  match (handleOf c h).state with
  | .live m => .ok m
  | .lost => .error (cMapLost, 0)
  | .free => .error (cMapInvalid, 1)

def need2 {α : Type} (o : Option α) (d : Nat) : Except FloeErr α :=
  match o with
  | some x => .ok x
  | none => .error (cMapInvalid, d)

def refuseIf (c : Bool) (d : Nat) : Except FloeErr Unit := if c then .error (cMapInvalid, d) else .ok ()

/-- A handle that must be free or lost. -/
def notLive (c : Core) (h : Nat) : Except FloeErr Unit :=
  match (handleOf c h).state with
  | .live _ => .error (cMapInvalid, 1)
  | _ => .ok ()

/-- A value in f32 of a token element. -/
def elemF32 (type x : Nat) : Nat × BitVec 5 := widenF type x

/-- One merged element (R133): the B or sole token's element, then those merged into it. -/
def mergeElem (xb : Fl) (xs : List Fl) (outType : Nat) : Fl :=
  let one := 0x3F800000
  let acc := mulF fmtF32 one xb.1
  let acc := xs.foldl (fun (z : Fl) x =>
    let y := fmaF fmtF32 one x.1 z.1
    (y.1, z.2 ||| x.2 ||| y.2)) (acc.1, xb.2 ||| acc.2)
  let y := divF fmtF32 acc.1 (cvtIF fmtF32 .rne (xs.length + 1 : Nat)).1
  narrowF outType (y.1, acc.2 ||| y.2)

/-- The original tokens of merged token m, its B or sole token first (R133). -/
def membersOf (m : FloeMap) (k : Nat) : Nat × List Nat :=
  let l := (List.range m.t).filter (fun j => m.idx.getD j 0 == k)
  match l.find? (fun j => m.p ≤ j && (j - m.p) % 2 == 1) with
  | some b => (b, l.filter (· != b))
  | none => (l.headD 0, [])

/-- Sizes of merged tokens (R286). -/
def mergedSize (m : FloeMap) (k : Nat) : Nat := (m.idx.filter (· == k)).length

/-- The saved image of a map (R288). -/
def mapImage (m : FloeMap) : List Byte :=
  let l := leBytes 2 0x4F46 ++ zeros 2 ++ leBytes 2 m.t ++ leBytes 2 m.p ++ leBytes 2 m.r ++ zeros 6 ++ leBytes 8 m.sig.toNat ++ bytesOf 2 m.idx
  l ++ zeros (roundUp l.length 64 - l.length)

/-- The structure that an index array must have (R288). -/
def indexOk (t p r : Nat) (idx : List Nat) : Bool :=
  let nA := countA t p
  let nB := countB t p
  let at' (j : Nat) : Nat := idx.getD j 0
  let as := (List.range nA).map (fun i => at' (p + 2 * i))
  let free := as.filter (fun x => x < p + nA - r)
  (List.range p).all (fun j => at' j == j)
    && (List.range nB).all (fun i => at' (p + 2 * i + 1) == p + nA - r + i)
    && (as.filter (fun x => p + nA - r ≤ x && x < t - r)).length == r
    && free == (List.range (nA - r)).map (p + ·)

/-- P and r obey R286 for T tokens. -/
def mergeArgsOk (t p r : Nat) : Bool := p ≤ t && r ≤ countA t p && (countB t p != 0 || r == 0)

/-- What a Floe operation does when it is performed (R287): its state and flags, or the refusal. -/
def floeBody (s : State) (n j : Nat) (k : OpKind) : Except FloeErr (State × BitVec 5) :=
  let c := coreOf s n
  let ctx := (jobOf s n j).ctx
  match k with
  | .flmatch h off p r => do
    notLive c h
    let t ← need2 (tokBlock s n off) 2
    refuseIf (!mergeArgsOk t.cnt p r) 9
    refuseIf (65536 < mapUse c + mapBytes t.cnt) 3
    let keys := (List.range t.cnt).map (fun i => (tokElems s n t i).map (fDec (fmtOf t.type)))
    let (m, f) := matching keys p r
    pure (setLive s n h ctx m, f)
  | .flmerge h so dofs => do
    let m ← liveMap c h
    let x ← need2 (tokBlock s n so) 2
    let y ← need2 (tokBlock s n dofs) 2
    refuseIf (x.cnt != m.t || y.cnt != m.t - m.r || x.dim != y.dim) 4
    refuseIf (tokOverlap x y) 5
    let out := (List.range y.cnt).map (fun q =>
      let (b, l) := membersOf m q
      let eb := (tokElems s n x b).map (elemF32 x.type)
      let es := l.map (fun a => (tokElems s n x a).map (elemF32 x.type))
      (List.range x.dim).map (fun e => mergeElem (eb.getD e (0, 0#5)) (es.map (fun r => r.getD e (0, 0#5))) y.type))
    let s := (List.range y.cnt).foldl (fun s q =>
      spWrite s n (y.base + q * y.pitch) (bytesOf (elemSize y.type) ((out.getD q []).map (·.1)))) s
    pure (s, out.foldl (fun f l => f ||| flagsOf l) 0#5)
  | .flunmg h so dofs => do
    let m ← liveMap c h
    let x ← need2 (tokBlock s n so) 2
    let y ← need2 (tokBlock s n dofs) 2
    refuseIf (x.cnt != m.t - m.r || y.cnt != m.t || x.dim != y.dim || x.type != y.type) 4
    refuseIf (tokOverlap x y) 5
    let old := s
    pure ((List.range y.cnt).foldl (fun s i => spWrite s n (y.base + i * y.pitch) (tokBytes old n x (m.idx.getD i 0))) s, 0#5)
  | .flsize row h base => do
    let m ← liveMap c h
    pure (writeRow s n row 4 ((List.range 128).map (fun i =>
      if base + i < m.t - m.r then (cvtIF fmtF32 .rne (mergedSize m (base + i) : Nat)).1 else 0)), 0#5)
  | .flsave h off => do
    let m ← liveMap c h
    refuseIf (scratchSize < off + (mapImage m).length) 6
    pure (spWrite s n off (mapImage m), 0#5)
  | .flload h off => do
    notLive c h
    let hd := spRead s n off 24
    let t := fieldAt hd 4 2
    let p := fieldAt hd 6 2
    let r := fieldAt hd 8 2
    refuseIf (fieldAt hd 0 2 != 0x4F46 || fieldAt hd 2 2 != 0 || fieldAt hd 10 6 != 0 || t == 0 || 16384 < t
      || scratchSize < off + roundUp (24 + 2 * t) 64) 6
    refuseIf (!mergeArgsOk t p r) 9
    let idx := lanesOf 2 t (spRead s n (off + 24) (2 * t))
    refuseIf (w64 (fieldAt hd 16 8) != mapSig idx) 7
    refuseIf (!indexOk t p r idx) 8
    refuseIf (65536 < mapUse c + mapBytes t) 3
    pure (setLive s n h ctx { t := t, p := p, r := r, idx := idx, sig := w64 (fieldAt hd 16 8) }, 0#5)
  | .flfree h => pure (modCore s n (fun c => { c with floe := tset c.floe h { handleOf c h with state := .free } }), 0#5)
  | _ => pure (s, 0#5)

/-- The handle that a Floe operation names. -/
def floeHandle : OpKind → Option Nat
  | .flmatch h _ _ _ => some h
  | .flmerge h _ _ => some h
  | .flunmg h _ _ => some h
  | .flsize _ h _ => some h
  | .flsave h _ => some h
  | .flload h _ => some h
  | .flfree h => some h
  | _ => none

/-! Issue. -/

/-- Checks of a block offset at issue (R287; their order is a DESIGN CHOICE, log 91). -/
def blockCheck (off align : Nat) : Option Byte :=
  if off % align ≠ 0 then some cAlign else if scratchSize ≤ off then some cXlatPerm else none

/-- A Floe operation with block offsets, aligned as named, enters the VQ. -/
def floeIssue (reads : List Reg) (offs : State → Agent → List (Nat × Nat)) (mk : State → Agent → OpKind) (s : State) : Result :=
  issue 1 { streams := [.v], reads := reads } s (fun s g =>
    match g with
    | .mgmt => raise cIllegal
    | .stream n j _ =>
      match (offs s g).findSome? (fun e => blockCheck e.1 e.2) with
      | some c => raise c
      | none => vqPut s n j (mk s g) [])

/-- flmatch (R287). -/
def execFlmatch (h : BitVec 3) (a b : Reg) (s : State) : Result :=
  floeIssue [a, b] (fun s g => [(off21 (reg s g a), 16)])
    (fun s g => .flmatch h.toNat (off21 (reg s g a)) (bitsAt (reg s g b) 0 16) (bitsAt (reg s g b) 16 16)) s
/-- flmerge (R287). -/
def execFlmerge (h : BitVec 3) (a b : Reg) (s : State) : Result :=
  floeIssue [a, b] (fun s g => [(off21 (reg s g a), 16), (off21 (reg s g b), 16)])
    (fun s g => .flmerge h.toNat (off21 (reg s g a)) (off21 (reg s g b))) s
/-- flunmg (R287). -/
def execFlunmg (h : BitVec 3) (a b : Reg) (s : State) : Result :=
  floeIssue [a, b] (fun s g => [(off21 (reg s g a), 16), (off21 (reg s g b), 16)])
    (fun s g => .flunmg h.toNat (off21 (reg s g a)) (off21 (reg s g b))) s
/-- flsave (R287, R288). -/
def execFlsave (h : BitVec 3) (a : Reg) (s : State) : Result :=
  floeIssue [a] (fun s g => [(off21 (reg s g a), 64)]) (fun s g => .flsave h.toNat (off21 (reg s g a))) s
/-- flload (R287, R288). -/
def execFlload (h : BitVec 3) (a : Reg) (s : State) : Result :=
  floeIssue [a] (fun s g => [(off21 (reg s g a), 64)]) (fun s g => .flload h.toNat (off21 (reg s g a))) s
/-- flfree (R287). -/
def execFlfree (h : BitVec 3) (s : State) : Result :=
  floeIssue [] (fun _ _ => []) (fun _ _ => .flfree h.toNat) s
/-- flsize (R287). -/
def execFlsize (d : VReg) (h : BitVec 3) (b : Reg) (s : State) : Result :=
  vecIssue 1 [b] [d] true s (fun s n j k rs =>
    if rowCode k (rs.getD 0 0) ≠ 0 then raise cTileType
    else vqPut s n j (.flsize (rs.getD 0 0) h.toNat (bitsAt (reg s (vAgent n j) b) 0 14)) [])

/-- flsig (R287): it waits for earlier operations on its handle; its causes are raised at issue. -/
def execFlsig (d : Reg) (h : BitVec 3) (s : State) : Result :=
  issue 1 { streams := [.v] } s (fun s g =>
    match g with
    | .mgmt => raise cIllegal
    | .stream n j _ =>
      if (jobOf s n j).vq.any (fun o => floeHandle o.kind == some h.toNat) then .wait s .waiting
      else match liveMap (coreOf s n) h.toNat with
        | .ok m => .ok (setReg s g d m.sig) .seq
        | .error e => .trap { cause := e.1, status := floeWord e h.toNat })

/-! Softmax (R134, R289). -/

/-- ln of a size lane: ±0 gives -∞ with no flag (R289). -/
def lnSize (x : Nat) : Fl := if isZero (fDec fmtF32 x) then (0xFF800000, 0#5) else lnV (fDec fmtF32 x)

/-- Lanes padded to a full row. -/
def padTo (l : List Fl) (n : Nat) (e : Nat) : List Fl := l ++ List.replicate (n - l.length) (e, 0#5)

/-- A flag-gathering map over the lanes of a row. -/
def stepF (f : Nat → Nat × BitVec 5) (x : Fl) : Fl :=
  let y := f x.1
  (y.1, x.2 ||| y.2)

/-- One softmax over z, in rows of `lanes` lanes, rounded to a tile's type (R134); flags are those of every step. -/
def softmax (code lanes : Nat) (z : List Fl) : List Nat × BitVec 5 :=
  let r := Nat.log2 lanes
  let m := (halve (withFl (minmaxF true true fmtF32)) r (padTo z lanes 0xFF800000)).headD (0, 0#5)
  let d := z.map (stepF (fun x => subF fmtF32 x m.1))
  let e := d.map (stepF (fun x => expV (fDec fmtF32 x)))
  let q := (halve (withFl (addF fmtF32)) r (padTo e lanes 0x80000000)).headD (0, 0#5)
  let p := e.map (fun x =>
    let y := divTo (fmtOf code) x.1 q.1
    (y.1, x.2 ||| y.2))
  (p.map (·.1), p.foldl (fun f x => f ||| x.2) (m.2 ||| q.2))
where
  /-- A quotient of f32 values rounded once to a format. -/
  divTo (f : Fmt) (x y : Nat) : Nat × BitVec 5 := divV f (fDec fmtF32 x) (fDec fmtF32 y)

/-- The size rows of vsmxs: row a + 1, and row a + 2 when n exceeds 128 (R289). -/
def sizeRows (b : Job) (a : VReg) (n : Nat) : List Nat :=
  [(b.vwb.toNat + a.toNat + 1) % 1024] ++ (if 128 < n then [(b.vwb.toNat + a.toNat + 2) % 1024] else [])

/-- vsmx and vsmxs (R134, R289; DESIGN CHOICE: the order of their causes, log entry 77). -/
def smxOp (sizes : Bool) (d a : VReg) (r : Reg) (s : State) : Result :=
  vecIssue 1 [r] [d, a] true s (fun s n j b rs =>
    let code := rowCode b (rs.getD 0 0)
    let k := bitsAt (reg s (vAgent n j) r) 0 9
    let extra := if sizes then sizeRows b a k else []
    if k = 0 ∨ laneN code < k then raise cIllegal
    else if !isFloat code || !extra.all (fun x => rowCode b x == 0) then raise cTileType
    else if extra.any (fun x => tileBusy b (tileOf x)) then .wait s .waiting
    else
      let logit := ((readRow s n (rs.getD 1 0) (laneW code)).take k).map (widenF code)
      let size := extra.flatMap (fun x => readRow s n x 4)
      let z := if sizes then
          (List.zip logit (size.take k)).map (fun e =>
            let l := lnSize e.2
            let y := addF fmtF32 e.1.1 l.1
            (y.1, e.1.2 ||| l.2 ||| y.2))
        else logit
      let o := softmax code (laneN code) z
      .ok (setFlags (writeRow s n (rs.getD 0 0) (laneW code) (o.1 ++ List.replicate (laneN code - k) 0)) (vAgent n j) o.2) .seq)

/-- vsmx (R289). -/
def execVsmx (d a : VReg) (b : Reg) (s : State) : Result := smxOp false d a b s
/-- vsmxs (R289). -/
def execVsmxs (d a : VReg) (b : Reg) (s : State) : Result := smxOp true d a b s

end Sys2Proof.Machine
end

