-- ==== Sys2Proof/Machine/Lists.lean ====
section
/-! DEFINITION. Work-lists (R186 to R188) and the management core's memory map (R328, R333). -/

namespace Sys2Proof.Machine

open Sys2Proof.Config

/-! Work-lists. A bound list is held on chip: its buffer and presence bitmap in memory are not written (log entry 23). -/

/-- The binding that a list descriptor of 64 bytes gives, where it is well formed (R186). -/
def parseList (va : Word) (l : List Byte) : Option WorkList :=
  let f (o n : Nat) : Nat := fieldAt l o n
  if f 0 8 % 64 = 0 ∧ f 0 8 < 2 ^ 56 ∧ 6 ≤ f 8 1 ∧ f 8 1 ≤ 24 ∧ f 9 3 = 0 ∧ f 12 4 ≤ 2 ^ 24
      ∧ (f 12 4 = 0 ∨ (f 16 8 % 64 = 0 ∧ f 16 8 < 2 ^ 56)) ∧ (l.drop 40).all (· == 0#8) then
    some { desc := va, buf := w64 (f 0 8), cap := 2 ^ f 8 1, domain := f 12 4, bitmap := w64 (f 16 8) }
  else none

/-- The descriptor at a VA, read for a context (R187); one that an error strikes on the mesh or the seam cannot be read (R17). -/
def readList (s : State) (w : Who) (va : Word) : State × Option WorkList :=
  if va.toNat % 64 ≠ 0 then (s, none)
  else
    match translate s w.p w.c w.core va .read w.user with
    | .ok pa _ =>
      if region pa != .hbm then (walked s w va, none)
      else match vaRead s w va 64 with
        | (t, .ok l) => (t, if transitError s.tick then none else parseList va l)
        | (t, .error _) => (t, none)
    | _ => (walked s w va, none)

def listOf (s : State) (p c k : Nat) : Option WorkList := tfind (ctxOf s p c).lists k
def setList (s : State) (p c k : Nat) (l : WorkList) : State := modCtx s p c (fun x => { x with lists := tset x.lists k l })

/-- wlcfg (R187). DESIGN CHOICE (log 95): −1 comes before −2. -/
def wlCfg (s : State) (w : Who) (a b : Word) : State × Word :=
  let k := b.toNat
  if 16 ≤ k then (s, -4#64)
  else match listOf s w.p w.c k, decide (a = 0#64) with
    | some _, true => (modCtx s w.p w.c (fun x => { x with lists := tdel x.lists k }), 0#64)
    | none, true => (s, -1#64)
    | some _, false => (s, -1#64)
    | none, false =>
      match readList s w a with
      | (s, some l) => (setList s w.p w.c k l, 0#64)
      | (s, none) => (s, -2#64)

/-- The bound list that an operand names, or the status that refuses it (R187). -/
def wlNamed (s : State) (p c : Nat) (a : Word) : Except Word (Nat × WorkList) :=
  if 16 ≤ a.toNat then .error (-4#64)
  else match listOf s p c a.toNat with
    | some l => .ok (a.toNat, l)
    | none => .error (-2#64)

/-- wlpush (R187). -/
def wlPush (s : State) (p c : Nat) (a b : Word) : State × Word :=
  match wlNamed s p c a with
  | .error e => (s, e)
  | .ok (k, l) =>
    if l.cap ≤ l.entries.length then (s, -1#64)
    else (setList s p c k { l with entries := l.entries ++ [bitsAt b 0 32] }, 0#64)

/-- wlins (R187). -/
def wlIns (s : State) (p c : Nat) (a b : Word) : State × Word :=
  match wlNamed s p c a with
  | .error e => (s, e)
  | .ok (k, l) =>
    let v := bitsAt b 0 32
    if l.domain ≤ v then (s, -3#64)
    else if l.bits.contains v then (s, 1#64)
    else if l.cap ≤ l.entries.length then (s, -1#64)
    else (setList s p c k { l with entries := l.entries ++ [v], bits := v :: l.bits }, 0#64)

/-- Bits of removed entries are cleared (R187). -/
def clearBits (l : WorkList) (out : List Nat) : List Nat := l.bits.filter (fun b => !out.contains b)

/-- wlcnt (R187). -/
def wlCnt (s : State) (p c : Nat) (a : Word) : Word :=
  match wlNamed s p c a with
  | .error e => e
  | .ok (_, l) => w64 l.entries.length

/-- wldrain (R187). -/
def wlDrain (s : State) (p c : Nat) (a : Word) : State × Word :=
  match wlNamed s p c a with
  | .error e => (s, e)
  | .ok (k, l) => (setList s p c k { l with entries := [], bits := clearBits l l.entries }, w64 l.entries.length)

/-- wlpopb (R187): the whole destination is translated before anything is popped; so is an error that strikes its writes on the mesh or the seam found (R17). DESIGN CHOICE (log 86): the lines of the destination that an L1 holds stay as they were. DESIGN CHOICE (log 95): −2 comes before −3, and only the words that will be popped are checked. -/
def wlPopb (s : State) (w : Who) (a b : Word) : State × Except VErr Word :=
  if a.toNat ≠ bitsAt a 0 4 + bitsAt a 8 8 * 256 then (s, .ok (-4#64))
  else match listOf s w.p w.c (bitsAt a 0 4) with
    | none => (s, .ok (-2#64))
    | some l =>
      let n := bitsAt a 8 8
      if n < 1 ∨ 64 < n then (s, .ok (-3#64))
      else
        let out := l.entries.take n
        match vaCheck s w .write b (4 * out.length) with
        | some e => (walkedRange s w b (4 * out.length), .error e)
        | none =>
          if transitError s.tick then (walkedRange s w b (4 * out.length), .error (.fault cDataUe false b))
          else match vaWrite s w b (bytesOf 4 out) with
          | (s, .error e) => (s, .error e)
          | (s, .ok _) => (setList s w.p w.c (bitsAt a 0 4) { l with entries := l.entries.drop n, bits := clearBits l out }, .ok (w64 out.length))

/-! The management map. -/

/-- Where an address of the management map lies (R328). -/
inductive MgmtPlace where
  | sram (a : Nat)
  | record (a : Nat)
  | reg (a : Nat)
  | outside
  deriving DecidableEq, Repr

def mgmtPlace (a len : Nat) : MgmtPlace :=
  if a + len ≤ 0x40000 then .sram a
  else if 0x10000000 ≤ a ∧ a + len ≤ 0x14000000 then .record (a - 0x10000000)
  else if (0x100000 ≤ a ∧ a + len ≤ 0x100850) ∨ (0x101000 ≤ a ∧ a + len ≤ 0x101800) ∨ (0x102000 ≤ a ∧ a + len ≤ 0x102010)
      ∨ (0x102100 ≤ a ∧ a + len ≤ 0x102122) ∨ (0x102200 ≤ a ∧ a + len ≤ 0x102210) ∨ (0x102300 ≤ a ∧ a + len ≤ 0x102320) then .reg a
  else .outside

/-- The dword of a management register at a multiple of 8 (R328). -/
def mgmtReg (s : State) (a : Nat) : Word :=
  let m := s.mgmt
  if a < 0x100850 then
    let t := tget (0#16, 0#32) m.temps ((a - 0x100000) / 8)
    t.1.setWidth 64 ||| (t.2.setWidth 64 <<< 16)
  else if a < 0x102000 then (tget 0#4 m.throt ((a - 0x101000) / 8)).setWidth 64
  else if 0x102100 ≤ a ∧ a < 0x102128 then (m.alerts >>> (8 * (a - 0x102100))).setWidth 64
  else match a with
    | 0x102000 => m.alerthi.setWidth 64
    | 0x102008 => m.mevent.setWidth 64
    | 0x102208 => crit.setWidth 64
    | 0x102300 => m.mtvec
    | 0x102308 => m.mepc
    | 0x102310 => m.mcause.setWidth 64
    | 0x102318 => m.mfaddr.setWidth 64
    | _ => 0#64

/-- A request to vacate column n is held until it can be carried out (R311). -/
def requestVacate (s : State) (n : Nat) : State :=
  { s with mgmt := { s.mgmt with vacates := if s.mgmt.vacates.contains n then s.mgmt.vacates else s.mgmt.vacates ++ [n] } }

/-- A management register := v (R328). -/
def mgmtRegWrite (s : State) (a : Nat) (v : Word) : State :=
  let m := s.mgmt
  let set (k : Mgmt) : State := { s with mgmt := k }
  if a < 0x101000 then s
  else if a < 0x102000 then set { m with throt := tset m.throt ((a - 0x101000) / 8) (v.setWidth 4) }
  else if 0x102100 ≤ a ∧ a < 0x102128 then
    set { m with alerts := m.alerts &&& ~~~((v.setWidth 272) <<< (8 * (a - 0x102100))) }
  else match a with
    | 0x102000 => set { m with alerthi := v.setWidth 16 }
    | 0x102008 => set { m with mevent := m.mevent &&& ~~~(v.setWidth 4) }
    | 0x102200 => requestVacate s (bitsAt v 0 8)
    | 0x102300 => set { m with mtvec := v &&& 0x3FFFC#64 }
    | 0x102308 => set { m with mepc := v &&& 0x3FFFC#64 }
    | _ => s

/-- Registers of which a partial write merges with zeros (DESIGN CHOICE, log 19). -/
def mgmtMergeZero (a : Nat) : Bool := a == 0x102008 || a == 0x102200 || (0x102100 ≤ a && a < 0x102128)

/-- n bytes of the management map; nothing outside it, or where the record region is uncorrectable. -/
def mgmtRead (s : State) (a len : Nat) : Except Byte (List Byte) :=
  match mgmtPlace a len with
  | .sram a => .ok (memReadN s.mem (sramAt a) len)
  | .record a =>
    match storeRead s.mem (recordBase + a) len [] with
    | some (l, _) => .ok l
    | none => .error cDataUe
  | .reg a => .ok ((List.range len).map (fun i => (mgmtReg s ((a + i) / 8 * 8) >>> (8 * ((a + i) % 8))).setWidth 8))
  | .outside => .error cXlatPerm

/-- Bytes written to the management map (R328). DESIGN CHOICE (log 19): what a store narrower than a register leaves of its other bytes. -/
def mgmtWrite (s : State) (a : Nat) (l : List Byte) : Except Byte State :=
  match mgmtPlace a l.length with
  | .sram a => .ok { s with mem := memWrite s.mem (sramAt a) l }
  | .record a =>
    match storeWrite s.mem (recordBase + a) [] l with
    | some (m, _) => .ok { s with mem := m }
    | none => .error cDataUe
  | .reg a =>
    let o := a / 8 * 8
    let old := if mgmtMergeZero o then 0#64 else mgmtReg s o
    let b := (List.range 8).map (fun k => if a ≤ o + k ∧ o + k < a + l.length then l.getD (o + k - a) 0#8 else (old >>> (8 * k)).setWidth 8)
    .ok (mgmtRegWrite s o (w64 (leNat b)))
  | .outside => .error cXlatPerm

end Sys2Proof.Machine
end

