-- ==== Sys2Proof/Machine/Launch.lean ====
section
/-! DEFINITION. Launches and tasks: ready order, counters, tokens, spawning and completion (R23, R29, R42, R46 to R51, R57 to R59), and the start of a vault snapshot (R95, R98). -/

namespace Sys2Proof.Machine

open Sys2Proof.Config

/-- Key of a task created at activation, and of one spawned into a pool entry. -/
def taskKey (node tile : Nat) : Nat := node * 2 ^ 25 + tile
def spawnKey (node entry : Nat) : Nat := node * 2 ^ 25 + 2 ^ 24 + entry

def modLaunch (s : State) (p c : Nat) (f : Launch → Launch) : State :=
  modCtx s p c (fun x => { x with launch := x.launch.map f })

def launchOf (s : State) (p c : Nat) : Launch := ((ctxOf s p c).launch).getD {}
def graphOf (s : State) (p c : Nat) : Graph := ((ctxOf s p c).graph).getD { nodes := [], edges := [], gen := 0 }
def nodeOf (s : State) (p c k : Nat) : Node := (graphOf s p c).nodes.getD k {}

def taskOf (la : Launch) (key : Nat) : Option Task := tfind la.tasks key
def modTask (la : Launch) (key : Nat) (f : Task → Task) : Launch :=
  match tfind la.tasks key with
  | some t => { la with tasks := tset la.tasks key (f t) }
  | none => la

/-- Spatial trip counts of a node in the launch, outermost first (R25, R26). -/
def spatialTrips (nd : Node) (trips : List Nat) : List Nat :=
  (List.zip nd.levels trips).filterMap (fun p => if p.1.1 = 0 then none else some p.2)

/-- Tasks that activation creates for a node (R26). -/
def taskCount (nd : Node) (trips : List Nat) : Nat := (spatialTrips nd trips).foldl (· * ·) 1

/-- A task becomes ready and joins the tail of its node's ready order (R29, R49). -/
def makeReady (la : Launch) (key : Nat) : Launch :=
  match taskOf la key with
  | none => la
  | some t =>
    let la := modTask la key (fun t => { t with st := .ready })
    { la with order := tset la.order t.node (tget [] la.order t.node ++ [key]) }

/-- A task leaves its node's ready order: it has started or is complete. -/
def leaveOrder (la : Launch) (node key : Nat) : Launch := { la with order := tmod [] la.order node (fun l => l.erase key) }

/-- A decrement of a task's counter: without effect unless it is waiting (R49). -/
def decTask (la : Launch) (key : Nat) : Launch :=
  match taskOf la key with
  | none => la
  | some t =>
    if t.st != .waiting then la
    else
      let la := modTask la key (fun t => { t with ctr := t.ctr - 1 })
      if t.ctr ≤ 1 then makeReady la key else la

/-- The task that a task name denotes (R48, R50): one of this package; the table of R50 names no case for a tile that runs on another package of the gang, and the model gives it none either (log entry 73). -/
def namedTask (s : State) (p c : Nat) (v : Word) : Option Nat :=
  let node := bitsAt v 30 10
  let tile := bitsAt v 0 24
  if v.toNat ≠ node * 2 ^ 30 + tile then none
  else
    match (ctxOf s p c).launch with
    | none => none
    | some la => if (taskOf la (taskKey node tile)).isSome then some (taskKey node tile) else none

/-- depdec: the status of R50 and the state. A task whose probe is in flight has no counter to change: −1 (DESIGN CHOICE, log entry 73). -/
def depDec (s : State) (p c : Nat) (v : Word) : State × Word :=
  match namedTask s p c v with
  | none => (s, -2#64)
  | some k =>
    match taskOf (launchOf s p c) k with
    | some t =>
      if t.st != .waiting then (s, -1#64)
      else (modLaunch s p c (fun la => decTask la k), if t.ctr ≤ 1 then 1#64 else 0#64)
    | none => (s, -2#64)

/-- depinc: the status of R50 and the state; −1 for a task whose probe is in flight, as `depDec` (DESIGN CHOICE, log entry 73). -/
def depInc (s : State) (p c : Nat) (v : Word) : State × Word :=
  match namedTask s p c v with
  | none => (s, -2#64)
  | some k =>
    match taskOf (launchOf s p c) k with
    | some t =>
      if t.st != .waiting then (s, -1#64)
      else if 65535 ≤ t.ctr then (s, -3#64)
      else (modLaunch s p c (fun la => modTask la k (fun t => { t with ctr := t.ctr + 1 })), 0#64)
    | none => (s, -2#64)

/-- Undispatched spawned tasks of a node (R58). -/
def spawnQueue (la : Launch) (node : Nat) : Nat :=
  (la.tasks.filter (fun e => e.2.node == node && e.2.pool.isSome && e.2.st == .ready)).length

/-- The lowest-numbered free pool entry (R59). -/
def freeEntry (q : Partition) : Option Nat := (List.range 4096).find? (fun i => !q.poolUsed.contains i)

/-- spawn by a job of a context: its status or ticket (R57 to R59); where the context has no launch any more, the node does not exist (log entry 73). -/
def spawnTask (s : State) (p c depth : Nat) (a b : Word) : State × Word :=
  let q := partOf s p
  let node := a.toNat
  if (graphOf s p c).nodes.length ≤ node ∨ (ctxOf s p c).launch.isNone then (s, -1#64)
  else if q.splimit.toNat < depth + 1 then (s, -2#64)
  else if 64 ≤ spawnQueue (launchOf s p c) node then (s, -3#64)
  else match freeEntry q with
    | none => (s, -4#64)
    | some e =>
      let key := spawnKey node e
      let s := modPart s p (fun q => { q with poolUsed := e :: q.poolUsed })
      let s := modLaunch s p c (fun la => 
        let t : Task := { node := node, tile := bitsAt b 0 24, depth := depth + 1, pool := some e }
        makeReady { la with tasks := tset la.tasks key t } key)
      (s, w64 ((tget 0#16 q.poolGen e).toNat * 4096 + e))

/-- A ticket is negative, or 2^28 or more (R185). -/
def badTicket (v : Word) : Bool := 2 ^ 28 ≤ v.toNat

/-- A ticket's task is complete: its entry's generation has moved on (R59). -/
def ticketDone (s : State) (p : Nat) (v : Word) : Bool :=
  (tget 0#16 (partOf s p).poolGen (v.toNat % 4096)).toNat != v.toNat / 4096

/-- Edges by index whose producer, or whose consumer, is a node. -/
def outEdges (g : Graph) (node : Nat) : List (Nat × Edge) := ((List.range g.edges.length).zip g.edges).filter (fun e => e.2.prod == node)
def inEdges (g : Graph) (node : Nat) : List (Nat × Edge) := ((List.range g.edges.length).zip g.edges).filter (fun e => e.2.cons == node)

/-- Tokens plus reservations of an edge (R47). -/
def occupancy (la : Launch) (e : Nat) : Nat := let q := tget {} la.edgeq e; q.tokens.length + q.resv.length

/-- A place is reserved in each output edge of a task's node (R46). -/
def reserveOut (g : Graph) (la : Launch) (key node : Nat) : Launch :=
  let la := (outEdges g node).foldl (fun la e => { la with edgeq := tmod {} la.edgeq e.1 (fun q => { q with resv := q.resv ++ [key] }) }) la
  modTask la key (fun t => { t with reserved := true })

/-- The tokens that name a task leave their edges (R46). -/
def takeTokens (g : Graph) (la : Launch) (key node : Nat) : Launch :=
  (inEdges g node).foldl (fun la e => { la with edgeq := tmod {} la.edgeq e.1 (fun q => { q with tokens := q.tokens.filter (· != key) }) }) la

/-- Each reservation of a completing task becomes a token that decrements its consumer, or is released (R46, R51). -/
def makeTokens (g : Graph) (la : Launch) (key : Nat) (t : Task) : Launch :=
  if !t.reserved then la
  else (outEdges g t.node).foldl (fun la e =>
    let ck := taskKey e.2.cons t.tile
    let isTask := (taskOf la ck).isSome
    let la := { la with edgeq := tmod {} la.edgeq e.1 (fun q => { resv := q.resv.erase key, tokens := if isTask then q.tokens ++ [ck] else q.tokens }) }
    if isTask then decTask la ck else la) la

/-- Every task of a launch is complete (R23). -/
def allComplete (la : Launch) : Bool := la.tasks.all (fun e => e.2.st == .complete)

/-! The step loop after a launch (R42). -/

/-- Virtual address of the commit word of an image (R95). -/
def commitVa (s : State) (p c image : Nat) : Word :=
  let x := ctxOf s p c
  x.snaparea + w64 (2 * (coresOf s p).length * ((vrangeOf x).2 * 4096) + 8 * image)

/-- A commit word written (R95, R98). One that cannot be written, which no rule speaks of, is passed over (log entry 74). -/
def writeCommit (s : State) (p c image : Nat) (v : Nat) : State :=
  (vaWrite s { p := p, c := c } (commitVa s p c image) (leBytes 8 v)).1

/-- The loop ends: BUSY clears, DONE is set, and the partition's supervisor is told (R42, R316). -/
def loopEnds (s : State) (p c : Nat) : State := partEvent (modCtx s p c (fun x => { x with busy := false, done := true, stopReq := false })) p 2

/-- The step is done: SQSTEP rises, and the loop goes on or stops (R42). -/
def stepDone (s : State) (p c : Nat) : State :=
  let s := modCtx s p c (fun x => { x with sqstep := x.sqstep + 1#16, launch := none, snap := none })
  let x := ctxOf s p c
  if x.stopReq || x.sqcount.toNat ≤ x.sqstep.toNat then loopEnds s p c else s

/-- The sequencer goes on while its context holds the slice (R40, R42): past a complete launch, where a snapshot starts if the step asks for one and the step is done otherwise; and out of its loop, where no step is left after a rollback. -/
def advanceLoop (s : State) (p c : Nat) : State :=
  let x := ctxOf s p c
  if !x.busy || x.stopped || (partOf s p).running != some c then s
  else
    match x.launch with
    | none => if x.sqcount.toNat ≤ x.sqstep.toNat then loopEnds s p c else s
    | some la =>
      if x.snap.isSome || !allComplete la then s
      else if (tget 0#64 x.k 6).getLsbD 3 && (vrangeOf x).2 != 0 then
        let step := (tget 0#64 x.k 0).toNat
        let s := modCtx s p c (fun x => { x with snap := some { image := step % 2, step := step } })
        writeCommit s p c (step % 2) (2 ^ 64 - 1)
      else stepDone s p c

/-- A task completes (R51). -/
def completeTask (s : State) (p c key : Nat) : State :=
  let g := graphOf s p c
  match taskOf (launchOf s p c) key with
  | none => s
  | some t =>
    if t.st == .complete then s
    else
      let s := modLaunch s p c (fun la => makeTokens g (leaveOrder (modTask la key (fun t => { t with st := .complete })) t.node key) key t)
      let s := match t.pool with
        | some e => freePool s p e
        | none => s
      advanceLoop (progress s p c) p c

/-- A killed task counts as complete: its reservations are released without tokens (R193). -/
def endKilled (s : State) (p c key : Nat) : State :=
  match taskOf (launchOf s p c) key with
  | none => s
  | some t =>
    if t.st == .complete then s
    else
      let s := modLaunch s p c (fun la =>
        let la := leaveOrder (modTask la key (fun t => { t with st := .complete })) t.node key
        (outEdges (graphOf s p c) t.node).foldl (fun la e =>
          { la with edgeq := tmod {} la.edgeq e.1 (fun q => { q with resv := q.resv.erase key }) }) la)
      let s := match t.pool with
        | some e => freePool s p e
        | none => s
      advanceLoop (progress s p c) p c

/-- A dispatched task that has not started is ready again, at the place in its node's ready order that it kept, and with its reservations (R22, R29, R46). -/
def returnTask (s : State) (p c key : Nat) : State := modLaunch s p c (fun la => modTask la key (fun t => { t with st := .ready }))

end Sys2Proof.Machine
end

