-- ==== Sys2Proof/Machine/Reuse.lean ====
section
/-! DEFINITION. The Firn: entries, probes and installations (R274 to R282). -/

namespace Sys2Proof.Machine

open Sys2Proof.Config

/-- Key of an entry (R274). -/
def firnKey (layer tile : Nat) : Nat := layer * 2 ^ 24 + tile
def firnEntry (x : Context) (layer tile : Nat) : FirnEntry := tget {} x.firn (firnKey layer tile)

/-- Element size, input bytes and arena slot bytes (R275, R276). -/
def firnElem (f : FirnDesc) : Nat := if f.itype = 0 then 4 else 2
def firnRows (f : FirnDesc) : Nat := f.hu + f.rows + f.hd
def firnIn (f : FirnDesc) : Nat := firnRows f * f.rb
def firnSlot (f : FirnDesc) : Nat := roundUp (firnIn f) 64 + f.rbytes

/-- Whose translation the Firn uses: the context's, at user privilege (R61, R62), through the TLB of the core whose instruction it is (R97); the scheduler's accesses name none. -/
def firnWho (p c : Nat) (core : Option Nat := none) : Who := { p := p, c := c, core := core, user := true }

/-- VA of row r of tile t's input (R277). -/
def firnRowVa (f : FirnDesc) (t r : Nat) : Word :=
  BitVec.ofInt 64 ((f.ibase.toNat + t * f.tstride : Nat) + ((r : Int) - f.hu) * f.pitch)
def firnResultVa (f : FirnDesc) (t : Nat) : Word := f.rbase + w64 (t * f.rstride)
def firnSigVa (f : FirnDesc) (t : Nat) : Word := f.sigbase + w64 (8 * t)

/-- Rows of a tile's input from row r on (R277). -/
def firnInputFrom (w : Who) (f : FirnDesc) (t : Nat) : Nat → State → Nat → State × Except VErr (List Byte)
  | 0, s, _ => (s, .ok [])
  | k + 1, s, r =>
    match vaRead s w (firnRowVa f t r) f.rb with
    | (s, .error e) => (s, .error e)
    | (s, .ok l) =>
      match firnInputFrom w f t k s (r + 1) with
      | (s, .error e) => (s, .error e)
      | (s, .ok l') => (s, .ok (l ++ l'))

def firnInput (s : State) (w : Who) (f : FirnDesc) (t : Nat) : State × Except VErr (List Byte) :=
  firnInputFrom w f t (firnRows f) s 0

/-- The current signature (R277). -/
def firnSignature (s : State) (w : Who) (f : FirnDesc) (t : Nat) : State × Except VErr Word :=
  if f.sigbase = 0#64 then (s, .ok 0#64)
  else match vaRead s w (firnSigVa f t) 8 with
    | (s, .error e) => (s, .error e)
    | (s, .ok l) => (s, .ok (w64 (leNat l)))

/-- Where arena slot q of tile t stands: a VA, or a physical vault address (R276). -/
def arenaAt (s : State) (p : Nat) (f : FirnDesc) (t q : Nat) : Word ⊕ Nat :=
  if f.aspace = 2 then
    let cs := coresOf s p
    let n := cs.length
    .inr (vaultAt (cs.getD (t % max n 1) 0) + f.abase.toNat + (3 * (t / max n 1) + q) * firnSlot f)
  else .inl (f.abase + w64 ((3 * t + q) * firnSlot f))

/-- Bytes of an arena slot, from an offset. -/
def arenaRead (s : State) (w : Who) (f : FirnDesc) (t q off len : Nat) : State × Except VErr (List Byte) :=
  match arenaAt s w.p f t q with
  | .inl va => vaRead s w (va + w64 off) len
  | .inr pa =>
    match physRead s w.p (pa + off) len 0 with
    | (s, .ok l) => (s, .ok l)
    | (s, .error c) => (s, .error (.fault c false 0#64))

/-- An arena slot can be written. -/
def arenaCheck (s : State) (w : Who) (f : FirnDesc) (t q : Nat) : Option VErr :=
  match arenaAt s w.p f t q with
  | .inl va => vaCheck s w .write va (firnSlot f)
  | .inr _ => none

/-- The walks that the translation of an arena slot takes. -/
def slotWalked (s : State) (w : Who) (f : FirnDesc) (t q : Nat) : State :=
  match arenaAt s w.p f t q with
  | .inl va => walkedRange s w va (firnSlot f)
  | .inr _ => s

def arenaWrite (s : State) (w : Who) (f : FirnDesc) (t q off : Nat) (l : List Byte) : State × Except VErr Unit :=
  match arenaAt s w.p f t q with
  | .inl va => vaWrite s w (va + w64 off) l
  | .inr pa =>
    match physWrite s (pa + off) 0 l with
    | (s, .ok _) => (s, .ok ())
    | (s, .error c) => (s, .error (.fault c false 0#64))

/-! The delta (R278). Values are f32 patterns. -/

def fabs (x : Nat) : Nat := x % 2 ^ 31
def add32 (x y : Nat) : Nat := (addF fmtF32 x y).1
def maxp32 (x y : Nat) : Nat := (minmaxF true true fmtF32 x y).1

/-- One element enters the partial sums of its block of 64. -/
def deltaElem (metric : Nat) (z : Nat × Nat) (xy : Nat × Nat) : Nat × Nat :=
  let d := (subF fmtF32 xy.1 xy.2).1
  match metric with
  | 0 => (add32 z.1 (fabs d), add32 z.2 (fabs xy.2))
  | 1 => (maxp32 z.1 (fabs d), z.2)
  | _ => (add32 z.1 (mulF fmtF32 d d).1, add32 z.2 (mulF fmtF32 xy.2 xy.2).1)

/-- N and D over blocks of 64 elements; the fuel is the number of blocks. -/
def deltaBlocks (metric : Nat) : Nat → Nat × Nat → List (Nat × Nat) → Nat × Nat
  | 0, z, _ => z
  | k + 1, z, l =>
    let b := (l.take 64).foldl (deltaElem metric) (0, 0)
    deltaBlocks metric k (if metric = 1 then (maxp32 z.1 b.1, z.2) else (add32 z.1 b.1, add32 z.2 b.2)) (l.drop 64)

/-- The delta of an input against its reference (R278). -/
def firnDelta (f : FirnDesc) (x y : List Byte) : Nat :=
  let e := firnElem f
  let k := firnIn f / e
  let widen (l : List Byte) : List Nat := (lanesOf e k l).map (fun v => (widenF f.itype v).1)
  let z := deltaBlocks f.metric (ceilDiv k 64) (0, 0) (List.zip (widen x) (widen y))
  if f.metric = 1 then z.1
  else (divF fmtF32 z.1 (add32 z.2 0x33800000)).1

/-! Probe, hit and installation. -/

/-- A probe passes conditions 1 and 2 of R279, so that it reads: every other probe is a miss that reads nothing (R290). -/
def probeReads (x : Context) (f : FirnDesc) (t : Nat) (k6 : Word) : Bool := !k6.getLsbD 0 && (firnEntry x f.layer t).valid

/-- A probe (R279): all that R280 names is read, whichever of conditions 3 to 6 then fails (R290), the reference and the cached result by the layout of F. -/
def probeTest (s : State) (w : Who) (f : FirnDesc) (t : Nat) (k0 k6 : Word) : State × Except VErr Bool :=
  let e := firnEntry (ctxOf s w.p w.c) f.layer t
  let g : Int := (k0.toNat : Int) - e.stamp
  if !probeReads (ctxOf s w.p w.c) f t k6 then (s, .ok false)
  else match firnSignature s w f t with
    | (s, .error x) => (s, .error x)
    | (s, .ok sig) =>
      match firnInput s w f t with
      | (s, .error x) => (s, .error x)
      | (s, .ok x) =>
        match arenaRead s w f t e.slot 0 (firnIn f) with
        | (s, .error x) => (s, .error x)
        | (s, .ok y) =>
          match arenaRead s w f t e.slot (roundUp (firnIn f) 64) f.rbytes with
          | (s, .error x) => (s, .error x)
          | (s, .ok _) =>
            let d := fDec fmtF32 (firnDelta f x y)
            (s, .ok (e.hash == f.hash && e.sig == sig && 0 ≤ g && g < f.refresh && popBelow e.bitmap 64 < f.maxAge
              && !isNan d && (relV .le d (fDec fmtF32 f.thr)).1))

/-- The step's bit of the hit bitmap is set (R279). -/
def markHit (s : State) (p c : Nat) (f : FirnDesc) (t : Nat) (k0 : Word) : State :=
  modCtx s p c (fun x =>
    let e := firnEntry x f.layer t
    { x with firn := tset x.firn (firnKey f.layer t) { e with bitmap := e.bitmap ||| 2 ^ (k0.toNat - e.stamp) } })

/-- The cached result is copied into the result buffer (R279); nothing is written unless all of it can be. -/
def copyResult (s : State) (w : Who) (f : FirnDesc) (t : Nat) : State × Except VErr Unit :=
  let e := firnEntry (ctxOf s w.p w.c) f.layer t
  match vaCheck s w .write (firnResultVa f t) f.rbytes with
  | some x => (walkedRange s w (firnResultVa f t) f.rbytes, .error x)
  | none =>
    match arenaRead s w f t e.slot (roundUp (firnIn f) 64) f.rbytes with
    | (s, .error x) => (s, .error x)
    | (s, .ok l) =>
      vaWrite s w (firnResultVa f t) l

/-- Slots of an entry that the checkpoints retain (R282). -/
def retainedSlots (x : Context) (key : Nat) : List Nat :=
  ([x.check0, x.check1].filterMap (fun t => tfind t key)).filterMap (fun e => if e.valid then some e.slot else none)

/-- The slot that an installation takes (R281). -/
def installSlot (x : Context) (key : Nat) : Nat := ((List.range 3).find? (fun q => !(retainedSlots x key).contains q)).getD 0

/-- An installation (R281): all that it touches is read and checked before any effect. -/
def installEntry (s : State) (w : Who) (f : FirnDesc) (t : Nat) (k0 : Word) : State × Except VErr Unit :=
  let key := firnKey f.layer t
  let q := installSlot (ctxOf s w.p w.c) key
  match firnInput s w f t with
  | (s, .error x) => (s, .error x)
  | (s, .ok inp) =>
    match vaRead s w (firnResultVa f t) f.rbytes with
    | (s, .error x) => (s, .error x)
    | (s, .ok res) =>
      match firnSignature s w f t with
      | (s, .error x) => (s, .error x)
      | (s, .ok sig) =>
        match arenaCheck s w f t q with
        | some x => (slotWalked s w f t q, .error x)
        | none =>
          match arenaWrite s w f t q 0 inp with
          | (s, .error x) => (s, .error x)
          | (s, .ok _) =>
            match arenaWrite s w f t q (roundUp (firnIn f) 64) res with
            | (s, .error x) => (s, .error x)
            | (s, .ok _) =>
              let e : FirnEntry := { valid := true, stamp := k0.toNat % 65536, bitmap := 0, sig := sig, hash := f.hash, slot := q }
              (modCtx s w.p w.c (fun x => { x with firn := tset x.firn key e }), .ok ())

/-- An entry emptied: whether it was valid (R283). -/
def emptyEntry (s : State) (p c layer t : Nat) : State × Bool :=
  let e := firnEntry (ctxOf s p c) layer t
  (modCtx s p c (fun x => { x with firn := tdel x.firn (firnKey layer t) }), e.valid)

/-- The FRNSTAT word (R283). -/
def firnStat (e : FirnEntry) : Word :=
  if e.valid then w64 (2 ^ 63 + popBelow e.bitmap 64 * 2 ^ 48 + e.stamp % 65536 * 2 ^ 32) else 0#64

/-- The descriptor of the loaded graph at a VA (R283). -/
def descByVa (s : State) (p c : Nat) (va : Word) : Option FirnDesc :=
  (graphOf s p c).nodes.findSome? (fun nd =>
    match nd.firn with
    | some f => if f.va = va then some f else none
    | none => none)

/-- The scheduler probes in flight (R280): place in the order of arrival, layer and tile. -/
def probeAims (s : State) (p c : Nat) : List (Nat × Option Nat × Option Nat) :=
  match (ctxOf s p c).launch with
  | none => []
  | some la => la.probes.filterMap (fun b =>
      match taskOf la b.task with
      | some k => (nodeOf s p c k.node).firn.map (fun f => (b.stamp, some f.layer, some k.tile))
      | none => none)

end Sys2Proof.Machine
end

