-- ==== Sys2Proof/Machine/Touch.lean ====
section
/-! DEFINITION. The bytes that an outstanding operation reads and writes (R100, R106), and the order that they impose (R100). -/

namespace Sys2Proof.Machine

open Sys2Proof.Config

/-! Ranges of bytes. -/

/-- Two ranges share a byte. -/
def overlap (a n b m : Nat) : Bool := a < b + m && b < a + n

/-- A run of bytes that an operation touches: where it is accessed virtually, and where it lies, unless its page is mapped to nothing now. -/
structure Extent where
  va : Option Nat := none
  pa : Option Nat := none
  len : Nat
  deriving DecidableEq, Repr

/-- Two runs share a byte: by where they lie, or, where one of them lies nowhere now, by their virtual addresses (R101). -/
def Extent.meets (x y : Extent) : Bool :=
  match x.pa, y.pa with
  | some a, some b => overlap a x.len b y.len
  | _, _ => match x.va, y.va with | some a, some b => overlap a x.len b y.len | _, _ => false

/-- The runs of a virtual range, page by page, whatever its leaves allow. -/
def vaRuns (s : State) (w : Who) (va : Word) (len : Nat) : List Extent :=
  (pageStarts va len).map (fun p =>
    { va := some p.toNat, pa := (leafOf s w.p w.c w.core p.toNat).map (fun l => leafPa l.1 l.2 p.toNat), len := min (pageRun p.toNat len) (va.toNat + len - p.toNat) })

/-- A run of a core's scratchpad. -/
def spRun (n off len : Nat) : Extent := { pa := some (spAt n off), len := min len (scratchSize - off) }

/-- The runs of a side of a unit: nothing where it leaves its space. -/
def sideRuns (s : State) (v : Via) (x : Side) : List Extent :=
  if x.at' < 0 then []
  else match x.space with
    | .scratch => [spRun v.n x.at'.toNat x.len]
    | .vault => [{ pa := some (vaultAt v.n + x.at'.toNat), len := x.len }]
    | .va => vaRuns s v.who (w64 x.at'.toNat) x.len

/-! What the operations touch. -/

/-- Slots p to p + k - 1 of a queue. -/
def slotRuns (s : State) (n j : Nat) (q : Handle) (p k : Nat) : List Extent :=
  let d := descOf s n j q
  (List.range k).map (fun i => spRun n (qSlot d (p + i)) (qSize d))

/-- The slots of the metadata queue that a product reads: an entry slot can be passed only once the header is there (R257). -/
def metaSlots (s : State) (n j : Nat) (form : FollowForm) (qm : Handle) (pm : Nat) (w : Word) (read : List (List Byte)) : Nat :=
  let d := descOf s n j qm
  let h := if read.isEmpty then headerAt s n d pm else readHeader read
  if isSparse form && (!read.isEmpty || 1 ≤ filledFrom d pm) then 1 + kSteps w * entrySlots h (stepSize (cfgA w)) d.lgs else 1

/-- One end of a copy command, row by row. -/
def copySides (c : Copy) (src : Bool) : List Side :=
  match c.form with
  | .cvt => if src then [{ space := c.ss, at' := c.src.toNat, len := c.len * cvtSize c.st }] else [{ space := c.ds, at' := c.dst.toNat, len := c.len * cvtSize c.dt }]
  | .vop =>
    let op : Side := { space := .scratch, at' := c.src.toNat, len := (if c.vop == .cas then 8 else 4) * c.len }
    let words : Side := { space := c.ds, at' := c.dst.toNat, len := 4 * c.len }
    if src || c.vop == .cas then [op, words] else [words]
  | .mcast => if src then [{ space := .va, at' := c.src.toNat, len := c.len }] else []
  | _ => (List.range (copyRows c)).map (fun r => let (a, b) := rowStart c r; if src then { space := c.ss, at' := a, len := c.len } else { space := c.ds, at' := b, len := c.len })

/-- A remote store to another package (R242). -/
def isRemote (o : Op) : Bool :=
  match o.kind with
  | .copy c _ _ => c.form == .rem && c.pkg != pkgid.toNat
  | _ => false

/-- The runs of a copy command; a remote store writes nothing in this package. -/
def copyRuns (s : State) (v : Via) (c : Copy) (src : Bool) : List Extent :=
  if !src && c.form == .rem && c.pkg != pkgid.toNat then []
  else (copySides c src).flatMap (sideRuns s v)
    ++ (if !src && c.form == .mcast then (mcastCores v.n c.rows c.cols).map (fun m => spRun m c.dst.toNat c.len) else [])

/-- The tokens of the array that a block describes, where it is well formed (R285). -/
def tokRuns (s : State) (n off : Nat) : List Extent :=
  match tokBlock s n off with
  | some t => (List.range t.cnt).map (fun i => spRun n (t.base + i * t.pitch) (t.dim * elemSize t.type))
  | none => []

/-- The lanes of a gather or scatter: those of its index row now, and of that row as an operation that has begun read it (R201, R214). -/
def laneRuns (s : State) (n a off w : Nat) (read : Option (List Byte)) : List Extent :=
  (indexLanes s n a w ++ ((read.map (fun l => (lanesOf w (512 / w) l).map (fun x => if x = 2 ^ (8 * w) - 1 then none else some x))).getD [])).filterMap (fun x =>
    x.map (fun i => spRun n (off + w * i) w))

/-- The tile of a descriptor that a Firn instruction names. -/
def firnNamed (s : State) (b : Job) (k : OpKind) : Option (FirnDesc × Nat) :=
  let at' (a t : Word) : Option (FirnDesc × Nat) := (descByVa s b.part b.ctx a).map (fun f => (f, bitsAt t 0 24))
  match k with
  | .frnck _ a t => at' a t
  | .frnput _ a t => at' a t
  | .frninv _ a t => at' a t
  | .frnstat _ a t => at' a t
  | _ => none

/-- The virtual ranges of a slot of an arena; nothing where the arena lies in vaults. -/
def arenaRange (s : State) (b : Job) (f : FirnDesc) (t q : Nat) : List (Word × Nat) :=
  match arenaAt s b.part f t q with
  | .inl va => [(va, firnSlot f)]
  | .inr _ => []

/-- The run of an arena slot in a vault (R276). -/
def arenaVault (s : State) (b : Job) (f : FirnDesc) (t q : Nat) : List Extent :=
  match arenaAt s b.part f t q with
  | .inl _ => []
  | .inr pa => [{ pa := some pa, len := firnSlot f }]

/-- The virtual ranges of a tile's signature and input (R277). -/
def firnInputs (f : FirnDesc) (t : Nat) : List (Word × Nat) :=
  (if f.sigbase = 0#64 then [] else [(firnSigVa f t, 8)]) ++ (List.range (firnRows f)).map (fun r => (firnRowVa f t r, f.rb))

/-- The virtual ranges that a Firn instruction reads: a probe reads nothing where condition 1 or 2 fails (R279 to R281, R290). -/
def firnReads (s : State) (b : Job) (k : OpKind) : List (Word × Nat) :=
  match firnNamed s b k with
  | none => []
  | some (f, t) =>
    let x := ctxOf s b.part b.ctx
    match k with
    | .frnck _ _ _ => if probeReads x f t (kOf s b 6) then firnInputs f t ++ arenaRange s b f t (firnEntry x f.layer t).slot else []
    | .frnput _ _ _ => (firnResultVa f t, f.rbytes) :: firnInputs f t
    | _ => []

/-- The virtual ranges that a Firn instruction writes: the result buffer, by a probe that reads at all and then hits, or the arena slot of an installation (R279, R281). -/
def firnWrites (s : State) (b : Job) (k : OpKind) : List (Word × Nat) :=
  match firnNamed s b k with
  | none => []
  | some (f, t) =>
    let x := ctxOf s b.part b.ctx
    match k with
    | .frnck _ _ _ => if probeReads x f t (kOf s b 6) then [(firnResultVa f t, f.rbytes)] else []
    | .frnput _ _ _ => arenaRange s b f t (installSlot x (firnKey f.layer t))
    | _ => []

/-- What a Firn instruction reads (`rd`) or writes of an arena in vaults: the current slot by a probe that reads at all, the slot of an installation (R279, R281). -/
def firnVault (s : State) (b : Job) (k : OpKind) (rd : Bool) : List Extent :=
  match firnNamed s b k with
  | none => []
  | some (f, t) =>
    let x := ctxOf s b.part b.ctx
    match k with
    | .frnck _ _ _ => if rd && probeReads x f t (kOf s b 6) then arenaVault s b f t (firnEntry x f.layer t).slot else []
    | .frnput _ _ _ => if rd then [] else arenaVault s b f t (installSlot x (firnKey f.layer t))
    | _ => []

/-- An access of the C stream: where its translation puts it, or by its address while it is parked. -/
def accessRuns (s : State) (n j : Nat) (o : Op) (va : Word) (pa k : Nat) : List Extent :=
  if o.parked = 0 then [{ va := some va.toNat, pa := some pa, len := k }] else vaRuns s (jobWho (jobOf s n j) n) va k

/-- An operation of the VQ can change bytes of scratchpad among some runs: a scatter, a save and the Floe operations that write tokens may change any (log entry 64). -/
def mayChange (s : State) (n j : Nat) (k : OpKind) (l : List Extent) : Bool :=
  let meets (w : List Extent) : Bool := w.any (fun x => l.any x.meets)
  match k with
  | .vst _ off c => meets [spRun n off (512 * c)]
  | .vstq _ q p c => meets (slotRuns s n j q p c)
  | .vpart h _ p p' _ _ => meets (slotRuns s n j h p 1 ++ slotRuns s n j (h + 1#5) p' 1)
  | .vsct _ _ _ _ => true
  | .flsave _ _ => true
  | .flmerge _ _ _ => true
  | .flunmg _ _ _ => true
  | _ => false

/-- An operation of the VQ can change what map a handle has (R284). -/
def mayRemap (k : OpKind) (h : Nat) : Bool :=
  match k with
  | .flmatch g _ _ _ => g == h
  | .flload g _ => g == h
  | .flfree g => g == h
  | _ => false

/-- The rows that a gathered product reads: those that its index slots name, once they are filled, and any of the array before (R253, R259). -/
def gatherRuns (s : State) (n j : Nat) (qa : Handle) (p : Nat) (w : Word) : List Extent :=
  let d := descOf s n j qa
  if filledFrom d p < 8 then [spRun n (cfgBase w) (cfgRows w * aPitch w)]
  else (List.range 8).filterMap (fun i =>
    let x := fieldAt (spRead s n (qSlot d (p + i)) 4) 0 4
    if x < cfgRows w then some (spRun n (cfgBase w + x * aPitch w) (cfgK w * inSize (cfgA w))) else none)

/-- The bytes that an outstanding operation reads (`rd`) or writes (R100, R106). Where an earlier operation of the VQ can change what an operation touches, all of scratchpad counts (log entry 64). -/
def opRuns (s : State) (n j : Nat) (rd : Bool) (o : Op) : List Extent :=
  let b := jobOf s n j
  let pick (r w : List Extent) : List Extent := if rd then r else w
  let slots := slotRuns s n j
  let aside (k : Nat) : List Extent := (List.range k).flatMap (fun i => (aSide s n j o.kind i).flatMap (sideRuns s (jobVia s n j .aq .a)))
  let vas (l : List (Word × Nat)) : List Extent := l.flatMap (fun r => vaRuns s (jobWho b n) r.1 r.2)
  let before (p : Op → Bool) : Bool := b.vq.any (fun q => q.seq < o.seq && p q)
  let lanes (a off w : Nat) : List Extent := if before (fun q => (opRows q.kind).contains a) then [spRun n 0 scratchSize] else laneRuns s n a off w (if o.stage = 1 then o.read.getLast? else none)
  let blocks (b l : List Extent) : List Extent := if before (fun q => mayChange s n j q.kind b) then [spRun n 0 scratchSize] else l
  match o.kind with
  | .load va pa _ k _ _ => pick (accessRuns s n j o va pa k) []
  | .store va pa _ k _ => pick [] (accessRuns s n j o va pa k)
  | .atomic _ wd _ va pa _ _ _ _ => accessRuns s n j o va pa (if wd == .w then 4 else 8)
  | .vaultWord _ va pa _ _ _ => accessRuns s n j o va pa 4
  | .astrm q slot _ _ _ k => pick (aside k) (slots q slot k)
  | .astro q slot _ _ _ k => pick (slots q slot k) (aside k)
  | .agath q qi slot isl _ _ _ k => pick (slots qi isl k ++ aside k) (slots q slot k)
  | .ascat q qi slot isl _ _ _ k => pick (slots qi isl k ++ slots q slot k) (aside k)
  | .awin q slot _ _ k => pick (aside k) (slots q slot k)
  | .wlpopb _ a t => pick [] (vas [(t, 4 * min 64 (bitsAt a 8 8))])
  | .frnck _ _ _ => vas (if rd then firnReads s b o.kind else firnWrites s b o.kind) ++ firnVault s b o.kind rd
  | .frnput _ _ _ => vas (if rd then firnReads s b o.kind else firnWrites s b o.kind) ++ firnVault s b o.kind rd
  | .vld _ off k => pick [spRun n off (512 * k)] []
  | .vst _ off k => pick [] [spRun n off (512 * k)]
  | .vldq _ q p k => pick (slots q p k) []
  | .vstq _ q p k => pick [] (slots q p k)
  | .vgat _ a off w => pick (lanes a off w) []
  | .vsct _ a off w => pick [] (lanes a off w)
  | .vpart h _ p p' _ _ => pick [] (slots h p 1 ++ slots (h + 1#5) p' 1)
  | .vtcfg _ off _ kind _ _ _ cnt => pick [spRun n off (cnt * (if kind = 0 then 4 else 12))] []
  | .flsave h off => pick [] (if before (fun q => mayRemap q.kind h) then [spRun n 0 scratchSize]
      else match liveMap (coreOf s n) h with | .ok m => [spRun n off (mapImage m).length] | .error _ => [])
  | .flload _ off => pick (blocks [spRun n off 24] [spRun n off (24 + 2 * min 16384 (fieldAt (spRead s n off 24) 4 2))]) []
  | .flmatch _ off _ _ => pick (blocks [spRun n off 16] (spRun n off 16 :: tokRuns s n off)) []
  | .flmerge _ a c => blocks [spRun n a 16, spRun n c 16] (pick (spRun n a 16 :: spRun n c 16 :: tokRuns s n a) (tokRuns s n c))
  | .flunmg _ a c => blocks [spRun n a 16, spRun n c 16] (pick (spRun n a 16 :: spRun n c 16 :: tokRuns s n a) (tokRuns s n c))
  | .product form _ qa qb qm ps w _ _ =>
    pick (slots qa (ps.getD 0 0) (if isGather form then 8 else kBlocks w) ++ slots qb (ps.getD 1 0) (kBlocks w)
      ++ slots qm (ps.getD 2 0) (metaSlots s n j form qm (ps.getD 2 0) w o.read)
      ++ (if isGather form then gatherRuns s n j qa (ps.getD 0 0) w else [])) []
  | .copy c ar _ =>
    let v := copyVia s n j .xhq o
    let rec' := match ar.bind (·.record) with | some h => slots h (descOf s n j h).tail 1 | none => []
    pick (copyRuns s v c true) (copyRuns s v c false ++ rec')
  | .record h _ _ => pick [] (slots h (descOf s n j h).tail 1)
  | _ => []

/-! The order of one stream (R100). -/

/-- An operation would write bytes that an earlier one of its stream, among some that have not been performed, is still to read: it waits, so that no read returns a later write of its own stream (R100). -/
def overwrites (s : State) (n j : Nat) (l : List Op) (o : Op) : Bool :=
  l.any (fun q => q.seq < o.seq && q.sid == o.sid && (opRuns s n j true q).any (fun x => (opRuns s n j false o).any x.meets))

/-- What an engine operation has still to read: of one that parked, the elements or units not yet done. -/
def readsLeft (s : State) (n j : Nat) (q : Queue) (o : Op) : List Extent :=
  let left (count : Nat) (f : Nat → List Side) (v : Via) : List Extent := ((List.range count).drop o.done).flatMap (fun i => (f i).flatMap (sideRuns s v))
  match o.kind with
  | .astrm _ _ _ _ _ k => left k (aSide s n j o.kind) (jobVia s n j .aq .a)
  | .agath _ qi _ isl _ _ _ k => slotRuns s n j qi isl k ++ left k (aSide s n j o.kind) (jobVia s n j .aq .a)
  | .awin _ _ _ _ k => left k (aSide s n j o.kind) (jobVia s n j .aq .a)
  | .copy c _ _ => left (copyUnits c) (unitReads c) (copyVia s n j q o)
  | _ => opRuns s n j true o

/-- An operation reads bytes that an earlier one of its queue, which is parked, is still to read: it waits, so that the two reads do not return writes in the reverse of their order (R100). -/
def passesReads (s : State) (n j : Nat) (q : Queue) (o : Op) : Bool :=
  (queueOf (jobOf s n j) q).any (fun p => p.seq < o.seq && p.parked != 0 && (readsLeft s n j q p).any (fun x => (readsLeft s n j q o).any x.meets))

/-- Copies of a job that have still to read what they copy: a remote store has read it once it has left. -/
def unread (b : Job) : List Op :=
  (b.xvq ++ b.xhq).filter (fun o => !(isRemote o && o.stage == 1) && (match o.kind with | .copy _ _ _ => true | _ => false))

/-! Queue slots (R106). -/

/-- Operations whose queues a stream owns, for R106: the M stream's are those of the MQ. -/
def streamOps (b : Job) (t : Sid) : List Op := (allOps b).filter (fun o => o.sid == t)

/-- An outstanding operation of the stream reads (or writes) some byte of slots p to p + k - 1 (R106). Where its page is mapped to nothing it must still access it, and may do so in any slot (log entry 64). -/
def slotsBusy (s : State) (n j : Nat) (t : Sid) (q : Handle) (p k : Nat) (rd : Bool) : Bool :=
  (streamOps (jobOf s n j) t).any (fun o => (opRuns s n j rd o).any (fun x => x.pa.isNone || (slotRuns s n j q p k).any x.meets))

end Sys2Proof.Machine
end

