-- ==== Sys2Proof/Machine/CQueue.lean ====
section
/-! DEFINITION. The C stream's load and store queues: which operation may be performed (R101, R102, R107, R108), and what performing each does (R75, R77, R99, R183, R185 to R189, R283). -/

namespace Sys2Proof.Machine

open Sys2Proof.Config

/-! Order. -/

/-- Bytes that an operation of the C stream touches: virtual and physical start, and length. -/
def opBytes : OpKind → Option (Word × Nat × Nat)
  | .load va pa _ n _ _ => some (va, pa, n)
  | .store va pa _ n _ => some (va, pa, n)
  | .atomic _ wd _ va pa _ _ _ _ => some (va, pa, if wd == .w then 4 else 8)
  | .vaultWord _ va pa _ _ _ => some (va, pa, 4)
  | _ => none

/-- Two operations overlap: by physical bytes, or by virtual ones where one of them is parked (R101). -/
def opsOverlap (x y : Op) : Bool :=
  match opBytes x.kind, opBytes y.kind with
  | some (v, p, n), some (w, q, m) =>
    if x.parked = 0 ∧ y.parked = 0 then overlap p n q m else overlap v.toNat n w.toNat m
  | _, _ => false

/-- An acquire: acq, ar and sc (R107). -/
def isAcq : OpKind → Bool
  | .atomic _ _ o _ _ _ _ _ _ => o == .acq || o == .ar || o == .sc
  | _ => false

/-- An operation that every earlier operation of the C stream comes before: rel, ar and sc atomics, spawn and depdec (R108, R110). -/
def isRel : OpKind → Bool
  | .atomic _ _ o _ _ _ _ _ _ => o == .rel || o == .ar || o == .sc
  | .spawn _ _ _ => true
  | .depdec _ _ => true
  | _ => false

/-- Runs that an operation of the SQ writes beside the word it names: the destination of a `wlpopb`, a result buffer, an arena's slots (R187, R279, R281). -/
def wideWrites (s : State) (n j : Nat) (k : OpKind) : List Extent :=
  let b := jobOf s n j
  let vas (va : Word) (len : Nat) : List Extent := vaRuns s (jobWho b n) va len
  match k with
  | .wlpopb _ a t => vas t (4 * min 64 (bitsAt a 8 8))
  | .frnck _ _ _ => (firnNamed s b k).toList.flatMap (fun x => vas (firnResultVa x.1 x.2) x.1.rbytes)
  | .frnput _ _ _ => (firnNamed s b k).toList.flatMap (fun x =>
      match arenaAt s b.part x.1 x.2 0 with
      | .inl va => vas va (3 * firnSlot x.1)
      | .inr pa => [{ pa := some pa, len := 3 * firnSlot x.1 }])
  | _ => []

/-- A load shares a byte with a run, by its virtual address or by where both lie. -/
def loadMeets (x : Op) (byVa : Bool) (r : Extent) : Bool :=
  match x.kind with
  | .load va pa _ k _ _ =>
    (match r.va with | some a => overlap va.toNat k a r.len | none => false)
      || (!byVa && x.parked == 0 && (match r.pa with | some q => overlap pa k q r.len | none => false))
  | _ => false

/-- A load and an operation of the SQ share a byte, so that the table orders them (R101, R108); `byVa` counts the bytes of wide writes by virtual addresses alone. -/
def meetsLoad (s : State) (n j : Nat) (x q : Op) (byVa : Bool) : Bool := opsOverlap x q || (wideWrites s n j q.kind).any (loadMeets x byVa)

/-- A load waits for an earlier operation of the SQ (R101, R107, R283): for a `frnck` it is judged by virtual addresses, so that a load that aliases the result buffer does not wait. -/
def loadWaits (s : State) (n j : Nat) (x q : Op) : Bool :=
  match q.kind with
  | .store _ _ _ _ _ => false
  | .frnck _ _ _ => meetsLoad s n j x q true
  | k => isAcq k || meetsLoad s n j x q false

/-! The order of arrival at Firn entries (R280). -/

/-- The layer and tile of the entry that a Firn instruction tests or changes; all of them where nothing is named. -/
def firnAim (s : State) (b : Job) (k : OpKind) : Option (Option Nat × Option Nat) :=
  match k with
  | .frnflush _ a => some ((descByVa s b.part b.ctx a).map (·.layer), none)
  | .frnstat _ _ _ => none
  | _ => (firnNamed s b k).map (fun x => (some x.1.layer, some x.2))

/-- Two aims share an entry. -/
def sameAim (x y : Option Nat × Option Nat) : Bool :=
  (x.1.isNone || y.1.isNone || x.1 == y.1) && (x.2.isNone || y.2.isNone || x.2 == y.2)

/-- A turn is that of an operation. -/
def FirnTurn.isOf (t : FirnTurn) (n j seq : Nat) : Bool := t.core == n && t.slot == j && t.seq == seq

/-- A Firn operation waits for another event that arrived at its entry before it (R280; DEDUCED, log entry 57). -/
def firnHeld (s : State) (n j : Nat) (o : Op) : Bool :=
  let b := jobOf s n j
  match firnAim s b o.kind with
  | none => false
  | some aim =>
    let x := ctxOf s b.part b.ctx
    let mine := x.turns.find? (·.isOf n j o.seq)
    let before (k : Nat) : Bool := match mine with | some t => k < t.stamp | none => true
    x.turns.any (fun t => !t.isOf n j o.seq && before t.stamp && sameAim aim (t.layer, t.tile))
      || (probeAims s b.part b.ctx).any (fun p => before p.1 && sameAim aim p.2)

/-- A Firn operation takes its place in the order of arrival, unless it has one. -/
def takePlace (s : State) (n j : Nat) (o : Op) : State :=
  let b := jobOf s n j
  match firnAim s b o.kind with
  | none => s
  | some aim => modCtx s b.part b.ctx (fun x =>
      if x.turns.any (·.isOf n j o.seq) then x
      else { x with turns := x.turns ++ [{ layer := aim.1, tile := aim.2, stamp := x.arrivals, core := n, slot := j, seq := o.seq }], arrivals := x.arrivals + 1 })

/-- An operation leaves the order of arrival. -/
def leavePlace (s : State) (n j seq : Nat) : State :=
  let b := jobOf s n j
  if (ctxOf s b.part b.ctx).turns.any (·.isOf n j seq) then modCtx s b.part b.ctx (fun x => { x with turns := x.turns.filter (fun t => !t.isOf n j seq) })
  else s

/-- An operation of the LQ may be performed: it is the first of the queue that is not parked, no fence holds it, and nothing of the SQ is ordered before it. -/
def lqReady (s : State) (n j : Nat) (o : Op) : Bool :=
  let b := jobOf s n j
  o.parked == 0 && !heldByFence b .lq o
    && b.lq.all (fun q => o.seq ≤ q.seq || (q.parked != 0 && o.kind != .mark))
    && match o.kind with
      | .mark => b.sq.all (fun q => o.seq ≤ q.seq)
      | .load _ _ _ _ _ _ => b.sq.all (fun q => o.seq ≤ q.seq || !loadWaits s n j o q)
      | _ => true

/-- An operation of the SQ may be performed as far as the queues go; one that would change what an earlier parked one reads waits for it (R100). -/
def sqFree (s : State) (n j : Nat) (o : Op) : Bool :=
  let b := jobOf s n j
  let before (q : Op) : Bool := decide (q.seq < o.seq)
  o.parked == 0 && !heldByFence b .sq o
    && b.sq.all (fun q => !before q || (q.parked != 0 && o.kind != .mark && !isAcq q.kind))
    && (if o.kind == .mark || isRel o.kind then b.lq.all (fun q => !before q) && b.sq.all (fun q => !before q)
      else b.lq.all (fun q => !before q || !meetsLoad s n j q o false))
    && !overwrites s n j b.sq o

/-- An operation of the SQ may be performed: no operation is ordered before it, and none holds its Firn entry. -/
def sqReady (s : State) (n j : Nat) (o : Op) : Bool := sqFree s n j o && !firnHeld s n j o

/-- A C-stream access to an accumulator row of a busy tile, for which it waits (R71). -/
def waitsForTile (s : State) (o : Op) : Bool :=
  match o.kind with
  | .load _ pa _ k _ _ => accBusy s pa k
  | .store _ pa _ k _ => accBusy s pa k
  | _ => false

/-- The first operation of a queue that is not parked. -/
def headOp (l : List Op) : Option Op := l.find? (fun o => o.parked == 0)

/-- An operation leaves its queue. -/
def removeOp (b : Job) (q : Queue) (seq : Nat) : Job := setQueue b q ((queueOf b q).filter (fun o => o.seq != seq))

/-- An operation of a queue is replaced. -/
def replaceOp (b : Job) (q : Queue) (o : Op) : Job := setQueue b q ((queueOf b q).map (fun p => if p.seq == o.seq then o else p))

/-! Performance. -/

/-- The C stream of a job as an agent. -/
def cAgent (n j : Nat) : Agent := .stream n j .c

/-- An operation of the C stream fails: its register keeps its old value (R294, R295). -/
def cFault (s : State) (n j : Nat) (o : Op) (c : Byte) (freeze : Bool) (va : Word) : State :=
  engineFault (dropDue s (cAgent n j) o.seq) n j .c { cause := c, cmd := o.cmd, faddr := va, freeze := freeze }

/-- An access of the C stream is served in its core's L1 (R77, R78): a read of a line that stands there, a change of one that the core also owns. -/
def inL1 (s : State) (n pa : Nat) (write : Bool) : Bool :=
  region pa == .hbm && (findLine (coreOf s n) (lineAt pa)).isSome && (!write || lineOwned (coreOf s n) (lineAt pa))

/-- An uncorrectable error strikes the traffic of an access of the C stream on the mesh or the seam (R17): a free value (log entry 12). What L1 serves has none. -/
def accessStruck (s : State) (n pa : Nat) (write : Bool) : Bool := !inL1 s n pa write && transitError s.tick

/-- A value for a register: at once where it comes through the fill port (R90) or over the fabric, else on its way (R81, R85). An error that strikes it on the mesh or the seam is the access's (R17, R93). -/
def deliver (s : State) (n j : Nat) (o : Op) (d : Nat) (v : Word) (direct fabric host wrong : Bool) (va : Word) : State :=
  if !direct then modJob s n j (fun b => { b with landings := b.landings ++
    [{ sid := .c, d := d, value := v, op := o.seq, fabric := fabric, host := host, queue := match o.kind with | .load _ _ _ _ _ _ => .lq | _ => .sq, cmd := o.cmd, va := va, wrong := wrong }] })
  else if wrong then cFault s n j o cDataUe false va
  else arrive s (cAgent n j) d o.seq v

/-- Bytes of an earlier store laid over what a load reads (R101). -/
def overlayStore (va : Word) (pa : Nat) (l : List Byte) (q : Op) : List Byte :=
  match q.kind with
  | .store v p _ n x =>
    let (a, b) := if q.parked = 0 then (pa, p) else (va.toNat, v.toNat)
    (List.zip (List.range l.length) l).map (fun e => if b ≤ a + e.1 ∧ a + e.1 < b + n then BitVec.ofNat 8 (x / 256 ^ (a + e.1 - b)) else e.2)
  | _ => l

/-- A load is performed (R77, R99, R101). -/
def loadPerform (s : State) (n j : Nat) (o : Op) (direct : Bool) : State :=
  match o.kind with
  | .load va pa key k signed d =>
    let b := jobOf s n j
    let wrong := accessStruck s n pa false
    let (s, r) := if region pa == .hbm then cachedRead s b.part n pa k key else physRead s b.part pa k key
    match r with
    | .error c => cFault s n j o c false va
    | .ok l =>
      let l := (b.sq.filter (fun q => q.seq < o.seq)).foldl (overlayStore va pa) l
      let v := w64 (leNat l)
      deliver s n j o d (if signed then sextN (8 * k) v else v) direct (region pa != .hbm) (hostBase ≤ pa) wrong va
  | _ => s

/-- A write of the C stream at its point of coherence (R99). -/
def cWrite (s : State) (n pa key : Nat) (l : List Byte) : State × Except Byte Unit :=
  if region pa == .hbm then cachedWrite s n pa key l else physWrite s pa key l

/-- The new word of an atomic (R183), in w bits. -/
def amoWord (op w : Nat) (x v c : Nat) : Nat :=
  match op with
  | 0 => (x + v) % 2 ^ w
  | 1 => Nat.land x v
  | 2 => Nat.lor x v
  | 3 => Nat.xor x v
  | 4 => if toInt w x ≤ toInt w v then x else v
  | 5 => min x v
  | 6 => if toInt w v ≤ toInt w x then x else v
  | 7 => max x v
  | 8 => v
  | 9 => if x = c then v else x
  | _ => (bankAdd (BitVec.ofNat 32 x) (BitVec.ofNat 32 v)).toNat

/-- An atomic of the C stream on HBM (R99, R183): the old word. -/
def amoPerform (s : State) (p n pa key op w v c : Nat) : State × Except Byte Nat :=
  let owned := lineOwned (coreOf s n) (lineAt pa)
  let (s, r) := if owned then cachedRead s p n pa (w / 8) key
    else
      let s := recallLine s (some n) pa (w / 8)
      match storeGet s p pa (w / 8) key with
      | (s, some l) => (s, .ok l)
      | (s, none) => (s, .error cDataUe)
  match r with
  | .error e => (s, .error e)
  | .ok l =>
    let x := leNat l
    match cachedWrite s n pa key (leBytes (w / 8) (amoWord op w x (v % 2 ^ w) (c % 2 ^ w))) with
    | (s, .ok _) => (s, .ok x)
    | (s, .error e) => (s, .error e)

/-- The lines of a range that an `own` may register, as physical lines: nothing where a page is not translated to HBM with RD and W (R182). A page under WPW has its W. -/
def ownLines (s : State) (b : Job) (n : Nat) (va : Word) (len : Nat) : Option (List Nat) :=
  (List.range (len / 128)).foldl (fun r i =>
    match r with
    | none => none
    | some l =>
      let a := va + w64 (128 * i)
      let writes := match translate s b.part b.ctx (some n) a .write false with | .ok _ _ => true | .wpw _ _ => true | _ => false
      match translate s b.part b.ctx (some n) a .read false with
      | .ok pa _ => if writes && region pa == .hbm then some (l ++ [pa]) else none
      | _ => none) (some [])

/-- A range that `own` may name: aligned, of 128 bytes to 1 MiB (R182). -/
def ownShape (va sz : Word) : Bool := va.toNat % 128 == 0 && sz.toNat % 128 == 0 && decide (128 ≤ sz.toNat) && decide (sz.toNat ≤ 2 ^ 20)

/-- The walks that an `own` makes, once its shape is right, are struck by an error on the mesh or the seam (R17): it then has no translation, status −3, since it never faults (R182; log entry 12). -/
def ownStruck (s : State) (n : Nat) (b : Job) (va sz : Word) : Bool :=
  decide ((coreOf s n).owned.length < 64) && ownShape va sz && (pageStarts va sz.toNat).any (walkStruck s (jobWho b n))

/-- own (R78, R182). -/
def ownPerform (s : State) (n : Nat) (b : Job) (va sz : Word) : State × Word :=
  let len := sz.toNat
  let c := coreOf s n
  if 64 ≤ c.owned.length then (s, -1#64)
  else if !ownShape va sz then (s, -2#64)
  else
    let lines := ownLines s b n va len
    let s := walkedRange s (jobWho b n) va len
    match lines with
    | none => (s, -3#64)
    | some l =>
      if c.owned.any (fun r => overlap r.va.toNat r.len va.toNat len || r.lines.any l.contains) then (s, -4#64)
      else
        -- what the owner's L1 held of the range before is not kept: it may be stale (R99)
        let s := l.foldl (fun s a => recallLine s (some n) a 128) (dropLines s n (fun x => l.contains x.addr))
        (modCore s n (fun c => { c with owned := c.owned ++ [{ owner := (b.ctx, b.task), va := va, len := len, lines := l }] }), 0#64)

/-- Ranges of a core are released: their dirty lines are written to L2 (R78, R109). -/
def releaseRanges (s : State) (n : Nat) (p : OwnRange → Bool) : State :=
  let out := (coreOf s n).owned.filter p
  let hit (x : Line) : Bool := out.any (fun r => r.lines.contains x.addr)
  let s := ((coreOf s n).l1.filter hit).foldl writeBack s
  modCore s n (fun c => { c with
    l1 := c.l1.map (fun x => if hit x then { x with dirty := false } else x)
    owned := c.owned.filter (fun r => !p r) })

/-- disown (R182). DESIGN CHOICE (log 94): the lines stay in the L1, clean and not owned. -/
def disownPerform (s : State) (n : Nat) (va : Word) : State × Word :=
  if (coreOf s n).owned.any (fun r => r.va == va) then (releaseRanges s n (fun r => r.va == va), 0#64) else (s, -1#64)

/-- Lines of a virtual range whose pages are mapped, invalidated (R181); what a leaf allows is no condition. -/
def invalidateRange (s : State) (b : Job) (n lo hi : Nat) : State :=
  (vaRuns s (jobWho b n) (w64 lo) (hi - lo)).foldl (fun s r =>
    match r.pa with
    | some pa => dropLines s n (fun x => overlap x.addr 128 pa r.len)
    | none => s) (walkedRange s (jobWho b n) (w64 lo) (hi - lo))

/-- Lines of the issuing core's L1 that hold bytes of a result buffer, invalidated after a hit (R283). -/
def dropResult (s : State) (b : Job) (n : Nat) (f : FirnDesc) (t : Nat) : State :=
  let lo := (firnResultVa f t).toNat
  invalidateRange s b n lo (lo + f.rbytes)

/-- A page of some ranges for which the SQ has a pending entry (R90). -/
def firnBlocked (s : State) (n j : Nat) (l : List (Word × Nat)) : Option Word := l.findSome? (fun r => blockedPage s (jobVia s n j .sq .c) r.1 r.2)

/-- A Firn operation could not be done: it waits behind the entry of its page, or a PROBE entry, or fails (R90, R283). -/
def firnStop (s : State) (n j : Nat) (o : Op) (tile : Nat) (e : VErr) : Perf :=
  let b := jobOf s n j
  let post (va : Word) (wr : Bool) : Perf :=
    match ringBehind s (jobVia s n j .sq .c) va with
    | some i => .park (ringMod s b.part b.ctx i (fun e => { e with behind := e.behind + 1 })) { o with parked := i + 1, filled := 0 }
    | none =>
      match ringPost s b.part b.ctx { va := va, kind := 3, pend := true, write := wr, sid := 7, slot := j, ctx := b.ctx, queue := 7,
                                      core := 0xFFFF, node := b.node, cmd := BitVec.ofNat 32 tile, seq := 0#32 } with
      | some (s, i) => .park s { o with parked := i + 1, filled := 0 }
      | none => .fault s { cause := cXlatMiss, cmd := o.cmd, faddr := va }
  match e with
  | .miss va => post va false
  | .wpw va => post va true
  | .busy => .hold s o
  | .fault c fz va => .fault s { cause := c, cmd := o.cmd, faddr := va, freeze := fz }

/-- A Firn instruction that reads memory (R279 to R281): it waits behind a pending entry of a page that it touches, and an uncorrectable error on the mesh or the seam is its own (R17; the address is that of its first read); else its body goes on. -/
def firnTouches (s : State) (n j : Nat) (o : Op) (t : Nat) (writes : Bool) (body : Unit → Perf) : Perf :=
  let b := jobOf s n j
  let reads := firnReads s b o.kind
  match firnBlocked s n j (reads ++ (if writes then firnWrites s b o.kind else [])) with
  | some va => firnStop s n j o t (.miss va)
  | none => if !reads.isEmpty && transitError s.tick then firnStop s n j o t (.fault cDataUe false ((reads.head?.map (·.1)).getD 0#64)) else body ()

/-- A Firn instruction is performed (R279, R281, R283). -/
def firnPerform (s : State) (n j : Nat) (o : Op) : Perf :=
  let b := jobOf s n j
  let k0 := kOf s b 0
  let give (s : State) (d : Nat) (v : Word) : Perf := .done (arrive s (cAgent n j) d o.seq v)
  match o.kind with
  | .frnflush d a =>
    let layer := (descByVa s b.part b.ctx a).map (·.layer)
    let x := ctxOf s b.part b.ctx
    let hit (e : Nat × FirnEntry) : Bool := match layer with | some l => e.1 / 2 ^ 24 == l | none => true
    let cnt := (x.firn.filter (fun e => hit e && e.2.valid)).length
    give (modCtx s b.part b.ctx (fun x => { x with firn := x.firn.filter (fun e => !hit e) })) d (w64 cnt)
  | k =>
    match firnNamed s b k with
    | none => .done (dropDue s (cAgent n j) o.seq)
    | some (f, t) =>
      match k with
      | .frninv d _ _ =>
        let (s, v) := emptyEntry s b.part b.ctx f.layer t
        give s d (boolWord v)
      | .frnstat d _ _ => give s d (firnStat (firnEntry (ctxOf s b.part b.ctx) f.layer t))
      | .frnput d _ _ => firnTouches s n j o t true (fun _ =>
          match installEntry s (firnWho b.part b.ctx (some n)) f t k0 with
          | (s, .ok _) => give s d 0#64
          | (s, .error e) => firnStop s n j o t e)
      | .frnck d _ _ => firnTouches s n j o t false (fun _ =>
          match probeTest s (firnWho b.part b.ctx (some n)) f t k0 (kOf s b 6) with
          | (s, .error e) => firnStop s n j o t e
          | (s, .ok false) => give s d 0#64
          | (s, .ok true) =>
            match firnBlocked s n j (firnWrites s b k) with
            | some va => firnStop s n j o t (.miss va)
            | none =>
              match copyResult s (firnWho b.part b.ctx (some n)) f t with
              | (s, .error e) => firnStop s n j o t e
              | (s, .ok _) => give (dropResult (markHit s b.part b.ctx f t k0) b n f t) d 1#64)
      | _ => .done s

/-- An operation of the SQ is performed. -/
def sqPerform (s : State) (n j : Nat) (o : Op) (direct : Bool) : Perf :=
  let b := jobOf s n j
  let p := b.part
  let c := b.ctx
  -- an operation keeps the privilege it was issued with (R88, R293)
  let w := { jobWho b n with user := !o.sup }
  let give (r : State × Word) (d : Nat) : Perf := .done (arrive r.1 (cAgent n j) d o.seq r.2)
  let fail (s : State) (e : Byte) (va : Word) : Perf := .fault s { cause := e, cmd := o.cmd, faddr := va }
  match o.kind with
  | .store va pa key k v =>
    -- an error on the mesh or the seam strikes the store before it is performed (R17)
    if accessStruck s n pa true then fail s cDataUe va
    else match cWrite s n pa key (leBytes k v) with
    | (s, .error e) => fail s e va
    | (s, .ok _) =>
      if direct then .done s
      else if region pa == .hbm then .done (modJob s n j (fun b => { b with acks := b.acks + 1 }))
      else .done (modJob s n j (fun b => { b with landings := b.landings ++
        [{ sid := .c, d := 0, value := 0#64, op := o.seq, fabric := true, queue := .sq, cmd := o.cmd, va := va }] }))
  | .atomic op wd ord va pa key d v x =>
    let bits := if wd == .w then 32 else 64
    let s0 := s
    let r := amoPerform s p n pa key op.toNat bits v.toNat x.toNat
    match r.2 with
    | .error e => fail r.1 e va
    | .ok old =>
      let s := if ord == .acq || ord == .ar || ord == .sc then acquire r.1 n else r.1
      .done (deliver s n j o d (w64 old) direct false false (accessStruck s0 n pa true) va)
  | .vaultWord op va pa d x y =>
    match bankApply s p pa op x y with
    | (s, .error e) => fail s e va
    | (s, .ok old) => .done (deliver s n j o d (old.setWidth 64) direct true false (transitError s.tick) va)
  | .own a z d => give (if ownStruck s n b a z then (s, -3#64) else ownPerform s n b a z) d
  | .disown a d => give (disownPerform s n a) d
  | .spawn d a t => give (spawnTask s p c b.depth a t) d
  | .sptest d a => give (s, if badTicket a then -1#64 else boolWord (ticketDone s p a)) d
  | .depdec d a => give (depDec s p c a) d
  | .depinc d a => give (depInc s p c a) d
  | .wlcfg d a t => give (wlCfg s w a t) d
  | .wlpush d a t => give (wlPush s p c a t) d
  | .wlins d a t => give (wlIns s p c a t) d
  | .wlcnt d a => give (s, wlCnt s p c a) d
  | .wldrain d a => give (wlDrain s p c a) d
  | .wlpopb d a t =>
    match wlPopb s w a t with
    | (s, .ok v) => give (s, v) d
    | (s, .error e) => .fault s { cause := causeOf e, cmd := o.cmd, faddr := addrOf e, freeze := match e with | .fault _ fz _ => fz | _ => false }
  | _ => firnPerform s n j o

/-- What performing an operation of the SQ gave is taken into the state. -/
def sqEnd (n j : Nat) (o : Op) : Perf → State
  | .done s => leavePlace (modJob s n j (fun b => removeOp b .sq o.seq)) n j o.seq
  | .park s o => takePlace (modJob s n j (fun b => replaceOp b .sq o)) n j o
  | .hold s o => modJob s n j (fun b => replaceOp b .sq o)
  | .fault s f => engineFault (dropDue (leavePlace (modJob s n j (fun b => removeOp b .sq o.seq)) n j o.seq) (cAgent n j) o.seq) n j .c f
  | .suspend s _ _ _ _ => s

/-- Operations that need no travel to memory: performed as soon as they may be. -/
def performsAlone : OpKind → Bool
  | .load _ _ _ _ _ _ => false
  | .store _ _ _ _ _ => false
  | .atomic _ _ _ _ _ _ _ _ _ => false
  | .vaultWord _ _ _ _ _ _ => false
  | .frnput _ _ _ => false
  | _ => true

/-- An operation may be performed at once: it needs no travel, or `rtfill` has brought its translation, so that it completes through the fill port (R90, R102). -/
def atOnce (s : State) (o : Op) : Bool := performsAlone o.kind || (o.filled != 0 && !waitsForTile s o)

/-- One operation of the C stream's queues that may be performed at once is performed, where there is one. -/
def advanceOne (s : State) (n j : Nat) : Option State :=
  let b := jobOf s n j
  let l := (headOp b.lq).filter (fun o => atOnce s o && lqReady s n j o)
  let q := (headOp b.sq).filter (fun o => atOnce s o && o.kind != .mark && sqReady s n j o)
  match l with
  | some o =>
    let s := match o.kind with
      | .l1inv lo hi => invalidateRange s b n lo hi
      | .l1inva => acquire s n
      | .load _ _ _ _ _ _ => loadPerform s n j o true
      | _ => s
    some (modJob s n j (fun b => removeOp (if o.kind == .mark then removeOp b .sq o.seq else b) .lq o.seq))
  | none =>
    match q with
    | some o => some (sqEnd n j o (sqPerform s n j o (o.filled != 0)))
    | none => none

/-- Operations that need no travel are performed until none may be; the fuel is their number. -/
def advanceC (s : State) (n j : Nat) : Nat → State
  | 0 => s
  | k + 1 =>
    match advanceOne s n j with
    | some s => advanceC s n j k
    | none => s

/-- The head of the SQ takes its place at its Firn entry where nothing but another event there keeps it (R280). -/
def arriveFirn (s : State) (n j : Nat) : State :=
  let b := jobOf s n j
  match headOp b.sq with
  | some o => if sqFree s n j o && firnHeld s n j o then takePlace s n j o else s
  | none => s

/-- The C stream's queues move on. -/
def moveC (s : State) (n j : Nat) : State :=
  let b := jobOf s n j
  arriveFirn (advanceC s n j (b.lq.length + b.sq.length + 1)) n j

/-! New translations of accesses that were issued before (R88, R90, R94). -/

/-- The address that a C-stream access translates, and what it does there. -/
def opAccess : OpKind → Option (Word × Acc)
  | .load va _ _ _ _ _ => some (va, .read)
  | .store va _ _ _ _ => some (va, .write)
  | .atomic _ _ _ va _ _ _ _ _ => some (va, .write)
  | .vaultWord _ va _ _ _ _ => some (va, .write)
  | _ => none

/-- The physical address that an access keeps. -/
def opPlace : OpKind → Nat
  | .load _ pa _ _ _ _ => pa
  | .store _ pa _ _ _ => pa
  | .atomic _ _ _ _ pa _ _ _ _ => pa
  | .vaultWord _ _ pa _ _ _ => pa
  | _ => 0

/-- An access at another physical address. -/
def moveAccess (k : OpKind) (pa key : Nat) : OpKind :=
  match k with
  | .load va _ _ n sg d => .load va pa key n sg d
  | .store va _ _ n v => .store va pa key n v
  | .atomic op wd ord va _ _ d v c => .atomic op wd ord va pa key d v c
  | .vaultWord op va _ d x y => .vaultWord op va pa d x y
  | k => k

/-- An access may be made to a physical address: atomics go to HBM and vault words to a vault (R183, R189). -/
def placeAllowed (k : OpKind) (pa : Nat) : Bool :=
  match k, region pa with
  | .atomic _ _ _ _ _ _ _ _ _, r => r == .hbm
  | .vaultWord _ _ _ _ _ _, .vault _ _ => true
  | .vaultWord _ _ _ _ _ _, _ => false
  | _, _ => true

/-- An access of the C stream with the translation of now, or why it has none. -/
def retranslate (s : State) (b : Job) (n : Nat) (o : Op) : Except VErr Op :=
  match opAccess o.kind with
  | none => .ok o
  | some (va, acc) =>
    match translate s b.part b.ctx (some n) va acc (!o.sup) with
    | .ok pa key => if placeAllowed o.kind pa then .ok { o with kind := moveAccess o.kind pa key } else .error (.fault cXlatPerm true va)
    | x => .error (xlErr va x)

/-- The walk of an access that is translated anew is struck by an error on the mesh or the seam (R17; log entry 12); and what it does beside its result. -/
def opStruck (s : State) (b : Job) (n : Nat) (o : Op) : Bool := match opAccess o.kind with | some (va, _) => walkStruck s (jobWho b n) va | none => false
def opWalked (s : State) (b : Job) (n : Nat) (o : Op) : State :=
  match opAccess o.kind with | some (va, _) => if opStruck s b n o then s else walked s (jobWho b n) va | none => s

/-- An access keeps a translation that is no longer the page's. -/
def isStale (s : State) (b : Job) (n : Nat) (o : Op) : Bool :=
  o.parked == 0 && (opAccess o.kind).isSome && match retranslate s b n o with | .ok x => opPlace x.kind != opPlace o.kind | .error _ => true

/-- A stale access takes the translation of now: it goes on with it, parks, or fails (R90, R94). -/
def renew (s : State) (n j : Nat) (q : Queue) (o : Op) : State :=
  let b := jobOf s n j
  let out (s : State) : State := modJob s n j (fun b => removeOp b q o.seq)
  let struck := opStruck s b n o
  let s := opWalked s b n o
  let park (va : Word) (kind : Nat) : State :=
    match parkAt s (jobVia s n j q .c) va kind (q == .sq) o.cmd with
    | some (s, i) => modJob s n j (fun b => replaceOp b q { o with parked := i + 1, filled := 0, stage := 0 })
    | none => cFault (out s) n j o cXlatMiss false va
  match (if struck then .error (.fault cDataUe false ((opAccess o.kind).getD (0#64, .read)).1) else retranslate s b n o) with
  | .ok x => modJob s n j (fun b => replaceOp b q x)
  | .error (.miss va) => park va 1
  | .error (.wpw va) => park va 2
  | .error (.fault c fz va) => cFault (out s) n j o c fz va
  | .error .busy => s

/-- The stale accesses of a job that satisfy a condition take the translation of now, in issue order within each queue. -/
def renewJob (s : State) (n j : Nat) (p : Job → Op → Bool) : State :=
  let go (q : Queue) (s : State) : State :=
    (queueOf (jobOf s n j) q).foldl (fun s o => if isStale s (jobOf s n j) n o && p (jobOf s n j) o then renew s n j q o else s) s
  go .sq (go .lq s)

end Sys2Proof.Machine
end

