-- ==== Sys2Proof/Machine/Sync.lean ====
section
/-! DEFINITION. Rendezvous, pennants, waiting and prefetch (R35, R112, R174 to R178, R273). -/

namespace Sys2Proof.Machine

open Sys2Proof.Config

/-- nop (R174). -/
def execNop (s : State) : Result := issue 1 {} s (fun s _ => .ok s .seq)

/-- A stream arrives at its next instance of a stream set and waits (R35, R174). -/
def rdvOp (set : BitVec 5) (s : State) : Result :=
  issue 1 { mgmt := false } s (fun s g =>
    let st := streamOf s g
    if !set.getLsbD (sidNum (sidOfAgent g)) then raise cIllegal
    else
      match st.run with
      | .atRdv q k => .wait s (.atRdv q k)
      | _ =>
        let k := tget 0 st.rdv set.toNat + 1
        .wait (modStream s g (fun st => { st with rdv := tset st.rdv set.toNat k })) (.atRdv set k))

/-- rdv 0 (R35): the set of all five streams. -/
def execRdv0 (s : State) : Result := rdvOp 0x1F#5 s

/-- rdv of a stream set (R174). -/
def execRdvStreamSet (set : BitVec 5) (s : State) : Result := rdvOp set s

/-- rdv end: the stream issues nothing more (R35). -/
def execRdvEnd (s : State) : Result :=
  issue 1 { mgmt := false } s (fun s g => .ok (modStream s g (fun st => { st with run := .ended, atEnd := true })) .stay)

/-- A stream waits at the rendezvous of a set, and every stream of the set has arrived there. -/
def rdvReady (b : Job) (set : BitVec 5) (t : Sid) : Bool :=
  match (b.streams.get t).run with
  | .atRdv q k => q == set && rdvMet b q k
  | _ => false

/-- RDV_COMPLETE (R35): after the last arrival every waiting stream of the set resumes, all together. -/
def execRdvComplete (n : CoreNo) (set : BitVec 5) (s : State) : Result :=
  let c := coreOf s n.toNat
  match c.active with
  | some j =>
    if c.frozen then .next s
    else
      let b := jobOf s n.toNat j
      let who := allSids.filter (rdvReady b set)
      if who.isEmpty then .next s
      else
        let s := modJob s n.toNat j (fun b => { b with rdvDone := tset b.rdvDone set.toNat (tget 0 b.rdvDone set.toNat + 1) })
        .next (who.foldl (fun s t => retire s (.stream n.toNat j t) 1 .seq) s)
  | none => .next s

/-! Pennants. A position is core × 8 + stream. -/

/-- The position of a stream. -/
def posOf (n : Nat) (t : Sid) : Nat := n * 8 + sidNum t

/-- The positions that a participant set names (R175). -/
def setPositions (v : BitVec 320) : List Nat :=
  (List.range nCores).flatMap (fun n =>
    if v.getLsbD n then ((List.range 5).filter (fun t => v.getLsbD (256 + t))).map (n * 8 + ·) else [])

/-- A stream participates in a tag (R175). -/
def participates (w : Pennant) (n : Nat) (t : Sid) : Bool := w.set.getLsbD n && w.set.getLsbD (256 + sidNum t)

/-- The phase of a position's latest arrival has not completed. -/
def phaseOpen (w : Pennant) (pos : Nat) : Bool :=
  match tfind w.last pos with
  | some k => w.phase ≤ k
  | none => false

/-- The phase of a position's latest `pbara` on a tag has not completed, or that arrival is still to be signalled (R175, R176). -/
def pbaraOpen (st : Stream) (w : Pennant) (tag pos : Nat) : Bool :=
  st.pbars.any (fun e => e.tag == tag && !e.held) || (match tfind w.lastSplit pos with | some k => w.phase ≤ k | none => false)

/-- Command indices of the follow-on words of a job that have not entered the MQ (R240). -/
def wordsOut (b : Job) : List (BitVec 32) :=
  b.flw.map (·.2) ++ (b.xvq ++ b.xhq).flatMap (fun o => match o.kind with | .copy _ _ l => l.map (·.2) | _ => [])

/-- What a pennant instruction does at issue (R176). -/
inductive PbarForm where | pbar | pbara | pbarw
  deriving DecidableEq, Repr

/-- pbar, pbara and pbarw (R112, R176). A stream that waits for a phase in which it has arrived goes on waiting though the set that takes effect next leaves it out. -/
def pbarOp (f : PbarForm) (tag : BitVec 3) (s : State) : Result :=
  issue 1 { mgmt := false } s (fun s g =>
    match g with
    | .mgmt => raise cIllegal
    | .stream n j t =>
      let b := jobOf s n j
      let st := b.streams.get t
      let w := pennantOf (ctxOf s b.part b.ctx) tag.toNat
      let isOpen := st.pbars.any (fun e => e.tag == tag.toNat) || phaseOpen w (posOf n t)
      let splitOpen := pbaraOpen st w tag.toNat (posOf n t)
      let key := (tag.toNat, st.pc)
      let arrive (held : Bool) : Stream → Stream := fun st => { st with
        pbars := st.pbars ++ [{ tag := tag.toNat, limit := b.seq, words := wordsOut b, held := held }] }
      let waits := match f with | .pbar => st.inPbar.contains key | .pbarw => st.run == .waiting | .pbara => false
      if !participates w n t && !waits then raise cIllegal
      else match f with
        | .pbarw => if splitOpen then .wait s .waiting else .ok (acquire s n) .seq
        | .pbara => if isOpen then .wait s .waiting else .ok (modStream s g (arrive false)) .seq
        | .pbar =>
          if st.inPbar.contains key then
            if isOpen then .wait s .waiting
            else .ok (acquire (modStream s g (fun st => { st with inPbar := st.inPbar.filter (· != key) })) n) .seq
          else if isOpen then .wait s .waiting
          else .wait (modStream s g (fun st => { arrive true st with inPbar := st.inPbar ++ [key] })) .waiting)

/-- pbar (R176). -/
def execPbar (tag : BitVec 3) (s : State) : Result := pbarOp .pbar tag s
/-- pbara (R176). -/
def execPbara (tag : BitVec 3) (s : State) : Result := pbarOp .pbara tag s
/-- pbarw (R176). -/
def execPbarw (tag : BitVec 3) (s : State) : Result := pbarOp .pbarw tag s

/-- Every earlier operation of the stream's own queues has been performed (R112, R251): operations below a number, and on the X stream some `xflw` words. A word on a copy that has not been performed waits with that copy. -/
def ownDone (b : Job) (t : Sid) (limit : Nat) (words : List (BitVec 32)) : Bool :=
  (t != .x || b.flw.all (fun f => !words.contains f.2)) && (allOps b).all (fun o => o.sid != t || limit ≤ o.seq || (match o.kind with | .record _ _ _ => true | _ => false))

/-- An arrival of stream t on a tag can be signalled. -/
def canSignal (b : Job) (tag : Nat) (t : Sid) : Bool :=
  (b.streams.get t).pbars.any (fun e => e.tag == tag && ownDone b t e.limit e.words)

/-- An arrival of stream t on a tag is signalled (R112). -/
def signalArrival (s : State) (n j : Nat) (tag : Nat) (t : Sid) : State :=
  let b := jobOf s n j
  let split := (b.streams.get t).pbars.any (fun e => e.tag == tag && !e.held)
  let s := modStream s (.stream n j t) (fun st => { st with pbars := st.pbars.filter (fun e => e.tag != tag) })
  modCtx s b.part b.ctx (fun x =>
    let w := pennantOf x tag
    { x with pennants := tset x.pennants tag { w with
      arrived := w.arrived ++ [posOf n t], split := if split then w.split ++ [posOf n t] else w.split, last := tset w.last (posOf n t) w.phase
      lastSplit := if split then tset w.lastSplit (posOf n t) w.phase else w.lastSplit } })

/-- PENNANT_ARRIVAL (R112): one arrival on the tag is signalled, once the stream's earlier operations have been performed. -/
def execPennantArrival (n : CoreNo) (t : BitVec 3) (s : State) : Result :=
  match (coreOf s n.toNat).active with
  | some j =>
    match allSids.find? (canSignal (jobOf s n.toNat j) t.toNat) with
    | some u => .next (signalArrival s n.toNat j t.toNat u)
    | none => .next s
  | none => .next s

/-- Streams in `wfi` that had arrived with `pbara` are woken when a phase completes (R177). -/
def wakePositions (s : State) (c : Nat) (who : List Nat) : State :=
  who.foldl (fun s pos =>
    match (coreOf s (pos / 8)).active with
    | some j => if (jobOf s (pos / 8) j).ctx = c then wakeWfi s (pos / 8) j (fun t => sidNum t == pos % 8) else s
    | none => s) s

/-- PENNANT_COMPLETION (R112): the phase completes when every participant has arrived; a held rewrite of the set then takes effect (R175). -/
def execPennantCompletion (p : PartNo) (c : CtxNo) (tag : BitVec 3) (s : State) : Result :=
  let w := pennantOf (ctxOf s p.toNat c.toNat) tag.toNat
  if w.arrived.isEmpty || !(setPositions w.set).all w.arrived.contains then .next s
  else
    let s := modCtx s p.toNat c.toNat (fun x => { x with
      pennants := tset x.pennants tag.toNat { w with set := w.held.getD w.set, held := none, phase := w.phase + 1, arrived := [], split := [] } })
    .next (wakePositions s c.toNat w.split)

/-- wfi (R177, R331). -/
def execWfi (s : State) : Result :=
  issue 1 {} s (fun s g =>
    match g with
    | .mgmt => if s.mgmt.mevent ≠ 0#4 then .ok s .seq else .wait s (.inWfi false)
    | .stream _ _ _ =>
      match (streamOf s g).run with
      | .inWfi true => .ok s .seq
      | _ => .wait s (.inWfi false))

/-! Instruction-cache presence (R64): lines are 128 bytes, 8 ways, 64 sets; least recently used first. -/

/-- A line becomes the most recently used of its set: the set of its physical line number mod 64, a prefetch counting as a use (DESIGN CHOICE, log entry 76). -/
def touchLine (c : Core) (l : Nat) : Core :=
  let same := c.icache.filter (fun x => x / 128 % 64 == l / 128 % 64 && x != l)
  let out := if 8 ≤ same.length then same.head? else none
  { c with icache := c.icache.filter (fun x => x != l && some x != out) ++ [l] }

/-- The lines of a run of code enter the instruction cache, where they translate (R65); one that was absent is an outstanding prefetch until its line arrives. -/
def prefetchLines (s : State) (p c n : Nat) (va : Word) (count : Nat) : State :=
  (List.range count).foldl (fun s i =>
    let a := (va &&& ~~~127#64) + w64 (128 * i)
    let found := translate s p c (some n) a .fetch true
    let s := walked s { p := p, c := c, core := some n, user := true } a
    match found with
    | .ok pa _ =>
      let l := pa / 128 * 128
      modCore s n (fun k => touchLine { k with prefetches := if k.icache.contains l then k.prefetches else k.prefetches ++ [s.now + 1 + missCycles (s.tick + i)] } l)
    | _ => s) s

/-- An `ipref` of an address is ignored (R65): outside the job's code, where the address does not translate, and while 16 prefetches are outstanding on the core. -/
def iprefIgnored (s : State) (n : Nat) (b : Job) (va : Word) : Bool :=
  va.toNat < b.kernel.toNat || b.kernel.toNat + b.codeLen ≤ va.toNat
    || (match translate s b.part b.ctx (some n) va .fetch true with | .ok _ _ => false | _ => true)
    || 16 ≤ ((coreOf s n).prefetches.filter (s.now < ·)).length

/-- ipref (R65, R178): it never faults. -/
def execIpref (a : Reg) (n : BitVec 6) (s : State) : Result :=
  issue 1 { reads := [a] } s (fun s g =>
    match g with
    | .mgmt => .ok s .seq
    | .stream c j _ =>
      let b := jobOf s c j
      let va := reg s g a
      if iprefIgnored s c b va then .ok s .seq
      else
        let s := modCore s c (fun k => { k with prefetches := k.prefetches.filter (s.now < ·) })
        .ok (prefetchLines s b.part b.ctx c va (n.toNat + 1)) .seq)

end Sys2Proof.Machine
end

