-- ==== Sys2Proof/Machine/CMem.lean ====
section
/-! DEFINITION. The C stream's memory instructions: loads and stores, cache control, ownership, atomics, fences, tasks, work-lists, the Firn and vault words (R90, R101, R104, R180 to R189, R283, R333). -/

namespace Sys2Proof.Machine

open Sys2Proof.Config

/-- A C-stream instruction, with its job; on the management core with none. -/
def cIssue (mgmt : Bool) (reads : List Reg) (s : State) (body : State → Nat → Nat → Job → Res) (alone : State → Res) : Result :=
  issue 1 { streams := [.c], mgmt := mgmt, reads := reads } s (fun s g =>
    match g with
    | .mgmt => alone s
    | .stream n j _ => body s n j (jobOf s n j))

/-- How the C stream's access of one address went at issue, with the state that its walk leaves. -/
inductive CAddr where
  | at (s : State) (pa key : Nat)
  | parks (s : State) (entry : Nat)
  | trap (s : State) (t : Trap)

/-- The translation of a C-stream access at issue (R67, R88, R90): behind a pending entry for its page it parks, whatever the page allows by then; a miss and a write under WPW park; with the ring disabled or full a miss is XLAT_MISS; a walk that an error strikes is DATA_UE (R17). -/
def cAddress (s : State) (n j : Nat) (q : Queue) (va : Word) (acc : Acc) : CAddr :=
  let b := jobOf s n j
  let v := jobVia s n j q .c
  let park (s : State) (kind : Nat) : CAddr :=
    match parkAt s v va kind (acc == .write) (b.streams.c).cmd with
    | some (s, i) => .parks s i
    | none => .trap s { cause := cXlatMiss, faddr := va }
  if (ringBehind s v va).isSome then park s 1
  else if walkStruck s v.who va then .trap s { cause := cDataUe, faddr := va }
  else
    let t := walked s v.who va
    match translate s b.part b.ctx (some n) va acc (!b.sv) with
    | .ok pa key => .at t pa key
    | .miss => park t 1
    | .wpw _ _ => park t 2
    | .refuse => .trap t { cause := cXlatPerm, faddr := va }
    | .violation => .trap t { cause := cXlatPerm, faddr := va, freeze := true }
    | .ue => .trap t { cause := cDataUe, faddr := va }

/-- An operation enters a queue of the C stream, its destination register awaits it, and the queues move on. -/
def cPut (s : State) (n j : Nat) (q : Queue) (k : OpKind) (d : Nat) : Res :=
  let g := cAgent n j
  let op := nextSeq s g
  .ok (moveC (setDue (enqueue s g q k []) g d op) n j) .seq

/-- An operation enters a queue already parked behind a ring entry (R90). -/
def cPutParked (s : State) (n j : Nat) (q : Queue) (k : OpKind) (d entry : Nat) : Res :=
  let g := cAgent n j
  let op := nextSeq s g
  let s := enqueue s g q k []
  let s := modJob s n j (fun b => setQueue b q ((queueOf b q).map (fun o => if o.seq = op then { o with parked := entry + 1 } else o)))
  .ok (setDue s g d op) .seq

/-- An access enters its queue, parks or traps. -/
def cAccess (s : State) (n j : Nat) (q : Queue) (va : Word) (acc : Acc) (d : Nat) (mk : Nat → Nat → OpKind) : Res :=
  match cAddress s n j q va acc with
  | .at s pa key => cPut s n j q (mk pa key) d
  | .parks s i => cPutParked s n j q (mk 0 0) d i
  | .trap s t => .trapIn s t

/-! Loads and stores (R180). -/

/-- A load may be performed as it issues: it hits in L1, and nothing of the queues stands before it (R99). -/
def hitsNow (s : State) (n j : Nat) (va : Word) (pa k : Nat) : Bool :=
  let b := jobOf s n j
  let o : Op := { kind := .load va pa 0 k false 0, sid := .c, cmd := 0#32, seq := b.seq }
  region pa == .hbm && (findLine (coreOf s n) (lineAt pa)).isSome && b.lq.isEmpty && b.sq.all (fun q => !loadWaits s n j o q)

/-- A value loaded, extended to 64 bits. -/
def loaded (signed : Bool) (l : List Byte) : Word := if signed then sextN (8 * l.length) (w64 (leNat l)) else w64 (leNat l)

/-- A load of k bytes (R180). -/
def loadOp (k : Nat) (signed : Bool) (d a : Reg) (imm : BitVec 11) (s : State) : Result :=
  cIssue true [a] s
    (fun s n j b =>
      let g := cAgent n j
      let va := memAddr s g a imm
      let r := regPlace s g d
      if va.toNat % k ≠ 0 then raiseAt cAlign va
      else match cAddress s n j .lq va .read with
        | .at s pa key =>
          if hitsNow s n j va pa k then
            match cachedRead s b.part n pa k key with
            | (s, .ok l) =>
              let o : Op := { kind := .load va pa key k signed r, sid := .c, cmd := 0#32, seq := b.seq }
              .ok (writePlace s g r (loaded signed ((b.sq.filter (fun q => q.seq < o.seq)).foldl (overlayStore va pa) l))) .seq
            | (_, .error c) => .trapIn s { cause := c, faddr := va }
          else cPut s n j .lq (.load va pa key k signed r) r
        | .parks s i => cPutParked s n j .lq (.load va 0 0 k signed r) r i
        | .trap s t => .trapIn s t)
    (fun s =>
      let va := memAddr s .mgmt a imm
      if va.toNat % k ≠ 0 then raiseAt cAlign va
      else match mgmtRead s va.toNat k with
        | .ok l => .ok (setReg s .mgmt d (loaded signed l)) .seq
        | .error c => raiseAt c va)

/-- ldb (R180). -/
def execLdb (d a : Reg) (imm : BitVec 11) (s : State) : Result := loadOp 1 false d a imm s
/-- ldbs (R180). -/
def execLdbs (d a : Reg) (imm : BitVec 11) (s : State) : Result := loadOp 1 true d a imm s
/-- ldh (R180). -/
def execLdh (d a : Reg) (imm : BitVec 11) (s : State) : Result := loadOp 2 false d a imm s
/-- ldhs (R180). -/
def execLdhs (d a : Reg) (imm : BitVec 11) (s : State) : Result := loadOp 2 true d a imm s
/-- ldw (R180). -/
def execLdw (d a : Reg) (imm : BitVec 11) (s : State) : Result := loadOp 4 false d a imm s
/-- ldws (R180). -/
def execLdws (d a : Reg) (imm : BitVec 11) (s : State) : Result := loadOp 4 true d a imm s
/-- ldd (R180). -/
def execLdd (d a : Reg) (imm : BitVec 11) (s : State) : Result := loadOp 8 false d a imm s

/-- A store of k bytes (R180). -/
def storeOp (k : Nat) (d a : Reg) (imm : BitVec 11) (s : State) : Result :=
  cIssue true [d, a] s
    (fun s n j _ =>
      let g := cAgent n j
      let va := memAddr s g a imm
      let v := (reg s g d).toNat % 2 ^ (8 * k)
      if va.toNat % k ≠ 0 then raiseAt cAlign va
      else cAccess s n j .sq va .write 0 (fun pa key => .store va pa key k v))
    (fun s =>
      let va := memAddr s .mgmt a imm
      if va.toNat % k ≠ 0 then raiseAt cAlign va
      else match mgmtWrite s va.toNat (leBytes k (reg s .mgmt d).toNat) with
        | .ok s => .ok s .seq
        | .error c => raiseAt c va)

/-- stb (R180). -/
def execStb (d a : Reg) (imm : BitVec 11) (s : State) : Result := storeOp 1 d a imm s
/-- sth (R180). -/
def execSth (d a : Reg) (imm : BitVec 11) (s : State) : Result := storeOp 2 d a imm s
/-- stw (R180). -/
def execStw (d a : Reg) (imm : BitVec 11) (s : State) : Result := storeOp 4 d a imm s
/-- std (R180). -/
def execStd (d a : Reg) (imm : BitVec 11) (s : State) : Result := storeOp 8 d a imm s

/-! Cache control and ownership (R181, R182). -/

/-- lsmark (R101, R181): a marker in both queues. -/
def execLsmark (s : State) : Result :=
  cIssue true [] s
    (fun s n j _ =>
      let g := cAgent n j
      let s := enqueue s g .lq .mark []
      let s := modJob s n j (fun b => { b with sq := b.sq ++ (b.lq.filter (fun o => o.seq + 1 == b.seq)) })
      .ok (moveC s n j) .seq)
    (fun s => .ok s .seq)

/-- l1inv (R77, R181). -/
def execL1inv (a b : Reg) (s : State) : Result :=
  cIssue true [a, b] s
    (fun s n j _ =>
      let lo := (reg s (cAgent n j) a).toNat
      let len := (reg s (cAgent n j) b).toNat
      cPut s n j .lq (if 0x10000 < len then .l1inva else .l1inv lo (lo + len)) 0)
    (fun s => .ok s .seq)

/-- l1inva (R77, R181). -/
def execL1inva (s : State) : Result :=
  cIssue true [] s (fun s n j _ => cPut s n j .lq .l1inva 0) (fun s => .ok s .seq)

/-- pref (R181): the line is allocated where it is HBM and readable. A walk or a read that an error strikes allocates nothing. -/
def execPref (a : Reg) (s : State) : Result :=
  cIssue true [a] s
    (fun s n j b =>
      let va := reg s (cAgent n j) a
      let w := (jobVia s n j .lq .c).who
      let t := if walkStruck s w va then s else walked s w va
      match translate s b.part b.ctx (some n) va .read (!b.sv) with
      | .ok pa key =>
        if region pa == .hbm && !walkStruck s w va && ((findLine (coreOf s n) (lineAt pa)).isSome || !transitError s.tick) then
          match cachedRead t b.part n pa 1 key with
          | (s', .ok _) => .ok s' .seq
          | (_, .error _) => .ok t .seq
        else .ok t .seq
      | _ => .ok t .seq)
    (fun s => .ok s .seq)

/-- An instruction of the C stream that only enters the SQ; the management core has none. -/
def sqInstr (reads : List Reg) (d : Reg) (check : State → Nat → Nat → Job → Option Trap) (mk : Nat → State → Agent → OpKind) (s : State) : Result :=
  cIssue false reads s
    (fun s n j b =>
      match check s n j b with
      | some t => .trap t
      | none =>
        let g := cAgent n j
        let r := regPlace s g d
        cPut s n j .sq (mk r s g) r)
    (fun _ => raise cIllegal)

/-- No check of its own. -/
def noCheck (_ : State) (_ _ : Nat) (_ : Job) : Option Trap := none

/-- own (R182). -/
def execOwn (d a b : Reg) (s : State) : Result := sqInstr [a, b] d noCheck (fun r s g => .own (reg s g a) (reg s g b) r) s
/-- disown (R182). -/
def execDisown (d a : Reg) (s : State) : Result := sqInstr [a] d noCheck (fun r s g => .disown (reg s g a) r) s

/-! Atomics (R143, R183). -/

/-- An atomic. -/
def amoOp (op : BitVec 4) (d a b : Reg) (ord : Order) (wd : Width) (s : State) : Result :=
  let k := if wd == .w then 4 else 8
  cIssue true (if op = 9#4 then [d, a, b] else [a, b]) s
    (fun s n j _ =>
      let g := cAgent n j
      let va := reg s g a
      let r := regPlace s g d
      let v := reg s g b
      let c := reg s g d
      if va.toNat % k ≠ 0 then raiseAt cAlign va
      else match cAddress s n j .sq va .write with
        | .at s pa key =>
          if region pa != .hbm then .trapIn s { cause := cXlatPerm, faddr := va, freeze := true }
          else cPut s n j .sq (.atomic op wd ord va pa key r v c) r
        | .parks s i => cPutParked s n j .sq (.atomic op wd ord va 0 0 r v c) r i
        | .trap s t => .trapIn s t)
    (fun s =>
      let va := reg s .mgmt a
      let v := (reg s .mgmt b).toNat % 2 ^ (8 * k)
      let c := (reg s .mgmt d).toNat % 2 ^ (8 * k)
      if va.toNat % k ≠ 0 then raiseAt cAlign va
      else match mgmtRead s va.toNat k with
        | .error e => raiseAt e va
        | .ok l =>
          match mgmtWrite s va.toNat (leBytes k (amoWord op.toNat (8 * k) (leNat l) v c)) with
          | .ok s => .ok (setReg s .mgmt d (w64 (leNat l))) .seq
          | .error e => raiseAt e va)

/-- amoadd (R183). -/
def execAmoadd (d a b : Reg) (ord : Order) (wd : Width) (s : State) : Result := amoOp 0#4 d a b ord wd s
/-- amoand (R183). -/
def execAmoand (d a b : Reg) (ord : Order) (wd : Width) (s : State) : Result := amoOp 1#4 d a b ord wd s
/-- amoor (R183). -/
def execAmoor (d a b : Reg) (ord : Order) (wd : Width) (s : State) : Result := amoOp 2#4 d a b ord wd s
/-- amoxor (R183). -/
def execAmoxor (d a b : Reg) (ord : Order) (wd : Width) (s : State) : Result := amoOp 3#4 d a b ord wd s
/-- amomin (R183). -/
def execAmomin (d a b : Reg) (ord : Order) (wd : Width) (s : State) : Result := amoOp 4#4 d a b ord wd s
/-- amominu (R183). -/
def execAmominu (d a b : Reg) (ord : Order) (wd : Width) (s : State) : Result := amoOp 5#4 d a b ord wd s
/-- amomax (R183). -/
def execAmomax (d a b : Reg) (ord : Order) (wd : Width) (s : State) : Result := amoOp 6#4 d a b ord wd s
/-- amomaxu (R183). -/
def execAmomaxu (d a b : Reg) (ord : Order) (wd : Width) (s : State) : Result := amoOp 7#4 d a b ord wd s
/-- amoswp (R183). -/
def execAmoswp (d a b : Reg) (ord : Order) (wd : Width) (s : State) : Result := amoOp 8#4 d a b ord wd s
/-- amocas (R183). -/
def execAmocas (d a b : Reg) (ord : Order) (wd : Width) (s : State) : Result := amoOp 9#4 d a b ord wd s
/-- amofadd (R183), of words only. -/
def execAmofadd (d a b : Reg) (ord : Order) (s : State) : Result := amoOp 10#4 d a b ord .w s

/-! Fences (R104, R184). -/

/-- Every operation that a fence covers has been performed (R104); an acquire comes before every later fence, whichever queues that names (R107, R108). -/
def fenceDone (b : Job) (f : Fence) : Bool :=
  (f.mask == 0#7 || b.sq.all (fun o => f.limit ≤ o.seq || !isAcq o.kind)) && allQueues.all (fun q => !f.mask.getLsbD (queueBit q) || (queueOf b q).all (fun o => f.limit ≤ o.seq || (match o.kind with | .record _ _ _ => true | _ => false)))

/-- fence and qfence (R104). -/
def fenceOp (mgmt acq : Bool) (mask : BitVec 7) (s : State) : Result :=
  cIssue mgmt [] s
    (fun s n j b =>
      let f := b.fence.getD { mask := mask, limit := b.seq }
      if mask = 0#7 || fenceDone b f then
        let s := modJob s n j (fun b => { b with fence := none })
        .ok (moveC (if acq then acquire s n else s) n j) .seq
      else .wait (modJob s n j (fun b => { b with fence := some f })) .waiting)
    (fun s => .ok s .seq)

/-- fence (R104, R184). -/
def execFence (s : State) : Result := fenceOp true true 0x7F#7 s
/-- qfence (R104, R184). -/
def execQfence (mask : BitVec 7) (s : State) : Result := fenceOp false false mask s

/-! Tasks (R185). -/

/-- spawn (R58, R185). -/
def execSpawn (d a b : Reg) (s : State) : Result := sqInstr [a, b] d noCheck (fun r s g => .spawn r (reg s g a) (reg s g b)) s
/-- sptest (R59, R185). -/
def execSptest (d a : Reg) (s : State) : Result := sqInstr [a] d noCheck (fun r s g => .sptest r (reg s g a)) s
/-- depdec (R50, R185). -/
def execDepdec (d a : Reg) (s : State) : Result := sqInstr [a] d noCheck (fun r s g => .depdec r (reg s g a)) s
/-- depinc (R50, R185). -/
def execDepinc (d a : Reg) (s : State) : Result := sqInstr [a] d noCheck (fun r s g => .depinc r (reg s g a)) s

/-- spwait (R59, R108, R185): behind every earlier spawn; its return is an acquire. -/
def execSpwait (d a : Reg) (s : State) : Result :=
  cIssue false [a] s
    (fun s n j b =>
      let g := cAgent n j
      let t := reg s g a
      if badTicket t then .ok (setReg s g d (-1#64)) .seq
      else if b.sq.any (fun o => isAcq o.kind || (match o.kind with | .spawn _ _ _ => true | _ => false)) || !ticketDone s b.part t then .wait s .waiting
      else .ok (setReg (acquire s n) g d 0#64) .seq)
    (fun _ => raise cIllegal)

/-! Work-lists (R187). -/

/-- wlcfg (R187). -/
def execWlcfg (d a b : Reg) (s : State) : Result := sqInstr [a, b] d noCheck (fun r s g => .wlcfg r (reg s g a) (reg s g b)) s
/-- wlpush (R187). -/
def execWlpush (d a b : Reg) (s : State) : Result := sqInstr [a, b] d noCheck (fun r s g => .wlpush r (reg s g a) (reg s g b)) s
/-- wlins (R187). -/
def execWlins (d a b : Reg) (s : State) : Result := sqInstr [a, b] d noCheck (fun r s g => .wlins r (reg s g a) (reg s g b)) s
/-- wlpopb (R187). -/
def execWlpopb (d a b : Reg) (s : State) : Result :=
  sqInstr [a, b] d (fun s n j _ =>
      let va := reg s (cAgent n j) b
      if va.toNat % 4 ≠ 0 then some { cause := cAlign, faddr := va } else none)
    (fun r s g => .wlpopb r (reg s g a) (reg s g b)) s
/-- wlcnt (R187). -/
def execWlcnt (d a : Reg) (s : State) : Result := sqInstr [a] d noCheck (fun r s g => .wlcnt r (reg s g a)) s
/-- wldrain (R187). -/
def execWldrain (d a : Reg) (s : State) : Result := sqInstr [a] d noCheck (fun r s g => .wldrain r (reg s g a)) s

/-! The Firn (R283). -/

/-- The operand check of a Firn instruction. -/
def firnCheck (a b : Reg) (s : State) (n j : Nat) (job : Job) : Option Trap :=
  let g := cAgent n j
  match descByVa s job.part job.ctx (reg s g a) with
  | some f => if bitsAt (reg s g b) 0 24 < f.count then none else some { cause := cFirnDesc }
  | none => some { cause := cFirnDesc }

/-- frnck (R279, R283). -/
def execFrnck (d a b : Reg) (s : State) : Result := sqInstr [a, b] d (firnCheck a b) (fun r s g => .frnck r (reg s g a) (reg s g b)) s
/-- frnput (R281, R283). -/
def execFrnput (d a b : Reg) (s : State) : Result := sqInstr [a, b] d (firnCheck a b) (fun r s g => .frnput r (reg s g a) (reg s g b)) s
/-- frninv (R283). -/
def execFrninv (d a b : Reg) (s : State) : Result := sqInstr [a, b] d (firnCheck a b) (fun r s g => .frninv r (reg s g a) (reg s g b)) s
/-- frnstat (R283). -/
def execFrnstat (d a b : Reg) (s : State) : Result := sqInstr [a, b] d (firnCheck a b) (fun r s g => .frnstat r (reg s g a) (reg s g b)) s
/-- frnflush (R283). -/
def execFrnflush (d a : Reg) (s : State) : Result :=
  sqInstr [a] d (fun s n j job =>
      let v := reg s (cAgent n j) a
      if v = 0#64 || (descByVa s job.part job.ctx v).isSome then none else some { cause := cFirnDesc })
    (fun r s g => .frnflush r (reg s g a)) s

/-- INSTALLATION (R281, R283): the `frnput` at the head of a core's SQ is performed, and its entry installed. -/
def execInstallation (n : CoreNo) (s : State) : Result :=
  match (coreOf s n.toNat).active with
  | none => .next s
  | some j =>
    let b := jobOf s n.toNat j
    match headOp b.sq with
    | some o =>
      match o.kind with
      | .frnput _ _ _ =>
        if sqReady s n.toNat j o then .next (moveC (sqEnd n.toNat j o (sqPerform s n.toNat j o false)) n.toNat j) else .next s
      | _ => .next s
    | none => .next s

/-! Vault words (R189). -/

/-- A vault operation of the C stream. -/
def vaultOp (op : VaultOp) (d a b : Reg) (s : State) : Result :=
  cIssue false (if op == .cas then [d, a, b] else [a, b]) s
    (fun s n j _ =>
      let g := cAgent n j
      let va := reg s g a
      let r := regPlace s g d
      let v := reg s g b
      let lo : BitVec 32 := v.setWidth 32
      let x := if op == .cas then (reg s g d).setWidth 32 else lo
      let y := if op == .cas then lo else (v >>> 32).setWidth 32
      if va.toNat % 4 ≠ 0 then raiseAt cAlign va
      else match cAddress s n j .sq va .write with
        | .at s pa _ =>
          match region pa with
          | .vault _ _ => cPut s n j .sq (.vaultWord op va pa r x y) r
          | _ => .trapIn s { cause := cXlatPerm, faddr := va, freeze := true }
        | .parks s i => cPutParked s n j .sq (.vaultWord op va 0 r x y) r i
        | .trap s t => .trapIn s t)
    (fun _ => raise cIllegal)

/-- vtadd (R75, R189). -/
def execVtadd (d a b : Reg) (s : State) : Result := vaultOp .radd d a b s
/-- vtfadd (R75, R189). -/
def execVtfadd (d a b : Reg) (s : State) : Result := vaultOp .fadd d a b s
/-- vtmax (R75, R189). -/
def execVtmax (d a b : Reg) (s : State) : Result := vaultOp .max d a b s
/-- vtcas (R75, R189). -/
def execVtcas (d a b : Reg) (s : State) : Result := vaultOp .cas d a b s
/-- vtsac (R75, R189). -/
def execVtsac (d a b : Reg) (s : State) : Result := vaultOp .sac d a b s

end Sys2Proof.Machine
end

