-- ==== Sys2Proof/Machine/Save.lean ====
section
/-! DEFINITION. Keep regions (R30, R39), the start of a job (R30, R32), and what a pre-emption or suspension saves and restores (R302, R303, R305, R308, R309). -/

namespace Sys2Proof.Machine

open Sys2Proof.Config

/-! Keep regions (R30, R39). -/

/-- The device's own accesses in a context's translation. -/
def deviceWho (p c : Nat) : Who := { p := p, c := c }

def keepBytes (nd : Node) : Nat := nd.keeps.foldl (fun z k => z + k.2) 0

/-- VA of a column's copy of a node's keep regions (R39). -/
def keepVa (s : State) (p n : Nat) (nd : Node) : Word := nd.backing + w64 ((coresOf s p).idxOf n * keepBytes nd)

/-- The keep regions of a node as they stand in a core's scratchpad. -/
def keepRead (s : State) (n : Nat) (nd : Node) : List Byte := nd.keeps.flatMap (fun k => spRead s n k.1 k.2)

/-- Keep regions laid into a core's scratchpad. -/
def keepLay (s : State) (n : Nat) : List (Nat × Nat) → List Byte → State
  | [], _ => s
  | k :: r, l => keepLay (spWrite s n k.1 (l.take k.2)) n r (l.drop k.2)

/-- The resident keep regions of a column are written to their backing and cease to be resident (R39), unless an error on the mesh or the seam strikes them (R17; log entry 12). -/
def keepOut (s : State) (p n : Nat) : State × Option VErr :=
  match (coreOf s n).resident with
  | none => (s, none)
  | some (node, c) =>
    let nd := nodeOf s p c node
    let out := modCore s n (fun k => { k with resident := none })
    if transitError s.tick then (out, some (.fault cDataUe false (keepVa s p n nd)))
    else match vaWrite out (deviceWho p c) (keepVa s p n nd) (keepRead s n nd) with
    | (s, .ok _) => (s, none)
    | (s, .error e) => (s, some e)

/-- The keep regions of a node in the backing of a column, unless an error on the mesh or the seam strikes them (R17; log entry 12). -/
def keepFetch (s : State) (p c n : Nat) (nd : Node) : State × Except VErr (List Byte) :=
  if transitError s.tick then (s, .error (.fault cDataUe false (keepVa s p n nd))) else vaRead s (deviceWho p c) (keepVa s p n nd) (keepBytes nd)

/-- Physical address of a slot's keep buffer (R31). -/
def keepBufAt (n j : Nat) : Nat := coreAt n + keepOffset + j * 0x40000

/-- A slot's keep buffer takes the keep regions of a node, where they are neither resident nor unreadable (R30). -/
def keepPrefetch (s : State) (p c n j node : Nat) : State :=
  let nd := nodeOf s p c node
  if nd.keeps.isEmpty || (coreOf s n).resident == some (node, c) then s
  else match keepFetch s p c n nd with
    | (s, .ok l) => { s with mem := memWrite s.mem (keepBufAt n j) l }
    | (s, .error _) => s

/-- The handover of R30 before a job of a node starts: foreign regions go out, its own come in. -/
def handover (s : State) (p c n j node : Nat) : State × Option VErr :=
  let nd := nodeOf s p c node
  let (s, e) := if (coreOf s n).resident == some (node, c) then (s, none) else keepOut s p n
  match e with
  | some e => (s, some e)
  | none =>
    if nd.keeps.isEmpty || (coreOf s n).resident == some (node, c) then (s, none)
    else match keepFetch s p c n nd with
      | (s, .error e) => (s, some e)
      | (s, .ok l) =>
        let s := { s with mem := memWrite s.mem (keepBufAt n j) l }
        (modCore (keepLay s n nd.keeps l) n (fun k => { k with resident := some (node, c) }), none)

/-! The start of a job (R32). -/

/-- Key of a queue whose pointers a column keeps (R37). -/
def persistKey (c node h : Nat) : Nat := (c * 1024 + node) * 32 + h

/-- The descriptor bytes of a handle at job start: the kernel's, with the pointers of R32. -/
def startDesc (k : Core) (c node h : Nat) (l : List Byte) : List Byte :=
  let (hd, tl) := if (parseDesc l).persist then tget (0, 0) k.persist (persistKey c node h) else (0, 0)
  l.take 8 ++ leBytes 2 hd ++ leBytes 2 tl ++ l.drop 12

/-- The descriptor bank of a slot as a job of a node starts with it (R30, R32). -/
def layDescs (s : State) (n j c node : Nat) (kr : Kernel) : State :=
  let at0 := coreAt n + descOffset + j * 0x800
  let s := { s with mem := memWrite s.mem at0 (zeros 0x800) }
  kr.descs.foldl (fun s d => { s with mem := memWrite s.mem (at0 + 64 * d.1) (startDesc (coreOf s n) c node d.1 d.2) }) s

/-- A stream at job start; one that the kernel does not use stands at an implicit `rdv end` (R32). -/
def startStream (kr : Kernel) (t : Sid) : Stream :=
  if kr.used.testBit (sidNum t) then { used := true, pc := kr.addr + w64 (kr.entries.getD (sidNum t) 0), run := .running } else { atEnd := true }

/-- The job of a task, as it stands in a staged slot (R32, R57). -/
def stagedJob (p c key : Nat) (t : Task) (nd : Node) : Job :=
  let kr := nd.kernel
  { part := p, ctx := c, node := t.node, tile := t.tile, task := key, depth := t.depth, kernel := kr.addr, codeLen := kr.codeLen
    discards := kr.discards, tiletype := BitVec.ofNat 32 kr.tiletype
    streams := ⟨startStream kr .c, startStream kr .a, startStream kr .v, startStream kr .m, startStream kr .x⟩ }

/-- What a job takes from its partition, its slot and its node as it starts (R32, R195, R297, R302, R311). -/
def startFields (s : State) (sl : Slot) (nd : Node) (b : Job) : Job :=
  let q := partOf s b.part
  { b with
    limit := q.splimit.toNat
    trapvec := q.handler
    dbgctl := sl.step
    npUntil := if nd.np then some (s.now + nd.budget) else none }

/-- The accumulator store at +0, and the trap records of a slot at 0 (R32, R299). -/
def clearStart (s : State) (n j : Nat) : State :=
  { s with mem := memClear (memClear s.mem (coreAt n + accOffset) accSize) (coreAt n + recOffset + j * 0x800) 0x140 }

/-- A staged job starts (R30, R32). A backing that cannot be reached stops its C stream before its first instruction (R39). -/
def startJob (s : State) (n j : Nat) : State :=
  let sl := slotOf (coreOf s n) j
  let b := sl.job
  let p := b.part
  let nd := nodeOf s p b.ctx b.node
  let (s, e1) := if (coreOf s n).resident == some (b.node, b.ctx) then (s, none) else keepOut s p n
  let s := if (coreOf s n).lastCtx == some (p, b.ctx) then s else { s with mem := fillScratch s.mem n (partOf s p).fill }
  let (s, e2) := if e1.isSome then (s, e1) else handover s p b.ctx n j b.node
  let s := layDescs (clearStart s n j) n j b.ctx b.node nd.kernel
  let s := modLaunch s p b.ctx (fun la => leaveOrder la b.node b.task)
  let s := modCore s n (fun k => { k with active := some j, lastCtx := some (p, b.ctx) })
  let s := modSlot s n j (fun sl => { sl with st := .active, job := startFields s sl nd b, intact := false })
  let s := modSlot s n (1 - j) (fun sl => { sl with intact := false })
  match e2 with
  | none => s
  | some e => stopStream s n j .c { cause := causeOf e, faddr := addrOf e, freeze := match e with | .fault _ fz _ => fz | _ => false }
      false 0#32 .c

/-! Images (R305, R308). -/

/-- VA of a slot's image in the save area (R305). -/
def imageVa (s : State) (p c n j : Nat) : Word :=
  (ctxOf s p c).savearea + w64 ((coresOf s p).idxOf n * (4480 * 1024) + j * (2240 * 1024))

/-- The parts of a scratchpad outside discardable regions, ascending: offset and length. -/
def keptParts (discards : List (Nat × Nat)) : List (Nat × Nat) :=
  let cut (l : List (Nat × Nat)) (d : Nat × Nat) : List (Nat × Nat) := l.flatMap (fun r =>
    let hi := r.1 + r.2
    if d.2 = 0 ∨ d.1 + d.2 ≤ r.1 ∨ hi ≤ d.1 then [r]
    else (if r.1 < d.1 then [(r.1, d.1 - r.1)] else []) ++ (if d.1 + d.2 < hi then [(d.1 + d.2, hi - (d.1 + d.2))] else []))
  discards.foldl cut [(0, scratchSize)]

/-- The pieces of a core window that an image holds, with their place in it: scratchpad, accumulator store, and in the state region the slot's descriptors and trap records. -/
def imagePieces (b : Job) (j : Nat) : List (Nat × Nat × Nat) :=
  (keptParts b.discards).map (fun r => (r.1, r.1, r.2))
    ++ [(0x180000, accOffset, accSize), (0x200000, descOffset + j * 0x800, 0x800), (0x200800, recOffset + j * 0x800, 0x140)]

/-- A slot's image is written into the save area, as far as it translates (R305). -/
def writeImage (s : State) (n j : Nat) (b : Job) : State :=
  let va := imageVa s b.part b.ctx n j
  (imagePieces b j).foldl (fun s e =>
    (vaWrite s (deviceWho b.part b.ctx) (va + w64 e.1) (memReadN s.mem (coreAt n + e.2.1) e.2.2)).1) s

/-- A slot's image is read back: discardable regions read as the fill pattern (R308). -/
def readImage (s : State) (n j : Nat) (b : Job) : State :=
  let va := imageVa s b.part b.ctx n j
  let s := { s with mem := fillScratch s.mem n (partOf s b.part).fill }
  (imagePieces b j).foldl (fun s e =>
    match vaRead s (deviceWho b.part b.ctx) (va + w64 e.1) e.2.2 with
    | (s, .ok l) => { s with mem := memWrite s.mem (coreAt n + e.2.1) l }
    | (s, .error _) => s) s

/-- An operation that has not begun goes back to the start of its way (R308, R315): one that has begun is completed before the save. -/
def unbegun (o : Op) : Op :=
  match o.kind with
  | .product f a qa qb qm sl w fl _ => { o with stage := 0, read := [], kind := .product f a qa qb qm sl w fl [] }
  | _ => { o with stage := 0 }

/-- Every stream of a job stands at an instruction boundary: waits are left unretired (R229, R308). -/
def atBoundary (b : Job) : Job :=
  let b := allSids.foldl leaveWait b
  { b with streams := allSids.foldl (fun fs t =>
      let st := fs.get t
      match st.run with
      | .onQueue _ _ _ | .waiting | .inWfi _ => fs.set t { st with run := .running }
      | _ => fs) b.streams }

/-- Every stream of a job goes to its boundary: a rendezvous that all named streams have reached is behind it, with the STEP of a stepped stream pending (R273, R308, R312). -/
def toBoundary (s : State) (n j : Nat) : State := modJob (allSids.foldl (fun s t => finishStill s n j t) s) n j atBoundary

/-- A value reaches its register, or is uncorrectable where an error has struck it on the way (R17, R93). -/
def landOne (s : State) (n j : Nat) (l : Landing) : State :=
  if l.wrong then engineFault (dropDue s (.stream n j l.sid) l.op) n j l.sid { cause := cDataUe, cmd := l.cmd, faddr := l.va }
  else arrive s (.stream n j l.sid) l.d l.op l.value

/-- Values on their way to the registers of a job arrive, and its writes are acknowledged. -/
def landAll (s : State) (n j : Nat) : State :=
  let s := (jobOf s n j).landings.foldl (fun s l => landOne s n j l) s
  modJob s n j (fun b => { b with landings := [], acks := 0 })

/-- The maps of a core leave its map area, live handles lost (R284). -/
def loseMaps (t : Table FloeHandle) : Table FloeHandle :=
  t.map (fun e => match e.2.state with | .live _ => (e.1, { e.2 with state := .lost }) | _ => e)

/-- A column enters C2 or C3 (R327): its keep regions go out; scratchpad, accumulators, caches and maps are lost, and in C3 the vault. -/
def deepColumn (s : State) (n : Nat) (pw : Power) : State :=
  let s := match partOfCore s n with | some p => (keepOut s p n).1 | none => s
  let s := dropLines s n (fun _ => true)
  let m := memClear (memClear s.mem (coreAt n) scratchSize) (coreAt n + accOffset) accSize
  let m := if pw == .c3 then { m with flaws := m.flaws ++ [(vaultAt n, vaultAt n + vaultSize, spareWrong)] } else m
  modCore { s with mem := m } n (fun k => { k with
    power := pw, gatedAt := some (k.gatedAt.getD s.now), l1 := [], icache := [], tlb := [], owned := []
    lastCtx := none, resident := none, floe := loseMaps k.floe
    slot0 := { k.slot0 with intact := false }, slot1 := { k.slot1 with intact := false } })

/-- A column whose granule belongs to no partition runs nothing, its X engine no intake command, and stands in C3 (R15). -/
def orphanColumn (s : State) (n : Nat) : State :=
  if (partOfCore s n).isSome then s
  else
    let s := modCore s n (fun k => { k with
      slot0 := emptySlot k.slot0, slot1 := emptySlot k.slot1, active := none, ctx := none, ending := false, forced := false, frozen := false
      doubleFault := false, intake := [] })
    if (coreOf s n).power == .c3 then s else deepColumn s n .c3

/-- What a slot still shows of a saved job (R302). -/
def shellJob (b : Job) : Job := { part := b.part, ctx := b.ctx, node := b.node, tile := b.tile, task := b.task, cursor := b.cursor }

/-- A job is saved with its image (R303, R305, R308); its slot shows a state, and no more of the job remains on the core. -/
def saveJob (s : State) (n j : Nat) (st : SlotState) : State :=
  let s := landAll (toBoundary s n j) n j
  let s := modJob s n j (fun b => allQueues.foldl (fun b q => setQueue b q ((queueOf b q).map unbegun)) b)
  let b := jobOf s n j
  let s := writeImage s n j b
  -- keep regions leave scratchpad only by being written to their backing (R39)
  let s := (keepOut s b.part n).1
  let b := { b with npUntil := none, npLeft := b.npUntil.map (· - s.now), deadSince := none }
  let s := modCtx s b.part b.ctx (fun x => { x with saved := tset x.saved (n * 2 + j) (b, (coreOf s n).floe) })
  let s := modSlot s n j (fun sl => { sl with st := st, job := shellJob b, intact := st == .suspended })
  modCore s n (fun k => { k with active := none, forced := false, floe := loseMaps k.floe })

/-- Discardable regions read as the fill pattern after a restore (R308). -/
def fillDiscards (s : State) (n : Nat) (b : Job) : State :=
  b.discards.foldl (fun s r => spWrite s n r.1 (List.replicate r.2 (partOf s b.part).fill)) s

/-- A saved job is put back in its slot and runs on (R303, R308); accesses of its C stream take the translations of now. Where no other job has run on the core, its bytes stand there as the suspension, and what was corrected in them since, left them. -/
def restoreJob (s : State) (n j : Nat) (b : Job) (floe : Table FloeHandle) : State :=
  let s := wakeColumn s n
  let s := if (slotOf (coreOf s n) j).intact then fillDiscards s n b else readImage (keepOut s b.part n).1 n j b
  let nd := nodeOf s b.part b.ctx b.node
  let s := modCtx s b.part b.ctx (fun x => { x with saved := tdel x.saved (n * 2 + j) })
  let s := modCore s n (fun k => { k with
    active := some j, floe := floe, lastCtx := some (b.part, b.ctx), resident := if nd.keeps.isEmpty then none else some (b.node, b.ctx) })
  let s := modSlot s n (1 - j) (fun sl => { sl with intact := false })
  let s := modSlot s n j (fun sl => { sl with st := .active, resumed := false, intact := false, job := { b with npUntil := b.npLeft.map (s.now + ·), npLeft := none } })
  renewJob s n j (fun _ _ => true)

/-- A job was suspended (R229): it holds the operation whose failure suspended it. -/
def wasSuspended (b : Job) : Bool := (allOps b).any (fun o => o.parked == 4097)

/-- The saved image of a slot, if there is one. -/
def savedOf (s : State) (p c n j : Nat) : Option (Job × Table FloeHandle) := tfind (ctxOf s p c).saved (n * 2 + j)

/-! Columns and contexts (R22, R284, R308). -/

/-- A column that holds no active job makes a boundary pre-emption and switches to the context that holds the slice; its saved jobs of that context come back. -/
def switchColumn (s : State) (p n : Nat) : State :=
  let (s, _) := keepOut s p n
  let s := modCore s n (fun k => { k with ctx := (partOf s p).running, ending := false, floe := loseMaps k.floe })
  -- a slot goes on showing that its job is saved (R302) until the slot is taken again
  let clear (s : State) (j : Nat) : State := modSlot s n j (fun sl => if sl.st == .suspended then emptySlot sl else sl)
  let s := clear (clear s 0) 1
  match (partOf s p).running with
  | none => s
  | some c =>
    let put (s : State) (j : Nat) : State :=
      match savedOf s p c n j with
      | none => s
      | some (b, fl) =>
        if wasSuspended b then modSlot s n j (fun sl => { sl with st := .suspended, job := shellJob b })
        else if (coreOf s n).active.isNone && !(ctxOf s p c).stopped then restoreJob s n j b fl
        else modSlot s n j (fun sl => { sl with st := .staged, resumed := true, job := shellJob b })
    put (put s 0) 1

/-- A staged job is returned to the ready state unstarted (R22); one that `resume` put back keeps its image. -/
def returnStaged (s : State) (n j : Nat) : State :=
  let sl := slotOf (coreOf s n) j
  if sl.st != .staged then s
  else
    let s := if sl.resumed then s else returnTask s sl.job.part sl.job.ctx sl.job.task
    modSlot s n j emptySlot

/-- A column that is to switch returns its staged job at once, and switches when it holds no active job (R22); a frozen core switches nothing (R304). -/
def columnTurn (s : State) (p n : Nat) : State :=
  let k := coreOf s n
  if k.frozen || !k.ending then s
  else
    let s := returnStaged (returnStaged s n 0) n 1
    if (coreOf s n).active.isNone then switchColumn s p n else s

/-- A slot is free for a context: empty, or showing a saved job of another one. -/
def slotFree (ctx : Option Nat) (sl : Slot) : Bool := sl.st == .empty || (sl.st == .saved && ctx != some sl.job.ctx)

/-- The slot that a core offers to dispatch (R250). -/
def freeSlot (k : Core) : Option Nat :=
  if k.slot0.st == .staged || k.slot1.st == .staged then none
  else if slotFree k.ctx k.slot0 then some 0
  else if slotFree k.ctx k.slot1 then some 1
  else none

end Sys2Proof.Machine
end

