-- ==== Sys2Proof/Machine/Txb.lean ====
section
/-! DEFINITION. Transaction barriers (R111, R245, R246). -/

namespace Sys2Proof.Machine

/-- Barrier i of a context on a core. -/
def txbOf (s : State) (n c i : Nat) : TxBarrier := tget {} (coreOf s n).txb (c * 16 + i)
def setTxb (s : State) (n c i : Nat) (x : TxBarrier) : State := modCore s n (fun k => { k with txb := tset k.txb (c * 16 + i) x })

/-- The test of R245, made after every change. -/
def txbTest (x : TxBarrier) : TxBarrier :=
  if x.armed && x.exp.toNat ≤ x.arr.toNat then { ph := x.ph + 1#32, arr := x.arr - x.exp, exp := 0#48, armed := false } else x

/-- Bytes arrive at a barrier (R243, R245). -/
def txbArrive (s : State) (n c i k : Nat) : State :=
  let x := txbOf s n c i
  setTxb s n c i (txbTest { x with arr := x.arr + BitVec.ofNat 48 k })

/-- A phase is complete: (PH - q) mod 2^32 lies in 1 to 2^31 (R246). -/
def phaseDone (x : TxBarrier) (q : BitVec 32) : Bool := 1 ≤ (x.ph - q).toNat && (x.ph - q).toNat ≤ 2 ^ 31

/-- A barrier instruction: the barrier that s[a] names on the stream's own core. -/
def txbOp (reads : List Reg) (a : Reg) (s : State) (body : State → Nat → Nat → Nat → Nat → TxBarrier → Res) : Result :=
  xIssue 1 reads s (fun s n j b =>
    let i := bitsAt (reg s (xAgent n j) a) 0 4
    body s n j b.ctx i (txbOf s n b.ctx i))

/-- txinit (R246). -/
def execTxinit (a : Reg) (s : State) : Result :=
  txbOp [a] a s (fun s n _ c i _ => .ok (setTxb s n c i {}) .seq)

/-- txexp (R246). DESIGN CHOICE (log 92): with d = b, the old s[b] is added. -/
def execTxexp (d a b : Reg) (s : State) : Result :=
  txbOp [a, b] a s (fun s n j c i x =>
    let e := x.exp + (reg s (xAgent n j) b).setWidth 48
    .ok (setReg (setTxb s n c i (txbTest { x with exp := e, armed := true })) (xAgent n j) d (x.ph.setWidth 64)) .seq)

/-- txarr (R246). -/
def execTxarr (a b : Reg) (s : State) : Result :=
  txbOp [a, b] a s (fun s n j c i x =>
    .ok (setTxb s n c i (txbTest { x with arr := x.arr + (reg s (xAgent n j) b).setWidth 48 })) .seq)

/-- txwait (R246): its return is an acquire (R111). -/
def execTxwait (d a b : Reg) (s : State) : Result :=
  txbOp [a, b] a s (fun s n j _ _ x =>
    if phaseDone x ((reg s (xAgent n j) b).setWidth 32) then .ok (setReg (acquire s n) (xAgent n j) d (x.ph.setWidth 64)) .seq
    else .wait s .waiting)

/-- txtest (R246): an answer of 1 is an acquire (R111). -/
def execTxtest (d a b : Reg) (s : State) : Result :=
  txbOp [a, b] a s (fun s n j _ _ x =>
    if phaseDone x ((reg s (xAgent n j) b).setWidth 32) then .ok (setReg (acquire s n) (xAgent n j) d 1#64) .seq
    else .ok (setReg s (xAgent n j) d 0#64) .seq)

end Sys2Proof.Machine
end

