-- ==== Sys2Proof/Machine/Engine.lean ====
section
/-! DEFINITION. Engine operations as they are performed: the VQ (R200), the AQ with the suspension of a job (R228, R229, R303), copies with their completion actions and records (R235, R242, R243), remote stores (R114) and the intake queues (R248, R249). -/

namespace Sys2Proof.Machine

open Sys2Proof.Config

/-! Travel (R80, R85): an operation that reaches memory travels before it is performed. -/

/-- The way of an access to a range of the physical map (R80, R85). -/
inductive Travel where | none | calendar | window | fabric
  deriving DecidableEq, Repr

/-- The way to a physical address. -/
def travelTo (pa : Nat) : Travel :=
  match region pa with
  | .hbm => .calendar
  | .vault _ _ => .window
  | .core _ _ => .window
  | .pctl _ _ => .fabric
  | .cap _ => .fabric
  | .host => .fabric
  | _ => .none

/-- A side lies within its space. -/
def Side.inside (x : Side) : Bool := 0 ≤ x.at' && x.at' + x.len ≤ (spaceSize x.space : Int)

/-- The first memory request among the sides of a unit, as far as they lie within their spaces. -/
def firstSide : List Side → Option Word
  | [] => none
  | x :: r => if !x.inside then none else if x.space == .va then some (BitVec.ofInt 64 x.at') else firstSide r

/-- Element i of an indexed operation names an index beyond the bound, at which the operation stops (R227). -/
def indexBad (s : State) (n j : Nat) (k : OpKind) (i : Nat) : Bool :=
  match k with
  | .agath _ qi _ isl _ p _ _ => match indexAt s n j qi isl i with | some x => patBound p ≤ x | none => false
  | .ascat _ qi _ isl _ p _ _ => match indexAt s n j qi isl i with | some x => patBound p ≤ x | none => false
  | _ => false

/-- Bytes to whose multiple the elements of an A operation are aligned (R225). -/
def elemAlign : OpKind → Nat
  | .astrm _ _ _ p _ _ => min (2 ^ p.lge) 64
  | .astro _ _ _ p _ _ => min (2 ^ p.lge) 64
  | .agath _ _ _ _ _ p _ _ => min (2 ^ p.lge) 64
  | .ascat _ _ _ _ _ p _ _ => min (2 ^ p.lge) 64
  | .awin _ _ w _ _ => min (2 ^ w.lge) 64
  | _ => 1

/-- The first memory request of an A operation from element i on: pads make none (R227, R232), and at an index beyond the bound or a misaligned element the operation stops before it makes one. -/
def firstElem (s : State) (n j : Nat) (k : OpKind) : Nat → Nat → Option Word
  | 0, _ => none
  | fuel + 1, i =>
    match aSide s n j k i with
    | x :: r => if x.at' % (elemAlign k : Int) ≠ 0 then none else firstSide (x :: r)
    | [] => if indexBad s n j k i then none else firstElem s n j k fuel (i + 1)

/-- Unit i of a command passes the checks that it meets before its first request (R238, R239, R241). -/
def unitShaped (c : Copy) (i : Nat) : Bool :=
  match c.form with
  | .cvt => (c.src.toNat + cvtSize c.st * i) % cvtSize c.st == 0 && (c.dst.toNat + cvtSize c.dt * i) % cvtSize c.dt == 0
  | .vop => c.src.toNat % 4 == 0 && c.dst.toNat % 4 == 0
  | .mcast => c.src.toNat % 64 == 0 && c.dst.toNat % 64 == 0 && c.len % 64 == 0 && c.dst.toNat + 64 * i + 64 ≤ scratchSize
  | _ => true

/-- An engine operation writes with its first memory request. -/
def writesFirst (o : Op) : Bool :=
  match o.kind with
  | .astro _ _ _ _ _ _ => true
  | .ascat _ _ _ _ _ _ _ _ => true
  | .copy c _ _ => copyUnits c ≤ o.done || c.ss != .va
  | _ => false

/-- The address of the first memory request that an engine operation has still to make, in the element or unit that it is at; nothing where it makes none there: one of length 0 is performed at once (R236), and one that stops on its operands has asked for nothing (R227, R228). Of an intake command whose units are all done its completion word is left. -/
def firstVa (s : State) (n j : Nat) (o : Op) : Option Word :=
  match o.kind with
  | .copy c ar _ =>
    if c.form == .rem && c.pkg != pkgid.toNat then none
    else if copyUnits c ≤ o.done then (ar.bind (·.word)).map (·.1)
    else if unitShaped c o.done then firstSide (unitReads c o.done ++ unitWrites c o.done) else none
  | k => firstElem s n j k (aCount k - o.done) o.done

/-- The place that an operation's request must have: an xmcast reads HBM, an xvop reaches a vault (R84, R239, R241). -/
def placeFits (o : Op) (pa : Nat) : Bool :=
  match o.kind with
  | .copy c _ _ => (match c.form with | .mcast => region pa == .hbm | .vop => (match region pa with | .vault _ _ => true | _ => false) | _ => true)
  | _ => true

/-- How an engine operation travels; not at all where its first request parks or is refused before it is made. -/
def engineTravel (s : State) (n j : Nat) (v : Via) (o : Op) : Travel :=
  match firstVa s n j o with
  | none => .none
  | some va =>
    if (ringBehind s v va).isSome then .none
    else match translate s v.who.p v.who.c v.who.core va (if writesFirst o then .write else .read) v.who.user with
    | .ok pa _ => if placeFits o pa then travelTo pa else .none
    | _ => .none

/-- An uncorrectable error strikes the traffic of an engine operation that has not come to its place yet (R17): a free value (log entry 12). -/
def engineStruck (s : State) (n j : Nat) (v : Via) (o : Op) : Bool := o.stage != 2 && engineTravel s n j v o != .none && transitError s.tick

/-- An engine operation has travelled as far as it must: what `rtfill` completes goes through the fill port (R90). -/
def arrived (s : State) (n j : Nat) (v : Via) (o : Op) : Bool := o.stage == 2 || o.filled != 0 || engineTravel s n j v o == .none

/-! The VQ (R200). -/

/-- What an operation of the VQ does in one part: its state and flags, or the cause and engine status word of its failure (R200, R288, R300). -/
def vqAll (s : State) (n j : Nat) (k : OpKind) : Except (Byte × Word) (State × BitVec 5) :=
  match floeHandle k with
  | some h => (floeBody s n j k).mapError (fun e => (e.1, floeWord e h))
  | none =>
    match vqBody s n j k with
    | .ok s => .ok (s, 0#5)
    | .error i => .error (cIndex, faultWord cIndex 0 i)

/-! Parts (R201): between two of them a later pipe instruction may be executed, so that it falls before or after the operation lane by lane. -/

/-- Accumulator rows that a VQ operation reads. -/
def vqSources : OpKind → List Nat
  | .vst row _ k => (List.range k).map (fun i => (row + i) % 1024)
  | .vstq row _ _ k => (List.range k).map (fun i => (row + i) % 1024)
  | .vgat _ a _ _ => [a]
  | .vsct d a _ _ => [d, a]
  | .vperm _ a b _ => [a, b]
  | _ => []

/-- The accumulator rows that a load of rows writes, with the scratchpad offset of each one's bytes. -/
def vqLoads (s : State) (n j : Nat) : OpKind → List (Nat × Nat)
  | .vld row off k => (List.range k).map (fun i => ((row + i) % 1024, off + 512 * i))
  | .vldq row q p k => (List.range k).map (fun i => ((row + i) % 1024, slotAt s n j q (p + i)))
  | _ => []

/-- The accumulator row that a VQ operation other than a load computes. -/
def vqDest : OpKind → Option Nat
  | .vgat d _ _ _ => some d
  | .vperm d _ _ _ => some d
  | .flsize d _ _ => some d
  | _ => none

/-- An operation that reads or writes accumulator rows can be performed in parts. -/
def vqSplits (s : State) (n j : Nat) (k : OpKind) : Bool := !(vqSources k).isEmpty || !(vqLoads s n j k).isEmpty || (vqDest k).isSome

/-- A row whose lanes are those of one row where a condition holds, and of another where it does not. -/
def mixRow (w : Nat) (p : Nat → Bool) (x y : List Byte) : List Byte := (List.zip x y).zipIdx.map (fun e => if p (e.2 / w) then e.1.1 else e.1.2)

/-- Bytes of an accumulator row. -/
def rowBytes (s : State) (n r : Nat) : List Byte := memReadN s.mem (rowAt n r) 512
def setRow (s : State) (n r : Nat) (l : List Byte) : State := { s with mem := memWrite s.mem (rowAt n r) l }

/-- The width of the lanes of a row of a job. -/
def rowW (s : State) (n j r : Nat) : Nat := laneW (rowCode (jobOf s n j) r)

/-- The lanes of row r that hold the w bytes of field i of the row. -/
def fieldLanes (s : State) (n j r w i : Nat) : List (Nat × Nat) :=
  let v := rowW s n j r
  (List.range ((i * w + w - 1) / v + 1 - i * w / v)).map (fun k => (r, i * w / v + k))

/-- The lanes of a row of a job. -/
def rowLanes (s : State) (n j r : Nat) : List (Nat × Nat) := (List.range (512 / rowW s n j r)).map (fun l => (r, l))

/-- An operation's source rows as it reads them: the lanes that have gone as they were read, the others as they stand. -/
def vqSeen (s : State) (n j : Nat) (o : Op) : List (List Byte) :=
  (vqSources o.kind).zipIdx.map (fun e => mixRow (rowW s n j e.1) (fun l => o.gone.contains (e.1, l)) (o.read.getD e.2 (rowBytes s n e.1)) (rowBytes s n e.1))

/-- The state as an operation of the VQ reads it. -/
def vqView (s : State) (n j : Nat) (o : Op) : State := (List.zip (vqSources o.kind) (vqSeen s n j o)).foldl (fun t e => setRow t n e.1 e.2) s

/-- The lanes of source rows on which lane l of an operation's destination row depends: its index, and for vperm the lane that it names (R211, R214). -/
def laneNeeds (s : State) (n j : Nat) (k : OpKind) (l : Nat) : List (Nat × Nat) :=
  match k with
  | .vgat _ a _ w => fieldLanes s n j a w l
  | .vperm _ a b w => fieldLanes s n j b w l ++ fieldLanes s n j a w ((readRow s n b w).getD l 0 % (512 / w))
  | _ => []

/-- The lanes of a destination row d that may go in a part, of some that are named: what such a lane needs of another row has been read, and every lane that would be computed from what it holds now goes with it. -/
def destPicks (view : State) (n j : Nat) (o : Op) (d : Nat) (read named : List (Nat × Nat)) : List (Nat × Nat) :=
  let ok (l : List (Nat × Nat)) (e : Nat × Nat) : Bool :=
    (laneNeeds view n j o.kind e.2).all (fun x => x.1 == d || read.contains x)
      && (rowLanes view n j d).all (fun y => y == e || o.gone.contains y || l.contains y || !(laneNeeds view n j o.kind y.2).contains e)
  named.foldl (fun l _ => l.filter (ok l)) named

/-- The lanes of its rows that have gone once an operation's next part is done: those that the free value names, of a destination row as far as they may go, and none while its check fails (R200, R201). -/
def vqPicks (s : State) (n j : Nat) (o : Op) : List (Nat × Nat) :=
  let named := (vqSources o.kind ++ (vqLoads s n j o.kind).map (·.1) ++ (vqDest o.kind).toList).flatMap (fun r =>
    (rowLanes s n j r).filter (fun e => !o.gone.contains e && Config.vqLane s.tick e.1 e.2))
  match vqDest o.kind with
  | none => o.gone ++ named
  | some d =>
    let view := vqView s n j o
    let read := o.gone ++ named.filter (fun e => e.1 != d)
    match vqAll view n j o.kind with
    | .ok _ => read ++ destPicks view n j o d read (named.filter (fun e => e.1 == d))
    | .error _ => read

/-- Of the rows that a load of rows writes, the lanes where a condition holds are loaded. -/
def loadLanes (s : State) (n j : Nat) (o : Op) (p : Nat → Nat → Bool) : State :=
  (vqLoads s n j o.kind).foldl (fun t e => setRow t n e.1 (mixRow (rowW t n j e.1) (p e.1) (spRead t n e.2 512) (rowBytes t n e.1))) s

/-- The lanes of a destination row where a condition holds take their values from a state; the others keep what they hold. -/
def destLanes (s t : State) (n j : Nat) (o : Op) (p : Nat → Nat → Bool) : State :=
  match vqDest o.kind with
  | none => s
  | some d => setRow s n d (mixRow (rowW s n j d) (p d) (rowBytes t n d) (rowBytes s n d))

/-- A part of an operation: of the rows that it writes, the lanes that go now are written; of rows that it reads, what they hold now is kept. -/
def vqPart (s : State) (n j : Nat) (o : Op) : State :=
  let g := vqPicks s n j o
  let now (r l : Nat) : Bool := g.contains (r, l) && !o.gone.contains (r, l)
  let t := loadLanes s n j o now
  let t := match vqAll (vqView s n j o) n j o.kind with | .ok r => destLanes t r.1 n j o now | .error _ => t
  modJob t n j (fun b => replaceOp b .vq { o with stage := 1, gone := g, read := vqSeen s n j o })

/-- The rest of an operation: the lanes still to be loaded, or its effect with the lanes that have gone as they were then. -/
def vqRest (s : State) (n j : Nat) (o : Op) : Except (Byte × Word) (State × BitVec 5) :=
  let left (r l : Nat) : Bool := !o.gone.contains (r, l)
  if !(vqLoads s n j o.kind).isEmpty then .ok (loadLanes s n j o left, 0#5)
  else
    (vqAll (vqView s n j o) n j o.kind).map (fun r =>
      let u := (vqSources o.kind ++ (vqDest o.kind).toList).foldl (fun u d => setRow u n d (rowBytes s n d)) r.1
      (destLanes u r.1 n j o left, r.2))

/-- The operation at the head of the VQ is performed. -/
def vqPerform (s : State) (n j : Nat) (o : Op) : State :=
  let out (s : State) : State := modJob s n j (fun b => removeOp b .vq o.seq)
  match (if o.stage = 0 then vqAll s n j o.kind else vqRest s n j o) with
  | .ok (s, f) => setFlags (out s) (.stream n j .v) f
  | .error e => engineFault (out s) n j .v { cause := e.1, cmd := o.cmd, status := e.2 }

/-- The first operation of a queue that no fence holds. -/
def freeHead (b : Job) (q : Queue) (l : List Op) : Option Op :=
  (l.find? (fun o => o.parked == 0 && (match o.kind with | .record _ _ _ => false | _ => true))).filter (fun o => !heldByFence b q o)

/-- VQ_OPERATION_PERFORMED (R200, R201): a part of the operation, or the rest of it. -/
def execVqOperationPerformed (n : CoreNo) (s : State) : Result :=
  match (coreOf s n.toNat).active with
  | none => .next s
  | some j =>
    match freeHead (jobOf s n.toNat j) .vq (jobOf s n.toNat j).vq with
    | none => .next s
    | some o => .next (if vqSplits s n.toNat j o.kind && vqParts s.tick then vqPart s n.toNat j o else vqPerform s n.toNat j o)

/-! Copies (R235, R243). -/

/-- A completion record is written and TAIL moves on, where its queue has a free slot (R243). -/
def putRecord (s : State) (n j : Nat) (h : Handle) (idx : BitVec 32) (m : Nat) : Option State :=
  let d := descOf s n j h
  if qFree d < 1 then none
  else
    let s := spWrite s n (qSlot d d.tail) (leBytes 4 idx.toNat ++ leBytes 4 m ++ zeros (qSize d - 8))
    some (setTail s n j h ((d.tail + 1) % (2 * qCount d)))

/-- A record of a queue waits already. -/
def recordWaits (b : Job) (h : Handle) : Bool :=
  (b.xvq ++ b.xhq).any (fun o => match o.kind with | .record g _ _ => g == h | _ => false)

/-- A user interrupt of a job can be delivered (R247). -/
def userReady (b : Job) : Bool :=
  (b.pend &&& ~~~b.uimask) != 0#8 && b.suspending.isNone && !b.inh && b.traps.isEmpty && !b.sv && b.streams.c.run != .ended && b.streams.c.run != .stopped

/-- The armed action of a performed copy is delivered (R243, R249). -/
def deliverAction (s : State) (n : Nat) (w : Who) (job : Option Nat) (c : Copy) (r : Armed) : State :=
  match r.act with
  | .none => s
  | .decrement =>
    match namedTask s w.p w.c r.operand with
    | some k => modLaunch s w.p w.c (fun la => decTask la k)
    | none => s
  | .interrupt =>
    match job with
    | some j =>
      let s := modJob s n j (fun b => { b with pend := b.pend ||| BitVec.ofNat 8 (2 ^ bitsAt r.operand 0 3) })
      -- a `wfi` of the C stream ends only where the interrupt can be delivered (R177)
      wakeWfi s n j (fun t => t == .c && userReady (jobOf s n j))
    | none => s
  | .arrival =>
    if c.form == .rem && c.pkg != pkgid.toNat then s
    else txbArrive s (bitsAt r.operand 4 8) w.c (bitsAt r.operand 0 4) (copyBytes c)

/-- A job's copy has been performed: its m, its follow-on words, its action and its record (R240, R243, R244). -/
def copyDone (s : State) (n j : Nat) (q : Queue) (v : Via) (o : Op) (m : Nat) : State :=
  match o.kind with
  | .copy c ar fo =>
    let s := modJob s n j (fun b => removeOp b q o.seq)
    let s := modStream s (xAgent n j) (fun st => { st with maxM := max st.maxM m })
    let s := takeFollow s n j fo
    match ar with
    | none => s
    | some r =>
      let s := deliverAction s n v.who (some j) c r
      match r.record with
      | none => s
      | some h =>
        let wait := modJob s n j (fun b => setQueue b q (queueOf b q ++ [{ o with kind := .record h o.cmd m, names := [h], parked := 0, stage := 0, done := 0 }]))
        if recordWaits (jobOf s n j) h then wait else (putRecord s n j h o.cmd m).getD wait
  | _ => s

/-- A job's copy fails: its action is dropped, and so are the follow-on words of it (R235, R240). -/
def copyFails (s : State) (n j : Nat) (q : Queue) (o : Op) (f : EFault) : State :=
  let s := modJob s n j (fun b => { removeOp b q o.seq with
    lastCopy := match b.lastCopy with | some (k, e) => some (k, e || k == o.seq) | none => none })
  engineFault s n j .x f

/-- What performing a job's copy gave is taken into the state. -/
def copyEnd (s0 : State) (n j : Nat) (q : Queue) (v : Via) (o : Op) : Perf → State
  | .done s =>
    let m := match o.kind with | .copy c _ _ => if copyHbm s0 v c then max (servedM s0.tick) (max o.rotations (recallM s0 s)) else 0 | _ => 0
    copyDone s n j q v o m
  | .park s o => modJob s n j (fun b => replaceOp b q o)
  | .hold s o => modJob s n j (fun b => replaceOp b q o)
  | .fault s f => copyFails s n j q o f
  | .suspend s _ _ _ _ => s

/-- The port of a route is up (R322). -/
def portUp (s : State) (pkg : Nat) : Bool :=
  match tfind s.routes pkg with
  | some t => (tget {} s.ports t).enabled && !(tget {} s.ports t).down
  | none => false

/-- Destination package and address of a remote store. -/
def remoteTo (o : Op) : Nat × Word :=
  match o.kind with
  | .copy c _ _ => (c.pkg, c.dst)
  | _ => (0, 0#64)

/-- The next remote store that may leave: every earlier operation of the XHQ is one already sent to the same package (R103, R114). -/
def nextRemote (b : Job) : Option Op :=
  let l := b.xhq.filter (fun o => o.parked == 0 && (match o.kind with | .record _ _ _ => false | _ => true))
  match l.find? (fun o => !(isRemote o && o.stage == 1)) with
  | some o =>
    if isRemote o && !heldByFence b .xhq o && l.all (fun q => o.seq ≤ q.seq || (remoteTo q).1 == (remoteTo o).1) then some o else none
  | none => none

/-- The first unit of a remote store whose source does not lie in scratchpad (R72, R235), and how many units it has. -/
def remoteUnits (o : Op) : Option Nat × Nat :=
  match o.kind with
  | .copy c _ _ => (remoteBad c, rowUnits c)
  | _ => (none, 1)

/-- A remote store fails at a unit (R235, R300). -/
def remoteFails (s : State) (n j : Nat) (o : Op) (cause : Byte) (unit : Nat) (faddr : Word) : State :=
  copyFails s n j .xhq o { cause := cause, cmd := o.cmd, status := unitWord cause 0 unit, faddr := faddr }

/-- A remote store leaves, or fails: where its source ends (R72, R235), or at a port that is down (R322). -/
def sendRemote (s : State) (n j : Nat) (o : Op) : State :=
  match (remoteUnits o).1 with
  | some i => remoteFails s n j o cXlatPerm i 0#64
  | none =>
    if portUp s (remoteTo o).1 then modJob s n j (fun b => replaceOp b .xhq { o with stage := 1 })
    else remoteFails s n j o cDataUe 0 (remoteTo o).2

/-- A job's copy at the head of its queue that changes nothing an earlier copy of the stream has still to read, and reads nothing that an earlier parked one of the queue has (R100). -/
def clearCopy (s : State) (n j : Nat) (q : Queue) : Option Op :=
  let b := jobOf s n j
  (freeHead b q (queueOf b q)).filter (fun o => !isRemote o && !overwrites s n j (unread b) o && !passesReads s n j q o)

/-- A job's copy that may be performed now. -/
def copyHead (s : State) (n j : Nat) (q : Queue) : Option Op := (clearCopy s n j q).filter (fun o => arrived s n j (copyVia s n j q o) o)

/-- An A operation at the head of the AQ that changes, and reads, nothing that an earlier parked one has still to read (R100). -/
def clearA (s : State) (n j : Nat) : Option Op :=
  let b := jobOf s n j
  (freeHead b .aq b.aq).filter (fun o => !overwrites s n j b.aq o && !passesReads s n j .aq o)

/-- The remote store that may leave now (R100). -/
def clearRemote (s : State) (n j : Nat) : Option Op := (nextRemote (jobOf s n j)).filter (fun o => !passesReads s n j .xhq o)

/-- A step of a job's copy queue: a command performed, or a remote store sent. -/
def copyStep (s : State) (n j : Nat) (q : Queue) : Option State :=
  match copyHead s n j q with
  | some o => let v := copyVia s n j q o; some (copyEnd s n j q v o (copyPerform s n j v o))
  | none => if q == .xhq then (clearRemote s n j).map (sendRemote s n j) else none

/-! Intake queues (R248, R249). -/

/-- An intake fault is reported (R249, R316): the latest one stands in IQERR; a violation also freezes the serving core. -/
def intakeFault (s : State) (p n q idx : Nat) (cause : Byte) (freeze : Bool) : State :=
  let s := partEvent (modPart s p (fun x => { x with iqerr := w64 (idx % 2 ^ 32 * 2 ^ 32 + cause.toNat * 256 + q) })) p 3
  if !freeze then s
  else match (coreOf s n).active with
    | some j => freezeCore s n j false
    | none => partEvent (modCore s n (fun c => { c with frozen := true })) p 0

/-- The first intake command of a core that is not parked. -/
def intakeHead (s : State) (n : Nat) : Option Op :=
  ((coreOf s n).intake.find? (fun o => o.parked == 0)).filter (fun o => arrived s n 0 (copyVia s n 0 .xhq o) o)

def intakeMod (s : State) (n : Nat) (f : List Op → List Op) : State := modCore s n (fun c => { c with intake := f c.intake })

/-- The completion word of a performed intake command is written (R249). One that parks keeps no flags: they have been raised (R127). -/
def intakeWord (s : State) (v : Via) (o : Op) : Perf :=
  match o.kind with
  | .copy c ar fo =>
    match ar.bind (·.word) with
    | none => .done s
    | some (va, i) =>
      match spaceWrite s v .va va.toNat (leBytes 8 i) with
      | (s, .ok _) => .done s
      | (s, .error e) => endBy s v { o with kind := .copy { c with fl := 0#5 } ar fo } (copyUnits c) true (reachedHbm s v (unitReads c) (unitWrites c) (copyUnits c) false e) e
  | _ => .done s

/-- What becomes of an intake command that is performed but for its action. -/
def intakeTook (n : Nat) (v : Via) (o : Op) : Perf → State
  | .done s =>
    let s := intakeMod s n (·.filter (fun x => x.seq != o.seq))
    match o.kind with
    | .copy c (some r) _ => deliverAction s n v.who none c r
    | _ => s
  | .park s o => intakeMod s n (·.map (fun x => if x.seq == o.seq then o else x))
  | .hold s o => intakeMod s n (·.map (fun x => if x.seq == o.seq then o else x))
  | .fault s f =>
    let (q, idx, _) := o.intake.getD (0, 0, 0)
    intakeFault (intakeMod s n (·.filter (fun x => x.seq != o.seq))) v.who.p n q idx f.cause f.freeze
  | .suspend s _ _ _ _ => s

/-- What performing an intake command gave is taken into the state. -/
def intakeEnd (n : Nat) (v : Via) (o : Op) (r : Perf) : State :=
  intakeTook n v o (match r with | .done s => intakeWord s v o | r => r)

/-- The head of a core's intake commands is performed. -/
def intakeStep (s : State) (n : Nat) : Option State :=
  match intakeHead s n with
  | some o => let v := copyVia s n 0 .xhq o; some (intakeEnd n v o (copyPerform s n 0 v o))
  | none => none

/-- A job's copy step, where the core holds an active job. -/
def jobCopyStep (s : State) (n : Nat) (q : Queue) : Option State :=
  match (coreOf s n).active with
  | some j => copyStep s n j q
  | none => none

/-- The first of two that is something. -/
def firstOf (x y : Option State) : Option State := match x with | some z => some z | none => y

/-- COPY_COMMAND_PERFORMED (R235): a command of a queue is performed, or a remote store leaves; in the XHQ the job's and the intake queues' commands are not ordered, and which comes first is open (R249). -/
def execCopyCommandPerformed (n : CoreNo) (q : XQueue) (s : State) : Result :=
  match q with
  | .xvq => .next ((jobCopyStep s n.toNat .xvq).getD s)
  | .xhq =>
    let a := jobCopyStep s n.toNat .xhq
    let b := intakeStep s n.toNat
    .next ((if intakeFirst s.tick then firstOf b a else firstOf a b).getD s)

/-- COMPLETION_RECORD (R243): the oldest record that waits for a queue with a free slot now is written, once no earlier copy has still to read that slot (R100). -/
def recordStep (s : State) (n j : Nat) : Option State :=
  let b := jobOf s n j
  (b.xvq ++ b.xhq).findSome? (fun o =>
    match o.kind with
    | .record h i m => if overwrites s n j (unread b) o then none else (putRecord s n j h i m).map (fun s => modJob s n j (fun b => removeOp (removeOp b .xvq o.seq) .xhq o.seq))
    | _ => none)

/-- COMPLETION_RECORD (R243). -/
def execCompletionRecord (n : CoreNo) (s : State) : Result :=
  match (coreOf s n.toNat).active with
  | some j => .next ((recordStep s n.toNat j).getD s)
  | none => .next s

/-- REMOTE_STORE_ACK (R114, R242): the oldest remote store that has left is performed, or its acknowledgement carries a destination fault. -/
def execRemoteStoreAck (n : CoreNo) (cause : Byte) (s : State) : Result :=
  match (coreOf s n.toNat).active with
  | none => .next s
  | some j =>
    match (jobOf s n.toNat j).xhq.find? (fun o => isRemote o && o.stage == 1) with
    | none => .next s
    | some o =>
      if cause = 0#8 then .next (copyDone s n.toNat j .xhq (copyVia s n.toNat j .xhq o) o 0)
      else if cause == cXlatMiss || cause == cXlatPerm || cause == cDataUe then
        -- which unit failed the destination says (R114): open here
        let i := remoteUnit s.tick % (remoteUnits o).2
        .next (remoteFails s n.toNat j o cause i ((remoteTo o).2 + w64 (64 * i)))
      else .next s

/-- A packet's ext word as xcpy, xcp2 or xcvt would have it, with both spaces 0 (R238, R248). -/
def packetExtOk (cmd ext : Nat) : Bool :=
  if cmd = 2 then
    let e := BitVec.ofNat 32 ext
    ext % 65536 == 0 && ext / 2 ^ 28 == 0
      && xcvtPairOk (e.extractLsb' 24 4) (e.extractLsb' 20 4) (Rounding.ofBits (e.extractLsb' 18 2)) (e.extractLsb' 17 1) (e.extractLsb' 16 1)
  else ext == 0

/-- The copy of an intake packet, where the packet is well formed (R248). -/
def parsePacket (l : List Byte) : Option Copy :=
  let f (o n : Nat) : Nat := fieldAt l o n
  let cmd := f 1 1
  let act := f 2 1
  let ext := f 4 4
  let e := BitVec.ofNat 32 ext
  if 2 < cmd ∨ 4 < act ∨ act = 2 ∨ f 3 1 ≠ 0 ∨ f 56 8 ≠ 0 ∨ !packetExtOk cmd ext ∨ (act = 4 ∧ f 32 8 % 8 ≠ 0) then none
  else
    let c : Copy := { form := if cmd = 0 then .cpy else if cmd = 1 then .cp2 else .cvt, src := w64 (f 8 8), dst := w64 (f 16 8), len := f 24 4
                      seed := BitVec.ofNat 32 (f 28 4) }
    if cmd = 1 then some { c with len := f 40 4, shape := [f 40 4, f 44 4, 1, toInt 32 (f 48 4), toInt 32 (f 52 4), 0, 0] }
    else if cmd = 2 then some { c with
      st := (e.extractLsb' 24 4).toNat, dt := (e.extractLsb' 20 4).toNat, rm := Rounding.ofBits (e.extractLsb' 18 2)
      sr := e.getLsbD 17, sat := e.getLsbD 16 }
    else some c

/-- The action of an intake packet (R248). -/
def packetAction (l : List Byte) (idx : Nat) : Armed :=
  let v := w64 (fieldAt l 32 8)
  match fieldAt l 2 1 with
  | 1 => { act := .decrement, operand := v }
  | 3 => { act := .arrival, operand := v }
  | 4 => { word := some (v, idx) }
  | _ => {}

/-- An access to a header or a packet that could not be made: it waits behind a ring entry of its own, or is reported (R90, R249). -/
def intakeStop (s : State) (v : Via) (q idx : Nat) (write : Bool) (e : VErr) : State :=
  let post (va : Word) (kind : Nat) : State :=
    if (ringBehind s v va).isSome then s
    else match ringPost s v.who.p v.who.c (ringFor v va kind write (BitVec.ofNat 32 idx)) with
      | some (s, _) => s
      | none => intakeFault s v.who.p v.n q idx cXlatMiss false
  match e with
  | .miss va => post va 1
  | .wpw va => post va 2
  | .busy => s
  | .fault c fz _ => intakeFault s v.who.p v.n q idx c fz

/-- The command of a packet is issued, or its breach reported (R248, R249). -/
def issuePacket (s : State) (p n c q idx : Nat) (l : List Byte) : State :=
  match parsePacket l with
  | none => intakeFault s p n q idx cIllegal false
  | some cp =>
    let r := packetAction l idx
    if r.act == .arrival && !(partOf s p).pgran.getLsbD (bitsAt r.operand 4 8 / 16) then intakeFault s p n q idx cXlatPerm false
    else intakeMod s n (· ++ [{ kind := .copy cp (some r) [], sid := .x, cmd := BitVec.ofNat 32 idx, seq := idx * 4 + q, intake := some (q, idx, c) }])

/-- A packet is taken: its command is issued or its breach reported, then READY and RIDX are written (R249). -/
def takePacket (s : State) (v : Via) (q : Nat) (hdr pkt : Word) (idx : Nat) (l : List Byte) : State :=
  match vaCheck s v.who .write pkt 1, vaCheck s v.who .write (hdr + 8#64) 8 with
  | some e, _ => intakeStop (walked s v.who pkt) v q idx true e
  | none, some e => intakeStop (walked s v.who (hdr + 8#64)) v q idx true e
  | none, none =>
    let put (s : State) (va : Word) (l : List Byte) : State :=
      match vaWrite s v.who va l with | (s, .ok _) => s | (s, .error e) => intakeStop s v q idx true e
    let s := issuePacket s v.who.p v.n v.who.c q idx l
    put (put s pkt [0#8]) (hdr + 8#64) (leBytes 8 (idx + 1))

/-- Intake commands of a core that have not left their queue (R235). -/
def intakeCount (s : State) (n : Nat) : Nat := ((coreOf s n).intake.filter (fun o => o.parked == 0)).length

/-- INTAKE_PACKET_TAKE (R249): the serving core takes the packet at RIDX of a bound queue once its READY byte is 1 and fewer than 64 intake commands are outstanding (R235); an error on the mesh or the seam that strikes its reads shows in IQERR (R17; log entry 12). -/
def execIntakePacketTake (p : PartNo) (q : BitVec 2) (s : State) : Result :=
  let hdrReg := tget 0#64 (partOf s p.toNat).iqhdr q.toNat
  let n := (tget 0#8 (partOf s p.toNat).iqcore q.toNat).toNat
  let hdr := hdrReg &&& 0x00FFFFFFFFFFFFC0#64
  if !hdrReg.getLsbD 0 || !(partOf s p.toNat).pgran.getLsbD (n / 16) || (coreOf s n).frozen || 64 ≤ intakeCount s n then .next s
  else match (coreOf s n).ctx with
    | none => .next s
    | some c =>
      let v : Via := { who := { deviceWho p.toNat c with core := some n }, n := n, slot := 0, node := 0x3FF, q := .xhq, sid := .x, intake := true }
      if transitError s.tick then .next (intakeStop s v q.toNat 0 false (.fault cDataUe false hdr))
      else match vaRead s v.who hdr 64 with
      | (s, .error e) => .next (intakeStop s v q.toNat 0 false e)
      | (s, .ok h) =>
        let idx := fieldAt h 8 8
        let arr := w64 (fieldAt h 16 8)
        let lg := fieldAt h 24 1
        if lg < 4 ∨ 16 < lg ∨ arr.toNat % 64 ≠ 0 ∨ fieldAt h 25 39 ≠ 0 then .next (intakeFault s p.toNat n q.toNat idx cIllegal false)
        else
          let pkt := arr + w64 (idx % 2 ^ lg * 64)
          match vaRead s v.who pkt 64 with
          | (s, .error e) => .next (intakeStop s v q.toNat idx false e)
          | (s, .ok l) => if fieldAt l 0 1 ≠ 1 then .next s else .next (takePacket s v q.toNat hdr pkt idx l)

/-! Suspension and forced pre-emption (R229, R303, R308). -/

/-- An operation of a job has begun writing and has still to be completed: units of it are done and it waits for a busy tile (R71, R308). -/
def begunUnits (b : Job) : Bool :=
  (b.aq ++ b.xvq ++ b.xhq).any (fun o => o.parked == 0 && o.done != 0 && (match o.kind with | .record _ _ _ => false | _ => true))

/-- The operation of the VQ that stands in the middle is completed (R201, R308). -/
def finishVq (s : State) (n j : Nat) : State :=
  match (jobOf s n j).vq.find? (fun o => o.stage == 1) with
  | some o => vqPerform s n j o
  | none => s

/-- The head of the LQ or SQ of a job is performed without further travel, where it may be. -/
def drainC (s : State) (n j : Nat) : Option State :=
  let b := jobOf s n j
  match (headOp b.lq).filter (fun o => lqReady s n j o && !performsAlone o.kind && !waitsForTile s o) with
  | some o => some (moveC (modJob (loadPerform s n j o true) n j (fun b => removeOp b .lq o.seq)) n j)
  | none =>
    match (headOp b.sq).filter (fun o => sqReady s n j o && !performsAlone o.kind && !waitsForTile s o) with
    | some o =>
      match sqPerform s n j o true with
      | .hold _ _ => none
      | r => some (moveC (sqEnd n j o r) n j)
    | none => none

/-- The head of the MQ runs to its end, where its slots are filled. -/
def drainM (s : State) (n j : Nat) : Option State :=
  match (jobOf s n j).mq with
  | [] => none
  | o :: _ =>
    let go (r : Result) (s : State) : State := match r with | .next s => s | _ => s
    let k := BitVec.ofNat 8 n
    let s1 := go (execMqOperationStart k s) s
    let steps := match o.kind with | .product _ _ _ _ _ _ w _ _ => kSteps w | _ => 0
    let s2 := (List.range steps).foldl (fun s _ => if (jobOf s n j).mq.any (fun x => x.seq == o.seq) then go (execMatrixStep k s) s else s) s1
    let s3 := if (jobOf s2 n j).mq.any (fun x => x.seq == o.seq) then go (execMqOperationPerformed k s2) s2 else s2
    if (jobOf s3 n j).mq.any (fun x => x.seq == o.seq) then none else some s3

/-- The access of an engine operation: a job's or an intake queue's. -/
def engineVia (s : State) (n j : Nat) (q : Queue) (o : Op) : Via := if q == .aq then jobVia s n j .aq .a else copyVia s n j q o

/-- Some byte of what an engine operation has brought or asked for lies in HBM when its first outstanding request fails on the way (R81). -/
def failHbm (s : State) (n j : Nat) (v : Via) (o : Op) : Bool :=
  engineTravel s n j v o == .calendar
    || match o.kind with
      | .copy c _ _ => reachedHbm s v (unitReads c) (unitWrites c) o.done false .busy
      | k => reachedHbm s v (aSide s n j k) (fun _ => []) o.done false .busy

/-- What an engine operation gives when its first outstanding request fails on the way (R17, R93): uncorrectable data, with the m of what went to HBM, the rotations of recalls among it (R78, R81, R300). -/
def engineFailure (s : State) (n j : Nat) (v : Via) (o : Op) : Perf :=
  let m := if failHbm s n j v o then servedM s.tick else 0
  recallMark s o (.fault s { cause := cDataUe, cmd := o.cmd, status := unitWord cDataUe m o.done, faddr := (firstVa s n j o).getD 0#64 })

/-- The head of the AQ is performed, unless it would suspend the job; its requests may fail on the way (R17). -/
def drainA (s : State) (n j : Nat) : Option State :=
  match clearA s n j with
  | none => none
  | some o =>
    let v := engineVia s n j .aq o
    match if engineStruck s n j v o then engineFailure s n j v o else aPerform s n j o with
    | .done s => some (modJob s n j (fun b => removeOp b .aq o.seq))
    | .park s o => some (modJob s n j (fun b => replaceOp b .aq o))
    | .fault s f => some (engineFault (modJob s n j (fun b => removeOp b .aq o.seq)) n j .a f)
    | _ => none

/-- The head of a copy queue is performed, its requests perhaps failing on the way (R17); a remote store to another package leaves (R303). -/
def drainX (s : State) (n j : Nat) (q : Queue) : Option State :=
  match clearCopy s n j q with
  | none => if q == .xhq then (clearRemote s n j).map (sendRemote s n j) else none
  | some o =>
    let v := copyVia s n j q o
    match if engineStruck s n j v o then engineFailure s n j v o else copyPerform s n j v o with
    | .hold _ _ => none
    | r => some (copyEnd s n j q v o r)

/-- The head of the VQ is performed. -/
def drainV (s : State) (n j : Nat) : Option State :=
  let b := jobOf s n j
  (freeHead b .vq b.vq).map (vqPerform s n j)

/-- One more operation of a job is completed, where one can be. -/
def drainOne (s : State) (n j : Nat) : Option State :=
  firstOf (drainC s n j) (firstOf (drainA s n j) (firstOf (drainV s n j) (firstOf (drainM s n j)
    (firstOf (drainX s n j .xvq) (firstOf (drainX s n j .xhq) (recordStep s n j))))))

/-- Operations are completed until none can be; the fuel bounds their number. -/
def drainJob (s : State) (n j : Nat) : Nat → State
  | 0 => s
  | k + 1 =>
    match drainOne s n j with
    | some s => drainJob s n j k
    | none => s

/-- The INDEX entry of a suspended job is posted, or waits for a free place (R229). -/
def postIndex (s : State) (n j : Nat) (b : Job) (cmd : BitVec 32) : State :=
  match ringPost s b.part b.ctx { va := 0#64, kind := 4, pend := true, write := false, sid := 1, slot := j, ctx := b.ctx, queue := 2
                                  core := n, node := b.node, cmd := cmd, seq := 0#32 } with
  | some (s, _) => s
  | none => modPart s b.part (fun q => { q with ringWait := q.ringWait ++ [(n, j, b.ctx)] })

/-- More than the operations that a job has still to complete, with what their completion adds. -/
def drainFuel (b : Job) : Nat :=
  4 * (allOps b).length + b.flw.length + ((b.xvq ++ b.xhq).foldl (fun z o => z + (match o.kind with | .copy _ _ l => l.length | _ => 0)) 0) + 1

/-- Performing an operation would leave it waiting for a busy tile. -/
def Perf.holds : Perf → Bool
  | .hold _ _ => true
  | _ => false

/-- An operation at the head of a queue waits for a busy tile of another core (R71). The job's own products are set aside: one that stands for slots which nothing will fill any more never frees its tile, and is saved with the job (R308). -/
def waitsForRows (s : State) (n j : Nat) : Bool :=
  let b := jobOf s n j
  let others := modJob s n j (fun b => { b with mq := [] })
  let copy (q : Queue) : Bool := match clearCopy s n j q with | some o => (copyPerform others n j (copyVia s n j q o) o).holds | none => false
  (match clearA s n j with | some o => (aPerform others n j o).holds | none => false) || copy .xvq || copy .xhq
    || ((headOp b.lq).toList ++ (headOp b.sq).toList).any (waitsForTile others)

/-- A suspension goes on (R229, R303): the job's issued operations are completed, and once no remote store of it is under way and none waits for a busy tile its cursor is written, it is saved, and its INDEX entry is posted. A violation found meanwhile has frozen the core, which then saves nothing (R304). -/
def suspendGo (s : State) (n j : Nat) : State :=
  match (jobOf s n j).suspending with
  | none => s
  | some (cause, element, value) =>
    let s := drainJob s n j (drainFuel (jobOf s n j))
    let b := jobOf s n j
    if (coreOf s n).frozen || b.xhq.any (fun o => isRemote o && o.stage == 1) || waitsForRows s n j then s
    else match b.aq.find? (fun o => o.parked == 4097) with
      | none => s
      | some o =>
        let pn := aPatternNo o.kind
        let cur : Cursor := { cause := cause, pattern := pn, cmd := o.cmd, element := element, value := value
                              pcur := match tfind b.patterns pn with | some p => p.cursor | none => 0
                              wcur := match b.window with | some w => w.cursor | none => 0
                              wpass := match b.window with | some w => w.pass | none => 0 }
        let s := saveJob (modJob s n j (fun b => { b with cursor := cur, suspending := none })) n j .suspended
        postIndex s n j b o.cmd

/-- SUSPENSION (R229, R303): every stream of the job stops at its boundary, and the suspension goes as far as it can. -/
def suspendJob (s : State) (n j : Nat) (o : Op) (cause : Byte) (element : Nat) (value : Word) : State :=
  suspendGo (modJob (toBoundary s n j) n j (fun b => { replaceOp b .aq { o with parked := 4097, filled := 0 } with suspending := some (cause, element, value) })) n j

/-- What performing an A operation gave is taken into the state (R228, R229). -/
def aEnd (n j : Nat) (o : Op) : Perf → State
  | .done s => modJob s n j (fun b => removeOp b .aq o.seq)
  | .park s o => modJob s n j (fun b => replaceOp b .aq o)
  | .hold s o => modJob s n j (fun b => replaceOp b .aq o)
  | .fault s f => engineFault (modJob s n j (fun b => removeOp b .aq o.seq)) n j .a f
  | .suspend s o c e v => if (jobOf s n j).killed then modJob s n j (fun b => removeOp b .aq o.seq) else suspendJob s n j o c e v

/-- An engine operation replaced where it stands. -/
def engineMod (s : State) (n j : Nat) (q : Queue) (o : Op) : State :=
  if o.intake.isSome then intakeMod s n (·.map (fun x => if x.seq == o.seq then o else x)) else modJob s n j (fun b => replaceOp b q o)

/-- An engine operation whose first outstanding request fails on the way takes the end of a failed operation (R17, R93, R321). -/
def engineFails (s : State) (n j : Nat) (q : Queue) (o : Op) : State :=
  let v := engineVia s n j q o
  let r := engineFailure s n j v o
  if q == .aq then aEnd n j o r
  else if o.intake.isSome then intakeEnd n v o r
  else copyEnd s n j q v o r

/-- AQ_OPERATION_PERFORMED (R228, R229). -/
def execAqOperationPerformed (n : CoreNo) (s : State) : Result :=
  match (coreOf s n.toNat).active with
  | none => .next s
  | some j =>
    match (clearA s n.toNat j).filter (arrived s n.toNat j (jobVia s n.toNat j .aq .a)) with
    | none => .next s
    | some o => .next (aEnd n.toNat j o (aPerform s n.toNat j o))

end Sys2Proof.Machine
end

