-- ==== Sys2Proof/Machine/Sys.lean ====
section
/-! DEFINITION. The SYS group (R190 to R194): traps and returns, the retry ring, `resume`, `kill` and `tlbinv`. -/

namespace Sys2Proof.Machine

open Sys2Proof.Config

/-! Traps and returns (R190, R191, R247, R298, R334). -/

/-- trap (R190). -/
def execTrap (a : Reg) (s : State) : Result :=
  issue 1 { streams := [.c], reads := [a] } s (fun s g => .trap { cause := cTrap, status := reg s g a &&& 0x7FFFFFFFFFFFFFFF#64 })

/-- sysc (R190): the restart point is the next instruction. -/
def execSysc (a : Reg) (s : State) : Result :=
  issue 1 { streams := [.c], reads := [a] } s (fun s g =>
    .trap { cause := cTrap, status := reg s g a ||| 0x8000000000000000#64, next := some ((streamOf s g).pc + 4#64) })

/-- brk (R190, R312). -/
def execBrk (s : State) : Result := issue 1 { streams := [.c] } s (fun _ _ => raise cBreak)

/-- eret (R191, R298, R334). -/
def execEret (s : State) : Result :=
  issue 1 { streams := [.c], sup := true } s (fun s g =>
    match g with
    | .mgmt => .ok (returnMgmt s) .stay
    | .stream n j _ => .ok (returnTrap s n j) .stay)

/-- uiret (R191, R247). DESIGN CHOICE (log 88): in a supervisor handler that interrupted the user handler it returns from the user handler, at the stream's level of that moment. -/
def execUiret (s : State) : Result :=
  issue 1 { streams := [.c], mgmt := false } s (fun s g =>
    let b := agentJob s g
    if !b.inh then raise cIllegal
    else .ok (modAgentJob (modStream s g releaseLoops) g (fun b => { b with inh := false })) (.ret b.uiret.pc))

/-! The retry ring (R90, R102, R192). -/

/-- A supervisor-only instruction of the C stream, with its job. -/
def supIssue (reads : List Reg) (s : State) (body : State → Nat → Nat → Job → Res) : Result :=
  issue 1 { streams := [.c], sup := true, mgmt := false, reads := reads } s (fun s g =>
    match g with
    | .mgmt => raise cIllegal
    | .stream n j _ => body s n j (jobOf s n j))

/-- The pending entry posted longest ago: sequence numbers wrap (R301). -/
def oldestEntry (q : Partition) : Option Nat :=
  (q.ring.filter (fun e => e.2.pend)).foldl (fun (best : Option (Nat × Nat)) e =>
    let age := (q.ringSeq - e.2.seq).toNat
    match best with
    | some (_, a) => if a < age then some (e.1, age) else best
    | none => some (e.1, age)) none |>.map (·.1)

/-- rtnext (R192). -/
def execRtnext (d : Reg) (s : State) : Result :=
  supIssue [] s (fun s n j b =>
    .ok (setReg s (cAgent n j) d (match oldestEntry (partOf s b.part) with | some i => w64 i | none => -1#64)) .seq)

/-- The operations of a job behind an entry, in issue order: those of an entry stand in one queue (R90, R301). -/
def parkedIn (b : Job) (i : Nat) : List Op := (allOps b).filter (fun o => o.parked == i + 1)

/-- The queue of a job in which an operation stands. -/
def whereOp (b : Job) (o : Op) : Option Queue := allQueues.find? (fun q => (queueOf b q).any (fun x => x.seq == o.seq))

/-- Performing an engine operation of a saved job gave this; one that would suspend the job waits to do so until the job is back (R229, R308). -/
def aEndSaved (n j : Nat) (o : Op) : Perf → State
  | .suspend s o' _ _ _ => modJob s n j (fun b => replaceOp b .aq { o' with filled := 0, stage := 0 })
  | r => aEnd n j o r

/-- An engine operation whose translation `rtfill` has brought is performed, unless it would change what an earlier operation of its stream is still to read, or read what an earlier parked one of its queue is: it then stands in its queue until it may be (R100, R102). -/
def fillEngine (s : State) (n j : Nat) (q : Queue) (o : Op) (isSaved : Bool) : State :=
  let b := jobOf s n j
  if overwrites s n j (if q == .aq then b.aq else unread b) o || passesReads s n j q o then modJob s n j (fun b => replaceOp b q o)
  else if engineStruck s n j (engineVia s n j q o) o then engineFails s n j q o
  else if q == .aq then (if isSaved then aEndSaved n j o (aPerform s n j o) else aEnd n j o (aPerform s n j o))
  else let v := copyVia s n j q o; copyEnd s n j q v o (copyPerform s n j v o)

/-- The completion of an operation behind an entry begins (R90, R102): an access of the C stream has its new translation and is performed in its place in the order; an engine operation is performed at once. -/
def fillOp (s : State) (n j : Nat) (q : Queue) (i : Nat) (o : Op) (isSaved : Bool) : State :=
  let go := { o with parked := 0, stage := 0, filled := i + 1 }
  let e := ((opAccess o.kind).getD (0#64, .read)).1
  let cop (q : Queue) : State :=
    let struck := opStruck s (jobOf s n j) n o
    let s := opWalked s (jobOf s n j) n o
    let out := modJob s n j (fun b => removeOp b q o.seq)
    match (if struck then .error (.fault cDataUe false e) else retranslate s (jobOf s n j) n o) with
    | .ok x => modJob s n j (fun b => replaceOp b q { x with parked := 0, stage := 0, filled := i + 1 })
    | .error (.fault c fz va) => cFault out n j o c fz va
    | .error e => cFault out n j o cXlatPerm false (addrOf e)
  match q with
  | .lq => cop .lq
  | .sq => cop .sq
  | .aq => fillEngine s n j .aq go isSaved
  | .xvq => fillEngine s n j .xvq go isSaved
  | .xhq => fillEngine s n j .xhq go isSaved
  | _ => s

/-- The completion of a job's operations behind an entry begins. Those of a saved job that began before and had to wait go on then, since no event of its core performs them. -/
def fillJob (s : State) (n j i : Nat) (isSaved : Bool) : State :=
  let each (s : State) (l : List Op) (f : State → Queue → Op → State) : State :=
    l.foldl (fun s o => match whereOp (jobOf s n j) o with | some q => f s q o | none => s) s
  let s := moveC (each s (parkedIn (jobOf s n j) i) (fun s q o => fillOp s n j q i o isSaved)) n j
  let b := jobOf s n j
  if isSaved then each s ((b.aq ++ b.xvq ++ b.xhq).filter (fun o => o.filled != 0)) (fun s q o => fillEngine s n j q o true) else s

/-- Operations of the C stream's queues are performed until none may be; the fuel bounds their number. -/
def drainCs (s : State) (n j : Nat) : Nat → State
  | 0 => s
  | k + 1 =>
    match drainC s n j with
    | some s => drainCs s n j k
    | none => s

/-- A core's window as it stood, but for what other cores hold. -/
def windowBack (old m : Memory) (n j : Nat) : Memory :=
  [(coreAt n, scratchSize), (coreAt n + accOffset, accSize), (coreAt n + descOffset + j * 0x800, 0x800), (coreAt n + recOffset + j * 0x800, 0x140)].foldl
    (fun m e => memWrite m e.1 (memReadN old e.1 e.2)) (fillScratch m n (tget 0#8 old.fills n))

/-- Something is done with a saved job as if its image stood in the core: the state, and the job after it (R308). -/
def withImage (s : State) (n j : Nat) (b : Job) (f : State → State) : State × Job :=
  let sl := slotOf (coreOf s n) j
  let t := f (modJob (if sl.intact then s else readImage s n j b) n j (fun _ => b))
  let b' := jobOf t n j
  let t := writeImage t n j b'
  let t := if sl.intact then t else { t with mem := windowBack s.mem t.mem n j }
  (modJob t n j (fun _ => sl.job), b')

/-- A saved job's operations behind an entry are completed into its image (R308), after those ordered before them. -/
def fillSaved (s : State) (p c key i : Nat) (b : Job) (fl : Table FloeHandle) : State :=
  let n := key / 2
  let j := key % 2
  let r := withImage s n j b (fun s => drainCs (fillJob s n j i true) n j (b.lq.length + b.sq.length + 1))
  modCtx r.1 p c (fun x => { x with saved := tset x.saved key (r.2, fl) })

/-- Probes and intake commands behind an entry go on. -/
def fillRest (s : State) (p c i : Nat) : State :=
  let s := modLaunch s p c (fun la => { la with probes := la.probes.map (fun b => if b.parked == i + 1 then { b with parked := 0 } else b) })
  (coresOf s p).foldl (fun s n =>
    ((coreOf s n).intake.filter (fun o => o.parked == i + 1)).foldl (fun s o =>
      let o := { o with parked := 0, stage := 0, filled := i + 1 }
      let v := copyVia s n 0 .xhq o
      if engineStruck s n 0 v o then engineFails s n 0 .xhq o else intakeEnd n v o (copyPerform s n 0 v o)) s) s

/-- The completion of an entry begins (R90, R102, R192). -/
def startFill (s : State) (p i : Nat) (e : RingEntry) : State :=
  let s := (coresOf s p).foldl (fun s n => [0, 1].foldl (fun s j =>
    if (jobOf s n j).part == p && !(parkedIn (jobOf s n j) i).isEmpty then fillJob s n j i false else s) s) s
  let s := (ctxOf s p e.ctx).saved.foldl (fun s k => if (parkedIn k.2.1 i).isEmpty then s else fillSaved s p e.ctx k.1 i k.2.1 k.2.2) s
  fillRest s p e.ctx i

/-- Some operation whose completion an entry began is not yet performed (R102). -/
def fillPending (s : State) (p i : Nat) : Bool :=
  let mine (o : Op) : Bool := o.filled == i + 1
  (coresOf s p).any (fun n => (coreOf s n).intake.any mine
      || [0, 1].any (fun j => (jobOf s n j).part == p && (allOps (jobOf s n j)).any mine))
    || (partOf s p).ctxs.any (fun x => x.2.saved.any (fun k => (allOps k.2.1).any mine))

/-- The first operation behind an entry. -/
def firstBehind (s : State) (p i : Nat) (e : RingEntry) : Option Op :=
  let b := jobOf s e.core e.slot
  let here := if b.part == p && b.ctx == e.ctx then parkedIn b i else []
  let away := match savedOf s p e.ctx e.core e.slot with | some (b, _) => parkedIn b i | none => []
  (here ++ away).head?

/-- Whether an entry's accesses can be completed (R192): not yet, as performed (1), or as faulted (2). The Firn's are made at user privilege (R61). -/
def fillStatus (s : State) (p i : Nat) (e : RingEntry) : Option Nat :=
  let core := if e.core < nCores then some e.core else none
  let first := firstBehind s p i e
  let user := e.kind == 3 || match first with | some o => !o.sup | none => false
  match translate s p e.ctx core e.va (if e.write then .write else .read) user with
  | .miss => none
  | .wpw _ _ => none
  | .ok pa _ =>
    match leafOf s p e.ctx core e.va.toNat with
    | some (l, _) => if l.getLsbD 9 then none else if (first.map (fun o => placeAllowed o.kind pa)).getD true then some 1 else some 2
    | none => none
  | _ => some 2

/-- An entry whose completion has begun is completed once all its accesses are performed: PEND clears, and the status is known (R102, R192). -/
def fillEnd (s : State) (p c i st : Nat) : State × Option Word :=
  if fillPending s p i then (s, none)
  else (ringMod s p c i (fun e => { e with pend := false, filling := 0 }), some (if st = 1 then 0#64 else -3#64))

/-- rtfill of an entry: the state, and the status unless it is still to wait (R102, R192). -/
def ringFill (s : State) (p : Nat) (v : Word) : State × Option Word :=
  let i := v.toNat
  match (if i < 4096 then tfind (partOf s p).ring i else none) with
  | none => (s, some (-2#64))
  | some e =>
    if !e.pend || e.kind == 4 then (s, some (-2#64))
    else if e.filling != 0 then fillEnd s p e.ctx i e.filling
    else match fillStatus s p i e with
      | none => (s, some (-1#64))
      | some st => fillEnd (startFill (modPart s p (fun q => { q with ring := tset q.ring i { e with filling := st } })) p i e) p e.ctx i st

/-- rtfill (R102, R192): it retires only after every access it completes has been performed. -/
def execRtfill (d a : Reg) (s : State) : Result :=
  supIssue [a] s (fun s n j b =>
    let r := ringFill s b.part (reg s (cAgent n j) a)
    match r.2 with
    | some st => .ok (setReg r.1 (cAgent n j) d st) .seq
    | none => .wait r.1 .waiting)

/-! resume and kill (R193, R229, R303). -/

/-- The INDEX entry of a context's job in a slot is completed (R301). -/
def clearIndex (s : State) (p c n j : Nat) : State :=
  let s := (partOf s p).ring.foldl (fun s e =>
    if e.2.pend && e.2.kind == 4 && e.2.core == n && e.2.slot == j && e.2.ctx == c then ringMod s p e.2.ctx e.1 (fun e => { e with pend := false }) else s) s
  modPart s p (fun q => { q with ringWait := q.ringWait.filter (fun e => e != (n, j, c)) })

/-- A suspended job runs on from its cursor (R193, R303): at once, or as the staged job of a core that holds an active one. -/
def resumeJob (s : State) (p n j : Nat) : State :=
  let c := (slotOf (coreOf s n) j).job.ctx
  match savedOf s p c n j with
  | none => s
  | some (b, fl) =>
    let b := { b with aq := b.aq.map (fun o => if o.parked == 4097 then { o with parked := 0, stage := 0 } else o) }
    let s := clearIndex s p c n j
    if (coreOf s n).active.isNone then restoreJob s n j b fl
    else
      let s := modCtx s p c (fun x => { x with saved := tset x.saved (n * 2 + j) (b, fl) })
      modSlot s n j (fun sl => { sl with st := .staged, resumed := true })

/-- What a killed job that no longer runs had issued to its C-stream queues is performed (R193, R292): in its order as far as it can be, and then, head by head, what waits for another event at its Firn entry, since nothing else would ever perform it; what parks is discarded. The fuel bounds the operations. -/
def drainKilled (s : State) (n j : Nat) : Nat → State
  | 0 => s
  | k + 1 =>
    let b := jobOf s n j
    let s := drainCs (moveC s n j) n j (b.lq.length + b.sq.length + 1)
    let s := modJob s n j (fun b => { b with lq := b.lq.filter outlivesKill, sq := b.sq.filter outlivesKill })
    match headOp (jobOf s n j).sq with
    | none => s
    | some o => drainKilled (sqEnd n j o (sqPerform s n j o true)) n j k

/-- kill of a slot whose job is not active (R193, R229): its task counts as complete without running. What a saved job had issued is still performed, so that its spawned tasks run on (R292); what was parked is discarded. -/
def killIdle (s : State) (p n j : Nat) : State :=
  let b := (slotOf (coreOf s n) j).job
  let s := match savedOf s p b.ctx n j with
    | some (k, _) =>
      let s := (withImage s n j (killedJob k) (fun s => drainKilled s n j (k.lq.length + k.sq.length + 1))).1
      releaseRanges (discardEntries s p n j k []) n (fun r => r.owner == (b.ctx, b.task))
    | none => s
  let s := clearIndex s p b.ctx n j
  let s := modCtx s p b.ctx (fun x => { x with saved := tdel x.saved (n * 2 + j) })
  endKilled (modSlot s n j emptySlot) p b.ctx b.task

/-- The status of a `resume` or `kill` that does not depend on the slot (R193). -/
def slotStatus (s : State) (p : Nat) (v : Word) : Option Word :=
  if 512 ≤ v.toNat then some (-2#64)
  else if !(partOf s p).pgran.getLsbD (bitsAt v 0 8 / 16) then some (-1#64)
  else none

/-- resume (R193). -/
def execResume (d a : Reg) (s : State) : Result :=
  supIssue [a] s (fun s n j b =>
    let v := reg s (cAgent n j) a
    let m := bitsAt v 0 8
    let i := bitsAt v 8 1
    match slotStatus s b.part v with
    | some e => .ok (setReg s (cAgent n j) d e) .seq
    | none =>
      if (slotOf (coreOf s m) i).st != .suspended then .ok (setReg s (cAgent n j) d (-3#64)) .seq
      else .ok (setReg (resumeJob s b.part m i) (cAgent n j) d 0#64) .seq)

/-- kill (R193): one that a handler makes of its own job ends that handler. -/
def execKill (d a : Reg) (s : State) : Result :=
  supIssue [a] s (fun s n j b =>
    let g := cAgent n j
    let v := reg s g a
    let m := bitsAt v 0 8
    let i := bitsAt v 8 1
    match slotStatus s b.part v with
    | some e => .ok (setReg s g d e) .seq
    | none =>
      match (slotOf (coreOf s m) i).st with
      | .staged => .ok (killIdle (setReg s g d 0#64) b.part m i) .seq
      | .suspended => .ok (killIdle (setReg s g d 0#64) b.part m i) .seq
      | .active => .ok (killActive (setReg s g d 0#64) m i) (if m = n ∧ i = j then .stay else .seq)
      | .drain => .ok (killActive (setReg s g d 0#64) m i) (if m = n ∧ i = j then .stay else .seq)
      | _ => .ok (setReg s g d (-3#64)) .seq)

/-! tlbinv (R89, R194). -/

/-- An entry of a TLB or translation cache that a `tlbinv` invalidates. -/
def invalidated (p c mode : Nat) (va : Nat) (e : TlbEntry) : Bool :=
  e.part == p && (if mode = 0 then e.ctx == c && e.va ≤ va && va < e.va + e.size else if mode = 1 then e.ctx == c else true)

/-- An active job's accesses that an invalidation concerns. -/
def tlbScope (p c mode : Nat) (b : Job) : Bool := b.part == p && (1 < mode || b.ctx == c)

/-- An access that cannot be performed as things stand: on a frozen core, or behind a parked one. -/
def isStuck (s : State) (n : Nat) (b : Job) (o : Op) : Bool := (coreOf s n).frozen || (b.lq ++ b.sq).any (fun q => q.parked != 0 && q.seq < o.seq)

/-- tlbinv (R194): the affected entries go; accesses that still hold a translation changed since are performed first, or take the new one where they cannot be (R94). -/
def execTlbinv (a b : Reg) (s : State) : Result :=
  supIssue [a, b] s (fun s n j job =>
    let va := (reg s (cAgent n j) a).toNat
    let mode := (reg s (cAgent n j) b).toNat
    let keep (l : List TlbEntry) : List TlbEntry := l.filter (fun t => !invalidated job.part job.ctx mode va t)
    let s := { s with
      cores := s.cores.map (fun e => (e.1, { e.2 with tlb := keep e.2.tlb }))
      dieXlat := s.dieXlat.map (fun e => (e.1, keep e.2)) }
    let each (m : Nat) : Option (Nat × Job) := match (coreOf s m).active with
      | some i => if tlbScope job.part job.ctx mode (jobOf s m i) then some (i, jobOf s m i) else none
      | none => none
    let s := (coresOf s job.part).foldl (fun s m => match each m with | some (i, _) => renewJob s m i (isStuck s m) | none => s) s
    if (coresOf s job.part).any (fun m => match each m with | some (i, _) => ((jobOf s m i).lq ++ (jobOf s m i).sq).any (isStale s (jobOf s m i) m) | none => false)
    then .wait s .waiting else .ok s .seq)

end Sys2Proof.Machine
end

