-- ==== Sys2Proof/Machine/JobLife.lean ====
section
/-! DEFINITION. The life of a job on its column: start and retirement (R30, R36, R37), delivery of traps and user interrupts (R247, R295 to R297), watchdogs (R38, R63, R311), slices and pre-emption (R22, R308, R309, R311), and what follows every step of itself. -/

namespace Sys2Proof.Machine

open Sys2Proof.Config

/-! Start and retirement. -/

/-- The slot that holds a staged job. -/
def stagedSlot (k : Core) : Option Nat := if k.slot0.st == .staged then some 0 else if k.slot1.st == .staged then some 1 else none

/-- JOB_START (R30, R32, R303): the staged job of a core that holds no active one starts; one that `resume` put back is restored from its image. -/
def execJobStart (n : CoreNo) (s : State) : Result :=
  let k := coreOf s n.toNat
  if k.frozen || k.active.isSome || k.ending then .next s
  else match stagedSlot k with
    | none => .next s
    | some j =>
      let b := (slotOf k j).job
      -- a stopped context starts nothing: its staged jobs are for the rollback to discard (R306)
      if (ctxOf s b.part b.ctx).stopped then .next s
      else if (slotOf k j).resumed then
        match savedOf s b.part b.ctx n.toNat j with
        | some (b, fl) => .next (restoreJob s n.toNat j b fl)
        | none => .next s
      else .next (startJob s n.toNat j)

/-- Every stream of a job has reached `rdv end`, with nothing raised, pending or handled (R36, R295). -/
def allEnded (b : Job) : Bool :=
  allSids.all (fun t => (b.streams.get t).run == .ended && (b.streams.get t).faults.isEmpty) && b.traps.isEmpty && !b.sv

/-- The conditions of retirement (R36, R193). -/
def canRetire (b : Job) : Bool := allEnded b && (allOps b).isEmpty && b.flw.isEmpty

/-- Arrivals that a retiring job has still to signal (R112). -/
def signalAll (s : State) (n j : Nat) : State :=
  allSids.foldl (fun s t =>
    ((streamOf s (.stream n j t)).pbars.map (·.tag)).foldl (fun s tag => signalArrival s n j tag t) s) s

/-- The pointers of persistent queues are kept for the node's next job on the column (R37). -/
def keepPointers (s : State) (n j : Nat) (b : Job) : State :=
  (List.range 32).foldl (fun s h =>
    let d := descOf s n j (BitVec.ofNat 5 h)
    if d.valid && d.persist then modCore s n (fun k => { k with persist := tset k.persist (persistKey b.ctx b.node h) (d.head, d.tail) }) else s) s

/-- Retirement (R36, R37, R51, R193). -/
def retireJob (s : State) (n j : Nat) : State :=
  let b := jobOf s n j
  let s := signalAll s n j
  let s := releaseRanges s n (fun r => r.owner == (b.ctx, b.task))
  let s := keepPointers s n j b
  let s := { s with mem := memClear s.mem (coreAt n + descOffset + j * 0x800) 0x800 }
  let s := modCore (modSlot s n j emptySlot) n (fun k => { k with active := none, forced := false })
  if b.killed then endKilled s b.part b.ctx b.task else completeTask s b.part b.ctx b.task

/-- JOB_RETIRE (R36, R37). -/
def execJobRetire (n : CoreNo) (s : State) : Result :=
  let k := coreOf s n.toNat
  match k.active with
  | none => .next s
  | some j => if k.frozen || !canRetire (jobOf s n.toNat j) then .next s else .next (retireJob s n.toNat j)

/-! Boundaries (R247, R295 to R297). -/

/-- Each stream of a job that is not stopped raises its first pending fault (R295, R296). -/
def raiseAll (s : State) (n j : Nat) : State :=
  allSids.foldl (fun s t =>
    let st := streamOf s (.stream n j t)
    if st.faults.isEmpty || heldByTrap (jobOf s n j) t || (coreOf s n).frozen then s else raisePending s n j t) s

/-- TRAP_DELIVERY (R295 to R297): pending faults are raised, and the oldest pending trap is delivered at the C stream's boundary. -/
def execTrapDelivery (n : CoreNo) (s : State) : Result :=
  let k := coreOf s n.toNat
  match k.active with
  | none => .next s
  | some j => if k.frozen || (slotOf k j).job.killed || (slotOf k j).job.suspending.isSome then .next s else .next (deliverDue (raiseAll s n.toNat j) n.toNat j)

/-- The C stream enters the user-interrupt handler (R145, R168, R247, R273); it leaves the instruction it waits in. -/
def enterUser (s : State) (n j : Nat) : State :=
  modJob s n j (fun b =>
    let b := leaveWait b .c
    let c := b.streams.c
    { b with inh := true, uiret := { pc := c.pc }, streams := b.streams.set .c (holdLoops { c with pc := b.uivec, run := .running }) })

/-- Delivery of a user interrupt (R177, R247, R273, R312): a `wfi` that it ends, and an `rdv` that all named streams have reached, retire first, and a stepped stream then takes its STEP, with the interrupt still to be delivered. -/
def deliverUser (s : State) (n j : Nat) : State :=
  let s := match (jobOf s n j).streams.c.run with
    | .inWfi _ => retire (beginInstr s (cAgent n j)) (cAgent n j) 1 .seq
    | _ => finishRdv s n j .c
  if userReady (jobOf s n j) && !(coreOf s n).frozen then enterUser s n j else s

/-- USER_INTERRUPT_DELIVERY (R247). -/
def execUserInterruptDelivery (n : CoreNo) (s : State) : Result :=
  let k := coreOf s n.toNat
  match k.active with
  | none => .next s
  | some j => if k.frozen || !userReady (jobOf s n.toNat j) then .next s else .next (deliverUser s n.toNat j)

/-! Watchdogs. -/

/-- A stream waits in a way that counts towards deadlock (R38): at a rendezvous that is not met, or for slots that a queue between streams of the job is still short of. -/
def deadWait (s : State) (n j : Nat) (t : Sid) : Bool :=
  match (streamOf s (.stream n j t)).run with
  | .atRdv set k => !rdvMet (jobOf s n j) set k
  | .onQueue h k room =>
    let d := descOf s n j h
    if room then d.prod == sidNum t && d.cons < 5 && qFree d < k else d.cons == sidNum t && d.prod < 5 && qFilled d < k
  | _ => false

/-- A job is deadlocked (R38): the lowest-numbered waiting stream. -/
def deadlocked (s : State) (n j : Nat) : Option Sid :=
  let b := jobOf s n j
  if (allOps b).isEmpty && b.flw.isEmpty && allSids.all (fun t => (b.streams.get t).run == .ended || deadWait s n j t)
  then allSids.find? (deadWait s n j) else none

/-- Whether a job is deadlocked is noted, with the cycle since which it has been (R38). -/
def noteDead (s : State) (n j : Nat) : State :=
  let b := jobOf s n j
  if (deadlocked s n j).isSome then (if b.deadSince.isSome then s else modJob s n j (fun b => { b with deadSince := some s.now }))
  else if b.deadSince.isSome then modJob s n j (fun b => { b with deadSince := none }) else s

/-- Core cycles that a job stands deadlocked before WATCHDOG (R38). -/
def deadCycles : Nat := 65536

/-- WATCHDOG_DEADLOCK (R38): once the job has been deadlocked for 65,536 cycles, WATCHDOG in the C stream, naming the lowest-numbered waiting stream. -/
def execWatchdogDeadlock (n : CoreNo) (s : State) : Result :=
  let k := coreOf s n.toNat
  match k.active with
  | none => .next s
  | some j =>
    if k.frozen then .next s
    else match deadlocked s n.toNat j, (jobOf s n.toNat j).deadSince with
      | none, _ => .next s
      | _, none => .next s
      | some t, some since => if s.now < since + deadCycles then .next s else .next (stopStream s n.toNat j .c { cause := cWatchdog } false (streamOf s (cAgent n.toNat j)).cmd t)

/-- A job of a context's launch stands active or staged on a core (R63): an orphan of a discarded launch is none (log entry 47). -/
def holdsCtx (s : State) (p c n : Nat) : Bool :=
  let on (sl : Slot) : Bool := sl.job.part == p && sl.job.ctx == c && sl.job.task != noTask && sl.st != .empty && sl.st != .suspended && sl.st != .saved
  on (coreOf s n).slot0 || on (coreOf s n).slot1

/-- An output edge of a node is full (R47). -/
def outFull (g : Graph) (la : Launch) (node : Nat) : Bool := (outEdges g node).any (fun e => e.2.cap ≤ occupancy la e.1)

/-- A copy whose completion action names a task of a context's launch (R48, R63). -/
def decrements (s : State) (p c : Nat) (o : Op) : Bool :=
  match o.kind with | .copy _ (some r) _ => r.act == .decrement && (namedTask s p c r.operand).isSome | _ => false

/-- A core's active job of a context has a copy outstanding whose completion action names a task of the launch (R63). -/
def namesLaunch (s : State) (p c n : Nat) : Bool :=
  match (coreOf s n).active with
  | some j => let b := jobOf s n j; b.part == p && b.ctx == c && (b.xvq ++ b.xhq).any (decrements s p c)
  | none => false

/-- A ring entry is that of an orphan of a discarded launch (log entry 47). -/
def ofOrphan (s : State) (p c i : Nat) (e : RingEntry) : Bool :=
  let lost (b : Job) : Bool := b.part == p && b.ctx == c && b.task == noTask && (parkedBehind b).contains i
  (coresOf s p).any (fun n => match (coreOf s n).active with | some j => lost (jobOf s n j) | none => false)
    || (ctxOf s p c).saved.any (fun k => lost k.2.1)
    || (e.kind == 4 && match savedOf s p c e.core e.slot with | some (b, _) => b.task == noTask | none => false)

/-- Nothing of a launch moves (R63): no job of it is active or staged, no probe in flight, no copy that names it outstanding, no ring entry of it pending (an intake queue's and an orphan's are not its own), no ingress traffic held. -/
def launchQuiet (s : State) (p c : Nat) (la : Launch) : Bool :=
  let q := partOf s p
  !allComplete la && la.probes.isEmpty && q.ingress.isEmpty
    && (coresOf s p).all (fun n => !holdsCtx s p c n && !namesLaunch s p c n
      && (coreOf s n).intake.all (fun o => !decrements s p c o || match o.intake with | some (_, _, k) => k != c | none => true))
    && (ctxOf s p c).saved.all (fun e => (e.2.1.xvq ++ e.2.1.xhq).all (fun o => !decrements s p c o))
    && q.ring.all (fun e => !(e.2.pend && e.2.ctx == c && !e.2.intake && !ofOrphan s p c e.1 e.2))

/-- The cycle since which each launch of a partition has been quiet is noted (R63). -/
def noteQuiet (s : State) (p : Nat) : State :=
  (tkeys (partOf s p).ctxs).foldl (fun s c =>
    match (ctxOf s p c).launch with
    | none => s
    | some la =>
      let since := if launchQuiet s p c la then some (la.quietSince.getD s.now) else none
      if since == la.quietSince then s else modCtx s p c (fun x => { x with launch := some { la with quietSince := since } })) s

/-- A launch has made no progress for the stall window (R63). -/
def stalled (s : State) (p c : Nat) (la : Launch) : Bool :=
  let q := partOf s p
  (ctxOf s p c).busy && launchQuiet s p c la && q.stallwin != 0#32
    && match la.quietSince with | some t => decide (t + q.stallwin.toNat ≤ s.now) | none => false

/-- NPBUDGET_EXPIRY (R311): at 0 the job becomes pre-emptible and WATCHDOG is raised in its C stream. -/
def execNpbudgetExpiry (n : CoreNo) (s : State) : Result :=
  let k := coreOf s n.toNat
  match k.active with
  | none => .next s
  | some j =>
    match (jobOf s n.toNat j).npUntil with
    | none => .next s
    | some u =>
      if k.frozen || s.now < u then .next s
      else .next (stopStream (modJob s n.toNat j (fun b => { b with npUntil := none })) n.toNat j .c { cause := cWatchdog } false
        (streamOf s (cAgent n.toNat j)).cmd .c)

/-! Slices (R22, R317). -/

/-- SLICE_END (R22, R317): staged jobs are returned, the slice goes to the next enabled context in ascending number, the same one where no other is enabled, and every column is to switch. -/
def execSliceEnd (p : PartNo) (s : State) : Result :=
  let p := p.toNat
  match (partOf s p).running with
  | none => .next s
  | some c =>
    let nx := nextCtx s p c
    let s := (coresOf s p).foldl (fun s n => returnStaged (returnStaged s n 0) n 1) s
    let s := endSlice (modPart s p (fun q => { q with running := nx })) p
    match nx with
    | none => .next s
    | some d => .next (advanceLoop s p d)

/-- SWITCH_BUDGET_EXPIRY (R22): a column that has not switched is pre-empted by force. -/
def execSwitchBudgetExpiry (n : CoreNo) (s : State) : Result :=
  let k := coreOf s n.toNat
  if k.ending && k.active.isSome then .next (modCore s n.toNat (fun k => { k with forced := true })) else .next s

/-! What follows every step of itself. -/

/-- A forced pre-emption may begin (R308, R309, R311, R315): not while a handler runs, a budget lasts, a remote store is under way, or an operation that has begun writing waits for a busy tile. -/
def canForce (s : State) (n j : Nat) : Bool :=
  let b := jobOf s n j
  !(coreOf s n).frozen && !b.sv && !b.killed && b.suspending.isNone && b.npUntil.isNone && !begunUnits b && !(b.xhq.any (fun o => isRemote o && o.stage == 1))

/-- A forced pre-emption that is due takes place as soon as it may begin. -/
def forceColumn (s : State) (n : Nat) : State :=
  let k := coreOf s n
  if !k.forced then s
  else match k.active with
    | none => modCore s n (fun k => { k with forced := false })
    | some j => if canForce s n j then saveJob (finishVq s n j) n j .saved else s

/-- A vacate request goes on (R311): a job without a budget is pre-empted by force; once the column holds no active job the request is carried out. A staged job stays in its slot (R56). -/
def vacateColumn (s : State) (n : Nat) : State :=
  let s := match (coreOf s n).active with
    | some j => if (jobOf s n j).npUntil.isNone then modCore s n (fun k => { k with forced := true }) else s
    | none => s
  let s := forceColumn s n
  if (coreOf s n).active.isSome then s
  else
    { s with mgmt := { s.mgmt with vacates := s.mgmt.vacates.filter (· != n), mevent := s.mgmt.mevent ||| 8#4 } }

/-- INDEX entries that wait for a place in the ring are posted (R229). -/
def postWaiting (s : State) (p : Nat) : State :=
  (partOf s p).ringWait.foldl (fun s e =>
    match savedOf s p e.2.2 e.1 e.2.1 with
    | some (b, _) =>
      match ringPost s p b.ctx { va := 0#64, kind := 4, pend := true, write := false, sid := 1, slot := e.2.1, ctx := b.ctx, queue := 2
                                 core := e.1, node := b.node, cmd := b.cursor.cmd, seq := 0#32 } with
      | some (s, _) => modPart s p (fun q => { q with ringWait := q.ringWait.filter (· != e) })
      | none => s
    | none => s) s

/-- The commit words of vault ranges just declared are written (R98). -/
def writeDue (s : State) (p : Nat) : State :=
  (partOf s p).ctxs.foldl (fun s e =>
    if e.2.commitDue then
      modCtx (writeCommit (writeCommit s p e.1 0 (2 ^ 64 - 1)) p e.1 1 (2 ^ 64 - 1)) p e.1 (fun x => { x with commitDue := false })
    else s) s

/-- The bytes of ring entries that a kill has completed are written (R301). -/
def writeRing (s : State) (p : Nat) : State :=
  modPart ((partOf s p).ringDue.foldl (fun s e => ringStore s p e.1 e.2) s) p (fun q => { q with ringDue := [] })

/-- What an active job's core does of itself: its C-stream operations that need no travel, and a suspension that waits for its operations (R303); a frozen core suspends nothing. -/
def moveJob (s : State) (n j : Nat) : State :=
  let s := moveC s n j
  if (coreOf s n).frozen then s else suspendGo s n j

/-- What a step leaves to be done at once: what active jobs do of themselves, columns of no partition, vacate requests, forced pre-emptions, columns that switch, the step loop of the context that holds the slice (R40), INDEX entries, ring bytes and commit words; then what has come to a standstill is noted. -/
def settle (s : State) : State :=
  let jobs (f : State → Nat → Nat → State) (s : State) : State :=
    (tkeys s.cores).foldl (fun s n => match (coreOf s n).active with | some j => f s n j | none => s) s
  let s := jobs moveJob s
  let s := (tkeys s.cores).foldl orphanColumn s
  let s := s.mgmt.vacates.foldl vacateColumn s
  let s := (tkeys s.cores).foldl forceColumn s
  let s := (tkeys s.parts).foldl (fun s p =>
    let s := (coresOf s p).foldl (fun s n => columnTurn s p n) s
    let s := match (partOf s p).running with | some c => advanceLoop s p c | none => s
    noteQuiet (writeDue (writeRing (postWaiting s p) p) p) p) s
  jobs noteDead s

end Sys2Proof.Machine
end

