-- ==== Sys2Proof/Machine/Sched.lean ====
section
/-! DEFINITION. The Graph Scheduler: dispatch rounds (R52 to R56), probes at dispatch and their reuse copies (R60 to R62). -/

namespace Sys2Proof.Machine

open Sys2Proof.Config

/-- Dies on which a partition owns granules, ascending (R12, R27). -/
def diesOf (s : State) (p : Nat) : List Nat := [0, 1].filter (fun d => (coresOf s p).any (fun n => n / 128 == d))

/-- The die on which R27 places a tile of a node; nothing where either die may run it. -/
def tileDie (dies : List Nat) (nd : Node) (trips : List Nat) (tile : Nat) : Option Nat :=
  let inner := ((List.range nd.levels.length).filter (fun i => isSpatial (nd.levels.getD i (0, 0, 0)))).reverse
  match inner.findIdx? (fun i => (nd.levels.getD i (0, 0, 0)).1 == 2) with
  | none => none
  | some k =>
    let tr := inner.map (fun i => trips.getD i 0)
    some (dies.getD ((tileIndices tr tile).getD k 0 * dies.length / tr.getD k 1) 0)

/-- A ready task may be taken by the round of a die (R27, R53, R57). -/
def canRun (s : State) (p c : Nat) (la : Launch) (die key : Nat) : Bool :=
  match taskOf la key with
  | none => false
  | some t =>
    t.st == .ready && (t.pool.isSome ||
      match tileDie (diesOf s p) (nodeOf s p c t.node) (tget [] la.trips t.node) t.tile with
      | none => true
      | some d => d == die)

/-- A node's oldest ready task that can run on a die (R52). -/
def oldestTask (s : State) (p c : Nat) (la : Launch) (die node : Nat) : Option (Nat × Task) :=
  match (tget [] la.order node).find? (canRun s p c la die) with
  | some k => (taskOf la k).map (fun t => (k, t))
  | none => none

/-- A task awaits a probe (R58, R60). -/
def awaitsProbe (nd : Node) (t : Task) : Bool :=
  !t.probed && t.pool.isNone && (match nd.firn with | some f => f.probe | none => false)

/-- Probes of a partition in flight on a die: those whose outcome is not yet known (R53, R60). -/
def probesOn (s : State) (p die : Nat) : Nat :=
  (partOf s p).ctxs.foldl (fun z e => z + (match e.2.launch with | some la => (la.probes.filter (fun b => b.die == die && !b.hit)).length | none => 0)) 0

/-- Cores of a die that have switched to a context and have an empty staged slot (R53, R56, R304). -/
def openCores (s : State) (p c die : Nat) : List Nat :=
  (coresOf s p).filter (fun n =>
    let k := coreOf s n
    n / 128 == die && k.ctx == some c && !k.ending && !k.frozen && (freeSlot k).isSome)

/-- A die has a place for a task: a probe that it may start, or an open core (R53). -/
def placeOpen (s : State) (p c die : Nat) (t : Task) : Bool :=
  if awaitsProbe (nodeOf s p c t.node) t then probesOn s p die < 64 else !(openCores s p c die).isEmpty

/-- The task that a node would take in a round, where the node is eligible (R53). -/
def eligible (s : State) (p c die node : Nat) : Option (Nat × Task) :=
  let la := launchOf s p c
  match oldestTask s p c la die node with
  | none => none
  | some (k, t) =>
    if !t.reserved && outFull (graphOf s p c) la node then none
    else if placeOpen s p c die t then some (k, t)
    else none

/-- The occupancy of the fullest of some edges (R47). -/
def fullest (la : Launch) (l : List (Nat × Edge)) : Nat := l.foldl (fun z e => max z (occupancy la e.1)) 0

/-- The score of R54. -/
def score (g : Graph) (la : Launch) (node : Nat) : Int :=
  ((g.nodes.getD node {}).prio : Int) * 1024 + (fullest la (inEdges g node) : Int) * 16 - (fullest la (outEdges g node) : Int) * 16 + ((tget 0 la.ages node : Nat) : Int)

/-- Node a ranks above node b (R54). -/
def ranksAbove (g : Graph) (la : Launch) (a b : Nat) : Bool :=
  let old (k : Nat) : Bool := tget 0 la.ages k == 255
  if old a != old b then old a else decide (score g la b < score g la a)

/-- The first of some nodes by the ranking of R54; equal scores go to the lowest. -/
def bestNode (g : Graph) (la : Launch) (l : List Nat) : Option Nat :=
  l.foldl (fun z k => match z with | none => some k | some m => if ranksAbove g la k m then some k else some m) none

/-- The core that takes a dispatch of a node (R56). -/
def pickCore (s : State) (p c node : Nat) (l : List Nat) : Option Nat :=
  let runs (n : Nat) : Bool :=
    match (coreOf s n).active with
    | some j => runsCtx s n p c && (jobOf s n j).node == node
    | none => false
  match l.find? runs with
  | some n => some n
  | none =>
    match l.find? (fun n => (coreOf s n).resident == some (node, c)) with
    | some n => some n
    | none => l.head?

/-- Where the section of a stream ends: at the next entry, or at the end of the code (R65, R159). -/
def sectionEnd (kr : Kernel) (e : Nat) : Nat :=
  kr.entries.foldl (fun z k => if e < k && k < z then k else z) kr.codeLen

/-- Prefetch of the code of a staged job: each used stream from its entry to 4 KiB beyond it, or to the end of its section (R65). -/
def prefetchCode (s : State) (p c n : Nat) (kr : Kernel) : State :=
  allSids.foldl (fun s t =>
    if kr.used.testBit (sidNum t) then
      let e := kr.entries.getD (sidNum t) 0
      let len := min 4096 (sectionEnd kr e - e)
      let va := kr.addr + w64 e
      if len = 0 then s else prefetchLines s p c n va ((va.toNat % 128 + len - 1) / 128 + 1)
    else s) s

/-- A task's output places are reserved unless it holds them, its tokens leave its input edges, and its node's age returns to 0 (R46, R52). -/
def takeTask (g : Graph) (la : Launch) (k : Nat) (t : Task) : Launch :=
  let la := if t.reserved || t.pool.isSome then la else reserveOut g la k t.node
  { takeTokens g la k t.node with ages := tset la.ages t.node 0 }

/-- A dispatch into the free slot of a core (R30, R52). The task keeps its place in its node's ready order until it starts, in case it is returned (R22, R29). -/
def dispatchTask (s : State) (p c n k : Nat) (t : Task) : State :=
  match freeSlot (coreOf s n) with
  | none => s
  | some j =>
    let g := graphOf s p c
    let nd := nodeOf s p c t.node
    let s := modLaunch s p c (fun la => modTask (takeTask g la k t) k (fun t => { t with st := .dispatched }))
    let s := wakeColumn s n
    let s := layDescs s n j c t.node nd.kernel
    let s := keepPrefetch s p c n j t.node
    let s := modSlot s n j (fun sl => { sl with st := .staged, job := stagedJob p c k t nd, resumed := false })
    progress (prefetchCode s p c n nd.kernel) p c

/-- A probe starts and arrives at its entry: the task keeps its place in the ready order (R60, R280). -/
def startProbe (s : State) (p c die k : Nat) (t : Task) : State :=
  let g := graphOf s p c
  let at' := (ctxOf s p c).arrivals
  let s := modLaunch s p c (fun la =>
    let la := modTask (takeTask g la k t) k (fun t => { t with st := .probing })
    { la with probes := la.probes ++ [{ task := k, die := die, stamp := at' }] })
  progress (modCtx s p c (fun x => { x with arrivals := at' + 1 })) p c

/-- One selection: the node selected (R52). -/
def selectOnce (s : State) (p c die : Nat) : Option (State × Nat) :=
  let g := graphOf s p c
  let nodes := (List.range g.nodes.length).filter (fun k => (eligible s p c die k).isSome)
  match bestNode g (launchOf s p c) nodes with
  | none => none
  | some node =>
    match eligible s p c die node with
    | none => none
    | some (k, t) =>
      if awaitsProbe (nodeOf s p c node) t then some (startProbe s p c die k t, node)
      else match pickCore s p c node (openCores s p c die) with
        | some n => some (dispatchTask s p c n k t, node)
        | none => none

/-- Up to so many selections, and the nodes selected. -/
def selections (p c die : Nat) : Nat → State → State × List Nat
  | 0, s => (s, [])
  | m + 1, s =>
    match selectOnce s p c die with
    | none => (s, [])
    | some (s, node) =>
      let (s, l) := selections p c die m s
      (s, node :: l)

/-- Nodes that are eligible on a die. -/
def eligibleNodes (s : State) (p c die : Nat) : List Nat :=
  (List.range (graphOf s p c).nodes.length).filter (fun k => (eligible s p c die k).isSome)

/-- The selections of one die's round, and the nodes that were eligible in its first cycle and were not selected (R52, R55). -/
def dieRound (s : State) (p c die : Nat) : State × List Nat :=
  let r := selections p c die 16 s
  (r.1, (eligibleNodes s p c die).filter (fun k => !r.2.contains k))

/-- Ages rise at the end of a round (R55). -/
def ageNodes (s : State) (p c : Nat) (l : List Nat) : State :=
  modLaunch s p c (fun la => { la with ages := l.foldl (fun t k => tset t k (min 255 (tget 0 t k + 1))) la.ages })

/-- The rounds of some dies, which fall in the same cycles: each makes its selections from the state that the one before left, and all end together (R52, R55). -/
def dieRounds (p c : Nat) : List Nat → State → State
  | [], s => s
  | d :: r, s =>
    let t := dieRound s p c d
    ageNodes (dieRounds p c r t.1) p c t.2

/-- DISPATCH_ROUND (R52): the round of die 0, then that of die 1. -/
def execDispatchRound (p : PartNo) (s : State) : Result :=
  let p := p.toNat
  match (partOf s p).running with
  | none => .next s
  | some c =>
    let x := ctxOf s p c
    if x.launch.isNone || x.stopped then .next s
    else .next (dieRounds p c (diesOf s p) s)

/-! Probes (R60 to R62). -/

/-- A probe leaves the scheduler. -/
def dropProbe (s : State) (p c k : Nat) : State :=
  modLaunch s p c (fun la => { la with probes := la.probes.filter (fun b => b.task != k) })

def modProbe (s : State) (p c k : Nat) (f : Probe → Probe) : State :=
  modLaunch s p c (fun la => { la with probes := la.probes.map (fun b => if b.task == k then f b else b) })

/-- A miss: the task is ready again at its place, marked as probed (R60). -/
def probeMiss (s : State) (p c k : Nat) : State :=
  progress (modLaunch (dropProbe s p c k) p c (fun la => modTask la k (fun t => { t with st := .ready, probed := true }))) p c

/-- A probe that could not read, or whose reuse copy could not write: it waits for its ring entry, is a miss, or stops the context (R62, R306, R314). R62 speaks of probe reads: the same for the write of a reuse copy, which posts a PROBE entry on a miss or under WPW and turns the hit into a miss where it is refused, is a DESIGN CHOICE (log entry 58). -/
def probeFails (s : State) (p c k : Nat) (t : Task) (write : Bool) (e : VErr) : State :=
  let post (va : Word) : State :=
    match ringPost s p c { va := va, kind := 3, pend := true, write := write, sid := 7, slot := 0, ctx := c, queue := 7, core := 0xFFFF
                           node := t.node, cmd := BitVec.ofNat 32 t.tile, seq := 0#32 } with
    | some (s, i) => modProbe s p c k (fun b => { b with parked := i + 1 })
    | none => probeMiss s p c k
  match e with
  | .miss va => post va
  | .wpw va => post va
  | .busy => s
  | .fault cause _ _ =>
    if cause == cDataUe then stopContext (probeMiss s p c k) p c cDataUe t.node none
    else if cause == cVaultUnrepaired then modCtx (stopErr (probeMiss s p c k) p c cVaultUnrepaired t.node) p c (fun x => { x with stopped := true })
    else probeMiss s p c k

/-- The probe of a task with its descriptor, where it is at the head of its entry's order, Firn instructions of jobs among those ahead of it, and waits for nothing (R280). -/
def readyProbe (s : State) (p c node tile : Nat) (hit : Bool) : Option (Nat × Task × FirnDesc) :=
  let la := launchOf s p c
  let key := taskKey node tile
  match taskOf la key, (nodeOf s p c node).firn with
  | some t, some f =>
    let same (b : Probe) : Bool :=
      match taskOf la b.task with
      | some u => u.tile == tile && (match (nodeOf s p c u.node).firn with | some h => h.layer == f.layer | none => false)
      | none => false
    match la.probes.find? same with
    | some b =>
      if b.task == key && b.hit == hit && b.parked == 0
        && !(ctxOf s p c).turns.any (fun u => u.stamp < b.stamp && sameAim (some f.layer, some t.tile) (u.layer, u.tile)) then some (key, t, f) else none
    | none => none
  | _, _ => none

/-- What a probe's reads or a reuse copy's gave, unless an error on the mesh or the seam has struck them, which is the access's (R17). -/
def probeReadsGive {α : Type} (s : State) (f : FirnDesc) (tile : Nat) (r : State × Except VErr α) : State × Except VErr α :=
  if transitError s.tick then (s, .error (.fault cDataUe false (firnRowVa f tile 0))) else r

/-- PROBE_OUTCOME (R17, R60, R61, R279): on a hit a reuse copy follows. -/
def execProbeOutcome (p : PartNo) (c : CtxNo) (node : BitVec 10) (tile : BitVec 24) (s : State) : Result :=
  let p := p.toNat
  let c := c.toNat
  match readyProbe s p c node.toNat tile.toNat false with
  | none => .next s
  | some (k, t, f) =>
    let x := ctxOf s p c
    let r := probeTest s (firnWho p c) f t.tile (tget 0#64 x.k 0) (tget 0#64 x.k 6)
    match (if probeReads x f t.tile (tget 0#64 x.k 6) then probeReadsGive s f t.tile r else r) with
    | (s, .error e) => .next (probeFails s p c k t false e)
    | (s, .ok false) => .next (probeMiss s p c k)
    | (s, .ok true) => .next (progress (modProbe s p c k (fun b => { b with hit := true })) p c)

/-- REUSE_COPY_PERFORMED (R17, R51, R60): the cached result stands in the result buffer, the step's bit in the hit bitmap is set, and the task completes. A copy that fails marks nothing. -/
def execReuseCopyPerformed (p : PartNo) (c : CtxNo) (node : BitVec 10) (tile : BitVec 24) (s : State) : Result :=
  let p := p.toNat
  let c := c.toNat
  match readyProbe s p c node.toNat tile.toNat true with
  | none => .next s
  | some (k, t, f) =>
    match probeReadsGive s f t.tile (copyResult s (firnWho p c) f t.tile) with
    | (s, .error e) => .next (probeFails s p c k t true e)
    | (s, .ok ()) => .next (completeTask (dropProbe (markHit s p c f t.tile (tget 0#64 (ctxOf s p c).k 0)) p c k) p c k)

/-! The stall window (R63). -/

/-- A node holds a ready task that only a full output edge blocks: one that holds its reservations is not blocked by it, and one without a place is not blocked by it alone (R53, R63). -/
def edgeBlocked (s : State) (p c : Nat) (la : Launch) (node : Nat) : Bool :=
  outFull (graphOf s p c) la node && (diesOf s p).any (fun d => match oldestTask s p c la d node with | some (_, t) => !t.reserved && placeOpen s p c d t | none => false)

/-- The node that a stalled launch is stopped with (R63; 0x3FF where no node qualifies: log entry 54). -/
def stallNode (s : State) (p c : Nat) (la : Launch) : Nat :=
  let nodes := List.range (graphOf s p c).nodes.length
  match nodes.find? (edgeBlocked s p c la) with
  | some k => k
  | none => (nodes.find? (fun k => la.tasks.any (fun e => e.2.node == k && e.2.st == .waiting))).getD 0x3FF

/-- STALL_WINDOW_EXPIRY (R63). -/
def execStallWindowExpiry (p : PartNo) (s : State) : Result :=
  match (partOf s p.toNat).running with
  | none => .next s
  | some c =>
    match (ctxOf s p.toNat c).launch with
    | none => .next s
    | some la =>
      if stalled s p.toNat c la then
        .next (discardLaunch (stopErr s p.toNat c cWatchdog (stallNode s p.toNat c la)) p.toNat c)
      else .next s

end Sys2Proof.Machine
end

