-- ==== Sys2Proof/Machine/GraphLoad.lean ====
section
/-! DEFINITION. Graph load and unload (R23 to R25, R45, R155 to R157, R275, R276, R284, R318). -/

namespace Sys2Proof.Machine

open Sys2Proof.Config

/-- What a load gives so far: the state its reads leave, and a refusal with its cause and node, or a value. -/
abbrev Load (α : Type) := State × Except (Byte × Nat) α

/-- A check that refuses the load (R157). -/
def loadNeed (s : State) (ok : Bool) (cause : Byte) (node : Nat) : Load Unit := (s, if ok then .ok () else .error (cause, node))

/-- One part of a load after another. -/
def andThen {α β : Type} (x : Load α) (f : State → α → Load β) : Load β :=
  match x with
  | (s, .ok a) => f s a
  | (s, .error e) => (s, .error e)

/-- A record read in the context's translation (R318); the cause of R157 where it cannot be. -/
def readRecord (s : State) (p c : Nat) (va : Word) (len node : Nat) : Load (List Byte) :=
  match vaRead s (deviceWho p c) va len with
  | (s, .ok l) => (s, .ok l)
  | (s, .error e) => (s, .error (causeOf e, node))

/-- Bytes [lo, hi) of a record are 0. -/
def zeroAt (l : List Byte) (lo hi : Nat) : Bool := ((l.drop lo).take (hi - lo)).all (· == 0#8)

/-- A region of 4 + 4 bytes: none where its length is 0, and then its offset is 0 (R155, R156); else within the scratchpad in multiples of 64 (R24, R153). -/
def regionOk (r : Nat × Nat) : Bool :=
  if r.2 = 0 then r.1 == 0 else r.1 % 64 == 0 && r.2 % 64 == 0 && r.1 + r.2 ≤ scratchSize

/-- Four regions from a place of a record. -/
def regionsAt (l : List Byte) (off : Nat) : List (Nat × Nat) :=
  (List.range 4).map (fun i => (fieldAt l (off + 8 * i) 4, fieldAt l (off + 8 * i + 4) 4))

/-- Why a kernel header is refused: its layout, its ENCID, its regions and its tile types (R155, R157). -/
def headerError (addr : Word) (l : List Byte) : Option Byte :=
  let used := fieldAt l 8 1
  if fieldAt l 0 4 ≠ 0x4B454E4C then some cIllegal
  else if fieldAt l 4 4 ≠ encid.toNat then some cEncMismatch
  else if addr.toNat % 4 = 0 ∧ used < 32 ∧ zeroAt l 9 12 ∧ zeroAt l 44 48 ∧ zeroAt l 80 128
      ∧ (List.range 5).all (fun t =>
        let e := fieldAt l (20 + 4 * t) 4
        e % 4 == 0 && (used.testBit t || e == 0))
      ∧ (regionsAt l 48).all regionOk
      ∧ (List.range 8).all (fun t => validCode (fieldAt l 16 4 / 16 ^ t % 16)) then none
  else some cIllegal

/-- The kernel of a header, its descriptors still to come. Its code object runs from the header to the end of its code. -/
def headerKernel (addr : Word) (l : List Byte) : Kernel :=
  let handles := fieldAt l 12 4
  { addr := addr, used := fieldAt l 8 1, handles := handles, tiletype := fieldAt l 16 4
    entries := (List.range 5).map (fun t => fieldAt l (20 + 4 * t) 4)
    codeLen := 128 + 64 * popBelow handles 32 + fieldAt l 40 4
    discards := (regionsAt l 48).filter (fun r => r.2 != 0) }

/-- Declared handles, ascending. -/
def handlesOf (mask : Nat) : List Nat := (List.range 32).filter (fun h => mask.testBit h)

/-- A kernel read and checked (R155, R157). -/
def loadKernel (s : State) (p c node : Nat) (addr : Word) : Load Kernel :=
  andThen (readRecord s p c addr 128 node) (fun s l =>
    match headerError addr l with
    | some e => (s, .error (e, node))
    | none =>
      let k := headerKernel addr l
      let hs := handlesOf k.handles
      andThen (readRecord s p c (addr + 128#64) (64 * hs.length) node) (fun s d =>
        let descs := (List.range hs.length).map (fun i => (hs.getD i 0, (d.drop (64 * i)).take 64))
        andThen (loadNeed s (descs.all (fun e => descOk (parseDesc e.2))) cIllegal node) (fun s _ => (s, .ok { k with descs := descs }))))

/-- A level of a node record, as a number of 64 bits, within R25 and R156. -/
def levelOk (w : Nat) : Bool :=
  let v := w / 256
  w / 16 % 16 == 0 &&
    match w / 4 % 4 with
    | 0 => v < 2 ^ 32
    | 1 => v < 16
    | 2 => v < 64
    | _ => v % 4 == 0

/-- A node record keeps the layout of R156 and the limits of R24 and R25. -/
def nodeOk (l : List Byte) : Bool :=
  let f := fieldAt l 10 1
  let k := fieldAt l 11 1
  let budget := fieldAt l 16 4
  let level (i : Nat) : Nat := fieldAt l (32 + 8 * i) 8
  let kinds := (List.range k).map (fun i => level i % 4)
  let keeps := regionsAt l 80
  f / 4 % 32 == 0 && 1 ≤ k && k ≤ 6 && 1 ≤ fieldAt l 12 1 && fieldAt l 12 1 ≤ 32 && zeroAt l 13 16
    && (if f / 128 = 1 then 1 ≤ budget && budget ≤ 2 ^ 24 else budget == 0) && zeroAt l 20 24
    && (List.range 6).all (fun i => if i < k then levelOk (level i) else level i == 0)
    && kinds.any (· != 0) && kinds.count 2 ≤ 1 && kinds.count 3 ≤ 1
    && keeps.all regionOk && keeps.foldl (fun z r => z + r.2) 0 ≤ 262144 && zeroAt l 120 128

/-- The node of a record (R156). -/
def nodeRecord (l : List Byte) : Node :=
  let f := fieldAt l 10 1
  { depInit := fieldAt l 8 2, prio := f % 4, np := f / 128 == 1, budget := fieldAt l 16 4
    levels := (List.range (fieldAt l 11 1)).map (fun i =>
      let w := fieldAt l (32 + 8 * i) 8
      (w % 4, w / 4 % 4, w / 256))
    gang := fieldAt l 12 1
    keeps := (regionsAt l 80).filter (fun r => r.2 != 0)
    backing := w64 (fieldAt l 112 8) }

/-- The Firn descriptor of 128 bytes at a VA, where every field is within R275. -/
def firnRecord (va : Word) (l : List Byte) : Option FirnDesc :=
  let f : FirnDesc :=
    { va := va, layer := fieldAt l 2 2, metric := fieldAt l 4 1, itype := fieldAt l 5 1, maxAge := fieldAt l 6 1
      refresh := fieldAt l 7 1, thr := fieldAt l 8 4, count := fieldAt l 12 4, ibase := w64 (fieldAt l 16 8)
      tstride := fieldAt l 24 4, rows := fieldAt l 28 2, hu := fieldAt l 30 1, hd := fieldAt l 31 1, rb := fieldAt l 32 4
      pitch := fieldAt l 36 4, rbase := w64 (fieldAt l 40 8), rbytes := fieldAt l 48 4, rstride := fieldAt l 52 4
      sigbase := w64 (fieldAt l 56 8), abase := w64 (fieldAt l 64 8), aspace := fieldAt l 72 1, probe := fieldAt l 73 1 == 1
      hash := crc64 (l.take 64) }
  if fieldAt l 0 2 = 0x4652 ∧ f.metric ≤ 2 ∧ f.itype ≤ 2 ∧ f.maxAge ≤ 63 ∧ 1 ≤ f.refresh ∧ f.refresh ≤ 64
      ∧ f.thr < 0x7F800000 ∧ 1 ≤ f.count ∧ f.count ≤ 2 ^ 24 ∧ 1 ≤ f.rows ∧ f.rb % firnElem f = 0 ∧ firnIn f ≤ 2 ^ 22
      ∧ f.rb ≤ f.pitch ∧ f.rbase.toNat % 64 = 0 ∧ f.rbytes % 64 = 0 ∧ 64 ≤ f.rbytes ∧ f.rbytes ≤ 2 ^ 22
      ∧ f.rstride % 64 = 0 ∧ f.rbytes ≤ f.rstride ∧ f.sigbase.toNat % 8 = 0 ∧ f.abase.toNat % 64 = 0 ∧ f.aspace ≤ 2
      ∧ fieldAt l 73 1 ≤ 1 ∧ zeroAt l 74 128 then some f
  else none

/-- A node's Firn descriptor read and checked; a VA that is no multiple of 64 is refused as FIRN_DESC (R275, R276). -/
def loadFirn (s : State) (p c node : Nat) (va : Word) : Load (Option FirnDesc) :=
  if va = 0#64 then (s, .ok none)
  else if va.toNat % 64 ≠ 0 then (s, .error (cFirnDesc, node))
  else andThen (readRecord s p c va 128 node) (fun s l =>
    match firnRecord va l with
    | some f => (s, .ok (some f))
    | none => (s, .error (cFirnDesc, node)))

/-- One node: its record, its kernel, its Firn descriptor, its backing address (R157 step 2). -/
def loadNode (s : State) (p c node : Nat) (va : Word) : Load Node :=
  andThen (readRecord s p c va 128 node) (fun s l =>
    andThen (loadNeed s (nodeOk l) cIllegal node) (fun s _ =>
      andThen (loadKernel s p c node (w64 (fieldAt l 0 8))) (fun s k =>
        andThen (loadFirn s p c node (w64 (fieldAt l 24 8))) (fun s f =>
          let nd := { nodeRecord l with kernel := k, firn := f }
          andThen (loadNeed s (nd.keeps.isEmpty || nd.backing != 0#64) cIllegal node) (fun s _ => (s, .ok nd))))))

def loadNodes (p c : Nat) (table : Word) : Nat → State → Nat → Load (List Node)
  | 0, s, _ => (s, .ok [])
  | k + 1, s, i =>
    andThen (loadNode s p c i (table + w64 (128 * i))) (fun s nd =>
      andThen (loadNodes p c table k s (i + 1)) (fun s r => (s, .ok (nd :: r))))

/-- An edge record within R45 and R156. -/
def edgeOk (nodes : Nat) (l : List Byte) : Bool :=
  let a := fieldAt l 0 2
  let b := fieldAt l 2 2
  a < nodes && b < nodes && a != b && 1 ≤ fieldAt l 4 1 && fieldAt l 4 1 ≤ 64 && zeroAt l 5 8

def loadEdges (p c nodes : Nat) (table : Word) : Nat → State → Nat → Load (List Edge)
  | 0, s, _ => (s, .ok [])
  | k + 1, s, i =>
    andThen (readRecord s p c (table + w64 (8 * i)) 8 0x3FF) (fun s l =>
      andThen (loadNeed s (edgeOk nodes l) cIllegal 0x3FF) (fun s _ =>
        andThen (loadEdges p c nodes table k s (i + 1)) (fun s r =>
          (s, .ok ({ prod := fieldAt l 0 2, cons := fieldAt l 2 2, cap := fieldAt l 4 1 } :: r)))))

/-! Reservation (R276). -/

/-- Layers that nodes name, in ascending order of the lowest node that names each, with that node. -/
def layersOf (nodes : List Node) : List (Nat × Nat) :=
  (List.range nodes.length).foldl (fun l i =>
    match (nodes.getD i {}).firn with
    | some f => if l.any (fun e => e.1 == f.layer) then l else l ++ [(f.layer, i)]
    | none => l) []

/-- Descriptors of a layer. -/
def layerDescs (nodes : List Node) (layer : Nat) : List FirnDesc :=
  nodes.filterMap (fun nd => match nd.firn with | some f => if f.layer == layer then some f else none | none => none)

/-- Tag entries that a graph reserves: COUNT for each distinct layer. -/
def reservedBy (g : Graph) : Nat :=
  (layersOf g.nodes).foldl (fun z e => z + (match (layerDescs g.nodes e.1).head? with | some f => f.count | none => 0)) 0

def reservedIn (q : Partition) : Nat := q.ctxs.foldl (fun z e => z + (match e.2.graph with | some g => reservedBy g | none => 0)) 0

/-- Tag entries of the package (R18). -/
def firnTags : Nat := 786432

/-- Every page of a range is translated with RD and W (R276). -/
def mappedRW (s : State) (p c : Nat) : Nat → Nat → Nat → Bool
  | 0, _, _ => true
  | fuel + 1, va, len =>
    if len = 0 then true
    else
      let okRead := match translate s p c none (w64 va) .read false with | .ok _ _ => true | _ => false
      let okWrite := match translate s p c none (w64 va) .write false with | .ok _ _ => true | .wpw _ _ => true | _ => false
      let k := pageRun va len
      va < 2 ^ 56 && okRead && okWrite && mappedRW s p c fuel (va + k) (len - k)

/-- The arena of a descriptor can be held (R276). -/
def arenaOk (s : State) (p c : Nat) (f : FirnDesc) : Bool :=
  if f.aspace = 2 then
    let n := max (coresOf s p).length 1
    f.abase.toNat + (3 * ((f.count - 1) / n) + 3) * firnSlot f ≤ vaultSize
  else
    let len := 3 * f.count * firnSlot f
    mappedRW s p c (len / 65536 + 2) f.abase.toNat len

/-- The walks that the check of a descriptor's arena takes (R89). -/
def arenaWalked (s : State) (p c : Nat) (f : FirnDesc) : State :=
  if f.aspace = 2 then s else walkedRange s (deviceWho p c) f.abase (3 * f.count * firnSlot f)

/-- The registration of one layer (R157 step 5): the entries reserved so far, before and after. -/
def reserveLayer (s : State) (p c : Nat) (nodes : List Node) (used : Nat) (e : Nat × Nat) : Load Nat :=
  let ds := layerDescs nodes e.1
  let n := match ds.head? with | some f => f.count | none => 0
  let package := s.parts.foldl (fun z q => z + reservedIn q.2) 0
  if !ds.all (fun f => f.count == n) then (s, .error (cFirnDesc, e.2))
  else if firnTags < package + used + n ∨ (partOf s p).pfirnq.toNat < reservedIn (partOf s p) + used + n then (s, .error (cFirnNores, e.2))
  else (ds.foldl (fun t f => arenaWalked t p c f) s, if ds.all (arenaOk s p c) then .ok (used + n) else .error (cFirnNores, e.2))

def reserveAll (p c : Nat) (nodes : List Node) : List (Nat × Nat) → State → Nat → Load Nat
  | [], s, used => (s, .ok used)
  | e :: r, s, used => andThen (reserveLayer s p c nodes used e) (fun s used => reserveAll p c nodes r s used)

/-- The first node with more than 8 input or output edges (R45). -/
def crowded (nodes : Nat) (edges : List Edge) : Option Nat :=
  (List.range nodes).find? (fun k => 8 < edges.countP (fun e => e.prod == k) || 8 < edges.countP (fun e => e.cons == k))

/-- A graph header within R156: its magic, its ENCID, then the rest. -/
def graphError (l : List Byte) : Option Byte :=
  if fieldAt l 0 4 ≠ 0x47524150 then some cIllegal
  else if fieldAt l 4 4 ≠ encid.toNat then some cEncMismatch
  else if 1 ≤ fieldAt l 8 2 ∧ fieldAt l 8 2 ≤ 1024 ∧ fieldAt l 10 2 ≤ 4096 ∧ zeroAt l 12 16 ∧ zeroAt l 32 64 then none
  else some cIllegal

/-- The graph at GLADDR, read and checked in the order of R157. -/
def readGraph (s : State) (p c : Nat) : Load Graph :=
  let base := (ctxOf s p c).gladdr
  andThen (readRecord s p c base 64 0x3FF) (fun s l =>
    match graphError l with
    | some e => (s, .error (e, 0x3FF))
    | none =>
      let n := fieldAt l 8 2
      andThen (loadNodes p c (base + w64 (fieldAt l 16 8)) n s 0) (fun s nodes =>
        andThen (loadEdges p c n (base + w64 (fieldAt l 24 8)) (fieldAt l 10 2) s 0) (fun s edges =>
          match crowded n edges with
          | some k => (s, .error (cIllegal, k))
          | none =>
            andThen (reserveAll p c nodes (layersOf nodes) s 0) (fun s _ => (s, .ok { nodes := nodes, edges := edges, gen := 0 })))))

/-- A run of bytes of one value written, page by page, where it translates. -/
def fillRange (p c : Nat) (b : Byte) : Nat → State → Word → Nat → State
  | 0, s, _, _ => s
  | fuel + 1, s, va, len =>
    if len = 0 then s
    else
      let k := pageRun va.toNat len
      let s := (vaWrite s (deviceWho p c) va (List.replicate k b)).1
      fillRange p c b fuel s (va + w64 k) (len - k)

/-- Keep backings hold the fill pattern before a node's first job (R30, R32). DESIGN CHOICE (log 83): they get it when the graph is loaded, from the FILL of that moment, and a page that does not translate then is skipped. -/
def fillBackings (s : State) (p c : Nat) (g : Graph) : State :=
  g.nodes.foldl (fun s nd =>
    let len := (coresOf s p).length * keepBytes nd
    fillRange p c (partOf s p).fill (len / 65536 + 2) s nd.backing len) s

/-- Map handles recorded for a context become free, its transaction barriers are 0, and kept queue pointers of its nodes are forgotten (R37, R245, R284). -/
def freeOnCores (s : State) (p c : Nat) : State :=
  (coresOf s p).foldl (fun s n => modCore s n (fun k => { k with
    floe := k.floe.filter (fun e => e.2.owner != some c)
    persist := k.persist.filter (fun e => e.1 / 32768 != c)
    txb := k.txb.filter (fun e => e.1 / 16 != c) })) s

/-- The result of a command stands in GLSTAT; the command ends with GRAPH_COMMAND_END. -/
def commandDone (s : State) (p c : Nat) (cause : Byte) (node : Nat) : State :=
  modCtx s p c (fun x => { x with glcmd := 0, glcause := cause, glnode := node })

/-- A graph that passed its checks is loaded (R23, R276, R284, R318). -/
def installGraph (s : State) (p c : Nat) (g : Graph) : State :=
  let gen := (ctxOf s p c).gen + 1#16
  let s := modCtx s p c (fun x => { x with
    graph := some { g with gen := gen.toNat }, gen := gen, firn := [], check0 := [], check1 := [], launch := none })
  commandDone (fillBackings (freeOnCores s p c) p c g) p c 0#8 0x3FF

/-- GRAPH_LOAD (R157, R318): a load that GLCMD started. A refusal changes nothing in the context but GLSTAT; an error on the mesh or the seam that strikes its reads is one (R17; log entry 12). -/
def execGraphLoad (p : PartNo) (c : CtxNo) (s : State) : Result :=
  let p := p.toNat
  let c := c.toNat
  let x := ctxOf s p c
  if !x.glbusy || x.glcmd != 1 then .next s
  else if x.graph.isSome then .next (commandDone s p c cIllegal 0x3FF)
  else if transitError s.tick then .next (commandDone s p c cDataUe 0x3FF)
  else
    match readGraph s p c with
    | (s, .ok g) => .next (installGraph s p c g)
    | (s, .error (cause, node)) => .next (commandDone s p c cause node)

/-- A job of a context stands in a slot or is saved (R318). -/
def hasJobs (s : State) (p c : Nat) : Bool :=
  !(ctxOf s p c).saved.isEmpty ||
    (coresOf s p).any (fun n =>
      let on (sl : Slot) : Bool := sl.st != .empty && sl.job.part == p && sl.job.ctx == c
      on (coreOf s n).slot0 || on (coreOf s n).slot1)

/-- A loaded graph is released (R186, R276, R282, R284, R318). -/
def releaseGraph (s : State) (p c : Nat) : State :=
  let s := modCtx (discardLaunch s p c) p c (fun x => { x with graph := none, firn := [], check0 := [], check1 := [], lists := [] })
  let s := freeOnCores s p c
  (coresOf s p).foldl (fun s n => modCore s n (fun k =>
    match k.resident with
    | some (_, d) => if d == c then { k with resident := none } else k
    | none => k)) s

/-- GRAPH_UNLOAD (R318). -/
def execGraphUnload (p : PartNo) (c : CtxNo) (s : State) : Result :=
  let p := p.toNat
  let c := c.toNat
  let x := ctxOf s p c
  if !x.glbusy || x.glcmd != 2 then .next s
  else if x.graph.isNone then .next (commandDone s p c 0#8 0x3FF)
  else if x.busy || hasJobs s p c then .next (commandDone s p c cIllegal 0x3FF)
  else .next (commandDone (releaseGraph s p c) p c 0#8 0x3FF)

/-- GRAPH_COMMAND_END (R318): GLSTAT.BUSY returns to 0 and EVENT bit 5 is set. -/
def execGraphCommandEnd (p : PartNo) (c : CtxNo) (s : State) : Result :=
  let x := ctxOf s p.toNat c.toNat
  if !x.glbusy || x.glcmd != 0 then .next s
  else .next (partEvent (modCtx s p.toNat c.toNat (fun x => { x with glbusy := false })) p.toNat 5)

end Sys2Proof.Machine
end

