-- ==== Sys2Proof/Machine/MemEvents.lean ====
section
/-! DEFINITION. Requests on their way to memory and back (R71, R75, R80 to R85, R321), and translation walks (R88, R89). -/

namespace Sys2Proof.Machine

open Sys2Proof.Config

/-- The queue of an active job's core, with the job's slot. -/
def withJob (s : State) (n : CoreNo) (f : Nat → Job → State) : Result :=
  match (coreOf s n.toNat).active with
  | some j => .next (f j (jobOf s n.toNat j))
  | none => .next s

/-- The operation of the LQ or SQ whose access is next, with its physical address. -/
def cHead (s : State) (n j : Nat) (q : Queue) : Option (Op × Nat × Nat) :=
  let b := jobOf s n j
  let o := match q with
    | .lq => (headOp b.lq).filter (fun o => lqReady s n j o)
    | _ => (headOp b.sq).filter (fun o => sqReady s n j o)
  match o with
  | some o =>
    match o.kind with
    | .load _ pa _ k _ _ => some (o, pa, k)
    | .store _ pa _ k _ => some (o, pa, k)
    | .atomic _ wd _ _ pa _ _ _ _ => some (o, pa, if wd == .w then 4 else 8)
    | .vaultWord _ _ pa _ _ _ => some (o, pa, 4)
    | _ => none
  | none => none

/-- The engine operation of the AQ or XHQ that travels next: a job's or an intake queue's (R249). -/
def engineHead (s : State) (n j : Nat) (q : Queue) : Option Op :=
  let b := jobOf s n j
  let mine := (freeHead b q (queueOf b q)).filter (fun o => !isRemote o)
  let other := if q == .xhq then (coreOf s n).intake.find? (fun o => o.parked == 0) else none
  if intakeFirst s.tick then (match other with | some o => some o | none => mine) else (match mine with | some o => some o | none => other)

/-- An engine operation at a stage moves to another, where it travels a given way; an uncorrectable error may strike its traffic as it arrives (R17). -/
def engineMove (s : State) (n : CoreNo) (q : Queue) (way : Travel) (from' to' : Nat) : Result :=
  let n := n.toNat
  let j := ((coreOf s n).active).getD 0
  match engineHead s n j q with
  | some o =>
    if o.stage == from' && engineTravel s n j (engineVia s n j q o) o == way then
      .next (if to' == 2 && transitError s.tick then engineFails s n j q o else engineMod s n j q { o with stage := to' })
    else .next s
  | none => .next s

/-- CALENDAR_SLOT_ISSUE (R80, R82): the request at the head of a queue issues in its core's slot; one that is not ready misses it. -/
def execCalendarSlotIssue (n : CoreNo) (q : MQueue) (s : State) : Result :=
  match q with
  | .aq => engineMove s n .aq .calendar 0 1
  | .xhq => engineMove s n .xhq .calendar 0 1
  | _ => withJob s n (fun j _ =>
      match cHead s n.toNat j (ofMQueue q) with
      | some (o, pa, _) => if o.stage = 0 ∧ travelTo pa = .calendar then modJob s n.toNat j (fun b => replaceOp b (ofMQueue q) { o with stage := 1 }) else s
      | none => s)

/-- An operation of the LQ or SQ is performed at its point of coherence (R99); one that `rtfill` completes, through the fill port (R90). -/
def performC (s : State) (n j : Nat) (q : Queue) (o : Op) (direct : Bool) : State :=
  let direct := direct || o.filled != 0
  let s := if q == .lq then modJob (loadPerform s n j o direct) n j (fun b => removeOp b .lq o.seq)
    else sqEnd n j o (sqPerform s n j o direct)
  moveC s n j

/-- HOME_SLICE_PERFORM (R78, R83): a request that has issued is performed at its home slice. -/
def execHomeSlicePerform (n : CoreNo) (q : MQueue) (s : State) : Result :=
  match q with
  | .aq => engineMove s n .aq .calendar 1 2
  | .xhq => engineMove s n .xhq .calendar 1 2
  | _ => withJob s n (fun j _ =>
      match cHead s n.toNat j (ofMQueue q) with
      | some (o, _, _) => if o.stage = 1 then performC s n.toNat j (ofMQueue q) o false else s
      | none => s)

/-- WINDOW_ACCESS_ARRIVAL (R71): an access to a core or vault window is applied to its target, unless it waits for a busy tile. -/
def execWindowAccessArrival (n : CoreNo) (q : MQueue) (s : State) : Result :=
  match q with
  | .aq => engineMove s n .aq .window 0 2
  | .xhq => engineMove s n .xhq .window 0 2
  | _ => withJob s n (fun j _ =>
      match cHead s n.toNat j (ofMQueue q) with
      | some (o, pa, k) =>
        let word := match o.kind with | .vaultWord _ _ _ _ _ _ => true | _ => false
        if word || travelTo pa != .window || accBusy s pa k then s else performC s n.toNat j (ofMQueue q) o false
      | none => s)

/-- BANK_SIDE_OPERATION (R75): the vault word of the C stream's next operation is read, computed and written as one step at its bank. -/
def execBankSideOperation (n : CoreNo) (s : State) : Result :=
  withJob s n (fun j _ =>
    match cHead s n.toNat j .sq with
    | some (o, _, _) => (match o.kind with | .vaultWord _ _ _ _ _ _ => performC s n.toNat j .sq o false | _ => s)
    | none => s)

/-- A landing of a job ends: its value arrives, or is uncorrectable (R17, R81, R93). -/
def land (s : State) (n j : Nat) (l : Landing) : State :=
  landOne (modJob s n j (fun b => { b with landings := b.landings.filter (fun x => x.op != l.op) })) n j l

/-- READ_COMPLETION (R81): the data of the oldest calendar read arrives at its register. -/
def execReadCompletion (n : CoreNo) (s : State) : Result :=
  withJob s n (fun j b =>
    match b.landings.find? (fun l => !l.fabric) with
    | some l => land s n.toNat j l
    | none => s)

/-- WRITE_ACK (R83): a write acknowledgement arrives. -/
def execWriteAck (n : CoreNo) (s : State) : Result :=
  withJob s n (fun j b => if b.acks = 0 then s else modJob s n.toNat j (fun b => { b with acks := b.acks - 1 }))

/-- An engine operation's first access is a read of host memory. -/
def readsHost (s : State) (n j : Nat) (v : Via) (o : Op) : Bool :=
  let read := match o.kind with
    | .astro _ _ _ _ _ _ => false
    | .ascat _ _ _ _ _ _ _ _ => false
    | .copy c _ _ => c.ss == .va
    | _ => true
  read && match firstVa s n j o with
    | some va => (match translate s v.who.p v.who.c v.who.core va .read false with | .ok pa _ => decide (region pa = .host) | _ => false)
    | none => false

/-- An engine operation's fabric access completes; a host read that the host refuses is uncorrectable (R93, R321). -/
def engineFabric (s : State) (n : CoreNo) (q : Queue) (ur : Bool) : Result :=
  if !ur then engineMove s n q .fabric 0 2
  else
    let n := n.toNat
    let j := ((coreOf s n).active).getD 0
    match engineHead s n j q with
    | none => .next s
    | some o => .next (if o.stage != 0 || !readsHost s n j (engineVia s n j q o) o then s else engineFails s n j q o)

/-- FABRIC_ACCESS_COMPLETION (R85, R321): an access over the mesh or the host port completes at its issuer. -/
def execFabricAccessCompletion (n : CoreNo) (q : MQueue) (ur : Bool) (s : State) : Result :=
  match q with
  | .aq => engineFabric s n .aq ur
  | .xhq => engineFabric s n .xhq ur
  | _ => withJob s n (fun j b =>
      match (if ur then none else b.landings.find? (fun l => l.fabric && l.queue == q)) with
      | some l => land s n.toNat j l
      | none =>
        match cHead s n.toNat j (ofMQueue q) with
        | some (o, pa, _) =>
          if travelTo pa ≠ .fabric then s
          else if ur then
            match o.kind with
            | .load va _ _ _ _ _ =>
              if region pa = .host then moveC (cFault (modJob s n.toNat j (fun b => removeOp b .lq o.seq)) n.toNat j o cDataUe false va) n.toNat j else s
            | _ => s
          else performC s n.toNat j (ofMQueue q) o true
        | none => s)

/-! Walks (R88, R89). -/

/-- The partition and context whose accesses a core makes. -/
def coreCtx (s : State) (n : Nat) : Option (Nat × Nat) :=
  match (coreOf s n).active with
  | some j => some ((jobOf s n j).part, (jobOf s n j).ctx)
  | none => match partOfCore s n, (coreOf s n).ctx with | some p, some c => some (p, c) | _, _ => none

/-- An access that a core has queued waits for a page's translation (R89). -/
def awaitsPage (s : State) (n : Nat) (e : TlbEntry) : Bool :=
  let j := ((coreOf s n).active).getD 0
  let b := jobOf s n j
  let inPage (va : Word) : Bool := e.va ≤ va.toNat && va.toNat < e.va + e.size
  let waits (o : Op) : Bool := match opAccess o.kind with
    | some (va, _) => inPage va
    | none => match firstVa s n j o with | some va => inPage va | none => false
  coreCtx s n == some (e.part, e.ctx) && ((coreOf s n).intake.any waits || ((coreOf s n).active.isSome && (allOps b).any waits))

/-- A page's leaf enters the TLB of every core of a die that has an access waiting for it: their misses coalesce into one walk (R89, R97). -/
def fillTlbs (s : State) (n : Nat) (e : TlbEntry) : State :=
  ((List.range 128).map (n / 128 * 128 + ·)).foldl (fun t m =>
    if awaitsPage s m e && (pageIn (coreOf t m).tlb e.part e.ctx e.va).isNone then fillTlb t m e else t) s

/-- TRANSLATION_WALK_COMPLETE (R88, R89, R91, R97): a walk for the core's context that ends in a leaf fills its die's translation cache, its core's TLB and the TLBs of the die that wait for the page; where a cache has the page, no walk is made; a miss, a refusal and a walk that an error strikes fill nothing. -/
def execTranslationWalkComplete (n : CoreNo) (va : Word) (s : State) : Result :=
  let n := n.toNat
  match coreCtx s n with
  | none => .next s
  | some (p, c) =>
    if walkStruck s { p := p, c := c, core := some n } va then .next s
    else
      let t := walked s { p := p, c := c, core := some n } va
      match pageIn (coreOf t n).tlb p c va.toNat with
      | some e => .next (fillTlbs t n e)
      | none => .next t

end Sys2Proof.Machine
end

