-- ==== Sys2Proof/Machine/Queue.lean ====
section
/-! DEFINITION. Queue instructions (R106, R169 to R173). -/

namespace Sys2Proof.Machine

open Sys2Proof.Config

/-! QCTL (R171). -/

/-- The handles that a QCTL word names. -/
def qNamed (qa : Handle) (qb qd : Option Handle) : List Handle := qa :: (qb.toList ++ qd.toList)

/-- A QCTL instruction: every named queue passes R170 for the end. -/
def qctlOp (hs : List Handle) (e : QEnd) (body : State → Nat → Nat → Sid → List (Handle × QDesc) → Res) (s : State) : Result :=
  issue 1 { mgmt := false } s (fun s g =>
    match g with
    | .mgmt => raise cIllegal
    | .stream n j t =>
      let ds := hs.filterMap (fun h => (queueFor s g h e).map (fun d => (h, d)))
      if ds.length ≠ hs.length then raise cQueue else body s n j t ds)

/-- qwait and qroom (R171). -/
def qwaitOp (hs : List Handle) (fill : Bool) (k : Nat) (s : State) : Result :=
  qctlOp hs (if fill then .consumer else .producer) (fun s _ _ _ ds =>
    if ds.any (fun x => qCount x.2 < k) then raise cQueue
    else match ds.find? (fun x => (if fill then qFilled x.2 else qFree x.2) < k) with
      | some x => .wait s (.onQueue x.1 k (!fill))
      | none => .ok s .seq) s

/-- qwait (R171). -/
def execQwait (qa : Handle) (qb qd : Option Handle) (n : BitVec 3) (s : State) : Result := qwaitOp (qNamed qa qb qd) true (n.toNat + 1) s
/-- qroom (R171). -/
def execQroom (qa : Handle) (qb qd : Option Handle) (n : BitVec 3) (s : State) : Result := qwaitOp (qNamed qa qb qd) false (n.toNat + 1) s

/-- A pointer of a queue moved on by k, mod 2C (R169). -/
def bump (d : QDesc) (p k : Nat) : Nat := (p + k) % (2 * qCount d)

/-- qadv and qadvp (R106, R171). -/
def qadvOp (hs : List Handle) (head : Bool) (k : Nat) (s : State) : Result :=
  qctlOp hs (if head then .consumer else .producer) (fun s n j t ds =>
    if ds.any (fun x => (if head then qFilled x.2 else qFree x.2) < k) then raise cQueue
    else if ds.any (fun x => slotsBusy s n j t x.1 (if head then x.2.head else x.2.tail) k head) then .wait s .waiting
    else .ok (ds.foldl (fun s x => if head then setHead s n j x.1 (bump x.2 x.2.head k) else setTail s n j x.1 (bump x.2 x.2.tail k)) s) .seq) s

/-- qadv (R106, R171). -/
def execQadv (qa : Handle) (qb qd : Option Handle) (n : BitVec 3) (s : State) : Result := qadvOp (qNamed qa qb qd) true (n.toNat + 1) s
/-- qadvp (R106, R171). -/
def execQadvp (qa : Handle) (qb qd : Option Handle) (n : BitVec 3) (s : State) : Result := qadvOp (qNamed qa qb qd) false (n.toNat + 1) s

/-- qrst (R171). -/
def execQrst (qa : Handle) (qb qd : Option Handle) (s : State) : Result :=
  qctlOp (qNamed qa qb qd) .either (fun s n j _ ds =>
    if ds.any (fun x => names (jobOf s n j) x.1) then .wait s .waiting
    else .ok (ds.foldl (fun s x => setDesc s n j x.1 8 (zeros 4)) s) .seq) s

/-! QXFR (R172). -/

/-- A queue transfer on one queue. -/
def qxfrOp (reads : List Reg) (q : Handle) (e : QEnd) (body : State → Agent → Nat → Nat → QDesc → Res) (s : State) : Result :=
  issue 1 { mgmt := false, reads := reads } s (fun s g =>
    match g with
    | .mgmt => raise cIllegal
    | .stream n j _ =>
      match queueFor s g q e with
      | some d => body s g n j d
      | none => raise cQueue)

/-- The bytes of a slot that a transfer moves: min(8, S) of them. -/
def slotValue (s : State) (n : Nat) (d : QDesc) (p : Nat) : Word := w64 (leNat (spRead s n (qSlot d p) (min 8 (qSize d))))

/-- qpop (R172). -/
def execQpop (d : Reg) (q : Handle) (s : State) : Result :=
  qxfrOp [] q .consumer (fun s g n j x =>
    if qFilled x < 1 then .wait s (.onQueue q 1 false)
    else if slotsBusy s n j (sidOfAgent g) q x.head 1 true then .wait s .waiting
    else .ok (setHead (setReg s g d (slotValue s n x x.head)) n j q (bump x x.head 1)) .seq) s

/-- qpeek (R172). -/
def execQpeek (d a : Reg) (q : Handle) (s : State) : Result :=
  qxfrOp [a] q .consumer (fun s g n _ x =>
    let k := (reg s g a).toNat
    if qCount x ≤ k then raise cQueue
    else if qFilled x ≤ k then .wait s (.onQueue q (k + 1) false)
    else .ok (setReg s g d (slotValue s n x (x.head + k))) .seq) s

/-- qput (R100, R106, R172): into an outcome queue the word 1 or 0; no earlier operation of the stream is left that writes the slot, or reads it and would find the word there. -/
def execQput (a : Reg) (q : Handle) (s : State) : Result :=
  qxfrOp [a] q .producer (fun s g n j x =>
    let v := if x.kind = 2 then boolWord (reg s g a != 0#64) else reg s g a
    if qFree x < 1 then .wait s (.onQueue q 1 true)
    else if slotsBusy s n j (sidOfAgent g) q x.tail 1 false || slotsBusy s n j (sidOfAgent g) q x.tail 1 true then .wait s .waiting
    else
      let l := (leBytes 8 v.toNat ++ zeros (qSize x)).take (qSize x)
      .ok (setTail (spWrite s n (qSlot x x.tail) l) n j q (bump x x.tail 1)) .seq) s

/-- qcfg (R172): the descriptor is copied unchecked, and no check is made of the one that it replaces (DESIGN CHOICE, log entry 80). ALIGN comes before XLAT_PERM (DESIGN CHOICE, log 91). -/
def execQcfg (a : Reg) (q : Handle) (s : State) : Result :=
  issue 1 { mgmt := false, reads := [a] } s (fun s g =>
    match g with
    | .mgmt => raise cIllegal
    | .stream n j t =>
      let b := jobOf s n j
      let off := off21 (reg s g a)
      if off % 64 ≠ 0 then raise cAlign
      else if scratchSize < off + 64 then raise cXlatPerm
      else if names b q || !ownDone b t b.seq (wordsOut b) then .wait s .waiting
      else .ok (setDesc s n j q 0 (spRead s n off 64)) .seq)

/-- qcnt (R172). -/
def execQcnt (d : Reg) (q : Handle) (s : State) : Result :=
  issue 1 { mgmt := false } s (fun s g =>
    match g with
    | .mgmt => raise cIllegal
    | .stream n j _ =>
      let x := descOf s n j q
      .ok (setReg s g d (if descOk x then w64 (qFree x * 2 ^ 16 + qFilled x) else -1#64)) .seq)

/-- bqt and bqf (R173). -/
def bqOp (want : Bool) (q : Handle) (off : BitVec 11) (s : State) : Result :=
  qxfrOp [] q .consumer (fun s g n _ x =>
    if x.kind ≠ 2 then raise cQueue
    else if qFilled x < 1 then .wait s (.onQueue q 1 false)
    else
      let bit := (spRead s n (qSlot x x.head) 1).headD 0#8 |>.getLsbD 0
      .ok s (if bit == want then .jump (target11 (streamOf s g).pc off) else .seq)) s

/-- bqt (R173). -/
def execBqt (q : Handle) (off : BitVec 11) (s : State) : Result := bqOp true q off s
/-- bqf (R173). -/
def execBqf (q : Handle) (off : BitVec 11) (s : State) : Result := bqOp false q off s

end Sys2Proof.Machine
end

