-- ==== Sys2Proof/Machine/Sequencer.lean ====
section
/-! DEFINITION. The Step Sequencer (R26, R40 to R43), vault snapshots and rollback (R95, R96, R98, R282, R306, R307), and the context events of partition control (R175, R304, R317). -/

namespace Sys2Proof.Machine

open Sys2Proof.Config

/-- GO (R40). -/
def execGo (p : PartNo) (c : CtxNo) (stop : Bool) (s : State) : Result := .next (goLoop s p.toNat c.toNat stop)

/-- STOP (R40). -/
def execStop (p : PartNo) (c : CtxNo) (s : State) : Result := .next (stopLoop s p.toNat c.toNat)

/-! Activation (R26). -/

/-- A trip count from its source (R25, R26); an error on the mesh or the seam may strike the read of a memory word (R17; log entry 12). -/
def resolveTrip (s : State) (p c : Nat) (l : Nat × Nat × Nat) : State × Except Byte Nat :=
  match l.2.1 with
  | 0 => (s, .ok l.2.2)
  | 1 => (s, .ok (bitsAt (tget 0#64 (ctxOf s p c).k l.2.2) 0 32))
  | 2 => (s, .ok (tget 0#32 (partOf s p).mail l.2.2).toNat)
  | _ =>
    if transitError s.tick then (s, .error cDataUe)
    else match vaRead s (deviceWho p c) (w64 l.2.2) 4 with
    | (s, .ok b) => (s, .ok (leNat b))
    | (s, .error e) => (s, .error (causeOf e))

/-- The trips of a node in level order; the first that cannot be read ends it. -/
def resolveTrips (p c : Nat) : List (Nat × Nat × Nat) → State → State × Except Byte (List Nat)
  | [], s => (s, .ok [])
  | l :: r, s =>
    match resolveTrip s p c l with
    | (s, .error e) => (s, .error e)
    | (s, .ok n) =>
      match resolveTrips p c r s with
      | (s, .error e) => (s, .error e)
      | (s, .ok t) => (s, .ok (n :: t))

/-- Gang members named in GANGMAP (R316), and this package's place among them. -/
def gangMembers (q : Partition) : Nat := (List.range 32).countP (fun g => tget 0xFF#8 q.gangmap g != 0xFF#8)
def gangPlace (q : Partition) : Option Nat := (List.range 32).find? (fun g => (tget 0xFF#8 q.gangmap g).toNat == pkgid.toNat)

/-- The checks of R26 for one node, after its levels are resolved. -/
def activationError (q : Partition) (nd : Node) (trips : List Nat) : Option Byte :=
  if 2 ^ 24 < taskCount nd trips then some cLoop
  else if gangMembers q < nd.gang then some cIllegal
  else match nd.firn with
    | some f => if f.count < taskCount nd trips then some cFirnDesc else none
    | none => none

/-- The nodes of a graph resolved and checked in ascending id: their trips, or the first failure (R26). -/
def activateNodes (p c : Nat) : List Node → Nat → State → State × Except (Byte × Nat) (Table (List Nat))
  | [], _, s => (s, .ok [])
  | nd :: r, k, s =>
    match resolveTrips p c nd.levels s with
    | (s, .error e) => (s, .error (e, k))
    | (s, .ok t) =>
      match activationError (partOf s p) nd t with
      | some e => (s, .error (e, k))
      | none =>
        match activateNodes p c r (k + 1) s with
        | (s, .error e) => (s, .error e)
        | (s, .ok rest) => (s, .ok ((k, t) :: rest))

/-- A tile of a node runs on this package: on the gang's member that R27 names, by its place in GANGMAP (R323). DESIGN CHOICE (log 82): a package whose PKGID stands in no GANGMAP byte is no member and gets no task; of two bytes that hold it the lower is its place. -/
def tileHere (q : Partition) (nd : Node) (trips : List Nat) (tile : Nat) : Bool :=
  match gangPlace q with
  | none => false
  | some m =>
    let inner := ((List.range nd.levels.length).filter (fun i => isSpatial (nd.levels.getD i (0, 0, 0)))).reverse
    m < nd.gang &&
      match inner.findIdx? (fun i => (nd.levels.getD i (0, 0, 0)).1 == 3) with
      | none => true
      | some k =>
        let tr := inner.map (fun i => trips.getD i 0)
        (tileIndices tr tile).getD k 0 * nd.gang / tr.getD k 1 == m

/-- The tasks that a node's activation creates on this package, ascending (R26, R29). -/
def nodeTasks (q : Partition) (k : Nat) (nd : Node) (trips : List Nat) : Table Task :=
  ((List.range (taskCount nd trips)).filter (tileHere q nd trips)).map (fun t =>
    (taskKey k t, { node := k, tile := t, ctr := nd.depInit, st := if nd.depInit = 0 then .ready else .waiting }))

/-- The launch of a graph with resolved trips (R23, R26, R29). -/
def newLaunch (q : Partition) (g : Graph) (trips : Table (List Nat)) : Launch :=
  let per := (List.range g.nodes.length).map (fun k => (k, nodeTasks q k (g.nodes.getD k {}) (tget [] trips k)))
  { trips := trips
    tasks := per.flatMap (fun e => e.2)
    order := per.filterMap (fun e =>
      let l := (e.2.filter (fun t => t.2.st == .ready)).map (fun t => t.1)
      if l.isEmpty then none else some (e.1, l)) }

/-- A Firn checkpoint for the image of a step (R282). -/
def takeCheckpoint (x : Context) (step : Nat) : Context :=
  if step % 2 = 0 then { x with check0 := x.firn } else { x with check1 := x.firn }

/-- A launch of the loaded graph (R23, R26, R42, R282). -/
def launchGraph (s : State) (p c : Nat) : State :=
  let x := ctxOf s p c
  let step := (tget 0#64 x.k 0).toNat
  let s := if (tget 0#64 x.k 6).getLsbD 3 && (vrangeOf x).2 != 0 then modCtx s p c (fun x => takeCheckpoint x step) else s
  let g := graphOf s p c
  match activateNodes p c g.nodes 0 s with
  | (s, .error (e, k)) => stopErr s p c e k
  | (s, .ok trips) =>
    let la := newLaunch (partOf s p) g trips
    advanceLoop (progress (modCtx s p c (fun x => { x with launch := some la })) p c) p c

/-- The step registers that a record gives (R41, R42). -/
def stepRegs (x : Context) (a : Word) (w : List Byte) : Table Word :=
  let step := x.sqstep.toNat
  let count := x.sqcount.toNat
  let f := fieldAt w 16 4
  let k6 := f / 8 % 2 * 8 + (if step + 1 = count then 4 else 0) + (if step = 0 then 2 else 0) + f % 2
  [(0, w64 step), (1, w64 count), (2, w64 (fieldAt w 0 4)), (3, w64 (fieldAt w 4 4)), (4, w64 (fieldAt w 8 4)), (5, w64 (fieldAt w 12 4)),
    (6, w64 k6), (7, a)] ++ (List.range 8).map (fun i => (8 + i, w64 (fieldAt w (20 + 4 * i) 4)))

/-- Address of the record of the step that is next (R41). -/
def recordVa (x : Context) : Word := x.sqrec + w64 (x.sqstep.toNat * 64)

/-- STEP_RECORD_ARRIVAL (R42): the record is read, the step registers are loaded and the graph is launched; an error on the mesh or the seam stops the loop (R17; log entry 12). -/
def execStepRecordArrival (p : PartNo) (c : CtxNo) (s : State) : Result :=
  let p := p.toNat
  let c := c.toNat
  let x := ctxOf s p c
  if !x.busy || x.stopped || x.launch.isSome || (partOf s p).running != some c || x.sqcount.toNat ≤ x.sqstep.toNat then .next s
  else
    if transitError s.tick then .next (stopErr s p c cDataUe 0x3FF)
    else match vaRead s (deviceWho p c) (recordVa x) 64 with
    | (s, .error e) => .next (stopErr s p c (causeOf e) 0x3FF)
    | (s, .ok w) =>
      if fieldAt w 16 4 / 16 ≠ 0 ∨ !zeroAt w 52 64 then .next (stopErr s p c cIllegal 0x3FF)
      else .next (launchGraph (modCtx s p c (fun x => { x with k := stepRegs x (recordVa x) w })) p c)

/-! Snapshots and rollback. -/

/-- VA of a block of a column in an image (R95): `k` the column's place, `o` the block's place in the range. -/
def snapVa (s : State) (p c image k o : Nat) : Word :=
  let x := ctxOf s p c
  let len := (vrangeOf x).2 * 4096
  x.snaparea + w64 (image * (coresOf s p).length * len + k * len + o * 4096)

/-- The range of a context as pairs of column place and core. -/
def columnsOf (s : State) (p : Nat) : List (Nat × Nat) := (List.range (coresOf s p).length).zip (coresOf s p)

/-- Physical address of a 4 KiB block of a column's vault, as vault ranges number them. DESIGN CHOICE (log 89): one beyond the vault stands at the window's reserved offsets, which read as zero and ignore writes (R70). -/
def blockAt (n b : Nat) : Nat := vaultAt n + min (b * 4096) vaultSize

/-- One dirty block copied to an image, and its dirty bit cleared (R95). -/
def copyBlock (s : State) (p c image k n o : Nat) : State × Except Byte Unit :=
  let b := (vrangeOf (ctxOf s p c)).1 + o
  match physRead s p (blockAt n b) 4096 0 with
  | (s, .error e) => (s, .error e)
  | (s, .ok l) =>
    match vaWrite s (deviceWho p c) (snapVa s p c image k o) l with
    | (s, .error e) => (s, .error (causeOf e))
    | (s, .ok _) => (modCore s n (fun m =>
        if image = 0 then { m with dirty0 := m.dirty0.filter (· != b) } else { m with dirty1 := m.dirty1.filter (· != b) }), .ok ())

/-- One thing after another done to a state, as far as the first that fails. -/
def doEach {α : Type} (f : State → α → State × Except Byte Unit) (s : State) (l : List α) : State × Except Byte Unit :=
  l.foldl (fun r x => match r with | (s, .ok _) => f s x | r => r) (s, .ok ())

/-- The dirty blocks of a column copied, as far as the first that fails. -/
def copyColumn (s : State) (p c image k n : Nat) : State × Except Byte Unit :=
  let (b, len) := vrangeOf (ctxOf s p c)
  let dirty := if image = 0 then (coreOf s n).dirty0 else (coreOf s n).dirty1
  doEach (fun s o => copyBlock s p c image k n o) s ((List.range len).filter (fun o => dirty.contains (b + o)))

/-- The dirty blocks of every column copied. -/
def copyColumns (s : State) (p c image : Nat) : State × Except Byte Unit :=
  doEach (fun s e => copyColumn s p c image e.1 e.2) s (columnsOf s p)

/-- SNAPSHOT_COMMIT (R95, R98): every column's dirty blocks are copied and the commit word is written; a copy that fails, or that an error on the mesh or the seam strikes (R17; log entry 12), stops the loop and leaves the image uncommitted (log entry 34). -/
def execSnapshotCommit (p : PartNo) (c : CtxNo) (s : State) : Result :=
  let p := p.toNat
  let c := c.toNat
  let x := ctxOf s p c
  match x.snap with
  | none => .next s
  | some sn =>
    if !x.busy || x.stopped || (partOf s p).running != some c then .next s
    else
      match (if transitError s.tick then (s, .error cDataUe) else copyColumns s p c sn.image) with
      | (s, .error e) => .next (modCtx (stopErr s p c e 0x3FF) p c (fun x => { x with launch := none, snap := none }))
      | (s, .ok _) => .next (stepDone (writeCommit s p c sn.image sn.step) p c)

/-- ROLLBACK_REQUEST (R306, R317). -/
def execRollbackRequest (p : PartNo) (c : CtxNo) (s : State) : Result := .next (requestRollback s p.toNat c.toNat)

/-- The committed step of an image, where its commit word can be read and names one (R98); the read counts its corrections (R91). -/
def committed (s : State) (p c image : Nat) : State × Option Nat :=
  if (vrangeOf (ctxOf s p c)).2 = 0 then (s, none)
  else match vaRead s (deviceWho p c) (commitVa s p c image) 8 with
    | (s, .ok l) => (s, if leNat l = 2 ^ 64 - 1 then none else some (leNat l))
    | (s, .error _) => (s, none)

/-- The image with the larger committed step, and the step (R96). -/
def chooseImage (s : State) (p c : Nat) : State × Option (Nat × Nat) :=
  let (s, x) := committed s p c 0
  let (s, y) := committed s p c 1
  (s, match x, y with
    | some a, some b => if a < b then some (1, b) else some (0, a)
    | some a, none => some (0, a)
    | none, some b => some (1, b)
    | none, none => none)

/-- A block of an image copied into the vault of a column, where it can be read (R96). -/
def restoreBlock (s : State) (p c image k n o : Nat) : State :=
  match vaRead s (deviceWho p c) (snapVa s p c image k o) 4096 with
  | (s, .error _) => s
  | (s, .ok l) =>
    (physWrite s (blockAt n ((vrangeOf (ctxOf s p c)).1 + o)) 0 l).1

/-- A rollback of a context that has no active job (R96, R98, R282, R306). Every Firn entry gets the state that the image's checkpoint records: that is how those of the step and later go (R282; DEDUCED, log entry 35). -/
def rollBack (s : State) (p c : Nat) : State :=
  let halted := (ctxOf s p c).stopped
  let s := modCtx (discardLaunch s p c) p c (fun x => { x with rb := false })
  match chooseImage s p c with
  | (s, none) => modCtx s p c (fun x => { x with stopped := halted })
  | (s, some (image, step)) =>
    let s := (columnsOf s p).foldl (fun s e => (List.range (vrangeOf (ctxOf s p c)).2).foldl (fun s o => restoreBlock s p c image e.1 e.2 o) s) s
    modCtx s p c (fun x => { x with
      firn := if image = 0 then x.check0 else x.check1
      turns := []
      sqstep := BitVec.ofNat 16 step })

/-- ROLLBACK (R96, R306): a requested rollback takes place once no job of the context is active. DESIGN CHOICE: one requested before a GO acts on the loop of that GO (log entry 72). -/
def execRollback (p : PartNo) (c : CtxNo) (s : State) : Result :=
  let p := p.toNat
  let c := c.toNat
  if !(ctxOf s p c).rb || (coresOf s p).any (fun n => runsCtx s n p c) then .next s else .next (rollBack s p c)

/-- The ranges of vault storage that a failed bank holds, or a failed bus or layer (R74, R307). -/
def failedRanges (n bank : Nat) (all : Bool) : List (Nat × Nat × Wrong) :=
  if all then [(vaultAt n, vaultAt n + vaultSize, spareWrong)]
  else (List.range 768).map (fun i => (vaultAt n + (64 * i + bank) * 256, vaultAt n + (64 * i + bank) * 256 + 256, spareWrong))

/-- VAULT_BANK_FAILURE (R307): the spare's words are uncorrectable until they are written, and every context with a range declared on the column stops and is to be rolled back. -/
def execVaultBankFailure (n : CoreNo) (bank : BitVec 6) (all : Bool) (s : State) : Result :=
  let s := { s with mem := { s.mem with flaws := s.mem.flaws ++ failedRanges n.toNat bank.toNat all } }
  match partOfCore s n.toNat with
  | none => .next s
  | some p =>
    .next ((List.range nCtxs).foldl (fun s c =>
      if (vrangeOf (ctxOf s p c)).2 = 0 then s
      -- node 0x3FF marks the rollback as the device's, of a context that had stopped before as well
      else modCtx (stopErr (stopContext s p c cDataUe 0x3FF none) p c cDataUe 0x3FF) p c (fun x => { x with rb := true })) s)

/-! Events of partition control. -/

/-- CONTEXT_ENABLE (R317). -/
def execContextEnable (p : PartNo) (c : CtxNo) (en : Bool) (s : State) : Result :=
  if (ctxOf s p.toNat c.toNat).en == en then .next s else .next (ctxEnable s p.toNat c.toNat en)

/-- VAULT_RANGE_DECLARE (R95, R98, R317). -/
def execVaultRangeDeclare (p : PartNo) (c : CtxNo) (v : Word) (s : State) : Result := .next (declareRange s p.toNat c.toNat v)

/-- PBSET_WRITE (R175). -/
def execPbsetWrite (p : PartNo) (c : CtxNo) (tag : BitVec 3) (v : BitVec 320) (s : State) : Result :=
  .next (writePbset s p.toNat c.toNat tag.toNat v)

/-- RELEASE_DELIVER (R304). -/
def execReleaseDeliver (p : PartNo) (n : CoreNo) (s : State) : Result := .next (releaseDeliver s p.toNat n.toNat)

/-- RELEASE_KILL (R304). -/
def execReleaseKill (p : PartNo) (n : CoreNo) (s : State) : Result := .next (releaseKill s p.toNat n.toNat)

end Sys2Proof.Machine
end

