-- ==== Sys2Proof/Machine/Digest.lean ====
section
/-! DEFINITION. SHAKE256 (FIPS 202), and the verification of an SLH-DSA-SHAKE-256s signature (FIPS 205), which boot makes of the firmware image (R324). -/

namespace Sys2Proof.Machine

/-! The Keccak permutation: 25 lanes, lane x + 5y. -/

/-- Rotation amounts of the lanes. -/
def keccakRot : List Nat := [0, 1, 62, 28, 27, 36, 44, 6, 55, 20, 3, 10, 43, 25, 39, 41, 45, 15, 21, 8, 18, 2, 61, 56, 14]

/-- The shift register that gives the round constants. -/
def keccakLfsr (r : Nat) : Nat := if r < 128 then 2 * r else Nat.xor (2 * r) 0x171

/-- The bits of a round constant, and the register after them. -/
def keccakRc (r : Nat) : Word × Nat :=
  (List.range 7).foldl (fun (a : Word × Nat) j => (if a.2 % 2 = 1 then a.1 ^^^ BitVec.ofNat 64 (2 ^ (2 ^ j - 1)) else a.1, keccakLfsr a.2)) (0#64, r)

/-- One round. -/
def keccakRound (rc : Word) (a : List Word) : List Word :=
  let at' (l : List Word) (i : Nat) : Word := l.getD i 0#64
  let c := (List.range 5).map (fun x => (List.range 5).foldl (fun z y => z ^^^ at' a (x + 5 * y)) 0#64)
  let d := (List.range 5).map (fun x => at' c ((x + 4) % 5) ^^^ (at' c ((x + 1) % 5)).rotateLeft 1)
  let b := (List.range 25).map (fun i =>
    -- lane X + 5Y of the result of ρ and π comes from lane (X + 3Y) mod 5 + 5X
    let x := (i % 5 + 3 * (i / 5)) % 5
    let j := x + 5 * (i % 5)
    (at' a j ^^^ at' d x).rotateLeft (keccakRot.getD j 0))
  (List.range 25).map (fun i =>
    let y := i / 5 * 5
    let v := at' b i ^^^ (~~~ (at' b (y + (i + 1) % 5)) &&& at' b (y + (i + 2) % 5))
    if i = 0 then v ^^^ rc else v)

/-- Rounds, with the register of the round constants. -/
def keccakRounds : Nat → Nat → List Word → List Word
  | 0, _, a => a
  | n + 1, r, a => let k := keccakRc r; keccakRounds n k.2 (keccakRound k.1 a)

/-- Keccak-f[1600]. -/
def keccakF (a : List Word) : List Word := keccakRounds 24 1 a

/-- Blocks of 136 bytes absorbed; the fuel is their number. -/
def absorb : Nat → List Byte → List Word → List Word
  | 0, _, a => a
  | n + 1, l, a =>
    let x := (List.range 25).map (fun i => a.getD i 0#64 ^^^ (if i < 17 then BitVec.ofNat 64 (fieldAt l (8 * i) 8) else 0#64))
    absorb n (l.drop 136) (keccakF x)

/-- Blocks squeezed; the fuel is their number. -/
def squeeze : Nat → List Word → List Byte
  | 0, _ => []
  | n + 1, a => (a.take 17).flatMap (fun w => leBytes 8 w.toNat) ++ squeeze n (keccakF a)

/-- SHAKE256 of a message, n bytes. -/
def shake256 (m : List Byte) (n : Nat) : List Byte :=
  let k := m.length / 136 + 1
  let pad := 136 * k - m.length
  let tail := if pad = 1 then [0x9F#8] else [0x1F#8] ++ List.replicate (pad - 2) 0#8 ++ [0x80#8]
  (squeeze ((n + 135) / 136) (absorb k (m ++ tail) (List.replicate 25 0#64))).take n

/-! SLH-DSA-SHAKE-256s: n = 32, 8 layers of height 8, 22 FORS trees of height 14, w = 16. -/

/-- A number of n bytes, most significant first. -/
def beBytes (n v : Nat) : List Byte := (leBytes n v).reverse
def beNat (l : List Byte) : Nat := leNat l.reverse

/-- The 32 bytes of a hash address: layer, tree, type and three words. -/
def slhAdrs (layer tree type a b c : Nat) : List Byte :=
  beBytes 4 layer ++ beBytes 12 tree ++ beBytes 4 type ++ beBytes 4 a ++ beBytes 4 b ++ beBytes 4 c

/-- The tweakable hash of a public seed, an address and a message. -/
def slhHash (seed adrs m : List Byte) : List Byte := shake256 (seed ++ adrs ++ m) 32

/-- Steps i, i + 1, … of a WOTS+ chain. -/
def slhChain (seed : List Byte) (adrs : Nat → List Byte) : Nat → Nat → List Byte → List Byte
  | 0, _, x => x
  | n + 1, i, x => slhChain seed adrs n (i + 1) (slhHash seed (adrs i) x)

/-- The 67 base-16 digits of a message with its checksum. -/
def slhDigits (m : List Byte) : List Nat :=
  let d := m.flatMap (fun b => [b.toNat / 16, b.toNat % 16])
  let s := d.foldl (fun z x => z + (15 - x)) 0
  d ++ [s / 256 % 16, s / 16 % 16, s % 16]

/-- The WOTS+ public key of leaf `key` of a tree from a signature. -/
def slhWots (seed sig m : List Byte) (layer tree key : Nat) : List Byte :=
  let ends := (slhDigits m).zipIdx.flatMap (fun e =>
    slhChain seed (fun j => slhAdrs layer tree 0 key e.2 j) (15 - e.1) e.1 ((sig.drop (32 * e.2)).take 32))
  slhHash seed (slhAdrs layer tree 1 key 0 0) ends

/-- The root of a tree from a leaf, its index and its authentication path of n nodes, from height h up. -/
def slhClimb (seed : List Byte) (adrs : Nat → Nat → List Byte) : Nat → Nat → Nat → List Byte → List Byte → List Byte
  | 0, _, _, node, _ => node
  | n + 1, h, i, node, auth =>
    let s := auth.take 32
    let x := slhHash seed (adrs (h + 1) (i / 2)) (if i % 2 = 0 then node ++ s else s ++ node)
    slhClimb seed adrs n (h + 1) (i / 2) x (auth.drop 32)

/-- The root of the layers from `layer` up: each signs the root below it. -/
def slhTree (seed : List Byte) : Nat → Nat → Nat → Nat → List Byte → List Byte → List Byte
  | 0, _, _, _, _, node => node
  | n + 1, layer, tree, leaf, sig, node =>
    let x := slhWots seed sig node layer tree leaf
    let root := slhClimb seed (fun h i => slhAdrs layer tree 2 0 h i) 8 0 leaf x ((sig.drop 2144).take 256)
    slhTree seed n (layer + 1) (tree / 256) (tree % 256) (sig.drop 2400) root

/-- The FORS public key from a signature and 22 indexes of 14 bits. -/
def slhFors (seed sig md : List Byte) (tree leaf : Nat) : List Byte :=
  let v := beNat md
  let roots := (List.range 22).flatMap (fun i =>
    let idx := v / 2 ^ (8 * md.length - 14 * (i + 1)) % 2 ^ 14
    let s := sig.drop (480 * i)
    let node := slhHash seed (slhAdrs 0 tree 3 leaf 0 (i * 2 ^ 14 + idx)) (s.take 32)
    slhClimb seed (fun h j => slhAdrs 0 tree 3 leaf h j) 14 0 (i * 2 ^ 14 + idx) node ((s.drop 32).take 448))
  slhHash seed (slhAdrs 0 tree 4 leaf 0 0) roots

/-- slh_verify with an empty context: a message, a signature of 29,792 bytes and a public key of 64. -/
def slhVerify (msg sig pk : List Byte) : Bool :=
  let seed := pk.take 32
  let root := pk.drop 32
  let digest := shake256 (sig.take 32 ++ pk ++ [0#8, 0#8] ++ msg) 47
  let tree := beNat ((digest.drop 39).take 7)
  let leaf := beNat ((digest.drop 46).take 1)
  let node := slhFors seed ((sig.drop 32).take 10560) (digest.take 39) tree leaf
  sig.length == 29792 && pk.length == 64 && slhTree seed 8 0 tree leaf ((sig.drop 10592).take 19200) node == root

end Sys2Proof.Machine
end

