-- ==== Sys2Proof/Machine/System.lean ====
section
/-! DEFINITION. The package around the partitions: links and ingress (R114, R310, R322), the host port (R319, R320, R332), boot and attestation (R324, R325), power states (R327), the management core's events (R311, R328, R329, R334) and resets (R17, R314, R330). -/

namespace Sys2Proof.Machine

open Sys2Proof.Config

/-! Column power states (R327). -/

/-- A scheduler probe in flight reads an arena in the vault of a column. -/
def probesVault (s : State) (p n : Nat) : Bool :=
  let cs := coresOf s p
  (partOf s p).ctxs.any (fun e =>
    match e.2.launch with
    | none => false
    | some la => la.probes.any (fun b =>
        match taskOf la b.task with
        | some t => (match (nodeOf s p e.1 t.node).firn with | some f => f.aspace == 2 && cs.getD (t.tile % max cs.length 1) 0 == n | none => false)
        | none => false))

/-- A column is idle: it holds no active or staged job, and no scheduler probe reads its vault. -/
def isIdle (s : State) (p n : Nat) : Bool :=
  let k := coreOf s n
  k.active.isNone && k.slot0.st != .staged && k.slot1.st != .staged && !probesVault s p n

/-- C3 is open to a partition's columns: no enabled context declares a vault range or places a Firn arena in a vault. -/
def mayC3 (s : State) (p : Nat) : Bool :=
  (partOf s p).ctxs.all (fun e =>
    !e.2.en || ((vrangeOf e.2).2 == 0 &&
      match e.2.graph with
      | some g => g.nodes.all (fun nd => match nd.firn with | some f => f.aspace != 2 | none => true)
      | none => true))

/-- COLUMN_ENTER_C1 (R327). -/
def execColumnEnterC1 (n : CoreNo) (s : State) : Result :=
  let n := n.toNat
  match partOfCore s n with
  | none => .next s
  | some p =>
    if (coreOf s n).power != .c0 || !isIdle s p n || (partOf s p).lattol.toNat < 16 then .next s
    else .next (modCore s n (fun k => { k with power := .c1, gatedAt := some s.now }))

/-- COLUMN_ENTER_DEEP (R327). -/
def execColumnEnterDeep (n : CoreNo) (s : State) : Result :=
  let n := n.toNat
  match partOfCore s n with
  | none => .next s
  | some p =>
    let k := coreOf s n
    let lat := (partOf s p).lattol.toNat
    if (k.power != .c0 && k.power != .c1) || !isIdle s p n then .next s
    else if 1048576 ≤ lat && mayC3 s p then .next (deepColumn s n .c3)
    else if 8192 ≤ lat then .next (deepColumn s n .c2)
    else .next s

/-- COLUMN_WAKE (R327): a column of a partition returns to C0. -/
def execColumnWake (n : CoreNo) (s : State) : Result :=
  if (partOfCore s n.toNat).isNone then .next s else .next (wakeColumn s n.toNat)

/-! The management core (R311, R328, R329, R334). -/

/-- VACATE (R311). -/
def execVacate (n : CoreNo) (s : State) : Result := .next (requestVacate s n.toNat)

/-- THROTN_WRITE (R13, R329). -/
def execThrotnWrite (n : CoreNo) (v : Word) (s : State) : Result :=
  .next { s with mgmt := { s.mgmt with throt := tset s.mgmt.throt n.toNat (v.setWidth 4) } }

/-- The reading of a sensor. -/
def tempOf (m : Mgmt) (i : Nat) : BitVec 16 := (tget (0#16, 0#32) m.temps i).1

/-- The critical-trip clamp after an update (R329): entered where a sensor reads CRIT or more, left where every sensor reads at least 80 below it. -/
def clampStep (s : State) : State :=
  let hot := (List.range 266).any (fun i => crit.toInt ≤ (tempOf s.mgmt i).toInt)
  let cool := (List.range 266).all (fun i => (tempOf s.mgmt i).toInt + 80 ≤ crit.toInt)
  if hot && !s.clamped then { s with clamped := true, mgmt := { s.mgmt with mevent := s.mgmt.mevent ||| 2#4 } }
  else if cool && s.clamped then { s with clamped := false, mgmt := { s.mgmt with mevent := s.mgmt.mevent ||| 4#4 } }
  else s

/-- SENSOR_UPDATE (R328, R329). -/
def execSensorUpdate (i : BitVec 9) (raw : BitVec 16) (s : State) : Result :=
  let i := i.toNat
  if 266 ≤ i then .next s
  else
    let m := s.mgmt
    let m := { m with temps := tset m.temps i (raw, (tget (0#16, 0#32) m.temps i).2 + 1#32) }
    let m := if m.alerthi.toInt ≤ raw.toInt
      then { m with alerts := m.alerts ||| BitVec.ofNat 272 (2 ^ i), mevent := m.mevent ||| 1#4 } else m
    .next (clampStep { s with mgmt := m })

/-- MGMT_TRAP_ENTRY (R294, R334). -/
def execMgmtTrapEntry (cause : Byte) (faddr : BitVec 32) (s : State) : Result :=
  -- no other code is ever produced (R294)
  if !s.mgmt.running || s.mgmt.stopped || cause = 0#8 || 0x1A < cause.toNat then .next s
  else .next (mgmtTrap s { cause := cause, faddr := faddr.setWidth 64 })

/-! Links (R114, R310, R322). -/

/-- The port by which a package is reached (R323). -/
def routedBy (s : State) (pkg port : Nat) : Bool := tfind s.routes pkg == some port

/-- A partition uses a port: it reaches a member of its gang by it, or the host (R322, log entry 37). -/
def usesPort (s : State) (p port : Nat) : Bool :=
  let q := partOf s p
  if port = 12 then q.pgran != 0#16 else q.gangmap.any (fun e => e.2 != 0xFF#8 && routedBy s e.2.toNat port)

/-- A port goes down (R322): requests in flight through it fail, and each partition that used it is told. -/
def portDown (s : State) (port : Nat) : State :=
  let s := { s with ports := tset s.ports port { tget {} s.ports port with down := true } }
  let s := (tkeys s.cores).foldl (fun s n =>
    match (coreOf s n).active with
    | none => s
    | some j =>
      let s := ((jobOf s n j).xhq.filter (fun o => isRemote o && o.stage == 1 && routedBy s (remoteTo o).1 port)).foldl (fun s o =>
        remoteFails s n j o cDataUe 0 (remoteTo o).2) s
      if port != 12 then s
      else ((jobOf s n j).landings.filter (·.host)).foldl (fun s l =>
        landOne (modJob s n j (fun b => { b with landings := b.landings.filter (fun x => x.op != l.op) })) n j { l with wrong := true }) s) s
  ((List.range nParts).filter (fun p => usesPort s p port)).foldl (fun s p => partEvent s p 4) s

/-- A column runs a context: it has switched to it, and not yet away from it (R22, R310). -/
def hasSwitched (s : State) (c n : Nat) : Bool := (coreOf s n).ctx == some c

/-- Traffic for a context is held: no column has switched to it, or a column whose window a page of it reaches has not (R310), or it reaches an accumulator row of a busy tile, for which it waits (R71). -/
def mustHold (s : State) (f : Flit) : Bool :=
  let p := f.part.toNat
  let c := f.ctx.toNat
  !(coresOf s p).any (hasSwitched s c) ||
    (pageStarts f.va f.bytes.length).any (fun va =>
      match translate s p c none va .write true with
      | .ok pa _ => (match region pa with | .core n _ => !hasSwitched s c n | .vault n _ => !hasSwitched s c n | _ => false)
      | _ => false)
    || rangeBusy s { p := p, c := c, user := true } .write f.va f.bytes.length

/-- A partition's traffic through a port is frozen after a violation (R304, R320, R242). -/
def freezePort (s : State) (p port : Nat) : State :=
  partEvent (modPart s p (fun q => { q with portFrozen := q.portFrozen ||| BitVec.ofNat 16 (2 ^ port) })) p 0

/-- A remote store is performed at its destination (R242, R243); a fault leaves it unperformed, and a violation freezes the port for the partition. -/
def performFlit (s : State) (port : Nat) (f : Flit) : State :=
  let p := f.part.toNat
  let c := f.ctx.toNat
  let w : Who := { p := p, c := c, user := true }
  let bad (s : State) (e : VErr) : State :=
    match e with | .fault _ true _ => freezePort s p port | _ => s
  match vaCheck s w .write f.va f.bytes.length with
  | some e => bad (walkedRange s w f.va f.bytes.length) e
  | none =>
    match vaWrite s w f.va f.bytes with
    | (s, .error e) => bad s e
    | (s, .ok _) =>
      match f.arrival with
      | none => s
      | some a => if (partOf s p).pgran.getLsbD (a.toNat / 16 / 16) then txbArrive s (a.toNat / 16) c (a.toNat % 16) f.bytes.length else s

/-- Bytes held in a partition's ingress buffer. -/
def heldBytes (q : Partition) : Nat := q.ingress.foldl (fun z f => z + f.2.bytes.length) 0

/-- A flit in sequence is taken (R114, R310, R323): forwarded, held or performed; nothing where its port is frozen for the partition, or its ingress buffer has no room. -/
def acceptFlit (s : State) (port : Nat) (f : Flit) : State :=
  let p := f.part.toNat
  let next := fun (s : State) => { s with ports := tset s.ports port { tget {} s.ports port with next := (tget {} s.ports port).next + 1#16, replays := 0 } }
  if port = 12 || f.dest != pkgid then next s
  else if (partOf s p).portFrozen.getLsbD port || 65536 < heldBytes (partOf s p) + f.bytes.length then s
  else if mustHold s f || (partOf s p).ingress.any (fun g => g.2.ctx == f.ctx) then next (modPart s p (fun q => { q with ingress := q.ingress ++ [(port, f)] }))
  else next (performFlit s port f)

/-- The CRC of a flit's 256 bytes holds (R322). -/
def flitOk (l : List Byte) : Bool := l.length == 256 && fieldAt l 252 4 == (crc32c 0#32 (l.take 252)).toNat

/-- FLIT_RECEIVE (R114, R322): a flit with a bad CRC is discarded and resent, at most 16 times; of a good one the acknowledged number is taken, and one out of sequence is discarded. -/
def execFlitReceive (port : BitVec 4) (raw : List Byte) (f : Flit) (s : State) : Result :=
  let t := port.toNat
  let x := tget {} s.ports t
  if 12 < t || x.down || !x.enabled then .next s
  else if !flitOk raw then
    if 16 ≤ x.replays then .next (portDown s t)
    else .next { s with ports := tset s.ports t { x with replays := x.replays + 1 } }
  else
    let s := { s with ports := tset s.ports t { x with acked := BitVec.ofNat 16 (fieldAt raw 2 2) } }
    if fieldAt raw 0 2 ≠ x.next.toNat then .next s else .next (acceptFlit s t f)

/-- The first held store that is allowed, no earlier one of its context being held back (R114, R310). -/
def firstAllowed (s : State) : List (Nat × Flit) → List (Nat × Flit) → Option (List (Nat × Flit) × Nat × Flit)
  | _, [] => none
  | before, f :: r => if !before.any (fun g => g.2.ctx == f.2.ctx) && !mustHold s f.2 then some (before ++ r, f) else firstAllowed s (before ++ [f]) r

/-- INGRESS_RELEASE (R71, R310): a held store is performed as one of the port it came by. -/
def execIngressRelease (p : PartNo) (s : State) : Result :=
  match firstAllowed s [] (partOf s p.toNat).ingress with
  | none => .next s
  | some (rest, t, f) => .next (performFlit (modPart s p.toNat (fun q => { q with ingress := rest })) t f)

/-- FROZEN_PORT_RELEASE (R304). -/
def execFrozenPortRelease (p : PartNo) (port : BitVec 4) (s : State) : Result :=
  .next (modPart s p.toNat (fun q => { q with portFrozen := q.portFrozen &&& ~~~(BitVec.ofNat 16 (2 ^ port.toNat)) }))

/-! Resets (R17, R314, R330). -/

/-- REPAIR_REPLAY (R314). -/
def execRepairReplay (s : State) : Result := .next { s with vaultReady := true }

/-- Storage as a warm reset leaves it: HBM, vaults, management SRAM and host memory keep their bytes; core windows do not. -/
def warmMem (m : Memory) : Memory :=
  { m with cells := m.cells.filter (fun e => !(coreBase ≤ e.1 && e.1 < pctlBase)), fills := [] }

/-- A warm reset (R6, R314, R330): registers take their reset values; firmware, routing and the attestation lock are kept. -/
def warmReset (s : State) : State :=
  { s with
    now := 0
    mem := warmMem s.mem
    dieXlat := []
    cores := []
    parts := s.parts.map (fun e => (e.1, { cecount := e.2.cecount }))
    attests := []
    bootaddr := 0#64
    bootlen := 0#32
    mgmt := { running := s.mgmt.running, stopped := s.mgmt.stopped, stream := s.mgmt.stream }
    vaultReady := false }

/-- WARMRST (R314, R330, R332). -/
def execWarmrst (s : State) : Result := .next (warmReset s)

/-- COLD_RESET (R330): every register to its reset value; host memory is not the device's. -/
def execColdReset (s : State) : Result :=
  .next { State.reset with
    tick := s.tick
    agenda := s.agenda
    mem := { State.reset.mem with
      cells := s.mem.cells.filter (fun e => hostBase ≤ e.1 && e.1 < physEnd)
      keyOf := s.mem.keyOf.filter (fun e => hostBase ≤ e.1 * 32 && e.1 * 32 < physEnd) } }

/-- PACKAGE_POWER_LOSS (R17): nothing runs until a cold reset. -/
def execPackagePowerLoss (s : State) : Result := .next { s with powered := false }

/-- A context after a function reset (R330): disabled, unloaded, its sequencer at rest; its registers stand. -/
def resetContext (x : Context) : Context :=
  { x with
    en := false, busy := false, stopReq := false, rb := false, glbusy := false, glcmd := 0, graph := none, launch := none, lists := [], firn := []
    check0 := [], check1 := [], snap := none, stopped := false, commitDue := false, saved := [], turns := []
    pennants := x.pennants.map (fun e => (e.1, { set := e.2.set })) }

/-- A column of a partition after a function reset: its jobs have ended without saving. -/
def resetColumn (s : State) (n : Nat) : State :=
  modCore (dropLines s n (fun _ => true)) n (fun k => { k with
    slot0 := emptySlot k.slot0, slot1 := emptySlot k.slot1, active := none, ctx := none, ending := false, forced := false
    resident := none, lastCtx := none, frozen := false, doubleFault := false, owned := [], txb := [], floe := [], intake := [], persist := []
    tlb := [] })

/-- FUNCTION_LEVEL_RESET (R59, R330): held flits and waiting INDEX entries of the partition go with its jobs (DESIGN CHOICE, log entry 60). -/
def execFunctionLevelReset (p : PartNo) (s : State) : Result :=
  let p := p.toNat
  let s := (coresOf s p).foldl resetColumn s
  .next (modPart s p (fun q => { q with
    ctxs := q.ctxs.map (fun e => (e.1, resetContext e.2))
    running := none, mail := [], event := 0#6, poolGen := [], poolUsed := [], ingress := [], ringWait := []
    ring := q.ring.map (fun e => (e.1, { e.2 with pend := false, filling := 0 })), ringDue := [] }))

/-! Boot and attestation (R324, R325, R332). -/

/-- The boot ROM begins where it has not begun (R332). -/
def bootGo (s : State) : State := { s with bootgo := true }

/-- BOOTGO (R324). -/
def execBootgo (s : State) : Result := .next (bootGo s)

/-- Bytes of host memory at a host address (R321). -/
def hostBytes (s : State) (a len : Nat) : List Byte :=
  match storeRead s.mem (hostBase + a) len [] with
  | some (l, _) => l
  | none => zeros len

/-- The security version number and the public key of an image's header (R324). -/
def imageSvn (l : List Byte) : Nat := fieldAt l 8 8
def imageKey (l : List Byte) : List Byte := (l.drop 16).take 64

/-- The signature of an image, the 29,792 bytes behind its code, holds over header and code (R324). -/
def imageSigned (l : List Byte) : Bool :=
  let k := l.length - 29792
  80 ≤ k && slhVerify (l.take k) (l.drop k) (imageKey l)

/-- The first step of R324 that an image fails: its size, header, key hash, signature and version. -/
def bootFailure (s : State) (l : List Byte) : Option Nat :=
  if 229376 < s.bootlen.toNat then some 2
  else if fieldAt l 0 4 ≠ 0x464D4C4E ∨ fieldAt l 4 4 ≠ encid.toNat then some 3
  else if shake256 (imageKey l) 32 ≠ leBytes 32 fusedKeyHash.toNat then some 4
  else if !imageSigned l then some 5
  else if imageSvn l < fusedSvn.toNat then some 6
  else none

/-- BOOT_IMAGE_LOADED (R324): the image stands in SRAM and the management core runs its code, which follows an 80-byte header (log entry 38); or BOOTSTAT holds the failing step. Through a host port that is down no image comes (R322; log entry 38). -/
def execBootImageLoaded (s : State) : Result :=
  if !s.bootgo || s.bootstat != 0xFF#8 || hostDown s then .next s
  else
    let l := hostBytes s s.bootaddr.toNat (min s.bootlen.toNat 229376)
    match bootFailure s l with
    | some k => .next { s with bootstat := BitVec.ofNat 8 k }
    | none =>
      .next { s with
        bootstat := 0#8
        bootHash := shake256 l 64
        bootSvn := w64 (imageSvn l)
        mem := memWrite s.mem (sramAt 0) l
        mgmt := { s.mgmt with running := true, stream := { s.mgmt.stream with pc := 80#64, run := .running } } }

/-- ATTGO (R325, R332). -/
def execAttgo (fn : BitVec 5) (s : State) : Result := if 16 < fn.toNat then .next s else .next (attGo s fn.toNat)

/-- The attestation report of a function, in the order of R325; the layout is the model's (log entry 14). -/
def attReport (s : State) (fn : Nat) : List Byte :=
  let a := tget {} s.attests fn
  (a.askNonce ++ zeros 32).take 32 ++ leBytes 4 pkgid.toNat ++ leBytes 4 encid.toNat
    ++ (s.bootHash ++ zeros 64).take 64 ++ leBytes 8 s.bootSvn.toNat
    ++ (List.range 32).map (fun i => BitVec.ofNat 8 ((tfind s.routes i).getD 0xFF))
    ++ leBytes 4 ((List.range 13).foldl (fun z i => if (tget {} s.ports i).enabled then z + 2 ^ i else z) 0)
    ++ (List.range nParts).flatMap (fun p => let q := partOf s p; leBytes 8 q.pgran.toNat ++ leBytes 8 q.phbm.toNat ++ leBytes 8 q.pkeys.toNat)
    ++ (if fn = 0 then [] else leBytes 4 (fn - 1))
    ++ (List.range 49856).map (fun i => reportByte s.tick i)

/-- ATTESTATION_DONE (R325): the report stands in host memory and the routes lock. -/
def execAttestationDone (fn : BitVec 5) (s : State) : Result :=
  let fn := fn.toNat
  let a := tget {} s.attests fn
  if !a.busy then .next s
  else
    let s := (physWrite s (hostBase + a.askAddr.toNat) 0 (attReport s fn)).1
    .next { s with attests := tset s.attests fn { a with stat := 0#2, busy := false }, locked := true }

/-! The host port (R319, R320, R332). -/

/-- A dword of function 0's registers (R332). -/
def fn0Read (s : State) (off : Nat) : Word :=
  match off with
  | 0x00 => s.bootaddr
  | 0x08 => s.bootlen.setWidth 64
  | 0x18 => s.bootstat.setWidth 64
  | 0x28 => s.mgmtstat.setWidth 64
  | _ => if 0x100 ≤ off ∧ off < 0x138 then attRead s 0 (off - 0x100) else 0#64

/-- A register of function 0 := v (R332). -/
def fn0Write (s : State) (off : Nat) (v : Word) : State :=
  match off with
  | 0x00 => if s.bootgo then s else { s with bootaddr := v }
  | 0x08 => if s.bootgo then s else { s with bootlen := v.setWidth 32 }
  | 0x10 => if v.getLsbD 0 then bootGo s else s
  | 0x20 => if v.getLsbD 0 then warmReset s else s
  | _ => if 0x100 ≤ off ∧ off < 0x138 then attWrite s 0 (off - 0x100) v else s

/-- A byte of function 0's registers, and bytes written to them: what a dword does not get keeps what it reads as (R6). -/
def fn0Byte (s : State) (off : Nat) : Byte := (fn0Read s (off / 8 * 8) >>> (8 * (off % 8))).setWidth 8
def fn0WriteBytes (s : State) (off : Nat) (l : List Byte) : State :=
  (List.range (if l.isEmpty then 0 else (off + l.length - 1) / 8 - off / 8 + 1)).foldl (fun s i =>
    let o := (off / 8 + i) * 8
    fn0Write s o (w64 (leNat ((List.range 8).map (fun k => if off ≤ o + k ∧ o + k < off + l.length then l.getD (o + k - off) 0#8 else fn0Byte s (o + k)))))) s

/-- A completion goes to the host: bytes, or Completer Abort. -/
def reply (s : State) (fn : Nat) (l : Option (List Byte)) : State := { s with hostReplies := s.hostReplies ++ [(fn, l)] }

/-- A violation of a function (R320). -/
def hostViolation (s : State) (p : Nat) : State := reply (freezePort s p 12) (p + 1) none

/-- The physical address that a function's BAR2 offset reaches, with its key; nothing where the access is a violation (R320). -/
def bar2At (s : State) (p off len : Nat) : Option (Nat × Nat) :=
  let q := partOf s p
  let r := hbmRange q
  if off + len ≤ r.2 && ownsKey q q.hkey.toNat then some (r.1 + off, q.hkey.toNat) else none

/-- An atomic of the host, at the word's home slice (R107, R183, R320). -/
def hostAtomic (s : State) (p pa key op k : Nat) (v c : Word) : State × Option (List Byte) :=
  let s := recallLine s none pa k
  match storeGet s p pa k key with
  | (s, none) => (s, none)
  | (s, some l) =>
    match storePut s pa key (leBytes k (amoWord op (8 * k) (leNat l) (v.toNat % 2 ^ (8 * k)) (c.toNat % 2 ^ (8 * k)))) with
    | (s, .ok _) => (s, some l)
    | (s, .error _) => (s, none)

/-- A host AtomicOp through BAR2: Completer Abort where its word is not naturally aligned. -/
def hostOp (s : State) (p op off : Nat) (wd : Width) (v c : Word) : State :=
  let k := if wd == .w then 4 else 8
  if off % k ≠ 0 then reply s (p + 1) none
  else match bar2At s p off k with
    | none => hostViolation s p
    | some (pa, key) =>
      let (s, l) := hostAtomic s p pa key op k v c
      reply s (p + 1) l

/-- A request of an enabled virtual function whose traffic is not frozen. -/
def partRequest (s : State) (p : Nat) : HostReq → State
  | .bar0Read _ off n =>
    if 2 ^ 20 < off.toNat + n.toNat then hostViolation s p
    else reply s (p + 1) (some ((List.range n.toNat).map (fun i => pctlByte s p (off.toNat + i))))
  | .bar0Write _ off l => if 2 ^ 20 < off.toNat + l.length then hostViolation s p else pctlWriteBytes s p off.toNat l false
  | .bar2Read _ off n =>
    match bar2At s p off.toNat n.toNat with
    | none => hostViolation s p
    | some (pa, key) =>
      match physRead s p pa n.toNat key with
      | (s, .ok l) => reply s (p + 1) (some l)
      | (s, .error _) => reply s (p + 1) none
  | .bar2Write _ off l =>
    match bar2At s p off.toNat l.length with
    | none => hostViolation s p
    | some (pa, key) => (physWrite s pa key l).1
  | .fetchAdd _ off wd v => hostOp s p 0 off.toNat wd v 0#64
  | .swap _ off wd v => hostOp s p 8 off.toNat wd v 0#64
  | .cas _ off wd c v => hostOp s p 9 off.toNat wd v c
  | .unsupported _ => reply s (p + 1) none

/-- The function that a request names. -/
def reqFn : HostReq → Nat
  | .bar0Read f _ _ => f.toNat
  | .bar0Write f _ _ => f.toNat
  | .bar2Read f _ _ => f.toNat
  | .bar2Write f _ _ => f.toNat
  | .fetchAdd f _ _ _ => f.toNat
  | .swap f _ _ _ => f.toNat
  | .cas f _ _ _ _ => f.toNat
  | .unsupported f => f.toNat

/-- HOST_REQUEST (R319, R320, R322, R332): none comes through a host port that is down. A function that is not enabled, whose partition has no granule, answers Completer Abort (DESIGN CHOICE, log entry 61). -/
def execHostRequest (r : HostReq) (s : State) : Result :=
  let fn := reqFn r
  if hostDown s then .next s
  else if fn = 0 then
    match r with
    | .bar0Read _ off n => .next (reply s 0 (some ((List.range n.toNat).map (fun i => fn0Byte s (off.toNat + i)))))
    | .bar0Write _ off l => .next (fn0WriteBytes s off.toNat l)
    | _ => .next (reply s 0 none)
  else if 16 < fn || (partOf s (fn - 1)).pgran == 0#16 then .next (reply s fn none)
  else if (partOf s (fn - 1)).portFrozen.getLsbD 12 then .next s
  else .next (partRequest s (fn - 1) r)

/-! Register writes and words of no instruction. -/

/-- A key slot loaded through the 64-byte key port (R92, R326): sectors written under other key bytes stand under those still. -/
def loadKey (s : State) (slot : Nat) (l : List Byte) : State := { s with keySlots := tset s.keySlots slot ((l ++ zeros 64).take 64) }

/-- The port enables, from a mask. -/
def enablePorts (t : Table Port) (mask : BitVec 13) : Table Port :=
  (List.range 13).foldl (fun t i => tset t i { tget {} t i with enabled := mask.getLsbD i }) t

/-- REGISTER_WRITE (R6, R316, R323, R326): a write by firmware; the routing table and the port enables are fixed once they are locked. -/
def execRegisterWrite (r : RegWrite) (s : State) : Result :=
  match r with
  | .block p off v => .next (pctlWrite s p.toNat (off.toNat / 8 * 8) v true)
  | .route pkg port =>
    if s.locked then .next s
    else .next { s with routes := match port with | some t => if t.toNat < 12 then tset s.routes pkg.toNat t.toNat else s.routes | none => tdel s.routes pkg.toNat }
  | .ports mask => if s.locked then .next s else .next { s with ports := enablePorts s.ports mask }
  | .key slot l => .next (loadKey s slot.toNat (l.take 64))

/-- ILLEGAL_ENCODING (R141): the agent that moves stands at a word of no instruction. -/
def execIllegalEncoding (s : State) : Result := illegal s

end Sys2Proof.Machine
end

