-- ==== Sys2Proof/Machine/Dispatch.lean ====
section
/-! DEFINITION. Dispatch: one arm for each step of the table. -/

namespace Sys2Proof.Machine

def exec (i : Instr) (s : State) : Host.Outcome State Fault Refusal :=
  match i with
  | .add d a b => Sys2Proof.Machine.execAdd d a b s
  | .sub d a b => Sys2Proof.Machine.execSub d a b s
  | .and d a b => Sys2Proof.Machine.execAnd d a b s
  | .or d a b => Sys2Proof.Machine.execOr d a b s
  | .xor d a b => Sys2Proof.Machine.execXor d a b s
  | .andn d a b => Sys2Proof.Machine.execAndn d a b s
  | .sll d a b => Sys2Proof.Machine.execSll d a b s
  | .srl d a b => Sys2Proof.Machine.execSrl d a b s
  | .sra d a b => Sys2Proof.Machine.execSra d a b s
  | .rol d a b => Sys2Proof.Machine.execRol d a b s
  | .mul d a b => Sys2Proof.Machine.execMul d a b s
  | .mulh d a b => Sys2Proof.Machine.execMulh d a b s
  | .mulhu d a b => Sys2Proof.Machine.execMulhu d a b s
  | .div d a b => Sys2Proof.Machine.execDiv d a b s
  | .divu d a b => Sys2Proof.Machine.execDivu d a b s
  | .rem d a b => Sys2Proof.Machine.execRem d a b s
  | .remu d a b => Sys2Proof.Machine.execRemu d a b s
  | .min d a b => Sys2Proof.Machine.execMin d a b s
  | .minu d a b => Sys2Proof.Machine.execMinu d a b s
  | .max d a b => Sys2Proof.Machine.execMax d a b s
  | .maxu d a b => Sys2Proof.Machine.execMaxu d a b s
  | .seq d a b => Sys2Proof.Machine.execSeq d a b s
  | .sne d a b => Sys2Proof.Machine.execSne d a b s
  | .slt d a b => Sys2Proof.Machine.execSlt d a b s
  | .sltu d a b => Sys2Proof.Machine.execSltu d a b s
  | .sle d a b => Sys2Proof.Machine.execSle d a b s
  | .sleu d a b => Sys2Proof.Machine.execSleu d a b s
  | .clz d a => Sys2Proof.Machine.execClz d a s
  | .ctz d a => Sys2Proof.Machine.execCtz d a s
  | .popc d a => Sys2Proof.Machine.execPopc d a s
  | .bswap d a => Sys2Proof.Machine.execBswap d a s
  | .sexb d a => Sys2Proof.Machine.execSexb d a s
  | .sexh d a => Sys2Proof.Machine.execSexh d a s
  | .sexw d a => Sys2Proof.Machine.execSexw d a s
  | .fadd d a b => Sys2Proof.Machine.execFadd d a b s
  | .fsub d a b => Sys2Proof.Machine.execFsub d a b s
  | .fmul d a b => Sys2Proof.Machine.execFmul d a b s
  | .fdiv d a b => Sys2Proof.Machine.execFdiv d a b s
  | .fmin d a b => Sys2Proof.Machine.execFmin d a b s
  | .fmax d a b => Sys2Proof.Machine.execFmax d a b s
  | .fminp d a b => Sys2Proof.Machine.execFminp d a b s
  | .fmaxp d a b => Sys2Proof.Machine.execFmaxp d a b s
  | .fcvtfi d a rm => Sys2Proof.Machine.execFcvtfi d a rm s
  | .fcvtif d a rm => Sys2Proof.Machine.execFcvtif d a rm s
  | .feq d a b => Sys2Proof.Machine.execFeq d a b s
  | .flt d a b => Sys2Proof.Machine.execFlt d a b s
  | .fle d a b => Sys2Proof.Machine.execFle d a b s
  | .addi d a imm => Sys2Proof.Machine.execAddi d a imm s
  | .andi d a imm => Sys2Proof.Machine.execAndi d a imm s
  | .ori d a imm => Sys2Proof.Machine.execOri d a imm s
  | .xori d a imm => Sys2Proof.Machine.execXori d a imm s
  | .slli d a sh => Sys2Proof.Machine.execSlli d a sh s
  | .srli d a sh => Sys2Proof.Machine.execSrli d a sh s
  | .srai d a sh => Sys2Proof.Machine.execSrai d a sh s
  | .slti d a imm => Sys2Proof.Machine.execSlti d a imm s
  | .lui d imm => Sys2Proof.Machine.execLui d imm s
  | .lix d imm => Sys2Proof.Machine.execLix d imm s
  | .lihx d imm => Sys2Proof.Machine.execLihx d imm s
  | .addx d a imm => Sys2Proof.Machine.execAddx d a imm s
  | .beq a b off => Sys2Proof.Machine.execBeq a b off s
  | .bne a b off => Sys2Proof.Machine.execBne a b off s
  | .blt a b off => Sys2Proof.Machine.execBlt a b off s
  | .bge a b off => Sys2Proof.Machine.execBge a b off s
  | .bltu a b off => Sys2Proof.Machine.execBltu a b off s
  | .bgeu a b off => Sys2Proof.Machine.execBgeu a b off s
  | .bset a b off => Sys2Proof.Machine.execBset a b off s
  | .bclr a b off => Sys2Proof.Machine.execBclr a b off s
  | .jal d off => Sys2Proof.Machine.execJal d off s
  | .jalr d a imm => Sys2Proof.Machine.execJalr d a imm s
  | .loop lvl len s_ => Sys2Proof.Machine.execLoop lvl len s_ s
  | .loopi lvl len cnt => Sys2Proof.Machine.execLoopi lvl len cnt s
  | .loopk lvl len k => Sys2Proof.Machine.execLoopk lvl len k s
  | .loopm lvl len s_ => Sys2Proof.Machine.execLoopm lvl len s_ s
  | .qwait qa qb qd n => Sys2Proof.Machine.execQwait qa qb qd n s
  | .qroom qa qb qd n => Sys2Proof.Machine.execQroom qa qb qd n s
  | .qadv qa qb qd n => Sys2Proof.Machine.execQadv qa qb qd n s
  | .qadvp qa qb qd n => Sys2Proof.Machine.execQadvp qa qb qd n s
  | .qrst qa qb qd => Sys2Proof.Machine.execQrst qa qb qd s
  | .qpop d q => Sys2Proof.Machine.execQpop d q s
  | .qpeek d a q => Sys2Proof.Machine.execQpeek d a q s
  | .qput a q => Sys2Proof.Machine.execQput a q s
  | .qcfg a q => Sys2Proof.Machine.execQcfg a q s
  | .qcnt d q => Sys2Proof.Machine.execQcnt d q s
  | .bqt q off => Sys2Proof.Machine.execBqt q off s
  | .bqf q off => Sys2Proof.Machine.execBqf q off s
  | .nop => Sys2Proof.Machine.execNop s
  | .rdv0 => Sys2Proof.Machine.execRdv0 s
  | .rdvEnd => Sys2Proof.Machine.execRdvEnd s
  | .rdvStreamSet set => Sys2Proof.Machine.execRdvStreamSet set s
  | .rdvComplete n set => Sys2Proof.Machine.execRdvComplete n set s
  | .pbar tag => Sys2Proof.Machine.execPbar tag s
  | .pbara tag => Sys2Proof.Machine.execPbara tag s
  | .pbarw tag => Sys2Proof.Machine.execPbarw tag s
  | .pennantArrival n t => Sys2Proof.Machine.execPennantArrival n t s
  | .pennantCompletion p c tag => Sys2Proof.Machine.execPennantCompletion p c tag s
  | .wfi => Sys2Proof.Machine.execWfi s
  | .ipref a n => Sys2Proof.Machine.execIpref a n s
  | .rdc d n => Sys2Proof.Machine.execRdc d n s
  | .wrc d n => Sys2Proof.Machine.execWrc d n s
  | .rdk d k => Sys2Proof.Machine.execRdk d k s
  | .rdcyc d => Sys2Proof.Machine.execRdcyc d s
  | .rdid d which => Sys2Proof.Machine.execRdid d which s
  | .rdloop d level => Sys2Proof.Machine.execRdloop d level s
  | .ldb d a imm => Sys2Proof.Machine.execLdb d a imm s
  | .ldbs d a imm => Sys2Proof.Machine.execLdbs d a imm s
  | .ldh d a imm => Sys2Proof.Machine.execLdh d a imm s
  | .ldhs d a imm => Sys2Proof.Machine.execLdhs d a imm s
  | .ldw d a imm => Sys2Proof.Machine.execLdw d a imm s
  | .ldws d a imm => Sys2Proof.Machine.execLdws d a imm s
  | .ldd d a imm => Sys2Proof.Machine.execLdd d a imm s
  | .stb d a imm => Sys2Proof.Machine.execStb d a imm s
  | .sth d a imm => Sys2Proof.Machine.execSth d a imm s
  | .stw d a imm => Sys2Proof.Machine.execStw d a imm s
  | .std d a imm => Sys2Proof.Machine.execStd d a imm s
  | .lsmark => Sys2Proof.Machine.execLsmark s
  | .l1inv a b => Sys2Proof.Machine.execL1inv a b s
  | .l1inva => Sys2Proof.Machine.execL1inva s
  | .pref a => Sys2Proof.Machine.execPref a s
  | .own d a b => Sys2Proof.Machine.execOwn d a b s
  | .disown d a => Sys2Proof.Machine.execDisown d a s
  | .amoadd d a b ord wd => Sys2Proof.Machine.execAmoadd d a b ord wd s
  | .amoand d a b ord wd => Sys2Proof.Machine.execAmoand d a b ord wd s
  | .amoor d a b ord wd => Sys2Proof.Machine.execAmoor d a b ord wd s
  | .amoxor d a b ord wd => Sys2Proof.Machine.execAmoxor d a b ord wd s
  | .amomin d a b ord wd => Sys2Proof.Machine.execAmomin d a b ord wd s
  | .amominu d a b ord wd => Sys2Proof.Machine.execAmominu d a b ord wd s
  | .amomax d a b ord wd => Sys2Proof.Machine.execAmomax d a b ord wd s
  | .amomaxu d a b ord wd => Sys2Proof.Machine.execAmomaxu d a b ord wd s
  | .amoswp d a b ord wd => Sys2Proof.Machine.execAmoswp d a b ord wd s
  | .amocas d a b ord wd => Sys2Proof.Machine.execAmocas d a b ord wd s
  | .amofadd d a b ord => Sys2Proof.Machine.execAmofadd d a b ord s
  | .fence => Sys2Proof.Machine.execFence s
  | .qfence mask => Sys2Proof.Machine.execQfence mask s
  | .spawn d a b => Sys2Proof.Machine.execSpawn d a b s
  | .spwait d a => Sys2Proof.Machine.execSpwait d a s
  | .sptest d a => Sys2Proof.Machine.execSptest d a s
  | .depdec d a => Sys2Proof.Machine.execDepdec d a s
  | .depinc d a => Sys2Proof.Machine.execDepinc d a s
  | .wlcfg d a b => Sys2Proof.Machine.execWlcfg d a b s
  | .wlpush d a b => Sys2Proof.Machine.execWlpush d a b s
  | .wlins d a b => Sys2Proof.Machine.execWlins d a b s
  | .wlpopb d a b => Sys2Proof.Machine.execWlpopb d a b s
  | .wlcnt d a => Sys2Proof.Machine.execWlcnt d a s
  | .wldrain d a => Sys2Proof.Machine.execWldrain d a s
  | .frnck d a b => Sys2Proof.Machine.execFrnck d a b s
  | .frnput d a b => Sys2Proof.Machine.execFrnput d a b s
  | .frninv d a b => Sys2Proof.Machine.execFrninv d a b s
  | .frnstat d a b => Sys2Proof.Machine.execFrnstat d a b s
  | .frnflush d a => Sys2Proof.Machine.execFrnflush d a s
  | .installation n => Sys2Proof.Machine.execInstallation n s
  | .vtadd d a b => Sys2Proof.Machine.execVtadd d a b s
  | .vtfadd d a b => Sys2Proof.Machine.execVtfadd d a b s
  | .vtmax d a b => Sys2Proof.Machine.execVtmax d a b s
  | .vtcas d a b => Sys2Proof.Machine.execVtcas d a b s
  | .vtsac d a b => Sys2Proof.Machine.execVtsac d a b s
  | .bankSideOperation n => Sys2Proof.Machine.execBankSideOperation n s
  | .trap a => Sys2Proof.Machine.execTrap a s
  | .eret => Sys2Proof.Machine.execEret s
  | .uiret => Sys2Proof.Machine.execUiret s
  | .brk => Sys2Proof.Machine.execBrk s
  | .sysc a => Sys2Proof.Machine.execSysc a s
  | .rtfill d a => Sys2Proof.Machine.execRtfill d a s
  | .rtnext d => Sys2Proof.Machine.execRtnext d s
  | .resume d a => Sys2Proof.Machine.execResume d a s
  | .kill d a => Sys2Proof.Machine.execKill d a s
  | .tlbinv a b => Sys2Proof.Machine.execTlbinv a b s
  | .apcfg p a b space lge dims => Sys2Proof.Machine.execApcfg p a b space lge dims s
  | .astrm q p n => Sys2Proof.Machine.execAstrm q p n s
  | .astro q p n => Sys2Proof.Machine.execAstro q p n s
  | .agath q qi p n => Sys2Proof.Machine.execAgath q qi p n s
  | .ascat q qi p n => Sys2Proof.Machine.execAscat q qi p n s
  | .awcfg d a b space lge => Sys2Proof.Machine.execAwcfg d a b space lge s
  | .awin q n => Sys2Proof.Machine.execAwin q n s
  | .awpass d a => Sys2Proof.Machine.execAwpass d a s
  | .aprf a p => Sys2Proof.Machine.execAprf a p s
  | .aqOperationPerformed n => Sys2Proof.Machine.execAqOperationPerformed n s
  | .vadd d a b => Sys2Proof.Machine.execVadd d a b s
  | .vsub d a b => Sys2Proof.Machine.execVsub d a b s
  | .vmul d a b => Sys2Proof.Machine.execVmul d a b s
  | .vfma d a b => Sys2Proof.Machine.execVfma d a b s
  | .vfms d a b => Sys2Proof.Machine.execVfms d a b s
  | .vfnma d a b => Sys2Proof.Machine.execVfnma d a b s
  | .vmin d a b => Sys2Proof.Machine.execVmin d a b s
  | .vmax d a b => Sys2Proof.Machine.execVmax d a b s
  | .vminp d a b => Sys2Proof.Machine.execVminp d a b s
  | .vmaxp d a b => Sys2Proof.Machine.execVmaxp d a b s
  | .vabs d a => Sys2Proof.Machine.execVabs d a s
  | .vneg d a => Sys2Proof.Machine.execVneg d a s
  | .vdiv d a b => Sys2Proof.Machine.execVdiv d a b s
  | .vsqrt d a => Sys2Proof.Machine.execVsqrt d a s
  | .vsgn d a => Sys2Proof.Machine.execVsgn d a s
  | .vand d a b => Sys2Proof.Machine.execVand d a b s
  | .vor d a b => Sys2Proof.Machine.execVor d a b s
  | .vxor d a b => Sys2Proof.Machine.execVxor d a b s
  | .vnot d a => Sys2Proof.Machine.execVnot d a s
  | .vsll d a b => Sys2Proof.Machine.execVsll d a b s
  | .vsrl d a b => Sys2Proof.Machine.execVsrl d a b s
  | .vsra d a b => Sys2Proof.Machine.execVsra d a b s
  | .vaddsat d a b => Sys2Proof.Machine.execVaddsat d a b s
  | .vsubsat d a b => Sys2Proof.Machine.execVsubsat d a b s
  | .vmulhi d a b => Sys2Proof.Machine.execVmulhi d a b s
  | .vceq d a b => Sys2Proof.Machine.execVceq d a b s
  | .vcne d a b => Sys2Proof.Machine.execVcne d a b s
  | .vclt d a b => Sys2Proof.Machine.execVclt d a b s
  | .vcle d a b => Sys2Proof.Machine.execVcle d a b s
  | .vcgt d a b => Sys2Proof.Machine.execVcgt d a b s
  | .vcge d a b => Sys2Proof.Machine.execVcge d a b s
  | .vcun d a b => Sys2Proof.Machine.execVcun d a b s
  | .vsel d a b => Sys2Proof.Machine.execVsel d a b s
  | .mand d a b => Sys2Proof.Machine.execMand d a b s
  | .mor d a b => Sys2Proof.Machine.execMor d a b s
  | .mxor d a b => Sys2Proof.Machine.execMxor d a b s
  | .mnot d a => Sys2Proof.Machine.execMnot d a s
  | .mpop d a => Sys2Proof.Machine.execMpop d a s
  | .mfirst d a => Sys2Proof.Machine.execMfirst d a s
  | .vcvt d a h t rm sat => Sys2Proof.Machine.execVcvt d a h t rm sat s
  | .vrsum d a m => Sys2Proof.Machine.execVrsum d a m s
  | .vrmax d a m => Sys2Proof.Machine.execVrmax d a m s
  | .vrmin d a m => Sys2Proof.Machine.execVrmin d a m s
  | .vscan d a o m => Sys2Proof.Machine.execVscan d a o m s
  | .vmov d a => Sys2Proof.Machine.execVmov d a s
  | .vbcast d a => Sys2Proof.Machine.execVbcast d a s
  | .vext d a b => Sys2Proof.Machine.execVext d a b s
  | .vins d a b => Sys2Proof.Machine.execVins d a b s
  | .vperm d a b => Sys2Proof.Machine.execVperm d a b s
  | .vrot d a b => Sys2Proof.Machine.execVrot d a b s
  | .vidx d a => Sys2Proof.Machine.execVidx d a s
  | .vpack d a b => Sys2Proof.Machine.execVpack d a b s
  | .vunpk d a h => Sys2Proof.Machine.execVunpk d a h s
  | .vld d a n => Sys2Proof.Machine.execVld d a n s
  | .vst d a n => Sys2Proof.Machine.execVst d a n s
  | .vldq d q n => Sys2Proof.Machine.execVldq d q n s
  | .vstq d q n => Sys2Proof.Machine.execVstq d q n s
  | .vgat d a b => Sys2Proof.Machine.execVgat d a b s
  | .vsct d a b => Sys2Proof.Machine.execVsct d a b s
  | .swait n => Sys2Proof.Machine.execSwait n s
  | .vqOperationPerformed n => Sys2Proof.Machine.execVqOperationPerformed n s
  | .vpart q a b => Sys2Proof.Machine.execVpart q a b s
  | .vcmpk d a b => Sys2Proof.Machine.execVcmpk d a b s
  | .vexpd d a b => Sys2Proof.Machine.execVexpd d a b s
  | .vtcfg t a b kind hi lo e nm1 => Sys2Proof.Machine.execVtcfg t a b kind hi lo e nm1 s
  | .vtab d a t => Sys2Proof.Machine.execVtab d a t s
  | .vtabl d a t => Sys2Proof.Machine.execVtabl d a t s
  | .vtabq d a t => Sys2Proof.Machine.execVtabq d a t s
  | .vexp2 d a => Sys2Proof.Machine.execVexp2 d a s
  | .vlog2 d a => Sys2Proof.Machine.execVlog2 d a s
  | .flmatch h a b => Sys2Proof.Machine.execFlmatch h a b s
  | .flmerge h a b => Sys2Proof.Machine.execFlmerge h a b s
  | .flunmg h a b => Sys2Proof.Machine.execFlunmg h a b s
  | .flsize d h b => Sys2Proof.Machine.execFlsize d h b s
  | .flsig d h => Sys2Proof.Machine.execFlsig d h s
  | .flsave h a => Sys2Proof.Machine.execFlsave h a s
  | .flload h a => Sys2Proof.Machine.execFlload h a s
  | .flfree h => Sys2Proof.Machine.execFlfree h s
  | .vsmx d a b => Sys2Proof.Machine.execVsmx d a b s
  | .vsmxs d a b => Sys2Proof.Machine.execVsmxs d a b s
  | .prunepk d a lgm nk => Sys2Proof.Machine.execPrunepk d a lgm nk s
  | .prunepkt d a lgm nk => Sys2Proof.Machine.execPrunepkt d a lgm nk s
  | .mdpack d w k lgm nk => Sys2Proof.Machine.execMdpack d w k lgm nk s
  | .mdchk d a b => Sys2Proof.Machine.execMdchk d a b s
  | .mmac acc qa qb qm => Sys2Proof.Machine.execMmac acc qa qb qm s
  | .mmacs acc qa qb qm => Sys2Proof.Machine.execMmacs acc qa qb qm s
  | .mmacg acc qa qb qm => Sys2Proof.Machine.execMmacg acc qa qb qm s
  | .mmacsg acc qa qb qm => Sys2Proof.Machine.execMmacsg acc qa qb qm s
  | .mclr acc => Sys2Proof.Machine.execMclr acc s
  | .mcfg s_ => Sys2Proof.Machine.execMcfg s_ s
  | .mhdr s_ qm => Sys2Proof.Machine.execMhdr s_ qm s
  | .mtrn acc src => Sys2Proof.Machine.execMtrn acc src s
  | .mqOperationStart n => Sys2Proof.Machine.execMqOperationStart n s
  | .matrixStep n => Sys2Proof.Machine.execMatrixStep n s
  | .mqOperationPerformed n => Sys2Proof.Machine.execMqOperationPerformed n s
  | .xcpy d a b ss ds => Sys2Proof.Machine.execXcpy d a b ss ds s
  | .xcp2 d a b ss ds => Sys2Proof.Machine.execXcp2 d a b ss ds s
  | .xcp3 d a b ss ds => Sys2Proof.Machine.execXcp3 d a b ss ds s
  | .xcvt d a b ss ds st dt rm sr sat => Sys2Proof.Machine.execXcvt d a b ss ds st dt rm sr sat s
  | .xmcast d a b rows cols => Sys2Proof.Machine.execXmcast d a b rows cols s
  | .xflw f => Sys2Proof.Machine.execXflw f s
  | .xvop d a b op va => Sys2Proof.Machine.execXvop d a b op va s
  | .xrem d a b pkg => Sys2Proof.Machine.execXrem d a b pkg s
  | .xwait d n mask => Sys2Proof.Machine.execXwait d n mask s
  | .xcmpl a act qrec h => Sys2Proof.Machine.execXcmpl a act qrec h s
  | .copyCommandPerformed n q => Sys2Proof.Machine.execCopyCommandPerformed n q s
  | .completionRecord n => Sys2Proof.Machine.execCompletionRecord n s
  | .txinit a => Sys2Proof.Machine.execTxinit a s
  | .txexp d a b => Sys2Proof.Machine.execTxexp d a b s
  | .txarr a b => Sys2Proof.Machine.execTxarr a b s
  | .txwait d a b => Sys2Proof.Machine.execTxwait d a b s
  | .txtest d a b => Sys2Proof.Machine.execTxtest d a b s
  | .intakePacketTake p q => Sys2Proof.Machine.execIntakePacketTake p q s
  | .userInterruptDelivery n => Sys2Proof.Machine.execUserInterruptDelivery n s
  | .dispatchRound p => Sys2Proof.Machine.execDispatchRound p s
  | .probeOutcome p c node tile => Sys2Proof.Machine.execProbeOutcome p c node tile s
  | .reuseCopyPerformed p c node tile => Sys2Proof.Machine.execReuseCopyPerformed p c node tile s
  | .jobStart n => Sys2Proof.Machine.execJobStart n s
  | .jobRetire n => Sys2Proof.Machine.execJobRetire n s
  | .watchdogDeadlock n => Sys2Proof.Machine.execWatchdogDeadlock n s
  | .stallWindowExpiry p => Sys2Proof.Machine.execStallWindowExpiry p s
  | .sliceEnd p => Sys2Proof.Machine.execSliceEnd p s
  | .switchBudgetExpiry n => Sys2Proof.Machine.execSwitchBudgetExpiry n s
  | .npbudgetExpiry n => Sys2Proof.Machine.execNpbudgetExpiry n s
  | .trapDelivery n => Sys2Proof.Machine.execTrapDelivery n s
  | .calendarSlotIssue n q => Sys2Proof.Machine.execCalendarSlotIssue n q s
  | .homeSlicePerform n q => Sys2Proof.Machine.execHomeSlicePerform n q s
  | .readCompletion n => Sys2Proof.Machine.execReadCompletion n s
  | .writeAck n => Sys2Proof.Machine.execWriteAck n s
  | .translationWalkComplete n va => Sys2Proof.Machine.execTranslationWalkComplete n va s
  | .windowAccessArrival n q => Sys2Proof.Machine.execWindowAccessArrival n q s
  | .go p c stop => Sys2Proof.Machine.execGo p c stop s
  | .stop p c => Sys2Proof.Machine.execStop p c s
  | .stepRecordArrival p c => Sys2Proof.Machine.execStepRecordArrival p c s
  | .snapshotCommit p c => Sys2Proof.Machine.execSnapshotCommit p c s
  | .rollbackRequest p c => Sys2Proof.Machine.execRollbackRequest p c s
  | .rollback p c => Sys2Proof.Machine.execRollback p c s
  | .vaultBankFailure n bank all => Sys2Proof.Machine.execVaultBankFailure n bank all s
  | .graphLoad p c => Sys2Proof.Machine.execGraphLoad p c s
  | .graphUnload p c => Sys2Proof.Machine.execGraphUnload p c s
  | .graphCommandEnd p c => Sys2Proof.Machine.execGraphCommandEnd p c s
  | .contextEnable p c en => Sys2Proof.Machine.execContextEnable p c en s
  | .vaultRangeDeclare p c v => Sys2Proof.Machine.execVaultRangeDeclare p c v s
  | .pbsetWrite p c tag v => Sys2Proof.Machine.execPbsetWrite p c tag v s
  | .releaseDeliver p n => Sys2Proof.Machine.execReleaseDeliver p n s
  | .releaseKill p n => Sys2Proof.Machine.execReleaseKill p n s
  | .vacate n => Sys2Proof.Machine.execVacate n s
  | .throtnWrite n v => Sys2Proof.Machine.execThrotnWrite n v s
  | .sensorUpdate sensor raw => Sys2Proof.Machine.execSensorUpdate sensor raw s
  | .mgmtTrapEntry cause faddr => Sys2Proof.Machine.execMgmtTrapEntry cause faddr s
  | .columnEnterC1 n => Sys2Proof.Machine.execColumnEnterC1 n s
  | .columnEnterDeep n => Sys2Proof.Machine.execColumnEnterDeep n s
  | .columnWake n => Sys2Proof.Machine.execColumnWake n s
  | .flitReceive port crcOk f => Sys2Proof.Machine.execFlitReceive port crcOk f s
  | .remoteStoreAck n cause => Sys2Proof.Machine.execRemoteStoreAck n cause s
  | .ingressRelease p => Sys2Proof.Machine.execIngressRelease p s
  | .hostRequest r => Sys2Proof.Machine.execHostRequest r s
  | .bootgo => Sys2Proof.Machine.execBootgo s
  | .bootImageLoaded => Sys2Proof.Machine.execBootImageLoaded s
  | .attgo fn => Sys2Proof.Machine.execAttgo fn s
  | .attestationDone fn => Sys2Proof.Machine.execAttestationDone fn s
  | .warmrst => Sys2Proof.Machine.execWarmrst s
  | .coldReset => Sys2Proof.Machine.execColdReset s
  | .functionLevelReset p => Sys2Proof.Machine.execFunctionLevelReset p s
  | .packagePowerLoss => Sys2Proof.Machine.execPackagePowerLoss s
  | .registerWrite r => Sys2Proof.Machine.execRegisterWrite r s
  | .illegalEncoding => Sys2Proof.Machine.execIllegalEncoding s
  | .fabricAccessCompletion n q ur => Sys2Proof.Machine.execFabricAccessCompletion n q ur s
  | .repairReplay => Sys2Proof.Machine.execRepairReplay s
  | .frozenPortRelease p port => Sys2Proof.Machine.execFrozenPortRelease p port s

end Sys2Proof.Machine
end

