-- ==== Sys2Proof/Machine/Fetch.lean ====
section
/-! DEFINITION. Fetching (R64 to R66, R135, R141, R313, R334), the boundary before an instruction (R247, R296, R297), and whose turn it is when nothing else is asked for (log entry 1). -/

namespace Sys2Proof.Machine

open Sys2Proof.Config

/-- A fetch touches the instruction cache of its core; a miss is counted in the stream's SLIP (R64, R66). The cache holds which lines are present and no bytes of theirs: a fetch takes the bytes that memory holds, after a graph unload and a later load of other code at the address too, of which R64 does not speak (log entry 76). -/
def fetchLine (s : State) (a : Agent) (n pa : Nat) : State :=
  let l := pa / 128 * 128
  let s := if (coreOf s n).icache.contains l then s
    else modStream s a (fun st => { st with slip := BitVec.ofNat 32 (min (st.slip.toNat + missCycles s.tick) (2 ^ 32 - 1)) })
  modCore s n (fun k => touchLine k l)

/-- One word of code of a stream, where it can be translated and read (R64, R88): an error on the mesh or the seam may strike its walk, or the line that a miss fetches (R17; log entry 12). -/
def fetchWord (s : State) (a : Agent) (va : Word) : State × Option (List Byte) :=
  match a with
  | .mgmt =>
    match mgmtPlace va.toNat 4 with
    | .sram _ | .record _ => (s, match mgmtRead s va.toNat 4 with | .ok l => some l | .error _ => none)
    | _ => (s, none)
  | .stream n j _ =>
    let b := jobOf s n j
    let w : Who := { p := b.part, c := b.ctx, core := some n, user := !supervisor s a }
    if walkStruck s w va then (s, none)
    else match translate s b.part b.ctx (some n) va .fetch (!supervisor s a) with
    | .ok pa key =>
      if !(coreOf s n).icache.contains (pa / 128 * 128) && transitError s.tick then (walked s w va, none)
      else match physRead (walked (fetchLine s a n pa) w va) b.part pa 4 key with
      | (s, .ok l) => (s, some l)
      | (s, .error _) => (s, none)
    | _ => (walked s w va, none)

/-- The first word of some bytes (R3). -/
def firstWord (l : List Byte) : IWord := iwordOfBytes (l.getD 0 0#8) (l.getD 1 0#8) (l.getD 2 0#8) (l.getD 3 0#8)

/-- The bytes of the instruction at the PC: one word, or two where the first says so (R135). -/
def fetchInstr (s : State) (a : Agent) : State × Option (List Byte) :=
  let pc := (streamOf s a).pc
  match fetchWord s a pc with
  | (s, none) => (s, none)
  | (s, some l) =>
    if isTwoWord (firstWord l) then
      match fetchWord s a (pc + 4#64) with
      | (s, none) => (s, none)
      | (s, some r) => (s, some (l ++ r))
    else (s, some l)

/-- What comes before the instruction at a stream's boundary: a pending fault is raised (R296), a pending trap delivered (R297), a user interrupt delivered (R247). -/
def boundary (s : State) : Agent → Option State
  | .mgmt => none
  | .stream n j t =>
    let b := jobOf s n j
    if !(b.streams.get t).faults.isEmpty && !heldByTrap b t then some (raisePending s n j t)
    else if t == .c && !b.traps.isEmpty && !b.sv then some (deliverDue s n j)
    else if t == .c && userReady b then some (deliverUser s n j)
    else none

/-- The agent whose turn it is issues (R141): its boundary, else its fetched instruction; FETCH where it cannot be fetched, ILLEGAL where its words are no instruction. `dec` is the decoder. -/
def attempt (dec : List Byte → Except DecodeError (Instr × List Byte)) (s : State) : Result :=
  if !canIssue s s.turn then .next s
  else match boundary s s.turn with
    | some s => .next s
    | none =>
      match fetchInstr s s.turn with
      | (s, none) => .next (takeTrap s s.turn { cause := cFetch, faddr := (streamOf s s.turn).pc })
      | (s, some l) =>
        match dec l with
        | .ok (i, _) => exec i s
        | .error _ => illegal s

/-- Agents that have instructions to issue, in a fixed order. -/
def agents (s : State) : List Agent :=
  (.mgmt :: (s.cores.flatMap (fun e =>
    match e.2.active with
    | some j => allSids.map (fun t => Agent.stream e.1 j t)
    | none => []))).filter (mayMove s)

/-- The turn goes to the next agent that has instructions to issue. -/
def nextTurn (s : State) : Agent :=
  let l := agents s
  match ((l.dropWhile (fun a => a != s.turn)).drop 1).head? with
  | some a => a
  | none => l.head?.getD s.turn

/-- Whether an agent waits inside an instruction. -/
def inWait (s : State) (a : Agent) : Bool := (streamOf s a).run != .running

/-- Events that bring on the work of a core: its engines, its requests, its rendezvous, its traps and its jobs. -/
def coreEvents (n : CoreNo) : List (State → Result) :=
  [execVqOperationPerformed n, execMqOperationStart n, execMatrixStep n, execMqOperationPerformed n, execAqOperationPerformed n,
    execCalendarSlotIssue n .lq, execCalendarSlotIssue n .sq, execCalendarSlotIssue n .aq, execCalendarSlotIssue n .xhq,
    execWindowAccessArrival n .lq, execWindowAccessArrival n .sq, execWindowAccessArrival n .aq, execWindowAccessArrival n .xhq,
    execHomeSlicePerform n .lq, execHomeSlicePerform n .sq, execHomeSlicePerform n .aq, execHomeSlicePerform n .xhq,
    execBankSideOperation n, execReadCompletion n, execWriteAck n, execFabricAccessCompletion n .lq false, execFabricAccessCompletion n .sq false,
    execFabricAccessCompletion n .aq false, execFabricAccessCompletion n .xhq false, execCopyCommandPerformed n .xvq, execCopyCommandPerformed n .xhq,
    execCompletionRecord n, execInstallation n]
    ++ (List.range 32).map (fun k => execRdvComplete n (BitVec.ofNat 5 k)) ++ (List.range 8).map (fun k => execPennantArrival n (BitVec.ofNat 3 k))
    ++ [execTrapDelivery n, execUserInterruptDelivery n, execJobRetire n, execJobStart n]

/-- The walks for the pages that a core's queued accesses are at (R89). -/
def walkEvents (s : State) (n : Nat) : List (State → Result) :=
  let j := ((coreOf s n).active).getD 0
  let at' (o : Op) : Option Word := match opAccess o.kind with | some (va, _) => some va | none => firstVa s n j o
  (((if (coreOf s n).active.isSome then allOps (jobOf s n j) else []) ++ (coreOf s n).intake).filterMap at').map (execTranslationWalkComplete (BitVec.ofNat 8 n))

/-- The outcomes of the probes in flight of a launch. -/
def probeEvents (s : State) (p : PartNo) (c : CtxNo) : List (State → Result) :=
  (launchOf s p.toNat c.toNat).probes.flatMap (fun b =>
    match taskOf (launchOf s p.toNat c.toNat) b.task with
    | some t => [execProbeOutcome p c (BitVec.ofNat 10 t.node) (BitVec.ofNat 24 t.tile), execReuseCopyPerformed p c (BitVec.ofNat 10 t.node) (BitVec.ofNat 24 t.tile)]
    | none => [])

/-- Events that bring on the work of a partition's sequencer and scheduler. -/
def partEvents (s : State) (p : PartNo) : List (State → Result) :=
  ((List.range nCtxs).map (BitVec.ofNat 3)).flatMap (fun c =>
    [execGraphLoad p c, execGraphUnload p c, execGraphCommandEnd p c, execRollback p c, execStepRecordArrival p c, execSnapshotCommit p c]
      ++ (List.range 8).map (fun k => execPennantCompletion p c (BitVec.ofNat 3 k)) ++ probeEvents s p c)
    ++ (List.range 4).map (fun q => execIntakePacketTake p (BitVec.ofNat 2 q)) ++ [execDispatchRound p, execIngressRelease p]

/-- Events one after another; one that is not enabled changes nothing. -/
def runEvents : List (State → Result) → State → Result
  | [], s => .next s
  | f :: r, s =>
    match f s with
    | .next s => runEvents r s
    | .fault e => .fault e
    | .refused e => .refused e

/-- What may come about by itself: the events of the cores in use, and of the partitions. -/
def quiet (s : State) : Result :=
  runEvents ((tkeys s.parts).flatMap (fun p => partEvents s (BitVec.ofNat 4 p)) ++ (tkeys s.cores).flatMap (fun n => walkEvents s n ++ coreEvents (BitVec.ofNat 8 n))) s

/-- The move of the agent whose turn it is. One that waits, or may not issue, lets what may come about happen first. -/
def takeTurn (dec : List Byte → Except DecodeError (Instr × List Byte)) (s : State) : Result :=
  if canIssue s s.turn && !inWait s s.turn then attempt dec s
  else match quiet s with
    | .next s => attempt dec s
    | r => r

/-- What follows every move: what it left to be done at once, and the turn passes on. -/
def afterMove : Result → Result
  | .next s => let s := settle s; .next { s with turn := nextTurn s }
  | r => r

/-- The clock and the counter of free values go on. -/
def tickOn (s : State) : State := { s with tick := s.tick + 1, now := s.now + elapsed s.tick }

/-- ONE STEP, over a decoder: the move at the head of the agenda, or the agent whose turn it is. Without power only a cold reset happens (R17, R330). A word on the agenda is no event and does nothing. -/
def stepWith (dec : List Byte → Except DecodeError (Instr × List Byte)) (s : State) : Result :=
  if !s.powered && s.agenda.head? != some (.event .coldReset) then .fault .noPower
  else
    let s := tickOn s
    match s.agenda with
    | .event i :: r => if i.isWord then .next { s with agenda := r } else afterMove (exec i { s with agenda := r })
    | .issue a :: r => afterMove (takeTurn dec { s with agenda := r, turn := a })
    | [] => afterMove (takeTurn dec s)

/-- The stream that executes a major opcode (R34, R142). -/
def majorSid (op : Nat) : Sid :=
  if op = 24 then .a else if 26 ≤ op ∧ op ≤ 38 then .v else if op = 40 then .m else if op = 42 ∨ op = 43 then .x else .c

/-- Where `placeCode` puts the code, virtual and physical. -/
def codeVa : Nat := 0x200000

/-- A job in slot 0 of core 0 in context 0 of partition 0 stands at code bytes, in one 1 GiB page that maps to itself; the page stands in the core's TLB and the line of the code in its instruction cache, so that no error on the way can strike the fetch (log entry 5). -/
def placeCode (s : State) (l : List Byte) (t : Sid) : State :=
  let m := memWrite s.mem 0 (leBytes 8 0x100001)
  let m := memWrite m 0x100000 (leBytes 8 0x3F)
  let m := memWrite m codeVa l
  let st : Stream := { used := true, pc := w64 codeVa, run := .running }
  let job : Job := { kernel := w64 codeVa, codeLen := l.length, streams := Five.set ⟨{}, {}, {}, {}, {}⟩ t st }
  let core : Core := {
    slot0 := { st := .active, job := job }
    active := some 0
    ctx := some 0
    power := .c0
    gatedAt := none
    tlb := [{ part := 0, ctx := 0, va := 0, size := 0x40000000, entry := 0x3F#64 }]
    icache := [codeVa] }
  let q := partOf s 0
  { s with
    powered := true
    agenda := []
    turn := .stream 0 0 t
    mem := m
    cores := tset s.cores 0 core
    parts := tset s.parts 0 { q with pgran := 1#16, phbm := 0x10000#64, ctxs := tset q.ctxs 0 { (tget {} q.ctxs 0) with xroot := 0 } } }

end Sys2Proof.Machine
end

