-- ==== Sys2Proof/Machine/Step.lean ====
section
/-! DEFINITION. One step of the package, and where it fetches its next instruction. -/

namespace Sys2Proof.Machine

/-- One step (`stepWith` over the decoder). -/
noncomputable def step (s : State) : Host.Outcome State Fault Refusal := stepWith decode s

/-- The state whose next step fetches the instruction with these bits, numbered as spec/opcode_table.json numbers them. -/
def State.withFetchWord (s : State) (nbits w : Nat) : State :=
  let v := w % 2 ^ nbits
  placeCode s (bytesOfIWord (tableWord v 0) ++ bytesOfIWord (tableWord v 1)) (majorSid (v / 2 ^ 26 % 64))

end Sys2Proof.Machine
end

