-- ==== Sys2Proof/Laws/Encoding.lean ====
section
/-! SUPPORT. Fields of packed words: every field that a format packs reads back (R136). -/

namespace Sys2Proof

/-- A concatenation as a number. -/
theorem toNat_app {n m : Nat} (x : BitVec n) (y : BitVec m) : (x ++ y).toNat = x.toNat * 2 ^ m + y.toNat := by
  rw [BitVec.toNat_append, ← Nat.shiftLeft_add_eq_or_of_lt y.isLt, Nat.shiftLeft_eq]

theorem toNat_packR (op : BitVec 6) (d : BitVec 6) (a : BitVec 6) (b : BitVec 6) (fn : BitVec 8) :
    (packR op d a b fn).toNat = ((((op.toNat) * 2 ^ 6 + d.toNat) * 2 ^ 6 + a.toNat) * 2 ^ 6 + b.toNat) * 2 ^ 8 + fn.toNat := by
  simp only [packR]
  rw [toNat_app, toNat_app, toNat_app, toNat_app]

@[simp] theorem fOp_packR (op : BitVec 6) (d : BitVec 6) (a : BitVec 6) (b : BitVec 6) (fn : BitVec 8) : fOp (packR op d a b fn) = op := by
  apply BitVec.eq_of_toNat_eq
  simp only [fOp, BitVec.extractLsb'_toNat, toNat_packR, Nat.shiftRight_eq_div_pow]
  omega

@[simp] theorem fD_packR (op : BitVec 6) (d : BitVec 6) (a : BitVec 6) (b : BitVec 6) (fn : BitVec 8) : fD (packR op d a b fn) = d := by
  apply BitVec.eq_of_toNat_eq
  simp only [fD, BitVec.extractLsb'_toNat, toNat_packR, Nat.shiftRight_eq_div_pow]
  omega

@[simp] theorem fA_packR (op : BitVec 6) (d : BitVec 6) (a : BitVec 6) (b : BitVec 6) (fn : BitVec 8) : fA (packR op d a b fn) = a := by
  apply BitVec.eq_of_toNat_eq
  simp only [fA, BitVec.extractLsb'_toNat, toNat_packR, Nat.shiftRight_eq_div_pow]
  omega

@[simp] theorem fB_packR (op : BitVec 6) (d : BitVec 6) (a : BitVec 6) (b : BitVec 6) (fn : BitVec 8) : fB (packR op d a b fn) = b := by
  apply BitVec.eq_of_toNat_eq
  simp only [fB, BitVec.extractLsb'_toNat, toNat_packR, Nat.shiftRight_eq_div_pow]
  omega

@[simp] theorem fFn_packR (op : BitVec 6) (d : BitVec 6) (a : BitVec 6) (b : BitVec 6) (fn : BitVec 8) : fFn (packR op d a b fn) = fn := by
  apply BitVec.eq_of_toNat_eq
  simp only [fFn, BitVec.extractLsb'_toNat, toNat_packR, Nat.shiftRight_eq_div_pow]
  omega

theorem toNat_packI (op : BitVec 6) (d : BitVec 6) (a : BitVec 6) (fn3 : BitVec 3) (imm : BitVec 11) :
    (packI op d a fn3 imm).toNat = ((((op.toNat) * 2 ^ 6 + d.toNat) * 2 ^ 6 + a.toNat) * 2 ^ 3 + fn3.toNat) * 2 ^ 11 + imm.toNat := by
  simp only [packI]
  rw [toNat_app, toNat_app, toNat_app, toNat_app]

@[simp] theorem fOp_packI (op : BitVec 6) (d : BitVec 6) (a : BitVec 6) (fn3 : BitVec 3) (imm : BitVec 11) : fOp (packI op d a fn3 imm) = op := by
  apply BitVec.eq_of_toNat_eq
  simp only [fOp, BitVec.extractLsb'_toNat, toNat_packI, Nat.shiftRight_eq_div_pow]
  omega

@[simp] theorem fD_packI (op : BitVec 6) (d : BitVec 6) (a : BitVec 6) (fn3 : BitVec 3) (imm : BitVec 11) : fD (packI op d a fn3 imm) = d := by
  apply BitVec.eq_of_toNat_eq
  simp only [fD, BitVec.extractLsb'_toNat, toNat_packI, Nat.shiftRight_eq_div_pow]
  omega

@[simp] theorem fA_packI (op : BitVec 6) (d : BitVec 6) (a : BitVec 6) (fn3 : BitVec 3) (imm : BitVec 11) : fA (packI op d a fn3 imm) = a := by
  apply BitVec.eq_of_toNat_eq
  simp only [fA, BitVec.extractLsb'_toNat, toNat_packI, Nat.shiftRight_eq_div_pow]
  omega

@[simp] theorem fFn3_packI (op : BitVec 6) (d : BitVec 6) (a : BitVec 6) (fn3 : BitVec 3) (imm : BitVec 11) : fFn3 (packI op d a fn3 imm) = fn3 := by
  apply BitVec.eq_of_toNat_eq
  simp only [fFn3, BitVec.extractLsb'_toNat, toNat_packI, Nat.shiftRight_eq_div_pow]
  omega

@[simp] theorem fImm11_packI (op : BitVec 6) (d : BitVec 6) (a : BitVec 6) (fn3 : BitVec 3) (imm : BitVec 11) : fImm11 (packI op d a fn3 imm) = imm := by
  apply BitVec.eq_of_toNat_eq
  simp only [fImm11, BitVec.extractLsb'_toNat, toNat_packI, Nat.shiftRight_eq_div_pow]
  omega

theorem toNat_packB (op : BitVec 6) (a : BitVec 6) (b : BitVec 6) (cond : BitVec 3) (off : BitVec 11) :
    (packB op a b cond off).toNat = ((((op.toNat) * 2 ^ 6 + a.toNat) * 2 ^ 6 + b.toNat) * 2 ^ 3 + cond.toNat) * 2 ^ 11 + off.toNat := by
  simp only [packB]
  rw [toNat_app, toNat_app, toNat_app, toNat_app]

@[simp] theorem fOp_packB (op : BitVec 6) (a : BitVec 6) (b : BitVec 6) (cond : BitVec 3) (off : BitVec 11) : fOp (packB op a b cond off) = op := by
  apply BitVec.eq_of_toNat_eq
  simp only [fOp, BitVec.extractLsb'_toNat, toNat_packB, Nat.shiftRight_eq_div_pow]
  omega

@[simp] theorem fD_packB (op : BitVec 6) (a : BitVec 6) (b : BitVec 6) (cond : BitVec 3) (off : BitVec 11) : fD (packB op a b cond off) = a := by
  apply BitVec.eq_of_toNat_eq
  simp only [fD, BitVec.extractLsb'_toNat, toNat_packB, Nat.shiftRight_eq_div_pow]
  omega

@[simp] theorem fA_packB (op : BitVec 6) (a : BitVec 6) (b : BitVec 6) (cond : BitVec 3) (off : BitVec 11) : fA (packB op a b cond off) = b := by
  apply BitVec.eq_of_toNat_eq
  simp only [fA, BitVec.extractLsb'_toNat, toNat_packB, Nat.shiftRight_eq_div_pow]
  omega

@[simp] theorem fFn3_packB (op : BitVec 6) (a : BitVec 6) (b : BitVec 6) (cond : BitVec 3) (off : BitVec 11) : fFn3 (packB op a b cond off) = cond := by
  apply BitVec.eq_of_toNat_eq
  simp only [fFn3, BitVec.extractLsb'_toNat, toNat_packB, Nat.shiftRight_eq_div_pow]
  omega

@[simp] theorem fImm11_packB (op : BitVec 6) (a : BitVec 6) (b : BitVec 6) (cond : BitVec 3) (off : BitVec 11) : fImm11 (packB op a b cond off) = off := by
  apply BitVec.eq_of_toNat_eq
  simp only [fImm11, BitVec.extractLsb'_toNat, toNat_packB, Nat.shiftRight_eq_div_pow]
  omega

theorem toNat_packJ (op : BitVec 6) (d : BitVec 6) (off : BitVec 20) :
    (packJ op d off).toNat = ((op.toNat) * 2 ^ 6 + d.toNat) * 2 ^ 20 + off.toNat := by
  simp only [packJ]
  rw [toNat_app, toNat_app]

@[simp] theorem fOp_packJ (op : BitVec 6) (d : BitVec 6) (off : BitVec 20) : fOp (packJ op d off) = op := by
  apply BitVec.eq_of_toNat_eq
  simp only [fOp, BitVec.extractLsb'_toNat, toNat_packJ, Nat.shiftRight_eq_div_pow]
  omega

@[simp] theorem fD_packJ (op : BitVec 6) (d : BitVec 6) (off : BitVec 20) : fD (packJ op d off) = d := by
  apply BitVec.eq_of_toNat_eq
  simp only [fD, BitVec.extractLsb'_toNat, toNat_packJ, Nat.shiftRight_eq_div_pow]
  omega

@[simp] theorem fOff20_packJ (op : BitVec 6) (d : BitVec 6) (off : BitVec 20) : fOff20 (packJ op d off) = off := by
  apply BitVec.eq_of_toNat_eq
  simp only [fOff20, BitVec.extractLsb'_toNat, toNat_packJ, Nat.shiftRight_eq_div_pow]
  omega

theorem toNat_packL (op : BitVec 6) (lvl : BitVec 2) (kind : BitVec 2) (len : BitVec 10) (cnt : BitVec 12) :
    (packL op lvl kind len cnt).toNat = ((((op.toNat) * 2 ^ 2 + lvl.toNat) * 2 ^ 2 + kind.toNat) * 2 ^ 10 + len.toNat) * 2 ^ 12 + cnt.toNat := by
  simp only [packL]
  rw [toNat_app, toNat_app, toNat_app, toNat_app]

@[simp] theorem fOp_packL (op : BitVec 6) (lvl : BitVec 2) (kind : BitVec 2) (len : BitVec 10) (cnt : BitVec 12) : fOp (packL op lvl kind len cnt) = op := by
  apply BitVec.eq_of_toNat_eq
  simp only [fOp, BitVec.extractLsb'_toNat, toNat_packL, Nat.shiftRight_eq_div_pow]
  omega

@[simp] theorem fLvl_packL (op : BitVec 6) (lvl : BitVec 2) (kind : BitVec 2) (len : BitVec 10) (cnt : BitVec 12) : fLvl (packL op lvl kind len cnt) = lvl := by
  apply BitVec.eq_of_toNat_eq
  simp only [fLvl, BitVec.extractLsb'_toNat, toNat_packL, Nat.shiftRight_eq_div_pow]
  omega

@[simp] theorem fKind_packL (op : BitVec 6) (lvl : BitVec 2) (kind : BitVec 2) (len : BitVec 10) (cnt : BitVec 12) : fKind (packL op lvl kind len cnt) = kind := by
  apply BitVec.eq_of_toNat_eq
  simp only [fKind, BitVec.extractLsb'_toNat, toNat_packL, Nat.shiftRight_eq_div_pow]
  omega

@[simp] theorem fLen_packL (op : BitVec 6) (lvl : BitVec 2) (kind : BitVec 2) (len : BitVec 10) (cnt : BitVec 12) : fLen (packL op lvl kind len cnt) = len := by
  apply BitVec.eq_of_toNat_eq
  simp only [fLen, BitVec.extractLsb'_toNat, toNat_packL, Nat.shiftRight_eq_div_pow]
  omega

@[simp] theorem fCnt_packL (op : BitVec 6) (lvl : BitVec 2) (kind : BitVec 2) (len : BitVec 10) (cnt : BitVec 12) : fCnt (packL op lvl kind len cnt) = cnt := by
  apply BitVec.eq_of_toNat_eq
  simp only [fCnt, BitVec.extractLsb'_toNat, toNat_packL, Nat.shiftRight_eq_div_pow]
  omega

theorem toNat_packQ (op : BitVec 6) (qd : BitVec 5) (qa : BitVec 5) (qb : BitVec 5) (n : BitVec 3) (fn : BitVec 8) :
    (packQ op qd qa qb n fn).toNat = (((((op.toNat) * 2 ^ 5 + qd.toNat) * 2 ^ 5 + qa.toNat) * 2 ^ 5 + qb.toNat) * 2 ^ 3 + n.toNat) * 2 ^ 8 + fn.toNat := by
  simp only [packQ]
  rw [toNat_app, toNat_app, toNat_app, toNat_app, toNat_app]

@[simp] theorem fOp_packQ (op : BitVec 6) (qd : BitVec 5) (qa : BitVec 5) (qb : BitVec 5) (n : BitVec 3) (fn : BitVec 8) : fOp (packQ op qd qa qb n fn) = op := by
  apply BitVec.eq_of_toNat_eq
  simp only [fOp, BitVec.extractLsb'_toNat, toNat_packQ, Nat.shiftRight_eq_div_pow]
  omega

@[simp] theorem fQd_packQ (op : BitVec 6) (qd : BitVec 5) (qa : BitVec 5) (qb : BitVec 5) (n : BitVec 3) (fn : BitVec 8) : fQd (packQ op qd qa qb n fn) = qd := by
  apply BitVec.eq_of_toNat_eq
  simp only [fQd, BitVec.extractLsb'_toNat, toNat_packQ, Nat.shiftRight_eq_div_pow]
  omega

@[simp] theorem fQa_packQ (op : BitVec 6) (qd : BitVec 5) (qa : BitVec 5) (qb : BitVec 5) (n : BitVec 3) (fn : BitVec 8) : fQa (packQ op qd qa qb n fn) = qa := by
  apply BitVec.eq_of_toNat_eq
  simp only [fQa, BitVec.extractLsb'_toNat, toNat_packQ, Nat.shiftRight_eq_div_pow]
  omega

@[simp] theorem fQb_packQ (op : BitVec 6) (qd : BitVec 5) (qa : BitVec 5) (qb : BitVec 5) (n : BitVec 3) (fn : BitVec 8) : fQb (packQ op qd qa qb n fn) = qb := by
  apply BitVec.eq_of_toNat_eq
  simp only [fQb, BitVec.extractLsb'_toNat, toNat_packQ, Nat.shiftRight_eq_div_pow]
  omega

@[simp] theorem fN3_packQ (op : BitVec 6) (qd : BitVec 5) (qa : BitVec 5) (qb : BitVec 5) (n : BitVec 3) (fn : BitVec 8) : fN3 (packQ op qd qa qb n fn) = n := by
  apply BitVec.eq_of_toNat_eq
  simp only [fN3, BitVec.extractLsb'_toNat, toNat_packQ, Nat.shiftRight_eq_div_pow]
  omega

@[simp] theorem fFn_packQ (op : BitVec 6) (qd : BitVec 5) (qa : BitVec 5) (qb : BitVec 5) (n : BitVec 3) (fn : BitVec 8) : fFn (packQ op qd qa qb n fn) = fn := by
  apply BitVec.eq_of_toNat_eq
  simp only [fFn, BitVec.extractLsb'_toNat, toNat_packQ, Nat.shiftRight_eq_div_pow]
  omega

theorem toNat_packM (op : BitVec 6) (acc : BitVec 3) (qa : BitVec 5) (qb : BitVec 5) (qm : BitVec 5) (fn : BitVec 8) :
    (packM op acc qa qb qm fn).toNat = (((((op.toNat) * 2 ^ 3 + acc.toNat) * 2 ^ 5 + qa.toNat) * 2 ^ 5 + qb.toNat) * 2 ^ 5 + qm.toNat) * 2 ^ 8 + fn.toNat := by
  simp only [packM]
  rw [toNat_app, toNat_app, toNat_app, toNat_app, toNat_app]

@[simp] theorem fOp_packM (op : BitVec 6) (acc : BitVec 3) (qa : BitVec 5) (qb : BitVec 5) (qm : BitVec 5) (fn : BitVec 8) : fOp (packM op acc qa qb qm fn) = op := by
  apply BitVec.eq_of_toNat_eq
  simp only [fOp, BitVec.extractLsb'_toNat, toNat_packM, Nat.shiftRight_eq_div_pow]
  omega

@[simp] theorem fAcc_packM (op : BitVec 6) (acc : BitVec 3) (qa : BitVec 5) (qb : BitVec 5) (qm : BitVec 5) (fn : BitVec 8) : fAcc (packM op acc qa qb qm fn) = acc := by
  apply BitVec.eq_of_toNat_eq
  simp only [fAcc, BitVec.extractLsb'_toNat, toNat_packM, Nat.shiftRight_eq_div_pow]
  omega

@[simp] theorem fMa_packM (op : BitVec 6) (acc : BitVec 3) (qa : BitVec 5) (qb : BitVec 5) (qm : BitVec 5) (fn : BitVec 8) : fMa (packM op acc qa qb qm fn) = qa := by
  apply BitVec.eq_of_toNat_eq
  simp only [fMa, BitVec.extractLsb'_toNat, toNat_packM, Nat.shiftRight_eq_div_pow]
  omega

@[simp] theorem fMb_packM (op : BitVec 6) (acc : BitVec 3) (qa : BitVec 5) (qb : BitVec 5) (qm : BitVec 5) (fn : BitVec 8) : fMb (packM op acc qa qb qm fn) = qb := by
  apply BitVec.eq_of_toNat_eq
  simp only [fMb, BitVec.extractLsb'_toNat, toNat_packM, Nat.shiftRight_eq_div_pow]
  omega

@[simp] theorem fMm_packM (op : BitVec 6) (acc : BitVec 3) (qa : BitVec 5) (qb : BitVec 5) (qm : BitVec 5) (fn : BitVec 8) : fMm (packM op acc qa qb qm fn) = qm := by
  apply BitVec.eq_of_toNat_eq
  simp only [fMm, BitVec.extractLsb'_toNat, toNat_packM, Nat.shiftRight_eq_div_pow]
  omega

@[simp] theorem fFn_packM (op : BitVec 6) (acc : BitVec 3) (qa : BitVec 5) (qb : BitVec 5) (qm : BitVec 5) (fn : BitVec 8) : fFn (packM op acc qa qb qm fn) = fn := by
  apply BitVec.eq_of_toNat_eq
  simp only [fFn, BitVec.extractLsb'_toNat, toNat_packM, Nat.shiftRight_eq_div_pow]
  omega

/-! Two subfields in one field. -/

@[simp] theorem sub_lo_4_2 (x : BitVec 4) (y : BitVec 2) : BitVec.extractLsb' (n := 6) 0 2 (x ++ y) = y := by
  apply BitVec.eq_of_toNat_eq
  rw [BitVec.extractLsb'_toNat, toNat_app, Nat.shiftRight_eq_div_pow]
  omega
@[simp] theorem sub_hi_4_2 (x : BitVec 4) (y : BitVec 2) : BitVec.extractLsb' (n := 6) 2 4 (x ++ y) = x := by
  apply BitVec.eq_of_toNat_eq
  rw [BitVec.extractLsb'_toNat, toNat_app, Nat.shiftRight_eq_div_pow]
  omega

@[simp] theorem sub_lo_5_6 (x : BitVec 5) (y : BitVec 6) : BitVec.extractLsb' (n := 11) 0 6 (x ++ y) = y := by
  apply BitVec.eq_of_toNat_eq
  rw [BitVec.extractLsb'_toNat, toNat_app, Nat.shiftRight_eq_div_pow]
  omega
@[simp] theorem sub_hi_5_6 (x : BitVec 5) (y : BitVec 6) : BitVec.extractLsb' (n := 11) 6 5 (x ++ y) = x := by
  apply BitVec.eq_of_toNat_eq
  rw [BitVec.extractLsb'_toNat, toNat_app, Nat.shiftRight_eq_div_pow]
  omega

@[simp] theorem sub_lo_6_6 (x : BitVec 6) (y : BitVec 6) : BitVec.extractLsb' (n := 12) 0 6 (x ++ y) = y := by
  apply BitVec.eq_of_toNat_eq
  rw [BitVec.extractLsb'_toNat, toNat_app, Nat.shiftRight_eq_div_pow]
  omega
@[simp] theorem sub_hi_6_6 (x : BitVec 6) (y : BitVec 6) : BitVec.extractLsb' (n := 12) 6 6 (x ++ y) = x := by
  apply BitVec.eq_of_toNat_eq
  rw [BitVec.extractLsb'_toNat, toNat_app, Nat.shiftRight_eq_div_pow]
  omega

@[simp] theorem sub_lo_8_4 (x : BitVec 8) (y : BitVec 4) : BitVec.extractLsb' (n := 12) 0 4 (x ++ y) = y := by
  apply BitVec.eq_of_toNat_eq
  rw [BitVec.extractLsb'_toNat, toNat_app, Nat.shiftRight_eq_div_pow]
  omega
@[simp] theorem sub_hi_8_4 (x : BitVec 8) (y : BitVec 4) : BitVec.extractLsb' (n := 12) 4 8 (x ++ y) = x := by
  apply BitVec.eq_of_toNat_eq
  rw [BitVec.extractLsb'_toNat, toNat_app, Nat.shiftRight_eq_div_pow]
  omega

@[simp] theorem sub_lo_1_5 (x : BitVec 1) (y : BitVec 5) : BitVec.extractLsb' (n := 6) 0 5 (x ++ y) = y := by
  apply BitVec.eq_of_toNat_eq
  rw [BitVec.extractLsb'_toNat, toNat_app, Nat.shiftRight_eq_div_pow]
  omega
@[simp] theorem sub_hi_1_5 (x : BitVec 1) (y : BitVec 5) : BitVec.extractLsb' (n := 6) 5 1 (x ++ y) = x := by
  apply BitVec.eq_of_toNat_eq
  rw [BitVec.extractLsb'_toNat, toNat_app, Nat.shiftRight_eq_div_pow]
  omega

@[simp] theorem sub_lo_3_3 (x : BitVec 3) (y : BitVec 3) : BitVec.extractLsb' (n := 6) 0 3 (x ++ y) = y := by
  apply BitVec.eq_of_toNat_eq
  rw [BitVec.extractLsb'_toNat, toNat_app, Nat.shiftRight_eq_div_pow]
  omega
@[simp] theorem sub_hi_3_3 (x : BitVec 3) (y : BitVec 3) : BitVec.extractLsb' (n := 6) 3 3 (x ++ y) = x := by
  apply BitVec.eq_of_toNat_eq
  rw [BitVec.extractLsb'_toNat, toNat_app, Nat.shiftRight_eq_div_pow]
  omega

@[simp] theorem sub_lo_2_4 (x : BitVec 2) (y : BitVec 4) : BitVec.extractLsb' (n := 6) 0 4 (x ++ y) = y := by
  apply BitVec.eq_of_toNat_eq
  rw [BitVec.extractLsb'_toNat, toNat_app, Nat.shiftRight_eq_div_pow]
  omega
@[simp] theorem sub_hi_2_4 (x : BitVec 2) (y : BitVec 4) : BitVec.extractLsb' (n := 6) 4 2 (x ++ y) = x := by
  apply BitVec.eq_of_toNat_eq
  rw [BitVec.extractLsb'_toNat, toNat_app, Nat.shiftRight_eq_div_pow]
  omega

@[simp] theorem sub_lo_5_1 (x : BitVec 5) (y : BitVec 1) : BitVec.extractLsb' (n := 6) 0 1 (x ++ y) = y := by
  apply BitVec.eq_of_toNat_eq
  rw [BitVec.extractLsb'_toNat, toNat_app, Nat.shiftRight_eq_div_pow]
  omega
@[simp] theorem sub_hi_5_1 (x : BitVec 5) (y : BitVec 1) : BitVec.extractLsb' (n := 6) 1 5 (x ++ y) = x := by
  apply BitVec.eq_of_toNat_eq
  rw [BitVec.extractLsb'_toNat, toNat_app, Nat.shiftRight_eq_div_pow]
  omega

@[simp] theorem sub_lo_2_3 (x : BitVec 2) (y : BitVec 3) : BitVec.extractLsb' (n := 5) 0 3 (x ++ y) = y := by
  apply BitVec.eq_of_toNat_eq
  rw [BitVec.extractLsb'_toNat, toNat_app, Nat.shiftRight_eq_div_pow]
  omega
@[simp] theorem sub_hi_2_3 (x : BitVec 2) (y : BitVec 3) : BitVec.extractLsb' (n := 5) 3 2 (x ++ y) = x := by
  apply BitVec.eq_of_toNat_eq
  rw [BitVec.extractLsb'_toNat, toNat_app, Nat.shiftRight_eq_div_pow]
  omega

/-! Subfields of longer fields. -/

@[simp] theorem mdpackA_0 (x0 : BitVec 2) (x1 : BitVec 1) (x2 : BitVec 3) :
    BitVec.extractLsb' (n := 6) 4 2 (x0 ++ x1 ++ x2) = x0 := by
  apply BitVec.eq_of_toNat_eq
  rw [BitVec.extractLsb'_toNat, toNat_app, toNat_app, Nat.shiftRight_eq_div_pow]
  omega

@[simp] theorem mdpackA_1 (x0 : BitVec 2) (x1 : BitVec 1) (x2 : BitVec 3) :
    BitVec.extractLsb' (n := 6) 3 1 (x0 ++ x1 ++ x2) = x1 := by
  apply BitVec.eq_of_toNat_eq
  rw [BitVec.extractLsb'_toNat, toNat_app, toNat_app, Nat.shiftRight_eq_div_pow]
  omega

@[simp] theorem mdpackA_2 (x0 : BitVec 2) (x1 : BitVec 1) (x2 : BitVec 3) :
    BitVec.extractLsb' (n := 6) 0 3 (x0 ++ x1 ++ x2) = x2 := by
  apply BitVec.eq_of_toNat_eq
  rw [BitVec.extractLsb'_toNat, toNat_app, toNat_app, Nat.shiftRight_eq_div_pow]
  omega

@[simp] theorem vscanB_0 (x0 : BitVec 1) (x1 : BitVec 2) (x2 : BitVec 3) :
    BitVec.extractLsb' (n := 6) 5 1 (x0 ++ x1 ++ x2) = x0 := by
  apply BitVec.eq_of_toNat_eq
  rw [BitVec.extractLsb'_toNat, toNat_app, toNat_app, Nat.shiftRight_eq_div_pow]
  omega

@[simp] theorem vscanB_1 (x0 : BitVec 1) (x1 : BitVec 2) (x2 : BitVec 3) :
    BitVec.extractLsb' (n := 6) 3 2 (x0 ++ x1 ++ x2) = x1 := by
  apply BitVec.eq_of_toNat_eq
  rw [BitVec.extractLsb'_toNat, toNat_app, toNat_app, Nat.shiftRight_eq_div_pow]
  omega

@[simp] theorem vscanB_2 (x0 : BitVec 1) (x1 : BitVec 2) (x2 : BitVec 3) :
    BitVec.extractLsb' (n := 6) 0 3 (x0 ++ x1 ++ x2) = x2 := by
  apply BitVec.eq_of_toNat_eq
  rw [BitVec.extractLsb'_toNat, toNat_app, toNat_app, Nat.shiftRight_eq_div_pow]
  omega

@[simp] theorem apcfgE_0 (x0 : BitVec 2) (x1 : BitVec 4) (x2 : BitVec 2) (x3 : BitVec 24) :
    BitVec.extractLsb' (n := 32) 30 2 (x0 ++ x1 ++ x2 ++ x3) = x0 := by
  apply BitVec.eq_of_toNat_eq
  rw [BitVec.extractLsb'_toNat, toNat_app, toNat_app, toNat_app, Nat.shiftRight_eq_div_pow]
  omega

@[simp] theorem apcfgE_1 (x0 : BitVec 2) (x1 : BitVec 4) (x2 : BitVec 2) (x3 : BitVec 24) :
    BitVec.extractLsb' (n := 32) 26 4 (x0 ++ x1 ++ x2 ++ x3) = x1 := by
  apply BitVec.eq_of_toNat_eq
  rw [BitVec.extractLsb'_toNat, toNat_app, toNat_app, toNat_app, Nat.shiftRight_eq_div_pow]
  omega

@[simp] theorem apcfgE_2 (x0 : BitVec 2) (x1 : BitVec 4) (x2 : BitVec 2) (x3 : BitVec 24) :
    BitVec.extractLsb' (n := 32) 24 2 (x0 ++ x1 ++ x2 ++ x3) = x2 := by
  apply BitVec.eq_of_toNat_eq
  rw [BitVec.extractLsb'_toNat, toNat_app, toNat_app, toNat_app, Nat.shiftRight_eq_div_pow]
  omega

@[simp] theorem apcfgE_3 (x0 : BitVec 2) (x1 : BitVec 4) (x2 : BitVec 2) (x3 : BitVec 24) :
    BitVec.extractLsb' (n := 32) 0 24 (x0 ++ x1 ++ x2 ++ x3) = x3 := by
  apply BitVec.eq_of_toNat_eq
  rw [BitVec.extractLsb'_toNat, toNat_app, toNat_app, toNat_app, Nat.shiftRight_eq_div_pow]
  omega

@[simp] theorem cpyE_0 (x0 : BitVec 2) (x1 : BitVec 2) (x2 : BitVec 28) :
    BitVec.extractLsb' (n := 32) 30 2 (x0 ++ x1 ++ x2) = x0 := by
  apply BitVec.eq_of_toNat_eq
  rw [BitVec.extractLsb'_toNat, toNat_app, toNat_app, Nat.shiftRight_eq_div_pow]
  omega

@[simp] theorem cpyE_1 (x0 : BitVec 2) (x1 : BitVec 2) (x2 : BitVec 28) :
    BitVec.extractLsb' (n := 32) 28 2 (x0 ++ x1 ++ x2) = x1 := by
  apply BitVec.eq_of_toNat_eq
  rw [BitVec.extractLsb'_toNat, toNat_app, toNat_app, Nat.shiftRight_eq_div_pow]
  omega

@[simp] theorem cpyE_2 (x0 : BitVec 2) (x1 : BitVec 2) (x2 : BitVec 28) :
    BitVec.extractLsb' (n := 32) 0 28 (x0 ++ x1 ++ x2) = x2 := by
  apply BitVec.eq_of_toNat_eq
  rw [BitVec.extractLsb'_toNat, toNat_app, toNat_app, Nat.shiftRight_eq_div_pow]
  omega

@[simp] theorem vtcfgE_0 (x0 : BitVec 7) (x1 : BitVec 1) (x2 : BitVec 2) (x3 : BitVec 2) (x4 : BitVec 8) (x5 : BitVec 12) :
    BitVec.extractLsb' (n := 32) 25 7 (x0 ++ x1 ++ x2 ++ x3 ++ x4 ++ x5) = x0 := by
  apply BitVec.eq_of_toNat_eq
  rw [BitVec.extractLsb'_toNat, toNat_app, toNat_app, toNat_app, toNat_app, toNat_app, Nat.shiftRight_eq_div_pow]
  omega

@[simp] theorem vtcfgE_1 (x0 : BitVec 7) (x1 : BitVec 1) (x2 : BitVec 2) (x3 : BitVec 2) (x4 : BitVec 8) (x5 : BitVec 12) :
    BitVec.extractLsb' (n := 32) 24 1 (x0 ++ x1 ++ x2 ++ x3 ++ x4 ++ x5) = x1 := by
  apply BitVec.eq_of_toNat_eq
  rw [BitVec.extractLsb'_toNat, toNat_app, toNat_app, toNat_app, toNat_app, toNat_app, Nat.shiftRight_eq_div_pow]
  omega

@[simp] theorem vtcfgE_2 (x0 : BitVec 7) (x1 : BitVec 1) (x2 : BitVec 2) (x3 : BitVec 2) (x4 : BitVec 8) (x5 : BitVec 12) :
    BitVec.extractLsb' (n := 32) 22 2 (x0 ++ x1 ++ x2 ++ x3 ++ x4 ++ x5) = x2 := by
  apply BitVec.eq_of_toNat_eq
  rw [BitVec.extractLsb'_toNat, toNat_app, toNat_app, toNat_app, toNat_app, toNat_app, Nat.shiftRight_eq_div_pow]
  omega

@[simp] theorem vtcfgE_3 (x0 : BitVec 7) (x1 : BitVec 1) (x2 : BitVec 2) (x3 : BitVec 2) (x4 : BitVec 8) (x5 : BitVec 12) :
    BitVec.extractLsb' (n := 32) 20 2 (x0 ++ x1 ++ x2 ++ x3 ++ x4 ++ x5) = x3 := by
  apply BitVec.eq_of_toNat_eq
  rw [BitVec.extractLsb'_toNat, toNat_app, toNat_app, toNat_app, toNat_app, toNat_app, Nat.shiftRight_eq_div_pow]
  omega

@[simp] theorem vtcfgE_4 (x0 : BitVec 7) (x1 : BitVec 1) (x2 : BitVec 2) (x3 : BitVec 2) (x4 : BitVec 8) (x5 : BitVec 12) :
    BitVec.extractLsb' (n := 32) 12 8 (x0 ++ x1 ++ x2 ++ x3 ++ x4 ++ x5) = x4 := by
  apply BitVec.eq_of_toNat_eq
  rw [BitVec.extractLsb'_toNat, toNat_app, toNat_app, toNat_app, toNat_app, toNat_app, Nat.shiftRight_eq_div_pow]
  omega

@[simp] theorem vtcfgE_5 (x0 : BitVec 7) (x1 : BitVec 1) (x2 : BitVec 2) (x3 : BitVec 2) (x4 : BitVec 8) (x5 : BitVec 12) :
    BitVec.extractLsb' (n := 32) 0 12 (x0 ++ x1 ++ x2 ++ x3 ++ x4 ++ x5) = x5 := by
  apply BitVec.eq_of_toNat_eq
  rw [BitVec.extractLsb'_toNat, toNat_app, toNat_app, toNat_app, toNat_app, toNat_app, Nat.shiftRight_eq_div_pow]
  omega

@[simp] theorem cvtE_0 (x0 : BitVec 2) (x1 : BitVec 2) (x2 : BitVec 4) (x3 : BitVec 4) (x4 : BitVec 2) (x5 : BitVec 1) (x6 : BitVec 1) (x7 : BitVec 16) :
    BitVec.extractLsb' (n := 32) 30 2 (x0 ++ x1 ++ x2 ++ x3 ++ x4 ++ x5 ++ x6 ++ x7) = x0 := by
  apply BitVec.eq_of_toNat_eq
  rw [BitVec.extractLsb'_toNat, toNat_app, toNat_app, toNat_app, toNat_app, toNat_app, toNat_app, toNat_app, Nat.shiftRight_eq_div_pow]
  omega

@[simp] theorem cvtE_1 (x0 : BitVec 2) (x1 : BitVec 2) (x2 : BitVec 4) (x3 : BitVec 4) (x4 : BitVec 2) (x5 : BitVec 1) (x6 : BitVec 1) (x7 : BitVec 16) :
    BitVec.extractLsb' (n := 32) 28 2 (x0 ++ x1 ++ x2 ++ x3 ++ x4 ++ x5 ++ x6 ++ x7) = x1 := by
  apply BitVec.eq_of_toNat_eq
  rw [BitVec.extractLsb'_toNat, toNat_app, toNat_app, toNat_app, toNat_app, toNat_app, toNat_app, toNat_app, Nat.shiftRight_eq_div_pow]
  omega

@[simp] theorem cvtE_2 (x0 : BitVec 2) (x1 : BitVec 2) (x2 : BitVec 4) (x3 : BitVec 4) (x4 : BitVec 2) (x5 : BitVec 1) (x6 : BitVec 1) (x7 : BitVec 16) :
    BitVec.extractLsb' (n := 32) 24 4 (x0 ++ x1 ++ x2 ++ x3 ++ x4 ++ x5 ++ x6 ++ x7) = x2 := by
  apply BitVec.eq_of_toNat_eq
  rw [BitVec.extractLsb'_toNat, toNat_app, toNat_app, toNat_app, toNat_app, toNat_app, toNat_app, toNat_app, Nat.shiftRight_eq_div_pow]
  omega

@[simp] theorem cvtE_3 (x0 : BitVec 2) (x1 : BitVec 2) (x2 : BitVec 4) (x3 : BitVec 4) (x4 : BitVec 2) (x5 : BitVec 1) (x6 : BitVec 1) (x7 : BitVec 16) :
    BitVec.extractLsb' (n := 32) 20 4 (x0 ++ x1 ++ x2 ++ x3 ++ x4 ++ x5 ++ x6 ++ x7) = x3 := by
  apply BitVec.eq_of_toNat_eq
  rw [BitVec.extractLsb'_toNat, toNat_app, toNat_app, toNat_app, toNat_app, toNat_app, toNat_app, toNat_app, Nat.shiftRight_eq_div_pow]
  omega

@[simp] theorem cvtE_4 (x0 : BitVec 2) (x1 : BitVec 2) (x2 : BitVec 4) (x3 : BitVec 4) (x4 : BitVec 2) (x5 : BitVec 1) (x6 : BitVec 1) (x7 : BitVec 16) :
    BitVec.extractLsb' (n := 32) 18 2 (x0 ++ x1 ++ x2 ++ x3 ++ x4 ++ x5 ++ x6 ++ x7) = x4 := by
  apply BitVec.eq_of_toNat_eq
  rw [BitVec.extractLsb'_toNat, toNat_app, toNat_app, toNat_app, toNat_app, toNat_app, toNat_app, toNat_app, Nat.shiftRight_eq_div_pow]
  omega

@[simp] theorem cvtE_5 (x0 : BitVec 2) (x1 : BitVec 2) (x2 : BitVec 4) (x3 : BitVec 4) (x4 : BitVec 2) (x5 : BitVec 1) (x6 : BitVec 1) (x7 : BitVec 16) :
    BitVec.extractLsb' (n := 32) 17 1 (x0 ++ x1 ++ x2 ++ x3 ++ x4 ++ x5 ++ x6 ++ x7) = x5 := by
  apply BitVec.eq_of_toNat_eq
  rw [BitVec.extractLsb'_toNat, toNat_app, toNat_app, toNat_app, toNat_app, toNat_app, toNat_app, toNat_app, Nat.shiftRight_eq_div_pow]
  omega

@[simp] theorem cvtE_6 (x0 : BitVec 2) (x1 : BitVec 2) (x2 : BitVec 4) (x3 : BitVec 4) (x4 : BitVec 2) (x5 : BitVec 1) (x6 : BitVec 1) (x7 : BitVec 16) :
    BitVec.extractLsb' (n := 32) 16 1 (x0 ++ x1 ++ x2 ++ x3 ++ x4 ++ x5 ++ x6 ++ x7) = x6 := by
  apply BitVec.eq_of_toNat_eq
  rw [BitVec.extractLsb'_toNat, toNat_app, toNat_app, toNat_app, toNat_app, toNat_app, toNat_app, toNat_app, Nat.shiftRight_eq_div_pow]
  omega

@[simp] theorem cvtE_7 (x0 : BitVec 2) (x1 : BitVec 2) (x2 : BitVec 4) (x3 : BitVec 4) (x4 : BitVec 2) (x5 : BitVec 1) (x6 : BitVec 1) (x7 : BitVec 16) :
    BitVec.extractLsb' (n := 32) 0 16 (x0 ++ x1 ++ x2 ++ x3 ++ x4 ++ x5 ++ x6 ++ x7) = x7 := by
  apply BitVec.eq_of_toNat_eq
  rw [BitVec.extractLsb'_toNat, toNat_app, toNat_app, toNat_app, toNat_app, toNat_app, toNat_app, toNat_app, Nat.shiftRight_eq_div_pow]
  omega

@[simp] theorem mcastE_0 (x0 : BitVec 8) (x1 : BitVec 16) (x2 : BitVec 8) :
    BitVec.extractLsb' (n := 32) 24 8 (x0 ++ x1 ++ x2) = x0 := by
  apply BitVec.eq_of_toNat_eq
  rw [BitVec.extractLsb'_toNat, toNat_app, toNat_app, Nat.shiftRight_eq_div_pow]
  omega

@[simp] theorem mcastE_1 (x0 : BitVec 8) (x1 : BitVec 16) (x2 : BitVec 8) :
    BitVec.extractLsb' (n := 32) 8 16 (x0 ++ x1 ++ x2) = x1 := by
  apply BitVec.eq_of_toNat_eq
  rw [BitVec.extractLsb'_toNat, toNat_app, toNat_app, Nat.shiftRight_eq_div_pow]
  omega

@[simp] theorem mcastE_2 (x0 : BitVec 8) (x1 : BitVec 16) (x2 : BitVec 8) :
    BitVec.extractLsb' (n := 32) 0 8 (x0 ++ x1 ++ x2) = x2 := by
  apply BitVec.eq_of_toNat_eq
  rw [BitVec.extractLsb'_toNat, toNat_app, toNat_app, Nat.shiftRight_eq_div_pow]
  omega

@[simp] theorem vopE_0 (x0 : BitVec 3) (x1 : BitVec 1) (x2 : BitVec 28) :
    BitVec.extractLsb' (n := 32) 29 3 (x0 ++ x1 ++ x2) = x0 := by
  apply BitVec.eq_of_toNat_eq
  rw [BitVec.extractLsb'_toNat, toNat_app, toNat_app, Nat.shiftRight_eq_div_pow]
  omega

@[simp] theorem vopE_1 (x0 : BitVec 3) (x1 : BitVec 1) (x2 : BitVec 28) :
    BitVec.extractLsb' (n := 32) 28 1 (x0 ++ x1 ++ x2) = x1 := by
  apply BitVec.eq_of_toNat_eq
  rw [BitVec.extractLsb'_toNat, toNat_app, toNat_app, Nat.shiftRight_eq_div_pow]
  omega

@[simp] theorem vopE_2 (x0 : BitVec 3) (x1 : BitVec 1) (x2 : BitVec 28) :
    BitVec.extractLsb' (n := 32) 0 28 (x0 ++ x1 ++ x2) = x2 := by
  apply BitVec.eq_of_toNat_eq
  rw [BitVec.extractLsb'_toNat, toNat_app, toNat_app, Nat.shiftRight_eq_div_pow]
  omega

@[simp] theorem remE_0 (x0 : BitVec 5) (x1 : BitVec 27) :
    BitVec.extractLsb' (n := 32) 27 5 (x0 ++ x1) = x0 := by
  apply BitVec.eq_of_toNat_eq
  rw [BitVec.extractLsb'_toNat, toNat_app, Nat.shiftRight_eq_div_pow]
  omega

@[simp] theorem remE_1 (x0 : BitVec 5) (x1 : BitVec 27) :
    BitVec.extractLsb' (n := 32) 0 27 (x0 ++ x1) = x1 := by
  apply BitVec.eq_of_toNat_eq
  rw [BitVec.extractLsb'_toNat, toNat_app, Nat.shiftRight_eq_div_pow]
  omega

@[simp] theorem waitE_0 (x0 : BitVec 17) (x1 : BitVec 7) (x2 : BitVec 6) (x3 : BitVec 2) :
    BitVec.extractLsb' (n := 32) 15 17 (x0 ++ x1 ++ x2 ++ x3) = x0 := by
  apply BitVec.eq_of_toNat_eq
  rw [BitVec.extractLsb'_toNat, toNat_app, toNat_app, toNat_app, Nat.shiftRight_eq_div_pow]
  omega

@[simp] theorem waitE_1 (x0 : BitVec 17) (x1 : BitVec 7) (x2 : BitVec 6) (x3 : BitVec 2) :
    BitVec.extractLsb' (n := 32) 8 7 (x0 ++ x1 ++ x2 ++ x3) = x1 := by
  apply BitVec.eq_of_toNat_eq
  rw [BitVec.extractLsb'_toNat, toNat_app, toNat_app, toNat_app, Nat.shiftRight_eq_div_pow]
  omega

@[simp] theorem waitE_2 (x0 : BitVec 17) (x1 : BitVec 7) (x2 : BitVec 6) (x3 : BitVec 2) :
    BitVec.extractLsb' (n := 32) 2 6 (x0 ++ x1 ++ x2 ++ x3) = x2 := by
  apply BitVec.eq_of_toNat_eq
  rw [BitVec.extractLsb'_toNat, toNat_app, toNat_app, toNat_app, Nat.shiftRight_eq_div_pow]
  omega

@[simp] theorem waitE_3 (x0 : BitVec 17) (x1 : BitVec 7) (x2 : BitVec 6) (x3 : BitVec 2) :
    BitVec.extractLsb' (n := 32) 0 2 (x0 ++ x1 ++ x2 ++ x3) = x3 := by
  apply BitVec.eq_of_toNat_eq
  rw [BitVec.extractLsb'_toNat, toNat_app, toNat_app, toNat_app, Nat.shiftRight_eq_div_pow]
  omega

@[simp] theorem cmplE_0 (x0 : BitVec 2) (x1 : BitVec 1) (x2 : BitVec 5) (x3 : BitVec 24) :
    BitVec.extractLsb' (n := 32) 30 2 (x0 ++ x1 ++ x2 ++ x3) = x0 := by
  apply BitVec.eq_of_toNat_eq
  rw [BitVec.extractLsb'_toNat, toNat_app, toNat_app, toNat_app, Nat.shiftRight_eq_div_pow]
  omega

@[simp] theorem cmplE_1 (x0 : BitVec 2) (x1 : BitVec 1) (x2 : BitVec 5) (x3 : BitVec 24) :
    BitVec.extractLsb' (n := 32) 29 1 (x0 ++ x1 ++ x2 ++ x3) = x1 := by
  apply BitVec.eq_of_toNat_eq
  rw [BitVec.extractLsb'_toNat, toNat_app, toNat_app, toNat_app, Nat.shiftRight_eq_div_pow]
  omega

@[simp] theorem cmplE_2 (x0 : BitVec 2) (x1 : BitVec 1) (x2 : BitVec 5) (x3 : BitVec 24) :
    BitVec.extractLsb' (n := 32) 24 5 (x0 ++ x1 ++ x2 ++ x3) = x2 := by
  apply BitVec.eq_of_toNat_eq
  rw [BitVec.extractLsb'_toNat, toNat_app, toNat_app, toNat_app, Nat.shiftRight_eq_div_pow]
  omega

@[simp] theorem cmplE_3 (x0 : BitVec 2) (x1 : BitVec 1) (x2 : BitVec 5) (x3 : BitVec 24) :
    BitVec.extractLsb' (n := 32) 0 24 (x0 ++ x1 ++ x2 ++ x3) = x3 := by
  apply BitVec.eq_of_toNat_eq
  rw [BitVec.extractLsb'_toNat, toNat_app, toNat_app, toNat_app, Nat.shiftRight_eq_div_pow]
  omega

@[simp] theorem join_6_6 (x : BitVec 12) : (x.extractLsb' 6 6 ++ x.extractLsb' 0 6 : BitVec 12) = x := by
  apply BitVec.eq_of_toNat_eq
  rw [toNat_app, BitVec.extractLsb'_toNat, BitVec.extractLsb'_toNat, Nat.shiftRight_eq_div_pow, Nat.shiftRight_eq_div_pow]
  omega

@[simp] theorem join_1_6 (x : BitVec 7) : (x.extractLsb' 6 1 ++ x.extractLsb' 0 6 : BitVec 7) = x := by
  apply BitVec.eq_of_toNat_eq
  rw [toNat_app, BitVec.extractLsb'_toNat, BitVec.extractLsb'_toNat, Nat.shiftRight_eq_div_pow, Nat.shiftRight_eq_div_pow]
  omega

/-! Codes read back. -/

@[simp] theorem Rounding.ofBits_toBits (x : Rounding) : Rounding.ofBits x.toBits = x := by cases x <;> rfl

@[simp] theorem Order.ofBits_toBits (x : Order) : Order.ofBits x.toBits = some x := by cases x <;> rfl

@[simp] theorem Width.ofBits_toBits (x : Width) : Width.ofBits x.toBits = x := by cases x <;> rfl

@[simp] theorem Space.ofBits_toBits (x : Space) : Space.ofBits x.toBits = some x := by cases x <;> rfl

@[simp] theorem CvtType.ofBits_toBits (x : CvtType) : CvtType.ofBits x.toBits = some x := by cases x <;> rfl

@[simp] theorem ScanOp.ofBits_toBits (x : ScanOp) : ScanOp.ofBits x.toBits = some x := by cases x <;> rfl

@[simp] theorem VaultOp.ofBits_toBits (x : VaultOp) : VaultOp.ofBits x.toBits = some x := by cases x <;> rfl

@[simp] theorem OobMode.ofBits_toBits (x : OobMode) : OobMode.ofBits x.toBits = x := by cases x <;> rfl

@[simp] theorem Action.ofBits_toBits (x : Action) : Action.ofBits x.toBits = x := by cases x <;> rfl

@[simp] theorem IdReg.ofBits_toBits (x : IdReg) : IdReg.ofBits x.toBits = x := by cases x <;> rfl

@[simp] theorem need_some {α : Type} (v : α) : need (some v) = .ok v := rfl
@[simp] theorem ok_bind {α β : Type} (v : α) (f : α → Except DecodeError β) : ((Except.ok v : Except DecodeError α) >>= f) = f v := rfl
@[simp] theorem optHandle_some (q : BitVec 5) : optHandle true q = .ok (some q) := rfl
@[simp] theorem optHandle_none : optHandle false 0#5 = .ok none := rfl
@[simp] theorem decodeFollow_encode (f : Follow) : decodeFollow (encodeFollow f) = .ok f := by
  cases f with | mk form acc qa qb qm => cases form <;> simp [decodeFollow, encodeFollow, FollowForm.fn]

@[simp] theorem zeroed_true (i : Instr) : zeroed true i = .ok i := rfl

end Sys2Proof
end

