-- ==== Sys2Proof/Laws/PerInstr.lean ====
section
/-! SUPPORT. The families of statements made for each instruction. RoundTrip: what `encode` writes of a well-formed instruction, `decode` reads back (R135 to R144). -/

namespace Sys2Proof.Laws

/-- The bytes of an instruction at rising addresses (R3). -/
def bytesOf (i : Instr) : List Byte := (encode i).flatMap bytesOfIWord

theorem iword_bytes (w : IWord) : iwordOfBytes (w.extractLsb' 0 8) (w.extractLsb' 8 8) (w.extractLsb' 16 8) (w.extractLsb' 24 8) = w := by
  apply BitVec.eq_of_toNat_eq
  unfold iwordOfBytes
  rw [toNat_app, toNat_app, toNat_app]
  simp only [BitVec.extractLsb'_toNat, Nat.shiftRight_eq_div_pow]
  omega

/-- An instruction of one word reads back. -/
theorem decode_one {i : Instr} {w : IWord} (he : encode i = [w]) (h2 : isTwoWord w = false) (hd : decodeWords w 0#32 = .ok i) (r : List Byte) :
    decode (bytesOf i ++ r) = .ok (i, r) := by
  simp [bytesOf, he, bytesOfIWord, decode, iword_bytes, h2, hd]

/-- An instruction of two words reads back. -/
theorem decode_two {i : Instr} {w e : IWord} (he : encode i = [w, e]) (h2 : isTwoWord w = true) (hd : decodeWords w e = .ok i) (r : List Byte) :
    decode (bytesOf i ++ r) = .ok (i, r) := by
  simp [bytesOf, he, bytesOfIWord, decode, iword_bytes, h2, hd]

/-- A word decodes to an instruction whose raw decoding is well formed. -/
theorem decodeWords_of_raw {i : Instr} {w e : IWord} (hd : decodeRaw w e = .ok i) (hw : i.wf = true) : decodeWords w e = .ok i := by
  simp [decodeWords, hd, hw]

namespace RoundTrip

/-- What `encode` writes of a well-formed instruction word, `decode` reads back. -/
def Statement (i : Instr) : Prop := i.wf = true → i.isWord = true → ∀ r : List Byte, decode (bytesOf i ++ r) = .ok (i, r)

-- The first lemma is elaborated before the others start: the equations of `decodeRaw` are then made once, and no lemma waits for them.
set_option Elab.async false in
theorem add (d : Reg) (a : Reg) (b : Reg) : Statement (.add d a b) := by
  intro hw _
  refine decode_one rfl ?_ (decodeWords_of_raw ?_ hw)
  · simp [isTwoWord]
  · simp [decodeRaw, decodeAlu]
theorem sub (d : Reg) (a : Reg) (b : Reg) : Statement (.sub d a b) := by
  intro hw _
  refine decode_one rfl ?_ (decodeWords_of_raw ?_ hw)
  · simp [isTwoWord]
  · simp [decodeRaw, decodeAlu]
theorem and (d : Reg) (a : Reg) (b : Reg) : Statement (.and d a b) := by
  intro hw _
  refine decode_one rfl ?_ (decodeWords_of_raw ?_ hw)
  · simp [isTwoWord]
  · simp [decodeRaw, decodeAlu]
theorem or (d : Reg) (a : Reg) (b : Reg) : Statement (.or d a b) := by
  intro hw _
  refine decode_one rfl ?_ (decodeWords_of_raw ?_ hw)
  · simp [isTwoWord]
  · simp [decodeRaw, decodeAlu]
theorem xor (d : Reg) (a : Reg) (b : Reg) : Statement (.xor d a b) := by
  intro hw _
  refine decode_one rfl ?_ (decodeWords_of_raw ?_ hw)
  · simp [isTwoWord]
  · simp [decodeRaw, decodeAlu]
theorem andn (d : Reg) (a : Reg) (b : Reg) : Statement (.andn d a b) := by
  intro hw _
  refine decode_one rfl ?_ (decodeWords_of_raw ?_ hw)
  · simp [isTwoWord]
  · simp [decodeRaw, decodeAlu]
theorem sll (d : Reg) (a : Reg) (b : Reg) : Statement (.sll d a b) := by
  intro hw _
  refine decode_one rfl ?_ (decodeWords_of_raw ?_ hw)
  · simp [isTwoWord]
  · simp [decodeRaw, decodeAlu]
theorem srl (d : Reg) (a : Reg) (b : Reg) : Statement (.srl d a b) := by
  intro hw _
  refine decode_one rfl ?_ (decodeWords_of_raw ?_ hw)
  · simp [isTwoWord]
  · simp [decodeRaw, decodeAlu]
theorem sra (d : Reg) (a : Reg) (b : Reg) : Statement (.sra d a b) := by
  intro hw _
  refine decode_one rfl ?_ (decodeWords_of_raw ?_ hw)
  · simp [isTwoWord]
  · simp [decodeRaw, decodeAlu]
theorem rol (d : Reg) (a : Reg) (b : Reg) : Statement (.rol d a b) := by
  intro hw _
  refine decode_one rfl ?_ (decodeWords_of_raw ?_ hw)
  · simp [isTwoWord]
  · simp [decodeRaw, decodeAlu]
theorem mul (d : Reg) (a : Reg) (b : Reg) : Statement (.mul d a b) := by
  intro hw _
  refine decode_one rfl ?_ (decodeWords_of_raw ?_ hw)
  · simp [isTwoWord]
  · simp [decodeRaw, decodeAlu]
theorem mulh (d : Reg) (a : Reg) (b : Reg) : Statement (.mulh d a b) := by
  intro hw _
  refine decode_one rfl ?_ (decodeWords_of_raw ?_ hw)
  · simp [isTwoWord]
  · simp [decodeRaw, decodeAlu]
theorem mulhu (d : Reg) (a : Reg) (b : Reg) : Statement (.mulhu d a b) := by
  intro hw _
  refine decode_one rfl ?_ (decodeWords_of_raw ?_ hw)
  · simp [isTwoWord]
  · simp [decodeRaw, decodeAlu]
theorem div (d : Reg) (a : Reg) (b : Reg) : Statement (.div d a b) := by
  intro hw _
  refine decode_one rfl ?_ (decodeWords_of_raw ?_ hw)
  · simp [isTwoWord]
  · simp [decodeRaw, decodeAlu]
theorem divu (d : Reg) (a : Reg) (b : Reg) : Statement (.divu d a b) := by
  intro hw _
  refine decode_one rfl ?_ (decodeWords_of_raw ?_ hw)
  · simp [isTwoWord]
  · simp [decodeRaw, decodeAlu]
theorem rem (d : Reg) (a : Reg) (b : Reg) : Statement (.rem d a b) := by
  intro hw _
  refine decode_one rfl ?_ (decodeWords_of_raw ?_ hw)
  · simp [isTwoWord]
  · simp [decodeRaw, decodeAlu]
theorem remu (d : Reg) (a : Reg) (b : Reg) : Statement (.remu d a b) := by
  intro hw _
  refine decode_one rfl ?_ (decodeWords_of_raw ?_ hw)
  · simp [isTwoWord]
  · simp [decodeRaw, decodeAlu]
theorem min (d : Reg) (a : Reg) (b : Reg) : Statement (.min d a b) := by
  intro hw _
  refine decode_one rfl ?_ (decodeWords_of_raw ?_ hw)
  · simp [isTwoWord]
  · simp [decodeRaw, decodeAlu]
theorem minu (d : Reg) (a : Reg) (b : Reg) : Statement (.minu d a b) := by
  intro hw _
  refine decode_one rfl ?_ (decodeWords_of_raw ?_ hw)
  · simp [isTwoWord]
  · simp [decodeRaw, decodeAlu]
theorem max (d : Reg) (a : Reg) (b : Reg) : Statement (.max d a b) := by
  intro hw _
  refine decode_one rfl ?_ (decodeWords_of_raw ?_ hw)
  · simp [isTwoWord]
  · simp [decodeRaw, decodeAlu]
theorem maxu (d : Reg) (a : Reg) (b : Reg) : Statement (.maxu d a b) := by
  intro hw _
  refine decode_one rfl ?_ (decodeWords_of_raw ?_ hw)
  · simp [isTwoWord]
  · simp [decodeRaw, decodeAlu]
theorem seq (d : Reg) (a : Reg) (b : Reg) : Statement (.seq d a b) := by
  intro hw _
  refine decode_one rfl ?_ (decodeWords_of_raw ?_ hw)
  · simp [isTwoWord]
  · simp [decodeRaw, decodeAlu]
theorem sne (d : Reg) (a : Reg) (b : Reg) : Statement (.sne d a b) := by
  intro hw _
  refine decode_one rfl ?_ (decodeWords_of_raw ?_ hw)
  · simp [isTwoWord]
  · simp [decodeRaw, decodeAlu]
theorem slt (d : Reg) (a : Reg) (b : Reg) : Statement (.slt d a b) := by
  intro hw _
  refine decode_one rfl ?_ (decodeWords_of_raw ?_ hw)
  · simp [isTwoWord]
  · simp [decodeRaw, decodeAlu]
theorem sltu (d : Reg) (a : Reg) (b : Reg) : Statement (.sltu d a b) := by
  intro hw _
  refine decode_one rfl ?_ (decodeWords_of_raw ?_ hw)
  · simp [isTwoWord]
  · simp [decodeRaw, decodeAlu]
theorem sle (d : Reg) (a : Reg) (b : Reg) : Statement (.sle d a b) := by
  intro hw _
  refine decode_one rfl ?_ (decodeWords_of_raw ?_ hw)
  · simp [isTwoWord]
  · simp [decodeRaw, decodeAlu]
theorem sleu (d : Reg) (a : Reg) (b : Reg) : Statement (.sleu d a b) := by
  intro hw _
  refine decode_one rfl ?_ (decodeWords_of_raw ?_ hw)
  · simp [isTwoWord]
  · simp [decodeRaw, decodeAlu]
theorem clz (d : Reg) (a : Reg) : Statement (.clz d a) := by
  intro hw _
  refine decode_one rfl ?_ (decodeWords_of_raw ?_ hw)
  · simp [isTwoWord]
  · simp [decodeRaw, decodeAlu]
theorem ctz (d : Reg) (a : Reg) : Statement (.ctz d a) := by
  intro hw _
  refine decode_one rfl ?_ (decodeWords_of_raw ?_ hw)
  · simp [isTwoWord]
  · simp [decodeRaw, decodeAlu]
theorem popc (d : Reg) (a : Reg) : Statement (.popc d a) := by
  intro hw _
  refine decode_one rfl ?_ (decodeWords_of_raw ?_ hw)
  · simp [isTwoWord]
  · simp [decodeRaw, decodeAlu]
theorem bswap (d : Reg) (a : Reg) : Statement (.bswap d a) := by
  intro hw _
  refine decode_one rfl ?_ (decodeWords_of_raw ?_ hw)
  · simp [isTwoWord]
  · simp [decodeRaw, decodeAlu]
theorem sexb (d : Reg) (a : Reg) : Statement (.sexb d a) := by
  intro hw _
  refine decode_one rfl ?_ (decodeWords_of_raw ?_ hw)
  · simp [isTwoWord]
  · simp [decodeRaw, decodeAlu]
theorem sexh (d : Reg) (a : Reg) : Statement (.sexh d a) := by
  intro hw _
  refine decode_one rfl ?_ (decodeWords_of_raw ?_ hw)
  · simp [isTwoWord]
  · simp [decodeRaw, decodeAlu]
theorem sexw (d : Reg) (a : Reg) : Statement (.sexw d a) := by
  intro hw _
  refine decode_one rfl ?_ (decodeWords_of_raw ?_ hw)
  · simp [isTwoWord]
  · simp [decodeRaw, decodeAlu]
theorem fadd (d : Reg) (a : Reg) (b : Reg) : Statement (.fadd d a b) := by
  intro hw _
  refine decode_one rfl ?_ (decodeWords_of_raw ?_ hw)
  · simp [isTwoWord]
  · simp [decodeRaw, decodeAlu]
theorem fsub (d : Reg) (a : Reg) (b : Reg) : Statement (.fsub d a b) := by
  intro hw _
  refine decode_one rfl ?_ (decodeWords_of_raw ?_ hw)
  · simp [isTwoWord]
  · simp [decodeRaw, decodeAlu]
theorem fmul (d : Reg) (a : Reg) (b : Reg) : Statement (.fmul d a b) := by
  intro hw _
  refine decode_one rfl ?_ (decodeWords_of_raw ?_ hw)
  · simp [isTwoWord]
  · simp [decodeRaw, decodeAlu]
theorem fdiv (d : Reg) (a : Reg) (b : Reg) : Statement (.fdiv d a b) := by
  intro hw _
  refine decode_one rfl ?_ (decodeWords_of_raw ?_ hw)
  · simp [isTwoWord]
  · simp [decodeRaw, decodeAlu]
theorem fmin (d : Reg) (a : Reg) (b : Reg) : Statement (.fmin d a b) := by
  intro hw _
  refine decode_one rfl ?_ (decodeWords_of_raw ?_ hw)
  · simp [isTwoWord]
  · simp [decodeRaw, decodeAlu]
theorem fmax (d : Reg) (a : Reg) (b : Reg) : Statement (.fmax d a b) := by
  intro hw _
  refine decode_one rfl ?_ (decodeWords_of_raw ?_ hw)
  · simp [isTwoWord]
  · simp [decodeRaw, decodeAlu]
theorem fminp (d : Reg) (a : Reg) (b : Reg) : Statement (.fminp d a b) := by
  intro hw _
  refine decode_one rfl ?_ (decodeWords_of_raw ?_ hw)
  · simp [isTwoWord]
  · simp [decodeRaw, decodeAlu]
theorem fmaxp (d : Reg) (a : Reg) (b : Reg) : Statement (.fmaxp d a b) := by
  intro hw _
  refine decode_one rfl ?_ (decodeWords_of_raw ?_ hw)
  · simp [isTwoWord]
  · simp [decodeRaw, decodeAlu]
theorem fcvtfi (d : Reg) (a : Reg) (rm : Rounding) : Statement (.fcvtfi d a rm) := by
  intro hw _
  refine decode_one rfl ?_ (decodeWords_of_raw ?_ hw)
  · simp [isTwoWord]
  · simp [decodeRaw, decodeAlu]
theorem fcvtif (d : Reg) (a : Reg) (rm : Rounding) : Statement (.fcvtif d a rm) := by
  intro hw _
  refine decode_one rfl ?_ (decodeWords_of_raw ?_ hw)
  · simp [isTwoWord]
  · simp [decodeRaw, decodeAlu]
theorem feq (d : Reg) (a : Reg) (b : Reg) : Statement (.feq d a b) := by
  intro hw _
  refine decode_one rfl ?_ (decodeWords_of_raw ?_ hw)
  · simp [isTwoWord]
  · simp [decodeRaw, decodeAlu]
theorem flt (d : Reg) (a : Reg) (b : Reg) : Statement (.flt d a b) := by
  intro hw _
  refine decode_one rfl ?_ (decodeWords_of_raw ?_ hw)
  · simp [isTwoWord]
  · simp [decodeRaw, decodeAlu]
theorem fle (d : Reg) (a : Reg) (b : Reg) : Statement (.fle d a b) := by
  intro hw _
  refine decode_one rfl ?_ (decodeWords_of_raw ?_ hw)
  · simp [isTwoWord]
  · simp [decodeRaw, decodeAlu]
theorem addi (d : Reg) (a : Reg) (imm : BitVec 11) : Statement (.addi d a imm) := by
  intro hw _
  refine decode_one rfl ?_ (decodeWords_of_raw ?_ hw)
  · simp [isTwoWord]
  · simp [decodeRaw, decodeAluI]
theorem andi (d : Reg) (a : Reg) (imm : BitVec 11) : Statement (.andi d a imm) := by
  intro hw _
  refine decode_one rfl ?_ (decodeWords_of_raw ?_ hw)
  · simp [isTwoWord]
  · simp [decodeRaw, decodeAluI]
theorem ori (d : Reg) (a : Reg) (imm : BitVec 11) : Statement (.ori d a imm) := by
  intro hw _
  refine decode_one rfl ?_ (decodeWords_of_raw ?_ hw)
  · simp [isTwoWord]
  · simp [decodeRaw, decodeAluI]
theorem xori (d : Reg) (a : Reg) (imm : BitVec 11) : Statement (.xori d a imm) := by
  intro hw _
  refine decode_one rfl ?_ (decodeWords_of_raw ?_ hw)
  · simp [isTwoWord]
  · simp [decodeRaw, decodeAluI]
theorem slli (d : Reg) (a : Reg) (sh : BitVec 6) : Statement (.slli d a sh) := by
  intro hw _
  refine decode_one rfl ?_ (decodeWords_of_raw ?_ hw)
  · simp [isTwoWord]
  · simp [decodeRaw, decodeAluI]
theorem srli (d : Reg) (a : Reg) (sh : BitVec 6) : Statement (.srli d a sh) := by
  intro hw _
  refine decode_one rfl ?_ (decodeWords_of_raw ?_ hw)
  · simp [isTwoWord]
  · simp [decodeRaw, decodeAluI]
theorem srai (d : Reg) (a : Reg) (sh : BitVec 6) : Statement (.srai d a sh) := by
  intro hw _
  refine decode_one rfl ?_ (decodeWords_of_raw ?_ hw)
  · simp [isTwoWord]
  · simp [decodeRaw, decodeAluI]
theorem slti (d : Reg) (a : Reg) (imm : BitVec 11) : Statement (.slti d a imm) := by
  intro hw _
  refine decode_one rfl ?_ (decodeWords_of_raw ?_ hw)
  · simp [isTwoWord]
  · simp [decodeRaw, decodeAluI]
theorem lui (d : Reg) (imm : BitVec 20) : Statement (.lui d imm) := by
  intro hw _
  refine decode_one rfl ?_ (decodeWords_of_raw ?_ hw)
  · simp [isTwoWord]
  · simp [decodeRaw, decodeLui]
theorem lix (d : Reg) (imm : BitVec 32) : Statement (.lix d imm) := by
  intro hw _
  refine decode_two rfl ?_ (decodeWords_of_raw ?_ hw)
  · simp [isTwoWord]
  · simp [decodeRaw, decodeLix]
theorem lihx (d : Reg) (imm : BitVec 32) : Statement (.lihx d imm) := by
  intro hw _
  refine decode_two rfl ?_ (decodeWords_of_raw ?_ hw)
  · simp [isTwoWord]
  · simp [decodeRaw, decodeLix]
theorem addx (d : Reg) (a : Reg) (imm : BitVec 32) : Statement (.addx d a imm) := by
  intro hw _
  refine decode_two rfl ?_ (decodeWords_of_raw ?_ hw)
  · simp [isTwoWord]
  · simp [decodeRaw, decodeLix]
theorem beq (a : Reg) (b : Reg) (off : BitVec 11) : Statement (.beq a b off) := by
  intro hw _
  refine decode_one rfl ?_ (decodeWords_of_raw ?_ hw)
  · simp [isTwoWord]
  · simp [decodeRaw, decodeBr]
theorem bne (a : Reg) (b : Reg) (off : BitVec 11) : Statement (.bne a b off) := by
  intro hw _
  refine decode_one rfl ?_ (decodeWords_of_raw ?_ hw)
  · simp [isTwoWord]
  · simp [decodeRaw, decodeBr]
theorem blt (a : Reg) (b : Reg) (off : BitVec 11) : Statement (.blt a b off) := by
  intro hw _
  refine decode_one rfl ?_ (decodeWords_of_raw ?_ hw)
  · simp [isTwoWord]
  · simp [decodeRaw, decodeBr]
theorem bge (a : Reg) (b : Reg) (off : BitVec 11) : Statement (.bge a b off) := by
  intro hw _
  refine decode_one rfl ?_ (decodeWords_of_raw ?_ hw)
  · simp [isTwoWord]
  · simp [decodeRaw, decodeBr]
theorem bltu (a : Reg) (b : Reg) (off : BitVec 11) : Statement (.bltu a b off) := by
  intro hw _
  refine decode_one rfl ?_ (decodeWords_of_raw ?_ hw)
  · simp [isTwoWord]
  · simp [decodeRaw, decodeBr]
theorem bgeu (a : Reg) (b : Reg) (off : BitVec 11) : Statement (.bgeu a b off) := by
  intro hw _
  refine decode_one rfl ?_ (decodeWords_of_raw ?_ hw)
  · simp [isTwoWord]
  · simp [decodeRaw, decodeBr]
theorem bset (a : Reg) (b : Reg) (off : BitVec 11) : Statement (.bset a b off) := by
  intro hw _
  refine decode_one rfl ?_ (decodeWords_of_raw ?_ hw)
  · simp [isTwoWord]
  · simp [decodeRaw, decodeBr]
theorem bclr (a : Reg) (b : Reg) (off : BitVec 11) : Statement (.bclr a b off) := by
  intro hw _
  refine decode_one rfl ?_ (decodeWords_of_raw ?_ hw)
  · simp [isTwoWord]
  · simp [decodeRaw, decodeBr]
theorem jal (d : Reg) (off : BitVec 20) : Statement (.jal d off) := by
  intro hw _
  refine decode_one rfl ?_ (decodeWords_of_raw ?_ hw)
  · simp [isTwoWord]
  · simp [decodeRaw, decodeJal]
theorem jalr (d : Reg) (a : Reg) (imm : BitVec 11) : Statement (.jalr d a imm) := by
  intro hw _
  refine decode_one rfl ?_ (decodeWords_of_raw ?_ hw)
  · simp [isTwoWord]
  · simp [decodeRaw, decodeJalr]
theorem loop (lvl : BitVec 2) (len : BitVec 10) (s : Reg) : Statement (.loop lvl len s) := by
  intro hw _
  refine decode_one rfl ?_ (decodeWords_of_raw ?_ hw)
  · simp [isTwoWord]
  · simp [decodeRaw, decodeLoop]
theorem loopi (lvl : BitVec 2) (len : BitVec 10) (cnt : BitVec 12) : Statement (.loopi lvl len cnt) := by
  intro hw _
  refine decode_one rfl ?_ (decodeWords_of_raw ?_ hw)
  · simp [isTwoWord]
  · simp [decodeRaw, decodeLoop]
theorem loopk (lvl : BitVec 2) (len : BitVec 10) (k : BitVec 4) : Statement (.loopk lvl len k) := by
  intro hw _
  refine decode_one rfl ?_ (decodeWords_of_raw ?_ hw)
  · simp [isTwoWord]
  · simp [decodeRaw, decodeLoop]
theorem loopm (lvl : BitVec 2) (len : BitVec 10) (s : Reg) : Statement (.loopm lvl len s) := by
  intro hw _
  refine decode_one rfl ?_ (decodeWords_of_raw ?_ hw)
  · simp [isTwoWord]
  · simp [decodeRaw, decodeLoop]
theorem qwait (qa : Handle) (qb : Option Handle) (qd : Option Handle) (n : BitVec 3) : Statement (.qwait qa qb qd n) := by
  intro hw _
  refine decode_one rfl ?_ (decodeWords_of_raw ?_ hw)
  · simp [isTwoWord]
  · cases qb <;> cases qd <;> simp [decodeRaw, decodeQctl]
theorem qroom (qa : Handle) (qb : Option Handle) (qd : Option Handle) (n : BitVec 3) : Statement (.qroom qa qb qd n) := by
  intro hw _
  refine decode_one rfl ?_ (decodeWords_of_raw ?_ hw)
  · simp [isTwoWord]
  · cases qb <;> cases qd <;> simp [decodeRaw, decodeQctl]
theorem qadv (qa : Handle) (qb : Option Handle) (qd : Option Handle) (n : BitVec 3) : Statement (.qadv qa qb qd n) := by
  intro hw _
  refine decode_one rfl ?_ (decodeWords_of_raw ?_ hw)
  · simp [isTwoWord]
  · cases qb <;> cases qd <;> simp [decodeRaw, decodeQctl]
theorem qadvp (qa : Handle) (qb : Option Handle) (qd : Option Handle) (n : BitVec 3) : Statement (.qadvp qa qb qd n) := by
  intro hw _
  refine decode_one rfl ?_ (decodeWords_of_raw ?_ hw)
  · simp [isTwoWord]
  · cases qb <;> cases qd <;> simp [decodeRaw, decodeQctl]
theorem qrst (qa : Handle) (qb : Option Handle) (qd : Option Handle) : Statement (.qrst qa qb qd) := by
  intro hw _
  refine decode_one rfl ?_ (decodeWords_of_raw ?_ hw)
  · simp [isTwoWord]
  · cases qb <;> cases qd <;> simp [decodeRaw, decodeQctl]
theorem qpop (d : Reg) (q : Handle) : Statement (.qpop d q) := by
  intro hw _
  refine decode_one rfl ?_ (decodeWords_of_raw ?_ hw)
  · simp [isTwoWord]
  · simp [decodeRaw, decodeQxfr]
theorem qpeek (d : Reg) (a : Reg) (q : Handle) : Statement (.qpeek d a q) := by
  intro hw _
  refine decode_one rfl ?_ (decodeWords_of_raw ?_ hw)
  · simp [isTwoWord]
  · simp [decodeRaw, decodeQxfr]
theorem qput (a : Reg) (q : Handle) : Statement (.qput a q) := by
  intro hw _
  refine decode_one rfl ?_ (decodeWords_of_raw ?_ hw)
  · simp [isTwoWord]
  · simp [decodeRaw, decodeQxfr]
theorem qcfg (a : Reg) (q : Handle) : Statement (.qcfg a q) := by
  intro hw _
  refine decode_one rfl ?_ (decodeWords_of_raw ?_ hw)
  · simp [isTwoWord]
  · simp [decodeRaw, decodeQxfr]
theorem qcnt (d : Reg) (q : Handle) : Statement (.qcnt d q) := by
  intro hw _
  refine decode_one rfl ?_ (decodeWords_of_raw ?_ hw)
  · simp [isTwoWord]
  · simp [decodeRaw, decodeQxfr]
theorem bqt (q : Handle) (off : BitVec 11) : Statement (.bqt q off) := by
  intro hw _
  refine decode_one rfl ?_ (decodeWords_of_raw ?_ hw)
  · simp [isTwoWord]
  · simp [decodeRaw, decodeBq]
theorem bqf (q : Handle) (off : BitVec 11) : Statement (.bqf q off) := by
  intro hw _
  refine decode_one rfl ?_ (decodeWords_of_raw ?_ hw)
  · simp [isTwoWord]
  · simp [decodeRaw, decodeBq]
theorem nop : Statement (.nop) := by
  intro hw _
  refine decode_one rfl ?_ (decodeWords_of_raw ?_ hw)
  · simp [isTwoWord]
  · simp [decodeRaw, decodeSync]
theorem rdv0 : Statement (.rdv0) := by
  intro hw _
  refine decode_one rfl ?_ (decodeWords_of_raw ?_ hw)
  · simp [isTwoWord]
  · simp [decodeRaw, decodeSync]
theorem rdvEnd : Statement (.rdvEnd) := by
  intro hw _
  refine decode_one rfl ?_ (decodeWords_of_raw ?_ hw)
  · simp [isTwoWord]
  · simp [decodeRaw, decodeSync]
theorem rdvStreamSet (set : BitVec 5) : Statement (.rdvStreamSet set) := by
  intro hw _
  have h0 : ∀ q : BitVec 5, q ≠ 0#5 → (0#1 ++ q : BitVec 6) ≠ 0#6 := by decide
  have h1 : ∀ q : BitVec 5, (0#1 ++ q : BitVec 6) ≠ 63#6 := by decide
  have h2 : set ≠ 0#5 := by simpa [Instr.wf] using hw
  refine decode_one rfl ?_ (decodeWords_of_raw ?_ hw)
  · simp [isTwoWord]
  · simp [decodeRaw, decodeSync, h0 set h2, h1 set]
theorem rdvComplete (n : CoreNo) (set : BitVec 5) : Statement (.rdvComplete n set) := fun _ h => nomatch h
theorem pbar (tag : BitVec 3) : Statement (.pbar tag) := by
  intro hw _
  refine decode_one rfl ?_ (decodeWords_of_raw ?_ hw)
  · simp [isTwoWord]
  · simp [decodeRaw, decodeSync]
theorem pbara (tag : BitVec 3) : Statement (.pbara tag) := by
  intro hw _
  refine decode_one rfl ?_ (decodeWords_of_raw ?_ hw)
  · simp [isTwoWord]
  · simp [decodeRaw, decodeSync]
theorem pbarw (tag : BitVec 3) : Statement (.pbarw tag) := by
  intro hw _
  refine decode_one rfl ?_ (decodeWords_of_raw ?_ hw)
  · simp [isTwoWord]
  · simp [decodeRaw, decodeSync]
theorem pennantArrival (n : CoreNo) (t : BitVec 3) : Statement (.pennantArrival n t) := fun _ h => nomatch h
theorem pennantCompletion (p : PartNo) (c : CtxNo) (tag : BitVec 3) : Statement (.pennantCompletion p c tag) := fun _ h => nomatch h
theorem wfi : Statement (.wfi) := by
  intro hw _
  refine decode_one rfl ?_ (decodeWords_of_raw ?_ hw)
  · simp [isTwoWord]
  · simp [decodeRaw, decodeSync]
theorem ipref (a : Reg) (n : BitVec 6) : Statement (.ipref a n) := by
  intro hw _
  refine decode_one rfl ?_ (decodeWords_of_raw ?_ hw)
  · simp [isTwoWord]
  · simp [decodeRaw, decodeSync]
theorem rdc (d : Reg) (n : BitVec 12) : Statement (.rdc d n) := by
  intro hw _
  refine decode_one rfl ?_ (decodeWords_of_raw ?_ hw)
  · simp [isTwoWord]
  · simp [decodeRaw, decodeCtl]
theorem wrc (d : Reg) (n : BitVec 12) : Statement (.wrc d n) := by
  intro hw _
  refine decode_one rfl ?_ (decodeWords_of_raw ?_ hw)
  · simp [isTwoWord]
  · simp [decodeRaw, decodeCtl]
theorem rdk (d : Reg) (k : BitVec 4) : Statement (.rdk d k) := by
  intro hw _
  refine decode_one rfl ?_ (decodeWords_of_raw ?_ hw)
  · simp [isTwoWord]
  · simp [decodeRaw, decodeCtl]
theorem rdcyc (d : Reg) : Statement (.rdcyc d) := by
  intro hw _
  refine decode_one rfl ?_ (decodeWords_of_raw ?_ hw)
  · simp [isTwoWord]
  · simp [decodeRaw, decodeCtl]
theorem rdid (d : Reg) (which : IdReg) : Statement (.rdid d which) := by
  intro hw _
  refine decode_one rfl ?_ (decodeWords_of_raw ?_ hw)
  · simp [isTwoWord]
  · simp [decodeRaw, decodeCtl]
theorem rdloop (d : Reg) (level : BitVec 3) : Statement (.rdloop d level) := by
  intro hw _
  refine decode_one rfl ?_ (decodeWords_of_raw ?_ hw)
  · simp [isTwoWord]
  · simp [decodeRaw, decodeCtl]
theorem ldb (d : Reg) (a : Reg) (imm : BitVec 11) : Statement (.ldb d a imm) := by
  intro hw _
  refine decode_one rfl ?_ (decodeWords_of_raw ?_ hw)
  · simp [isTwoWord]
  · simp [decodeRaw, decodeLoad]
theorem ldbs (d : Reg) (a : Reg) (imm : BitVec 11) : Statement (.ldbs d a imm) := by
  intro hw _
  refine decode_one rfl ?_ (decodeWords_of_raw ?_ hw)
  · simp [isTwoWord]
  · simp [decodeRaw, decodeLoad]
theorem ldh (d : Reg) (a : Reg) (imm : BitVec 11) : Statement (.ldh d a imm) := by
  intro hw _
  refine decode_one rfl ?_ (decodeWords_of_raw ?_ hw)
  · simp [isTwoWord]
  · simp [decodeRaw, decodeLoad]
theorem ldhs (d : Reg) (a : Reg) (imm : BitVec 11) : Statement (.ldhs d a imm) := by
  intro hw _
  refine decode_one rfl ?_ (decodeWords_of_raw ?_ hw)
  · simp [isTwoWord]
  · simp [decodeRaw, decodeLoad]
theorem ldw (d : Reg) (a : Reg) (imm : BitVec 11) : Statement (.ldw d a imm) := by
  intro hw _
  refine decode_one rfl ?_ (decodeWords_of_raw ?_ hw)
  · simp [isTwoWord]
  · simp [decodeRaw, decodeLoad]
theorem ldws (d : Reg) (a : Reg) (imm : BitVec 11) : Statement (.ldws d a imm) := by
  intro hw _
  refine decode_one rfl ?_ (decodeWords_of_raw ?_ hw)
  · simp [isTwoWord]
  · simp [decodeRaw, decodeLoad]
theorem ldd (d : Reg) (a : Reg) (imm : BitVec 11) : Statement (.ldd d a imm) := by
  intro hw _
  refine decode_one rfl ?_ (decodeWords_of_raw ?_ hw)
  · simp [isTwoWord]
  · simp [decodeRaw, decodeLoad]
theorem stb (d : Reg) (a : Reg) (imm : BitVec 11) : Statement (.stb d a imm) := by
  intro hw _
  refine decode_one rfl ?_ (decodeWords_of_raw ?_ hw)
  · simp [isTwoWord]
  · simp [decodeRaw, decodeStore]
theorem sth (d : Reg) (a : Reg) (imm : BitVec 11) : Statement (.sth d a imm) := by
  intro hw _
  refine decode_one rfl ?_ (decodeWords_of_raw ?_ hw)
  · simp [isTwoWord]
  · simp [decodeRaw, decodeStore]
theorem stw (d : Reg) (a : Reg) (imm : BitVec 11) : Statement (.stw d a imm) := by
  intro hw _
  refine decode_one rfl ?_ (decodeWords_of_raw ?_ hw)
  · simp [isTwoWord]
  · simp [decodeRaw, decodeStore]
theorem std (d : Reg) (a : Reg) (imm : BitVec 11) : Statement (.std d a imm) := by
  intro hw _
  refine decode_one rfl ?_ (decodeWords_of_raw ?_ hw)
  · simp [isTwoWord]
  · simp [decodeRaw, decodeStore]
theorem lsmark : Statement (.lsmark) := by
  intro hw _
  refine decode_one rfl ?_ (decodeWords_of_raw ?_ hw)
  · simp [isTwoWord]
  · simp [decodeRaw, decodeMemc]
theorem l1inv (a : Reg) (b : Reg) : Statement (.l1inv a b) := by
  intro hw _
  refine decode_one rfl ?_ (decodeWords_of_raw ?_ hw)
  · simp [isTwoWord]
  · simp [decodeRaw, decodeMemc]
theorem l1inva : Statement (.l1inva) := by
  intro hw _
  refine decode_one rfl ?_ (decodeWords_of_raw ?_ hw)
  · simp [isTwoWord]
  · simp [decodeRaw, decodeMemc]
theorem pref (a : Reg) : Statement (.pref a) := by
  intro hw _
  refine decode_one rfl ?_ (decodeWords_of_raw ?_ hw)
  · simp [isTwoWord]
  · simp [decodeRaw, decodeMemc]
theorem own (d : Reg) (a : Reg) (b : Reg) : Statement (.own d a b) := by
  intro hw _
  refine decode_one rfl ?_ (decodeWords_of_raw ?_ hw)
  · simp [isTwoWord]
  · simp [decodeRaw, decodeMemc]
theorem disown (d : Reg) (a : Reg) : Statement (.disown d a) := by
  intro hw _
  refine decode_one rfl ?_ (decodeWords_of_raw ?_ hw)
  · simp [isTwoWord]
  · simp [decodeRaw, decodeMemc]
theorem amoadd (d : Reg) (a : Reg) (b : Reg) (ord : Order) (wd : Width) : Statement (.amoadd d a b ord wd) := by
  intro hw _
  refine decode_one rfl ?_ (decodeWords_of_raw ?_ hw)
  · simp [isTwoWord]
  · cases ord <;> cases wd <;> simp [decodeRaw, decodeAtom, Order.ofBits, Order.toBits, Width.ofBits, Width.toBits]
theorem amoand (d : Reg) (a : Reg) (b : Reg) (ord : Order) (wd : Width) : Statement (.amoand d a b ord wd) := by
  intro hw _
  refine decode_one rfl ?_ (decodeWords_of_raw ?_ hw)
  · simp [isTwoWord]
  · cases ord <;> cases wd <;> simp [decodeRaw, decodeAtom, Order.ofBits, Order.toBits, Width.ofBits, Width.toBits]
theorem amoor (d : Reg) (a : Reg) (b : Reg) (ord : Order) (wd : Width) : Statement (.amoor d a b ord wd) := by
  intro hw _
  refine decode_one rfl ?_ (decodeWords_of_raw ?_ hw)
  · simp [isTwoWord]
  · cases ord <;> cases wd <;> simp [decodeRaw, decodeAtom, Order.ofBits, Order.toBits, Width.ofBits, Width.toBits]
theorem amoxor (d : Reg) (a : Reg) (b : Reg) (ord : Order) (wd : Width) : Statement (.amoxor d a b ord wd) := by
  intro hw _
  refine decode_one rfl ?_ (decodeWords_of_raw ?_ hw)
  · simp [isTwoWord]
  · cases ord <;> cases wd <;> simp [decodeRaw, decodeAtom, Order.ofBits, Order.toBits, Width.ofBits, Width.toBits]
theorem amomin (d : Reg) (a : Reg) (b : Reg) (ord : Order) (wd : Width) : Statement (.amomin d a b ord wd) := by
  intro hw _
  refine decode_one rfl ?_ (decodeWords_of_raw ?_ hw)
  · simp [isTwoWord]
  · cases ord <;> cases wd <;> simp [decodeRaw, decodeAtom, Order.ofBits, Order.toBits, Width.ofBits, Width.toBits]
theorem amominu (d : Reg) (a : Reg) (b : Reg) (ord : Order) (wd : Width) : Statement (.amominu d a b ord wd) := by
  intro hw _
  refine decode_one rfl ?_ (decodeWords_of_raw ?_ hw)
  · simp [isTwoWord]
  · cases ord <;> cases wd <;> simp [decodeRaw, decodeAtom, Order.ofBits, Order.toBits, Width.ofBits, Width.toBits]
theorem amomax (d : Reg) (a : Reg) (b : Reg) (ord : Order) (wd : Width) : Statement (.amomax d a b ord wd) := by
  intro hw _
  refine decode_one rfl ?_ (decodeWords_of_raw ?_ hw)
  · simp [isTwoWord]
  · cases ord <;> cases wd <;> simp [decodeRaw, decodeAtom, Order.ofBits, Order.toBits, Width.ofBits, Width.toBits]
theorem amomaxu (d : Reg) (a : Reg) (b : Reg) (ord : Order) (wd : Width) : Statement (.amomaxu d a b ord wd) := by
  intro hw _
  refine decode_one rfl ?_ (decodeWords_of_raw ?_ hw)
  · simp [isTwoWord]
  · cases ord <;> cases wd <;> simp [decodeRaw, decodeAtom, Order.ofBits, Order.toBits, Width.ofBits, Width.toBits]
theorem amoswp (d : Reg) (a : Reg) (b : Reg) (ord : Order) (wd : Width) : Statement (.amoswp d a b ord wd) := by
  intro hw _
  refine decode_one rfl ?_ (decodeWords_of_raw ?_ hw)
  · simp [isTwoWord]
  · cases ord <;> cases wd <;> simp [decodeRaw, decodeAtom, Order.ofBits, Order.toBits, Width.ofBits, Width.toBits]
theorem amocas (d : Reg) (a : Reg) (b : Reg) (ord : Order) (wd : Width) : Statement (.amocas d a b ord wd) := by
  intro hw _
  refine decode_one rfl ?_ (decodeWords_of_raw ?_ hw)
  · simp [isTwoWord]
  · cases ord <;> cases wd <;> simp [decodeRaw, decodeAtom, Order.ofBits, Order.toBits, Width.ofBits, Width.toBits]
theorem amofadd (d : Reg) (a : Reg) (b : Reg) (ord : Order) : Statement (.amofadd d a b ord) := by
  intro hw _
  refine decode_one rfl ?_ (decodeWords_of_raw ?_ hw)
  · simp [isTwoWord]
  · cases ord <;> simp [decodeRaw, decodeAtom, Order.ofBits, Order.toBits]
theorem fence : Statement (.fence) := by
  intro hw _
  refine decode_one rfl ?_ (decodeWords_of_raw ?_ hw)
  · simp [isTwoWord]
  · simp [decodeRaw, decodeFence]
theorem qfence (mask : BitVec 7) : Statement (.qfence mask) := by
  intro hw _
  refine decode_one rfl ?_ (decodeWords_of_raw ?_ hw)
  · simp [isTwoWord]
  · simp [decodeRaw, decodeFence]
theorem spawn (d : Reg) (a : Reg) (b : Reg) : Statement (.spawn d a b) := by
  intro hw _
  refine decode_one rfl ?_ (decodeWords_of_raw ?_ hw)
  · simp [isTwoWord]
  · simp [decodeRaw, decodeTask]
theorem spwait (d : Reg) (a : Reg) : Statement (.spwait d a) := by
  intro hw _
  refine decode_one rfl ?_ (decodeWords_of_raw ?_ hw)
  · simp [isTwoWord]
  · simp [decodeRaw, decodeTask]
theorem sptest (d : Reg) (a : Reg) : Statement (.sptest d a) := by
  intro hw _
  refine decode_one rfl ?_ (decodeWords_of_raw ?_ hw)
  · simp [isTwoWord]
  · simp [decodeRaw, decodeTask]
theorem depdec (d : Reg) (a : Reg) : Statement (.depdec d a) := by
  intro hw _
  refine decode_one rfl ?_ (decodeWords_of_raw ?_ hw)
  · simp [isTwoWord]
  · simp [decodeRaw, decodeTask]
theorem depinc (d : Reg) (a : Reg) : Statement (.depinc d a) := by
  intro hw _
  refine decode_one rfl ?_ (decodeWords_of_raw ?_ hw)
  · simp [isTwoWord]
  · simp [decodeRaw, decodeTask]
theorem wlcfg (d : Reg) (a : Reg) (b : Reg) : Statement (.wlcfg d a b) := by
  intro hw _
  refine decode_one rfl ?_ (decodeWords_of_raw ?_ hw)
  · simp [isTwoWord]
  · simp [decodeRaw, decodeWlist]
theorem wlpush (d : Reg) (a : Reg) (b : Reg) : Statement (.wlpush d a b) := by
  intro hw _
  refine decode_one rfl ?_ (decodeWords_of_raw ?_ hw)
  · simp [isTwoWord]
  · simp [decodeRaw, decodeWlist]
theorem wlins (d : Reg) (a : Reg) (b : Reg) : Statement (.wlins d a b) := by
  intro hw _
  refine decode_one rfl ?_ (decodeWords_of_raw ?_ hw)
  · simp [isTwoWord]
  · simp [decodeRaw, decodeWlist]
theorem wlpopb (d : Reg) (a : Reg) (b : Reg) : Statement (.wlpopb d a b) := by
  intro hw _
  refine decode_one rfl ?_ (decodeWords_of_raw ?_ hw)
  · simp [isTwoWord]
  · simp [decodeRaw, decodeWlist]
theorem wlcnt (d : Reg) (a : Reg) : Statement (.wlcnt d a) := by
  intro hw _
  refine decode_one rfl ?_ (decodeWords_of_raw ?_ hw)
  · simp [isTwoWord]
  · simp [decodeRaw, decodeWlist]
theorem wldrain (d : Reg) (a : Reg) : Statement (.wldrain d a) := by
  intro hw _
  refine decode_one rfl ?_ (decodeWords_of_raw ?_ hw)
  · simp [isTwoWord]
  · simp [decodeRaw, decodeWlist]
theorem frnck (d : Reg) (a : Reg) (b : Reg) : Statement (.frnck d a b) := by
  intro hw _
  refine decode_one rfl ?_ (decodeWords_of_raw ?_ hw)
  · simp [isTwoWord]
  · simp [decodeRaw, decodeFirn]
theorem frnput (d : Reg) (a : Reg) (b : Reg) : Statement (.frnput d a b) := by
  intro hw _
  refine decode_one rfl ?_ (decodeWords_of_raw ?_ hw)
  · simp [isTwoWord]
  · simp [decodeRaw, decodeFirn]
theorem frninv (d : Reg) (a : Reg) (b : Reg) : Statement (.frninv d a b) := by
  intro hw _
  refine decode_one rfl ?_ (decodeWords_of_raw ?_ hw)
  · simp [isTwoWord]
  · simp [decodeRaw, decodeFirn]
theorem frnstat (d : Reg) (a : Reg) (b : Reg) : Statement (.frnstat d a b) := by
  intro hw _
  refine decode_one rfl ?_ (decodeWords_of_raw ?_ hw)
  · simp [isTwoWord]
  · simp [decodeRaw, decodeFirn]
theorem frnflush (d : Reg) (a : Reg) : Statement (.frnflush d a) := by
  intro hw _
  refine decode_one rfl ?_ (decodeWords_of_raw ?_ hw)
  · simp [isTwoWord]
  · simp [decodeRaw, decodeFirn]
theorem installation (n : CoreNo) : Statement (.installation n) := fun _ h => nomatch h
theorem vtadd (d : Reg) (a : Reg) (b : Reg) : Statement (.vtadd d a b) := by
  intro hw _
  refine decode_one rfl ?_ (decodeWords_of_raw ?_ hw)
  · simp [isTwoWord]
  · simp [decodeRaw, decodeVaultC]
theorem vtfadd (d : Reg) (a : Reg) (b : Reg) : Statement (.vtfadd d a b) := by
  intro hw _
  refine decode_one rfl ?_ (decodeWords_of_raw ?_ hw)
  · simp [isTwoWord]
  · simp [decodeRaw, decodeVaultC]
theorem vtmax (d : Reg) (a : Reg) (b : Reg) : Statement (.vtmax d a b) := by
  intro hw _
  refine decode_one rfl ?_ (decodeWords_of_raw ?_ hw)
  · simp [isTwoWord]
  · simp [decodeRaw, decodeVaultC]
theorem vtcas (d : Reg) (a : Reg) (b : Reg) : Statement (.vtcas d a b) := by
  intro hw _
  refine decode_one rfl ?_ (decodeWords_of_raw ?_ hw)
  · simp [isTwoWord]
  · simp [decodeRaw, decodeVaultC]
theorem vtsac (d : Reg) (a : Reg) (b : Reg) : Statement (.vtsac d a b) := by
  intro hw _
  refine decode_one rfl ?_ (decodeWords_of_raw ?_ hw)
  · simp [isTwoWord]
  · simp [decodeRaw, decodeVaultC]
theorem bankSideOperation (n : CoreNo) : Statement (.bankSideOperation n) := fun _ h => nomatch h
theorem trap (a : Reg) : Statement (.trap a) := by
  intro hw _
  refine decode_one rfl ?_ (decodeWords_of_raw ?_ hw)
  · simp [isTwoWord]
  · simp [decodeRaw, decodeSys]
theorem eret : Statement (.eret) := by
  intro hw _
  refine decode_one rfl ?_ (decodeWords_of_raw ?_ hw)
  · simp [isTwoWord]
  · simp [decodeRaw, decodeSys]
theorem uiret : Statement (.uiret) := by
  intro hw _
  refine decode_one rfl ?_ (decodeWords_of_raw ?_ hw)
  · simp [isTwoWord]
  · simp [decodeRaw, decodeSys]
theorem brk : Statement (.brk) := by
  intro hw _
  refine decode_one rfl ?_ (decodeWords_of_raw ?_ hw)
  · simp [isTwoWord]
  · simp [decodeRaw, decodeSys]
theorem sysc (a : Reg) : Statement (.sysc a) := by
  intro hw _
  refine decode_one rfl ?_ (decodeWords_of_raw ?_ hw)
  · simp [isTwoWord]
  · simp [decodeRaw, decodeSys]
theorem rtfill (d : Reg) (a : Reg) : Statement (.rtfill d a) := by
  intro hw _
  refine decode_one rfl ?_ (decodeWords_of_raw ?_ hw)
  · simp [isTwoWord]
  · simp [decodeRaw, decodeSys]
theorem rtnext (d : Reg) : Statement (.rtnext d) := by
  intro hw _
  refine decode_one rfl ?_ (decodeWords_of_raw ?_ hw)
  · simp [isTwoWord]
  · simp [decodeRaw, decodeSys]
theorem resume (d : Reg) (a : Reg) : Statement (.resume d a) := by
  intro hw _
  refine decode_one rfl ?_ (decodeWords_of_raw ?_ hw)
  · simp [isTwoWord]
  · simp [decodeRaw, decodeSys]
theorem kill (d : Reg) (a : Reg) : Statement (.kill d a) := by
  intro hw _
  refine decode_one rfl ?_ (decodeWords_of_raw ?_ hw)
  · simp [isTwoWord]
  · simp [decodeRaw, decodeSys]
theorem tlbinv (a : Reg) (b : Reg) : Statement (.tlbinv a b) := by
  intro hw _
  refine decode_one rfl ?_ (decodeWords_of_raw ?_ hw)
  · simp [isTwoWord]
  · simp [decodeRaw, decodeSys]
theorem apcfg (p : Pat) (a : Reg) (b : Reg) (space : Space) (lge : BitVec 4) (dims : BitVec 2) : Statement (.apcfg p a b space lge dims) := by
  intro hw _
  refine decode_two rfl ?_ (decodeWords_of_raw ?_ hw)
  · simp [isTwoWord]
  · simp [decodeRaw, decodeApat]
theorem astrm (q : Handle) (p : Pat) (n : BitVec 3) : Statement (.astrm q p n) := by
  intro hw _
  refine decode_one rfl ?_ (decodeWords_of_raw ?_ hw)
  · simp [isTwoWord]
  · simp [decodeRaw, decodeApat]
theorem astro (q : Handle) (p : Pat) (n : BitVec 3) : Statement (.astro q p n) := by
  intro hw _
  refine decode_one rfl ?_ (decodeWords_of_raw ?_ hw)
  · simp [isTwoWord]
  · simp [decodeRaw, decodeApat]
theorem agath (q : Handle) (qi : Handle) (p : Pat) (n : BitVec 3) : Statement (.agath q qi p n) := by
  intro hw _
  refine decode_one rfl ?_ (decodeWords_of_raw ?_ hw)
  · simp [isTwoWord]
  · simp [decodeRaw, decodeApat]
theorem ascat (q : Handle) (qi : Handle) (p : Pat) (n : BitVec 3) : Statement (.ascat q qi p n) := by
  intro hw _
  refine decode_one rfl ?_ (decodeWords_of_raw ?_ hw)
  · simp [isTwoWord]
  · simp [decodeRaw, decodeApat]
theorem awcfg (d : Reg) (a : Reg) (b : Reg) (space : Space) (lge : BitVec 2) : Statement (.awcfg d a b space lge) := by
  intro hw _
  refine decode_two rfl ?_ (decodeWords_of_raw ?_ hw)
  · simp [isTwoWord]
  · simp [decodeRaw, decodeApat]
theorem awin (q : Handle) (n : BitVec 3) : Statement (.awin q n) := by
  intro hw _
  refine decode_one rfl ?_ (decodeWords_of_raw ?_ hw)
  · simp [isTwoWord]
  · simp [decodeRaw, decodeApat]
theorem awpass (d : Reg) (a : Reg) : Statement (.awpass d a) := by
  intro hw _
  refine decode_one rfl ?_ (decodeWords_of_raw ?_ hw)
  · simp [isTwoWord]
  · simp [decodeRaw, decodeApat]
theorem aprf (a : Reg) (p : Pat) : Statement (.aprf a p) := by
  intro hw _
  refine decode_one rfl ?_ (decodeWords_of_raw ?_ hw)
  · simp [isTwoWord]
  · simp [decodeRaw, decodeApat]
theorem aqOperationPerformed (n : CoreNo) : Statement (.aqOperationPerformed n) := fun _ h => nomatch h
theorem vadd (d : VReg) (a : VReg) (b : VReg) : Statement (.vadd d a b) := by
  intro hw _
  refine decode_one rfl ?_ (decodeWords_of_raw ?_ hw)
  · simp [isTwoWord]
  · simp [decodeRaw, decodeVarith]
theorem vsub (d : VReg) (a : VReg) (b : VReg) : Statement (.vsub d a b) := by
  intro hw _
  refine decode_one rfl ?_ (decodeWords_of_raw ?_ hw)
  · simp [isTwoWord]
  · simp [decodeRaw, decodeVarith]
theorem vmul (d : VReg) (a : VReg) (b : VReg) : Statement (.vmul d a b) := by
  intro hw _
  refine decode_one rfl ?_ (decodeWords_of_raw ?_ hw)
  · simp [isTwoWord]
  · simp [decodeRaw, decodeVarith]
theorem vfma (d : VReg) (a : VReg) (b : VReg) : Statement (.vfma d a b) := by
  intro hw _
  refine decode_one rfl ?_ (decodeWords_of_raw ?_ hw)
  · simp [isTwoWord]
  · simp [decodeRaw, decodeVarith]
theorem vfms (d : VReg) (a : VReg) (b : VReg) : Statement (.vfms d a b) := by
  intro hw _
  refine decode_one rfl ?_ (decodeWords_of_raw ?_ hw)
  · simp [isTwoWord]
  · simp [decodeRaw, decodeVarith]
theorem vfnma (d : VReg) (a : VReg) (b : VReg) : Statement (.vfnma d a b) := by
  intro hw _
  refine decode_one rfl ?_ (decodeWords_of_raw ?_ hw)
  · simp [isTwoWord]
  · simp [decodeRaw, decodeVarith]
theorem vmin (d : VReg) (a : VReg) (b : VReg) : Statement (.vmin d a b) := by
  intro hw _
  refine decode_one rfl ?_ (decodeWords_of_raw ?_ hw)
  · simp [isTwoWord]
  · simp [decodeRaw, decodeVarith]
theorem vmax (d : VReg) (a : VReg) (b : VReg) : Statement (.vmax d a b) := by
  intro hw _
  refine decode_one rfl ?_ (decodeWords_of_raw ?_ hw)
  · simp [isTwoWord]
  · simp [decodeRaw, decodeVarith]
theorem vminp (d : VReg) (a : VReg) (b : VReg) : Statement (.vminp d a b) := by
  intro hw _
  refine decode_one rfl ?_ (decodeWords_of_raw ?_ hw)
  · simp [isTwoWord]
  · simp [decodeRaw, decodeVarith]
theorem vmaxp (d : VReg) (a : VReg) (b : VReg) : Statement (.vmaxp d a b) := by
  intro hw _
  refine decode_one rfl ?_ (decodeWords_of_raw ?_ hw)
  · simp [isTwoWord]
  · simp [decodeRaw, decodeVarith]
theorem vabs (d : VReg) (a : VReg) : Statement (.vabs d a) := by
  intro hw _
  refine decode_one rfl ?_ (decodeWords_of_raw ?_ hw)
  · simp [isTwoWord]
  · simp [decodeRaw, decodeVarith]
theorem vneg (d : VReg) (a : VReg) : Statement (.vneg d a) := by
  intro hw _
  refine decode_one rfl ?_ (decodeWords_of_raw ?_ hw)
  · simp [isTwoWord]
  · simp [decodeRaw, decodeVarith]
theorem vdiv (d : VReg) (a : VReg) (b : VReg) : Statement (.vdiv d a b) := by
  intro hw _
  refine decode_one rfl ?_ (decodeWords_of_raw ?_ hw)
  · simp [isTwoWord]
  · simp [decodeRaw, decodeVarith]
theorem vsqrt (d : VReg) (a : VReg) : Statement (.vsqrt d a) := by
  intro hw _
  refine decode_one rfl ?_ (decodeWords_of_raw ?_ hw)
  · simp [isTwoWord]
  · simp [decodeRaw, decodeVarith]
theorem vsgn (d : VReg) (a : VReg) : Statement (.vsgn d a) := by
  intro hw _
  refine decode_one rfl ?_ (decodeWords_of_raw ?_ hw)
  · simp [isTwoWord]
  · simp [decodeRaw, decodeVarith]
theorem vand (d : VReg) (a : VReg) (b : VReg) : Statement (.vand d a b) := by
  intro hw _
  refine decode_one rfl ?_ (decodeWords_of_raw ?_ hw)
  · simp [isTwoWord]
  · simp [decodeRaw, decodeVint]
theorem vor (d : VReg) (a : VReg) (b : VReg) : Statement (.vor d a b) := by
  intro hw _
  refine decode_one rfl ?_ (decodeWords_of_raw ?_ hw)
  · simp [isTwoWord]
  · simp [decodeRaw, decodeVint]
theorem vxor (d : VReg) (a : VReg) (b : VReg) : Statement (.vxor d a b) := by
  intro hw _
  refine decode_one rfl ?_ (decodeWords_of_raw ?_ hw)
  · simp [isTwoWord]
  · simp [decodeRaw, decodeVint]
theorem vnot (d : VReg) (a : VReg) : Statement (.vnot d a) := by
  intro hw _
  refine decode_one rfl ?_ (decodeWords_of_raw ?_ hw)
  · simp [isTwoWord]
  · simp [decodeRaw, decodeVint]
theorem vsll (d : VReg) (a : VReg) (b : VReg) : Statement (.vsll d a b) := by
  intro hw _
  refine decode_one rfl ?_ (decodeWords_of_raw ?_ hw)
  · simp [isTwoWord]
  · simp [decodeRaw, decodeVint]
theorem vsrl (d : VReg) (a : VReg) (b : VReg) : Statement (.vsrl d a b) := by
  intro hw _
  refine decode_one rfl ?_ (decodeWords_of_raw ?_ hw)
  · simp [isTwoWord]
  · simp [decodeRaw, decodeVint]
theorem vsra (d : VReg) (a : VReg) (b : VReg) : Statement (.vsra d a b) := by
  intro hw _
  refine decode_one rfl ?_ (decodeWords_of_raw ?_ hw)
  · simp [isTwoWord]
  · simp [decodeRaw, decodeVint]
theorem vaddsat (d : VReg) (a : VReg) (b : VReg) : Statement (.vaddsat d a b) := by
  intro hw _
  refine decode_one rfl ?_ (decodeWords_of_raw ?_ hw)
  · simp [isTwoWord]
  · simp [decodeRaw, decodeVint]
theorem vsubsat (d : VReg) (a : VReg) (b : VReg) : Statement (.vsubsat d a b) := by
  intro hw _
  refine decode_one rfl ?_ (decodeWords_of_raw ?_ hw)
  · simp [isTwoWord]
  · simp [decodeRaw, decodeVint]
theorem vmulhi (d : VReg) (a : VReg) (b : VReg) : Statement (.vmulhi d a b) := by
  intro hw _
  refine decode_one rfl ?_ (decodeWords_of_raw ?_ hw)
  · simp [isTwoWord]
  · simp [decodeRaw, decodeVint]
theorem vceq (d : MReg) (a : VReg) (b : VReg) : Statement (.vceq d a b) := by
  intro hw _
  refine decode_one rfl ?_ (decodeWords_of_raw ?_ hw)
  · simp [isTwoWord]
  · simp [decodeRaw, decodeVcmp]
theorem vcne (d : MReg) (a : VReg) (b : VReg) : Statement (.vcne d a b) := by
  intro hw _
  refine decode_one rfl ?_ (decodeWords_of_raw ?_ hw)
  · simp [isTwoWord]
  · simp [decodeRaw, decodeVcmp]
theorem vclt (d : MReg) (a : VReg) (b : VReg) : Statement (.vclt d a b) := by
  intro hw _
  refine decode_one rfl ?_ (decodeWords_of_raw ?_ hw)
  · simp [isTwoWord]
  · simp [decodeRaw, decodeVcmp]
theorem vcle (d : MReg) (a : VReg) (b : VReg) : Statement (.vcle d a b) := by
  intro hw _
  refine decode_one rfl ?_ (decodeWords_of_raw ?_ hw)
  · simp [isTwoWord]
  · simp [decodeRaw, decodeVcmp]
theorem vcgt (d : MReg) (a : VReg) (b : VReg) : Statement (.vcgt d a b) := by
  intro hw _
  refine decode_one rfl ?_ (decodeWords_of_raw ?_ hw)
  · simp [isTwoWord]
  · simp [decodeRaw, decodeVcmp]
theorem vcge (d : MReg) (a : VReg) (b : VReg) : Statement (.vcge d a b) := by
  intro hw _
  refine decode_one rfl ?_ (decodeWords_of_raw ?_ hw)
  · simp [isTwoWord]
  · simp [decodeRaw, decodeVcmp]
theorem vcun (d : MReg) (a : VReg) (b : VReg) : Statement (.vcun d a b) := by
  intro hw _
  refine decode_one rfl ?_ (decodeWords_of_raw ?_ hw)
  · simp [isTwoWord]
  · simp [decodeRaw, decodeVcmp]
theorem vsel (d : VReg) (a : VReg) (b : MReg) : Statement (.vsel d a b) := by
  intro hw _
  refine decode_one rfl ?_ (decodeWords_of_raw ?_ hw)
  · simp [isTwoWord]
  · simp [decodeRaw, decodeVmask]
theorem mand (d : MReg) (a : MReg) (b : MReg) : Statement (.mand d a b) := by
  intro hw _
  refine decode_one rfl ?_ (decodeWords_of_raw ?_ hw)
  · simp [isTwoWord]
  · simp [decodeRaw, decodeVmask]
theorem mor (d : MReg) (a : MReg) (b : MReg) : Statement (.mor d a b) := by
  intro hw _
  refine decode_one rfl ?_ (decodeWords_of_raw ?_ hw)
  · simp [isTwoWord]
  · simp [decodeRaw, decodeVmask]
theorem mxor (d : MReg) (a : MReg) (b : MReg) : Statement (.mxor d a b) := by
  intro hw _
  refine decode_one rfl ?_ (decodeWords_of_raw ?_ hw)
  · simp [isTwoWord]
  · simp [decodeRaw, decodeVmask]
theorem mnot (d : MReg) (a : MReg) : Statement (.mnot d a) := by
  intro hw _
  refine decode_one rfl ?_ (decodeWords_of_raw ?_ hw)
  · simp [isTwoWord]
  · simp [decodeRaw, decodeVmask]
theorem mpop (d : Reg) (a : MReg) : Statement (.mpop d a) := by
  intro hw _
  refine decode_one rfl ?_ (decodeWords_of_raw ?_ hw)
  · simp [isTwoWord]
  · simp [decodeRaw, decodeVmask]
theorem mfirst (d : Reg) (a : MReg) : Statement (.mfirst d a) := by
  intro hw _
  refine decode_one rfl ?_ (decodeWords_of_raw ?_ hw)
  · simp [isTwoWord]
  · simp [decodeRaw, decodeVmask]
theorem vcvt (d : VReg) (a : VReg) (h : BitVec 1) (t : CvtType) (rm : Rounding) (sat : Bool) : Statement (.vcvt d a h t rm sat) := by
  intro hw _
  refine decode_one rfl ?_ (decodeWords_of_raw ?_ hw)
  · simp [isTwoWord]
  · cases t <;> cases rm <;> cases sat <;> simp [decodeRaw, decodeVcvt, CvtType.ofBits, CvtType.toBits, Rounding.ofBits, Rounding.toBits]
theorem vrsum (d : VReg) (a : VReg) (m : MReg) : Statement (.vrsum d a m) := by
  intro hw _
  refine decode_one rfl ?_ (decodeWords_of_raw ?_ hw)
  · simp [isTwoWord]
  · simp [decodeRaw, decodeVred]
theorem vrmax (d : VReg) (a : VReg) (m : MReg) : Statement (.vrmax d a m) := by
  intro hw _
  refine decode_one rfl ?_ (decodeWords_of_raw ?_ hw)
  · simp [isTwoWord]
  · simp [decodeRaw, decodeVred]
theorem vrmin (d : VReg) (a : VReg) (m : MReg) : Statement (.vrmin d a m) := by
  intro hw _
  refine decode_one rfl ?_ (decodeWords_of_raw ?_ hw)
  · simp [isTwoWord]
  · simp [decodeRaw, decodeVred]
theorem vscan (d : VReg) (a : VReg) (o : ScanOp) (m : MReg) : Statement (.vscan d a o m) := by
  intro hw _
  refine decode_one rfl ?_ (decodeWords_of_raw ?_ hw)
  · simp [isTwoWord]
  · simp [decodeRaw, decodeVred]
theorem vmov (d : VReg) (a : VReg) : Statement (.vmov d a) := by
  intro hw _
  refine decode_one rfl ?_ (decodeWords_of_raw ?_ hw)
  · simp [isTwoWord]
  · simp [decodeRaw, decodeVmov]
theorem vbcast (d : VReg) (a : Reg) : Statement (.vbcast d a) := by
  intro hw _
  refine decode_one rfl ?_ (decodeWords_of_raw ?_ hw)
  · simp [isTwoWord]
  · simp [decodeRaw, decodeVmov]
theorem vext (d : Reg) (a : VReg) (b : Reg) : Statement (.vext d a b) := by
  intro hw _
  refine decode_one rfl ?_ (decodeWords_of_raw ?_ hw)
  · simp [isTwoWord]
  · simp [decodeRaw, decodeVmov]
theorem vins (d : VReg) (a : Reg) (b : Reg) : Statement (.vins d a b) := by
  intro hw _
  refine decode_one rfl ?_ (decodeWords_of_raw ?_ hw)
  · simp [isTwoWord]
  · simp [decodeRaw, decodeVmov]
theorem vperm (d : VReg) (a : VReg) (b : VReg) : Statement (.vperm d a b) := by
  intro hw _
  refine decode_one rfl ?_ (decodeWords_of_raw ?_ hw)
  · simp [isTwoWord]
  · simp [decodeRaw, decodeVmov]
theorem vrot (d : VReg) (a : VReg) (b : Reg) : Statement (.vrot d a b) := by
  intro hw _
  refine decode_one rfl ?_ (decodeWords_of_raw ?_ hw)
  · simp [isTwoWord]
  · simp [decodeRaw, decodeVmov]
theorem vidx (d : VReg) (a : Reg) : Statement (.vidx d a) := by
  intro hw _
  refine decode_one rfl ?_ (decodeWords_of_raw ?_ hw)
  · simp [isTwoWord]
  · simp [decodeRaw, decodeVmov]
theorem vpack (d : VReg) (a : VReg) (b : VReg) : Statement (.vpack d a b) := by
  intro hw _
  refine decode_one rfl ?_ (decodeWords_of_raw ?_ hw)
  · simp [isTwoWord]
  · simp [decodeRaw, decodeVmov]
theorem vunpk (d : VReg) (a : VReg) (h : BitVec 1) : Statement (.vunpk d a h) := by
  intro hw _
  refine decode_one rfl ?_ (decodeWords_of_raw ?_ hw)
  · simp [isTwoWord]
  · simp [decodeRaw, decodeVmov]
theorem vld (d : VReg) (a : Reg) (n : BitVec 6) : Statement (.vld d a n) := by
  intro hw _
  refine decode_one rfl ?_ (decodeWords_of_raw ?_ hw)
  · simp [isTwoWord]
  · simp [decodeRaw, decodeVmem]
theorem vst (d : VReg) (a : Reg) (n : BitVec 6) : Statement (.vst d a n) := by
  intro hw _
  refine decode_one rfl ?_ (decodeWords_of_raw ?_ hw)
  · simp [isTwoWord]
  · simp [decodeRaw, decodeVmem]
theorem vldq (d : VReg) (q : Handle) (n : BitVec 3) : Statement (.vldq d q n) := by
  intro hw _
  refine decode_one rfl ?_ (decodeWords_of_raw ?_ hw)
  · simp [isTwoWord]
  · simp [decodeRaw, decodeVmem]
theorem vstq (d : VReg) (q : Handle) (n : BitVec 3) : Statement (.vstq d q n) := by
  intro hw _
  refine decode_one rfl ?_ (decodeWords_of_raw ?_ hw)
  · simp [isTwoWord]
  · simp [decodeRaw, decodeVmem]
theorem vgat (d : VReg) (a : VReg) (b : Reg) : Statement (.vgat d a b) := by
  intro hw _
  refine decode_one rfl ?_ (decodeWords_of_raw ?_ hw)
  · simp [isTwoWord]
  · simp [decodeRaw, decodeVmem]
theorem vsct (d : VReg) (a : VReg) (b : Reg) : Statement (.vsct d a b) := by
  intro hw _
  refine decode_one rfl ?_ (decodeWords_of_raw ?_ hw)
  · simp [isTwoWord]
  · simp [decodeRaw, decodeVmem]
theorem swait (n : BitVec 6) : Statement (.swait n) := by
  intro hw _
  refine decode_one rfl ?_ (decodeWords_of_raw ?_ hw)
  · simp [isTwoWord]
  · simp [decodeRaw, decodeVmem]
theorem vqOperationPerformed (n : CoreNo) : Statement (.vqOperationPerformed n) := fun _ h => nomatch h
theorem vpart (q : Handle) (a : VReg) (b : MReg) : Statement (.vpart q a b) := by
  intro hw _
  refine decode_one rfl ?_ (decodeWords_of_raw ?_ hw)
  · simp [isTwoWord]
  · simp [decodeRaw, decodeVpart]
theorem vcmpk (d : VReg) (a : VReg) (b : MReg) : Statement (.vcmpk d a b) := by
  intro hw _
  refine decode_one rfl ?_ (decodeWords_of_raw ?_ hw)
  · simp [isTwoWord]
  · simp [decodeRaw, decodeVpart]
theorem vexpd (d : VReg) (a : VReg) (b : MReg) : Statement (.vexpd d a b) := by
  intro hw _
  refine decode_one rfl ?_ (decodeWords_of_raw ?_ hw)
  · simp [isTwoWord]
  · simp [decodeRaw, decodeVpart]
theorem vtcfg (t : BitVec 2) (a : Reg) (b : Reg) (kind : BitVec 1) (hi : OobMode) (lo : OobMode) (e : BitVec 8) (nm1 : BitVec 12) : Statement (.vtcfg t a b kind hi lo e nm1) := by
  intro hw _
  refine decode_two rfl ?_ (decodeWords_of_raw ?_ hw)
  · simp [isTwoWord]
  · simp [decodeRaw, decodeVtab]
theorem vtab (d : VReg) (a : VReg) (t : BitVec 2) : Statement (.vtab d a t) := by
  intro hw _
  refine decode_one rfl ?_ (decodeWords_of_raw ?_ hw)
  · simp [isTwoWord]
  · simp [decodeRaw, decodeVtab]
theorem vtabl (d : VReg) (a : VReg) (t : BitVec 2) : Statement (.vtabl d a t) := by
  intro hw _
  refine decode_one rfl ?_ (decodeWords_of_raw ?_ hw)
  · simp [isTwoWord]
  · simp [decodeRaw, decodeVtab]
theorem vtabq (d : VReg) (a : VReg) (t : BitVec 2) : Statement (.vtabq d a t) := by
  intro hw _
  refine decode_one rfl ?_ (decodeWords_of_raw ?_ hw)
  · simp [isTwoWord]
  · simp [decodeRaw, decodeVtab]
theorem vexp2 (d : VReg) (a : VReg) : Statement (.vexp2 d a) := by
  intro hw _
  refine decode_one rfl ?_ (decodeWords_of_raw ?_ hw)
  · simp [isTwoWord]
  · simp [decodeRaw, decodeVtab]
theorem vlog2 (d : VReg) (a : VReg) : Statement (.vlog2 d a) := by
  intro hw _
  refine decode_one rfl ?_ (decodeWords_of_raw ?_ hw)
  · simp [isTwoWord]
  · simp [decodeRaw, decodeVtab]
theorem flmatch (h : BitVec 3) (a : Reg) (b : Reg) : Statement (.flmatch h a b) := by
  intro hw _
  refine decode_one rfl ?_ (decodeWords_of_raw ?_ hw)
  · simp [isTwoWord]
  · simp [decodeRaw, decodeFloe]
theorem flmerge (h : BitVec 3) (a : Reg) (b : Reg) : Statement (.flmerge h a b) := by
  intro hw _
  refine decode_one rfl ?_ (decodeWords_of_raw ?_ hw)
  · simp [isTwoWord]
  · simp [decodeRaw, decodeFloe]
theorem flunmg (h : BitVec 3) (a : Reg) (b : Reg) : Statement (.flunmg h a b) := by
  intro hw _
  refine decode_one rfl ?_ (decodeWords_of_raw ?_ hw)
  · simp [isTwoWord]
  · simp [decodeRaw, decodeFloe]
theorem flsize (d : VReg) (h : BitVec 3) (b : Reg) : Statement (.flsize d h b) := by
  intro hw _
  refine decode_one rfl ?_ (decodeWords_of_raw ?_ hw)
  · simp [isTwoWord]
  · simp [decodeRaw, decodeFloe]
theorem flsig (d : Reg) (h : BitVec 3) : Statement (.flsig d h) := by
  intro hw _
  refine decode_one rfl ?_ (decodeWords_of_raw ?_ hw)
  · simp [isTwoWord]
  · simp [decodeRaw, decodeFloe]
theorem flsave (h : BitVec 3) (a : Reg) : Statement (.flsave h a) := by
  intro hw _
  refine decode_one rfl ?_ (decodeWords_of_raw ?_ hw)
  · simp [isTwoWord]
  · simp [decodeRaw, decodeFloe]
theorem flload (h : BitVec 3) (a : Reg) : Statement (.flload h a) := by
  intro hw _
  refine decode_one rfl ?_ (decodeWords_of_raw ?_ hw)
  · simp [isTwoWord]
  · simp [decodeRaw, decodeFloe]
theorem flfree (h : BitVec 3) : Statement (.flfree h) := by
  intro hw _
  refine decode_one rfl ?_ (decodeWords_of_raw ?_ hw)
  · simp [isTwoWord]
  · simp [decodeRaw, decodeFloe]
theorem vsmx (d : VReg) (a : VReg) (b : Reg) : Statement (.vsmx d a b) := by
  intro hw _
  refine decode_one rfl ?_ (decodeWords_of_raw ?_ hw)
  · simp [isTwoWord]
  · simp [decodeRaw, decodeVattn]
theorem vsmxs (d : VReg) (a : VReg) (b : Reg) : Statement (.vsmxs d a b) := by
  intro hw _
  refine decode_one rfl ?_ (decodeWords_of_raw ?_ hw)
  · simp [isTwoWord]
  · simp [decodeRaw, decodeVattn]
theorem prunepk (d : MReg) (a : VReg) (lgm : BitVec 2) (nk : BitVec 4) : Statement (.prunepk d a lgm nk) := by
  intro hw _
  refine decode_one rfl ?_ (decodeWords_of_raw ?_ hw)
  · simp [isTwoWord]
  · simp [decodeRaw, decodeSprs]
theorem prunepkt (d : MReg) (a : VReg) (lgm : BitVec 2) (nk : BitVec 4) : Statement (.prunepkt d a lgm nk) := by
  intro hw _
  refine decode_one rfl ?_ (decodeWords_of_raw ?_ hw)
  · simp [isTwoWord]
  · simp [decodeRaw, decodeSprs]
theorem mdpack (d : VReg) (w : BitVec 1) (k : MReg) (lgm : BitVec 2) (nk : BitVec 4) : Statement (.mdpack d w k lgm nk) := by
  intro hw _
  refine decode_one rfl ?_ (decodeWords_of_raw ?_ hw)
  · simp [isTwoWord]
  · simp [decodeRaw, decodeSprs]
theorem mdchk (d : Reg) (a : VReg) (b : Reg) : Statement (.mdchk d a b) := by
  intro hw _
  refine decode_one rfl ?_ (decodeWords_of_raw ?_ hw)
  · simp [isTwoWord]
  · simp [decodeRaw, decodeSprs]
theorem mmac (acc : TileNo) (qa : Handle) (qb : Handle) (qm : Handle) : Statement (.mmac acc qa qb qm) := by
  intro hw _
  refine decode_one rfl ?_ (decodeWords_of_raw ?_ hw)
  · simp [isTwoWord]
  · simp [decodeRaw, decodeMat]
theorem mmacs (acc : TileNo) (qa : Handle) (qb : Handle) (qm : Handle) : Statement (.mmacs acc qa qb qm) := by
  intro hw _
  refine decode_one rfl ?_ (decodeWords_of_raw ?_ hw)
  · simp [isTwoWord]
  · simp [decodeRaw, decodeMat]
theorem mmacg (acc : TileNo) (qa : Handle) (qb : Handle) (qm : Handle) : Statement (.mmacg acc qa qb qm) := by
  intro hw _
  refine decode_one rfl ?_ (decodeWords_of_raw ?_ hw)
  · simp [isTwoWord]
  · simp [decodeRaw, decodeMat]
theorem mmacsg (acc : TileNo) (qa : Handle) (qb : Handle) (qm : Handle) : Statement (.mmacsg acc qa qb qm) := by
  intro hw _
  refine decode_one rfl ?_ (decodeWords_of_raw ?_ hw)
  · simp [isTwoWord]
  · simp [decodeRaw, decodeMat]
theorem mclr (acc : TileNo) : Statement (.mclr acc) := by
  intro hw _
  refine decode_one rfl ?_ (decodeWords_of_raw ?_ hw)
  · simp [isTwoWord]
  · simp [decodeRaw, decodeMat]
theorem mcfg (s : BitVec 5) : Statement (.mcfg s) := by
  intro hw _
  refine decode_one rfl ?_ (decodeWords_of_raw ?_ hw)
  · simp [isTwoWord]
  · simp [decodeRaw, decodeMat]
theorem mhdr (s : BitVec 5) (qm : Handle) : Statement (.mhdr s qm) := by
  intro hw _
  refine decode_one rfl ?_ (decodeWords_of_raw ?_ hw)
  · simp [isTwoWord]
  · simp [decodeRaw, decodeMat]
theorem mtrn (acc : TileNo) (src : TileNo) : Statement (.mtrn acc src) := by
  intro hw _
  refine decode_one rfl ?_ (decodeWords_of_raw ?_ hw)
  · simp [isTwoWord]
  · simp [decodeRaw, decodeMat]
theorem mqOperationStart (n : CoreNo) : Statement (.mqOperationStart n) := fun _ h => nomatch h
theorem matrixStep (n : CoreNo) : Statement (.matrixStep n) := fun _ h => nomatch h
theorem mqOperationPerformed (n : CoreNo) : Statement (.mqOperationPerformed n) := fun _ h => nomatch h
theorem xcpy (d : Reg) (a : Reg) (b : Reg) (ss : Space) (ds : Space) : Statement (.xcpy d a b ss ds) := by
  intro hw _
  refine decode_two rfl ?_ (decodeWords_of_raw ?_ hw)
  · simp [isTwoWord]
  · simp [decodeRaw, decodeXcopy]
theorem xcp2 (d : Reg) (a : Reg) (b : Reg) (ss : Space) (ds : Space) : Statement (.xcp2 d a b ss ds) := by
  intro hw _
  refine decode_two rfl ?_ (decodeWords_of_raw ?_ hw)
  · simp [isTwoWord]
  · simp [decodeRaw, decodeXcopy]
theorem xcp3 (d : Reg) (a : Reg) (b : Reg) (ss : Space) (ds : Space) : Statement (.xcp3 d a b ss ds) := by
  intro hw _
  refine decode_two rfl ?_ (decodeWords_of_raw ?_ hw)
  · simp [isTwoWord]
  · simp [decodeRaw, decodeXcopy]
theorem xcvt (d : Reg) (a : Reg) (b : Reg) (ss : Space) (ds : Space) (st : BitVec 4) (dt : BitVec 4) (rm : Rounding) (sr : BitVec 1) (sat : BitVec 1) : Statement (.xcvt d a b ss ds st dt rm sr sat) := by
  intro hw _
  refine decode_two rfl ?_ (decodeWords_of_raw ?_ hw)
  · simp [isTwoWord]
  · simp [decodeRaw, decodeXcopy]
theorem xmcast (d : Reg) (a : Reg) (b : Reg) (rows : BitVec 8) (cols : BitVec 16) : Statement (.xmcast d a b rows cols) := by
  intro hw _
  refine decode_two rfl ?_ (decodeWords_of_raw ?_ hw)
  · simp [isTwoWord]
  · simp [decodeRaw, decodeXcopy]
theorem xflw (f : Follow) : Statement (.xflw f) := by
  intro hw _
  refine decode_two rfl ?_ (decodeWords_of_raw ?_ hw)
  · simp [isTwoWord]
  · simp [decodeRaw, decodeXcopy]
theorem xvop (d : Reg) (a : Reg) (b : Reg) (op : VaultOp) (va : BitVec 1) : Statement (.xvop d a b op va) := by
  intro hw _
  refine decode_two rfl ?_ (decodeWords_of_raw ?_ hw)
  · simp [isTwoWord]
  · simp [decodeRaw, decodeXcopy]
theorem xrem (d : Reg) (a : Reg) (b : Reg) (pkg : BitVec 5) : Statement (.xrem d a b pkg) := by
  intro hw _
  refine decode_two rfl ?_ (decodeWords_of_raw ?_ hw)
  · simp [isTwoWord]
  · simp [decodeRaw, decodeXcopy]
theorem xwait (d : Reg) (n : BitVec 7) (mask : BitVec 2) : Statement (.xwait d n mask) := by
  intro hw _
  refine decode_two rfl ?_ (decodeWords_of_raw ?_ hw)
  · simp [isTwoWord]
  · simp [decodeRaw, decodeXcopy]
theorem xcmpl (a : Reg) (act : Action) (qrec : BitVec 1) (h : Handle) : Statement (.xcmpl a act qrec h) := by
  intro hw _
  refine decode_two rfl ?_ (decodeWords_of_raw ?_ hw)
  · simp [isTwoWord]
  · simp [decodeRaw, decodeXcopy]
theorem copyCommandPerformed (n : CoreNo) (q : XQueue) : Statement (.copyCommandPerformed n q) := fun _ h => nomatch h
theorem completionRecord (n : CoreNo) : Statement (.completionRecord n) := fun _ h => nomatch h
theorem txinit (a : Reg) : Statement (.txinit a) := by
  intro hw _
  refine decode_one rfl ?_ (decodeWords_of_raw ?_ hw)
  · simp [isTwoWord]
  · simp [decodeRaw, decodeTxb]
theorem txexp (d : Reg) (a : Reg) (b : Reg) : Statement (.txexp d a b) := by
  intro hw _
  refine decode_one rfl ?_ (decodeWords_of_raw ?_ hw)
  · simp [isTwoWord]
  · simp [decodeRaw, decodeTxb]
theorem txarr (a : Reg) (b : Reg) : Statement (.txarr a b) := by
  intro hw _
  refine decode_one rfl ?_ (decodeWords_of_raw ?_ hw)
  · simp [isTwoWord]
  · simp [decodeRaw, decodeTxb]
theorem txwait (d : Reg) (a : Reg) (b : Reg) : Statement (.txwait d a b) := by
  intro hw _
  refine decode_one rfl ?_ (decodeWords_of_raw ?_ hw)
  · simp [isTwoWord]
  · simp [decodeRaw, decodeTxb]
theorem txtest (d : Reg) (a : Reg) (b : Reg) : Statement (.txtest d a b) := by
  intro hw _
  refine decode_one rfl ?_ (decodeWords_of_raw ?_ hw)
  · simp [isTwoWord]
  · simp [decodeRaw, decodeTxb]
theorem intakePacketTake (p : PartNo) (q : BitVec 2) : Statement (.intakePacketTake p q) := fun _ h => nomatch h
theorem userInterruptDelivery (n : CoreNo) : Statement (.userInterruptDelivery n) := fun _ h => nomatch h
theorem dispatchRound (p : PartNo) : Statement (.dispatchRound p) := fun _ h => nomatch h
theorem probeOutcome (p : PartNo) (c : CtxNo) (node : BitVec 10) (tile : BitVec 24) : Statement (.probeOutcome p c node tile) := fun _ h => nomatch h
theorem reuseCopyPerformed (p : PartNo) (c : CtxNo) (node : BitVec 10) (tile : BitVec 24) : Statement (.reuseCopyPerformed p c node tile) := fun _ h => nomatch h
theorem jobStart (n : CoreNo) : Statement (.jobStart n) := fun _ h => nomatch h
theorem jobRetire (n : CoreNo) : Statement (.jobRetire n) := fun _ h => nomatch h
theorem watchdogDeadlock (n : CoreNo) : Statement (.watchdogDeadlock n) := fun _ h => nomatch h
theorem stallWindowExpiry (p : PartNo) : Statement (.stallWindowExpiry p) := fun _ h => nomatch h
theorem sliceEnd (p : PartNo) : Statement (.sliceEnd p) := fun _ h => nomatch h
theorem switchBudgetExpiry (n : CoreNo) : Statement (.switchBudgetExpiry n) := fun _ h => nomatch h
theorem npbudgetExpiry (n : CoreNo) : Statement (.npbudgetExpiry n) := fun _ h => nomatch h
theorem trapDelivery (n : CoreNo) : Statement (.trapDelivery n) := fun _ h => nomatch h
theorem calendarSlotIssue (n : CoreNo) (q : MQueue) : Statement (.calendarSlotIssue n q) := fun _ h => nomatch h
theorem homeSlicePerform (n : CoreNo) (q : MQueue) : Statement (.homeSlicePerform n q) := fun _ h => nomatch h
theorem readCompletion (n : CoreNo) : Statement (.readCompletion n) := fun _ h => nomatch h
theorem writeAck (n : CoreNo) : Statement (.writeAck n) := fun _ h => nomatch h
theorem translationWalkComplete (n : CoreNo) (va : Word) : Statement (.translationWalkComplete n va) := fun _ h => nomatch h
theorem windowAccessArrival (n : CoreNo) (q : MQueue) : Statement (.windowAccessArrival n q) := fun _ h => nomatch h
theorem go (p : PartNo) (c : CtxNo) (stop : Bool) : Statement (.go p c stop) := fun _ h => nomatch h
theorem stop (p : PartNo) (c : CtxNo) : Statement (.stop p c) := fun _ h => nomatch h
theorem stepRecordArrival (p : PartNo) (c : CtxNo) : Statement (.stepRecordArrival p c) := fun _ h => nomatch h
theorem snapshotCommit (p : PartNo) (c : CtxNo) : Statement (.snapshotCommit p c) := fun _ h => nomatch h
theorem rollbackRequest (p : PartNo) (c : CtxNo) : Statement (.rollbackRequest p c) := fun _ h => nomatch h
theorem rollback (p : PartNo) (c : CtxNo) : Statement (.rollback p c) := fun _ h => nomatch h
theorem vaultBankFailure (n : CoreNo) (bank : BitVec 6) (all : Bool) : Statement (.vaultBankFailure n bank all) := fun _ h => nomatch h
theorem graphLoad (p : PartNo) (c : CtxNo) : Statement (.graphLoad p c) := fun _ h => nomatch h
theorem graphUnload (p : PartNo) (c : CtxNo) : Statement (.graphUnload p c) := fun _ h => nomatch h
theorem graphCommandEnd (p : PartNo) (c : CtxNo) : Statement (.graphCommandEnd p c) := fun _ h => nomatch h
theorem contextEnable (p : PartNo) (c : CtxNo) (en : Bool) : Statement (.contextEnable p c en) := fun _ h => nomatch h
theorem vaultRangeDeclare (p : PartNo) (c : CtxNo) (v : Word) : Statement (.vaultRangeDeclare p c v) := fun _ h => nomatch h
theorem pbsetWrite (p : PartNo) (c : CtxNo) (tag : BitVec 3) (v : BitVec 320) : Statement (.pbsetWrite p c tag v) := fun _ h => nomatch h
theorem releaseDeliver (p : PartNo) (n : CoreNo) : Statement (.releaseDeliver p n) := fun _ h => nomatch h
theorem releaseKill (p : PartNo) (n : CoreNo) : Statement (.releaseKill p n) := fun _ h => nomatch h
theorem vacate (n : CoreNo) : Statement (.vacate n) := fun _ h => nomatch h
theorem throtnWrite (n : CoreNo) (v : Word) : Statement (.throtnWrite n v) := fun _ h => nomatch h
theorem sensorUpdate (sensor : BitVec 9) (raw : BitVec 16) : Statement (.sensorUpdate sensor raw) := fun _ h => nomatch h
theorem mgmtTrapEntry (cause : Byte) (faddr : BitVec 32) : Statement (.mgmtTrapEntry cause faddr) := fun _ h => nomatch h
theorem columnEnterC1 (n : CoreNo) : Statement (.columnEnterC1 n) := fun _ h => nomatch h
theorem columnEnterDeep (n : CoreNo) : Statement (.columnEnterDeep n) := fun _ h => nomatch h
theorem columnWake (n : CoreNo) : Statement (.columnWake n) := fun _ h => nomatch h
theorem flitReceive (port : BitVec 4) (raw : List Byte) (f : Flit) : Statement (.flitReceive port raw f) := fun _ h => nomatch h
theorem remoteStoreAck (n : CoreNo) (cause : Byte) : Statement (.remoteStoreAck n cause) := fun _ h => nomatch h
theorem ingressRelease (p : PartNo) : Statement (.ingressRelease p) := fun _ h => nomatch h
theorem hostRequest (r : HostReq) : Statement (.hostRequest r) := fun _ h => nomatch h
theorem bootgo : Statement (.bootgo) := fun _ h => nomatch h
theorem bootImageLoaded : Statement (.bootImageLoaded) := fun _ h => nomatch h
theorem attgo (fn : BitVec 5) : Statement (.attgo fn) := fun _ h => nomatch h
theorem attestationDone (fn : BitVec 5) : Statement (.attestationDone fn) := fun _ h => nomatch h
theorem warmrst : Statement (.warmrst) := fun _ h => nomatch h
theorem coldReset : Statement (.coldReset) := fun _ h => nomatch h
theorem functionLevelReset (p : PartNo) : Statement (.functionLevelReset p) := fun _ h => nomatch h
theorem packagePowerLoss : Statement (.packagePowerLoss) := fun _ h => nomatch h
theorem registerWrite (r : RegWrite) : Statement (.registerWrite r) := fun _ h => nomatch h
theorem illegalEncoding : Statement (.illegalEncoding) := fun _ h => nomatch h
theorem fabricAccessCompletion (n : CoreNo) (q : MQueue) (ur : Bool) : Statement (.fabricAccessCompletion n q ur) := fun _ h => nomatch h
theorem repairReplay : Statement (.repairReplay) := fun _ h => nomatch h
theorem frozenPortRelease (p : PartNo) (port : BitVec 4) : Statement (.frozenPortRelease p port) := fun _ h => nomatch h

end RoundTrip

end Sys2Proof.Laws
end

