-- ==== Sys2Proof/Safety.lean ====
section
/-! DEFINITION. What a well-formed state is, when the agent whose turn it is issues an instruction, and how an instruction completes: the vocabulary of the statements. -/

namespace Sys2Proof.Machine

/-- The invariant of the machine: memory is in its canonical form. -/
abbrev Inv (s : State) : Prop := s.mem.wf

/-- The agent whose turn it is may issue an instruction of these needs in this state: its core runs it (R34, R304, R13), its stream executes the instruction at its privilege and no loop cuts its two words (R141, R138), and the registers it reads have arrived (R115). -/
def Ready (words : Nat) (nd : Need) (s : State) : Prop :=
  canIssue s s.turn = true ∧ issueCheck s s.turn words nd = none ∧ nd.reads.any (isDue s s.turn) = false

/-- The state in which an instruction has its effect: its stream's step record is cleared (R300), nothing else differs. -/
def began (s : State) : State := beginInstr s s.turn

/-- An instruction of a number of words is done, its effect being the state t: it retires in sequence (R167, R296, R312). -/
def completes (s : State) (words : Nat) (t : State) : Result := .next (retire t s.turn words .seq)

/-- A one-word instruction is done and control goes on as f says. -/
def goesOn (s : State) (t : State) (f : Flow) : Result := .next (retire t s.turn 1 f)

/-- The stream of the turn takes a cause. -/
def trapsWith (s : State) (t : Trap) : Result := .next (takeTrap s s.turn t)

/-- The stream of the turn waits in its instruction; t is the state so far. -/
def waitsIn (s : State) (t : State) (r : Run) : Result := .next (waitAt t s.turn r)

/-- The C stream's instruction is done once its operation stands in a queue (R101, R103) and register place d, where it is not 0, awaits it; operations that need no travel are then performed in order. -/
def queuesC (s : State) (n j : Nat) (q : Queue) (k : OpKind) (d : Nat) : Result :=
  completes s 1 (moveC (setDue (enqueue (began s) (.stream n j .c) q k []) (.stream n j .c) d (jobOf s n j).seq) n j)

/-- The same, from the state w that the instruction's walk leaves (R89, R97). -/
def queuesIn (s w : State) (n j : Nat) (q : Queue) (k : OpKind) (d : Nat) : Result :=
  completes s 1 (moveC (setDue (enqueue w (.stream n j .c) q k []) (.stream n j .c) d (jobOf w n j).seq) n j)

/-- An engine instruction is done once its operation stands in its queue (R103), naming these handles (R171). -/
def queuesUp (s : State) (words : Nat) (q : Queue) (k : OpKind) (names : List Handle) : Result :=
  completes s words (enqueue (began s) s.turn q k names)

/-- The C stream's instruction is done with its operation parked behind ring entry i (R90); w is the state with the entry. -/
def parksC (s w : State) (n j : Nat) (q : Queue) (k : OpKind) (d i : Nat) : Result :=
  let op := (jobOf w n j).seq
  let put := modJob (enqueue w (.stream n j .c) q k []) n j (fun b => setQueue b q ((queueOf b q).map (fun o => if o.seq = op then { o with parked := i + 1 } else o)))
  completes s 1 (setDue put (.stream n j .c) d op)

/-- The loads of R180, with their width in bytes and whether they extend the sign. -/
def loadForms (d a : Reg) (imm : BitVec 11) : List (Instr × Nat × Bool) :=
  [(.ldb d a imm, 1, false), (.ldbs d a imm, 1, true), (.ldh d a imm, 2, false), (.ldhs d a imm, 2, true), (.ldw d a imm, 4, false), (.ldws d a imm, 4, true), (.ldd d a imm, 8, false)]

/-- The atomics of R183, with their operation number. -/
def atomicForms (d a b : Reg) (ord : Order) (wd : Width) : List (Instr × Nat × Width) :=
  [(.amoadd d a b ord wd, 0, wd), (.amoand d a b ord wd, 1, wd), (.amoor d a b ord wd, 2, wd), (.amoxor d a b ord wd, 3, wd), (.amomin d a b ord wd, 4, wd), (.amominu d a b ord wd, 5, wd),
    (.amomax d a b ord wd, 6, wd), (.amomaxu d a b ord wd, 7, wd), (.amoswp d a b ord wd, 8, wd), (.amocas d a b ord wd, 9, wd), (.amofadd d a b ord, 10, .w)]

/-- A vector instruction over rows may issue on the V stream of slot j of core n: their tiles hold valid codes (R148), one code where `same` (R197), and none of them is busy (R199). -/
def VReady (words : Nat) (reads : List Reg) (rows : List VReg) (same : Bool) (s : State) (n j : Nat) : Prop :=
  s.turn = .stream n j .v ∧ Ready words { streams := [.v], reads := reads } s
    ∧ (∀ v ∈ rows, validCode (rowCode (jobOf s n j) (rowOf (jobOf s n j) v)) = true ∧ tileBusy (jobOf s n j) (tileOf (rowOf (jobOf s n j) v)) = false)
    ∧ (same = true → ∀ v ∈ rows, ∀ w ∈ rows, rowCode (jobOf s n j) (rowOf (jobOf s n j) v) = rowCode (jobOf s n j) (rowOf (jobOf s n j) w))

/-- A vector instruction is done, its lanes being the results in a row of w-byte lanes and its flags those of every lane (R199). -/
def lanewise (s : State) (n row w : Nat) (l : List (Nat × BitVec 5)) : Result :=
  completes s 1 (setFlags (writeRow (began s) n row w (l.map (·.1))) s.turn (flagsOf l))

/-- A copy command is done once it stands in its queue with the action armed for it, which is then no longer armed (R235, R243). -/
def copiesUp (s : State) (n j : Nat) (c : Copy) : Result :=
  let b := jobOf s n j
  let names := match b.armed with | some r => (match r.record with | some h => [h] | none => []) | none => []
  completes s 2 (modJob (enqueue (began s) s.turn (copyQueue c) (.copy c b.armed []) names) n j (fun k => { k with armed := none, lastCopy := some (b.seq, false) }))

/-- Key of a 4 × 4 mask over a block of lane keys: the sum over the lanes it selects, row r and lane offset o in bit 15 - (4r + o) (R270). -/
def maskKey (lane : Nat → Nat → Nat × Nat × Nat) (v : Nat) : Nat × Nat × Nat :=
  let l := ((List.range 16).filter (fun i => v.testBit (15 - i))).map (fun i => lane (i / 4) (i % 4))
  ((l.map (·.1)).sum, (l.map (·.2.1)).sum, (l.map (·.2.2)).sum)

/-- No single-step trap follows an instruction of the agent (R312). -/
def unstepped (s : State) (a : Agent) : Bool :=
  match a with
  | .mgmt => true
  | .stream n j t => !(jobOf s n j).dbgctl.getLsbD (sidNum t) || supervisor s a

/-! What a rounding gives. -/

/-- The number of a finite value. -/
def valued (v : Fv) (z : ℝ) : Prop := ∃ n m e, v = .fin n m e ∧ z = (if n then -1 else 1) * (m : ℝ) * (2 : ℝ) ^ (e : ℤ)

/-- A number's sign bit: that of the number, and for zero the one given. -/
def signed (z : ℝ) (zero neg : Bool) : Prop := (z < 0 → neg = true) ∧ (0 < z → neg = false) ∧ (z = 0 → neg = zero)

/-- R121, R122, R124: an exact number rounded once to a format. M is the largest finite number and U the step there. Past it the result overflows: where the mode picks a grid value above M, to the infinity or the largest finite number of the mode, or the latter with saturation. Else the result is a finite number of the format: the nearest, a tie going to the even one; or the mode's neighbour. Inexact where it differs from the number; underflow only where it is inexact and the number is below the smallest normal, and always at and below the largest subnormal (between the two, log entry 85). -/
def roundsTo (f : Fmt) (md : Mode) (sat neg : Bool) (z : ℝ) (r : Nat × BitVec 5) : Prop :=
  let fin (x : Nat) (v : ℝ) : Prop := x < 2 ^ (fSign f + 1) ∧ x % 2 ^ fSign f ≤ f.maxFin ∧ valued (fDec f x) v
  let sg := if neg then 2 ^ fSign f else 0
  let big := sg + f.maxFin
  let inf := if f.eb = 4 then fNan f else sg + fInf f
  ∀ M U normal subnormal : ℝ, valued (fDec f f.maxFin) M → valued (fDec f (f.maxFin - 1)) (M - U) → valued (fDec f (2 ^ f.mb)) normal → valued (fDec f (2 ^ f.mb - 1)) subnormal →
    let inward : Prop := md = .rtz ∨ (md = .rdn ∧ neg = false) ∨ (md = .rup ∧ neg = true)
    let past : Prop := (inward ∧ M + U ≤ |z|) ∨ (¬ inward ∧ md ≠ .rne ∧ M < |z|) ∨ (md = .rne ∧ (M + U / 2 < |z| ∨ (M + U / 2 = |z| ∧ f.maxFin % 2 = 1)))
    (past → r.2 = fOF ||| fNX ∧ (sat = true ∨ inward → r.1 = big) ∧ (sat = false → ¬ inward → r.1 = inf))
    ∧ (¬ past → ∃ v, fin r.1 v ∧ r.1.testBit (fSign f) = neg
      ∧ (md = .rne → ∀ x w, fin x w → |z - v| ≤ |z - w| ∧ (|z - v| = |z - w| → w ≠ v → r.1 % 2 = 0))
      ∧ (md = .rtz → |v| ≤ |z| ∧ ∀ x w, fin x w → |w| ≤ |z| → |w| ≤ |v|)
      ∧ (md = .rdn → v ≤ z ∧ ∀ x w, fin x w → w ≤ z → w ≤ v)
      ∧ (md = .rup → z ≤ v ∧ ∀ x w, fin x w → z ≤ w → v ≤ w)
      ∧ (r.2.getLsbD 0 = true ↔ v ≠ z) ∧ (r.2.getLsbD 1 = true → v ≠ z ∧ |z| < normal) ∧ (v ≠ z → |z| ≤ subnormal → r.2.getLsbD 1 = true) ∧ r.2.toNat < 4)

/-- R119: arithmetic rounds the exact result once, to nearest; a NaN operand, an invalid operation and a division by zero give what the rule says. -/
def arithmeticRounds : Prop :=
  ∀ f ∈ [fmtF32, fmtBf16, fmtF16], ∀ a b c : Nat,
    let x := fDec f a
    let y := fDec f b
    let w := fDec f c
    let sg (k : Nat) : Bool := k.testBit (fSign f)
    let once (z : ℝ) (zero : Bool) (r : Nat × BitVec 5) : Prop := ∀ neg, signed z zero neg → roundsTo f .rne false neg z r
    let invalid : Nat × BitVec 5 := (fNan f, fNV)
    let zero (v : Fv) : Prop := isZero v = true
    let number (v : Fv) : Prop := ∃ n m e, v = .fin n m e
    (∀ p q, valued x p → valued y q →
      once (p + q) (sg a && sg b) (addF f a b) ∧ once (p - q) (sg a && !sg b) (subF f a b) ∧ once (p * q) (sg a != sg b) (mulF f a b)
      ∧ (q ≠ 0 → once (p / q) (sg a != sg b) (divF f a b)) ∧ (p ≠ 0 → q = 0 → divF f a b = (infBits f (sg a != sg b), fDZ)) ∧ (p = 0 → q = 0 → divF f a b = invalid)
      ∧ (∀ k, valued w k → once (p * q + k) ((sg a != sg b) && sg c) (fmaF f a b c)))
    ∧ (∀ p, valued x p → 0 < p → roundsTo f .rne false false (Real.sqrt p) (sqrtV f x))
    ∧ ((isNan x = true ∨ isNan y = true) →
      let r : Nat × BitVec 5 := (fNan f, if isSnan x || isSnan y then fNV else 0#5)
      addF f a b = r ∧ subF f a b = r ∧ mulF f a b = r ∧ divF f a b = r)
    ∧ (∀ i j, x = .inf i → y = .inf j →
      addF f a b = (if i = j then (infBits f i, 0#5) else invalid) ∧ subF f a b = (if i = j then invalid else (infBits f i, 0#5))
      ∧ mulF f a b = (infBits f (i != j), 0#5) ∧ divF f a b = invalid)
    ∧ (∀ i, x = .inf i → number y →
      addF f a b = (infBits f i, 0#5) ∧ subF f a b = (infBits f i, 0#5) ∧ divF f a b = (infBits f (i != sg b), 0#5)
      ∧ (zero y → mulF f a b = invalid) ∧ (¬ zero y → mulF f a b = (infBits f (i != sg b), 0#5)))
    ∧ (∀ j, number x → y = .inf j →
      addF f a b = (infBits f j, 0#5) ∧ subF f a b = (infBits f (!j), 0#5) ∧ divF f a b = (if sg a != j then 2 ^ fSign f else 0, 0#5)
      ∧ (zero x → mulF f a b = invalid) ∧ (¬ zero x → mulF f a b = (infBits f (sg a != j), 0#5)))

/-- R124, R125: a conversion rounds the number once in its mode; one to an integer clamps what its range does not hold, with invalid. -/
def conversionsRound : Prop :=
  ∀ f ∈ [fmtF32, fmtBf16, fmtF16, fmtE4, fmtE5], ∀ (a : Nat) (md : Mode), (∀ k, md ≠ .sr k) →
    let x := fDec f a
    let sg := a.testBit (fSign f)
    (∀ g ∈ [fmtF32, fmtBf16, fmtF16, fmtE4, fmtE5], ∀ sat,
      (∀ p, valued x p → ∀ neg, signed p sg neg → roundsTo g md sat neg p (cvtFF f g md sat a))
      ∧ (isNan x = true → cvtFF f g md sat a = (fNan g, if isSnan x then fNV else 0#5))
      ∧ (∀ n, x = .inf n → cvtFF f g md sat a = if sat then ((if n then 2 ^ fSign g else 0) + g.maxFin, fNX) else if g.eb = 4 then (fNan g, fNV) else (infBits g n, 0#5)))
    ∧ (∀ z : ℤ, ∀ neg, signed (z : ℝ) false neg → roundsTo f md false neg (z : ℝ) (cvtIF f md z))
    ∧ (isNan x = true → cvtFI f 32 md a = (0, fNV)) ∧ (∀ n, x = .inf n → cvtFI f 32 md a = (if n then 2 ^ 31 else 2 ^ 31 - 1, fNV))
    ∧ (∀ p, valued x p → ∃ k : ℤ,
      (md = .rne → |p - k| ≤ 1 / 2 ∧ (|p - k| = 1 / 2 → k % 2 = 0)) ∧ (md = .rtz → |(k : ℝ)| ≤ |p| ∧ |p| < |(k : ℝ)| + 1 ∧ 0 ≤ p * k)
      ∧ (md = .rdn → (k : ℝ) ≤ p ∧ p < k + 1) ∧ (md = .rup → p ≤ k ∧ (k : ℝ) < p + 1)
      ∧ (k < -2 ^ 31 → cvtFI f 32 md a = (2 ^ 31, fNV)) ∧ (2 ^ 31 ≤ k → cvtFI f 32 md a = (2 ^ 31 - 1, fNV))
      ∧ (-2 ^ 31 ≤ k → k < 2 ^ 31 → (cvtFI f 32 md a).1 = (k % 2 ^ 32).toNat ∧ ((cvtFI f 32 md a).2 = fNX ↔ (k : ℝ) ≠ p) ∧ ((cvtFI f 32 md a).2 = 0#5 ↔ (k : ℝ) = p)))

/-! Comparisons, minima, reductions, tables, softmax and pruning. -/

/-- The place of a value that is no NaN in the order of the numbers with both infinities; the zeros have one place. -/
def ranks (v : Fv) (z : EReal) : Prop := (v = .inf true ∧ z = ⊥) ∨ (v = .inf false ∧ z = ⊤) ∨ ∃ x : ℝ, valued v x ∧ z = (x : EReal)

/-- R120: a comparison. With a NaN only `ne` and `un` hold; invalid is set by a signalling one, and by any in the four ordering relations. Numbers and infinities compare by their places, with no flag. -/
def comparisonsRank : Prop :=
  ∀ x y : Fv,
    ((isNan x = true ∨ isNan y = true) → ∀ r : Rel,
      ((relV r x y).1 = true ↔ r = .ne ∨ r = .un)
      ∧ (relV r x y).2 = if isSnan x = true ∨ isSnan y = true ∨ r = .lt ∨ r = .le ∨ r = .gt ∨ r = .ge then fNV else 0#5)
    ∧ ∀ p q : EReal, ranks x p → ranks y q →
      ((relV .eq x y).1 = true ↔ p = q) ∧ ((relV .ne x y).1 = true ↔ p ≠ q) ∧ ((relV .lt x y).1 = true ↔ p < q) ∧ ((relV .le x y).1 = true ↔ p ≤ q)
      ∧ ((relV .gt x y).1 = true ↔ q < p) ∧ ((relV .ge x y).1 = true ↔ q ≤ p) ∧ (relV .un x y).1 = false ∧ ∀ r, (relV r x y).2 = 0#5

/-- R128: the lesser or greater of two operands (`mx`), in the plain or the propagating form (`prop`): NaNs, then the order of numbers, in which −0 is below +0. -/
def minmaxPicks : Prop :=
  ∀ f ∈ [fmtF32, fmtBf16, fmtF16], ∀ (mx prop : Bool) (a b : Nat),
    let x := fDec f a
    let y := fDec f b
    let r := minmaxF mx prop f a b
    let quiet (v : Fv) : Prop := v = .nan false
    let number (v : Fv) : Prop := isNan v = false
    ((isSnan x = true ∨ isSnan y = true) → r = (fNan f, fNV))
    ∧ (quiet x → quiet y → r = (fNan f, 0#5))
    ∧ (quiet x → number y → r = (if prop then fNan f else b, 0#5))
    ∧ (number x → quiet y → r = (if prop then fNan f else a, 0#5))
    ∧ ∀ p q : EReal, ranks x p → ranks y q →
      (p < q → r = (if mx then b else a, 0#5)) ∧ (q < p → r = (if mx then a else b, 0#5))
      ∧ (p = q → (r = (a, 0#5) ∨ r = (b, 0#5))
        ∧ (p = 0 → r.1.testBit (fSign f) = if mx then (a.testBit (fSign f) && b.testBit (fSign f)) else (a.testBit (fSign f) || b.testBit (fSign f))))

/-- R129: r is what a halving tree makes of 2^k lanes: at each level lane i takes in the lane half of what is left above it. -/
def treeOf {α : Type} (op : α → α → α) (k : Nat) (v : Nat → α) (r : α) : Prop :=
  ∃ t : Nat → Nat → α, (∀ i < 2 ^ k, t 0 i = v i) ∧ (∀ h < k, ∀ i < 2 ^ (k - h - 1), t (h + 1) i = op (t h i) (t h (i + 2 ^ (k - h - 1)))) ∧ r = t k 0

/-- An f32 value with flags, rounded once to the type of a tile. -/
def roundedTo (code : Nat) (r : Nat × BitVec 5) : Nat × BitVec 5 :=
  let c := cvtFF fmtF32 (fmtOf code) .rne false r.1
  (c.1, r.2 ||| c.2)

/-- R129: a lane of a 16-bit tile is widened exactly, a NaN staying a quiet or a signalling one. -/
def widensExactly : Prop :=
  (∀ x, widenF 0 x = (x, 0#5))
  ∧ ∀ code ∈ [1, 2], ∀ x,
    let f := fmtOf code
    let w := widenF code x
    w.2 = 0#5 ∧ w.1.testBit 31 = x.testBit 15 ∧ (∀ p, valued (fDec f x) p → valued (fDec fmtF32 w.1) p) ∧ (∀ n, fDec f x = .inf n → fDec fmtF32 w.1 = .inf n)
    ∧ ∀ sg, fDec f x = .nan sg → fDec fmtF32 w.1 = .nan sg

/-- R129, R208, R209: the reductions and the scan. A reduction puts the masked lanes, widened, through a halving tree in f32, and rounds its result once to the tile's type; a lane that is left out is the identity. An i32 tile takes sums with wrap-around, and the signed minimum and maximum. A scan runs over the masked lanes in rising order, and each lane is what has come together so far, rounded on its own. -/
def reductionsFold : Prop :=
  ∀ (o : ScanOp) (code k : Nat) (m : BitVec 256) (l : List Nat), l.length = 2 ^ k →
    let op (x y : Nat) : Nat × BitVec 5 := match o with | .add => addF fmtF32 x y | .max => minmaxF true false fmtF32 x y | .min => minmaxF false false fmtF32 x y
    let one : Nat := match o with | .add => 0x80000000 | .max => 0xFF800000 | .min => 0x7F800000
    let both (x y : Nat × BitVec 5) : Nat × BitVec 5 := ((op x.1 y.1).1, x.2 ||| y.2 ||| (op x.1 y.1).2)
    let iop (x y : Int) : Int := match o with | .add => (x + y).bmod (2 ^ 32) | .max => max x y | .min => min x y
    let ione : Int := match o with | .add => 0 | .max => -2 ^ 31 | .min => 2 ^ 31 - 1
    let lane (i : Nat) : Nat := l.getD i 0
    (isFloat code = true →
      (∃ r, treeOf both k (fun i => if m.getLsbD i then widenF code (lane i) else (one, 0#5)) r ∧ reduceRow o code m l = roundedTo code r)
      ∧ ∃ r : Nat → Nat, r 0 = one ∧ (scanF o code m 0 (idF o) l).length = l.length ∧ ∀ i < l.length,
          let q := if m.getLsbD i then both (r i, 0#5) (widenF code (lane i)) else (r i, 0#5)
          r (i + 1) = q.1 ∧ (scanF o code m 0 (idF o) l).getD i (0, 0#5) = roundedTo code q)
    ∧ (isFloat code = false →
      (∃ z, treeOf iop k (fun i => if m.getLsbD i then toInt 32 (lane i) else ione) z ∧ reduceRow o code m l = (ofInt 32 z, 0#5))
      ∧ ∃ r : Nat → Int, r 0 = ione ∧ (scanI o m 0 (idI o) l).length = l.length ∧ ∀ i < l.length,
          r (i + 1) = (if m.getLsbD i then iop (r i) (toInt 32 (lane i)) else r i) ∧ (scanI o m 0 (idI o) l).getD i (0, 0#5) = (ofInt 32 (r (i + 1)), 0#5))

/-- R220: a lane x, with the flags g of its widening, through a configured table. t = (x − x0) × 2^−E, both rounded. Beyond the table's ends the mode of that side says: x itself, +0, the end's entry, or (vtabl and vtabq) the arithmetic of the end's interval; within them j is the whole part of t, at most the last interval's. vtab takes the nearer entry, of two alike the even one; vtabl and vtabq interpolate by fma. -/
def tablesRead : Prop :=
  ∀ (form : TabForm) (t : TableSlot) (x : Nat) (g : BitVec 5),
    let hi := if t.kind = 0 then t.n - 1 else t.n
    let T (i : Nat) : Nat := t.words.getD i 0
    let u := subF fmtF32 x t.x0
    1 ≤ hi → hi ≤ 2 ^ 16 →
    (isNan (fDec fmtF32 x) = true → tabLane form t (x, g) = (fNan fmtF32, g ||| if isSnan (fDec fmtF32 x) then fNV else 0#5))
    ∧ (isNan (fDec fmtF32 x) = false → ∃ v : Nat × BitVec 5,
      (∀ p, valued (fDec fmtF32 u.1) p → roundsTo fmtF32 .rne false (u.1.testBit 31) (p * (2 : ℝ) ^ (-t.e)) v)
      ∧ (∀ i, fDec fmtF32 u.1 = .inf i → v = (u.1, 0#5))
      ∧ ∀ z : EReal, ranks (fDec fmtF32 v.1) z →
        let fl := g ||| u.2 ||| v.2
        let y := tabLane form t (x, g)
        let whole (k : Nat) : Nat := (cvtIF fmtF32 .rne k).1
        let reads (w j : Nat) : Prop :=
          let f := subF fmtF32 w (whole j)
          (form = .near → ∀ r : EReal, ranks (fDec fmtF32 f.1) r →
            (r < ((1 / 2 : ℝ) : EReal) → y = (T j, fl ||| f.2)) ∧ (((1 / 2 : ℝ) : EReal) < r → y = (T (j + 1), fl ||| f.2))
            ∧ (r = ((1 / 2 : ℝ) : EReal) → y = (T (if j % 2 = 0 then j else j + 1), fl ||| f.2)))
          ∧ (form = .linear → let d := subF fmtF32 (T (j + 1)) (T j)
            let c := fmaF fmtF32 f.1 d.1 (T j)
            y = (c.1, fl ||| f.2 ||| (d.2 ||| c.2)))
          ∧ (form = .quad → let b := fmaF fmtF32 (T (3 * j + 2)) f.1 (T (3 * j + 1))
            let c := fmaF fmtF32 b.1 f.1 (T (3 * j))
            y = (c.1, fl ||| f.2 ||| (b.2 ||| c.2)))
        let past (mode : OobMode) (endAt last : Nat) : Prop :=
          (mode = .identity → y = (x, fl)) ∧ (mode = .zero → y = (0, fl)) ∧ ((mode = .clamp ∨ (mode = .extend ∧ form = .near)) → reads endAt last)
          ∧ (mode = .extend → form ≠ .near → reads v.1 last)
        (z < 0 → past t.lo 0 0)
        ∧ ((hi : ℝ) < z → past t.hi (whole hi) (hi - 1))
        ∧ (0 ≤ z → z ≤ (hi : ℝ) → ∀ j ≤ hi - 1, ((j : ℝ) : EReal) ≤ z → (z < ((j + 1 : ℝ) : EReal) ∨ j = hi - 1) → reads v.1 j))

/-- R221: 2^x and log2 x where they are exact or not numbers: the special values of both, 2^x for a whole x and log2 x for a power of 2, each rounded once. What they give elsewhere is rounded from bounds on the exact value (log entry 15), and is not stated here. -/
def powersAndLogs : Prop :=
  ∀ f ∈ [fmtF32, fmtBf16, fmtF16], ∀ a : Nat,
    let x := fDec f a
    (isNan x = true → exp2V f x = (fNan f, if isSnan x then fNV else 0#5) ∧ log2V f x = (fNan f, if isSnan x then fNV else 0#5))
    ∧ (x = .inf false → exp2V f x = (infBits f false, 0#5) ∧ log2V f x = (infBits f false, 0#5))
    ∧ (x = .inf true → exp2V f x = (0, 0#5) ∧ log2V f x = (fNan f, fNV))
    ∧ (∀ p : ℤ, valued x (p : ℝ) → roundsTo f .rne false false ((2 : ℝ) ^ p) (exp2V f x))
    ∧ (valued x 0 → log2V f x = (infBits f true, fDZ)) ∧ (∀ p, valued x p → p < 0 → log2V f x = (fNan f, fNV))
    ∧ ∀ k : ℤ, valued x ((2 : ℝ) ^ k) → ∀ neg, signed (k : ℝ) false neg → roundsTo f .rne false neg (k : ℝ) (log2V f x)

/-- R134: one softmax over the lanes z, each with the flags gathered so far, in a row of 2^k lanes of a tile of type `code`: m is the tree of their propagating maximum, behind them −∞; d = z − m; e = exp d, where that is exact or no number (elsewhere as `powersAndLogs`); q is the tree of the sum of the e, behind them −0; each lane is e / q rounded once to the tile's type, and the flags are those of every step. With a NaN among the lanes, or none but −∞, every lane is the canonical NaN. -/
def softmaxSteps : Prop :=
  (∀ x, (isNan x = true → expV x = (fNan fmtF32, if isSnan x then fNV else 0#5)) ∧ (x = .inf true → expV x = (0, 0#5)) ∧ (x = .inf false → expV x = (infBits fmtF32 false, 0#5))
    ∧ (valued x 0 → roundsTo fmtF32 .rne false false 1 (expV x)))
  ∧ ∀ (code k : Nat) (z : List (Nat × BitVec 5)), isFloat code = true → z ≠ [] → z.length ≤ 2 ^ k →
    let out := softmax code (2 ^ k) z
    let T := fmtOf code
    let lane (i : Nat) : Nat × BitVec 5 := z.getD i (0, 0#5)
    let both (op : Nat → Nat → Nat × BitVec 5) (x y : Nat × BitVec 5) : Nat × BitVec 5 := ((op x.1 y.1).1, x.2 ||| y.2 ||| (op x.1 y.1).2)
    (∃ m q : Nat × BitVec 5,
      let d (i : Nat) : Nat × BitVec 5 := subF fmtF32 (lane i).1 m.1
      let e (i : Nat) : Nat × BitVec 5 := expV (fDec fmtF32 (d i).1)
      let p (i : Nat) : Nat × BitVec 5 := divV T (fDec fmtF32 (e i).1) (fDec fmtF32 q.1)
      treeOf (both (minmaxF true true fmtF32)) k (fun i => if i < z.length then lane i else (0xFF800000, 0#5)) m
      ∧ treeOf (both (addF fmtF32)) k (fun i => if i < z.length then ((e i).1, (lane i).2 ||| (d i).2 ||| (e i).2) else (0x80000000, 0#5)) q
      ∧ out.1 = (List.range z.length).map (fun i => (p i).1)
      ∧ (∀ b, out.2.getLsbD b = true ↔ m.2.getLsbD b = true ∨ q.2.getLsbD b = true ∨ ∃ i < z.length, (p i).2.getLsbD b = true)
      ∧ ∀ i < z.length, ∀ x y : ℝ, valued (fDec fmtF32 (e i).1) x → valued (fDec fmtF32 q.1) y → y ≠ 0 → ∀ neg, signed (x / y) ((e i).1.testBit 31 != q.1.testBit 31) neg →
          roundsTo T .rne false neg (x / y) (p i))
    ∧ ((∃ x ∈ z, isNan (fDec fmtF32 x.1) = true) → ∀ y ∈ out.1, y = fNan T)
    ∧ ((∀ x ∈ z, fDec fmtF32 x.1 = .inf true) → (∀ y ∈ out.1, y = fNan T) ∧ out.2.getLsbD 4 = true)

/-- R269: the lanes that pruning keeps of a row: of each group of m, the k largest, a NaN above an infinity above every number, numbers by magnitude, and of lanes alike the lower. -/
def pruneKeeps : Prop :=
  ∀ f ∈ [fmtF32, fmtBf16, fmtF16], ∀ (m k : Nat) (l : List Nat), 1 ≤ k → k < m → l.length % m = 0 →
    let bit (i : Nat) : Bool := (pruneRow f m k l).testBit i
    let larger (a b : Nat) : Prop :=
      let x := fDec f (l.getD a 0)
      let y := fDec f (l.getD b 0)
      (isNan x = true ∧ isNan y = false) ∨ ((∃ n, x = .inf n) ∧ ∃ q, valued y q) ∨ ∃ p q, valued x p ∧ valued y q ∧ |q| < |p|
    (∀ i, l.length ≤ i → bit i = false)
    ∧ ∀ g < l.length / m, (List.range m).countP (fun o => bit (m * g + o)) = k
      ∧ ∀ a < m, ∀ b < m, bit (m * g + a) = true → bit (m * g + b) = false → larger (m * g + a) (m * g + b) ∨ (¬ larger (m * g + b) (m * g + a) ∧ a < b)

/-! What is written. -/

/-- The memory m' is m with some runs of bytes written: each stands where it says, and every other byte is as it was. -/
def writesRuns (m m' : Memory) (runs : List (Nat × List Byte)) : Prop :=
  (∀ r ∈ runs, memReadN m' r.1 r.2.length = r.2) ∧ ∀ x, (∀ r ∈ runs, x < r.1 ∨ r.1 + r.2.length ≤ x) → memRead m' x = memRead m x

/-- Storage at a range reads as it was written: nothing is flawed (R91), its sectors stand under the key (R92), and no line is owned (R78). -/
def plainAt (s : State) (pa len key : Nat) : Prop :=
  s.mem.flaws = [] ∧ (∀ a ∈ sectorsOf pa len, keyAt s.mem a = keyBytes s key) ∧ ∀ e ∈ s.cores, e.2.owned = []

/-! How a job begins and ends. -/

/-- R30, R32, R39, R297, R311: what the start of a staged job leaves. The slot is the active one; the job is the staged one with its partition's spawn limit and handler, its slot's STEP mask and its node's budget; the accumulator store and the slot's trap records are 0; each declared handle has its kernel's descriptor, with the pointers kept for it, and any other is 0; on a column whose last job was of another partition or context, a scratchpad that takes no keep regions reads as the fill pattern; keep regions are resident. Where a backing cannot be reached the C stream then stops with the cause. -/
def startsJob (s : State) (m j : Nat) (u : State) : Prop :=
  let k := coreOf s m
  let b := (slotOf k j).job
  let nd := nodeOf s b.part b.ctx b.node
  let own := some (b.node, b.ctx)
  let first : State × Option VErr := if k.resident = own then (s, none) else keepOut s b.part m
  let other : Prop := (coreOf first.1 m).lastCtx ≠ some (b.part, b.ctx)
  ∃ (w base : State) (e : Option VErr),
    (first.2.isSome = true → e = first.2) ∧ (first.2 = none → e = (handover base b.part b.ctx m j b.node).2)
    ∧ (other → base = { first.1 with mem := fillScratch first.1.mem m (partOf first.1 b.part).fill }) ∧ (¬ other → base = first.1)
    ∧ u = (match e with
      | none => w
      | some x => stopStream w m j .c { cause := causeOf x, faddr := addrOf x, freeze := match x with | .fault _ fz _ => fz | _ => false } false 0#32 .c)
    ∧ (coreOf w m).active = some j ∧ (coreOf w m).lastCtx = some (b.part, b.ctx) ∧ (slotOf (coreOf w m) j).st = .active
    ∧ jobOf w m j = { b with
        limit := (partOf w b.part).splimit.toNat, trapvec := (partOf w b.part).handler, dbgctl := (slotOf (coreOf w m) j).step
        npUntil := if nd.np then some (s.now + nd.budget) else none }
    ∧ (e = none → nd.keeps ≠ [] → (coreOf w m).resident = own)
    ∧ ((∀ d ∈ nd.kernel.descs, d.1 < 32 ∧ d.2.length = 64) → m < 256 → j < 2 →
      let desc (h : Nat) : List Byte := memReadN w.mem (coreAt m + Config.descOffset + j * 0x800 + 64 * h) 64
      (∀ i < Config.accSize, memRead w.mem (coreAt m + Config.accOffset + i) = 0#8)
      ∧ (∀ i < 0x140, memRead w.mem (coreAt m + Config.recOffset + j * 0x800 + i) = 0#8)
      ∧ (∀ h < 32, (∀ d ∈ nd.kernel.descs, d.1 ≠ h) → desc h = zeros 64)
      ∧ ((nd.kernel.descs.map (·.1)).Nodup → ∀ d ∈ nd.kernel.descs, desc d.1 = startDesc (coreOf w m) b.ctx b.node d.1 d.2)
      ∧ (other → nd.keeps = [] → ∀ i < Config.scratchSize, memRead w.mem (coreAt m + i) = (partOf w b.part).fill))

/-- R36, R37, R193: what a retirement leaves, before its task counts as complete. The slot is empty and no slot is active; its descriptors are 0, with the pointers of the persistent queues kept; its owned ranges are released; where it held none, no byte but those of its descriptors changes, so that its keep regions stay. -/
def retiresJob (s : State) (m j : Nat) (u : State) : Prop :=
  let k := coreOf s m
  let b := jobOf s m j
  let mine (r : OwnRange) : Prop := r.owner = (b.ctx, b.task)
  ∃ w, u = (if b.killed then endKilled w b.part b.ctx b.task else completeTask w b.part b.ctx b.task)
    ∧ (coreOf w m).active = none ∧ slotOf (coreOf w m) j = emptySlot (slotOf k j) ∧ (coreOf w m).resident = k.resident
    ∧ (∀ r ∈ (coreOf w m).owned, ¬ mine r)
    ∧ (m < 256 → ∀ i < 0x800, memRead w.mem (coreAt m + Config.descOffset + j * 0x800 + i) = 0#8)
    ∧ ((∀ r ∈ k.owned, ¬ mine r) →
      (∀ x, (x < coreAt m + Config.descOffset + j * 0x800 ∨ coreAt m + Config.descOffset + (j + 1) * 0x800 ≤ x) → memRead w.mem x = memRead s.mem x)
      ∧ ∀ h < 32, let d := descOf s m j (BitVec.ofNat 5 h); d.valid = true → d.persist = true → tget (0, 0) (coreOf w m).persist (persistKey b.ctx b.node h) = (d.head, d.tail))

/-! Scheduling. -/

/-- R47, R52 to R54, R56, R60: one selection of a die's round takes, of the nodes eligible there, the one that ranks highest, the lowest of equals. Its task is the node's oldest ready one that may run on the die, and a full output edge bars it unless it holds its reservations. The node's age returns to 0. A task that awaits a probe is probed. Any other stands, dispatched, in a free slot of an open core: one that runs a job of the node, else one where the node's keep regions are resident, else any, each time the lowest. -/
def selects (s : State) (p c die : Nat) (t : State) (node : Nat) : Prop :=
  let g := graphOf s p c
  let la := launchOf s p c
  let runs (n : Nat) : Prop := ∃ j, (coreOf s n).active = some j ∧ (jobOf s n j).part = p ∧ (jobOf s n j).ctx = c ∧ (jobOf s n j).node = node
  let keeps (n : Nat) : Prop := (coreOf s n).resident = some (node, c)
  let before (m n : Nat) : Prop := (runs m ∧ (runs n → m ≤ n)) ∨ (¬ runs m ∧ ¬ runs n ∧ keeps m ∧ (keeps n → m ≤ n)) ∨ (¬ runs m ∧ ¬ runs n ∧ ¬ keeps m ∧ ¬ keeps n ∧ m ≤ n)
  ∃ k tk, oldestTask s p c la die node = some (k, tk) ∧ tk.st = .ready ∧ (tk.reserved = true ∨ outFull g la node = false)
    ∧ node < g.nodes.length
    ∧ (∀ m < g.nodes.length, (eligible s p c die m).isSome = true → ranksAbove g la m node = false ∧ (m < node → ranksAbove g la node m = true))
    ∧ (tk.node = node → tget 0 (launchOf t p c).ages node = 0)
    ∧ (awaitsProbe (nodeOf s p c node) tk = true → (∃ u, taskOf (launchOf t p c) k = some u ∧ u.st = .probing) ∧ ∃ b ∈ (launchOf t p c).probes, b.task = k ∧ b.die = die ∧ b.hit = false)
    ∧ (awaitsProbe (nodeOf s p c node) tk = false → tk.node = node → (∃ u, taskOf (launchOf t p c) k = some u ∧ u.st = .dispatched)
      ∧ ∃ n ∈ openCores s p c die, (∀ m ∈ openCores s p c die, before n m) ∧ ∃ j, freeSlot (coreOf s n) = some j ∧
          let sl := slotOf (coreOf t n) j
          sl.st = .staged ∧ sl.job.task = k ∧ sl.job.node = node ∧ sl.job.tile = tk.tile ∧ sl.resumed = false)

/-- R52, R55: the round of a die makes at most 16 selections, and fewer only where none is left to make; the nodes that were eligible as it began and were not selected age by 1, to at most 255, and no other does. -/
def roundSelects (s : State) (p c die : Nat) : Prop :=
  let r := selections p c die 16 s
  let idle := (dieRound s p c die).2
  (dieRound s p c die).1 = r.1 ∧ r.2.length ≤ 16 ∧ (r.2.length < 16 → selectOnce r.1 p c die = none)
  ∧ (∀ k, k ∈ idle ↔ k < (graphOf s p c).nodes.length ∧ (eligible s p c die k).isSome = true ∧ k ∉ r.2)
  ∧ ∀ (t : State) (k : Nat), (ctxOf t p c).launch ≠ none →
    (k ∈ idle → tget 0 (launchOf (ageNodes t p c idle) p c).ages k = min 255 (tget 0 (launchOf t p c).ages k + 1))
    ∧ (k ∉ idle → tget 0 (launchOf (ageNodes t p c idle) p c).ages k = tget 0 (launchOf t p c).ages k)

/-! What ends on a column. -/

/-- R327: what a column loses in C2 and in C3, and what it keeps. Its scratchpad, accumulators, caches, TLB and owned ranges go, its keep regions are no more resident, the next job finds a fill pattern there, and live maps are lost; in C3 the vault's words are uncorrectable. What else its slots and registers hold stays; where it held no keep regions and no cached lines, no other byte changes. -/
def losesState (s : State) (m : Nat) (pw : Power) (u : State) : Prop :=
  let k := coreOf s m
  let c := coreOf u m
  c.power = pw ∧ c.l1 = [] ∧ c.icache = [] ∧ c.tlb = [] ∧ c.owned = [] ∧ c.resident = none ∧ c.lastCtx = none
  ∧ (∀ e ∈ c.floe, ∀ map, e.2.state ≠ .live map)
  ∧ (m < 256 → (∀ i < Config.scratchSize, memRead u.mem (coreAt m + i) = dflt u.mem (coreAt m + i)) ∧ ∀ i < Config.accSize, memRead u.mem (coreAt m + Config.accOffset + i) = 0#8)
  ∧ (pw = .c3 → (vaultAt m, vaultAt m + Config.vaultSize, spareWrong) ∈ u.mem.flaws)
  ∧ (k.resident = none → k.l1 = [] → (pw ≠ .c3 → u.mem.flaws = s.mem.flaws) ∧ u.parts = s.parts
    ∧ c.slot0 = { k.slot0 with intact := false } ∧ c.slot1 = { k.slot1 with intact := false } ∧ c.ctx = k.ctx ∧ c.active = k.active ∧ c.txb = k.txb ∧ c.persist = k.persist
    ∧ ∀ x, (x < coreAt m ∨ coreAt m + Config.scratchSize ≤ x) → (x < coreAt m + Config.accOffset ∨ coreAt m + Config.accOffset + Config.accSize ≤ x) → memRead u.mem x = memRead s.mem x)

/-- R193, R301, R304: what a kill of an active job leaves. Its slot drains; its handler has ended, its traps and faults are gone, and every stream stands at its end; of its operations those that have issued and wait for nothing stay, but for installations not yet made; its ring entries are complete; memory is as it was. -/
def killsJob (s : State) (m j : Nat) (u : State) : Prop :=
  let b := jobOf s m j
  let c := jobOf u m j
  (slotOf (coreOf u m) j).st = .drain ∧ c.killed = true ∧ c.sv = false ∧ c.traps = [] ∧ c.suspending = none ∧ c.task = b.task ∧ u.mem = s.mem
  ∧ (∀ t, (c.streams.get t).run = .ended ∧ (c.streams.get t).faults = [] ∧ (c.streams.get t).pbars = [])
  ∧ (∀ o, o ∈ c.sq ↔ o ∈ b.sq ∧ o.parked = 0 ∧ ∀ d k l, o.kind ≠ .frnput d k l)
  ∧ (∀ o, (o ∈ c.lq → o ∈ b.lq ∧ o.parked = 0) ∧ (o ∈ c.aq → o ∈ b.aq ∧ o.parked = 0) ∧ (o ∈ c.xvq → o ∈ b.xvq ∧ o.parked = 0) ∧ (o ∈ c.xhq → o ∈ b.xhq ∧ o.parked = 0))
  ∧ c.vq = b.vq ∧ c.mq = b.mq
  ∧ ∀ p, partOfCore s m = some p → ∀ e ∈ (partOf u p).ring, (e.1 ∈ parkedBehind b ∨ (e.2.core = m ∧ e.2.slot = j ∧ e.2.ctx = b.ctx)) → e.2.pend = false

/-! Links and the host. -/

/-- R242, R243, R304, R310: a remote store at its destination. One whose pages do not take it writes nothing, and a violation freezes its port for the partition; else its bytes stand at its address, and its arrival, at a core of the partition, counts at the barrier. -/
def performsFlit (s : State) (t : Nat) (f : Flit) (u : State) : Prop :=
  let p := f.part.toNat
  let c := f.ctx.toNat
  let w : Who := { p := p, c := c, user := true }
  let len := f.bytes.length
  let walks := walkedRange s w f.va len
  (∀ e, vaCheck s w .write f.va len = some e →
    (∀ cause va, e = .fault cause true va → u = freezePort walks p t) ∧ ((∀ cause va, e ≠ .fault cause true va) → u = walks))
  ∧ (∀ pa key, translate s p c none f.va .write true = .ok pa key → region pa = .hbm → f.va.toNat % 0x10000 + len ≤ 0x10000 → 1 ≤ len → plainAt s pa len key →
    ∃ v, writesRuns s.mem v.mem [(pa, f.bytes)] ∧ (f.arrival = none → u = v)
      ∧ ∀ a, f.arrival = some a →
        ((partOf s p).pgran.getLsbD (a.toNat / 256) = true → u = txbArrive v (a.toNat / 16) c (a.toNat % 16) len)
        ∧ ((partOf s p).pgran.getLsbD (a.toNat / 256) = false → u = v))

/-- R71, R114, R304, R310, R323: what becomes of a flit in sequence. One for another package, and any through the host port, goes on; one whose port is frozen for its partition, or for which the ingress buffer of 64 KiB has no room, is not taken; one is held while no column has switched to its context, or a column whose window one of its pages reaches has not, or it reaches a row that is busy, or an earlier one of its context is held; else it is performed at once. -/
def acceptsFlit (s : State) (t : Nat) (f : Flit) (u : State) : Prop :=
  let p := f.part.toNat
  let c := f.ctx.toNat
  let q := partOf s p
  let taken (v : State) : State := { v with ports := tset v.ports t { tget {} v.ports t with next := (tget {} v.ports t).next + 1#16, replays := 0 } }
  let away (n : Nat) : Prop := (coreOf s n).ctx ≠ some c
  let other : Prop := t = 12 ∨ f.dest ≠ Config.pkgid
  let refused : Prop := q.portFrozen.getLsbD t = true ∨ 65536 < heldBytes q + f.bytes.length
  let held : Prop := (∀ n ∈ coresOf s p, away n)
    ∨ (∃ va ∈ pageStarts f.va f.bytes.length, ∃ pa key n off, translate s p c none va .write true = .ok pa key ∧ (region pa = .core n off ∨ region pa = .vault n off) ∧ away n)
    ∨ rangeBusy s { p := p, c := c, user := true } .write f.va f.bytes.length = true ∨ ∃ g ∈ q.ingress, g.2.ctx = f.ctx
  (other → u = taken s) ∧ (¬ other → refused → u = s)
  ∧ (¬ other → ¬ refused → held → u = taken (modPart s p (fun q => { q with ingress := q.ingress ++ [(t, f)] })))
  ∧ (¬ other → ¬ refused → ¬ held → u = taken (performFlit s t f))

/-- R107, R183, R316, R319, R320, with the model's choice of log entry 61 (a misaligned AtomicOp): what a host request of a partition's function reads and writes. BAR0 is the partition's block; BAR2 is its HBM range under the key of HKEY; what leaves them, or a key that the partition does not own, is a violation, which freezes the host port for the partition and answers Completer Abort. An AtomicOp is one step at the word, and answers the old one. -/
def answersRequests (s : State) (p : Nat) : Prop :=
  let q := partOf s p
  let lo := (hbmRange q).1
  let key := q.hkey.toNat
  let does (r : HostReq) (u : State) : Prop := partRequest s p r = u
  let answer (v : State) (l : Option (List Byte)) : State := { v with hostReplies := v.hostReplies ++ [(p + 1, l)] }
  let bad := answer (freezePort s p 12) none
  let reach (off len : Nat) : Prop := off + len ≤ (hbmRange q).2 ∧ ownsKey q key = true
  let plain (off len : Nat) : Prop := reach off len ∧ region (lo + off) = .hbm ∧ plainAt s (lo + off) len key
  let word (off k : Nat) : Nat := leNat (memReadN s.mem (lo + off) k)
  let swaps (r : HostReq) (off k new : Nat) : Prop :=
    ∃ u, does r (answer u (some (memReadN s.mem (lo + off) k))) ∧ writesRuns s.mem u.mem [(lo + off, leBytes k new)] ∧ u.hostReplies = s.hostReplies
  let bytes (wd : Width) : Nat := if wd = .w then 4 else 8
  (partOf (freezePort s p 12) p).portFrozen.getLsbD 12 = true
  ∧ (∀ fn off n, (off.toNat + n.toNat ≤ 2 ^ 20 → does (.bar0Read fn off n) (answer s (some ((List.range n.toNat).map (fun i => pctlByte s p (off.toNat + i))))))
    ∧ (2 ^ 20 < off.toNat + n.toNat → does (.bar0Read fn off n) bad))
  ∧ (∀ fn off l, (off.toNat + l.length ≤ 2 ^ 20 → does (.bar0Write fn off l) (pctlWriteBytes s p off.toNat l false)) ∧ (2 ^ 20 < off.toNat + l.length → does (.bar0Write fn off l) bad))
  ∧ (∀ fn off n, (plain off.toNat n.toNat → does (.bar2Read fn off n) (answer s (some (memReadN s.mem (lo + off.toNat) n.toNat))))
    ∧ (¬ reach off.toNat n.toNat → does (.bar2Read fn off n) bad))
  ∧ (∀ fn off l, (plain off.toNat l.length → ∃ u, does (.bar2Write fn off l) u ∧ writesRuns s.mem u.mem [(lo + off.toNat, l)] ∧ u.hostReplies = s.hostReplies)
    ∧ (¬ reach off.toNat l.length → does (.bar2Write fn off l) bad))
  ∧ (∀ fn off wd v c, let k := bytes wd
    (off.toNat % k ≠ 0 → does (.fetchAdd fn off wd v) (answer s none) ∧ does (.swap fn off wd v) (answer s none) ∧ does (.cas fn off wd c v) (answer s none))
    ∧ (off.toNat % k = 0 → ¬ reach off.toNat k → does (.fetchAdd fn off wd v) bad ∧ does (.swap fn off wd v) bad ∧ does (.cas fn off wd c v) bad)
    ∧ (off.toNat % k = 0 → plain off.toNat k →
      let x := word off.toNat k
      swaps (.fetchAdd fn off wd v) off.toNat k ((x + v.toNat) % 2 ^ (8 * k)) ∧ swaps (.swap fn off wd v) off.toNat k (v.toNat % 2 ^ (8 * k))
      ∧ swaps (.cas fn off wd c v) off.toNat k (if x = c.toNat % 2 ^ (8 * k) then v.toNat % 2 ^ (8 * k) else x)))
  ∧ ∀ fn, does (.unsupported fn) (answer s none)

/-! Intake. -/

/-- R90, R249: an access to a queue's header or packet that cannot be made. A miss, or a page under WPW, waits for the ring entry that is pending for its page or posts one, and is reported as XLAT_MISS where the ring has no room; any other cause is reported. -/
def stopsIntake (s : State) (v : Via) (q idx : Nat) (write : Bool) (e : VErr) (u : State) : Prop :=
  let waits (va : Word) (kind : Nat) : Prop :=
    (ringBehind s v va ≠ none → u = s)
    ∧ (ringBehind s v va = none →
      (∀ w i, ringPost s v.who.p v.who.c (ringFor v va kind write (BitVec.ofNat 32 idx)) = some (w, i) → u = w)
      ∧ (ringPost s v.who.p v.who.c (ringFor v va kind write (BitVec.ofNat 32 idx)) = none → u = intakeFault s v.who.p v.n q idx cXlatMiss false))
  (∀ va, e = .miss va → waits va 1) ∧ (∀ va, e = .wpw va → waits va 2)
  ∧ ∀ cause freeze va, e = .fault cause freeze va → u = intakeFault s v.who.p v.n q idx cause freeze

/-- R248, R249: a packet that is taken. Where its READY byte and the header's RIDX can be written, its command joins the serving core's intake commands, with its queue, its index and the context, or its breach is reported; READY then is 0, and RIDX one higher. -/
def takesPacket (s : State) (v : Via) (q : Nat) (hdr pkt : Word) (idx : Nat) (l : List Byte) (u : State) : Prop :=
  let p := v.who.p
  let act := packetAction l idx
  let foreign : Prop := act.act = .arrival ∧ (partOf s p).pgran.getLsbD (bitsAt act.operand 4 8 / 16) = false
  (∀ e, vaCheck s v.who .write pkt 1 = some e → u = intakeStop (walked s v.who pkt) v q idx true e)
  ∧ (vaCheck s v.who .write pkt 1 = none → ∀ e, vaCheck s v.who .write (hdr + 8#64) 8 = some e → u = intakeStop (walked s v.who (hdr + 8#64)) v q idx true e)
  ∧ (vaCheck s v.who .write pkt 1 = none → vaCheck s v.who .write (hdr + 8#64) 8 = none →
    ∃ w, (∀ a b, vaWrite w v.who pkt [0#8] = (a, .ok ()) → vaWrite a v.who (hdr + 8#64) (leBytes 8 (idx + 1)) = (b, .ok ()) → u = b)
      ∧ (parsePacket l = none → w = intakeFault s p v.n q idx cIllegal false)
      ∧ (∀ cp, parsePacket l = some cp →
        (foreign → w = intakeFault s p v.n q idx cXlatPerm false)
        ∧ (¬ foreign → w.mem = s.mem ∧ w.parts = s.parts
          ∧ (coreOf w v.n).intake = (coreOf s v.n).intake ++ [{ kind := .copy cp (some act) [], sid := .x, cmd := BitVec.ofNat 32 idx, seq := idx * 4 + q, intake := some (q, idx, v.who.c) }])))

/-! The Step Sequencer. -/

/-- R26, R273, R276, R323: what stops an activation at a node whose trips are known. -/
def activationChecks (q : Partition) (nd : Node) (trips : List Nat) : Prop :=
  let count := taskCount nd trips
  let large : Prop := 2 ^ 24 < count
  let gang : Prop := gangMembers q < nd.gang
  let short : Prop := ∃ f, nd.firn = some f ∧ f.count < count
  (large → activationError q nd trips = some cLoop) ∧ (¬ large → gang → activationError q nd trips = some cIllegal)
  ∧ (¬ large → ¬ gang → short → activationError q nd trips = some cFirnDesc) ∧ (¬ large → ¬ gang → ¬ short → activationError q nd trips = none)

/-- R23, R26, R29, R42, R282: a launch. A checkpoint is taken first where the step asks for a snapshot of a declared range. The nodes are resolved and checked in ascending id; the first failure stops the loop with its cause and node, and no task is made. Where none fails, each tile of a node that runs on this package is a task with the node's dependence count, ready where that is 0 and waiting otherwise, and the ready ones stand in their node's order, ascending. -/
def launches (P C : Nat) : Prop :=
  (∀ s : State, (ctxOf s P C).launch = none →
    let x := ctxOf s P C
    let step := (tget 0#64 x.k 0).toNat
    let g := graphOf s P C
    let u := if (tget 0#64 x.k 6).getLsbD 3 = true ∧ (vrangeOf x).2 ≠ 0 then modCtx s P C (fun x => takeCheckpoint x step) else s
    (∀ w cause k, activateNodes P C g.nodes 0 u = (w, .error (cause, k)) → launchGraph s P C = stopErr w P C cause k)
    ∧ (∀ w trips, activateNodes P C g.nodes 0 u = (w, .ok trips) → ∃ t, launchGraph s P C = advanceLoop t P C ∧ t.mem = w.mem
        ∧ (ctxOf t P C).launch = some (newLaunch (partOf w P) g trips)))
  ∧ (∀ (l : List Node) (k : Nat) (s w : State) (cause : Byte) (i : Nat), activateNodes P C l k s = (w, .error (cause, i)) →
    k ≤ i ∧ i < k + l.length ∧ ∃ v before, activateNodes P C (l.take (i - k)) k s = (v, .ok before)
      ∧ (resolveTrips P C (l.getD (i - k) {}).levels v = (w, .error cause)
        ∨ ∃ trips, resolveTrips P C (l.getD (i - k) {}).levels v = (w, .ok trips) ∧ activationError (partOf w P) (l.getD (i - k) {}) trips = some cause))
  ∧ (∀ q nd trips, activationChecks q nd trips)
  ∧ (∀ (q : Partition) (g : Graph) (trips : Table (List Nat)),
    let nd (k : Nat) := g.nodes.getD k {}
    let count (k : Nat) := taskCount (nd k) (tget [] trips k)
    let here (k tile : Nat) : Bool := tileHere q (nd k) (tget [] trips k) tile
    let la := newLaunch q g trips
    (∀ k < g.nodes.length, count k ≤ 2 ^ 24) → ∀ k < g.nodes.length,
      (∀ tile < 2 ^ 24, taskOf la (taskKey k tile) = if tile < count k ∧ here k tile = true
        then some { node := k, tile := tile, ctr := (nd k).depInit, st := if (nd k).depInit = 0 then .ready else .waiting } else none)
      ∧ tget [] la.order k = if (nd k).depInit = 0 then ((List.range (count k)).filter (here k)).map (taskKey k) else [])

/-- R96, R98, R282, R306: what a rollback leaves. The stopped launch, with its saved images, is gone, and no request is left. The image is the one with the larger committed step, and SQSTEP is that step; the Firn entries are those that the checkpoint of that image records (DEDUCED, log entry 35). With neither image committed SQSTEP and the Firn entries are as they were, and the context stays stopped. -/
def rollsBack (s : State) (P C : Nat) (u : State) : Prop :=
  let x := ctxOf s P C
  let y := ctxOf u P C
  let d := modCtx (discardLaunch s P C) P C (fun x => { x with rb := false })
  let a := committed d P C 0
  let b := committed a.1 P C 1
  let becomes (image step : Nat) : Prop := y.sqstep = BitVec.ofNat 16 step ∧ y.firn = (if image = 0 then x.check0 else x.check1) ∧ y.stopped = false
  y.launch = none ∧ y.snap = none ∧ y.saved = [] ∧ y.rb = false
  ∧ (∀ i k, a.2 = some i → b.2 = some k → (i < k → becomes 1 k) ∧ (k ≤ i → becomes 0 i))
  ∧ (∀ i, a.2 = some i → b.2 = none → becomes 0 i) ∧ (∀ k, a.2 = none → b.2 = some k → becomes 1 k)
  ∧ (a.2 = none → b.2 = none → y.sqstep = x.sqstep ∧ y.firn = x.firn ∧ y.stopped = x.stopped)

/-! Graph load. -/

/-- R24, R25, R45, R153, R155 to R157, R276, R318: which graph a load takes, and with which cause and node it refuses one: node 0x3FF for the header and the edges, the first node that fails for the nodes, the first with more than 8 input or output edges for the edge counts. -/
def readsGraph (P C : Nat) : Prop :=
  ∀ s : State,
    let base := (ctxOf s P C).gladdr
    let refused (u : State) (cause : Byte) (node : Nat) : Prop := readGraph s P C = (u, .error (cause, node))
    (∀ u e, vaRead s (deviceWho P C) base 64 = (u, .error e) → refused u (causeOf e) 0x3FF)
    ∧ (∀ u l, vaRead s (deviceWho P C) base 64 = (u, .ok l) →
      let n := fieldAt l 8 2
      let magic : Prop := fieldAt l 0 4 = 0x47524150
      let enc : Prop := fieldAt l 4 4 = Config.encid.toNat
      let rest : Prop := 1 ≤ n ∧ n ≤ 1024 ∧ fieldAt l 10 2 ≤ 4096 ∧ zeroAt l 12 16 = true ∧ zeroAt l 32 64 = true
      (¬ magic → refused u cIllegal 0x3FF) ∧ (magic → ¬ enc → refused u cEncMismatch 0x3FF) ∧ (magic → enc → ¬ rest → refused u cIllegal 0x3FF)
      ∧ (magic → enc → rest →
        let table := base + BitVec.ofNat 64 (fieldAt l 16 8)
        (∀ v x, loadNodes P C table n u 0 = (v, .error x) → refused v x.1 x.2 ∧ x.2 < n ∧ ∃ w before, loadNodes P C table x.2 u 0 = (w, .ok before)
            ∧ loadNode w P C x.2 (table + BitVec.ofNat 64 (128 * x.2)) = (v, .error x))
        ∧ (∀ v nodes, loadNodes P C table n u 0 = (v, .ok nodes) →
          let edges := loadEdges P C n (base + BitVec.ofNat 64 (fieldAt l 24 8)) (fieldAt l 10 2) v 0
          (∀ w x, edges = (w, .error x) → refused w x.1 0x3FF)
          ∧ (∀ w es, edges = (w, .ok es) →
            let wide (k : Nat) : Prop := 8 < es.countP (fun e => e.prod == k) ∨ 8 < es.countP (fun e => e.cons == k)
            (∀ k < n, wide k → (∀ i < k, ¬ wide i) → refused w cIllegal k)
            ∧ ((∀ k < n, ¬ wide k) → ∀ v x, reserveAll P C nodes (layersOf nodes) w 0 = (v, .error x) → refused v x.1 x.2 ∧ (x.1 = cFirnDesc ∨ x.1 = cFirnNores) ∧ ∃ layer, (layer, x.2) ∈ layersOf nodes)))))
    ∧ (∀ u g, readGraph s P C = (u, .ok g) →
      1 ≤ g.nodes.length ∧ g.nodes.length ≤ 1024 ∧ g.edges.length ≤ 4096
      ∧ (∀ e ∈ g.edges, e.prod < g.nodes.length ∧ e.cons < g.nodes.length ∧ e.prod ≠ e.cons ∧ 1 ≤ e.cap ∧ e.cap ≤ 64)
      ∧ (∀ k < g.nodes.length, g.edges.countP (fun e => e.prod == k) ≤ 8 ∧ g.edges.countP (fun e => e.cons == k) ≤ 8)
      ∧ ∀ nd ∈ g.nodes, 1 ≤ nd.levels.length ∧ nd.levels.length ≤ 6 ∧ 1 ≤ nd.gang ∧ nd.gang ≤ 32 ∧ (∃ e ∈ nd.levels, e.1 ≠ 0)
        ∧ (nd.np = true → 1 ≤ nd.budget ∧ nd.budget ≤ 2 ^ 24) ∧ (nd.np = false → nd.budget = 0)
        ∧ (∀ r ∈ nd.keeps ++ nd.kernel.discards, r.1 % 64 = 0 ∧ r.2 % 64 = 0 ∧ 0 < r.2 ∧ r.1 + r.2 ≤ Config.scratchSize)
        ∧ keepBytes nd ≤ 262144 ∧ (nd.keeps ≠ [] → nd.backing ≠ 0#64) ∧ nd.kernel.addr.toNat % 4 = 0 ∧ (∀ e ∈ nd.kernel.entries, e % 4 = 0)
        ∧ ∀ e ∈ nd.kernel.descs, descOk (parseDesc e.2) = true)

/-- R155 to R157, R275, R276: the checks of one node, in their order: its record, its kernel header, that kernel's descriptors, its Firn descriptor, its backing address; the first that fails gives its cause. -/
def loadsNode (P C : Nat) : Prop :=
  ∀ (s : State) (node : Nat) (va : Word),
    let refused (u : State) (cause : Byte) : Prop := loadNode s P C node va = (u, .error (cause, node))
    (∀ u e, vaRead s (deviceWho P C) va 128 = (u, .error e) → refused u (causeOf e))
    ∧ (∀ u l, vaRead s (deviceWho P C) va 128 = (u, .ok l) →
      let kernel := BitVec.ofNat 64 (fieldAt l 0 8)
      let firn := BitVec.ofNat 64 (fieldAt l 24 8)
      (nodeOk l = false → refused u cIllegal)
      ∧ (nodeOk l = true →
        (∀ v e, vaRead u (deviceWho P C) kernel 128 = (v, .error e) → refused v (causeOf e))
        ∧ (∀ v h, vaRead u (deviceWho P C) kernel 128 = (v, .ok h) →
          (fieldAt h 0 4 ≠ 0x4B454E4C → refused v cIllegal) ∧ (fieldAt h 0 4 = 0x4B454E4C → fieldAt h 4 4 ≠ Config.encid.toNat → refused v cEncMismatch)
          ∧ (∀ e, headerError kernel h = some e → refused v e))
        ∧ (∀ v k, loadKernel u P C node kernel = (v, .ok k) →
          (firn ≠ 0#64 → firn.toNat % 64 ≠ 0 → refused v cFirnDesc)
          ∧ (firn ≠ 0#64 → firn.toNat % 64 = 0 → (∀ w e, vaRead v (deviceWho P C) firn 128 = (w, .error e) → refused w (causeOf e))
            ∧ ∀ w d, vaRead v (deviceWho P C) firn 128 = (w, .ok d) → firnRecord firn d = none → refused w cFirnDesc)
          ∧ ∀ w f, loadFirn v P C node firn = (w, .ok f) →
            ((nodeRecord l).keeps ≠ [] → (nodeRecord l).backing = 0#64 → refused w cIllegal)
            ∧ (((nodeRecord l).keeps = [] ∨ (nodeRecord l).backing ≠ 0#64) → loadNode s P C node va = (w, .ok { nodeRecord l with kernel := k, firn := f })))))

/-! What engine operations move. -/

/-- An operation has left the VQ, and memory is M; nothing else differs (R200). -/
def vqLeaves (s : State) (n j : Nat) (o : Op) (M : Memory) : State := modJob { s with mem := M } n j (fun b => removeOp b .vq o.seq)

/-- An operation of the VQ has done a part, behind which the lanes g of its rows have gone, and memory is M; nothing else differs (R201). -/
def vqParted (s : State) (n j : Nat) (o : Op) (M : Memory) (g : List (Nat × Nat)) (read : List (List Byte)) : State :=
  modJob { s with mem := M } n j (fun b => replaceOp b .vq { o with stage := 1, gone := g, read := read })

/-- R200, R201, R211 to R214, R217, R219: the first operation of the VQ is performed. Whole rows move between scratchpad and rows, byte for byte; vgat and vsct move a lane for each index, 0 for a pad, and INDEX names the first lane that leaves scratchpad; vperm takes lane b[i] mod N of row a; vpart writes the lane numbers whose mask bit is 1, and 0, with pads behind; vtcfg keeps the words of its table. An operation that reads or writes rows may come in parts (log entry 9), each lane of each row in one of them: a lane of a row that it reads is read in its part, a lane of a row that it writes is written in its part. A lane of the row that vgat or vperm writes goes in a part only where the lanes of other rows that it needs have gone, where no lane is left that would be computed from what it holds, and where the check of vgat passes. -/
def VqMoves : Prop :=
  ∀ (s : State) (n : CoreNo) (j : Nat) (o : Op), (coreOf s n.toNat).active = some j → freeHead (jobOf s n.toNat j) .vq (jobOf s n.toNat j).vq = some o →
    let m := n.toNat
    let b := jobOf s m j
    let sp (off len : Nat) : List Byte := memReadN s.mem (coreAt m + off) len
    let row (r : Nat) : List Byte := memReadN s.mem (rowAt m r) 512
    let lane (r w i : Nat) : Nat := leNat (((row r).drop (w * i)).take w)
    let goes (runs : List (Nat × List Byte)) : Prop := ∃ M, exec (.vqOperationPerformed n) s = .next (vqLeaves s m j o M) ∧ writesRuns s.mem M runs
    let at' (r i : Nat) : Nat := (r + i) % 1024
    let queueFits (d : QDesc) (k : Nat) : Prop := qSize d = 512 ∧ k ≤ qCount d ∧ d.base + qCount d * 512 ≤ Config.scratchSize
    let parts := Config.vqParts s.tick
    let gone (r l : Nat) : Bool := o.gone.contains (r, l)
    let laneOf (r x : Nat) : Nat := x / laneW (rowCode b r)
    (o.stage = 0 → parts = false →
      (∀ r off k, o.kind = .vld r off k → k ≤ 64 → off + 512 * k ≤ Config.scratchSize → goes ((List.range k).map (fun i => (rowAt m (at' r i), sp (off + 512 * i) 512))))
      ∧ (∀ r off k, o.kind = .vst r off k → k ≤ 64 → off + 512 * k ≤ Config.scratchSize → goes ((List.range k).map (fun i => (coreAt m + (off + 512 * i), row (at' r i)))))
      ∧ (∀ r q p k, o.kind = .vldq r q p k → k ≤ 8 → queueFits (descOf s m j q) k → goes ((List.range k).map (fun i => (rowAt m (at' r i), sp (qSlot (descOf s m j q) (p + i)) 512))))
      ∧ (∀ r q p k, o.kind = .vstq r q p k → k ≤ 8 → queueFits (descOf s m j q) k → goes ((List.range k).map (fun i => (coreAt m + qSlot (descOf s m j q) (p + i), row (at' r i)))))
      ∧ (∀ d a off w, (w = 2 ∨ w = 4) →
        let idx (i : Nat) : Nat := lane a w i
        let pad (i : Nat) : Prop := idx i = 2 ^ (8 * w) - 1
        let out (i : Nat) : Prop := ¬ pad i ∧ Config.scratchSize < off + w * idx i + w
        let fails (i : Nat) : Prop :=
          exec (.vqOperationPerformed n) s = .next (engineFault (vqLeaves s m j o s.mem) m j .v { cause := cIndex, cmd := o.cmd, status := faultWord cIndex 0 i })
        (o.kind = .vgat d a off w →
          ((∀ i < 512 / w, ¬ out i) → goes [(rowAt m d, (List.range (512 / w)).flatMap (fun i => if idx i = 2 ^ (8 * w) - 1 then zeros w else sp (off + w * idx i) w))])
          ∧ (∀ i < 512 / w, out i → (∀ h < i, ¬ out h) → fails i))
        ∧ (o.kind = .vsct d a off w →
          ((∀ i < 512 / w, ¬ out i) → ∃ M, exec (.vqOperationPerformed n) s = .next (vqLeaves s m j o M)
            ∧ (∀ i < 512 / w, ¬ pad i → (∀ h < 512 / w, i < h → idx h ≠ idx i) → memReadN M (coreAt m + (off + w * idx i)) w = ((row d).drop (w * i)).take w)
            ∧ ∀ x, (∀ i < 512 / w, ¬ pad i → x < coreAt m + (off + w * idx i) ∨ coreAt m + (off + w * idx i) + w ≤ x) → memRead M x = memRead s.mem x)
          ∧ (∀ i < 512 / w, out i → (∀ h < i, ¬ out h) → fails i)))
      ∧ (∀ d a b w, o.kind = .vperm d a b w → (w = 2 ∨ w = 4) → goes [(rowAt m d, (List.range (512 / w)).flatMap (fun i => leBytes w (lane a w (lane b w i % (512 / w)))))]))
    ∧ (o.stage = 0 →
      (∀ h r p p' N mask, o.kind = .vpart h r p p' N mask → (N = 128 ∨ N = 256) →
        let x := qSlot (descOf s m j h) p
        let y := qSlot (descOf s m j (h + 1#5)) p'
        let arm (bit : Bool) : List Byte :=
          let l := (List.range N).filter (fun i => mask.testBit i == bit)
          (l ++ List.replicate (N - l.length) (2 ^ (8 * (512 / N)) - 1)).flatMap (leBytes (512 / N))
        x + 512 ≤ Config.scratchSize → y + 512 ≤ Config.scratchSize → (x + 512 ≤ y ∨ y + 512 ≤ x) → goes [(coreAt m + x, arm true), (coreAt m + y, arm false)])
      ∧ (∀ t off x0 kd hi lo e c, o.kind = .vtcfg t off x0 kd hi lo e c →
        ∃ u, exec (.vqOperationPerformed n) s = .next u ∧ u.mem = s.mem ∧ (jobOf u m j).vq = b.vq.filter (fun p => p.seq != o.seq)
          ∧ tfind (jobOf u m j).tables t = some { kind := kd, hi := oobOf hi, lo := oobOf lo, e := e, x0 := x0, n := c
                                                  words := (List.range (if kd = 0 then c else 3 * c)).map (fun i => leNat (sp (off + 4 * i) 4)) }))
    ∧ (∀ r off k, o.kind = .vld r off k → k ≤ 64 → off + 512 * k ≤ Config.scratchSize →
      let takes (M : Memory) (p : Nat → Nat → Bool) : Prop :=
        (∀ i < k, ∀ x < 512, memRead M (rowAt m (at' r i) + x) = if p (at' r i) (laneOf (at' r i) x) then memRead s.mem (coreAt m + (off + 512 * i) + x) else memRead s.mem (rowAt m (at' r i) + x))
        ∧ ∀ y, (∀ i < k, y < rowAt m (at' r i) ∨ rowAt m (at' r i) + 512 ≤ y) → memRead M y = memRead s.mem y
      let named (q l : Nat) : Prop := (∃ i < k, q = at' r i) ∧ l < 512 / laneW (rowCode b q) ∧ Config.vqLane s.tick q l = true
      (parts = true → 1 ≤ k → ∃ M g, exec (.vqOperationPerformed n) s = .next (vqParted s m j o M g []) ∧ takes M (fun q l => Config.vqLane s.tick q l && !gone q l)
        ∧ ∀ q l, (q, l) ∈ g ↔ gone q l = true ∨ named q l)
      ∧ (o.stage = 1 → parts = false → ∃ M, exec (.vqOperationPerformed n) s = .next (vqLeaves s m j o M) ∧ takes M (fun q l => !gone q l)))
    ∧ (∀ r off k, o.kind = .vst r off k → 1 ≤ k → k ≤ 64 → off + 512 * k ≤ Config.scratchSize →
      let named (q l : Nat) : Prop := (∃ i < k, q = at' r i) ∧ l < 512 / laneW (rowCode b q) ∧ Config.vqLane s.tick q l = true
      let seen (i x : Nat) : Byte := if gone (at' r i) (laneOf (at' r i) x) then (o.read.getD i []).getD x 0#8 else memRead s.mem (rowAt m (at' r i) + x)
      ((o.gone = [] ∧ o.read = []) ∨ (o.read.length = k ∧ ∀ l ∈ o.read, l.length = 512)) →
      (parts = true → ∃ g, exec (.vqOperationPerformed n) s = .next (vqParted s m j o s.mem g ((List.range k).map (fun i => (List.range 512).map (seen i))))
        ∧ ∀ q l, (q, l) ∈ g ↔ gone q l = true ∨ named q l)
      ∧ (o.stage = 1 → parts = false → ∃ M, exec (.vqOperationPerformed n) s = .next (vqLeaves s m j o M)
        ∧ (∀ i < k, ∀ x < 512, memRead M (coreAt m + (off + 512 * i) + x) = seen i x)
        ∧ ∀ y, (y < coreAt m + off ∨ coreAt m + (off + 512 * k) ≤ y) → memRead M y = memRead s.mem y))
    ∧ (∀ d, vqDest o.kind = some d →
      let view := vqView s m j o
      let g := vqPicks s m j o
      let now (l : Nat) : Bool := g.contains (d, l) && !gone d l
      let outside (M : Memory) : Prop := ∀ y, (y < rowAt m d ∨ rowAt m d + 512 ≤ y) → memRead M y = memRead s.mem y
      let seen (r x : Nat) (old : List Byte) : Byte := if gone r (laneOf r x) then old.getD x 0#8 else memRead s.mem (rowAt m r + x)
      let mixed (r : Nat) (old : List Byte) (w i : Nat) : Nat := leNat ((((List.range 512).map (fun x => seen r x old)).drop (w * i)).take w)
      let ends (l : List Byte) : Prop := ∃ M, exec (.vqOperationPerformed n) s = .next (vqLeaves s m j o M) ∧ outside M
        ∧ ∀ x < 512, memRead M (rowAt m d + x) = if gone d (laneOf d x) then memRead s.mem (rowAt m d + x) else l.getD x 0#8
      (∀ l, now l = true → Config.vqLane s.tick d l = true
        ∧ (∀ x ∈ laneNeeds view m j o.kind l, x.1 ≠ d → x ∈ g)
        ∧ ∀ i < 512 / laneW (rowCode b d), (d, l) ∈ laneNeeds view m j o.kind i → (d, i) ∈ g)
      ∧ (∀ u f, parts = true → vqAll view m j o.kind = .ok (u, f) → ∃ M, exec (.vqOperationPerformed n) s = .next (vqParted s m j o M g (vqSeen s m j o)) ∧ outside M
        ∧ ∀ x < 512, memRead M (rowAt m d + x) = if now (laneOf d x) then memRead u.mem (rowAt m d + x) else memRead s.mem (rowAt m d + x))
      ∧ (∀ e, parts = true → vqAll view m j o.kind = .error e → (∀ l, now l = false) ∧ exec (.vqOperationPerformed n) s = .next (vqParted s m j o s.mem g (vqSeen s m j o)))
      ∧ (∀ a b w ra rb, o.stage = 1 → parts = false → o.kind = .vperm d a b w → (w = 2 ∨ w = 4) → o.read = [ra, rb] → ra.length = 512 → rb.length = 512 → (a = b → ra = rb) →
        ends ((List.range (512 / w)).flatMap (fun i => leBytes w (mixed a ra w (mixed b rb w i % (512 / w))))))
      ∧ (∀ a off w ra, o.stage = 1 → parts = false → o.kind = .vgat d a off w → (w = 2 ∨ w = 4) → o.read = [ra] → ra.length = 512 →
        let idx (i : Nat) : Nat := mixed a ra w i
        let out (i : Nat) : Prop := idx i ≠ 2 ^ (8 * w) - 1 ∧ Config.scratchSize < off + w * idx i + w
        ((∀ i < 512 / w, ¬ out i) → ends ((List.range (512 / w)).flatMap (fun i => if idx i = 2 ^ (8 * w) - 1 then zeros w else sp (off + w * idx i) w)))
        ∧ (∀ i < 512 / w, out i → (∀ h < i, ¬ out h) →
          exec (.vqOperationPerformed n) s = .next (engineFault (vqLeaves s m j o s.mem) m j .v { cause := cIndex, cmd := o.cmd, status := faultWord cIndex 0 i }))))

/-- R224 to R228, R232, R234: the first operation of the AQ, which has travelled, is performed element by element from those it has done: st i is the state before element i. Element i of astrm and astro is pattern element start + i mod P at its address of R225; agath and ascat go by index i of the index queue, a pad reading zeros and writing nothing; awin reads the tap of its slot, or the pad value outside the image. A first index at or past the bound suspends the job. -/
def AqMoves : Prop :=
  ∀ (s : State) (n : CoreNo) (j : Nat) (o : Op), (coreOf s n.toNat).active = some j → clearA s n.toNat j = some o →
    arrived s n.toNat j (jobVia s n.toNat j .aq .a) o = true →
    let m := n.toNat
    let goes (k : Nat) (step : Nat → State → State → Prop) : Prop :=
      ∀ st : Nat → State, o.done ≤ k → st o.done = s → (∀ i, o.done ≤ i → i < k → step i (st i) (st (i + 1))) →
        exec (.aqOperationPerformed n) s = .next (modJob (st k) m j (fun b => removeOp b .aq o.seq))
    let aligned (lge : Nat) (a : Int) : Prop := a % ((min (2 ^ lge) 64 : Nat) : Int) = 0
    let fills (q : Handle) (p : Nat) (l : List Byte) (t u : State) : Prop := u = { t with mem := memWrite t.mem (coreAt m + qSlot (descOf t m j q) p) l }
    let slot (t : State) (q : Handle) (p k : Nat) : List Byte := memReadN t.mem (coreAt m + qSlot (descOf t m j q) p) k
    let reads (sp : Space) (lge : Nat) (a : Int) (k : Nat) (q : Handle) (p : Nat) (t u : State) : Prop :=
      aligned lge a ∧ ∃ v l, spaceRead t (jobVia t m j .aq .a) sp a k = (v, .ok l) ∧ fills q p l v u
    let writes (sp : Space) (lge : Nat) (a : Int) (l : List Byte) (t u : State) : Prop := aligned lge a ∧ spaceWrite t (jobVia t m j .aq .a) sp a l = (u, .ok ())
    (∀ q p pn pt start k, o.kind = .astrm q p pn pt start k → goes k (fun i t u => reads pt.space pt.lge (patAddr pt ((start + i) % patElems pt)) (2 ^ pt.lge) q (p + i) t u))
    ∧ (∀ q p pn pt start k, o.kind = .astro q p pn pt start k → goes k (fun i t u => writes pt.space pt.lge (patAddr pt ((start + i) % patElems pt)) (slot t q (p + i) (2 ^ pt.lge)) t u))
    ∧ (∀ q qi p pi pn pt start k, o.kind = .agath q qi p pi pn pt start k → goes k (fun i t u =>
        let x := leNat (slot t qi (pi + i) 4)
        (x = 0xFFFFFFFF ∧ fills q (p + i) (zeros (2 ^ pt.lge)) t u)
        ∨ (x ≠ 0xFFFFFFFF ∧ x < patBound pt ∧ reads pt.space pt.lge ((pt.base.toNat + x * 2 ^ pt.lge : Nat) : Int) (2 ^ pt.lge) q (p + i) t u)))
    ∧ (∀ q qi p pi pn pt start k, o.kind = .ascat q qi p pi pn pt start k → goes k (fun i t u =>
        let x := leNat (slot t qi (pi + i) 4)
        (x = 0xFFFFFFFF ∧ u = t)
        ∨ (x ≠ 0xFFFFFFFF ∧ x < patBound pt ∧ writes pt.space pt.lge ((pt.base.toNat + x * 2 ^ pt.lge : Nat) : Int) (slot t q (p + i) (2 ^ pt.lge)) t u)))
    ∧ (∀ q p w start k, o.kind = .awin q p w start k → goes k (fun i t u =>
        let c := (start + i) % winSlots w
        let tap := c / (winOH w * winOW w)
        let pos := c % (winOH w * winOW w)
        let iy : Int := ((pos / winOW w * w.sh : Nat) : Int) - w.pt + (((16 * (w.pass / winPW w) + tap / winTw w) * w.dh : Nat) : Int)
        let ix : Int := ((pos % winOW w * w.sw : Nat) : Int) - w.pl + (((16 * (w.pass % winPW w) + tap % winTw w) * w.dw : Nat) : Int)
        let inside : Prop := 0 ≤ iy ∧ iy < w.h ∧ 0 ≤ ix ∧ ix < w.w
        (inside ∧ reads w.space w.lge (w.base.toNat + iy * w.pitch + ix * ((w.c * 2 ^ w.lge : Nat) : Int)) (w.c * 2 ^ w.lge) q (p + i) t u)
        ∨ (¬ inside ∧ fills q (p + i) ((List.range w.c).flatMap (fun _ => w.pad)) t u)))
    ∧ (∀ q qi p pi pn pt start k, (o.kind = .agath q qi p pi pn pt start k ∨ o.kind = .ascat q qi p pi pn pt start k) → o.done < k → (jobOf s m j).killed = false →
        let x := leNat (slot s qi (pi + o.done) 4)
        x ≠ 0xFFFFFFFF → patBound pt ≤ x → exec (.aqOperationPerformed n) s = .next (suspendJob s m j o cIndex o.done (BitVec.ofNat 64 x)))

/-- R72, R74, R75, R88, R99, R224, R225: what an engine's access of a space moves. Own scratchpad and own vault are read and written byte for byte; a virtual range within a page of HBM is read and written at the physical bytes that the page gives it, after the walk that takes; a range that leaves its space raises XLAT_PERM. A bank-side operation reads a vault word, writes the new one and gives the old. -/
def SpaceMoves : Prop :=
  ∀ (s : State) (v : Via) (len : Nat) (l : List Byte), l.length = len → 1 ≤ len →
    (∀ (sp : Space) (a : Int), (a < 0 ∨ (spaceSize sp : Int) < a + len) →
      let e : VErr := .fault cXlatPerm false (if sp = .va then BitVec.ofInt 64 a else 0#64)
      spaceRead s v sp a len = (s, .error e) ∧ spaceWrite s v sp a l = (s, .error e))
    ∧ (∀ a : Nat, a + len ≤ Config.scratchSize →
      spaceRead s v .scratch a len = (s, .ok (memReadN s.mem (coreAt v.n + a) len))
      ∧ ∃ u, spaceWrite s v .scratch a l = (u, .ok ()) ∧ u = { s with mem := u.mem } ∧ writesRuns s.mem u.mem [(coreAt v.n + a, l)])
    ∧ (∀ a : Nat, a + len ≤ Config.vaultSize → v.n < 256 → s.vaultReady = true → (coreOf s v.n).power = .c0 → plainAt s (vaultAt v.n + a) len 0 →
      spaceRead s v .vault a len = (s, .ok (memReadN s.mem (vaultAt v.n + a) len))
      ∧ ∃ u, spaceWrite s v .vault a l = (u, .ok ()) ∧ writesRuns s.mem u.mem [(vaultAt v.n + a, l)])
    ∧ (∀ (a pa key : Nat), a % 0x10000 + len ≤ 0x10000 → a + len ≤ 2 ^ 56 → blockedPage s v (BitVec.ofNat 64 a) len = none → region pa = .hbm → plainAt s pa len key →
      (translate s v.who.p v.who.c v.who.core (BitVec.ofNat 64 a) .read v.who.user = .ok pa key → spaceRead s v .va a len = (walked s v.who (BitVec.ofNat 64 a), .ok (memReadN s.mem pa len)))
      ∧ (translate s v.who.p v.who.c v.who.core (BitVec.ofNat 64 a) .write v.who.user = .ok pa key →
        ∃ u, spaceWrite s v .va a l = (u, .ok ()) ∧ writesRuns s.mem u.mem [(pa, l)]))
    ∧ (∀ (p pa c off : Nat) (op : VaultOp) (x y : BitVec 32), region pa = .vault c off → off + 4 ≤ Config.vaultSize → s.vaultReady = true → (coreOf s c).power = .c0 → plainAt s pa 4 0 →
      let w := BitVec.ofNat 32 (leNat (memReadN s.mem pa 4))
      let w' : BitVec 32 := match op with
        | .radd => w + x
        | .fadd => BitVec.ofNat 32 (addF fmtF32 w.toNat x.toNat).1
        | .max => if w.toInt < x.toInt then x else w
        | .cas => if w = x then y else w
        | .sac => BitVec.ofNat 32 (fmaF fmtF32 x.toNat w.toNat y.toNat).1
      ∃ u, bankApply s p pa op x y = (u, .ok w) ∧ writesRuns s.mem u.mem [(pa, leBytes 4 w'.toNat)])

/-- R235 to R239, R241 to R243: the first command of a copy queue, which has travelled, is performed unit by unit from those it has done: st i is the state before unit i. A copy moves its rows in 64-byte units from source to destination, xcp2 and xcp3 row by row of their shape; xcvt converts element by element, each with the next draw of its generator, and its flags go to FFLAGS when the command is performed (the model's reading, log entry 31); xvop applies its operation to word after word, an exchange giving the old word back to its source; xmcast writes each 64-byte unit into every core of its die that its masks name. -/
def CopyMoves : Prop :=
  ∀ (s : State) (n : CoreNo) (j : Nat) (x : XQueue) (o : Op) (c : Copy) (ar : Option Armed) (fo : List (Follow × BitVec 32)), (coreOf s n.toNat).active = some j →
    let m := n.toNat
    let q : Queue := match x with | .xvq => .xvq | .xhq => .xhq
    copyHead s m j q = some o → o.intake = none → (x = .xhq → intakeHead s m = none) → o.kind = .copy c ar fo →
    let v := jobVia s m j q .x
    let g : Agent := .stream m j .x
    let goes (k : Nat) (fl : (Nat → State) → BitVec 5 → Prop) (step : Nat → State → State → Prop) : Prop :=
      ∀ (st : Nat → State) (f : BitVec 5), o.done ≤ k → st o.done = s → (∀ i, o.done ≤ i → i < k → step i (st i) (st (i + 1))) → fl st f →
        exec (.copyCommandPerformed n x) s = .next (copyEnd s m j q v o (.done (setFlags (st k) g f)))
    let moves (a b : Int) (k : Nat) (t u : State) : Prop := ∃ w l, spaceRead t v c.ss a k = (w, .ok l) ∧ spaceWrite w v c.ds b l = (u, .ok ())
    let units := (c.len + 63) / 64
    let same (_ : Nat → State) (f : BitVec 5) : Prop := f = c.fl
    ((c.form = .cpy ∨ c.form = .rem) → c.shape = [] →
      goes units same (fun i t u => moves (c.src.toNat + 64 * i) (c.dst.toNat + 64 * i) (min 64 (c.len - 64 * i)) t u))
    ∧ ((c.form = .cp2 ∨ c.form = .cp3) → ∀ (n1 n2 : Nat) (s1 d1 s2 d2 : Int), c.shape = [(c.len : Int), (n1 : Int), (n2 : Int), s1, d1, s2, d2] → 1 ≤ n1 → 1 ≤ c.len →
      goes (n1 * n2 * units) same (fun i t u =>
        let r := i / units
        let k := i % units
        moves (c.src.toNat + ((r / n1 : Nat) : Int) * s2 + ((r % n1 : Nat) : Int) * s1 + 64 * k) (c.dst.toNat + ((r / n1 : Nat) : Int) * d2 + ((r % n1 : Nat) : Int) * d1 + 64 * k) (min 64 (c.len - 64 * k)) t u))
    ∧ (c.form = .cvt → ∀ (seed : Nat → BitVec 32) (fs : Nat → BitVec 5), seed o.done = c.seed → (∀ i, seed (i + 1) = seed i * 1664525#32 + 1013904223#32) → fs o.done = c.fl →
      goes c.len (fun _ f => f = fs c.len) (fun i t u =>
        let a := c.src.toNat + cvtSize c.st * i
        let b := c.dst.toNat + cvtSize c.dt * i
        a % cvtSize c.st = 0 ∧ b % cvtSize c.dt = 0 ∧ ∃ w l, spaceRead t v c.ss a (cvtSize c.st) = (w, .ok l)
          ∧ (let y := cvtFF (fmtOf c.st) (fmtOf c.dt) (if c.sr then .sr (seed (i + 1)).toNat else modeOf c.rm) c.sat (leNat l)
            spaceWrite w v c.ds b (leBytes (cvtSize c.dt) y.1) = (u, .ok ()) ∧ fs (i + 1) = fs i ||| y.2)))
    ∧ (c.form = .vop →
      let size := if c.vop = .cas then 8 else 4
      goes c.len same (fun i t u =>
        let a := c.src.toNat + size * i
        let b := c.dst.toNat + 4 * i
        a % 4 = 0 ∧ b % 4 = 0 ∧ ∃ w l y pa r old, spaceRead t v .scratch a size = (w, .ok l)
          ∧ (c.ds = .va → vopPlace w v c b = (y, .ok pa)) ∧ (c.ds ≠ .va → b + 4 ≤ spaceSize c.ds ∧ y = w ∧ pa = vaultAt m + b)
          ∧ (let e := BitVec.ofNat 32 (leNat (l.take 4))
            bankApply y v.who.p pa c.vop (if c.vop = .sac then c.seed else e) (if c.vop = .sac then e else BitVec.ofNat 32 (leNat ((l.drop 4).take 4))) = (r, .ok old))
          ∧ u = if c.vop = .cas then { r with mem := memWrite r.mem (coreAt m + a) (leBytes 4 old.toNat) } else r))
    ∧ (c.form = .mcast → c.src.toNat % 64 = 0 → c.dst.toNat % 64 = 0 → c.len % 64 = 0 → c.dst.toNat + c.len ≤ Config.scratchSize →
      goes units same (fun i t u => notHbm t v.who (c.src + BitVec.ofNat 64 (64 * i)) = false ∧ ∃ w l, spaceRead t v .va (c.src.toNat + 64 * i) 64 = (w, .ok l)
        ∧ u = (mcastCores m c.rows c.cols).foldl (fun t k => { t with mem := memWrite t.mem (coreAt k + (c.dst.toNat + 64 * i)) l }) w))
    ∧ (∀ k, k ∈ mcastCores m c.rows c.cols ↔ k / 128 = m / 128 ∧ c.rows.testBit (k % 128 / 16) = true ∧ c.cols.testBit (k % 16) = true)

/-- R100, R114, R235, R240, R242 to R245, R322: what a performed copy leaves, and remote stores. The command leaves its queue; m is kept for xwait; an interrupt sets its PEND bit; a decrement acts on the task it names; an arrival adds the bytes written to its barrier, which is then tested; a completion record goes to the first free slot of its queue, index, m and zeros, and TAIL moves on, once no earlier copy has still to read that slot. A remote store leaves through a port that is up, once no earlier parked copy has still to read what it does, and fails with DATA_UE at one that is down or with XLAT_PERM at the first unit past the end of scratchpad; its acknowledgement performs it, or carries the destination's cause. -/
def CopyEnds : Prop :=
  (∀ (s : State) (m j : Nat) (q : Queue) (v : Via) (o : Op) (c : Copy) (ar : Option Armed) (fo : List (Follow × BitVec 32)) (k : Nat), o.kind = .copy c ar fo → (q = .xvq ∨ q = .xhq) →
    let u := copyDone s m j q v o k
    let b := jobOf s m j
    let y := jobOf u m j
    (ar = none → u.mem = s.mem ∧ queueOf y q = (queueOf b q).filter (fun p => p.seq != o.seq) ∧ y.streams.x.maxM = max b.streams.x.maxM k)
    ∧ (∀ r, ar = some r → r.record = none → r.act = .interrupt → y.pend = b.pend ||| BitVec.ofNat 8 (2 ^ (r.operand.toNat % 8)) ∧ u.mem = s.mem)
    ∧ (∀ r t, ar = some r → r.record = none → r.act = .decrement → namedTask s v.who.p v.who.c r.operand = some t →
        (ctxOf u v.who.p v.who.c).launch = (ctxOf s v.who.p v.who.c).launch.map (fun la => decTask la t) ∧ u.mem = s.mem)
    ∧ (∀ r, ar = some r → r.record = none → r.act = .arrival → (c.form = .rem → c.pkg = Config.pkgid.toNat) →
      let bytes : Nat := match c.form with
        | .cvt => c.len * cvtSize c.dt
        | .vop => 4 * c.len
        | .cp2 | .cp3 => (c.shape.getD 1 0).toNat * (c.shape.getD 2 0).toNat * c.len
        | _ => c.len
      let a := r.operand.toNat / 16 % 256
      let i := v.who.c * 16 + r.operand.toNat % 16
      let x := tget {} (coreOf s a).txb i
      let w : TxBarrier := { x with arr := x.arr + BitVec.ofNat 48 bytes }
      u.mem = s.mem ∧ (∀ k, k ≠ i → tget {} (coreOf u a).txb k = tget {} (coreOf s a).txb k)
      ∧ (x.armed = true ∧ x.exp.toNat ≤ w.arr.toNat → tget {} (coreOf u a).txb i = { ph := x.ph + 1#32, arr := w.arr - x.exp, exp := 0#48, armed := false })
      ∧ (¬ (x.armed = true ∧ x.exp.toNat ≤ w.arr.toNat) → tget {} (coreOf u a).txb i = w)))
  ∧ (∀ (s : State) (n : CoreNo) (j : Nat), (coreOf s n.toNat).active = some j →
    let m := n.toNat
    let b := jobOf s m j
    let bars (o : Op) (h : Handle) : Prop := qFree (descOf s m j h) = 0 ∨ overwrites s m j (unread b) o = true
    (∀ l r o h i k, b.xvq ++ b.xhq = l ++ o :: r → o.kind = .record h i k → (∀ p ∈ l, ∀ g a z, p.kind = .record g a z → bars p g) → ¬ bars o h →
      let d := descOf s m j h
      let at' := coreAt m + qSlot d d.tail
      8 ≤ qSize d → qSlot d d.tail + qSize d ≤ Config.scratchSize →
        ∃ M, exec (.completionRecord n) s = .next (modJob (setTail { s with mem := M } m j h ((d.tail + 1) % (2 * qCount d))) m j (fun b => removeOp (removeOp b .xvq o.seq) .xhq o.seq))
          ∧ writesRuns s.mem M [(at', leBytes 4 i.toNat ++ leBytes 4 k ++ zeros (qSize d - 8))])
    ∧ ((∀ o ∈ b.xvq ++ b.xhq, ∀ h i k, o.kind = .record h i k → bars o h) → exec (.completionRecord n) s = .next s)
    ∧ (∀ o, copyHead s m j .xhq = none → intakeHead s m = none → nextRemote b = some o → passesReads s m j .xhq o = true → exec (.copyCommandPerformed n .xhq) s = .next s)
    ∧ (∀ o c ar fo, copyHead s m j .xhq = none → intakeHead s m = none → nextRemote b = some o → passesReads s m j .xhq o = false → o.kind = .copy c ar fo → c.form = .rem → c.shape = [] →
      let outside (i : Nat) : Prop := Config.scratchSize < c.src.toNat + 64 * i + min 64 (c.len - 64 * i)
      let fails (cause : Byte) (i : Nat) (a : Word) : Prop :=
        exec (.copyCommandPerformed n .xhq) s = .next (copyFails s m j .xhq o { cause := cause, cmd := o.cmd, status := unitWord cause 0 i, faddr := a })
      ((∀ i < (c.len + 63) / 64, ¬ outside i) → portUp s c.pkg = true → exec (.copyCommandPerformed n .xhq) s = .next (modJob s m j (fun b => replaceOp b .xhq { o with stage := 1 })))
      ∧ ((∀ i < (c.len + 63) / 64, ¬ outside i) → portUp s c.pkg = false → fails cDataUe 0 c.dst)
      ∧ (∀ i < (c.len + 63) / 64, outside i → (∀ h < i, ¬ outside h) → fails cXlatPerm i 0#64))
    ∧ (∀ o c ar fo, b.xhq.find? (fun o => isRemote o && o.stage == 1) = some o → o.kind = .copy c ar fo →
      exec (.remoteStoreAck n 0#8) s = .next (copyDone s m j .xhq (copyVia s m j .xhq o) o 0)
      ∧ (∀ cause ∈ [cXlatMiss, cXlatPerm, cDataUe], let i := Config.remoteUnit s.tick % ((c.len + 63) / 64)
          exec (.remoteStoreAck n cause) s = .next (copyFails s m j .xhq o { cause := cause, cmd := o.cmd, status := unitWord cause 0 i, faddr := c.dst + BitVec.ofNat 64 (64 * i) })))
    ∧ (∀ cause, b.xhq.find? (fun o => isRemote o && o.stage == 1) = none → exec (.remoteStoreAck n cause) s = .next s))

/-- R130, R131, R254 to R261, R264, R265, R267: the operation at the head of the MQ, which no fence holds. It starts, a product once its header slot is filled, whose bytes it keeps; each K step, once its slots are filled, keeps a sparse product's entry; then it is performed. When a gathered A is read is the model's reading of log entry 28. mclr writes 128 rows of zeros. mtrn writes lane i of row r of the source to lane r of row i. A product adds to element (i, c) of its band the sum over k of A[i][k] × B[k][c], exact in i32 with wrap-around or by R131 in f32; a column past the header's count, and a k that sparse metadata does not keep, is 0. -/
def MqMoves : Prop :=
  ∀ (s : State) (n : CoreNo) (j : Nat) (o : Op) (rest : List Op), (coreOf s n.toNat).active = some j → (jobOf s n.toNat j).mq = o :: rest → heldByFence (jobOf s n.toNat j) .mq o = false →
    let m := n.toNat
    let starts (u : State) : Prop := exec (.mqOperationStart n) s = .next u
    let ends (flw : Bool) (runs : List (Nat × List Byte)) : Prop := ∃ M, exec (.mqOperationPerformed n) s = .next (mqDone { s with mem := M } m j o flw none) ∧ writesRuns s.mem M runs
    (o.stage = 0 → (∀ form acc qa qb qm sl w flw rows, o.kind ≠ .product form acc qa qb qm sl w flw rows) → starts (mqMod s m j (fun o => { o with stage := 1 })))
    ∧ (∀ w, o.kind = .mcfg w → 1 ≤ o.stage → exec (.mqOperationPerformed n) s = .next (mqDone s m j o false none))
    ∧ (∀ t flw, o.kind = .mclr t flw → 1 ≤ o.stage → t < 8 → ends flw [(rowAt m (128 * t), zeros 65536)])
    ∧ (∀ d src, o.kind = .mtrn d src → 1 ≤ o.stage → d < 8 → src < 8 → ends false ((List.range 128).map (fun i =>
        (rowAt m (128 * d + i), (List.range 128).flatMap (fun r => memReadN s.mem (rowAt m (128 * src + r) + 4 * i) 4)))))
    ∧ (∀ form acc qa qb qm pa pb pm w flw rows, o.kind = .product form acc qa qb qm [pa, pb, pm] w flw rows →
      let da := descOf s m j qa
      let db := descOf s m j qb
      let dm := descOf s m j qm
      let S := stepSize (cfgA w)
      let h := readHeader o.read
      (o.stage = 0 →
        (filledFrom dm pm = 0 → starts s)
        ∧ (1 ≤ filledFrom dm pm → ∀ e, startChecks s m j form qb qm pm w = some e → starts (mqDone s m j o flw (some e)))
        ∧ (1 ≤ filledFrom dm pm → startChecks s m j form qb qm pm w = none →
          let go (rows : List (List Nat)) : Prop := starts (mqMod s m j (fun _ => { o with
            kind := .product form acc qa qb qm [pa, pb, pm] w flw rows, stage := 1, read := [memReadN s.mem (coreAt m + qSlot dm pm) 16] }))
          ((isGather form = false ∨ rows ≠ [] ∨ filledFrom da pa < 8) → go rows)
          ∧ (isGather form = true → rows = [] → 8 ≤ filledFrom da pa → (∀ r, gatherRows s m w da pa = .ok r → go r) ∧ ∀ e, gatherRows s m w da pa = .error e → starts (mqDone s m j o flw (some e)))))
      ∧ (1 ≤ o.stage → o.stage ≤ kSteps w → (isGather form = false ∨ rows ≠ []) →
        let i := o.stage - 1
        let up := min (o.stage * (S / 16)) (kBlocks w)
        let ready : Prop := (if isGather form then 8 else up) ≤ filledFrom da pa ∧ up ≤ filledFrom db pb ∧ (isSparse form = true → 1 + o.stage * entrySlots h S dm.lgs ≤ filledFrom dm pm)
        let entry := ((List.range (ceilDiv (entryBytes h S) (qSize dm))).flatMap (fun t => memReadN s.mem (coreAt m + qSlot dm (pm + 1 + i * entrySlots h S dm.lgs + t)) (qSize dm))).take (entryBytes h S)
        (¬ ready → exec (.matrixStep n) s = .next s)
        ∧ (ready → isSparse form = false → exec (.matrixStep n) s = .next (mqMod s m j (fun _ => { o with stage := o.stage + 1 })))
        ∧ (ready → isSparse form = true → (orderFault h S i entry = none → exec (.matrixStep n) s = .next (mqMod s m j (fun _ => { o with stage := o.stage + 1, read := o.read ++ [entry] })))
          ∧ ∀ e, orderFault h S i entry = some e → exec (.matrixStep n) s = .next (mqDone s m j o flw (some e))))
      ∧ (kSteps w < o.stage →
        let entries := o.read.drop 1
        let K := cfgK w
        let ea := inSize (cfgA w)
        let eb := inSize (cfgB w)
        let slotA (b : Nat) : List Byte := memReadN s.mem (coreAt m + qSlot da (pa + b)) (qSize da)
        let slotB (b : Nat) : List Byte := memReadN s.mem (coreAt m + qSlot db (pb + b)) (qSize db)
        let A (i k : Nat) : Nat := if isGather form then (rows.getD i []).getD k 0 else fieldAt (slotA (k / 16)) ((i * 16 + k % 16) * ea) ea
        let place (per p c : Nat) : Nat := if h.flags / 4 % 2 = 0 then (p * 128 + c) * eb else (c * per + p) * eb
        let B (k c : Nat) : Nat :=
          if h.ce ≤ c then 0
          else if isSparse form then
            let g := k / h.m * h.m
            match (groupIndices h S (entries.getD (g / S) []) c (g % S / 64) (g % 64 / h.m)).idxOf? (k % h.m) with
            | some t => fieldAt (slotB (g / 16)) (place (16 * h.n / h.m) (g % 16 / h.m * h.n + t) c) eb
            | none => 0
          else fieldAt (slotB (k / 16)) (place 16 (k % 16) c) eb
        let row (i : Nat) : Nat := 128 * acc + 8 * cfgBand w + i
        let old (i c : Nat) : Nat := leNat (memReadN s.mem (rowAt m (row i) + 4 * c) 4)
        let elem (i c : Nat) : Nat × BitVec 5 :=
          if cfgA w = 7 then (ofInt 32 (toInt 32 (old i c) + ((List.range K).map (fun k => toInt 8 (A i k) * toInt 8 (B k c))).sum), 0#5)
          else dotF (old i c) ((List.range K).map (fun k => (fDec (fmtOf (cfgA w)) (A i k), fDec (fmtOf (cfgB w)) (B k c))))
        acc < 8 → (isGather form = true → rows.length = 8 ∧ ∀ l ∈ rows, l.length = K) → (isSparse form = true → (h.m = 2 ∨ h.m = 4 ∨ h.m = 8 ∨ h.m = 16) ∧ K % h.m = 0) →
        (isSparse form = true → (crc32c 0#32 entries.flatten).toNat ≠ h.crc → exec (.mqOperationPerformed n) s = .next (mqDone s m j o flw (some (cMdCrc, 0, h.ce * (h.k / h.m)))))
        ∧ ((isSparse form = true → (crc32c 0#32 entries.flatten).toNat = h.crc) →
          ∃ M f, exec (.mqOperationPerformed n) s = .next (setFlags (mqDone { s with mem := M } m j o flw none) (.stream m j .m) f)
            ∧ (∀ b, f.getLsbD b = true ↔ ∃ i < 8, ∃ c < 128, (elem i c).2.getLsbD b = true)
            ∧ writesRuns s.mem M ((List.range 8).map (fun i => (rowAt m (row i), (List.range 128).flatMap (fun c => leBytes 4 (elem i c).1)))))))

/-! What operations of the C stream do when they are performed. -/

/-- R17, R77, R99, R101, R107, R180, R183, R189: accesses of the C stream performed on storage that reads as it was written. A store changes exactly its bytes, in HBM or in the scratchpad of a core window; one that an error strikes on the mesh or the seam fails with DATA_UE (log entry 12). A load that misses in L1, with no earlier store in the SQ, gives the bytes of home, extended. An atomic reads its word, writes the new one and gives the old; a vault word goes to its bank and gives the old word. A value that arrives is written to its register unless a later write has overtaken it. -/
def MemMoves : Prop :=
  (∀ (s : State) (n j : Nat) (o : Op) (va : Word) (pa key k v : Nat) (direct : Bool), o.kind = .store va pa key k v → 1 ≤ k → (∀ e ∈ s.cores, e.2.owned = []) →
    ((region pa = .hbm ∧ plainAt s pa k key) ∨ ∃ c off, region pa = .core c off ∧ off + k ≤ Config.scratchSize) →
      Config.transitError s.tick = false → ∃ t, sqPerform s n j o direct = .done t ∧ writesRuns s.mem t.mem [(pa, leBytes k v)])
  ∧ (∀ (s : State) (n j : Nat) (o : Op) (va : Word) (pa key k v : Nat) (direct : Bool), o.kind = .store va pa key k v → (region pa = .hbm → ∀ r ∈ (coreOf s n).owned, pa / 128 * 128 ∉ r.lines) → Config.transitError s.tick = true →
      sqPerform s n j o direct = .fault s { cause := cDataUe, cmd := o.cmd, faddr := va })
  ∧ (∀ (s : State) (n j : Nat) (o : Op) (va : Word) (pa key k d : Nat) (signed : Bool), o.kind = .load va pa key k signed d → region pa = .hbm → pa % 128 + k ≤ 128 → 1 ≤ k →
    plainAt s (pa / 128 * 128) 128 key → (coreOf s n).l1.find? (fun x => x.addr == pa / 128 * 128) = none → (∀ p ∈ (jobOf s n j).sq, p.seq < o.seq → ∀ va' pa' key' k' v, p.kind ≠ .store va' pa' key' k' v) →
      let w : Word := BitVec.ofNat 64 (leNat (memReadN s.mem pa k))
      let x : Word := if signed then (BitVec.ofNat (8 * k) w.toNat).signExtend 64 else w
      (Config.transitError s.tick = false → ∃ t, loadPerform s n j o true = arrive t (.stream n j .c) d o.seq x)
      ∧ (Config.transitError s.tick = true → ∃ t, loadPerform s n j o true = cFault t n j o cDataUe false va)
      ∧ ∃ t h, loadPerform s n j o false = deliver t n j o d x false false h (Config.transitError s.tick) va)
  ∧ (∀ (s : State) (n j : Nat) (o : Op) (op : BitVec 4) (wd : Width) (ord : Order) (va : Word) (pa key d : Nat) (v c : Word) (direct : Bool), o.kind = .atomic op wd ord va pa key d v c →
    let k := match wd with | .w => 4 | .d => 8
    region pa = .hbm → plainAt s pa k key →
      let x := leNat (memReadN s.mem pa k)
      ∃ t, sqPerform s n j o direct = .done (deliver t n j o d (BitVec.ofNat 64 x) direct false false (accessStruck s n pa true) va)
        ∧ writesRuns s.mem t.mem [(pa, leBytes k (amoWord op.toNat (8 * k) x (v.toNat % 2 ^ (8 * k)) (c.toNat % 2 ^ (8 * k))))])
  ∧ (∀ (s u : State) (n j : Nat) (o : Op) (op : VaultOp) (va : Word) (pa d : Nat) (x y old : BitVec 32) (direct : Bool), o.kind = .vaultWord op va pa d x y →
    bankApply s (jobOf s n j).part pa op x y = (u, .ok old) → sqPerform s n j o direct = .done (deliver u n j o d (old.setWidth 64) direct true false (Config.transitError u.tick) va))
  ∧ (∀ (s : State) (n j : Nat) (t : Sid) (d : Reg) (op : Nat) (v : Word), d ≠ 0#6 →
    let g : Agent := .stream n j t
    (tfind (streamOf s g).due (regPlace s g d) = some op → reg (arrive s g (regPlace s g d) op v) g d = v ∧ ∀ r, r ≠ d → reg (arrive s g (regPlace s g d) op v) g r = reg s g r)
    ∧ (tfind (streamOf s g).due (regPlace s g d) ≠ some op → arrive s g (regPlace s g d) op v = s))

/-- The operations of the SQ that answer a status: operation o leaves the queue with the state t, and its value w goes to register place d (R101). -/
def sqGives (s : State) (n j : Nat) (o : Op) (t : State) (d : Nat) (w : Word) : Prop :=
  ∀ direct, sqPerform s n j o direct = .done (arrive t (.stream n j .c) d o.seq w)

/-- R78, R182: own registers a range, or answers -1 (64 ranges), -2 (alignment or length), -3 (a page that is not HBM with RD and W) or -4 (overlap), the last two after the walks of its pages, tested in the order of log entry 78; a range whose walks an error strikes has no translation, -3 (the model's choice, log entry 12); a range is known by its VA and its translated lines (log entry 50); disown ends the ranges that begin at its address, or answers -1. -/
def OwnMoves : Prop :=
  ∀ (s : State) (n j : Nat) (o : Op) (va sz : Word) (d : Nat),
    let b := jobOf s n j
    let k := coreOf s n
    let len := sz.toNat
    let shape : Prop := va.toNat % 128 = 0 ∧ len % 128 = 0 ∧ 128 ≤ len ∧ len ≤ 2 ^ 20
    let line (i pa : Nat) : Prop := region pa = .hbm ∧ (∃ x, translate s b.part b.ctx (some n) (va + BitVec.ofNat 64 (128 * i)) .read false = .ok pa x)
      ∧ ∃ q x, translate s b.part b.ctx (some n) (va + BitVec.ofNat 64 (128 * i)) .write false = .ok q x ∨ translate s b.part b.ctx (some n) (va + BitVec.ofNat 64 (128 * i)) .write false = .wpw q x
    let w := walkedRange s (jobWho b n) va len
    let meets (lines : List Nat) (r : OwnRange) : Prop := (r.va.toNat < va.toNat + len ∧ va.toNat < r.va.toNat + r.len) ∨ ∃ a ∈ r.lines, a ∈ lines
    (o.kind = .own va sz d →
      (64 ≤ k.owned.length → sqGives s n j o s d (-1#64))
      ∧ (k.owned.length < 64 → ¬ shape → sqGives s n j o s d (-2#64))
      ∧ (ownStruck s n b va sz = true → sqGives s n j o s d (-3#64))
      ∧ (k.owned.length < 64 → shape → ownStruck s n b va sz = false → (∃ i < len / 128, ∀ pa, ¬ line i pa) → sqGives s n j o w d (-3#64))
      ∧ (∀ lines, k.owned.length < 64 → shape → ownStruck s n b va sz = false → lines.length = len / 128 → (∀ i < len / 128, line i (lines.getD i 0)) →
        ((∃ r ∈ k.owned, meets lines r) → sqGives s n j o w d (-4#64))
        ∧ ((∀ r ∈ k.owned, ¬ meets lines r) → ∃ t, sqGives s n j o t d 0#64 ∧ (coreOf t n).owned = (coreOf w n).owned ++ [{ owner := (b.ctx, b.task), va := va, len := len, lines := lines }])))
    ∧ (o.kind = .disown va d →
      ((∀ r ∈ k.owned, r.va ≠ va) → sqGives s n j o s d (-1#64))
      ∧ ((∃ r ∈ k.owned, r.va = va) → ∃ t, sqGives s n j o t d 0#64 ∧ (coreOf t n).owned = k.owned.filter (fun r => r.va != va)))

/-- R49, R50, R57 to R59, R185: spawn makes a ready task in the lowest free pool entry and gives its ticket, or -1 (no such node), -2 (depth), -3 (64 tasks of the node undispatched) or -4 (pool full); where the context has no launch any more the node does not exist (log entry 73). sptest asks whether a ticket's task is complete. depdec and depinc move the counter of a waiting task. -/
def TaskMoves : Prop :=
  (∀ (s : State) (n j : Nat) (o : Op) (d : Nat) (a b : Word),
    let p := (jobOf s n j).part
    let c := (jobOf s n j).ctx
    let depth := (jobOf s n j).depth + 1
    let q := partOf s p
    let node := a.toNat
    let exists' : Prop := node < (graphOf s p c).nodes.length ∧ (ctxOf s p c).launch ≠ none
    let room : Prop := spawnQueue (launchOf s p c) node < 64
    (o.kind = .spawn d a b →
      (¬ exists' → sqGives s n j o s d (-1#64))
      ∧ (exists' → q.splimit.toNat < depth → sqGives s n j o s d (-2#64))
      ∧ (exists' → depth ≤ q.splimit.toNat → ¬ room → sqGives s n j o s d (-3#64))
      ∧ (exists' → depth ≤ q.splimit.toNat → room → (∀ i < 4096, i ∈ q.poolUsed) → sqGives s n j o s d (-4#64))
      ∧ (∀ e < 4096, exists' → depth ≤ q.splimit.toNat → room → e ∉ q.poolUsed → (∀ i < e, i ∈ q.poolUsed) →
        ∃ t, sqGives s n j o t d (BitVec.ofNat 64 ((tget 0#16 q.poolGen e).toNat * 4096 + e)) ∧ t.mem = s.mem ∧ (partOf t p).poolUsed = e :: q.poolUsed
          ∧ taskOf (launchOf t p c) (spawnKey node e) = some { node := node, tile := b.toNat % 2 ^ 24, st := .ready, depth := depth, pool := some e }
          ∧ tget [] (launchOf t p c).order node = tget [] (launchOf s p c).order node ++ [spawnKey node e]))
    ∧ (o.kind = .sptest d a →
      (2 ^ 28 ≤ a.toNat → sqGives s n j o s d (-1#64))
      ∧ (a.toNat < 2 ^ 28 → sqGives s n j o s d (if (tget 0#16 q.poolGen (a.toNat % 4096)).toNat = a.toNat / 4096 then 0#64 else 1#64)))
    ∧ ((o.kind = .depdec d a ∨ o.kind = .depinc d a) → namedTask s p c a = none → sqGives s n j o s d (-2#64))
    ∧ (∀ k t, namedTask s p c a = some k → taskOf (launchOf s p c) k = some t →
      ((o.kind = .depdec d a ∨ o.kind = .depinc d a) → t.st ≠ .waiting → sqGives s n j o s d (-1#64))
      ∧ (o.kind = .depdec d a → t.st = .waiting → ∃ u, sqGives s n j o u d (if t.ctr ≤ 1 then 1#64 else 0#64) ∧ launchOf u p c = decTask (launchOf s p c) k)
      ∧ (o.kind = .depinc d a → t.st = .waiting → 65535 ≤ t.ctr → sqGives s n j o s d (-3#64))
      ∧ (o.kind = .depinc d a → t.st = .waiting → t.ctr < 65535 → ∃ u, sqGives s n j o u d 0#64 ∧ taskOf (launchOf u p c) k = some { t with ctr := t.ctr + 1 })))
  ∧ (∀ (la : Launch) (k : Nat) (t : Task), taskOf la k = some t →
    (t.st ≠ .waiting → decTask la k = la)
    ∧ (t.st = .waiting → taskOf (decTask la k) k = some { t with ctr := t.ctr - 1, st := if t.ctr ≤ 1 then .ready else .waiting }
      ∧ tget [] (decTask la k).order t.node = if t.ctr ≤ 1 then tget [] la.order t.node ++ [k] else tget [] la.order t.node))

/-- R186, R187: the work-lists of the job's context, their lists held on chip (log entry 23). -/
def WorkListMoves : Prop :=
  ∀ (s : State) (n j : Nat) (o : Op) (d : Nat) (a b : Word),
    let p := (jobOf s n j).part
    let c := (jobOf s n j).ctx
    let w : Who := { p := p, c := c, core := some n, user := !o.sup }
    let bound (k : Nat) : Option WorkList := tfind (ctxOf s p c).lists k
    let v := b.toNat % 2 ^ 32
    let named : Prop := o.kind = .wlpush d a b ∨ o.kind = .wlins d a b ∨ o.kind = .wlcnt d a ∨ o.kind = .wldrain d a
    let leaves (l : WorkList) (k : Nat) (x : Word) : Prop := ∃ u, sqGives s n j o u d x ∧ tfind (ctxOf u p c).lists k = some l ∧ u.mem = s.mem
    (named → 16 ≤ a.toNat → sqGives s n j o s d (-4#64))
    ∧ (named → a.toNat < 16 → bound a.toNat = none → sqGives s n j o s d (-2#64))
    ∧ (∀ l, a.toNat < 16 → bound a.toNat = some l →
      (o.kind = .wlpush d a b → (l.cap ≤ l.entries.length → sqGives s n j o s d (-1#64)) ∧ (l.entries.length < l.cap → leaves { l with entries := l.entries ++ [v] } a.toNat 0#64))
      ∧ (o.kind = .wlins d a b →
        (l.domain ≤ v → sqGives s n j o s d (-3#64))
        ∧ (v < l.domain → v ∈ l.bits → sqGives s n j o s d 1#64)
        ∧ (v < l.domain → v ∉ l.bits → l.cap ≤ l.entries.length → sqGives s n j o s d (-1#64))
        ∧ (v < l.domain → v ∉ l.bits → l.entries.length < l.cap → leaves { l with entries := l.entries ++ [v], bits := v :: l.bits } a.toNat 0#64))
      ∧ (o.kind = .wlcnt d a → sqGives s n j o s d (BitVec.ofNat 64 l.entries.length))
      ∧ (o.kind = .wldrain d a → leaves { l with entries := [], bits := l.bits.filter (fun x => !l.entries.contains x) } a.toNat (BitVec.ofNat 64 l.entries.length)))
    ∧ (o.kind = .wlcfg d a b →
      (16 ≤ b.toNat → sqGives s n j o s d (-4#64))
      ∧ (b.toNat < 16 →
        (a = 0#64 → bound b.toNat = none → sqGives s n j o s d (-1#64))
        ∧ (a ≠ 0#64 → bound b.toNat ≠ none → sqGives s n j o s d (-1#64))
        ∧ (a = 0#64 → bound b.toNat ≠ none → ∃ u, sqGives s n j o u d 0#64 ∧ tfind (ctxOf u p c).lists b.toNat = none ∧ u.mem = s.mem)
        ∧ (a ≠ 0#64 → bound b.toNat = none → (∀ t, readList s w a = (t, none) → sqGives s n j o t d (-2#64))
          ∧ ∀ t l, readList s w a = (t, some l) → ∃ u, sqGives s n j o u d 0#64 ∧ tfind (ctxOf u p c).lists b.toNat = some l ∧ u.mem = t.mem)))
    ∧ (o.kind = .wlpopb d a b →
      let k := a.toNat % 16
      let cnt := a.toNat / 256 % 256
      let clean : Prop := a.toNat = k + 256 * cnt
      (¬ clean → sqGives s n j o s d (-4#64))
      ∧ (clean → bound k = none → sqGives s n j o s d (-2#64))
      ∧ (∀ l, clean → bound k = some l →
        ((cnt = 0 ∨ 64 < cnt) → sqGives s n j o s d (-3#64))
        ∧ (1 ≤ cnt → cnt ≤ 64 →
          let out := l.entries.take cnt
          (∀ e, vaCheck s w .write b (4 * out.length) = some e → ∀ direct, ∃ f, sqPerform s n j o direct = .fault (walkedRange s w b (4 * out.length)) f ∧ f.cause = causeOf e ∧ f.faddr = addrOf e)
          ∧ (∀ t, Config.transitError s.tick = false → vaCheck s w .write b (4 * out.length) = none → vaWrite s w b (out.flatMap (leBytes 4)) = (t, .ok ()) →
            ∃ u, sqGives s n j o u d (BitVec.ofNat 64 out.length) ∧ u.mem = t.mem
              ∧ tfind (ctxOf u p c).lists k = some { l with entries := l.entries.drop cnt, bits := l.bits.filter (fun x => !out.contains x) }))))

/-- R274, R277, R279, R281 to R283: the Firn instructions, of a descriptor f of the graph and a tile t, with no entry pending for their pages, their accesses made at user privilege (the model's choice, log entry 58). frninv empties the entry and frnstat reads it; frnflush empties the entries of a layer, or of all, and counts the valid ones. frnck misses, or copies the cached result and marks the step's bit. frnput keeps input and result in a slot that no checkpoint retains, and the entry is valid with the step, the signature and the descriptor's hash. -/
def FirnMoves : Prop :=
  (∀ (s : State) (n j : Nat) (o : Op) (d : Nat) (a b : Word) (f : FirnDesc),
    let p := (jobOf s n j).part
    let c := (jobOf s n j).ctx
    let t := b.toNat % 2 ^ 24
    let who : Who := { p := p, c := c, core := some n, user := true }
    let e := firnEntry (ctxOf s p c) f.layer t
    let k0 := tget 0#64 (ctxOf s p c).k 0
    let k6 := tget 0#64 (ctxOf s p c).k 6
    let sound (u : State) : Prop := ∀ l, firnBlocked u n j l = none
    descByVa s p c a = some f → sound s → (firnReads s (jobOf s n j) o.kind = [] ∨ Config.transitError s.tick = false) →
    (o.kind = .frninv d a b → ∃ u, sqGives s n j o u d (if e.valid then 1#64 else 0#64) ∧ u.mem = s.mem ∧ tfind (ctxOf u p c).firn (firnKey f.layer t) = none
      ∧ ∀ x, x ≠ firnKey f.layer t → tfind (ctxOf u p c).firn x = tfind (ctxOf s p c).firn x)
    ∧ (o.kind = .frnstat d a b → sqGives s n j o s d (if e.valid then BitVec.ofNat 64 (2 ^ 63 + popBelow e.bitmap 64 * 2 ^ 48 + e.stamp % 65536 * 2 ^ 32) else 0#64))
    ∧ (o.kind = .frnck d a b →
      (∀ u, probeTest s who f t k0 k6 = (u, .ok false) → sqGives s n j o u d 0#64)
      ∧ (∀ u w, probeTest s who f t k0 k6 = (u, .ok true) → sound u → copyResult u who f t = (w, .ok ()) → ∃ z, sqGives s n j o z d 1#64 ∧
          let e' := firnEntry (ctxOf w p c) f.layer t
          firnEntry (ctxOf z p c) f.layer t = { e' with bitmap := e'.bitmap ||| 2 ^ (k0.toNat - e'.stamp) }))
    ∧ (o.kind = .frnput d a b → ∀ u, installEntry s who f t k0 = (u, .ok ()) → sqGives s n j o u d 0#64))
  ∧ (∀ (s : State) (n j : Nat) (o : Op) (d : Nat) (a : Word), o.kind = .frnflush d a →
    let p := (jobOf s n j).part
    let c := (jobOf s n j).ctx
    let layer := (descByVa s p c a).map (·.layer)
    let hit (x : Nat × FirnEntry) : Bool := match layer with | some l => x.1 / 2 ^ 24 == l | none => true
    ∃ u, sqGives s n j o u d (BitVec.ofNat 64 ((ctxOf s p c).firn.countP (fun x => hit x && x.2.valid))) ∧ (ctxOf u p c).firn = (ctxOf s p c).firn.filter (fun x => !hit x) ∧ u.mem = s.mem)
  ∧ (∀ (s : State) (p c : Nat) (core : Option Nat) (f : FirnDesc) (t : Nat) (k0 : Word) (i r g x y : State) (inp res : List Byte) (sig : Word),
    let w : Who := { p := p, c := c, core := core, user := true }
    let key := firnKey f.layer t
    let q := installSlot (ctxOf s p c) key
    (q < 3 ∧ q ∉ retainedSlots (ctxOf s p c) key ∧ ∀ h < q, h ∈ retainedSlots (ctxOf s p c) key)
    ∧ (firnInput s w f t = (i, .ok inp) → vaRead i w (firnResultVa f t) f.rbytes = (r, .ok res) → firnSignature r w f t = (g, .ok sig) → arenaCheck g w f t q = none →
      arenaWrite g w f t q 0 inp = (x, .ok ()) → arenaWrite x w f t q (roundUp (firnIn f) 64) res = (y, .ok ()) →
      ∃ u, installEntry s w f t k0 = (u, .ok ()) ∧ u.mem = y.mem
        ∧ firnEntry (ctxOf u p c) f.layer t = { valid := true, stamp := k0.toNat % 65536, bitmap := 0, sig := sig, hash := f.hash, slot := q }))

/-- R101, R102, R281: when operations of the SQ are performed. One that needs no travel to memory is performed as soon as it is eligible (the model's choice, log entry 65), the first that is not parked and nothing is ordered before it; an frnput at its INSTALLATION event, which changes nothing otherwise. -/
def SqTurns : Prop :=
  (∀ (s : State) (n j : Nat) (o : Op), headOp (jobOf s n j).sq = some o → performsAlone o.kind = true → o.kind ≠ .mark → sqReady s n j o = true →
    (headOp (jobOf s n j).lq).filter (fun p => atOnce s p && lqReady s n j p) = none → advanceOne s n j = some (sqEnd n j o (sqPerform s n j o (o.filled != 0))))
  ∧ (∀ (s : State) (n : CoreNo) (j : Nat) (o : Op) (d : Nat) (a b : Word), (coreOf s n.toNat).active = some j → headOp (jobOf s n.toNat j).sq = some o → o.kind = .frnput d a b →
    (sqReady s n.toNat j o = true → exec (.installation n) s = .next (moveC (sqEnd n.toNat j o (sqPerform s n.toNat j o false)) n.toNat j))
    ∧ (sqReady s n.toNat j o = false → exec (.installation n) s = .next s))
  ∧ (∀ (t : State) (n j : Nat) (o : Op), (jobOf (sqEnd n j o (.done t)) n j).sq = (jobOf t n j).sq.filter (fun p => p.seq != o.seq) ∧ (sqEnd n j o (.done t)).mem = t.mem)

end Sys2Proof.Machine
end

