-- ==== Sys2Proof/Certificates/Slice0/Obligations.lean ====
section
/-! DEFINITION. The statements about the machine, for the provers. -/

open Sys2Proof Sys2Proof.Machine

/-! Scalar arithmetic. -/

/-- R160, the integer operations of two registers: the low 64 bits of the exact result; division follows R118. -/
def Obligations.AluIntegerResults : Prop :=
  ∀ (s : State) (d a b : Reg), Ready 1 { reads := [a, b] } s →
    let x := reg s s.turn a
    let y := reg s s.turn b
    let n := y.toNat % 64
    let wr (v : Word) : Result := completes s 1 (setReg (began s) s.turn d v)
    let truth (p : Bool) : Result := wr (if p then 1#64 else 0#64)
    exec (.add d a b) s = wr (BitVec.ofInt 64 (x.toInt + y.toInt))
    ∧ exec (.sub d a b) s = wr (BitVec.ofInt 64 (x.toInt - y.toInt))
    ∧ exec (.and d a b) s = wr (x &&& y)
    ∧ exec (.or d a b) s = wr (x ||| y)
    ∧ exec (.xor d a b) s = wr (x ^^^ y)
    ∧ exec (.andn d a b) s = wr (x &&& ~~~y)
    ∧ exec (.sll d a b) s = wr (BitVec.ofNat 64 (x.toNat * 2 ^ n))
    ∧ exec (.srl d a b) s = wr (BitVec.ofNat 64 (x.toNat / 2 ^ n))
    ∧ exec (.sra d a b) s = wr (BitVec.ofInt 64 (x.toInt / 2 ^ n))
    ∧ exec (.rol d a b) s = wr (x <<< n ||| x >>> (64 - n))
    ∧ exec (.mul d a b) s = wr (BitVec.ofInt 64 (x.toInt * y.toInt))
    ∧ exec (.mulh d a b) s = wr (BitVec.ofInt 64 (x.toInt * y.toInt / 2 ^ 64))
    ∧ exec (.mulhu d a b) s = wr (BitVec.ofNat 64 (x.toNat * y.toNat / 2 ^ 64))
    ∧ exec (.div d a b) s = wr (if y = 0#64 then BitVec.ofInt 64 (-1) else BitVec.ofInt 64 (x.toInt.tdiv y.toInt))
    ∧ exec (.divu d a b) s = wr (if y = 0#64 then BitVec.ofInt 64 (-1) else BitVec.ofNat 64 (x.toNat / y.toNat))
    ∧ exec (.rem d a b) s = wr (if y = 0#64 then x else BitVec.ofInt 64 (x.toInt.tmod y.toInt))
    ∧ exec (.remu d a b) s = wr (if y = 0#64 then x else BitVec.ofNat 64 (x.toNat % y.toNat))
    ∧ exec (.min d a b) s = wr (if x.toInt ≤ y.toInt then x else y)
    ∧ exec (.minu d a b) s = wr (if x.toNat ≤ y.toNat then x else y)
    ∧ exec (.max d a b) s = wr (if x.toInt ≤ y.toInt then y else x)
    ∧ exec (.maxu d a b) s = wr (if x.toNat ≤ y.toNat then y else x)
    ∧ exec (.seq d a b) s = truth (decide (x = y))
    ∧ exec (.sne d a b) s = truth (decide (x ≠ y))
    ∧ exec (.slt d a b) s = truth (decide (x.toInt < y.toInt))
    ∧ exec (.sltu d a b) s = truth (decide (x.toNat < y.toNat))
    ∧ exec (.sle d a b) s = truth (decide (x.toInt ≤ y.toInt))
    ∧ exec (.sleu d a b) s = truth (decide (x.toNat ≤ y.toNat))

/-- R160, the operations of one register: counts of bits (64 for the zero counts of 0), bytes reversed, and the low bits sign-extended. -/
def Obligations.AluUnaryResults : Prop :=
  ∀ (s : State) (d a : Reg), Ready 1 { reads := [a] } s →
    let x := reg s s.turn a
    let wr (v : Word) : Result := completes s 1 (setReg (began s) s.turn d v)
    exec (.clz d a) s = wr (BitVec.ofNat 64 (if x = 0#64 then 64 else 63 - Nat.log2 x.toNat))
    ∧ (∃ k, exec (.ctz d a) s = wr (BitVec.ofNat 64 k) ∧ k ≤ 64 ∧ (∀ i < k, x.getLsbD i = false) ∧ (x ≠ 0#64 → x.getLsbD k = true) ∧ (x = 0#64 → k = 64))
    ∧ exec (.popc d a) s = wr (BitVec.ofNat 64 ((List.range 64).countP (fun i => x.getLsbD i)))
    ∧ (∃ v, exec (.bswap d a) s = wr v ∧ ∀ i < 8, v.extractLsb' (8 * i) 8 = x.extractLsb' (8 * (7 - i)) 8)
    ∧ exec (.sexb d a) s = wr ((x.setWidth 8).signExtend 64)
    ∧ exec (.sexh d a) s = wr ((x.setWidth 16).signExtend 64)
    ∧ exec (.sexw d a) s = wr ((x.setWidth 32).signExtend 64)

/-- R160, R161: the f32 operations take bits [31:0] of their operands, write bits [31:0] of s[d] with zeros above (R145), and add their flags to FFLAGS. A comparison writes 1 or 0; fcvtfi writes its i32 sign-extended. R119 to R122, R124, R125, R128: the operations that these and the lane operations use round an exact result once, as `arithmeticRounds` and `conversionsRound` say, with the model's choice of log entry 85 left out of them; comparisons order numbers as `comparisonsRank` says, and minima and maxima pick as `minmaxPicks` says. -/
def Obligations.AluFloatResults : Prop :=
  arithmeticRounds ∧ conversionsRound ∧ comparisonsRank ∧ minmaxPicks ∧ ∀ (s : State) (d a b : Reg) (rm : Rounding),
    let x := (reg s s.turn a).toNat % 2 ^ 32
    let y := (reg s s.turn b).toNat % 2 ^ 32
    let wr (v : Word) (f : BitVec 5) : Result := completes s 1 (setFlags (setReg (began s) s.turn d v) s.turn f)
    let wf (r : Nat × BitVec 5) : Result := wr (BitVec.ofNat 64 r.1) r.2
    let wt (r : Bool × BitVec 5) : Result := wr (if r.1 then 1#64 else 0#64) r.2
    (Ready 1 { reads := [a, b] } s →
      exec (.fadd d a b) s = wf (addF fmtF32 x y)
      ∧ exec (.fsub d a b) s = wf (subF fmtF32 x y)
      ∧ exec (.fmul d a b) s = wf (mulF fmtF32 x y)
      ∧ exec (.fdiv d a b) s = wf (divF fmtF32 x y)
      ∧ exec (.fmin d a b) s = wf (minmaxF false false fmtF32 x y)
      ∧ exec (.fmax d a b) s = wf (minmaxF true false fmtF32 x y)
      ∧ exec (.fminp d a b) s = wf (minmaxF false true fmtF32 x y)
      ∧ exec (.fmaxp d a b) s = wf (minmaxF true true fmtF32 x y)
      ∧ exec (.feq d a b) s = wt (relV .eq (fDec fmtF32 x) (fDec fmtF32 y))
      ∧ exec (.flt d a b) s = wt (relV .lt (fDec fmtF32 x) (fDec fmtF32 y))
      ∧ exec (.fle d a b) s = wt (relV .le (fDec fmtF32 x) (fDec fmtF32 y)))
    ∧ (Ready 1 { reads := [a] } s →
      exec (.fcvtfi d a rm) s = wr ((BitVec.ofNat 32 (cvtFI fmtF32 32 (modeOf rm) x).1).signExtend 64) (cvtFI fmtF32 32 (modeOf rm) x).2
      ∧ exec (.fcvtif d a rm) s = wf (cvtIF fmtF32 (modeOf rm) (BitVec.ofNat 32 x).toInt))

/-- R162, R163: the immediate group, with imm11 sign-extended and shifts by its low 6 bits, and the constants. -/
def Obligations.ImmediateResults : Prop :=
  ∀ (s : State) (d a : Reg) (imm : BitVec 11) (sh : BitVec 6) (hi : BitVec 20) (ext : BitVec 32),
    let x := reg s s.turn a
    let v : Word := BitVec.ofInt 64 imm.toInt
    let wr (words : Nat) (v : Word) : Result := completes s words (setReg (began s) s.turn d v)
    (Ready 1 { reads := [a] } s →
      exec (.addi d a imm) s = wr 1 (x + v)
      ∧ exec (.andi d a imm) s = wr 1 (x &&& v)
      ∧ exec (.ori d a imm) s = wr 1 (x ||| v)
      ∧ exec (.xori d a imm) s = wr 1 (x ^^^ v)
      ∧ exec (.slti d a imm) s = wr 1 (if x.toInt < imm.toInt then 1#64 else 0#64)
      ∧ exec (.slli d a sh) s = wr 1 (BitVec.ofNat 64 (x.toNat * 2 ^ sh.toNat))
      ∧ exec (.srli d a sh) s = wr 1 (BitVec.ofNat 64 (x.toNat / 2 ^ sh.toNat))
      ∧ exec (.srai d a sh) s = wr 1 (BitVec.ofInt 64 (x.toInt / 2 ^ sh.toNat)))
    ∧ (Ready 1 {} s → exec (.lui d hi) s = wr 1 (BitVec.ofInt 64 (hi.toInt * 2 ^ 11)))
    ∧ (Ready 2 {} s → exec (.lix d ext) s = wr 2 (BitVec.ofInt 64 ext.toInt))
    ∧ (Ready 2 { reads := [d] } s → exec (.lihx d ext) s = wr 2 (BitVec.ofNat 64 (ext.toNat * 2 ^ 32 + (reg s s.turn d).toNat % 2 ^ 32)))
    ∧ (Ready 2 { reads := [a] } s → exec (.addx d a ext) s = wr 2 (x + BitVec.ofInt 64 ext.toInt))

/-! Branches, jumps and loops. -/

/-- R164, R165: a branch goes to its own address + 4 × sext(off11) when its condition holds; jal and jalr write PC + 4 and jump, jalr to s[a] + sext(imm11) with bits [1:0] cleared, from the old s[a]. -/
def Obligations.BranchResults : Prop :=
  ∀ (s : State) (d a b : Reg) (off imm : BitVec 11) (far : BitVec 20),
    let x := reg s s.turn a
    let y := reg s s.turn b
    let pc := (streamOf s s.turn).pc
    let br (p : Bool) : Result := goesOn s (began s) (if p then .jump (pc + BitVec.ofInt 64 (4 * off.toInt)) else .seq)
    (Ready 1 { reads := [a, b] } s →
      exec (.beq a b off) s = br (decide (x = y))
      ∧ exec (.bne a b off) s = br (decide (x ≠ y))
      ∧ exec (.blt a b off) s = br (decide (x.toInt < y.toInt))
      ∧ exec (.bge a b off) s = br (decide (y.toInt ≤ x.toInt))
      ∧ exec (.bltu a b off) s = br (decide (x.toNat < y.toNat))
      ∧ exec (.bgeu a b off) s = br (decide (y.toNat ≤ x.toNat))
      ∧ exec (.bset a b off) s = br (decide (x &&& y ≠ 0#64))
      ∧ exec (.bclr a b off) s = br (decide (x &&& y = 0#64)))
    ∧ (Ready 1 {} s → exec (.jal d far) s = goesOn s (setReg (began s) s.turn d (pc + 4#64)) (.jump (pc + BitVec.ofInt 64 (4 * far.toInt))))
    ∧ (Ready 1 { reads := [a] } s →
      exec (.jalr d a imm) s = goesOn s (setReg (began s) s.turn d (pc + 4#64)) (.jump ((x + BitVec.ofInt 64 imm.toInt) &&& ~~~3#64)))

/-- R166, with the model's reading of log entry 26 (a level that a user handler suspends still counts as active): a count of 0 skips the body; an active level, or an enclosing one that ends earlier, raises LOOP; else the level becomes active with count n - 1, its body from PC + 4 to PC + 4 + 4 × len10, newer than every other. -/
def Obligations.LoopResults : Prop :=
  ∀ (s : State) (lvl : BitVec 2) (len : BitVec 10) (i : Instr) (nd : Need) (n : BitVec 32),
    (∃ r, i = .loop lvl len r ∧ nd = { reads := [r] } ∧ n = (reg s s.turn r).setWidth 32)
      ∨ (∃ cnt : BitVec 12, i = .loopi lvl len cnt ∧ nd = {} ∧ n = cnt.setWidth 32)
      ∨ (∃ k : BitVec 4, i = .loopk lvl len k ∧ nd = { mgmt := false } ∧ n = (kOf s (agentJob s s.turn) k.toNat).setWidth 32)
      ∨ (∃ r, i = .loopm lvl len r ∧ nd = { mgmt := false, reads := [r] }
          ∧ n = tget 0#32 (partOf s (agentJob s s.turn).part).mail ((reg s s.turn r).toNat % 64)) →
    Ready 1 nd s →
    let st := streamOf s s.turn
    let e := st.pc + BitVec.ofNat 64 (4 + 4 * len.toNat)
    (n = 0#32 → exec i s = goesOn s (began s) (.skip e))
    ∧ (n ≠ 0#32 → (loopOf st lvl.toNat).act = true ∨ (∃ q ∈ st.loops, q.2.act = true ∧ q.2.stop.toNat < e.toNat) → exec i s = trapsWith s { cause := cLoop })
    ∧ (n ≠ 0#32 → (loopOf st lvl.toNat).act = false → (∀ q ∈ st.loops, q.2.act = true → e.toNat ≤ q.2.stop.toNat) →
        ∃ age, (∀ q ∈ st.loops, q.2.age < age)
          ∧ exec i s = completes s 1 (modStream (began s) s.turn (fun st => { st with
              loops := tset st.loops lvl.toNat { cnt := n - 1#32, stop := e, start := st.pc + 4#64, act := true, age := age } })))

/-! Queues. -/

/-- R106, R170, R171: qwait and qroom go on once every named queue has n filled, or free, slots, else they wait on the first named that has not; qadv and qadvp move HEAD and TAIL by n mod 2C; qrst sets both to 0; the three wait while an operation of the job still uses a slot they would move past, or the queue. A queue that fails R170 for the end raises QUEUE, as does an advance past what is filled or free, and a wait for more than C slots. -/
def Obligations.QueueControlResults : Prop :=
  ∀ (s : State) (n j : Nat) (t : Sid) (qa : Handle) (qb qd : Option Handle) (k3 : BitVec 3),
    s.turn = .stream n j t → Ready 1 { mgmt := false } s →
    let hs := qa :: (qb.toList ++ qd.toList)
    let k := k3.toNat + 1
    let q (h : Handle) := descOf s n j h
    let ok (e : QEnd) : Prop := ∀ h ∈ hs, queueFor s s.turn h e = some (q h)
    let bad (e : QEnd) : Prop := ∃ h ∈ hs, queueFor s s.turn h e = none
    let quiet (h : Handle) (p : Nat) (rd : Bool) : Prop := slotsBusy (began s) n j t h p k rd = false
    let trap : Result := trapsWith s { cause := cQueue }
    let held : Result := waitsIn s (began s) .waiting
    (ok .consumer → (∀ h ∈ hs, k ≤ qFilled (q h)) → exec (.qwait qa qb qd k3) s = completes s 1 (began s))
    ∧ (ok .consumer → (∀ h ∈ hs, k ≤ qCount (q h)) →
        ∀ h, hs.find? (fun h => decide (qFilled (q h) < k)) = some h → exec (.qwait qa qb qd k3) s = waitsIn s (began s) (.onQueue h k false))
    ∧ (ok .producer → (∀ h ∈ hs, k ≤ qFree (q h)) → exec (.qroom qa qb qd k3) s = completes s 1 (began s))
    ∧ (ok .producer → (∀ h ∈ hs, k ≤ qCount (q h)) →
        ∀ h, hs.find? (fun h => decide (qFree (q h) < k)) = some h → exec (.qroom qa qb qd k3) s = waitsIn s (began s) (.onQueue h k true))
    ∧ (ok .consumer → (∀ h ∈ hs, k ≤ qFilled (q h)) → (∀ h ∈ hs, quiet h (q h).head true) →
        exec (.qadv qa qb qd k3) s = completes s 1 (hs.foldl (fun u h => setHead u n j h (((q h).head + k) % (2 * qCount (q h)))) (began s)))
    ∧ (ok .producer → (∀ h ∈ hs, k ≤ qFree (q h)) → (∀ h ∈ hs, quiet h (q h).tail false) →
        exec (.qadvp qa qb qd k3) s = completes s 1 (hs.foldl (fun u h => setTail u n j h (((q h).tail + k) % (2 * qCount (q h)))) (began s)))
    ∧ (ok .consumer → (∀ h ∈ hs, k ≤ qFilled (q h)) → (∃ h ∈ hs, ¬ quiet h (q h).head true) → exec (.qadv qa qb qd k3) s = held)
    ∧ (ok .producer → (∀ h ∈ hs, k ≤ qFree (q h)) → (∃ h ∈ hs, ¬ quiet h (q h).tail false) → exec (.qadvp qa qb qd k3) s = held)
    ∧ (ok .either → (∃ h ∈ hs, names (jobOf s n j) h = true) → exec (.qrst qa qb qd) s = held)
    ∧ (ok .either → (∀ h ∈ hs, names (jobOf s n j) h = false) →
        exec (.qrst qa qb qd) s = completes s 1 (hs.foldl (fun u h => setDesc u n j h 8 [0#8, 0#8, 0#8, 0#8]) (began s)))
    ∧ (bad .consumer → exec (.qwait qa qb qd k3) s = trap ∧ exec (.qadv qa qb qd k3) s = trap)
    ∧ (bad .producer → exec (.qroom qa qb qd k3) s = trap ∧ exec (.qadvp qa qb qd k3) s = trap)
    ∧ (bad .either → exec (.qrst qa qb qd) s = trap)
    ∧ (ok .consumer → (∃ h ∈ hs, qFilled (q h) < k) → exec (.qadv qa qb qd k3) s = trap)
    ∧ (ok .producer → (∃ h ∈ hs, qFree (q h) < k) → exec (.qadvp qa qb qd k3) s = trap)
    ∧ (ok .consumer → (∃ h ∈ hs, qCount (q h) < k) → exec (.qwait qa qb qd k3) s = trap)
    ∧ (ok .producer → (∃ h ∈ hs, qCount (q h) < k) → exec (.qroom qa qb qd k3) s = trap)

/-- R172, R173: qpop reads the first slot, min(8, S) bytes, and moves HEAD by 1; qpeek reads slot HEAD + s[a]; qput writes a slot, 1 or 0 into an outcome queue, and moves TAIL; qcfg, of any stream, copies 64 bytes into a descriptor no operation names, whatever stood in it (the model's choice, log entry 80; that ALIGN comes before XLAT_PERM is log entry 91); qcnt gives free and filled slots, or -1; bqt and bqf test bit 0 of the first slot of an outcome queue. A queue that fails R170, a peek at or past the capacity and an outcome branch on another queue raise QUEUE; a slot not yet filled, or free, is waited for on the queue, and one an operation still uses is waited for, by qput also where an operation has still to read it (R100). -/
def Obligations.QueueTransferResults : Prop :=
  ∀ (s : State) (n j : Nat) (t : Sid) (d a : Reg) (h : Handle) (off : BitVec 11) (x : QDesc),
    s.turn = .stream n j t →
    let v := reg s s.turn a
    let slot (p len : Nat) : Word := BitVec.ofNat 64 (leNat (memReadN s.mem (coreAt n + qSlot x p) len))
    let first := slot x.head (min 8 (qSize x))
    let target := (streamOf s s.turn).pc + BitVec.ofInt 64 (4 * off.toInt)
    let bit := (memRead s.mem (coreAt n + qSlot x x.head)).getLsbD 0
    let quiet (p : Nat) (rd : Bool) : Prop := slotsBusy (began s) n j t h p 1 rd = false
    let onQueue (k : Nat) (room : Bool) : Result := waitsIn s (began s) (.onQueue h k room)
    let held : Result := waitsIn s (began s) .waiting
    let trap : Result := trapsWith s { cause := cQueue }
    (Ready 1 { mgmt := false } s → queueFor s s.turn h .consumer = some x → 1 ≤ qFilled x →
      (¬ quiet x.head true → exec (.qpop d h) s = held)
      ∧ (quiet x.head true → exec (.qpop d h) s = completes s 1 (setHead (setReg (began s) s.turn d first) n j h ((x.head + 1) % (2 * qCount x))))
      ∧ (x.kind = 2 → exec (.bqt h off) s = goesOn s (began s) (if bit then .jump target else .seq)
          ∧ exec (.bqf h off) s = goesOn s (began s) (if bit then .seq else .jump target))
      ∧ (x.kind ≠ 2 → exec (.bqt h off) s = trap ∧ exec (.bqf h off) s = trap))
    ∧ (Ready 1 { mgmt := false } s → queueFor s s.turn h .consumer = some x → qFilled x = 0 → exec (.qpop d h) s = onQueue 1 false
        ∧ (x.kind = 2 → exec (.bqt h off) s = onQueue 1 false ∧ exec (.bqf h off) s = onQueue 1 false)
        ∧ (x.kind ≠ 2 → exec (.bqt h off) s = trap ∧ exec (.bqf h off) s = trap))
    ∧ (Ready 1 { mgmt := false, reads := [a] } s → queueFor s s.turn h .consumer = some x →
        (qFilled x ≤ v.toNat → v.toNat < qCount x → exec (.qpeek d a h) s = onQueue (v.toNat + 1) false)
        ∧ (qFilled x ≤ v.toNat → qCount x ≤ v.toNat → exec (.qpeek d a h) s = trap))
    ∧ (Ready 1 { mgmt := false, reads := [a] } s → queueFor s s.turn h .consumer = none → exec (.qpeek d a h) s = trap)
    ∧ (Ready 1 { mgmt := false, reads := [a] } s → queueFor s s.turn h .producer = none → exec (.qput a h) s = trap)
    ∧ (Ready 1 { mgmt := false, reads := [a] } s → queueFor s s.turn h .producer = some x → qFree x = 0 → exec (.qput a h) s = onQueue 1 true)
    ∧ (Ready 1 { mgmt := false, reads := [a] } s → queueFor s s.turn h .producer = some x → 1 ≤ qFree x → (¬ quiet x.tail false ∨ ¬ quiet x.tail true) → exec (.qput a h) s = held)
    ∧ (Ready 1 { mgmt := false, reads := [a] } s → (names (jobOf s n j) h = true ∨ ownDone (jobOf s n j) t (jobOf s n j).seq (wordsOut (jobOf s n j)) = false) →
        v.toNat % 64 = 0 → v.toNat % 2 ^ 21 + 64 ≤ 0x180000 → exec (.qcfg a h) s = held)
    ∧ (Ready 1 { mgmt := false, reads := [a] } s → queueFor s s.turn h .consumer = some x → v.toNat < qFilled x →
      exec (.qpeek d a h) s = completes s 1 (setReg (began s) s.turn d (slot (x.head + v.toNat) (min 8 (qSize x)))))
    ∧ (Ready 1 { mgmt := false, reads := [a] } s → queueFor s s.turn h .producer = some x → 1 ≤ qFree x → quiet x.tail false → quiet x.tail true →
      let w : Word := if x.kind = 2 then (if v = 0#64 then 0#64 else 1#64) else v
      exec (.qput a h) s = completes s 1 (setTail (spWrite (began s) n (qSlot x x.tail) ((leBytes 8 w.toNat ++ zeros (qSize x)).take (qSize x))) n j h ((x.tail + 1) % (2 * qCount x))))
    ∧ (Ready 1 { mgmt := false, reads := [a] } s → names (jobOf s n j) h = false → ownDone (jobOf s n j) t (jobOf s n j).seq (wordsOut (jobOf s n j)) = true →
      let o := v.toNat % 2 ^ 21
      (o % 64 = 0 → o + 64 ≤ 0x180000 → exec (.qcfg a h) s = completes s 1 (setDesc (began s) n j h 0 (memReadN s.mem (coreAt n + o) 64)))
      ∧ (o % 64 ≠ 0 → exec (.qcfg a h) s = trapsWith s { cause := cAlign })
      ∧ (o % 64 = 0 → 0x180000 < o + 64 → exec (.qcfg a h) s = trapsWith s { cause := cXlatPerm }))
    ∧ (Ready 1 { mgmt := false } s →
      let y := descOf s n j h
      exec (.qcnt d h) s = completes s 1 (setReg (began s) s.turn d (if descOk y then BitVec.ofNat 64 (qFree y * 2 ^ 16 + qFilled y) else BitVec.ofInt 64 (-1))))
    ∧ (Ready 1 { mgmt := false } s → queueFor s s.turn h .consumer = none → exec (.qpop d h) s = trap ∧ exec (.bqt h off) s = trap ∧ exec (.bqf h off) s = trap)

/-! Rendezvous, pennants, waiting. -/

/-- R35, R65, R174, R177, R178, R331, with the model's reading of log entry 25 for ipref: nop does nothing; rdv end ends the stream's issue; rdv 0 and rdv of a set arrive at the set's next instance and wait there, ILLEGAL where the set leaves the stream out; RDV_COMPLETE lets every stream waiting at a set go on once every stream of the set has arrived at the instance or ended, or had before one of them was moved off its end (R273); ipref moves up to 64 lines of the job's code into the instruction cache, and is ignored where its address lies outside that code or does not translate, or while 16 prefetches are outstanding on the core; wfi waits until a condition wakes it: a slot of a queue that became filled for its consumer or free for its producer, a write to the core's descriptor window, a completed phase that the stream had arrived at with pbara; on the management core it waits while MEVENT is 0. -/
def Obligations.RendezvousAndWaitResults : Prop :=
  (∀ (s : State) (n j : Nat) (t : Sid) (set : BitVec 5) (a : Reg) (k : BitVec 6),
    s.turn = .stream n j t →
    let st := streamOf s s.turn
    let arrive (q : BitVec 5) : Result :=
      let i := tget 0 st.rdv q.toNat + 1
      waitsIn s (modStream (began s) s.turn (fun st => { st with rdv := tset st.rdv q.toNat i })) (.atRdv q i)
    (Ready 1 {} s → exec .nop s = completes s 1 (began s))
    ∧ (Ready 1 { mgmt := false } s →
      exec .rdvEnd s = goesOn s (modStream (began s) s.turn (fun st => { st with run := .ended, atEnd := true })) .stay
      ∧ (st.run = .running → exec .rdv0 s = arrive 0x1F#5)
      ∧ (set.getLsbD (sidNum t) = true → st.run = .running → exec (.rdvStreamSet set) s = arrive set)
      ∧ (set.getLsbD (sidNum t) = true → ∀ q i, st.run = .atRdv q i → exec (.rdvStreamSet set) s = waitsIn s (began s) (.atRdv q i))
      ∧ (set.getLsbD (sidNum t) = false → exec (.rdvStreamSet set) s = trapsWith s { cause := cIllegal }))
    ∧ (Ready 1 { reads := [a] } s →
      let b := jobOf s n j
      let v := reg s s.turn a
      let onWay (l : List Nat) : List Nat := l.filter (s.now < ·)
      let found := translate (began s) b.part b.ctx (some n) v .fetch true
      let inCode := b.kernel.toNat ≤ v.toNat ∧ v.toNat < b.kernel.toNat + b.codeLen
      (∀ pa key, inCode → found = .ok pa key → (onWay (coreOf s n).prefetches).length < 16 →
        exec (.ipref a k) s = completes s 1 (prefetchLines (modCore (began s) n (fun c => { c with prefetches := onWay c.prefetches })) b.part b.ctx n v (k.toNat + 1)))
      ∧ (¬ inCode ∨ (∀ pa key, found ≠ .ok pa key) ∨ 16 ≤ (onWay (coreOf s n).prefetches).length → exec (.ipref a k) s = completes s 1 (began s))))
  ∧ (∀ (s : State) (n : CoreNo) (j : Nat) (set : BitVec 5),
    (coreOf s n.toNat).active = some j → (coreOf s n.toNat).frozen = false →
    let b := jobOf s n.toNat j
    let who := allSids.filter (fun t => match (b.streams.get t).run with | .atRdv q k => q == set && rdvMet b q k | _ => false)
    (∀ q k, rdvMet b q k = true ↔ k ≤ tget 0 b.met q.toNat ∨ ∀ t, q.getLsbD (sidNum t) = true →
      (b.streams.get t).run = .ended ∨ (b.streams.get t).atEnd = true ∨ k ≤ tget 0 (b.streams.get t).rdv q.toNat)
    ∧ (who = [] → exec (.rdvComplete n set) s = .next s)
    ∧ (who ≠ [] → exec (.rdvComplete n set) s = .next (who.foldl (fun u t => retire u (.stream n.toNat j t) 1 .seq)
        (modJob s n.toNat j (fun b => { b with rdvDone := tset b.rdvDone set.toNat (tget 0 b.rdvDone set.toNat + 1) })))))
  ∧ (∀ s : State, Ready 1 {} s →
    (s.turn ≠ .mgmt → (streamOf s s.turn).run = .running → exec .wfi s = waitsIn s (began s) (.inWfi false))
    ∧ (s.turn ≠ .mgmt → (streamOf s s.turn).run = .inWfi true → exec .wfi s = completes s 1 (began s))
    ∧ (s.turn = .mgmt → s.mgmt.mevent = 0#4 → exec .wfi s = waitsIn s (began s) (.inWfi false))
    ∧ (s.turn = .mgmt → s.mgmt.mevent ≠ 0#4 → exec .wfi s = completes s 1 (began s)))
  ∧ (∀ (s : State) (n j : Nat) (t : Sid),
    let run (u : State) : Run := ((jobOf u n j).streams.get t).run
    let wakes (u : State) (p : Prop) : Prop := (run s = .inWfi false → p → run u = .inWfi true) ∧ ((run s ≠ .inWfi false ∨ ¬ p) → run u = run s)
    (∀ h off l, let u := setDesc s n j h off l
      let d := descOf s n j h
      let e := descOf u n j h
      wakes u ((e.cons = sidNum t ∧ qFilled d < qFilled e) ∨ (e.prod = sidNum t ∧ qFree d < qFree e)))
    ∧ (∀ off l, j < 2 → off < Config.descOffset + 0x1000 → Config.descOffset < off + l.length → run s = .inWfi false → run (coreWrite s n off l) = .inWfi true)
    ∧ (∀ c who, (coreOf s n).active = some j → (jobOf s n j).ctx = c → wakes (wakePositions s c who) (posOf n t ∈ who)))

/-- R112, R175, R176: a stream that participates arrives at the current phase of a tag with pbar, which waits, and pbara, which goes on; pbarw waits only while a pbara of the stream is still to be signalled or the phase of its latest one is open; pbarw, and pbar once the phase has completed, go on with an acquire; a stream outside the set raises ILLEGAL. An arrival is signalled once its stream's earlier operations are performed; a phase completes when every participant has arrived, a held rewrite of the set then takes effect, and a wfi of a stream that arrived with pbara ends (R177). -/
def Obligations.PennantResults : Prop :=
  (∀ (s : State) (n j : Nat) (t : Sid) (tag : BitVec 3),
    s.turn = .stream n j t → Ready 1 { mgmt := false } s →
    let b := jobOf s n j
    let st := b.streams.get t
    let w := pennantOf (ctxOf s b.part b.ctx) tag.toNat
    let key := (tag.toNat, st.pc)
    let isOpen := st.pbars.any (fun e => e.tag == tag.toNat) || phaseOpen w (posOf n t)
    let split : Prop := (∃ e ∈ st.pbars, e.tag = tag.toNat ∧ e.held = false) ∨ ∃ k, tfind w.lastSplit (posOf n t) = some k ∧ w.phase ≤ k
    let arrived (held : Bool) (st : Stream) : Stream := { st with pbars := st.pbars ++ [{ tag := tag.toNat, limit := b.seq, words := wordsOut b, held := held }] }
    (participates w n t = true → isOpen = false →
      (st.inPbar.contains key = false → exec (.pbar tag) s = waitsIn s (modStream (began s) s.turn (fun st => { arrived true st with inPbar := st.inPbar ++ [key] })) .waiting)
      ∧ (st.inPbar.contains key = true → exec (.pbar tag) s = completes s 1 (acquire (modStream (began s) s.turn (fun st => { st with inPbar := st.inPbar.filter (fun e => e != key) })) n))
      ∧ exec (.pbara tag) s = completes s 1 (modStream (began s) s.turn (arrived false)))
    ∧ (participates w n t = true → (split → exec (.pbarw tag) s = waitsIn s (began s) .waiting) ∧ (¬ split → exec (.pbarw tag) s = completes s 1 (acquire (began s) n)))
    ∧ (participates w n t = true → isOpen = true → exec (.pbar tag) s = waitsIn s (began s) .waiting
        ∧ exec (.pbara tag) s = waitsIn s (began s) .waiting)
    ∧ (participates w n t = false → exec (.pbara tag) s = trapsWith s { cause := cIllegal }
        ∧ (st.inPbar.contains key = false → exec (.pbar tag) s = trapsWith s { cause := cIllegal })
        ∧ (st.run = .running → exec (.pbarw tag) s = trapsWith s { cause := cIllegal })))
  ∧ ((∀ (s : State) (n : CoreNo) (tag : BitVec 3) (j : Nat), (coreOf s n.toNat).active = some j →
    (∀ u, allSids.find? (canSignal (jobOf s n.toNat j) tag.toNat) = some u → exec (.pennantArrival n tag) s = .next (signalArrival s n.toNat j tag.toNat u))
    ∧ (allSids.find? (canSignal (jobOf s n.toNat j) tag.toNat) = none → exec (.pennantArrival n tag) s = .next s))
  ∧ (∀ (s : State) (p : PartNo) (c : CtxNo) (tag : BitVec 3),
    let w := pennantOf (ctxOf s p.toNat c.toNat) tag.toNat
    (w.arrived ≠ [] → (∀ x ∈ setPositions w.set, x ∈ w.arrived) →
      exec (.pennantCompletion p c tag) s = .next (wakePositions (modCtx s p.toNat c.toNat (fun x => { x with
        pennants := tset x.pennants tag.toNat { w with set := w.held.getD w.set, held := none, phase := w.phase + 1, arrived := [], split := [] } })) c.toNat w.split))
    ∧ ((∃ x ∈ setPositions w.set, x ∉ w.arrived) → exec (.pennantCompletion p c tag) s = .next s)))
/-! Control registers. -/

/-- R151, R179: rdc reads a control register and wrc writes one; an unlisted number raises ILLEGAL, and one that user privilege may not reach raises PRIV. What each number reads, what a write keeps of its operand, and which are read-only are listed; a write changes no other control register, no other stream and no memory. rdk, rdcyc, rdid and rdloop read a step register, CYCLE, an identity and a loop level of the task. -/
def Obligations.ControlRegisterResults : Prop :=
  ∀ (s : State) (n j : Nat) (t : Sid) (d : Reg) (num : BitVec 12) (k : BitVec 4) (w : IdReg) (l : BitVec 3),
    s.turn = .stream n j t →
    let m := num.toNat
    let v := reg s s.turn d
    let b := jobOf s n j
    let wr (v : Word) : Result := completes s 1 (setReg (began s) s.turn d v)
    (Ready 1 {} s →
      (isCreg m = true → (privRead m = false ∨ supervisor s s.turn = true) → exec (.rdc d num) s = wr (cregRead (began s) n j t m))
      ∧ (isCreg m = false → exec (.rdc d num) s = trapsWith s { cause := cIllegal })
      ∧ (isCreg m = true → privRead m = true → supervisor s s.turn = false → exec (.rdc d num) s = trapsWith s { cause := cPriv })
      ∧ exec (.rdcyc d) s = wr (BitVec.ofNat 64 (s.now - (coreOf s n).gated)))
    ∧ (Ready 1 { reads := [d] } s →
      (isCreg m = true → (privWrite m = false ∨ supervisor s s.turn = true) → (m ≠ 0x30 ∨ tiletypeBlocked b v = false) →
        exec (.wrc d num) s = completes s 1 (cregWrite (began s) n j t m v))
      ∧ (tiletypeBlocked b v = true → exec (.wrc d 0x30#12) s = waitsIn s (began s) .waiting)
      ∧ (isCreg m = false → exec (.wrc d num) s = trapsWith s { cause := cIllegal })
      ∧ (isCreg m = true → privWrite m = true → supervisor s s.turn = false → exec (.wrc d num) s = trapsWith s { cause := cPriv }))
    ∧ (Ready 1 { mgmt := false } s →
      exec (.rdk d k) s = wr (tget 0#64 (ctxOf s b.part b.ctx).k k.toNat)
      ∧ exec (.rdid d w) s = wr (match w with
          | .coreid => BitVec.ofNat 64 n | .streamid => BitVec.ofNat 64 (sidNum t) | .jobid => jobId b j | .part => BitVec.ofNat 64 b.part)
      ∧ exec (.rdloop d l) s = wr (BitVec.ofNat 64 (rdloopValue s b l.toNat)))
    ∧ isCreg m = decide (m ∈ [0x00, 0x01, 0x02, 0x03, 0x04, 0x10, 0x11, 0x12, 0x13, 0x20, 0x21, 0x22, 0x30, 0x40, 0x41, 0x42, 0x43, 0x44, 0x50, 0x60, 0x70, 0x71, 0x80, 0x81,
        0x90, 0x91, 0x92, 0x93, 0x94, 0x95, 0x96, 0x97])
    ∧ (isCreg m = true → privRead m = decide (m ∈ [0x40, 0x41, 0x42, 0x43, 0x44, 0x50, 0x60, 0x80]) ∧ privWrite m = (privRead m || m == 0x71))
    ∧ (let rd := cregRead s n j t
      let st := b.streams.get t
      rd 0x00 = jobId b j ∧ rd 0x01 = BitVec.ofNat 64 n ∧ rd 0x02 = BitVec.ofNat 64 (sidNum t) ∧ rd 0x03 = BitVec.ofNat 64 b.part
      ∧ rd 0x04 = BitVec.ofNat 64 (s.now - (coreOf s n).gated) ∧ rd 0x10 = (if t = .v then b.vwb.setWidth 64 else 0#64)
      ∧ rd 0x11 = st.fflags.setWidth 64 ∧ rd 0x12 = st.slip.setWidth 64
      ∧ rd 0x13 = (if t = .v then BitVec.ofNat 64 ((b.vq.filter (fun o => o.sid == .v)).length) else 0#64)
      ∧ rd 0x20 = b.uivec ∧ rd 0x21 = b.pend.setWidth 64 ||| (if b.inh then 0x8000000000000000#64 else 0#64) ∧ rd 0x22 = b.uimask.setWidth 64
      ∧ rd 0x30 = b.tiletype.setWidth 64 ∧ rd 0x40 = b.trapvec ∧ rd 0x41 = (if b.sv then BitVec.ofNat 64 (recordAt n j b.ts) else 0#64)
      ∧ rd 0x42 = statusWord b ∧ rd 0x43 = b.epc ∧ rd 0x44 = b.ecause.setWidth 64 ∧ rd 0x50 = (partOf s b.part).rtring ∧ rd 0x60 = b.dbgctl.setWidth 64
      ∧ rd 0x70 = Config.encid.setWidth 64 ∧ rd 0x71 = (ctxOf s b.part b.ctx).capbase
      ∧ rd 0x80 = (match b.npUntil with | some u => BitVec.ofNat 64 (u - s.now) | none => 0#64) ∧ rd 0x81 = BitVec.ofNat 64 (b.limit * 256 + b.depth)
      ∧ ∀ i < 4, rd (0x90 + 2 * i) = (loopOf st i).cnt.setWidth 64
          ∧ rd (0x91 + 2 * i) = ((loopOf st i).stop &&& 0x00FFFFFFFFFFFFFC#64) ||| (if (loopOf st i).act then 1#64 else 0#64))
    ∧ (isCreg m = true →
      let u := cregWrite s n j t m v
      let kept (z : Word) : Prop := cregRead u n j t m = z
      let low (w : Nat) : Word := BitVec.ofNat 64 (v.toNat % 2 ^ w)
      (m ∈ [0x00, 0x01, 0x02, 0x03, 0x04, 0x12, 0x13, 0x41, 0x42, 0x44, 0x70, 0x81] ∨ (m = 0x10 ∧ t ≠ .v) → u = s)
      ∧ (m ∈ [0x91, 0x93, 0x95, 0x97] → jobOf u n j = jobOf s n j)
      ∧ (m = 0x10 → t = .v → kept (low 10)) ∧ (m = 0x11 ∨ m = 0x60 → kept (low 5)) ∧ (m = 0x22 → kept (low 8)) ∧ (m ∈ [0x30, 0x90, 0x92, 0x94, 0x96] → kept (low 32))
      ∧ (m ∈ [0x20, 0x40, 0x43] → kept (v &&& 0x00FFFFFFFFFFFFFC#64)) ∧ (m = 0x21 → kept (cregRead s n j t m &&& ~~~(low 8)))
      ∧ (m = 0x50 → kept (v &&& 0x00FFFFFFFFFE0001#64)) ∧ (m = 0x71 → kept v) ∧ (m = 0x80 → kept (low 25))
      ∧ (∀ i, i ≠ m → isCreg i = true → cregRead u n j t i = cregRead s n j t i) ∧ (∀ x, x ≠ t → (jobOf u n j).streams.get x = (jobOf s n j).streams.get x) ∧ u.mem = s.mem)

/-! Loads, stores, atomics. -/

/-- R90, R180, R295, R333, with the model's readings of log entries 8 (the address translated at issue is kept) and 65 (what needs no travel is performed at once): a load whose address s[a] + sext(imm11) is aligned and translates enters the LQ, and its register awaits it; one that hits in L1 behind nothing has its value at once, the stores before it in the SQ laid over it, zero- or sign-extended. A store of the low bytes of s[d] enters the SQ. A miss parks the operation behind its ring entry. A misaligned access raises ALIGN with the address, a refused one its cause. On the management core both are done at once. -/
def Obligations.LoadAndStoreResults : Prop :=
  (∀ (s : State) (n j : Nat) (d a : Reg) (imm : BitVec 11), ∀ e ∈ loadForms d a imm, Ready 1 { streams := [.c], reads := [a] } s →
    let k := e.2.1
    let va := reg s s.turn a + BitVec.ofInt 64 imm.toInt
    let ext (l : List Byte) : Word := if e.2.2 then BitVec.ofInt 64 (BitVec.ofNat (8 * l.length) (leNat l)).toInt else BitVec.ofNat 64 (leNat l)
    (va.toNat % k ≠ 0 → exec e.1 s = trapsWith s { cause := cAlign, faddr := va })
    ∧ (s.turn = .stream n j .c → va.toNat % k = 0 →
      let r := regPlace s s.turn d
      let u := began s
      (∀ v pa key, cAddress u n j .lq va .read = .at v pa key →
        (hitsNow v n j va pa k = false → exec e.1 s = queuesIn s v n j .lq (.load va pa key k e.2.2 r) r)
        ∧ (∀ w l, hitsNow v n j va pa k = true → cachedRead v (jobOf s n j).part n pa k key = (w, .ok l) →
            exec e.1 s = completes s 1 (writePlace w s.turn r (ext (((jobOf s n j).sq.filter (fun o => o.seq < (jobOf s n j).seq)).foldl (overlayStore va pa) l)))))
      ∧ (∀ w i, cAddress u n j .lq va .read = .parks w i → exec e.1 s = parksC s w n j .lq (.load va 0 0 k e.2.2 r) r i)
      ∧ (∀ w t, cAddress u n j .lq va .read = .trap w t → exec e.1 s = .next (takeTrap w s.turn t)))
    ∧ (s.turn = .mgmt → va.toNat % k = 0 →
      (∀ l, mgmtRead (began s) va.toNat k = .ok l → exec e.1 s = completes s 1 (setReg (began s) s.turn d (ext l)))
      ∧ (∀ c, mgmtRead (began s) va.toNat k = .error c → exec e.1 s = trapsWith s { cause := c, faddr := va })))
  ∧ (∀ (s : State) (n j : Nat) (d a : Reg) (imm : BitVec 11),
    ∀ e ∈ [(Instr.stb d a imm, 1), (Instr.sth d a imm, 2), (Instr.stw d a imm, 4), (Instr.std d a imm, 8)], Ready 1 { streams := [.c], reads := [d, a] } s →
      let k := e.2
      let va := reg s s.turn a + BitVec.ofInt 64 imm.toInt
      let v := reg s s.turn d
      (va.toNat % k ≠ 0 → exec e.1 s = trapsWith s { cause := cAlign, faddr := va })
      ∧ (s.turn = .stream n j .c → va.toNat % k = 0 →
        (∀ u pa key, cAddress (began s) n j .sq va .write = .at u pa key → exec e.1 s = queuesIn s u n j .sq (.store va pa key k (v.toNat % 2 ^ (8 * k))) 0)
        ∧ (∀ w i, cAddress (began s) n j .sq va .write = .parks w i → exec e.1 s = parksC s w n j .sq (.store va 0 0 k (v.toNat % 2 ^ (8 * k))) 0 i)
        ∧ (∀ w t, cAddress (began s) n j .sq va .write = .trap w t → exec e.1 s = .next (takeTrap w s.turn t)))
      ∧ (s.turn = .mgmt → va.toNat % k = 0 →
        (∀ t, mgmtWrite (began s) va.toNat (leBytes k v.toNat) = .ok t → exec e.1 s = completes s 1 t)
        ∧ (∀ c, mgmtWrite (began s) va.toNat (leBytes k v.toNat) = .error c → exec e.1 s = trapsWith s { cause := c, faddr := va })))
/-- R183, with the model's readings of log entries 8 (the address translated at issue is kept) and 65 (what needs no travel is performed at once): an atomic on an aligned address of HBM enters the SQ with its operand and, for amocas, the comparand s[d]; ALIGN where misaligned, and a violation outside HBM. On the management core the old value comes at once and the new word is written (R333). The new word on memory word x of w bits with operand v and comparand c: sum, and, or, exclusive or, signed and unsigned minimum and maximum, swap, compare and swap, and the f32 sum of two 32-bit words. -/
def Obligations.AtomicResults : Prop :=
  (∀ (s : State) (n j : Nat) (d a b : Reg) (ord : Order) (wd : Width), ∀ e ∈ atomicForms d a b ord wd,
      Ready 1 { streams := [.c], reads := if e.2.1 = 9 then [d, a, b] else [a, b] } s →
      let op := e.2.1
      let k := match e.2.2 with | .w => 4 | .d => 8
      let va := reg s s.turn a
      let v := reg s s.turn b
      let c := reg s s.turn d
      (va.toNat % k ≠ 0 → exec e.1 s = trapsWith s { cause := cAlign, faddr := va })
      ∧ (s.turn = .stream n j .c → va.toNat % k = 0 →
        let r := regPlace s s.turn d
        (∀ u pa key, cAddress (began s) n j .sq va .write = .at u pa key →
          (region pa = .hbm → exec e.1 s = queuesIn s u n j .sq (.atomic (BitVec.ofNat 4 op) e.2.2 ord va pa key r v c) r)
          ∧ (region pa ≠ .hbm → exec e.1 s = .next (takeTrap u s.turn { cause := cXlatPerm, faddr := va, freeze := true })))
        ∧ (∀ w i, cAddress (began s) n j .sq va .write = .parks w i → exec e.1 s = parksC s w n j .sq (.atomic (BitVec.ofNat 4 op) e.2.2 ord va 0 0 r v c) r i)
        ∧ (∀ w t, cAddress (began s) n j .sq va .write = .trap w t → exec e.1 s = .next (takeTrap w s.turn t)))
      ∧ (s.turn = .mgmt → va.toNat % k = 0 → ∀ l t, mgmtRead (began s) va.toNat k = .ok l →
          mgmtWrite (began s) va.toNat (leBytes k (amoWord op (8 * k) (leNat l) (v.toNat % 2 ^ (8 * k)) (c.toNat % 2 ^ (8 * k)))) = .ok t →
          exec e.1 s = completes s 1 (setReg t s.turn d (BitVec.ofNat 64 (leNat l))))
      ∧ (s.turn = .mgmt → va.toNat % k = 0 → ∀ x, mgmtRead (began s) va.toNat k = .error x → exec e.1 s = trapsWith s { cause := x, faddr := va }))
  ∧ (∀ (w x v c : Nat), x < 2 ^ w → v < 2 ^ w → c < 2 ^ w → 0 < w →
      let sx := (BitVec.ofNat w x).toInt
      let sv := (BitVec.ofNat w v).toInt
      amoWord 0 w x v c = (x + v) % 2 ^ w
      ∧ amoWord 1 w x v c = (BitVec.ofNat w x &&& BitVec.ofNat w v).toNat
      ∧ amoWord 2 w x v c = (BitVec.ofNat w x ||| BitVec.ofNat w v).toNat
      ∧ amoWord 3 w x v c = (BitVec.ofNat w x ^^^ BitVec.ofNat w v).toNat
      ∧ amoWord 4 w x v c = (if sx ≤ sv then x else v)
      ∧ amoWord 5 w x v c = (if x ≤ v then x else v)
      ∧ amoWord 6 w x v c = (if sx ≤ sv then v else x)
      ∧ amoWord 7 w x v c = (if x ≤ v then v else x)
      ∧ amoWord 8 w x v c = v
      ∧ amoWord 9 w x v c = (if x = c then v else x)
      ∧ amoWord 10 w x v c = (addF fmtF32 (x % 2 ^ 32) (v % 2 ^ 32)).1 % 2 ^ 32)

/-- R181, R182, R185, R187, R283, with the model's choice of log entry 65 (what needs no travel is performed at once): the instructions of the C stream whose operation enters the SQ with its operands and whose result register awaits it: ownership, tasks, work-lists and the Firn. wlpopb of a misaligned address raises ALIGN; a Firn instruction whose descriptor or tile id is not one of the graph raises FIRN_DESC. -/
def Obligations.SqInstructionResults : Prop :=
  ∀ (s : State) (n j : Nat) (d a b : Reg), s.turn = .stream n j .c →
    let r := regPlace s s.turn d
    let x := reg s s.turn a
    let y := reg s s.turn b
    let q (k : OpKind) : Result := queuesC s n j .sq k r
    let desc := descByVa (began s) (jobOf s n j).part (jobOf s n j).ctx x
    let noDesc : Result := trapsWith s { cause := cFirnDesc }
    (Ready 1 { streams := [.c], mgmt := false, reads := [a, b] } s →
      exec (.own d a b) s = q (.own x y r) ∧ exec (.spawn d a b) s = q (.spawn r x y)
      ∧ exec (.wlcfg d a b) s = q (.wlcfg r x y) ∧ exec (.wlpush d a b) s = q (.wlpush r x y) ∧ exec (.wlins d a b) s = q (.wlins r x y)
      ∧ (y.toNat % 4 = 0 → exec (.wlpopb d a b) s = q (.wlpopb r x y))
      ∧ (y.toNat % 4 ≠ 0 → exec (.wlpopb d a b) s = trapsWith s { cause := cAlign, faddr := y })
      ∧ (∀ f, desc = some f → y.toNat % 2 ^ 24 < f.count → exec (.frnck d a b) s = q (.frnck r x y) ∧ exec (.frnput d a b) s = q (.frnput r x y)
          ∧ exec (.frninv d a b) s = q (.frninv r x y) ∧ exec (.frnstat d a b) s = q (.frnstat r x y))
      ∧ ((desc = none ∨ ∃ f, desc = some f ∧ f.count ≤ y.toNat % 2 ^ 24) → exec (.frnck d a b) s = noDesc ∧ exec (.frnput d a b) s = noDesc
          ∧ exec (.frninv d a b) s = noDesc ∧ exec (.frnstat d a b) s = noDesc))
    ∧ (Ready 1 { streams := [.c], mgmt := false, reads := [a] } s →
      exec (.disown d a) s = q (.disown x r) ∧ exec (.sptest d a) s = q (.sptest r x) ∧ exec (.depdec d a) s = q (.depdec r x)
      ∧ exec (.depinc d a) s = q (.depinc r x) ∧ exec (.wlcnt d a) s = q (.wlcnt r x) ∧ exec (.wldrain d a) s = q (.wldrain r x)
      ∧ ((x = 0#64 ∨ desc ≠ none) → exec (.frnflush d a) s = q (.frnflush r x))
      ∧ (x ≠ 0#64 → desc = none → exec (.frnflush d a) s = noDesc))

/-- R59, R101, R104, R181, R184, with the model's choices of log entries 65 (what needs no travel is performed at once) and 70 (what a bad ticket is): spwait, fences, lsmark and cache control. A fence waits until every operation that stands in a queue of its mask when it issues has been performed; fence is then an acquire. spwait of a bad ticket gives -1, else it waits for every earlier spawn and acquire of the SQ and for the task, is itself an acquire, and gives 0. pref brings a readable line of HBM into the L1, unless an error strikes its walk or its read (R17, log entry 12), and otherwise leaves only what its walk fills. -/
def Obligations.FenceAndCacheResults : Prop :=
  ∀ (s : State) (n j : Nat) (d a b : Reg) (mask : BitVec 7), s.turn = .stream n j .c →
    let c := jobOf s n j
    let u := began s
    let x := reg s s.turn a
    let f (m : BitVec 7) : Fence := c.fence.getD { mask := m, limit := c.seq }
    let open' (acq : Bool) : Result :=
      let v := modJob u n j (fun b => { b with fence := none })
      completes s 1 (moveC (if acq then acquire v n else v) n j)
    let hold (m : BitVec 7) : Result := waitsIn s (modJob u n j (fun b => { b with fence := some (f m) })) .waiting
    let behind : Bool := c.sq.any (fun o => isAcq o.kind || (match o.kind with | .spawn _ _ _ => true | _ => false))
    (Ready 1 { streams := [.c] } s →
      (fenceDone c (f 0x7F#7) = true → exec .fence s = open' true) ∧ (fenceDone c (f 0x7F#7) = false → exec .fence s = hold 0x7F#7)
      ∧ exec .lsmark s = completes s 1 (moveC (modJob (enqueue u s.turn .lq .mark []) n j (fun b => { b with sq := b.sq ++ (b.lq.filter (fun o => o.seq + 1 == b.seq)) })) n j)
      ∧ exec .l1inva s = queuesC s n j .lq .l1inva 0)
    ∧ (Ready 1 { streams := [.c], mgmt := false } s →
      ((mask = 0#7 ∨ fenceDone c (f mask) = true) → exec (.qfence mask) s = open' false) ∧ (mask ≠ 0#7 → fenceDone c (f mask) = false → exec (.qfence mask) s = hold mask))
    ∧ (Ready 1 { streams := [.c], reads := [a, b] } s →
      ((reg s s.turn b).toNat ≤ 0x10000 → exec (.l1inv a b) s = queuesC s n j .lq (.l1inv x.toNat (x.toNat + (reg s s.turn b).toNat)) 0)
      ∧ (0x10000 < (reg s s.turn b).toNat → exec (.l1inv a b) s = queuesC s n j .lq .l1inva 0))
    ∧ (Ready 1 { streams := [.c], reads := [a] } s →
      let who := (jobVia u n j .lq .c).who
      let struck := walkStruck u who x
      let t := if struck then u else walked u who x
      let fails (pa : Nat) : Prop := struck = true ∨ (findLine (coreOf u n) (lineAt pa) = none ∧ Config.transitError u.tick = true)
      (∀ pa key v l, translate u c.part c.ctx (some n) x .read (!c.sv) = .ok pa key → region pa = .hbm → ¬ fails pa → cachedRead t c.part n pa 1 key = (v, .ok l) → exec (.pref a) s = completes s 1 v)
      ∧ ((∀ pa key, translate u c.part c.ctx (some n) x .read (!c.sv) = .ok pa key → region pa ≠ .hbm ∨ fails pa) → exec (.pref a) s = completes s 1 t))
    ∧ (Ready 1 { streams := [.c], mgmt := false, reads := [a] } s →
      (badTicket x = true → exec (.spwait d a) s = completes s 1 (setReg u s.turn d (BitVec.ofInt 64 (-1))))
      ∧ (badTicket x = false → behind = false → ticketDone u c.part x = true → exec (.spwait d a) s = completes s 1 (setReg (acquire u n) s.turn d 0#64))
      ∧ (badTicket x = false → (behind = true ∨ ticketDone u c.part x = false) → exec (.spwait d a) s = waitsIn s u .waiting))

/-- R75, R189, with the model's readings of log entries 8 (the address translated at issue is kept) and 65 (what needs no travel is performed at once): a vault instruction on a 4-byte-aligned address of a vault enters the SQ, vtcas with the comparand s[d] and the new word s[b], the others with the halves of s[b]; ALIGN where misaligned and a violation outside the vaults. -/
def Obligations.VaultWordResults : Prop :=
  ∀ (s : State) (n j : Nat) (d a b : Reg), s.turn = .stream n j .c →
    let va := reg s s.turn a
    let lo : BitVec 32 := (reg s s.turn b).setWidth 32
    let hi : BitVec 32 := (reg s s.turn b >>> 32).setWidth 32
    let cmp : BitVec 32 := (reg s s.turn d).setWidth 32
    let r := regPlace s s.turn d
    ∀ e ∈ [(Instr.vtadd d a b, VaultOp.radd, lo, hi), (Instr.vtfadd d a b, VaultOp.fadd, lo, hi), (Instr.vtmax d a b, VaultOp.max, lo, hi), (Instr.vtcas d a b, VaultOp.cas, cmp, lo), (Instr.vtsac d a b, VaultOp.sac, lo, hi)],
      Ready 1 { streams := [.c], mgmt := false, reads := if e.2.1 = .cas then [d, a, b] else [a, b] } s →
      (va.toNat % 4 ≠ 0 → exec e.1 s = trapsWith s { cause := cAlign, faddr := va })
      ∧ (∀ u pa key, va.toNat % 4 = 0 → cAddress (began s) n j .sq va .write = .at u pa key →
          (∀ m off, region pa = .vault m off → exec e.1 s = queuesIn s u n j .sq (.vaultWord e.2.1 va pa r e.2.2.1 e.2.2.2) r)
          ∧ ((∀ m off, region pa ≠ .vault m off) → exec e.1 s = .next (takeTrap u s.turn { cause := cXlatPerm, faddr := va, freeze := true })))
      ∧ (∀ w i, va.toNat % 4 = 0 → cAddress (began s) n j .sq va .write = .parks w i → exec e.1 s = parksC s w n j .sq (.vaultWord e.2.1 va 0 r e.2.2.1 e.2.2.2) r i)
      ∧ (∀ w t, va.toNat % 4 = 0 → cAddress (began s) n j .sq va .write = .trap w t → exec e.1 s = .next (takeTrap w s.turn t))

/-! Traps and the system group. -/

/-- R190, R191, R247, R298, R334: trap, brk and sysc stop the C stream with their causes, sysc to go on behind it; eret returns from the supervisor handler, or on the management core to MEPC; uiret returns from a user-interrupt handler, also where a supervisor handler has interrupted it (INH 1 and SV 1: the model's choice, log entry 88), and raises ILLEGAL outside one. -/
def Obligations.TrapInstructionResults : Prop :=
  ∀ (s : State) (a : Reg),
    let v := reg s s.turn a
    (Ready 1 { streams := [.c], reads := [a] } s →
      exec (.trap a) s = trapsWith s { cause := cTrap, status := v &&& 0x7FFFFFFFFFFFFFFF#64 }
      ∧ exec (.sysc a) s = trapsWith s { cause := cTrap, status := v ||| 0x8000000000000000#64, next := some ((streamOf s s.turn).pc + 4#64) })
    ∧ (Ready 1 { streams := [.c] } s → exec .brk s = trapsWith s { cause := cBreak })
    ∧ (Ready 1 { streams := [.c], sup := true } s →
      (∀ n j, s.turn = .stream n j .c → exec .eret s = .next (returnTrap (began s) n j))
      ∧ (s.turn = .mgmt → exec .eret s = .next (returnMgmt (began s))))
    ∧ (Ready 1 { streams := [.c], mgmt := false } s → ∀ n j, s.turn = .stream n j .c →
      ((jobOf s n j).inh = true → exec .uiret s = goesOn s (modJob (modStream (began s) s.turn releaseLoops) n j (fun b => { b with inh := false })) (.ret (jobOf s n j).uiret.pc))
      ∧ ((jobOf s n j).inh = false → exec .uiret s = trapsWith s { cause := cIllegal }))

/-- R295, R297, R299: a cause of the C stream outside a handler and with no trap before it writes its record and enters the handler at once: EPC holds its restart point (behind a sysc the next instruction, reached with the end tests of R167), ECAUSE its cause, SV and TS show it, the stream goes on at TRAPVEC with its registers as they were. A cause of another stream writes that stream's record, stops it, and becomes pending behind the traps before it; the other streams go on as they were. In the first case the C stream's control state changes alone: the job's other fields and streams, the other slot, the other cores and the partitions stay, and memory changes in the record alone; in the second the other streams, SV, EPC, the other cores and the partitions stay, and memory outside the record. The PC of the record is the instruction that stopped, of sysc the sysc itself (the model's reading, log entry 44). Left out here: DATA_UE, which stops the context instead (R306), and a C stream that waits when its cause comes. -/
def Obligations.TrapEntry : Prop :=
  (∀ (s : State) (n j : Nat) (tr : Trap),
    let b := jobOf s n j
    b.sv = false → b.traps = [] → (coreOf s n).frozen = false → tr.freeze = false → tr.cause ≠ cDataUe → b.streams.c.run = .running →
    let t := takeTrap s (.stream n j .c) tr
    let c := jobOf t n j
    let at' (i k : Nat) : Nat := leNat (memReadN t.mem (recordAt n j .c + i) k)
    c.sv = true ∧ c.ts = .c ∧ c.traps = [] ∧ c.epc = (match tr.next with | some x => seqTo b.streams.c x | none => b.streams.c).pc &&& 0x00FFFFFFFFFFFFFC#64 ∧ c.ecause = tr.cause
    ∧ c.streams.c.pc = b.trapvec ∧ c.streams.c.run = .running ∧ c.streams.c.regs = b.streams.c.regs ∧ c.streams.c.fflags = b.streams.c.fflags
    ∧ c = { b with streams := c.streams, fence := none, traps := c.traps, sv := c.sv, ts := c.ts, epc := c.epc, ecause := c.ecause, ret := c.ret }
    ∧ (∀ x, x ≠ .c → c.streams.get x = b.streams.get x)
    ∧ coreOf t n = setSlot (coreOf s n) j (slotOf (coreOf t n) j) ∧ (∀ m, m ≠ n → coreOf t m = coreOf s m) ∧ t = { s with cores := t.cores, mem := t.mem }
    ∧ at' 0 1 = tr.cause.toNat ∧ at' 1 1 = 0 ∧ at' 4 4 = b.streams.c.cmd.toNat ∧ at' 8 8 = b.streams.c.pc.toNat ∧ at' 16 8 = tr.status.toNat ∧ at' 24 8 = tr.faddr.toNat
    ∧ (∀ x, x < recordAt n j .c ∨ recordAt n j .c + 64 ≤ x → memRead t.mem x = memRead s.mem x))
  ∧ (∀ (s : State) (n j : Nat) (t : Sid) (tr : Trap), t ≠ .c → tr.freeze = false → tr.cause ≠ cDataUe →
    let b := jobOf s n j
    let u := takeTrap s (.stream n j t) tr
    let c := jobOf u n j
    c.traps = b.traps ++ [t] ∧ (c.streams.get t).run = .stopped ∧ (c.streams.get t).regs = (b.streams.get t).regs
    ∧ (∀ x, x ≠ t → c.streams.get x = b.streams.get x) ∧ c = { b with streams := c.streams, traps := c.traps }
    ∧ coreOf u n = setSlot (coreOf s n) j (slotOf (coreOf u n) j) ∧ (∀ m, m ≠ n → coreOf u m = coreOf s m) ∧ u = { s with cores := u.cores, mem := u.mem }
    ∧ leNat (memReadN u.mem (recordAt n j t) 1) = tr.cause.toNat
    ∧ (∀ x, x < recordAt n j t ∨ recordAt n j t + 64 ≤ x → memRead u.mem x = memRead s.mem x))

/-- R297: TRAP_DELIVERY, with no fault still to be raised, gives the oldest pending trap to the C stream while it is in no handler and its core is not frozen: TS names the stream, EPC its restart point, ECAUSE the cause of its record, and the C stream, whose return point is kept, enters TRAPVEC. A trap of the C stream itself, which is stopped until then, is delivered the same way, and its return point is where it stopped. Otherwise nothing happens. -/
def Obligations.TrapIsDelivered : Prop :=
  ∀ (s : State) (n : CoreNo) (j : Nat) (t : Sid) (rest : List Sid),
    (coreOf s n.toNat).active = some j → (jobOf s n.toNat j).killed = false → (jobOf s n.toNat j).suspending = none → (∀ x, ((jobOf s n.toNat j).streams.get x).faults = []) →
    let b := jobOf s n.toNat j
    (b.traps = t :: rest → b.sv = false → (coreOf s n.toNat).frozen = false → b.streams.c.run = (if t = .c then .stopped else .running) →
      ∃ u, exec (.trapDelivery n) s = .next u ∧
        let c := jobOf u n.toNat j
        c.sv = true ∧ c.ts = t ∧ c.traps = rest ∧ c.epc = (b.streams.get t).pc &&& 0x00FFFFFFFFFFFFFC#64 ∧ c.ecause = memRead s.mem (recordAt n.toNat j t)
        ∧ c.streams.c.pc = b.trapvec ∧ c.streams.c.run = .running ∧ c.ret.pc = b.streams.c.pc ∧ c.streams.c.regs = b.streams.c.regs
        ∧ (∀ x, x ≠ .c → c.streams.get x = b.streams.get x) ∧ u.mem = s.mem)
    ∧ ((b.sv = true ∨ (coreOf s n.toNat).frozen = true ∨ b.traps = []) → exec (.trapDelivery n) s = .next s)

/-- R298: the return from the supervisor handler clears SV; the handled stream restarts at EPC, and the C stream, where another stream was handled, goes on at its return point; every other stream, the registers and memory stay. -/
def Obligations.TrapReturn : Prop :=
  ∀ (s : State) (n j : Nat), (∀ t, ((jobOf s n j).streams.get t).used = true) →
    let b := jobOf s n j
    let u := returnTrap s n j
    let c := jobOf u n j
    c.sv = false ∧ (c.streams.get b.ts).pc = b.epc ∧ (c.streams.get b.ts).run = .running
    ∧ (b.ts ≠ .c → b.ret.ended = false → c.streams.c.pc = b.ret.pc ∧ c.streams.c.run = .running)
    ∧ (∀ t, (c.streams.get t).regs = (b.streams.get t).regs) ∧ (∀ t, t ≠ b.ts → t ≠ .c → c.streams.get t = b.streams.get t) ∧ u.mem = s.mem

/-- R298, R304: a cause of the C stream inside its supervisor handler, and a violation of any stream, freeze the core and its slot; the first shows as a double fault, which a later violation leaves standing. A frozen core issues nothing. -/
def Obligations.FreezeOnViolation : Prop :=
  ∀ (s : State) (n j : Nat) (t : Sid) (tr : Trap), tr.cause ≠ cDataUe → (tr.freeze = true ∨ (t = .c ∧ (jobOf s n j).sv = true)) →
    let u := takeTrap s (.stream n j t) tr
    (coreOf u n).frozen = true ∧ (slotOf (coreOf u n) j).st = .frozen ∧ (coreOf u n).doubleFault = ((coreOf s n).doubleFault || (t == .c && (jobOf s n j).sv))
    ∧ (∀ p, partOfCore s n = some p → (partOf u p).event.getLsbD 0 = true) ∧ (∀ x, canIssue u (.stream n j x) = false)

/-- R192 to R194, R89, R94, R102, R301, R303, with the model's readings of log entries 8 (what tlbinv waits for) and 52 (kill of a saved or frozen slot, and by the handler of the job itself): the supervisor instructions give their status: rtnext the pending entry posted longest ago or -1; rtfill -2 where no pending entry of an access has that index, -1 while the page still misses or is write-protected, else that of the accesses it completes, for which it waits; resume -2, -1, -3 or 0; kill likewise, ending the handler that kills its own job; tlbinv drops entries of its partition by page and context, by context, or all, and waits for the accesses of the C streams that still hold a translation changed since. -/
def Obligations.SupervisorResults : Prop :=
  ∀ (s : State) (n j : Nat) (d a b : Reg), s.turn = .stream n j .c →
    let u := began s
    let p := (jobOf s n j).part
    let v := reg s s.turn a
    let m := v.toNat % 256
    let i := v.toNat / 256 % 2
    let st := (slotOf (coreOf u m) i).st
    let wr (t : State) (x : Int) : Result := completes s 1 (setReg t s.turn d (BitVec.ofInt 64 x))
    (Ready 1 { streams := [.c], sup := true, mgmt := false } s →
      exec (.rtnext d) s = wr u (match oldestEntry (partOf s p) with | some i => i | none => -1))
    ∧ (Ready 1 { streams := [.c], sup := true, mgmt := false, reads := [a] } s →
      ((∀ x, (ringFill u p v).2 = some x → exec (.rtfill d a) s = completes s 1 (setReg (ringFill u p v).1 s.turn d x))
      ∧ ((ringFill u p v).2 = none → exec (.rtfill d a) s = waitsIn s (ringFill u p v).1 .waiting)
      ∧ (4096 ≤ v.toNat ∨ (∀ e, tfind (partOf s p).ring v.toNat = some e → e.pend = false ∨ e.kind = 4) → exec (.rtfill d a) s = wr u (-2))
      ∧ (∀ e, v.toNat < 4096 → tfind (partOf s p).ring v.toNat = some e → e.pend = true → e.kind ≠ 4 → e.filling = 0 → fillStatus u p v.toNat e = none → exec (.rtfill d a) s = wr u (-1))
      ∧ (512 ≤ v.toNat → exec (.resume d a) s = wr u (-2) ∧ exec (.kill d a) s = wr u (-2))
      ∧ (v.toNat < 512 → (partOf s p).pgran.getLsbD (m / 16) = false → exec (.resume d a) s = wr u (-1) ∧ exec (.kill d a) s = wr u (-1))
      ∧ (v.toNat < 512 → (partOf s p).pgran.getLsbD (m / 16) = true →
        (st ≠ .suspended → exec (.resume d a) s = wr u (-3))
        ∧ (st = .suspended → exec (.resume d a) s = wr (resumeJob u p m i) 0)
        ∧ (st = .staged ∨ st = .suspended → exec (.kill d a) s = completes s 1 (killIdle (setReg u s.turn d 0#64) p m i))
        ∧ (st = .active ∨ st = .drain → ¬ (m = n ∧ i = j) → exec (.kill d a) s = completes s 1 (killActive (setReg u s.turn d 0#64) m i))
        ∧ (st = .active ∨ st = .drain → m = n → i = j → exec (.kill d a) s = .next (killActive (setReg u s.turn d 0#64) m i))
        ∧ (st = .empty ∨ st = .frozen ∨ st = .saved → exec (.kill d a) s = wr u (-3))))
    ∧ (Ready 1 { streams := [.c], sup := true, mgmt := false, reads := [a, b] } s →
      let mode := (reg s s.turn b).toNat
      let hit (e : TlbEntry) : Bool := e.part == p &&
        (if mode = 0 then e.ctx == (jobOf s n j).ctx && e.va ≤ v.toNat && v.toNat < e.va + e.size else if mode = 1 then e.ctx == (jobOf s n j).ctx else true)
      let keep (l : List TlbEntry) : List TlbEntry := l.filter (fun e => !hit e)
      let w : State := { u with cores := u.cores.map (fun e => (e.1, { e.2 with tlb := keep e.2.tlb })), dieXlat := u.dieXlat.map (fun e => (e.1, keep e.2)) }
      -- a C-stream access of an active job in scope that still holds an older translation
      let old (c i : Nat) (o : Op) : Prop := c ∈ coresOf w p ∧ (coreOf w c).active = some i ∧ tlbScope p (jobOf s n j).ctx mode (jobOf w c i) = true
        ∧ o ∈ (jobOf w c i).lq ++ (jobOf w c i).sq ∧ isStale w (jobOf w c i) c o = true
      ((∀ c i o, ¬ old c i o) → exec (.tlbinv a b) s = completes s 1 w)
      ∧ ((∃ c i o, old c i o) → (∀ c ∈ coresOf w p, (coreOf w c).frozen = false ∧ ∀ i, (coreOf w c).active = some i → ∀ o ∈ (jobOf w c i).lq ++ (jobOf w c i).sq, o.parked = 0) →
          exec (.tlbinv a b) s = waitsIn s w .waiting)))

/-! The A stream. -/

/-- R224, R226, R227, R230, with the model's choice of log entry 24 for aprf: apcfg configures a pattern from 8-byte pairs of count and stride, ILLEGAL for a count of 0, ALIGN and XLAT_PERM for a bad block; astrm and astro take their slots and move the cursor on, agath and ascat take theirs and read indices; aprf has no effect a program sees. An unconfigured pattern is ILLEGAL. -/
def Obligations.PatternResults : Prop :=
  ∀ (s : State) (n j : Nat) (pn : Pat) (a b : Reg) (sp : Space) (lge : BitVec 4) (dims : BitVec 2) (q qi : Handle) (k3 : BitVec 3), s.turn = .stream n j .a →
    let u := began s
    let c := jobOf s n j
    let off := (reg s s.turn b).toNat % 2 ^ 21
    let fld (i : Nat) : Nat := leNat (((memReadN s.mem (coreAt n + off) 32).drop i).take 4)
    let ds : List Dim := (List.range (dims.toNat + 1)).map (fun i => { count := fld (8 * i), stride := (BitVec.ofNat 32 (fld (8 * i + 4))).toInt })
    let k := k3.toNat + 1
    (Ready 2 { streams := [.a], reads := [a, b] } s →
      (off % 32 ≠ 0 → exec (.apcfg pn a b sp lge dims) s = trapsWith s { cause := cAlign })
      ∧ (off % 32 = 0 → 0x180000 < off + 32 → exec (.apcfg pn a b sp lge dims) s = trapsWith s { cause := cXlatPerm })
      ∧ (off % 32 = 0 → off + 32 ≤ 0x180000 → (∀ o ∈ c.aq, opPattern o.kind ≠ some pn.toNat) →
        ((∃ x ∈ ds, x.count = 0) → exec (.apcfg pn a b sp lge dims) s = trapsWith s { cause := cIllegal })
        ∧ ((∀ x ∈ ds, x.count ≠ 0) → exec (.apcfg pn a b sp lge dims) s = completes s 2 (modJob u n j (fun b => { b with
            patterns := tset b.patterns pn.toNat { base := reg s s.turn a, lge := lge.toNat, space := sp, dims := ds } })))))
    ∧ (Ready 1 { streams := [.a] } s →
      (tfind c.patterns pn.toNat = none → ∀ i ∈ [Instr.astrm q pn k3, .astro q pn k3, .agath q qi pn k3, .ascat q qi pn k3], exec i s = trapsWith s { cause := cIllegal })
      ∧ (∀ p, tfind c.patterns pn.toNat = some p → aqCount c < 64 →
        (∀ x, aQueue u n j q .producer 0 (2 ^ p.lge) k = some x → k ≤ qFree x →
          exec (.astrm q pn k3) s = completes s 1 (modJob (enqueue u s.turn .aq (.astrm q x.tail pn.toNat p p.cursor k) [q]) n j (fun b => { b with patterns := tset b.patterns pn.toNat (moveCursor p k) }))
          ∧ (∀ y, aQueue u n j qi .consumer 1 4 k = some y → k ≤ qFilled y →
              exec (.agath q qi pn k3) s = queuesUp s 1 .aq (.agath q qi x.tail y.head pn.toNat p 0 k) [q, qi]))
        ∧ (∀ x, aQueue u n j q .consumer 0 (2 ^ p.lge) k = some x → k ≤ qFilled x →
          exec (.astro q pn k3) s = completes s 1 (modJob (enqueue u s.turn .aq (.astro q x.head pn.toNat p p.cursor k) [q]) n j (fun b => { b with patterns := tset b.patterns pn.toNat (moveCursor p k) }))
          ∧ (∀ y, aQueue u n j qi .consumer 1 4 k = some y → k ≤ qFilled y →
              exec (.ascat q qi pn k3) s = queuesUp s 1 .aq (.ascat q qi x.head y.head pn.toNat p 0 k) [q, qi]))
        ∧ (aQueue u n j q .producer 0 (2 ^ p.lge) k = none → exec (.astrm q pn k3) s = trapsWith s { cause := cQueue })
        ∧ (aQueue u n j q .consumer 0 (2 ^ p.lge) k = none → exec (.astro q pn k3) s = trapsWith s { cause := cQueue })))
    ∧ (Ready 1 { streams := [.a], reads := [a] } s →
      (tfind c.patterns pn.toNat = none → exec (.aprf a pn) s = trapsWith s { cause := cIllegal })
      ∧ (tfind c.patterns pn.toNat ≠ none → exec (.aprf a pn) s = completes s 1 u))

/-- R231 to R234, with the model's choices of log entry 69 (the causes of a bad descriptor address, and the accepted empty window): awcfg reads a window descriptor, ILLEGAL where a field is out of range, and gives OH × OW; awpass selects a pass of at most 16 × 16 taps and gives its slots, or -1; awin takes slots and moves the cursor on modulo the slots of the pass, and does nothing in an empty pass. -/
def Obligations.WindowResults : Prop :=
  ∀ (s : State) (n j : Nat) (d a b : Reg) (sp : Space) (lge : BitVec 2) (q : Handle) (k3 : BitVec 3), s.turn = .stream n j .a →
    let u := began s
    let c := jobOf s n j
    let off := (reg s s.turn a).toNat % 2 ^ 21
    let parsed := parseWindow (memReadN s.mem (coreAt n + off) 32) sp lge.toNat (leBytes (2 ^ lge.toNat) (reg s s.turn b).toNat)
    let k := k3.toNat + 1
    (Ready 2 { streams := [.a], reads := [a, b] } s →
      (off % 32 ≠ 0 → exec (.awcfg d a b sp lge) s = trapsWith s { cause := cAlign })
      ∧ (off % 32 = 0 → 0x180000 < off + 32 → exec (.awcfg d a b sp lge) s = trapsWith s { cause := cXlatPerm })
      ∧ (off % 32 = 0 → off + 32 ≤ 0x180000 →
        (parsed = none → exec (.awcfg d a b sp lge) s = trapsWith s { cause := cIllegal })
        ∧ (∀ w, parsed = some w → exec (.awcfg d a b sp lge) s = completes s 2 (setReg (modJob u n j (fun b => { b with window := some w })) s.turn d (BitVec.ofNat 64 (winOH w * winOW w))))))
    ∧ (Ready 1 { streams := [.a], reads := [a] } s →
      (c.window = none → exec (.awpass d a) s = trapsWith s { cause := cIllegal })
      ∧ (∀ w, c.window = some w → let i := (reg s s.turn a).toNat
          (winPH w * winPW w ≤ i → exec (.awpass d a) s = completes s 1 (setReg u s.turn d (BitVec.ofInt 64 (-1))))
          ∧ (i < winPH w * winPW w → let y : Window := { w with pass := i, cursor := 0 }
              exec (.awpass d a) s = completes s 1 (setReg (modJob u n j (fun b => { b with window := some y })) s.turn d (BitVec.ofNat 64 (winSlots y))))))
    ∧ (Ready 1 { streams := [.a] } s →
      (c.window = none → exec (.awin q k3) s = trapsWith s { cause := cIllegal })
      ∧ (∀ w x, c.window = some w → aQueue u n j q .producer 0 (w.c * 2 ^ w.lge) k = some x →
        (winSlots w = 0 → exec (.awin q k3) s = completes s 1 u)
        ∧ (winSlots w ≠ 0 → k ≤ qFree x → aqCount c < 64 →
          exec (.awin q k3) s = completes s 1 (modJob (enqueue u s.turn .aq (.awin q x.tail w w.cursor k) [q]) n j (fun b => { b with window := some { w with cursor := (w.cursor + k) % winSlots w } })))))

/-! The V stream. -/

/-- R148, R197, R199: a lane instruction whose rows hold an invalid code, or codes that differ, raises TILETYPE; one that names a busy tile waits; so for every lane instruction of two and of one source. -/
def Obligations.VectorRowChecks : Prop :=
  ∀ (s : State) (n j : Nat) (d a b : VReg), s.turn = .stream n j .v → Ready 1 { streams := [.v] } s →
    let k := jobOf s n j
    let code (v : VReg) := rowCode k (rowOf k v)
    let busy (v : VReg) := tileBusy k (tileOf (rowOf k v))
    let two : List Instr := [.vadd d a b, .vsub d a b, .vmul d a b, .vfma d a b, .vfms d a b, .vfnma d a b, .vmin d a b, .vmax d a b, .vminp d a b, .vmaxp d a b, .vdiv d a b,
      .vand d a b, .vor d a b, .vxor d a b, .vsll d a b, .vsrl d a b, .vsra d a b, .vaddsat d a b, .vsubsat d a b, .vmulhi d a b]
    let one : List Instr := [.vabs d a, .vneg d a, .vsqrt d a, .vsgn d a, .vnot d a, .vexp2 d a, .vlog2 d a, .vmov d a]
    (∀ i ∈ two,
      ((∃ v ∈ [d, a, b], validCode (code v) = false ∨ code v ≠ code d) → exec i s = trapsWith s { cause := cTileType })
      ∧ ((∀ v ∈ [d, a, b], validCode (code v) = true ∧ code v = code d) → (∃ v ∈ [d, a, b], busy v = true) → exec i s = waitsIn s (began s) .waiting))
    ∧ (∀ i ∈ one,
      ((∃ v ∈ [d, a], validCode (code v) = false ∨ code v ≠ code d) → exec i s = trapsWith s { cause := cTileType })
      ∧ ((∀ v ∈ [d, a], validCode (code v) = true ∧ code v = code d) → (∃ v ∈ [d, a], busy v = true) → exec i s = waitsIn s (began s) .waiting))

/-- R203: arithmetic lane by lane, in the tile's format with its rounding and flags, or in i32 with wrap-around. What the floating operations give, minima and maxima among them, is stated in AluFloatResults (`arithmeticRounds`, `minmaxPicks`). -/
def Obligations.VectorArithmeticResults : Prop :=
  ∀ (s : State) (n j : Nat) (d a b : VReg),
    let k := jobOf s n j
    let code := rowCode k (rowOf k d)
    let f := fmtOf code
    let w := laneW code
    let R (v : VReg) := readRow s n (rowOf k v) w
    let fl (g : LaneFn) : Result := lanewise s n (rowOf k d) w (map3 g (R a) (R b) (R d))
    let it (g : Int → Int → Int → Int) : Result := lanewise s n (rowOf k d) w (map3 (fun x y z => (ofInt 32 (g (toInt 32 x) (toInt 32 y) (toInt 32 z)), 0#5)) (R a) (R b) (R d))
    let fl1 (g : Nat → Nat × BitVec 5) : Result := lanewise s n (rowOf k d) w ((R a).map g)
    let it1 (g : Int → Int) : Result := lanewise s n (rowOf k d) w ((R a).map (fun x => (ofInt 32 (g (toInt 32 x)), 0#5)))
    (VReady 1 [] [d, a, b] true s n j → isFloat code = true →
      exec (.vadd d a b) s = fl (fun x y _ => addF f x y) ∧ exec (.vsub d a b) s = fl (fun x y _ => subF f x y) ∧ exec (.vmul d a b) s = fl (fun x y _ => mulF f x y)
      ∧ exec (.vfma d a b) s = fl (fun x y z => fmaF f x y z) ∧ exec (.vfms d a b) s = fl (fun x y z => fmaV f (fDec f x) (fDec f y) (negV (fDec f z)))
      ∧ exec (.vfnma d a b) s = fl (fun x y z => fmaV f (negV (fDec f x)) (fDec f y) (fDec f z))
      ∧ exec (.vmin d a b) s = fl (fun x y _ => minmaxF false false f x y) ∧ exec (.vmax d a b) s = fl (fun x y _ => minmaxF true false f x y)
      ∧ exec (.vminp d a b) s = fl (fun x y _ => minmaxF false true f x y) ∧ exec (.vmaxp d a b) s = fl (fun x y _ => minmaxF true true f x y)
      ∧ exec (.vdiv d a b) s = fl (fun x y _ => divF f x y))
    ∧ (VReady 1 [] [d, a, b] true s n j → code = 5 →
      exec (.vadd d a b) s = it (fun x y _ => x + y) ∧ exec (.vsub d a b) s = it (fun x y _ => x - y) ∧ exec (.vmul d a b) s = it (fun x y _ => x * y)
      ∧ exec (.vfma d a b) s = it (fun x y z => x * y + z) ∧ exec (.vfms d a b) s = it (fun x y z => x * y - z) ∧ exec (.vfnma d a b) s = it (fun x y z => z - x * y)
      ∧ exec (.vmin d a b) s = it (fun x y _ => min x y) ∧ exec (.vmax d a b) s = it (fun x y _ => max x y)
      ∧ exec (.vminp d a b) s = it (fun x y _ => min x y) ∧ exec (.vmaxp d a b) s = it (fun x y _ => max x y)
      ∧ exec (.vdiv d a b) s = it (fun x y _ => if y = 0 then -1 else x.tdiv y))
    ∧ (VReady 1 [] [d, a] true s n j → isFloat code = true →
      exec (.vabs d a) s = fl1 (absF f) ∧ exec (.vneg d a) s = fl1 (negF f) ∧ exec (.vsgn d a) s = fl1 (sgnF f) ∧ exec (.vsqrt d a) s = fl1 (fun x => sqrtV f (fDec f x)))
    ∧ (VReady 1 [] [d, a] true s n j → code = 5 →
      exec (.vabs d a) s = it1 (fun x => x.natAbs) ∧ exec (.vneg d a) s = it1 (fun x => -x) ∧ exec (.vsgn d a) s = it1 Int.sign
      ∧ exec (.vsqrt d a) s = trapsWith s { cause := cTileType })

/-- R204: the bitwise operations work on every tile; shifts by the low 5 bits, saturating sums and the high half of a product work on i32 tiles and raise TILETYPE on others. -/
def Obligations.VectorIntegerResults : Prop :=
  ∀ (s : State) (n j : Nat) (d a b : VReg),
    let k := jobOf s n j
    let code := rowCode k (rowOf k d)
    let w := laneW code
    let R (v : VReg) := readRow s n (rowOf k v) w
    let bits (g : Nat → Nat → Nat) : Result := lanewise s n (rowOf k d) w (List.zipWith (fun x y => (g x y, 0#5)) (R a) (R b))
    let it (g : Nat → Nat → Int) : Result := lanewise s n (rowOf k d) w (List.zipWith (fun x y => (ofInt 32 (g x y), 0#5)) (R a) (R b))
    let sat (z : Int) : Int := if z < -(2 ^ 31) then -(2 ^ 31) else if 2 ^ 31 - 1 < z then 2 ^ 31 - 1 else z
    (VReady 1 [] [d, a, b] true s n j →
      exec (.vand d a b) s = bits (fun x y => x &&& y) ∧ exec (.vor d a b) s = bits (fun x y => x ||| y) ∧ exec (.vxor d a b) s = bits (fun x y => x ^^^ y)
      ∧ (code = 5 → exec (.vsll d a b) s = it (fun x y => (x * 2 ^ (y % 32) : Nat)) ∧ exec (.vsrl d a b) s = it (fun x y => (x / 2 ^ (y % 32) : Nat))
        ∧ exec (.vsra d a b) s = it (fun x y => toInt 32 x / 2 ^ (y % 32))
        ∧ exec (.vaddsat d a b) s = it (fun x y => sat (toInt 32 x + toInt 32 y)) ∧ exec (.vsubsat d a b) s = it (fun x y => sat (toInt 32 x - toInt 32 y))
        ∧ exec (.vmulhi d a b) s = it (fun x y => toInt 32 x * toInt 32 y / 2 ^ 32))
      ∧ (code ≠ 5 → ∀ i ∈ [Instr.vsll d a b, .vsrl d a b, .vsra d a b, .vaddsat d a b, .vsubsat d a b, .vmulhi d a b], exec i s = trapsWith s { cause := cTileType }))
    ∧ (VReady 1 [] [d, a] true s n j → exec (.vnot d a) s = lanewise s n (rowOf k d) w ((R a).map (fun x => (2 ^ (8 * w) - 1 - x, 0#5))))

/-- R120, R205, R206: a comparison sets bit i of the mask register where the relation holds of lane i, clears every other bit, and sets NV as the relation of floating lanes does (`comparisonsRank`, part of AluFloatResults); the mask instructions, which name no tile: and, or, exclusive or, not, the number of set bits, the first set bit or 256; vsel takes lanes of row a where the mask is set. -/
def Obligations.CompareAndMaskResults : Prop :=
  (∀ (s : State) (n j : Nat) (d : MReg) (a b : VReg), VReady 1 [] [a, b] true s n j →
    let k := jobOf s n j
    let code := rowCode k (rowOf k a)
    let R (v : VReg) := readRow s n (rowOf k v) (laneW code)
    let rel (r : Rel) (x y : Nat) : Bool × BitVec 5 :=
      if isFloat code then relV r (fDec (fmtOf code) x) (fDec (fmtOf code) y)
      else (match r with
        | .eq => toInt 32 x = toInt 32 y | .ne => toInt 32 x ≠ toInt 32 y | .lt => toInt 32 x < toInt 32 y | .le => toInt 32 x ≤ toInt 32 y
        | .gt => toInt 32 x > toInt 32 y | .ge => toInt 32 x ≥ toInt 32 y | .un => false, 0#5)
    ∀ e ∈ [(Instr.vceq d a b, Rel.eq), (.vcne d a b, .ne), (.vclt d a b, .lt), (.vcle d a b, .le), (.vcgt d a b, .gt), (.vcge d a b, .ge), (.vcun d a b, .un)],
      let l := List.zipWith (rel e.2) (R a) (R b)
      ∃ m : BitVec 256, (∀ i < 256, m.getLsbD i = (l.map Prod.fst).getD i false)
        ∧ exec e.1 s = completes s 1 (setFlags (modJob (began s) n j (fun b => setMask b d m)) s.turn (l.foldl (fun z x => z ||| x.2) 0#5)))
  ∧ (∀ (s : State) (n j : Nat) (d a b : MReg) (r : Reg) (v x : VReg),
    let k := jobOf s n j
    let m := maskOf k a
    let wr (y : BitVec 256) : Result := completes s 1 (modJob (began s) n j (fun b => setMask b d y))
    (s.turn = .stream n j .v → Ready 1 { streams := [.v] } s →
      exec (.mand d a b) s = wr (m &&& maskOf k b) ∧ exec (.mor d a b) s = wr (m ||| maskOf k b) ∧ exec (.mxor d a b) s = wr (m ^^^ maskOf k b)
      ∧ exec (.mnot d a) s = wr (~~~m)
      ∧ exec (.mpop r a) s = completes s 1 (setReg (began s) s.turn r (BitVec.ofNat 64 ((List.range 256).countP (fun i => m.getLsbD i))))
      ∧ ∃ i ≤ 256, exec (.mfirst r a) s = completes s 1 (setReg (began s) s.turn r (BitVec.ofNat 64 i)) ∧ (∀ h < i, m.getLsbD h = false) ∧ (i < 256 → m.getLsbD i = true))
    ∧ (VReady 1 [] [v, x] true s n j →
      let w := laneW (rowCode k (rowOf k v))
      exec (.vsel v x b) s = completes s 1 (writeRow (began s) n (rowOf k v) w
        ((List.range (512 / w)).map (fun i => if (maskOf k b).getLsbD i then (readRow s n (rowOf k x) w).getD i 0 else (readRow s n (rowOf k v) w).getD i 0)))))
/-- R129, R207 to R209: vcvt converts between tile types, half by half where the widths differ, each lane rounded once (`conversionsRound`, part of AluFloatResults), and between tiles of one type keeps each lane, a NaN becoming canonical; the reductions put the tree's result of the masked lanes into lane 0 and keep the rest, and vscan writes the running result at every lane, as `reductionsFold` says, their 16-bit lanes widened as `widensExactly` says. -/
def Obligations.VectorConvertReduceResults : Prop :=
  widensExactly ∧ reductionsFold ∧ ∀ (s : State) (n j : Nat) (d a : VReg) (m : MReg) (h : BitVec 1) (t : CvtType) (rm : Rounding) (sat : Bool) (o : ScanOp),
    let k := jobOf s n j
    let rd := rowOf k d
    let ra := rowOf k a
    let code := rowCode k rd
    let src := rowCode k ra
    let dst := cvtCode t
    let cv := cvtLane src dst (modeOf rm) sat
    let R (row w : Nat) := readRow s n row w
    (VReady 1 [] [d, a] false s n j →
      (code ≠ dst → exec (.vcvt d a h t rm sat) s = trapsWith s { cause := cTileType })
      ∧ (code = dst → laneW src = laneW dst → h ≠ 0#1 → exec (.vcvt d a h t rm sat) s = trapsWith s { cause := cIllegal })
      ∧ (code = dst → laneW src = laneW dst → h = 0#1 → exec (.vcvt d a h t rm sat) s = lanewise s n rd (laneW dst) ((R ra (laneW src)).map cv))
      ∧ (code = dst → laneW src = 4 → laneW dst = 2 →
          let r := (R ra 4).map cv
          let l := if h = 0#1 then r.map Prod.fst ++ (R rd 2).drop 128 else (R rd 2).take 128 ++ r.map Prod.fst
          exec (.vcvt d a h t rm sat) s = completes s 1 (setFlags (writeRow (began s) n rd 2 l) s.turn (flagsOf r)))
      ∧ (code = dst → laneW src = 2 → laneW dst = 4 → exec (.vcvt d a h t rm sat) s = lanewise s n rd 4 ((((R ra 2).drop (128 * h.toNat)).take 128).map cv)))
    ∧ (∀ x, (isFloat src = true → isFloat dst = true → src ≠ dst → cv x = cvtFF (fmtOf src) (fmtOf dst) (modeOf rm) sat x)
      ∧ (isFloat src = true → src = dst → (isNan (fDec (fmtOf src) x) = false → cv x = (x, 0#5))
        ∧ (isNan (fDec (fmtOf src) x) = true → cv x = (fNan (fmtOf src), if isSnan (fDec (fmtOf src) x) then fNV else 0#5)))
      ∧ (isFloat src = false → isFloat dst = false → cv x = (x, 0#5))
      ∧ (isFloat src = true → isFloat dst = false → cv x = cvtFI (fmtOf src) 32 (modeOf rm) x)
      ∧ (isFloat src = false → isFloat dst = true → ∀ neg, let z := (BitVec.ofNat 32 x).toInt
          signed (z : ℝ) false neg → roundsTo (fmtOf dst) (modeOf rm) sat neg (z : ℝ) (cv x)))
    ∧ (VReady 1 [] [d, a] true s n j →
      let w := laneW code
      let red (p : ScanOp) : Result :=
        let r := reduceRow p code (maskOf k m) (R ra w)
        completes s 1 (setFlags (writeRow (began s) n rd w (r.1 :: (R rd w).drop 1)) s.turn r.2)
      exec (.vrsum d a m) s = red .add ∧ exec (.vrmax d a m) s = red .max ∧ exec (.vrmin d a m) s = red .min
      ∧ exec (.vscan d a o m) s = lanewise s n rd w (if isFloat code then scanF o code (maskOf k m) 0 (idF o) (R ra w) else scanI o (maskOf k m) 0 (idI o) (R ra w)))

/-- R202, R210, R218: moves. vmov copies a row, vbcast fills one, vext and vins read and write the lane s[b] mod lanes, vrot rotates, vidx counts up from s[a], vpack and vunpk move halves between widths, vcmpk packs the selected lanes to the front with zeros behind, vexpd spreads them out. -/
def Obligations.VectorMoveResults : Prop :=
  ∀ (s : State) (n j : Nat) (d a b : VReg) (x y : Reg) (m : MReg) (h : BitVec 1),
    let k := jobOf s n j
    let rd := rowOf k d
    let code (v : VReg) := rowCode k (rowOf k v)
    let w := laneW (code d)
    let N := 512 / w
    let R (v : VReg) (w : Nat) := readRow s n (rowOf k v) w
    let wr (w : Nat) (l : List Nat) : Result := completes s 1 (writeRow (began s) n rd w l)
    (VReady 1 [] [d, a] true s n j →
      exec (.vmov d a) s = wr 4 (R a 4)
      ∧ (let kept := ((List.range N).filter (fun i => (maskOf k m).getLsbD i)).map (fun i => (R a w).getD i 0)
        exec (.vcmpk d a m) s = wr w (kept ++ List.replicate (N - kept.length) 0))
      ∧ exec (.vexpd d a m) s = wr w ((List.range N).map (fun i =>
          if (maskOf k m).getLsbD i then (R a w).getD ((List.range i).countP (fun h => (maskOf k m).getLsbD h)) 0 else (R d w).getD i 0)))
    ∧ (VReady 1 [x] [d] true s n j →
      exec (.vbcast d x) s = wr w (List.replicate N ((reg s s.turn x).toNat % 2 ^ (8 * w)))
      ∧ (code d = 5 → exec (.vidx d x) s = lanewise s n rd 4 ((List.range 128).map (fun i => (((reg s s.turn x).toNat + i) % 2 ^ 32, 0#5))))
      ∧ (isFloat (code d) = true → exec (.vidx d x) s = lanewise s n rd w ((List.range N).map (fun i =>
          cvtIF (fmtOf (code d)) .rne ((BitVec.ofNat 32 (reg s s.turn x).toNat).toInt + (i : Int))))))
    ∧ (VReady 1 [y] [a] true s n j →
      let wa := laneW (code a)
      let z := (R a wa).getD ((reg s s.turn y).toNat % (512 / wa)) 0
      exec (.vext x a y) s = completes s 1 (setReg (began s) s.turn x (if code a = 5 then (BitVec.ofNat 32 z).signExtend 64 else BitVec.ofNat 64 z)))
    ∧ (VReady 1 [x, y] [d] true s n j →
      exec (.vins d x y) s = wr w ((R d w).set ((reg s s.turn y).toNat % N) ((reg s s.turn x).toNat % 2 ^ (8 * w))))
    ∧ (VReady 1 [y] [d, a] true s n j → exec (.vrot d a y) s = wr w ((R a w).rotateLeft ((reg s s.turn y).toNat % N)))
    ∧ (VReady 1 [] [d, a, b] false s n j →
      (laneW (code d) = 2 → laneW (code a) = 4 → code b = code a → exec (.vpack d a b) s = wr 2 ((R a 4).map (· % 2 ^ 16) ++ (R b 4).map (· % 2 ^ 16)))
      ∧ (¬ (laneW (code d) = 2 ∧ laneW (code a) = 4 ∧ code b = code a) → exec (.vpack d a b) s = trapsWith s { cause := cTileType }))
    ∧ (VReady 1 [] [d, a] false s n j →
      (laneW (code d) = 4 → laneW (code a) = 2 → exec (.vunpk d a h) s = wr 4 (((R a 2).drop (128 * h.toNat)).take 128))
      ∧ (¬ (laneW (code d) = 4 ∧ laneW (code a) = 2) → exec (.vunpk d a h) s = trapsWith s { cause := cTileType }))

/-- R200, R211 to R215, R217, R219: the instructions that enter the VQ, with 63 or fewer of its operations outstanding: vld and vst on a 64-byte-aligned extent of scratchpad, vldq and vstq on slots of 512 bytes, vgat and vsct from an aligned base, vperm, vpart, vtcfg; ALIGN where an offset is not aligned, XLAT_PERM where an extent leaves the scratchpad; swait waits until at most n are outstanding. -/
def Obligations.VectorMemoryResults : Prop :=
  ∀ (s : State) (n j : Nat) (d a b : VReg) (x y : Reg) (m : MReg) (q : Handle) (n6 : BitVec 6) (n3 : BitVec 3) (t : BitVec 2) (kind : BitVec 1) (hi lo : OobMode) (e : BitVec 8) (nm1 : BitVec 12),
    s.turn = .stream n j .v →
    let k := jobOf s n j
    let row (v : VReg) := rowOf k v
    let off := (reg s s.turn x).toNat % 2 ^ 21
    let c := n6.toNat + 1
    let c3 := n3.toNat + 1
    let fits (len : Nat) : Prop := off % 64 = 0 ∧ off + len ≤ 0x180000
    let free (c : Nat) : Prop := ∀ i < c, validCode (rowCode k ((row d + i) % 1024)) = true ∧ tileBusy k (tileOf ((row d + i) % 1024)) = false
    (Ready 1 { streams := [.v] } s →
      (swc k ≤ n6.toNat → exec (.swait n6) s = completes s 1 (began s)) ∧ (n6.toNat < swc k → exec (.swait n6) s = waitsIn s (began s) .waiting))
    ∧ (swc k < 64 →
      (Ready 1 { streams := [.v], reads := [x] } s →
        (fits (512 * c) → free c → exec (.vld d x n6) s = queuesUp s 1 .vq (.vld (row d) off c) [] ∧ exec (.vst d x n6) s = queuesUp s 1 .vq (.vst (row d) off c) [])
        ∧ (off % 64 ≠ 0 → exec (.vld d x n6) s = trapsWith s { cause := cAlign } ∧ exec (.vst d x n6) s = trapsWith s { cause := cAlign })
        ∧ (off % 64 = 0 → 0x180000 < off + 512 * c → exec (.vld d x n6) s = trapsWith s { cause := cXlatPerm } ∧ exec (.vst d x n6) s = trapsWith s { cause := cXlatPerm }))
      ∧ (Ready 1 { streams := [.v] } s → free c3 → ∀ g,
        (queueFor s s.turn q .consumer = some g → g.lgs = 9 → c3 ≤ qFilled g → exec (.vldq d q n3) s = queuesUp s 1 .vq (.vldq (row d) q g.head c3) [q])
        ∧ (queueFor s s.turn q .producer = some g → g.lgs = 9 → c3 ≤ qFree g → exec (.vstq d q n3) s = queuesUp s 1 .vq (.vstq (row d) q g.tail c3) [q]))
      ∧ (VReady 1 [x] [d, a] false s n j →
        let w := laneW (rowCode k (row d))
        (off % w = 0 → off < 0x180000 → exec (.vgat d a x) s = queuesUp s 1 .vq (.vgat (row d) (row a) off w) [] ∧ exec (.vsct d a x) s = queuesUp s 1 .vq (.vsct (row d) (row a) off w) [])
        ∧ (off % w ≠ 0 → exec (.vgat d a x) s = trapsWith s { cause := cAlign } ∧ exec (.vsct d a x) s = trapsWith s { cause := cAlign })
        ∧ (off % w = 0 → 0x180000 ≤ off → exec (.vgat d a x) s = trapsWith s { cause := cXlatPerm } ∧ exec (.vsct d a x) s = trapsWith s { cause := cXlatPerm }))
      ∧ (VReady 1 [] [d, a, b] false s n j →
        (rowCode k (row d) = rowCode k (row a) → exec (.vperm d a b) s = queuesUp s 1 .vq (.vperm (row d) (row a) (row b) (laneW (rowCode k (row d)))) [])
        ∧ (rowCode k (row d) ≠ rowCode k (row a) → exec (.vperm d a b) s = trapsWith s { cause := cTileType }))
      ∧ (VReady 1 [] [a] true s n j → q ≠ 31#5 → ∀ g h, queueFor s s.turn q .producer = some g → queueFor s s.turn (q + 1#5) .producer = some h → g.lgs = 9 → h.lgs = 9 → 1 ≤ qFree g → 1 ≤ qFree h →
        exec (.vpart q a m) s = queuesUp s 1 .vq (.vpart q (row a) g.tail h.tail (512 / laneW (rowCode k (row a))) (maskOf k m).toNat) [q, q + 1#5])
      ∧ (Ready 2 { streams := [.v], reads := [x, y] } s →
        let x0 := (reg s s.turn y).toNat % 2 ^ 32
        let cnt := nm1.toNat + 1
        let code (m : OobMode) : Nat := match m with | .clamp => 0 | .identity => 1 | .zero => 2 | .extend => 3
        let finite : Prop := ∃ sg mant ex, fDec fmtF32 x0 = .fin sg mant ex
        (finite → (kind = 0#1 → 2 ≤ cnt ∧ fits (cnt * 4)) → (kind = 1#1 → cnt ≤ 1365 ∧ fits (cnt * 12)) →
          exec (.vtcfg t x y kind hi lo e nm1) s = queuesUp s 2 .vq (.vtcfg t.toNat off x0 kind.toNat (code hi) (code lo) e.toInt cnt) [])
        ∧ (let bad : Prop := ¬ finite ∨ (kind = 0#1 ∧ cnt < 2) ∨ (kind = 1#1 ∧ 1365 < cnt)
          let len := cnt * (if kind = 0#1 then 4 else 12)
          let traps (c : Byte) : Prop := exec (.vtcfg t x y kind hi lo e nm1) s = trapsWith s { cause := c }
          (bad → traps cIllegal) ∧ (¬ bad → off % 64 ≠ 0 → traps cAlign) ∧ (¬ bad → off % 64 = 0 → 0x180000 < off + len → traps cXlatPerm))))

/-- R220, R221: the table instructions, for a configured slot of their kind, write each lane's table value, widened to f32 before and rounded to the tile's type after; an empty slot or one of the other kind is ILLEGAL, an i32 tile TILETYPE. What a table gives a lane is as `tablesRead` says. vexp2 and vlog2 work lane by lane on floating tiles; what they give special values, whole exponents and powers of 2 is as `powersAndLogs` says. -/
def Obligations.TableResults : Prop :=
  tablesRead ∧ powersAndLogs ∧ ∀ (s : State) (n j : Nat) (d a : VReg) (t : BitVec 2), VReady 1 [] [d, a] true s n j →
    let k := jobOf s n j
    let code := rowCode k (rowOf k d)
    let f := fmtOf code
    let R := readRow s n (rowOf k a) (laneW code)
    let fn (g : Nat → Nat × BitVec 5) : Result := lanewise s n (rowOf k d) (laneW code) (R.map g)
    let forms : List (Instr × TabForm × Nat) := [(.vtab d a t, .near, 0), (.vtabl d a t, .linear, 0), (.vtabq d a t, .quad, 1)]
    (isFloat code = true →
      exec (.vexp2 d a) s = fn (fun x => exp2V f (fDec f x)) ∧ exec (.vlog2 d a) s = fn (fun x => log2V f (fDec f x))
      ∧ ((∀ o ∈ k.vq, ∀ off x0 kd hi lo e c, o.kind ≠ .vtcfg t.toNat off x0 kd hi lo e c) → ∀ g ∈ forms,
        (∀ tb, tfind k.tables t.toNat = some tb → tb.kind = g.2.2 → exec g.1 s = fn (fun x => narrowF code (tabLane g.2.1 tb (widenF code x))))
        ∧ (tfind k.tables t.toNat = none → exec g.1 s = trapsWith s { cause := cIllegal })
        ∧ (∀ tb, tfind k.tables t.toNat = some tb → tb.kind ≠ g.2.2 → exec g.1 s = trapsWith s { cause := cIllegal })))
    ∧ (code = 5 → ∀ i ∈ [Instr.vexp2 d a, .vlog2 d a, .vtab d a t, .vtabl d a t, .vtabq d a t], exec i s = trapsWith s { cause := cTileType })

/-- R287: a Floe instruction whose blocks are aligned and start in scratchpad enters the VQ with its operands, ALIGN and XLAT_PERM otherwise; flsize wants an f32 tile; flsig gives the signature of a live map with no operation on it outstanding, and MAP_LOST or MAP_INVALID at issue otherwise. -/
def Obligations.FloeResults : Prop :=
  ∀ (s : State) (n j : Nat) (d : Reg) (v : VReg) (h : BitVec 3) (a b : Reg), s.turn = .stream n j .v → swc (jobOf s n j) < 64 →
    let k := jobOf s n j
    let x := (reg s s.turn a).toNat % 2 ^ 21
    let y := (reg s s.turn b).toNat % 2 ^ 21
    let z := (reg s s.turn b).toNat
    let q (o : OpKind) : Result := queuesUp s 1 .vq o []
    let ok (al o : Nat) : Prop := o % al = 0 ∧ o < 0x180000
    (Ready 1 { streams := [.v], reads := [a, b] } s →
      (ok 16 x → exec (.flmatch h a b) s = q (.flmatch h.toNat x (z % 2 ^ 16) (z / 2 ^ 16 % 2 ^ 16)))
      ∧ (ok 16 x → ok 16 y → exec (.flmerge h a b) s = q (.flmerge h.toNat x y) ∧ exec (.flunmg h a b) s = q (.flunmg h.toNat x y))
      ∧ (x % 16 ≠ 0 → ∀ i ∈ [Instr.flmatch h a b, .flmerge h a b, .flunmg h a b], exec i s = trapsWith s { cause := cAlign })
      ∧ (x % 16 = 0 → 0x180000 ≤ x → ∀ i ∈ [Instr.flmatch h a b, .flmerge h a b, .flunmg h a b], exec i s = trapsWith s { cause := cXlatPerm })
      ∧ (ok 16 x → y % 16 ≠ 0 → ∀ i ∈ [Instr.flmerge h a b, .flunmg h a b], exec i s = trapsWith s { cause := cAlign })
      ∧ (ok 16 x → y % 16 = 0 → 0x180000 ≤ y → ∀ i ∈ [Instr.flmerge h a b, .flunmg h a b], exec i s = trapsWith s { cause := cXlatPerm }))
    ∧ (Ready 1 { streams := [.v], reads := [a] } s →
      (ok 64 x → exec (.flsave h a) s = q (.flsave h.toNat x) ∧ exec (.flload h a) s = q (.flload h.toNat x))
      ∧ (x % 64 ≠ 0 → exec (.flsave h a) s = trapsWith s { cause := cAlign } ∧ exec (.flload h a) s = trapsWith s { cause := cAlign })
      ∧ (x % 64 = 0 → 0x180000 ≤ x → exec (.flsave h a) s = trapsWith s { cause := cXlatPerm } ∧ exec (.flload h a) s = trapsWith s { cause := cXlatPerm }))
    ∧ (Ready 1 { streams := [.v] } s → exec (.flfree h) s = q (.flfree h.toNat)
      ∧ ((∀ o ∈ k.vq, floeHandle o.kind ≠ some h.toNat) →
        (∀ m, liveMap (coreOf s n) h.toNat = .ok m → exec (.flsig d h) s = completes s 1 (setReg (began s) s.turn d m.sig))
        ∧ (∀ c dt, liveMap (coreOf s n) h.toNat = .error (c, dt) → exec (.flsig d h) s = trapsWith s { cause := c, status := floeWord (c, dt) h.toNat }))
      ∧ ((∃ o ∈ k.vq, floeHandle o.kind = some h.toNat) → exec (.flsig d h) s = waitsIn s (began s) .waiting))
    ∧ (VReady 1 [b] [v] true s n j →
      (rowCode k (rowOf k v) = 0 → exec (.flsize v h b) s = q (.flsize (rowOf k v) h.toNat (z % 2 ^ 14)))
      ∧ (rowCode k (rowOf k v) ≠ 0 → exec (.flsize v h b) s = trapsWith s { cause := cTileType }))

/-- R134, R289: vsmx writes the softmax of the first n = s[b][8:0] lanes of row a, and zeros behind them; vsmxs adds the logarithm of the f32 sizes in the next rows first. What one softmax gives is as `softmaxSteps` says. n of 0 or past the row is ILLEGAL, an i32 tile TILETYPE, in that order, which is the model's choice of log entry 77. -/
def Obligations.SoftmaxResults : Prop :=
  softmaxSteps ∧ ∀ (s : State) (n j : Nat) (d a : VReg) (b : Reg), VReady 1 [b] [d, a] true s n j →
    let k := jobOf s n j
    let code := rowCode k (rowOf k d)
    let w := laneW code
    let N := 512 / w
    let cnt := (reg s s.turn b).toNat % 512
    let logit := ((readRow s n (rowOf k a) w).take cnt).map (widenF code)
    let done (z : List (Nat × BitVec 5)) : Result :=
      completes s 1 (setFlags (writeRow (began s) n (rowOf k d) w ((softmax code N z).1 ++ List.replicate (N - cnt) 0)) s.turn (softmax code N z).2)
    ((cnt = 0 ∨ N < cnt) → exec (.vsmx d a b) s = trapsWith s { cause := cIllegal } ∧ exec (.vsmxs d a b) s = trapsWith s { cause := cIllegal })
    ∧ (1 ≤ cnt → cnt ≤ N → code = 5 → exec (.vsmx d a b) s = trapsWith s { cause := cTileType } ∧ exec (.vsmxs d a b) s = trapsWith s { cause := cTileType })
    ∧ (1 ≤ cnt → cnt ≤ N → isFloat code = true → exec (.vsmx d a b) s = done logit
      ∧ (let rows := sizeRows k a cnt
        (∀ r ∈ rows, rowCode k r = 0 ∧ tileBusy k (tileOf r) = false) →
          exec (.vsmxs d a b) s = done (List.zipWith (fun x z => let l := lnSize z; let y := addF fmtF32 x.1 l.1; (y.1, x.2 ||| l.2 ||| y.2)) logit ((rows.flatMap (fun r => readRow s n r 4)).take cnt)))
      ∧ ((∃ r ∈ sizeRows k a cnt, rowCode k r ≠ 0) → exec (.vsmxs d a b) s = trapsWith s { cause := cTileType }))

/-- R269 to R272, with the model's reading of log entry 68 (M = 2 in prunepkt is pruned row by row): prunepk keeps the largest N of each group of M lanes, as `pruneKeeps` says; prunepkt prunes four rows into four mask registers, row by row in that way, the four markers cleared, or where M = 4 by 4 × 4 blocks: each block takes of the 24, 90 or 24 matrices with N ones in each row and column the one that selects the most NaNs, then infinities, then the largest exact sum of finite magnitudes, then the lowest encoding, and sets the four markers; mdpack packs the indices a mask register selects, MD_SHAPE where a group does not hold N; mdchk extends a CRC-32C over bytes of a row. A bad shape is ILLEGAL, an i32 tile TILETYPE. -/
def Obligations.SparsityVectorResults : Prop :=
  pruneKeeps ∧ (∀ (b : Job) (q : MReg) (v : BitVec 256), maskOf (setMask b q v) q = v ∧ (setMask b q v).markers.getLsbD q.toNat = false) ∧ ∀ (s : State) (n j : Nat) (md mk : MReg) (d a : VReg) (r x : Reg) (lgm : BitVec 2) (nk : BitVec 4) (wide : BitVec 1),
    let k := jobOf s n j
    let m := 2 ^ (lgm.toNat + 1)
    let cnt := nk.toNat
    let code := rowCode k (rowOf k a)
    let R (row w : Nat) := readRow s n row w
    (VReady 1 [] [a] true s n j →
      ((cnt = 0 ∨ m ≤ cnt) → exec (.prunepk md a lgm nk) s = trapsWith s { cause := cIllegal })
      ∧ (1 ≤ cnt → cnt < m → isFloat code = false → exec (.prunepk md a lgm nk) s = trapsWith s { cause := cTileType })
      ∧ (1 ≤ cnt → cnt < m → isFloat code = true →
        exec (.prunepk md a lgm nk) s = completes s 1 (modJob (began s) n j (fun b => setMask b md (BitVec.ofNat 256 (pruneRow (fmtOf code) m cnt (R (rowOf k a) (laneW code))))))))
    ∧ (s.turn = .stream n j .v → Ready 1 { streams := [.v] } s →
      let rows := (List.range 4).map (fun i => (rowOf k a + i) % 1024)
      ((cnt = 0 ∨ m ≤ cnt ∨ 4 < md.toNat) → exec (.prunepkt md a lgm nk) s = trapsWith s { cause := cIllegal })
      ∧ (1 ≤ cnt → cnt < m → md.toNat ≤ 4 → m ≠ 4 → isFloat code = true → (∀ q ∈ rows, rowCode k q = code ∧ tileBusy k (tileOf q) = false) →
        exec (.prunepkt md a lgm nk) s = completes s 1 ((List.range 4).foldl (fun u i => modJob u n j (fun b => setMask b (md + BitVec.ofNat 3 i)
          (BitVec.ofNat 256 (pruneRow (fmtOf code) m cnt (R ((rowOf k a + i) % 1024) (laneW code)))))) (began s)))
      ∧ (1 ≤ cnt → cnt < 4 → m = 4 → md.toNat ≤ 4 → isFloat code = true → (∀ q ∈ rows, rowCode k q = code ∧ tileBusy k (tileOf q) = false) →
        let lane (r p : Nat) : Nat := (R ((rowOf k a + r) % 1024) (laneW code)).getD p 0
        ∃ u, exec (.prunepkt md a lgm nk) s = completes s 1 u ∧ (∀ i < 4, (jobOf u n j).markers.getLsbD (md.toNat + i) = true) ∧ u.mem = s.mem
          ∧ ∀ q < 512 / laneW code / 4, ∃ v ∈ maskLibrary cnt,
            let key := maskKey (fun r o => laneKey (fmtOf code) (lane r (4 * q + o)))
            (∀ x ∈ maskLibrary cnt, keyLess (key v) (key x) = false ∧ (key x = key v → v ≤ x))
            ∧ ∀ r < 4, ∀ o < 4, (maskOf (jobOf u n j) (md + BitVec.ofNat 3 r)).getLsbD (4 * q + o) = v.testBit (15 - (4 * r + o))))
    ∧ (1 ≤ cnt → cnt ≤ 3 → (maskLibrary cnt).Nodup ∧ (maskLibrary cnt).length = (if cnt = 2 then 90 else 24)
        ∧ ∀ v ∈ maskLibrary cnt, v < 65536 ∧ ∀ i < 4, (List.range 4).countP (fun o => v.testBit (4 * i + o)) = cnt ∧ (List.range 4).countP (fun r => v.testBit (4 * r + i)) = cnt)
    ∧ (VReady 1 [] [d] true s n j →
      let sel := maskOf k mk
      let group (q : Nat) : List Nat := (List.range m).filter (fun o => sel.getLsbD (m * q + o))
      let per := 64 / m
      let chunks := if wide = 0#1 then 2 else 4
      ((cnt = 0 ∨ m ≤ cnt) → exec (.mdpack d wide mk lgm nk) s = trapsWith s { cause := cIllegal })
      ∧ (1 ≤ cnt → cnt < m → rowCode k (rowOf k d) ≠ 5 → exec (.mdpack d wide mk lgm nk) s = trapsWith s { cause := cTileType })
      ∧ (1 ≤ cnt → cnt < m → rowCode k (rowOf k d) = 5 → (∀ q < chunks * per, (group q).length = cnt) →
        let bw := lgm.toNat + 1
        let words := (List.range chunks).flatMap (fun h => lanesOf 4 ((2 * cnt * bw + m - 1) / m) (leBytes (4 * ((2 * cnt * bw + m - 1) / m)) (packFields bw ((List.range per).flatMap (fun q => group (h * per + q))))))
        exec (.mdpack d wide mk lgm nk) s = completes s 1 (writeRow (began s) n (rowOf k d) 4
          (words ++ List.replicate (127 - words.length) 0 ++ [cnt + 256 * m + (if k.markers.getLsbD mk.toNat then 65536 else 0)])))
      ∧ (1 ≤ cnt → cnt < m → rowCode k (rowOf k d) = 5 → ∀ q < chunks * per, (group q).length ≠ cnt → (∀ p < q, (group p).length = cnt) →
        exec (.mdpack d wide mk lgm nk) s = trapsWith s { cause := cMdShape, status := faultWord cMdShape 0 q }))
    ∧ (VReady 1 [x] [a] true s n j →
      let v := (reg s s.turn x).toNat
      let len := v / 2 ^ 32 % 1024
      (512 < len → exec (.mdchk r a x) s = trapsWith s { cause := cIllegal })
      ∧ (len ≤ 512 → exec (.mdchk r a x) s = completes s 1 (setReg (began s) s.turn r ((crc32c (BitVec.ofNat 32 v) (memReadN s.mem (rowAt n (rowOf k a)) len)).setWidth 64))))

/-! The M and X streams. -/

/-- R252, R253, R255, R256, R259, R260, R263, R265, R266, R267: with 15 or fewer operations in the MQ, mcfg checks its word and becomes the configuration, a product enters with the heads of its queues once its first step is filled, mclr and mtrn enter for tiles of a valid code; mhdr gives a header's latency or minus its cause. -/
def Obligations.MatrixResults : Prop :=
  ∀ (s : State) (n j : Nat) (acc src : TileNo) (qa qb qm : Handle) (r : BitVec 5), s.turn = .stream n j .m → (jobOf s n j).mq.length < 16 →
    let k := jobOf s n j
    let rg : Reg := 0#1 ++ r
    let w := reg s s.turn rg
    let forms : List (Instr × FollowForm) := [(.mmac acc qa qb qm, .mmac), (.mmacs acc qa qb qm, .mmacs), (.mmacg acc qa qb qm, .mmacg), (.mmacsg acc qa qb qm, .mmacsg)]
    (Ready 1 { streams := [.m], reads := [rg] } s →
      (∀ c, cfgCheck w = some c → exec (.mcfg r) s = trapsWith s { cause := c })
      ∧ (cfgCheck w = none → exec (.mcfg r) s = completes s 1 (modJob (enqueue (began s) s.turn .mq (.mcfg w) []) n j (fun b => { b with mcfg := some w }))))
    ∧ (Ready 1 { streams := [.m] } s →
      (∀ e ∈ forms,
        (k.mcfg = none → exec e.1 s = trapsWith s { cause := cIllegal })
        ∧ (∀ cfg, k.mcfg = some cfg →
          (∀ c, productCheck (began s) n j e.2 acc qa qb qm cfg = some c → exec e.1 s = trapsWith s { cause := c })
          ∧ (productCheck (began s) n j e.2 acc qa qb qm cfg = none →
            (∀ h k, step0Waits (began s) n j e.2 qa qb qm cfg = some (h, k) → exec e.1 s = waitsIn s (began s) (.onQueue h k false))
            ∧ (step0Waits (began s) n j e.2 qa qb qm cfg = none →
              exec e.1 s = queuesUp s 1 .mq (.product e.2 acc.toNat qa qb qm [(descOf s n j qa).head, (descOf s n j qb).head, (descOf s n j qm).head] cfg false []) [qa, qb, qm]))))
      ∧ (validCode (tileCode k acc.toNat) = true → exec (.mclr acc) s = queuesUp s 1 .mq (.mclr acc.toNat false) [])
      ∧ (validCode (tileCode k acc.toNat) = false → exec (.mclr acc) s = trapsWith s { cause := cTileType })
      ∧ (tileCode k acc.toNat = tileCode k src.toNat → (tileCode k acc.toNat = 0 ∨ tileCode k acc.toNat = 5) → exec (.mtrn acc src) s = queuesUp s 1 .mq (.mtrn acc.toNat src.toNat) [])
      ∧ ((tileCode k acc.toNat ≠ tileCode k src.toNat ∨ (tileCode k acc.toNat ≠ 0 ∧ tileCode k acc.toNat ≠ 5)) → exec (.mtrn acc src) s = trapsWith s { cause := cTileType })
      ∧ (∀ x, mQueue s n j qm 3 = some x → 1 ≤ qFilled x →
        let h := headerAt s n x x.head
        exec (.mhdr r qm) s = completes s 1 (setReg (began s) s.turn rg (match headerFault h with | some c => BitVec.ofInt 64 (-(c.toNat : Int)) | none => BitVec.ofNat 64 (headerLatency h))))
      ∧ (mQueue s n j qm 3 = none → exec (.mhdr r qm) s = trapsWith s { cause := cQueue }))

/-- R235 to R239, R241 to R244, R323: with 63 or fewer commands of its queue outstanding, a copy command enters its queue with its operands as they stand: source s[a], destination s[b], length and seed from s[d] or a shape block. The command takes the action armed for it, if any, which is then no longer armed; with 64 outstanding it waits; an armed arrival at a core outside the partition raises XLAT_PERM. xcp2 and xcp3 raise ALIGN for a misaligned shape block and XLAT_PERM for one past the scratchpad, both when they issue, which is the model's reading of log entry 71; that a parked command does not count among the 64 is its reading of log entry 29; xmcast of nonempty masks (one of an empty mask is left out here) raises ILLEGAL for a length out of 64 to 2^20, XLAT_PERM for a core outside its partition, and XLAT_PERM with the address for a source page that is mapped to something other than HBM; xrem (R323) raises ILLEGAL for a length out of 1 to 4,096 and a violation for a package it does not reach. -/
def Obligations.CopyResults : Prop :=
  ∀ (s : State) (n j : Nat) (d a b : Reg) (ss ds : Space) (st dt : BitVec 4) (rm : Rounding) (sr sat va : BitVec 1) (op : VaultOp) (rows : BitVec 8) (cols : BitVec 16) (pkg : BitVec 5),
    s.turn = .stream n j .x → Ready 2 { streams := [.x], reads := [d, a, b] } s →
    let k := jobOf s n j
    let u := began s
    let src := reg s s.turn a
    let dst := reg s s.turn b
    let v := reg s s.turn d
    let len := v.toNat % 2 ^ 32
    let seed : BitVec 32 := BitVec.ofNat 32 (v.toNat / 2 ^ 32)
    let off := v.toNat % 2 ^ 21
    let escapes : Prop := ∃ r, k.armed = some r ∧ r.act = .arrival ∧ (partOf s k.part).pgran.getLsbD (r.operand.toNat / 16 % 256 / 16) = false
    let goes (c : Copy) (i : Instr) : Prop :=
      (¬ escapes → xCount k (copyQueue c) < 64 → exec i s = copiesUp s n j c)
      ∧ (¬ escapes → 64 ≤ xCount k (copyQueue c) → exec i s = waitsIn s u .waiting)
      ∧ (escapes → exec i s = trapsWith s { cause := cXlatPerm })
    let blk := memReadN s.mem (coreAt n + off) 28
    goes { form := .cpy, src := src, dst := dst, len := len, ss := ss, ds := ds } (.xcpy d a b ss ds)
    ∧ (off % 32 ≠ 0 → exec (.xcp2 d a b ss ds) s = trapsWith s { cause := cAlign } ∧ exec (.xcp3 d a b ss ds) s = trapsWith s { cause := cAlign })
    ∧ (off % 32 = 0 → 0x180000 < off + 32 → exec (.xcp2 d a b ss ds) s = trapsWith s { cause := cXlatPerm } ∧ exec (.xcp3 d a b ss ds) s = trapsWith s { cause := cXlatPerm })
    ∧ (off % 32 = 0 → off + 32 ≤ 0x180000 →
      goes { form := .cp2, src := src, dst := dst, len := ((parseShape blk false).getD 0 0).toNat, ss := ss, ds := ds, shape := parseShape blk false } (.xcp2 d a b ss ds)
      ∧ goes { form := .cp3, src := src, dst := dst, len := ((parseShape blk true).getD 0 0).toNat, ss := ss, ds := ds, shape := parseShape blk true } (.xcp3 d a b ss ds))
    ∧ goes { form := .cvt, src := src, dst := dst, len := len, ss := ss, ds := ds, seed := seed, st := st.toNat, dt := dt.toNat, rm := rm, sr := sr == 1#1, sat := sat == 1#1 } (.xcvt d a b ss ds st dt rm sr sat)
    ∧ goes { form := .vop, src := BitVec.ofNat 64 (src.toNat % 2 ^ 21), dst := dst, len := len, ss := .scratch, ds := if va = 1#1 then .va else .vault, seed := seed, vop := op } (.xvop d a b op va)
    ∧ ((len < 64 ∨ 0x100000 < len) → exec (.xmcast d a b rows cols) s = trapsWith s { cause := cIllegal })
    ∧ (64 ≤ len → len ≤ 0x100000 → (∃ m ∈ mcastCores n rows.toNat cols.toNat, (partOf s k.part).pgran.getLsbD (m / 16) = false) → exec (.xmcast d a b rows cols) s = trapsWith s { cause := cXlatPerm })
    ∧ (rows ≠ 0#8 → cols ≠ 0#16 → 64 ≤ len → len ≤ 0x100000 → (∀ m ∈ mcastCores n rows.toNat cols.toNat, (partOf s k.part).pgran.getLsbD (m / 16) = true) →
      (∀ p, (pageStarts src len).find? (notHbm u (jobWho (jobOf u n j) n)) = some p → exec (.xmcast d a b rows cols) s = trapsWith s { cause := cXlatPerm, faddr := p })
      ∧ ((∀ p ∈ pageStarts src len, notHbm u (jobWho (jobOf u n j) n) p = false) →
      goes { form := .mcast, src := src, dst := BitVec.ofNat 64 (dst.toNat % 2 ^ 21), len := len, ds := .scratch, rows := rows.toNat, cols := cols.toNat } (.xmcast d a b rows cols)))
    ∧ ((len = 0 ∨ 4096 < len) → exec (.xrem d a b pkg) s = trapsWith s { cause := cIllegal })
    ∧ (1 ≤ len → len ≤ 4096 → pkg ≠ Config.pkgid → packageReached s k.part pkg.toNat = false → exec (.xrem d a b pkg) s = trapsWith s { cause := cXlatPerm, faddr := dst, freeze := true })
    ∧ (1 ≤ len → len ≤ 4096 → (pkg = Config.pkgid ∨ packageReached s k.part pkg.toNat = true) →
      goes { form := .rem, src := BitVec.ofNat 64 (src.toNat % 2 ^ 21), dst := dst, len := len, ss := .scratch, pkg := pkg.toNat } (.xrem d a b pkg))

/-- R240, R243, R244: xcmpl arms an action, with a record queue of kind 4, QUEUE otherwise; xwait waits until at most n commands of its mask are outstanding, then gives the largest m since the last xwait and clears it. A follow-on word xflw after a failed command does nothing; after one still in its queue it stays there with it; otherwise it enters the MQ when there is room, and waits while there is none. That a parked command counts as outstanding for xwait is the model's reading of log entry 29. -/
def Obligations.CopyControlResults : Prop :=
  ∀ (s : State) (n j : Nat) (d a : Reg) (c7 : BitVec 7) (mask : BitVec 2) (act : Action) (h : Handle) (f : Follow), s.turn = .stream n j .x →
    let k := jobOf s n j
    let u := began s
    let out := (if mask.getLsbD 0 then xOutstanding k .xvq else 0) + (if mask.getLsbD 1 then xOutstanding k .xhq else 0)
    let arm (r : Option Handle) : Result := completes s 2 (modJob u n j (fun b => { b with armed := some { act := act, operand := reg s s.turn a, record := r } }))
    let cmd := k.streams.x.cmd
    let here (i : Nat) (o : Op) : Bool := o.seq == i && (match o.kind with | .copy _ _ _ => true | _ => false)
    let joined (i : Nat) (o : Op) : Op :=
      match o.kind with
      | .copy c a l => if o.seq = i then { o with kind := .copy c a (l ++ [(f, cmd)]), names := o.names ++ followNames f } else o
      | _ => o
    (Ready 2 { streams := [.x] } s →
      (out ≤ c7.toNat → exec (.xwait d c7 mask) s = completes s 2 (modStream (setReg u s.turn d (BitVec.ofNat 64 k.streams.x.maxM)) s.turn (fun st => { st with maxM := 0 })))
      ∧ (c7.toNat < out → exec (.xwait d c7 mask) s = waitsIn s u .waiting)
      ∧ (∀ i, k.lastCopy = some (i, true) → exec (.xflw f) s = completes s 2 u)
      ∧ (k.lastCopy = none → k.mq.length < 16 → k.flw = [] → exec (.xflw f) s = completes s 2 (followNow u n j f cmd))
      ∧ (k.lastCopy = none → (16 ≤ k.mq.length ∨ k.flw ≠ []) → exec (.xflw f) s = waitsIn s u .waiting)
      ∧ (∀ i, k.lastCopy = some (i, false) → (∀ o ∈ k.xvq ++ k.xhq, o.seq ≠ i) → k.mq.length < 16 → k.flw = [] → exec (.xflw f) s = completes s 2 (followNow u n j f cmd))
      ∧ (∀ i, k.lastCopy = some (i, false) → (k.xvq ++ k.xhq).any (here i) = true →
        exec (.xflw f) s = completes s 2 (modJob u n j (fun b => { b with xvq := b.xvq.map (joined i), xhq := b.xhq.map (joined i) }))))
    ∧ (Ready 2 { streams := [.x], reads := [a] } s →
      exec (.xcmpl a act 0#1 h) s = arm none
      ∧ (∀ x, queueFor s s.turn h .producer = some x → x.kind = 4 → exec (.xcmpl a act 1#1 h) s = arm (some h))
      ∧ (∀ x, queueFor s s.turn h .producer = some x → x.kind ≠ 4 → exec (.xcmpl a act 1#1 h) s = trapsWith s { cause := cQueue })
      ∧ (queueFor s s.turn h .producer = none → exec (.xcmpl a act 1#1 h) s = trapsWith s { cause := cQueue }))

/-- R245, R246: transaction barriers of the core, s[a][3:0] of the job's context. txinit clears one; txexp adds to EXP, arms it and gives its phase; txarr adds to ARR; each change makes the test of R245; txwait waits until phase s[b] is complete and txtest asks, both an acquire when it is. -/
def Obligations.BarrierResults : Prop :=
  ∀ (s : State) (n j : Nat) (d a b : Reg), s.turn = .stream n j .x →
    let c := (jobOf s n j).ctx
    let i := (reg s s.turn a).toNat % 16
    let x := tget {} (coreOf s n).txb (c * 16 + i)
    let u := began s
    let put (y : TxBarrier) : State := modCore u n (fun k => { k with txb := tset k.txb (c * 16 + i) y })
    let tested (y : TxBarrier) : TxBarrier := if y.armed = true ∧ y.exp.toNat ≤ y.arr.toNat then { ph := y.ph + 1#32, arr := y.arr - y.exp, exp := 0#48, armed := false } else y
    let more : BitVec 48 := (reg s s.turn b).setWidth 48
    let q : BitVec 32 := (reg s s.turn b).setWidth 32
    let past : Prop := 1 ≤ (x.ph - q).toNat ∧ (x.ph - q).toNat ≤ 2 ^ 31
    (Ready 1 { streams := [.x], reads := [a] } s → exec (.txinit a) s = completes s 1 (put { ph := 0#32, exp := 0#48, arr := 0#48, armed := false }))
    ∧ (Ready 1 { streams := [.x], reads := [a, b] } s →
      exec (.txexp d a b) s = completes s 1 (setReg (put (tested { x with exp := x.exp + more, armed := true })) s.turn d (x.ph.setWidth 64))
      ∧ exec (.txarr a b) s = completes s 1 (put (tested { x with arr := x.arr + more }))
      ∧ (past → exec (.txwait d a b) s = completes s 1 (setReg (acquire u n) s.turn d (x.ph.setWidth 64)) ∧ exec (.txtest d a b) s = completes s 1 (setReg (acquire u n) s.turn d 1#64))
      ∧ (¬ past → exec (.txwait d a b) s = waitsIn s u .waiting ∧ exec (.txtest d a b) s = completes s 1 (setReg u s.turn d 0#64)))

/-! Events of cores: memory, engines, jobs. -/

/-- R17, R71, R75, R80 to R85, R88, R89, R93, R97: the first operation of the LQ or SQ that may be performed takes its calendar slot, where HBM serves it, and is performed at its home slice; one for a core or vault window is performed when it arrives there and no tile is busy, a vault word at its bank, one for the fabric when that access completes. A read's value then lands in its register, or is uncorrectable where an error struck it on its way (log entry 12), and a write is acknowledged. An operation of the AQ or XHQ travels in the same three ways before its first unit. With the model's readings of log entries 8 (a C-stream access is performed at the address kept from its issue, and a walk fills the TLBs of the cores of the die that wait for its page), 12 (what an error on the way may strike), 27 (a walk recalls its tables' lines from their owners) and 49 (a whole operation of the AQ or XHQ travels once, by the memory side of its first unit): a walk for a page that neither its core nor its die holds fills, where it ends in a leaf, the die's translation cache and the TLB of the core, and those of the cores of its die that wait for the page; a struck one fills nothing. -/
def Obligations.MemoryEventResults : Prop :=
  (∀ (s : State) (n : CoreNo) (j : Nat) (q : MQueue), (coreOf s n.toNat).active = some j → (q = .lq ∨ q = .sq) →
    let m := n.toNat
    let b := jobOf s m j
    let Q := ofMQueue q
    (∀ o pa k, cHead s m j Q = some (o, pa, k) →
      let perf (direct : Bool) : Result := .next (moveC (if q = .lq then modJob (loadPerform s m j o (direct || o.filled != 0)) m j (fun b => removeOp b .lq o.seq)
        else sqEnd m j o (sqPerform s m j o (direct || o.filled != 0))) m j)
      let vault : Prop := ∃ op va pa d x y, o.kind = .vaultWord op va pa d x y
      (o.stage = 0 → travelTo pa = .calendar → exec (.calendarSlotIssue n q) s = .next (modJob s m j (fun b => replaceOp b Q { o with stage := 1 })))
      ∧ (o.stage = 1 → exec (.homeSlicePerform n q) s = perf false)
      ∧ (o.stage ≠ 1 → exec (.homeSlicePerform n q) s = .next s)
      ∧ (¬ vault → travelTo pa = .window → accBusy s pa k = false → exec (.windowAccessArrival n q) s = perf false)
      ∧ (¬ vault → travelTo pa = .window → accBusy s pa k = true → exec (.windowAccessArrival n q) s = .next s)
      ∧ (vault → q = .sq → exec (.bankSideOperation n) s = perf false)
      ∧ (travelTo pa = .fabric → b.landings = [] → exec (.fabricAccessCompletion n q false) s = perf true))
    ∧ (∀ l, (b.landings.find? (fun l => !l.fabric) = some l ∨ b.landings.find? (fun l => l.fabric && l.queue == q) = some l) →
      let u := modJob s m j (fun b => { b with landings := b.landings.filter (fun x => x.op != l.op) })
      let done (i : Instr) : Prop :=
        (l.wrong = false → exec i s = .next (arrive u (.stream m j l.sid) l.d l.op l.value))
        ∧ (l.wrong = true → exec i s = .next (engineFault (dropDue u (.stream m j l.sid) l.op) m j l.sid { cause := cDataUe, cmd := l.cmd, faddr := l.va }))
      (l.fabric = false → done (.readCompletion n)) ∧ (l.fabric = true → done (.fabricAccessCompletion n q false)))
    ∧ (b.acks ≠ 0 → exec (.writeAck n) s = .next (modJob s m j (fun b => { b with acks := b.acks - 1 })))
    ∧ (∀ va, va.toNat < 2 ^ 56 → pageIn (coreOf s m).tlb b.part b.ctx va.toNat = none →
      let ends (t : State) : Prop := exec (.translationWalkComplete n va) s = .next t
      let u := walkMade s b.part b.ctx va
      let way := walkFrom s (partOf s b.part) va.toNat (ctxOf s b.part b.ctx).xroot 4
      let top := walkEntry (ctxOf s b.part b.ctx).xroot va.toNat 3
      (∀ e, pageIn (tget [] s.dieXlat (m / 128)) b.part b.ctx va.toNat = some e → ends (fillTlbs (fillTlb s m e) m e) ∧ e ∈ (coreOf (fillTlbs (fillTlb s m e) m e) m).tlb)
      ∧ (pageIn (tget [] s.dieXlat (m / 128)) b.part b.ctx va.toNat = none →
        (Config.transitError s.tick = true → ends s)
        ∧ (Config.transitError s.tick = false →
          (∀ w sh, way = .leaf w sh →
            let e : TlbEntry := { part := b.part, ctx := b.ctx, va := va.toNat / 2 ^ sh * 2 ^ sh, size := 2 ^ sh, entry := w }
            let t := fillTlb { u with dieXlat := tset u.dieXlat (m / 128) (addDieEntry (tget [] u.dieXlat (m / 128)) e) } m e
            ends (fillTlbs t m e) ∧ e ∈ (coreOf (fillTlbs t m e) m).tlb ∧ e ∈ tget [] (fillTlbs t m e).dieXlat (m / 128))
          ∧ ((∀ w sh, way ≠ .leaf w sh) → ends u)
          ∧ (inHbm (partOf s b.part) top = true → ∀ c ∈ u.cores, ∀ r ∈ c.2.owned, ∀ l ∈ r.lines, ¬ (l < top + 8 ∧ top < l + 128))))))
  ∧ (∀ (s : State) (n : CoreNo) (j : Nat) (q : MQueue) (o : Op), (coreOf s n.toNat).active = some j → (q = .aq ∨ q = .xhq) → engineHead s n.toNat j (ofMQueue q) = some o →
    let m := n.toNat
    let way := engineTravel s m j (engineVia s m j (ofMQueue q) o) o
    let at' (k : Nat) : Result := .next (engineMod s m j (ofMQueue q) { o with stage := k })
    let arrives (i : Instr) : Prop :=
      (Config.transitError s.tick = false → exec i s = at' 2) ∧ (Config.transitError s.tick = true → exec i s = .next (engineFails s m j (ofMQueue q) o))
    (way = .calendar → (o.stage = 0 → exec (.calendarSlotIssue n q) s = at' 1) ∧ (o.stage = 1 → arrives (.homeSlicePerform n q)))
    ∧ (way = .window → o.stage = 0 → arrives (.windowAccessArrival n q))
    ∧ (way = .fabric → o.stage = 0 → arrives (.fabricAccessCompletion n q false)))

/-- What the operations of the C stream's queues do when they are performed. MemMoves: accesses, atomics and vault words move exactly their bytes (R77, R99, R101, R107, R180, R183, R189). OwnMoves: ownership (R78, R182), with the model's choices of log entries 50 (a range is known by its translated lines and its VA) and 78 (the order in which `own` tests its statuses). TaskMoves: tasks, their tickets and counters (R49, R50, R57 to R59, R185), with the model's choices of log entries 70 (sptest of a ticket that no spawn gave) and 73. WorkListMoves: work-lists (R187), with the model's choices of log entries 87 (the cause of wlpopb for a page under WPW) and 95 (the order of their statuses, and how much of wlpopb's destination is translated). FirnMoves: the Firn (R279 to R283), with the model's choice of log entry 58 (its accesses are made at user privilege). SqTurns: in which order they are performed, and what leaves the queue, with the model's choice of log entry 65 (what needs no travel is performed as soon as it is eligible). An error on the way strikes what log entry 12 says. Each part's own text gives its rules. -/
def Obligations.StoreWritesItsBytes : Prop := MemMoves ∧ OwnMoves ∧ TaskMoves ∧ WorkListMoves ∧ FirnMoves ∧ SqTurns

/-- What the engines move when AQ_OPERATION_PERFORMED, VQ_OPERATION_PERFORMED, COPY_COMMAND_PERFORMED, COMPLETION_RECORD, REMOTE_STORE_ACK, MQ_OPERATION_START, MATRIX_STEP and MQ_OPERATION_PERFORMED come; each answers a next state. VqMoves: the VQ moves whole rows, lanes by index, partitions and tables (R200, R211 to R219), in one part or in several (log entry 9). AqMoves: the AQ moves elements of patterns and windows (R224 to R234). SpaceMoves: which bytes an access of a space reads and writes (R72, R74, R75, R88, R99, R225). CopyMoves: the copy commands move their units (R235 to R239, R241), with the model's reading of log entry 31 (the flags of an xcvt reach FFLAGS when the command is performed). CopyEnds: what ends a command, its record and its action (R240, R242 to R245), with the model's choice of log entry 13 (which unit a fault of the destination names). That a unit is translated as it is performed is its reading of log entry 8. MqMoves: mclr writes 128 rows of zeros, mtrn the transpose, a product adds its sums to its band (R130, R131, R254 to R267), with the model's reading of log entry 28 (when a gathered A is read). Each part's own text gives its rules. -/
def Obligations.EngineEventResults : Prop := VqMoves ∧ AqMoves ∧ SpaceMoves ∧ CopyMoves ∧ CopyEnds ∧ MqMoves

/-- R235, R248, R249, with the model's readings of log entries 12 (an error on the way strikes the header's read) and 22: a packet whose READY byte is 1 at RIDX of a bound intake queue, of a core that serves it, has a context and fewer than 64 intake commands in their queue, is taken, as `takesPacket` says; with 64 nothing is taken. A queue whose header is malformed shows an error; a header or packet that cannot be read waits behind a ring entry, or is reported, as `stopsIntake` says: IQERR holds the index, the cause and the queue, EVENT bit 3 is set, and a violation freezes the serving core. -/
def Obligations.IntakeResults : Prop :=
  ∀ (s : State) (p : PartNo) (q : BitVec 2) (c : Nat),
    let r := tget 0#64 (partOf s p.toNat).iqhdr q.toNat
    let n := (tget 0#8 (partOf s p.toNat).iqcore q.toNat).toNat
    let hdr := r &&& 0x00FFFFFFFFFFFFC0#64
    let w : Who := { deviceWho p.toNat c with core := some n }
    let via : Via := { who := w, n := n, slot := 0, node := 0x3FF, q := .xhq, sid := .x, intake := true }
    (64 ≤ intakeCount s n → exec (.intakePacketTake p q) s = .next s)
    ∧ (intakeCount s n < 64 → r.getLsbD 0 = true → (partOf s p.toNat).pgran.getLsbD (n / 16) = true → (coreOf s n).frozen = false → (coreOf s n).ctx = some c →
     (Config.transitError s.tick = true → exec (.intakePacketTake p q) s = .next (intakeStop s via q.toNat 0 false (.fault cDataUe false hdr)))
     ∧ (Config.transitError s.tick = false → ∀ u e, vaRead s w hdr 64 = (u, .error e) → exec (.intakePacketTake p q) s = .next (intakeStop u via q.toNat 0 false e))
     ∧ ∀ u h, Config.transitError s.tick = false → vaRead s w hdr 64 = (u, .ok h) →
      let idx := fieldAt h 8 8
      let arr : Word := BitVec.ofNat 64 (fieldAt h 16 8)
      let lg := fieldAt h 24 1
      let good : Prop := 4 ≤ lg ∧ lg ≤ 16 ∧ arr.toNat % 64 = 0 ∧ fieldAt h 25 39 = 0
      let pkt := arr + BitVec.ofNat 64 (idx % 2 ^ lg * 64)
      (good → ∀ v l, vaRead u w pkt 64 = (v, .ok l) → fieldAt l 0 1 = 1 → exec (.intakePacketTake p q) s = .next (takePacket v via q.toNat hdr pkt idx l))
      ∧ (good → ∀ v e, vaRead u w pkt 64 = (v, .error e) → exec (.intakePacketTake p q) s = .next (intakeStop v via q.toNat idx false e))
      ∧ (good → ∀ v l, vaRead u w pkt 64 = (v, .ok l) → fieldAt l 0 1 ≠ 1 → exec (.intakePacketTake p q) s = .next v)
      ∧ (¬ good → exec (.intakePacketTake p q) s = .next (intakeFault u p.toNat n q.toNat idx cIllegal false))
      ∧ ∀ (v : State) (l : List Byte), takesPacket v via q.toNat hdr pkt idx l (takePacket v via q.toNat hdr pkt idx l))
    ∧ ∀ (v : State) (idx : Nat) (write : Bool),
      (∀ e, stopsIntake v via q.toNat idx write e (intakeStop v via q.toNat idx write e))
      ∧ ∀ (cause : Byte) (freeze : Bool),
        let u := intakeFault v p.toNat n q.toNat idx cause freeze
        (partOf u p.toNat).iqerr = BitVec.ofNat 64 (idx % 2 ^ 32 * 2 ^ 32 + cause.toNat * 256 + q.toNat) ∧ (partOf u p.toNat).event.getLsbD 3 = true ∧ u.mem = v.mem
        ∧ (freeze = false → u.cores = v.cores) ∧ (freeze = true → (coreOf u n).frozen = true)

/-- R30, R32, R36 to R38, R63, R247, R302, R303, R306, R311, with the model's choices of log entries 2 (when events come), 54 and 55: a core without an active job starts its staged one, unless its context has stopped, as `startsJob` says, with its registers 0 and its streams at their entries; a job whose streams have ended, with nothing outstanding, raised or handled, retires, as `retiresJob` says, and its task is complete, its pool entry free and the entry's generation one higher; a job deadlocked for 65,536 cycles, and one whose budget is spent, takes WATCHDOG in its C stream; a ready user interrupt enters UIVEC; a launch that makes no progress for its stall window stops; a column that has not switched when its budget ends is forced. -/
def Obligations.JobEventResults : Prop :=
  ∀ (s : State) (n : CoreNo), (coreOf s n.toNat).frozen = false →
    let m := n.toNat
    let k := coreOf s m
    let halted (j : Nat) : Bool := (ctxOf s (slotOf k j).job.part (slotOf k j).job.ctx).stopped
    (∀ j, stagedSlot k = some j → halted j = true → exec (.jobStart n) s = .next s)
    ∧ (∀ j, k.active = none → k.ending = false → stagedSlot k = some j → halted j = false → (slotOf k j).resumed = false → exec (.jobStart n) s = .next (startJob s m j))
    ∧ (∀ j b fl, k.active = none → k.ending = false → stagedSlot k = some j → halted j = false → (slotOf k j).resumed = true → savedOf s (slotOf k j).job.part (slotOf k j).job.ctx m j = some (b, fl) →
        exec (.jobStart n) s = .next (restoreJob s m j b fl))
    ∧ (∀ j, k.active = some j →
      let b := jobOf s m j
      (canRetire b = true → exec (.jobRetire n) s = .next (retireJob s m j))
      ∧ (canRetire b = false → exec (.jobRetire n) s = .next s)
      ∧ (∀ t since, deadlocked s m j = some t → b.deadSince = some since → since + 65536 ≤ s.now → exec (.watchdogDeadlock n) s = .next (stopStream s m j .c { cause := cWatchdog } false b.streams.c.cmd t))
      ∧ ((deadlocked s m j = none ∨ ∀ since, b.deadSince = some since → s.now < since + 65536) → exec (.watchdogDeadlock n) s = .next s)
      ∧ (∀ u, b.npUntil = some u → u ≤ s.now → exec (.npbudgetExpiry n) s =
          .next (stopStream (modJob s m j (fun b => { b with npUntil := none })) m j .c { cause := cWatchdog } false b.streams.c.cmd .c))
      ∧ (∀ u, b.npUntil = some u → s.now < u → exec (.npbudgetExpiry n) s = .next s)
      ∧ (k.ending = true → exec (.switchBudgetExpiry n) s = .next (modCore s m (fun k => { k with forced := true })))
      ∧ (k.ending = false → exec (.switchBudgetExpiry n) s = .next s)
      ∧ ((b.pend &&& ~~~b.uimask) ≠ 0#8 → b.suspending = none → b.inh = false → b.traps = [] → b.sv = false → b.streams.c.run = .running →
        ∃ u, exec (.userInterruptDelivery n) s = .next u ∧
          let c := jobOf u m j
          c.inh = true ∧ c.uiret.pc = b.streams.c.pc ∧ c.streams.c.pc = b.uivec ∧ c.streams.c.regs = b.streams.c.regs ∧ u.mem = s.mem))
    ∧ (∀ (p : PartNo) (c : Nat) (la : Launch), (partOf s p.toNat).running = some c → (ctxOf s p.toNat c).launch = some la →
      (stalled s p.toNat c la = true → exec (.stallWindowExpiry p) s = .next (discardLaunch (stopErr s p.toNat c cWatchdog (stallNode s p.toNat c la)) p.toNat c))
      ∧ (stalled s p.toNat c la = false → exec (.stallWindowExpiry p) s = .next s))
    ∧ (∀ j, stagedSlot k = some j → startsJob s m j (startJob s m j))
    ∧ (∀ (q c key : Nat) (t : Task) (nd : Node) (x : Sid),
      let y := (stagedJob q c key t nd).streams.get x
      y.regs = [] ∧ y.due = [] ∧ y.fflags = 0#5 ∧ y.slip = 0#32 ∧ y.loops = [] ∧ y.cmd = 0#32
      ∧ (nd.kernel.used.testBit (sidNum x) = true → y.run = .running ∧ y.pc = nd.kernel.addr + BitVec.ofNat 64 (nd.kernel.entries.getD (sidNum x) 0))
      ∧ (nd.kernel.used.testBit (sidNum x) = false → y.run = .ended ∧ y.atEnd = true))
    ∧ (∀ j, k.active = some j → j < 2 → retiresJob s m j (retireJob s m j))
    ∧ (∀ (w : State) (p c key : Nat) (t : Task), taskOf (launchOf w p c) key = some t → t.st ≠ .complete →
      ∃ v, completeTask w p c key = advanceLoop v p c ∧ (∃ u, taskOf (launchOf v p c) key = some u ∧ u.st = .complete)
        ∧ (∀ e, t.pool = some e → e ∉ (partOf v p).poolUsed ∧ tget 0#16 (partOf v p).poolGen e = tget 0#16 (partOf w p).poolGen e + 1#16))

/-- R17, R22, R47, R52 to R56, R60 to R62, R317, with the model's choices of log entries 2 (when events come), 12 (what an error on the way may strike) and 58 (the privilege of a probe, and a copy that cannot write): a dispatch round of the context that holds the slice is die 0's, then die 1's, and the ages rise when both have selected. A die's round makes at most 16 selections, and fewer only where no node is eligible: each takes the eligible node that ranks highest, the lowest of equals, with its oldest ready task that may run there, for which a full output edge is no bar where it holds its reservations; the node's age returns to 0, and the task is probed, or dispatched into the core that R56 names. The nodes that were eligible and not selected age by 1, to at most 255. A probe that reads answers with what it read, or with DATA_UE where an error has struck it; its reuse copy, where it succeeds, sets the hit and completes the task; at the end of a slice every staged job is returned and its task ready again, the next enabled context in ascending number, the same one where no other is enabled, holds the slice, and every column of the partition is to switch. -/
def Obligations.SchedulerEventResults : Prop :=
  ∀ (s : State) (p : PartNo) (c : Nat), (partOf s p.toNat).running = some c →
    ((ctxOf s p.toNat c).launch ≠ none → (ctxOf s p.toNat c).stopped = false →
      let a := dieRound s p.toNat c 0
      let b := dieRound a.1 p.toNat c 1
      let only := dieRound s p.toNat c 1
      (diesOf s p.toNat = [0] → exec (.dispatchRound p) s = .next (ageNodes a.1 p.toNat c a.2))
      ∧ (diesOf s p.toNat = [1] → exec (.dispatchRound p) s = .next (ageNodes only.1 p.toNat c only.2))
      ∧ (diesOf s p.toNat = [0, 1] → exec (.dispatchRound p) s = .next (ageNodes (ageNodes b.1 p.toNat c b.2) p.toNat c a.2))
      ∧ (diesOf s p.toNat = [] → exec (.dispatchRound p) s = .next s))
    ∧ (∀ d, d ∈ diesOf s p.toNat ↔ d < 2 ∧ ∃ n ∈ coresOf s p.toNat, n / 128 = d)
    ∧ (∀ die, roundSelects s p.toNat c die ∧ ∀ t node, selectOnce s p.toNat c die = some (t, node) → selects s p.toNat c die t node)
    ∧ (((ctxOf s p.toNat c).launch = none ∨ (ctxOf s p.toNat c).stopped = true) → exec (.dispatchRound p) s = .next s)
    ∧ (let nx := nextCtx s p.toNat c
      let v := endSlice (modPart ((coresOf s p.toNat).foldl (fun u n => returnStaged (returnStaged u n 0) n 1) s) p.toNat (fun q => { q with running := nx })) p.toNat
      exec (.sliceEnd p) s = .next (match nx with | none => v | some d => advanceLoop v p.toNat d)
      ∧ (partOf v p.toNat).running = nx
      ∧ (∀ d, nx = some d → (ctxOf s p.toNat d).en = true) ∧ (nx = none → ∀ d < 8, (ctxOf s p.toNat d).en = false)
      ∧ ∀ n ∈ coresOf s p.toNat, (coreOf v n).ending = true ∧ ∀ j < 2, (slotOf (coreOf v n) j).st ≠ .staged
          ∧ ((slotOf (coreOf s n) j).st = .staged → (slotOf (coreOf s n) j).resumed = false →
              let b := (slotOf (coreOf s n) j).job
              ∀ t, taskOf (launchOf s b.part b.ctx) b.task = some t → taskOf (launchOf v b.part b.ctx) b.task = some { t with st := .ready }))
    ∧ (∀ (x : CtxNo) (node : BitVec 10) (tile : BitVec 24) (k : Nat) (t : Task) (f : FirnDesc),
      let y := ctxOf s p.toNat x.toNat
      let k0 := tget 0#64 y.k 0
      let k6 := tget 0#64 y.k 6
      let struck : Prop := Config.transitError s.tick = true
      let lost : VErr := .fault cDataUe false (firnRowVa f t.tile 0)
      let who : Who := { p := p.toNat, c := x.toNat, user := true }
      (readyProbe s p.toNat x.toNat node.toNat tile.toNat false = some (k, t, f) →
        (probeReads y f t.tile k6 = true → struck → exec (.probeOutcome p x node tile) s = .next (probeFails s p.toNat x.toNat k t false lost))
        ∧ ((probeReads y f t.tile k6 = false ∨ ¬ struck) →
          (∀ u, probeTest s who f t.tile k0 k6 = (u, .ok false) → exec (.probeOutcome p x node tile) s = .next (probeMiss u p.toNat x.toNat k))
          ∧ (∀ u, probeTest s who f t.tile k0 k6 = (u, .ok true) →
            exec (.probeOutcome p x node tile) s = .next (progress (modProbe u p.toNat x.toNat k (fun b => { b with hit := true })) p.toNat x.toNat))
          ∧ (∀ u e, probeTest s who f t.tile k0 k6 = (u, .error e) → exec (.probeOutcome p x node tile) s = .next (probeFails u p.toNat x.toNat k t false e))))
      ∧ (readyProbe s p.toNat x.toNat node.toNat tile.toNat true = some (k, t, f) → struck → exec (.reuseCopyPerformed p x node tile) s = .next (probeFails s p.toNat x.toNat k t true lost))
      ∧ (readyProbe s p.toNat x.toNat node.toNat tile.toNat true = some (k, t, f) → ¬ struck → ∀ u,
          (copyResult s who f t.tile = (u, .ok ()) →
            exec (.reuseCopyPerformed p x node tile) s = .next (completeTask (dropProbe (markHit u p.toNat x.toNat f t.tile (tget 0#64 (ctxOf u p.toNat x.toNat).k 0)) p.toNat x.toNat k) p.toNat x.toNat k))
          ∧ ∀ e, copyResult s who f t.tile = (u, .error e) → exec (.reuseCopyPerformed p x node tile) s = .next (probeFails u p.toNat x.toNat k t true e)))

/-! Events of contexts, partitions and the package. -/

/-- R23, R26, R29, R40 to R42, R95, R96, R98, R282, R306, R307, with the model's choices of log entries 12 (an error on the way stops a step record or a snapshot with DATA_UE), 33 (a rollback request while BUSY), 34 (a snapshot copy that fails), 35 (the checkpoint comes before the checks of the activation), 72 (GO with no step left) and 74 (a commit word that cannot be written is passed over), 82 (a package that GANGMAP does not name once): the Step Sequencer. GO of an idle context whose SQGRAPH names its graph makes it busy, or done at once where no step is left, and stops with ILLEGAL and node 0x3FF where no graph is loaded or SQGRAPH names another; each end sets EVENT bit 2; STOP asks a busy one to stop; a step record of zero reserved fields launches the graph with its step registers, as `launches` says, a bad one stops the context; a snapshot whose blocks are copied commits and ends the step, and one whose copy fails stops the context with its cause; a rollback, requested while not busy, happens once no job of the context is active, as `rollsBack` says; a failed bank loses its words, and stops every context with a vault range on its column and asks it to roll back, with DATA_UE and node 0x3FF in SQERR. -/
def Obligations.SequencerEventResults : Prop :=
  ∀ (s : State) (p : PartNo) (c : CtxNo),
    let x := ctxOf s p.toNat c.toNat
    let P := p.toNat
    let C := c.toNat
    let live : Prop := x.busy = true ∧ x.stopped = false ∧ (partOf s P).running = some C
    let d := ctxOf (discardLaunch s P C) P C
    (∀ stop, x.busy = false → ∃ u, exec (.go p c stop) s = .next u ∧
      let y := ctxOf u P C
      let raised : Prop := (partOf u P).event.getLsbD 2 = true
      (∀ g, d.graph = some g → d.sqgraph = BitVec.ofNat 64 g.gen →
        (d.sqstep.toNat < d.sqcount.toNat → y.busy = true ∧ y.done = false ∧ y.err = false ∧ y.sqerr = 0#64 ∧ y.stopReq = stop)
        ∧ (d.sqcount.toNat ≤ d.sqstep.toNat → y.busy = false ∧ y.done = true ∧ y.err = false ∧ y.sqerr = 0#64 ∧ raised))
      ∧ ((d.graph = none ∨ ∃ g, d.graph = some g ∧ d.sqgraph ≠ BitVec.ofNat 64 g.gen) →
          y.busy = false ∧ y.done = false ∧ y.err = true ∧ y.sqerr = BitVec.ofNat 64 (0x3FF * 2 ^ 32 + 1) ∧ raised))
    ∧ (∃ u, exec (.stop p c) s = .next u ∧ (ctxOf u P C).stopReq = (x.stopReq || x.busy) ∧ u.mem = s.mem)
    ∧ (∃ u, exec (.rollbackRequest p c) s = .next u ∧ (ctxOf u P C).rb = (x.rb || !x.busy) ∧ u.mem = s.mem)
    ∧ (live → x.launch = none → x.sqstep.toNat < x.sqcount.toNat → Config.transitError s.tick = true → exec (.stepRecordArrival p c) s = .next (stopErr s P C cDataUe 0x3FF))
    ∧ (live → x.launch = none → x.sqstep.toNat < x.sqcount.toNat → Config.transitError s.tick = false →
      (∀ u w, vaRead s (deviceWho P C) (recordVa x) 64 = (u, .ok w) →
        (fieldAt w 16 4 < 16 → zeroAt w 52 64 = true → exec (.stepRecordArrival p c) s = .next (launchGraph (modCtx u P C (fun x' => { x' with k := stepRegs x (recordVa x) w })) P C))
        ∧ ((16 ≤ fieldAt w 16 4 ∨ zeroAt w 52 64 = false) → exec (.stepRecordArrival p c) s = .next (stopErr u P C cIllegal 0x3FF)))
      ∧ (∀ u e, vaRead s (deviceWho P C) (recordVa x) 64 = (u, .error e) → exec (.stepRecordArrival p c) s = .next (stopErr u P C (causeOf e) 0x3FF)))
    ∧ launches P C
    ∧ (live → ∀ sn, x.snap = some sn → Config.transitError s.tick = true → exec (.snapshotCommit p c) s = .next (modCtx (stopErr s P C cDataUe 0x3FF) P C (fun x => { x with launch := none, snap := none })))
    ∧ (live → ∀ sn u, x.snap = some sn → Config.transitError s.tick = false →
      (copyColumns s P C sn.image = (u, .ok ()) → exec (.snapshotCommit p c) s = .next (stepDone (writeCommit u P C sn.image sn.step) P C))
      ∧ ∀ e, copyColumns s P C sn.image = (u, .error e) → exec (.snapshotCommit p c) s = .next (modCtx (stopErr u P C e 0x3FF) P C (fun x => { x with launch := none, snap := none })))
    ∧ (x.rb = true → (∀ n ∈ coresOf s P, runsCtx s n P C = false) → exec (.rollback p c) s = .next (rollBack s P C))
    ∧ rollsBack s P C (rollBack s P C)
    ∧ ((x.rb = false ∨ ∃ n ∈ coresOf s P, runsCtx s n P C = true) → exec (.rollback p c) s = .next s)
    ∧ (∀ (n : CoreNo) (bank : BitVec 6) (all : Bool), ∃ u, exec (.vaultBankFailure n bank all) s = .next u ∧ u.mem.cells = s.mem.cells ∧ u.mem.flaws = s.mem.flaws ++ failedRanges n.toNat bank.toNat all
        ∧ (partOfCore s n.toNat = some P → (vrangeOf x).2 ≠ 0 → (ctxOf u P C).rb = true ∧ (ctxOf u P C).stopped = true ∧ (ctxOf u P C).sqerr = BitVec.ofNat 64 (0x3FF * 2 ^ 32 + cDataUe.toNat)))

/-- R23 to R25, R45, R95, R98, R155 to R157, R175, R186, R276, R284, R317, R318, with the model's choices of log entries 12 (a graph load that an error on the way strikes is refused with DATA_UE), 56 (the order of the checks, FIRN_DESC for a misaligned descriptor, kernels at multiples of 4), 66 (the commit words of a declared range are written at once after the declaration), 74 (one that cannot be written is passed over) and 81 (the context that holds the slice is disabled): graph load installs a graph that reads well, as `readsGraph` and `loadsNode` say, with GEN one higher and nothing of an earlier graph; unload releases one with no job, with its Firn entries, checkpoints, work-lists, map handles, barriers and keep regions; either ends with its cause, and the end raises EVENT bit 5; an enabled context that finds the slice free takes it; one that is disabled while it holds the slice passes it to the next enabled one; a vault range is declared only while the context is disabled, sets both dirty bits of each of its blocks in every column, as every write to them does, and clears both commit words; a PBSET written between phases takes effect at once, within a phase when it ends. -/
def Obligations.GraphEventResults : Prop :=
  ∀ (s : State) (p : PartNo) (c : CtxNo),
    let P := p.toNat
    let C := c.toNat
    let x := ctxOf s P C
    let ends (u : State) (cause : Byte) (node : Nat) : Result := .next (modCtx u P C (fun x => { x with glcmd := 0, glcause := cause, glnode := node }))
    (x.glbusy = true → x.glcmd = 1 →
      (x.graph ≠ none → exec (.graphLoad p c) s = ends s cIllegal 0x3FF)
      ∧ (x.graph = none → Config.transitError s.tick = true → exec (.graphLoad p c) s = ends s cDataUe 0x3FF)
      ∧ (x.graph = none → Config.transitError s.tick = false → (∀ u g, readGraph s P C = (u, .ok g) → exec (.graphLoad p c) s = .next (installGraph u P C g))
        ∧ (∀ u cause node, readGraph s P C = (u, .error (cause, node)) → exec (.graphLoad p c) s = ends u cause node)))
    ∧ readsGraph P C ∧ loadsNode P C
    ∧ (∀ g, let y := ctxOf (installGraph s P C g) P C
      y.gen = x.gen + 1#16 ∧ y.graph = some { g with gen := y.gen.toNat } ∧ y.glcause = 0#8 ∧ y.glnode = 0x3FF ∧ y.glcmd = 0 ∧ y.firn = [] ∧ y.launch = none)
    ∧ (let u := releaseGraph s P C
      let y := ctxOf u P C
      y.graph = none ∧ y.gen = x.gen ∧ y.firn = [] ∧ y.check0 = [] ∧ y.check1 = [] ∧ y.lists = [] ∧ y.launch = none ∧ y.saved = [] ∧ u.mem = s.mem
      ∧ ∀ n ∈ coresOf s P,
        (∀ node, (coreOf u n).resident ≠ some (node, C)) ∧ (∀ e ∈ (coreOf u n).floe, e.2.owner ≠ some C)
        ∧ (∀ e ∈ (coreOf u n).txb, e.1 / 16 ≠ C) ∧ ∀ e ∈ (coreOf u n).persist, e.1 / 32768 ≠ C)
    ∧ (x.glbusy = true → x.glcmd = 2 →
      (x.graph = none → exec (.graphUnload p c) s = ends s 0#8 0x3FF)
      ∧ (x.graph ≠ none → (x.busy = true ∨ hasJobs s P C = true) → exec (.graphUnload p c) s = ends s cIllegal 0x3FF)
      ∧ (x.graph ≠ none → x.busy = false → hasJobs s P C = false → exec (.graphUnload p c) s = ends (releaseGraph s P C) 0#8 0x3FF))
    ∧ (x.glbusy = true → x.glcmd = 0 → ∃ u, exec (.graphCommandEnd p c) s = .next u ∧ (ctxOf u P C).glbusy = false ∧ (partOf u P).event.getLsbD 5 = true)
    ∧ (∀ en, x.en = en → exec (.contextEnable p c en) s = .next s)
    ∧ (x.en = false → (partOf s P).running = none → exec (.contextEnable p c true) s = .next (endSlice (modPart (modCtx s P C (fun x => { x with en := true })) P (fun q => { q with running := some C })) P))
    ∧ (x.en = true → (partOf s P).running ≠ some C → exec (.contextEnable p c false) s = .next (modCtx s P C (fun x => { x with en := false })))
    ∧ (∀ v, x.en = true → exec (.vaultRangeDeclare p c v) s = .next s)
    ∧ (x.en = true → (partOf s P).running = some C → ∃ u, exec (.contextEnable p c false) s = .next u ∧ (ctxOf u P C).en = false ∧ u.mem = s.mem ∧ (∀ n ∈ coresOf s P, (coreOf u n).ending = true)
      ∧ ((partOf u P).running = none → ∀ d < 8, d ≠ C → (ctxOf s P d).en = false)
      ∧ ∀ d, (partOf u P).running = some d → d < 8 ∧ d ≠ C ∧ (ctxOf s P d).en = true ∧ ∀ e < 8, e ≠ C → (e + 8 - C) % 8 < (d + 8 - C) % 8 → (ctxOf s P e).en = false)
    ∧ (∀ v, x.en = false → ∃ u, exec (.vaultRangeDeclare p c v) s = .next u ∧ (ctxOf u P C).vrange = v &&& 0x0FFF0FFF#64 ∧ u.mem = s.mem
      ∧ let first := v.toNat % 2 ^ 12
        let count := v.toNat / 2 ^ 16 % 2 ^ 12
        (ctxOf u P C).commitDue = decide (count ≠ 0)
        ∧ ∀ n ∈ coresOf s P, ∀ b,
          (b ∈ (coreOf u n).dirty0 ↔ b ∈ (coreOf s n).dirty0 ∨ (first ≤ b ∧ b < first + count)) ∧ (b ∈ (coreOf u n).dirty1 ↔ b ∈ (coreOf s n).dirty1 ∨ (first ≤ b ∧ b < first + count)))
    ∧ (∀ (t : State) (y : Context), (partOf t P).ctxs = [(C, y)] → y.commitDue = true →
      let none' := 2 ^ 64 - 1
      (writeDue t P).mem = (writeCommit (writeCommit t P C 0 none') P C 1 none').mem ∧ (ctxOf (writeDue t P) P C).commitDue = false)
    ∧ (∀ (t : State) (image v pa key : Nat),
      let y := ctxOf t P C
      let at' := y.snaparea + BitVec.ofNat 64 (2 * (coresOf t P).length * (y.vrange.toNat / 2 ^ 16 % 2 ^ 12 * 4096) + 8 * image)
      translate t P C none at' .write false = .ok pa key → region pa = .hbm → at'.toNat % 0x10000 + 8 ≤ 0x10000 → plainAt t pa 8 key → writesRuns t.mem (writeCommit t P C image v).mem [(pa, leBytes 8 v)])
    ∧ (∀ (t : State) (n off len b : Nat), partOfCore t n = some P → 1 ≤ len → off / 4096 ≤ b → b ≤ (off + len - 1) / 4096 →
      (∃ e ∈ (partOf t P).ctxs, e.2.vrange.toNat % 2 ^ 12 ≤ b ∧ b < e.2.vrange.toNat % 2 ^ 12 + e.2.vrange.toNat / 2 ^ 16 % 2 ^ 12) →
        b ∈ (coreOf (markDirty t n off len) n).dirty0 ∧ b ∈ (coreOf (markDirty t n off len) n).dirty1)
    ∧ (∀ tag v, ∃ u, exec (.pbsetWrite p c tag v) s = .next u ∧
        let w := pennantOf x tag.toNat
        let z := pennantOf (ctxOf u P C) tag.toNat
        (w.arrived = [] → z.set = v &&& pbsetMask (partOf s P) ∧ z.held = none) ∧ (w.arrived ≠ [] → z.set = w.set ∧ z.held = some (v &&& pbsetMask (partOf s P))))

/-- R13, R294, R304, R311, R327 to R329, R334, with the model's choices of log entries 2 (when events come), 36 (which power states LATTOL opens), 57 (what a kill lets be performed) and 62 (a management cause from outside): releases of a frozen core, where a kill leaves what `killsJob` says, vacate requests, throttles, sensors, the management core's traps, of causes that R294 lists alone, and the power states of columns, of which C2 and C3 lose what `losesState` says. -/
def Obligations.ManagementEventResults : Prop :=
  ∀ (s : State) (p : PartNo) (n : CoreNo),
    let m := n.toNat
    let k := coreOf s m
    let mine := (partOf s p.toNat).pgran.getLsbD (m / 16)
    ((k.frozen = false ∨ mine = false) → exec (.releaseDeliver p n) s = .next s ∧ exec (.releaseKill p n) s = .next s)
    ∧ (k.frozen = true → mine = true →
      (k.doubleFault = true → exec (.releaseDeliver p n) s = .next s)
      ∧ (∀ j, k.active = some j → k.doubleFault = false →
          exec (.releaseDeliver p n) s = .next (deliverDue (modSlot (modCore s m (fun c => { c with frozen := false })) m j (fun sl => { sl with st := .active })) m j))
      ∧ (∀ j, k.active = some j → exec (.releaseKill p n) s = .next (killActive (modCore s m (fun c => { c with frozen := false, doubleFault := false })) m j)))
    ∧ (∃ u, exec (.vacate n) s = .next u ∧ m ∈ u.mgmt.vacates ∧ (∀ x ∈ s.mgmt.vacates, x ∈ u.mgmt.vacates) ∧ (m ∉ s.mgmt.vacates → u.mgmt.vacates.length = s.mgmt.vacates.length + 1))
    ∧ (∀ v, ∃ u, exec (.throtnWrite n v) s = .next u ∧ tget 0#4 u.mgmt.throt m = v.setWidth 4 ∧ (∀ i, i ≠ m → tget 0#4 u.mgmt.throt i = tget 0#4 s.mgmt.throt i))
    ∧ (∀ (i : BitVec 9) (raw : BitVec 16), i.toNat < 266 → ∃ u, exec (.sensorUpdate i raw) s = .next u ∧ tempOf u.mgmt i.toNat = raw
        ∧ (s.mgmt.alerthi.toInt ≤ raw.toInt → u.mgmt.alerts.getLsbD i.toNat = true ∧ u.mgmt.mevent.getLsbD 0 = true)
        ∧ (raw.toInt < s.mgmt.alerthi.toInt → u.mgmt.alerts = s.mgmt.alerts))
    ∧ (∀ cause faddr, s.mgmt.running = true → s.mgmt.stopped = false → cause ≠ 0#8 → cause.toNat ≤ 0x1A →
      (s.mgmt.mcause.getLsbD 8 = false → s.mgmt.mtvec ≠ 0#64 → ∃ u, exec (.mgmtTrapEntry cause faddr) s = .next u ∧ u.mgmt.mepc = s.mgmt.stream.pc &&& 0x3FFFC#64 ∧ u.mgmt.mcause = 1#1 ++ cause
          ∧ u.mgmt.mfaddr = faddr ∧ u.mgmt.stream.pc = s.mgmt.mtvec ∧ u.mgmt.stream.regs = s.mgmt.stream.regs)
      ∧ ((s.mgmt.mcause.getLsbD 8 = true ∨ s.mgmt.mtvec = 0#64) → ∃ u, exec (.mgmtTrapEntry cause faddr) s = .next u ∧ u.mgmt.stopped = true ∧ u.mgmtstat = cause ++ 1#8))
    ∧ (∀ cause faddr, (cause = 0#8 ∨ 0x1A < cause.toNat) → exec (.mgmtTrapEntry cause faddr) s = .next s)
    ∧ (partOfCore s m = some p.toNat →
      (isIdle s p.toNat m = true → k.power = .c0 → 16 ≤ (partOf s p.toNat).lattol.toNat → exec (.columnEnterC1 n) s = .next (modCore s m (fun k => { k with power := .c1, gatedAt := some s.now })))
      ∧ (isIdle s p.toNat m = false → exec (.columnEnterC1 n) s = .next s ∧ exec (.columnEnterDeep n) s = .next s)
      ∧ (isIdle s p.toNat m = true → (k.power = .c0 ∨ k.power = .c1) → (mayC3 s p.toNat = false ∨ (partOf s p.toNat).lattol.toNat < 1048576) → 8192 ≤ (partOf s p.toNat).lattol.toNat →
          exec (.columnEnterDeep n) s = .next (deepColumn s m .c2))
      ∧ ((partOf s p.toNat).lattol.toNat < 8192 → exec (.columnEnterDeep n) s = .next s)
      ∧ (isIdle s p.toNat m = true → (k.power = .c0 ∨ k.power = .c1) → mayC3 s p.toNat = true → 1048576 ≤ (partOf s p.toNat).lattol.toNat → exec (.columnEnterDeep n) s = .next (deepColumn s m .c3))
      ∧ (∀ g, k.power ≠ .c0 → k.gatedAt = some g → exec (.columnWake n) s = .next (modCore s m (fun c => { c with power := .c0, gated := c.gated + (s.now - g), gatedAt := none })))
      ∧ (k.power = .c0 → exec (.columnWake n) s = .next s))
    ∧ (∀ pw, losesState s m pw (deepColumn s m pw))
    ∧ (∀ j, killsJob s m j (killActive s m j))

/-- R71, R107, R114, R242, R304, R310, R315, R316, R319 to R323, with the model's choices of log entries 37 (what a flit's payload says) and 61 (what a request waits for, and that a function without a granule answers Completer Abort): links and the host. A flit whose CRC-32C over bytes 0 to 251 holds acknowledges a number and is accepted in sequence, dropped out of it; a bad one is replayed until the port goes down; one in sequence is taken as `acceptsFlit` says, and performed as `performsFlit` says; a held flit whose context may run is performed as one of the port it came by; a frozen port is released; a host request of an enabled function is answered as `answersRequests` says, gets Completer Abort where the function has no core, waits where the partition's host port is frozen, and does not come through a host port that is down. -/
def Obligations.LinkEventResults : Prop :=
  ∀ (s : State) (port : BitVec 4) (f : Flit) (p : PartNo),
    let t := port.toNat
    let x := tget {} s.ports t
    (∀ v : State, performsFlit v t f (performFlit v t f) ∧ acceptsFlit v t f (acceptFlit v t f)) ∧ answersRequests s p.toNat
    ∧ (∀ raw, (12 < t ∨ x.down = true ∨ x.enabled = false) → exec (.flitReceive port raw f) s = .next s)
    ∧ (∀ raw, t ≤ 12 → x.down = false → x.enabled = true →
      let good : Prop := raw.length = 256 ∧ fieldAt raw 252 4 = (crc32c 0#32 (raw.take 252)).toNat
      let u : State := { s with ports := tset s.ports t { x with acked := BitVec.ofNat 16 (fieldAt raw 2 2) } }
      (¬ good → x.replays < 16 → exec (.flitReceive port raw f) s = .next { s with ports := tset s.ports t { x with replays := x.replays + 1 } })
      ∧ (¬ good → 16 ≤ x.replays → exec (.flitReceive port raw f) s = .next (portDown s t))
      ∧ (good → fieldAt raw 0 2 ≠ x.next.toNat → exec (.flitReceive port raw f) s = .next u)
      ∧ (good → fieldAt raw 0 2 = x.next.toNat → exec (.flitReceive port raw f) s = .next (acceptFlit u t f)))
    ∧ (∀ rest from' g, firstAllowed s [] (partOf s p.toNat).ingress = some (rest, from', g) →
        exec (.ingressRelease p) s = .next (performFlit (modPart s p.toNat (fun q => { q with ingress := rest })) from' g))
    ∧ (firstAllowed s [] (partOf s p.toNat).ingress = none → exec (.ingressRelease p) s = .next s)
    ∧ (∃ u, exec (.frozenPortRelease p port) s = .next u ∧ (partOf u p.toNat).portFrozen.getLsbD t = false ∧ ∀ i, i ≠ t → (partOf u p.toNat).portFrozen.getLsbD i = (partOf s p.toNat).portFrozen.getLsbD i)
    ∧ (hostDown s = true → ∀ r, exec (.hostRequest r) s = .next s)
    ∧ (hostDown s = false → ∀ r, reqFn r = p.toNat + 1 →
      ((partOf s p.toNat).pgran = 0#16 → exec (.hostRequest r) s = .next { s with hostReplies := s.hostReplies ++ [(p.toNat + 1, none)] })
      ∧ ((partOf s p.toNat).pgran ≠ 0#16 → (partOf s p.toNat).portFrozen.getLsbD 12 = true → exec (.hostRequest r) s = .next s)
      ∧ ((partOf s p.toNat).pgran ≠ 0#16 → (partOf s p.toNat).portFrozen.getLsbD 12 = false → exec (.hostRequest r) s = .next (partRequest s p.toNat r)))
    ∧ (hostDown s = false → ∀ off len, exec (.hostRequest (.bar0Read 0#5 off len)) s = .next { s with hostReplies := s.hostReplies ++
        [(0, some ((List.range len.toNat).map (fun i => fn0Byte s (off.toNat + i))))] })

/-- R17, R94, R141, R324, R325, R330, R332, with the model's choices of log entries 3 (what memory reads as), 14 (the boot checks against free fused values, and a signature of the last 29,792 bytes with an empty context), 18 (who writes package registers), 38 (where an image's code starts, and that none comes through a host port that is down), 59 (what a warm reset keeps) and 60 (a function reset drops the partition's held flits): boot, attestation, resets, power and management writes. An image that passes its checks is loaded at SRAM 0 and runs at byte 80; one that fails sets BOOTSTAT to its step: its size, its words 0 and 1, the SHAKE256 of its key, its signature, its version; attestation takes nonce and address as they stand at ATTGO and ends with the registers locked; a cold reset leaves the reset state but for host memory; a warm reset drops every column's state and gives registers their reset values, but for the firmware, the routes and the lock; loss of power stops every step; a locked package ignores routes and port enables; an illegal word raises ILLEGAL. -/
def Obligations.PackageEventResults : Prop :=
  ∀ s : State,
    (exec .bootgo s = .next { s with bootgo := true })
    ∧ (s.bootgo = true → s.bootstat = 0xFF#8 → hostDown s = false →
      let l := hostBytes s s.bootaddr.toNat (min s.bootlen.toNat 229376)
      let key := (l.drop 16).take 64
      let size : Prop := s.bootlen.toNat ≤ 229376
      let head : Prop := fieldAt l 0 4 = 0x464D4C4E ∧ fieldAt l 4 4 = Config.encid.toNat
      let hash : Prop := shake256 key 32 = leBytes 32 Config.fusedKeyHash.toNat
      let signed : Prop := 80 + 29792 ≤ l.length ∧ slhVerify (l.take (l.length - 29792)) (l.drop (l.length - 29792)) key = true
      (¬ size → bootFailure s l = some 2) ∧ (size → ¬ head → bootFailure s l = some 3) ∧ (size → head → ¬ hash → bootFailure s l = some 4)
      ∧ (size → head → hash → ¬ signed → bootFailure s l = some 5)
      ∧ (size → head → hash → signed → bootFailure s l = if fieldAt l 8 8 < Config.fusedSvn.toNat then some 6 else none)
      ∧ (∀ k, bootFailure s l = some k → exec .bootImageLoaded s = .next { s with bootstat := BitVec.ofNat 8 k })
      ∧ (bootFailure s l = none → exec .bootImageLoaded s = .next { s with bootstat := 0#8, bootHash := shake256 l 64, bootSvn := BitVec.ofNat 64 (fieldAt l 8 8), mem := memWrite s.mem (sramAt 0) l, mgmt := { s.mgmt with running := true, stream := { s.mgmt.stream with pc := 80#64, run := .running } } }))
    ∧ ((s.bootgo = false ∨ s.bootstat ≠ 0xFF#8 ∨ hostDown s = true) → exec .bootImageLoaded s = .next s)
    ∧ (∀ fn : BitVec 5, fn.toNat ≤ 16 → let a := tget {} s.attests fn.toNat
      (a.busy = true → exec (.attgo fn) s = .next s ∧ ∃ u, exec (.attestationDone fn) s = .next u ∧ u.locked = true ∧ (tget {} u.attests fn.toNat).busy = false ∧ (tget {} u.attests fn.toNat).stat = 0#2)
      ∧ (a.busy = false → exec (.attestationDone fn) s = .next s
        ∧ exec (.attgo fn) s = .next { s with attests := tset s.attests fn.toNat (if a.addr.toNat % 64 = 0 then { a with stat := 1#2, busy := true, askNonce := a.nonce, askAddr := a.addr } else { a with stat := 2#2 }) }))
    ∧ (∃ u, exec .warmrst s = .next u ∧ u.cores = [] ∧ u.dieXlat = [] ∧ u.mgmt.running = s.mgmt.running ∧ (∀ q, (partOf u q).cecount = (partOf s q).cecount) ∧ (∀ q, (partOf u q).pgran = 0#16)
        ∧ u.mgmt.throt = [] ∧ u.mgmt.alerthi = 0x0550#16 ∧ u.mgmt.mevent = 0#4 ∧ u.mgmt.alerts = 0#272 ∧ u.mgmt.mtvec = 0#64 ∧ u.bootaddr = 0#64 ∧ u.bootlen = 0#32 ∧ u.attests = []
        ∧ u.mgmt.stream = s.mgmt.stream ∧ u.routes = s.routes ∧ u.locked = s.locked)
    ∧ (∃ u, exec .coldReset s = .next u ∧ u.cores = [] ∧ u.parts = [] ∧ u.powered = true ∧ u.mgmt = State.reset.mgmt ∧ u.turn = State.reset.turn
        ∧ (∀ e ∈ u.mem.cells, Config.hostBase ≤ e.1) ∧ ∀ x, Config.hostBase ≤ x → x < Config.physEnd → memRead u.mem x = memRead s.mem x)
    ∧ (∀ p : PartNo, ∃ u, exec (.functionLevelReset p) s = .next u ∧ (partOf u p.toNat).running = none ∧ (partOf u p.toNat).event = 0#6 ∧ (partOf u p.toNat).ingress = []
        ∧ (partOf u p.toNat).pgran = (partOf s p.toNat).pgran)
    ∧ (exec .packagePowerLoss s = .next { s with powered := false })
    ∧ (∀ t, t.powered = false → t.agenda = [] → step t = .fault .noPower)
    ∧ (exec .repairReplay s = .next { s with vaultReady := true })
    ∧ (s.locked = true → ∀ pkg port mask, exec (.registerWrite (.route pkg port)) s = .next s ∧ exec (.registerWrite (.ports mask)) s = .next s)
    ∧ (s.locked = false → ∀ pkg (port : BitVec 4), port.toNat < 12 → exec (.registerWrite (.route pkg (some port))) s = .next { s with routes := tset s.routes pkg.toNat port.toNat })
    ∧ (canIssue s s.turn = true → exec .illegalEncoding s = trapsWith s { cause := cIllegal })
    ∧ (canIssue s s.turn = false → exec .illegalEncoding s = .next s)

/-! The machine as a whole. -/

/-- R15, R316 to R318, R324, R327, R328, R330, R332: what a cold reset leaves. No partition has a granule, no context is enabled, every register of the blocks holds its reset value, no job stands in a core, every column is in C3, the management core does not run, BOOTSTAT reads 0xFF, ports are not enabled, nothing is locked. That memory lists no cell, so that every byte reads as its default, is the model's choice of log entry 3, and that no route stands is that of log entry 4. The zeros of other registers without a stated reset value (log entry 4) are not stated here. -/
def Obligations.ResetState : Prop :=
  let s := State.reset
  (∀ p, let q := partOf s p
    q.pgran = 0#16 ∧ q.phbm = 0#64 ∧ q.pways = 0#64 ∧ q.pkeys = 0#64 ∧ q.pfirnq = 0#20 ∧ q.splimit = 8#4 ∧ q.stallwin = 0x1000000#32 ∧ q.fill = 0xFF#8
    ∧ q.handler = 0#64 ∧ q.cecount = 0#32 ∧ q.event = 0#6 ∧ q.iqerr = 0#64 ∧ q.rtring = 0#64 ∧ q.running = none
    ∧ q.lattol = 0#32 ∧ q.hkey = 0#9 ∧ ∀ i, tget 0#64 q.iqhdr i = 0#64 ∧ tget 0#8 q.iqcore i = 0#8 ∧ tget 0xFF#8 q.gangmap i = 0xFF#8)
  ∧ (∀ p c, let x := ctxOf s p c
    x.en = false ∧ x.busy = false ∧ x.done = false ∧ x.err = false ∧ x.sqrec = 0#64 ∧ x.sqcount = 0#16 ∧ x.sqstep = 0#16 ∧ x.sqgraph = 0#64 ∧ x.sqerr = 0#64
    ∧ x.vrange = 0#64 ∧ x.graph = none ∧ x.launch = none
    ∧ x.xroot = 0 ∧ x.sliceq = 2 ^ 20 ∧ x.swbudget = 2 ^ 20 ∧ x.snaparea = 0#64 ∧ x.savearea = 0#64 ∧ (∀ t, (pennantOf x t).set = 0#320) ∧ x.gladdr = 0#64 ∧ glstat x = 0#64)
  ∧ (∀ n, let k := coreOf s n
    k.active = none ∧ k.slot0.st = .empty ∧ k.slot1.st = .empty ∧ k.frozen = false ∧ k.doubleFault = false ∧ k.power = .c3)
  ∧ s.powered = true ∧ s.mgmt.running = false ∧ s.mgmt.stopped = false ∧ s.mgmt.mtvec = 0#64 ∧ s.mgmt.alerthi = 0x0550#16 ∧ s.mgmt.mevent = 0#4
  ∧ s.bootaddr = 0#64 ∧ s.bootlen = 0#32 ∧ s.bootgo = false ∧ s.bootstat = 0xFF#8 ∧ s.locked = false ∧ s.routes = []
  ∧ (∀ t, (tget {} s.ports t).enabled = false) ∧ s.mem.cells = []

/-- The invariant holds after reset: memory is in its canonical form. -/
def Obligations.ResetMeetsInvariant : Prop := Inv State.reset

/-- Every step keeps the invariant: whatever an agent, an engine, the host or a reset does, memory stays in its canonical form, in which equal memories are equal data. -/
def Obligations.StepKeepsInvariant : Prop := ∀ s t : State, Inv s → step s = .next t → Inv t

/-- R135, R141: with nothing asked for from outside, a step of an agent that may issue, waits in nothing and has nothing to take first fetches the bytes at its PC; where they decode to an instruction, the step is that instruction in the fetched state, followed by what it left to be done at once, and the turn passes on. Bytes that are no instruction raise ILLEGAL, and a failed fetch raises FETCH at the PC. Fetching changes no register; where no line is owned it changes no byte of memory; of a partition it changes CECOUNT alone, which counts what R91 corrects, and nothing where no sector is flawed. Whose turn it is, and that an empty agenda lets an agent issue, is the model's choice of log entry 1. -/
def Obligations.StepRunsDecoded : Prop :=
  ∀ s v : State, s.powered = true → s.agenda = [] →
    let u := tickOn s
    canIssue u u.turn = true → inWait u u.turn = false → boundary u u.turn = none →
    (∀ l, fetchInstr u u.turn = (v, some l) →
      ((∀ e ∈ s.cores, e.2.owned = []) → v.mem = s.mem) ∧ (∀ p, partOf v p = { partOf s p with cecount := (partOf v p).cecount }) ∧ (s.mem.flaws = [] → v.parts = s.parts) ∧ v.turn = s.turn ∧ (∀ r, reg v s.turn r = reg s s.turn r) ∧ (streamOf v s.turn).pc = (streamOf s s.turn).pc
      ∧ (∀ i r, decode l = .ok (i, r) →
        (∀ t, exec i v = .next t → step s = .next { settle t with turn := nextTurn (settle t) })
        ∧ (∀ f, exec i v = .fault f → step s = .fault f) ∧ (∀ f, exec i v = .refused f → step s = .refused f))
      ∧ (∀ e, decode l = .error e → ∀ t, illegal v = .next t → step s = .next { settle t with turn := nextTurn (settle t) }))
    ∧ (fetchInstr u u.turn = (v, none) →
      let t := takeTrap v v.turn { cause := cFetch, faddr := (streamOf v v.turn).pc }
      step s = .next { settle t with turn := nextTurn (settle t) })

/-- R135 to R144: words of the spec's worked encodings, of every family, decode to the instruction they stand for; 0xFFFF_FFFF and a word with a reserved field set do not decode. -/
def Obligations.DecodeWords : Prop :=
  (∀ e ∈ ([(0x00000000#32, .add 0#6 0#6 0#6), (0x68414603#32, .vfma 4#6 5#6 6#6), (0x44006001#32, .qfence 0x60#7), (0x48518700#32, .spawn 5#6 6#6 7#6), (0x1C401003#32, .loopi 0#2 1#10 3#12),
      (0x2C003F01#32, .rdvEnd), (0x40510699#32, .amocas 5#6 4#6 6#6 .sc .d), (0x50518700#32, .frnck 5#6 6#6 7#6), (0x90210500#32, .flmatch 2#3 4#6 5#6), (0x94304600#32, .vsmx 3#6 1#6 6#6),
      (0xA110A600#32, .mmac 2#3 4#5 5#5 6#5), (0x98111200#32, .prunepk 1#3 4#6 1#2 2#4), (0x98550603#32, .mdchk 5#6 20#6 6#6)] : List (IWord × Instr)),
    decode (bytesOfIWord e.1) = .ok (e.2, []))
  ∧ (∀ w ∈ [0xFFFFFFFF#32, 0x5C000000#32, 0x44041001#32], ∃ e, decode (bytesOfIWord w) = .error e)

/-- R135 to R144: what `encode` writes of a well-formed instruction, with every operand at every value its field admits, `decode` reads back, whatever follows it. -/
def Obligations.DecodeEncode : Prop := ∀ i : Instr, Laws.RoundTrip.Statement i

/-- R34, R115, R141, R142: every instruction and every event answers a next state; an agent that may not issue is left as it is; a major opcode of another stream raises ILLEGAL, a supervisor instruction at user privilege PRIV, and an instruction that reads a register whose value is still to come waits for it. -/
def Obligations.InstructionChecks : Prop :=
  (∀ (i : Instr) (s : State), ∃ t, exec i s = .next t)
  ∧ (∀ (i : Instr) (s : State), i.isWord = true → canIssue s s.turn = false → exec i s = .next s)
  ∧ (∀ (i : Instr) (s : State) (n j : Nat) (t : Sid) (w : IWord) (r : List IWord), s.turn = .stream n j t → canIssue s s.turn = true → i.isWord = true → encode i = w :: r →
      13 ≤ (fOp w).toNat → majorSid (fOp w).toNat ≠ t → exec i s = trapsWith s { cause := cIllegal })
  ∧ (∀ (s : State) (n j : Nat) (d a b : Reg), s.turn = .stream n j .c → canIssue s s.turn = true → (jobOf s n j).sv = false →
      ∀ i ∈ [Instr.eret, .rtnext d, .rtfill d a, .resume d a, .kill d a, .tlbinv a b], exec i s = trapsWith s { cause := cPriv })
  ∧ (∀ (s : State) (d a b : Reg), canIssue s s.turn = true → issueCheck s s.turn 1 {} = none → (isDue s s.turn a = true ∨ isDue s s.turn b = true) →
      ∀ i ∈ [Instr.add d a b, .sub d a b, .and d a b, .or d a b, .xor d a b, .mul d a b, .div d a b, .slt d a b, .fadd d a b, .fmul d a b, .beq a b 0#11, .bne a b 0#11], exec i s = waitsIn s s .waiting)

/-- R6, R7, R141, R145: the frame of an instruction that only computes a register. Its register holds a value, s0 none but 0; every other register, those of the banks that the stream does not name now among them, the stream's flags, the other streams, the special registers and engines of the job, the other cores, the partitions and all of memory are as they were. -/
def Obligations.RegisterFrame : Prop :=
  ∀ (s : State) (n j : Nat) (t : Sid) (d a b : Reg) (imm : BitVec 11) (sh : BitVec 6) (hi : BitVec 20) (ext : BitVec 32) (k : BitVec 4) (w : IdReg) (l : BitVec 3),
    s.turn = .stream n j t → unstepped s s.turn = true →
    let g := s.turn
    ∀ e ∈ ([(1, .add d a b), (1, .sub d a b), (1, .and d a b), (1, .or d a b), (1, .xor d a b), (1, .andn d a b), (1, .sll d a b), (1, .srl d a b), (1, .sra d a b), (1, .rol d a b), (1, .mul d a b),
        (1, .mulh d a b), (1, .mulhu d a b), (1, .div d a b), (1, .divu d a b), (1, .rem d a b), (1, .remu d a b), (1, .min d a b), (1, .minu d a b), (1, .max d a b), (1, .maxu d a b),
        (1, .seq d a b), (1, .sne d a b), (1, .slt d a b), (1, .sltu d a b), (1, .sle d a b), (1, .sleu d a b), (1, .clz d a), (1, .ctz d a), (1, .popc d a), (1, .bswap d a),
        (1, .sexb d a), (1, .sexh d a), (1, .sexw d a), (1, .addi d a imm), (1, .andi d a imm), (1, .ori d a imm), (1, .xori d a imm), (1, .slti d a imm), (1, .slli d a sh), (1, .srli d a sh),
        (1, .srai d a sh), (1, .lui d hi), (2, .lix d ext), (2, .lihx d ext), (2, .addx d a ext), (1, .rdk d k), (1, .rdcyc d), (1, .rdid d w), (1, .rdloop d l)] : List (Nat × Instr)),
      Ready e.1 { reads := [d, a, b] } s →
      ∃ u, exec e.2 s = .next u ∧ (∀ r, r ≠ d → reg u g r = reg s g r) ∧ reg u g 0#6 = 0#64 ∧ isDue u g d = false ∧ (streamOf u g).fflags = (streamOf s g).fflags
        ∧ (∀ i, i ≠ regPlace s g d → tget 0#64 (streamOf u g).regs i = tget 0#64 (streamOf s g).regs i)
        ∧ (∀ i, 64 + i ≠ regPlace s g d → tget 0#64 (jobOf u n j).bank i = tget 0#64 (jobOf s n j).bank i)
        ∧ (∀ i, 128 + i ≠ regPlace s g d → tget 0#64 (jobOf u n j).shadow i = tget 0#64 (jobOf s n j).shadow i)
        ∧ (∀ x, x ≠ t → (jobOf u n j).streams.get x = (jobOf s n j).streams.get x)
        ∧ jobOf u n j = { jobOf s n j with streams := (jobOf u n j).streams, bank := (jobOf u n j).bank, shadow := (jobOf u n j).shadow }
        ∧ (∀ m, m ≠ n → coreOf u m = coreOf s m) ∧ u.parts = s.parts ∧ u.mgmt = s.mgmt ∧ u.mem = s.mem

/-- R199, R203, R204: the frame of a lane instruction. No byte changes outside the 512 bytes of its destination row; no register, mask, special register, other stream, other core or partition changes. -/
def Obligations.VectorFrame : Prop :=
  ∀ (s : State) (n j : Nat) (d a b : VReg), VReady 1 [] [d, a, b] true s n j → unstepped s s.turn = true →
    let g := s.turn
    ∀ i ∈ [Instr.vadd d a b, .vsub d a b, .vmul d a b, .vfma d a b, .vfms d a b, .vfnma d a b, .vmin d a b, .vmax d a b, .vminp d a b, .vmaxp d a b, .vdiv d a b, .vand d a b, .vor d a b,
        .vxor d a b, .vabs d a, .vneg d a, .vsgn d a, .vnot d a, .vmov d a],
      ∃ u, exec i s = .next u ∧ (∀ x, x < rowAt n (rowOf (jobOf s n j) d) ∨ rowAt n (rowOf (jobOf s n j) d) + 512 ≤ x → memRead u.mem x = memRead s.mem x)
        ∧ (∀ r, reg u g r = reg s g r) ∧ (∀ x, x ≠ .v → (jobOf u n j).streams.get x = (jobOf s n j).streams.get x)
        ∧ jobOf u n j = { jobOf s n j with streams := (jobOf u n j).streams } ∧ (∀ m, m ≠ n → coreOf u m = coreOf s m) ∧ u.parts = s.parts ∧ u.mgmt = s.mgmt

/-- R167, R168, R296, R312: how an instruction retires. In sequence the PC goes past its words and the end tests follow: among the live levels that end there the newest repeats while its count is not 0, else it becomes inactive and the next is tested. A jump cancels each live level whose body its target leaves, and every level activated after it. The instruction is counted at user privilege. With its bit of DBGCTL set the stream then takes STEP. -/
def Obligations.RetirementResults : Prop :=
  (∀ (s : State) (g : Agent) (words : Nat) (t : Word), unstepped s g = true →
    let done (st : Stream) : Stream := { st with run := .running, cmd := if supervisor s g then st.cmd else st.cmd + 1#32 }
    retire s g words .seq = modStream s g (fun st => seqTo (done st) (st.pc + BitVec.ofNat 64 (4 * words)))
    ∧ retire s g words (.jump t) = modStream s g (fun st => jumpTo (done st) t) ∧ retire s g words (.skip t) = modStream s g (fun st => seqTo (done st) t)
    ∧ retire s g words (.ret t) = modStream s g (fun st => { done st with pc := t }))
  ∧ (∀ (st : Stream) (pc : Word), seqTo st pc = endTest { st with pc := pc } 4)
  ∧ (∀ (st : Stream) (k l : Nat) (p : Loop),
    let ends := (liveLoops st).filter (fun e => e.2.stop == st.pc)
    (ends = [] → endTest st (k + 1) = st)
    ∧ ((l, p) ∈ ends → (∀ e ∈ ends, e = (l, p) ∨ e.2.age < p.age) →
      (p.cnt ≠ 0#32 → endTest st (k + 1) = { st with pc := p.start, loops := tset st.loops l { p with cnt := p.cnt - 1#32 } })
      ∧ (p.cnt = 0#32 → endTest st (k + 1) = endTest { st with loops := tset st.loops l { p with act := false } } k)))
  ∧ (∀ (st : Stream) (t : Word) (i : Nat), (jumpTo st t).pc = t ∧ (jumpTo st t).loops.length = st.loops.length ∧
    ∀ e, st.loops[i]? = some e →
      let live (e : Nat × Loop) : Prop := e.2.act = true ∧ e.2.held = 0
      let leaves : Prop := live e ∧ ∃ o ∈ st.loops, live o ∧ ¬ (o.2.start.toNat ≤ t.toNat ∧ t.toNat < o.2.stop.toNat) ∧ o.2.age ≤ e.2.age
      (leaves → (jumpTo st t).loops[i]? = some (e.1, { e.2 with act := false })) ∧ (¬ leaves → (jumpTo st t).loops[i]? = some e))
  ∧ (∀ (s : State) (n j words : Nat) (t : Sid), t ≠ .c → (jobOf s n j).dbgctl.getLsbD (sidNum t) = true → ((jobOf s n j).streams.get t).faults = [] →
    let u := retire s (.stream n j t) words .seq
    let c := jobOf u n j
    c.traps = (jobOf s n j).traps ++ [t] ∧ (c.streams.get t).run = .stopped ∧ (c.streams.get t).regs = ((jobOf s n j).streams.get t).regs
    ∧ (c.streams.get t).pc = (seqTo ((jobOf s n j).streams.get t) (((jobOf s n j).streams.get t).pc + BitVec.ofNat 64 (4 * words))).pc
    ∧ leNat (memReadN u.mem (recordAt n j t) 1) = cStep.toNat)
  ∧ (∀ (s : State) (n j words : Nat), (jobOf s n j).dbgctl.getLsbD (sidNum .c) = true → (jobOf s n j).sv = false → (jobOf s n j).streams.c.faults = [] → (jobOf s n j).traps = [] → (coreOf s n).frozen = false →
    let b := jobOf s n j
    let next := (seqTo b.streams.c (b.streams.c.pc + BitVec.ofNat 64 (4 * words))).pc
    let u := retire s (.stream n j .c) words .seq
    let c := jobOf u n j
    c.sv = true ∧ c.ts = .c ∧ c.traps = [] ∧ c.epc = next &&& 0x00FFFFFFFFFFFFFC#64 ∧ c.ecause = cStep ∧ c.streams.c.pc = b.trapvec ∧ c.streams.c.run = .running ∧ c.streams.c.regs = b.streams.c.regs
    ∧ c.streams.c.cmd = b.streams.c.cmd + 1#32 ∧ leNat (memReadN u.mem (recordAt n j .c) 1) = cStep.toNat)
end

