-- ==== Sys2Proof/Laws/State.lean ====
section
/-! SUPPORT. Tables, and the fields of the state under each of its updates: one lemma for each field and update. -/

namespace Sys2Proof.Machine

/-! Tables. -/

@[simp] theorem tfind_tset_same {α : Type} (t : Table α) (k : Nat) (v : α) : tfind (tset t k v) k = some v := by
  induction t with
  | nil => simp [tset, tfind]
  | cons e r ih =>
    obtain ⟨j, w⟩ := e
    unfold tset
    split
    · simp [tfind]
    · split
      · simp [tfind]
      · rename_i _ h
        simp [tfind, ih, Ne.symm h]

theorem tfind_tset_other {α : Type} (t : Table α) {j k : Nat} (v : α) (h : j ≠ k) : tfind (tset t k v) j = tfind t j := by
  induction t with
  | nil => simp [tset, tfind, h.symm]
  | cons e r ih =>
    obtain ⟨i, w⟩ := e
    unfold tset
    split
    · simp [tfind, h.symm]
    · split
      · rename_i _ hk
        subst hk
        simp [tfind, h.symm]
      · simp [tfind, ih]

@[simp] theorem tget_tset_same {α : Type} (d : α) (t : Table α) (k : Nat) (v : α) : tget d (tset t k v) k = v := by
  simp [tget]

theorem tget_tset_other {α : Type} (d : α) (t : Table α) {j k : Nat} (v : α) (h : j ≠ k) : tget d (tset t k v) j = tget d t j := by
  simp [tget, tfind_tset_other t v h]

/-- Setting a key twice leaves the second value. -/
@[simp] theorem tset_tset {α : Type} (t : Table α) (k : Nat) (v w : α) : tset (tset t k v) k w = tset t k w := by
  induction t with
  | nil => simp [tset]
  | cons e r ih =>
    obtain ⟨j, u⟩ := e
    by_cases h1 : k < j
    · simp [tset, h1]
    · by_cases h2 : k = j
      · subst h2; simp [tset]
      · simp [tset, h1, h2, ih]

@[simp] theorem tfind_tdel_same {α : Type} (t : Table α) (k : Nat) : tfind (tdel t k) k = none := by
  induction t with
  | nil => rfl
  | cons e r ih =>
    obtain ⟨j, u⟩ := e
    unfold tdel at *
    by_cases h : j = k
    · simp [h, ih]
    · simp [h, tfind, ih]

/-! Streams of a job. -/

@[simp] theorem Five.get_set_same {α : Type} (f : Five α) (t : Sid) (y : α) : (f.set t y).get t = y := by cases t <;> rfl
theorem Five.get_set_other {α : Type} (f : Five α) {t u : Sid} (y : α) (h : u ≠ t) : (f.set t y).get u = f.get u := by
  cases t <;> cases u <;> first | rfl | exact absurd rfl h
@[simp] theorem Five.set_set {α : Type} (f : Five α) (t : Sid) (y z : α) : (f.set t y).set t z = f.set t z := by cases t <;> rfl

/-! Slots of a core. -/

@[simp] theorem slotOf_setSlot_same (c : Core) (j : Nat) (sl : Slot) : slotOf (setSlot c j sl) j = sl := by
  unfold slotOf setSlot; split <;> rfl
@[simp] theorem setSlot_setSlot (c : Core) (j : Nat) (x y : Slot) : setSlot (setSlot c j x) j y = setSlot c j y := by
  unfold setSlot; split <;> rfl
@[simp] theorem setSlot_active (c : Core) (j : Nat) (sl : Slot) : (setSlot c j sl).active = c.active := by unfold setSlot; split <;> rfl
@[simp] theorem setSlot_ctx (c : Core) (j : Nat) (sl : Slot) : (setSlot c j sl).ctx = c.ctx := by unfold setSlot; split <;> rfl
@[simp] theorem setSlot_ending (c : Core) (j : Nat) (sl : Slot) : (setSlot c j sl).ending = c.ending := by unfold setSlot; split <;> rfl
@[simp] theorem setSlot_forced (c : Core) (j : Nat) (sl : Slot) : (setSlot c j sl).forced = c.forced := by unfold setSlot; split <;> rfl
@[simp] theorem setSlot_resident (c : Core) (j : Nat) (sl : Slot) : (setSlot c j sl).resident = c.resident := by unfold setSlot; split <;> rfl
@[simp] theorem setSlot_lastCtx (c : Core) (j : Nat) (sl : Slot) : (setSlot c j sl).lastCtx = c.lastCtx := by unfold setSlot; split <;> rfl
@[simp] theorem setSlot_frozen (c : Core) (j : Nat) (sl : Slot) : (setSlot c j sl).frozen = c.frozen := by unfold setSlot; split <;> rfl
@[simp] theorem setSlot_doubleFault (c : Core) (j : Nat) (sl : Slot) : (setSlot c j sl).doubleFault = c.doubleFault := by unfold setSlot; split <;> rfl
@[simp] theorem setSlot_power (c : Core) (j : Nat) (sl : Slot) : (setSlot c j sl).power = c.power := by unfold setSlot; split <;> rfl
@[simp] theorem setSlot_gated (c : Core) (j : Nat) (sl : Slot) : (setSlot c j sl).gated = c.gated := by unfold setSlot; split <;> rfl
@[simp] theorem setSlot_gatedAt (c : Core) (j : Nat) (sl : Slot) : (setSlot c j sl).gatedAt = c.gatedAt := by unfold setSlot; split <;> rfl
@[simp] theorem setSlot_l1 (c : Core) (j : Nat) (sl : Slot) : (setSlot c j sl).l1 = c.l1 := by unfold setSlot; split <;> rfl
@[simp] theorem setSlot_icache (c : Core) (j : Nat) (sl : Slot) : (setSlot c j sl).icache = c.icache := by unfold setSlot; split <;> rfl
@[simp] theorem setSlot_prefetches (c : Core) (j : Nat) (sl : Slot) : (setSlot c j sl).prefetches = c.prefetches := by unfold setSlot; split <;> rfl
@[simp] theorem setSlot_tlb (c : Core) (j : Nat) (sl : Slot) : (setSlot c j sl).tlb = c.tlb := by unfold setSlot; split <;> rfl
@[simp] theorem setSlot_owned (c : Core) (j : Nat) (sl : Slot) : (setSlot c j sl).owned = c.owned := by unfold setSlot; split <;> rfl
@[simp] theorem setSlot_txb (c : Core) (j : Nat) (sl : Slot) : (setSlot c j sl).txb = c.txb := by unfold setSlot; split <;> rfl
@[simp] theorem setSlot_floe (c : Core) (j : Nat) (sl : Slot) : (setSlot c j sl).floe = c.floe := by unfold setSlot; split <;> rfl
@[simp] theorem setSlot_intake (c : Core) (j : Nat) (sl : Slot) : (setSlot c j sl).intake = c.intake := by unfold setSlot; split <;> rfl
@[simp] theorem setSlot_persist (c : Core) (j : Nat) (sl : Slot) : (setSlot c j sl).persist = c.persist := by unfold setSlot; split <;> rfl
@[simp] theorem setSlot_dirty0 (c : Core) (j : Nat) (sl : Slot) : (setSlot c j sl).dirty0 = c.dirty0 := by unfold setSlot; split <;> rfl
@[simp] theorem setSlot_dirty1 (c : Core) (j : Nat) (sl : Slot) : (setSlot c j sl).dirty1 = c.dirty1 := by unfold setSlot; split <;> rfl

/-! The fields of the state that an update leaves alone. -/

@[simp] theorem setCore_tick (s : State) (n : Nat) (c : Core) : (setCore s n c).tick = s.tick := rfl
@[simp] theorem setCore_agenda (s : State) (n : Nat) (c : Core) : (setCore s n c).agenda = s.agenda := rfl
@[simp] theorem setCore_turn (s : State) (n : Nat) (c : Core) : (setCore s n c).turn = s.turn := rfl
@[simp] theorem setCore_now (s : State) (n : Nat) (c : Core) : (setCore s n c).now = s.now := rfl
@[simp] theorem setCore_powered (s : State) (n : Nat) (c : Core) : (setCore s n c).powered = s.powered := rfl
@[simp] theorem setCore_mem (s : State) (n : Nat) (c : Core) : (setCore s n c).mem = s.mem := rfl
@[simp] theorem setCore_dieXlat (s : State) (n : Nat) (c : Core) : (setCore s n c).dieXlat = s.dieXlat := rfl
@[simp] theorem setCore_parts (s : State) (n : Nat) (c : Core) : (setCore s n c).parts = s.parts := rfl
@[simp] theorem setCore_mgmt (s : State) (n : Nat) (c : Core) : (setCore s n c).mgmt = s.mgmt := rfl
@[simp] theorem setCore_vaultReady (s : State) (n : Nat) (c : Core) : (setCore s n c).vaultReady = s.vaultReady := rfl
@[simp] theorem setCore_clamped (s : State) (n : Nat) (c : Core) : (setCore s n c).clamped = s.clamped := rfl
@[simp] theorem setCore_bootaddr (s : State) (n : Nat) (c : Core) : (setCore s n c).bootaddr = s.bootaddr := rfl
@[simp] theorem setCore_bootlen (s : State) (n : Nat) (c : Core) : (setCore s n c).bootlen = s.bootlen := rfl
@[simp] theorem setCore_bootgo (s : State) (n : Nat) (c : Core) : (setCore s n c).bootgo = s.bootgo := rfl
@[simp] theorem setCore_bootstat (s : State) (n : Nat) (c : Core) : (setCore s n c).bootstat = s.bootstat := rfl
@[simp] theorem setCore_bootHash (s : State) (n : Nat) (c : Core) : (setCore s n c).bootHash = s.bootHash := rfl
@[simp] theorem setCore_bootSvn (s : State) (n : Nat) (c : Core) : (setCore s n c).bootSvn = s.bootSvn := rfl
@[simp] theorem setCore_mgmtstat (s : State) (n : Nat) (c : Core) : (setCore s n c).mgmtstat = s.mgmtstat := rfl
@[simp] theorem setCore_attests (s : State) (n : Nat) (c : Core) : (setCore s n c).attests = s.attests := rfl
@[simp] theorem setCore_routes (s : State) (n : Nat) (c : Core) : (setCore s n c).routes = s.routes := rfl
@[simp] theorem setCore_locked (s : State) (n : Nat) (c : Core) : (setCore s n c).locked = s.locked := rfl
@[simp] theorem setCore_ports (s : State) (n : Nat) (c : Core) : (setCore s n c).ports = s.ports := rfl
@[simp] theorem setCore_keySlots (s : State) (n : Nat) (c : Core) : (setCore s n c).keySlots = s.keySlots := rfl
@[simp] theorem setCore_msix (s : State) (n : Nat) (c : Core) : (setCore s n c).msix = s.msix := rfl
@[simp] theorem setCore_hostReplies (s : State) (n : Nat) (c : Core) : (setCore s n c).hostReplies = s.hostReplies := rfl

@[simp] theorem modCore_tick (s : State) (n : Nat) (f : Core → Core) : (modCore s n f).tick = s.tick := rfl
@[simp] theorem modCore_agenda (s : State) (n : Nat) (f : Core → Core) : (modCore s n f).agenda = s.agenda := rfl
@[simp] theorem modCore_turn (s : State) (n : Nat) (f : Core → Core) : (modCore s n f).turn = s.turn := rfl
@[simp] theorem modCore_now (s : State) (n : Nat) (f : Core → Core) : (modCore s n f).now = s.now := rfl
@[simp] theorem modCore_powered (s : State) (n : Nat) (f : Core → Core) : (modCore s n f).powered = s.powered := rfl
@[simp] theorem modCore_mem (s : State) (n : Nat) (f : Core → Core) : (modCore s n f).mem = s.mem := rfl
@[simp] theorem modCore_dieXlat (s : State) (n : Nat) (f : Core → Core) : (modCore s n f).dieXlat = s.dieXlat := rfl
@[simp] theorem modCore_parts (s : State) (n : Nat) (f : Core → Core) : (modCore s n f).parts = s.parts := rfl
@[simp] theorem modCore_mgmt (s : State) (n : Nat) (f : Core → Core) : (modCore s n f).mgmt = s.mgmt := rfl
@[simp] theorem modCore_vaultReady (s : State) (n : Nat) (f : Core → Core) : (modCore s n f).vaultReady = s.vaultReady := rfl
@[simp] theorem modCore_clamped (s : State) (n : Nat) (f : Core → Core) : (modCore s n f).clamped = s.clamped := rfl
@[simp] theorem modCore_bootaddr (s : State) (n : Nat) (f : Core → Core) : (modCore s n f).bootaddr = s.bootaddr := rfl
@[simp] theorem modCore_bootlen (s : State) (n : Nat) (f : Core → Core) : (modCore s n f).bootlen = s.bootlen := rfl
@[simp] theorem modCore_bootgo (s : State) (n : Nat) (f : Core → Core) : (modCore s n f).bootgo = s.bootgo := rfl
@[simp] theorem modCore_bootstat (s : State) (n : Nat) (f : Core → Core) : (modCore s n f).bootstat = s.bootstat := rfl
@[simp] theorem modCore_bootHash (s : State) (n : Nat) (f : Core → Core) : (modCore s n f).bootHash = s.bootHash := rfl
@[simp] theorem modCore_bootSvn (s : State) (n : Nat) (f : Core → Core) : (modCore s n f).bootSvn = s.bootSvn := rfl
@[simp] theorem modCore_mgmtstat (s : State) (n : Nat) (f : Core → Core) : (modCore s n f).mgmtstat = s.mgmtstat := rfl
@[simp] theorem modCore_attests (s : State) (n : Nat) (f : Core → Core) : (modCore s n f).attests = s.attests := rfl
@[simp] theorem modCore_routes (s : State) (n : Nat) (f : Core → Core) : (modCore s n f).routes = s.routes := rfl
@[simp] theorem modCore_locked (s : State) (n : Nat) (f : Core → Core) : (modCore s n f).locked = s.locked := rfl
@[simp] theorem modCore_ports (s : State) (n : Nat) (f : Core → Core) : (modCore s n f).ports = s.ports := rfl
@[simp] theorem modCore_keySlots (s : State) (n : Nat) (f : Core → Core) : (modCore s n f).keySlots = s.keySlots := rfl
@[simp] theorem modCore_msix (s : State) (n : Nat) (f : Core → Core) : (modCore s n f).msix = s.msix := rfl
@[simp] theorem modCore_hostReplies (s : State) (n : Nat) (f : Core → Core) : (modCore s n f).hostReplies = s.hostReplies := rfl

@[simp] theorem modSlot_tick (s : State) (n j : Nat) (f : Slot → Slot) : (modSlot s n j f).tick = s.tick := rfl
@[simp] theorem modSlot_agenda (s : State) (n j : Nat) (f : Slot → Slot) : (modSlot s n j f).agenda = s.agenda := rfl
@[simp] theorem modSlot_turn (s : State) (n j : Nat) (f : Slot → Slot) : (modSlot s n j f).turn = s.turn := rfl
@[simp] theorem modSlot_now (s : State) (n j : Nat) (f : Slot → Slot) : (modSlot s n j f).now = s.now := rfl
@[simp] theorem modSlot_powered (s : State) (n j : Nat) (f : Slot → Slot) : (modSlot s n j f).powered = s.powered := rfl
@[simp] theorem modSlot_mem (s : State) (n j : Nat) (f : Slot → Slot) : (modSlot s n j f).mem = s.mem := rfl
@[simp] theorem modSlot_dieXlat (s : State) (n j : Nat) (f : Slot → Slot) : (modSlot s n j f).dieXlat = s.dieXlat := rfl
@[simp] theorem modSlot_parts (s : State) (n j : Nat) (f : Slot → Slot) : (modSlot s n j f).parts = s.parts := rfl
@[simp] theorem modSlot_mgmt (s : State) (n j : Nat) (f : Slot → Slot) : (modSlot s n j f).mgmt = s.mgmt := rfl
@[simp] theorem modSlot_vaultReady (s : State) (n j : Nat) (f : Slot → Slot) : (modSlot s n j f).vaultReady = s.vaultReady := rfl
@[simp] theorem modSlot_clamped (s : State) (n j : Nat) (f : Slot → Slot) : (modSlot s n j f).clamped = s.clamped := rfl
@[simp] theorem modSlot_bootaddr (s : State) (n j : Nat) (f : Slot → Slot) : (modSlot s n j f).bootaddr = s.bootaddr := rfl
@[simp] theorem modSlot_bootlen (s : State) (n j : Nat) (f : Slot → Slot) : (modSlot s n j f).bootlen = s.bootlen := rfl
@[simp] theorem modSlot_bootgo (s : State) (n j : Nat) (f : Slot → Slot) : (modSlot s n j f).bootgo = s.bootgo := rfl
@[simp] theorem modSlot_bootstat (s : State) (n j : Nat) (f : Slot → Slot) : (modSlot s n j f).bootstat = s.bootstat := rfl
@[simp] theorem modSlot_bootHash (s : State) (n j : Nat) (f : Slot → Slot) : (modSlot s n j f).bootHash = s.bootHash := rfl
@[simp] theorem modSlot_bootSvn (s : State) (n j : Nat) (f : Slot → Slot) : (modSlot s n j f).bootSvn = s.bootSvn := rfl
@[simp] theorem modSlot_mgmtstat (s : State) (n j : Nat) (f : Slot → Slot) : (modSlot s n j f).mgmtstat = s.mgmtstat := rfl
@[simp] theorem modSlot_attests (s : State) (n j : Nat) (f : Slot → Slot) : (modSlot s n j f).attests = s.attests := rfl
@[simp] theorem modSlot_routes (s : State) (n j : Nat) (f : Slot → Slot) : (modSlot s n j f).routes = s.routes := rfl
@[simp] theorem modSlot_locked (s : State) (n j : Nat) (f : Slot → Slot) : (modSlot s n j f).locked = s.locked := rfl
@[simp] theorem modSlot_ports (s : State) (n j : Nat) (f : Slot → Slot) : (modSlot s n j f).ports = s.ports := rfl
@[simp] theorem modSlot_keySlots (s : State) (n j : Nat) (f : Slot → Slot) : (modSlot s n j f).keySlots = s.keySlots := rfl
@[simp] theorem modSlot_msix (s : State) (n j : Nat) (f : Slot → Slot) : (modSlot s n j f).msix = s.msix := rfl
@[simp] theorem modSlot_hostReplies (s : State) (n j : Nat) (f : Slot → Slot) : (modSlot s n j f).hostReplies = s.hostReplies := rfl

@[simp] theorem modJob_tick (s : State) (n j : Nat) (f : Job → Job) : (modJob s n j f).tick = s.tick := rfl
@[simp] theorem modJob_agenda (s : State) (n j : Nat) (f : Job → Job) : (modJob s n j f).agenda = s.agenda := rfl
@[simp] theorem modJob_turn (s : State) (n j : Nat) (f : Job → Job) : (modJob s n j f).turn = s.turn := rfl
@[simp] theorem modJob_now (s : State) (n j : Nat) (f : Job → Job) : (modJob s n j f).now = s.now := rfl
@[simp] theorem modJob_powered (s : State) (n j : Nat) (f : Job → Job) : (modJob s n j f).powered = s.powered := rfl
@[simp] theorem modJob_mem (s : State) (n j : Nat) (f : Job → Job) : (modJob s n j f).mem = s.mem := rfl
@[simp] theorem modJob_dieXlat (s : State) (n j : Nat) (f : Job → Job) : (modJob s n j f).dieXlat = s.dieXlat := rfl
@[simp] theorem modJob_parts (s : State) (n j : Nat) (f : Job → Job) : (modJob s n j f).parts = s.parts := rfl
@[simp] theorem modJob_mgmt (s : State) (n j : Nat) (f : Job → Job) : (modJob s n j f).mgmt = s.mgmt := rfl
@[simp] theorem modJob_vaultReady (s : State) (n j : Nat) (f : Job → Job) : (modJob s n j f).vaultReady = s.vaultReady := rfl
@[simp] theorem modJob_clamped (s : State) (n j : Nat) (f : Job → Job) : (modJob s n j f).clamped = s.clamped := rfl
@[simp] theorem modJob_bootaddr (s : State) (n j : Nat) (f : Job → Job) : (modJob s n j f).bootaddr = s.bootaddr := rfl
@[simp] theorem modJob_bootlen (s : State) (n j : Nat) (f : Job → Job) : (modJob s n j f).bootlen = s.bootlen := rfl
@[simp] theorem modJob_bootgo (s : State) (n j : Nat) (f : Job → Job) : (modJob s n j f).bootgo = s.bootgo := rfl
@[simp] theorem modJob_bootstat (s : State) (n j : Nat) (f : Job → Job) : (modJob s n j f).bootstat = s.bootstat := rfl
@[simp] theorem modJob_bootHash (s : State) (n j : Nat) (f : Job → Job) : (modJob s n j f).bootHash = s.bootHash := rfl
@[simp] theorem modJob_bootSvn (s : State) (n j : Nat) (f : Job → Job) : (modJob s n j f).bootSvn = s.bootSvn := rfl
@[simp] theorem modJob_mgmtstat (s : State) (n j : Nat) (f : Job → Job) : (modJob s n j f).mgmtstat = s.mgmtstat := rfl
@[simp] theorem modJob_attests (s : State) (n j : Nat) (f : Job → Job) : (modJob s n j f).attests = s.attests := rfl
@[simp] theorem modJob_routes (s : State) (n j : Nat) (f : Job → Job) : (modJob s n j f).routes = s.routes := rfl
@[simp] theorem modJob_locked (s : State) (n j : Nat) (f : Job → Job) : (modJob s n j f).locked = s.locked := rfl
@[simp] theorem modJob_ports (s : State) (n j : Nat) (f : Job → Job) : (modJob s n j f).ports = s.ports := rfl
@[simp] theorem modJob_keySlots (s : State) (n j : Nat) (f : Job → Job) : (modJob s n j f).keySlots = s.keySlots := rfl
@[simp] theorem modJob_msix (s : State) (n j : Nat) (f : Job → Job) : (modJob s n j f).msix = s.msix := rfl
@[simp] theorem modJob_hostReplies (s : State) (n j : Nat) (f : Job → Job) : (modJob s n j f).hostReplies = s.hostReplies := rfl

@[simp] theorem modPart_tick (s : State) (p : Nat) (f : Partition → Partition) : (modPart s p f).tick = s.tick := rfl
@[simp] theorem modPart_agenda (s : State) (p : Nat) (f : Partition → Partition) : (modPart s p f).agenda = s.agenda := rfl
@[simp] theorem modPart_turn (s : State) (p : Nat) (f : Partition → Partition) : (modPart s p f).turn = s.turn := rfl
@[simp] theorem modPart_now (s : State) (p : Nat) (f : Partition → Partition) : (modPart s p f).now = s.now := rfl
@[simp] theorem modPart_powered (s : State) (p : Nat) (f : Partition → Partition) : (modPart s p f).powered = s.powered := rfl
@[simp] theorem modPart_mem (s : State) (p : Nat) (f : Partition → Partition) : (modPart s p f).mem = s.mem := rfl
@[simp] theorem modPart_dieXlat (s : State) (p : Nat) (f : Partition → Partition) : (modPart s p f).dieXlat = s.dieXlat := rfl
@[simp] theorem modPart_cores (s : State) (p : Nat) (f : Partition → Partition) : (modPart s p f).cores = s.cores := rfl
@[simp] theorem modPart_mgmt (s : State) (p : Nat) (f : Partition → Partition) : (modPart s p f).mgmt = s.mgmt := rfl
@[simp] theorem modPart_vaultReady (s : State) (p : Nat) (f : Partition → Partition) : (modPart s p f).vaultReady = s.vaultReady := rfl
@[simp] theorem modPart_clamped (s : State) (p : Nat) (f : Partition → Partition) : (modPart s p f).clamped = s.clamped := rfl
@[simp] theorem modPart_bootaddr (s : State) (p : Nat) (f : Partition → Partition) : (modPart s p f).bootaddr = s.bootaddr := rfl
@[simp] theorem modPart_bootlen (s : State) (p : Nat) (f : Partition → Partition) : (modPart s p f).bootlen = s.bootlen := rfl
@[simp] theorem modPart_bootgo (s : State) (p : Nat) (f : Partition → Partition) : (modPart s p f).bootgo = s.bootgo := rfl
@[simp] theorem modPart_bootstat (s : State) (p : Nat) (f : Partition → Partition) : (modPart s p f).bootstat = s.bootstat := rfl
@[simp] theorem modPart_bootHash (s : State) (p : Nat) (f : Partition → Partition) : (modPart s p f).bootHash = s.bootHash := rfl
@[simp] theorem modPart_bootSvn (s : State) (p : Nat) (f : Partition → Partition) : (modPart s p f).bootSvn = s.bootSvn := rfl
@[simp] theorem modPart_mgmtstat (s : State) (p : Nat) (f : Partition → Partition) : (modPart s p f).mgmtstat = s.mgmtstat := rfl
@[simp] theorem modPart_attests (s : State) (p : Nat) (f : Partition → Partition) : (modPart s p f).attests = s.attests := rfl
@[simp] theorem modPart_routes (s : State) (p : Nat) (f : Partition → Partition) : (modPart s p f).routes = s.routes := rfl
@[simp] theorem modPart_locked (s : State) (p : Nat) (f : Partition → Partition) : (modPart s p f).locked = s.locked := rfl
@[simp] theorem modPart_ports (s : State) (p : Nat) (f : Partition → Partition) : (modPart s p f).ports = s.ports := rfl
@[simp] theorem modPart_keySlots (s : State) (p : Nat) (f : Partition → Partition) : (modPart s p f).keySlots = s.keySlots := rfl
@[simp] theorem modPart_msix (s : State) (p : Nat) (f : Partition → Partition) : (modPart s p f).msix = s.msix := rfl
@[simp] theorem modPart_hostReplies (s : State) (p : Nat) (f : Partition → Partition) : (modPart s p f).hostReplies = s.hostReplies := rfl

@[simp] theorem modCtx_tick (s : State) (p c : Nat) (f : Context → Context) : (modCtx s p c f).tick = s.tick := rfl
@[simp] theorem modCtx_agenda (s : State) (p c : Nat) (f : Context → Context) : (modCtx s p c f).agenda = s.agenda := rfl
@[simp] theorem modCtx_turn (s : State) (p c : Nat) (f : Context → Context) : (modCtx s p c f).turn = s.turn := rfl
@[simp] theorem modCtx_now (s : State) (p c : Nat) (f : Context → Context) : (modCtx s p c f).now = s.now := rfl
@[simp] theorem modCtx_powered (s : State) (p c : Nat) (f : Context → Context) : (modCtx s p c f).powered = s.powered := rfl
@[simp] theorem modCtx_mem (s : State) (p c : Nat) (f : Context → Context) : (modCtx s p c f).mem = s.mem := rfl
@[simp] theorem modCtx_dieXlat (s : State) (p c : Nat) (f : Context → Context) : (modCtx s p c f).dieXlat = s.dieXlat := rfl
@[simp] theorem modCtx_cores (s : State) (p c : Nat) (f : Context → Context) : (modCtx s p c f).cores = s.cores := rfl
@[simp] theorem modCtx_mgmt (s : State) (p c : Nat) (f : Context → Context) : (modCtx s p c f).mgmt = s.mgmt := rfl
@[simp] theorem modCtx_vaultReady (s : State) (p c : Nat) (f : Context → Context) : (modCtx s p c f).vaultReady = s.vaultReady := rfl
@[simp] theorem modCtx_clamped (s : State) (p c : Nat) (f : Context → Context) : (modCtx s p c f).clamped = s.clamped := rfl
@[simp] theorem modCtx_bootaddr (s : State) (p c : Nat) (f : Context → Context) : (modCtx s p c f).bootaddr = s.bootaddr := rfl
@[simp] theorem modCtx_bootlen (s : State) (p c : Nat) (f : Context → Context) : (modCtx s p c f).bootlen = s.bootlen := rfl
@[simp] theorem modCtx_bootgo (s : State) (p c : Nat) (f : Context → Context) : (modCtx s p c f).bootgo = s.bootgo := rfl
@[simp] theorem modCtx_bootstat (s : State) (p c : Nat) (f : Context → Context) : (modCtx s p c f).bootstat = s.bootstat := rfl
@[simp] theorem modCtx_bootHash (s : State) (p c : Nat) (f : Context → Context) : (modCtx s p c f).bootHash = s.bootHash := rfl
@[simp] theorem modCtx_bootSvn (s : State) (p c : Nat) (f : Context → Context) : (modCtx s p c f).bootSvn = s.bootSvn := rfl
@[simp] theorem modCtx_mgmtstat (s : State) (p c : Nat) (f : Context → Context) : (modCtx s p c f).mgmtstat = s.mgmtstat := rfl
@[simp] theorem modCtx_attests (s : State) (p c : Nat) (f : Context → Context) : (modCtx s p c f).attests = s.attests := rfl
@[simp] theorem modCtx_routes (s : State) (p c : Nat) (f : Context → Context) : (modCtx s p c f).routes = s.routes := rfl
@[simp] theorem modCtx_locked (s : State) (p c : Nat) (f : Context → Context) : (modCtx s p c f).locked = s.locked := rfl
@[simp] theorem modCtx_ports (s : State) (p c : Nat) (f : Context → Context) : (modCtx s p c f).ports = s.ports := rfl
@[simp] theorem modCtx_keySlots (s : State) (p c : Nat) (f : Context → Context) : (modCtx s p c f).keySlots = s.keySlots := rfl
@[simp] theorem modCtx_msix (s : State) (p c : Nat) (f : Context → Context) : (modCtx s p c f).msix = s.msix := rfl
@[simp] theorem modCtx_hostReplies (s : State) (p c : Nat) (f : Context → Context) : (modCtx s p c f).hostReplies = s.hostReplies := rfl

@[simp] theorem modStream_tick (s : State) (a : Agent) (f : Stream → Stream) : (modStream s a f).tick = s.tick := by cases a <;> rfl
@[simp] theorem modStream_agenda (s : State) (a : Agent) (f : Stream → Stream) : (modStream s a f).agenda = s.agenda := by cases a <;> rfl
@[simp] theorem modStream_turn (s : State) (a : Agent) (f : Stream → Stream) : (modStream s a f).turn = s.turn := by cases a <;> rfl
@[simp] theorem modStream_now (s : State) (a : Agent) (f : Stream → Stream) : (modStream s a f).now = s.now := by cases a <;> rfl
@[simp] theorem modStream_powered (s : State) (a : Agent) (f : Stream → Stream) : (modStream s a f).powered = s.powered := by cases a <;> rfl
@[simp] theorem modStream_mem (s : State) (a : Agent) (f : Stream → Stream) : (modStream s a f).mem = s.mem := by cases a <;> rfl
@[simp] theorem modStream_dieXlat (s : State) (a : Agent) (f : Stream → Stream) : (modStream s a f).dieXlat = s.dieXlat := by cases a <;> rfl
@[simp] theorem modStream_parts (s : State) (a : Agent) (f : Stream → Stream) : (modStream s a f).parts = s.parts := by cases a <;> rfl
@[simp] theorem modStream_vaultReady (s : State) (a : Agent) (f : Stream → Stream) : (modStream s a f).vaultReady = s.vaultReady := by cases a <;> rfl
@[simp] theorem modStream_clamped (s : State) (a : Agent) (f : Stream → Stream) : (modStream s a f).clamped = s.clamped := by cases a <;> rfl
@[simp] theorem modStream_bootaddr (s : State) (a : Agent) (f : Stream → Stream) : (modStream s a f).bootaddr = s.bootaddr := by cases a <;> rfl
@[simp] theorem modStream_bootlen (s : State) (a : Agent) (f : Stream → Stream) : (modStream s a f).bootlen = s.bootlen := by cases a <;> rfl
@[simp] theorem modStream_bootgo (s : State) (a : Agent) (f : Stream → Stream) : (modStream s a f).bootgo = s.bootgo := by cases a <;> rfl
@[simp] theorem modStream_bootstat (s : State) (a : Agent) (f : Stream → Stream) : (modStream s a f).bootstat = s.bootstat := by cases a <;> rfl
@[simp] theorem modStream_bootHash (s : State) (a : Agent) (f : Stream → Stream) : (modStream s a f).bootHash = s.bootHash := by cases a <;> rfl
@[simp] theorem modStream_bootSvn (s : State) (a : Agent) (f : Stream → Stream) : (modStream s a f).bootSvn = s.bootSvn := by cases a <;> rfl
@[simp] theorem modStream_mgmtstat (s : State) (a : Agent) (f : Stream → Stream) : (modStream s a f).mgmtstat = s.mgmtstat := by cases a <;> rfl
@[simp] theorem modStream_attests (s : State) (a : Agent) (f : Stream → Stream) : (modStream s a f).attests = s.attests := by cases a <;> rfl
@[simp] theorem modStream_routes (s : State) (a : Agent) (f : Stream → Stream) : (modStream s a f).routes = s.routes := by cases a <;> rfl
@[simp] theorem modStream_locked (s : State) (a : Agent) (f : Stream → Stream) : (modStream s a f).locked = s.locked := by cases a <;> rfl
@[simp] theorem modStream_ports (s : State) (a : Agent) (f : Stream → Stream) : (modStream s a f).ports = s.ports := by cases a <;> rfl
@[simp] theorem modStream_keySlots (s : State) (a : Agent) (f : Stream → Stream) : (modStream s a f).keySlots = s.keySlots := by cases a <;> rfl
@[simp] theorem modStream_msix (s : State) (a : Agent) (f : Stream → Stream) : (modStream s a f).msix = s.msix := by cases a <;> rfl
@[simp] theorem modStream_hostReplies (s : State) (a : Agent) (f : Stream → Stream) : (modStream s a f).hostReplies = s.hostReplies := by cases a <;> rfl

@[simp] theorem modAgentJob_tick (s : State) (a : Agent) (f : Job → Job) : (modAgentJob s a f).tick = s.tick := by cases a <;> rfl
@[simp] theorem modAgentJob_agenda (s : State) (a : Agent) (f : Job → Job) : (modAgentJob s a f).agenda = s.agenda := by cases a <;> rfl
@[simp] theorem modAgentJob_turn (s : State) (a : Agent) (f : Job → Job) : (modAgentJob s a f).turn = s.turn := by cases a <;> rfl
@[simp] theorem modAgentJob_now (s : State) (a : Agent) (f : Job → Job) : (modAgentJob s a f).now = s.now := by cases a <;> rfl
@[simp] theorem modAgentJob_powered (s : State) (a : Agent) (f : Job → Job) : (modAgentJob s a f).powered = s.powered := by cases a <;> rfl
@[simp] theorem modAgentJob_mem (s : State) (a : Agent) (f : Job → Job) : (modAgentJob s a f).mem = s.mem := by cases a <;> rfl
@[simp] theorem modAgentJob_dieXlat (s : State) (a : Agent) (f : Job → Job) : (modAgentJob s a f).dieXlat = s.dieXlat := by cases a <;> rfl
@[simp] theorem modAgentJob_parts (s : State) (a : Agent) (f : Job → Job) : (modAgentJob s a f).parts = s.parts := by cases a <;> rfl
@[simp] theorem modAgentJob_mgmt (s : State) (a : Agent) (f : Job → Job) : (modAgentJob s a f).mgmt = s.mgmt := by cases a <;> rfl
@[simp] theorem modAgentJob_vaultReady (s : State) (a : Agent) (f : Job → Job) : (modAgentJob s a f).vaultReady = s.vaultReady := by cases a <;> rfl
@[simp] theorem modAgentJob_clamped (s : State) (a : Agent) (f : Job → Job) : (modAgentJob s a f).clamped = s.clamped := by cases a <;> rfl
@[simp] theorem modAgentJob_bootaddr (s : State) (a : Agent) (f : Job → Job) : (modAgentJob s a f).bootaddr = s.bootaddr := by cases a <;> rfl
@[simp] theorem modAgentJob_bootlen (s : State) (a : Agent) (f : Job → Job) : (modAgentJob s a f).bootlen = s.bootlen := by cases a <;> rfl
@[simp] theorem modAgentJob_bootgo (s : State) (a : Agent) (f : Job → Job) : (modAgentJob s a f).bootgo = s.bootgo := by cases a <;> rfl
@[simp] theorem modAgentJob_bootstat (s : State) (a : Agent) (f : Job → Job) : (modAgentJob s a f).bootstat = s.bootstat := by cases a <;> rfl
@[simp] theorem modAgentJob_bootHash (s : State) (a : Agent) (f : Job → Job) : (modAgentJob s a f).bootHash = s.bootHash := by cases a <;> rfl
@[simp] theorem modAgentJob_bootSvn (s : State) (a : Agent) (f : Job → Job) : (modAgentJob s a f).bootSvn = s.bootSvn := by cases a <;> rfl
@[simp] theorem modAgentJob_mgmtstat (s : State) (a : Agent) (f : Job → Job) : (modAgentJob s a f).mgmtstat = s.mgmtstat := by cases a <;> rfl
@[simp] theorem modAgentJob_attests (s : State) (a : Agent) (f : Job → Job) : (modAgentJob s a f).attests = s.attests := by cases a <;> rfl
@[simp] theorem modAgentJob_routes (s : State) (a : Agent) (f : Job → Job) : (modAgentJob s a f).routes = s.routes := by cases a <;> rfl
@[simp] theorem modAgentJob_locked (s : State) (a : Agent) (f : Job → Job) : (modAgentJob s a f).locked = s.locked := by cases a <;> rfl
@[simp] theorem modAgentJob_ports (s : State) (a : Agent) (f : Job → Job) : (modAgentJob s a f).ports = s.ports := by cases a <;> rfl
@[simp] theorem modAgentJob_keySlots (s : State) (a : Agent) (f : Job → Job) : (modAgentJob s a f).keySlots = s.keySlots := by cases a <;> rfl
@[simp] theorem modAgentJob_msix (s : State) (a : Agent) (f : Job → Job) : (modAgentJob s a f).msix = s.msix := by cases a <;> rfl
@[simp] theorem modAgentJob_hostReplies (s : State) (a : Agent) (f : Job → Job) : (modAgentJob s a f).hostReplies = s.hostReplies := by cases a <;> rfl

/-! What an update writes. -/

@[simp] theorem setCore_cores (s : State) (n : Nat) (c : Core) : (setCore s n c).cores = tset s.cores n c := rfl
@[simp] theorem coreOf_setCore (s : State) (n : Nat) (c : Core) : coreOf (setCore s n c) n = c := by simp [coreOf]
@[simp] theorem coreOf_modCore (s : State) (n : Nat) (f : Core → Core) : coreOf (modCore s n f) n = f (coreOf s n) := by simp [modCore]
theorem coreOf_setCore_other (s : State) {m n : Nat} (c : Core) (h : m ≠ n) : coreOf (setCore s n c) m = coreOf s m := by
  simp [coreOf, tget_tset_other _ _ _ h]
theorem coreOf_modCore_other (s : State) {m n : Nat} (f : Core → Core) (h : m ≠ n) : coreOf (modCore s n f) m = coreOf s m :=
  coreOf_setCore_other s _ h
@[simp] theorem modCore_modCore (s : State) (n : Nat) (f g : Core → Core) : modCore (modCore s n f) n g = modCore s n (fun c => g (f c)) := by
  simp [modCore, setCore, coreOf]
@[simp] theorem modSlot_modSlot (s : State) (n j : Nat) (f g : Slot → Slot) : modSlot (modSlot s n j f) n j g = modSlot s n j (fun x => g (f x)) := by
  simp [modSlot]
@[simp] theorem modJob_modJob (s : State) (n j : Nat) (f g : Job → Job) : modJob (modJob s n j f) n j g = modJob s n j (fun b => g (f b)) := by
  simp [modJob]
@[simp] theorem jobOf_modJob (s : State) (n j : Nat) (f : Job → Job) : jobOf (modJob s n j f) n j = f (jobOf s n j) := by
  simp [jobOf, modJob, modSlot]
@[simp] theorem slotOf_coreOf_modJob_st (s : State) (n j : Nat) (f : Job → Job) : (slotOf (coreOf (modJob s n j f) n) j).st = (slotOf (coreOf s n) j).st := by
  simp [modJob, modSlot]
@[simp] theorem partOf_modPart (s : State) (p : Nat) (f : Partition → Partition) : partOf (modPart s p f) p = f (partOf s p) := by
  simp [partOf, modPart]
@[simp] theorem streamOf_modStream (s : State) (a : Agent) (f : Stream → Stream) : streamOf (modStream s a f) a = f (streamOf s a) := by
  cases a <;> simp [streamOf, modStream]
@[simp] theorem modStream_modStream (s : State) (a : Agent) (f g : Stream → Stream) : modStream (modStream s a f) a g = modStream s a (fun x => g (f x)) := by
  cases a <;> simp [modStream]

end Sys2Proof.Machine
end

