-- ==== Sys2Proof/Laws/Memory.lean ====
section
/-! SUPPORT. Memory: what a read gives after a write, and that every operation keeps the canonical form. -/

namespace Sys2Proof.Machine

open Sys2Proof.Config

/-! Finding a byte in a list of cells. -/

theorem tfind_append {α : Type} (t u : Table α) (k : Nat) : tfind (t ++ u) k = (tfind t k).or (tfind u k) := by
  induction t with
  | nil => simp [tfind]
  | cons e r ih => obtain ⟨j, v⟩ := e; by_cases h : j = k <;> simp [tfind, h, ih]

theorem tfind_none {α : Type} {t : Table α} {k : Nat} (h : ∀ e ∈ t, e.1 ≠ k) : tfind t k = none := by
  induction t with
  | nil => rfl
  | cons e r ih => simp [tfind, h e (by simp), ih (fun x hx => h x (by simp [hx]))]

theorem tfind_filter_kept {α : Type} {t : Table α} {k : Nat} {p : Nat × α → Bool} (h : ∀ e, e.1 = k → p e = true) : tfind (t.filter p) k = tfind t k := by
  induction t with
  | nil => rfl
  | cons e r ih =>
    obtain ⟨j, v⟩ := e
    by_cases hj : j = k
    · subst hj
      simp [h (j, v) rfl, tfind]
    · by_cases hp : p (j, v) = true <;> simp [hp, tfind, hj, ih]

theorem runCells_bounds (m : Memory) (l : List Byte) (a : Nat) : ∀ e ∈ runCells m a l, a ≤ e.1 ∧ e.1 < a + l.length ∧ e.2 ≠ dflt m e.1 := by
  induction l generalizing a with
  | nil => simp [runCells]
  | cons b r ih =>
    intro e he
    unfold runCells at he
    split at he
    · have := ih (a + 1) e he; simp only [List.length_cons]; exact ⟨by omega, by omega, this.2.2⟩
    · rename_i hb
      rcases List.mem_cons.1 he with h | h
      · subst h; simp only [List.length_cons]; exact ⟨by omega, by omega, hb⟩
      · have := ih (a + 1) e h; simp only [List.length_cons]; exact ⟨by omega, by omega, this.2.2⟩

theorem runCells_rising (m : Memory) (l : List Byte) (a : Nat) : (runCells m a l).Pairwise (fun x y => x.1 < y.1) := by
  induction l generalizing a with
  | nil => simp [runCells]
  | cons b r ih =>
    unfold runCells
    split
    · exact ih _
    · refine List.pairwise_cons.2 ⟨fun e he => ?_, ih _⟩
      have := (runCells_bounds m r (a + 1) e he).1
      omega

theorem tfind_runCells (m : Memory) (l : List Byte) (a x : Nat) (h : a ≤ x) (h' : x < a + l.length) :
    (tfind (runCells m a l) x).getD (dflt m x) = l.getD (x - a) 0#8 := by
  induction l generalizing a with
  | nil => simp at h'; omega
  | cons b r ih =>
    simp only [List.length_cons] at h'
    unfold runCells
    by_cases hx : x = a
    · subst hx
      split
      · rename_i hb
        rw [tfind_none (fun e he => by have := (runCells_bounds m r (x + 1) e he).1; omega)]
        simp [hb]
      · simp [tfind]
    · have e1 : x - a = (x - (a + 1)) + 1 := by omega
      have := ih (a + 1) (by omega) (by omega)
      split
      · rw [e1]; simpa using this
      · rw [e1]; simp only [tfind, Ne.symm hx, if_false]; simpa using this

/-! Reading after a write. -/

@[simp] theorem dflt_memWrite (m : Memory) (a : Nat) (l : List Byte) (x : Nat) : dflt (memWrite m a l) x = dflt m x := rfl
@[simp] theorem dflt_memClear (m : Memory) (a k x : Nat) : dflt (memClear m a k) x = dflt m x := rfl

theorem memRead_memWrite_in (m : Memory) (a x : Nat) (l : List Byte) (h : a ≤ x) (h' : x < a + l.length) :
    memRead (memWrite m a l) x = l.getD (x - a) 0#8 := by
  unfold memRead tget
  rw [dflt_memWrite, ← tfind_runCells m l a x h h']
  simp only [memWrite, tfind_append]
  rw [tfind_none (t := m.cells.filter (fun e => e.1 < a)) (fun e he => by simp at he; omega),
    tfind_none (t := m.cells.filter (fun e => a + l.length ≤ e.1)) (fun e he => by simp at he; omega)]
  simp

theorem memRead_memWrite_out (m : Memory) (a x : Nat) (l : List Byte) (h : x < a ∨ a + l.length ≤ x) :
    memRead (memWrite m a l) x = memRead m x := by
  unfold memRead tget
  rw [dflt_memWrite]
  simp only [memWrite, tfind_append]
  rw [tfind_none (t := runCells m a l) (fun e he => by have := runCells_bounds m l a e he; omega)]
  rcases h with h | h
  · rw [tfind_filter_kept (fun e he => by simp; omega), tfind_none (t := m.cells.filter (fun e => a + l.length ≤ e.1)) (fun e he => by simp at he; omega)]
    simp
  · rw [tfind_none (t := m.cells.filter (fun e => e.1 < a)) (fun e he => by simp at he; omega), tfind_filter_kept (t := m.cells) (fun e he => by simp; omega)]
    simp

/-- A run of bytes reads back as it was written. -/
theorem memReadN_memWrite_same (m : Memory) (a : Nat) (l : List Byte) : memReadN (memWrite m a l) a l.length = l := by
  suffices h : ∀ k b, b + k = a + l.length → a ≤ b → memReadN (memWrite m a l) b k = l.drop (b - a) by
    simpa using h l.length a rfl (Nat.le_refl a)
  intro k
  induction k with
  | zero => intro b hb ha; simp [memReadN]; omega
  | succ k ih =>
    intro b hb ha
    rw [memReadN, memRead_memWrite_in m a b l ha (by omega), ih (b + 1) (by omega) (by omega)]
    have hlt : b - a < l.length := by omega
    rw [List.drop_eq_getElem_cons hlt, show b + 1 - a = b - a + 1 by omega]
    simp [List.getD, hlt]

/-- Bytes that a write does not reach read as before. -/
theorem memReadN_memWrite_out (m : Memory) (a b k : Nat) (l : List Byte) (h : b + k ≤ a ∨ a + l.length ≤ b) :
    memReadN (memWrite m a l) b k = memReadN m b k := by
  induction k generalizing b with
  | zero => rfl
  | succ k ih => rw [memReadN, memReadN, memRead_memWrite_out m a b l (by omega), ih (b + 1) (by omega)]

@[simp] theorem length_memReadN (m : Memory) (a k : Nat) : (memReadN m a k).length = k := by
  induction k generalizing a with
  | zero => rfl
  | succ k ih => simp [memReadN, ih]

/-! The canonical form is kept. -/

theorem filter_wf {m : Memory} (h : m.wf) (p : Host.Cell → Bool) : Memory.wf { m with cells := m.cells.filter p } :=
  ⟨h.1.filter _, fun e he => h.2 e (List.mem_of_mem_filter he)⟩

theorem memClear_wf {m : Memory} (h : m.wf) (a k : Nat) : (memClear m a k).wf := filter_wf h _

theorem memWrite_wf {m : Memory} (h : m.wf) (a : Nat) (l : List Byte) : (memWrite m a l).wf := by
  refine ⟨?_, ?_⟩
  · show ((m.cells.filter (fun e => e.1 < a) ++ runCells m a l) ++ m.cells.filter (fun e => a + l.length ≤ e.1)).Pairwise _
    rw [List.pairwise_append, List.pairwise_append]
    refine ⟨⟨h.1.filter _, runCells_rising m l a, ?_⟩, h.1.filter _, ?_⟩
    · intro x hx y hy
      have h1 := (List.mem_filter.1 hx).2; have h2 := (runCells_bounds m l a y hy).1
      simp at h1; omega
    · intro x hx y hy
      have hy' := (List.mem_filter.1 hy).2
      simp at hy'
      rcases List.mem_append.1 hx with hx | hx
      · have h1 := (List.mem_filter.1 hx).2; simp at h1; omega
      · have := runCells_bounds m l a x hx; omega
  · intro e he
    change e.2 ≠ dflt m e.1
    rcases List.mem_append.1 he with he | he
    · rcases List.mem_append.1 he with he | he
      · exact h.2 e (List.mem_of_mem_filter he)
      · exact (runCells_bounds m l a e he).2.2
    · exact h.2 e (List.mem_of_mem_filter he)

theorem fillScratch_wf {m : Memory} (h : m.wf) (n : Nat) (b : Byte) : (fillScratch m n b).wf := by
  refine ⟨h.1.filter _, fun e he => ?_⟩
  obtain ⟨he, hp⟩ := List.mem_filter.1 he
  have := h.2 e he
  suffices hd : dflt (fillScratch m n b) e.1 = dflt m e.1 by rw [hd]; exact this
  unfold dflt
  split
  · rename_i hc
    obtain ⟨h1, h2, h3⟩ := hc
    have hp' : ¬ (coreAt n ≤ e.1 ∧ e.1 < coreAt n + scratchSize) := fun hq => by simp [hq.1, hq.2] at hp
    have hne : (e.1 - coreBase) / coreStride ≠ n := by
      intro hn
      have hd := Nat.div_add_mod (e.1 - coreBase) coreStride
      rw [hn, Nat.mul_comm] at hd
      apply hp'
      unfold coreAt
      constructor <;> omega
    show tget 0#8 (tset m.fills n b) _ = _
    exact tget_tset_other _ _ _ hne
  · rfl

/-- Changing what stands beside the cells keeps the form, as long as unlisted bytes read the same. -/
theorem wf_of_cells {m k : Memory} (h : m.wf) (hc : k.cells = m.cells) (hf : k.fills = m.fills) : k.wf := by
  refine ⟨by rw [hc]; exact h.1, fun e he => ?_⟩
  have : dflt k e.1 = dflt m e.1 := by unfold dflt; rw [hf]
  rw [this]; exact h.2 e (hc ▸ he)

theorem mergeSector_wf {m k : Memory} (h : m.wf) {a c : Nat} {key : List Byte} (e : mergeSector m a key = some (k, c)) : k.wf := by
  unfold mergeSector at e
  split at e
  · obtain ⟨x, -, hx⟩ := Option.map_eq_some_iff.1 e
    split at hx <;> cases hx
    · exact h
    · exact memWrite_wf h _ _
  · split at e <;> cases e
    · exact memWrite_wf h _ _
    · exact h

theorem mergeAll_wf {key : List Byte} {l : List Nat} {m k : Memory} (h : m.wf) {c : Nat} (e : mergeAll key l m = some (k, c)) : k.wf := by
  induction l generalizing m c with
  | nil => cases e; exact h
  | cons a r ih =>
    unfold mergeAll at e
    split at e
    · cases e
    · rename_i x hx
      obtain ⟨y, hy, hz⟩ := Option.map_eq_some_iff.1 e
      cases hz
      exact ih (mergeSector_wf h hx) hy

theorem storeWrite_wf {m k : Memory} (h : m.wf) {a c : Nat} {key : List Byte} {l : List Byte} (e : storeWrite m a key l = some (k, c)) : k.wf := by
  unfold storeWrite at e
  dsimp only at e
  split at e
  · cases e
  · rename_i x hx
    have hw := mergeAll_wf h hx
    cases e
    apply memWrite_wf
    repeat' split
    all_goals exact wf_of_cells hw rfl rfl

theorem reset_mem_wf : State.reset.mem.wf := ⟨List.Pairwise.nil, fun _ h => nomatch h⟩

end Sys2Proof.Machine
end

