-- ==== Sys2Proof/Laws/Ops.lean ====
section
/-! SUPPORT. Registers after an update, the outcome of an issue, and what retiring an instruction leaves. -/

namespace Sys2Proof.Machine

/-! Reads of an agent after its stream changes. -/

theorem agentJob_modStream (s : State) (n j : Nat) (t : Sid) (f : Stream → Stream) :
    agentJob (modStream s (.stream n j t) f) (.stream n j t) = { jobOf s n j with streams := (jobOf s n j).streams.set t (f ((jobOf s n j).streams.get t)) } := by
  simp [agentJob, modStream]

@[simp] theorem jobOf_modStream (s : State) (n j : Nat) (t : Sid) (f : Stream → Stream) :
    jobOf (modStream s (.stream n j t) f) n j = { jobOf s n j with streams := (jobOf s n j).streams.set t (f ((jobOf s n j).streams.get t)) } := by
  simp [modStream]

@[simp] theorem regPlace_modStream (s : State) (a : Agent) (f : Stream → Stream) (r : Reg) : regPlace (modStream s a f) a r = regPlace s a r := by
  cases a with
  | mgmt => rfl
  | stream n j t => cases t <;> simp [regPlace]

@[simp] theorem supervisor_modStream (s : State) (a : Agent) (f : Stream → Stream) : supervisor (modStream s a f) a = supervisor s a := by
  cases a with
  | mgmt => rfl
  | stream n j t => cases t <;> simp [supervisor]

theorem readPlace_modStream (s : State) (a : Agent) (f : Stream → Stream) (i : Nat) (h : (f (streamOf s a)).regs = (streamOf s a).regs) :
    readPlace (modStream s a f) a i = readPlace s a i := by
  unfold readPlace
  rw [streamOf_modStream, h]
  cases a with
  | mgmt => rfl
  | stream n j t => rw [agentJob_modStream]; rfl

/-- A register read does not see a change of its stream outside the registers. -/
theorem reg_modStream (s : State) (a : Agent) (f : Stream → Stream) (r : Reg) (h : (f (streamOf s a)).regs = (streamOf s a).regs) :
    reg (modStream s a f) a r = reg s a r := by
  unfold reg; rw [regPlace_modStream, readPlace_modStream s a f _ h]

@[simp] theorem reg_beginInstr (s : State) (a : Agent) (r : Reg) : reg (beginInstr s a) a r = reg s a r := reg_modStream s a _ r rfl
@[simp] theorem reg_setFlags (s : State) (a : Agent) (f : BitVec 5) (r : Reg) : reg (setFlags s a f) a r = reg s a r := reg_modStream s a _ r rfl
@[simp] theorem regPlace_beginInstr (s : State) (a : Agent) (r : Reg) : regPlace (beginInstr s a) a r = regPlace s a r := regPlace_modStream s a _ r
@[simp] theorem supervisor_beginInstr (s : State) (a : Agent) : supervisor (beginInstr s a) a = supervisor s a := supervisor_modStream s a _
@[simp] theorem beginInstr_mem (s : State) (a : Agent) : (beginInstr s a).mem = s.mem := by cases a <;> rfl
@[simp] theorem beginInstr_parts (s : State) (a : Agent) : (beginInstr s a).parts = s.parts := by cases a <;> rfl
@[simp] theorem beginInstr_now (s : State) (a : Agent) : (beginInstr s a).now = s.now := by cases a <;> rfl
@[simp] theorem beginInstr_turn (s : State) (a : Agent) : (beginInstr s a).turn = s.turn := by cases a <;> rfl
@[simp] theorem beginInstr_pc (s : State) (a : Agent) : (streamOf (beginInstr s a) a).pc = (streamOf s a).pc := by simp [beginInstr]
@[simp] theorem beginInstr_loops (s : State) (a : Agent) : (streamOf (beginInstr s a) a).loops = (streamOf s a).loops := by simp [beginInstr]
@[simp] theorem beginInstr_run (s : State) (a : Agent) : (streamOf (beginInstr s a) a).run = (streamOf s a).run := by simp [beginInstr]
theorem jobOf_beginInstr (s : State) (n j : Nat) (t : Sid) :
    jobOf (beginInstr s (.stream n j t)) n j = { jobOf s n j with streams := (jobOf s n j).streams.set t { (jobOf s n j).streams.get t with launched := 0 } } :=
  jobOf_modStream s n j t _

/-! The places of registers. -/

theorem regPlace_cases (s : State) (a : Agent) (r : Reg) :
    regPlace s a r = r.toNat ∨ (56 ≤ r.toNat ∧ r.toNat ≤ 61 ∧ regPlace s a r = 64 + (r.toNat - 56)) ∨ (48 ≤ r.toNat ∧ r.toNat ≤ 55 ∧ regPlace s a r = 128 + (r.toNat - 48)) := by
  cases a with
  | mgmt => exact .inl rfl
  | stream n j t =>
    cases t <;> (try exact .inl rfl)
    simp only [regPlace]
    split
    · rename_i h; exact .inr (.inl ⟨h.2.1, h.2.2, rfl⟩)
    · split
      · rename_i h; exact .inr (.inr ⟨h.2.1, h.2.2, rfl⟩)
      · exact .inl rfl

theorem regPlace_eq_zero (s : State) (a : Agent) (r : Reg) : regPlace s a r = 0 ↔ r = 0#6 := by
  have := regPlace_cases s a r
  constructor
  · intro h; apply BitVec.eq_of_toNat_eq; simp; omega
  · rintro rfl; simp at this; exact this

@[simp] theorem regPlace_zero (s : State) (a : Agent) : regPlace s a 0#6 = 0 := (regPlace_eq_zero s a 0#6).2 rfl

/-- Two names of registers select two registers. -/
theorem regPlace_inj (s : State) (a : Agent) {r q : Reg} (h : regPlace s a r = regPlace s a q) : r = q := by
  apply BitVec.eq_of_toNat_eq
  cases a with
  | mgmt => exact h
  | stream n j t =>
    cases t <;> simp only [regPlace] at h <;> (try exact h)
    repeat' split at h
    all_goals omega

/-! Reads after a write. -/

theorem modAgentJob_stream (s : State) (a : Agent) (f : Job → Job) (h : ∀ b, (f b).streams = b.streams) : streamOf (modAgentJob s a f) a = streamOf s a := by
  cases a with
  | mgmt => rfl
  | stream n j t => simp [streamOf, modAgentJob, h]

theorem regPlace_writePlace (s : State) (a : Agent) (i : Nat) (v : Word) (r : Reg) : regPlace (writePlace s a i v) a r = regPlace s a r := by
  unfold writePlace
  split
  · rfl
  · dsimp only
    split
    · exact regPlace_modStream s a _ r
    · split <;> cases a <;> (try rfl) <;> (rename_i t; cases t <;> simp [regPlace, modAgentJob])

theorem readPlace_writePlace_same (s : State) (n j : Nat) (t : Sid) (i : Nat) (v : Word) (h : i ≠ 0) :
    readPlace (writePlace s (.stream n j t) i v) (.stream n j t) i = v := by
  unfold writePlace readPlace
  simp only [h, if_false]
  by_cases h1 : i < 64
  · simp [h1]
  · by_cases h2 : i < 128
    · simp [h1, h2, agentJob, modAgentJob]
    · simp [h1, h2, agentJob, modAgentJob]

theorem readPlace_writePlace_other (s : State) (a : Agent) (i k : Nat) (v : Word) (h : k ≠ i) : readPlace (writePlace s a i v) a k = readPlace s a k := by
  unfold writePlace
  split
  · rfl
  · rename_i hi
    dsimp only
    by_cases h1 : i < 64
    · simp only [h1, if_true]
      unfold readPlace
      cases a with
      | mgmt => simp [streamOf, modStream, agentJob, tget_tset_other _ _ _ h]
      | stream n j t => simp [streamOf, modStream, agentJob, tget_tset_other _ _ _ h]
    · simp only [h1, if_false]
      unfold readPlace
      cases a with
      | mgmt => by_cases hi2 : i < 128 <;> simp [hi2, streamOf, modStream, agentJob, modAgentJob]
      | stream n j t =>
        simp only [streamOf, agentJob]
        have e1 : (128 ≤ i) → k - 128 ≠ i - 128 ∨ k < 128 := by omega
        have e2 : i < 128 → k - 64 ≠ i - 64 ∨ k < 64 := by omega
        by_cases hi2 : i < 128
        · simp only [hi2, if_true, modAgentJob, modStream, modJob_modJob, jobOf_modJob, Five.get_set_same]
          rcases e2 hi2 with e | e
          · rw [tget_tset_other _ _ _ e]
          · simp [e]
        · simp only [hi2, if_false, modAgentJob, modStream, modJob_modJob, jobOf_modJob, Five.get_set_same]
          rcases e1 (by omega) with e | e
          · rw [tget_tset_other _ _ _ e]
          · simp [e]

/-- s[d] := v, then s[d] (R145). -/
theorem reg_setReg_same (s : State) (n j : Nat) (t : Sid) (d : Reg) (v : Word) (h : d ≠ 0#6) : reg (setReg s (.stream n j t) d v) (.stream n j t) d = v := by
  unfold reg setReg
  rw [regPlace_writePlace]
  exact readPlace_writePlace_same s n j t _ v (fun e => h ((regPlace_eq_zero _ _ _).1 e))

/-- s[d] := v leaves every other register. -/
theorem reg_setReg_other (s : State) (a : Agent) (d r : Reg) (v : Word) (h : r ≠ d) : reg (setReg s a d v) a r = reg s a r := by
  unfold reg setReg
  rw [regPlace_writePlace]
  exact readPlace_writePlace_other s a _ _ v (fun e => h (regPlace_inj s a e))

/-- Register 0 reads as 0 (R145). -/
@[simp] theorem reg_zero (s : State) (a : Agent) : reg s a 0#6 = 0#64 := by simp [reg, readPlace]

/-- A write to register 0 is discarded (R145). -/
@[simp] theorem setReg_zero (s : State) (a : Agent) (v : Word) : setReg s a 0#6 v = s := by simp [setReg, writePlace]

/-! The outcome of an issue. -/

/-- An instruction that is ready has what its body answers. -/
theorem issue_ready {words : Nat} {nd : Need} {s : State} (h : Ready words nd s) (body : State → Agent → Res) :
    issue words nd s body = match body (began s) s.turn with
      | .ok t f => .next (retire t s.turn words f)
      | .wait t r => waitsIn s t r
      | .trap t => trapsWith s t
      | .trapIn w t => .next (takeTrap w s.turn t) := by
  obtain ⟨h1, h2, h3⟩ := h
  unfold issue
  simp only [h1, h2, h3, Bool.not_true, Bool.false_eq_true, if_false]
  rfl

/-- An agent that cannot issue changes nothing. -/
theorem issue_idle {s : State} (words : Nat) (nd : Need) (body : State → Agent → Res) (h : canIssue s s.turn = false) : issue words nd s body = .next s := by
  unfold issue; simp [h]

/-- A check of issue that fails is taken as a cause. -/
theorem issue_check {s : State} {words : Nat} {nd : Need} {c : Byte} (body : State → Agent → Res) (h : canIssue s s.turn = true) (hc : issueCheck s s.turn words nd = some c) :
    issue words nd s body = trapsWith s { cause := c } := by
  unfold issue; simp [h, hc, trapsWith]

/-- An instruction waits for a register still to come. -/
theorem issue_due {s : State} {words : Nat} {nd : Need} (body : State → Agent → Res) (h : canIssue s s.turn = true) (hc : issueCheck s s.turn words nd = none)
    (hd : nd.reads.any (isDue s s.turn) = true) : issue words nd s body = waitsIn s s .waiting := by
  unfold issue; simp [h, hc, hd, waitsIn]

/-- An issue always has a next state. -/
theorem issue_next (words : Nat) (nd : Need) (s : State) (body : State → Agent → Res) : ∃ t, issue words nd s body = .next t := by
  unfold issue
  dsimp only
  split
  · exact ⟨_, rfl⟩
  · split
    · exact ⟨_, rfl⟩
    · split
      · exact ⟨_, rfl⟩
      · split <;> exact ⟨_, rfl⟩

end Sys2Proof.Machine
end

