-- ==== Sys2Proof/Laws/Began.lean ====
section
/-! SUPPORT. What a change of one stream leaves in the rest of the machine, and so what `began` leaves: the job's other fields, its core's, the queue descriptors, rows, scratchpad and registers of the context that an instruction reads. -/

namespace Sys2Proof.Machine

theorem slotOf_setSlot (c : Core) (i j : Nat) (sl : Slot) : slotOf (setSlot c i sl) j = if (i = 0) = (j = 0) then sl else slotOf c j := by
  unfold slotOf setSlot; by_cases h : i = 0 <;> by_cases g : j = 0 <;> simp [h, g]

/-- Where slot k of core m is not slot j of core n, a change of the latter leaves it. -/
theorem slotOf_modSlot (s : State) (n j m k : Nat) (f : Slot → Slot) :
    slotOf (coreOf (modSlot s n j f) m) k = if m = n ∧ (j = 0) = (k = 0) then f (slotOf (coreOf s m) k) else slotOf (coreOf s m) k := by
  unfold modSlot
  by_cases h : m = n
  · subst h
    rw [coreOf_modCore, slotOf_setSlot]
    by_cases g : (j = 0) = (k = 0)
    · have e : slotOf (coreOf s m) j = slotOf (coreOf s m) k := by unfold slotOf; simp only [g]
      simp [g, e]
    · simp [g]
  · rw [coreOf_modCore_other s _ h]; simp [h]

theorem jobOf_modStream_any (s : State) (a : Agent) (f : Stream → Stream) (m k : Nat) :
    jobOf (modStream s a f) m k = { jobOf s m k with streams := (jobOf (modStream s a f) m k).streams } := by
  cases a with
  | mgmt => rfl
  | stream n j t =>
    simp only [jobOf, modStream, modJob, slotOf_modSlot]
    split <;> rfl

theorem coreOf_modStream_any (s : State) (a : Agent) (f : Stream → Stream) (m : Nat) :
    coreOf (modStream s a f) m = { coreOf s m with slot0 := (coreOf (modStream s a f) m).slot0, slot1 := (coreOf (modStream s a f) m).slot1 } := by
  cases a with
  | mgmt => rfl
  | stream n j t =>
    by_cases h : m = n
    · subst h
      simp only [modStream, modJob, modSlot, coreOf_modCore, setSlot]
      split <;> rfl
    · simp only [modStream, modJob, modSlot, coreOf_modCore_other s _ h]

theorem slotOf_modStream_any (s : State) (a : Agent) (f : Stream → Stream) (m k : Nat) :
    slotOf (coreOf (modStream s a f) m) k = { slotOf (coreOf s m) k with job := jobOf (modStream s a f) m k } := by
  cases a with
  | mgmt => rfl
  | stream n j t =>
    simp only [jobOf, modStream, modJob, slotOf_modSlot]
    split <;> rfl

theorem jobOf_began_any (s : State) (m k : Nat) : jobOf (began s) m k = { jobOf s m k with streams := (jobOf (began s) m k).streams } := jobOf_modStream_any s s.turn _ m k

@[simp] theorem began_job_part (s : State) (m k : Nat) : (jobOf (began s) m k).part = (jobOf s m k).part := by rw [jobOf_began_any]
@[simp] theorem began_job_ctx (s : State) (m k : Nat) : (jobOf (began s) m k).ctx = (jobOf s m k).ctx := by rw [jobOf_began_any]
@[simp] theorem began_job_node (s : State) (m k : Nat) : (jobOf (began s) m k).node = (jobOf s m k).node := by rw [jobOf_began_any]
@[simp] theorem began_job_tile (s : State) (m k : Nat) : (jobOf (began s) m k).tile = (jobOf s m k).tile := by rw [jobOf_began_any]
@[simp] theorem began_job_task (s : State) (m k : Nat) : (jobOf (began s) m k).task = (jobOf s m k).task := by rw [jobOf_began_any]
@[simp] theorem began_job_depth (s : State) (m k : Nat) : (jobOf (began s) m k).depth = (jobOf s m k).depth := by rw [jobOf_began_any]
@[simp] theorem began_job_limit (s : State) (m k : Nat) : (jobOf (began s) m k).limit = (jobOf s m k).limit := by rw [jobOf_began_any]
@[simp] theorem began_job_kernel (s : State) (m k : Nat) : (jobOf (began s) m k).kernel = (jobOf s m k).kernel := by rw [jobOf_began_any]
@[simp] theorem began_job_codeLen (s : State) (m k : Nat) : (jobOf (began s) m k).codeLen = (jobOf s m k).codeLen := by rw [jobOf_began_any]
@[simp] theorem began_job_discards (s : State) (m k : Nat) : (jobOf (began s) m k).discards = (jobOf s m k).discards := by rw [jobOf_began_any]
@[simp] theorem began_job_tiletype (s : State) (m k : Nat) : (jobOf (began s) m k).tiletype = (jobOf s m k).tiletype := by rw [jobOf_began_any]
@[simp] theorem began_job_vwb (s : State) (m k : Nat) : (jobOf (began s) m k).vwb = (jobOf s m k).vwb := by rw [jobOf_began_any]
@[simp] theorem began_job_masks (s : State) (m k : Nat) : (jobOf (began s) m k).masks = (jobOf s m k).masks := by rw [jobOf_began_any]
@[simp] theorem began_job_markers (s : State) (m k : Nat) : (jobOf (began s) m k).markers = (jobOf s m k).markers := by rw [jobOf_began_any]
@[simp] theorem began_job_tables (s : State) (m k : Nat) : (jobOf (began s) m k).tables = (jobOf s m k).tables := by rw [jobOf_began_any]
@[simp] theorem began_job_patterns (s : State) (m k : Nat) : (jobOf (began s) m k).patterns = (jobOf s m k).patterns := by rw [jobOf_began_any]
@[simp] theorem began_job_window (s : State) (m k : Nat) : (jobOf (began s) m k).window = (jobOf s m k).window := by rw [jobOf_began_any]
@[simp] theorem began_job_mcfg (s : State) (m k : Nat) : (jobOf (began s) m k).mcfg = (jobOf s m k).mcfg := by rw [jobOf_began_any]
@[simp] theorem began_job_uivec (s : State) (m k : Nat) : (jobOf (began s) m k).uivec = (jobOf s m k).uivec := by rw [jobOf_began_any]
@[simp] theorem began_job_pend (s : State) (m k : Nat) : (jobOf (began s) m k).pend = (jobOf s m k).pend := by rw [jobOf_began_any]
@[simp] theorem began_job_inh (s : State) (m k : Nat) : (jobOf (began s) m k).inh = (jobOf s m k).inh := by rw [jobOf_began_any]
@[simp] theorem began_job_uimask (s : State) (m k : Nat) : (jobOf (began s) m k).uimask = (jobOf s m k).uimask := by rw [jobOf_began_any]
@[simp] theorem began_job_uiret (s : State) (m k : Nat) : (jobOf (began s) m k).uiret = (jobOf s m k).uiret := by rw [jobOf_began_any]
@[simp] theorem began_job_shadow (s : State) (m k : Nat) : (jobOf (began s) m k).shadow = (jobOf s m k).shadow := by rw [jobOf_began_any]
@[simp] theorem began_job_trapvec (s : State) (m k : Nat) : (jobOf (began s) m k).trapvec = (jobOf s m k).trapvec := by rw [jobOf_began_any]
@[simp] theorem began_job_sv (s : State) (m k : Nat) : (jobOf (began s) m k).sv = (jobOf s m k).sv := by rw [jobOf_began_any]
@[simp] theorem began_job_ts (s : State) (m k : Nat) : (jobOf (began s) m k).ts = (jobOf s m k).ts := by rw [jobOf_began_any]
@[simp] theorem began_job_traps (s : State) (m k : Nat) : (jobOf (began s) m k).traps = (jobOf s m k).traps := by rw [jobOf_began_any]
@[simp] theorem began_job_epc (s : State) (m k : Nat) : (jobOf (began s) m k).epc = (jobOf s m k).epc := by rw [jobOf_began_any]
@[simp] theorem began_job_ecause (s : State) (m k : Nat) : (jobOf (began s) m k).ecause = (jobOf s m k).ecause := by rw [jobOf_began_any]
@[simp] theorem began_job_ret (s : State) (m k : Nat) : (jobOf (began s) m k).ret = (jobOf s m k).ret := by rw [jobOf_began_any]
@[simp] theorem began_job_bank (s : State) (m k : Nat) : (jobOf (began s) m k).bank = (jobOf s m k).bank := by rw [jobOf_began_any]
@[simp] theorem began_job_dbgctl (s : State) (m k : Nat) : (jobOf (began s) m k).dbgctl = (jobOf s m k).dbgctl := by rw [jobOf_began_any]
@[simp] theorem began_job_npUntil (s : State) (m k : Nat) : (jobOf (began s) m k).npUntil = (jobOf s m k).npUntil := by rw [jobOf_began_any]
@[simp] theorem began_job_armed (s : State) (m k : Nat) : (jobOf (began s) m k).armed = (jobOf s m k).armed := by rw [jobOf_began_any]
@[simp] theorem began_job_flw (s : State) (m k : Nat) : (jobOf (began s) m k).flw = (jobOf s m k).flw := by rw [jobOf_began_any]
@[simp] theorem began_job_lastCopy (s : State) (m k : Nat) : (jobOf (began s) m k).lastCopy = (jobOf s m k).lastCopy := by rw [jobOf_began_any]
@[simp] theorem began_job_lq (s : State) (m k : Nat) : (jobOf (began s) m k).lq = (jobOf s m k).lq := by rw [jobOf_began_any]
@[simp] theorem began_job_sq (s : State) (m k : Nat) : (jobOf (began s) m k).sq = (jobOf s m k).sq := by rw [jobOf_began_any]
@[simp] theorem began_job_aq (s : State) (m k : Nat) : (jobOf (began s) m k).aq = (jobOf s m k).aq := by rw [jobOf_began_any]
@[simp] theorem began_job_vq (s : State) (m k : Nat) : (jobOf (began s) m k).vq = (jobOf s m k).vq := by rw [jobOf_began_any]
@[simp] theorem began_job_mq (s : State) (m k : Nat) : (jobOf (began s) m k).mq = (jobOf s m k).mq := by rw [jobOf_began_any]
@[simp] theorem began_job_xvq (s : State) (m k : Nat) : (jobOf (began s) m k).xvq = (jobOf s m k).xvq := by rw [jobOf_began_any]
@[simp] theorem began_job_xhq (s : State) (m k : Nat) : (jobOf (began s) m k).xhq = (jobOf s m k).xhq := by rw [jobOf_began_any]
@[simp] theorem began_job_landings (s : State) (m k : Nat) : (jobOf (began s) m k).landings = (jobOf s m k).landings := by rw [jobOf_began_any]
@[simp] theorem began_job_acks (s : State) (m k : Nat) : (jobOf (began s) m k).acks = (jobOf s m k).acks := by rw [jobOf_began_any]
@[simp] theorem began_job_rdvDone (s : State) (m k : Nat) : (jobOf (began s) m k).rdvDone = (jobOf s m k).rdvDone := by rw [jobOf_began_any]
@[simp] theorem began_job_fence (s : State) (m k : Nat) : (jobOf (began s) m k).fence = (jobOf s m k).fence := by rw [jobOf_began_any]
@[simp] theorem began_job_seq (s : State) (m k : Nat) : (jobOf (began s) m k).seq = (jobOf s m k).seq := by rw [jobOf_began_any]
@[simp] theorem began_job_cursor (s : State) (m k : Nat) : (jobOf (began s) m k).cursor = (jobOf s m k).cursor := by rw [jobOf_began_any]
@[simp] theorem began_job_killed (s : State) (m k : Nat) : (jobOf (began s) m k).killed = (jobOf s m k).killed := by rw [jobOf_began_any]

@[simp] theorem began_core_active (s : State) (m : Nat) : (coreOf (began s) m).active = (coreOf s m).active := by unfold began beginInstr; rw [coreOf_modStream_any]
@[simp] theorem began_core_ctx (s : State) (m : Nat) : (coreOf (began s) m).ctx = (coreOf s m).ctx := by unfold began beginInstr; rw [coreOf_modStream_any]
@[simp] theorem began_core_ending (s : State) (m : Nat) : (coreOf (began s) m).ending = (coreOf s m).ending := by unfold began beginInstr; rw [coreOf_modStream_any]
@[simp] theorem began_core_forced (s : State) (m : Nat) : (coreOf (began s) m).forced = (coreOf s m).forced := by unfold began beginInstr; rw [coreOf_modStream_any]
@[simp] theorem began_core_resident (s : State) (m : Nat) : (coreOf (began s) m).resident = (coreOf s m).resident := by unfold began beginInstr; rw [coreOf_modStream_any]
@[simp] theorem began_core_lastCtx (s : State) (m : Nat) : (coreOf (began s) m).lastCtx = (coreOf s m).lastCtx := by unfold began beginInstr; rw [coreOf_modStream_any]
@[simp] theorem began_core_frozen (s : State) (m : Nat) : (coreOf (began s) m).frozen = (coreOf s m).frozen := by unfold began beginInstr; rw [coreOf_modStream_any]
@[simp] theorem began_core_doubleFault (s : State) (m : Nat) : (coreOf (began s) m).doubleFault = (coreOf s m).doubleFault := by unfold began beginInstr; rw [coreOf_modStream_any]
@[simp] theorem began_core_power (s : State) (m : Nat) : (coreOf (began s) m).power = (coreOf s m).power := by unfold began beginInstr; rw [coreOf_modStream_any]
@[simp] theorem began_core_gated (s : State) (m : Nat) : (coreOf (began s) m).gated = (coreOf s m).gated := by unfold began beginInstr; rw [coreOf_modStream_any]
@[simp] theorem began_core_gatedAt (s : State) (m : Nat) : (coreOf (began s) m).gatedAt = (coreOf s m).gatedAt := by unfold began beginInstr; rw [coreOf_modStream_any]
@[simp] theorem began_core_l1 (s : State) (m : Nat) : (coreOf (began s) m).l1 = (coreOf s m).l1 := by unfold began beginInstr; rw [coreOf_modStream_any]
@[simp] theorem began_core_icache (s : State) (m : Nat) : (coreOf (began s) m).icache = (coreOf s m).icache := by unfold began beginInstr; rw [coreOf_modStream_any]
@[simp] theorem began_core_tlb (s : State) (m : Nat) : (coreOf (began s) m).tlb = (coreOf s m).tlb := by unfold began beginInstr; rw [coreOf_modStream_any]
@[simp] theorem began_core_owned (s : State) (m : Nat) : (coreOf (began s) m).owned = (coreOf s m).owned := by unfold began beginInstr; rw [coreOf_modStream_any]
@[simp] theorem began_core_txb (s : State) (m : Nat) : (coreOf (began s) m).txb = (coreOf s m).txb := by unfold began beginInstr; rw [coreOf_modStream_any]
@[simp] theorem began_core_floe (s : State) (m : Nat) : (coreOf (began s) m).floe = (coreOf s m).floe := by unfold began beginInstr; rw [coreOf_modStream_any]
@[simp] theorem began_core_intake (s : State) (m : Nat) : (coreOf (began s) m).intake = (coreOf s m).intake := by unfold began beginInstr; rw [coreOf_modStream_any]
@[simp] theorem began_core_persist (s : State) (m : Nat) : (coreOf (began s) m).persist = (coreOf s m).persist := by unfold began beginInstr; rw [coreOf_modStream_any]
@[simp] theorem began_core_dirty0 (s : State) (m : Nat) : (coreOf (began s) m).dirty0 = (coreOf s m).dirty0 := by unfold began beginInstr; rw [coreOf_modStream_any]
@[simp] theorem began_core_dirty1 (s : State) (m : Nat) : (coreOf (began s) m).dirty1 = (coreOf s m).dirty1 := by unfold began beginInstr; rw [coreOf_modStream_any]
@[simp] theorem began_slot_st (s : State) (m k : Nat) : (slotOf (coreOf (began s) m) k).st = (slotOf (coreOf s m) k).st := by unfold began beginInstr; rw [slotOf_modStream_any]
@[simp] theorem began_slot_step (s : State) (m k : Nat) : (slotOf (coreOf (began s) m) k).step = (slotOf (coreOf s m) k).step := by unfold began beginInstr; rw [slotOf_modStream_any]
@[simp] theorem began_slot_resumed (s : State) (m k : Nat) : (slotOf (coreOf (began s) m) k).resumed = (slotOf (coreOf s m) k).resumed := by unfold began beginInstr; rw [slotOf_modStream_any]
@[simp] theorem began_slot_intact (s : State) (m k : Nat) : (slotOf (coreOf (began s) m) k).intact = (slotOf (coreOf s m) k).intact := by unfold began beginInstr; rw [slotOf_modStream_any]

@[simp] theorem began_tick (s : State) : (began s).tick = s.tick := by unfold began; cases s.turn <;> rfl
@[simp] theorem began_agenda (s : State) : (began s).agenda = s.agenda := by unfold began; cases s.turn <;> rfl
@[simp] theorem began_turn (s : State) : (began s).turn = s.turn := by exact beginInstr_turn s s.turn
@[simp] theorem began_now (s : State) : (began s).now = s.now := by unfold began; cases s.turn <;> rfl
@[simp] theorem began_powered (s : State) : (began s).powered = s.powered := by unfold began; cases s.turn <;> rfl
@[simp] theorem began_mem (s : State) : (began s).mem = s.mem := by unfold began; cases s.turn <;> rfl
@[simp] theorem began_dieXlat (s : State) : (began s).dieXlat = s.dieXlat := by unfold began; cases s.turn <;> rfl
@[simp] theorem began_parts (s : State) : (began s).parts = s.parts := by unfold began; cases s.turn <;> rfl
@[simp] theorem began_vaultReady (s : State) : (began s).vaultReady = s.vaultReady := by unfold began; cases s.turn <;> rfl
@[simp] theorem began_clamped (s : State) : (began s).clamped = s.clamped := by unfold began; cases s.turn <;> rfl
@[simp] theorem began_bootaddr (s : State) : (began s).bootaddr = s.bootaddr := by unfold began; cases s.turn <;> rfl
@[simp] theorem began_bootlen (s : State) : (began s).bootlen = s.bootlen := by unfold began; cases s.turn <;> rfl
@[simp] theorem began_bootgo (s : State) : (began s).bootgo = s.bootgo := by unfold began; cases s.turn <;> rfl
@[simp] theorem began_bootstat (s : State) : (began s).bootstat = s.bootstat := by unfold began; cases s.turn <;> rfl
@[simp] theorem began_mgmtstat (s : State) : (began s).mgmtstat = s.mgmtstat := by unfold began; cases s.turn <;> rfl
@[simp] theorem began_attests (s : State) : (began s).attests = s.attests := by unfold began; cases s.turn <;> rfl
@[simp] theorem began_routes (s : State) : (began s).routes = s.routes := by unfold began; cases s.turn <;> rfl
@[simp] theorem began_locked (s : State) : (began s).locked = s.locked := by unfold began; cases s.turn <;> rfl
@[simp] theorem began_ports (s : State) : (began s).ports = s.ports := by unfold began; cases s.turn <;> rfl
@[simp] theorem began_keySlots (s : State) : (began s).keySlots = s.keySlots := by unfold began; cases s.turn <;> rfl
@[simp] theorem began_msix (s : State) : (began s).msix = s.msix := by unfold began; cases s.turn <;> rfl
@[simp] theorem began_hostReplies (s : State) : (began s).hostReplies = s.hostReplies := by unfold began; cases s.turn <;> rfl

@[simp] theorem partOf_began (s : State) (p : Nat) : partOf (began s) p = partOf s p := by simp [partOf]
@[simp] theorem ctxOf_began (s : State) (p c : Nat) : ctxOf (began s) p c = ctxOf s p c := by simp [ctxOf]
@[simp] theorem descOf_began (s : State) (n j : Nat) (h : Handle) : descOf (began s) n j h = descOf s n j h := by simp [descOf]
@[simp] theorem queueFor_began (s : State) (a : Agent) (h : Handle) (e : QEnd) : queueFor (began s) a h e = queueFor s a h e := by cases a <;> simp [queueFor]
@[simp] theorem spRead_began (s : State) (n off len : Nat) : spRead (began s) n off len = spRead s n off len := by simp [spRead]
@[simp] theorem readRow_began (s : State) (n row w : Nat) : readRow (began s) n row w = readRow s n row w := by simp [readRow]
@[simp] theorem reg_began (s : State) (r : Reg) : reg (began s) s.turn r = reg s s.turn r := reg_beginInstr s s.turn r
@[simp] theorem regPlace_began (s : State) (r : Reg) : regPlace (began s) s.turn r = regPlace s s.turn r := regPlace_beginInstr s s.turn r
@[simp] theorem supervisor_began (s : State) : supervisor (began s) s.turn = supervisor s s.turn := supervisor_beginInstr s s.turn
@[simp] theorem pc_began (s : State) : (streamOf (began s) s.turn).pc = (streamOf s s.turn).pc := beginInstr_pc s s.turn
@[simp] theorem run_began (s : State) : (streamOf (began s) s.turn).run = (streamOf s s.turn).run := beginInstr_run s s.turn
@[simp] theorem streamOf_began (s : State) : streamOf (began s) s.turn = { streamOf s s.turn with launched := 0 } := streamOf_modStream s s.turn _

/-- What is read of a job's queues, rows and masks only does not change as its instruction begins. -/
@[simp] theorem rowOf_began (s : State) (n j : Nat) (v : VReg) : rowOf (jobOf (began s) n j) v = rowOf (jobOf s n j) v := by simp [rowOf]
@[simp] theorem tileCode_began (s : State) (n j t : Nat) : tileCode (jobOf (began s) n j) t = tileCode (jobOf s n j) t := by simp [tileCode]
@[simp] theorem rowCode_began (s : State) (n j r : Nat) : rowCode (jobOf (began s) n j) r = rowCode (jobOf s n j) r := by simp [rowCode]
@[simp] theorem maskOf_began (s : State) (n j : Nat) (m : MReg) : maskOf (jobOf (began s) n j) m = maskOf (jobOf s n j) m := by simp [maskOf]
@[simp] theorem tileBusy_began (s : State) (n j t : Nat) : tileBusy (jobOf (began s) n j) t = tileBusy (jobOf s n j) t := by simp [tileBusy]
@[simp] theorem queueOf_began (s : State) (n j : Nat) (q : Queue) : queueOf (jobOf (began s) n j) q = queueOf (jobOf s n j) q := by cases q <;> simp [queueOf]
@[simp] theorem allOps_began (s : State) (n j : Nat) : allOps (jobOf (began s) n j) = allOps (jobOf s n j) := by simp [allOps]
@[simp] theorem names_began (s : State) (n j : Nat) (h : Handle) : names (jobOf (began s) n j) h = names (jobOf s n j) h := by simp [names]
@[simp] theorem kOf_began (s : State) (n j i : Nat) : kOf s (jobOf (began s) n j) i = kOf s (jobOf s n j) i := by simp [kOf]
@[simp] theorem ownDone_began (s : State) (n j : Nat) (t : Sid) (l : Nat) (c : List (BitVec 32)) : ownDone (jobOf (began s) n j) t l c = ownDone (jobOf s n j) t l c := by simp [ownDone]
@[simp] theorem fenceDone_began (s : State) (n j : Nat) (f : Fence) : fenceDone (jobOf (began s) n j) f = fenceDone (jobOf s n j) f := by simp [fenceDone]
@[simp] theorem xCount_began (s : State) (n j : Nat) (q : Queue) : xCount (jobOf (began s) n j) q = xCount (jobOf s n j) q := by simp [xCount]
@[simp] theorem xOutstanding_began (s : State) (n j : Nat) (q : Queue) : xOutstanding (jobOf (began s) n j) q = xOutstanding (jobOf s n j) q := by simp [xOutstanding]
@[simp] theorem aqCount_began (s : State) (n j : Nat) : aqCount (jobOf (began s) n j) = aqCount (jobOf s n j) := by simp [aqCount]
@[simp] theorem swc_began (s : State) (n j : Nat) : swc (jobOf (began s) n j) = swc (jobOf s n j) := by simp [swc]
@[simp] theorem mQueue_began (s : State) (n j : Nat) (q : Handle) (k : Nat) : mQueue (began s) n j q k = mQueue s n j q k := by simp [mQueue]
@[simp] theorem headerAt_began (s : State) (n : Nat) (d : QDesc) (p : Nat) : headerAt (began s) n d p = headerAt s n d p := by simp [headerAt]
/-- The stream of the turn, by its core and slot. -/
theorem get_began {s : State} {n j : Nat} {t : Sid} (h : s.turn = .stream n j t) : (jobOf (began s) n j).streams.get t = { (jobOf s n j).streams.get t with launched := 0 } := by
  have := streamOf_began s
  rwa [h] at this

end Sys2Proof.Machine
end

