-- ==== Sys2Proof/Laws/Exec.lean ====
section
/-! SUPPORT. What `exec` is on each instruction: one equation for each arm. -/

namespace Sys2Proof.Machine

theorem exec_add (d : Reg) (a : Reg) (b : Reg) (s : State) : exec (.add d a b) s = execAdd d a b s := rfl
theorem exec_sub (d : Reg) (a : Reg) (b : Reg) (s : State) : exec (.sub d a b) s = execSub d a b s := rfl
theorem exec_and (d : Reg) (a : Reg) (b : Reg) (s : State) : exec (.and d a b) s = execAnd d a b s := rfl
theorem exec_or (d : Reg) (a : Reg) (b : Reg) (s : State) : exec (.or d a b) s = execOr d a b s := rfl
theorem exec_xor (d : Reg) (a : Reg) (b : Reg) (s : State) : exec (.xor d a b) s = execXor d a b s := rfl
theorem exec_andn (d : Reg) (a : Reg) (b : Reg) (s : State) : exec (.andn d a b) s = execAndn d a b s := rfl
theorem exec_sll (d : Reg) (a : Reg) (b : Reg) (s : State) : exec (.sll d a b) s = execSll d a b s := rfl
theorem exec_srl (d : Reg) (a : Reg) (b : Reg) (s : State) : exec (.srl d a b) s = execSrl d a b s := rfl
theorem exec_sra (d : Reg) (a : Reg) (b : Reg) (s : State) : exec (.sra d a b) s = execSra d a b s := rfl
theorem exec_rol (d : Reg) (a : Reg) (b : Reg) (s : State) : exec (.rol d a b) s = execRol d a b s := rfl
theorem exec_mul (d : Reg) (a : Reg) (b : Reg) (s : State) : exec (.mul d a b) s = execMul d a b s := rfl
theorem exec_mulh (d : Reg) (a : Reg) (b : Reg) (s : State) : exec (.mulh d a b) s = execMulh d a b s := rfl
theorem exec_mulhu (d : Reg) (a : Reg) (b : Reg) (s : State) : exec (.mulhu d a b) s = execMulhu d a b s := rfl
theorem exec_div (d : Reg) (a : Reg) (b : Reg) (s : State) : exec (.div d a b) s = execDiv d a b s := rfl
theorem exec_divu (d : Reg) (a : Reg) (b : Reg) (s : State) : exec (.divu d a b) s = execDivu d a b s := rfl
theorem exec_rem (d : Reg) (a : Reg) (b : Reg) (s : State) : exec (.rem d a b) s = execRem d a b s := rfl
theorem exec_remu (d : Reg) (a : Reg) (b : Reg) (s : State) : exec (.remu d a b) s = execRemu d a b s := rfl
theorem exec_min (d : Reg) (a : Reg) (b : Reg) (s : State) : exec (.min d a b) s = execMin d a b s := rfl
theorem exec_minu (d : Reg) (a : Reg) (b : Reg) (s : State) : exec (.minu d a b) s = execMinu d a b s := rfl
theorem exec_max (d : Reg) (a : Reg) (b : Reg) (s : State) : exec (.max d a b) s = execMax d a b s := rfl
theorem exec_maxu (d : Reg) (a : Reg) (b : Reg) (s : State) : exec (.maxu d a b) s = execMaxu d a b s := rfl
theorem exec_seq (d : Reg) (a : Reg) (b : Reg) (s : State) : exec (.seq d a b) s = execSeq d a b s := rfl
theorem exec_sne (d : Reg) (a : Reg) (b : Reg) (s : State) : exec (.sne d a b) s = execSne d a b s := rfl
theorem exec_slt (d : Reg) (a : Reg) (b : Reg) (s : State) : exec (.slt d a b) s = execSlt d a b s := rfl
theorem exec_sltu (d : Reg) (a : Reg) (b : Reg) (s : State) : exec (.sltu d a b) s = execSltu d a b s := rfl
theorem exec_sle (d : Reg) (a : Reg) (b : Reg) (s : State) : exec (.sle d a b) s = execSle d a b s := rfl
theorem exec_sleu (d : Reg) (a : Reg) (b : Reg) (s : State) : exec (.sleu d a b) s = execSleu d a b s := rfl
theorem exec_clz (d : Reg) (a : Reg) (s : State) : exec (.clz d a) s = execClz d a s := rfl
theorem exec_ctz (d : Reg) (a : Reg) (s : State) : exec (.ctz d a) s = execCtz d a s := rfl
theorem exec_popc (d : Reg) (a : Reg) (s : State) : exec (.popc d a) s = execPopc d a s := rfl
theorem exec_bswap (d : Reg) (a : Reg) (s : State) : exec (.bswap d a) s = execBswap d a s := rfl
theorem exec_sexb (d : Reg) (a : Reg) (s : State) : exec (.sexb d a) s = execSexb d a s := rfl
theorem exec_sexh (d : Reg) (a : Reg) (s : State) : exec (.sexh d a) s = execSexh d a s := rfl
theorem exec_sexw (d : Reg) (a : Reg) (s : State) : exec (.sexw d a) s = execSexw d a s := rfl
theorem exec_fadd (d : Reg) (a : Reg) (b : Reg) (s : State) : exec (.fadd d a b) s = execFadd d a b s := rfl
theorem exec_fsub (d : Reg) (a : Reg) (b : Reg) (s : State) : exec (.fsub d a b) s = execFsub d a b s := rfl
theorem exec_fmul (d : Reg) (a : Reg) (b : Reg) (s : State) : exec (.fmul d a b) s = execFmul d a b s := rfl
theorem exec_fdiv (d : Reg) (a : Reg) (b : Reg) (s : State) : exec (.fdiv d a b) s = execFdiv d a b s := rfl
theorem exec_fmin (d : Reg) (a : Reg) (b : Reg) (s : State) : exec (.fmin d a b) s = execFmin d a b s := rfl
theorem exec_fmax (d : Reg) (a : Reg) (b : Reg) (s : State) : exec (.fmax d a b) s = execFmax d a b s := rfl
theorem exec_fminp (d : Reg) (a : Reg) (b : Reg) (s : State) : exec (.fminp d a b) s = execFminp d a b s := rfl
theorem exec_fmaxp (d : Reg) (a : Reg) (b : Reg) (s : State) : exec (.fmaxp d a b) s = execFmaxp d a b s := rfl
theorem exec_fcvtfi (d : Reg) (a : Reg) (rm : Rounding) (s : State) : exec (.fcvtfi d a rm) s = execFcvtfi d a rm s := rfl
theorem exec_fcvtif (d : Reg) (a : Reg) (rm : Rounding) (s : State) : exec (.fcvtif d a rm) s = execFcvtif d a rm s := rfl
theorem exec_feq (d : Reg) (a : Reg) (b : Reg) (s : State) : exec (.feq d a b) s = execFeq d a b s := rfl
theorem exec_flt (d : Reg) (a : Reg) (b : Reg) (s : State) : exec (.flt d a b) s = execFlt d a b s := rfl
theorem exec_fle (d : Reg) (a : Reg) (b : Reg) (s : State) : exec (.fle d a b) s = execFle d a b s := rfl
theorem exec_addi (d : Reg) (a : Reg) (imm : BitVec 11) (s : State) : exec (.addi d a imm) s = execAddi d a imm s := rfl
theorem exec_andi (d : Reg) (a : Reg) (imm : BitVec 11) (s : State) : exec (.andi d a imm) s = execAndi d a imm s := rfl
theorem exec_ori (d : Reg) (a : Reg) (imm : BitVec 11) (s : State) : exec (.ori d a imm) s = execOri d a imm s := rfl
theorem exec_xori (d : Reg) (a : Reg) (imm : BitVec 11) (s : State) : exec (.xori d a imm) s = execXori d a imm s := rfl
theorem exec_slli (d : Reg) (a : Reg) (sh : BitVec 6) (s : State) : exec (.slli d a sh) s = execSlli d a sh s := rfl
theorem exec_srli (d : Reg) (a : Reg) (sh : BitVec 6) (s : State) : exec (.srli d a sh) s = execSrli d a sh s := rfl
theorem exec_srai (d : Reg) (a : Reg) (sh : BitVec 6) (s : State) : exec (.srai d a sh) s = execSrai d a sh s := rfl
theorem exec_slti (d : Reg) (a : Reg) (imm : BitVec 11) (s : State) : exec (.slti d a imm) s = execSlti d a imm s := rfl
theorem exec_lui (d : Reg) (imm : BitVec 20) (s : State) : exec (.lui d imm) s = execLui d imm s := rfl
theorem exec_lix (d : Reg) (imm : BitVec 32) (s : State) : exec (.lix d imm) s = execLix d imm s := rfl
theorem exec_lihx (d : Reg) (imm : BitVec 32) (s : State) : exec (.lihx d imm) s = execLihx d imm s := rfl
theorem exec_addx (d : Reg) (a : Reg) (imm : BitVec 32) (s : State) : exec (.addx d a imm) s = execAddx d a imm s := rfl
theorem exec_beq (a : Reg) (b : Reg) (off : BitVec 11) (s : State) : exec (.beq a b off) s = execBeq a b off s := rfl
theorem exec_bne (a : Reg) (b : Reg) (off : BitVec 11) (s : State) : exec (.bne a b off) s = execBne a b off s := rfl
theorem exec_blt (a : Reg) (b : Reg) (off : BitVec 11) (s : State) : exec (.blt a b off) s = execBlt a b off s := rfl
theorem exec_bge (a : Reg) (b : Reg) (off : BitVec 11) (s : State) : exec (.bge a b off) s = execBge a b off s := rfl
theorem exec_bltu (a : Reg) (b : Reg) (off : BitVec 11) (s : State) : exec (.bltu a b off) s = execBltu a b off s := rfl
theorem exec_bgeu (a : Reg) (b : Reg) (off : BitVec 11) (s : State) : exec (.bgeu a b off) s = execBgeu a b off s := rfl
theorem exec_bset (a : Reg) (b : Reg) (off : BitVec 11) (s : State) : exec (.bset a b off) s = execBset a b off s := rfl
theorem exec_bclr (a : Reg) (b : Reg) (off : BitVec 11) (s : State) : exec (.bclr a b off) s = execBclr a b off s := rfl
theorem exec_jal (d : Reg) (off : BitVec 20) (s : State) : exec (.jal d off) s = execJal d off s := rfl
theorem exec_jalr (d : Reg) (a : Reg) (imm : BitVec 11) (s : State) : exec (.jalr d a imm) s = execJalr d a imm s := rfl
theorem exec_loop (lvl : BitVec 2) (len : BitVec 10) (s_ : Reg) (s : State) : exec (.loop lvl len s_) s = execLoop lvl len s_ s := rfl
theorem exec_loopi (lvl : BitVec 2) (len : BitVec 10) (cnt : BitVec 12) (s : State) : exec (.loopi lvl len cnt) s = execLoopi lvl len cnt s := rfl
theorem exec_loopk (lvl : BitVec 2) (len : BitVec 10) (k : BitVec 4) (s : State) : exec (.loopk lvl len k) s = execLoopk lvl len k s := rfl
theorem exec_loopm (lvl : BitVec 2) (len : BitVec 10) (s_ : Reg) (s : State) : exec (.loopm lvl len s_) s = execLoopm lvl len s_ s := rfl
theorem exec_qwait (qa : Handle) (qb : Option Handle) (qd : Option Handle) (n : BitVec 3) (s : State) : exec (.qwait qa qb qd n) s = execQwait qa qb qd n s := rfl
theorem exec_qroom (qa : Handle) (qb : Option Handle) (qd : Option Handle) (n : BitVec 3) (s : State) : exec (.qroom qa qb qd n) s = execQroom qa qb qd n s := rfl
theorem exec_qadv (qa : Handle) (qb : Option Handle) (qd : Option Handle) (n : BitVec 3) (s : State) : exec (.qadv qa qb qd n) s = execQadv qa qb qd n s := rfl
theorem exec_qadvp (qa : Handle) (qb : Option Handle) (qd : Option Handle) (n : BitVec 3) (s : State) : exec (.qadvp qa qb qd n) s = execQadvp qa qb qd n s := rfl
theorem exec_qrst (qa : Handle) (qb : Option Handle) (qd : Option Handle) (s : State) : exec (.qrst qa qb qd) s = execQrst qa qb qd s := rfl
theorem exec_qpop (d : Reg) (q : Handle) (s : State) : exec (.qpop d q) s = execQpop d q s := rfl
theorem exec_qpeek (d : Reg) (a : Reg) (q : Handle) (s : State) : exec (.qpeek d a q) s = execQpeek d a q s := rfl
theorem exec_qput (a : Reg) (q : Handle) (s : State) : exec (.qput a q) s = execQput a q s := rfl
theorem exec_qcfg (a : Reg) (q : Handle) (s : State) : exec (.qcfg a q) s = execQcfg a q s := rfl
theorem exec_qcnt (d : Reg) (q : Handle) (s : State) : exec (.qcnt d q) s = execQcnt d q s := rfl
theorem exec_bqt (q : Handle) (off : BitVec 11) (s : State) : exec (.bqt q off) s = execBqt q off s := rfl
theorem exec_bqf (q : Handle) (off : BitVec 11) (s : State) : exec (.bqf q off) s = execBqf q off s := rfl
theorem exec_nop (s : State) : exec .nop s = execNop s := rfl
theorem exec_rdv0 (s : State) : exec .rdv0 s = execRdv0 s := rfl
theorem exec_rdvEnd (s : State) : exec .rdvEnd s = execRdvEnd s := rfl
theorem exec_rdvStreamSet (set : BitVec 5) (s : State) : exec (.rdvStreamSet set) s = execRdvStreamSet set s := rfl
theorem exec_rdvComplete (n : CoreNo) (set : BitVec 5) (s : State) : exec (.rdvComplete n set) s = execRdvComplete n set s := rfl
theorem exec_pbar (tag : BitVec 3) (s : State) : exec (.pbar tag) s = execPbar tag s := rfl
theorem exec_pbara (tag : BitVec 3) (s : State) : exec (.pbara tag) s = execPbara tag s := rfl
theorem exec_pbarw (tag : BitVec 3) (s : State) : exec (.pbarw tag) s = execPbarw tag s := rfl
theorem exec_pennantArrival (n : CoreNo) (t : BitVec 3) (s : State) : exec (.pennantArrival n t) s = execPennantArrival n t s := rfl
theorem exec_pennantCompletion (p : PartNo) (c : CtxNo) (tag : BitVec 3) (s : State) : exec (.pennantCompletion p c tag) s = execPennantCompletion p c tag s := rfl
theorem exec_wfi (s : State) : exec .wfi s = execWfi s := rfl
theorem exec_ipref (a : Reg) (n : BitVec 6) (s : State) : exec (.ipref a n) s = execIpref a n s := rfl
theorem exec_rdc (d : Reg) (n : BitVec 12) (s : State) : exec (.rdc d n) s = execRdc d n s := rfl
theorem exec_wrc (d : Reg) (n : BitVec 12) (s : State) : exec (.wrc d n) s = execWrc d n s := rfl
theorem exec_rdk (d : Reg) (k : BitVec 4) (s : State) : exec (.rdk d k) s = execRdk d k s := rfl
theorem exec_rdcyc (d : Reg) (s : State) : exec (.rdcyc d) s = execRdcyc d s := rfl
theorem exec_rdid (d : Reg) (which : IdReg) (s : State) : exec (.rdid d which) s = execRdid d which s := rfl
theorem exec_rdloop (d : Reg) (level : BitVec 3) (s : State) : exec (.rdloop d level) s = execRdloop d level s := rfl
theorem exec_ldb (d : Reg) (a : Reg) (imm : BitVec 11) (s : State) : exec (.ldb d a imm) s = execLdb d a imm s := rfl
theorem exec_ldbs (d : Reg) (a : Reg) (imm : BitVec 11) (s : State) : exec (.ldbs d a imm) s = execLdbs d a imm s := rfl
theorem exec_ldh (d : Reg) (a : Reg) (imm : BitVec 11) (s : State) : exec (.ldh d a imm) s = execLdh d a imm s := rfl
theorem exec_ldhs (d : Reg) (a : Reg) (imm : BitVec 11) (s : State) : exec (.ldhs d a imm) s = execLdhs d a imm s := rfl
theorem exec_ldw (d : Reg) (a : Reg) (imm : BitVec 11) (s : State) : exec (.ldw d a imm) s = execLdw d a imm s := rfl
theorem exec_ldws (d : Reg) (a : Reg) (imm : BitVec 11) (s : State) : exec (.ldws d a imm) s = execLdws d a imm s := rfl
theorem exec_ldd (d : Reg) (a : Reg) (imm : BitVec 11) (s : State) : exec (.ldd d a imm) s = execLdd d a imm s := rfl
theorem exec_stb (d : Reg) (a : Reg) (imm : BitVec 11) (s : State) : exec (.stb d a imm) s = execStb d a imm s := rfl
theorem exec_sth (d : Reg) (a : Reg) (imm : BitVec 11) (s : State) : exec (.sth d a imm) s = execSth d a imm s := rfl
theorem exec_stw (d : Reg) (a : Reg) (imm : BitVec 11) (s : State) : exec (.stw d a imm) s = execStw d a imm s := rfl
theorem exec_std (d : Reg) (a : Reg) (imm : BitVec 11) (s : State) : exec (.std d a imm) s = execStd d a imm s := rfl
theorem exec_lsmark (s : State) : exec .lsmark s = execLsmark s := rfl
theorem exec_l1inv (a : Reg) (b : Reg) (s : State) : exec (.l1inv a b) s = execL1inv a b s := rfl
theorem exec_l1inva (s : State) : exec .l1inva s = execL1inva s := rfl
theorem exec_pref (a : Reg) (s : State) : exec (.pref a) s = execPref a s := rfl
theorem exec_own (d : Reg) (a : Reg) (b : Reg) (s : State) : exec (.own d a b) s = execOwn d a b s := rfl
theorem exec_disown (d : Reg) (a : Reg) (s : State) : exec (.disown d a) s = execDisown d a s := rfl
theorem exec_amoadd (d : Reg) (a : Reg) (b : Reg) (ord : Order) (wd : Width) (s : State) : exec (.amoadd d a b ord wd) s = execAmoadd d a b ord wd s := rfl
theorem exec_amoand (d : Reg) (a : Reg) (b : Reg) (ord : Order) (wd : Width) (s : State) : exec (.amoand d a b ord wd) s = execAmoand d a b ord wd s := rfl
theorem exec_amoor (d : Reg) (a : Reg) (b : Reg) (ord : Order) (wd : Width) (s : State) : exec (.amoor d a b ord wd) s = execAmoor d a b ord wd s := rfl
theorem exec_amoxor (d : Reg) (a : Reg) (b : Reg) (ord : Order) (wd : Width) (s : State) : exec (.amoxor d a b ord wd) s = execAmoxor d a b ord wd s := rfl
theorem exec_amomin (d : Reg) (a : Reg) (b : Reg) (ord : Order) (wd : Width) (s : State) : exec (.amomin d a b ord wd) s = execAmomin d a b ord wd s := rfl
theorem exec_amominu (d : Reg) (a : Reg) (b : Reg) (ord : Order) (wd : Width) (s : State) : exec (.amominu d a b ord wd) s = execAmominu d a b ord wd s := rfl
theorem exec_amomax (d : Reg) (a : Reg) (b : Reg) (ord : Order) (wd : Width) (s : State) : exec (.amomax d a b ord wd) s = execAmomax d a b ord wd s := rfl
theorem exec_amomaxu (d : Reg) (a : Reg) (b : Reg) (ord : Order) (wd : Width) (s : State) : exec (.amomaxu d a b ord wd) s = execAmomaxu d a b ord wd s := rfl
theorem exec_amoswp (d : Reg) (a : Reg) (b : Reg) (ord : Order) (wd : Width) (s : State) : exec (.amoswp d a b ord wd) s = execAmoswp d a b ord wd s := rfl
theorem exec_amocas (d : Reg) (a : Reg) (b : Reg) (ord : Order) (wd : Width) (s : State) : exec (.amocas d a b ord wd) s = execAmocas d a b ord wd s := rfl
theorem exec_amofadd (d : Reg) (a : Reg) (b : Reg) (ord : Order) (s : State) : exec (.amofadd d a b ord) s = execAmofadd d a b ord s := rfl
theorem exec_fence (s : State) : exec .fence s = execFence s := rfl
theorem exec_qfence (mask : BitVec 7) (s : State) : exec (.qfence mask) s = execQfence mask s := rfl
theorem exec_spawn (d : Reg) (a : Reg) (b : Reg) (s : State) : exec (.spawn d a b) s = execSpawn d a b s := rfl
theorem exec_spwait (d : Reg) (a : Reg) (s : State) : exec (.spwait d a) s = execSpwait d a s := rfl
theorem exec_sptest (d : Reg) (a : Reg) (s : State) : exec (.sptest d a) s = execSptest d a s := rfl
theorem exec_depdec (d : Reg) (a : Reg) (s : State) : exec (.depdec d a) s = execDepdec d a s := rfl
theorem exec_depinc (d : Reg) (a : Reg) (s : State) : exec (.depinc d a) s = execDepinc d a s := rfl
theorem exec_wlcfg (d : Reg) (a : Reg) (b : Reg) (s : State) : exec (.wlcfg d a b) s = execWlcfg d a b s := rfl
theorem exec_wlpush (d : Reg) (a : Reg) (b : Reg) (s : State) : exec (.wlpush d a b) s = execWlpush d a b s := rfl
theorem exec_wlins (d : Reg) (a : Reg) (b : Reg) (s : State) : exec (.wlins d a b) s = execWlins d a b s := rfl
theorem exec_wlpopb (d : Reg) (a : Reg) (b : Reg) (s : State) : exec (.wlpopb d a b) s = execWlpopb d a b s := rfl
theorem exec_wlcnt (d : Reg) (a : Reg) (s : State) : exec (.wlcnt d a) s = execWlcnt d a s := rfl
theorem exec_wldrain (d : Reg) (a : Reg) (s : State) : exec (.wldrain d a) s = execWldrain d a s := rfl
theorem exec_frnck (d : Reg) (a : Reg) (b : Reg) (s : State) : exec (.frnck d a b) s = execFrnck d a b s := rfl
theorem exec_frnput (d : Reg) (a : Reg) (b : Reg) (s : State) : exec (.frnput d a b) s = execFrnput d a b s := rfl
theorem exec_frninv (d : Reg) (a : Reg) (b : Reg) (s : State) : exec (.frninv d a b) s = execFrninv d a b s := rfl
theorem exec_frnstat (d : Reg) (a : Reg) (b : Reg) (s : State) : exec (.frnstat d a b) s = execFrnstat d a b s := rfl
theorem exec_frnflush (d : Reg) (a : Reg) (s : State) : exec (.frnflush d a) s = execFrnflush d a s := rfl
theorem exec_installation (n : CoreNo) (s : State) : exec (.installation n) s = execInstallation n s := rfl
theorem exec_vtadd (d : Reg) (a : Reg) (b : Reg) (s : State) : exec (.vtadd d a b) s = execVtadd d a b s := rfl
theorem exec_vtfadd (d : Reg) (a : Reg) (b : Reg) (s : State) : exec (.vtfadd d a b) s = execVtfadd d a b s := rfl
theorem exec_vtmax (d : Reg) (a : Reg) (b : Reg) (s : State) : exec (.vtmax d a b) s = execVtmax d a b s := rfl
theorem exec_vtcas (d : Reg) (a : Reg) (b : Reg) (s : State) : exec (.vtcas d a b) s = execVtcas d a b s := rfl
theorem exec_vtsac (d : Reg) (a : Reg) (b : Reg) (s : State) : exec (.vtsac d a b) s = execVtsac d a b s := rfl
theorem exec_bankSideOperation (n : CoreNo) (s : State) : exec (.bankSideOperation n) s = execBankSideOperation n s := rfl
theorem exec_trap (a : Reg) (s : State) : exec (.trap a) s = execTrap a s := rfl
theorem exec_eret (s : State) : exec .eret s = execEret s := rfl
theorem exec_uiret (s : State) : exec .uiret s = execUiret s := rfl
theorem exec_brk (s : State) : exec .brk s = execBrk s := rfl
theorem exec_sysc (a : Reg) (s : State) : exec (.sysc a) s = execSysc a s := rfl
theorem exec_rtfill (d : Reg) (a : Reg) (s : State) : exec (.rtfill d a) s = execRtfill d a s := rfl
theorem exec_rtnext (d : Reg) (s : State) : exec (.rtnext d) s = execRtnext d s := rfl
theorem exec_resume (d : Reg) (a : Reg) (s : State) : exec (.resume d a) s = execResume d a s := rfl
theorem exec_kill (d : Reg) (a : Reg) (s : State) : exec (.kill d a) s = execKill d a s := rfl
theorem exec_tlbinv (a : Reg) (b : Reg) (s : State) : exec (.tlbinv a b) s = execTlbinv a b s := rfl
theorem exec_apcfg (p : Pat) (a : Reg) (b : Reg) (space : Space) (lge : BitVec 4) (dims : BitVec 2) (s : State) : exec (.apcfg p a b space lge dims) s = execApcfg p a b space lge dims s := rfl
theorem exec_astrm (q : Handle) (p : Pat) (n : BitVec 3) (s : State) : exec (.astrm q p n) s = execAstrm q p n s := rfl
theorem exec_astro (q : Handle) (p : Pat) (n : BitVec 3) (s : State) : exec (.astro q p n) s = execAstro q p n s := rfl
theorem exec_agath (q : Handle) (qi : Handle) (p : Pat) (n : BitVec 3) (s : State) : exec (.agath q qi p n) s = execAgath q qi p n s := rfl
theorem exec_ascat (q : Handle) (qi : Handle) (p : Pat) (n : BitVec 3) (s : State) : exec (.ascat q qi p n) s = execAscat q qi p n s := rfl
theorem exec_awcfg (d : Reg) (a : Reg) (b : Reg) (space : Space) (lge : BitVec 2) (s : State) : exec (.awcfg d a b space lge) s = execAwcfg d a b space lge s := rfl
theorem exec_awin (q : Handle) (n : BitVec 3) (s : State) : exec (.awin q n) s = execAwin q n s := rfl
theorem exec_awpass (d : Reg) (a : Reg) (s : State) : exec (.awpass d a) s = execAwpass d a s := rfl
theorem exec_aprf (a : Reg) (p : Pat) (s : State) : exec (.aprf a p) s = execAprf a p s := rfl
theorem exec_aqOperationPerformed (n : CoreNo) (s : State) : exec (.aqOperationPerformed n) s = execAqOperationPerformed n s := rfl
theorem exec_vadd (d : VReg) (a : VReg) (b : VReg) (s : State) : exec (.vadd d a b) s = execVadd d a b s := rfl
theorem exec_vsub (d : VReg) (a : VReg) (b : VReg) (s : State) : exec (.vsub d a b) s = execVsub d a b s := rfl
theorem exec_vmul (d : VReg) (a : VReg) (b : VReg) (s : State) : exec (.vmul d a b) s = execVmul d a b s := rfl
theorem exec_vfma (d : VReg) (a : VReg) (b : VReg) (s : State) : exec (.vfma d a b) s = execVfma d a b s := rfl
theorem exec_vfms (d : VReg) (a : VReg) (b : VReg) (s : State) : exec (.vfms d a b) s = execVfms d a b s := rfl
theorem exec_vfnma (d : VReg) (a : VReg) (b : VReg) (s : State) : exec (.vfnma d a b) s = execVfnma d a b s := rfl
theorem exec_vmin (d : VReg) (a : VReg) (b : VReg) (s : State) : exec (.vmin d a b) s = execVmin d a b s := rfl
theorem exec_vmax (d : VReg) (a : VReg) (b : VReg) (s : State) : exec (.vmax d a b) s = execVmax d a b s := rfl
theorem exec_vminp (d : VReg) (a : VReg) (b : VReg) (s : State) : exec (.vminp d a b) s = execVminp d a b s := rfl
theorem exec_vmaxp (d : VReg) (a : VReg) (b : VReg) (s : State) : exec (.vmaxp d a b) s = execVmaxp d a b s := rfl
theorem exec_vabs (d : VReg) (a : VReg) (s : State) : exec (.vabs d a) s = execVabs d a s := rfl
theorem exec_vneg (d : VReg) (a : VReg) (s : State) : exec (.vneg d a) s = execVneg d a s := rfl
theorem exec_vdiv (d : VReg) (a : VReg) (b : VReg) (s : State) : exec (.vdiv d a b) s = execVdiv d a b s := rfl
theorem exec_vsqrt (d : VReg) (a : VReg) (s : State) : exec (.vsqrt d a) s = execVsqrt d a s := rfl
theorem exec_vsgn (d : VReg) (a : VReg) (s : State) : exec (.vsgn d a) s = execVsgn d a s := rfl
theorem exec_vand (d : VReg) (a : VReg) (b : VReg) (s : State) : exec (.vand d a b) s = execVand d a b s := rfl
theorem exec_vor (d : VReg) (a : VReg) (b : VReg) (s : State) : exec (.vor d a b) s = execVor d a b s := rfl
theorem exec_vxor (d : VReg) (a : VReg) (b : VReg) (s : State) : exec (.vxor d a b) s = execVxor d a b s := rfl
theorem exec_vnot (d : VReg) (a : VReg) (s : State) : exec (.vnot d a) s = execVnot d a s := rfl
theorem exec_vsll (d : VReg) (a : VReg) (b : VReg) (s : State) : exec (.vsll d a b) s = execVsll d a b s := rfl
theorem exec_vsrl (d : VReg) (a : VReg) (b : VReg) (s : State) : exec (.vsrl d a b) s = execVsrl d a b s := rfl
theorem exec_vsra (d : VReg) (a : VReg) (b : VReg) (s : State) : exec (.vsra d a b) s = execVsra d a b s := rfl
theorem exec_vaddsat (d : VReg) (a : VReg) (b : VReg) (s : State) : exec (.vaddsat d a b) s = execVaddsat d a b s := rfl
theorem exec_vsubsat (d : VReg) (a : VReg) (b : VReg) (s : State) : exec (.vsubsat d a b) s = execVsubsat d a b s := rfl
theorem exec_vmulhi (d : VReg) (a : VReg) (b : VReg) (s : State) : exec (.vmulhi d a b) s = execVmulhi d a b s := rfl
theorem exec_vceq (d : MReg) (a : VReg) (b : VReg) (s : State) : exec (.vceq d a b) s = execVceq d a b s := rfl
theorem exec_vcne (d : MReg) (a : VReg) (b : VReg) (s : State) : exec (.vcne d a b) s = execVcne d a b s := rfl
theorem exec_vclt (d : MReg) (a : VReg) (b : VReg) (s : State) : exec (.vclt d a b) s = execVclt d a b s := rfl
theorem exec_vcle (d : MReg) (a : VReg) (b : VReg) (s : State) : exec (.vcle d a b) s = execVcle d a b s := rfl
theorem exec_vcgt (d : MReg) (a : VReg) (b : VReg) (s : State) : exec (.vcgt d a b) s = execVcgt d a b s := rfl
theorem exec_vcge (d : MReg) (a : VReg) (b : VReg) (s : State) : exec (.vcge d a b) s = execVcge d a b s := rfl
theorem exec_vcun (d : MReg) (a : VReg) (b : VReg) (s : State) : exec (.vcun d a b) s = execVcun d a b s := rfl
theorem exec_vsel (d : VReg) (a : VReg) (b : MReg) (s : State) : exec (.vsel d a b) s = execVsel d a b s := rfl
theorem exec_mand (d : MReg) (a : MReg) (b : MReg) (s : State) : exec (.mand d a b) s = execMand d a b s := rfl
theorem exec_mor (d : MReg) (a : MReg) (b : MReg) (s : State) : exec (.mor d a b) s = execMor d a b s := rfl
theorem exec_mxor (d : MReg) (a : MReg) (b : MReg) (s : State) : exec (.mxor d a b) s = execMxor d a b s := rfl
theorem exec_mnot (d : MReg) (a : MReg) (s : State) : exec (.mnot d a) s = execMnot d a s := rfl
theorem exec_mpop (d : Reg) (a : MReg) (s : State) : exec (.mpop d a) s = execMpop d a s := rfl
theorem exec_mfirst (d : Reg) (a : MReg) (s : State) : exec (.mfirst d a) s = execMfirst d a s := rfl
theorem exec_vcvt (d : VReg) (a : VReg) (h : BitVec 1) (t : CvtType) (rm : Rounding) (sat : Bool) (s : State) : exec (.vcvt d a h t rm sat) s = execVcvt d a h t rm sat s := rfl
theorem exec_vrsum (d : VReg) (a : VReg) (m : MReg) (s : State) : exec (.vrsum d a m) s = execVrsum d a m s := rfl
theorem exec_vrmax (d : VReg) (a : VReg) (m : MReg) (s : State) : exec (.vrmax d a m) s = execVrmax d a m s := rfl
theorem exec_vrmin (d : VReg) (a : VReg) (m : MReg) (s : State) : exec (.vrmin d a m) s = execVrmin d a m s := rfl
theorem exec_vscan (d : VReg) (a : VReg) (o : ScanOp) (m : MReg) (s : State) : exec (.vscan d a o m) s = execVscan d a o m s := rfl
theorem exec_vmov (d : VReg) (a : VReg) (s : State) : exec (.vmov d a) s = execVmov d a s := rfl
theorem exec_vbcast (d : VReg) (a : Reg) (s : State) : exec (.vbcast d a) s = execVbcast d a s := rfl
theorem exec_vext (d : Reg) (a : VReg) (b : Reg) (s : State) : exec (.vext d a b) s = execVext d a b s := rfl
theorem exec_vins (d : VReg) (a : Reg) (b : Reg) (s : State) : exec (.vins d a b) s = execVins d a b s := rfl
theorem exec_vperm (d : VReg) (a : VReg) (b : VReg) (s : State) : exec (.vperm d a b) s = execVperm d a b s := rfl
theorem exec_vrot (d : VReg) (a : VReg) (b : Reg) (s : State) : exec (.vrot d a b) s = execVrot d a b s := rfl
theorem exec_vidx (d : VReg) (a : Reg) (s : State) : exec (.vidx d a) s = execVidx d a s := rfl
theorem exec_vpack (d : VReg) (a : VReg) (b : VReg) (s : State) : exec (.vpack d a b) s = execVpack d a b s := rfl
theorem exec_vunpk (d : VReg) (a : VReg) (h : BitVec 1) (s : State) : exec (.vunpk d a h) s = execVunpk d a h s := rfl
theorem exec_vld (d : VReg) (a : Reg) (n : BitVec 6) (s : State) : exec (.vld d a n) s = execVld d a n s := rfl
theorem exec_vst (d : VReg) (a : Reg) (n : BitVec 6) (s : State) : exec (.vst d a n) s = execVst d a n s := rfl
theorem exec_vldq (d : VReg) (q : Handle) (n : BitVec 3) (s : State) : exec (.vldq d q n) s = execVldq d q n s := rfl
theorem exec_vstq (d : VReg) (q : Handle) (n : BitVec 3) (s : State) : exec (.vstq d q n) s = execVstq d q n s := rfl
theorem exec_vgat (d : VReg) (a : VReg) (b : Reg) (s : State) : exec (.vgat d a b) s = execVgat d a b s := rfl
theorem exec_vsct (d : VReg) (a : VReg) (b : Reg) (s : State) : exec (.vsct d a b) s = execVsct d a b s := rfl
theorem exec_swait (n : BitVec 6) (s : State) : exec (.swait n) s = execSwait n s := rfl
theorem exec_vqOperationPerformed (n : CoreNo) (s : State) : exec (.vqOperationPerformed n) s = execVqOperationPerformed n s := rfl
theorem exec_vpart (q : Handle) (a : VReg) (b : MReg) (s : State) : exec (.vpart q a b) s = execVpart q a b s := rfl
theorem exec_vcmpk (d : VReg) (a : VReg) (b : MReg) (s : State) : exec (.vcmpk d a b) s = execVcmpk d a b s := rfl
theorem exec_vexpd (d : VReg) (a : VReg) (b : MReg) (s : State) : exec (.vexpd d a b) s = execVexpd d a b s := rfl
theorem exec_vtcfg (t : BitVec 2) (a : Reg) (b : Reg) (kind : BitVec 1) (hi : OobMode) (lo : OobMode) (e : BitVec 8) (nm1 : BitVec 12) (s : State) : exec (.vtcfg t a b kind hi lo e nm1) s = execVtcfg t a b kind hi lo e nm1 s := rfl
theorem exec_vtab (d : VReg) (a : VReg) (t : BitVec 2) (s : State) : exec (.vtab d a t) s = execVtab d a t s := rfl
theorem exec_vtabl (d : VReg) (a : VReg) (t : BitVec 2) (s : State) : exec (.vtabl d a t) s = execVtabl d a t s := rfl
theorem exec_vtabq (d : VReg) (a : VReg) (t : BitVec 2) (s : State) : exec (.vtabq d a t) s = execVtabq d a t s := rfl
theorem exec_vexp2 (d : VReg) (a : VReg) (s : State) : exec (.vexp2 d a) s = execVexp2 d a s := rfl
theorem exec_vlog2 (d : VReg) (a : VReg) (s : State) : exec (.vlog2 d a) s = execVlog2 d a s := rfl
theorem exec_flmatch (h : BitVec 3) (a : Reg) (b : Reg) (s : State) : exec (.flmatch h a b) s = execFlmatch h a b s := rfl
theorem exec_flmerge (h : BitVec 3) (a : Reg) (b : Reg) (s : State) : exec (.flmerge h a b) s = execFlmerge h a b s := rfl
theorem exec_flunmg (h : BitVec 3) (a : Reg) (b : Reg) (s : State) : exec (.flunmg h a b) s = execFlunmg h a b s := rfl
theorem exec_flsize (d : VReg) (h : BitVec 3) (b : Reg) (s : State) : exec (.flsize d h b) s = execFlsize d h b s := rfl
theorem exec_flsig (d : Reg) (h : BitVec 3) (s : State) : exec (.flsig d h) s = execFlsig d h s := rfl
theorem exec_flsave (h : BitVec 3) (a : Reg) (s : State) : exec (.flsave h a) s = execFlsave h a s := rfl
theorem exec_flload (h : BitVec 3) (a : Reg) (s : State) : exec (.flload h a) s = execFlload h a s := rfl
theorem exec_flfree (h : BitVec 3) (s : State) : exec (.flfree h) s = execFlfree h s := rfl
theorem exec_vsmx (d : VReg) (a : VReg) (b : Reg) (s : State) : exec (.vsmx d a b) s = execVsmx d a b s := rfl
theorem exec_vsmxs (d : VReg) (a : VReg) (b : Reg) (s : State) : exec (.vsmxs d a b) s = execVsmxs d a b s := rfl
theorem exec_prunepk (d : MReg) (a : VReg) (lgm : BitVec 2) (nk : BitVec 4) (s : State) : exec (.prunepk d a lgm nk) s = execPrunepk d a lgm nk s := rfl
theorem exec_prunepkt (d : MReg) (a : VReg) (lgm : BitVec 2) (nk : BitVec 4) (s : State) : exec (.prunepkt d a lgm nk) s = execPrunepkt d a lgm nk s := rfl
theorem exec_mdpack (d : VReg) (w : BitVec 1) (k : MReg) (lgm : BitVec 2) (nk : BitVec 4) (s : State) : exec (.mdpack d w k lgm nk) s = execMdpack d w k lgm nk s := rfl
theorem exec_mdchk (d : Reg) (a : VReg) (b : Reg) (s : State) : exec (.mdchk d a b) s = execMdchk d a b s := rfl
theorem exec_mmac (acc : TileNo) (qa : Handle) (qb : Handle) (qm : Handle) (s : State) : exec (.mmac acc qa qb qm) s = execMmac acc qa qb qm s := rfl
theorem exec_mmacs (acc : TileNo) (qa : Handle) (qb : Handle) (qm : Handle) (s : State) : exec (.mmacs acc qa qb qm) s = execMmacs acc qa qb qm s := rfl
theorem exec_mmacg (acc : TileNo) (qa : Handle) (qb : Handle) (qm : Handle) (s : State) : exec (.mmacg acc qa qb qm) s = execMmacg acc qa qb qm s := rfl
theorem exec_mmacsg (acc : TileNo) (qa : Handle) (qb : Handle) (qm : Handle) (s : State) : exec (.mmacsg acc qa qb qm) s = execMmacsg acc qa qb qm s := rfl
theorem exec_mclr (acc : TileNo) (s : State) : exec (.mclr acc) s = execMclr acc s := rfl
theorem exec_mcfg (s_ : BitVec 5) (s : State) : exec (.mcfg s_) s = execMcfg s_ s := rfl
theorem exec_mhdr (s_ : BitVec 5) (qm : Handle) (s : State) : exec (.mhdr s_ qm) s = execMhdr s_ qm s := rfl
theorem exec_mtrn (acc : TileNo) (src : TileNo) (s : State) : exec (.mtrn acc src) s = execMtrn acc src s := rfl
theorem exec_mqOperationStart (n : CoreNo) (s : State) : exec (.mqOperationStart n) s = execMqOperationStart n s := rfl
theorem exec_matrixStep (n : CoreNo) (s : State) : exec (.matrixStep n) s = execMatrixStep n s := rfl
theorem exec_mqOperationPerformed (n : CoreNo) (s : State) : exec (.mqOperationPerformed n) s = execMqOperationPerformed n s := rfl
theorem exec_xcpy (d : Reg) (a : Reg) (b : Reg) (ss : Space) (ds : Space) (s : State) : exec (.xcpy d a b ss ds) s = execXcpy d a b ss ds s := rfl
theorem exec_xcp2 (d : Reg) (a : Reg) (b : Reg) (ss : Space) (ds : Space) (s : State) : exec (.xcp2 d a b ss ds) s = execXcp2 d a b ss ds s := rfl
theorem exec_xcp3 (d : Reg) (a : Reg) (b : Reg) (ss : Space) (ds : Space) (s : State) : exec (.xcp3 d a b ss ds) s = execXcp3 d a b ss ds s := rfl
theorem exec_xcvt (d : Reg) (a : Reg) (b : Reg) (ss : Space) (ds : Space) (st : BitVec 4) (dt : BitVec 4) (rm : Rounding) (sr : BitVec 1) (sat : BitVec 1) (s : State) : exec (.xcvt d a b ss ds st dt rm sr sat) s = execXcvt d a b ss ds st dt rm sr sat s := rfl
theorem exec_xmcast (d : Reg) (a : Reg) (b : Reg) (rows : BitVec 8) (cols : BitVec 16) (s : State) : exec (.xmcast d a b rows cols) s = execXmcast d a b rows cols s := rfl
theorem exec_xflw (f : Follow) (s : State) : exec (.xflw f) s = execXflw f s := rfl
theorem exec_xvop (d : Reg) (a : Reg) (b : Reg) (op : VaultOp) (va : BitVec 1) (s : State) : exec (.xvop d a b op va) s = execXvop d a b op va s := rfl
theorem exec_xrem (d : Reg) (a : Reg) (b : Reg) (pkg : BitVec 5) (s : State) : exec (.xrem d a b pkg) s = execXrem d a b pkg s := rfl
theorem exec_xwait (d : Reg) (n : BitVec 7) (mask : BitVec 2) (s : State) : exec (.xwait d n mask) s = execXwait d n mask s := rfl
theorem exec_xcmpl (a : Reg) (act : Action) (qrec : BitVec 1) (h : Handle) (s : State) : exec (.xcmpl a act qrec h) s = execXcmpl a act qrec h s := rfl
theorem exec_copyCommandPerformed (n : CoreNo) (q : XQueue) (s : State) : exec (.copyCommandPerformed n q) s = execCopyCommandPerformed n q s := rfl
theorem exec_completionRecord (n : CoreNo) (s : State) : exec (.completionRecord n) s = execCompletionRecord n s := rfl
theorem exec_txinit (a : Reg) (s : State) : exec (.txinit a) s = execTxinit a s := rfl
theorem exec_txexp (d : Reg) (a : Reg) (b : Reg) (s : State) : exec (.txexp d a b) s = execTxexp d a b s := rfl
theorem exec_txarr (a : Reg) (b : Reg) (s : State) : exec (.txarr a b) s = execTxarr a b s := rfl
theorem exec_txwait (d : Reg) (a : Reg) (b : Reg) (s : State) : exec (.txwait d a b) s = execTxwait d a b s := rfl
theorem exec_txtest (d : Reg) (a : Reg) (b : Reg) (s : State) : exec (.txtest d a b) s = execTxtest d a b s := rfl
theorem exec_intakePacketTake (p : PartNo) (q : BitVec 2) (s : State) : exec (.intakePacketTake p q) s = execIntakePacketTake p q s := rfl
theorem exec_userInterruptDelivery (n : CoreNo) (s : State) : exec (.userInterruptDelivery n) s = execUserInterruptDelivery n s := rfl
theorem exec_dispatchRound (p : PartNo) (s : State) : exec (.dispatchRound p) s = execDispatchRound p s := rfl
theorem exec_probeOutcome (p : PartNo) (c : CtxNo) (node : BitVec 10) (tile : BitVec 24) (s : State) : exec (.probeOutcome p c node tile) s = execProbeOutcome p c node tile s := rfl
theorem exec_reuseCopyPerformed (p : PartNo) (c : CtxNo) (node : BitVec 10) (tile : BitVec 24) (s : State) : exec (.reuseCopyPerformed p c node tile) s = execReuseCopyPerformed p c node tile s := rfl
theorem exec_jobStart (n : CoreNo) (s : State) : exec (.jobStart n) s = execJobStart n s := rfl
theorem exec_jobRetire (n : CoreNo) (s : State) : exec (.jobRetire n) s = execJobRetire n s := rfl
theorem exec_watchdogDeadlock (n : CoreNo) (s : State) : exec (.watchdogDeadlock n) s = execWatchdogDeadlock n s := rfl
theorem exec_stallWindowExpiry (p : PartNo) (s : State) : exec (.stallWindowExpiry p) s = execStallWindowExpiry p s := rfl
theorem exec_sliceEnd (p : PartNo) (s : State) : exec (.sliceEnd p) s = execSliceEnd p s := rfl
theorem exec_switchBudgetExpiry (n : CoreNo) (s : State) : exec (.switchBudgetExpiry n) s = execSwitchBudgetExpiry n s := rfl
theorem exec_npbudgetExpiry (n : CoreNo) (s : State) : exec (.npbudgetExpiry n) s = execNpbudgetExpiry n s := rfl
theorem exec_trapDelivery (n : CoreNo) (s : State) : exec (.trapDelivery n) s = execTrapDelivery n s := rfl
theorem exec_calendarSlotIssue (n : CoreNo) (q : MQueue) (s : State) : exec (.calendarSlotIssue n q) s = execCalendarSlotIssue n q s := rfl
theorem exec_homeSlicePerform (n : CoreNo) (q : MQueue) (s : State) : exec (.homeSlicePerform n q) s = execHomeSlicePerform n q s := rfl
theorem exec_readCompletion (n : CoreNo) (s : State) : exec (.readCompletion n) s = execReadCompletion n s := rfl
theorem exec_writeAck (n : CoreNo) (s : State) : exec (.writeAck n) s = execWriteAck n s := rfl
theorem exec_translationWalkComplete (n : CoreNo) (va : Word) (s : State) : exec (.translationWalkComplete n va) s = execTranslationWalkComplete n va s := rfl
theorem exec_windowAccessArrival (n : CoreNo) (q : MQueue) (s : State) : exec (.windowAccessArrival n q) s = execWindowAccessArrival n q s := rfl
theorem exec_go (p : PartNo) (c : CtxNo) (stop : Bool) (s : State) : exec (.go p c stop) s = execGo p c stop s := rfl
theorem exec_stop (p : PartNo) (c : CtxNo) (s : State) : exec (.stop p c) s = execStop p c s := rfl
theorem exec_stepRecordArrival (p : PartNo) (c : CtxNo) (s : State) : exec (.stepRecordArrival p c) s = execStepRecordArrival p c s := rfl
theorem exec_snapshotCommit (p : PartNo) (c : CtxNo) (s : State) : exec (.snapshotCommit p c) s = execSnapshotCommit p c s := rfl
theorem exec_rollbackRequest (p : PartNo) (c : CtxNo) (s : State) : exec (.rollbackRequest p c) s = execRollbackRequest p c s := rfl
theorem exec_rollback (p : PartNo) (c : CtxNo) (s : State) : exec (.rollback p c) s = execRollback p c s := rfl
theorem exec_vaultBankFailure (n : CoreNo) (bank : BitVec 6) (all : Bool) (s : State) : exec (.vaultBankFailure n bank all) s = execVaultBankFailure n bank all s := rfl
theorem exec_graphLoad (p : PartNo) (c : CtxNo) (s : State) : exec (.graphLoad p c) s = execGraphLoad p c s := rfl
theorem exec_graphUnload (p : PartNo) (c : CtxNo) (s : State) : exec (.graphUnload p c) s = execGraphUnload p c s := rfl
theorem exec_graphCommandEnd (p : PartNo) (c : CtxNo) (s : State) : exec (.graphCommandEnd p c) s = execGraphCommandEnd p c s := rfl
theorem exec_contextEnable (p : PartNo) (c : CtxNo) (en : Bool) (s : State) : exec (.contextEnable p c en) s = execContextEnable p c en s := rfl
theorem exec_vaultRangeDeclare (p : PartNo) (c : CtxNo) (v : Word) (s : State) : exec (.vaultRangeDeclare p c v) s = execVaultRangeDeclare p c v s := rfl
theorem exec_pbsetWrite (p : PartNo) (c : CtxNo) (tag : BitVec 3) (v : BitVec 320) (s : State) : exec (.pbsetWrite p c tag v) s = execPbsetWrite p c tag v s := rfl
theorem exec_releaseDeliver (p : PartNo) (n : CoreNo) (s : State) : exec (.releaseDeliver p n) s = execReleaseDeliver p n s := rfl
theorem exec_releaseKill (p : PartNo) (n : CoreNo) (s : State) : exec (.releaseKill p n) s = execReleaseKill p n s := rfl
theorem exec_vacate (n : CoreNo) (s : State) : exec (.vacate n) s = execVacate n s := rfl
theorem exec_throtnWrite (n : CoreNo) (v : Word) (s : State) : exec (.throtnWrite n v) s = execThrotnWrite n v s := rfl
theorem exec_sensorUpdate (sensor : BitVec 9) (raw : BitVec 16) (s : State) : exec (.sensorUpdate sensor raw) s = execSensorUpdate sensor raw s := rfl
theorem exec_mgmtTrapEntry (cause : Byte) (faddr : BitVec 32) (s : State) : exec (.mgmtTrapEntry cause faddr) s = execMgmtTrapEntry cause faddr s := rfl
theorem exec_columnEnterC1 (n : CoreNo) (s : State) : exec (.columnEnterC1 n) s = execColumnEnterC1 n s := rfl
theorem exec_columnEnterDeep (n : CoreNo) (s : State) : exec (.columnEnterDeep n) s = execColumnEnterDeep n s := rfl
theorem exec_columnWake (n : CoreNo) (s : State) : exec (.columnWake n) s = execColumnWake n s := rfl
theorem exec_flitReceive (port : BitVec 4) (raw : List Byte) (f : Flit) (s : State) : exec (.flitReceive port raw f) s = execFlitReceive port raw f s := rfl
theorem exec_remoteStoreAck (n : CoreNo) (cause : Byte) (s : State) : exec (.remoteStoreAck n cause) s = execRemoteStoreAck n cause s := rfl
theorem exec_ingressRelease (p : PartNo) (s : State) : exec (.ingressRelease p) s = execIngressRelease p s := rfl
theorem exec_hostRequest (r : HostReq) (s : State) : exec (.hostRequest r) s = execHostRequest r s := rfl
theorem exec_bootgo (s : State) : exec .bootgo s = execBootgo s := rfl
theorem exec_bootImageLoaded (s : State) : exec .bootImageLoaded s = execBootImageLoaded s := rfl
theorem exec_attgo (fn : BitVec 5) (s : State) : exec (.attgo fn) s = execAttgo fn s := rfl
theorem exec_attestationDone (fn : BitVec 5) (s : State) : exec (.attestationDone fn) s = execAttestationDone fn s := rfl
theorem exec_warmrst (s : State) : exec .warmrst s = execWarmrst s := rfl
theorem exec_coldReset (s : State) : exec .coldReset s = execColdReset s := rfl
theorem exec_functionLevelReset (p : PartNo) (s : State) : exec (.functionLevelReset p) s = execFunctionLevelReset p s := rfl
theorem exec_packagePowerLoss (s : State) : exec .packagePowerLoss s = execPackagePowerLoss s := rfl
theorem exec_registerWrite (r : RegWrite) (s : State) : exec (.registerWrite r) s = execRegisterWrite r s := rfl
theorem exec_illegalEncoding (s : State) : exec .illegalEncoding s = execIllegalEncoding s := rfl
theorem exec_fabricAccessCompletion (n : CoreNo) (q : MQueue) (ur : Bool) (s : State) : exec (.fabricAccessCompletion n q ur) s = execFabricAccessCompletion n q ur s := rfl
theorem exec_repairReplay (s : State) : exec .repairReplay s = execRepairReplay s := rfl
theorem exec_frozenPortRelease (p : PartNo) (port : BitVec 4) (s : State) : exec (.frozenPortRelease p port) s = execFrozenPortRelease p port s := rfl

end Sys2Proof.Machine
end

