-- ==== Sys2Proof/Laws/Issued.lean ====
section
/-! SUPPORT. How each instruction word issues: the words it has, the streams that execute its major opcode (R34, R142) and whether it is for the supervisor alone (R141). What follows from that: it always answers a next state, changes nothing where its agent may not issue, and raises ILLEGAL on another stream. -/

namespace Sys2Proof.Machine

/-- An answer is that of an instruction of so many words, of these streams and this privilege, issued in s. -/
def Issued (words : Nat) (ss : List Sid) (sup : Bool) (s : State) (r : Result) : Prop := ∃ nd body, nd.streams = ss ∧ nd.sup = sup ∧ r = issue words nd s body

theorem Issued.answers {words : Nat} {ss : List Sid} {sup : Bool} {s : State} {r : Result} (h : Issued words ss sup s r) : ∃ t, r = .next t := by
  obtain ⟨nd, body, -, -, rfl⟩ := h
  unfold issue
  dsimp only
  repeat' split
  all_goals exact ⟨_, rfl⟩

theorem Issued.idle {words : Nat} {ss : List Sid} {sup : Bool} {s : State} {r : Result} (h : Issued words ss sup s r) (hi : canIssue s s.turn = false) : r = .next s := by
  obtain ⟨nd, body, -, -, rfl⟩ := h
  simp [issue, hi]

theorem Issued.stranger {words : Nat} {ss : List Sid} {sup : Bool} {s : State} {r : Result} (h : Issued words ss sup s r) (hi : canIssue s s.turn = true)
    {n j : Nat} {t : Sid} (ht : s.turn = .stream n j t) (hs : t ∉ ss) : r = trapsWith s { cause := cIllegal } := by
  obtain ⟨nd, body, rfl, -, rfl⟩ := h
  simp [issue, ht, issueCheck, hs, trapsWith] at *
  simp [hi]

theorem Issued.privilege {words : Nat} {ss : List Sid} {s : State} {r : Result} (h : Issued words ss true s r) (hi : canIssue s s.turn = true)
    {n j : Nat} {t : Sid} (ht : s.turn = .stream n j t) (hs : t ∈ ss) (hw : cutByLoop (streamOf s s.turn) words = false) (hv : supervisor s s.turn = false) :
    r = trapsWith s { cause := cPriv } := by
  obtain ⟨nd, body, rfl, hsup, rfl⟩ := h
  rw [ht] at hi hw hv
  simp [issue, hi, ht, issueCheck, hs, hw, hv, hsup, trapsWith]

theorem issued_add (d : Reg) (a : Reg) (b : Reg) (s : State) : Issued 1 allSids false s (execAdd d a b s) := by
  unfold execAdd aluOp; exact ⟨_, _, rfl, rfl, rfl⟩
theorem issued_sub (d : Reg) (a : Reg) (b : Reg) (s : State) : Issued 1 allSids false s (execSub d a b s) := by
  unfold execSub aluOp; exact ⟨_, _, rfl, rfl, rfl⟩
theorem issued_and (d : Reg) (a : Reg) (b : Reg) (s : State) : Issued 1 allSids false s (execAnd d a b s) := by
  unfold execAnd aluOp; exact ⟨_, _, rfl, rfl, rfl⟩
theorem issued_or (d : Reg) (a : Reg) (b : Reg) (s : State) : Issued 1 allSids false s (execOr d a b s) := by
  unfold execOr aluOp; exact ⟨_, _, rfl, rfl, rfl⟩
theorem issued_xor (d : Reg) (a : Reg) (b : Reg) (s : State) : Issued 1 allSids false s (execXor d a b s) := by
  unfold execXor aluOp; exact ⟨_, _, rfl, rfl, rfl⟩
theorem issued_andn (d : Reg) (a : Reg) (b : Reg) (s : State) : Issued 1 allSids false s (execAndn d a b s) := by
  unfold execAndn aluOp; exact ⟨_, _, rfl, rfl, rfl⟩
theorem issued_sll (d : Reg) (a : Reg) (b : Reg) (s : State) : Issued 1 allSids false s (execSll d a b s) := by
  unfold execSll aluOp; exact ⟨_, _, rfl, rfl, rfl⟩
theorem issued_srl (d : Reg) (a : Reg) (b : Reg) (s : State) : Issued 1 allSids false s (execSrl d a b s) := by
  unfold execSrl aluOp; exact ⟨_, _, rfl, rfl, rfl⟩
theorem issued_sra (d : Reg) (a : Reg) (b : Reg) (s : State) : Issued 1 allSids false s (execSra d a b s) := by
  unfold execSra aluOp; exact ⟨_, _, rfl, rfl, rfl⟩
theorem issued_rol (d : Reg) (a : Reg) (b : Reg) (s : State) : Issued 1 allSids false s (execRol d a b s) := by
  unfold execRol aluOp; exact ⟨_, _, rfl, rfl, rfl⟩
theorem issued_mul (d : Reg) (a : Reg) (b : Reg) (s : State) : Issued 1 allSids false s (execMul d a b s) := by
  unfold execMul aluOp; exact ⟨_, _, rfl, rfl, rfl⟩
theorem issued_mulh (d : Reg) (a : Reg) (b : Reg) (s : State) : Issued 1 allSids false s (execMulh d a b s) := by
  unfold execMulh aluOp; exact ⟨_, _, rfl, rfl, rfl⟩
theorem issued_mulhu (d : Reg) (a : Reg) (b : Reg) (s : State) : Issued 1 allSids false s (execMulhu d a b s) := by
  unfold execMulhu aluOp; exact ⟨_, _, rfl, rfl, rfl⟩
theorem issued_div (d : Reg) (a : Reg) (b : Reg) (s : State) : Issued 1 allSids false s (execDiv d a b s) := by
  unfold execDiv aluOp; exact ⟨_, _, rfl, rfl, rfl⟩
theorem issued_divu (d : Reg) (a : Reg) (b : Reg) (s : State) : Issued 1 allSids false s (execDivu d a b s) := by
  unfold execDivu aluOp; exact ⟨_, _, rfl, rfl, rfl⟩
theorem issued_rem (d : Reg) (a : Reg) (b : Reg) (s : State) : Issued 1 allSids false s (execRem d a b s) := by
  unfold execRem aluOp; exact ⟨_, _, rfl, rfl, rfl⟩
theorem issued_remu (d : Reg) (a : Reg) (b : Reg) (s : State) : Issued 1 allSids false s (execRemu d a b s) := by
  unfold execRemu aluOp; exact ⟨_, _, rfl, rfl, rfl⟩
theorem issued_min (d : Reg) (a : Reg) (b : Reg) (s : State) : Issued 1 allSids false s (execMin d a b s) := by
  unfold execMin aluOp; exact ⟨_, _, rfl, rfl, rfl⟩
theorem issued_minu (d : Reg) (a : Reg) (b : Reg) (s : State) : Issued 1 allSids false s (execMinu d a b s) := by
  unfold execMinu aluOp; exact ⟨_, _, rfl, rfl, rfl⟩
theorem issued_max (d : Reg) (a : Reg) (b : Reg) (s : State) : Issued 1 allSids false s (execMax d a b s) := by
  unfold execMax aluOp; exact ⟨_, _, rfl, rfl, rfl⟩
theorem issued_maxu (d : Reg) (a : Reg) (b : Reg) (s : State) : Issued 1 allSids false s (execMaxu d a b s) := by
  unfold execMaxu aluOp; exact ⟨_, _, rfl, rfl, rfl⟩
theorem issued_seq (d : Reg) (a : Reg) (b : Reg) (s : State) : Issued 1 allSids false s (execSeq d a b s) := by
  unfold execSeq aluOp; exact ⟨_, _, rfl, rfl, rfl⟩
theorem issued_sne (d : Reg) (a : Reg) (b : Reg) (s : State) : Issued 1 allSids false s (execSne d a b s) := by
  unfold execSne aluOp; exact ⟨_, _, rfl, rfl, rfl⟩
theorem issued_slt (d : Reg) (a : Reg) (b : Reg) (s : State) : Issued 1 allSids false s (execSlt d a b s) := by
  unfold execSlt aluOp; exact ⟨_, _, rfl, rfl, rfl⟩
theorem issued_sltu (d : Reg) (a : Reg) (b : Reg) (s : State) : Issued 1 allSids false s (execSltu d a b s) := by
  unfold execSltu aluOp; exact ⟨_, _, rfl, rfl, rfl⟩
theorem issued_sle (d : Reg) (a : Reg) (b : Reg) (s : State) : Issued 1 allSids false s (execSle d a b s) := by
  unfold execSle aluOp; exact ⟨_, _, rfl, rfl, rfl⟩
theorem issued_sleu (d : Reg) (a : Reg) (b : Reg) (s : State) : Issued 1 allSids false s (execSleu d a b s) := by
  unfold execSleu aluOp; exact ⟨_, _, rfl, rfl, rfl⟩
theorem issued_clz (d : Reg) (a : Reg) (s : State) : Issued 1 allSids false s (execClz d a s) := by
  unfold execClz aluOp1; exact ⟨_, _, rfl, rfl, rfl⟩
theorem issued_ctz (d : Reg) (a : Reg) (s : State) : Issued 1 allSids false s (execCtz d a s) := by
  unfold execCtz aluOp1; exact ⟨_, _, rfl, rfl, rfl⟩
theorem issued_popc (d : Reg) (a : Reg) (s : State) : Issued 1 allSids false s (execPopc d a s) := by
  unfold execPopc aluOp1; exact ⟨_, _, rfl, rfl, rfl⟩
theorem issued_bswap (d : Reg) (a : Reg) (s : State) : Issued 1 allSids false s (execBswap d a s) := by
  unfold execBswap aluOp1; exact ⟨_, _, rfl, rfl, rfl⟩
theorem issued_sexb (d : Reg) (a : Reg) (s : State) : Issued 1 allSids false s (execSexb d a s) := by
  unfold execSexb aluOp1; exact ⟨_, _, rfl, rfl, rfl⟩
theorem issued_sexh (d : Reg) (a : Reg) (s : State) : Issued 1 allSids false s (execSexh d a s) := by
  unfold execSexh aluOp1; exact ⟨_, _, rfl, rfl, rfl⟩
theorem issued_sexw (d : Reg) (a : Reg) (s : State) : Issued 1 allSids false s (execSexw d a s) := by
  unfold execSexw aluOp1; exact ⟨_, _, rfl, rfl, rfl⟩
theorem issued_fadd (d : Reg) (a : Reg) (b : Reg) (s : State) : Issued 1 allSids false s (execFadd d a b s) := by
  unfold execFadd fpOp; exact ⟨_, _, rfl, rfl, rfl⟩
theorem issued_fsub (d : Reg) (a : Reg) (b : Reg) (s : State) : Issued 1 allSids false s (execFsub d a b s) := by
  unfold execFsub fpOp; exact ⟨_, _, rfl, rfl, rfl⟩
theorem issued_fmul (d : Reg) (a : Reg) (b : Reg) (s : State) : Issued 1 allSids false s (execFmul d a b s) := by
  unfold execFmul fpOp; exact ⟨_, _, rfl, rfl, rfl⟩
theorem issued_fdiv (d : Reg) (a : Reg) (b : Reg) (s : State) : Issued 1 allSids false s (execFdiv d a b s) := by
  unfold execFdiv fpOp; exact ⟨_, _, rfl, rfl, rfl⟩
theorem issued_fmin (d : Reg) (a : Reg) (b : Reg) (s : State) : Issued 1 allSids false s (execFmin d a b s) := by
  unfold execFmin fpOp; exact ⟨_, _, rfl, rfl, rfl⟩
theorem issued_fmax (d : Reg) (a : Reg) (b : Reg) (s : State) : Issued 1 allSids false s (execFmax d a b s) := by
  unfold execFmax fpOp; exact ⟨_, _, rfl, rfl, rfl⟩
theorem issued_fminp (d : Reg) (a : Reg) (b : Reg) (s : State) : Issued 1 allSids false s (execFminp d a b s) := by
  unfold execFminp fpOp; exact ⟨_, _, rfl, rfl, rfl⟩
theorem issued_fmaxp (d : Reg) (a : Reg) (b : Reg) (s : State) : Issued 1 allSids false s (execFmaxp d a b s) := by
  unfold execFmaxp fpOp; exact ⟨_, _, rfl, rfl, rfl⟩
theorem issued_fcvtfi (d : Reg) (a : Reg) (rm : Rounding) (s : State) : Issued 1 allSids false s (execFcvtfi d a rm s) := by
  unfold execFcvtfi; exact ⟨_, _, rfl, rfl, rfl⟩
theorem issued_fcvtif (d : Reg) (a : Reg) (rm : Rounding) (s : State) : Issued 1 allSids false s (execFcvtif d a rm s) := by
  unfold execFcvtif; exact ⟨_, _, rfl, rfl, rfl⟩
theorem issued_feq (d : Reg) (a : Reg) (b : Reg) (s : State) : Issued 1 allSids false s (execFeq d a b s) := by
  unfold execFeq fpRel fpOp; exact ⟨_, _, rfl, rfl, rfl⟩
theorem issued_flt (d : Reg) (a : Reg) (b : Reg) (s : State) : Issued 1 allSids false s (execFlt d a b s) := by
  unfold execFlt fpRel fpOp; exact ⟨_, _, rfl, rfl, rfl⟩
theorem issued_fle (d : Reg) (a : Reg) (b : Reg) (s : State) : Issued 1 allSids false s (execFle d a b s) := by
  unfold execFle fpRel fpOp; exact ⟨_, _, rfl, rfl, rfl⟩
theorem issued_addi (d : Reg) (a : Reg) (imm : BitVec 11) (s : State) : Issued 1 allSids false s (execAddi d a imm s) := by
  unfold execAddi aluOp1; exact ⟨_, _, rfl, rfl, rfl⟩
theorem issued_andi (d : Reg) (a : Reg) (imm : BitVec 11) (s : State) : Issued 1 allSids false s (execAndi d a imm s) := by
  unfold execAndi aluOp1; exact ⟨_, _, rfl, rfl, rfl⟩
theorem issued_ori (d : Reg) (a : Reg) (imm : BitVec 11) (s : State) : Issued 1 allSids false s (execOri d a imm s) := by
  unfold execOri aluOp1; exact ⟨_, _, rfl, rfl, rfl⟩
theorem issued_xori (d : Reg) (a : Reg) (imm : BitVec 11) (s : State) : Issued 1 allSids false s (execXori d a imm s) := by
  unfold execXori aluOp1; exact ⟨_, _, rfl, rfl, rfl⟩
theorem issued_slli (d : Reg) (a : Reg) (sh : BitVec 6) (s : State) : Issued 1 allSids false s (execSlli d a sh s) := by
  unfold execSlli aluOp1; exact ⟨_, _, rfl, rfl, rfl⟩
theorem issued_srli (d : Reg) (a : Reg) (sh : BitVec 6) (s : State) : Issued 1 allSids false s (execSrli d a sh s) := by
  unfold execSrli aluOp1; exact ⟨_, _, rfl, rfl, rfl⟩
theorem issued_srai (d : Reg) (a : Reg) (sh : BitVec 6) (s : State) : Issued 1 allSids false s (execSrai d a sh s) := by
  unfold execSrai aluOp1; exact ⟨_, _, rfl, rfl, rfl⟩
theorem issued_slti (d : Reg) (a : Reg) (imm : BitVec 11) (s : State) : Issued 1 allSids false s (execSlti d a imm s) := by
  unfold execSlti aluOp1; exact ⟨_, _, rfl, rfl, rfl⟩
theorem issued_lui (d : Reg) (imm : BitVec 20) (s : State) : Issued 1 allSids false s (execLui d imm s) := by
  unfold execLui; exact ⟨_, _, rfl, rfl, rfl⟩
theorem issued_lix (d : Reg) (imm : BitVec 32) (s : State) : Issued 2 allSids false s (execLix d imm s) := by
  unfold execLix; exact ⟨_, _, rfl, rfl, rfl⟩
theorem issued_lihx (d : Reg) (imm : BitVec 32) (s : State) : Issued 2 allSids false s (execLihx d imm s) := by
  unfold execLihx; exact ⟨_, _, rfl, rfl, rfl⟩
theorem issued_addx (d : Reg) (a : Reg) (imm : BitVec 32) (s : State) : Issued 2 allSids false s (execAddx d a imm s) := by
  unfold execAddx; exact ⟨_, _, rfl, rfl, rfl⟩
theorem issued_beq (a : Reg) (b : Reg) (off : BitVec 11) (s : State) : Issued 1 allSids false s (execBeq a b off s) := by
  unfold execBeq branchOp; exact ⟨_, _, rfl, rfl, rfl⟩
theorem issued_bne (a : Reg) (b : Reg) (off : BitVec 11) (s : State) : Issued 1 allSids false s (execBne a b off s) := by
  unfold execBne branchOp; exact ⟨_, _, rfl, rfl, rfl⟩
theorem issued_blt (a : Reg) (b : Reg) (off : BitVec 11) (s : State) : Issued 1 allSids false s (execBlt a b off s) := by
  unfold execBlt branchOp; exact ⟨_, _, rfl, rfl, rfl⟩
theorem issued_bge (a : Reg) (b : Reg) (off : BitVec 11) (s : State) : Issued 1 allSids false s (execBge a b off s) := by
  unfold execBge branchOp; exact ⟨_, _, rfl, rfl, rfl⟩
theorem issued_bltu (a : Reg) (b : Reg) (off : BitVec 11) (s : State) : Issued 1 allSids false s (execBltu a b off s) := by
  unfold execBltu branchOp; exact ⟨_, _, rfl, rfl, rfl⟩
theorem issued_bgeu (a : Reg) (b : Reg) (off : BitVec 11) (s : State) : Issued 1 allSids false s (execBgeu a b off s) := by
  unfold execBgeu branchOp; exact ⟨_, _, rfl, rfl, rfl⟩
theorem issued_bset (a : Reg) (b : Reg) (off : BitVec 11) (s : State) : Issued 1 allSids false s (execBset a b off s) := by
  unfold execBset branchOp; exact ⟨_, _, rfl, rfl, rfl⟩
theorem issued_bclr (a : Reg) (b : Reg) (off : BitVec 11) (s : State) : Issued 1 allSids false s (execBclr a b off s) := by
  unfold execBclr branchOp; exact ⟨_, _, rfl, rfl, rfl⟩
theorem issued_jal (d : Reg) (off : BitVec 20) (s : State) : Issued 1 allSids false s (execJal d off s) := by
  unfold execJal; exact ⟨_, _, rfl, rfl, rfl⟩
theorem issued_jalr (d : Reg) (a : Reg) (imm : BitVec 11) (s : State) : Issued 1 allSids false s (execJalr d a imm s) := by
  unfold execJalr; exact ⟨_, _, rfl, rfl, rfl⟩
theorem issued_loop (lvl : BitVec 2) (len : BitVec 10) (s_ : Reg) (s : State) : Issued 1 allSids false s (execLoop lvl len s_ s) := by
  unfold execLoop loopOp; exact ⟨_, _, rfl, rfl, rfl⟩
theorem issued_loopi (lvl : BitVec 2) (len : BitVec 10) (cnt : BitVec 12) (s : State) : Issued 1 allSids false s (execLoopi lvl len cnt s) := by
  unfold execLoopi loopOp; exact ⟨_, _, rfl, rfl, rfl⟩
theorem issued_loopk (lvl : BitVec 2) (len : BitVec 10) (k : BitVec 4) (s : State) : Issued 1 allSids false s (execLoopk lvl len k s) := by
  unfold execLoopk loopOp; exact ⟨_, _, rfl, rfl, rfl⟩
theorem issued_loopm (lvl : BitVec 2) (len : BitVec 10) (s_ : Reg) (s : State) : Issued 1 allSids false s (execLoopm lvl len s_ s) := by
  unfold execLoopm loopOp; exact ⟨_, _, rfl, rfl, rfl⟩
theorem issued_qwait (qa : Handle) (qb : Option Handle) (qd : Option Handle) (n : BitVec 3) (s : State) : Issued 1 allSids false s (execQwait qa qb qd n s) := by
  unfold execQwait qwaitOp qctlOp; exact ⟨_, _, rfl, rfl, rfl⟩
theorem issued_qroom (qa : Handle) (qb : Option Handle) (qd : Option Handle) (n : BitVec 3) (s : State) : Issued 1 allSids false s (execQroom qa qb qd n s) := by
  unfold execQroom qwaitOp qctlOp; exact ⟨_, _, rfl, rfl, rfl⟩
theorem issued_qadv (qa : Handle) (qb : Option Handle) (qd : Option Handle) (n : BitVec 3) (s : State) : Issued 1 allSids false s (execQadv qa qb qd n s) := by
  unfold execQadv qadvOp qctlOp; exact ⟨_, _, rfl, rfl, rfl⟩
theorem issued_qadvp (qa : Handle) (qb : Option Handle) (qd : Option Handle) (n : BitVec 3) (s : State) : Issued 1 allSids false s (execQadvp qa qb qd n s) := by
  unfold execQadvp qadvOp qctlOp; exact ⟨_, _, rfl, rfl, rfl⟩
theorem issued_qrst (qa : Handle) (qb : Option Handle) (qd : Option Handle) (s : State) : Issued 1 allSids false s (execQrst qa qb qd s) := by
  unfold execQrst qctlOp; exact ⟨_, _, rfl, rfl, rfl⟩
theorem issued_qpop (d : Reg) (q : Handle) (s : State) : Issued 1 allSids false s (execQpop d q s) := by
  unfold execQpop qxfrOp; exact ⟨_, _, rfl, rfl, rfl⟩
theorem issued_qpeek (d : Reg) (a : Reg) (q : Handle) (s : State) : Issued 1 allSids false s (execQpeek d a q s) := by
  unfold execQpeek qxfrOp; exact ⟨_, _, rfl, rfl, rfl⟩
theorem issued_qput (a : Reg) (q : Handle) (s : State) : Issued 1 allSids false s (execQput a q s) := by
  unfold execQput qxfrOp; exact ⟨_, _, rfl, rfl, rfl⟩
theorem issued_qcfg (a : Reg) (q : Handle) (s : State) : Issued 1 allSids false s (execQcfg a q s) := by
  unfold execQcfg; exact ⟨_, _, rfl, rfl, rfl⟩
theorem issued_qcnt (d : Reg) (q : Handle) (s : State) : Issued 1 allSids false s (execQcnt d q s) := by
  unfold execQcnt; exact ⟨_, _, rfl, rfl, rfl⟩
theorem issued_bqt (q : Handle) (off : BitVec 11) (s : State) : Issued 1 allSids false s (execBqt q off s) := by
  unfold execBqt bqOp qxfrOp; exact ⟨_, _, rfl, rfl, rfl⟩
theorem issued_bqf (q : Handle) (off : BitVec 11) (s : State) : Issued 1 allSids false s (execBqf q off s) := by
  unfold execBqf bqOp qxfrOp; exact ⟨_, _, rfl, rfl, rfl⟩
theorem issued_nop (s : State) : Issued 1 allSids false s (execNop s) := by
  unfold execNop; exact ⟨_, _, rfl, rfl, rfl⟩
theorem issued_rdv0 (s : State) : Issued 1 allSids false s (execRdv0 s) := by
  unfold execRdv0 rdvOp; exact ⟨_, _, rfl, rfl, rfl⟩
theorem issued_rdvEnd (s : State) : Issued 1 allSids false s (execRdvEnd s) := by
  unfold execRdvEnd; exact ⟨_, _, rfl, rfl, rfl⟩
theorem issued_rdvStreamSet (set : BitVec 5) (s : State) : Issued 1 allSids false s (execRdvStreamSet set s) := by
  unfold execRdvStreamSet rdvOp; exact ⟨_, _, rfl, rfl, rfl⟩
theorem issued_pbar (tag : BitVec 3) (s : State) : Issued 1 allSids false s (execPbar tag s) := by
  unfold execPbar pbarOp; exact ⟨_, _, rfl, rfl, rfl⟩
theorem issued_pbara (tag : BitVec 3) (s : State) : Issued 1 allSids false s (execPbara tag s) := by
  unfold execPbara pbarOp; exact ⟨_, _, rfl, rfl, rfl⟩
theorem issued_pbarw (tag : BitVec 3) (s : State) : Issued 1 allSids false s (execPbarw tag s) := by
  unfold execPbarw pbarOp; exact ⟨_, _, rfl, rfl, rfl⟩
theorem issued_wfi (s : State) : Issued 1 allSids false s (execWfi s) := by
  unfold execWfi; exact ⟨_, _, rfl, rfl, rfl⟩
theorem issued_ipref (a : Reg) (n : BitVec 6) (s : State) : Issued 1 allSids false s (execIpref a n s) := by
  unfold execIpref; exact ⟨_, _, rfl, rfl, rfl⟩
theorem issued_rdc (d : Reg) (n : BitVec 12) (s : State) : Issued 1 allSids false s (execRdc d n s) := by
  unfold execRdc; exact ⟨_, _, rfl, rfl, rfl⟩
theorem issued_wrc (d : Reg) (n : BitVec 12) (s : State) : Issued 1 allSids false s (execWrc d n s) := by
  unfold execWrc; exact ⟨_, _, rfl, rfl, rfl⟩
theorem issued_rdk (d : Reg) (k : BitVec 4) (s : State) : Issued 1 allSids false s (execRdk d k s) := by
  unfold execRdk; exact ⟨_, _, rfl, rfl, rfl⟩
theorem issued_rdcyc (d : Reg) (s : State) : Issued 1 allSids false s (execRdcyc d s) := by
  unfold execRdcyc; exact ⟨_, _, rfl, rfl, rfl⟩
theorem issued_rdid (d : Reg) (which : IdReg) (s : State) : Issued 1 allSids false s (execRdid d which s) := by
  unfold execRdid; exact ⟨_, _, rfl, rfl, rfl⟩
theorem issued_rdloop (d : Reg) (level : BitVec 3) (s : State) : Issued 1 allSids false s (execRdloop d level s) := by
  unfold execRdloop; exact ⟨_, _, rfl, rfl, rfl⟩
theorem issued_ldb (d : Reg) (a : Reg) (imm : BitVec 11) (s : State) : Issued 1 [.c] false s (execLdb d a imm s) := by
  unfold execLdb loadOp cIssue; exact ⟨_, _, rfl, rfl, rfl⟩
theorem issued_ldbs (d : Reg) (a : Reg) (imm : BitVec 11) (s : State) : Issued 1 [.c] false s (execLdbs d a imm s) := by
  unfold execLdbs loadOp cIssue; exact ⟨_, _, rfl, rfl, rfl⟩
theorem issued_ldh (d : Reg) (a : Reg) (imm : BitVec 11) (s : State) : Issued 1 [.c] false s (execLdh d a imm s) := by
  unfold execLdh loadOp cIssue; exact ⟨_, _, rfl, rfl, rfl⟩
theorem issued_ldhs (d : Reg) (a : Reg) (imm : BitVec 11) (s : State) : Issued 1 [.c] false s (execLdhs d a imm s) := by
  unfold execLdhs loadOp cIssue; exact ⟨_, _, rfl, rfl, rfl⟩
theorem issued_ldw (d : Reg) (a : Reg) (imm : BitVec 11) (s : State) : Issued 1 [.c] false s (execLdw d a imm s) := by
  unfold execLdw loadOp cIssue; exact ⟨_, _, rfl, rfl, rfl⟩
theorem issued_ldws (d : Reg) (a : Reg) (imm : BitVec 11) (s : State) : Issued 1 [.c] false s (execLdws d a imm s) := by
  unfold execLdws loadOp cIssue; exact ⟨_, _, rfl, rfl, rfl⟩
theorem issued_ldd (d : Reg) (a : Reg) (imm : BitVec 11) (s : State) : Issued 1 [.c] false s (execLdd d a imm s) := by
  unfold execLdd loadOp cIssue; exact ⟨_, _, rfl, rfl, rfl⟩
theorem issued_stb (d : Reg) (a : Reg) (imm : BitVec 11) (s : State) : Issued 1 [.c] false s (execStb d a imm s) := by
  unfold execStb storeOp cIssue; exact ⟨_, _, rfl, rfl, rfl⟩
theorem issued_sth (d : Reg) (a : Reg) (imm : BitVec 11) (s : State) : Issued 1 [.c] false s (execSth d a imm s) := by
  unfold execSth storeOp cIssue; exact ⟨_, _, rfl, rfl, rfl⟩
theorem issued_stw (d : Reg) (a : Reg) (imm : BitVec 11) (s : State) : Issued 1 [.c] false s (execStw d a imm s) := by
  unfold execStw storeOp cIssue; exact ⟨_, _, rfl, rfl, rfl⟩
theorem issued_std (d : Reg) (a : Reg) (imm : BitVec 11) (s : State) : Issued 1 [.c] false s (execStd d a imm s) := by
  unfold execStd storeOp cIssue; exact ⟨_, _, rfl, rfl, rfl⟩
theorem issued_lsmark (s : State) : Issued 1 [.c] false s (execLsmark s) := by
  unfold execLsmark cIssue; exact ⟨_, _, rfl, rfl, rfl⟩
theorem issued_l1inv (a : Reg) (b : Reg) (s : State) : Issued 1 [.c] false s (execL1inv a b s) := by
  unfold execL1inv cIssue; exact ⟨_, _, rfl, rfl, rfl⟩
theorem issued_l1inva (s : State) : Issued 1 [.c] false s (execL1inva s) := by
  unfold execL1inva cIssue; exact ⟨_, _, rfl, rfl, rfl⟩
theorem issued_pref (a : Reg) (s : State) : Issued 1 [.c] false s (execPref a s) := by
  unfold execPref cIssue; exact ⟨_, _, rfl, rfl, rfl⟩
theorem issued_own (d : Reg) (a : Reg) (b : Reg) (s : State) : Issued 1 [.c] false s (execOwn d a b s) := by
  unfold execOwn sqInstr cIssue; exact ⟨_, _, rfl, rfl, rfl⟩
theorem issued_disown (d : Reg) (a : Reg) (s : State) : Issued 1 [.c] false s (execDisown d a s) := by
  unfold execDisown sqInstr cIssue; exact ⟨_, _, rfl, rfl, rfl⟩
theorem issued_amoadd (d : Reg) (a : Reg) (b : Reg) (ord : Order) (wd : Width) (s : State) : Issued 1 [.c] false s (execAmoadd d a b ord wd s) := by
  unfold execAmoadd amoOp cIssue; exact ⟨_, _, rfl, rfl, rfl⟩
theorem issued_amoand (d : Reg) (a : Reg) (b : Reg) (ord : Order) (wd : Width) (s : State) : Issued 1 [.c] false s (execAmoand d a b ord wd s) := by
  unfold execAmoand amoOp cIssue; exact ⟨_, _, rfl, rfl, rfl⟩
theorem issued_amoor (d : Reg) (a : Reg) (b : Reg) (ord : Order) (wd : Width) (s : State) : Issued 1 [.c] false s (execAmoor d a b ord wd s) := by
  unfold execAmoor amoOp cIssue; exact ⟨_, _, rfl, rfl, rfl⟩
theorem issued_amoxor (d : Reg) (a : Reg) (b : Reg) (ord : Order) (wd : Width) (s : State) : Issued 1 [.c] false s (execAmoxor d a b ord wd s) := by
  unfold execAmoxor amoOp cIssue; exact ⟨_, _, rfl, rfl, rfl⟩
theorem issued_amomin (d : Reg) (a : Reg) (b : Reg) (ord : Order) (wd : Width) (s : State) : Issued 1 [.c] false s (execAmomin d a b ord wd s) := by
  unfold execAmomin amoOp cIssue; exact ⟨_, _, rfl, rfl, rfl⟩
theorem issued_amominu (d : Reg) (a : Reg) (b : Reg) (ord : Order) (wd : Width) (s : State) : Issued 1 [.c] false s (execAmominu d a b ord wd s) := by
  unfold execAmominu amoOp cIssue; exact ⟨_, _, rfl, rfl, rfl⟩
theorem issued_amomax (d : Reg) (a : Reg) (b : Reg) (ord : Order) (wd : Width) (s : State) : Issued 1 [.c] false s (execAmomax d a b ord wd s) := by
  unfold execAmomax amoOp cIssue; exact ⟨_, _, rfl, rfl, rfl⟩
theorem issued_amomaxu (d : Reg) (a : Reg) (b : Reg) (ord : Order) (wd : Width) (s : State) : Issued 1 [.c] false s (execAmomaxu d a b ord wd s) := by
  unfold execAmomaxu amoOp cIssue; exact ⟨_, _, rfl, rfl, rfl⟩
theorem issued_amoswp (d : Reg) (a : Reg) (b : Reg) (ord : Order) (wd : Width) (s : State) : Issued 1 [.c] false s (execAmoswp d a b ord wd s) := by
  unfold execAmoswp amoOp cIssue; exact ⟨_, _, rfl, rfl, rfl⟩
theorem issued_amocas (d : Reg) (a : Reg) (b : Reg) (ord : Order) (wd : Width) (s : State) : Issued 1 [.c] false s (execAmocas d a b ord wd s) := by
  unfold execAmocas amoOp cIssue; exact ⟨_, _, rfl, rfl, rfl⟩
theorem issued_amofadd (d : Reg) (a : Reg) (b : Reg) (ord : Order) (s : State) : Issued 1 [.c] false s (execAmofadd d a b ord s) := by
  unfold execAmofadd amoOp cIssue; exact ⟨_, _, rfl, rfl, rfl⟩
theorem issued_fence (s : State) : Issued 1 [.c] false s (execFence s) := by
  unfold execFence fenceOp cIssue; exact ⟨_, _, rfl, rfl, rfl⟩
theorem issued_qfence (mask : BitVec 7) (s : State) : Issued 1 [.c] false s (execQfence mask s) := by
  unfold execQfence fenceOp cIssue; exact ⟨_, _, rfl, rfl, rfl⟩
theorem issued_spawn (d : Reg) (a : Reg) (b : Reg) (s : State) : Issued 1 [.c] false s (execSpawn d a b s) := by
  unfold execSpawn sqInstr cIssue; exact ⟨_, _, rfl, rfl, rfl⟩
theorem issued_spwait (d : Reg) (a : Reg) (s : State) : Issued 1 [.c] false s (execSpwait d a s) := by
  unfold execSpwait cIssue; exact ⟨_, _, rfl, rfl, rfl⟩
theorem issued_sptest (d : Reg) (a : Reg) (s : State) : Issued 1 [.c] false s (execSptest d a s) := by
  unfold execSptest sqInstr cIssue; exact ⟨_, _, rfl, rfl, rfl⟩
theorem issued_depdec (d : Reg) (a : Reg) (s : State) : Issued 1 [.c] false s (execDepdec d a s) := by
  unfold execDepdec sqInstr cIssue; exact ⟨_, _, rfl, rfl, rfl⟩
theorem issued_depinc (d : Reg) (a : Reg) (s : State) : Issued 1 [.c] false s (execDepinc d a s) := by
  unfold execDepinc sqInstr cIssue; exact ⟨_, _, rfl, rfl, rfl⟩
theorem issued_wlcfg (d : Reg) (a : Reg) (b : Reg) (s : State) : Issued 1 [.c] false s (execWlcfg d a b s) := by
  unfold execWlcfg sqInstr cIssue; exact ⟨_, _, rfl, rfl, rfl⟩
theorem issued_wlpush (d : Reg) (a : Reg) (b : Reg) (s : State) : Issued 1 [.c] false s (execWlpush d a b s) := by
  unfold execWlpush sqInstr cIssue; exact ⟨_, _, rfl, rfl, rfl⟩
theorem issued_wlins (d : Reg) (a : Reg) (b : Reg) (s : State) : Issued 1 [.c] false s (execWlins d a b s) := by
  unfold execWlins sqInstr cIssue; exact ⟨_, _, rfl, rfl, rfl⟩
theorem issued_wlpopb (d : Reg) (a : Reg) (b : Reg) (s : State) : Issued 1 [.c] false s (execWlpopb d a b s) := by
  unfold execWlpopb sqInstr cIssue; exact ⟨_, _, rfl, rfl, rfl⟩
theorem issued_wlcnt (d : Reg) (a : Reg) (s : State) : Issued 1 [.c] false s (execWlcnt d a s) := by
  unfold execWlcnt sqInstr cIssue; exact ⟨_, _, rfl, rfl, rfl⟩
theorem issued_wldrain (d : Reg) (a : Reg) (s : State) : Issued 1 [.c] false s (execWldrain d a s) := by
  unfold execWldrain sqInstr cIssue; exact ⟨_, _, rfl, rfl, rfl⟩
theorem issued_frnck (d : Reg) (a : Reg) (b : Reg) (s : State) : Issued 1 [.c] false s (execFrnck d a b s) := by
  unfold execFrnck sqInstr cIssue; exact ⟨_, _, rfl, rfl, rfl⟩
theorem issued_frnput (d : Reg) (a : Reg) (b : Reg) (s : State) : Issued 1 [.c] false s (execFrnput d a b s) := by
  unfold execFrnput sqInstr cIssue; exact ⟨_, _, rfl, rfl, rfl⟩
theorem issued_frninv (d : Reg) (a : Reg) (b : Reg) (s : State) : Issued 1 [.c] false s (execFrninv d a b s) := by
  unfold execFrninv sqInstr cIssue; exact ⟨_, _, rfl, rfl, rfl⟩
theorem issued_frnstat (d : Reg) (a : Reg) (b : Reg) (s : State) : Issued 1 [.c] false s (execFrnstat d a b s) := by
  unfold execFrnstat sqInstr cIssue; exact ⟨_, _, rfl, rfl, rfl⟩
theorem issued_frnflush (d : Reg) (a : Reg) (s : State) : Issued 1 [.c] false s (execFrnflush d a s) := by
  unfold execFrnflush sqInstr cIssue; exact ⟨_, _, rfl, rfl, rfl⟩
theorem issued_vtadd (d : Reg) (a : Reg) (b : Reg) (s : State) : Issued 1 [.c] false s (execVtadd d a b s) := by
  unfold execVtadd vaultOp cIssue; exact ⟨_, _, rfl, rfl, rfl⟩
theorem issued_vtfadd (d : Reg) (a : Reg) (b : Reg) (s : State) : Issued 1 [.c] false s (execVtfadd d a b s) := by
  unfold execVtfadd vaultOp cIssue; exact ⟨_, _, rfl, rfl, rfl⟩
theorem issued_vtmax (d : Reg) (a : Reg) (b : Reg) (s : State) : Issued 1 [.c] false s (execVtmax d a b s) := by
  unfold execVtmax vaultOp cIssue; exact ⟨_, _, rfl, rfl, rfl⟩
theorem issued_vtcas (d : Reg) (a : Reg) (b : Reg) (s : State) : Issued 1 [.c] false s (execVtcas d a b s) := by
  unfold execVtcas vaultOp cIssue; exact ⟨_, _, rfl, rfl, rfl⟩
theorem issued_vtsac (d : Reg) (a : Reg) (b : Reg) (s : State) : Issued 1 [.c] false s (execVtsac d a b s) := by
  unfold execVtsac vaultOp cIssue; exact ⟨_, _, rfl, rfl, rfl⟩
theorem issued_trap (a : Reg) (s : State) : Issued 1 [.c] false s (execTrap a s) := by
  unfold execTrap; exact ⟨_, _, rfl, rfl, rfl⟩
theorem issued_eret (s : State) : Issued 1 [.c] true s (execEret s) := by
  unfold execEret; exact ⟨_, _, rfl, rfl, rfl⟩
theorem issued_uiret (s : State) : Issued 1 [.c] false s (execUiret s) := by
  unfold execUiret; exact ⟨_, _, rfl, rfl, rfl⟩
theorem issued_brk (s : State) : Issued 1 [.c] false s (execBrk s) := by
  unfold execBrk; exact ⟨_, _, rfl, rfl, rfl⟩
theorem issued_sysc (a : Reg) (s : State) : Issued 1 [.c] false s (execSysc a s) := by
  unfold execSysc; exact ⟨_, _, rfl, rfl, rfl⟩
theorem issued_rtfill (d : Reg) (a : Reg) (s : State) : Issued 1 [.c] true s (execRtfill d a s) := by
  unfold execRtfill supIssue; exact ⟨_, _, rfl, rfl, rfl⟩
theorem issued_rtnext (d : Reg) (s : State) : Issued 1 [.c] true s (execRtnext d s) := by
  unfold execRtnext supIssue; exact ⟨_, _, rfl, rfl, rfl⟩
theorem issued_resume (d : Reg) (a : Reg) (s : State) : Issued 1 [.c] true s (execResume d a s) := by
  unfold execResume supIssue; exact ⟨_, _, rfl, rfl, rfl⟩
theorem issued_kill (d : Reg) (a : Reg) (s : State) : Issued 1 [.c] true s (execKill d a s) := by
  unfold execKill supIssue; exact ⟨_, _, rfl, rfl, rfl⟩
theorem issued_tlbinv (a : Reg) (b : Reg) (s : State) : Issued 1 [.c] true s (execTlbinv a b s) := by
  unfold execTlbinv supIssue; exact ⟨_, _, rfl, rfl, rfl⟩
theorem issued_apcfg (p : Pat) (a : Reg) (b : Reg) (space : Space) (lge : BitVec 4) (dims : BitVec 2) (s : State) : Issued 2 [.a] false s (execApcfg p a b space lge dims s) := by
  unfold execApcfg accIssue; exact ⟨_, _, rfl, rfl, rfl⟩
theorem issued_astrm (q : Handle) (p : Pat) (n : BitVec 3) (s : State) : Issued 1 [.a] false s (execAstrm q p n s) := by
  unfold execAstrm streamOp accIssue; exact ⟨_, _, rfl, rfl, rfl⟩
theorem issued_astro (q : Handle) (p : Pat) (n : BitVec 3) (s : State) : Issued 1 [.a] false s (execAstro q p n s) := by
  unfold execAstro streamOp accIssue; exact ⟨_, _, rfl, rfl, rfl⟩
theorem issued_agath (q : Handle) (qi : Handle) (p : Pat) (n : BitVec 3) (s : State) : Issued 1 [.a] false s (execAgath q qi p n s) := by
  unfold execAgath indexedOp accIssue; exact ⟨_, _, rfl, rfl, rfl⟩
theorem issued_ascat (q : Handle) (qi : Handle) (p : Pat) (n : BitVec 3) (s : State) : Issued 1 [.a] false s (execAscat q qi p n s) := by
  unfold execAscat indexedOp accIssue; exact ⟨_, _, rfl, rfl, rfl⟩
theorem issued_awcfg (d : Reg) (a : Reg) (b : Reg) (space : Space) (lge : BitVec 2) (s : State) : Issued 2 [.a] false s (execAwcfg d a b space lge s) := by
  unfold execAwcfg accIssue; exact ⟨_, _, rfl, rfl, rfl⟩
theorem issued_awin (q : Handle) (n : BitVec 3) (s : State) : Issued 1 [.a] false s (execAwin q n s) := by
  unfold execAwin accIssue; exact ⟨_, _, rfl, rfl, rfl⟩
theorem issued_awpass (d : Reg) (a : Reg) (s : State) : Issued 1 [.a] false s (execAwpass d a s) := by
  unfold execAwpass accIssue; exact ⟨_, _, rfl, rfl, rfl⟩
theorem issued_aprf (a : Reg) (p : Pat) (s : State) : Issued 1 [.a] false s (execAprf a p s) := by
  unfold execAprf accIssue; exact ⟨_, _, rfl, rfl, rfl⟩
theorem issued_vadd (d : VReg) (a : VReg) (b : VReg) (s : State) : Issued 1 [.v] false s (execVadd d a b s) := by
  unfold execVadd laneOp vecIssue; exact ⟨_, _, rfl, rfl, rfl⟩
theorem issued_vsub (d : VReg) (a : VReg) (b : VReg) (s : State) : Issued 1 [.v] false s (execVsub d a b s) := by
  unfold execVsub laneOp vecIssue; exact ⟨_, _, rfl, rfl, rfl⟩
theorem issued_vmul (d : VReg) (a : VReg) (b : VReg) (s : State) : Issued 1 [.v] false s (execVmul d a b s) := by
  unfold execVmul laneOp vecIssue; exact ⟨_, _, rfl, rfl, rfl⟩
theorem issued_vfma (d : VReg) (a : VReg) (b : VReg) (s : State) : Issued 1 [.v] false s (execVfma d a b s) := by
  unfold execVfma laneOp vecIssue; exact ⟨_, _, rfl, rfl, rfl⟩
theorem issued_vfms (d : VReg) (a : VReg) (b : VReg) (s : State) : Issued 1 [.v] false s (execVfms d a b s) := by
  unfold execVfms laneOp vecIssue; exact ⟨_, _, rfl, rfl, rfl⟩
theorem issued_vfnma (d : VReg) (a : VReg) (b : VReg) (s : State) : Issued 1 [.v] false s (execVfnma d a b s) := by
  unfold execVfnma laneOp vecIssue; exact ⟨_, _, rfl, rfl, rfl⟩
theorem issued_vmin (d : VReg) (a : VReg) (b : VReg) (s : State) : Issued 1 [.v] false s (execVmin d a b s) := by
  unfold execVmin laneOp vecIssue; exact ⟨_, _, rfl, rfl, rfl⟩
theorem issued_vmax (d : VReg) (a : VReg) (b : VReg) (s : State) : Issued 1 [.v] false s (execVmax d a b s) := by
  unfold execVmax laneOp vecIssue; exact ⟨_, _, rfl, rfl, rfl⟩
theorem issued_vminp (d : VReg) (a : VReg) (b : VReg) (s : State) : Issued 1 [.v] false s (execVminp d a b s) := by
  unfold execVminp laneOp vecIssue; exact ⟨_, _, rfl, rfl, rfl⟩
theorem issued_vmaxp (d : VReg) (a : VReg) (b : VReg) (s : State) : Issued 1 [.v] false s (execVmaxp d a b s) := by
  unfold execVmaxp laneOp vecIssue; exact ⟨_, _, rfl, rfl, rfl⟩
theorem issued_vabs (d : VReg) (a : VReg) (s : State) : Issued 1 [.v] false s (execVabs d a s) := by
  unfold execVabs laneOp1 laneOp vecIssue; exact ⟨_, _, rfl, rfl, rfl⟩
theorem issued_vneg (d : VReg) (a : VReg) (s : State) : Issued 1 [.v] false s (execVneg d a s) := by
  unfold execVneg laneOp1 laneOp vecIssue; exact ⟨_, _, rfl, rfl, rfl⟩
theorem issued_vdiv (d : VReg) (a : VReg) (b : VReg) (s : State) : Issued 1 [.v] false s (execVdiv d a b s) := by
  unfold execVdiv laneOp vecIssue; exact ⟨_, _, rfl, rfl, rfl⟩
theorem issued_vsqrt (d : VReg) (a : VReg) (s : State) : Issued 1 [.v] false s (execVsqrt d a s) := by
  unfold execVsqrt laneOp1 laneOp vecIssue; exact ⟨_, _, rfl, rfl, rfl⟩
theorem issued_vsgn (d : VReg) (a : VReg) (s : State) : Issued 1 [.v] false s (execVsgn d a s) := by
  unfold execVsgn laneOp1 laneOp vecIssue; exact ⟨_, _, rfl, rfl, rfl⟩
theorem issued_vand (d : VReg) (a : VReg) (b : VReg) (s : State) : Issued 1 [.v] false s (execVand d a b s) := by
  unfold execVand laneOp vecIssue; exact ⟨_, _, rfl, rfl, rfl⟩
theorem issued_vor (d : VReg) (a : VReg) (b : VReg) (s : State) : Issued 1 [.v] false s (execVor d a b s) := by
  unfold execVor laneOp vecIssue; exact ⟨_, _, rfl, rfl, rfl⟩
theorem issued_vxor (d : VReg) (a : VReg) (b : VReg) (s : State) : Issued 1 [.v] false s (execVxor d a b s) := by
  unfold execVxor laneOp vecIssue; exact ⟨_, _, rfl, rfl, rfl⟩
theorem issued_vnot (d : VReg) (a : VReg) (s : State) : Issued 1 [.v] false s (execVnot d a s) := by
  unfold execVnot laneOp1 laneOp vecIssue; exact ⟨_, _, rfl, rfl, rfl⟩
theorem issued_vsll (d : VReg) (a : VReg) (b : VReg) (s : State) : Issued 1 [.v] false s (execVsll d a b s) := by
  unfold execVsll laneOp vecIssue; exact ⟨_, _, rfl, rfl, rfl⟩
theorem issued_vsrl (d : VReg) (a : VReg) (b : VReg) (s : State) : Issued 1 [.v] false s (execVsrl d a b s) := by
  unfold execVsrl laneOp vecIssue; exact ⟨_, _, rfl, rfl, rfl⟩
theorem issued_vsra (d : VReg) (a : VReg) (b : VReg) (s : State) : Issued 1 [.v] false s (execVsra d a b s) := by
  unfold execVsra laneOp vecIssue; exact ⟨_, _, rfl, rfl, rfl⟩
theorem issued_vaddsat (d : VReg) (a : VReg) (b : VReg) (s : State) : Issued 1 [.v] false s (execVaddsat d a b s) := by
  unfold execVaddsat laneOp vecIssue; exact ⟨_, _, rfl, rfl, rfl⟩
theorem issued_vsubsat (d : VReg) (a : VReg) (b : VReg) (s : State) : Issued 1 [.v] false s (execVsubsat d a b s) := by
  unfold execVsubsat laneOp vecIssue; exact ⟨_, _, rfl, rfl, rfl⟩
theorem issued_vmulhi (d : VReg) (a : VReg) (b : VReg) (s : State) : Issued 1 [.v] false s (execVmulhi d a b s) := by
  unfold execVmulhi laneOp vecIssue; exact ⟨_, _, rfl, rfl, rfl⟩
theorem issued_vceq (d : MReg) (a : VReg) (b : VReg) (s : State) : Issued 1 [.v] false s (execVceq d a b s) := by
  unfold execVceq cmpOp vecIssue; exact ⟨_, _, rfl, rfl, rfl⟩
theorem issued_vcne (d : MReg) (a : VReg) (b : VReg) (s : State) : Issued 1 [.v] false s (execVcne d a b s) := by
  unfold execVcne cmpOp vecIssue; exact ⟨_, _, rfl, rfl, rfl⟩
theorem issued_vclt (d : MReg) (a : VReg) (b : VReg) (s : State) : Issued 1 [.v] false s (execVclt d a b s) := by
  unfold execVclt cmpOp vecIssue; exact ⟨_, _, rfl, rfl, rfl⟩
theorem issued_vcle (d : MReg) (a : VReg) (b : VReg) (s : State) : Issued 1 [.v] false s (execVcle d a b s) := by
  unfold execVcle cmpOp vecIssue; exact ⟨_, _, rfl, rfl, rfl⟩
theorem issued_vcgt (d : MReg) (a : VReg) (b : VReg) (s : State) : Issued 1 [.v] false s (execVcgt d a b s) := by
  unfold execVcgt cmpOp vecIssue; exact ⟨_, _, rfl, rfl, rfl⟩
theorem issued_vcge (d : MReg) (a : VReg) (b : VReg) (s : State) : Issued 1 [.v] false s (execVcge d a b s) := by
  unfold execVcge cmpOp vecIssue; exact ⟨_, _, rfl, rfl, rfl⟩
theorem issued_vcun (d : MReg) (a : VReg) (b : VReg) (s : State) : Issued 1 [.v] false s (execVcun d a b s) := by
  unfold execVcun cmpOp vecIssue; exact ⟨_, _, rfl, rfl, rfl⟩
theorem issued_vsel (d : VReg) (a : VReg) (b : MReg) (s : State) : Issued 1 [.v] false s (execVsel d a b s) := by
  unfold execVsel vecIssue; exact ⟨_, _, rfl, rfl, rfl⟩
theorem issued_mand (d : MReg) (a : MReg) (b : MReg) (s : State) : Issued 1 [.v] false s (execMand d a b s) := by
  unfold execMand maskOp; exact ⟨_, _, rfl, rfl, rfl⟩
theorem issued_mor (d : MReg) (a : MReg) (b : MReg) (s : State) : Issued 1 [.v] false s (execMor d a b s) := by
  unfold execMor maskOp; exact ⟨_, _, rfl, rfl, rfl⟩
theorem issued_mxor (d : MReg) (a : MReg) (b : MReg) (s : State) : Issued 1 [.v] false s (execMxor d a b s) := by
  unfold execMxor maskOp; exact ⟨_, _, rfl, rfl, rfl⟩
theorem issued_mnot (d : MReg) (a : MReg) (s : State) : Issued 1 [.v] false s (execMnot d a s) := by
  unfold execMnot maskOp; exact ⟨_, _, rfl, rfl, rfl⟩
theorem issued_mpop (d : Reg) (a : MReg) (s : State) : Issued 1 [.v] false s (execMpop d a s) := by
  unfold execMpop maskOp; exact ⟨_, _, rfl, rfl, rfl⟩
theorem issued_mfirst (d : Reg) (a : MReg) (s : State) : Issued 1 [.v] false s (execMfirst d a s) := by
  unfold execMfirst maskOp; exact ⟨_, _, rfl, rfl, rfl⟩
theorem issued_vcvt (d : VReg) (a : VReg) (h : BitVec 1) (t : CvtType) (rm : Rounding) (sat : Bool) (s : State) : Issued 1 [.v] false s (execVcvt d a h t rm sat s) := by
  unfold execVcvt vecIssue; exact ⟨_, _, rfl, rfl, rfl⟩
theorem issued_vrsum (d : VReg) (a : VReg) (m : MReg) (s : State) : Issued 1 [.v] false s (execVrsum d a m s) := by
  unfold execVrsum redOp vecIssue; exact ⟨_, _, rfl, rfl, rfl⟩
theorem issued_vrmax (d : VReg) (a : VReg) (m : MReg) (s : State) : Issued 1 [.v] false s (execVrmax d a m s) := by
  unfold execVrmax redOp vecIssue; exact ⟨_, _, rfl, rfl, rfl⟩
theorem issued_vrmin (d : VReg) (a : VReg) (m : MReg) (s : State) : Issued 1 [.v] false s (execVrmin d a m s) := by
  unfold execVrmin redOp vecIssue; exact ⟨_, _, rfl, rfl, rfl⟩
theorem issued_vscan (d : VReg) (a : VReg) (o : ScanOp) (m : MReg) (s : State) : Issued 1 [.v] false s (execVscan d a o m s) := by
  unfold execVscan vecIssue; exact ⟨_, _, rfl, rfl, rfl⟩
theorem issued_vmov (d : VReg) (a : VReg) (s : State) : Issued 1 [.v] false s (execVmov d a s) := by
  unfold execVmov vecIssue; exact ⟨_, _, rfl, rfl, rfl⟩
theorem issued_vbcast (d : VReg) (a : Reg) (s : State) : Issued 1 [.v] false s (execVbcast d a s) := by
  unfold execVbcast vecIssue; exact ⟨_, _, rfl, rfl, rfl⟩
theorem issued_vext (d : Reg) (a : VReg) (b : Reg) (s : State) : Issued 1 [.v] false s (execVext d a b s) := by
  unfold execVext vecIssue; exact ⟨_, _, rfl, rfl, rfl⟩
theorem issued_vins (d : VReg) (a : Reg) (b : Reg) (s : State) : Issued 1 [.v] false s (execVins d a b s) := by
  unfold execVins vecIssue; exact ⟨_, _, rfl, rfl, rfl⟩
theorem issued_vperm (d : VReg) (a : VReg) (b : VReg) (s : State) : Issued 1 [.v] false s (execVperm d a b s) := by
  unfold execVperm vecIssue; exact ⟨_, _, rfl, rfl, rfl⟩
theorem issued_vrot (d : VReg) (a : VReg) (b : Reg) (s : State) : Issued 1 [.v] false s (execVrot d a b s) := by
  unfold execVrot vecIssue; exact ⟨_, _, rfl, rfl, rfl⟩
theorem issued_vidx (d : VReg) (a : Reg) (s : State) : Issued 1 [.v] false s (execVidx d a s) := by
  unfold execVidx vecIssue; exact ⟨_, _, rfl, rfl, rfl⟩
theorem issued_vpack (d : VReg) (a : VReg) (b : VReg) (s : State) : Issued 1 [.v] false s (execVpack d a b s) := by
  unfold execVpack vecIssue; exact ⟨_, _, rfl, rfl, rfl⟩
theorem issued_vunpk (d : VReg) (a : VReg) (h : BitVec 1) (s : State) : Issued 1 [.v] false s (execVunpk d a h s) := by
  unfold execVunpk vecIssue; exact ⟨_, _, rfl, rfl, rfl⟩
theorem issued_vld (d : VReg) (a : Reg) (n : BitVec 6) (s : State) : Issued 1 [.v] false s (execVld d a n s) := by
  unfold execVld vldstOp; exact ⟨_, _, rfl, rfl, rfl⟩
theorem issued_vst (d : VReg) (a : Reg) (n : BitVec 6) (s : State) : Issued 1 [.v] false s (execVst d a n s) := by
  unfold execVst vldstOp; exact ⟨_, _, rfl, rfl, rfl⟩
theorem issued_vldq (d : VReg) (q : Handle) (n : BitVec 3) (s : State) : Issued 1 [.v] false s (execVldq d q n s) := by
  unfold execVldq vqueueOp; exact ⟨_, _, rfl, rfl, rfl⟩
theorem issued_vstq (d : VReg) (q : Handle) (n : BitVec 3) (s : State) : Issued 1 [.v] false s (execVstq d q n s) := by
  unfold execVstq vqueueOp; exact ⟨_, _, rfl, rfl, rfl⟩
theorem issued_vgat (d : VReg) (a : VReg) (b : Reg) (s : State) : Issued 1 [.v] false s (execVgat d a b s) := by
  unfold execVgat vindexOp vecIssue; exact ⟨_, _, rfl, rfl, rfl⟩
theorem issued_vsct (d : VReg) (a : VReg) (b : Reg) (s : State) : Issued 1 [.v] false s (execVsct d a b s) := by
  unfold execVsct vindexOp vecIssue; exact ⟨_, _, rfl, rfl, rfl⟩
theorem issued_swait (n : BitVec 6) (s : State) : Issued 1 [.v] false s (execSwait n s) := by
  unfold execSwait; exact ⟨_, _, rfl, rfl, rfl⟩
theorem issued_vpart (q : Handle) (a : VReg) (b : MReg) (s : State) : Issued 1 [.v] false s (execVpart q a b s) := by
  unfold execVpart vecIssue; exact ⟨_, _, rfl, rfl, rfl⟩
theorem issued_vcmpk (d : VReg) (a : VReg) (b : MReg) (s : State) : Issued 1 [.v] false s (execVcmpk d a b s) := by
  unfold execVcmpk vecIssue; exact ⟨_, _, rfl, rfl, rfl⟩
theorem issued_vexpd (d : VReg) (a : VReg) (b : MReg) (s : State) : Issued 1 [.v] false s (execVexpd d a b s) := by
  unfold execVexpd vecIssue; exact ⟨_, _, rfl, rfl, rfl⟩
theorem issued_vtcfg (t : BitVec 2) (a : Reg) (b : Reg) (kind : BitVec 1) (hi : OobMode) (lo : OobMode) (e : BitVec 8) (nm1 : BitVec 12) (s : State) : Issued 2 [.v] false s (execVtcfg t a b kind hi lo e nm1 s) := by
  unfold execVtcfg; exact ⟨_, _, rfl, rfl, rfl⟩
theorem issued_vtab (d : VReg) (a : VReg) (t : BitVec 2) (s : State) : Issued 1 [.v] false s (execVtab d a t s) := by
  unfold execVtab tabOp vecIssue; exact ⟨_, _, rfl, rfl, rfl⟩
theorem issued_vtabl (d : VReg) (a : VReg) (t : BitVec 2) (s : State) : Issued 1 [.v] false s (execVtabl d a t s) := by
  unfold execVtabl tabOp vecIssue; exact ⟨_, _, rfl, rfl, rfl⟩
theorem issued_vtabq (d : VReg) (a : VReg) (t : BitVec 2) (s : State) : Issued 1 [.v] false s (execVtabq d a t s) := by
  unfold execVtabq tabOp vecIssue; exact ⟨_, _, rfl, rfl, rfl⟩
theorem issued_vexp2 (d : VReg) (a : VReg) (s : State) : Issued 1 [.v] false s (execVexp2 d a s) := by
  unfold execVexp2 floatLane laneOp1 laneOp vecIssue; exact ⟨_, _, rfl, rfl, rfl⟩
theorem issued_vlog2 (d : VReg) (a : VReg) (s : State) : Issued 1 [.v] false s (execVlog2 d a s) := by
  unfold execVlog2 floatLane laneOp1 laneOp vecIssue; exact ⟨_, _, rfl, rfl, rfl⟩
theorem issued_flmatch (h : BitVec 3) (a : Reg) (b : Reg) (s : State) : Issued 1 [.v] false s (execFlmatch h a b s) := by
  unfold execFlmatch floeIssue; exact ⟨_, _, rfl, rfl, rfl⟩
theorem issued_flmerge (h : BitVec 3) (a : Reg) (b : Reg) (s : State) : Issued 1 [.v] false s (execFlmerge h a b s) := by
  unfold execFlmerge floeIssue; exact ⟨_, _, rfl, rfl, rfl⟩
theorem issued_flunmg (h : BitVec 3) (a : Reg) (b : Reg) (s : State) : Issued 1 [.v] false s (execFlunmg h a b s) := by
  unfold execFlunmg floeIssue; exact ⟨_, _, rfl, rfl, rfl⟩
theorem issued_flsize (d : VReg) (h : BitVec 3) (b : Reg) (s : State) : Issued 1 [.v] false s (execFlsize d h b s) := by
  unfold execFlsize vecIssue; exact ⟨_, _, rfl, rfl, rfl⟩
theorem issued_flsig (d : Reg) (h : BitVec 3) (s : State) : Issued 1 [.v] false s (execFlsig d h s) := by
  unfold execFlsig; exact ⟨_, _, rfl, rfl, rfl⟩
theorem issued_flsave (h : BitVec 3) (a : Reg) (s : State) : Issued 1 [.v] false s (execFlsave h a s) := by
  unfold execFlsave floeIssue; exact ⟨_, _, rfl, rfl, rfl⟩
theorem issued_flload (h : BitVec 3) (a : Reg) (s : State) : Issued 1 [.v] false s (execFlload h a s) := by
  unfold execFlload floeIssue; exact ⟨_, _, rfl, rfl, rfl⟩
theorem issued_flfree (h : BitVec 3) (s : State) : Issued 1 [.v] false s (execFlfree h s) := by
  unfold execFlfree floeIssue; exact ⟨_, _, rfl, rfl, rfl⟩
theorem issued_vsmx (d : VReg) (a : VReg) (b : Reg) (s : State) : Issued 1 [.v] false s (execVsmx d a b s) := by
  unfold execVsmx smxOp vecIssue; exact ⟨_, _, rfl, rfl, rfl⟩
theorem issued_vsmxs (d : VReg) (a : VReg) (b : Reg) (s : State) : Issued 1 [.v] false s (execVsmxs d a b s) := by
  unfold execVsmxs smxOp vecIssue; exact ⟨_, _, rfl, rfl, rfl⟩
theorem issued_prunepk (d : MReg) (a : VReg) (lgm : BitVec 2) (nk : BitVec 4) (s : State) : Issued 1 [.v] false s (execPrunepk d a lgm nk s) := by
  unfold execPrunepk vecIssue; exact ⟨_, _, rfl, rfl, rfl⟩
theorem issued_prunepkt (d : MReg) (a : VReg) (lgm : BitVec 2) (nk : BitVec 4) (s : State) : Issued 1 [.v] false s (execPrunepkt d a lgm nk s) := by
  unfold execPrunepkt; exact ⟨_, _, rfl, rfl, rfl⟩
theorem issued_mdpack (d : VReg) (w : BitVec 1) (k : MReg) (lgm : BitVec 2) (nk : BitVec 4) (s : State) : Issued 1 [.v] false s (execMdpack d w k lgm nk s) := by
  unfold execMdpack vecIssue; exact ⟨_, _, rfl, rfl, rfl⟩
theorem issued_mdchk (d : Reg) (a : VReg) (b : Reg) (s : State) : Issued 1 [.v] false s (execMdchk d a b s) := by
  unfold execMdchk vecIssue; exact ⟨_, _, rfl, rfl, rfl⟩
theorem issued_mmac (acc : TileNo) (qa : Handle) (qb : Handle) (qm : Handle) (s : State) : Issued 1 [.m] false s (execMmac acc qa qb qm s) := by
  unfold execMmac productIssue matIssue; exact ⟨_, _, rfl, rfl, rfl⟩
theorem issued_mmacs (acc : TileNo) (qa : Handle) (qb : Handle) (qm : Handle) (s : State) : Issued 1 [.m] false s (execMmacs acc qa qb qm s) := by
  unfold execMmacs productIssue matIssue; exact ⟨_, _, rfl, rfl, rfl⟩
theorem issued_mmacg (acc : TileNo) (qa : Handle) (qb : Handle) (qm : Handle) (s : State) : Issued 1 [.m] false s (execMmacg acc qa qb qm s) := by
  unfold execMmacg productIssue matIssue; exact ⟨_, _, rfl, rfl, rfl⟩
theorem issued_mmacsg (acc : TileNo) (qa : Handle) (qb : Handle) (qm : Handle) (s : State) : Issued 1 [.m] false s (execMmacsg acc qa qb qm s) := by
  unfold execMmacsg productIssue matIssue; exact ⟨_, _, rfl, rfl, rfl⟩
theorem issued_mclr (acc : TileNo) (s : State) : Issued 1 [.m] false s (execMclr acc s) := by
  unfold execMclr matIssue; exact ⟨_, _, rfl, rfl, rfl⟩
theorem issued_mcfg (s_ : BitVec 5) (s : State) : Issued 1 [.m] false s (execMcfg s_ s) := by
  unfold execMcfg matIssue; exact ⟨_, _, rfl, rfl, rfl⟩
theorem issued_mhdr (s_ : BitVec 5) (qm : Handle) (s : State) : Issued 1 [.m] false s (execMhdr s_ qm s) := by
  unfold execMhdr matIssue; exact ⟨_, _, rfl, rfl, rfl⟩
theorem issued_mtrn (acc : TileNo) (src : TileNo) (s : State) : Issued 1 [.m] false s (execMtrn acc src s) := by
  unfold execMtrn matIssue; exact ⟨_, _, rfl, rfl, rfl⟩
theorem issued_xcpy (d : Reg) (a : Reg) (b : Reg) (ss : Space) (ds : Space) (s : State) : Issued 2 [.x] false s (execXcpy d a b ss ds s) := by
  unfold execXcpy xIssue; exact ⟨_, _, rfl, rfl, rfl⟩
theorem issued_xcp2 (d : Reg) (a : Reg) (b : Reg) (ss : Space) (ds : Space) (s : State) : Issued 2 [.x] false s (execXcp2 d a b ss ds s) := by
  unfold execXcp2 shapedCopy xIssue; exact ⟨_, _, rfl, rfl, rfl⟩
theorem issued_xcp3 (d : Reg) (a : Reg) (b : Reg) (ss : Space) (ds : Space) (s : State) : Issued 2 [.x] false s (execXcp3 d a b ss ds s) := by
  unfold execXcp3 shapedCopy xIssue; exact ⟨_, _, rfl, rfl, rfl⟩
theorem issued_xcvt (d : Reg) (a : Reg) (b : Reg) (ss : Space) (ds : Space) (st : BitVec 4) (dt : BitVec 4) (rm : Rounding) (sr : BitVec 1) (sat : BitVec 1) (s : State) : Issued 2 [.x] false s (execXcvt d a b ss ds st dt rm sr sat s) := by
  unfold execXcvt xIssue; exact ⟨_, _, rfl, rfl, rfl⟩
theorem issued_xmcast (d : Reg) (a : Reg) (b : Reg) (rows : BitVec 8) (cols : BitVec 16) (s : State) : Issued 2 [.x] false s (execXmcast d a b rows cols s) := by
  unfold execXmcast xIssue; exact ⟨_, _, rfl, rfl, rfl⟩
theorem issued_xflw (f : Follow) (s : State) : Issued 2 [.x] false s (execXflw f s) := by
  unfold execXflw xIssue; exact ⟨_, _, rfl, rfl, rfl⟩
theorem issued_xvop (d : Reg) (a : Reg) (b : Reg) (op : VaultOp) (va : BitVec 1) (s : State) : Issued 2 [.x] false s (execXvop d a b op va s) := by
  unfold execXvop xIssue; exact ⟨_, _, rfl, rfl, rfl⟩
theorem issued_xrem (d : Reg) (a : Reg) (b : Reg) (pkg : BitVec 5) (s : State) : Issued 2 [.x] false s (execXrem d a b pkg s) := by
  unfold execXrem xIssue; exact ⟨_, _, rfl, rfl, rfl⟩
theorem issued_xwait (d : Reg) (n : BitVec 7) (mask : BitVec 2) (s : State) : Issued 2 [.x] false s (execXwait d n mask s) := by
  unfold execXwait xIssue; exact ⟨_, _, rfl, rfl, rfl⟩
theorem issued_xcmpl (a : Reg) (act : Action) (qrec : BitVec 1) (h : Handle) (s : State) : Issued 2 [.x] false s (execXcmpl a act qrec h s) := by
  unfold execXcmpl xIssue; exact ⟨_, _, rfl, rfl, rfl⟩
theorem issued_txinit (a : Reg) (s : State) : Issued 1 [.x] false s (execTxinit a s) := by
  unfold execTxinit txbOp xIssue; exact ⟨_, _, rfl, rfl, rfl⟩
theorem issued_txexp (d : Reg) (a : Reg) (b : Reg) (s : State) : Issued 1 [.x] false s (execTxexp d a b s) := by
  unfold execTxexp txbOp xIssue; exact ⟨_, _, rfl, rfl, rfl⟩
theorem issued_txarr (a : Reg) (b : Reg) (s : State) : Issued 1 [.x] false s (execTxarr a b s) := by
  unfold execTxarr txbOp xIssue; exact ⟨_, _, rfl, rfl, rfl⟩
theorem issued_txwait (d : Reg) (a : Reg) (b : Reg) (s : State) : Issued 1 [.x] false s (execTxwait d a b s) := by
  unfold execTxwait txbOp xIssue; exact ⟨_, _, rfl, rfl, rfl⟩
theorem issued_txtest (d : Reg) (a : Reg) (b : Reg) (s : State) : Issued 1 [.x] false s (execTxtest d a b s) := by
  unfold execTxtest txbOp xIssue; exact ⟨_, _, rfl, rfl, rfl⟩

end Sys2Proof.Machine
end

