-- ==== Sys2Proof/Laws/Scalar.lean ====
section
/-! SUPPORT. The shared scalar operations when they are ready, and the arithmetic facts about their results. -/

namespace Sys2Proof.Machine

/-- A two-register operation that is ready. -/
theorem aluOp_ready {d a b : Reg} {s : State} (f : Word → Word → Word) (h : Ready 1 { reads := [a, b] } s) :
    aluOp d a b f s = completes s 1 (setReg (began s) s.turn d (f (reg s s.turn a) (reg s s.turn b))) := by
  unfold aluOp; rw [issue_ready h]; simp [began, completes]

/-- A one-register operation that is ready. -/
theorem aluOp1_ready {d a : Reg} {s : State} (f : Word → Word) (h : Ready 1 { reads := [a] } s) :
    aluOp1 d a f s = completes s 1 (setReg (began s) s.turn d (f (reg s s.turn a))) := by
  unfold aluOp1; rw [issue_ready h]; simp [began, completes]

/-- An f32 operation that is ready. -/
theorem fpOp_ready {d a b : Reg} {s : State} (f : Nat → Nat → Nat × BitVec 5) (h : Ready 1 { reads := [a, b] } s) :
    fpOp d a b f s = completes s 1 (setFlags (setReg (began s) s.turn d (w64 (f ((reg s s.turn a).toNat % 2 ^ 32) ((reg s s.turn b).toNat % 2 ^ 32)).1)) s.turn
      (f ((reg s s.turn a).toNat % 2 ^ 32) ((reg s s.turn b).toNat % 2 ^ 32)).2) := by
  unfold fpOp; rw [issue_ready h]; simp [began, completes, f32In, bitsAt]

/-- A branch that is ready. -/
theorem branchOp_ready {a b : Reg} {off : BitVec 11} {s : State} (c : Word → Word → Bool) (h : Ready 1 { reads := [a, b] } s) :
    branchOp a b off c s = goesOn s (began s) (if c (reg s s.turn a) (reg s s.turn b) then .jump (target11 (streamOf s s.turn).pc off) else .seq) := by
  unfold branchOp; rw [issue_ready h]; simp [began, goesOn]

theorem shamt_eq (v : Word) : shamt v = v.toNat % 64 := by simp [shamt, bitsAt]

/-! Signed arithmetic. -/

theorem ofInt_toInt_add (x y : Word) : BitVec.ofInt 64 (x.toInt + y.toInt) = x + y := by
  apply BitVec.eq_of_toInt_eq; simp [BitVec.toInt_add]
theorem ofInt_toInt_sub (x y : Word) : BitVec.ofInt 64 (x.toInt - y.toInt) = x - y := by
  apply BitVec.eq_of_toInt_eq; simp [BitVec.toInt_sub]
theorem ofInt_toInt_mul (x y : Word) : BitVec.ofInt 64 (x.toInt * y.toInt) = x * y := by
  apply BitVec.eq_of_toInt_eq; simp [BitVec.toInt_mul]

theorem ofInt_sshiftRight (x : Word) (n : Nat) : BitVec.ofInt 64 (x.toInt / 2 ^ n) = x.sshiftRight n := by
  unfold BitVec.sshiftRight
  rw [Int.shiftRight_eq_div_pow]; norm_cast

theorem ofNat_shiftLeft (x : Word) (n : Nat) : BitVec.ofNat 64 (x.toNat * 2 ^ n) = x <<< n := by
  apply BitVec.eq_of_toNat_eq; simp [Nat.shiftLeft_eq]
theorem ofNat_shiftRight (x : Word) (n : Nat) : BitVec.ofNat 64 (x.toNat / 2 ^ n) = x >>> n := by
  apply BitVec.eq_of_toNat_eq
  simp [Nat.shiftRight_eq_div_pow]
  exact Nat.lt_of_le_of_lt (Nat.div_le_self _ _) x.isLt

theorem ofInt_sdiv (x y : Word) : BitVec.ofInt 64 (x.toInt.tdiv y.toInt) = x.sdiv y := by
  apply BitVec.eq_of_toInt_eq; simp [BitVec.toInt_sdiv]
theorem ofInt_srem (x y : Word) : BitVec.ofInt 64 (x.toInt.tmod y.toInt) = x.srem y := by
  rw [← BitVec.toInt_srem, BitVec.ofInt_toInt]

theorem mulHighU_eq (x y : Word) : BitVec.ofNat 64 (x.toNat * y.toNat / 2 ^ 64) = mulHighU x y := by
  have hx := x.isLt; have hy := y.isLt
  have hlt : x.toNat * y.toNat < 2 ^ 128 := by nlinarith
  apply BitVec.eq_of_toNat_eq
  simp only [mulHighU, BitVec.toNat_ofNat, BitVec.extractLsb'_toNat, BitVec.toNat_mul, BitVec.toNat_setWidth, Nat.shiftRight_eq_div_pow]
  rw [Nat.mod_eq_of_lt (show x.toNat < 2 ^ 128 by omega), Nat.mod_eq_of_lt (show y.toNat < 2 ^ 128 by omega), Nat.mod_eq_of_lt hlt]

theorem mulHighS_eq (x y : Word) : BitVec.ofInt 64 (x.toInt * y.toInt / 2 ^ 64) = mulHighS x y := by
  have e : x.signExtend 128 * y.signExtend 128 = BitVec.ofInt 128 (x.toInt * y.toInt) := by
    unfold BitVec.signExtend; rw [BitVec.ofInt_mul]
  apply BitVec.eq_of_toNat_eq
  simp only [mulHighS, e, BitVec.toNat_ofInt, BitVec.extractLsb'_toNat, Nat.shiftRight_eq_div_pow]
  generalize x.toInt * y.toInt = z
  omega

/-! Constants. -/

theorem signExtend_eq {w : Nat} (v : BitVec w) : v.signExtend 64 = BitVec.ofInt 64 v.toInt := rfl

theorem signExtend_shift {w : Nat} (v : BitVec w) (k : Nat) : v.signExtend 64 <<< k = BitVec.ofInt 64 (v.toInt * 2 ^ k) := by
  rw [signExtend_eq, BitVec.ofInt_mul, BitVec.shiftLeft_eq_mul_twoPow]
  congr 1
  apply BitVec.eq_of_toNat_eq
  rw [BitVec.toNat_twoPow, BitVec.toNat_ofInt]
  norm_cast

end Sys2Proof.Machine
end

