-- ==== Sys2Proof/Tests/Slice0.lean ====
section
/-! SUPPORT. Tests: words written out from the encodings of the spec, ill-formed terms, single steps with results taken from the spec, and for each statement with hypotheses a state and operands that meet them. -/

set_option maxRecDepth 4000
set_option exponentiation.threshold 400

namespace Sys2Proof.Tests

open Sys2Proof Sys2Proof.Machine

/-! States built for the tests. -/

/-- A job of one stream in slot 0 of core 0, at a page that maps to itself, with an instruction of zeros. -/
def slate (t : Sid) : State := placeCode State.reset [0#8, 0#8, 0#8, 0#8] t

/-- The job of slot 0 of core 0 changed. -/
def jobbed (s : State) (f : Job → Job) : State := modJob s 0 0 f

/-- The stream of the turn changed. -/
def streamed (s : State) (f : Stream → Stream) : State := modStream s s.turn f

/-- Registers of the stream of the turn set. -/
def regs (s : State) (l : List (Reg × Word)) : State := l.foldl (fun s e => setReg s s.turn e.1 e.2) s

/-- Bytes of physical storage set. -/
def bytes (s : State) (a : Nat) (l : List Byte) : State := { s with mem := memWrite s.mem a l }

/-- The first 12 bytes of a queue descriptor (R169): base, log2 of slot size and of count, kind, consumer, producer, HEAD, TAIL. -/
def desc (base lgs lgc kind cons prod head tail : Nat) : List Byte :=
  leBytes 4 base ++ [BitVec.ofNat 8 lgs, BitVec.ofNat 8 lgc, BitVec.ofNat 8 kind, BitVec.ofNat 8 (128 + cons * 8 + prod)] ++ leBytes 2 head ++ leBytes 2 tail

/-- Descriptor h of the job set. -/
def queue (s : State) (h : Handle) (l : List Byte) : State := bytes s (descAt 0 0 h) l

/-- The core changed. -/
def cored (s : State) (f : Core → Core) : State := modCore s 0 f

/-- Context 0 of partition 0 changed. -/
def ctxd (s : State) (f : Context → Context) : State := modCtx s 0 0 f

/-- Partition 0 changed. -/
def parted (s : State) (f : Partition → Partition) : State := modPart s 0 f

/-- The V stream with every tile f32, or i32. -/
def slateV (code : Nat) : State := jobbed (slate .v) (fun b => { b with tiletype := BitVec.ofNat 32 (code * 0x11111111) })

/-- The management core at its first instruction. -/
def slateM : State := { State.reset with turn := .mgmt, mgmt := { State.reset.mgmt with running := true, stream := { State.reset.mgmt.stream with pc := 80#64, run := .running } } }

/-! Witnesses: the hypotheses of the statements can be met. -/

theorem witness_scalar : Ready 1 { reads := [1#6, 2#6] } (slate .c) ∧ Ready 1 { reads := [1#6] } (slate .a) ∧ Ready 1 {} (slate .x) ∧ Ready 2 {} (slate .m) ∧ Ready 2 { reads := [1#6] } (slate .v) := by
  unfold Ready; decide

theorem witness_scalar_mgmt : Ready 1 { reads := [1#6, 2#6] } slateM ∧ Ready 2 { reads := [1#6] } slateM := by unfold Ready; decide

def inLoop : State := streamed (slate .m) (fun st => { st with loops := [(1, { cnt := 2#32, stop := 0x200010#64, start := 0x200000#64, act := true, age := 1 })] })

/-- A count of 0, and an active level 1 that ends at 0x200010: level 1 is active, level 0 of length 4 would end later, of length 3 at the same address. -/
theorem witness_LoopResults : Ready 1 { reads := [1#6] } inLoop ∧ Ready 1 {} inLoop ∧ Ready 1 { mgmt := false } inLoop
    ∧ (reg inLoop inLoop.turn 1#6).setWidth 32 = 0#32
    ∧ (loopOf (streamOf inLoop inLoop.turn) 1).act = true ∧ (loopOf (streamOf inLoop inLoop.turn) 0).act = false
    ∧ (∃ q ∈ (streamOf inLoop inLoop.turn).loops, q.2.act = true ∧ q.2.stop.toNat < ((streamOf inLoop inLoop.turn).pc + BitVec.ofNat 64 (4 + 4 * 4)).toNat)
    ∧ (∀ q ∈ (streamOf inLoop inLoop.turn).loops, q.2.act = true → ((streamOf inLoop inLoop.turn).pc + BitVec.ofNat 64 (4 + 4 * 3)).toNat ≤ q.2.stop.toNat) := by
  unfold Ready; decide

/-! Queues: handle 3 is a data queue of four slots of 8 bytes with two filled, 4 is empty, 5 full, 6 an outcome queue; the V stream is both ends of each. -/
def queued : State :=
  queue (queue (queue (queue (slate .v) 3#5 (desc 0x1000 3 2 0 2 2 1 3)) 4#5 (desc 0x2000 3 2 0 2 2 0 0)) 5#5 (desc 0x3000 3 2 0 2 2 0 4)) 6#5 (desc 0x4000 2 2 2 2 2 0 1)

theorem witness_QueueControlResults :
    Ready 1 { mgmt := false } queued
    ∧ (∀ h ∈ [3#5, 4#5, 5#5, 6#5], ∀ e ∈ [QEnd.consumer, .producer, .either], queueFor queued queued.turn h e = some (descOf queued 0 0 h))
    ∧ qFilled (descOf queued 0 0 3#5) = 2 ∧ qFree (descOf queued 0 0 3#5) = 2 ∧ qFilled (descOf queued 0 0 4#5) = 0 ∧ qFree (descOf queued 0 0 5#5) = 0
    ∧ qCount (descOf queued 0 0 3#5) = 4 ∧ slotsBusy (began queued) 0 0 .v 3#5 1 2 true = false ∧ slotsBusy (began queued) 0 0 .v 3#5 3 2 false = false
    ∧ names (jobOf queued 0 0) 3#5 = false
    ∧ (∀ e ∈ [QEnd.consumer, .producer, .either], queueFor queued queued.turn 7#5 e = none) := by
  unfold Ready; decide

/-- The same queues, of which an operation of the VQ names 3 and reads its first slot, and stores to its first free one. -/
def queuedBusy : State := jobbed queued (fun b => { b with seq := 2, vq := [{ kind := .vldq 0 3#5 1 1, sid := .v, cmd := 0#32, seq := 0, names := [3#5] }, { kind := .vstq 1 3#5 3 1, sid := .v, cmd := 0#32, seq := 1, names := [3#5] }] })

theorem witness_QueueControlResults_waits :
    Ready 1 { mgmt := false } queuedBusy ∧ (∀ e ∈ [QEnd.consumer, .producer, .either], queueFor queuedBusy queuedBusy.turn 3#5 e = some (descOf queuedBusy 0 0 3#5))
    ∧ slotsBusy (began queuedBusy) 0 0 .v 3#5 1 2 true = true ∧ slotsBusy (began queuedBusy) 0 0 .v 3#5 3 2 false = true ∧ names (jobOf queuedBusy 0 0) 3#5 = true
    ∧ ([3#5, 4#5] : List Handle).find? (fun h => decide (qFilled (descOf queued 0 0 h) < 2)) = some 4#5 ∧ ([3#5, 5#5] : List Handle).find? (fun h => decide (qFree (descOf queued 0 0 h) < 2)) = some 5#5
    ∧ 2 ≤ qCount (descOf queued 0 0 4#5) ∧ 2 ≤ qCount (descOf queued 0 0 5#5) ∧ qFilled (descOf queued 0 0 3#5) < 3 ∧ qCount (descOf queued 0 0 3#5) < 5 := by
  unfold Ready; decide

def queuedC : State := regs (queue (slate .c) 3#5 (desc 0x1000 3 2 0 0 0 1 3)) [(1#6, 1#64), (2#6, 4#64), (3#6, 0x180000#64)]

theorem witness_QueueTransferResults :
    (Ready 1 { mgmt := false } queued ∧ (∃ x, queueFor queued queued.turn 3#5 .consumer = some x ∧ 1 ≤ qFilled x ∧ x.kind ≠ 2 ∧ 1 ≤ qFree x))
    ∧ (∃ x, queueFor queued queued.turn 6#5 .consumer = some x ∧ 1 ≤ qFilled x ∧ x.kind = 2) ∧ (∃ x, queueFor queued queued.turn 4#5 .consumer = some x ∧ qFilled x = 0)
    ∧ (Ready 1 { mgmt := false, reads := [1#6] } queuedC ∧ (∃ x, queueFor queuedC queuedC.turn 3#5 .consumer = some x ∧ (reg queuedC queuedC.turn 1#6).toNat < qFilled x))
    ∧ names (jobOf queuedC 0 0) 3#5 = false ∧ ownDone (jobOf queuedC 0 0) .c (jobOf queuedC 0 0).seq (wordsOut (jobOf queuedC 0 0)) = true
    ∧ (reg queuedC queuedC.turn 0#6).toNat % 2 ^ 21 % 64 = 0 ∧ (reg queuedC queuedC.turn 2#6).toNat % 2 ^ 21 % 64 ≠ 0
    ∧ 0x180000 < (reg queuedC queuedC.turn 3#6).toNat % 2 ^ 21 + 64 := by
  refine ⟨⟨?_, ⟨descOf queued 0 0 3#5, ?_⟩⟩, ⟨descOf queued 0 0 6#5, ?_⟩, ⟨descOf queued 0 0 4#5, ?_⟩, ⟨?_, ⟨descOf queuedC 0 0 3#5, ?_⟩⟩, ?_⟩ <;> (try unfold Ready) <;> decide

/-- The C stream as both ends of queues 3, which has two of four slots filled, and 5, which is full; s1 is a slot not filled yet, s2 none of the queue. -/
def peeking : State := regs (queue queuedC 5#5 (desc 0x3000 3 2 0 0 0 0 4)) [(1#6, 2#64), (2#6, 4#64)]

theorem witness_QueueTransferResults_waits :
    Ready 1 { mgmt := false, reads := [1#6, 2#6] } peeking ∧ Ready 1 { mgmt := false } queuedBusy ∧ queueFor peeking peeking.turn 3#5 .consumer = some (descOf peeking 0 0 3#5)
    ∧ qFilled (descOf peeking 0 0 3#5) ≤ (reg peeking peeking.turn 1#6).toNat ∧ (reg peeking peeking.turn 1#6).toNat < qCount (descOf peeking 0 0 3#5) ∧ qCount (descOf peeking 0 0 3#5) ≤ (reg peeking peeking.turn 2#6).toNat
    ∧ (∀ e ∈ [QEnd.consumer, .producer], queueFor peeking peeking.turn 7#5 e = none) ∧ queueFor peeking peeking.turn 5#5 .producer = some (descOf peeking 0 0 5#5) ∧ qFree (descOf peeking 0 0 5#5) = 0
    ∧ slotsBusy (began queuedBusy) 0 0 .v 3#5 1 1 true = true ∧ slotsBusy (began queuedBusy) 0 0 .v 3#5 3 1 false = true ∧ names (jobOf queuedBusy 0 0) 3#5 = true := by
  unfold Ready; decide

/-! Rendezvous, pennants and waiting. -/

/-- A wait at instance 1 of the set C and V, at which V has arrived and C has ended. -/
def atSet : State := streamed (slate .v) (fun st => { st with run := .atRdv 5#5 1, rdv := [(5, 1)] })

theorem witness_RendezvousAndWaitResults :
    Ready 1 {} (slate .v) ∧ (streamOf (slate .v) (slate .v).turn).run = .running ∧ (4#5).getLsbD (sidNum .v) = true ∧ (1#5).getLsbD (sidNum .v) = false
    ∧ Ready 1 { mgmt := false } atSet ∧ (streamOf atSet atSet.turn).run = .atRdv 5#5 1
    ∧ (let b := jobOf (regs (slate .v) [(1#6, 0x200003#64), (2#6, 0x200004#64)]) 0 0
      b.kernel.toNat = 0x200000 ∧ b.kernel.toNat + b.codeLen = 0x200004)
    ∧ (coreOf atSet 0).active = some 0 ∧ (coreOf atSet 0).frozen = false
    ∧ allSids.filter (fun t => match ((jobOf atSet 0 0).streams.get t).run with | .atRdv q k => q == 5#5 && rdvMet (jobOf atSet 0 0) q k | _ => false) = [.v]
    ∧ allSids.filter (fun t => match ((jobOf atSet 0 0).streams.get t).run with | .atRdv q k => q == 6#5 && rdvMet (jobOf atSet 0 0) q k | _ => false) = [] := by
  unfold Ready; decide

/-- ipref of the first byte of the job's code, with none or 16 prefetches on their way. -/
theorem witness_RendezvousAndWaitResults_prefetch :
    let s := regs (slate .v) [(1#6, 0x200000#64)]
    Ready 1 { reads := [1#6] } s ∧ translate (began s) 0 0 (some 0) 0x200000#64 .fetch true = .ok 0x200000 0 ∧ (coreOf s 0).prefetches = []
    ∧ ((coreOf (cored s (fun c => { c with prefetches := List.replicate 16 1 })) 0).prefetches.filter (s.now < ·)).length = 16 := by
  unfold Ready; decide

theorem witness_wfi :
    (streamOf (slate .v) (slate .v).turn).run = .running
    ∧ Ready 1 {} (streamed (slate .v) (fun st => { st with run := .inWfi true }))
    ∧ Ready 1 {} slateM ∧ slateM.mgmt.mevent = 0#4 ∧ Ready 1 {} { slateM with mgmt := { slateM.mgmt with mevent := 8#4 } } := by
  unfold Ready; decide

/-- Core 0 and its V stream, as a participant set (R175). -/
def setCV : Nat := 1 + 0x400 * 2 ^ 248

/-- Pennant 1 of the context names the V stream of core 0 only; `arrived` are the positions signalled, in phase 0. -/
def pennanted (arrived : List Nat) (last : Table Nat) (f : Stream → Stream) : State :=
  streamed (ctxd (slate .v) (fun x => { x with pennants := [(1, { set := BitVec.ofNat 320 setCV, arrived := arrived, last := last })] })) f

theorem witness_PennantResults :
    Ready 1 { mgmt := false } (pennanted [] [] id) ∧ participates (pennantOf (ctxOf (pennanted [] [] id) 0 0) 1) 0 .v = true ∧ participates (pennantOf (ctxOf (pennanted [] [] id) 0 0) 2) 0 .v = false
    ∧ (pennantOf (ctxOf (pennanted [] [] id) 0 0) 1).arrived = [] ∧ phaseOpen (pennantOf (ctxOf (pennanted [] [] id) 0 0) 1) (posOf 0 .v) = false
    ∧ phaseOpen (pennantOf (ctxOf (pennanted [2] [(2, 0)] id) 0 0) 1) (posOf 0 .v) = true
    ∧ Ready 1 { mgmt := false } (pennanted [2] [(2, 0)] id)
    ∧ Ready 1 { mgmt := false } (pennanted [] [] (fun st => { st with run := .waiting, inPbar := [(1, st.pc)] }))
    ∧ allSids.find? (canSignal (jobOf (pennanted [] [] (fun st => { st with pbars := [{ tag := 1, limit := 0 }] })) 0 0) 1) = some .v
    ∧ allSids.find? (canSignal (jobOf (pennanted [] [] id) 0 0) 1) = none
    ∧ (coreOf (pennanted [] [] id) 0).active = some 0 := by
  unfold Ready; decide

theorem witness_PennantResults_completion :
    (pennantOf (ctxOf (pennanted [2] [(2, 0)] id) 0 0) 1).arrived ≠ []
    ∧ (∀ x ∈ setPositions (pennantOf (ctxOf (pennanted [2] [(2, 0)] id) 0 0) 1).set, x ∈ (pennantOf (ctxOf (pennanted [2] [(2, 0)] id) 0 0) 1).arrived)
    ∧ (∃ x ∈ setPositions (pennantOf (ctxOf (pennanted [] [] id) 0 0) 1).set, x ∉ (pennantOf (ctxOf (pennanted [] [] id) 0 0) 1).arrived) := by decide

/-! Control registers: 0x10 is one that user privilege may not reach, 5 is none. -/

def stored : State := jobbed (slate .v) (fun b => { b with vq := [{ kind := .vst 0 0 1, sid := .v, cmd := 0#32, seq := 0 }] })

theorem witness_ControlRegisterResults :
    Ready 1 { reads := [1#6] } (slate .v) ∧ isCreg 0 = true ∧ privRead 0 = false ∧ isCreg 5 = false
    ∧ (∃ n, isCreg n = true ∧ privRead n = true) ∧ (∃ n, isCreg n = true ∧ privWrite n = true) ∧ (∃ n, isCreg n = true ∧ privWrite n = false)
    ∧ supervisor (slate .v) (slate .v).turn = false ∧ supervisor (jobbed (slate .c) (fun b => { b with sv := true })) (slate .c).turn = true
    ∧ tiletypeBlocked (jobOf (slate .v) 0 0) 5#64 = false ∧ tiletypeBlocked (jobOf stored 0 0) 5#64 = true ∧ Ready 1 { reads := [1#6] } (regs stored [(1#6, 5#64)]) := by
  refine ⟨?_, by decide, by decide, by decide, ⟨0x40, ?_⟩, ⟨0x40, ?_⟩, ⟨0x30, ?_⟩, ?_, ?_, ?_, ?_, ?_⟩ <;> (try unfold Ready) <;> decide

/-! Loads, stores and atomics: the page at 0 maps to HBM, the one at 2^30 to the vaults, the one at 2^31 to nothing, the one at 3 × 2^30 out of the partition. -/

def mapped (s : State) : State := bytes (bytes s 0x100008 (leBytes 8 0x800000003F)) 0x100018 (leBytes 8 0x4000003F)

/-- None of them is in a TLB. -/
def memU : State := cored (regs (mapped (slate .c)) [(1#6, 0x200040#64), (2#6, 0x40000000#64), (3#6, 0x80000000#64), (4#6, 0xC0000000#64), (5#6, 0x200041#64)]) (fun c => { c with tlb := [] })

/-- The pages that are mapped stand in the TLB of core 0, so that an access to them makes no walk. -/
def memC : State :=
  cored memU (fun c => { c with tlb := [(0, 0x3F), (0x40000000, 0x800000003F), (0xC0000000, 0x4000003F)].map (fun e => { part := 0, ctx := 0, va := e.1, size := 0x40000000, entry := BitVec.ofNat 64 e.2 }) })

/-- An entry of the retry ring pending for the page at 2^31, for each queue of the C stream. -/
def ringed : State := parted memC (fun q => { q with rtring := 0x400001#64, ring := [0, 1].map (fun i => (i,
  { va := 0x80000000#64, kind := 1, pend := true, write := false, sid := 0, slot := 0, ctx := 0, queue := i, core := 0, node := 0, cmd := 0#32, seq := 0#32 })) })

def goesAt (s : State) (q : Queue) (va : Word) (acc : Acc) (pa : Nat) : Bool := match cAddress s 0 0 q va acc with | .at _ x k => x == pa && k == 0 | _ => false
def goesParked (s : State) (q : Queue) (va : Word) (acc : Acc) : Bool := match cAddress s 0 0 q va acc with | .parks _ _ => true | _ => false
def goesTrapped (s : State) (q : Queue) (va : Word) (acc : Acc) (c : Byte) : Bool := match cAddress s 0 0 q va acc with | .trap _ t => t.cause == c | _ => false

theorem witness_LoadAndStoreResults :
    Ready 1 { streams := [.c], reads := [1#6, 2#6] } memC ∧ Ready 1 { streams := [.c], reads := [1#6] } ringed
    ∧ (reg memC memC.turn 1#6).toNat % 8 = 0 ∧ (reg memC memC.turn 5#6).toNat % 2 ≠ 0
    ∧ goesAt (began memC) .lq 0x200040#64 .read 0x200040 = true ∧ goesAt (began memC) .sq 0x200040#64 .write 0x200040 = true
    ∧ goesParked (began ringed) .lq 0x80000000#64 .read = true ∧ goesParked (began ringed) .sq 0x80000000#64 .write = true
    ∧ goesTrapped (began memC) .sq 0xC0000000#64 .write cXlatPerm = true := by
  unfold Ready; decide

/-- A page that nothing maps: an access traps, whether an error strikes its walk or not. -/
theorem witness_LoadAndStoreResults_miss : ∃ w t, cAddress (began memC) 0 0 .lq 0x80000000#64 .read = .trap w t := by
  show ∃ w t, (if walkStruck (began memC) (jobVia (began memC) 0 0 .lq .c).who 0x80000000#64 then CAddr.trap (began memC) { cause := cDataUe, faddr := 0x80000000#64 } else _) = .trap w t
  split
  · exact ⟨_, _, rfl⟩
  · exact ⟨_, _, rfl⟩

/-- A line of the L1 is hit. -/
theorem witness_LoadAndStoreResults_hit :
    let s := cored memC (fun c => { c with l1 := [{ addr := 0x200000, bytes := List.replicate 128 7#8 }] })
    hitsNow (began s) 0 0 0x200040#64 0x200040 8 = true ∧ hitsNow (began memC) 0 0 0x200040#64 0x200040 8 = false ∧ (jobOf s 0 0).sq = []
    ∧ (cachedRead (began s) 0 0 0x200040 8 0).2 = .ok (List.replicate 8 7#8) := by
  refine ⟨by decide, by decide, by decide, rfl⟩

theorem witness_LoadAndStoreResults_mgmt :
    Ready 1 { streams := [.c], reads := [1#6, 2#6] } slateM
    ∧ (∃ l, mgmtRead (began slateM) 8 8 = .ok l) ∧ (∃ c, mgmtRead (began slateM) 0x100000000 8 = .error c)
    ∧ (∃ t, mgmtWrite (began slateM) 8 (leBytes 8 5) = .ok t) ∧ (∃ c, mgmtWrite (began slateM) 0x100000000 (leBytes 8 5) = .error c) := by
  refine ⟨by unfold Ready; decide, ⟨_, rfl⟩, ⟨_, rfl⟩, ⟨_, rfl⟩, ⟨_, rfl⟩⟩

theorem witness_AtomicResults :
    Ready 1 { streams := [.c], reads := [1#6, 2#6] } memC ∧ Ready 1 { streams := [.c], reads := [3#6, 1#6, 2#6] } memC ∧ Ready 1 { streams := [.c], reads := [3#6, 1#6, 2#6] } slateM
    ∧ goesAt (began memC) .sq 0x200040#64 .write 0x200040 = true ∧ region 0x200040 = .hbm
    ∧ goesAt (began memC) .sq 0x40000000#64 .write 0x8000000000 = true ∧ region 0x8000000000 = .vault 0 0
    ∧ goesParked (began ringed) .sq 0x80000000#64 .write = true ∧ goesTrapped (began memC) .sq 0xC0000000#64 .write cXlatPerm = true := by
  unfold Ready; decide

/-- On the management core: memory at 0, which an atomic reads and writes, and at 2^32 + 0, which it has not. -/
theorem witness_AtomicResults_mgmt :
    let s := regs slateM [(4#6, 0x100000000#64)]
    Ready 1 { streams := [.c], reads := [4#6, 2#6] } s ∧ (reg s s.turn 4#6).toNat % 8 = 0 ∧ (reg s s.turn 1#6).toNat % 8 = 0
    ∧ (∃ c, mgmtRead (began s) (reg s s.turn 4#6).toNat 8 = .error c) ∧ (∃ l, mgmtRead (began s) (reg s s.turn 1#6).toNat 8 = .ok l)
    ∧ (∃ t, mgmtWrite (began s) (reg s s.turn 1#6).toNat (leBytes 8 5) = .ok t) := by
  refine ⟨by unfold Ready; decide, by decide, by decide, ⟨_, rfl⟩, ⟨_, rfl⟩, ⟨_, rfl⟩⟩

/-- A Firn descriptor at 0x5000 of two tiles. -/
def firn : FirnDesc :=
  { va := 0x5000#64, layer := 0, metric := 0, itype := 0, maxAge := 1, refresh := 0, thr := 0, count := 2, ibase := 0x6000#64, tstride := 64, rows := 1, hu := 0, hd := 0, rb := 64,
    pitch := 64, rbase := 0x7000#64, rbytes := 64, rstride := 64, sigbase := 0x8000#64, abase := 0#64, aspace := 0, probe := true, hash := 0#64 }

/-- The context has loaded a graph of one node with that descriptor. -/
def firned : State := regs (ctxd memC (fun x => { x with graph := some { nodes := [{ firn := some firn }], edges := [], gen := 1 } })) [(6#6, 0x5000#64), (7#6, 1#64), (8#6, 2#64), (9#6, 0x5001#64)]

theorem witness_SqInstructionResults :
    Ready 1 { streams := [.c], mgmt := false, reads := [6#6, 7#6] } firned ∧ (reg firned firned.turn 1#6).toNat % 4 = 0 ∧ (reg firned firned.turn 5#6).toNat % 4 ≠ 0
    ∧ descByVa (began firned) 0 0 0x5000#64 = some firn ∧ (reg firned firned.turn 7#6).toNat % 2 ^ 24 < firn.count ∧ firn.count ≤ (reg firned firned.turn 8#6).toNat % 2 ^ 24
    ∧ descByVa (began firned) 0 0 0x5001#64 = none := by
  unfold Ready; decide

/-- An operation stands in the LQ. -/
def busyC : State := jobbed memC (fun b => { b with seq := 1, lq := [{ kind := .l1inva, sid := .c, cmd := 0#32, seq := 0 }] })

theorem witness_FenceAndCacheResults :
    Ready 1 { streams := [.c], mgmt := false, reads := [1#6, 2#6] } memC ∧ Ready 1 { streams := [.c] } busyC
    ∧ fenceDone (jobOf memC 0 0) { mask := 0x7F#7, limit := 0 } = true ∧ fenceDone (jobOf busyC 0 0) { mask := 0x7F#7, limit := 1 } = false
    ∧ fenceDone (jobOf busyC 0 0) { mask := 0x7E#7, limit := 1 } = true ∧ fenceDone (jobOf busyC 0 0) { mask := 1#7, limit := 1 } = false
    ∧ (reg memC memC.turn 0#6).toNat ≤ 0x10000 ∧ 0x10000 < (reg memC memC.turn 1#6).toNat
    ∧ translate (began memC) 0 0 (some 0) 0x200040#64 .read true = .ok 0x200040 0 ∧ translate (began memC) 0 0 (some 0) 0x80000000#64 .read true = .miss
    ∧ badTicket 0x10000000#64 = true ∧ badTicket 0xFFFFFFF#64 = false ∧ (jobOf memC 0 0).sq = []
    ∧ ticketDone (began memC) 0 0x1000#64 = true ∧ ticketDone (began memC) 0 5#64 = false := by
  unfold Ready; decide

/-- A spawn stands in the SQ before a spwait. -/
theorem witness_FenceAndCacheResults_behind :
    let s := jobbed memC (fun b => { b with sq := [{ kind := .spawn 0 0#64 0#64, sid := .c, cmd := 0#32, seq := 0 }], seq := 1 })
    Ready 1 { streams := [.c], mgmt := false, reads := [1#6] } s
    ∧ (jobOf s 0 0).sq.any (fun o => isAcq o.kind || (match o.kind with | .spawn _ _ _ => true | _ => false)) = true
    ∧ (jobOf memC 0 0).sq.any (fun o => isAcq o.kind || (match o.kind with | .spawn _ _ _ => true | _ => false)) = false := by
  unfold Ready; decide

theorem witness_FenceAndCacheResults_hit : (cachedRead (began memC) 0 0 0x200040 1 0).2 = .ok [0#8] := by rfl

theorem witness_VaultWordResults :
    Ready 1 { streams := [.c], mgmt := false, reads := [3#6, 1#6, 2#6] } memC ∧ (reg memC memC.turn 5#6).toNat % 4 ≠ 0 ∧ (reg memC memC.turn 2#6).toNat % 4 = 0
    ∧ goesAt (began memC) .sq 0x40000000#64 .write 0x8000000000 = true ∧ region 0x8000000000 = .vault 0 0 ∧ goesAt (began memC) .sq 0x200040#64 .write 0x200040 = true
    ∧ goesParked (began ringed) .sq 0x80000000#64 .write = true ∧ goesTrapped (began memC) .sq 0xC0000000#64 .write cXlatPerm = true := by
  unfold Ready; decide

/-! Traps and the system group. -/

/-- The C stream in its supervisor handler. -/
def handler : State := jobbed memC (fun b => { b with sv := true })

theorem witness_TrapInstructionResults :
    Ready 1 { streams := [.c], reads := [1#6] } memC ∧ Ready 1 { streams := [.c], sup := true } handler ∧ Ready 1 { streams := [.c], sup := true } slateM
    ∧ Ready 1 { streams := [.c], mgmt := false } (jobbed memC (fun b => { b with inh := true })) := by
  unfold Ready; decide

theorem witness_TrapEntry :
    (jobOf memC 0 0).sv = false ∧ (jobOf memC 0 0).traps = [] ∧ (coreOf memC 0).frozen = false ∧ (jobOf memC 0 0).streams.c.run = .running ∧ cAlign ≠ cDataUe ∧ Sid.v ≠ Sid.c := by decide

/-- A trap of the V stream is pending. -/
def pending : State := jobbed memC (fun b => { b with traps := [.v] })

theorem witness_TrapIsDelivered :
    (coreOf pending 0).active = some 0 ∧ (jobOf pending 0 0).killed = false ∧ (∀ t ∈ allSids, ((jobOf pending 0 0).streams.get t).faults = [])
    ∧ (jobOf pending 0 0).suspending = none ∧ (jobOf pending 0 0).traps = [.v] ∧ (jobOf pending 0 0).sv = false ∧ (jobOf pending 0 0).streams.c.run = .running ∧ (jobOf handler 0 0).sv = true := by decide

theorem witness_TrapReturn :
    let s := jobbed handler (fun b => { b with ts := .v, streams := ⟨{ used := true }, { used := true }, { used := true }, { used := true }, { used := true }⟩ })
    (∀ t ∈ allSids, ((jobOf s 0 0).streams.get t).used = true) ∧ (jobOf s 0 0).ts ≠ .c ∧ (jobOf s 0 0).ret.ended = false := by decide

theorem witness_FreezeOnViolation : cXlatPerm ≠ cDataUe ∧ (jobOf handler 0 0).sv = true ∧ partOfCore handler 0 = some 0 := by decide

/-- Core 1 of the partition holds a suspended and an active job; an entry of the ring is pending. -/
def others : State :=
  regs (modCore (jobbed ringed (fun b => { b with sv := true })) 1 (fun c => { c with active := some 1, slot0 := { st := .suspended }, slot1 := { st := .active } }))
    [(1#6, 512#64), (2#6, 511#64), (3#6, 1#64), (4#6, 0x101#64), (6#6, 0#64), (7#6, 0x100#64)]

theorem witness_SupervisorResults :
    Ready 1 { streams := [.c], sup := true, mgmt := false, reads := [1#6, 2#6] } others
    ∧ oldestEntry (partOf others 0) = some 0 ∧ oldestEntry (partOf handler 0) = none
    ∧ 512 ≤ (reg others others.turn 1#6).toNat ∧ (reg others others.turn 2#6).toNat < 512 ∧ (partOf others 0).pgran.getLsbD (255 / 16) = false ∧ (partOf others 0).pgran.getLsbD (1 / 16) = true
    ∧ (slotOf (coreOf others 1) 0).st = .suspended ∧ (slotOf (coreOf others 1) 1).st = .active ∧ (slotOf (coreOf others 0) 0).st = .active ∧ (slotOf (coreOf others 0) 1).st = .empty := by
  unfold Ready; decide

/-! The A stream: pattern 2 is configured, of one-byte elements in the scratchpad; pattern 3 is not. -/

def pat : Pattern := { base := 0x100#64, lge := 2, space := .scratch, dims := [{ count := 8, stride := 4 }] }

def slateA : State :=
  regs (bytes (queue (queue (queue (jobbed (slate .a) (fun b => { b with patterns := [(2, pat)] })) 3#5 (desc 0x1000 2 2 0 1 1 0 2)) 4#5 (desc 0x2000 2 2 1 1 1 0 2)) 5#5 (desc 0x3000 2 2 0 1 1 0 0))
    (coreAt 0 + 0x400) (leBytes 4 8 ++ leBytes 4 4 ++ leBytes 4 0 ++ leBytes 4 4)) [(1#6, 0x401#64), (2#6, 0x17FFE0#64), (3#6, 0x180000#64), (4#6, 0x400#64)]

theorem witness_PatternResults :
    Ready 2 { streams := [.a], reads := [1#6, 4#6] } slateA ∧ Ready 1 { streams := [.a], reads := [1#6] } slateA
    ∧ (reg slateA slateA.turn 1#6).toNat % 2 ^ 21 % 32 ≠ 0
    ∧ (reg slateA slateA.turn 2#6).toNat % 2 ^ 21 % 32 = 0 ∧ (reg slateA slateA.turn 2#6).toNat % 2 ^ 21 + 32 = 0x180000 ∧ 0x180000 < (reg slateA slateA.turn 3#6).toNat % 2 ^ 21 + 32
    ∧ (∀ o ∈ (jobOf slateA 0 0).aq, opPattern o.kind ≠ some 2)
    ∧ leNat (((memReadN slateA.mem (coreAt 0 + 0x400) 32).drop 0).take 4) = 8 ∧ leNat (((memReadN slateA.mem (coreAt 0 + 0x400) 32).drop 8).take 4) = 0
    ∧ tfind (jobOf slateA 0 0).patterns 2 = some pat ∧ tfind (jobOf slateA 0 0).patterns 3 = none ∧ aqCount (jobOf slateA 0 0) < 64 := by
  unfold Ready; decide

/-- A data queue of an A instruction of k elements, with at least k slots free, or filled. -/
def aRoom (s : State) (q : Handle) (e : QEnd) (kind size k : Nat) (free : Bool) : Bool :=
  match aQueue (began s) 0 0 q e kind size k with | some x => decide (k ≤ if free then qFree x else qFilled x) | none => false

theorem witness_PatternResults_queues :
    aRoom slateA 3#5 .producer 0 (2 ^ pat.lge) 2 true = true ∧ aRoom slateA 3#5 .consumer 0 (2 ^ pat.lge) 2 false = true ∧ aRoom slateA 4#5 .consumer 1 4 2 false = true
    ∧ (aQueue (began slateA) 0 0 4#5 .producer 0 (2 ^ pat.lge) 2).isNone = true ∧ (aQueue (began slateA) 0 0 4#5 .consumer 0 (2 ^ pat.lge) 2).isNone = true := by decide

/-- A window of 2 × 2 pixels of one 4-byte channel, of one tap. -/
def win : Window := { base := 0x800#64, space := .scratch, lge := 2, h := 2, w := 2, c := 1, kh := 1, kw := 1, sh := 1, sw := 1, dh := 1, dw := 1, pt := 0, pb := 0, pl := 0, pr := 0, pitch := 8, pad := [0#8, 0#8, 0#8, 0#8] }

/-- Its descriptor stands at 0x600; the window is set. -/
def windowed : State :=
  regs (bytes (jobbed slateA (fun b => { b with window := some win })) (coreAt 0 + 0x600) (leBytes 8 0x800 ++ [2#8, 0#8, 2#8, 0#8, 1#8, 0#8, 1#8, 1#8, 1#8, 1#8, 1#8, 1#8, 0#8, 0#8, 0#8, 0#8] ++ leBytes 4 8)) [(4#6, 0x600#64), (5#6, 1#64)]

theorem witness_WindowResults :
    Ready 2 { streams := [.a], reads := [4#6, 0#6] } windowed ∧ Ready 1 { streams := [.a], reads := [5#6] } windowed
    ∧ (reg windowed windowed.turn 1#6).toNat % 2 ^ 21 % 32 ≠ 0 ∧ (reg windowed windowed.turn 4#6).toNat % 2 ^ 21 % 32 = 0 ∧ 0x180000 < (reg windowed windowed.turn 3#6).toNat % 2 ^ 21 + 32
    ∧ parseWindow (memReadN windowed.mem (coreAt 0 + 0x600) 32) .scratch 2 (leBytes 4 0) = some win ∧ parseWindow (memReadN windowed.mem (coreAt 0 + 0x620) 32) .scratch 2 (leBytes 4 0) = none
    ∧ (jobOf windowed 0 0).window = some win ∧ (jobOf slateA 0 0).window = none ∧ winPH win * winPW win = 1
    ∧ aRoom windowed 5#5 .producer 0 (win.c * 2 ^ win.lge) 1 true = true ∧ winSlots win ≠ 0
    ∧ winSlots { win with h := 0 } = 0 := by
  unfold Ready; decide

/-! The V stream. -/

theorem witness_VectorRowChecks :
    Ready 1 { streams := [.v] } (slateV 0) ∧ rowCode (jobOf (slateV 0) 0 0) 0 = 0 ∧ validCode (rowCode (jobOf (slateV 3) 0 0) 0) = false
    ∧ (let s := jobbed (slateV 0) (fun b => { b with mq := [{ kind := .mclr 0 false, sid := .m, cmd := 0#32, seq := 0 }] }); tileBusy (jobOf s 0 0) 0 = true) := by
  unfold Ready; decide

/-- `VReady` as a test. -/
def vreadyB (words : Nat) (reads : List Reg) (rows : List VReg) (same : Bool) (s : State) (n j : Nat) : Bool :=
  decide (s.turn = .stream n j .v ∧ canIssue s s.turn = true ∧ issueCheck s s.turn words { streams := [.v], reads := reads } = none ∧ reads.any (isDue s s.turn) = false)
    && rows.all (fun v => validCode (rowCode (jobOf s n j) (rowOf (jobOf s n j) v)) && !tileBusy (jobOf s n j) (tileOf (rowOf (jobOf s n j) v)))
    && (!same || rows.all (fun v => rows.all (fun w => rowCode (jobOf s n j) (rowOf (jobOf s n j) v) == rowCode (jobOf s n j) (rowOf (jobOf s n j) w))))

theorem vready_of {words : Nat} {reads : List Reg} {rows : List VReg} {same : Bool} {s : State} {n j : Nat} (h : vreadyB words reads rows same s n j = true) : VReady words reads rows same s n j := by
  simp only [vreadyB, Bool.and_eq_true, decide_eq_true_eq, List.all_eq_true, Bool.not_eq_true', Bool.or_eq_true, beq_iff_eq] at h
  obtain ⟨⟨⟨a, b, c, d⟩, e⟩, f⟩ := h
  refine ⟨a, ⟨b, c, d⟩, e, fun g => ?_⟩
  rcases f with f | f
  · simp [g] at f
  · exact f

/-- Every tile f32 (code 0), i32 (code 5), or two-byte (code 2). -/
theorem witness_vector : VReady 1 [] [1#6, 2#6, 3#6] true (slateV 0) 0 0 ∧ VReady 1 [] [1#6, 2#6, 3#6] true (slateV 5) 0 0 ∧ VReady 1 [1#6, 2#6] [1#6, 2#6] true (slateV 2) 0 0
    ∧ (∀ c ∈ [0, 2, 5], rowCode (jobOf (slateV c) 0 0) (rowOf (jobOf (slateV c) 0 0) 1#6) = c) ∧ isFloat 0 = true ∧ isFloat 2 = true :=
  ⟨vready_of (by decide), vready_of (by decide), vready_of (by decide), by decide, rfl, rfl⟩

/-- Tile 0 of code lo and tile 1 of code hi; the rows that vector fields name begin at row 96, so that 0 to 31 lie in tile 0 and 32 to 63 in tile 1. -/
def slateMix (lo hi : Nat) : State := jobbed (slate .v) (fun b => { b with vwb := 96#10, tiletype := BitVec.ofNat 32 (hi * 16 + lo) })

/-- Conversions between widths 4 and 2 both ways, and between equal widths; packs. -/
theorem witness_VectorConvertReduceResults :
    VReady 1 [] [1#6, 33#6] false (slateMix 2 0) 0 0 ∧ VReady 1 [] [1#6, 33#6] false (slateMix 0 2) 0 0 ∧ VReady 1 [] [1#6, 33#6] false (slateMix 0 5) 0 0
    ∧ rowCode (jobOf (slateMix 2 0) 0 0) (rowOf (jobOf (slateMix 2 0) 0 0) 1#6) = 2 ∧ rowCode (jobOf (slateMix 2 0) 0 0) (rowOf (jobOf (slateMix 2 0) 0 0) 33#6) = 0
    ∧ laneW 2 = 2 ∧ laneW 0 = 4 ∧ laneW 5 = 4 ∧ (∃ t, cvtCode t = 2) ∧ (∃ t, cvtCode t = 0) :=
  ⟨vready_of (by decide), vready_of (by decide), vready_of (by decide), by decide, by decide, by decide, by decide, by decide, ⟨.f16, by decide⟩, ⟨.f32, by decide⟩⟩

theorem witness_VectorMoveResults :
    VReady 1 [1#6, 2#6] [1#6, 2#6] true (slateV 0) 0 0 ∧ VReady 1 [] [1#6, 33#6, 34#6] false (slateMix 2 0) 0 0 ∧ VReady 1 [] [1#6, 33#6] false (slateMix 0 2) 0 0
    ∧ VReady 1 [] [1#6, 2#6, 3#6] false (slateV 0) 0 0 :=
  ⟨vready_of (by decide), vready_of (by decide), vready_of (by decide), vready_of (by decide)⟩

/-- Queues of 512-byte slots at both ends of the V stream: 3 with two filled and two free, 4 and 5 empty; s1 is the last place of 1,024 bytes in the scratchpad, s2 misaligned, s3 the f32 1.0, s4 an infinity. -/
def vmem : State :=
  regs (queue (queue (queue (slateV 0) 3#5 (desc 0x1000 9 2 0 2 2 0 2)) 4#5 (desc 0x2000 9 2 0 2 2 0 0)) 5#5 (desc 0x3000 9 2 0 2 2 0 0))
    [(1#6, 0x17FC00#64), (2#6, 0x17FC01#64), (3#6, 0x3F800000#64), (4#6, 0x7F800000#64)]

theorem witness_VectorMemoryResults :
    Ready 1 { streams := [.v], reads := [1#6] } vmem ∧ Ready 2 { streams := [.v], reads := [1#6, 3#6] } vmem ∧ swc (jobOf vmem 0 0) = 0
    ∧ swc (jobOf stored 0 0) = 1 ∧ Ready 1 { streams := [.v] } stored
    ∧ (reg vmem vmem.turn 1#6).toNat % 2 ^ 21 % 64 = 0 ∧ (reg vmem vmem.turn 1#6).toNat % 2 ^ 21 + 512 * 2 = 0x180000 ∧ (reg vmem vmem.turn 2#6).toNat % 2 ^ 21 % 4 ≠ 0
    ∧ (∀ i < 2, validCode (rowCode (jobOf vmem 0 0) ((rowOf (jobOf vmem 0 0) 1#6 + i) % 1024)) = true ∧ tileBusy (jobOf vmem 0 0) (tileOf ((rowOf (jobOf vmem 0 0) 1#6 + i) % 1024)) = false)
    ∧ queueFor vmem vmem.turn 3#5 .consumer = some (descOf vmem 0 0 3#5) ∧ queueFor vmem vmem.turn 3#5 .producer = some (descOf vmem 0 0 3#5) ∧ (descOf vmem 0 0 3#5).lgs = 9
    ∧ qFilled (descOf vmem 0 0 3#5) = 2 ∧ qFree (descOf vmem 0 0 3#5) = 2
    ∧ queueFor vmem vmem.turn 4#5 .producer = some (descOf vmem 0 0 4#5) ∧ queueFor vmem vmem.turn (4#5 + 1#5) .producer = some (descOf vmem 0 0 5#5) ∧ qFree (descOf vmem 0 0 4#5) = 4 ∧ qFree (descOf vmem 0 0 5#5) = 4 := by
  unfold Ready; decide

theorem witness_VectorMemoryResults_rows : VReady 1 [1#6] [1#6, 2#6] false vmem 0 0 ∧ VReady 1 [] [1#6, 2#6, 3#6] false vmem 0 0 ∧ VReady 1 [] [1#6, 33#6, 34#6] false (slateMix 2 0) 0 0 ∧ VReady 1 [] [1#6] true vmem 0 0 :=
  ⟨vready_of (by decide), vready_of (by decide), vready_of (by decide), vready_of (by decide)⟩

/-- vtcfg: a finite x0 of two and of 1,365 entries, and an infinite one. -/
theorem witness_VectorMemoryResults_tables : (∃ sg mant ex, fDec fmtF32 ((reg vmem vmem.turn 3#6).toNat % 2 ^ 32) = .fin sg mant ex) ∧ (¬ ∃ sg mant ex, fDec fmtF32 ((reg vmem vmem.turn 4#6).toNat % 2 ^ 32) = .fin sg mant ex) := by
  refine ⟨⟨_, _, _, rfl⟩, ?_⟩
  rintro ⟨sg, mant, ex, h⟩
  exact absurd (show (match fDec fmtF32 ((reg vmem vmem.turn 4#6).toNat % 2 ^ 32) with | .fin _ _ _ => true | _ => false) = true by rw [h]) (by decide)

/-- Table 1 is configured for nearest and linear forms. -/
def tabled : State := jobbed (slateV 0) (fun b => { b with tables := [(1, { kind := 0, hi := .clamp, lo := .clamp, e := 0, x0 := 0, n := 2, words := [0, 0x3F800000] })] })

theorem witness_TableResults :
    VReady 1 [] [1#6, 2#6] true tabled 0 0 ∧ (jobOf tabled 0 0).vq = [] ∧ (∃ tb, tfind (jobOf tabled 0 0).tables 1 = some tb ∧ tb.kind = 0 ∧ tb.kind ≠ 1) ∧ tfind (jobOf tabled 0 0).tables 2 = none
    ∧ VReady 1 [] [1#6, 2#6] true (slateV 5) 0 0 :=
  ⟨vready_of (by decide), by decide, ⟨_, rfl, rfl, by decide⟩, by decide, vready_of (by decide)⟩

/-- Map 2 is live, map 3 lost, the others free; an operation on map 4 is outstanding. s1 is aligned to 64, s2 not to 16, s3 outside the scratchpad. -/
def floed : State :=
  regs (jobbed (cored (slateV 0) (fun c => { c with floe := [(2, { state := .live { t := 4, p := 0, r := 0, idx := [], sig := 9#64 } }), (3, { state := .lost })] }))
    (fun b => { b with seq := 1, vq := [{ kind := .flfree 4, sid := .v, cmd := 0#32, seq := 0 }] })) [(1#6, 0x1000#64), (2#6, 0x1001#64), (3#6, 0x180000#64)]

theorem witness_FloeResults :
    swc (jobOf floed 0 0) < 64 ∧ Ready 1 { streams := [.v], reads := [1#6, 2#6] } floed
    ∧ (reg floed floed.turn 1#6).toNat % 2 ^ 21 % 64 = 0 ∧ (reg floed floed.turn 2#6).toNat % 2 ^ 21 % 16 ≠ 0 ∧ (reg floed floed.turn 3#6).toNat % 2 ^ 21 = 0x180000
    ∧ (∀ o ∈ (jobOf floed 0 0).vq, floeHandle o.kind ≠ some 2) ∧ (∃ o ∈ (jobOf floed 0 0).vq, floeHandle o.kind = some 4) := by
  unfold Ready; decide

theorem witness_FloeResults_maps :
    (∃ m, liveMap (coreOf floed 0) 2 = .ok m) ∧ (∃ e, liveMap (coreOf floed 0) 3 = .error e) ∧ (∃ e, liveMap (coreOf floed 0) 5 = .error e)
    ∧ VReady 1 [1#6] [1#6] true floed 0 0 ∧ VReady 1 [1#6] [1#6] true (slateV 5) 0 0 :=
  ⟨⟨_, rfl⟩, ⟨_, rfl⟩, ⟨_, rfl⟩, vready_of (by decide), vready_of (by decide)⟩

/-- s1 is 0, s2 all 128 lanes of an f32 row, s3 one more. -/
def smx (code : Nat) : State := regs (slateV code) [(2#6, 128#64), (3#6, 129#64)]

theorem witness_SoftmaxResults :
    VReady 1 [2#6] [1#6, 2#6] true (smx 0) 0 0 ∧ VReady 1 [2#6] [1#6, 2#6] true (smx 5) 0 0
    ∧ (reg (smx 0) (smx 0).turn 1#6).toNat % 512 = 0 ∧ (reg (smx 0) (smx 0).turn 2#6).toNat % 512 = 128 ∧ (reg (smx 0) (smx 0).turn 3#6).toNat % 512 = 129
    ∧ (∀ r ∈ sizeRows (jobOf (smx 0) 0 0) 2#6 128, rowCode (jobOf (smx 0) 0 0) r = 0 ∧ tileBusy (jobOf (smx 0) 0 0) (tileOf r) = false)
    ∧ (∃ r ∈ sizeRows (jobOf (smx 5) 0 0) 2#6 128, rowCode (jobOf (smx 5) 0 0) r ≠ 0) :=
  ⟨vready_of (by decide), vready_of (by decide), by decide, by decide, by decide, by decide, by decide⟩

/-- The rows of sizes reach a tile that is not f32. -/
theorem witness_SoftmaxResults_sizes :
    let s := regs (slateMix 0 2) [(2#6, 128#64)]
    VReady 1 [2#6] [1#6, 31#6] true s 0 0 ∧ isFloat (rowCode (jobOf s 0 0) (rowOf (jobOf s 0 0) 1#6)) = true ∧ (reg s s.turn 2#6).toNat % 512 = 128 ∧ ∃ r ∈ sizeRows (jobOf s 0 0) 31#6 128, rowCode (jobOf s 0 0) r ≠ 0 :=
  ⟨vready_of (by decide), by decide, by decide, by decide⟩

/-- m1 selects lanes 0 and 1 of each group of four. -/
def masked : State := jobbed (slateV 5) (fun b => { b with masks := [(1, BitVec.ofNat 256 0x3333333333333333333333333333333333333333333333333333333333333333)] })

/-- M = 4 and N = 2, into m1 to m4; the libraries of N = 1 and N = 3. -/
theorem witness_SparsityVectorResults_blocks :
    (2 : Nat) ^ ((1#2).toNat + 1) = 4 ∧ 1 ≤ (2#4).toNat ∧ (2#4).toNat < 4 ∧ (1#3).toNat ≤ 4 ∧ (maskLibrary 1).length = 24 ∧ (maskLibrary 3).length = 24 := by decide

theorem witness_SparsityVectorResults :
    VReady 1 [] [1#6] true (slateV 0) 0 0 ∧ VReady 1 [] [1#6] true masked 0 0 ∧ Ready 1 { streams := [.v] } (slateV 0) ∧ isFloat (rowCode (jobOf (slateV 0) 0 0) (rowOf (jobOf (slateV 0) 0 0) 1#6)) = true
    ∧ (∀ q ∈ (List.range 4).map (fun i => (rowOf (jobOf (slateV 0) 0 0) 1#6 + i) % 1024), rowCode (jobOf (slateV 0) 0 0) q = 0 ∧ tileBusy (jobOf (slateV 0) 0 0) (tileOf q) = false)
    ∧ (∀ q < 2 * 16, ((List.range 4).filter (fun o => (maskOf (jobOf masked 0 0) 1#3).getLsbD (4 * q + o))).length = 2)
    ∧ ((List.range 4).filter (fun o => (maskOf (jobOf masked 0 0) 0#3).getLsbD (4 * 0 + o))).length ≠ 2 ∧ rowCode (jobOf masked 0 0) (rowOf (jobOf masked 0 0) 1#6) = 5
    ∧ VReady 1 [1#6] [1#6] true (regs (slateV 0) [(1#6, 0x20000000000#64)]) 0 0 ∧ (reg (regs (slateV 0) [(1#6, 0x20000000000#64)]) (slateV 0).turn 1#6).toNat / 2 ^ 32 % 1024 = 512
    ∧ (reg (regs (slateV 0) [(1#6, 0x20100000000#64)]) (slateV 0).turn 1#6).toNat / 2 ^ 32 % 1024 = 513 :=
  ⟨vready_of (by decide), vready_of (by decide), by unfold Ready; decide, by decide, by decide, by decide, by decide, by decide, vready_of (by decide), by decide, by decide⟩

/-! The M stream: products of two-byte elements with K of 16. Queues 1 and 2 hold A and B, 3 a dense header; 4 is empty and 5 no header queue. -/
def matted (cfg : Option Word) (filled : Nat) : State :=
  regs (bytes (queue (queue (queue (jobbed (slate .m) (fun b => { b with mcfg := cfg })) 1#5 (desc 0x1000 8 1 0 3 0 0 filled)) 2#5 (desc 0x2000 12 1 0 3 0 0 1)) 3#5 (desc 0x5000 4 1 3 3 0 0 1))
    (coreAt 0 + 0x5000) (leBytes 2 0x4E4D ++ [0#8, 0#8, 1#8, 2#8] ++ leBytes 2 16 ++ leBytes 2 1)) [(1#6, 0xF11#64), (2#6, 5#64)]

theorem witness_MatrixResults :
    (jobOf (matted (some 0xF11#64) 1) 0 0).mq.length < 16 ∧ Ready 1 { streams := [.m], reads := [1#6] } (matted none 1) ∧ Ready 1 { streams := [.m], reads := [0#1 ++ 1#5] } (matted none 1)
    ∧ cfgCheck (reg (matted none 1) (matted none 1).turn 1#6) = none ∧ cfgCheck (reg (matted none 1) (matted none 1).turn 2#6) = some cIllegal
    ∧ productCheck (began (matted (some 0xF11#64) 1)) 0 0 .mmac 0#3 1#5 2#5 3#5 0xF11#64 = none ∧ productCheck (began (matted (some 0xF11#64) 1)) 0 0 .mmacs 0#3 1#5 2#5 3#5 0xF11#64 = none
    ∧ productCheck (began (matted (some 0xF11#64) 1)) 0 0 .mmac 0#3 1#5 1#5 3#5 0xF11#64 = some cIllegal
    ∧ step0Waits (began (matted (some 0xF11#64) 1)) 0 0 .mmac 1#5 2#5 3#5 0xF11#64 = none ∧ step0Waits (began (matted (some 0xF11#64) 0)) 0 0 .mmac 1#5 2#5 3#5 0xF11#64 = some (1#5, 1)
    ∧ validCode (tileCode (jobOf (matted none 1) 0 0) 0) = true ∧ tileCode (jobOf (matted none 1) 0 0) 0 = tileCode (jobOf (matted none 1) 0 0) 1
    ∧ (mQueue (matted none 1) 0 0 1#5 3).isNone = true ∧ mQueue (matted none 1) 0 0 3#5 3 = some (descOf (matted none 1) 0 0 3#5) ∧ 1 ≤ qFilled (descOf (matted none 1) 0 0 3#5) := by
  unfold Ready; decide

theorem witness_MatrixResults_tiles : validCode (tileCode (jobOf (jobbed (slate .m) (fun b => { b with tiletype := 0x23#32 })) 0 0) 0) = false
    ∧ tileCode (jobOf (jobbed (slate .m) (fun b => { b with tiletype := 0x23#32 })) 0 0) 0 ≠ tileCode (jobOf (jobbed (slate .m) (fun b => { b with tiletype := 0x23#32 })) 0 0) 1 := by decide

/-! The X stream: s1 an HBM source, s2 a destination, s3 a length of 64 with seed 1, s4 a misaligned block, s5 an aligned one, s6 a length of 2^20 + 1, s7 of 4,097. -/
def slateX : State := regs (slate .x) [(1#6, 0x201000#64), (2#6, 0x202000#64), (3#6, 0x100000040#64), (4#6, 0x401#64), (5#6, 0x400#64), (6#6, 0x100001#64), (7#6, 4097#64)]

theorem witness_CopyResults :
    Ready 2 { streams := [.x], reads := [3#6, 1#6, 2#6] } slateX ∧ (∀ q ∈ [Queue.xvq, .xhq], xCount (jobOf slateX 0 0) q < 64)
    ∧ (jobOf slateX 0 0).armed = none
    ∧ (let k := jobOf (jobbed slateX (fun b => { b with armed := some { act := .arrival, operand := 0xFF0#64 } })) 0 0; ∃ r, k.armed = some r ∧ r.act = .arrival ∧ (partOf slateX 0).pgran.getLsbD (r.operand.toNat / 16 % 256 / 16) = false)
    ∧ (reg slateX slateX.turn 4#6).toNat % 2 ^ 21 % 32 ≠ 0 ∧ (reg slateX slateX.turn 5#6).toNat % 2 ^ 21 % 32 = 0
    ∧ (reg slateX slateX.turn 3#6).toNat % 2 ^ 32 = 64 ∧ (reg slateX slateX.turn 6#6).toNat % 2 ^ 32 = 0x100001 ∧ (reg slateX slateX.turn 7#6).toNat % 2 ^ 32 = 4097
    ∧ mcastCores 0 1 3 = [0, 1] ∧ (∀ m ∈ mcastCores 0 1 3, (partOf slateX 0).pgran.getLsbD (m / 16) = true) ∧ (∃ m ∈ mcastCores 0 2 1, (partOf slateX 0).pgran.getLsbD (m / 16) = false)
    ∧ pageStarts 0x201000#64 64 = [0x201000#64] ∧ notHbm (began slateX) (jobWho (jobOf (began slateX) 0 0) 0) 0x201000#64 = false ∧ notHbm (began memC) (jobWho (jobOf (began memC) 0 0) 0) 0x40000000#64 = true
    ∧ packageReached slateX 0 5 = false ∧ packageReached { parted slateX (fun q => { q with gangmap := [(0, 5#8)] }) with routes := [(5, 1)] } 0 5 = true := by
  refine ⟨by unfold Ready; decide, by decide, by decide, ⟨_, rfl, by decide, by decide⟩, ?_⟩; decide

/-- Queue 4 is a record queue of the X stream, 5 a data queue. -/
def waitX : State := queue (queue slateX 4#5 (desc 0x1000 3 1 4 0 4 0 0)) 5#5 (desc 0x2000 3 1 0 0 4 0 0)

def copied (l : List Op) (last : Option (Nat × Bool)) : State := jobbed waitX (fun b => { b with seq := 1, xhq := l, lastCopy := last })
def oneCopy : Op := { kind := .copy { form := .cpy, src := 0x201000#64, dst := 0x202000#64, len := 64 } none [], sid := .x, cmd := 0#32, seq := 0 }

theorem witness_CopyControlResults :
    Ready 2 { streams := [.x] } waitX ∧ Ready 2 { streams := [.x], reads := [1#6] } waitX ∧ xOutstanding (jobOf waitX 0 0) .xhq = 0 ∧ xOutstanding (jobOf (copied [oneCopy] none) 0 0) .xhq = 1
    ∧ Ready 2 { streams := [.x] } (copied [oneCopy] none)
    ∧ (jobOf waitX 0 0).lastCopy = none ∧ (jobOf waitX 0 0).mq = [] ∧ (jobOf waitX 0 0).flw = []
    ∧ (jobOf (copied [] (some (0, true))) 0 0).lastCopy = some (0, true) ∧ (jobOf (copied [] (some (0, false))) 0 0).lastCopy = some (0, false)
    ∧ (jobOf (copied [oneCopy] (some (oneCopy.seq, false))) 0 0).lastCopy = some (oneCopy.seq, false)
    ∧ ((jobOf (copied [oneCopy] (some (oneCopy.seq, false))) 0 0).xvq ++ (jobOf (copied [oneCopy] (some (oneCopy.seq, false))) 0 0).xhq).any (fun o => o.seq == oneCopy.seq && (match o.kind with | .copy _ _ _ => true | _ => false)) = true
    ∧ queueFor waitX waitX.turn 4#5 .producer = some (descOf waitX 0 0 4#5) ∧ (descOf waitX 0 0 4#5).kind = 4
    ∧ queueFor waitX waitX.turn 5#5 .producer = some (descOf waitX 0 0 5#5) ∧ (descOf waitX 0 0 5#5).kind = 0 ∧ queueFor waitX waitX.turn 6#5 .producer = none := by
  unfold Ready; decide

theorem witness_BarrierResults :
    Ready 1 { streams := [.x], reads := [1#6, 2#6] } slateX
    ∧ (let x : TxBarrier := { ph := 1#32 }; 1 ≤ (x.ph - 0#32).toNat ∧ (x.ph - 0#32).toNat ≤ 2 ^ 31 ∧ ¬ (1 ≤ (x.ph - 1#32).toNat ∧ (x.ph - 1#32).toNat ≤ 2 ^ 31)) := by
  unfold Ready; decide

/-! Events. -/

/-- A store stands in the SQ, to HBM, to a window, to the fabric; a vault word for its bank. -/
def sqOf (k : OpKind) : State := jobbed memC (fun b => { b with seq := 1, sq := [{ kind := k, sid := .c, cmd := 0#32, seq := 0 }] })
def toHbm : State := sqOf (.store 0x200040#64 0x200040 0 8 5)
def toWindow : State := sqOf (.store 0#64 0x8100000000 0 8 5)
def toAcc : State := jobbed (sqOf (.store 0#64 0x8100200000 0 8 5)) (fun b => { b with mq := [{ kind := .mclr 0 false, sid := .m, cmd := 0#32, seq := 1 }] })
def toVault : State := sqOf (.vaultWord .radd 0#64 0x8000000000 1 1#32 0#32)
def toHost : State := sqOf (.store 0#64 0x1000000000000 0 8 5)

theorem witness_MemoryEventResults :
    (coreOf toHbm 0).active = some 0
    ∧ cHead toHbm 0 0 .sq = some ({ kind := .store 0x200040#64 0x200040 0 8 5, sid := .c, cmd := 0#32, seq := 0 }, 0x200040, 8) ∧ travelTo 0x200040 = .calendar
    ∧ (cHead toWindow 0 0 .sq).isSome = true ∧ travelTo 0x8100000000 = .window ∧ accBusy toWindow 0x8100000000 8 = false
    ∧ (cHead toAcc 0 0 .sq).isSome = true ∧ travelTo 0x8100200000 = .window ∧ accBusy toAcc 0x8100200000 8 = true
    ∧ (cHead toVault 0 0 .sq).isSome = true
    ∧ (cHead toHost 0 0 .sq).isSome = true ∧ travelTo 0x1000000000000 = .fabric ∧ (jobOf toHost 0 0).landings = []
    ∧ (jobOf (jobbed memC (fun b => { b with acks := 1 })) 0 0).acks ≠ 0 := by decide

theorem witness_MemoryEventResults_arrivals :
    (∃ l, (jobOf (jobbed memC (fun b => { b with landings := [{ sid := .c, d := 1, value := 5#64, op := 0, fabric := false }] })) 0 0).landings.find? (fun l => !l.fabric) = some l ∧ l.wrong = false)
    ∧ (∃ l, (jobOf (jobbed memC (fun b => { b with landings := [{ sid := .c, d := 1, value := 5#64, op := 0, fabric := true, wrong := true }] })) 0 0).landings.find? (fun l => l.fabric && l.queue == .lq) = some l ∧ l.wrong = true)
    ∧ pageIn (coreOf memU 0).tlb 0 0 0x200040 = none ∧ pageIn (tget [] memU.dieXlat (0 / 128)) 0 0 0x200040 = none
    ∧ walkFrom memU (partOf memU 0) 0x200040 (ctxOf memU 0 0).xroot 4 = .leaf 0x3F#64 30 ∧ (walkFrom memU (partOf memU 0) 0x80000000 (ctxOf memU 0 0).xroot 4 == .miss) = true
    ∧ inHbm (partOf memU 0) (walkEntry (ctxOf memU 0 0).xroot 0x200040 3) = true
    ∧ (let s := { memU with dieXlat := [(0, [{ part := 0, ctx := 0, va := 0, size := 0x40000000, entry := 0x3F#64 }])] }
      (pageIn (tget [] s.dieXlat (0 / 128)) 0 0 0x200040).isSome = true) :=
  ⟨⟨_, rfl, rfl⟩, ⟨_, rfl, rfl⟩, by decide, by decide, by decide, by decide, by decide, by decide⟩

theorem witness_StoreWritesItsBytes :
    region 0x200040 = .hbm ∧ (∀ e ∈ toHbm.cores, e.2.owned = []) ∧ (coreOf toHbm 0).owned = []
    ∧ (∀ r ∈ (coreOf toHbm 0).owned, 0x200040 / 128 * 128 ∉ r.lines)
    ∧ (∃ m off, region 0x810017FFF8 = .core m off ∧ off + 8 = Config.scratchSize)
    ∧ tfind (streamOf (streamed memC (fun st => { st with due := [(1, 7)] })) memC.turn).due (regPlace memC memC.turn 1#6) = some 7
    ∧ tfind (streamOf memC memC.turn).due (regPlace memC memC.turn 1#6) ≠ some 7 :=
  ⟨by decide, by decide, by decide, by decide, ⟨0, 0x17FFF8, by decide, by decide⟩, by decide, by decide⟩

/-- A queue with one operation. -/
def vqOf (k : OpKind) : State := jobbed (slateV 0) (fun b => { b with seq := 1, vq := [{ kind := k, sid := .v, cmd := 0#32, seq := 0 }] })
def aqOf (k : OpKind) : State := jobbed slateA (fun b => { b with seq := 1, aq := [{ kind := k, sid := .a, cmd := 0#32, seq := 0 }] })
def xOf (k : OpKind) (stage : Nat) : State := jobbed waitX (fun b => { b with seq := 1, xvq := [{ kind := k, sid := .x, cmd := 0#32, seq := 0, stage := stage }], xhq := [{ kind := k, sid := .x, cmd := 0#32, seq := 0, stage := stage }] })
def mqOf (k : OpKind) (stage : Nat) : State := jobbed (matted (some 0xF11#64) 1) (fun b => { b with seq := 1, mq := [{ kind := k, sid := .m, cmd := 0#32, seq := 0, stage := stage }] })
def inScratch : OpKind := .copy { form := .cpy, src := 0#64, dst := 64#64, len := 64, ss := .scratch, ds := .scratch } none []
def prod : OpKind := .product .mmac 0 1#5 2#5 3#5 [0, 0, 0] 0xF11#64 false []

/-- Operations that have reached memory: an xcpy between pages of HBM, an astrm of a pattern there. -/
def inHbm : OpKind := .copy { form := .cpy, src := 0x201000#64, dst := 0x202000#64, len := 64 } none []
def far : Pattern := { base := 0x201000#64, lge := 2, space := .va, dims := [{ count := 8, stride := 4 }] }

def travelling : Op := { kind := inHbm, sid := .x, cmd := 0#32, seq := 0 }
def streaming : Op := { kind := .astrm 5#5 0 2 far 0 1, sid := .a, cmd := 0#32, seq := 0 }

theorem witness_MemoryEventResults_engines :
    engineHead (xOf inHbm 0) 0 0 .xhq = some travelling ∧ engineTravel (xOf inHbm 0) 0 0 (jobVia (xOf inHbm 0) 0 0 .xhq .x) travelling = .calendar
    ∧ engineHead (aqOf streaming.kind) 0 0 .aq = some streaming := by
  refine ⟨?_, by decide, ?_⟩
  · show (if Config.intakeFirst (xOf inHbm 0).tick then some travelling else some travelling) = some travelling
    split <;> rfl
  · show (if Config.intakeFirst (aqOf streaming.kind).tick then some streaming else some streaming) = some streaming
    split <;> rfl

theorem witness_VqMoves :
    (∀ k ∈ [OpKind.vld 0 0 1, .vst 0 0 1, .vldq 0 3#5 0 1, .vstq 0 3#5 2 1, .vgat 0 1 0 4, .vsct 0 1 0 4, .vperm 0 1 2 4], freeHead (jobOf (vqOf k) 0 0) .vq (jobOf (vqOf k) 0 0).vq = some { kind := k, sid := .v, cmd := 0#32, seq := 0 })
    ∧ qSize (descOf vmem 0 0 3#5) = 512 ∧ (descOf vmem 0 0 3#5).base + qCount (descOf vmem 0 0 3#5) * 512 ≤ Config.scratchSize
    ∧ qSlot (descOf vmem 0 0 4#5) 0 + 512 ≤ qSlot (descOf vmem 0 0 5#5) 0 := by decide

theorem witness_AqMoves :
    ∀ k ∈ [OpKind.astrm 5#5 0 2 pat 0 1, .astro 3#5 0 2 pat 0 1, .agath 5#5 4#5 0 0 2 pat 0 1, .ascat 3#5 4#5 0 0 2 pat 0 1, .awin 5#5 0 win 0 1], ∀ d ∈ [0, 1],
      let s := jobbed (aqOf k) (fun b => { b with aq := b.aq.map (fun o => { o with done := d }) })
      ∃ o, freeHead (jobOf s 0 0) .aq (jobOf s 0 0).aq = some o ∧ o.kind = k ∧ o.done = d ∧ arrived s 0 0 (jobVia s 0 0 .aq .a) o = true := by
  intro k hk d hd
  simp only [List.mem_cons, List.not_mem_nil, or_false] at hk hd
  rcases hk with rfl | rfl | rfl | rfl | rfl <;> rcases hd with rfl | rfl <;> exact ⟨_, rfl, rfl, rfl, by decide⟩

theorem witness_SpaceMoves :
    memC.mem.flaws = State.reset.mem.flaws
    ∧ (let s : State := { memC with mem := { memC.mem with flaws := [] }, vaultReady := true }
      let v := jobVia s 0 0 .sq .c
      s.mem.flaws = [] ∧ (∀ a ∈ sectorsOf 0x200040 8, keyAt s.mem a = keyBytes s 0) ∧ (∀ e ∈ s.cores, e.2.owned = []) ∧ (coreOf s v.n).power = .c0 ∧ region 0x200040 = .hbm
      ∧ blockedPage s v 0x200040#64 8 = none ∧ translate s v.who.p v.who.c v.who.core 0x200040#64 .read v.who.user = .ok 0x200040 0 ∧ region 0x8000000000 = .vault 0 0) := by decide

theorem witness_CopyMoves :
    (∀ k ∈ [inScratch, .copy { form := .cp2, src := 0#64, dst := 64#64, len := 64, ss := .scratch, ds := .scratch, shape := [64, 1, 1, 0, 0, 0, 0] } none [],
        .copy { form := .cvt, src := 0#64, dst := 64#64, len := 4, ss := .scratch, ds := .scratch } none [], .copy { form := .vop, src := 0#64, dst := 0#64, len := 1, ss := .scratch, ds := .vault } none []],
      (copyHead (xOf k 0) 0 0 .xvq).isSome = true ∨ (copyHead (xOf k 0) 0 0 .xhq).isSome = true)
    ∧ intakeHead (xOf inScratch 0) 0 = none ∧ (let k : OpKind := .copy { form := .mcast, src := 0x201000#64, dst := 0#64, len := 64, ds := .scratch, rows := 1, cols := 3 } none []; (copyHead (xOf k 2) 0 0 .xhq).isSome = true) := by decide

def recorded : State := xOf (.record 4#5 0#32 0) 0

theorem witness_CopyEnds :
    (∃ o, (jobOf recorded 0 0).xvq ++ (jobOf recorded 0 0).xhq = [] ++ o :: (jobOf recorded 0 0).xhq ∧ o.kind = .record 4#5 0#32 0) ∧ 1 ≤ qFree (descOf recorded 0 0 4#5) ∧ qSize (descOf recorded 0 0 4#5) = 8
    ∧ qSlot (descOf recorded 0 0 4#5) 0 + 8 ≤ Config.scratchSize := by
  refine ⟨⟨_, rfl, rfl⟩, ?_⟩; decide

/-- A package that is not this one, and a remote store to it: not sent yet, or sent. -/
def elsewhere : Nat := (Config.pkgid + 1#5).toNat
def remote (stage : Nat) : Op :=
  { kind := .copy { form := .rem, src := 0#64, dst := 0x201000#64, len := 64, ss := .scratch, pkg := elsewhere } none [], sid := .x, cmd := 0#32, seq := 0, stage := stage }
def sending (stage : Nat) : State := jobbed waitX (fun b => { b with seq := 1, xhq := [remote stage] })

theorem isRemote_remote (k : Nat) : isRemote (remote k) = true := by
  have h : elsewhere ≠ Config.pkgid.toNat := by unfold elsewhere; generalize Config.pkgid = p; revert p; decide
  simp [isRemote, remote, h]

theorem witness_CopyEnds_remote :
    copyHead (sending 0) 0 0 .xhq = none ∧ passesReads (sending 0) 0 0 .xhq (remote 0) = false ∧ intakeHead (sending 0) 0 = none ∧ nextRemote (jobOf (sending 0) 0 0) = some (remote 0)
    ∧ portUp (sending 0) elsewhere = false ∧ portUp { sending 0 with routes := [(elsewhere, 1)], ports := [(1, { enabled := true })] } elsewhere = true
    ∧ (jobOf (sending 1) 0 0).xhq.find? (fun o => isRemote o && o.stage == 1) = some (remote 1) ∧ (jobOf waitX 0 0).xhq.find? (fun o => isRemote o && o.stage == 1) = none := by
  have h (k : Nat) : (jobOf (sending k) 0 0).xhq = [remote k] := rfl
  refine ⟨?_, ?_, rfl, ?_, rfl, by simp [portUp, tfind, tget], ?_, rfl⟩
  · have f : freeHead (jobOf (sending 0) 0 0) .xhq (queueOf (jobOf (sending 0) 0 0) .xhq) = some (remote 0) := by rfl
    simp [copyHead, clearCopy, f, isRemote_remote]
  · have f : queueOf (jobOf (sending 0) 0 0) .xhq = [remote 0] := rfl
    simp [passesReads, f]
  · have f : heldByFence (jobOf (sending 0) 0 0) .xhq (remote 0) = false := rfl
    have p : (remote 0).parked = 0 ∧ (remote 0).stage = 0 := ⟨rfl, rfl⟩
    simp only [nextRemote, h, List.filter_cons, List.filter_nil, p, beq_self_eq_true, Bool.true_and]
    rw [if_pos (by rfl)]
    simp [isRemote_remote, f, p]
  · rw [h]; simp [isRemote_remote]; rfl

def sparse : OpKind := .product .mmacs 0 1#5 2#5 3#5 [0, 0, 0] 0xF11#64 false []

theorem witness_MqMoves :
    (∀ k ∈ [OpKind.mcfg 0xF11#64, .mclr 0 false, .mtrn 0 1, prod, sparse], ∀ t ∈ [0, 1, 2], ∃ o r, (jobOf (mqOf k t) 0 0).mq = o :: r ∧ o.kind = k ∧ o.stage = t ∧ heldByFence (jobOf (mqOf k t) 0 0) .mq o = false)
    ∧ kSteps 0xF11#64 = 1 ∧ 1 ≤ filledFrom (descOf (mqOf prod 0) 0 0 3#5) 0 ∧ startChecks (mqOf prod 0) 0 0 .mmac 2#5 3#5 0 0xF11#64 = none
    ∧ kBlocks 0xF11#64 ≤ filledFrom (descOf (mqOf prod 1) 0 0 1#5) 0 ∧ kBlocks 0xF11#64 ≤ filledFrom (descOf (mqOf prod 1) 0 0 2#5) 0 := by
  refine ⟨?_, by decide, by decide, by decide, by decide, by decide⟩
  intro k hk t ht
  simp only [List.mem_cons, List.not_mem_nil, or_false] at hk ht
  rcases hk with rfl | rfl | rfl | rfl | rfl <;> rcases ht with rfl | rfl | rfl <;> exact ⟨_, _, rfl, rfl, rfl, by decide⟩

/-! The operations of the SQ. -/

/-- A graph of one node with a launch; the spawn pool is empty, or the launch is gone. -/
def spawning (launch : Bool) : State := ctxd firned (fun x => { x with launch := if launch then some { tasks := [(0, { node := 0, tile := 0, st := .waiting, ctr := 1 })] } else none })

theorem witness_TaskMoves :
    0 < (graphOf (spawning true) 0 0).nodes.length ∧ (ctxOf (spawning true) 0 0).launch ≠ none ∧ (ctxOf (spawning false) 0 0).launch = none ∧ (jobOf (spawning true) 0 0).depth + 1 ≤ (partOf (spawning true) 0).splimit.toNat
    ∧ spawnQueue (launchOf (spawning true) 0 0) 0 < 64 ∧ (partOf (spawning true) 0).poolUsed = [] ∧ namedTask (spawning true) 0 0 0#64 = some 0 ∧ namedTask (spawning true) 0 0 1#64 = none
    ∧ ((taskOf (launchOf (spawning true) 0 0) 0).map (·.st)) = some .waiting := by decide

/-- Work-list 1 of the context is bound. -/
def listed : State := ctxd memC (fun x => { x with lists := [(1, { desc := 0x5000#64, buf := 0x6000#64, bitmap := 0x7000#64, cap := 4, entries := [7, 8], domain := 64, bits := [7, 8] })] })

theorem witness_WorkListMoves :
    (∃ l, tfind (ctxOf listed 0 0).lists 1 = some l ∧ l.entries.length < l.cap ∧ 3 < l.domain ∧ 3 ∉ l.bits ∧ 7 ∈ l.bits) ∧ tfind (ctxOf listed 0 0).lists 2 = none
    ∧ vaCheck listed { p := 0, c := 0, core := some 0, user := true } .write 0x200040#64 8 = none ∧ (vaCheck listed { p := 0, c := 0, core := some 0, user := true } .write 0xC0000000#64 8).isSome = true := by
  refine ⟨⟨_, rfl, by decide, by decide, by decide, by decide⟩, by decide, by decide, by decide⟩

theorem witness_OwnMoves :
    (coreOf memC 0).owned.length < 64 ∧ (0x200080#64).toNat % 128 = 0 ∧ translate memC 0 0 (some 0) 0x200080#64 .read false = .ok 0x200080 0 ∧ translate memC 0 0 (some 0) 0x200080#64 .write false = .ok 0x200080 0
    ∧ translate memC 0 0 (some 0) 0x80000000#64 .read false = .miss := by decide

theorem witness_FirnMoves :
    descByVa firned 0 0 0x5000#64 = some firn ∧ (∀ l, firnBlocked firned 0 0 l = none) ∧ firnReads firned (jobOf firned 0 0) (.frninv 1 0x5000#64 1#64) = []
    ∧ installSlot (ctxOf firned 0 0) (firnKey 0 1) = 0 ∧ arenaCheck firned { p := 0, c := 0, user := true } firn 1 0 = none := by
  refine ⟨by decide, fun l => ?_, by decide, by decide, by decide⟩
  have h (v : Via) (a : Word) (k : Nat) (e : v.who.p = 0) : blockedPage firned v a k = none := by
    have r : (partOf firned 0).ring = [] := by rfl
    simp [blockedPage, ringBehind, e, r]
  exact List.findSome?_eq_none_iff.2 (fun r _ => h _ _ _ rfl)

theorem witness_FirnMoves_input :
    let w : Who := { p := 0, c := 0, core := some 0, user := true }
    (∃ i l, firnInput firned w firn 1 = (i, .ok l)) ∧ (∃ u, probeTest firned w firn 1 0#64 0#64 = (u, .ok false)) ∧ arenaCheck firned w firn 1 0 = none := ⟨⟨_, _, rfl⟩, ⟨_, rfl⟩, by decide⟩

theorem witness_SqTurns :
    (∀ k ∈ [OpKind.frnput 1 0x5000#64 1#64, .depdec 1 0#64], ∃ o, headOp (jobOf (sqOf k) 0 0).sq = some o ∧ o.kind = k ∧ sqReady (sqOf k) 0 0 o = true) ∧ performsAlone (.depdec 1 0#64) = true
    ∧ headOp (jobOf (sqOf (.depdec 1 0#64)) 0 0).lq = none := by
  refine ⟨?_, by decide, by decide⟩
  intro k hk
  simp only [List.mem_cons, List.not_mem_nil, or_false] at hk
  rcases hk with rfl | rfl <;> exact ⟨_, rfl, rfl, by decide⟩

/-- An intake queue whose header stands at 0x300000, with one slot group of 16 packets at 0x301000, the first of them ready. -/
def intook (ready : Nat) (lg : Nat) : State :=
  bytes (bytes (parted memC (fun q => { q with iqhdr := [(0, 0x300001#64)], iqcore := [(0, 0#8)] })) 0x300008 (leBytes 8 0 ++ leBytes 8 0x301000 ++ leBytes 1 lg)) 0x301000 (leBytes 1 ready)

theorem witness_IntakeResults :
    (tget 0#64 (partOf (intook 1 4) 0).iqhdr 0).getLsbD 0 = true ∧ (partOf (intook 1 4) 0).pgran.getLsbD 0 = true ∧ (coreOf (intook 1 4) 0).frozen = false ∧ (coreOf (intook 1 4) 0).ctx = some 0
    ∧ (∃ u h, vaRead (intook 1 4) { deviceWho 0 0 with core := some 0 } 0x300000#64 64 = (u, .ok h) ∧ fieldAt h 24 1 = 4 ∧ fieldAt h 16 8 = 0x301000 ∧ fieldAt h 25 39 = 0)
    ∧ (∃ u h, vaRead (intook 1 3) { deviceWho 0 0 with core := some 0 } 0x300000#64 64 = (u, .ok h) ∧ fieldAt h 24 1 = 3)
    ∧ (∃ u l, vaRead (intook 1 4) { deviceWho 0 0 with core := some 0 } 0x301000#64 64 = (u, .ok l) ∧ fieldAt l 0 1 = 1) ∧ (∃ u l, vaRead (intook 0 4) { deviceWho 0 0 with core := some 0 } 0x301000#64 64 = (u, .ok l) ∧ fieldAt l 0 1 ≠ 1) :=
  ⟨by decide, by decide, by decide, by decide, ⟨_, _, rfl, by decide, by decide, by decide⟩, ⟨_, _, rfl, by decide⟩, ⟨_, _, rfl, by decide⟩, ⟨_, _, rfl, by decide⟩⟩

/-- Core 0 with a staged job and none active. -/
def staged (resumed : Bool) : State := cored (ctxd memC (fun x => { x with saved := [(0, ({}, []))] })) (fun c => { c with active := none, slot0 := { st := .staged, resumed := resumed } })
def allDone : State := jobbed memC (fun b => { b with streams := ⟨{}, {}, {}, {}, {}⟩ })
def interrupted : State := jobbed memC (fun b => { b with pend := 1#8, uimask := 0#8 })

theorem witness_JobEventResults :
    (coreOf (staged false) 0).frozen = false ∧ (coreOf (staged false) 0).active = none ∧ (coreOf (staged false) 0).ending = false ∧ stagedSlot (coreOf (staged false) 0) = some 0
    ∧ (slotOf (coreOf (staged false) 0) 0).resumed = false ∧ (slotOf (coreOf (staged true) 0) 0).resumed = true ∧ savedOf (staged true) 0 0 0 0 = some ({}, [])
    ∧ canRetire (jobOf allDone 0 0) = true ∧ canRetire (jobOf memC 0 0) = false ∧ deadlocked memC 0 0 = none
    ∧ deadlocked (streamed (slate .v) (fun st => { st with run := .atRdv 5#5 1 })) 0 0 = some .v
    ∧ ((jobOf interrupted 0 0).pend &&& ~~~(jobOf interrupted 0 0).uimask) ≠ 0#8 ∧ (jobOf interrupted 0 0).inh = false ∧ (jobOf interrupted 0 0).traps = [] ∧ (jobOf interrupted 0 0).streams.c.run = .running
    ∧ (coreOf (cored memC (fun c => { c with ending := true })) 0).ending = true ∧ (jobOf (jobbed memC (fun b => { b with npUntil := some 1 })) 0 0).npUntil = some 1 ∧ memC.now < 1
    ∧ (jobOf (jobbed memC (fun b => { b with npUntil := some 0 })) 0 0).npUntil = some 0 := by decide

/-- The V stream waits at a rendezvous that C has not reached since calendar cycle 0; the context of a staged job has stopped. -/
def dead (now : Nat) : State := { jobbed (streamed (slate .v) (fun st => { st with run := .atRdv 5#5 1 })) (fun b => { b with deadSince := some 0 }) with now := now }

theorem witness_JobEventResults_dead :
    deadlocked (dead 65536) 0 0 = some .v ∧ (jobOf (dead 65536) 0 0).deadSince = some 0 ∧ 0 + 65536 ≤ (dead 65536).now ∧ (dead 65535).now < 0 + 65536
    ∧ (ctxOf (ctxd (staged false) (fun x => { x with stopped := true })) 0 0).stopped = true ∧ (slotOf (coreOf (staged false) 0) 0).job.part = 0 ∧ (jobOf interrupted 0 0).suspending = none := by decide

/-- A launch of one waiting task, of a busy context that holds the slice. -/
def launched (stallwin : BitVec 32) : State :=
  { cored (ctxd (parted memC (fun q => { q with running := some 0, stallwin := stallwin }))
      (fun x => { x with busy := true, launch := some { tasks := [(0, { node := 0, tile := 0 })], quietSince := some 0 } })) (fun c => { c with active := none, slot0 := {} }) with now := 16 }

theorem witness_JobEventResults_stall :
    (partOf (launched 16#32) 0).running = some 0 ∧ (∃ la, (ctxOf (launched 16#32) 0 0).launch = some la ∧ stalled (launched 16#32) 0 0 la = true)
    ∧ (∃ la, (ctxOf (launched 17#32) 0 0).launch = some la ∧ stalled (launched 17#32) 0 0 la = false) :=
  ⟨by decide, ⟨_, rfl, by decide⟩, ⟨_, rfl, by decide⟩⟩

/-- A probe of tile 1 of the Firn node: its tag entry is invalid, or, where hit, its reuse copy is to come. -/
def probing (hit : Bool) : State :=
  ctxd (parted firned (fun q => { q with running := some 0 })) (fun x => { x with launch := some { tasks := [(1, { node := 0, tile := 1, st := .probing })], probes := [{ task := 1, die := 0, hit := hit }] } })

theorem witness_SchedulerEventResults :
    (partOf (probing false) 0).running = some 0 ∧ (ctxOf (probing false) 0 0).launch ≠ none ∧ (ctxOf (probing false) 0 0).stopped = false ∧ (ctxOf firned 0 0).launch = none
    ∧ nextCtx (probing false) 0 0 = none ∧ nextCtx (modCtx (probing false) 0 3 (fun x => { x with en := true })) 0 0 = some 3
    ∧ readyProbe (probing false) 0 0 0 1 false = some (1, { node := 0, tile := 1, st := .probing }, firn) ∧ readyProbe (probing true) 0 0 0 1 true = some (1, { node := 0, tile := 1, st := .probing }, firn) := by decide

theorem witness_SchedulerEventResults_probe :
    (∃ u, probeTest (probing false) (firnWho 0 0) firn 1 0#64 0#64 = (u, .ok false)) ∧ (copyResult (probing true) (firnWho 0 0) firn 1).2 = .ok ()
    ∧ (vaCheck (probing true) (firnWho 0 0) .write (firnResultVa { firn with rbase := 0x80000000#64 } 1) firn.rbytes).isSome = true
    ∧ vaCheck (probing false) (firnWho 0 0) .write (firnResultVa firn 1) firn.rbytes = none := ⟨⟨_, rfl⟩, rfl, by decide, by decide⟩

/-! The Step Sequencer and graphs. -/

/-- A context of one step record at 0x300000 over graph 1, which holds the slice. -/
def stepping (busy : Bool) (r : List Byte) : State :=
  bytes (ctxd (parted firned (fun q => { q with running := some 0 })) (fun x => { x with busy := busy, sqrec := 0x300000#64, sqcount := 1#16, sqgraph := 1#64 })) 0x300000 r

theorem witness_SequencerEventResults :
    (ctxOf (stepping false []) 0 0).busy = false ∧ (∃ g, (ctxOf (discardLaunch (stepping false []) 0 0) 0 0).graph = some g ∧ (ctxOf (discardLaunch (stepping false []) 0 0) 0 0).sqgraph = BitVec.ofNat 64 g.gen)
    ∧ (ctxOf (discardLaunch (stepping false []) 0 0) 0 0).sqstep.toNat < (ctxOf (discardLaunch (stepping false []) 0 0) 0 0).sqcount.toNat
    ∧ (ctxOf (discardLaunch memC 0 0) 0 0).graph = none
    ∧ (ctxOf (stepping true []) 0 0).busy = true ∧ (ctxOf (stepping true []) 0 0).stopped = false ∧ (partOf (stepping true []) 0).running = some 0 ∧ (ctxOf (stepping true []) 0 0).launch = none
    ∧ (∃ u w, vaRead (stepping true []) (deviceWho 0 0) (recordVa (ctxOf (stepping true []) 0 0)) 64 = (u, .ok w) ∧ fieldAt w 16 4 < 16 ∧ zeroAt w 52 64 = true)
    ∧ (∃ u w, vaRead (stepping true (zeros 16 ++ [16#8])) (deviceWho 0 0) 0x300000#64 64 = (u, .ok w) ∧ 16 ≤ fieldAt w 16 4)
    ∧ (∃ u e, vaRead (stepping true []) (deviceWho 0 0) 0x80000000#64 64 = (u, .error e))
    ∧ (∃ u, copyColumns (ctxd (stepping true []) (fun x => { x with snap := some { image := 0, step := 1 } })) 0 0 0 = (u, .ok ()))
    ∧ (∀ n ∈ coresOf (stepping true []) 0, n ≠ 0 → runsCtx (stepping true []) n 0 0 = false) ∧ (∃ n ∈ coresOf (stepping true []) 0, runsCtx (stepping true []) n 0 0 = true)
    ∧ (∀ n ∈ coresOf (launched 0#32) 0, runsCtx (launched 0#32) n 0 0 = false) :=
  ⟨by decide, ⟨_, rfl, by decide⟩, by decide, by decide, by decide, by decide, by decide, by decide, ⟨_, _, rfl, by decide, by decide⟩, ⟨_, _, rfl, by decide⟩, ⟨_, _, rfl⟩, ⟨_, rfl⟩,
    by decide, by decide, by decide⟩

/-- No step is left; SQGRAPH names another graph. -/
theorem witness_SequencerEventResults_ends :
    (let d := ctxOf (discardLaunch (ctxd (stepping false []) (fun x => { x with sqstep := 1#16 })) 0 0) 0 0; d.sqcount.toNat ≤ d.sqstep.toNat ∧ d.graph.map (·.gen) = some 1)
    ∧ (let d := ctxOf (discardLaunch (ctxd (stepping false []) (fun x => { x with sqgraph := 7#64 })) 0 0) 0 0; d.graph.map (fun g => d.sqgraph != BitVec.ofNat 64 g.gen) = some true)
    ∧ (vrangeOf (ctxOf (ctxd memC (fun x => { x with vrange := 0x10000#64 })) 0 0)).2 ≠ 0 ∧ partOfCore memC 0 = some 0 := by decide

/-- A graph of one node at 0x300000 whose kernel uses the C stream, four bytes of code long (R155, R156). -/
def graphed (cmd : Nat) : State :=
  bytes (bytes (bytes (ctxd (launched 0#32) (fun x => { x with busy := false, gladdr := 0x300000#64, glbusy := true, glcmd := cmd }))
    0x300000 (leBytes 4 0x47524150 ++ leBytes 4 0x7C1A0E35 ++ leBytes 2 1 ++ zeros 6 ++ leBytes 8 64))
    0x300040 (leBytes 8 0x300100 ++ [0#8, 0#8, 0#8, 1#8, 1#8] ++ zeros 19 ++ leBytes 8 257))
    0x300100 (leBytes 4 0x4B454E4C ++ leBytes 4 0x7C1A0E35 ++ [1#8] ++ zeros 31 ++ leBytes 4 4)

theorem witness_GraphEventResults :
    (ctxOf (graphed 1) 0 0).glbusy = true ∧ (ctxOf (graphed 1) 0 0).glcmd = 1 ∧ (ctxOf (graphed 1) 0 0).graph = none ∧ (ctxOf firned 0 0).graph ≠ none
    ∧ (match readGraph (graphed 1) 0 0 with | (_, .ok g) => g.nodes.length == 1 | _ => false) = true ∧ (match readGraph (bytes (graphed 1) 0x300000 [0#8]) 0 0 with | (_, .error e) => e == (cIllegal, 0x3FF) | _ => false) = true
    ∧ (ctxOf firned 0 0).busy = false ∧ hasJobs firned 0 0 = true ∧ hasJobs (graphed 2) 0 0 = false ∧ (ctxOf memC 0 0).en = false ∧ (partOf memC 0).running = none
    ∧ (pennantOf (ctxOf (pennanted [2] [] id) 0 0) 1).arrived ≠ [] ∧ (pennantOf (ctxOf (pennanted [] [] id) 0 0) 1).arrived = [] := by decide

/-! Management, links, the package. -/

/-- Core 0 frozen by a violation, or by a double fault. -/
def frozen (double : Bool) : State := cored memC (fun c => { c with frozen := true, doubleFault := double })

/-- An idle column of partition 0 at a latency tolerance. -/
def idle (lattol : BitVec 32) : State := cored (parted memC (fun q => { q with lattol := lattol })) (fun c => { c with active := none, slot0 := {} })

theorem witness_ManagementEventResults :
    (coreOf memC 0).frozen = false ∧ (coreOf (frozen false) 0).frozen = true ∧ (partOf (frozen false) 0).pgran.getLsbD 0 = true ∧ (coreOf (frozen true) 0).doubleFault = true ∧ (coreOf (frozen false) 0).active = some 0
    ∧ (∃ i : BitVec 9, i.toNat = 265) ∧ slateM.mgmt.running = true ∧ slateM.mgmt.stopped = false ∧ slateM.mgmt.mcause.getLsbD 8 = false ∧ slateM.mgmt.mtvec = 0#64
    ∧ partOfCore (idle 16#32) 0 = some 0 ∧ isIdle (idle 16#32) 0 0 = true ∧ (coreOf (idle 16#32) 0).power = .c0 ∧ 16 ≤ (partOf (idle 16#32) 0).lattol.toNat ∧ isIdle memC 0 0 = false
    ∧ mayC3 (idle 0x100000#32) 0 = true ∧ 1048576 ≤ (partOf (idle 0x100000#32) 0).lattol.toNat ∧ mayC3 (ctxd (idle 0x2000#32) (fun x => { x with en := true, vrange := 0x10000#64 })) 0 = false
    ∧ (coreOf State.reset 0).power ≠ .c0 ∧ (coreOf State.reset 0).gatedAt = some 0 := by
  refine ⟨by decide, by decide, by decide, by decide, by decide, ⟨265#9, rfl⟩, ?_⟩; decide

/-- Port 1 enabled with some replays. -/
def linked (replays : Nat) : State := { memC with ports := [(1, { enabled := true, next := 7#16, replays := replays })] }
def flit : Flit := { dest := 0#5, part := 0#4, ctx := 0#3, va := 0x201000#64, bytes := [1#8], arrival := none }

theorem witness_LinkEventResults :
    (tget {} (linked 0).ports 1).enabled = true ∧ (tget {} (linked 0).ports 1).down = false ∧ (tget {} (linked 0).ports 1).next = 7#16 ∧ (tget {} (linked 15).ports 1).replays < 16 ∧ 16 ≤ (tget {} (linked 16).ports 1).replays
    ∧ (tget {} memC.ports 1).enabled = false ∧ firstAllowed memC [] (partOf memC 0).ingress = none
    ∧ (firstAllowed (parted memC (fun q => { q with ingress := [(1, flit)], running := some 0 })) [] [(1, flit)]).isSome = true
    ∧ (partOf memC 0).pgran ≠ 0#16 ∧ (partOf memC 1).pgran = 0#16 ∧ (partOf memC 0).portFrozen.getLsbD 12 = false
    ∧ (partOf (parted memC (fun q => { q with portFrozen := 0x1000#16 })) 0).portFrozen.getLsbD 12 = true ∧ reqFn (.bar0Read 1#5 0#20 8#4) = 1 := by decide

theorem witness_PackageEventResults :
    (let s := { State.reset with bootgo := true }; s.bootstat = 0xFF#8 ∧ bootFailure s (hostBytes s 0 0) = some 3)
    ∧ (tget ({} : Attest) ({ State.reset with attests := [(0, { busy := true })] } : State).attests 0).busy = true ∧ (tget ({} : Attest) State.reset.attests 16).busy = false
    ∧ State.reset.locked = false ∧ (∃ port : BitVec 4, port.toNat = 11) ∧ canIssue memC memC.turn = true ∧ canIssue State.reset State.reset.turn = false := by
  refine ⟨by decide, by decide, by decide, by decide, ⟨11#4, rfl⟩, by decide, by decide⟩

/-! The clauses on what the events do. -/

/-- Numbers, zeros, infinities and NaNs of every format; the bounds of its range. -/
theorem witness_rounding :
    (∀ f ∈ [fmtF32, fmtBf16, fmtF16, fmtE4, fmtE5], ∀ x ∈ [f.maxFin, f.maxFin - 1, 2 ^ f.mb, 2 ^ f.mb - 1, 0], ∃ z, valued (fDec f x) z)
    ∧ (∃ p, valued (fDec fmtF32 0x3F800000) p ∧ 0 < p ∧ signed p true false) ∧ isZero (fDec fmtF32 0x80000000) = true
    ∧ isNan (fDec fmtF32 0x7FC00000) = true ∧ fDec fmtF32 0xFF800000 = .inf true ∧ fDec fmtF32 0x7F800000 = .inf false ∧ (∀ k, Mode.rup ≠ .sr k) := by
  have h (v : Fv) (e : (match v with | .fin _ _ _ => true | _ => false) = true) : ∃ z, valued v z := by
    cases v with
    | fin n m x => exact ⟨_, n, m, x, rfl, rfl⟩
    | _ => simp at e
  have one : (0 : ℝ) < (if false = true then -1 else 1) * ((2 ^ 23 : ℕ) : ℝ) * (2 : ℝ) ^ (-23 : ℤ) := by norm_num
  refine ⟨fun f hf x hx => h _ ?_, ⟨_, ⟨false, 2 ^ 23, -23, rfl, rfl⟩, one, fun h => absurd h (not_lt.2 one.le), fun _ => rfl, fun h => absurd h one.ne'⟩, rfl, rfl, rfl, rfl, fun k => by simp⟩
  revert x; revert f; decide

/-- A header or packet that cannot be read, of a page behind no entry or one, with the ring enabled or not; one that cannot be written. -/
theorem witness_IntakeResults_stops :
    let v : Via := { who := { deviceWho 0 0 with core := some 0 }, n := 0, slot := 0, node := 0x3FF, q := .xhq, sid := .x, intake := true }
    ringBehind memC v 0x80000000#64 = none
    ∧ ringPost memC 0 0 (ringFor v 0x80000000#64 1 false 0#32) = none
    ∧ (let s := parted memC (fun q => { q with rtring := 0x400001#64, ring := [(0, { va := 0x80000000#64, kind := 1, pend := true, write := false, sid := 4, slot := 0, ctx := 0, queue := 6, core := 0, node := 0x3FF, cmd := 0#32, seq := 0#32, intake := true })] })
      ringBehind s v 0x80000000#64 ≠ none)
    ∧ (vaCheck memC (deviceWho 0 0) .write 0x80000000#64 1).isSome = true ∧ vaCheck memC (deviceWho 0 0) .write 0x300000#64 1 = none ∧ vaCheck memC (deviceWho 0 0) .write 0x300008#64 8 = none
    ∧ (parsePacket (zeros 64)).isSome = true ∧ parsePacket [0#8, 3#8] = none
    ∧ (packetAction (zeros 2 ++ [3#8]) 0).act = .arrival ∧ (partOf memC 0).pgran.getLsbD (0 / 16) = true ∧ (partOf memC 0).pgran.getLsbD (255 / 16) = false :=
  ⟨by decide, by decide, by decide, by decide, by decide, by decide, rfl, rfl, rfl, by decide, by decide⟩

/-- With the ring enabled an entry is posted. -/
theorem witness_IntakeResults_posts :
    let v : Via := { who := { deviceWho 0 0 with core := some 0 }, n := 0, slot := 0, node := 0x3FF, q := .xhq, sid := .x, intake := true }
    (ringPost (parted memC (fun q => { q with rtring := 0x400001#64 })) 0 0 (ringFor v 0x80000000#64 1 false 0#32)).isSome = true := by decide +kernel

/-- A staged job of a node that keeps a region and starts with descriptor 3; a job with a persistent queue. -/
def keeping : State := ctxd (staged false) (fun x => { x with graph := some { nodes := [{ kernel := { used := 1, descs := [(3, zeros 64)] }, keeps := [(0x1000, 64)] }], edges := [], gen := 1 } })
def persisting : State := queue memC 3#5 (leBytes 4 0x1000 ++ [3#8, 2#8, 0#8, 0xC0#8] ++ leBytes 2 1 ++ leBytes 2 3)

theorem witness_JobEventResults_starts :
    (coreOf keeping 0).resident = none ∧ (coreOf keeping 0).lastCtx ≠ some (0, 0) ∧ (nodeOf keeping 0 0 0).keeps ≠ []
    ∧ (∀ d ∈ (nodeOf keeping 0 0 0).kernel.descs, d.1 < 32 ∧ d.2.length = 64) ∧ ((nodeOf keeping 0 0 0).kernel.descs.map (·.1)).Nodup ∧ (nodeOf (staged false) 0 0 0).keeps = []
    ∧ (nodeOf keeping 0 0 0).kernel.used.testBit (sidNum .c) = true ∧ (nodeOf keeping 0 0 0).kernel.used.testBit (sidNum .v) = false
    ∧ (coreOf persisting 0).owned = [] ∧ (descOf persisting 0 0 3#5).valid = true ∧ (descOf persisting 0 0 3#5).persist = true
    ∧ (∃ t, taskOf (launchOf (launched 0#32) 0 0) 0 = some t ∧ t.st ≠ .complete) ∧ (∃ t, taskOf { tasks := [(0, { node := 0, tile := 0, st := .dispatched, pool := some 5 })] } 0 = some t ∧ t.pool = some 5) :=
  ⟨by decide, by decide, by decide, by decide, by decide, by decide, by decide, by decide, by decide, by decide, by decide, ⟨_, rfl, by decide⟩, ⟨_, rfl, rfl⟩⟩

/-- A ready task of an idle column; the node has no Firn descriptor, or its result is to be tested. -/
def choosing (f : Option FirnDesc) : State :=
  ctxd (launched 0#32) (fun x => { x with graph := some { nodes := [{ firn := f }], edges := [], gen := 1 }, launch := some { tasks := [(0, { node := 0, tile := 0, st := .ready })], order := [(0, [0])] } })

theorem witness_SchedulerEventResults_selects :
    (selectOnce (choosing none) 0 0 0).isSome = true ∧ awaitsProbe (nodeOf (choosing none) 0 0 0) { node := 0, tile := 0, st := .ready } = false
    ∧ (selectOnce (choosing (some firn)) 0 0 0).isSome = true ∧ awaitsProbe (nodeOf (choosing (some firn)) 0 0 0) { node := 0, tile := 0, st := .ready } = true
    ∧ selectOnce (launched 0#32) 0 0 0 = none ∧ (ctxOf (choosing none) 0 0).launch ≠ none ∧ diesOf memC 0 = [0] := by decide

/-- Nodes that pass and fail the checks of R26; commit words: 5 in the first image, 7 in the second, none in a third state. -/
def imaged (a b : Nat) : State :=
  let s := ctxd memC (fun x => { x with vrange := 0x10000#64, snaparea := 0x500000#64 })
  bytes (bytes s (commitVa s 0 0 0).toNat (leBytes 8 a)) (commitVa s 0 0 1).toNat (leBytes 8 b)

theorem witness_SequencerEventResults_launches :
    (ctxOf memC 0 0).launch = none ∧ (∃ w trips, activateNodes 0 0 [{}] 0 memC = (w, .ok trips)) ∧ (∃ w, activateNodes 0 0 [{ gang := 2 }] 0 memC = (w, .error (cIllegal, 0)))
    ∧ (∀ nd : Node, nd.levels = [] → taskCount nd [] ≤ 2 ^ 24) ∧ gangMembers (partOf memC 0) < 2 ∧ (∃ f, ({ firn := some { firn with count := 0 } } : Node).firn = some f ∧ f.count < 1) := by
  refine ⟨by decide, ⟨_, _, rfl⟩, ⟨_, rfl⟩, fun nd h => ?_, by decide, ⟨_, rfl, by decide⟩⟩
  simp [taskCount, spatialTrips, h]

theorem witness_SequencerEventResults_rolls :
    (committed (imaged 5 7) 0 0 0).2 = some 5 ∧ (committed (imaged 5 7) 0 0 1).2 = some 7 ∧ (committed (imaged 5 (2 ^ 64 - 1)) 0 0 1).2 = none
    ∧ (committed memC 0 0 0).2 = none ∧ (committed memC 0 0 1).2 = none := by decide
/-- A graph header, node record, kernel header and Firn descriptor that read; nine edges of one producer; the causes of what does not. -/
def graphedAt (a : Nat) (l : List Byte) : State := bytes (graphed 1) a l

theorem witness_GraphEventResults_reads :
    (∃ u l, vaRead (graphed 1) (deviceWho 0 0) 0x300000#64 64 = (u, .ok l) ∧ fieldAt l 0 4 = 0x47524150 ∧ fieldAt l 4 4 = Config.encid.toNat ∧ fieldAt l 8 2 = 1 ∧ fieldAt l 10 2 = 0 ∧ zeroAt l 12 16 = true ∧ zeroAt l 32 64 = true)
    ∧ (∃ u l, vaRead (graphedAt 0x300004 [0#8]) (deviceWho 0 0) 0x300000#64 64 = (u, .ok l) ∧ fieldAt l 4 4 ≠ Config.encid.toNat)
    ∧ (∃ u l, vaRead (graphedAt 0x30000C [1#8]) (deviceWho 0 0) 0x300000#64 64 = (u, .ok l) ∧ zeroAt l 12 16 = false)
    ∧ (∃ u e, vaRead (ctxd (graphed 1) (fun x => { x with gladdr := 0x80000000#64 })) (deviceWho 0 0) 0x80000000#64 64 = (u, .error e))
    ∧ (∃ u l, loadNodes 0 0 0x300040#64 1 (graphed 1) 0 = (u, .ok l)) ∧ (∃ u x, loadNodes 0 0 0x300040#64 1 (graphedAt 0x30004A [4#8]) 0 = (u, .error x))
    ∧ (∃ u x, loadEdges 0 0 1 0x300000#64 1 (graphed 1) 0 = (u, .error x))
    ∧ (∃ u es, loadEdges 0 0 2 0x310000#64 9 (graphedAt 0x310000 ((List.replicate 9 [0#8, 0#8, 1#8, 0#8, 1#8, 0#8, 0#8, 0#8]).flatten)) 0 = (u, .ok es) ∧ 8 < es.countP (fun e => e.prod == 0)) :=
  ⟨⟨_, _, rfl, by decide, by decide, by decide, by decide, by decide, by decide⟩, ⟨_, _, rfl, by decide⟩, ⟨_, _, rfl, by decide⟩, ⟨_, _, rfl⟩, ⟨_, _, rfl⟩, ⟨_, _, rfl⟩, ⟨_, _, rfl⟩, ⟨_, _, rfl, by decide⟩⟩

theorem witness_GraphEventResults_nodes :
    (∃ u l, vaRead (graphed 1) (deviceWho 0 0) 0x300040#64 128 = (u, .ok l) ∧ nodeOk l = true ∧ (nodeRecord l).keeps = [])
    ∧ (∃ u l, vaRead (graphedAt 0x30004A [4#8]) (deviceWho 0 0) 0x300040#64 128 = (u, .ok l) ∧ nodeOk l = false)
    ∧ (∃ u l, vaRead (graphedAt 0x300090 (leBytes 4 0x1000 ++ leBytes 4 64)) (deviceWho 0 0) 0x300040#64 128 = (u, .ok l) ∧ nodeOk l = true ∧ (nodeRecord l).keeps ≠ [] ∧ (nodeRecord l).backing = 0#64)
    ∧ (∃ u l, vaRead (graphed 1) (deviceWho 0 0) 0x300100#64 128 = (u, .ok l) ∧ headerError 0x300100#64 l = none)
    ∧ (∃ u l, vaRead (graphedAt 0x300104 [0#8]) (deviceWho 0 0) 0x300100#64 128 = (u, .ok l) ∧ headerError 0x300100#64 l = some cEncMismatch)
    ∧ (∃ u k, loadKernel (graphed 1) 0 0 0 0x300100#64 = (u, .ok k)) ∧ (∃ u, loadFirn (graphed 1) 0 0 0 0#64 = (u, .ok none))
    ∧ (∃ u l, vaRead (graphed 1) (deviceWho 0 0) 0x320000#64 128 = (u, .ok l) ∧ firnRecord 0x320000#64 l = none) :=
  ⟨⟨_, _, rfl, by decide, by decide⟩, ⟨_, _, rfl, by decide⟩, ⟨_, _, rfl, by decide, by decide, by decide⟩, ⟨_, _, rfl, by decide⟩, ⟨_, _, rfl, by decide⟩, ⟨_, _, rfl⟩, ⟨_, rfl⟩, ⟨_, _, rfl, by decide⟩⟩

/-- An idle column between 8,192 and 2^20 cycles of latency tolerance that may lose its vault; a job to kill, with an operation that waits behind an entry of the ring. -/
theorem witness_ManagementEventResults_deep :
    mayC3 (idle 0x2000#32) 0 = true ∧ (partOf (idle 0x2000#32) 0).lattol.toNat < 1048576 ∧ 8192 ≤ (partOf (idle 0x2000#32) 0).lattol.toNat ∧ (partOf (idle 16#32) 0).lattol.toNat < 8192
    ∧ (coreOf memC 0).resident = none ∧ (coreOf memC 0).l1 = []
    ∧ (let s := jobbed ringed (fun b => { b with sq := [{ kind := .store 0x80000000#64 0 0 8 5, sid := .c, cmd := 0#32, seq := 0, parked := 1 }] })
      partOfCore s 0 = some 0 ∧ 0 ∈ parkedBehind (jobOf s 0 0) ∧ ∃ e ∈ (partOf s 0).ring, e.1 = 0 ∧ e.2.pend = true) := by
  refine ⟨by decide, by decide, by decide, by decide, by decide, by decide, by decide, by decide, ⟨_, List.mem_cons_self .., rfl, rfl⟩⟩

/-- Flits to a page that is mapped and to ones that are not, one that arrives at a barrier of the partition or of another, one for this package. -/
def sentHere (arrival : Option (BitVec 12)) : Flit := { flit with dest := Config.pkgid, arrival := arrival }

theorem witness_LinkEventResults_flits :
    translate memC 0 0 none 0x201000#64 .write true = .ok 0x201000 0 ∧ region 0x201000 = .hbm ∧ sectorsOf 0x201000 1 = [0x201000] ∧ keyAt memC.mem 0x201000 = keyBytes memC 0
    ∧ vaCheck memC { p := 0, c := 0, user := true } .write 0x80000000#64 1 = some (.miss 0x80000000#64) ∧ (vaCheck memC { p := 0, c := 0, user := true } .write 0xC0000000#64 1).isSome = true
    ∧ (partOf memC 0).pgran.getLsbD (0 / 256) = true ∧ (partOf memC 0).pgran.getLsbD (0xFF0 / 256) = false
    ∧ (sentHere none).dest = Config.pkgid ∧ (partOf memC 0).portFrozen.getLsbD 1 = false ∧ heldBytes (partOf memC 0) + (sentHere none).bytes.length ≤ 65536
    ∧ (∀ (q : Partition) (l : List Byte), l.length = 65536 → q.ingress = [(1, { flit with bytes := l })] → 65536 < heldBytes q + flit.bytes.length)
    ∧ (∃ n ∈ coresOf memC 0, (coreOf memC n).ctx = some 0) ∧ mustHold memC (sentHere none) = false
    ∧ (∀ n ∈ coresOf (cored memC (fun c => { c with ctx := none })) 0, (coreOf (cored memC (fun c => { c with ctx := none })) n).ctx ≠ some 0) := by
  refine ⟨by decide, by decide, by decide, by decide, by decide, by decide, by decide, by decide, rfl, by decide, by decide, ?_, by decide, by decide, by decide⟩
  intro q l h e
  simp [heldBytes, h, e, flit]

/-- A request that the partition's memory holds, and one past its end; the host's port up and down. -/
theorem witness_LinkEventResults_host :
    hostDown memC = false ∧ hostDown { memC with ports := [(12, { down := true })] } = true
    ∧ 0x1000 + 8 ≤ (hbmRange (partOf memC 0)).2 ∧ (hbmRange (partOf memC 0)).2 < 2 ^ 40 ∧ ownsKey (partOf memC 0) (partOf memC 0).hkey.toNat = true ∧ region ((hbmRange (partOf memC 0)).1 + 0x1000) = .hbm
    ∧ keyAt memC.mem 0x1000 = keyBytes memC (partOf memC 0).hkey.toNat := by decide
/-- A range that ends past the scratchpad, and one that begins there. -/
theorem witness_VectorMemoryResults_bounds :
    (reg vmem vmem.turn 1#6).toNat % 2 ^ 21 % 64 = 0 ∧ 0x180000 < (reg vmem vmem.turn 1#6).toNat % 2 ^ 21 + 512 * 3
    ∧ (let s := regs vmem [(1#6, 0x180000#64)]; (reg s s.turn 1#6).toNat % 2 ^ 21 % 4 = 0 ∧ 0x180000 ≤ (reg s s.turn 1#6).toNat % 2 ^ 21) := by decide

/-- A trap of the C stream itself is pending. -/
theorem witness_TrapIsDelivered_own :
    let s := jobbed memC (fun b => { b with traps := [.c], streams := b.streams.set .c { b.streams.c with run := .stopped } })
    (jobOf s 0 0).traps = [.c] ∧ (jobOf s 0 0).streams.c.run = .stopped ∧ (jobOf s 0 0).sv = false ∧ (coreOf s 0).frozen = false ∧ ∀ t ∈ allSids, ((jobOf s 0 0).streams.get t).faults = [] := by decide

/-- What walks nothing is not struck: a range of a page in the TLB; a Firn entry that is not valid is not read for. -/
theorem witness_struck : ownStruck memC 0 (jobOf memC 0 0) 0x200080#64 128#64 = false ∧ probeReads (ctxOf (probing false) 0 0) firn 1 0#64 = false
    ∧ walkStruck memC { p := 0, c := 0, core := some 0 } 0x200040#64 = false := by decide
/-! The machine as a whole. -/

/-- A wfi waits, a queue of the V stream gets a filled slot, or none; its stream's position is among those of a phase. -/
theorem witness_RendezvousAndWaitResults_wakes :
    let s := jobbed (queue (slateV 0) 3#5 (desc 0x1000 9 2 0 2 2 0 1)) (fun b => { b with streams := b.streams.set .v { b.streams.v with run := .inWfi false } })
    (∀ f ∈ [1, 2], let u := setDesc s 0 0 3#5 10 (leBytes 2 f)
      (descOf s 0 0 3#5).cons = sidNum .v ∧ (decide (qFilled (descOf s 0 0 3#5) < qFilled (descOf u 0 0 3#5)) = (f == 2)))
    ∧ ((jobOf s 0 0).streams.get .v).run = .inWfi false ∧ ((jobOf s 0 0).streams.get .c).run ≠ .inWfi false
    ∧ Config.descOffset < Config.descOffset + 64 * 3 + (leBytes 2 1).length ∧ Config.descOffset + 64 * 3 < Config.descOffset + 0x1000
    ∧ (coreOf s 0).active = some 0 ∧ (jobOf s 0 0).ctx = 0 ∧ posOf 0 .v ∈ [2] ∧ posOf 0 .v ∉ [1]
    ∧ rdvMet { jobOf s 0 0 with met := [(5, 1)] } 5#5 1 = true ∧ rdvMet { jobOf s 0 0 with met := [(5, 1)] } 5#5 2 = false := by decide

/-- A pbara of tag 1 not yet signalled; one signalled whose phase is open; one whose phase has ended. -/
theorem witness_PennantResults_split :
    (∃ e ∈ (streamOf (pennanted [] [] (fun st => { st with pbars := [{ tag := 1, limit := 0, held := false }] })) (pennanted [] [] id).turn).pbars, e.tag = 1 ∧ e.held = false)
    ∧ (∀ ph ∈ [0, 1], let w : Pennant := { set := BitVec.ofNat 320 setCV, lastSplit := [(2, 0)], phase := ph }
      ∃ k, tfind w.lastSplit (posOf 0 .v) = some k ∧ decide (w.phase ≤ k) = (ph == 0)) := by
  refine ⟨⟨_, List.mem_singleton.2 rfl, rfl, rfl⟩, fun ph h => ⟨0, ?_, ?_⟩⟩ <;> (revert ph; decide)

/-- Operations of the VQ that one part of has gone: some lanes, with what was read. -/
def vqMid (k : OpKind) (read : List (List Byte)) : State :=
  jobbed (slateV 0) (fun b => { b with seq := 1, vq := [{ kind := k, sid := .v, cmd := 0#32, seq := 0, stage := 1, gone := [(0, 0)], read := read }] })

theorem witness_VqMoves_parts :
    (∀ e ∈ [(OpKind.vld 0 0 1, 0), (.vst 0 0 1, 1), (.vgat 0 1 0 4, 1), (.vperm 0 1 2 4, 2)], let s := vqMid e.1 (List.replicate e.2 (zeros 512))
      ∃ o, freeHead (jobOf s 0 0) .vq (jobOf s 0 0).vq = some o ∧ o.kind = e.1 ∧ o.stage = 1 ∧ o.read.length = e.2 ∧ (0, 0) ∈ o.gone)
    ∧ (zeros 512).length = 512 ∧ (∀ e ∈ [OpKind.vgat 0 1 0 4, .vperm 0 1 2 4], vqDest e = some 0) := by
  refine ⟨fun e h => ?_, by decide, by decide⟩
  simp only [List.mem_cons, List.not_mem_nil, or_false] at h
  rcases h with rfl | rfl | rfl | rfl <;> exact ⟨_, rfl, rfl, rfl, rfl, by decide⟩

/-- A completion record of a full queue is barred, one of a queue with a free slot is not; an armed arrival at a barrier that completes, and at one that does not. -/
theorem witness_CopyEnds_actions :
    qFree (descOf (queue recorded 4#5 (desc 0x1000 3 1 4 0 4 0 2)) 0 0 4#5) = 0
    ∧ qFree (descOf recorded 0 0 4#5) ≠ 0 ∧ (∀ o ∈ (jobOf recorded 0 0).xvq, overwrites recorded 0 0 (unread (jobOf recorded 0 0)) o = false)
    ∧ (∀ e ∈ [(64, true), (65, false)], let x : TxBarrier := { armed := true, exp := BitVec.ofNat 48 e.1 }
      decide (x.armed = true ∧ x.exp.toNat ≤ (x.arr + BitVec.ofNat 48 64).toNat) = e.2) := by decide

/-- A snapshot whose area is mapped to nothing. -/
theorem witness_SequencerEventResults_fails :
    (match (copyColumns (modCore (ctxd (stepping true []) (fun x => { x with snap := some { image := 0, step := 1 }, vrange := 0x10000#64, snaparea := 0x80000000#64 })) 0 (fun k => { k with dirty0 := [0] })) 0 0 0).2 with
      | .error _ => true | .ok _ => false) = true := by decide

/-- The context of the slice; the only context of a partition, with its commit words due; their place; bytes of block 1 of a range that holds it. -/
def due : State := ctxd memC (fun x => { x with vrange := 0x20000#64, snaparea := 0x500000#64, commitDue := true })

theorem witness_GraphEventResults_more :
    (ctxOf (ctxd (parted memC (fun q => { q with running := some 0 })) (fun x => { x with en := true })) 0 0).en = true
    ∧ (partOf due 0).ctxs = [(0, ctxOf due 0 0)] ∧ (ctxOf due 0 0).commitDue = true
    ∧ (let y := ctxOf due 0 0
      let at' := y.snaparea + BitVec.ofNat 64 (2 * (coresOf due 0).length * (y.vrange.toNat / 2 ^ 16 % 2 ^ 12 * 4096))
      translate due 0 0 none at' .write false = .ok at'.toNat 0 ∧ region at'.toNat = .hbm ∧ at'.toNat % 0x10000 + 8 ≤ 0x10000)
    ∧ partOfCore due 0 = some 0 ∧ 4096 / 4096 ≤ 1 ∧ 1 ≤ (4096 + 8 - 1) / 4096
    ∧ (∃ e ∈ (partOf due 0).ctxs, e.2.vrange.toNat % 2 ^ 12 ≤ 1 ∧ 1 < e.2.vrange.toNat % 2 ^ 12 + e.2.vrange.toNat / 2 ^ 16 % 2 ^ 12) := by
  refine ⟨by decide, rfl, by decide, by decide, by decide, by decide, by decide, ⟨_, List.mem_singleton.2 rfl, by decide, by decide⟩⟩

/-- Numbers, infinities and NaNs as the operands of comparisons, minima, tables, powers and pruning. -/
theorem witness_numbers :
    ranks (fDec fmtF32 0xFF800000) ⊥ ∧ ranks (fDec fmtF32 0x7F800000) ⊤ ∧ isNan (fDec fmtF32 0x7FC00000) = true ∧ isSnan (fDec fmtF32 0x7F800001) = true ∧ fDec fmtF32 0x7FC00000 = .nan false
    ∧ (∀ b ∈ [0x3F800000, 0xBF800000, 0x40000000, 0], ∃ x, valued (fDec fmtF32 b) x ∧ ranks (fDec fmtF32 b) x)
    ∧ valued (fDec fmtF32 0x3F800000) 1 ∧ valued (fDec fmtF32 0xBF800000) (-1) ∧ valued (fDec fmtF32 0x40000000) ((2 : ℝ) ^ (1 : ℤ)) ∧ valued (fDec fmtF32 0) 0 ∧ valued (fDec fmtF32 0x3F000000) (1 / 2) := by
  have one : valued (fDec fmtF32 0x3F800000) 1 := ⟨false, 2 ^ 23, -23, rfl, by norm_num⟩
  have neg : valued (fDec fmtF32 0xBF800000) (-1) := ⟨true, 2 ^ 23, -23, rfl, by norm_num⟩
  have two : valued (fDec fmtF32 0x40000000) ((2 : ℝ) ^ (1 : ℤ)) := ⟨false, 2 ^ 23, -22, rfl, by norm_num⟩
  have zero : valued (fDec fmtF32 0) 0 := ⟨_, _, _, rfl, by norm_num⟩
  refine ⟨.inl ⟨rfl, rfl⟩, .inr (.inl ⟨rfl, rfl⟩), rfl, rfl, rfl, fun b h => ?_, one, neg, two, zero, ⟨false, 2 ^ 23, -24, rfl, by norm_num⟩⟩
  simp only [List.mem_cons, List.not_mem_nil, or_false] at h
  rcases h with rfl | rfl | rfl | rfl
  · exact ⟨1, one, .inr (.inr ⟨1, one, rfl⟩)⟩
  · exact ⟨-1, neg, .inr (.inr ⟨-1, neg, rfl⟩)⟩
  · exact ⟨_, two, .inr (.inr ⟨_, two, rfl⟩)⟩
  · exact ⟨0, zero, .inr (.inr ⟨0, zero, rfl⟩)⟩

/-- Rows of 128 and 256 lanes for trees, softmax and pruning; a table of one interval. -/
theorem witness_rows :
    (List.replicate 128 0).length = 2 ^ 7 ∧ (List.replicate 256 0).length = 2 ^ 8 ∧ isFloat 0 = true ∧ isFloat 5 = false ∧ [((0x7FC00000 : Nat), 0#5)] ≠ [] ∧ fDec fmtF32 0xFF800000 = .inf true
    ∧ 1 ≤ 2 ∧ 2 < 4 ∧ (List.replicate 128 0).length % 4 = 0 ∧ (∃ t : TableSlot, t.kind = 0 ∧ 1 ≤ t.n - 1 ∧ t.n - 1 ≤ 2 ^ 16) :=
  ⟨by decide, by decide, rfl, rfl, by decide, rfl, by decide, by decide, by decide, ⟨{ kind := 0, hi := .clamp, lo := .clamp, e := 0, x0 := 0, n := 2, words := [0, 0] }, rfl, by decide, by decide⟩⟩

theorem witness_StepKeepsInvariant : Inv State.reset ∧ Inv memC := by decide

/-- The step of a state whose next word is `nop`: it fetches it, decodes it, and moves on. -/
theorem witness_StepRunsDecoded :
    let s := State.reset.withFetchWord 32 0x2C000000
    s.powered = true ∧ s.agenda = [] ∧ canIssue s s.turn = true ∧ inWait s s.turn = false ∧ (boundary s s.turn).isNone = true ∧ (∀ e ∈ s.cores, e.2.owned = []) ∧ ({ s with mem := { s.mem with flaws := [] } } : State).mem.flaws = []
    ∧ (fetchInstr s s.turn).2 = some (bytesOfIWord 0x2C000000#32) ∧ (fetchInstr (streamed s (fun st => { st with pc := 0x0100000000000000#64 })) s.turn).2 = none := by
  refine ⟨by decide, by decide, by decide, by decide, by decide, by decide, by decide, by decide, by decide⟩

theorem witness_InstructionChecks :
    canIssue (slate .v) (slate .v).turn = true ∧ canIssue State.reset State.reset.turn = false ∧ (Instr.mmac 0#3 1#5 2#5 3#5).isWord = true
    ∧ (∃ w, encode (.mmac 0#3 1#5 2#5 3#5) = [w] ∧ 13 ≤ (fOp w).toNat ∧ majorSid (fOp w).toNat ≠ .v)
    ∧ (jobOf memC 0 0).sv = false ∧ (let s := streamed memC (fun st => { st with due := [(1, 7)] }); isDue s s.turn 1#6 = true ∧ issueCheck s s.turn 1 {} = none) := by
  refine ⟨by decide, by decide, by decide, ⟨_, rfl, by decide, by decide⟩, by decide, by decide⟩

theorem witness_frames :
    unstepped (slate .c) (slate .c).turn = true ∧ Ready 1 { reads := [1#6, 2#6, 3#6] } (slate .c) ∧ Ready 2 { reads := [1#6, 2#6, 3#6] } (slate .c) ∧ unstepped (slateV 0) (slateV 0).turn = true := by
  unfold Ready; decide

theorem witness_RetirementResults :
    (∃ p, ((1, p) ∈ (liveLoops { streamOf inLoop inLoop.turn with pc := 0x200010#64 }).filter (fun e => e.2.stop == 0x200010#64) ∧ p.cnt ≠ 0#32))
    ∧ (jobOf (jobbed (slate .v) (fun b => { b with dbgctl := 4#5 })) 0 0).dbgctl.getLsbD (sidNum .v) = true ∧ ((jobOf (slate .v) 0 0).streams.get .v).faults = [] :=
  ⟨⟨_, List.mem_cons_self .., by decide⟩, by decide, by decide⟩

theorem witness_RetirementResults_control :
    let s := jobbed memC (fun b => { b with dbgctl := 1#5 })
    (jobOf s 0 0).dbgctl.getLsbD (sidNum .c) = true ∧ (jobOf s 0 0).sv = false ∧ (jobOf s 0 0).streams.c.faults = [] ∧ (jobOf s 0 0).traps = [] ∧ (coreOf s 0).frozen = false := by decide

/-! Words of every family, each field at a value of its own, written out from the table of R142. -/

theorem test_decode_major_0_0 : ([
    (0x01598B00, .add 21#6 38#6 11#6), (0x01598B01, .sub 21#6 38#6 11#6),
    (0x01598B02, .and 21#6 38#6 11#6), (0x01598B03, .or 21#6 38#6 11#6),
    (0x01598B04, .xor 21#6 38#6 11#6), (0x01598B05, .andn 21#6 38#6 11#6),
    (0x01598B06, .sll 21#6 38#6 11#6), (0x01598B07, .srl 21#6 38#6 11#6),
    (0x01598B08, .sra 21#6 38#6 11#6), (0x01598B09, .rol 21#6 38#6 11#6),
    (0x01598B0A, .mul 21#6 38#6 11#6), (0x01598B0B, .mulh 21#6 38#6 11#6),
    (0x01598B0C, .mulhu 21#6 38#6 11#6), (0x01598B0D, .div 21#6 38#6 11#6),
    (0x01598B0E, .divu 21#6 38#6 11#6), (0x01598B0F, .rem 21#6 38#6 11#6)] : List (Nat × Instr)).all (fun e => decodeTableWord 32 e.1 == some e.2) = true := by decide

theorem test_decode_major_0_1 : ([
    (0x01598B10, .remu 21#6 38#6 11#6), (0x01598B11, .min 21#6 38#6 11#6),
    (0x01598B12, .minu 21#6 38#6 11#6), (0x01598B13, .max 21#6 38#6 11#6),
    (0x01598B14, .maxu 21#6 38#6 11#6), (0x01598B15, .seq 21#6 38#6 11#6),
    (0x01598B16, .sne 21#6 38#6 11#6), (0x01598B17, .slt 21#6 38#6 11#6),
    (0x01598B18, .sltu 21#6 38#6 11#6), (0x01598B19, .sle 21#6 38#6 11#6),
    (0x01598B1A, .sleu 21#6 38#6 11#6), (0x0159801B, .clz 21#6 38#6),
    (0x0159801C, .ctz 21#6 38#6), (0x0159801D, .popc 21#6 38#6),
    (0x0159801E, .bswap 21#6 38#6), (0x0159801F, .sexb 21#6 38#6)] : List (Nat × Instr)).all (fun e => decodeTableWord 32 e.1 == some e.2) = true := by decide

theorem test_decode_major_0_2 : ([
    (0x01598020, .sexh 21#6 38#6), (0x01598021, .sexw 21#6 38#6),
    (0x01598B22, .fadd 21#6 38#6 11#6), (0x01598B23, .fsub 21#6 38#6 11#6),
    (0x01598B24, .fmul 21#6 38#6 11#6), (0x01598B25, .fdiv 21#6 38#6 11#6),
    (0x01598B26, .fmin 21#6 38#6 11#6), (0x01598B27, .fmax 21#6 38#6 11#6),
    (0x01598B28, .fminp 21#6 38#6 11#6), (0x01598B29, .fmaxp 21#6 38#6 11#6),
    (0x0159832A, .fcvtfi 21#6 38#6 .rup), (0x0159832B, .fcvtif 21#6 38#6 .rup),
    (0x01598B2C, .feq 21#6 38#6 11#6), (0x01598B2D, .flt 21#6 38#6 11#6),
    (0x01598B2E, .fle 21#6 38#6 11#6)] : List (Nat × Instr)).all (fun e => decodeTableWord 32 e.1 == some e.2) = true := by decide

theorem test_decode_major_1 : ([
    (0x05598343, .addi 21#6 38#6 835#11), (0x05598B43, .andi 21#6 38#6 835#11),
    (0x05599343, .ori 21#6 38#6 835#11), (0x05599B43, .xori 21#6 38#6 835#11),
    (0x0559A00B, .slli 21#6 38#6 11#6), (0x0559A80B, .srli 21#6 38#6 11#6),
    (0x0559B00B, .srai 21#6 38#6 11#6), (0x0559BB43, .slti 21#6 38#6 835#11)] : List (Nat × Instr)).all (fun e => decodeTableWord 32 e.1 == some e.2) = true := by decide

theorem test_decode_major_2 : ([
    (0x09505B38, .lui 21#6 23352#20)] : List (Nat × Instr)).all (fun e => decodeTableWord 32 e.1 == some e.2) = true := by decide

theorem test_decode_major_4 : ([
    (0x11598343, .beq 21#6 38#6 835#11), (0x11598B43, .bne 21#6 38#6 835#11),
    (0x11599343, .blt 21#6 38#6 835#11), (0x11599B43, .bge 21#6 38#6 835#11),
    (0x1159A343, .bltu 21#6 38#6 835#11), (0x1159AB43, .bgeu 21#6 38#6 835#11),
    (0x1159B343, .bset 21#6 38#6 835#11), (0x1159BB43, .bclr 21#6 38#6 835#11)] : List (Nat × Instr)).all (fun e => decodeTableWord 32 e.1 == some e.2) = true := by decide

theorem test_decode_major_5 : ([
    (0x15505B38, .jal 21#6 23352#20)] : List (Nat × Instr)).all (fun e => decodeTableWord 32 e.1 == some e.2) = true := by decide

theorem test_decode_major_6 : ([
    (0x19598343, .jalr 21#6 38#6 835#11)] : List (Nat × Instr)).all (fun e => decodeTableWord 32 e.1 == some e.2) = true := by decide

theorem test_decode_major_7 : ([
    (0x1D33800B, .loop 1#2 824#10 11#6), (0x1D738B43, .loopi 1#2 824#10 2883#12),
    (0x1DB3800B, .loopk 1#2 824#10 11#4), (0x1DF3800B, .loopm 1#2 824#10 11#6)] : List (Nat × Instr)).all (fun e => decodeTableWord 32 e.1 == some e.2) = true := by decide

theorem test_decode_major_8 : ([
    (0x212326C0, .qwait 3#5 (some 4#5) (some 9#5) 6#3), (0x212326C1, .qroom 3#5 (some 4#5) (some 9#5) 6#3),
    (0x212326C2, .qadv 3#5 (some 4#5) (some 9#5) 6#3), (0x212326C3, .qadvp 3#5 (some 4#5) (some 9#5) 6#3),
    (0x212320C4, .qrst 3#5 (some 4#5) (some 9#5))] : List (Nat × Instr)).all (fun e => decodeTableWord 32 e.1 == some e.2) = true := by decide

theorem test_decode_major_9 : ([
    (0x25500600, .qpop 21#6 6#5), (0x25598B01, .qpeek 21#6 38#6 11#5),
    (0x24054602, .qput 21#6 6#5), (0x24054603, .qcfg 21#6 6#5),
    (0x25500604, .qcnt 21#6 6#5)] : List (Nat × Instr)).all (fun e => decodeTableWord 32 e.1 == some e.2) = true := by decide

theorem test_decode_major_10 : ([
    (0x29500338, .bqt 21#5 824#11), (0x29500B38, .bqf 21#5 824#11)] : List (Nat × Instr)).all (fun e => decodeTableWord 32 e.1 == some e.2) = true := by decide

theorem test_decode_major_11 : ([
    (0x2C000000, .nop), (0x2C000001, .rdv0),
    (0x2C003F01, .rdvEnd), (0x2C001501, .rdvStreamSet 21#5),
    (0x2C000502, .pbar 5#3), (0x2C000503, .pbara 5#3),
    (0x2C000504, .pbarw 5#3), (0x2C000005, .wfi),
    (0x2C056606, .ipref 21#6 38#6)] : List (Nat × Instr)).all (fun e => decodeTableWord 32 e.1 == some e.2) = true := by decide

theorem test_decode_major_12 : ([
    (0x315B3800, .rdc 21#6 2872#12), (0x315B3801, .wrc 21#6 2872#12),
    (0x31500602, .rdk 21#6 6#4), (0x31500003, .rdcyc 21#6),
    (0x31500204, .rdid 21#6 .jobid), (0x31500605, .rdloop 21#6 6#3)] : List (Nat × Instr)).all (fun e => decodeTableWord 32 e.1 == some e.2) = true := by decide

theorem test_decode_major_13 : ([
    (0x35598343, .ldb 21#6 38#6 835#11), (0x35598B43, .ldbs 21#6 38#6 835#11),
    (0x35599343, .ldh 21#6 38#6 835#11), (0x35599B43, .ldhs 21#6 38#6 835#11),
    (0x3559A343, .ldw 21#6 38#6 835#11), (0x3559AB43, .ldws 21#6 38#6 835#11),
    (0x3559B343, .ldd 21#6 38#6 835#11)] : List (Nat × Instr)).all (fun e => decodeTableWord 32 e.1 == some e.2) = true := by decide

theorem test_decode_major_14 : ([
    (0x39598343, .stb 21#6 38#6 835#11), (0x39598B43, .sth 21#6 38#6 835#11),
    (0x39599343, .stw 21#6 38#6 835#11), (0x39599B43, .std 21#6 38#6 835#11)] : List (Nat × Instr)).all (fun e => decodeTableWord 32 e.1 == some e.2) = true := by decide

theorem test_decode_major_15 : ([
    (0x3C000000, .lsmark), (0x3C056601, .l1inv 21#6 38#6),
    (0x3C000002, .l1inva), (0x3C054003, .pref 21#6),
    (0x3D598B04, .own 21#6 38#6 11#6), (0x3D598005, .disown 21#6 38#6)] : List (Nat × Instr)).all (fun e => decodeTableWord 32 e.1 == some e.2) = true := by decide

theorem test_decode_major_16 : ([
    (0x41598B05, .amoadd 21#6 38#6 11#6 .rel .d), (0x41598B15, .amoand 21#6 38#6 11#6 .rel .d),
    (0x41598B25, .amoor 21#6 38#6 11#6 .rel .d), (0x41598B35, .amoxor 21#6 38#6 11#6 .rel .d),
    (0x41598B45, .amomin 21#6 38#6 11#6 .rel .d), (0x41598B55, .amominu 21#6 38#6 11#6 .rel .d),
    (0x41598B65, .amomax 21#6 38#6 11#6 .rel .d), (0x41598B75, .amomaxu 21#6 38#6 11#6 .rel .d),
    (0x41598B85, .amoswp 21#6 38#6 11#6 .rel .d), (0x41598B95, .amocas 21#6 38#6 11#6 .rel .d),
    (0x41598BA4, .amofadd 21#6 38#6 11#6 .rel)] : List (Nat × Instr)).all (fun e => decodeTableWord 32 e.1 == some e.2) = true := by decide

theorem test_decode_major_17 : ([
    (0x44000000, .fence), (0x44006001, .qfence 96#7)] : List (Nat × Instr)).all (fun e => decodeTableWord 32 e.1 == some e.2) = true := by decide

theorem test_decode_major_18 : ([
    (0x49598B00, .spawn 21#6 38#6 11#6), (0x49598001, .spwait 21#6 38#6),
    (0x49598002, .sptest 21#6 38#6), (0x49598003, .depdec 21#6 38#6),
    (0x49598004, .depinc 21#6 38#6)] : List (Nat × Instr)).all (fun e => decodeTableWord 32 e.1 == some e.2) = true := by decide

theorem test_decode_major_19 : ([
    (0x4D598B00, .wlcfg 21#6 38#6 11#6), (0x4D598B01, .wlpush 21#6 38#6 11#6),
    (0x4D598B02, .wlins 21#6 38#6 11#6), (0x4D598B03, .wlpopb 21#6 38#6 11#6),
    (0x4D598004, .wlcnt 21#6 38#6), (0x4D598005, .wldrain 21#6 38#6)] : List (Nat × Instr)).all (fun e => decodeTableWord 32 e.1 == some e.2) = true := by decide

theorem test_decode_major_20 : ([
    (0x51598B00, .frnck 21#6 38#6 11#6), (0x51598B01, .frnput 21#6 38#6 11#6),
    (0x51598B02, .frninv 21#6 38#6 11#6), (0x51598B03, .frnstat 21#6 38#6 11#6),
    (0x51598004, .frnflush 21#6 38#6)] : List (Nat × Instr)).all (fun e => decodeTableWord 32 e.1 == some e.2) = true := by decide

theorem test_decode_major_21 : ([
    (0x55598B00, .vtadd 21#6 38#6 11#6), (0x55598B01, .vtfadd 21#6 38#6 11#6),
    (0x55598B02, .vtmax 21#6 38#6 11#6), (0x55598B03, .vtcas 21#6 38#6 11#6),
    (0x55598B04, .vtsac 21#6 38#6 11#6)] : List (Nat × Instr)).all (fun e => decodeTableWord 32 e.1 == some e.2) = true := by decide

theorem test_decode_major_22 : ([
    (0x58054000, .trap 21#6), (0x58000001, .eret),
    (0x58000002, .uiret), (0x58000003, .brk),
    (0x58054004, .sysc 21#6), (0x59598005, .rtfill 21#6 38#6),
    (0x59500006, .rtnext 21#6), (0x59598007, .resume 21#6 38#6),
    (0x59598008, .kill 21#6 38#6), (0x58056609, .tlbinv 21#6 38#6)] : List (Nat × Instr)).all (fun e => decodeTableWord 32 e.1 == some e.2) = true := by decide

theorem test_decode_major_24 : ([
    (0x61503301, .astrm 21#5 6#3 3#3), (0x61503302, .astro 21#5 6#3 3#3),
    (0x61519C03, .agath 21#5 6#5 3#3 4#3), (0x61519C04, .ascat 21#5 6#5 3#3 4#3),
    (0x61500606, .awin 21#5 6#3), (0x61598007, .awpass 21#6 38#6),
    (0x60057008, .aprf 21#6 6#3)] : List (Nat × Instr)).all (fun e => decodeTableWord 32 e.1 == some e.2) = true := by decide

theorem test_decode_major_26 : ([
    (0x69598B00, .vadd 21#6 38#6 11#6), (0x69598B01, .vsub 21#6 38#6 11#6),
    (0x69598B02, .vmul 21#6 38#6 11#6), (0x69598B03, .vfma 21#6 38#6 11#6),
    (0x69598B04, .vfms 21#6 38#6 11#6), (0x69598B05, .vfnma 21#6 38#6 11#6),
    (0x69598B06, .vmin 21#6 38#6 11#6), (0x69598B07, .vmax 21#6 38#6 11#6),
    (0x69598B08, .vminp 21#6 38#6 11#6), (0x69598B09, .vmaxp 21#6 38#6 11#6),
    (0x6959800A, .vabs 21#6 38#6), (0x6959800B, .vneg 21#6 38#6),
    (0x69598B0C, .vdiv 21#6 38#6 11#6), (0x6959800D, .vsqrt 21#6 38#6),
    (0x6959800E, .vsgn 21#6 38#6)] : List (Nat × Instr)).all (fun e => decodeTableWord 32 e.1 == some e.2) = true := by decide

theorem test_decode_major_27 : ([
    (0x6D598B00, .vand 21#6 38#6 11#6), (0x6D598B01, .vor 21#6 38#6 11#6),
    (0x6D598B02, .vxor 21#6 38#6 11#6), (0x6D598003, .vnot 21#6 38#6),
    (0x6D598B04, .vsll 21#6 38#6 11#6), (0x6D598B05, .vsrl 21#6 38#6 11#6),
    (0x6D598B06, .vsra 21#6 38#6 11#6), (0x6D598B07, .vaddsat 21#6 38#6 11#6),
    (0x6D598B08, .vsubsat 21#6 38#6 11#6), (0x6D598B09, .vmulhi 21#6 38#6 11#6)] : List (Nat × Instr)).all (fun e => decodeTableWord 32 e.1 == some e.2) = true := by decide

theorem test_decode_major_28 : ([
    (0x70598B00, .vceq 5#3 38#6 11#6), (0x70598B01, .vcne 5#3 38#6 11#6),
    (0x70598B02, .vclt 5#3 38#6 11#6), (0x70598B03, .vcle 5#3 38#6 11#6),
    (0x70598B04, .vcgt 5#3 38#6 11#6), (0x70598B05, .vcge 5#3 38#6 11#6),
    (0x70598B06, .vcun 5#3 38#6 11#6)] : List (Nat × Instr)).all (fun e => decodeTableWord 32 e.1 == some e.2) = true := by decide

theorem test_decode_major_29 : ([
    (0x75598300, .vsel 21#6 38#6 3#3), (0x74518301, .mand 5#3 6#3 3#3),
    (0x74518302, .mor 5#3 6#3 3#3), (0x74518303, .mxor 5#3 6#3 3#3),
    (0x74518004, .mnot 5#3 6#3), (0x75518005, .mpop 21#6 6#3),
    (0x75518006, .mfirst 21#6 6#3)] : List (Nat × Instr)).all (fun e => decodeTableWord 32 e.1 == some e.2) = true := by decide

theorem test_decode_major_30 : ([
    (0x7959815A, .vcvt 21#6 38#6 1#1 .i32 .rdn true)] : List (Nat × Instr)).all (fun e => decodeTableWord 32 e.1 == some e.2) = true := by decide

theorem test_decode_major_31 : ([
    (0x7D598300, .vrsum 21#6 38#6 3#3), (0x7D598301, .vrmax 21#6 38#6 3#3),
    (0x7D598302, .vrmin 21#6 38#6 3#3), (0x7D599403, .vscan 21#6 38#6 .min 4#3)] : List (Nat × Instr)).all (fun e => decodeTableWord 32 e.1 == some e.2) = true := by decide

theorem test_decode_major_32 : ([
    (0x81598000, .vmov 21#6 38#6), (0x81598001, .vbcast 21#6 38#6),
    (0x81598B02, .vext 21#6 38#6 11#6), (0x81598B03, .vins 21#6 38#6 11#6),
    (0x81598B04, .vperm 21#6 38#6 11#6), (0x81598B05, .vrot 21#6 38#6 11#6),
    (0x81598006, .vidx 21#6 38#6), (0x81598B07, .vpack 21#6 38#6 11#6),
    (0x81598108, .vunpk 21#6 38#6 1#1)] : List (Nat × Instr)).all (fun e => decodeTableWord 32 e.1 == some e.2) = true := by decide

theorem test_decode_major_33 : ([
    (0x85598B00, .vld 21#6 38#6 11#6), (0x85598B01, .vst 21#6 38#6 11#6),
    (0x85518302, .vldq 21#6 6#5 3#3), (0x85518303, .vstq 21#6 6#5 3#3),
    (0x85598B04, .vgat 21#6 38#6 11#6), (0x85598B05, .vsct 21#6 38#6 11#6),
    (0x84001506, .swait 21#6)] : List (Nat × Instr)).all (fun e => decodeTableWord 32 e.1 == some e.2) = true := by decide

theorem test_decode_major_34 : ([
    (0x89598300, .vpart 21#5 38#6 3#3), (0x89598301, .vcmpk 21#6 38#6 3#3),
    (0x89598302, .vexpd 21#6 38#6 3#3)] : List (Nat × Instr)).all (fun e => decodeTableWord 32 e.1 == some e.2) = true := by decide

theorem test_decode_major_35 : ([
    (0x8D598301, .vtab 21#6 38#6 3#2), (0x8D598302, .vtabl 21#6 38#6 3#2),
    (0x8D598303, .vtabq 21#6 38#6 3#2), (0x8D598004, .vexp2 21#6 38#6),
    (0x8D598005, .vlog2 21#6 38#6)] : List (Nat × Instr)).all (fun e => decodeTableWord 32 e.1 == some e.2) = true := by decide

theorem test_decode_major_36 : ([
    (0x90598B00, .flmatch 5#3 38#6 11#6), (0x90598B01, .flmerge 5#3 38#6 11#6),
    (0x90598B02, .flunmg 5#3 38#6 11#6), (0x91518B03, .flsize 21#6 6#3 11#6),
    (0x91518004, .flsig 21#6 6#3), (0x90598005, .flsave 5#3 38#6),
    (0x90598006, .flload 5#3 38#6), (0x90500007, .flfree 5#3)] : List (Nat × Instr)).all (fun e => decodeTableWord 32 e.1 == some e.2) = true := by decide

theorem test_decode_major_37 : ([
    (0x95598B00, .vsmx 21#6 38#6 11#6), (0x95598B01, .vsmxs 21#6 38#6 11#6)] : List (Nat × Instr)).all (fun e => decodeTableWord 32 e.1 == some e.2) = true := by decide

theorem test_decode_major_38 : ([
    (0x9859B400, .prunepk 5#3 38#6 3#2 4#4), (0x9859B401, .prunepkt 5#3 38#6 3#2 4#4),
    (0x9952D702, .mdpack 21#6 1#1 3#3 1#2 7#4), (0x99598B03, .mdchk 21#6 38#6 11#6)] : List (Nat × Instr)).all (fun e => decodeTableWord 32 e.1 == some e.2) = true := by decide

theorem test_decode_major_40 : ([
    (0xA2997400, .mmac 5#3 6#5 11#5 20#5), (0xA2997401, .mmacs 5#3 6#5 11#5 20#5),
    (0xA2997402, .mmacg 5#3 6#5 11#5 20#5), (0xA2997403, .mmacsg 5#3 6#5 11#5 20#5),
    (0xA2800004, .mclr 5#3), (0xA0540005, .mcfg 21#5),
    (0xA0540606, .mhdr 21#5 6#5), (0xA2980007, .mtrn 5#3 6#3)] : List (Nat × Instr)).all (fun e => decodeTableWord 32 e.1 == some e.2) = true := by decide

theorem test_decode_major_43 : ([
    (0xAC054000, .txinit 21#6), (0xAD598B01, .txexp 21#6 38#6 11#6),
    (0xAC056602, .txarr 21#6 38#6), (0xAD598B03, .txwait 21#6 38#6 11#6),
    (0xAD598B04, .txtest 21#6 38#6 11#6)] : List (Nat × Instr)).all (fun e => decodeTableWord 32 e.1 == some e.2) = true := by decide

theorem test_decode_two_words_0 : ([
    (0x9ABCDEF00CB00000, .lix 11#6 0x9ABCDEF0#32),
    (0x000012340CB00001, .lihx 11#6 0x1234#32),
    (0xFFFFFFFE0CB18002, .addx 11#6 6#6 0xFFFFFFFE#32),
    (0x9600000060318700, .apcfg 3#3 6#6 7#6 .scratch 5#4 2#2),
    (0x6000000060918705, .awcfg 9#6 6#6 7#6 .vault 2#2),
    (0x019FB2A58C218700, .vtcfg 2#2 6#6 7#6 1#1 .zero .identity 0xFB#8 0x2A5#12),
    (0x90000000A8918700, .xcpy 9#6 6#6 7#6 .scratch .vault),
    (0x20000000A8918701, .xcp2 9#6 6#6 7#6 .va .scratch)] : List (Nat × Instr)).all (fun e => decodeTableWord 64 e.1 == some e.2) = true := by decide

theorem test_decode_two_words_1 : ([
    (0x40000000A8918702, .xcp3 9#6 6#6 7#6 .vault .va),
    (0x80390000A8918703, .xcvt 9#6 6#6 7#6 .scratch .va 0#4 3#4 .rdn 0#1 1#1),
    (0xA1800500A8918704, .xmcast 9#6 6#6 7#6 0xA1#8 0x8005#16),
    (0xA110A603A8000005, .xflw { form := .mmacsg, acc := 2#3, qa := 4#5, qb := 5#5, qm := 6#5 }),
    (0x70000000A8918706, .xvop 9#6 6#6 7#6 .cas 1#1),
    (0xA8000000A8918707, .xrem 9#6 6#6 7#6 0x15#5),
    (0x00001102A8900008, .xwait 9#6 17#7 2#2),
    (0x6B000000A8018009, .xcmpl 6#6 .decrement 1#1 11#5)] : List (Nat × Instr)).all (fun e => decodeTableWord 64 e.1 == some e.2) = true := by decide

/-! Ill-formed terms, one for each check. -/

theorem test_wf_refuses : ([.loop 0#2 0#10 1#6, .loopi 1#2 0#10 3#12, .loopk 2#2 0#10 1#4, .loopm 3#2 0#10 1#6,
    .qwait 3#5 (some 3#5) none 0#3, .qroom 3#5 none (some 3#5) 0#3, .qadv 1#5 (some 2#5) (some 2#5) 0#3, .qadvp 1#5 (some 1#5) none 0#3, .qrst 4#5 (some 4#5) none,
    .rdvStreamSet 0#5, .apcfg 0#3 1#6 2#6 .va 10#4 0#2, .awcfg 1#6 2#6 3#6 .va 3#2,
    .xcvt 1#6 2#6 3#6 .va .va 0#4 2#4 .rne 0#1 0#1, .xcvt 1#6 2#6 3#6 .va .va 0#4 1#4 .rup 1#1 0#1, .xcvt 1#6 2#6 3#6 .va .va 1#4 0#4 .rne 0#1 1#1,
    .xmcast 1#6 2#6 3#6 0#8 1#16, .xmcast 1#6 2#6 3#6 1#8 0#16,
    .xwait 1#6 65#7 1#2, .xwait 1#6 0#7 0#2, .xcmpl 1#6 .none 0#1 3#5] : List Instr).all (fun i => !i.wf) = true := by decide

theorem test_wf_accepts : ([.loop 0#2 1#10 1#6, .qwait 3#5 (some 4#5) (some 5#5) 0#3, .rdvStreamSet 16#5, .apcfg 0#3 1#6 2#6 .va 9#4 0#2, .awcfg 1#6 2#6 3#6 .va 2#2,
    .xcvt 1#6 2#6 3#6 .va .va 0#4 1#4 .rne 1#1 1#1, .xmcast 1#6 2#6 3#6 1#8 1#16, .xflw { form := .mclr, acc := 0#3, qa := 1#5, qb := 0#5, qm := 0#5 }, .xwait 1#6 64#7 3#2, .xcmpl 1#6 .none 1#1 3#5] : List Instr).all (fun i => i.wf) = true := by decide

/-- Words that are no instruction: all ones (R136), `lix` and `clz` with a reserved field set, a loop of length 0. -/
theorem test_decode_refuses : ([0xFFFFFFFF, 0x0C000100, 0x0159801B + 0x100, 0x1C400003, 0x5C000000] : List Nat).all (fun w => decodeTableWord 32 w == none) = true := by decide

/-! Single steps, with results computed by hand from the rules named. -/

/-- The state an instruction gives. -/
def after (r : Result) : State := match r with | .next s => s | _ => State.reset

/-- Register r after an instruction of a stream whose registers s1 and s2 hold x and y. -/
def regAfter (i : Instr) (t : Sid) (x y : Word) (r : Reg) : Word :=
  let s := regs (slate t) [(1#6, x), (2#6, y)]
  reg (after (exec i s)) s.turn r

/-- R160: sums wrap, sra keeps the sign, mulh of -1 and 1 is -1, a shift count is taken mod 64. -/
theorem test_alu : regAfter (.add 3#6 1#6 2#6) .v 0xFFFFFFFFFFFFFFFF#64 2#64 3#6 = 1#64 ∧ regAfter (.sra 3#6 1#6 2#6) .a 0x8000000000000000#64 68#64 3#6 = 0xF800000000000000#64
    ∧ regAfter (.mulh 3#6 1#6 2#6) .c 0xFFFFFFFFFFFFFFFF#64 1#64 3#6 = 0xFFFFFFFFFFFFFFFF#64 ∧ regAfter (.sltu 1#6 1#6 2#6) .m 1#64 0xFFFFFFFFFFFFFFFF#64 1#6 = 1#64
    ∧ regAfter (.slt 1#6 1#6 2#6) .x 1#64 0xFFFFFFFFFFFFFFFF#64 1#6 = 0#64 := by decide

/-- R118: division by 0, and of the least number by -1. -/
theorem test_division : regAfter (.div 3#6 1#6 2#6) .c 7#64 0#64 3#6 = 0xFFFFFFFFFFFFFFFF#64 ∧ regAfter (.rem 3#6 1#6 2#6) .c 7#64 0#64 3#6 = 7#64
    ∧ regAfter (.div 3#6 1#6 2#6) .c 0x8000000000000000#64 0xFFFFFFFFFFFFFFFF#64 3#6 = 0x8000000000000000#64 ∧ regAfter (.rem 3#6 1#6 2#6) .c 0xFFFFFFFFFFFFFFF9#64 2#64 3#6 = 0xFFFFFFFFFFFFFFFF#64 := by decide

/-- R160: leading zeros of 1 and of 0, bytes reversed, the low byte sign-extended. -/
theorem test_unary : regAfter (.clz 3#6 1#6) .c 1#64 0#64 3#6 = 63#64 ∧ regAfter (.ctz 3#6 1#6) .c 0#64 0#64 3#6 = 64#64
    ∧ regAfter (.bswap 3#6 1#6) .c 0x0102030405060708#64 0#64 3#6 = 0x0807060504030201#64 ∧ regAfter (.sexb 3#6 1#6) .c 0x180#64 0#64 3#6 = 0xFFFFFFFFFFFFFF80#64 := by decide

/-- R145: s0 reads 0 and discards a write. -/
theorem test_zero_register : regAfter (.addi 0#6 1#6 1#11) .c 5#64 0#64 0#6 = 0#64 := by decide

/-- R162, R163: an immediate of -1, lui of a negative value, and the low word kept by lihx. -/
theorem test_immediates : regAfter (.addi 3#6 1#6 0x7FF#11) .v 0#64 0#64 3#6 = 0xFFFFFFFFFFFFFFFF#64 ∧ regAfter (.lui 3#6 0x80000#20) .v 0#64 0#64 3#6 = 0xFFFFFFFFC0000000#64
    ∧ regAfter (.lihx 1#6 0x12345678#32) .v 0x9ABCDEF0#64 0#64 1#6 = 0x123456789ABCDEF0#64 := by decide

/-- R161: 1.0 + 2^-24 in f32 rounds to even. -/
theorem test_fadd : regAfter (.fadd 3#6 1#6 2#6) .c 0x3F800000#64 0x33800000#64 3#6 = 0x3F800000#64 := by decide

/-- The PC after an instruction. -/
def pcAfter (i : Instr) (t : Sid) (x y : Word) : Word := let s := regs (slate t) [(1#6, x), (2#6, y)]; (streamOf (after (exec i s)) s.turn).pc

/-- R164, R165: a branch backwards by one word, not taken, and jalr whose destination is its base. -/
theorem test_branches : pcAfter (.blt 1#6 2#6 0x7FF#11) .c 0xFFFFFFFFFFFFFFFF#64 0#64 = 0x1FFFFC#64 ∧ pcAfter (.bltu 1#6 2#6 0x7FF#11) .c 0xFFFFFFFFFFFFFFFF#64 0#64 = 0x200004#64
    ∧ pcAfter (.jalr 1#6 1#6 3#11) .c 0x200101#64 0#64 = 0x200104#64 ∧ regAfter (.jalr 1#6 1#6 3#11) .c 0x200101#64 0#64 1#6 = 0x200004#64 := by decide

/-- R166: a loop of count 0 skips a body of two instructions. -/
theorem test_loop_skips : pcAfter (.loopi 0#2 2#10 0#12) .m 0#64 0#64 = 0x20000C#64 ∧ pcAfter (.loopi 0#2 2#10 2#12) .m 0#64 0#64 = 0x200004#64 := by decide

/-- R172: qpop of slot 1 of four, whose 8 bytes are 5, moves HEAD to 2. -/
theorem test_qpop : let s := bytes queued (coreAt 0 + 0x1008) [5#8]; let u := after (exec (.qpop 9#6 3#5) s); reg u s.turn 9#6 = 5#64 ∧ (descOf u 0 0 3#5).head = 2 := by decide

/-- R295 to R297: a misaligned load takes ALIGN: the handler is entered, EPC is the load's PC, ECAUSE 3, and the record holds the address. -/
theorem test_align : let u := after (exec (.ldw 9#6 5#6 0#11) (jobbed memC (fun b => { b with trapvec := 0x200800#64 })))
    (jobOf u 0 0).sv = true ∧ (jobOf u 0 0).epc = 0x200000#64 ∧ (jobOf u 0 0).ecause = 3#8 ∧ (streamOf u u.turn).pc = 0x200800#64 ∧ leNat (memReadN u.mem (recordAt 0 0 .c + 24) 8) = 0x200041 := by decide

/-- R298: eret outside a handler takes PRIV, and in one clears SV. -/
theorem test_eret : (jobOf (after (exec .eret memC)) 0 0).ecause = 2#8 ∧ (jobOf (after (exec .eret handler)) 0 0).sv = false := by decide

/-- R203: 1.0 + 1.0 in a lane of f32; a lane of zeros of i32. -/
theorem test_vadd :
    (let s := bytes (slateV 0) (rowAt 0 1) (leBytes 4 0x3F800000); (readRow (after (exec (.vadd 2#6 1#6 1#6) s)) 0 2 4).getD 0 0 = 0x40000000)
    ∧ (let s := bytes (slateV 5) (rowAt 0 1) (leBytes 4 0x80000000); (readRow (after (exec (.vadd 2#6 1#6 1#6) s)) 0 2 4).getD 0 9 = 0) := by
  constructor <;> decide

/-- R245: an arrival that reaches what is expected completes the phase. -/
theorem test_txb : let s := regs (slate .x) [(1#6, 3#64), (2#6, 64#64)]; let u := after (exec (.txarr 1#6 2#6) (streamed (after (exec (.txexp 9#6 1#6 2#6) s)) id))
    (tget {} (coreOf u 0).txb 3).ph = 1#32 ∧ (tget {} (coreOf u 0).txb 3).armed = false := by decide

end Sys2Proof.Tests
end

