-- ==== Sys2Proof/Proofs/ResetInvariant.lean ====
section
/-! The invariant after reset: memory lists no byte. -/

namespace Sys2Proof.Machine

/-- Settles O52: the empty memory of the reset state is canonical. -/
theorem resetMeetsInvariant : Obligations.ResetMeetsInvariant := reset_mem_wf

end Sys2Proof.Machine
end

