-- ==== Sys2Proof/Proofs/RegisterFrame.lean ====
section
/-! What an instruction that only computes a register leaves as it was (R6, R7, R141, R145). Such an instruction is three changes in a row: its stream's step record is cleared, one place of a register is written, and the stream retires. Each of the three changes nothing but the stream and the place, and so does their sequence. -/

namespace Sys2Proof.Machine

/-- From s to u, stream t of slot j of core n has moved on and the register at place i may differ; nothing else does. -/
structure ChangesPlaceOnly (s u : State) (n j : Nat) (t : Sid) (i : Nat) : Prop where
  fflags : (streamOf u (.stream n j t)).fflags = (streamOf s (.stream n j t)).fflags
  regs : ∀ k, k ≠ i → tget 0#64 (streamOf u (.stream n j t)).regs k = tget 0#64 (streamOf s (.stream n j t)).regs k
  bank : ∀ k, 64 + k ≠ i → tget 0#64 (jobOf u n j).bank k = tget 0#64 (jobOf s n j).bank k
  shadow : ∀ k, 128 + k ≠ i → tget 0#64 (jobOf u n j).shadow k = tget 0#64 (jobOf s n j).shadow k
  streams : ∀ o, o ≠ t → (jobOf u n j).streams.get o = (jobOf s n j).streams.get o
  job : jobOf u n j = { jobOf s n j with streams := (jobOf u n j).streams, bank := (jobOf u n j).bank, shadow := (jobOf u n j).shadow }
  cores : ∀ m, m ≠ n → coreOf u m = coreOf s m
  parts : u.parts = s.parts
  mgmt : u.mgmt = s.mgmt
  mem : u.mem = s.mem

namespace ChangesPlaceOnly

variable {s u w : State} {n j : Nat} {t : Sid} {i : Nat}

theorem refl (s : State) (n j : Nat) (t : Sid) (i : Nat) : ChangesPlaceOnly s s n j t i where
  fflags := rfl
  regs _ _ := rfl
  bank _ _ := rfl
  shadow _ _ := rfl
  streams _ _ := rfl
  job := rfl
  cores _ _ := rfl
  parts := rfl
  mgmt := rfl
  mem := rfl

theorem trans (h : ChangesPlaceOnly s u n j t i) (g : ChangesPlaceOnly u w n j t i) : ChangesPlaceOnly s w n j t i where
  fflags := g.fflags.trans h.fflags
  regs k hk := (g.regs k hk).trans (h.regs k hk)
  bank k hk := (g.bank k hk).trans (h.bank k hk)
  shadow k hk := (g.shadow k hk).trans (h.shadow k hk)
  streams o ho := (g.streams o ho).trans (h.streams o ho)
  job := g.job.trans (by rw [h.job])
  cores m hm := (g.cores m hm).trans (h.cores m hm)
  parts := g.parts.trans h.parts
  mgmt := g.mgmt.trans h.mgmt
  mem := g.mem.trans h.mem

end ChangesPlaceOnly

theorem coreOf_modJob_other (s : State) {m n : Nat} (j : Nat) (f : Job → Job) (h : m ≠ n) : coreOf (modJob s n j f) m = coreOf s m :=
  coreOf_modCore_other s _ h

/-- A change of a stream outside its registers and flags. -/
theorem modStream_changesPlaceOnly (s : State) (n j : Nat) (t : Sid) (i : Nat) {f : Stream → Stream} (hr : ∀ y, (f y).regs = y.regs) (hf : ∀ y, (f y).fflags = y.fflags) :
    ChangesPlaceOnly s (modStream s (.stream n j t) f) n j t i where
  fflags := by rw [streamOf_modStream, hf]
  regs _ _ := by rw [streamOf_modStream, hr]
  bank _ _ := by simp
  shadow _ _ := by simp
  streams o ho := by simp [Five.get_set_other _ _ ho]
  job := by simp
  cores m hm := coreOf_modJob_other s j _ hm
  parts := rfl
  mgmt := rfl
  mem := rfl

/-- The job once a place of a register of its stream t is written. -/
def jobPlaced (t : Sid) (i : Nat) (v : Word) (b : Job) : Job :=
  { b with
    streams := b.streams.set t { b.streams.get t with due := tdel (b.streams.get t).due i, regs := if i < 64 then tset (b.streams.get t).regs i v else (b.streams.get t).regs }
    bank := if 64 ≤ i ∧ i < 128 then tset b.bank (i - 64) v else b.bank
    shadow := if 128 ≤ i then tset b.shadow (i - 128) v else b.shadow }

theorem writePlace_eq_modJob (s : State) (n j : Nat) (t : Sid) {i : Nat} (v : Word) (hi : i ≠ 0) :
    writePlace s (.stream n j t) i v = modJob s n j (jobPlaced t i v) := by
  unfold writePlace
  rw [if_neg hi]
  change _ = modJob s n j (fun b => jobPlaced t i v b)
  by_cases h64 : i < 64
  · simp [h64, modStream, jobPlaced, show ¬ 64 ≤ i by omega, show ¬ 128 ≤ i by omega]
  · by_cases h128 : i < 128
    · simp [h64, h128, modStream, modAgentJob, jobPlaced, show 64 ≤ i by omega, show ¬ 128 ≤ i by omega]
    · simp [h64, h128, modStream, modAgentJob, jobPlaced, show 128 ≤ i by omega]

theorem streamOf_writePlace (s : State) (n j : Nat) (t : Sid) {i : Nat} (v : Word) (hi : i ≠ 0) :
    streamOf (writePlace s (.stream n j t) i v) (.stream n j t) = (jobPlaced t i v (jobOf s n j)).streams.get t := by
  rw [writePlace_eq_modJob s n j t v hi]
  simp [streamOf]

/-- A write of a place. -/
theorem writePlace_changesPlaceOnly (s : State) (n j : Nat) (t : Sid) (i : Nat) (v : Word) :
    ChangesPlaceOnly s (writePlace s (.stream n j t) i v) n j t i := by
  by_cases hi : i = 0
  · simpa [writePlace, hi] using ChangesPlaceOnly.refl s n j t 0
  · constructor
    case fflags => rw [streamOf_writePlace s n j t v hi]; simp [jobPlaced, streamOf]
    case regs =>
      intro k hk
      rw [streamOf_writePlace s n j t v hi]
      simp only [jobPlaced, Five.get_set_same, streamOf]
      split
      · exact tget_tset_other _ _ _ hk
      · rfl
    all_goals rw [writePlace_eq_modJob s n j t v hi]
    case bank =>
      intro k hk
      simp only [jobOf_modJob, jobPlaced]
      split
      · exact tget_tset_other _ _ _ (by omega)
      · rfl
    case shadow =>
      intro k hk
      simp only [jobOf_modJob, jobPlaced]
      split
      · exact tget_tset_other _ _ _ (by omega)
      · rfl
    case streams =>
      intro o ho
      simp [jobPlaced, Five.get_set_other _ _ ho]
    case job => simp [jobPlaced]
    case cores =>
      intro m hm
      exact coreOf_modJob_other s j _ hm
    all_goals rfl

/-! Retiring in sequence where no trap follows. -/

theorem endTest_keeps (st : Stream) (fuel : Nat) : (endTest st fuel).regs = st.regs ∧ (endTest st fuel).fflags = st.fflags ∧ (endTest st fuel).due = st.due := by
  induction fuel generalizing st with
  | zero => exact ⟨rfl, rfl, rfl⟩
  | succ fuel ih =>
    unfold endTest
    split
    · exact ⟨rfl, rfl, rfl⟩
    · split
      · exact ⟨rfl, rfl, rfl⟩
      · exact ih _

@[simp] theorem seqTo_regs (st : Stream) (pc : Word) : (seqTo st pc).regs = st.regs := (endTest_keeps _ 4).1
@[simp] theorem seqTo_fflags (st : Stream) (pc : Word) : (seqTo st pc).fflags = st.fflags := (endTest_keeps _ 4).2.1
@[simp] theorem seqTo_due (st : Stream) (pc : Word) : (seqTo st pc).due = st.due := (endTest_keeps _ 4).2.2

/-- A stream that retires an instruction in sequence; at supervisor privilege it is not counted (R296). -/
def seqRetired (sup : Bool) (words : Nat) (st : Stream) : Stream :=
  seqTo { st with run := .running, cmd := if sup then st.cmd else st.cmd + 1#32 } (st.pc + BitVec.ofNat 64 (4 * words))

theorem retire_unstepped (s : State) (n j : Nat) (t : Sid) (words : Nat) (h : isStepped s n j t = false) :
    retire s (.stream n j t) words .seq = modStream s (.stream n j t) (seqRetired (supervisor s (.stream n j t)) words) := by
  have hk : isStepped (modStream s (.stream n j t) (seqRetired (supervisor s (.stream n j t)) words)) n j t = false := by
    simpa [isStepped] using h
  exact if_neg (ne_true_of_eq_false hk)

/-- What decides whether a stream is stepped stays through a change of the stream and a write of a register. -/
theorem isStepped_writePlace (s : State) (n j : Nat) (t : Sid) (f : Stream → Stream) (i : Nat) (v : Word) :
    isStepped (writePlace (modStream s (.stream n j t) f) (.stream n j t) i v) n j t = isStepped s n j t := by
  have hj := (writePlace_changesPlaceOnly (modStream s (.stream n j t) f) n j t i v).job
  unfold isStepped
  cases t <;> simp only [supervisor] <;> rw [hj] <;> simp

/-! An instruction that only computes. -/

/-- A register that was just written awaits nothing. -/
theorem isDue_setReg (s : State) (n j : Nat) (t : Sid) (d : Reg) (v : Word) : isDue (setReg s (.stream n j t) d v) (.stream n j t) d = false := by
  by_cases hd : d = 0#6
  · simp [isDue, hd]
  · have hi : regPlace s (.stream n j t) d ≠ 0 := fun e => hd ((regPlace_eq_zero _ _ _).1 e)
    unfold isDue setReg
    rw [regPlace_writePlace, streamOf_writePlace s n j t v hi]
    simp [jobPlaced]

/-- Clearing the step record, writing register d and retiring in sequence change d alone. -/
theorem completes_setReg_frame {s : State} {n j : Nat} {t : Sid} (ht : s.turn = .stream n j t) (hu : unstepped s s.turn = true) (words : Nat) (d : Reg) (v : Word) :
    ∃ u, completes s words (setReg (began s) s.turn d v) = .next u ∧ ChangesPlaceOnly s u n j t (regPlace s s.turn d)
      ∧ (∀ r, r ≠ d → reg u s.turn r = reg s s.turn r) ∧ isDue u s.turn d = false := by
  rw [ht] at hu ⊢
  have hb : began s = modStream s (.stream n j t) (fun st => { st with launched := 0 }) := by rw [began, ht]; rfl
  have hs : isStepped s n j t = false := by simpa [isStepped, unstepped, or_iff_not_imp_left] using hu
  have hp : regPlace (began s) (.stream n j t) d = regPlace s (.stream n j t) d := by rw [hb, regPlace_modStream]
  have hr : isStepped (setReg (began s) (.stream n j t) d v) n j t = false := by rw [setReg, hb, isStepped_writePlace, hs]
  refine ⟨_, by rw [completes, ht, retire_unstepped _ n j t words hr], ?_, fun r hrd => ?_, ?_⟩
  · have h1 := modStream_changesPlaceOnly s n j t (regPlace s (.stream n j t) d) (f := fun st => { st with launched := 0 }) (fun _ => rfl) (fun _ => rfl)
    have h2 := writePlace_changesPlaceOnly (began s) n j t (regPlace s (.stream n j t) d) v
    rw [← hb] at h1
    rw [setReg, hp]
    exact (h1.trans h2).trans (modStream_changesPlaceOnly _ n j t _ (fun _ => seqTo_regs _ _) (fun _ => seqTo_fflags _ _))
  · rw [reg_modStream _ _ _ _ (seqTo_regs _ _), reg_setReg_other _ _ _ _ _ hrd, hb, reg_modStream]
    rfl
  · have := isDue_setReg (began s) n j t d v
    unfold isDue at this ⊢
    rw [regPlace_modStream, streamOf_modStream, seqRetired, seqTo_due]
    exact this

/-- Needs of the same streams and privilege that name fewer registers are met where the others are. -/
theorem Ready.reads_subset {words : Nat} {n j : Nat} {t : Sid} {nd ne : Need} {s : State} (ht : s.turn = .stream n j t) (h : Ready words nd s)
    (hst : ne.streams = nd.streams) (hsup : ne.sup = nd.sup) (hr : ne.reads ⊆ nd.reads) : Ready words ne s := by
  obtain ⟨hi, hc, hd⟩ := h
  refine ⟨hi, ?_, ?_⟩
  · simpa only [ht, issueCheck, hst, hsup] using hc
  · rw [List.any_eq_false] at hd ⊢
    exact fun r hm => hd r (hr hm)

/-- An answer is that of an instruction of so many words that writes one value to register d and goes on in sequence. -/
def Computes (s : State) (d : Reg) (words : Nat) (r : Result) : Prop := ∃ v, r = completes s words (setReg (began s) s.turn d v)

section Forms

variable {s : State} {n j : Nat} {t : Sid} (ht : s.turn = .stream n j t) {d a b : Reg}
include ht

/-- An instruction of user privilege and of every stream computes register d where it awaits no other registers than these and its body writes a value to d and goes on. -/
theorem issue_computes {words : Nat} (h : Ready words { reads := [d, a, b] } s) {nd : Need} {body : State → Agent → Res} {v : Word} (hst : nd.streams = allSids) (hsup : nd.sup = false)
    (hr : nd.reads ⊆ [d, a, b]) (hb : body (began s) s.turn = .ok (setReg (began s) s.turn d v) .seq) : Computes s d words (issue words nd s body) :=
  ⟨v, by rw [issue_ready (h.reads_subset ht hst hsup hr), hb]; rfl⟩

theorem aluOp_computes (h : Ready 1 { reads := [d, a, b] } s) (f : Word → Word → Word) : Computes s d 1 (aluOp d a b f s) := by
  unfold aluOp; exact issue_computes ht h rfl rfl (by simp) rfl

theorem aluOp1_computes (h : Ready 1 { reads := [d, a, b] } s) (f : Word → Word) : Computes s d 1 (aluOp1 d a f s) := by
  unfold aluOp1; exact issue_computes ht h rfl rfl (by simp) rfl

theorem execLui_computes (h : Ready 1 { reads := [d, a, b] } s) (hi : BitVec 20) : Computes s d 1 (execLui d hi s) := by
  unfold execLui; exact issue_computes ht h rfl rfl (by simp) rfl

theorem execLix_computes (h : Ready 2 { reads := [d, a, b] } s) (ext : BitVec 32) : Computes s d 2 (execLix d ext s) := by
  unfold execLix; exact issue_computes ht h rfl rfl (by simp) rfl

theorem execLihx_computes (h : Ready 2 { reads := [d, a, b] } s) (ext : BitVec 32) : Computes s d 2 (execLihx d ext s) := by
  unfold execLihx; exact issue_computes ht h rfl rfl (by simp) rfl

theorem execAddx_computes (h : Ready 2 { reads := [d, a, b] } s) (ext : BitVec 32) : Computes s d 2 (execAddx d a ext s) := by
  unfold execAddx; exact issue_computes ht h rfl rfl (by simp) rfl

theorem execRdk_computes (h : Ready 1 { reads := [d, a, b] } s) (k : BitVec 4) : Computes s d 1 (execRdk d k s) := by
  unfold execRdk; exact issue_computes ht h rfl rfl (by simp) rfl

theorem execRdcyc_computes (h : Ready 1 { reads := [d, a, b] } s) : Computes s d 1 (execRdcyc d s) := by
  unfold execRdcyc; exact issue_computes ht h rfl rfl (by simp) rfl

theorem execRdid_computes (h : Ready 1 { reads := [d, a, b] } s) (which : IdReg) : Computes s d 1 (execRdid d which s) := by
  unfold execRdid; exact issue_computes ht h rfl rfl (by simp) (by rw [ht])

theorem execRdloop_computes (h : Ready 1 { reads := [d, a, b] } s) (l : BitVec 3) : Computes s d 1 (execRdloop d l s) := by
  unfold execRdloop; exact issue_computes ht h rfl rfl (by simp) rfl

end Forms

/-- Settles O58: each of the instructions writes one value to its register and retires, and that changes its register's place alone. -/
theorem registerFrame : Obligations.RegisterFrame := by
  unfold Obligations.RegisterFrame
  intro s n j t d a b imm sh hi ext k w l ht hu g e he hr
  suffices hc : Computes s d e.1 (exec e.2 s) by
    obtain ⟨v, hv⟩ := hc
    obtain ⟨u, hnext, hf, hreg, hdue⟩ := completes_setReg_frame ht hu e.1 d v
    refine ⟨u, hv.trans hnext, hreg, reg_zero u g, hdue, ?_, ?_, hf.bank, hf.shadow, hf.streams, hf.job, hf.cores, hf.parts, hf.mgmt, hf.mem⟩
    · simpa only [g, ht] using hf.fflags
    · simpa only [g, ht] using hf.regs
  have two {i f} (h : Ready 1 { reads := [d, a, b] } s) (hi : exec i s = aluOp d a b f s) : Computes s d 1 (exec i s) := hi ▸ aluOp_computes ht h f
  have one {i f} (h : Ready 1 { reads := [d, a, b] } s) (hi : exec i s = aluOp1 d a f s) : Computes s d 1 (exec i s) := hi ▸ aluOp1_computes ht h f
  revert e
  simp only [List.forall_mem_cons]
  exact ⟨(two · (exec_add ..)), (two · (exec_sub ..)), (two · (exec_and ..)), (two · (exec_or ..)), (two · (exec_xor ..)), (two · (exec_andn ..)), (two · (exec_sll ..)),
    (two · (exec_srl ..)), (two · (exec_sra ..)), (two · (exec_rol ..)), (two · (exec_mul ..)), (two · (exec_mulh ..)), (two · (exec_mulhu ..)), (two · (exec_div ..)),
    (two · (exec_divu ..)), (two · (exec_rem ..)), (two · (exec_remu ..)), (two · (exec_min ..)), (two · (exec_minu ..)), (two · (exec_max ..)), (two · (exec_maxu ..)),
    (two · (exec_seq ..)), (two · (exec_sne ..)), (two · (exec_slt ..)), (two · (exec_sltu ..)), (two · (exec_sle ..)), (two · (exec_sleu ..)),
    (one · (exec_clz ..)), (one · (exec_ctz ..)), (one · (exec_popc ..)), (one · (exec_bswap ..)), (one · (exec_sexb ..)), (one · (exec_sexh ..)), (one · (exec_sexw ..)), (one · (exec_addi ..)),
    (one · (exec_andi ..)), (one · (exec_ori ..)), (one · (exec_xori ..)), (one · (exec_slti ..)), (one · (exec_slli ..)), (one · (exec_srli ..)), (one · (exec_srai ..)),
    (execLui_computes ht · hi), (execLix_computes ht · ext), (execLihx_computes ht · ext), (execAddx_computes ht · ext),
    (execRdk_computes ht · k), (execRdcyc_computes ht ·), (execRdid_computes ht · w), (execRdloop_computes ht · l), by simp⟩

end Sys2Proof.Machine
end

