-- ==== Sys2Proof/Proofs/Canonical.lean ====
section
/-! What keeps memory in its canonical form (R3, R68). Every operation of the model that answers a state has one lemma below: `f_mem`, where it changes no byte, or `f_canonical`, where it keeps the form. The bytes themselves change through `memWrite`, `memClear`, `fillScratch` and `storeWrite` alone; what is made of these keeps the form branch by branch, and `grind` walks through the branches with the lemmas of the operations named. -/

namespace Sys2Proof.Machine

open Sys2Proof.Config

/-- The canonical form of memory, as the invariant of this development. -/
def Memory.Canonical (m : Memory) : Prop := m.wf

theorem Memory.canonical_iff (m : Memory) : m.Canonical ↔ m.wf := Iff.rfl

/-! The operations that change bytes. -/

theorem memWrite_canonical {m : Memory} (hm : m.Canonical) (a : Nat) (l : List Byte) : (memWrite m a l).Canonical := memWrite_wf hm a l
theorem memClear_canonical {m : Memory} (hm : m.Canonical) (a len : Nat) : (memClear m a len).Canonical := memClear_wf hm a len
theorem fillScratch_canonical {m : Memory} (hm : m.Canonical) (n : Nat) (b : Byte) : (fillScratch m n b).Canonical := fillScratch_wf hm n b
theorem storeWrite_canonical {m k : Memory} (hm : m.Canonical) {a c : Nat} {key l : List Byte} (e : storeWrite m a key l = some (k, c)) : k.Canonical := storeWrite_wf hm e

/-- Outside the cores' windows an unlisted byte reads as 0 whatever the fill patterns are. -/
theorem dflt_outside_cores (m : Memory) {a : Nat} (ha : a < coreBase ∨ coreBase + nCores * coreStride ≤ a) : dflt m a = 0#8 :=
  if_neg fun h => by omega

/-- A memory that keeps some bytes of another, none of them in a core's window, is canonical where the other is. -/
theorem canonical_of_filter {m k : Memory} (hm : m.Canonical) {p : Host.Cell → Bool} (hc : k.cells = m.cells.filter p)
    (hp : ∀ e ∈ m.cells, p e = true → e.1 < coreBase ∨ coreBase + nCores * coreStride ≤ e.1) : k.Canonical := by
  obtain ⟨hrise, hdflt⟩ := hm
  refine ⟨hc ▸ hrise.filter _, fun e he => ?_⟩
  obtain ⟨he, hpe⟩ := List.mem_filter.1 (hc ▸ he)
  have hout := hp e he hpe
  rw [dflt_outside_cores k hout, ← dflt_outside_cores m hout]
  exact hdflt e he

/-! Answers whose states have memory in canonical form. -/

/-- What a step answers: its next state, where there is one, has memory in canonical form. -/
def Result.Canonical : Result → Prop
  | .next t => t.mem.Canonical
  | .fault _ => True
  | .refused _ => True

/-- What the body of an instruction answers; a trap without a state is taken in the state the instruction began in. -/
def Res.Canonical : Res → Prop
  | .ok t _ => t.mem.Canonical
  | .wait t _ => t.mem.Canonical
  | .trap _ => True
  | .trapIn t _ => t.mem.Canonical

/-- What the performing of an engine operation answers. -/
def Perf.Canonical : Perf → Prop
  | .done t => t.mem.Canonical
  | .park t _ => t.mem.Canonical
  | .fault t _ => t.mem.Canonical
  | .suspend t _ _ _ _ => t.mem.Canonical
  | .hold t _ => t.mem.Canonical

/-- What the translation of an address of the C stream answers. -/
def CAddr.Canonical : CAddr → Prop
  | .at t _ _ => t.mem.Canonical
  | .parks t _ => t.mem.Canonical
  | .trap t _ => t.mem.Canonical

@[simp] theorem Result.canonical_next (t : State) : Result.Canonical (.next t) ↔ t.mem.Canonical := Iff.rfl
@[simp] theorem Res.canonical_ok (t : State) (f : Flow) : (Res.ok t f).Canonical ↔ t.mem.Canonical := Iff.rfl
@[simp] theorem Res.canonical_wait (t : State) (r : Run) : (Res.wait t r).Canonical ↔ t.mem.Canonical := Iff.rfl
@[simp] theorem Res.canonical_trap (x : Trap) : (Res.trap x).Canonical := trivial
@[simp] theorem Res.canonical_trapIn (t : State) (x : Trap) : (Res.trapIn t x).Canonical ↔ t.mem.Canonical := Iff.rfl
@[simp] theorem Perf.canonical_done (t : State) : (Perf.done t).Canonical ↔ t.mem.Canonical := Iff.rfl
@[simp] theorem Perf.canonical_park (t : State) (o : Op) : (Perf.park t o).Canonical ↔ t.mem.Canonical := Iff.rfl
@[simp] theorem Perf.canonical_fault (t : State) (x : EFault) : (Perf.fault t x).Canonical ↔ t.mem.Canonical := Iff.rfl
@[simp] theorem Perf.canonical_hold (t : State) (o : Op) : (Perf.hold t o).Canonical ↔ t.mem.Canonical := Iff.rfl
@[simp] theorem Res.canonical_raise (c : Byte) : (raise c).Canonical := trivial
@[simp] theorem Res.canonical_raiseAt (c : Byte) (va : Word) : (raiseAt c va).Canonical := trivial

theorem Res.canonical_ite {c : Prop} [Decidable c] {x y : Res} (hx : x.Canonical) (hy : y.Canonical) : (if c then x else y).Canonical := by
  split <;> assumption

theorem canonical_of_pair {α : Type} {r : State × α} {t : State} {x : α} (hr : r.1.mem.Canonical) (e : r = (t, x)) : t.mem.Canonical := by
  subst e; exact hr

theorem exists_of_bind_eq_ok {ε α β : Type} {x : Except ε α} {f : α → Except ε β} {b : β} (h : x >>= f = .ok b) : ∃ a, x = .ok a ∧ f a = .ok b := by
  cases x with
  | error e => cases h
  | ok a => exact ⟨a, rfl, h⟩

/-! Things done one after another. -/

theorem foldl_canonical {α : Type} {f : State → α → State} (hf : ∀ s x, s.mem.Canonical → (f s x).mem.Canonical) {s : State} (hs : s.mem.Canonical) (l : List α) :
    (l.foldl f s).mem.Canonical := by
  induction l generalizing s with
  | nil => exact hs
  | cons x r ih => exact ih (hf s x hs)

theorem getD_canonical {o : Option State} {s : State} (ho : ∀ t, o = some t → t.mem.Canonical) (hs : s.mem.Canonical) : (o.getD s).mem.Canonical := by
  cases o with
  | none => exact hs
  | some t => exact ho t rfl

theorem foldl_mem {α : Type} {f : State → α → State} (hf : ∀ s x, (f s x).mem = s.mem) (s : State) (l : List α) : (l.foldl f s).mem = s.mem := by
  induction l generalizing s with
  | nil => rfl
  | cons x r ih => exact (ih (f s x)).trans (hf s x)

end Sys2Proof.Machine
end

