-- ==== Sys2Proof/Proofs/CanonicalOps.lean ====
section
/-! Registers, traps, queue descriptors and the partition control page. -/

namespace Sys2Proof.Machine

@[simp] theorem writePlace_mem (s : State) (a : Agent) (i : Nat) (v : Word) : (writePlace s a i v).mem = s.mem := by
  unfold writePlace
  repeat' split
  all_goals simp

@[simp] theorem setReg_mem (s : State) (a : Agent) (r : Reg) (v : Word) : (setReg s a r v).mem = s.mem := by simp [setReg]

@[simp] theorem dropDue_mem (s : State) (a : Agent) (op : Nat) : (dropDue s a op).mem = s.mem := by simp [dropDue]

@[simp] theorem setDue_mem (s : State) (a : Agent) (i op : Nat) : (setDue s a i op).mem = s.mem := by
  unfold setDue
  split <;> simp

@[simp] theorem arrive_mem (s : State) (a : Agent) (i op : Nat) (v : Word) : (arrive s a i op v).mem = s.mem := by
  unfold arrive
  split <;> simp

@[simp] theorem setFlags_mem (s : State) (a : Agent) (f : BitVec 5) : (setFlags s a f).mem = s.mem := by simp [setFlags]

@[simp] theorem partEvent_mem (s : State) (p b : Nat) : (partEvent s p b).mem = s.mem := by
  unfold partEvent
  split <;> simp

@[simp] theorem progress_mem (s : State) (p c : Nat) : (progress s p c).mem = s.mem := rfl

@[simp] theorem stopErr_mem (s : State) (p c : Nat) (cause : Byte) (node : Nat) : (stopErr s p c cause node).mem = s.mem := by simp [stopErr]

@[simp] theorem stopContext_mem (s : State) (p c : Nat) (cause : Byte) (node : Nat) (me : Option Nat) : (stopContext s p c cause node me).mem = s.mem := by
  unfold stopContext
  split
  · rfl
  · refine (foldl_mem (fun t n => ?_) _ _).trans (by simp)
    split <;> simp

@[simp] theorem freezeCore_mem (s : State) (n j : Nat) (double : Bool) : (freezeCore s n j double).mem = s.mem := by
  unfold freezeCore
  dsimp only
  split <;> simp

@[simp] theorem deliverTrap_mem (s : State) (n j : Nat) : (deliverTrap s n j).mem = s.mem := by
  unfold deliverTrap
  dsimp only
  split
  · rfl
  · split <;> simp

theorem stopStill_canonical {s : State} (hs : s.mem.Canonical) (n j : Nat) (t : Sid) (tr : Trap) (late : Bool) (cmd : BitVec 32) (name : Sid) : (stopStill s n j t tr late cmd name).mem.Canonical := by
  unfold stopStill
  grind [freezeCore_mem, memWrite_canonical, modJob_mem, modStream_mem, stopContext_mem]

theorem stopStream_canonical {s : State} (hs : s.mem.Canonical) (n j : Nat) (t : Sid) (tr : Trap) (late : Bool) (cmd : BitVec 32) (name : Sid) : (stopStream s n j t tr late cmd name).mem.Canonical := by
  unfold stopStream
  grind [deliverTrap_mem, stopStill_canonical]

@[simp] theorem mgmtTrap_mem (s : State) (tr : Trap) : (mgmtTrap s tr).mem = s.mem := by
  unfold mgmtTrap
  dsimp only
  split <;> rfl

theorem takeTrap_canonical {s : State} (hs : s.mem.Canonical) (a : Agent) (tr : Trap) : (takeTrap s a tr).mem.Canonical := by
  unfold takeTrap
  grind [mgmtTrap_mem, stopStream_canonical]

@[simp] theorem returnTrap_mem (s : State) (n j : Nat) : (returnTrap s n j).mem = s.mem := rfl

@[simp] theorem returnMgmt_mem (s : State) : (returnMgmt s).mem = s.mem := rfl

@[simp] theorem engineFault_mem (s : State) (n j : Nat) (t : Sid) (f : EFault) : (engineFault s n j t f).mem = s.mem := by
  unfold engineFault
  grind [freezeCore_mem, modStream_mem]

theorem raisePending_canonical {s : State} (hs : s.mem.Canonical) (n j : Nat) (t : Sid) : (raisePending s n j t).mem.Canonical := by
  unfold raisePending
  grind [modStream_mem, stopStream_canonical]

@[simp] theorem waitAt_mem (s : State) (a : Agent) (r : Run) : (waitAt s a r).mem = s.mem := by simp [waitAt]

theorem stepTrap_canonical {s : State} (hs : s.mem.Canonical) (a : Agent) : (stepTrap s a).mem.Canonical := by
  unfold stepTrap
  grind [raisePending_canonical, stopStream_canonical]

theorem finishRdv_canonical {s : State} (hs : s.mem.Canonical) (n j : Nat) (t : Sid) : (finishRdv s n j t).mem.Canonical := by
  unfold finishRdv
  grind [modJob_mem, stepTrap_canonical]

theorem finishStill_canonical {s : State} (hs : s.mem.Canonical) (n j : Nat) (t : Sid) : (finishStill s n j t).mem.Canonical := by
  unfold finishStill
  grind [modJob_mem, stopStill_canonical]

theorem deliverDue_canonical {s : State} (hs : s.mem.Canonical) (n j : Nat) : (deliverDue s n j).mem.Canonical := by
  unfold deliverDue
  grind [deliverTrap_mem, finishRdv_canonical]

theorem retire_canonical {s : State} (hs : s.mem.Canonical) (a : Agent) (words : Nat) (f : Flow) : (retire s a words f).mem.Canonical := by
  unfold retire
  grind [modStream_mem, stepTrap_canonical]

theorem issue_canonical {s : State} (hs : s.mem.Canonical) {words : Nat} {nd : Need} {body : State → Agent → Res} (hb : ∀ t a, t.mem.Canonical → Res.Canonical (body t a)) : Result.Canonical (issue words nd s body) := by
  unfold issue
  grind [beginInstr_mem, retire_canonical, takeTrap_canonical, waitAt_mem, Result.Canonical, Res.Canonical]

theorem issue_stream_canonical {s : State} (hs : s.mem.Canonical) {words : Nat} {nd : Need} {body : State → Agent → Res} (hm : ∀ t, t.mem.Canonical → Res.Canonical (body t .mgmt)) (hb : ∀ t n j u, t.mem.Canonical → Res.Canonical (body t (.stream n j u))) : Result.Canonical (issue words nd s body) :=
  issue_canonical hs fun t g ht => by
    cases g with
    | mgmt => exact hm t ht
    | stream n j u => exact hb t n j u ht

theorem illegal_canonical {s : State} (hs : s.mem.Canonical) : Result.Canonical (illegal s) := by
  unfold illegal
  split
  · exact takeTrap_canonical hs ..
  · exact hs

@[simp] theorem wakeWfi_mem (s : State) (n j : Nat) (p : Sid → Bool) : (wakeWfi s n j p).mem = s.mem := rfl

@[simp] theorem enqueue_mem (s : State) (a : Agent) (q : Queue) (k : OpKind) (names : List Handle) : (enqueue s a q k names).mem = s.mem := by
  unfold enqueue
  split <;> simp

@[simp] theorem wakeEnds_mem (s : State) (n j : Nat) (d e : QDesc) : (wakeEnds s n j d e).mem = s.mem := rfl

theorem setDesc_canonical {s : State} (hs : s.mem.Canonical) (n j : Nat) (h : Handle) (off : Nat) (l : List Byte) : (setDesc s n j h off l).mem.Canonical :=
  memWrite_canonical hs ..

theorem setHead_canonical {s : State} (hs : s.mem.Canonical) (n j : Nat) (h : Handle) (v : Nat) : (setHead s n j h v).mem.Canonical := setDesc_canonical hs ..

theorem setTail_canonical {s : State} (hs : s.mem.Canonical) (n j : Nat) (h : Handle) (v : Nat) : (setTail s n j h v).mem.Canonical := setDesc_canonical hs ..

theorem spWrite_canonical {s : State} (hs : s.mem.Canonical) (n off : Nat) (l : List Byte) : (spWrite s n off l).mem.Canonical := memWrite_canonical hs ..

theorem writeRow_canonical {s : State} (hs : s.mem.Canonical) (n row w : Nat) (l : List Nat) : (writeRow s n row w l).mem.Canonical := memWrite_canonical hs ..

@[simp] theorem freePool_mem (s : State) (p e : Nat) : (freePool s p e).mem = s.mem := rfl

@[simp] theorem clearEntries_mem (s : State) (p : Nat) (f : Nat → RingEntry → Bool) : (clearEntries s p f).mem = s.mem := rfl

@[simp] theorem discardLaunch_mem (s : State) (p c : Nat) : (discardLaunch s p c).mem = s.mem := by
  unfold discardLaunch
  simp only [modCtx_mem, modPart_mem]
  refine (foldl_mem (fun t n => modCore_mem _ _ _) _ _).trans ((clearEntries_mem _ _ _).trans (foldl_mem (fun t e => ?_) _ _))
  split
  · split <;> simp
  · rfl

@[simp] theorem goLoop_mem (s : State) (p c : Nat) (stop : Bool) : (goLoop s p c stop).mem = s.mem := by
  unfold goLoop
  grind [discardLaunch_mem, modCtx_mem, partEvent_mem]

@[simp] theorem stopLoop_mem (s : State) (p c : Nat) : (stopLoop s p c).mem = s.mem := rfl

@[simp] theorem glCommand_mem (s : State) (p c cmd : Nat) : (glCommand s p c cmd).mem = s.mem := rfl

@[simp] theorem endSlice_mem (s : State) (p : Nat) : (endSlice s p).mem = s.mem := foldl_mem (fun t n => modCore_mem t n _) s _

@[simp] theorem ctxEnable_mem (s : State) (p c : Nat) (en : Bool) : (ctxEnable s p c en).mem = s.mem := by
  unfold ctxEnable
  grind [endSlice_mem, modCtx_mem, modPart_mem]

@[simp] theorem declareRange_mem (s : State) (p c : Nat) (v : Word) : (declareRange s p c v).mem = s.mem := by
  unfold declareRange
  split
  · rfl
  · exact (foldl_mem (fun t n => modCore_mem t n _) _ _).trans (modCtx_mem s p c _)

@[simp] theorem writePbset_mem (s : State) (p c t : Nat) (v : BitVec 320) : (writePbset s p c t v).mem = s.mem := rfl

@[simp] theorem discardEntries_mem (s : State) (p n j : Nat) (b : Job) (kept : List Op) : (discardEntries s p n j b kept).mem = s.mem := rfl

@[simp] theorem killActive_mem (s : State) (n j : Nat) : (killActive s n j).mem = s.mem := by
  unfold killActive
  grind [discardEntries_mem, modSlot_mem]

theorem releaseDeliver_canonical {s : State} (hs : s.mem.Canonical) (p n : Nat) : (releaseDeliver s p n).mem.Canonical := by
  unfold releaseDeliver
  grind [deliverDue_canonical, modCore_mem, modSlot_mem]

@[simp] theorem releaseKill_mem (s : State) (p n : Nat) : (releaseKill s p n).mem = s.mem := by
  unfold releaseKill
  grind [killActive_mem, modCore_mem]

@[simp] theorem attGo_mem (s : State) (fn : Nat) : (attGo s fn).mem = s.mem := by
  unfold attGo
  grind

@[simp] theorem attWrite_mem (s : State) (fn off : Nat) (v : Word) : (attWrite s fn off v).mem = s.mem := by
  unfold attWrite
  repeat' split
  all_goals simp

@[simp] theorem requestRollback_mem (s : State) (p c : Nat) : (requestRollback s p c).mem = s.mem := rfl

@[simp] theorem ctxWrite_mem (s : State) (p c off : Nat) (v : Word) : (ctxWrite s p c off v).mem = s.mem := by
  unfold ctxWrite
  split <;> dsimp only <;> repeat' split
  all_goals simp

@[simp] theorem configure_mem (s : State) (p : Nat) (g : BitVec 16) : (configure s p g).mem = s.mem :=
  (foldl_mem (fun t n => modCore_mem t n _) _ _).trans (modPart_mem s p _)

theorem pctlWrite_canonical {s : State} (hs : s.mem.Canonical) (p off : Nat) (v : Word) (fw : Bool) : (pctlWrite s p off v fw).mem.Canonical := by
  unfold pctlWrite
  grind [attWrite_mem, configure_mem, ctxWrite_mem, modPart_mem, releaseDeliver_canonical, releaseKill_mem]

theorem pctlWriteBytes_canonical {s : State} (hs : s.mem.Canonical) (p off : Nat) (l : List Byte) (fw : Bool) : (pctlWriteBytes s p off l fw).mem.Canonical := by
  unfold pctlWriteBytes
  dsimp only
  split
  · exact hs
  · exact foldl_canonical (fun t i ht => pctlWrite_canonical ht p _ _ fw) hs _

end Sys2Proof.Machine
end

