-- ==== Sys2Proof/Proofs/CanonicalPhys.lean ====
section
/-! Lines, sectors, page walks and the translation ring. A walk goes down a literal number of levels and an access a literal number of pages; the kernel, comparing two forms of a state that such a walk leaves, would evaluate it. Where that threatens, a proof takes the walks as given: the functions become variables, of which only their lemmas are known. -/

namespace Sys2Proof.Machine

theorem coreRaw_canonical {s : State} (hs : s.mem.Canonical) (n off : Nat) (l : List Byte) (lo hi : Nat) : (coreRaw s n off l lo hi).mem.Canonical := by
  unfold coreRaw
  grind [memWrite_canonical]

@[simp] theorem sregWrite_mem (s : State) (n off : Nat) (l : List Byte) : (sregWrite s n off l).mem = s.mem :=
  foldl_mem (fun t i => by
    dsimp only
    split
    · rfl
    · split <;> simp) s _

@[simp] theorem stirJobs_mem (s : State) (n : Nat) : (stirJobs s n).mem = s.mem := rfl

theorem coreWrite_canonical {s : State} (hs : s.mem.Canonical) (n off : Nat) (l : List Byte) : (coreWrite s n off l).mem.Canonical := by
  unfold coreWrite
  grind [coreRaw_canonical, modSlot_mem, sregWrite_mem, stirJobs_mem, wakeWfi_mem]

@[simp] theorem wakeColumn_mem (s : State) (n : Nat) : (wakeColumn s n).mem = s.mem := by
  unfold wakeColumn
  split <;> simp

@[simp] theorem markDirty_mem (s : State) (n off len : Nat) : (markDirty s n off len).mem = s.mem := by
  unfold markDirty
  grind [modCore_mem]

theorem writeBack_canonical {s : State} (hs : s.mem.Canonical) (x : Line) : (writeBack s x).mem.Canonical := by
  unfold writeBack
  split
  · split
    next hw => exact storeWrite_canonical hs hw
    next => exact hs
  · exact hs

theorem dropLines_canonical {s : State} (hs : s.mem.Canonical) (n : Nat) (p : Line → Bool) : (dropLines s n p).mem.Canonical :=
  foldl_canonical (fun _ x ht => writeBack_canonical ht x) hs _

@[simp] theorem acquire_mem (s : State) (n : Nat) : (acquire s n).mem = s.mem := rfl

theorem fillLine_canonical {s : State} (hs : s.mem.Canonical) (n : Nat) (x : Line) : (fillLine s n x).mem.Canonical := by
  unfold fillLine
  grind [dropLines_canonical, modCore_mem]

theorem recallLine_canonical {s : State} (hs : s.mem.Canonical) (me : Option Nat) (pa len : Nat) : (recallLine s me pa len).mem.Canonical := by
  refine foldl_canonical (fun t e ht => ?_) hs _
  split
  · exact ht
  · exact foldl_canonical (fun _ x hu => writeBack_canonical hu x) ht _

@[simp] theorem countCorrected_mem (s : State) (p k : Nat) : (countCorrected s p k).mem = s.mem := by
  unfold countCorrected
  split <;> simp

@[simp] theorem countOwner_mem (s : State) (pa k : Nat) : (countOwner s pa k).mem = s.mem := by
  unfold countOwner
  split <;> simp

theorem storePut_canonical {s : State} (hs : s.mem.Canonical) (pa key : Nat) (l : List Byte) : (storePut s pa key l).1.mem.Canonical := by
  unfold storePut
  split
  next => simpa using hs
  next hw => simpa using storeWrite_canonical hs hw

@[simp] theorem storeGet_mem (s : State) (p pa len key : Nat) : (storeGet s p pa len key).1.mem = s.mem := by
  unfold storeGet
  split <;> simp

theorem physRead_canonical {s : State} (hs : s.mem.Canonical) (p pa len key : Nat) : (physRead s p pa len key).1.mem.Canonical := by
  unfold physRead
  grind [recallLine_canonical, storeGet_mem, wakeColumn_mem]

theorem physWrite_canonical {s : State} (hs : s.mem.Canonical) (pa key : Nat) (l : List Byte) : (physWrite s pa key l).1.mem.Canonical := by
  unfold physWrite
  grind [coreWrite_canonical, markDirty_mem, pctlWriteBytes_canonical, recallLine_canonical, storePut_canonical, wakeColumn_mem]

theorem cachedRead_canonical {s : State} (hs : s.mem.Canonical) (p n pa len key : Nat) : (cachedRead s p n pa len key).1.mem.Canonical := by
  unfold cachedRead
  grind [fillLine_canonical, modCore_mem, recallLine_canonical, storeGet_mem]

theorem cachedWrite_canonical {s : State} (hs : s.mem.Canonical) (n pa key : Nat) (b : List Byte) : (cachedWrite s n pa key b).1.mem.Canonical := by
  unfold cachedWrite
  grind [fillLine_canonical, modCore_mem, recallLine_canonical, storeGet_mem, storePut_canonical]

@[simp] theorem fillTlb_mem (s : State) (n : Nat) (e : TlbEntry) : (fillTlb s n e).mem = s.mem := rfl

theorem walkRecalls_canonical {s : State} (hs : s.mem.Canonical) (q : Partition) (va table lv : Nat) : (walkRecalls s q va table lv).mem.Canonical := by
  induction lv generalizing s table with
  | zero => exact hs
  | succ lv ih =>
    have hr := recallLine_canonical hs none (walkEntry table va lv) 8
    unfold walkRecalls
    simp only
    split
    · exact hs
    · split
      · exact hr
      · split
        · exact hr
        · exact ih hr _

theorem walkMade_canonical {s : State} (hs : s.mem.Canonical) (p c : Nat) (va : Word) : (walkMade s p c va).mem.Canonical := by
  simpa [walkMade] using walkRecalls_canonical hs _ _ _ _

theorem walked_canonical {s : State} (hs : s.mem.Canonical) (w : Who) (va : Word) : (walked s w va).mem.Canonical := by
  have hm := @walkMade_canonical
  generalize hf : walked = f
  delta walked at hf
  generalize walkMade = made at hm hf
  generalize walkFrom = walk at hf
  as_aux_lemma =>
    subst hf
    grind [fillTlb_mem]

theorem walkedRange_canonical {s : State} (hs : s.mem.Canonical) (w : Who) (va : Word) (len : Nat) : (walkedRange s w va len).mem.Canonical :=
  foldl_canonical (fun _ x ht => walked_canonical ht w x) hs _

theorem ringStore_canonical {s : State} (hs : s.mem.Canonical) (p c i : Nat) : (ringStore s p c i).mem.Canonical := by
  unfold ringStore
  grind [physWrite_canonical, walkMade_canonical]

theorem ringPost_canonical {s : State} (hs : s.mem.Canonical) {p c : Nat} {e : RingEntry} {r : State × Nat} (he : ringPost s p c e = some r) : r.1.mem.Canonical := by
  unfold ringPost at he
  simp only at he
  split at he
  · cases he
  · split at he <;> cases he
    exact ringStore_canonical (by simpa using hs) _ _ _

theorem ringMod_canonical {s : State} (hs : s.mem.Canonical) (p c i : Nat) (f : RingEntry → RingEntry) : (ringMod s p c i f).mem.Canonical := by
  unfold ringMod
  grind [modPart_mem, ringStore_canonical]

theorem vaReadFrom_canonical {s : State} (hs : s.mem.Canonical) (w : Who) (fuel : Nat) (va : Word) (len : Nat) : (vaReadFrom w fuel s va len).1.mem.Canonical := by
  induction fuel generalizing s va len with
  | zero => exact hs
  | succ fuel ih =>
    unfold vaReadFrom
    grind [physRead_canonical, walked_canonical]

theorem vaRead_canonical {s : State} (hs : s.mem.Canonical) (w : Who) (va : Word) (len : Nat) : (vaRead s w va len).1.mem.Canonical := vaReadFrom_canonical hs ..

theorem vaWriteFrom_canonical {s : State} (hs : s.mem.Canonical) (w : Who) (fuel : Nat) (va : Word) (l : List Byte) : (vaWriteFrom w fuel s va l).1.mem.Canonical := by
  induction fuel generalizing s va l with
  | zero => exact hs
  | succ fuel ih =>
    unfold vaWriteFrom
    grind [physWrite_canonical, walked_canonical]

theorem vaWrite_canonical {s : State} (hs : s.mem.Canonical) (w : Who) (va : Word) (l : List Byte) : (vaWrite s w va l).1.mem.Canonical := vaWriteFrom_canonical hs ..

theorem parkAt_canonical {s : State} (hs : s.mem.Canonical) {v : Via} {va : Word} {kind : Nat} {write : Bool} {cmd : BitVec 32} {r : State × Nat} (he : parkAt s v va kind write cmd = some r) : r.1.mem.Canonical := by
  unfold parkAt at he
  split at he
  · cases he
    exact ringMod_canonical hs _ _ _ _
  · exact ringPost_canonical hs he

theorem spaceRead_canonical {s : State} (hs : s.mem.Canonical) (v : Via) (sp : Space) (a : Int) (len : Nat) : (spaceRead s v sp a len).1.mem.Canonical := by
  have hv := @vaRead_canonical
  have hp := @physRead_canonical
  generalize hf : spaceRead = f
  delta spaceRead at hf
  generalize vaRead = va at hv hf
  generalize physRead = phys at hp hf
  as_aux_lemma =>
    subst hf
    grind

theorem spaceWrite_canonical {s : State} (hs : s.mem.Canonical) (v : Via) (sp : Space) (a : Int) (l : List Byte) : (spaceWrite s v sp a l).1.mem.Canonical := by
  have hv := @vaWrite_canonical
  have hp := @physWrite_canonical
  have hr := @walkedRange_canonical
  generalize hf : spaceWrite = f
  delta spaceWrite at hf
  generalize vaWrite = va at hv hf
  generalize physWrite = phys at hp hf
  generalize walkedRange = walk at hr hf
  generalize vaCheck = check at hf
  as_aux_lemma =>
    subst hf
    grind [spWrite_canonical]

theorem recallMark_canonical (s0 : State) (o : Op) {r : Perf} (hr : r.Canonical) : (recallMark s0 o r).Canonical := by
  cases r <;> exact hr

theorem endBy_canonical {s : State} (hs : s.mem.Canonical) (v : Via) (o : Op) (i : Nat) (write hbm : Bool) (e : VErr) : Perf.Canonical (endBy s v o i write hbm e) := by
  have hp {va : Word} {kind : Nat} {r : State × Nat} (h : parkAt s v va kind write o.cmd = some r) : r.1.mem.Canonical := parkAt_canonical hs h
  unfold endBy
  grind [Perf.Canonical]

end Sys2Proof.Machine
end

