-- ==== Sys2Proof/Proofs/CanonicalAccess.lean ====
section
/-! Element accesses of the engines, and the instructions of the A stream, of scalar arithmetic and of control flow. An instruction keeps the form where its body does. -/

namespace Sys2Proof.Machine

theorem accIssue_canonical {s : State} (hs : s.mem.Canonical) {words : Nat} {reads : List Reg} {body : State → Nat → Nat → Job → Res} (hb : ∀ t n j b, t.mem.Canonical → Res.Canonical (body t n j b)) : Result.Canonical (accIssue words reads s body) :=
  issue_stream_canonical hs (fun _ _ => trivial) fun t n j _ ht => hb t n j _ ht

theorem execApcfg_canonical {s : State} (hs : s.mem.Canonical) (p : Pat) (a b : Reg) (space : Space) (lge : BitVec 4) (dims : BitVec 2) : Result.Canonical (execApcfg p a b space lge dims s) := by
  unfold execApcfg
  exact accIssue_canonical hs fun _ _ _ _ ht => by grind [modJob_mem, Res.Canonical, raise]

theorem aqPut_canonical {s : State} (hs : s.mem.Canonical) (n j : Nat) (k : OpKind) (names : List Handle) : Res.Canonical (aqPut s n j k names) := by
  unfold aqPut
  split
  · exact hs
  · simpa using hs

theorem streamOp_canonical {s : State} (hs : s.mem.Canonical) (load : Bool) (q : Handle) (pn : Pat) (n : BitVec 3) : Result.Canonical (streamOp load q pn n s) := by
  unfold streamOp
  exact accIssue_canonical hs fun _ _ _ _ ht => by grind [aqPut_canonical, modJob_mem, Res.Canonical, raise]

theorem indexedOp_canonical {s : State} (hs : s.mem.Canonical) (gather : Bool) (q qi : Handle) (pn : Pat) (n : BitVec 3) : Result.Canonical (indexedOp gather q qi pn n s) := by
  unfold indexedOp
  exact accIssue_canonical hs fun _ _ _ _ ht => by grind [aqPut_canonical, Res.Canonical, raise]

theorem execAprf_canonical {s : State} (hs : s.mem.Canonical) (a : Reg) (p : Pat) : Result.Canonical (execAprf a p s) := by
  unfold execAprf
  exact accIssue_canonical hs fun _ _ _ _ ht => by grind [Res.Canonical, raise]

theorem execAwcfg_canonical {s : State} (hs : s.mem.Canonical) (d a b : Reg) (space : Space) (lge : BitVec 2) : Result.Canonical (execAwcfg d a b space lge s) := by
  unfold execAwcfg
  exact accIssue_canonical hs fun _ _ _ _ ht => by grind [modJob_mem, setReg_mem, Res.Canonical, raise]

theorem execAwpass_canonical {s : State} (hs : s.mem.Canonical) (d a : Reg) : Result.Canonical (execAwpass d a s) := by
  unfold execAwpass
  exact accIssue_canonical hs fun _ _ _ _ ht => by grind [modJob_mem, setReg_mem, Res.Canonical, raise]

theorem execAwin_canonical {s : State} (hs : s.mem.Canonical) (q : Handle) (n : BitVec 3) : Result.Canonical (execAwin q n s) := by
  unfold execAwin
  exact accIssue_canonical hs fun _ _ _ _ ht => by grind [aqPut_canonical, modJob_mem, Res.Canonical, raise]

theorem elemRead_canonical {s : State} (hs : s.mem.Canonical) (n j : Nat) (p : Pattern) (a : Int) : (elemRead s n j p a).1.mem.Canonical := by
  unfold elemRead
  split
  · exact hs
  · exact spaceRead_canonical hs ..

theorem elemWrite_canonical {s : State} (hs : s.mem.Canonical) (n j : Nat) (p : Pattern) (a : Int) (l : List Byte) : (elemWrite s n j p a l).1.mem.Canonical := by
  unfold elemWrite
  split
  · exact hs
  · exact spaceWrite_canonical hs ..

theorem windowSlot_canonical {s : State} (hs : s.mem.Canonical) (n j : Nat) (w : Window) (k : Nat) : (windowSlot s n j w k).1.mem.Canonical := by
  unfold windowSlot
  grind [spaceRead_canonical]

theorem aElem_canonical {s : State} (hs : s.mem.Canonical) (n j : Nat) (k : OpKind) (i : Nat) : (aElem s n j k i).1.mem.Canonical := by
  unfold aElem
  grind [elemRead_canonical, elemWrite_canonical, spWrite_canonical, windowSlot_canonical]

theorem aFrom_canonical {s : State} (hs : s.mem.Canonical) (n j : Nat) (o : Op) (fuel i : Nat) : (aFrom s n j o fuel i).Canonical := by
  induction fuel generalizing s i with
  | zero => exact hs
  | succ fuel ih =>
    unfold aFrom
    grind [aElem_canonical, endBy_canonical, Perf.Canonical]

theorem aPerform_canonical {s : State} (hs : s.mem.Canonical) (n j : Nat) (o : Op) : Perf.Canonical (aPerform s n j o) := by
  unfold aPerform
  grind [aFrom_canonical, recallMark_canonical]

theorem aluOp_canonical {s : State} (hs : s.mem.Canonical) (d a b : Reg) (f : Word → Word → Word) : Result.Canonical (aluOp d a b f s) := by
  unfold aluOp
  exact issue_canonical hs fun _ _ ht => by simpa using ht

theorem aluOp1_canonical {s : State} (hs : s.mem.Canonical) (d a : Reg) (f : Word → Word) : Result.Canonical (aluOp1 d a f s) := by
  unfold aluOp1
  exact issue_canonical hs fun _ _ ht => by simpa using ht

theorem fpOp_canonical {s : State} (hs : s.mem.Canonical) (d a b : Reg) (f : Nat → Nat → Nat × BitVec 5) : Result.Canonical (fpOp d a b f s) := by
  unfold fpOp
  exact issue_canonical hs fun _ _ ht => by simpa using ht

theorem fpRel_canonical {s : State} (hs : s.mem.Canonical) (d a b : Reg) (r : Rel) : Result.Canonical (fpRel d a b r s) := fpOp_canonical hs ..

theorem execFcvtfi_canonical {s : State} (hs : s.mem.Canonical) (d a : Reg) (rm : Rounding) : Result.Canonical (execFcvtfi d a rm s) := by
  unfold execFcvtfi
  exact issue_canonical hs fun _ _ ht => by simpa using ht

theorem execFcvtif_canonical {s : State} (hs : s.mem.Canonical) (d a : Reg) (rm : Rounding) : Result.Canonical (execFcvtif d a rm s) := by
  unfold execFcvtif
  exact issue_canonical hs fun _ _ ht => by simpa using ht

theorem execLui_canonical {s : State} (hs : s.mem.Canonical) (d : Reg) (imm : BitVec 20) : Result.Canonical (execLui d imm s) := by
  unfold execLui
  exact issue_canonical hs fun _ _ ht => by simpa using ht

theorem execLix_canonical {s : State} (hs : s.mem.Canonical) (d : Reg) (imm : BitVec 32) : Result.Canonical (execLix d imm s) := by
  unfold execLix
  exact issue_canonical hs fun _ _ ht => by simpa using ht

theorem execLihx_canonical {s : State} (hs : s.mem.Canonical) (d : Reg) (imm : BitVec 32) : Result.Canonical (execLihx d imm s) := by
  unfold execLihx
  exact issue_canonical hs fun _ _ ht => by simpa using ht

theorem execAddx_canonical {s : State} (hs : s.mem.Canonical) (d a : Reg) (imm : BitVec 32) : Result.Canonical (execAddx d a imm s) := by
  unfold execAddx
  exact issue_canonical hs fun _ _ ht => by simpa using ht

theorem branchOp_canonical {s : State} (hs : s.mem.Canonical) (a b : Reg) (off : BitVec 11) (c : Word → Word → Bool) : Result.Canonical (branchOp a b off c s) := by
  unfold branchOp
  exact issue_canonical hs fun _ _ ht => ht

theorem execJal_canonical {s : State} (hs : s.mem.Canonical) (d : Reg) (off : BitVec 20) : Result.Canonical (execJal d off s) := by
  unfold execJal
  exact issue_canonical hs fun _ _ ht => by simpa using ht

theorem execJalr_canonical {s : State} (hs : s.mem.Canonical) (d a : Reg) (imm : BitVec 11) : Result.Canonical (execJalr d a imm s) := by
  unfold execJalr
  exact issue_canonical hs fun _ _ ht => by simpa using ht

theorem loopOp_canonical {s : State} (hs : s.mem.Canonical) (nd : Need) (lvl : BitVec 2) (len : BitVec 10) (count : State → Agent → BitVec 32) : Result.Canonical (loopOp nd lvl len count s) := by
  unfold loopOp
  exact issue_canonical hs fun _ _ ht => by grind [modStream_mem, Res.Canonical, raise]

@[simp] theorem cregWrite_mem (s : State) (n j : Nat) (t : Sid) (num : Nat) (v : Word) : (cregWrite s n j t num v).mem = s.mem := by
  unfold cregWrite
  repeat' split
  all_goals simp

theorem execRdc_canonical {s : State} (hs : s.mem.Canonical) (d : Reg) (num : BitVec 12) : Result.Canonical (execRdc d num s) :=
  issue_canonical hs fun t g ht => by
    cases g with
    | mgmt =>
      dsimp only
      split <;> simp [ht]
    | stream n j u =>
      dsimp only
      repeat' split
      all_goals simp [ht]

theorem execWrc_canonical {s : State} (hs : s.mem.Canonical) (d : Reg) (num : BitVec 12) : Result.Canonical (execWrc d num s) := by
  unfold execWrc
  exact issue_canonical hs fun _ _ ht => by grind [cregWrite_mem, modStream_mem, Res.Canonical, raise]

theorem execRdk_canonical {s : State} (hs : s.mem.Canonical) (d : Reg) (k : BitVec 4) : Result.Canonical (execRdk d k s) := by
  unfold execRdk
  exact issue_canonical hs fun _ _ ht => by simpa using ht

theorem execRdcyc_canonical {s : State} (hs : s.mem.Canonical) (d : Reg) : Result.Canonical (execRdcyc d s) := by
  unfold execRdcyc
  exact issue_canonical hs fun _ _ ht => by simpa using ht

theorem execRdid_canonical {s : State} (hs : s.mem.Canonical) (d : Reg) (which : IdReg) : Result.Canonical (execRdid d which s) := by
  unfold execRdid
  exact issue_canonical hs fun _ _ ht => by grind [setReg_mem, Res.Canonical, raise]

theorem execRdloop_canonical {s : State} (hs : s.mem.Canonical) (d : Reg) (level : BitVec 3) : Result.Canonical (execRdloop d level s) := by
  unfold execRdloop
  exact issue_canonical hs fun _ _ ht => by simpa using ht

end Sys2Proof.Machine
end

