-- ==== Sys2Proof/Proofs/CanonicalVector.lean ====
section
/-! Vector instructions and the operations of the VQ. -/

namespace Sys2Proof.Machine

theorem vecIssue_canonical {s : State} (hs : s.mem.Canonical) {words : Nat} {reads : List Reg} {rows : List VReg} {same : Bool} {body : State → Nat → Nat → Job → List Nat → Res} (hb : ∀ t n j b l, t.mem.Canonical → Res.Canonical (body t n j b l)) : Result.Canonical (vecIssue words reads rows same s body) :=
  issue_stream_canonical hs (fun _ _ => trivial) fun t n j _ ht => by
    dsimp only
    split
    · trivial
    · split
      · exact ht
      · exact hb t n j _ _ ht

theorem putLanes_canonical {s : State} (hs : s.mem.Canonical) (n j row w : Nat) (l : List (Nat × BitVec 5)) : Res.Canonical (putLanes s n j row w l) :=
  writeRow_canonical hs ..

theorem laneOp_canonical {s : State} (hs : s.mem.Canonical) (d a b : VReg) (f : Nat → Option LaneFn) : Result.Canonical (laneOp d a b f s) := by
  unfold laneOp
  exact vecIssue_canonical hs fun _ _ _ _ _ ht => by grind [putLanes_canonical, Res.Canonical, raise]

theorem laneOp1_canonical {s : State} (hs : s.mem.Canonical) (d a : VReg) (f : Nat → Option LaneFn) : Result.Canonical (laneOp1 d a f s) := laneOp_canonical hs ..

theorem cmpOp_canonical {s : State} (hs : s.mem.Canonical) (d : MReg) (a b : VReg) (r : Rel) : Result.Canonical (cmpOp d a b r s) := by
  unfold cmpOp
  exact vecIssue_canonical hs fun _ _ _ _ _ ht => ht

theorem execVsel_canonical {s : State} (hs : s.mem.Canonical) (d a : VReg) (b : MReg) : Result.Canonical (execVsel d a b s) := by
  unfold execVsel
  exact vecIssue_canonical hs fun _ _ _ _ _ ht => writeRow_canonical ht ..

theorem maskOp_canonical {s : State} (hs : s.mem.Canonical) {body : State → Nat → Nat → Job → Res} (hb : ∀ t n j b, t.mem.Canonical → Res.Canonical (body t n j b)) : Result.Canonical (maskOp s body) :=
  issue_stream_canonical hs (fun _ _ => trivial) fun t n j _ ht => hb t n j _ ht

theorem execMand_canonical {s : State} (hs : s.mem.Canonical) (d a b : MReg) : Result.Canonical (execMand d a b s) := by
  unfold execMand
  exact maskOp_canonical hs fun _ _ _ _ ht => ht

theorem execMor_canonical {s : State} (hs : s.mem.Canonical) (d a b : MReg) : Result.Canonical (execMor d a b s) := by
  unfold execMor
  exact maskOp_canonical hs fun _ _ _ _ ht => ht

theorem execMxor_canonical {s : State} (hs : s.mem.Canonical) (d a b : MReg) : Result.Canonical (execMxor d a b s) := by
  unfold execMxor
  exact maskOp_canonical hs fun _ _ _ _ ht => ht

theorem execMnot_canonical {s : State} (hs : s.mem.Canonical) (d a : MReg) : Result.Canonical (execMnot d a s) := by
  unfold execMnot
  exact maskOp_canonical hs fun _ _ _ _ ht => ht

theorem execMpop_canonical {s : State} (hs : s.mem.Canonical) (d : Reg) (a : MReg) : Result.Canonical (execMpop d a s) := by
  unfold execMpop
  exact maskOp_canonical hs fun _ _ _ _ ht => by simpa using ht

theorem execMfirst_canonical {s : State} (hs : s.mem.Canonical) (d : Reg) (a : MReg) : Result.Canonical (execMfirst d a s) := by
  unfold execMfirst
  exact maskOp_canonical hs fun _ _ _ _ ht => by simpa using ht

theorem execVcvt_canonical {s : State} (hs : s.mem.Canonical) (d a : VReg) (h : BitVec 1) (t : CvtType) (rm : Rounding) (sat : Bool) : Result.Canonical (execVcvt d a h t rm sat s) := by
  unfold execVcvt
  exact vecIssue_canonical hs fun _ _ _ _ _ ht => by grind [putLanes_canonical, setFlags_mem, writeRow_canonical, Res.Canonical, raise]

theorem redOp_canonical {s : State} (hs : s.mem.Canonical) (d a : VReg) (m : MReg) (o : ScanOp) : Result.Canonical (redOp d a m o s) := by
  unfold redOp
  exact vecIssue_canonical hs fun _ _ _ _ _ ht => writeRow_canonical ht ..

theorem execVscan_canonical {s : State} (hs : s.mem.Canonical) (d a : VReg) (o : ScanOp) (m : MReg) : Result.Canonical (execVscan d a o m s) := by
  unfold execVscan
  grind [putLanes_canonical, vecIssue_canonical]

theorem execVmov_canonical {s : State} (hs : s.mem.Canonical) (d a : VReg) : Result.Canonical (execVmov d a s) := by
  unfold execVmov
  exact vecIssue_canonical hs fun _ _ _ _ _ ht => writeRow_canonical ht ..

theorem execVbcast_canonical {s : State} (hs : s.mem.Canonical) (d : VReg) (a : Reg) : Result.Canonical (execVbcast d a s) := by
  unfold execVbcast
  exact vecIssue_canonical hs fun _ _ _ _ _ ht => writeRow_canonical ht ..

theorem execVext_canonical {s : State} (hs : s.mem.Canonical) (d : Reg) (a : VReg) (b : Reg) : Result.Canonical (execVext d a b s) := by
  unfold execVext
  exact vecIssue_canonical hs fun _ _ _ _ _ ht => by simpa using ht

theorem execVins_canonical {s : State} (hs : s.mem.Canonical) (d : VReg) (a b : Reg) : Result.Canonical (execVins d a b s) := by
  unfold execVins
  exact vecIssue_canonical hs fun _ _ _ _ _ ht => writeRow_canonical ht ..

theorem execVrot_canonical {s : State} (hs : s.mem.Canonical) (d a : VReg) (b : Reg) : Result.Canonical (execVrot d a b s) := by
  unfold execVrot
  exact vecIssue_canonical hs fun _ _ _ _ _ ht => writeRow_canonical ht ..

theorem execVidx_canonical {s : State} (hs : s.mem.Canonical) (d : VReg) (a : Reg) : Result.Canonical (execVidx d a s) := by
  unfold execVidx
  grind [putLanes_canonical, vecIssue_canonical]

theorem execVpack_canonical {s : State} (hs : s.mem.Canonical) (d a b : VReg) : Result.Canonical (execVpack d a b s) := by
  unfold execVpack
  exact vecIssue_canonical hs fun _ _ _ _ _ ht => by grind [writeRow_canonical, Res.Canonical, raise]

theorem execVunpk_canonical {s : State} (hs : s.mem.Canonical) (d a : VReg) (h : BitVec 1) : Result.Canonical (execVunpk d a h s) := by
  unfold execVunpk
  exact vecIssue_canonical hs fun _ _ _ _ _ ht => by grind [writeRow_canonical, Res.Canonical, raise]

theorem execVcmpk_canonical {s : State} (hs : s.mem.Canonical) (d a : VReg) (b : MReg) : Result.Canonical (execVcmpk d a b s) := by
  unfold execVcmpk
  exact vecIssue_canonical hs fun _ _ _ _ _ ht => writeRow_canonical ht ..

theorem execVexpd_canonical {s : State} (hs : s.mem.Canonical) (d a : VReg) (b : MReg) : Result.Canonical (execVexpd d a b s) := by
  unfold execVexpd
  exact vecIssue_canonical hs fun _ _ _ _ _ ht => writeRow_canonical ht ..

theorem floatLane_canonical {s : State} (hs : s.mem.Canonical) (d a : VReg) (f : Fmt → Nat → Nat × BitVec 5) : Result.Canonical (floatLane d a f s) :=
  laneOp1_canonical hs ..

theorem vqPut_canonical {s : State} (hs : s.mem.Canonical) (n j : Nat) (k : OpKind) (names : List Handle) : Res.Canonical (vqPut s n j k names) := by
  unfold vqPut
  split
  · exact hs
  · simpa using hs

theorem rawRows_canonical {s : State} (hs : s.mem.Canonical) {b : Job} {row n : Nat} {r : Res} (he : rawRows s b row n = some r) : r.Canonical := by
  unfold rawRows at he
  grind [Res.Canonical, raise]

theorem vldstOp_canonical {s : State} (hs : s.mem.Canonical) (d : VReg) (a : Reg) (n : BitVec 6) (mk : Nat → Nat → Nat → OpKind) : Result.Canonical (vldstOp d a n mk s) := by
  unfold vldstOp
  exact issue_canonical hs fun _ _ ht => by grind [rawRows_canonical, vqPut_canonical, Res.Canonical, raise]

theorem vqueueOp_canonical {s : State} (hs : s.mem.Canonical) (d : VReg) (q : Handle) (n : BitVec 3) (load : Bool) : Result.Canonical (vqueueOp d q n load s) := by
  unfold vqueueOp
  exact issue_canonical hs fun _ _ ht => by grind [rawRows_canonical, vqPut_canonical, Res.Canonical, raise]

theorem vindexOp_canonical {s : State} (hs : s.mem.Canonical) (d a : VReg) (r : Reg) (mk : Nat → Nat → Nat → Nat → OpKind) : Result.Canonical (vindexOp d a r mk s) := by
  unfold vindexOp
  exact vecIssue_canonical hs fun _ _ _ _ _ ht => by grind [vqPut_canonical, Res.Canonical, raise]

theorem execVperm_canonical {s : State} (hs : s.mem.Canonical) (d a b : VReg) : Result.Canonical (execVperm d a b s) := by
  unfold execVperm
  exact vecIssue_canonical hs fun _ _ _ _ _ ht => by grind [vqPut_canonical, Res.Canonical, raise]

theorem execSwait_canonical {s : State} (hs : s.mem.Canonical) (n : BitVec 6) : Result.Canonical (execSwait n s) := by
  unfold execSwait
  exact issue_canonical hs fun _ _ ht => by grind [Res.Canonical]

theorem execVpart_canonical {s : State} (hs : s.mem.Canonical) (q : Handle) (a : VReg) (m : MReg) : Result.Canonical (execVpart q a m s) := by
  unfold execVpart
  exact vecIssue_canonical hs fun _ _ _ _ _ ht => by grind [vqPut_canonical, Res.Canonical, raise]

theorem execVtcfg_canonical {s : State} (hs : s.mem.Canonical) (t : BitVec 2) (a b : Reg) (kind : BitVec 1) (hi lo : OobMode) (e : BitVec 8) (nm1 : BitVec 12) : Result.Canonical (execVtcfg t a b kind hi lo e nm1 s) := by
  unfold execVtcfg
  exact issue_canonical hs fun _ _ ht => by grind [vqPut_canonical, Res.Canonical, raise]

theorem vqBody_canonical {s : State} (hs : s.mem.Canonical) {n j : Nat} {x : OpKind} {t : State} (he : vqBody s n j x = .ok t) : t.mem.Canonical := by
  unfold vqBody at he
  split at he
  next => cases he; exact foldl_canonical (fun _ _ hu => memWrite_canonical hu ..) hs _
  next => cases he; exact foldl_canonical (fun _ _ hu => spWrite_canonical hu ..) hs _
  next => cases he; exact foldl_canonical (fun _ _ hu => memWrite_canonical hu ..) hs _
  next => cases he; exact foldl_canonical (fun _ _ hu => spWrite_canonical hu ..) hs _
  next =>
    dsimp only at he
    split at he <;> cases he
    exact writeRow_canonical hs ..
  next =>
    dsimp only at he
    split at he <;> cases he
    refine foldl_canonical (fun _ _ hu => ?_) hs _
    split
    · exact spWrite_canonical hu ..
    · exact hu
  next => cases he; exact writeRow_canonical hs ..
  next => cases he; exact spWrite_canonical (spWrite_canonical hs ..) ..
  next => cases he; exact hs
  next => cases he; exact hs

theorem tabOp_canonical {s : State} (hs : s.mem.Canonical) (form : TabForm) (d a : VReg) (t : BitVec 2) : Result.Canonical (tabOp form d a t s) := by
  unfold tabOp
  exact vecIssue_canonical hs fun _ _ _ _ _ ht => by grind [putLanes_canonical, Res.Canonical, raise]

end Sys2Proof.Machine
end

