-- ==== Sys2Proof/Proofs/CanonicalMatrix.lean ====
section
/-! Matrix instructions and the operations of the MQ. -/

namespace Sys2Proof.Machine

theorem matIssue_canonical {s : State} (hs : s.mem.Canonical) {reads : List Reg} {body : State → Nat → Nat → Res} (hb : ∀ t n j, t.mem.Canonical → Res.Canonical (body t n j)) : Result.Canonical (matIssue s reads body) :=
  issue_stream_canonical hs (fun _ _ => trivial) fun t n j _ ht => hb t n j ht

theorem mqPut_canonical {s : State} (hs : s.mem.Canonical) (n j : Nat) (k : OpKind) (names : List Handle) : Res.Canonical (mqPut s n j k names) := by
  unfold mqPut
  split
  · exact hs
  · simpa using hs

theorem productIssue_canonical {s : State} (hs : s.mem.Canonical) (form : FollowForm) (acc : TileNo) (qa qb qm : Handle) : Result.Canonical (productIssue form acc qa qb qm s) := by
  unfold productIssue
  exact matIssue_canonical hs fun _ _ _ ht => by grind [mqPut_canonical, Res.Canonical, raise]

theorem execMclr_canonical {s : State} (hs : s.mem.Canonical) (acc : TileNo) : Result.Canonical (execMclr acc s) := by
  unfold execMclr
  exact matIssue_canonical hs fun _ _ _ ht => by grind [mqPut_canonical, Res.Canonical, raise]

theorem execMcfg_canonical {s : State} (hs : s.mem.Canonical) (r : BitVec 5) : Result.Canonical (execMcfg r s) := by
  unfold execMcfg
  refine matIssue_canonical hs fun t n j ht => ?_
  dsimp only
  split
  · trivial
  · split
    · exact ht
    · simpa using ht

theorem execMhdr_canonical {s : State} (hs : s.mem.Canonical) (r : BitVec 5) (qm : Handle) : Result.Canonical (execMhdr r qm s) := by
  unfold execMhdr
  exact matIssue_canonical hs fun _ _ _ ht => by grind [setReg_mem, Res.Canonical, raise]

theorem execMtrn_canonical {s : State} (hs : s.mem.Canonical) (acc src : TileNo) : Result.Canonical (execMtrn acc src s) := by
  unfold execMtrn
  exact matIssue_canonical hs fun _ _ _ ht => by grind [mqPut_canonical, Res.Canonical, raise]

theorem productBody_canonical {s : State} (hs : s.mem.Canonical) {n j : Nat} {form : FollowForm} {acc : Nat} {qa qb : Handle} {slots : List Nat} {w : Word} {rows : List (List Nat)} {read : List (List Byte)} {r : State × BitVec 5} (he : productBody s n j form acc qa qb slots w rows read = .ok r) : r.1.mem.Canonical := by
  unfold productBody at he
  dsimp only at he
  split at he <;> cases he
  exact foldl_canonical (fun _ _ hu => writeRow_canonical hu ..) hs _

theorem transposeTile_canonical {s : State} (hs : s.mem.Canonical) (n d src : Nat) : (transposeTile s n d src).mem.Canonical :=
  foldl_canonical (fun _ _ hu => writeRow_canonical hu ..) hs _

theorem clearTile_canonical {s : State} (hs : s.mem.Canonical) (n t : Nat) : (clearTile s n t).mem.Canonical := memWrite_canonical hs ..

@[simp] theorem mqMod_mem (s : State) (n j : Nat) (f : Op → Op) : (mqMod s n j f).mem = s.mem := rfl

@[simp] theorem followEnter_mem (s : State) (n j : Nat) (f : Follow) (cmd : BitVec 32) : (followEnter s n j f cmd).mem = s.mem := by
  unfold followEnter
  grind [engineFault_mem, modJob_mem]

@[simp] theorem drainFollow_mem (s : State) (n j k : Nat) : (drainFollow s n j k).mem = s.mem := by
  induction k generalizing s with
  | zero => rfl
  | succ k ih =>
    unfold drainFollow
    split
    · rfl
    · split
      · rfl
      · simp [ih]

@[simp] theorem takeFollow_mem (s : State) (n j : Nat) (l : List (Follow × BitVec 32)) : (takeFollow s n j l).mem = s.mem := by simp [takeFollow]

@[simp] theorem mqDone_mem (s : State) (n j : Nat) (o : Op) (flw : Bool) (e : Option MatErr) : (mqDone s n j o flw e).mem = s.mem := by
  unfold mqDone
  split <;> simp

theorem execMqOperationStart_canonical {s : State} (hs : s.mem.Canonical) (n : CoreNo) : Result.Canonical (execMqOperationStart n s) := by
  unfold execMqOperationStart
  grind [mqDone_mem, mqMod_mem, Result.Canonical]

theorem execMatrixStep_canonical {s : State} (hs : s.mem.Canonical) (n : CoreNo) : Result.Canonical (execMatrixStep n s) := by
  unfold execMatrixStep
  dsimp only
  repeat' split
  all_goals simpa using hs

theorem execMqOperationPerformed_canonical {s : State} (hs : s.mem.Canonical) (n : CoreNo) : Result.Canonical (execMqOperationPerformed n s) := by
  unfold execMqOperationPerformed
  repeat' split
  next => exact hs
  next => exact hs
  next => simpa using hs
  next he => simpa using productBody_canonical hs he
  next => exact hs
  next => simpa using clearTile_canonical hs _ _
  next => exact hs
  next => simpa using transposeTile_canonical hs _ _ _
  next => exact hs
  next => simpa using hs

theorem execPrunepk_canonical {s : State} (hs : s.mem.Canonical) (d : MReg) (a : VReg) (lgm : BitVec 2) (nk : BitVec 4) : Result.Canonical (execPrunepk d a lgm nk s) := by
  unfold execPrunepk
  exact vecIssue_canonical hs fun _ _ _ _ _ ht => by grind [modJob_mem, Res.Canonical, raise]

theorem execPrunepkt_canonical {s : State} (hs : s.mem.Canonical) (d : MReg) (a : VReg) (lgm : BitVec 2) (nk : BitVec 4) : Result.Canonical (execPrunepkt d a lgm nk s) := by
  unfold execPrunepkt
  refine issue_stream_canonical hs (fun _ _ => trivial) fun t n j _ ht => Res.canonical_ite trivial (Res.canonical_ite trivial (Res.canonical_ite ht ?_))
  simp only [Res.canonical_ok]
  split
  · rwa [modJob_mem, foldl_mem fun _ _ => modJob_mem ..]
  · rwa [foldl_mem fun _ _ => modJob_mem ..]

theorem execMdpack_canonical {s : State} (hs : s.mem.Canonical) (d : VReg) (w : BitVec 1) (k : MReg) (lgm : BitVec 2) (nk : BitVec 4) : Result.Canonical (execMdpack d w k lgm nk s) := by
  unfold execMdpack
  exact vecIssue_canonical hs fun _ _ _ _ _ ht => by grind [writeRow_canonical, Res.Canonical, raise]

theorem execMdchk_canonical {s : State} (hs : s.mem.Canonical) (d : Reg) (a : VReg) (r : Reg) : Result.Canonical (execMdchk d a r s) := by
  unfold execMdchk
  exact vecIssue_canonical hs fun _ _ _ _ _ ht => by grind [setReg_mem, Res.Canonical, raise]

end Sys2Proof.Machine
end

