-- ==== Sys2Proof/Proofs/CanonicalCopy.lean ====
section
/-! Copies and Floe operations. -/

namespace Sys2Proof.Machine

theorem xIssue_canonical {s : State} (hs : s.mem.Canonical) {words : Nat} {reads : List Reg} {body : State → Nat → Nat → Job → Res} (hb : ∀ t n j b, t.mem.Canonical → Res.Canonical (body t n j b)) : Result.Canonical (xIssue words reads s body) :=
  issue_stream_canonical hs (fun _ _ => trivial) fun t n j _ ht => hb t n j _ ht

theorem copyPut_canonical {s : State} (hs : s.mem.Canonical) (n j : Nat) (c : Copy) : Res.Canonical (copyPut s n j c) := by
  unfold copyPut
  refine Res.canonical_ite trivial (Res.canonical_ite hs ?_)
  simpa using hs

theorem execXcpy_canonical {s : State} (hs : s.mem.Canonical) (d a b : Reg) (ss ds : Space) : Result.Canonical (execXcpy d a b ss ds s) := by
  unfold execXcpy
  grind [copyPut_canonical, xIssue_canonical]

theorem shapedCopy_canonical {s : State} (hs : s.mem.Canonical) (three : Bool) (d a b : Reg) (ss ds : Space) : Result.Canonical (shapedCopy three d a b ss ds s) := by
  unfold shapedCopy
  exact xIssue_canonical hs fun _ _ _ _ ht => by grind [copyPut_canonical, Res.Canonical, raise]

theorem execXcvt_canonical {s : State} (hs : s.mem.Canonical) (d a b : Reg) (ss ds : Space) (st dt : BitVec 4) (rm : Rounding) (sr sat : BitVec 1) : Result.Canonical (execXcvt d a b ss ds st dt rm sr sat s) := by
  unfold execXcvt
  grind [copyPut_canonical, xIssue_canonical]

theorem execXmcast_canonical {s : State} (hs : s.mem.Canonical) (d a b : Reg) (rows : BitVec 8) (cols : BitVec 16) : Result.Canonical (execXmcast d a b rows cols s) := by
  unfold execXmcast
  exact xIssue_canonical hs fun _ _ _ _ ht => by grind [copyPut_canonical, Res.Canonical, raise]

theorem execXvop_canonical {s : State} (hs : s.mem.Canonical) (d a b : Reg) (op : VaultOp) (va : BitVec 1) : Result.Canonical (execXvop d a b op va s) := by
  unfold execXvop
  grind [copyPut_canonical, xIssue_canonical]

theorem execXrem_canonical {s : State} (hs : s.mem.Canonical) (d a b : Reg) (pkg : BitVec 5) : Result.Canonical (execXrem d a b pkg s) := by
  unfold execXrem
  exact xIssue_canonical hs fun _ _ _ _ ht => by grind [copyPut_canonical, Res.Canonical, raise]

@[simp] theorem followNow_mem (s : State) (n j : Nat) (f : Follow) (cmd : BitVec 32) : (followNow s n j f cmd).mem = s.mem := by simp [followNow]

theorem execXflw_canonical {s : State} (hs : s.mem.Canonical) (f : Follow) : Result.Canonical (execXflw f s) := by
  unfold execXflw
  exact xIssue_canonical hs fun _ _ _ _ ht => by grind [followNow_mem, modJob_mem, Res.Canonical]

theorem execXwait_canonical {s : State} (hs : s.mem.Canonical) (d : Reg) (n : BitVec 7) (mask : BitVec 2) : Result.Canonical (execXwait d n mask s) := by
  unfold execXwait
  exact xIssue_canonical hs fun _ _ _ _ ht => by grind [modStream_mem, setReg_mem, Res.Canonical]

theorem execXcmpl_canonical {s : State} (hs : s.mem.Canonical) (a : Reg) (act : Action) (qrec : BitVec 1) (h : Handle) : Result.Canonical (execXcmpl a act qrec h s) := by
  unfold execXcmpl
  exact xIssue_canonical hs fun _ _ _ _ ht => by grind [modJob_mem, Res.Canonical, raise]

theorem bankApply_canonical {s : State} (hs : s.mem.Canonical) (p pa : Nat) (op : VaultOp) (v w : BitVec 32) : (bankApply s p pa op v w).1.mem.Canonical := by
  unfold bankApply
  grind [physRead_canonical, physWrite_canonical]

theorem vopPlace_canonical {s : State} (hs : s.mem.Canonical) (v : Via) (c : Copy) (a : Int) : (vopPlace s v c a).1.mem.Canonical := by
  unfold vopPlace
  grind [walked_canonical]

theorem vopUnit_canonical {s : State} (hs : s.mem.Canonical) (v : Via) (c : Copy) (i : Nat) : (vopUnit s v c i).1.mem.Canonical := by
  unfold vopUnit
  grind [bankApply_canonical, spWrite_canonical, spaceRead_canonical, vopPlace_canonical]

theorem mcastUnit_canonical {s : State} (hs : s.mem.Canonical) (v : Via) (c : Copy) (i : Nat) : (mcastUnit s v c i).1.mem.Canonical := by
  unfold mcastUnit
  dsimp only
  repeat' split
  next => exact hs
  next => exact hs
  next => exact hs
  next e => exact canonical_of_pair (spaceRead_canonical hs ..) e
  next e => exact foldl_canonical (fun _ _ hu => spWrite_canonical hu ..) (canonical_of_pair (spaceRead_canonical hs ..) e) _

theorem cvtUnit_canonical {s : State} (hs : s.mem.Canonical) (v : Via) (c : Copy) (i : Nat) : (cvtUnit s v c i).1.mem.Canonical := by
  unfold cvtUnit
  grind [spaceRead_canonical, spaceWrite_canonical]

theorem byteUnit_canonical {s : State} (hs : s.mem.Canonical) (v : Via) (c : Copy) (i : Nat) : (byteUnit s v c i).1.mem.Canonical := by
  unfold byteUnit
  grind [spaceRead_canonical, spaceWrite_canonical]

theorem copyUnit_canonical {s : State} (hs : s.mem.Canonical) (v : Via) (c : Copy) (i : Nat) : (copyUnit s v c i).1.mem.Canonical := by
  unfold copyUnit
  grind [byteUnit_canonical, cvtUnit_canonical, mcastUnit_canonical, vopUnit_canonical]

@[simp] theorem copyFlags_mem (s : State) (n j : Nat) (o : Op) (f : BitVec 5) : (copyFlags s n j o f).mem = s.mem := by
  unfold copyFlags
  split <;> simp

theorem copyFrom_canonical {s : State} (hs : s.mem.Canonical) (n j : Nat) (v : Via) (o : Op) (ar : Option Armed) (fo : List (Follow × BitVec 32)) (c : Copy) (fuel i : Nat) : Perf.Canonical (copyFrom s n j v o ar fo c fuel i) := by
  induction fuel generalizing s c i with
  | zero => simpa [copyFrom] using hs
  | succ fuel ih =>
    unfold copyFrom
    split
    next e => exact ih (canonical_of_pair (copyUnit_canonical hs ..) e) ..
    next e => exact endBy_canonical (canonical_of_pair (copyUnit_canonical hs ..) e) ..

theorem copyPerform_canonical {s : State} (hs : s.mem.Canonical) (n j : Nat) (v : Via) (o : Op) : Perf.Canonical (copyPerform s n j v o) := by
  unfold copyPerform
  grind [copyFrom_canonical, recallMark_canonical, Perf.Canonical]

@[simp] theorem setLive_mem (s : State) (n h ctx : Nat) (m : FloeMap) : (setLive s n h ctx m).mem = s.mem := rfl

theorem floeBody_canonical {s : State} (hs : s.mem.Canonical) {n j : Nat} {k : OpKind} {r : State × BitVec 5} (he : floeBody s n j k = .ok r) : r.1.mem.Canonical := by
  unfold floeBody at he
  dsimp only at he
  split at he <;> repeat obtain ⟨_, _, he⟩ := exists_of_bind_eq_ok he
  all_goals cases he
  next => simpa using hs
  next => exact foldl_canonical (fun _ _ hu => spWrite_canonical hu ..) hs _
  next => exact foldl_canonical (fun _ _ hu => spWrite_canonical hu ..) hs _
  next => exact writeRow_canonical hs ..
  next => exact spWrite_canonical hs ..
  next => simpa using hs
  next => simpa using hs
  next => exact hs

theorem floeIssue_canonical {s : State} (hs : s.mem.Canonical) (reads : List Reg) (offs : State → Agent → List (Nat × Nat)) (mk : State → Agent → OpKind) : Result.Canonical (floeIssue reads offs mk s) :=
  issue_stream_canonical hs (fun _ _ => trivial) fun t n j _ ht => by
    dsimp only
    split
    · trivial
    · exact vqPut_canonical ht ..

theorem execFlsize_canonical {s : State} (hs : s.mem.Canonical) (d : VReg) (h : BitVec 3) (b : Reg) : Result.Canonical (execFlsize d h b s) := by
  unfold execFlsize
  exact vecIssue_canonical hs fun _ _ _ _ _ ht => by grind [vqPut_canonical, Res.Canonical, raise]

theorem execFlsig_canonical {s : State} (hs : s.mem.Canonical) (d : Reg) (h : BitVec 3) : Result.Canonical (execFlsig d h s) := by
  unfold execFlsig
  exact issue_canonical hs fun _ _ ht => by grind [setReg_mem, Res.Canonical, raise]

theorem smxOp_canonical {s : State} (hs : s.mem.Canonical) (sizes : Bool) (d a : VReg) (r : Reg) : Result.Canonical (smxOp sizes d a r s) := by
  unfold smxOp
  exact vecIssue_canonical hs fun _ _ _ _ _ ht => by grind [setFlags_mem, writeRow_canonical, Res.Canonical, raise]

end Sys2Proof.Machine
end

