-- ==== Sys2Proof/Proofs/CanonicalLists.lean ====
section
/-! Work lists, launches and the reuse of results. -/

namespace Sys2Proof.Machine

theorem readList_canonical {s : State} (hs : s.mem.Canonical) (w : Who) (va : Word) : (readList s w va).1.mem.Canonical := by
  unfold readList
  grind [vaRead_canonical, walked_canonical]

@[simp] theorem setList_mem (s : State) (p c k : Nat) (l : WorkList) : (setList s p c k l).mem = s.mem := rfl

theorem wlCfg_canonical {s : State} (hs : s.mem.Canonical) (w : Who) (a b : Word) : (wlCfg s w a b).1.mem.Canonical := by
  unfold wlCfg
  dsimp only
  repeat' split
  next => exact hs
  next => simpa using hs
  next => exact hs
  next => exact hs
  next e => simpa using canonical_of_pair (readList_canonical hs ..) e
  next e => exact canonical_of_pair (readList_canonical hs ..) e

@[simp] theorem wlPush_mem (s : State) (p c : Nat) (a b : Word) : (wlPush s p c a b).1.mem = s.mem := by
  unfold wlPush
  repeat' split
  all_goals simp

@[simp] theorem wlIns_mem (s : State) (p c : Nat) (a b : Word) : (wlIns s p c a b).1.mem = s.mem := by
  unfold wlIns
  grind [setList_mem]

@[simp] theorem wlDrain_mem (s : State) (p c : Nat) (a : Word) : (wlDrain s p c a).1.mem = s.mem := by
  unfold wlDrain
  split <;> simp

theorem wlPopb_canonical {s : State} (hs : s.mem.Canonical) (w : Who) (a b : Word) : (wlPopb s w a b).1.mem.Canonical := by
  unfold wlPopb
  grind [setList_mem, vaWrite_canonical, walkedRange_canonical]

@[simp] theorem requestVacate_mem (s : State) (n : Nat) : (requestVacate s n).mem = s.mem := rfl

@[simp] theorem mgmtRegWrite_mem (s : State) (a : Nat) (v : Word) : (mgmtRegWrite s a v).mem = s.mem := by
  unfold mgmtRegWrite
  repeat' split
  all_goals simp

theorem mgmtWrite_canonical {s : State} (hs : s.mem.Canonical) {a : Nat} {l : List Byte} {t : State} (he : mgmtWrite s a l = .ok t) : t.mem.Canonical := by
  unfold mgmtWrite at he
  split at he
  · cases he; exact memWrite_canonical hs ..
  · split at he
    next hw => cases he; exact storeWrite_canonical hs hw
    next => cases he
  · cases he; simpa using hs
  · cases he

@[simp] theorem modLaunch_mem (s : State) (p c : Nat) (f : Launch → Launch) : (modLaunch s p c f).mem = s.mem := rfl

@[simp] theorem depDec_mem (s : State) (p c : Nat) (v : Word) : (depDec s p c v).1.mem = s.mem := by
  unfold depDec
  repeat' split
  all_goals simp

@[simp] theorem depInc_mem (s : State) (p c : Nat) (v : Word) : (depInc s p c v).1.mem = s.mem := by
  unfold depInc
  repeat' split
  all_goals simp

@[simp] theorem spawnTask_mem (s : State) (p c depth : Nat) (a b : Word) : (spawnTask s p c depth a b).1.mem = s.mem := by
  unfold spawnTask
  grind [modLaunch_mem, modPart_mem]

theorem writeCommit_canonical {s : State} (hs : s.mem.Canonical) (p c image v : Nat) : (writeCommit s p c image v).mem.Canonical := vaWrite_canonical hs ..

@[simp] theorem loopEnds_mem (s : State) (p c : Nat) : (loopEnds s p c).mem = s.mem := by simp [loopEnds]

@[simp] theorem stepDone_mem (s : State) (p c : Nat) : (stepDone s p c).mem = s.mem := by
  unfold stepDone
  grind [loopEnds_mem, modCtx_mem]

theorem advanceLoop_canonical {s : State} (hs : s.mem.Canonical) (p c : Nat) : (advanceLoop s p c).mem.Canonical := by
  unfold advanceLoop
  grind [loopEnds_mem, modCtx_mem, stepDone_mem, writeCommit_canonical]

theorem completeTask_canonical {s : State} (hs : s.mem.Canonical) (p c key : Nat) : (completeTask s p c key).mem.Canonical := by
  unfold completeTask
  grind [advanceLoop_canonical, freePool_mem, modLaunch_mem, progress_mem]

theorem endKilled_canonical {s : State} (hs : s.mem.Canonical) (p c key : Nat) : (endKilled s p c key).mem.Canonical := by
  unfold endKilled
  grind [advanceLoop_canonical, freePool_mem, modLaunch_mem, progress_mem]

@[simp] theorem returnTask_mem (s : State) (p c key : Nat) : (returnTask s p c key).mem = s.mem := rfl

theorem firnInputFrom_canonical {s : State} (hs : s.mem.Canonical) (w : Who) (f : FirnDesc) (t k r : Nat) : (firnInputFrom w f t k s r).1.mem.Canonical := by
  induction k generalizing s r with
  | zero => exact hs
  | succ k ih =>
    unfold firnInputFrom
    split
    next e => exact canonical_of_pair (vaRead_canonical hs ..) e
    next e =>
      have hr := canonical_of_pair (vaRead_canonical hs ..) e
      split
      next e => exact canonical_of_pair (ih hr _) e
      next e => exact canonical_of_pair (ih hr _) e

theorem firnInput_canonical {s : State} (hs : s.mem.Canonical) (w : Who) (f : FirnDesc) (t : Nat) : (firnInput s w f t).1.mem.Canonical := firnInputFrom_canonical hs ..

theorem firnSignature_canonical {s : State} (hs : s.mem.Canonical) (w : Who) (f : FirnDesc) (t : Nat) : (firnSignature s w f t).1.mem.Canonical := by
  unfold firnSignature
  grind [vaRead_canonical]

theorem arenaRead_canonical {s : State} (hs : s.mem.Canonical) (w : Who) (f : FirnDesc) (t q off len : Nat) : (arenaRead s w f t q off len).1.mem.Canonical := by
  unfold arenaRead
  grind [physRead_canonical, vaRead_canonical]

theorem slotWalked_canonical {s : State} (hs : s.mem.Canonical) (w : Who) (f : FirnDesc) (t q : Nat) : (slotWalked s w f t q).mem.Canonical := by
  unfold slotWalked
  split
  · exact walkedRange_canonical hs ..
  · exact hs

theorem arenaWrite_canonical {s : State} (hs : s.mem.Canonical) (w : Who) (f : FirnDesc) (t q off : Nat) (l : List Byte) : (arenaWrite s w f t q off l).1.mem.Canonical := by
  unfold arenaWrite
  grind [physWrite_canonical, vaWrite_canonical]

theorem probeTest_canonical {s : State} (hs : s.mem.Canonical) (w : Who) (f : FirnDesc) (t : Nat) (k0 k6 : Word) : (probeTest s w f t k0 k6).1.mem.Canonical := by
  unfold probeTest
  grind [arenaRead_canonical, firnInput_canonical, firnSignature_canonical]

@[simp] theorem markHit_mem (s : State) (p c : Nat) (f : FirnDesc) (t : Nat) (k0 : Word) : (markHit s p c f t k0).mem = s.mem := rfl

theorem copyResult_canonical {s : State} (hs : s.mem.Canonical) (w : Who) (f : FirnDesc) (t : Nat) : (copyResult s w f t).1.mem.Canonical := by
  unfold copyResult
  grind [arenaRead_canonical, vaWrite_canonical, walkedRange_canonical]

theorem installEntry_canonical {s : State} (hs : s.mem.Canonical) (w : Who) (f : FirnDesc) (t : Nat) (k0 : Word) : (installEntry s w f t k0).1.mem.Canonical := by
  unfold installEntry
  dsimp only
  split
  next e => exact canonical_of_pair (firnInput_canonical hs ..) e
  next e =>
    have hi := canonical_of_pair (firnInput_canonical hs ..) e
    split
    next e => exact canonical_of_pair (vaRead_canonical hi ..) e
    next e =>
      have hr := canonical_of_pair (vaRead_canonical hi ..) e
      split
      next e => exact canonical_of_pair (firnSignature_canonical hr ..) e
      next e =>
        have hg := canonical_of_pair (firnSignature_canonical hr ..) e
        split
        next => exact slotWalked_canonical hg ..
        next =>
          split
          next e => exact canonical_of_pair (arenaWrite_canonical hg ..) e
          next e =>
            have hx := canonical_of_pair (arenaWrite_canonical hg ..) e
            split
            next e => exact canonical_of_pair (arenaWrite_canonical hx ..) e
            next e => simpa using canonical_of_pair (arenaWrite_canonical hx ..) e

@[simp] theorem emptyEntry_mem (s : State) (p c layer t : Nat) : (emptyEntry s p c layer t).1.mem = s.mem := rfl

end Sys2Proof.Machine
end

