-- ==== Sys2Proof/Proofs/CanonicalCQueue.lean ====
section
/-! The queues of the C stream, and rendezvous and barriers. -/

namespace Sys2Proof.Machine

@[simp] theorem takePlace_mem (s : State) (n j : Nat) (o : Op) : (takePlace s n j o).mem = s.mem := by
  unfold takePlace
  grind [modCtx_mem]

@[simp] theorem leavePlace_mem (s : State) (n j seq : Nat) : (leavePlace s n j seq).mem = s.mem := by
  unfold leavePlace
  grind [modCtx_mem]

@[simp] theorem cFault_mem (s : State) (n j : Nat) (o : Op) (c : Byte) (freeze : Bool) (va : Word) : (cFault s n j o c freeze va).mem = s.mem := by simp [cFault]

@[simp] theorem deliver_mem (s : State) (n j : Nat) (o : Op) (d : Nat) (v : Word) (direct fabric host wrong : Bool) (va : Word) : (deliver s n j o d v direct fabric host wrong va).mem = s.mem := by
  unfold deliver
  repeat' split
  all_goals simp

theorem loadPerform_canonical {s : State} (hs : s.mem.Canonical) (n j : Nat) (o : Op) (direct : Bool) : (loadPerform s n j o direct).mem.Canonical := by
  unfold loadPerform
  grind [cFault_mem, cachedRead_canonical, deliver_mem, physRead_canonical]

theorem cWrite_canonical {s : State} (hs : s.mem.Canonical) (n pa key : Nat) (l : List Byte) : (cWrite s n pa key l).1.mem.Canonical := by
  unfold cWrite
  grind [cachedWrite_canonical, physWrite_canonical]

theorem amoPerform_canonical {s : State} (hs : s.mem.Canonical) (p n pa key op w v c : Nat) : (amoPerform s p n pa key op w v c).1.mem.Canonical := by
  unfold amoPerform
  grind [cachedRead_canonical, cachedWrite_canonical, recallLine_canonical, storeGet_mem]

theorem ownPerform_canonical {s : State} (hs : s.mem.Canonical) (n : Nat) (b : Job) (va sz : Word) : (ownPerform s n b va sz).1.mem.Canonical := by
  have hw := walkedRange_canonical hs (jobWho b n) va sz.toNat
  unfold ownPerform
  dsimp only
  repeat' split
  next => exact hs
  next => exact hs
  next => exact hw
  next => exact hw
  next => simpa using foldl_canonical (fun _ _ hu => recallLine_canonical hu ..) (dropLines_canonical hw ..) _

theorem releaseRanges_canonical {s : State} (hs : s.mem.Canonical) (n : Nat) (p : OwnRange → Bool) : (releaseRanges s n p).mem.Canonical := by
  unfold releaseRanges
  simpa using foldl_canonical (fun _ x hu => writeBack_canonical hu x) hs _

theorem disownPerform_canonical {s : State} (hs : s.mem.Canonical) (n : Nat) (va : Word) : (disownPerform s n va).1.mem.Canonical := by
  unfold disownPerform
  split
  · exact releaseRanges_canonical hs ..
  · exact hs

theorem invalidateRange_canonical {s : State} (hs : s.mem.Canonical) (b : Job) (n lo hi : Nat) : (invalidateRange s b n lo hi).mem.Canonical := by
  refine foldl_canonical (fun _ r hu => ?_) (walkedRange_canonical hs ..) _
  split
  · exact dropLines_canonical hu ..
  · exact hu

theorem dropResult_canonical {s : State} (hs : s.mem.Canonical) (b : Job) (n : Nat) (f : FirnDesc) (t : Nat) : (dropResult s b n f t).mem.Canonical :=
  invalidateRange_canonical hs ..

theorem firnStop_canonical {s : State} (hs : s.mem.Canonical) (n j : Nat) (o : Op) (tile : Nat) (e : VErr) : Perf.Canonical (firnStop s n j o tile e) := by
  unfold firnStop
  extract_lets b post
  have hp (va : Word) (wr : Bool) : (post va wr).Canonical := by
    simp only [post]
    split
    · exact ringMod_canonical hs ..
    · split
      next he => exact ringPost_canonical hs he
      next => exact hs
  split
  · exact hp ..
  · exact hp ..
  · exact hs
  · exact hs

theorem firnTouches_canonical {s : State} (hs : s.mem.Canonical) (n j : Nat) (o : Op) (t : Nat) (writes : Bool) {body : Unit → Perf} (hb : ∀ u, Perf.Canonical (body u)) : Perf.Canonical (firnTouches s n j o t writes body) := by
  unfold firnTouches
  grind [firnStop_canonical]

theorem firnPerform_canonical {s : State} (hs : s.mem.Canonical) (n j : Nat) (o : Op) : Perf.Canonical (firnPerform s n j o) := by
  unfold firnPerform
  dsimp only
  split
  next => simpa using hs
  next =>
    split
    next => simpa using hs
    next f t _ =>
      split
      next => simpa using hs
      next => simpa using hs
      next =>
        refine firnTouches_canonical hs _ _ _ _ _ fun _ => ?_
        split
        next e => simpa using canonical_of_pair (installEntry_canonical hs ..) e
        next e => exact firnStop_canonical (canonical_of_pair (installEntry_canonical hs ..) e) ..
      next =>
        refine firnTouches_canonical hs _ _ _ _ _ fun _ => ?_
        split
        next e => exact firnStop_canonical (canonical_of_pair (probeTest_canonical hs ..) e) ..
        next e => simpa using canonical_of_pair (probeTest_canonical hs ..) e
        next e =>
          have hp := canonical_of_pair (probeTest_canonical hs ..) e
          split
          next => exact firnStop_canonical hp ..
          next =>
            split
            next e => exact firnStop_canonical (canonical_of_pair (copyResult_canonical hp ..) e) ..
            next e =>
              have hc := canonical_of_pair (copyResult_canonical hp ..) e
              simpa using dropResult_canonical (by simpa using hc) ..
      next => exact hs

theorem sqPerform_canonical {s : State} (hs : s.mem.Canonical) (n j : Nat) (o : Op) (direct : Bool) : Perf.Canonical (sqPerform s n j o direct) := by
  unfold sqPerform
  grind [acquire_mem, amoPerform_canonical, arrive_mem, bankApply_canonical, cWrite_canonical, deliver_mem, depDec_mem, depInc_mem, disownPerform_canonical, firnPerform_canonical, modJob_mem, ownPerform_canonical, spawnTask_mem, wlCfg_canonical, wlDrain_mem, wlIns_mem, wlPopb_canonical, wlPush_mem, Perf.Canonical]

theorem sqEnd_canonical (n j : Nat) (o : Op) {r : Perf} (hr : r.Canonical) : (sqEnd n j o r).mem.Canonical := by
  unfold sqEnd
  grind [dropDue_mem, engineFault_mem, leavePlace_mem, modJob_mem, takePlace_mem, Perf.Canonical]

theorem advanceOne_canonical {s : State} (hs : s.mem.Canonical) {n j : Nat} {t : State} (he : advanceOne s n j = some t) : t.mem.Canonical := by
  unfold advanceOne at he
  dsimp only at he
  split at he
  next o _ =>
    cases he
    simp only [modJob_mem]
    split
    · exact invalidateRange_canonical hs ..
    · simpa using hs
    · exact loadPerform_canonical hs ..
    · exact hs
  next =>
    split at he <;> cases he
    exact sqEnd_canonical _ _ _ (sqPerform_canonical hs ..)

theorem advanceC_canonical {s : State} (hs : s.mem.Canonical) (n j k : Nat) : (advanceC s n j k).mem.Canonical := by
  induction k generalizing s with
  | zero => exact hs
  | succ k ih =>
    unfold advanceC
    split
    next he => exact ih (advanceOne_canonical hs he)
    next => exact hs

@[simp] theorem arriveFirn_mem (s : State) (n j : Nat) : (arriveFirn s n j).mem = s.mem := by
  unfold arriveFirn
  grind [takePlace_mem]

theorem moveC_canonical {s : State} (hs : s.mem.Canonical) (n j : Nat) : (moveC s n j).mem.Canonical := by
  unfold moveC
  simpa using advanceC_canonical hs ..

theorem opWalked_canonical {s : State} (hs : s.mem.Canonical) (b : Job) (n : Nat) (o : Op) : (opWalked s b n o).mem.Canonical := by
  unfold opWalked
  grind [walked_canonical]

theorem renew_canonical {s : State} (hs : s.mem.Canonical) (n j : Nat) (q : Queue) (o : Op) : (renew s n j q o).mem.Canonical := by
  have hw := opWalked_canonical hs (jobOf s n j) n o
  unfold renew
  extract_lets b out struck u park
  have hp (va : Word) (kind : Nat) : (park va kind).mem.Canonical := by
    simp only [park]
    split
    next he => simpa using parkAt_canonical hw he
    next => simpa [out] using hw
  split
  · simpa using hw
  · exact hp ..
  · exact hp ..
  · simpa [out] using hw
  · exact hw

theorem renewJob_canonical {s : State} (hs : s.mem.Canonical) (n j : Nat) (p : Job → Op → Bool) : (renewJob s n j p).mem.Canonical := by
  unfold renewJob
  extract_lets go
  have hg (q : Queue) {t : State} (ht : t.mem.Canonical) : (go q t).mem.Canonical := by
    refine foldl_canonical (fun u o hu => ?_) ht _
    split
    · exact renew_canonical hu ..
    · exact hu
  exact hg .sq (hg .lq hs)

theorem execNop_canonical {s : State} (hs : s.mem.Canonical) : Result.Canonical (execNop s) := by
  unfold execNop
  exact issue_canonical hs fun _ _ ht => ht

theorem rdvOp_canonical {s : State} (hs : s.mem.Canonical) (set : BitVec 5) : Result.Canonical (rdvOp set s) := by
  unfold rdvOp
  exact issue_canonical hs fun _ _ ht => by grind [modStream_mem, Res.Canonical, raise]

theorem execRdvEnd_canonical {s : State} (hs : s.mem.Canonical) : Result.Canonical (execRdvEnd s) := by
  unfold execRdvEnd
  exact issue_canonical hs fun _ _ ht => by simpa using ht

theorem execRdvComplete_canonical {s : State} (hs : s.mem.Canonical) (n : CoreNo) (set : BitVec 5) : Result.Canonical (execRdvComplete n set s) := by
  unfold execRdvComplete
  dsimp only
  split
  next =>
    split
    · exact hs
    · split
      · exact hs
      · exact foldl_canonical (fun _ _ hu => retire_canonical hu ..) (by simpa using hs) _
  next => exact hs

theorem pbarOp_canonical {s : State} (hs : s.mem.Canonical) (f : PbarForm) (tag : BitVec 3) : Result.Canonical (pbarOp f tag s) := by
  unfold pbarOp
  exact issue_canonical hs fun _ _ ht => by grind [acquire_mem, modStream_mem, Res.Canonical, raise]

@[simp] theorem signalArrival_mem (s : State) (n j tag : Nat) (t : Sid) : (signalArrival s n j tag t).mem = s.mem := rfl

theorem execPennantArrival_canonical {s : State} (hs : s.mem.Canonical) (n : CoreNo) (t : BitVec 3) : Result.Canonical (execPennantArrival n t s) := by
  unfold execPennantArrival
  grind [signalArrival_mem, Result.Canonical]

@[simp] theorem wakePositions_mem (s : State) (c : Nat) (who : List Nat) : (wakePositions s c who).mem = s.mem := by
  refine foldl_mem (fun u x => ?_) s who
  repeat' split
  all_goals simp

theorem execPennantCompletion_canonical {s : State} (hs : s.mem.Canonical) (p : PartNo) (c : CtxNo) (tag : BitVec 3) : Result.Canonical (execPennantCompletion p c tag s) := by
  unfold execPennantCompletion
  grind [modCtx_mem, wakePositions_mem, Result.Canonical]

theorem execWfi_canonical {s : State} (hs : s.mem.Canonical) : Result.Canonical (execWfi s) := by
  unfold execWfi
  exact issue_canonical hs fun _ _ ht => by grind [Res.Canonical]

theorem prefetchLines_canonical {s : State} (hs : s.mem.Canonical) (p c n : Nat) (va : Word) (count : Nat) : (prefetchLines s p c n va count).mem.Canonical := by
  refine foldl_canonical (fun u i hu => ?_) hs _
  have hw := walked_canonical hu { p := p, c := c, core := some n, user := true } ((va &&& ~~~127#64) + w64 (128 * i))
  dsimp only
  split
  · simpa using hw
  · exact hw

theorem execIpref_canonical {s : State} (hs : s.mem.Canonical) (a : Reg) (n : BitVec 6) : Result.Canonical (execIpref a n s) := by
  unfold execIpref
  exact issue_canonical hs fun _ _ ht => by grind [modCore_mem, prefetchLines_canonical, Res.Canonical]

end Sys2Proof.Machine
end

