-- ==== Sys2Proof/Proofs/CanonicalCMem.lean ====
section
/-! Loads, stores, atomics and fences. -/

namespace Sys2Proof.Machine

theorem cIssue_canonical {s : State} (hs : s.mem.Canonical) {mgmt : Bool} {reads : List Reg} {body : State → Nat → Nat → Job → Res} {alone : State → Res} (hb : ∀ t n j b, t.mem.Canonical → Res.Canonical (body t n j b)) (ha : ∀ t, t.mem.Canonical → Res.Canonical (alone t)) : Result.Canonical (cIssue mgmt reads s body alone) := by
  unfold cIssue
  grind [issue_canonical]

theorem cAddress_canonical {s : State} (hs : s.mem.Canonical) (n j : Nat) (q : Queue) (va : Word) (acc : Acc) : CAddr.Canonical (cAddress s n j q va acc) := by
  have hp {u : State} (hu : u.mem.Canonical) (kind : Nat) : CAddr.Canonical (match parkAt u (jobVia s n j q .c) va kind (acc == .write) ((jobOf s n j).streams.c).cmd with
    | some (s, i) => .parks s i
    | none => .trap u { cause := cXlatMiss, faddr := va }) := by
    split
    next he => exact parkAt_canonical hu he
    next => exact hu
  have hw := walked_canonical hs (jobVia s n j q .c).who va
  unfold cAddress
  dsimp only
  split
  · exact hp hs 1
  · split
    · exact hs
    · split
      · exact hw
      · exact hp hw 1
      · exact hp hw 2
      · exact hw
      · exact hw
      · exact hw

theorem cPut_canonical {s : State} (hs : s.mem.Canonical) (n j : Nat) (q : Queue) (k : OpKind) (d : Nat) : Res.Canonical (cPut s n j q k d) := by
  unfold cPut
  grind [enqueue_mem, moveC_canonical, setDue_mem, Res.Canonical]

theorem cPutParked_canonical {s : State} (hs : s.mem.Canonical) (n j : Nat) (q : Queue) (k : OpKind) (d entry : Nat) : Res.Canonical (cPutParked s n j q k d entry) := by
  unfold cPutParked
  simpa using hs

theorem cAccess_canonical {s : State} (hs : s.mem.Canonical) (n j : Nat) (q : Queue) (va : Word) (acc : Acc) (d : Nat) (mk : Nat → Nat → OpKind) : Res.Canonical (cAccess s n j q va acc d mk) := by
  have hc := cAddress_canonical hs n j q va acc
  unfold cAccess
  split
  next e => rw [e] at hc; exact cPut_canonical hc ..
  next e => rw [e] at hc; exact cPutParked_canonical hc ..
  next e => rw [e] at hc; exact hc

theorem loadOp_canonical {s : State} (hs : s.mem.Canonical) (k : Nat) (signed : Bool) (d a : Reg) (imm : BitVec 11) : Result.Canonical (loadOp k signed d a imm s) := by
  unfold loadOp
  refine cIssue_canonical hs (fun t n j b ht => Res.canonical_ite trivial ?_) fun t ht => Res.canonical_ite trivial ?_
  · have hc := cAddress_canonical ht n j .lq (memAddr t (cAgent n j) a imm) .read
    split
    next u pa key e =>
      rw [e] at hc
      split
      · have hr := cachedRead_canonical hc b.part n pa k key
        split
        next er => rw [er] at hr; simpa using hr
        next => exact hc
      · exact cPut_canonical hc ..
    next e => exact cPutParked_canonical (by rw [e] at hc; exact hc) ..
    next e => rw [e] at hc; exact hc
  · split
    · simpa using ht
    · trivial

theorem storeOp_canonical {s : State} (hs : s.mem.Canonical) (k : Nat) (d a : Reg) (imm : BitVec 11) : Result.Canonical (storeOp k d a imm s) := by
  unfold storeOp
  exact cIssue_canonical hs (fun _ _ _ _ ht => by grind [cAccess_canonical, mgmtWrite_canonical, Res.Canonical, raiseAt]) (fun _ ht => by grind [cAccess_canonical, mgmtWrite_canonical, Res.Canonical, raiseAt])

theorem execLsmark_canonical {s : State} (hs : s.mem.Canonical) : Result.Canonical (execLsmark s) := by
  unfold execLsmark
  exact cIssue_canonical hs (fun _ _ _ _ ht => by grind [enqueue_mem, modJob_mem, moveC_canonical, Res.Canonical]) (fun _ ht => ht)

theorem execL1inv_canonical {s : State} (hs : s.mem.Canonical) (a b : Reg) : Result.Canonical (execL1inv a b s) := by
  unfold execL1inv
  exact cIssue_canonical hs (fun _ _ _ _ ht => cPut_canonical ht ..) (fun _ ht => ht)

theorem execL1inva_canonical {s : State} (hs : s.mem.Canonical) : Result.Canonical (execL1inva s) := by
  unfold execL1inva
  exact cIssue_canonical hs (fun _ _ _ _ ht => cPut_canonical ht ..) (fun _ ht => ht)

theorem execPref_canonical {s : State} (hs : s.mem.Canonical) (a : Reg) : Result.Canonical (execPref a s) := by
  unfold execPref
  exact cIssue_canonical hs (fun _ _ _ _ ht => by grind [cachedRead_canonical, walked_canonical, Res.Canonical]) (fun _ ht => ht)

theorem sqInstr_canonical {s : State} (hs : s.mem.Canonical) (reads : List Reg) (d : Reg) (check : State → Nat → Nat → Job → Option Trap) (mk : Nat → State → Agent → OpKind) : Result.Canonical (sqInstr reads d check mk s) := by
  unfold sqInstr
  exact cIssue_canonical hs (fun _ _ _ _ ht => by grind [cPut_canonical, Res.Canonical]) (fun _ ht => trivial)

theorem amoOp_canonical {s : State} (hs : s.mem.Canonical) (op : BitVec 4) (d a b : Reg) (ord : Order) (wd : Width) : Result.Canonical (amoOp op d a b ord wd s) := by
  unfold amoOp
  refine cIssue_canonical hs (fun t n j b' ht => Res.canonical_ite trivial ?_) fun t ht => Res.canonical_ite trivial ?_
  · have hc := cAddress_canonical ht n j .sq (reg t (cAgent n j) a) .write
    split
    next e =>
      rw [e] at hc
      exact Res.canonical_ite hc (cPut_canonical hc ..)
    next e => rw [e] at hc; exact cPutParked_canonical hc ..
    next e => rw [e] at hc; exact hc
  · split
    · trivial
    · split
      next he => simpa using mgmtWrite_canonical ht he
      next => trivial

theorem fenceOp_canonical {s : State} (hs : s.mem.Canonical) (mgmt acq : Bool) (mask : BitVec 7) : Result.Canonical (fenceOp mgmt acq mask s) := by
  unfold fenceOp
  exact cIssue_canonical hs (fun _ _ _ _ ht => by grind [acquire_mem, modJob_mem, moveC_canonical, Res.Canonical]) (fun _ ht => ht)

theorem execSpwait_canonical {s : State} (hs : s.mem.Canonical) (d a : Reg) : Result.Canonical (execSpwait d a s) := by
  unfold execSpwait
  exact cIssue_canonical hs (fun _ _ _ _ ht => by grind [acquire_mem, setReg_mem, Res.Canonical]) (fun _ ht => trivial)

theorem execInstallation_canonical {s : State} (hs : s.mem.Canonical) (n : CoreNo) : Result.Canonical (execInstallation n s) := by
  unfold execInstallation
  grind [moveC_canonical, sqEnd_canonical, sqPerform_canonical, Result.Canonical]

theorem vaultOp_canonical {s : State} (hs : s.mem.Canonical) (op : VaultOp) (d a b : Reg) : Result.Canonical (vaultOp op d a b s) := by
  unfold vaultOp
  refine cIssue_canonical hs (fun t n j b ht => ?_) fun _ _ => trivial
  dsimp only
  split
  · trivial
  · have hc := cAddress_canonical ht n j .sq (reg t (cAgent n j) a) .write
    split
    next e =>
      rw [e] at hc
      split
      · exact cPut_canonical hc ..
      · exact hc
    next e => exact cPutParked_canonical (by rw [e] at hc; exact hc) ..
    next e => rw [e] at hc; exact hc

end Sys2Proof.Machine
end

