-- ==== Sys2Proof/Proofs/CanonicalSave.lean ====
section
/-! Saved images, the layout of a job, and transaction barriers. -/

namespace Sys2Proof.Machine

open Sys2Proof.Config

theorem keepLay_canonical {s : State} (hs : s.mem.Canonical) (n : Nat) (regions : List (Nat × Nat)) (l : List Byte) : (keepLay s n regions l).mem.Canonical := by
  induction regions generalizing s l with
  | nil => exact hs
  | cons k r ih => exact ih (spWrite_canonical hs ..) _

theorem keepOut_canonical {s : State} (hs : s.mem.Canonical) (p n : Nat) : (keepOut s p n).1.mem.Canonical := by
  unfold keepOut
  grind [modCore_mem, vaWrite_canonical]

theorem keepFetch_canonical {s : State} (hs : s.mem.Canonical) (p c n : Nat) (nd : Node) : (keepFetch s p c n nd).1.mem.Canonical := by
  unfold keepFetch
  split
  · exact hs
  · exact vaRead_canonical hs ..

theorem keepPrefetch_canonical {s : State} (hs : s.mem.Canonical) (p c n j node : Nat) : (keepPrefetch s p c n j node).mem.Canonical := by
  unfold keepPrefetch
  grind [keepFetch_canonical, memWrite_canonical]

theorem handover_canonical {s : State} (hs : s.mem.Canonical) (p c n j node : Nat) : (handover s p c n j node).1.mem.Canonical := by
  unfold handover
  grind [keepFetch_canonical, keepLay_canonical, keepOut_canonical, memWrite_canonical, modCore_mem]

theorem layDescs_canonical {s : State} (hs : s.mem.Canonical) (n j c node : Nat) (kr : Kernel) : (layDescs s n j c node kr).mem.Canonical :=
  foldl_canonical (fun _ _ hu => memWrite_canonical hu ..) (memWrite_canonical hs ..) _

theorem clearStart_canonical {s : State} (hs : s.mem.Canonical) (n j : Nat) : (clearStart s n j).mem.Canonical := memClear_canonical (memClear_canonical hs ..) ..

theorem startJob_canonical {s : State} (hs : s.mem.Canonical) (n j : Nat) : (startJob s n j).mem.Canonical := by
  unfold startJob
  grind [clearStart_canonical, fillScratch_canonical, handover_canonical, keepOut_canonical, layDescs_canonical, modCore_mem, modLaunch_mem, modSlot_mem, stopStream_canonical]

theorem writeImage_canonical {s : State} (hs : s.mem.Canonical) (n j : Nat) (b : Job) : (writeImage s n j b).mem.Canonical :=
  foldl_canonical (fun _ _ hu => vaWrite_canonical hu ..) hs _

theorem readImage_canonical {s : State} (hs : s.mem.Canonical) (n j : Nat) (b : Job) : (readImage s n j b).mem.Canonical := by
  refine foldl_canonical (fun u e hu => ?_) (fillScratch_canonical hs ..) _
  split
  next e => exact memWrite_canonical (canonical_of_pair (vaRead_canonical hu ..) e) ..
  next e => exact canonical_of_pair (vaRead_canonical hu ..) e

theorem toBoundary_canonical {s : State} (hs : s.mem.Canonical) (n j : Nat) : (toBoundary s n j).mem.Canonical := by
  unfold toBoundary
  simpa using foldl_canonical (fun _ t hu => finishStill_canonical hu n j t) hs _

@[simp] theorem landOne_mem (s : State) (n j : Nat) (l : Landing) : (landOne s n j l).mem = s.mem := by
  unfold landOne
  split <;> simp

@[simp] theorem landAll_mem (s : State) (n j : Nat) : (landAll s n j).mem = s.mem := by
  unfold landAll
  simp [foldl_mem fun t l => landOne_mem t n j l]

theorem deepColumn_canonical {s : State} (hs : s.mem.Canonical) (n : Nat) (pw : Power) : (deepColumn s n pw).mem.Canonical := by
  have hk : (match partOfCore s n with | some p => (keepOut s p n).1 | none => s : State).mem.Canonical := by
    split
    · exact keepOut_canonical hs ..
    · exact hs
  unfold deepColumn
  simp only [modCore_mem]
  have hc := memClear_canonical (memClear_canonical (dropLines_canonical hk n fun _ => true) (coreAt n) scratchSize) (coreAt n + accOffset) accSize
  split
  · exact wf_of_cells hc rfl rfl
  · exact hc

theorem orphanColumn_canonical {s : State} (hs : s.mem.Canonical) (n : Nat) : (orphanColumn s n).mem.Canonical := by
  unfold orphanColumn
  grind [deepColumn_canonical, modCore_mem]

theorem saveJob_canonical {s : State} (hs : s.mem.Canonical) (n j : Nat) (st : SlotState) : (saveJob s n j st).mem.Canonical := by
  unfold saveJob
  grind [keepOut_canonical, landAll_mem, modCore_mem, modCtx_mem, modJob_mem, modSlot_mem, toBoundary_canonical, writeImage_canonical]

theorem fillDiscards_canonical {s : State} (hs : s.mem.Canonical) (n : Nat) (b : Job) : (fillDiscards s n b).mem.Canonical :=
  foldl_canonical (fun _ _ hu => spWrite_canonical hu ..) hs _

theorem restoreJob_canonical {s : State} (hs : s.mem.Canonical) (n j : Nat) (b : Job) (floe : Table FloeHandle) : (restoreJob s n j b floe).mem.Canonical := by
  unfold restoreJob
  grind [fillDiscards_canonical, keepOut_canonical, modCore_mem, modCtx_mem, modSlot_mem, readImage_canonical, renewJob_canonical, wakeColumn_mem]

theorem switchColumn_canonical {s : State} (hs : s.mem.Canonical) (p n : Nat) : (switchColumn s p n).mem.Canonical := by
  unfold switchColumn
  grind [keepOut_canonical, modCore_mem, modSlot_mem, restoreJob_canonical]

@[simp] theorem returnStaged_mem (s : State) (n j : Nat) : (returnStaged s n j).mem = s.mem := by
  unfold returnStaged
  grind [modSlot_mem, returnTask_mem]

theorem columnTurn_canonical {s : State} (hs : s.mem.Canonical) (p n : Nat) : (columnTurn s p n).mem.Canonical := by
  unfold columnTurn
  grind [returnStaged_mem, switchColumn_canonical]

@[simp] theorem setTxb_mem (s : State) (n c i : Nat) (x : TxBarrier) : (setTxb s n c i x).mem = s.mem := rfl

@[simp] theorem txbArrive_mem (s : State) (n c i k : Nat) : (txbArrive s n c i k).mem = s.mem := rfl

theorem txbOp_canonical {s : State} (hs : s.mem.Canonical) {reads : List Reg} {a : Reg} {body : State → Nat → Nat → Nat → Nat → TxBarrier → Res} (hb : ∀ t n j m i x, t.mem.Canonical → Res.Canonical (body t n j m i x)) : Result.Canonical (txbOp reads a s body) := by
  unfold txbOp
  grind [xIssue_canonical]

theorem execTxinit_canonical {s : State} (hs : s.mem.Canonical) (a : Reg) : Result.Canonical (execTxinit a s) := by
  unfold execTxinit
  exact txbOp_canonical hs fun _ _ _ _ _ _ ht => ht

theorem execTxexp_canonical {s : State} (hs : s.mem.Canonical) (d a b : Reg) : Result.Canonical (execTxexp d a b s) := by
  unfold execTxexp
  exact txbOp_canonical hs fun _ _ _ _ _ _ ht => by simpa using ht

theorem execTxarr_canonical {s : State} (hs : s.mem.Canonical) (a b : Reg) : Result.Canonical (execTxarr a b s) := by
  unfold execTxarr
  exact txbOp_canonical hs fun _ _ _ _ _ _ ht => ht

theorem execTxwait_canonical {s : State} (hs : s.mem.Canonical) (d a b : Reg) : Result.Canonical (execTxwait d a b s) := by
  unfold execTxwait
  exact txbOp_canonical hs fun _ _ _ _ _ _ ht => by grind [acquire_mem, setReg_mem, Res.Canonical]

theorem execTxtest_canonical {s : State} (hs : s.mem.Canonical) (d a b : Reg) : Result.Canonical (execTxtest d a b s) := by
  unfold execTxtest
  exact txbOp_canonical hs fun _ _ _ _ _ _ ht => by grind [acquire_mem, setReg_mem, Res.Canonical]

end Sys2Proof.Machine
end

