-- ==== Sys2Proof/Proofs/CanonicalEngine.lean ====
section
/-! What the engines do by themselves. -/

namespace Sys2Proof.Machine

theorem vqAll_canonical {s : State} (hs : s.mem.Canonical) {n j : Nat} {k : OpKind} {r : State × BitVec 5} (he : vqAll s n j k = .ok r) : r.1.mem.Canonical := by
  unfold vqAll at he
  split at he
  next =>
    cases hf : floeBody s n j k with
    | error e => rw [hf] at he; cases he
    | ok r => rw [hf] at he; cases he; exact floeBody_canonical hs hf
  next =>
    split at he
    next hv => cases he; exact vqBody_canonical hs hv
    next => cases he

theorem setRow_canonical {s : State} (hs : s.mem.Canonical) (n r : Nat) (l : List Byte) : (setRow s n r l).mem.Canonical := memWrite_canonical hs ..

theorem vqView_canonical {s : State} (hs : s.mem.Canonical) (n j : Nat) (o : Op) : (vqView s n j o).mem.Canonical :=
  foldl_canonical (fun _ _ hu => setRow_canonical hu ..) hs _

theorem loadLanes_canonical {s : State} (hs : s.mem.Canonical) (n j : Nat) (o : Op) (p : Nat → Nat → Bool) : (loadLanes s n j o p).mem.Canonical :=
  foldl_canonical (fun _ _ hu => setRow_canonical hu ..) hs _

theorem destLanes_canonical {s : State} (hs : s.mem.Canonical) (t : State) (n j : Nat) (o : Op) (p : Nat → Nat → Bool) : (destLanes s t n j o p).mem.Canonical := by
  unfold destLanes
  split
  · exact hs
  · exact setRow_canonical hs ..

theorem vqPart_canonical {s : State} (hs : s.mem.Canonical) (n j : Nat) (o : Op) : (vqPart s n j o).mem.Canonical := by
  unfold vqPart
  grind [destLanes_canonical, loadLanes_canonical, modJob_mem]

theorem vqRest_canonical {s : State} (hs : s.mem.Canonical) {n j : Nat} {o : Op} {r : State × BitVec 5} (he : vqRest s n j o = .ok r) : r.1.mem.Canonical := by
  unfold vqRest at he
  dsimp only at he
  split at he
  · cases he; exact loadLanes_canonical hs ..
  · cases hv : vqAll (vqView s n j o) n j o.kind with
    | error e => rw [hv] at he; cases he
    | ok r =>
      rw [hv] at he
      cases he
      have hr := vqAll_canonical (vqView_canonical hs n j o) hv
      exact destLanes_canonical (foldl_canonical (fun _ _ hu => setRow_canonical hu ..) hr _) ..

theorem vqPerform_canonical {s : State} (hs : s.mem.Canonical) (n j : Nat) (o : Op) : (vqPerform s n j o).mem.Canonical := by
  unfold vqPerform
  dsimp only
  split
  next hv =>
    split at hv
    · simpa using vqAll_canonical hs hv
    · simpa using vqRest_canonical hs hv
  next => simpa using hs

theorem execVqOperationPerformed_canonical {s : State} (hs : s.mem.Canonical) (n : CoreNo) : Result.Canonical (execVqOperationPerformed n s) := by
  unfold execVqOperationPerformed
  grind [vqPart_canonical, vqPerform_canonical, Result.Canonical]

theorem putRecord_canonical {s : State} (hs : s.mem.Canonical) {n j : Nat} {h : Handle} {idx : BitVec 32} {m : Nat} {t : State} (he : putRecord s n j h idx m = some t) : t.mem.Canonical := by
  unfold putRecord at he
  dsimp only at he
  split at he <;> cases he
  exact setTail_canonical (spWrite_canonical hs ..) ..

@[simp] theorem deliverAction_mem (s : State) (n : Nat) (w : Who) (job : Option Nat) (c : Copy) (r : Armed) : (deliverAction s n w job c r).mem = s.mem := by
  unfold deliverAction
  repeat' split
  all_goals simp

theorem copyDone_canonical {s : State} (hs : s.mem.Canonical) (n j : Nat) (q : Queue) (v : Via) (o : Op) (m : Nat) : (copyDone s n j q v o m).mem.Canonical := by
  unfold copyDone
  split
  next c ar fo _ =>
    dsimp only
    split
    · simpa using hs
    · split
      · simpa using hs
      · split
        · simpa using hs
        · exact getD_canonical (fun _ he => putRecord_canonical (by simpa using hs) he) (by simpa using hs)
  next => exact hs

@[simp] theorem copyFails_mem (s : State) (n j : Nat) (q : Queue) (o : Op) (f : EFault) : (copyFails s n j q o f).mem = s.mem := by simp [copyFails]

theorem copyEnd_canonical (s0 : State) (n j : Nat) (q : Queue) (v : Via) (o : Op) {r : Perf} (hr : r.Canonical) : (copyEnd s0 n j q v o r).mem.Canonical := by
  unfold copyEnd
  grind [copyDone_canonical, copyFails_mem, modJob_mem, Perf.Canonical]

@[simp] theorem remoteFails_mem (s : State) (n j : Nat) (o : Op) (cause : Byte) (unit : Nat) (faddr : Word) : (remoteFails s n j o cause unit faddr).mem = s.mem :=
  by simp [remoteFails]

@[simp] theorem sendRemote_mem (s : State) (n j : Nat) (o : Op) : (sendRemote s n j o).mem = s.mem := by
  unfold sendRemote
  repeat' split
  all_goals simp

theorem copyStep_canonical {s : State} (hs : s.mem.Canonical) {n j : Nat} {q : Queue} {t : State} (he : copyStep s n j q = some t) : t.mem.Canonical := by
  unfold copyStep at he
  split at he
  · cases he; exact copyEnd_canonical _ _ _ _ _ _ (copyPerform_canonical hs ..)
  · split at he
    · cases hc : clearRemote s n j with
      | none => rw [hc] at he; cases he
      | some o => rw [hc] at he; cases he; simpa using hs
    · cases he

@[simp] theorem intakeFault_mem (s : State) (p n q idx : Nat) (cause : Byte) (freeze : Bool) : (intakeFault s p n q idx cause freeze).mem = s.mem := by
  unfold intakeFault
  grind [freezeCore_mem, modCore_mem, modPart_mem, partEvent_mem]

@[simp] theorem intakeMod_mem (s : State) (n : Nat) (f : List Op → List Op) : (intakeMod s n f).mem = s.mem := rfl

theorem intakeWord_canonical {s : State} (hs : s.mem.Canonical) (v : Via) (o : Op) : (intakeWord s v o).Canonical := by
  unfold intakeWord
  split
  next =>
    split
    next => exact hs
    next =>
      split
      next e => exact canonical_of_pair (spaceWrite_canonical hs ..) e
      next e => exact endBy_canonical (canonical_of_pair (spaceWrite_canonical hs ..) e) ..
  next => exact hs

theorem intakeTook_canonical (n : Nat) (v : Via) (o : Op) {r : Perf} (hr : r.Canonical) : (intakeTook n v o r).mem.Canonical := by
  unfold intakeTook
  grind [deliverAction_mem, intakeFault_mem, intakeMod_mem, Perf.Canonical]

theorem intakeEnd_canonical (n : Nat) (v : Via) (o : Op) {r : Perf} (hr : r.Canonical) : (intakeEnd n v o r).mem.Canonical := by
  unfold intakeEnd
  grind [intakeTook_canonical, intakeWord_canonical, Perf.Canonical]

theorem intakeStep_canonical {s : State} (hs : s.mem.Canonical) {n : Nat} {t : State} (he : intakeStep s n = some t) : t.mem.Canonical := by
  unfold intakeStep at he
  split at he
  · cases he; exact intakeEnd_canonical _ _ _ (copyPerform_canonical hs ..)
  · cases he

theorem jobCopyStep_canonical {s : State} (hs : s.mem.Canonical) {n : Nat} {q : Queue} {t : State} (he : jobCopyStep s n q = some t) : t.mem.Canonical := by
  unfold jobCopyStep at he
  split at he
  · exact copyStep_canonical hs he
  · cases he

theorem firstOf_canonical {x y : Option State} (hx : ∀ t, x = some t → t.mem.Canonical) (hy : ∀ t, y = some t → t.mem.Canonical) {t : State} (he : firstOf x y = some t) : t.mem.Canonical := by
  unfold firstOf at he
  split at he
  · exact hx t he
  · exact hy t he

theorem execCopyCommandPerformed_canonical {s : State} (hs : s.mem.Canonical) (n : CoreNo) (q : XQueue) : Result.Canonical (execCopyCommandPerformed n q s) := by
  have ha {t : State} := jobCopyStep_canonical (n := n.toNat) (q := .xhq) (t := t) hs
  have hb {t : State} := intakeStep_canonical (n := n.toNat) (t := t) hs
  unfold execCopyCommandPerformed
  split
  · exact getD_canonical (fun _ he => jobCopyStep_canonical hs he) hs
  · refine getD_canonical (fun t he => ?_) hs
    split at he
    · exact firstOf_canonical (fun _ => hb) (fun _ => ha) he
    · exact firstOf_canonical (fun _ => ha) (fun _ => hb) he

theorem recordStep_canonical {s : State} (hs : s.mem.Canonical) {n j : Nat} {t : State} (he : recordStep s n j = some t) : t.mem.Canonical := by
  unfold recordStep at he
  obtain ⟨o, -, ho⟩ := List.exists_of_findSome?_eq_some he
  split at ho
  · split at ho
    · cases ho
    · obtain ⟨u, hu, rfl⟩ := Option.map_eq_some_iff.1 ho
      simpa using putRecord_canonical hs hu
  · cases ho

theorem execCompletionRecord_canonical {s : State} (hs : s.mem.Canonical) (n : CoreNo) : Result.Canonical (execCompletionRecord n s) := by
  unfold execCompletionRecord
  split
  · exact getD_canonical (fun _ he => recordStep_canonical hs he) hs
  · exact hs

theorem execRemoteStoreAck_canonical {s : State} (hs : s.mem.Canonical) (n : CoreNo) (cause : Byte) : Result.Canonical (execRemoteStoreAck n cause s) := by
  unfold execRemoteStoreAck
  grind [copyDone_canonical, remoteFails_mem, Result.Canonical]

theorem intakeStop_canonical {s : State} (hs : s.mem.Canonical) (v : Via) (q idx : Nat) (write : Bool) (e : VErr) : (intakeStop s v q idx write e).mem.Canonical := by
  unfold intakeStop
  extract_lets post
  have hp (va : Word) (kind : Nat) : (post va kind).mem.Canonical := by
    simp only [post]
    split
    · exact hs
    · split
      next he => exact ringPost_canonical hs he
      next => simpa using hs
  split
  · exact hp ..
  · exact hp ..
  · exact hs
  · simpa using hs

@[simp] theorem issuePacket_mem (s : State) (p n c q idx : Nat) (l : List Byte) : (issuePacket s p n c q idx l).mem = s.mem := by
  unfold issuePacket
  grind [intakeFault_mem, intakeMod_mem]

theorem takePacket_canonical {s : State} (hs : s.mem.Canonical) (v : Via) (q : Nat) (hdr pkt : Word) (idx : Nat) (l : List Byte) : (takePacket s v q hdr pkt idx l).mem.Canonical := by
  unfold takePacket
  grind [intakeStop_canonical, issuePacket_mem, vaWrite_canonical, walked_canonical]

theorem execIntakePacketTake_canonical {s : State} (hs : s.mem.Canonical) (p : PartNo) (q : BitVec 2) : Result.Canonical (execIntakePacketTake p q s) := by
  unfold execIntakePacketTake
  grind [intakeFault_mem, intakeStop_canonical, takePacket_canonical, vaRead_canonical, Result.Canonical]

theorem finishVq_canonical {s : State} (hs : s.mem.Canonical) (n j : Nat) : (finishVq s n j).mem.Canonical := by
  unfold finishVq
  split
  · exact vqPerform_canonical hs ..
  · exact hs

theorem drainC_canonical {s : State} (hs : s.mem.Canonical) {n j : Nat} {t : State} (he : drainC s n j = some t) : t.mem.Canonical := by
  unfold drainC at he
  dsimp only at he
  split at he
  next => cases he; simpa using moveC_canonical (by simpa using loadPerform_canonical hs ..) n j
  next =>
    split at he
    next o _ =>
      have hp := sqPerform_canonical hs n j o true
      split at he
      · cases he
      · cases he; exact moveC_canonical (sqEnd_canonical _ _ _ hp) n j
    next => cases he

theorem drainM_canonical {s : State} (hs : s.mem.Canonical) {n j : Nat} {t : State} (he : drainM s n j = some t) : t.mem.Canonical := by
  unfold drainM at he
  split at he
  next => cases he
  next o _ _ =>
    extract_lets go k s1 steps s2 s3 at he
    have hg {r : Result} {u : State} (hr : r.Canonical) (hu : u.mem.Canonical) : (go r u).mem.Canonical := by
      cases r with
      | next t => exact hr
      | fault e => exact hu
      | refused e => exact hu
    have h1 : s1.mem.Canonical := hg (execMqOperationStart_canonical hs k) hs
    have h2 : s2.mem.Canonical := by
      refine foldl_canonical (fun u _ hu => ?_) h1 _
      split
      · exact hg (execMatrixStep_canonical hu k) hu
      · exact hu
    have h3 : s3.mem.Canonical := by
      simp only [s3]
      split
      · exact hg (execMqOperationPerformed_canonical h2 k) h2
      · exact h2
    split at he
    · cases he
    · rw [← Option.some.inj he]
      exact h3

theorem engineFailure_canonical {s : State} (hs : s.mem.Canonical) (n j : Nat) (v : Via) (o : Op) : Perf.Canonical (engineFailure s n j v o) := hs

theorem drainA_canonical {s : State} (hs : s.mem.Canonical) {n j : Nat} {t : State} (he : drainA s n j = some t) : t.mem.Canonical := by
  unfold drainA at he
  split at he
  next => cases he
  next o _ =>
    have hp : Perf.Canonical (if engineStruck s n j (engineVia s n j .aq o) o then engineFailure s n j (engineVia s n j .aq o) o else aPerform s n j o) := by
      split
      · exact engineFailure_canonical hs ..
      · exact aPerform_canonical hs ..
    dsimp only at he
    split at he <;> cases he
    next e => rw [e] at hp; simpa using hp
    next e => rw [e] at hp; simpa using hp
    next e => rw [e] at hp; simpa using hp

theorem drainX_canonical {s : State} (hs : s.mem.Canonical) {n j : Nat} {q : Queue} {t : State} (he : drainX s n j q = some t) : t.mem.Canonical := by
  unfold drainX at he
  split at he
  next =>
    split at he
    · obtain ⟨o, -, rfl⟩ := Option.map_eq_some_iff.1 he
      simpa using hs
    · cases he
  next o _ =>
    have hp : Perf.Canonical (if engineStruck s n j (copyVia s n j q o) o then engineFailure s n j (copyVia s n j q o) o else copyPerform s n j (copyVia s n j q o) o) := by
      split
      · exact engineFailure_canonical hs ..
      · exact copyPerform_canonical hs ..
    dsimp only at he
    split at he <;> cases he
    exact copyEnd_canonical _ _ _ _ _ _ hp

theorem drainV_canonical {s : State} (hs : s.mem.Canonical) {n j : Nat} {t : State} (he : drainV s n j = some t) : t.mem.Canonical := by
  unfold drainV at he
  obtain ⟨o, -, rfl⟩ := Option.map_eq_some_iff.1 he
  exact vqPerform_canonical hs ..

theorem drainOne_canonical {s : State} (hs : s.mem.Canonical) {n j : Nat} {t : State} (he : drainOne s n j = some t) : t.mem.Canonical :=
  firstOf_canonical (fun _ => drainC_canonical hs) (fun _ => firstOf_canonical (fun _ => drainA_canonical hs) fun _ =>
    firstOf_canonical (fun _ => drainV_canonical hs) fun _ => firstOf_canonical (fun _ => drainM_canonical hs) fun _ =>
    firstOf_canonical (fun _ => drainX_canonical hs) fun _ => firstOf_canonical (fun _ => drainX_canonical hs) fun _ => recordStep_canonical hs) he

theorem drainJob_canonical {s : State} (hs : s.mem.Canonical) (n j k : Nat) : (drainJob s n j k).mem.Canonical := by
  induction k generalizing s with
  | zero => exact hs
  | succ k ih =>
    unfold drainJob
    split
    next he => exact ih (drainOne_canonical hs he)
    next => exact hs

theorem postIndex_canonical {s : State} (hs : s.mem.Canonical) (n j : Nat) (b : Job) (cmd : BitVec 32) : (postIndex s n j b cmd).mem.Canonical := by
  unfold postIndex
  split
  next he => exact ringPost_canonical hs he
  next => simpa using hs

theorem suspendGo_canonical {s : State} (hs : s.mem.Canonical) (n j : Nat) : (suspendGo s n j).mem.Canonical := by
  unfold suspendGo
  grind [drainJob_canonical, modJob_mem, postIndex_canonical, saveJob_canonical]

theorem suspendJob_canonical {s : State} (hs : s.mem.Canonical) (n j : Nat) (o : Op) (cause : Byte) (element : Nat) (value : Word) : (suspendJob s n j o cause element value).mem.Canonical := by
  unfold suspendJob
  grind [modJob_mem, suspendGo_canonical, toBoundary_canonical]

theorem aEnd_canonical (n j : Nat) (o : Op) {r : Perf} (hr : r.Canonical) : (aEnd n j o r).mem.Canonical := by
  unfold aEnd
  grind [engineFault_mem, modJob_mem, suspendJob_canonical, Perf.Canonical]

@[simp] theorem engineMod_mem (s : State) (n j : Nat) (q : Queue) (o : Op) : (engineMod s n j q o).mem = s.mem := by
  unfold engineMod
  split <;> simp

theorem engineFails_canonical {s : State} (hs : s.mem.Canonical) (n j : Nat) (q : Queue) (o : Op) : (engineFails s n j q o).mem.Canonical := by
  unfold engineFails
  grind [aEnd_canonical, copyEnd_canonical, engineFailure_canonical, intakeEnd_canonical]

theorem execAqOperationPerformed_canonical {s : State} (hs : s.mem.Canonical) (n : CoreNo) : Result.Canonical (execAqOperationPerformed n s) := by
  unfold execAqOperationPerformed
  grind [aEnd_canonical, aPerform_canonical, Result.Canonical]

end Sys2Proof.Machine
end

