-- ==== Sys2Proof/Proofs/CanonicalSys.lean ====
section
/-! Supervisor instructions, the translation ring and the life of a job. -/

namespace Sys2Proof.Machine

theorem execTrap_canonical {s : State} (hs : s.mem.Canonical) (a : Reg) : Result.Canonical (execTrap a s) := by
  unfold execTrap
  exact issue_canonical hs fun _ _ _ => by simp

theorem execSysc_canonical {s : State} (hs : s.mem.Canonical) (a : Reg) : Result.Canonical (execSysc a s) := by
  unfold execSysc
  exact issue_canonical hs fun _ _ _ => by simp

theorem execBrk_canonical {s : State} (hs : s.mem.Canonical) : Result.Canonical (execBrk s) := by
  unfold execBrk
  exact issue_canonical hs fun _ _ _ => by simp

theorem execEret_canonical {s : State} (hs : s.mem.Canonical) : Result.Canonical (execEret s) := by
  unfold execEret
  exact issue_canonical hs fun _ _ ht => by grind [returnMgmt_mem, returnTrap_mem, Res.Canonical]

theorem execUiret_canonical {s : State} (hs : s.mem.Canonical) : Result.Canonical (execUiret s) := by
  unfold execUiret
  exact issue_canonical hs fun _ _ ht => by grind [modAgentJob_mem, modStream_mem, Res.Canonical, raise]

theorem supIssue_canonical {s : State} (hs : s.mem.Canonical) {reads : List Reg} {body : State → Nat → Nat → Job → Res} (hb : ∀ t n j b, t.mem.Canonical → Res.Canonical (body t n j b)) : Result.Canonical (supIssue reads s body) :=
  issue_stream_canonical hs (fun _ _ => trivial) fun t n j _ ht => hb t n j _ ht

theorem execRtnext_canonical {s : State} (hs : s.mem.Canonical) (d : Reg) : Result.Canonical (execRtnext d s) := by
  unfold execRtnext
  exact supIssue_canonical hs fun _ _ _ _ ht => by simpa using ht

theorem aEndSaved_canonical (n j : Nat) (o : Op) {r : Perf} (hr : r.Canonical) : (aEndSaved n j o r).mem.Canonical := by
  unfold aEndSaved
  grind [aEnd_canonical, modJob_mem, Perf.Canonical]

theorem fillEngine_canonical {s : State} (hs : s.mem.Canonical) (n j : Nat) (q : Queue) (o : Op) (isSaved : Bool) : (fillEngine s n j q o isSaved).mem.Canonical := by
  unfold fillEngine
  grind [aEndSaved_canonical, aEnd_canonical, aPerform_canonical, copyEnd_canonical, copyPerform_canonical, engineFails_canonical, modJob_mem]

theorem fillOp_canonical {s : State} (hs : s.mem.Canonical) (n j : Nat) (q : Queue) (i : Nat) (o : Op) (isSaved : Bool) : (fillOp s n j q i o isSaved).mem.Canonical := by
  unfold fillOp
  grind [cFault_mem, fillEngine_canonical, modJob_mem, opWalked_canonical]

theorem fillJob_canonical {s : State} (hs : s.mem.Canonical) (n j i : Nat) (isSaved : Bool) : (fillJob s n j i isSaved).mem.Canonical := by
  unfold fillJob
  extract_lets each u b
  have hg {f : State → Queue → Op → State} (hf : ∀ u q o, u.mem.Canonical → (f u q o).mem.Canonical) {t : State} (ht : t.mem.Canonical) (l : List Op) :
      (each t l f).mem.Canonical := by
    refine foldl_canonical (fun u o hu => ?_) ht l
    split
    · exact hf _ _ _ hu
    · exact hu
  have hu : u.mem.Canonical := moveC_canonical (hg (fun _ _ _ hu => fillOp_canonical hu ..) hs _) n j
  split
  · exact hg (fun _ _ _ hu => fillEngine_canonical hu ..) hu _
  · exact hu

theorem drainCs_canonical {s : State} (hs : s.mem.Canonical) (n j k : Nat) : (drainCs s n j k).mem.Canonical := by
  induction k generalizing s with
  | zero => exact hs
  | succ k ih =>
    unfold drainCs
    split
    next he => exact ih (drainC_canonical hs he)
    next => exact hs

theorem windowBack_canonical {m : Memory} (hm : m.Canonical) (old : Memory) (n j : Nat) : (windowBack old m n j).Canonical := by
  unfold windowBack
  grind [fillScratch_canonical, memWrite_canonical]

theorem withImage_canonical {s : State} (hs : s.mem.Canonical) (n j : Nat) (b : Job) {f : State → State} (hf : ∀ t, t.mem.Canonical → (f t).mem.Canonical) : (withImage s n j b f).1.mem.Canonical := by
  unfold withImage
  grind [modJob_mem, readImage_canonical, windowBack_canonical, writeImage_canonical]

theorem fillSaved_canonical {s : State} (hs : s.mem.Canonical) (p c key i : Nat) (b : Job) (fl : Table FloeHandle) : (fillSaved s p c key i b fl).mem.Canonical := by
  unfold fillSaved
  grind [drainCs_canonical, fillJob_canonical, modCtx_mem, withImage_canonical]

theorem fillRest_canonical {s : State} (hs : s.mem.Canonical) (p c i : Nat) : (fillRest s p c i).mem.Canonical := by
  refine foldl_canonical (fun u n hu => foldl_canonical (fun t o ht => ?_) hu _) (by simpa using hs) _
  dsimp only
  split
  · exact engineFails_canonical ht ..
  · exact intakeEnd_canonical _ _ _ (copyPerform_canonical ht ..)

theorem startFill_canonical {s : State} (hs : s.mem.Canonical) (p i : Nat) (e : RingEntry) : (startFill s p i e).mem.Canonical := by
  refine fillRest_canonical (foldl_canonical (fun u k hu => ?_) (foldl_canonical (fun u n hu => foldl_canonical (fun t j ht => ?_) hu _) hs _) _) ..
  · split
    · exact hu
    · exact fillSaved_canonical hu ..
  · split
    · exact fillJob_canonical ht ..
    · exact ht

theorem fillEnd_canonical {s : State} (hs : s.mem.Canonical) (p c i st : Nat) : (fillEnd s p c i st).1.mem.Canonical := by
  unfold fillEnd
  split
  · exact hs
  · exact ringMod_canonical hs ..

theorem ringFill_canonical {s : State} (hs : s.mem.Canonical) (p : Nat) (v : Word) : (ringFill s p v).1.mem.Canonical := by
  unfold ringFill
  grind [fillEnd_canonical, modPart_mem, startFill_canonical]

theorem execRtfill_canonical {s : State} (hs : s.mem.Canonical) (d a : Reg) : Result.Canonical (execRtfill d a s) := by
  unfold execRtfill
  exact supIssue_canonical hs fun _ _ _ _ ht => by grind [ringFill_canonical, setReg_mem, Res.Canonical]

theorem clearIndex_canonical {s : State} (hs : s.mem.Canonical) (p c n j : Nat) : (clearIndex s p c n j).mem.Canonical := by
  unfold clearIndex
  simp only [modPart_mem]
  refine foldl_canonical (fun u e hu => ?_) hs _
  split
  · exact ringMod_canonical hu ..
  · exact hu

theorem resumeJob_canonical {s : State} (hs : s.mem.Canonical) (p n j : Nat) : (resumeJob s p n j).mem.Canonical := by
  unfold resumeJob
  grind [clearIndex_canonical, modCtx_mem, modSlot_mem, restoreJob_canonical]

theorem drainKilled_canonical {s : State} (hs : s.mem.Canonical) (n j k : Nat) : (drainKilled s n j k).mem.Canonical := by
  induction k generalizing s with
  | zero => exact hs
  | succ k ih =>
    have hd := drainCs_canonical (moveC_canonical hs n j) n j ((jobOf s n j).lq.length + (jobOf s n j).sq.length + 1)
    unfold drainKilled
    extract_lets b t u
    have hu : u.mem.Canonical := by simpa [u] using hd
    split
    · exact hu
    · exact ih (sqEnd_canonical _ _ _ (sqPerform_canonical hu n j _ true))

theorem killIdle_canonical {s : State} (hs : s.mem.Canonical) (p n j : Nat) : (killIdle s p n j).mem.Canonical := by
  unfold killIdle
  grind [clearIndex_canonical, discardEntries_mem, drainKilled_canonical, endKilled_canonical, modCtx_mem, modSlot_mem, releaseRanges_canonical, withImage_canonical]

theorem execResume_canonical {s : State} (hs : s.mem.Canonical) (d a : Reg) : Result.Canonical (execResume d a s) := by
  unfold execResume
  exact supIssue_canonical hs fun _ _ _ _ ht => by grind [resumeJob_canonical, setReg_mem, Res.Canonical]

theorem execKill_canonical {s : State} (hs : s.mem.Canonical) (d a : Reg) : Result.Canonical (execKill d a s) := by
  unfold execKill
  exact supIssue_canonical hs fun _ _ _ _ ht => by grind [killActive_mem, killIdle_canonical, setReg_mem, Res.Canonical]

theorem execTlbinv_canonical {s : State} (hs : s.mem.Canonical) (a b : Reg) : Result.Canonical (execTlbinv a b s) := by
  unfold execTlbinv
  refine supIssue_canonical hs fun t n j b ht => ?_
  extract_lets va mode keep u each w
  have hu : u.mem.Canonical := ht
  have hw : w.mem.Canonical := by
    refine foldl_canonical (fun v m hv => ?_) hu _
    split
    · exact renewJob_canonical hv ..
    · exact hv
  split <;> exact hw

theorem execJobStart_canonical {s : State} (hs : s.mem.Canonical) (n : CoreNo) : Result.Canonical (execJobStart n s) := by
  unfold execJobStart
  grind [restoreJob_canonical, startJob_canonical, Result.Canonical]

@[simp] theorem signalAll_mem (s : State) (n j : Nat) : (signalAll s n j).mem = s.mem := foldl_mem (fun u _ => foldl_mem (fun _ _ => signalArrival_mem ..) u _) s _

@[simp] theorem keepPointers_mem (s : State) (n j : Nat) (b : Job) : (keepPointers s n j b).mem = s.mem := by
  refine foldl_mem (fun u x => ?_) s _
  dsimp only
  split <;> simp

theorem retireJob_canonical {s : State} (hs : s.mem.Canonical) (n j : Nat) : (retireJob s n j).mem.Canonical := by
  unfold retireJob
  grind [completeTask_canonical, endKilled_canonical, keepPointers_mem, memClear_canonical, modCore_mem, modSlot_mem, releaseRanges_canonical, signalAll_mem]

theorem execJobRetire_canonical {s : State} (hs : s.mem.Canonical) (n : CoreNo) : Result.Canonical (execJobRetire n s) := by
  unfold execJobRetire
  grind [retireJob_canonical, Result.Canonical]

theorem raiseAll_canonical {s : State} (hs : s.mem.Canonical) (n j : Nat) : (raiseAll s n j).mem.Canonical := by
  refine foldl_canonical (fun u t hu => ?_) hs _
  dsimp only
  split
  · exact hu
  · exact raisePending_canonical hu ..

theorem execTrapDelivery_canonical {s : State} (hs : s.mem.Canonical) (n : CoreNo) : Result.Canonical (execTrapDelivery n s) := by
  unfold execTrapDelivery
  grind [deliverDue_canonical, raiseAll_canonical, Result.Canonical]

@[simp] theorem enterUser_mem (s : State) (n j : Nat) : (enterUser s n j).mem = s.mem := rfl

theorem deliverUser_canonical {s : State} (hs : s.mem.Canonical) (n j : Nat) : (deliverUser s n j).mem.Canonical := by
  unfold deliverUser
  grind [beginInstr_mem, enterUser_mem, finishRdv_canonical, retire_canonical]

theorem execUserInterruptDelivery_canonical {s : State} (hs : s.mem.Canonical) (n : CoreNo) : Result.Canonical (execUserInterruptDelivery n s) := by
  unfold execUserInterruptDelivery
  grind [deliverUser_canonical, Result.Canonical]

@[simp] theorem noteDead_mem (s : State) (n j : Nat) : (noteDead s n j).mem = s.mem := by
  unfold noteDead
  grind [modJob_mem]

theorem execWatchdogDeadlock_canonical {s : State} (hs : s.mem.Canonical) (n : CoreNo) : Result.Canonical (execWatchdogDeadlock n s) := by
  unfold execWatchdogDeadlock
  grind [stopStream_canonical, Result.Canonical]

@[simp] theorem noteQuiet_mem (s : State) (p : Nat) : (noteQuiet s p).mem = s.mem := by
  refine foldl_mem (fun u x => ?_) s _
  dsimp only
  repeat' split
  all_goals simp

theorem execNpbudgetExpiry_canonical {s : State} (hs : s.mem.Canonical) (n : CoreNo) : Result.Canonical (execNpbudgetExpiry n s) := by
  unfold execNpbudgetExpiry
  grind [modJob_mem, stopStream_canonical, Result.Canonical]

theorem execSliceEnd_canonical {s : State} (hs : s.mem.Canonical) (p : PartNo) : Result.Canonical (execSliceEnd p s) := by
  have hr : ((coresOf s p.toNat).foldl (fun s n => returnStaged (returnStaged s n 0) n 1) s).mem = s.mem := foldl_mem (fun _ _ => by simp) s _
  unfold execSliceEnd
  dsimp only
  split
  · exact hs
  · split
    · simpa [hr] using hs
    · exact advanceLoop_canonical (by simpa [hr] using hs) ..

theorem execSwitchBudgetExpiry_canonical {s : State} (hs : s.mem.Canonical) (n : CoreNo) : Result.Canonical (execSwitchBudgetExpiry n s) := by
  unfold execSwitchBudgetExpiry
  grind [modCore_mem, Result.Canonical]

theorem forceColumn_canonical {s : State} (hs : s.mem.Canonical) (n : Nat) : (forceColumn s n).mem.Canonical := by
  unfold forceColumn
  grind [finishVq_canonical, modCore_mem, saveJob_canonical]

theorem vacateColumn_canonical {s : State} (hs : s.mem.Canonical) (n : Nat) : (vacateColumn s n).mem.Canonical := by
  unfold vacateColumn
  grind [forceColumn_canonical, modCore_mem]

theorem postWaiting_canonical {s : State} (hs : s.mem.Canonical) (p : Nat) : (postWaiting s p).mem.Canonical := by
  refine foldl_canonical (fun u e hu => ?_) hs _
  split
  · split
    next he => simpa using ringPost_canonical hu he
    next => exact hu
  · exact hu

theorem writeDue_canonical {s : State} (hs : s.mem.Canonical) (p : Nat) : (writeDue s p).mem.Canonical := by
  refine foldl_canonical (fun u e hu => ?_) hs _
  split
  · simpa using writeCommit_canonical (writeCommit_canonical hu ..) ..
  · exact hu

theorem writeRing_canonical {s : State} (hs : s.mem.Canonical) (p : Nat) : (writeRing s p).mem.Canonical := by
  unfold writeRing
  simpa using foldl_canonical (fun u e hu => ringStore_canonical hu p e.1 e.2) hs _

theorem moveJob_canonical {s : State} (hs : s.mem.Canonical) (n j : Nat) : (moveJob s n j).mem.Canonical := by
  unfold moveJob
  grind [moveC_canonical, suspendGo_canonical]

theorem settle_canonical {s : State} (hs : s.mem.Canonical) : (settle s).mem.Canonical := by
  unfold settle
  extract_lets jobs s1 s2 s3 s4 s5
  have hj {f : State → Nat → Nat → State} (hf : ∀ u n j, u.mem.Canonical → (f u n j).mem.Canonical) {t : State} (ht : t.mem.Canonical) : (jobs f t).mem.Canonical := by
    refine foldl_canonical (fun u n hu => ?_) ht _
    split
    · exact hf _ _ _ hu
    · exact hu
  have h1 : s1.mem.Canonical := hj (fun _ _ _ hu => moveJob_canonical hu ..) hs
  have h2 : s2.mem.Canonical := foldl_canonical (fun _ _ hu => orphanColumn_canonical hu ..) h1 _
  have h3 : s3.mem.Canonical := foldl_canonical (fun _ _ hu => vacateColumn_canonical hu ..) h2 _
  have h4 : s4.mem.Canonical := foldl_canonical (fun _ _ hu => forceColumn_canonical hu ..) h3 _
  have h5 : s5.mem.Canonical := by
    refine foldl_canonical (fun u p hu => ?_) h4 _
    have hc := foldl_canonical (f := fun s n => columnTurn s p n) (fun _ n hv => columnTurn_canonical hv p n) hu (coresOf u p)
    dsimp only
    rw [noteQuiet_mem]
    refine writeDue_canonical (writeRing_canonical (postWaiting_canonical ?_ p) p) p
    split
    · exact advanceLoop_canonical hc ..
    · exact hc
  exact hj (fun _ _ _ hu => by simpa using hu) h5

end Sys2Proof.Machine
end

