-- ==== Sys2Proof/Proofs/CanonicalSched.lean ====
section
/-! The scheduler, and the loading of graphs. -/

namespace Sys2Proof.Machine

theorem prefetchCode_canonical {s : State} (hs : s.mem.Canonical) (p c n : Nat) (kr : Kernel) : (prefetchCode s p c n kr).mem.Canonical := by
  refine foldl_canonical (fun u t hu => ?_) hs _
  dsimp only
  split
  · split
    · exact hu
    · exact prefetchLines_canonical hu ..
  · exact hu

theorem dispatchTask_canonical {s : State} (hs : s.mem.Canonical) (p c n k : Nat) (t : Task) : (dispatchTask s p c n k t).mem.Canonical := by
  unfold dispatchTask
  grind [keepPrefetch_canonical, layDescs_canonical, modLaunch_mem, modSlot_mem, prefetchCode_canonical, progress_mem, wakeColumn_mem]

@[simp] theorem startProbe_mem (s : State) (p c die k : Nat) (t : Task) : (startProbe s p c die k t).mem = s.mem := rfl

theorem selectOnce_canonical {s : State} (hs : s.mem.Canonical) {p c die : Nat} {r : State × Nat} (he : selectOnce s p c die = some r) : r.1.mem.Canonical := by
  unfold selectOnce at he
  dsimp only at he
  split at he
  · cases he
  · split at he
    · cases he
    · split at he
      · cases he; simpa using hs
      · split at he <;> cases he
        exact dispatchTask_canonical hs ..

theorem selections_canonical {s : State} (hs : s.mem.Canonical) (p c die k : Nat) : (selections p c die k s).1.mem.Canonical := by
  induction k generalizing s with
  | zero => exact hs
  | succ k ih =>
    unfold selections
    split
    next => exact hs
    next he => exact ih (selectOnce_canonical hs he)

theorem dieRound_canonical {s : State} (hs : s.mem.Canonical) (p c die : Nat) : (dieRound s p c die).1.mem.Canonical := selections_canonical hs ..

@[simp] theorem ageNodes_mem (s : State) (p c : Nat) (l : List Nat) : (ageNodes s p c l).mem = s.mem := rfl

theorem dieRounds_canonical {s : State} (hs : s.mem.Canonical) (p c : Nat) (dies : List Nat) : (dieRounds p c dies s).mem.Canonical := by
  induction dies generalizing s with
  | nil => exact hs
  | cons d r ih =>
    unfold dieRounds
    simpa using ih (dieRound_canonical hs ..)

theorem execDispatchRound_canonical {s : State} (hs : s.mem.Canonical) (p : PartNo) : Result.Canonical (execDispatchRound p s) := by
  unfold execDispatchRound
  grind [dieRounds_canonical, Result.Canonical]

@[simp] theorem dropProbe_mem (s : State) (p c k : Nat) : (dropProbe s p c k).mem = s.mem := rfl

@[simp] theorem modProbe_mem (s : State) (p c k : Nat) (f : Probe → Probe) : (modProbe s p c k f).mem = s.mem := rfl

@[simp] theorem probeMiss_mem (s : State) (p c k : Nat) : (probeMiss s p c k).mem = s.mem := rfl

theorem probeFails_canonical {s : State} (hs : s.mem.Canonical) (p c k : Nat) (t : Task) (write : Bool) (e : VErr) : (probeFails s p c k t write e).mem.Canonical := by
  unfold probeFails
  extract_lets post
  have hp (va : Word) : (post va).mem.Canonical := by
    simp only [post]
    split
    next he => simpa using ringPost_canonical hs he
    next => simpa using hs
  split
  · exact hp _
  · exact hp _
  · exact hs
  · repeat' split
    all_goals simpa using hs

theorem probeReadsGive_canonical {α : Type} {s : State} (hs : s.mem.Canonical) (f : FirnDesc) (tile : Nat) {r : State × Except VErr α} (hr : r.1.mem.Canonical) : (probeReadsGive s f tile r).1.mem.Canonical := by
  unfold probeReadsGive
  grind

theorem execProbeOutcome_canonical {s : State} (hs : s.mem.Canonical) (p : PartNo) (c : CtxNo) (node : BitVec 10) (tile : BitVec 24) : Result.Canonical (execProbeOutcome p c node tile s) := by
  unfold execProbeOutcome
  grind [modProbe_mem, probeFails_canonical, probeMiss_mem, probeReadsGive_canonical, probeTest_canonical, progress_mem, Result.Canonical]

theorem execReuseCopyPerformed_canonical {s : State} (hs : s.mem.Canonical) (p : PartNo) (c : CtxNo) (node : BitVec 10) (tile : BitVec 24) : Result.Canonical (execReuseCopyPerformed p c node tile s) := by
  unfold execReuseCopyPerformed
  grind [completeTask_canonical, copyResult_canonical, dropProbe_mem, markHit_mem, probeFails_canonical, probeReadsGive_canonical, Result.Canonical]

theorem execStallWindowExpiry_canonical {s : State} (hs : s.mem.Canonical) (p : PartNo) : Result.Canonical (execStallWindowExpiry p s) := by
  unfold execStallWindowExpiry
  grind [discardLaunch_mem, stopErr_mem, Result.Canonical]

theorem arenaWalked_canonical {s : State} (hs : s.mem.Canonical) (p c : Nat) (f : FirnDesc) : (arenaWalked s p c f).mem.Canonical := by
  unfold arenaWalked
  split
  · exact hs
  · exact walkedRange_canonical hs ..

theorem fillRange_canonical {s : State} (hs : s.mem.Canonical) (p c : Nat) (b : Byte) (fuel : Nat) (va : Word) (len : Nat) : (fillRange p c b fuel s va len).mem.Canonical := by
  induction fuel generalizing s va len with
  | zero => exact hs
  | succ fuel ih =>
    unfold fillRange
    split
    · exact hs
    · exact ih (vaWrite_canonical hs ..) _ _

theorem fillBackings_canonical {s : State} (hs : s.mem.Canonical) (p c : Nat) (g : Graph) : (fillBackings s p c g).mem.Canonical :=
  foldl_canonical (fun _ _ hu => fillRange_canonical hu ..) hs _

@[simp] theorem freeOnCores_mem (s : State) (p c : Nat) : (freeOnCores s p c).mem = s.mem := foldl_mem (fun _ _ => modCore_mem ..) s _

@[simp] theorem commandDone_mem (s : State) (p c : Nat) (cause : Byte) (node : Nat) : (commandDone s p c cause node).mem = s.mem := rfl

theorem installGraph_canonical {s : State} (hs : s.mem.Canonical) (p c : Nat) (g : Graph) : (installGraph s p c g).mem.Canonical := by
  unfold installGraph
  grind [commandDone_mem, fillBackings_canonical, freeOnCores_mem, modCtx_mem]

theorem andThen_canonical {α β : Type} {x : Load α} (hx : x.1.mem.Canonical) {f : State → α → Load β} (hf : ∀ t a, t.mem.Canonical → (f t a).1.mem.Canonical) : (andThen x f).1.mem.Canonical := by
  unfold andThen
  split
  · exact hf _ _ hx
  · exact hx

theorem readRecord_canonical {s : State} (hs : s.mem.Canonical) (p c : Nat) (va : Word) (len node : Nat) : (readRecord s p c va len node).1.mem.Canonical := by
  unfold readRecord
  split
  next e => exact canonical_of_pair (vaRead_canonical hs ..) e
  next e => exact canonical_of_pair (vaRead_canonical hs ..) e

theorem loadKernel_canonical {s : State} (hs : s.mem.Canonical) (p c node : Nat) (addr : Word) : (loadKernel s p c node addr).1.mem.Canonical := by
  refine andThen_canonical (readRecord_canonical hs ..) fun _ _ h => ?_
  split
  · exact h
  · exact andThen_canonical (readRecord_canonical h ..) fun _ _ h => andThen_canonical h fun _ _ h => h

theorem loadFirn_canonical {s : State} (hs : s.mem.Canonical) (p c node : Nat) (va : Word) : (loadFirn s p c node va).1.mem.Canonical := by
  unfold loadFirn
  split
  · exact hs
  · split
    · exact hs
    · refine andThen_canonical (readRecord_canonical hs ..) fun t l ht => ?_
      split <;> exact ht

theorem loadNode_canonical {s : State} (hs : s.mem.Canonical) (p c node : Nat) (va : Word) : (loadNode s p c node va).1.mem.Canonical :=
  andThen_canonical (readRecord_canonical hs ..) fun _ _ h => andThen_canonical h fun _ _ h => andThen_canonical (loadKernel_canonical h ..) fun _ _ h =>
    andThen_canonical (loadFirn_canonical h ..) fun _ _ h => andThen_canonical h fun _ _ h => h

theorem loadNodes_canonical {s : State} (hs : s.mem.Canonical) (p c : Nat) (table : Word) (k i : Nat) : (loadNodes p c table k s i).1.mem.Canonical := by
  induction k generalizing s i with
  | zero => exact hs
  | succ k ih => exact andThen_canonical (loadNode_canonical hs ..) fun _ _ h => andThen_canonical (ih h _) fun _ _ h => h

theorem loadEdges_canonical {s : State} (hs : s.mem.Canonical) (p c nodes : Nat) (table : Word) (k i : Nat) : (loadEdges p c nodes table k s i).1.mem.Canonical := by
  induction k generalizing s i with
  | zero => exact hs
  | succ k ih => exact andThen_canonical (readRecord_canonical hs ..) fun _ _ h => andThen_canonical h fun _ _ h => andThen_canonical (ih h _) fun _ _ h => h

theorem reserveLayer_canonical {s : State} (hs : s.mem.Canonical) (p c : Nat) (nodes : List Node) (used : Nat) (e : Nat × Nat) : (reserveLayer s p c nodes used e).1.mem.Canonical := by
  unfold reserveLayer
  extract_lets ds n package
  clear_value n
  split
  · exact hs
  · split
    · exact hs
    · exact foldl_canonical (fun _ _ hu => arenaWalked_canonical hu ..) hs _

theorem reserveAll_canonical {s : State} (hs : s.mem.Canonical) (p c : Nat) (nodes : List Node) (l : List (Nat × Nat)) (used : Nat) : (reserveAll p c nodes l s used).1.mem.Canonical := by
  induction l generalizing s used with
  | nil => exact hs
  | cons e r ih => exact andThen_canonical (reserveLayer_canonical hs ..) fun _ _ h => ih h _

theorem readGraph_canonical {s : State} (hs : s.mem.Canonical) (p c : Nat) : (readGraph s p c).1.mem.Canonical := by
  refine andThen_canonical (readRecord_canonical hs ..) fun _ _ h => ?_
  split
  · exact h
  · refine andThen_canonical (loadNodes_canonical h ..) fun _ _ h => andThen_canonical (loadEdges_canonical h ..) fun _ _ h => ?_
    split
    · exact h
    · exact andThen_canonical (reserveAll_canonical h ..) fun _ _ h => h

theorem execGraphLoad_canonical {s : State} (hs : s.mem.Canonical) (p : PartNo) (c : CtxNo) : Result.Canonical (execGraphLoad p c s) := by
  unfold execGraphLoad
  dsimp only
  split
  · exact hs
  · split
    · simpa using hs
    · split
      · simpa using hs
      · split
        next e => exact installGraph_canonical (canonical_of_pair (readGraph_canonical hs ..) e) ..
        next e => simpa using canonical_of_pair (readGraph_canonical hs ..) e

@[simp] theorem releaseGraph_mem (s : State) (p c : Nat) : (releaseGraph s p c).mem = s.mem := by
  unfold releaseGraph
  exact (foldl_mem (fun _ _ => modCore_mem ..) _ _).trans (by simp)

theorem execGraphUnload_canonical {s : State} (hs : s.mem.Canonical) (p : PartNo) (c : CtxNo) : Result.Canonical (execGraphUnload p c s) := by
  unfold execGraphUnload
  grind [commandDone_mem, releaseGraph_mem, Result.Canonical]

theorem execGraphCommandEnd_canonical {s : State} (hs : s.mem.Canonical) (p : PartNo) (c : CtxNo) : Result.Canonical (execGraphCommandEnd p c s) := by
  unfold execGraphCommandEnd
  grind [modCtx_mem, partEvent_mem, Result.Canonical]

end Sys2Proof.Machine
end

