-- ==== Sys2Proof/Proofs/CanonicalEvents.lean ====
section
/-! Events of memory, queue instructions and the sequencer. The copy of a dirty block takes reads and writes of memory as given, as walks are above. -/

namespace Sys2Proof.Machine

theorem withJob_canonical {s : State} (hs : s.mem.Canonical) (n : CoreNo) {f : Nat → Job → State} (hf : ∀ j b, (f j b).mem.Canonical) : Result.Canonical (withJob s n f) := by
  unfold withJob
  grind [Result.Canonical]

theorem engineMove_canonical {s : State} (hs : s.mem.Canonical) (n : CoreNo) (q : Queue) (way : Travel) (from' to' : Nat) : Result.Canonical (engineMove s n q way from' to') := by
  unfold engineMove
  grind [engineFails_canonical, engineMod_mem, Result.Canonical]

theorem execCalendarSlotIssue_canonical {s : State} (hs : s.mem.Canonical) (n : CoreNo) (q : MQueue) : Result.Canonical (execCalendarSlotIssue n q s) := by
  unfold execCalendarSlotIssue
  grind [engineMove_canonical, modJob_mem, withJob_canonical]

theorem performC_canonical {s : State} (hs : s.mem.Canonical) (n j : Nat) (q : Queue) (o : Op) (direct : Bool) : (performC s n j q o direct).mem.Canonical := by
  unfold performC
  grind [loadPerform_canonical, modJob_mem, moveC_canonical, sqEnd_canonical, sqPerform_canonical]

theorem execHomeSlicePerform_canonical {s : State} (hs : s.mem.Canonical) (n : CoreNo) (q : MQueue) : Result.Canonical (execHomeSlicePerform n q s) := by
  unfold execHomeSlicePerform
  grind [engineMove_canonical, performC_canonical, withJob_canonical]

theorem execWindowAccessArrival_canonical {s : State} (hs : s.mem.Canonical) (n : CoreNo) (q : MQueue) : Result.Canonical (execWindowAccessArrival n q s) := by
  unfold execWindowAccessArrival
  grind [engineMove_canonical, performC_canonical, withJob_canonical]

theorem execBankSideOperation_canonical {s : State} (hs : s.mem.Canonical) (n : CoreNo) : Result.Canonical (execBankSideOperation n s) := by
  unfold execBankSideOperation
  grind [performC_canonical, withJob_canonical]

@[simp] theorem land_mem (s : State) (n j : Nat) (l : Landing) : (land s n j l).mem = s.mem := by simp [land]

theorem execReadCompletion_canonical {s : State} (hs : s.mem.Canonical) (n : CoreNo) : Result.Canonical (execReadCompletion n s) := by
  unfold execReadCompletion
  grind [land_mem, withJob_canonical]

theorem execWriteAck_canonical {s : State} (hs : s.mem.Canonical) (n : CoreNo) : Result.Canonical (execWriteAck n s) := by
  unfold execWriteAck
  grind [modJob_mem, withJob_canonical]

theorem engineFabric_canonical {s : State} (hs : s.mem.Canonical) (n : CoreNo) (q : Queue) (ur : Bool) : Result.Canonical (engineFabric s n q ur) := by
  unfold engineFabric
  grind [engineFails_canonical, engineMove_canonical, Result.Canonical]

theorem execFabricAccessCompletion_canonical {s : State} (hs : s.mem.Canonical) (n : CoreNo) (q : MQueue) (ur : Bool) : Result.Canonical (execFabricAccessCompletion n q ur s) := by
  unfold execFabricAccessCompletion
  grind [cFault_mem, engineFabric_canonical, land_mem, modJob_mem, moveC_canonical, performC_canonical, withJob_canonical]

@[simp] theorem fillTlbs_mem (s : State) (n : Nat) (e : TlbEntry) : (fillTlbs s n e).mem = s.mem := by
  refine foldl_mem (fun t m => ?_) s _
  split <;> simp

theorem execTranslationWalkComplete_canonical {s : State} (hs : s.mem.Canonical) (n : CoreNo) (va : Word) : Result.Canonical (execTranslationWalkComplete n va s) := by
  unfold execTranslationWalkComplete
  grind [fillTlbs_mem, walked_canonical, Result.Canonical]

theorem qctlOp_canonical {s : State} (hs : s.mem.Canonical) {l : List Handle} {e : QEnd} {body : State → Nat → Nat → Sid → List (Handle × QDesc) → Res} (hb : ∀ t n j u d, t.mem.Canonical → Res.Canonical (body t n j u d)) : Result.Canonical (qctlOp l e body s) :=
  issue_stream_canonical hs (fun _ _ => trivial) fun t n j u ht => by
    dsimp only
    split
    · trivial
    · exact hb t n j u _ ht

theorem qwaitOp_canonical {s : State} (hs : s.mem.Canonical) (l : List Handle) (fill : Bool) (k : Nat) : Result.Canonical (qwaitOp l fill k s) := by
  unfold qwaitOp
  exact qctlOp_canonical hs fun _ _ _ _ _ ht => by grind [Res.Canonical, raise]

theorem qadvOp_canonical {s : State} (hs : s.mem.Canonical) (l : List Handle) (head : Bool) (k : Nat) : Result.Canonical (qadvOp l head k s) := by
  unfold qadvOp
  refine qctlOp_canonical hs fun _ n j _ _ ht => Res.canonical_ite trivial (Res.canonical_ite ht (foldl_canonical (fun u x hu => ?_) ht _))
  split
  · exact setHead_canonical hu ..
  · exact setTail_canonical hu ..

theorem execQrst_canonical {s : State} (hs : s.mem.Canonical) (qa : Handle) (qb qd : Option Handle) : Result.Canonical (execQrst qa qb qd s) := by
  unfold execQrst
  refine qctlOp_canonical hs fun _ n j _ _ ht => ?_
  split
  · exact ht
  · exact foldl_canonical (fun _ _ hu => setDesc_canonical hu ..) ht _

theorem qxfrOp_canonical {s : State} (hs : s.mem.Canonical) {reads : List Reg} {q : Handle} {e : QEnd} {body : State → Agent → Nat → Nat → QDesc → Res} (hb : ∀ t a n j d, t.mem.Canonical → Res.Canonical (body t a n j d)) : Result.Canonical (qxfrOp reads q e body s) :=
  issue_stream_canonical hs (fun _ _ => trivial) fun t n j _ ht => by
    dsimp only
    split
    · exact hb t _ n j _ ht
    · trivial

theorem execQpop_canonical {s : State} (hs : s.mem.Canonical) (d : Reg) (q : Handle) : Result.Canonical (execQpop d q s) := by
  unfold execQpop
  exact qxfrOp_canonical hs fun _ _ _ _ _ ht => by grind [setHead_canonical, setReg_mem, Res.Canonical]

theorem execQpeek_canonical {s : State} (hs : s.mem.Canonical) (d a : Reg) (q : Handle) : Result.Canonical (execQpeek d a q s) := by
  unfold execQpeek
  exact qxfrOp_canonical hs fun _ _ _ _ _ ht => by grind [setReg_mem, Res.Canonical, raise]

theorem execQput_canonical {s : State} (hs : s.mem.Canonical) (a : Reg) (q : Handle) : Result.Canonical (execQput a q s) := by
  unfold execQput
  exact qxfrOp_canonical hs fun _ _ _ _ _ ht => by grind [setTail_canonical, spWrite_canonical, Res.Canonical]

theorem execQcfg_canonical {s : State} (hs : s.mem.Canonical) (a : Reg) (q : Handle) : Result.Canonical (execQcfg a q s) := by
  unfold execQcfg
  exact issue_canonical hs fun _ _ ht => by grind [setDesc_canonical, Res.Canonical, raise]

theorem execQcnt_canonical {s : State} (hs : s.mem.Canonical) (d : Reg) (q : Handle) : Result.Canonical (execQcnt d q s) := by
  unfold execQcnt
  exact issue_canonical hs fun _ _ ht => by grind [setReg_mem, Res.Canonical, raise]

theorem bqOp_canonical {s : State} (hs : s.mem.Canonical) (want : Bool) (q : Handle) (off : BitVec 11) : Result.Canonical (bqOp want q off s) := by
  unfold bqOp
  exact qxfrOp_canonical hs fun _ _ _ _ _ ht => by grind [Res.Canonical, raise]

theorem execGo_canonical {s : State} (hs : s.mem.Canonical) (p : PartNo) (c : CtxNo) (stop : Bool) : Result.Canonical (execGo p c stop s) := by
  unfold execGo
  simpa using hs

theorem execStop_canonical {s : State} (hs : s.mem.Canonical) (p : PartNo) (c : CtxNo) : Result.Canonical (execStop p c s) := hs

theorem resolveTrip_canonical {s : State} (hs : s.mem.Canonical) (p c : Nat) (l : Nat × Nat × Nat) : (resolveTrip s p c l).1.mem.Canonical := by
  unfold resolveTrip
  grind [vaRead_canonical]

theorem resolveTrips_canonical {s : State} (hs : s.mem.Canonical) (p c : Nat) (levels : List (Nat × Nat × Nat)) : (resolveTrips p c levels s).1.mem.Canonical := by
  induction levels generalizing s with
  | nil => exact hs
  | cons l r ih =>
    unfold resolveTrips
    split
    next e => exact canonical_of_pair (resolveTrip_canonical hs ..) e
    next e =>
      have hr := canonical_of_pair (resolveTrip_canonical hs ..) e
      split
      next e => exact canonical_of_pair (ih hr) e
      next e => exact canonical_of_pair (ih hr) e

theorem activateNodes_canonical {s : State} (hs : s.mem.Canonical) (p c : Nat) (nodes : List Node) (k : Nat) : (activateNodes p c nodes k s).1.mem.Canonical := by
  induction nodes generalizing s k with
  | nil => exact hs
  | cons nd r ih =>
    unfold activateNodes
    split
    next e => exact canonical_of_pair (resolveTrips_canonical hs ..) e
    next e =>
      have hr := canonical_of_pair (resolveTrips_canonical hs ..) e
      split
      · exact hr
      · split
        next e => exact canonical_of_pair (ih hr _) e
        next e => exact canonical_of_pair (ih hr _) e

theorem launchGraph_canonical {s : State} (hs : s.mem.Canonical) (p c : Nat) : (launchGraph s p c).mem.Canonical := by
  unfold launchGraph
  grind [activateNodes_canonical, advanceLoop_canonical, modCtx_mem, progress_mem, stopErr_mem]

theorem execStepRecordArrival_canonical {s : State} (hs : s.mem.Canonical) (p : PartNo) (c : CtxNo) : Result.Canonical (execStepRecordArrival p c s) := by
  unfold execStepRecordArrival
  grind [launchGraph_canonical, modCtx_mem, stopErr_mem, vaRead_canonical, Result.Canonical]

theorem copyBlock_canonical {s : State} (hs : s.mem.Canonical) (p c image k n o : Nat) : (copyBlock s p c image k n o).1.mem.Canonical := by
  have hr := @physRead_canonical
  have hw := @vaWrite_canonical
  generalize hf : copyBlock = f
  delta copyBlock at hf
  generalize physRead = phys at hf hr
  generalize vaWrite = va at hf hw
  as_aux_lemma =>
    subst hf
    grind [modCore_mem]

theorem doEach_canonical {α : Type} {f : State → α → State × Except Byte Unit} (hf : ∀ s x, s.mem.Canonical → (f s x).1.mem.Canonical) {s : State} (hs : s.mem.Canonical) (l : List α) : (doEach f s l).1.mem.Canonical := by
  have hl {r : State × Except Byte Unit} (hr : r.1.mem.Canonical) : (l.foldl (fun r x => match r with | (s, .ok _) => f s x | r => r) r).1.mem.Canonical := by
    induction l generalizing r with
    | nil => exact hr
    | cons x l ih =>
      refine ih ?_
      dsimp only
      split
      · exact hf _ _ hr
      · exact hr
  exact hl (r := (s, .ok ())) hs

theorem copyColumn_canonical {s : State} (hs : s.mem.Canonical) (p c image k n : Nat) : (copyColumn s p c image k n).1.mem.Canonical := by
  have hb := @copyBlock_canonical
  generalize hf : copyColumn = f
  delta copyColumn at hf
  generalize copyBlock = copied at hf hb
  as_aux_lemma =>
    subst hf
    exact doEach_canonical (fun _ _ ht => hb ht _ _ _ _ _ _) hs _

theorem copyColumns_canonical {s : State} (hs : s.mem.Canonical) (p c image : Nat) : (copyColumns s p c image).1.mem.Canonical := by
  unfold copyColumns
  grind [copyColumn_canonical, doEach_canonical]

theorem execSnapshotCommit_canonical {s : State} (hs : s.mem.Canonical) (p : PartNo) (c : CtxNo) : Result.Canonical (execSnapshotCommit p c s) := by
  unfold execSnapshotCommit
  grind [copyColumns_canonical, modCtx_mem, stepDone_mem, stopErr_mem, writeCommit_canonical, Result.Canonical]

theorem execRollbackRequest_canonical {s : State} (hs : s.mem.Canonical) (p : PartNo) (c : CtxNo) : Result.Canonical (execRollbackRequest p c s) := hs

theorem committed_canonical {s : State} (hs : s.mem.Canonical) (p c image : Nat) : (committed s p c image).1.mem.Canonical := by
  unfold committed
  grind [vaRead_canonical]

theorem chooseImage_canonical {s : State} (hs : s.mem.Canonical) (p c : Nat) : (chooseImage s p c).1.mem.Canonical := committed_canonical (committed_canonical hs ..) ..

theorem restoreBlock_canonical {s : State} (hs : s.mem.Canonical) (p c image k n o : Nat) : (restoreBlock s p c image k n o).mem.Canonical := by
  unfold restoreBlock
  grind [physWrite_canonical, vaRead_canonical]

theorem rollBack_canonical {s : State} (hs : s.mem.Canonical) (p c : Nat) : (rollBack s p c).mem.Canonical := by
  have hd : (modCtx (discardLaunch s p c) p c (fun x => { x with rb := false })).mem.Canonical := by simpa using hs
  unfold rollBack
  dsimp only
  split
  next e => simpa using canonical_of_pair (chooseImage_canonical hd ..) e
  next e =>
    simp only [modCtx_mem]
    exact foldl_canonical (fun _ _ hu => foldl_canonical (fun _ _ hv => restoreBlock_canonical hv ..) hu _) (canonical_of_pair (chooseImage_canonical hd ..) e) _

theorem execRollback_canonical {s : State} (hs : s.mem.Canonical) (p : PartNo) (c : CtxNo) : Result.Canonical (execRollback p c s) := by
  unfold execRollback
  grind [rollBack_canonical, Result.Canonical]

theorem execVaultBankFailure_canonical {s : State} (hs : s.mem.Canonical) (n : CoreNo) (bank : BitVec 6) (all : Bool) : Result.Canonical (execVaultBankFailure n bank all s) := by
  unfold execVaultBankFailure
  dsimp only
  split
  · exact wf_of_cells hs rfl rfl
  · rw [Result.canonical_next]
    refine foldl_canonical (fun u k hu => ?_) ?_ _
    · split
      · exact hu
      · simpa using hu
    · exact wf_of_cells hs rfl rfl

theorem execContextEnable_canonical {s : State} (hs : s.mem.Canonical) (p : PartNo) (c : CtxNo) (en : Bool) : Result.Canonical (execContextEnable p c en s) := by
  unfold execContextEnable
  split
  · exact hs
  · simpa using hs

theorem execVaultRangeDeclare_canonical {s : State} (hs : s.mem.Canonical) (p : PartNo) (c : CtxNo) (v : Word) : Result.Canonical (execVaultRangeDeclare p c v s) := by
  unfold execVaultRangeDeclare
  simpa using hs

theorem execPbsetWrite_canonical {s : State} (hs : s.mem.Canonical) (p : PartNo) (c : CtxNo) (tag : BitVec 3) (v : BitVec 320) : Result.Canonical (execPbsetWrite p c tag v s) :=
  hs

theorem execReleaseDeliver_canonical {s : State} (hs : s.mem.Canonical) (p : PartNo) (n : CoreNo) : Result.Canonical (execReleaseDeliver p n s) :=
  releaseDeliver_canonical hs ..

theorem execReleaseKill_canonical {s : State} (hs : s.mem.Canonical) (p : PartNo) (n : CoreNo) : Result.Canonical (execReleaseKill p n s) := by
  unfold execReleaseKill
  simpa using hs

end Sys2Proof.Machine
end

