-- ==== Sys2Proof/Proofs/CanonicalSystem.lean ====
section
/-! The host, the management core and resets. -/

namespace Sys2Proof.Machine

open Sys2Proof.Config

theorem execColumnEnterC1_canonical {s : State} (hs : s.mem.Canonical) (n : CoreNo) : Result.Canonical (execColumnEnterC1 n s) := by
  unfold execColumnEnterC1
  grind [modCore_mem, Result.Canonical]

theorem execColumnEnterDeep_canonical {s : State} (hs : s.mem.Canonical) (n : CoreNo) : Result.Canonical (execColumnEnterDeep n s) := by
  unfold execColumnEnterDeep
  grind [deepColumn_canonical, Result.Canonical]

theorem execColumnWake_canonical {s : State} (hs : s.mem.Canonical) (n : CoreNo) : Result.Canonical (execColumnWake n s) := by
  unfold execColumnWake
  split
  · exact hs
  · simpa using hs

theorem execVacate_canonical {s : State} (hs : s.mem.Canonical) (n : CoreNo) : Result.Canonical (execVacate n s) := hs

theorem execThrotnWrite_canonical {s : State} (hs : s.mem.Canonical) (n : CoreNo) (v : Word) : Result.Canonical (execThrotnWrite n v s) := hs

@[simp] theorem clampStep_mem (s : State) : (clampStep s).mem = s.mem := by
  unfold clampStep
  grind

theorem execSensorUpdate_canonical {s : State} (hs : s.mem.Canonical) (i : BitVec 9) (raw : BitVec 16) : Result.Canonical (execSensorUpdate i raw s) := by
  unfold execSensorUpdate
  grind [clampStep_mem, Result.Canonical]

theorem execMgmtTrapEntry_canonical {s : State} (hs : s.mem.Canonical) (cause : Byte) (faddr : BitVec 32) : Result.Canonical (execMgmtTrapEntry cause faddr s) := by
  unfold execMgmtTrapEntry
  split
  · exact hs
  · simpa using hs

@[simp] theorem portDown_mem (s : State) (port : Nat) : (portDown s port).mem = s.mem := by
  have hf (n j : Nat) (t : State) (l : List Op) : (l.foldl (fun s o => remoteFails s n j o cDataUe 0 (remoteTo o).2) t).mem = t.mem := foldl_mem (fun _ _ => remoteFails_mem ..) t l
  unfold portDown
  refine (foldl_mem (fun _ _ => partEvent_mem ..) _ _).trans (foldl_mem (fun t n => ?_) _ _)
  dsimp only
  split
  · rfl
  · split
    · exact hf ..
    · exact (foldl_mem (fun _ _ => by simp) _ _).trans (hf ..)

@[simp] theorem freezePort_mem (s : State) (p port : Nat) : (freezePort s p port).mem = s.mem := by simp [freezePort]

theorem performFlit_canonical {s : State} (hs : s.mem.Canonical) (port : Nat) (f : Flit) : (performFlit s port f).mem.Canonical := by
  unfold performFlit
  grind [freezePort_mem, txbArrive_mem, vaWrite_canonical, walkedRange_canonical]

theorem acceptFlit_canonical {s : State} (hs : s.mem.Canonical) (port : Nat) (f : Flit) : (acceptFlit s port f).mem.Canonical := by
  unfold acceptFlit
  grind [modPart_mem, performFlit_canonical]

theorem execFlitReceive_canonical {s : State} (hs : s.mem.Canonical) (port : BitVec 4) (raw : List Byte) (f : Flit) : Result.Canonical (execFlitReceive port raw f s) := by
  unfold execFlitReceive
  grind [acceptFlit_canonical, portDown_mem, Result.Canonical]

theorem execIngressRelease_canonical {s : State} (hs : s.mem.Canonical) (p : PartNo) : Result.Canonical (execIngressRelease p s) := by
  unfold execIngressRelease
  grind [modPart_mem, performFlit_canonical, Result.Canonical]

theorem execFrozenPortRelease_canonical {s : State} (hs : s.mem.Canonical) (p : PartNo) (port : BitVec 4) : Result.Canonical (execFrozenPortRelease p port s) := hs

theorem execRepairReplay_canonical {s : State} (hs : s.mem.Canonical) : Result.Canonical (execRepairReplay s) := hs

theorem warmMem_canonical {m : Memory} (hm : m.Canonical) : (warmMem m).Canonical :=
  canonical_of_filter hm rfl fun e _ hp => by
    simp only [Bool.not_eq_true', Bool.and_eq_false_iff, decide_eq_false_iff_not] at hp
    unfold coreBase pctlBase at hp
    unfold coreBase nCores coreStride
    omega

theorem warmReset_canonical {s : State} (hs : s.mem.Canonical) : (warmReset s).mem.Canonical := warmMem_canonical hs ..

theorem execWarmrst_canonical {s : State} (hs : s.mem.Canonical) : Result.Canonical (execWarmrst s) := warmReset_canonical hs ..

theorem execColdReset_canonical {s : State} (hs : s.mem.Canonical) : Result.Canonical (execColdReset s) :=
  canonical_of_filter hs rfl fun e _ hp => by
    simp only [Bool.and_eq_true, decide_eq_true_iff] at hp
    unfold hostBase at hp
    unfold coreBase nCores coreStride
    omega

theorem execPackagePowerLoss_canonical {s : State} (hs : s.mem.Canonical) : Result.Canonical (execPackagePowerLoss s) := hs

theorem resetColumn_canonical {s : State} (hs : s.mem.Canonical) (n : Nat) : (resetColumn s n).mem.Canonical := dropLines_canonical hs ..

theorem execFunctionLevelReset_canonical {s : State} (hs : s.mem.Canonical) (p : PartNo) : Result.Canonical (execFunctionLevelReset p s) := by
  unfold execFunctionLevelReset
  exact foldl_canonical (fun _ _ hu => resetColumn_canonical hu _) hs _

@[simp] theorem bootGo_mem (s : State) : (bootGo s).mem = s.mem := rfl

theorem execBootgo_canonical {s : State} (hs : s.mem.Canonical) : Result.Canonical (execBootgo s) := hs

theorem execBootImageLoaded_canonical {s : State} (hs : s.mem.Canonical) : Result.Canonical (execBootImageLoaded s) := by
  unfold execBootImageLoaded
  grind [memWrite_canonical, Result.Canonical]

theorem execAttgo_canonical {s : State} (hs : s.mem.Canonical) (fn : BitVec 5) : Result.Canonical (execAttgo fn s) := by
  unfold execAttgo
  split
  · exact hs
  · simpa using hs

theorem execAttestationDone_canonical {s : State} (hs : s.mem.Canonical) (fn : BitVec 5) : Result.Canonical (execAttestationDone fn s) := by
  unfold execAttestationDone
  grind [physWrite_canonical, Result.Canonical]

theorem fn0Write_canonical {s : State} (hs : s.mem.Canonical) (off : Nat) (v : Word) : (fn0Write s off v).mem.Canonical := by
  unfold fn0Write
  grind [attWrite_mem, bootGo_mem, warmReset_canonical]

theorem fn0WriteBytes_canonical {s : State} (hs : s.mem.Canonical) (off : Nat) (l : List Byte) : (fn0WriteBytes s off l).mem.Canonical :=
  foldl_canonical (fun _ _ hu => fn0Write_canonical hu ..) hs _

@[simp] theorem reply_mem (s : State) (fn : Nat) (l : Option (List Byte)) : (reply s fn l).mem = s.mem := rfl

@[simp] theorem hostViolation_mem (s : State) (p : Nat) : (hostViolation s p).mem = s.mem := by simp [hostViolation]

theorem hostAtomic_canonical {s : State} (hs : s.mem.Canonical) (p pa key op k : Nat) (v c : Word) : (hostAtomic s p pa key op k v c).1.mem.Canonical := by
  unfold hostAtomic
  grind [recallLine_canonical, storeGet_mem, storePut_canonical]

theorem hostOp_canonical {s : State} (hs : s.mem.Canonical) (p op off : Nat) (wd : Width) (v c : Word) : (hostOp s p op off wd v c).mem.Canonical := by
  unfold hostOp
  grind [hostAtomic_canonical, hostViolation_mem, reply_mem]

theorem partRequest_canonical {s : State} (hs : s.mem.Canonical) (p : Nat) (x : HostReq) : (partRequest s p x).mem.Canonical := by
  unfold partRequest
  grind [hostOp_canonical, hostViolation_mem, pctlWriteBytes_canonical, physRead_canonical, physWrite_canonical, reply_mem]

theorem execHostRequest_canonical {s : State} (hs : s.mem.Canonical) (r : HostReq) : Result.Canonical (execHostRequest r s) := by
  unfold execHostRequest
  grind [fn0WriteBytes_canonical, partRequest_canonical, reply_mem, Result.Canonical]

@[simp] theorem loadKey_mem (s : State) (slot : Nat) (l : List Byte) : (loadKey s slot l).mem = s.mem := rfl

theorem execRegisterWrite_canonical {s : State} (hs : s.mem.Canonical) (r : RegWrite) : Result.Canonical (execRegisterWrite r s) := by
  unfold execRegisterWrite
  grind [loadKey_mem, pctlWrite_canonical, Result.Canonical]

end Sys2Proof.Machine
end

