-- ==== Sys2Proof/Proofs/CanonicalStep.lean ====
section
/-! Dispatch, fetch and the step. -/

namespace Sys2Proof.Machine

theorem exec_canonical {s : State} (hs : s.mem.Canonical) (i : Instr) : Result.Canonical (exec i s) := by
  cases i with
  | add | sub | and | or | xor | andn | sll | srl | sra | rol | mul | mulh | mulhu | div | divu | rem | remu | min | minu | max | maxu | seq | sne | slt | sltu | sle | sleu => simp only [exec_add, exec_sub, exec_and, exec_or, exec_xor, exec_andn, exec_sll, exec_srl, exec_sra, exec_rol, exec_mul, exec_mulh, exec_mulhu, exec_div, exec_divu, exec_rem, exec_remu, exec_min, exec_minu, exec_max, exec_maxu, exec_seq, exec_sne, exec_slt, exec_sltu, exec_sle, exec_sleu]; exact aluOp_canonical hs ..
  | clz | ctz | popc | bswap | sexb | sexh | sexw | addi | andi | ori | xori | slli | srli | srai | slti => simp only [exec_clz, exec_ctz, exec_popc, exec_bswap, exec_sexb, exec_sexh, exec_sexw, exec_addi, exec_andi, exec_ori, exec_xori, exec_slli, exec_srli, exec_srai, exec_slti]; exact aluOp1_canonical hs ..
  | fadd | fsub | fmul | fdiv | fmin | fmax | fminp | fmaxp => simp only [exec_fadd, exec_fsub, exec_fmul, exec_fdiv, exec_fmin, exec_fmax, exec_fminp, exec_fmaxp]; exact fpOp_canonical hs ..
  | fcvtfi => rw [exec_fcvtfi]; exact execFcvtfi_canonical hs ..
  | fcvtif => rw [exec_fcvtif]; exact execFcvtif_canonical hs ..
  | feq | flt | fle => simp only [exec_feq, exec_flt, exec_fle]; exact fpRel_canonical hs ..
  | lui => rw [exec_lui]; exact execLui_canonical hs ..
  | lix => rw [exec_lix]; exact execLix_canonical hs ..
  | lihx => rw [exec_lihx]; exact execLihx_canonical hs ..
  | addx => rw [exec_addx]; exact execAddx_canonical hs ..
  | beq | bne | blt | bge | bltu | bgeu | bset | bclr => simp only [exec_beq, exec_bne, exec_blt, exec_bge, exec_bltu, exec_bgeu, exec_bset, exec_bclr]; exact branchOp_canonical hs ..
  | jal => rw [exec_jal]; exact execJal_canonical hs ..
  | jalr => rw [exec_jalr]; exact execJalr_canonical hs ..
  | loop | loopi | loopk | loopm => simp only [exec_loop, exec_loopi, exec_loopk, exec_loopm]; exact loopOp_canonical hs ..
  | qwait | qroom => simp only [exec_qwait, exec_qroom]; exact qwaitOp_canonical hs ..
  | qadv | qadvp => simp only [exec_qadv, exec_qadvp]; exact qadvOp_canonical hs ..
  | qrst => rw [exec_qrst]; exact execQrst_canonical hs ..
  | qpop => rw [exec_qpop]; exact execQpop_canonical hs ..
  | qpeek => rw [exec_qpeek]; exact execQpeek_canonical hs ..
  | qput => rw [exec_qput]; exact execQput_canonical hs ..
  | qcfg => rw [exec_qcfg]; exact execQcfg_canonical hs ..
  | qcnt => rw [exec_qcnt]; exact execQcnt_canonical hs ..
  | bqt | bqf => simp only [exec_bqt, exec_bqf]; exact bqOp_canonical hs ..
  | nop => rw [exec_nop]; exact execNop_canonical hs ..
  | rdv0 | rdvStreamSet => simp only [exec_rdv0, exec_rdvStreamSet]; exact rdvOp_canonical hs ..
  | rdvEnd => rw [exec_rdvEnd]; exact execRdvEnd_canonical hs ..
  | rdvComplete => rw [exec_rdvComplete]; exact execRdvComplete_canonical hs ..
  | pbar | pbara | pbarw => simp only [exec_pbar, exec_pbara, exec_pbarw]; exact pbarOp_canonical hs ..
  | pennantArrival => rw [exec_pennantArrival]; exact execPennantArrival_canonical hs ..
  | pennantCompletion => rw [exec_pennantCompletion]; exact execPennantCompletion_canonical hs ..
  | wfi => rw [exec_wfi]; exact execWfi_canonical hs ..
  | ipref => rw [exec_ipref]; exact execIpref_canonical hs ..
  | rdc => rw [exec_rdc]; exact execRdc_canonical hs ..
  | wrc => rw [exec_wrc]; exact execWrc_canonical hs ..
  | rdk => rw [exec_rdk]; exact execRdk_canonical hs ..
  | rdcyc => rw [exec_rdcyc]; exact execRdcyc_canonical hs ..
  | rdid => rw [exec_rdid]; exact execRdid_canonical hs ..
  | rdloop => rw [exec_rdloop]; exact execRdloop_canonical hs ..
  | ldb | ldbs | ldh | ldhs | ldw | ldws | ldd => simp only [exec_ldb, exec_ldbs, exec_ldh, exec_ldhs, exec_ldw, exec_ldws, exec_ldd]; exact loadOp_canonical hs ..
  | stb | sth | stw | std => simp only [exec_stb, exec_sth, exec_stw, exec_std]; exact storeOp_canonical hs ..
  | lsmark => rw [exec_lsmark]; exact execLsmark_canonical hs ..
  | l1inv => rw [exec_l1inv]; exact execL1inv_canonical hs ..
  | l1inva => rw [exec_l1inva]; exact execL1inva_canonical hs ..
  | pref => rw [exec_pref]; exact execPref_canonical hs ..
  | own | disown | spawn | sptest | depdec | depinc | wlcfg | wlpush | wlins | wlpopb | wlcnt | wldrain | frnck | frnput | frninv | frnstat | frnflush => simp only [exec_own, exec_disown, exec_spawn, exec_sptest, exec_depdec, exec_depinc, exec_wlcfg, exec_wlpush, exec_wlins, exec_wlpopb, exec_wlcnt, exec_wldrain, exec_frnck, exec_frnput, exec_frninv, exec_frnstat, exec_frnflush]; exact sqInstr_canonical hs ..
  | amoadd | amoand | amoor | amoxor | amomin | amominu | amomax | amomaxu | amoswp | amocas | amofadd => simp only [exec_amoadd, exec_amoand, exec_amoor, exec_amoxor, exec_amomin, exec_amominu, exec_amomax, exec_amomaxu, exec_amoswp, exec_amocas, exec_amofadd]; exact amoOp_canonical hs ..
  | fence | qfence => simp only [exec_fence, exec_qfence]; exact fenceOp_canonical hs ..
  | spwait => rw [exec_spwait]; exact execSpwait_canonical hs ..
  | installation => rw [exec_installation]; exact execInstallation_canonical hs ..
  | vtadd | vtfadd | vtmax | vtcas | vtsac => simp only [exec_vtadd, exec_vtfadd, exec_vtmax, exec_vtcas, exec_vtsac]; exact vaultOp_canonical hs ..
  | bankSideOperation => rw [exec_bankSideOperation]; exact execBankSideOperation_canonical hs ..
  | trap => rw [exec_trap]; exact execTrap_canonical hs ..
  | eret => rw [exec_eret]; exact execEret_canonical hs ..
  | uiret => rw [exec_uiret]; exact execUiret_canonical hs ..
  | brk => rw [exec_brk]; exact execBrk_canonical hs ..
  | sysc => rw [exec_sysc]; exact execSysc_canonical hs ..
  | rtfill => rw [exec_rtfill]; exact execRtfill_canonical hs ..
  | rtnext => rw [exec_rtnext]; exact execRtnext_canonical hs ..
  | resume => rw [exec_resume]; exact execResume_canonical hs ..
  | kill => rw [exec_kill]; exact execKill_canonical hs ..
  | tlbinv => rw [exec_tlbinv]; exact execTlbinv_canonical hs ..
  | apcfg => rw [exec_apcfg]; exact execApcfg_canonical hs ..
  | astrm | astro => simp only [exec_astrm, exec_astro]; exact streamOp_canonical hs ..
  | agath | ascat => simp only [exec_agath, exec_ascat]; exact indexedOp_canonical hs ..
  | awcfg => rw [exec_awcfg]; exact execAwcfg_canonical hs ..
  | awin => rw [exec_awin]; exact execAwin_canonical hs ..
  | awpass => rw [exec_awpass]; exact execAwpass_canonical hs ..
  | aprf => rw [exec_aprf]; exact execAprf_canonical hs ..
  | aqOperationPerformed => rw [exec_aqOperationPerformed]; exact execAqOperationPerformed_canonical hs ..
  | vadd | vsub | vmul | vfma | vfms | vfnma | vmin | vmax | vminp | vmaxp | vdiv | vand | vor | vxor | vsll | vsrl | vsra | vaddsat | vsubsat | vmulhi => simp only [exec_vadd, exec_vsub, exec_vmul, exec_vfma, exec_vfms, exec_vfnma, exec_vmin, exec_vmax, exec_vminp, exec_vmaxp, exec_vdiv, exec_vand, exec_vor, exec_vxor, exec_vsll, exec_vsrl, exec_vsra, exec_vaddsat, exec_vsubsat, exec_vmulhi]; exact laneOp_canonical hs ..
  | vabs | vneg | vsqrt | vsgn | vnot => simp only [exec_vabs, exec_vneg, exec_vsqrt, exec_vsgn, exec_vnot]; exact laneOp1_canonical hs ..
  | vceq | vcne | vclt | vcle | vcgt | vcge | vcun => simp only [exec_vceq, exec_vcne, exec_vclt, exec_vcle, exec_vcgt, exec_vcge, exec_vcun]; exact cmpOp_canonical hs ..
  | vsel => rw [exec_vsel]; exact execVsel_canonical hs ..
  | mand => rw [exec_mand]; exact execMand_canonical hs ..
  | mor => rw [exec_mor]; exact execMor_canonical hs ..
  | mxor => rw [exec_mxor]; exact execMxor_canonical hs ..
  | mnot => rw [exec_mnot]; exact execMnot_canonical hs ..
  | mpop => rw [exec_mpop]; exact execMpop_canonical hs ..
  | mfirst => rw [exec_mfirst]; exact execMfirst_canonical hs ..
  | vcvt => rw [exec_vcvt]; exact execVcvt_canonical hs ..
  | vrsum | vrmax | vrmin => simp only [exec_vrsum, exec_vrmax, exec_vrmin]; exact redOp_canonical hs ..
  | vscan => rw [exec_vscan]; exact execVscan_canonical hs ..
  | vmov => rw [exec_vmov]; exact execVmov_canonical hs ..
  | vbcast => rw [exec_vbcast]; exact execVbcast_canonical hs ..
  | vext => rw [exec_vext]; exact execVext_canonical hs ..
  | vins => rw [exec_vins]; exact execVins_canonical hs ..
  | vperm => rw [exec_vperm]; exact execVperm_canonical hs ..
  | vrot => rw [exec_vrot]; exact execVrot_canonical hs ..
  | vidx => rw [exec_vidx]; exact execVidx_canonical hs ..
  | vpack => rw [exec_vpack]; exact execVpack_canonical hs ..
  | vunpk => rw [exec_vunpk]; exact execVunpk_canonical hs ..
  | vld | vst => simp only [exec_vld, exec_vst]; exact vldstOp_canonical hs ..
  | vldq | vstq => simp only [exec_vldq, exec_vstq]; exact vqueueOp_canonical hs ..
  | vgat | vsct => simp only [exec_vgat, exec_vsct]; exact vindexOp_canonical hs ..
  | swait => rw [exec_swait]; exact execSwait_canonical hs ..
  | vqOperationPerformed => rw [exec_vqOperationPerformed]; exact execVqOperationPerformed_canonical hs ..
  | vpart => rw [exec_vpart]; exact execVpart_canonical hs ..
  | vcmpk => rw [exec_vcmpk]; exact execVcmpk_canonical hs ..
  | vexpd => rw [exec_vexpd]; exact execVexpd_canonical hs ..
  | vtcfg => rw [exec_vtcfg]; exact execVtcfg_canonical hs ..
  | vtab | vtabl | vtabq => simp only [exec_vtab, exec_vtabl, exec_vtabq]; exact tabOp_canonical hs ..
  | vexp2 | vlog2 => simp only [exec_vexp2, exec_vlog2]; exact floatLane_canonical hs ..
  | flmatch | flmerge | flunmg | flsave | flload | flfree => simp only [exec_flmatch, exec_flmerge, exec_flunmg, exec_flsave, exec_flload, exec_flfree]; exact floeIssue_canonical hs ..
  | flsize => rw [exec_flsize]; exact execFlsize_canonical hs ..
  | flsig => rw [exec_flsig]; exact execFlsig_canonical hs ..
  | vsmx | vsmxs => simp only [exec_vsmx, exec_vsmxs]; exact smxOp_canonical hs ..
  | prunepk => rw [exec_prunepk]; exact execPrunepk_canonical hs ..
  | prunepkt => rw [exec_prunepkt]; exact execPrunepkt_canonical hs ..
  | mdpack => rw [exec_mdpack]; exact execMdpack_canonical hs ..
  | mdchk => rw [exec_mdchk]; exact execMdchk_canonical hs ..
  | mmac | mmacs | mmacg | mmacsg => simp only [exec_mmac, exec_mmacs, exec_mmacg, exec_mmacsg]; exact productIssue_canonical hs ..
  | mclr => rw [exec_mclr]; exact execMclr_canonical hs ..
  | mcfg => rw [exec_mcfg]; exact execMcfg_canonical hs ..
  | mhdr => rw [exec_mhdr]; exact execMhdr_canonical hs ..
  | mtrn => rw [exec_mtrn]; exact execMtrn_canonical hs ..
  | mqOperationStart => rw [exec_mqOperationStart]; exact execMqOperationStart_canonical hs ..
  | matrixStep => rw [exec_matrixStep]; exact execMatrixStep_canonical hs ..
  | mqOperationPerformed => rw [exec_mqOperationPerformed]; exact execMqOperationPerformed_canonical hs ..
  | xcpy => rw [exec_xcpy]; exact execXcpy_canonical hs ..
  | xcp2 | xcp3 => simp only [exec_xcp2, exec_xcp3]; exact shapedCopy_canonical hs ..
  | xcvt => rw [exec_xcvt]; exact execXcvt_canonical hs ..
  | xmcast => rw [exec_xmcast]; exact execXmcast_canonical hs ..
  | xflw => rw [exec_xflw]; exact execXflw_canonical hs ..
  | xvop => rw [exec_xvop]; exact execXvop_canonical hs ..
  | xrem => rw [exec_xrem]; exact execXrem_canonical hs ..
  | xwait => rw [exec_xwait]; exact execXwait_canonical hs ..
  | xcmpl => rw [exec_xcmpl]; exact execXcmpl_canonical hs ..
  | copyCommandPerformed => rw [exec_copyCommandPerformed]; exact execCopyCommandPerformed_canonical hs ..
  | completionRecord => rw [exec_completionRecord]; exact execCompletionRecord_canonical hs ..
  | txinit => rw [exec_txinit]; exact execTxinit_canonical hs ..
  | txexp => rw [exec_txexp]; exact execTxexp_canonical hs ..
  | txarr => rw [exec_txarr]; exact execTxarr_canonical hs ..
  | txwait => rw [exec_txwait]; exact execTxwait_canonical hs ..
  | txtest => rw [exec_txtest]; exact execTxtest_canonical hs ..
  | intakePacketTake => rw [exec_intakePacketTake]; exact execIntakePacketTake_canonical hs ..
  | userInterruptDelivery => rw [exec_userInterruptDelivery]; exact execUserInterruptDelivery_canonical hs ..
  | dispatchRound => rw [exec_dispatchRound]; exact execDispatchRound_canonical hs ..
  | probeOutcome => rw [exec_probeOutcome]; exact execProbeOutcome_canonical hs ..
  | reuseCopyPerformed => rw [exec_reuseCopyPerformed]; exact execReuseCopyPerformed_canonical hs ..
  | jobStart => rw [exec_jobStart]; exact execJobStart_canonical hs ..
  | jobRetire => rw [exec_jobRetire]; exact execJobRetire_canonical hs ..
  | watchdogDeadlock => rw [exec_watchdogDeadlock]; exact execWatchdogDeadlock_canonical hs ..
  | stallWindowExpiry => rw [exec_stallWindowExpiry]; exact execStallWindowExpiry_canonical hs ..
  | sliceEnd => rw [exec_sliceEnd]; exact execSliceEnd_canonical hs ..
  | switchBudgetExpiry => rw [exec_switchBudgetExpiry]; exact execSwitchBudgetExpiry_canonical hs ..
  | npbudgetExpiry => rw [exec_npbudgetExpiry]; exact execNpbudgetExpiry_canonical hs ..
  | trapDelivery => rw [exec_trapDelivery]; exact execTrapDelivery_canonical hs ..
  | calendarSlotIssue => rw [exec_calendarSlotIssue]; exact execCalendarSlotIssue_canonical hs ..
  | homeSlicePerform => rw [exec_homeSlicePerform]; exact execHomeSlicePerform_canonical hs ..
  | readCompletion => rw [exec_readCompletion]; exact execReadCompletion_canonical hs ..
  | writeAck => rw [exec_writeAck]; exact execWriteAck_canonical hs ..
  | translationWalkComplete => rw [exec_translationWalkComplete]; exact execTranslationWalkComplete_canonical hs ..
  | windowAccessArrival => rw [exec_windowAccessArrival]; exact execWindowAccessArrival_canonical hs ..
  | go => rw [exec_go]; exact execGo_canonical hs ..
  | stop => rw [exec_stop]; exact execStop_canonical hs ..
  | stepRecordArrival => rw [exec_stepRecordArrival]; exact execStepRecordArrival_canonical hs ..
  | snapshotCommit => rw [exec_snapshotCommit]; exact execSnapshotCommit_canonical hs ..
  | rollbackRequest => rw [exec_rollbackRequest]; exact execRollbackRequest_canonical hs ..
  | rollback => rw [exec_rollback]; exact execRollback_canonical hs ..
  | vaultBankFailure => rw [exec_vaultBankFailure]; exact execVaultBankFailure_canonical hs ..
  | graphLoad => rw [exec_graphLoad]; exact execGraphLoad_canonical hs ..
  | graphUnload => rw [exec_graphUnload]; exact execGraphUnload_canonical hs ..
  | graphCommandEnd => rw [exec_graphCommandEnd]; exact execGraphCommandEnd_canonical hs ..
  | contextEnable => rw [exec_contextEnable]; exact execContextEnable_canonical hs ..
  | vaultRangeDeclare => rw [exec_vaultRangeDeclare]; exact execVaultRangeDeclare_canonical hs ..
  | pbsetWrite => rw [exec_pbsetWrite]; exact execPbsetWrite_canonical hs ..
  | releaseDeliver => rw [exec_releaseDeliver]; exact execReleaseDeliver_canonical hs ..
  | releaseKill => rw [exec_releaseKill]; exact execReleaseKill_canonical hs ..
  | vacate => rw [exec_vacate]; exact execVacate_canonical hs ..
  | throtnWrite => rw [exec_throtnWrite]; exact execThrotnWrite_canonical hs ..
  | sensorUpdate => rw [exec_sensorUpdate]; exact execSensorUpdate_canonical hs ..
  | mgmtTrapEntry => rw [exec_mgmtTrapEntry]; exact execMgmtTrapEntry_canonical hs ..
  | columnEnterC1 => rw [exec_columnEnterC1]; exact execColumnEnterC1_canonical hs ..
  | columnEnterDeep => rw [exec_columnEnterDeep]; exact execColumnEnterDeep_canonical hs ..
  | columnWake => rw [exec_columnWake]; exact execColumnWake_canonical hs ..
  | flitReceive => rw [exec_flitReceive]; exact execFlitReceive_canonical hs ..
  | remoteStoreAck => rw [exec_remoteStoreAck]; exact execRemoteStoreAck_canonical hs ..
  | ingressRelease => rw [exec_ingressRelease]; exact execIngressRelease_canonical hs ..
  | hostRequest => rw [exec_hostRequest]; exact execHostRequest_canonical hs ..
  | bootgo => rw [exec_bootgo]; exact execBootgo_canonical hs ..
  | bootImageLoaded => rw [exec_bootImageLoaded]; exact execBootImageLoaded_canonical hs ..
  | attgo => rw [exec_attgo]; exact execAttgo_canonical hs ..
  | attestationDone => rw [exec_attestationDone]; exact execAttestationDone_canonical hs ..
  | warmrst => rw [exec_warmrst]; exact execWarmrst_canonical hs ..
  | coldReset => rw [exec_coldReset]; exact execColdReset_canonical hs ..
  | functionLevelReset => rw [exec_functionLevelReset]; exact execFunctionLevelReset_canonical hs ..
  | packagePowerLoss => rw [exec_packagePowerLoss]; exact execPackagePowerLoss_canonical hs ..
  | registerWrite => rw [exec_registerWrite]; exact execRegisterWrite_canonical hs ..
  | illegalEncoding => rw [exec_illegalEncoding]; exact illegal_canonical hs ..
  | fabricAccessCompletion => rw [exec_fabricAccessCompletion]; exact execFabricAccessCompletion_canonical hs ..
  | repairReplay => rw [exec_repairReplay]; exact execRepairReplay_canonical hs ..
  | frozenPortRelease => rw [exec_frozenPortRelease]; exact execFrozenPortRelease_canonical hs ..

@[simp] theorem fetchLine_mem (s : State) (a : Agent) (n pa : Nat) : (fetchLine s a n pa).mem = s.mem := by cases a <;> simp [fetchLine] <;> split <;> rfl

theorem fetchWord_canonical {s : State} (hs : s.mem.Canonical) (a : Agent) (va : Word) : (fetchWord s a va).1.mem.Canonical := by
  unfold fetchWord
  grind [fetchLine_mem, physRead_canonical, walked_canonical]

theorem fetchInstr_canonical {s : State} (hs : s.mem.Canonical) (a : Agent) : (fetchInstr s a).1.mem.Canonical := by
  unfold fetchInstr
  grind [fetchWord_canonical]

theorem boundary_canonical {s : State} (hs : s.mem.Canonical) {a : Agent} {t : State} (he : boundary s a = some t) : t.mem.Canonical := by
  unfold boundary at he
  split at he
  · cases he
  · dsimp only at he
    split at he
    · cases he; exact raisePending_canonical hs ..
    · split at he
      · cases he; exact deliverDue_canonical hs ..
      · split at he <;> cases he
        exact deliverUser_canonical hs ..

theorem attempt_canonical {s : State} (hs : s.mem.Canonical) (dec : List Byte → Except DecodeError (Instr × List Byte)) : Result.Canonical (attempt dec s) := by
  unfold attempt
  grind [boundary_canonical, exec_canonical, fetchInstr_canonical, illegal_canonical, takeTrap_canonical, Result.Canonical]

theorem coreEvents_canonical (n : CoreNo) : ∀ f ∈ coreEvents n, ∀ t : State, t.mem.Canonical → Result.Canonical (f t) := by
  unfold coreEvents
  refine List.forall_mem_append.2 ⟨List.forall_mem_append.2 ⟨List.forall_mem_append.2 ⟨?_, ?_⟩, ?_⟩, ?_⟩
  · simp only [List.forall_mem_cons]
    exact ⟨(fun _ h => execVqOperationPerformed_canonical h ..), (fun _ h => execMqOperationStart_canonical h ..),
    (fun _ h => execMatrixStep_canonical h ..), (fun _ h => execMqOperationPerformed_canonical h ..),
    (fun _ h => execAqOperationPerformed_canonical h ..), (fun _ h => execCalendarSlotIssue_canonical h ..),
    (fun _ h => execCalendarSlotIssue_canonical h ..), (fun _ h => execCalendarSlotIssue_canonical h ..),
    (fun _ h => execCalendarSlotIssue_canonical h ..), (fun _ h => execWindowAccessArrival_canonical h ..),
    (fun _ h => execWindowAccessArrival_canonical h ..), (fun _ h => execWindowAccessArrival_canonical h ..),
    (fun _ h => execWindowAccessArrival_canonical h ..), (fun _ h => execHomeSlicePerform_canonical h ..),
    (fun _ h => execHomeSlicePerform_canonical h ..), (fun _ h => execHomeSlicePerform_canonical h ..),
    (fun _ h => execHomeSlicePerform_canonical h ..), (fun _ h => execBankSideOperation_canonical h ..),
    (fun _ h => execReadCompletion_canonical h ..), (fun _ h => execWriteAck_canonical h ..),
    (fun _ h => execFabricAccessCompletion_canonical h ..), (fun _ h => execFabricAccessCompletion_canonical h ..),
    (fun _ h => execFabricAccessCompletion_canonical h ..), (fun _ h => execFabricAccessCompletion_canonical h ..),
    (fun _ h => execCopyCommandPerformed_canonical h ..), (fun _ h => execCopyCommandPerformed_canonical h ..),
    (fun _ h => execCompletionRecord_canonical h ..), (fun _ h => execInstallation_canonical h ..), by simp⟩
  · refine List.forall_mem_map.2 fun k _ t ht => ?_
    exact execRdvComplete_canonical ht ..
  · refine List.forall_mem_map.2 fun k _ t ht => ?_
    exact execPennantArrival_canonical ht ..
  · simp only [List.forall_mem_cons]
    exact ⟨(fun _ h => execTrapDelivery_canonical h ..), (fun _ h => execUserInterruptDelivery_canonical h ..), (fun _ h => execJobRetire_canonical h ..), (fun _ h => execJobStart_canonical h ..), by simp⟩

theorem walkEvents_canonical (s : State) (n : Nat) : ∀ f ∈ walkEvents s n, ∀ t : State, t.mem.Canonical → Result.Canonical (f t) := by
  intro f hf t ht
  obtain ⟨va, -, rfl⟩ := List.mem_map.1 hf
  exact execTranslationWalkComplete_canonical ht ..

theorem probeEvents_canonical (s : State) (p : PartNo) (c : CtxNo) : ∀ f ∈ probeEvents s p c, ∀ t : State, t.mem.Canonical → Result.Canonical (f t) := by
  intro f hf t ht
  obtain ⟨b, -, hf⟩ := List.mem_flatMap.1 hf
  split at hf
  · simp only [List.mem_cons, List.not_mem_nil, or_false] at hf
    obtain rfl | rfl := hf
    · exact execProbeOutcome_canonical ht ..
    · exact execReuseCopyPerformed_canonical ht ..
  · cases hf

theorem partEvents_canonical (s : State) (p : PartNo) : ∀ f ∈ partEvents s p, ∀ t : State, t.mem.Canonical → Result.Canonical (f t) := by
  unfold partEvents
  refine List.forall_mem_append.2 ⟨List.forall_mem_append.2 ⟨?_, ?_⟩, ?_⟩
  · refine List.forall_mem_flatMap.2 fun c _ => List.forall_mem_append.2 ⟨List.forall_mem_append.2 ⟨?_, ?_⟩, probeEvents_canonical s p c⟩
    · simp only [List.forall_mem_cons]
      exact ⟨(fun _ h => execGraphLoad_canonical h ..), (fun _ h => execGraphUnload_canonical h ..),
      (fun _ h => execGraphCommandEnd_canonical h ..), (fun _ h => execRollback_canonical h ..),
      (fun _ h => execStepRecordArrival_canonical h ..), (fun _ h => execSnapshotCommit_canonical h ..), by simp⟩
    · refine List.forall_mem_map.2 fun k _ t ht => ?_
      exact execPennantCompletion_canonical ht ..
  · refine List.forall_mem_map.2 fun k _ t ht => ?_
    exact execIntakePacketTake_canonical ht ..
  · simp only [List.forall_mem_cons]
    exact ⟨(fun _ h => execDispatchRound_canonical h ..), (fun _ h => execIngressRelease_canonical h ..), by simp⟩

theorem runEvents_canonical {l : List (State → Result)} (hl : ∀ f ∈ l, ∀ t, t.mem.Canonical → (f t).Canonical) {s : State} (hs : s.mem.Canonical) : Result.Canonical (runEvents l s) := by
  induction l generalizing s with
  | nil => exact hs
  | cons f r ih =>
    have hf := hl f (by simp) s hs
    unfold runEvents
    split
    next e => rw [e] at hf; exact ih (fun g hg => hl g (by simp [hg])) hf
    next => trivial
    next => trivial

theorem quiet_canonical {s : State} (hs : s.mem.Canonical) : Result.Canonical (quiet s) := by
  unfold quiet
  grind [coreEvents_canonical, partEvents_canonical, runEvents_canonical, walkEvents_canonical]

theorem takeTurn_canonical {s : State} (hs : s.mem.Canonical) (dec : List Byte → Except DecodeError (Instr × List Byte)) : Result.Canonical (takeTurn dec s) := by
  unfold takeTurn
  grind [attempt_canonical, quiet_canonical, Result.Canonical]

theorem afterMove_canonical {r : Result} (hr : r.Canonical) : (afterMove r).Canonical := by
  have hsettled {s : State} (hs : s.mem.Canonical) (a : Agent) : Result.Canonical (.next { s with turn := a }) := hs
  cases r with
  | next s => exact hsettled (settle_canonical hr) _
  | fault e => trivial
  | refused e => trivial

@[simp] theorem tickOn_mem (s : State) : (tickOn s).mem = s.mem := rfl

theorem stepWith_canonical {s : State} (hs : s.mem.Canonical) (dec : List Byte → Except DecodeError (Instr × List Byte)) : Result.Canonical (stepWith dec s) := by
  unfold stepWith
  grind [afterMove_canonical, exec_canonical, takeTurn_canonical, tickOn_mem, Result.Canonical]

/-- Settles O53: each operation that a step is made of keeps memory canonical, and so does the step. -/
theorem stepKeepsInvariant : Obligations.StepKeepsInvariant := by
  unfold Obligations.StepKeepsInvariant
  intro s t hs ht
  have h : Result.Canonical (step s) := stepWith_canonical ((Memory.canonical_iff _).2 hs) decode
  rw [ht] at h
  exact (Memory.canonical_iff _).1 h

end Sys2Proof.Machine
end

/-! What a cold reset leaves (R330). -/

namespace Sys2Proof.Machine

@[simp] theorem tget_nil {α : Type} (d : α) (k : Nat) : tget d [] k = d := rfl
@[simp] theorem partOf_reset (p : Nat) : partOf State.reset p = {} := rfl
@[simp] theorem ctxOf_reset (p c : Nat) : ctxOf State.reset p c = {} := rfl
@[simp] theorem coreOf_reset (n : Nat) : coreOf State.reset n = {} := rfl

/-- Settles O51: the reset state lists no partition, context, core or port, so that each of them reads as its default. -/
theorem resetState : Obligations.ResetState := by
  unfold Obligations.ResetState
  refine ⟨fun p => ?partition, fun p c => ?context, fun n => ?core, ?package⟩
  case partition => simp
  case context => simp [pennantOf, glstat, w64]
  case core => simp
  case package => simp [State.reset]

end Sys2Proof.Machine

/-! The package's own events: boot, attestation, resets, power and register writes (R17, R324, R325, R330, R332). -/

namespace Sys2Proof.Machine

open Sys2Proof.Config

/-- What each of some operations leaves alone, all of them do. -/
theorem foldl_keeps {σ α β : Type} {f : σ → α → σ} (g : σ → β) (hf : ∀ s x, g (f s x) = g s) (s : σ) (l : List α) : g (l.foldl f s) = g s := by
  induction l generalizing s with
  | nil => rfl
  | cons x r ih => exact (ih (f s x)).trans (hf s x)

theorem tfind_map {α β : Type} (t : Table α) (f : α → β) (k : Nat) : tfind (t.map (fun e => (e.1, f e.2))) k = (tfind t k).map f := by
  induction t with
  | nil => rfl
  | cons e r ih =>
    obtain ⟨j, v⟩ := e
    by_cases h : j = k <;> simp [tfind, h, ih]

theorem tget_map {α β : Type} (d : α) (t : Table α) (f : α → β) (k : Nat) : tget (f d) (t.map (fun e => (e.1, f e.2))) k = f (tget d t k) := by
  simp [tget, tfind_map, Option.getD_map]

/-! Boot (R324). -/

section
variable {s : State} {l : List Byte}

theorem bootFailure_size (hsize : 229376 < s.bootlen.toNat) : bootFailure s l = some 2 := if_pos hsize

theorem bootFailure_header (hsize : s.bootlen.toNat ≤ 229376) (hhead : ¬ (fieldAt l 0 4 = 0x464D4C4E ∧ fieldAt l 4 4 = encid.toNat)) : bootFailure s l = some 3 := by
  unfold bootFailure
  rw [if_neg (Nat.not_lt.2 hsize), if_pos (not_and_or.1 hhead)]

/-- With size and header right, the key's hash decides next. -/
theorem bootFailure_of_header (hsize : s.bootlen.toNat ≤ 229376) (hhead : fieldAt l 0 4 = 0x464D4C4E ∧ fieldAt l 4 4 = encid.toNat) :
    bootFailure s l = if shake256 ((l.drop 16).take 64) 32 ≠ leBytes 32 fusedKeyHash.toNat then some 4
      else if !imageSigned l then some 5 else if fieldAt l 8 8 < fusedSvn.toNat then some 6 else none := by
  unfold bootFailure
  rw [if_neg (Nat.not_lt.2 hsize), if_neg (by simp [hhead])]
  rfl

theorem imageSigned_iff : imageSigned l = true ↔
    80 + 29792 ≤ l.length ∧ slhVerify (l.take (l.length - 29792)) (l.drop (l.length - 29792)) ((l.drop 16).take 64) = true := by
  have hlen : 80 ≤ l.length - 29792 ↔ 80 + 29792 ≤ l.length := by omega
  simp [imageSigned, imageKey, hlen]

theorem bootFailure_hash (hsize : s.bootlen.toNat ≤ 229376) (hhead : fieldAt l 0 4 = 0x464D4C4E ∧ fieldAt l 4 4 = encid.toNat)
    (hhash : ¬ shake256 ((l.drop 16).take 64) 32 = leBytes 32 fusedKeyHash.toNat) : bootFailure s l = some 4 := by
  rw [bootFailure_of_header hsize hhead, if_pos hhash]

theorem bootFailure_signature (hsize : s.bootlen.toNat ≤ 229376) (hhead : fieldAt l 0 4 = 0x464D4C4E ∧ fieldAt l 4 4 = encid.toNat)
    (hhash : shake256 ((l.drop 16).take 64) 32 = leBytes 32 fusedKeyHash.toNat) (hsigned : ¬ imageSigned l = true) : bootFailure s l = some 5 := by
  rw [bootFailure_of_header hsize hhead, if_neg (not_not.2 hhash), if_pos (by simpa using hsigned)]

theorem bootFailure_version (hsize : s.bootlen.toNat ≤ 229376) (hhead : fieldAt l 0 4 = 0x464D4C4E ∧ fieldAt l 4 4 = encid.toNat)
    (hhash : shake256 ((l.drop 16).take 64) 32 = leBytes 32 fusedKeyHash.toNat) (hsigned : imageSigned l = true) :
    bootFailure s l = if fieldAt l 8 8 < fusedSvn.toNat then some 6 else none := by
  rw [bootFailure_of_header hsize hhead, if_neg (not_not.2 hhash), if_neg (by simp [hsigned])]

end

theorem execBootImageLoaded_idle {s : State} (h : s.bootgo = false ∨ s.bootstat ≠ 0xFF#8 ∨ hostDown s = true) : execBootImageLoaded s = .next s := by
  unfold execBootImageLoaded
  rw [if_pos (by simpa [or_assoc] using h)]

section
variable {s : State} (hgo : s.bootgo = true) (hstat : s.bootstat = 0xFF#8) (hup : hostDown s = false)
include hgo hstat hup

theorem execBootImageLoaded_fails {k : Nat} (hk : bootFailure s (hostBytes s s.bootaddr.toNat (min s.bootlen.toNat 229376)) = some k) :
    execBootImageLoaded s = .next { s with bootstat := BitVec.ofNat 8 k } := by
  simp [execBootImageLoaded, hgo, hstat, hup, hk]

theorem execBootImageLoaded_runs (hk : bootFailure s (hostBytes s s.bootaddr.toNat (min s.bootlen.toNat 229376)) = none) :
    let l := hostBytes s s.bootaddr.toNat (min s.bootlen.toNat 229376)
    execBootImageLoaded s = .next { s with
      bootstat := 0#8, bootHash := shake256 l 64, bootSvn := BitVec.ofNat 64 (fieldAt l 8 8), mem := memWrite s.mem (sramAt 0) l
      mgmt := { s.mgmt with running := true, stream := { s.mgmt.stream with pc := 80#64, run := .running } } } := by
  simp [execBootImageLoaded, hgo, hstat, hup, hk, w64, imageSvn]

end

/-! Attestation (R325, R332). -/

/-- A function that attests already takes no other request. -/
theorem execAttgo_busy {s : State} {fn : BitVec 5} (hb : (tget {} s.attests fn.toNat).busy = true) : execAttgo fn s = .next s := by
  simp [execAttgo, attGo, hb]

theorem execAttgo_idle {s : State} {fn : BitVec 5} (hfn : fn.toNat ≤ 16) (hb : (tget {} s.attests fn.toNat).busy = false) :
    let a := tget {} s.attests fn.toNat
    execAttgo fn s = .next { s with attests := tset s.attests fn.toNat (if a.addr.toNat % 64 = 0 then { a with stat := 1#2, busy := true, askNonce := a.nonce, askAddr := a.addr } else { a with stat := 2#2 }) } := by
  by_cases h : (tget {} s.attests fn.toNat).addr.toNat % 64 = 0 <;> simp [execAttgo, attGo, Nat.not_lt.2 hfn, hb, h]

theorem execAttestationDone_busy {s : State} {fn : BitVec 5} (hb : (tget {} s.attests fn.toNat).busy = true) :
    ∃ u, execAttestationDone fn s = .next u ∧ u.locked = true ∧ (tget {} u.attests fn.toNat).busy = false ∧ (tget {} u.attests fn.toNat).stat = 0#2 := by
  simp [execAttestationDone, hb]

theorem execAttestationDone_idle {s : State} {fn : BitVec 5} (hb : (tget {} s.attests fn.toNat).busy = false) : execAttestationDone fn s = .next s := by
  simp [execAttestationDone, hb]

/-! Resets (R17, R330). -/

/-- A warm reset leaves CECOUNT of each partition, and nothing else of it. -/
theorem partOf_warmReset (s : State) (q : Nat) : partOf (warmReset s) q = { cecount := (partOf s q).cecount } :=
  tget_map ({} : Partition) s.parts (fun x => ({ cecount := x.cecount } : Partition)) q

/-- Host memory is not the device's: a byte of it that the cells kept hold reads as before. -/
theorem memRead_host_filter {m k : Memory} {x : Nat} (hlo : hostBase ≤ x) (hhi : x < physEnd)
    (hk : k.cells = m.cells.filter (fun e => hostBase ≤ e.1 && e.1 < physEnd)) : memRead k x = memRead m x := by
  have hout : x < coreBase ∨ coreBase + nCores * coreStride ≤ x := .inr (le_trans (by decide) hlo)
  have hfind : tfind k.cells x = tfind m.cells x := by
    rw [hk]
    exact tfind_filter_kept fun e he => by simp [he, hlo, hhi]
  simp [memRead, tget, hfind, dflt_outside_cores _ hout]

@[simp] theorem writeBack_parts (s : State) (x : Line) : (writeBack s x).parts = s.parts := by
  unfold writeBack
  repeat' split
  all_goals rfl

@[simp] theorem dropLines_parts (s : State) (n : Nat) (p : Line → Bool) : (dropLines s n p).parts = s.parts :=
  foldl_keeps State.parts writeBack_parts ..

@[simp] theorem resetColumn_parts (s : State) (n : Nat) : (resetColumn s n).parts = s.parts := dropLines_parts ..

theorem foldl_resetColumn_parts (s : State) (l : List Nat) : (l.foldl resetColumn s).parts = s.parts := foldl_keeps State.parts resetColumn_parts ..

theorem step_without_power {t : State} (hp : t.powered = false) (ha : t.agenda = []) : step t = .fault .noPower := by
  simp [step, stepWith, hp, ha]

/-- Settles O50, event by event. -/
theorem packageEventResults : Obligations.PackageEventResults := by
  unfold Obligations.PackageEventResults
  intro s
  refine ⟨rfl, fun hgo hstat hup => ⟨?_, ?_, ?_, ?_, ?_, ?_, ?_⟩, execBootImageLoaded_idle, fun fn hfn => ⟨fun hb => ?_, fun hb => ?_⟩,
    ?warm, ?cold, fun p => ?flr, rfl, fun t => step_without_power, rfl, fun hl pkg port mask => ?_, fun hl pkg port hport => ?_, fun hi => ?_, fun hi => ?_⟩
  · exact fun h => bootFailure_size (Nat.not_le.1 h)
  · exact bootFailure_header
  · exact bootFailure_hash
  · exact fun hsize hhead hhash hsigned => bootFailure_signature hsize hhead hhash (mt imageSigned_iff.1 hsigned)
  · exact fun hsize hhead hhash hsigned => bootFailure_version hsize hhead hhash (imageSigned_iff.2 hsigned)
  · exact fun k => execBootImageLoaded_fails hgo hstat hup
  · exact execBootImageLoaded_runs hgo hstat hup
  · exact ⟨execAttgo_busy hb, execAttestationDone_busy hb⟩
  · exact ⟨execAttestationDone_idle hb, execAttgo_idle hfn hb⟩
  case warm =>
    exact ⟨warmReset s, rfl, rfl, rfl, rfl, fun q => by rw [partOf_warmReset], fun q => by rw [partOf_warmReset], rfl, rfl, rfl, rfl, rfl, rfl, rfl, rfl, rfl, rfl, rfl⟩
  case cold =>
    refine ⟨_, rfl, rfl, rfl, rfl, rfl, rfl, fun e he => ?_, fun x hlo hhi => memRead_host_filter hlo hhi rfl⟩
    simp at he
    exact he.2.1
  case flr =>
    refine ⟨_, rfl, ?_⟩
    simp [partOf, modPart, foldl_resetColumn_parts]
  · simp [exec_registerWrite, execRegisterWrite, hl]
  · simp [exec_registerWrite, execRegisterWrite, hl, hport]
  · simp [exec_illegalEncoding, execIllegalEncoding, illegal, hi, trapsWith]
  · simp [exec_illegalEncoding, execIllegalEncoding, illegal, hi]

end Sys2Proof.Machine

/-! What accesses leave of jobs and launches. A read in the translation of a context recalls lines, fills TLBs, wakes columns and counts corrections; it changes no slot of a core and nothing of a context. -/

namespace Sys2Proof.Machine

/-! Cores, partitions and contexts after an update. -/

theorem coreOf_modCore_any (s : State) (n m : Nat) (f : Core → Core) : coreOf (modCore s n f) m = if m = n then f (coreOf s m) else coreOf s m := by
  split
  next h => rw [h, coreOf_modCore]
  next h => rw [coreOf_modCore_other s f h]

theorem partOf_modPart_any (s : State) (p q : Nat) (f : Partition → Partition) : partOf (modPart s p f) q = if q = p then f (partOf s q) else partOf s q := by
  split
  next h => rw [h, partOf_modPart]
  next h => exact tget_tset_other _ _ _ h

@[simp] theorem ctxOf_modCtx (s : State) (p c : Nat) (f : Context → Context) : ctxOf (modCtx s p c f) p c = f (ctxOf s p c) := by
  simp [ctxOf, modCtx]

theorem ctxOf_modCtx_other (s : State) {p c q d : Nat} (f : Context → Context) (h : ¬ (q = p ∧ d = c)) : ctxOf (modCtx s p c f) q d = ctxOf s q d := by
  unfold ctxOf modCtx
  rw [partOf_modPart_any]
  split
  next hq => exact tget_tset_other _ _ _ fun hd => h ⟨hq, hd⟩
  next => rfl

theorem ctxOf_modCtx_any (s : State) (p c q d : Nat) (f : Context → Context) :
    ctxOf (modCtx s p c f) q d = if q = p ∧ d = c then f (ctxOf s q d) else ctxOf s q d := by
  split
  next h => obtain ⟨rfl, rfl⟩ := h; exact ctxOf_modCtx ..
  next h => exact ctxOf_modCtx_other s f h

/-! The frame. -/

/-- From s to u no job slot of a core and no context changes. -/
structure KeepsJobs (s u : State) : Prop where
  slots : ∀ n j, slotOf (coreOf u n) j = slotOf (coreOf s n) j
  ctxs : ∀ p, (partOf u p).ctxs = (partOf s p).ctxs

namespace KeepsJobs

variable {s u w : State}

theorem refl (s : State) : KeepsJobs s s := ⟨fun _ _ => rfl, fun _ => rfl⟩

theorem trans (h : KeepsJobs s u) (g : KeepsJobs u w) : KeepsJobs s w :=
  ⟨fun n j => (g.slots n j).trans (h.slots n j), fun p => (g.ctxs p).trans (h.ctxs p)⟩

theorem ctx (h : KeepsJobs s u) (p c : Nat) : ctxOf u p c = ctxOf s p c := by rw [ctxOf, ctxOf, h.ctxs]

theorem launch (h : KeepsJobs s u) (p c : Nat) : launchOf u p c = launchOf s p c := by rw [launchOf, launchOf, h.ctx]

theorem withMem (h : KeepsJobs s u) (m : Memory) : KeepsJobs s { u with mem := m } := ⟨h.slots, h.ctxs⟩

theorem withDieXlat (h : KeepsJobs s u) (t : Table (List TlbEntry)) : KeepsJobs s { u with dieXlat := t } := ⟨h.slots, h.ctxs⟩

theorem modCore (s : State) (n : Nat) {f : Core → Core} (hf : ∀ c j, slotOf (f c) j = slotOf c j) : KeepsJobs s (modCore s n f) := by
  refine ⟨fun m j => ?_, fun p => rfl⟩
  rw [coreOf_modCore_any]
  split
  · exact hf ..
  · rfl

theorem modPart (s : State) (p : Nat) {f : Partition → Partition} (hf : ∀ q, (f q).ctxs = q.ctxs) : KeepsJobs s (modPart s p f) := by
  refine ⟨fun n j => rfl, fun q => ?_⟩
  rw [partOf_modPart_any]
  split
  · exact hf _
  · rfl

theorem foldl {α : Type} {f : State → α → State} (hf : ∀ s x, KeepsJobs s (f s x)) (s : State) (l : List α) : KeepsJobs s (l.foldl f s) := by
  induction l generalizing s with
  | nil => exact refl s
  | cons x r ih => exact (hf s x).trans (ih _)

end KeepsJobs

/-! Accesses. -/

theorem writeBack_keepsJobs (s : State) (x : Line) : KeepsJobs s (writeBack s x) := by
  unfold writeBack
  repeat' split
  · exact (KeepsJobs.refl s).withMem _
  · exact .refl s
  · exact .refl s

theorem recallLine_keepsJobs (s : State) (me : Option Nat) (pa len : Nat) : KeepsJobs s (recallLine s me pa len) := by
  refine .foldl (fun t e => ?_) s _
  split
  · exact .refl t
  · exact (KeepsJobs.foldl writeBack_keepsJobs t _).trans (.modCore _ _ fun _ _ => rfl)

theorem countCorrected_keepsJobs (s : State) (p k : Nat) : KeepsJobs s (countCorrected s p k) := by
  unfold countCorrected
  split
  · exact .refl s
  · exact .modPart s p fun _ => rfl

theorem fillTlb_keepsJobs (s : State) (n : Nat) (e : TlbEntry) : KeepsJobs s (fillTlb s n e) := .modCore s n fun _ _ => rfl

theorem walkRecalls_keepsJobs (q : Partition) (va lv : Nat) : ∀ (s : State) (table : Nat), KeepsJobs s (walkRecalls s q va table lv) := by
  induction lv with
  | zero => exact fun s _ => .refl s
  | succ lv ih =>
    intro s table
    have hr := recallLine_keepsJobs s none (walkEntry table va lv) 8
    unfold walkRecalls
    dsimp only
    repeat' split
    · exact .refl s
    · exact hr
    · exact hr
    · exact hr.trans (ih ..)

theorem walkMade_keepsJobs (s : State) (p c : Nat) (va : Word) : KeepsJobs s (walkMade s p c va) :=
  (walkRecalls_keepsJobs ..).trans (countCorrected_keepsJobs ..)

theorem walked_keepsJobs (s : State) (w : Who) (va : Word) : KeepsJobs s (walked s w va) := by
  have hm := @walkMade_keepsJobs
  -- the kernel would evaluate a walk of four levels: with the walk a variable, it cannot
  generalize hf : walked = f
  delta walked at hf
  generalize walkMade = made at hm hf
  generalize walkFrom = walk at hf
  as_aux_lemma =>
    subst hf
    dsimp only
    repeat' split
    · exact .refl s
    · exact hm ..
    · exact .refl s
    · exact fillTlb_keepsJobs ..
    · exact ((hm ..).withDieXlat _).trans (fillTlb_keepsJobs ..)
    · exact hm ..

theorem wakeColumn_keepsJobs (s : State) (n : Nat) : KeepsJobs s (wakeColumn s n) := by
  unfold wakeColumn
  split
  · exact .refl s
  · exact .modCore s n fun _ _ => rfl

theorem storeGet_keepsJobs (s : State) (p pa len key : Nat) : KeepsJobs s (storeGet s p pa len key).1 := by
  unfold storeGet
  split <;> exact countCorrected_keepsJobs ..

theorem physRead_keepsJobs (s : State) (p pa len key : Nat) : KeepsJobs s (physRead s p pa len key).1 := by
  have hget (t : State) (k : Nat) : KeepsJobs t (match storeGet t p pa len k with | (u, some l) => (u, Except.ok l) | (u, none) => (u, .error cDataUe) : State × Except Byte (List Byte)).1 := by
    have := storeGet_keepsJobs t p pa len k
    split <;> simp_all
  unfold physRead
  dsimp only
  cases region pa with
  | hbm => exact (recallLine_keepsJobs ..).trans (hget ..)
  | record => exact (recallLine_keepsJobs ..).trans (hget ..)
  | host =>
    dsimp only
    split
    · exact .refl s
    · exact hget ..
  | vault n off =>
    have hw := wakeColumn_keepsJobs s n
    dsimp only
    split
    · exact hw
    · split
      · exact hw
      · exact hw.trans (hget ..)
  | core n off => exact wakeColumn_keepsJobs s n
  | pctl q off => exact .refl s
  | cap off => exact .refl s
  | reserved => exact .refl s

theorem vaReadFrom_keepsJobs (w : Who) (fuel : Nat) : ∀ (s : State) (va : Word) (len : Nat), KeepsJobs s (vaReadFrom w fuel s va len).1 := by
  induction fuel with
  | zero => exact fun s _ _ => .refl s
  | succ fuel ih =>
    intro s va len
    have hw := walked_keepsJobs s w va
    unfold vaReadFrom
    split
    · exact .refl s
    · split
      next pa key _ =>
        have hp := hw.trans (physRead_keepsJobs (walked s w va) w.p pa (ruleRun w pa (pageRun va.toNat len)) key)
        dsimp only
        split
        · exact hp
        · have hr := hp.trans (ih (physRead (walked s w va) w.p pa (ruleRun w pa (pageRun va.toNat len)) key).1 (va + w64 (ruleRun w pa (pageRun va.toNat len))) (len - ruleRun w pa (pageRun va.toNat len)))
          split <;> exact hr
      next => exact hw

theorem vaRead_keepsJobs (s : State) (w : Who) (va : Word) (len : Nat) : KeepsJobs s (vaRead s w va len).1 := vaReadFrom_keepsJobs ..

theorem keepFetch_keepsJobs (s : State) (p c n : Nat) (nd : Node) : KeepsJobs s (keepFetch s p c n nd).1 := by
  unfold keepFetch
  split
  · exact .refl s
  · exact vaRead_keepsJobs ..

theorem keepPrefetch_keepsJobs (s : State) (p c n j node : Nat) : KeepsJobs s (keepPrefetch s p c n j node) := by
  have hf := keepFetch_keepsJobs s p c n (nodeOf s p c node)
  unfold keepPrefetch
  dsimp only
  split
  · exact .refl s
  · split
    next e => rw [e] at hf; exact hf.withMem _
    next e => rw [e] at hf; exact hf

theorem layDescs_keepsJobs (s : State) (n j c node : Nat) (kr : Kernel) : KeepsJobs s (layDescs s n j c node kr) := by
  unfold layDescs
  exact ((KeepsJobs.refl s).withMem _).trans (.foldl (fun t _ => (KeepsJobs.refl t).withMem _) _ _)

theorem prefetchLines_keepsJobs (s : State) (p c n : Nat) (va : Word) (count : Nat) : KeepsJobs s (prefetchLines s p c n va count) := by
  refine .foldl (fun t i => ?_) s _
  dsimp only
  split
  · exact (walked_keepsJobs ..).trans (.modCore _ _ fun _ _ => rfl)
  · exact walked_keepsJobs ..

theorem prefetchCode_keepsJobs (s : State) (p c n : Nat) (kr : Kernel) : KeepsJobs s (prefetchCode s p c n kr) := by
  refine .foldl (fun t y => ?_) s _
  dsimp only
  repeat' split
  · exact .refl t
  · exact prefetchLines_keepsJobs ..
  · exact .refl t

end Sys2Proof.Machine

/-! Scheduling (R47, R52 to R56, R60): what a selection takes, and what a round selects. -/

namespace Sys2Proof.Machine

/-! Launches after an update. -/

theorem ctxOf_modLaunch (s : State) (p c : Nat) (f : Launch → Launch) :
    ctxOf (modLaunch s p c f) p c = { ctxOf s p c with launch := (ctxOf s p c).launch.map f } := ctxOf_modCtx ..

theorem launchOf_modLaunch {s : State} {p c : Nat} (h : (ctxOf s p c).launch ≠ none) (f : Launch → Launch) : launchOf (modLaunch s p c f) p c = f (launchOf s p c) := by
  obtain ⟨la, hla⟩ := Option.ne_none_iff_exists'.1 h
  simp [launchOf, ctxOf_modLaunch, hla]

theorem launchOf_modCtx {s : State} {p c : Nat} {f : Context → Context} (hf : ∀ x, (f x).launch = x.launch) : launchOf (modCtx s p c f) p c = launchOf s p c := by
  simp [launchOf, hf]

/-- Progress restarts the stall window, and touches no task. -/
theorem launchOf_progress (s : State) (p c : Nat) : launchOf (progress s p c) p c = { launchOf s p c with quietSince := none } := by
  unfold progress
  cases h : (ctxOf s p c).launch <;> simp [launchOf, h]

/-- A context that has a task has a launch. -/
theorem launch_of_taskOf {s : State} {p c k : Nat} {t : Task} (h : taskOf (launchOf s p c) k = some t) : (ctxOf s p c).launch ≠ none := by
  intro hn
  simp [launchOf, hn, taskOf, tfind] at h

/-! Tasks and ages. -/

theorem taskOf_modTask_same {la : Launch} {k : Nat} {t : Task} (h : taskOf la k = some t) (f : Task → Task) : taskOf (modTask la k f) k = some (f t) := by
  unfold taskOf at *
  simp [modTask, h]

theorem taskOf_modTask_other (la : Launch) {i k : Nat} (f : Task → Task) (h : i ≠ k) : taskOf (modTask la k f) i = taskOf la i := by
  unfold modTask taskOf
  split
  · exact tfind_tset_other _ _ h
  · rfl

@[simp] theorem modTask_ages (la : Launch) (k : Nat) (f : Task → Task) : (modTask la k f).ages = la.ages := by
  unfold modTask; split <;> rfl

@[simp] theorem modTask_probes (la : Launch) (k : Nat) (f : Task → Task) : (modTask la k f).probes = la.probes := by
  unfold modTask; split <;> rfl

@[simp] theorem reserveOut_ages (g : Graph) (la : Launch) (k node : Nat) : (reserveOut g la k node).ages = la.ages := by
  rw [reserveOut, modTask_ages]
  refine foldl_keeps Launch.ages ?_ ..
  exact fun _ _ => rfl

@[simp] theorem takeTokens_tasks (g : Graph) (la : Launch) (k node : Nat) : (takeTokens g la k node).tasks = la.tasks := by
  rw [takeTokens]
  refine foldl_keeps Launch.tasks ?_ ..
  exact fun _ _ => rfl

/-- A task that takes its reservations is still there, and holds them. -/
theorem taskOf_reserveOut {g : Graph} {la : Launch} {k : Nat} {t : Task} (h : taskOf la k = some t) (node : Nat) : taskOf (reserveOut g la k node) k = some { t with reserved := true } := by
  rw [reserveOut]
  refine taskOf_modTask_same ?_ _
  rw [taskOf, foldl_keeps Launch.tasks ?_]
  · exact h
  · exact fun _ _ => rfl

@[simp] theorem takeTask_ages (g : Graph) (la : Launch) (k : Nat) (t : Task) : (takeTask g la k t).ages = tset la.ages t.node 0 := by
  unfold takeTask
  dsimp only
  split
  · rfl
  · rw [reserveOut_ages]

/-- A task taken is still there. -/
theorem taskOf_takeTask {g : Graph} {la : Launch} {k : Nat} {t u : Task} (h : taskOf la k = some u) : ∃ v, taskOf (takeTask g la k t) k = some v := by
  unfold takeTask taskOf
  simp only [takeTokens_tasks]
  split
  · exact ⟨u, h⟩
  · exact ⟨_, taskOf_reserveOut h _⟩

/-! The ranking of nodes (R54). -/

section
variable {g : Graph} {la : Launch}

theorem ranksAbove_irrefl (a : Nat) : ranksAbove g la a a = false := by simp [ranksAbove]

theorem ranksAbove_asymm {a b : Nat} (h : ranksAbove g la a b = true) : ranksAbove g la b a = false := by
  unfold ranksAbove at *
  dsimp only at *
  by_cases ha : tget 0 la.ages a = 255 <;> by_cases hb : tget 0 la.ages b = 255 <;> simp_all <;> omega

/-- What ranks above a node ranks above whatever does not rank above that node. -/
theorem ranksAbove_of_not {a b c : Nat} (hab : ranksAbove g la a b = true) (hcb : ranksAbove g la c b = false) : ranksAbove g la a c = true := by
  unfold ranksAbove at *
  dsimp only at *
  by_cases ha : tget 0 la.ages a = 255 <;> by_cases hb : tget 0 la.ages b = 255 <;> by_cases hc : tget 0 la.ages c = 255 <;> simp_all <;> omega

/-- A node of a list that ranks highest in it, the lowest of equals. -/
def IsBest (g : Graph) (la : Launch) (l : List Nat) (n : Nat) : Prop :=
  n ∈ l ∧ ∀ m ∈ l, ranksAbove g la m n = false ∧ (m < n → ranksAbove g la n m = true)

theorem IsBest.append_above {l : List Nat} {k m : Nat} (hm : IsBest g la l m) (h : ranksAbove g la k m = true) : IsBest g la (l ++ [k]) k := by
  refine ⟨by simp, fun a ha => ?_⟩
  rcases List.mem_append.1 ha with ha | ha
  · have hka := ranksAbove_of_not h (hm.2 a ha).1
    exact ⟨ranksAbove_asymm hka, fun _ => hka⟩
  · obtain rfl : a = k := by simpa using ha
    exact ⟨ranksAbove_irrefl a, fun h => absurd h (lt_irrefl _)⟩

theorem IsBest.append_below {l : List Nat} {k m : Nat} (hm : IsBest g la l m) (hlt : m < k) (h : ranksAbove g la k m = false) : IsBest g la (l ++ [k]) m := by
  refine ⟨List.mem_append_left _ hm.1, fun a ha => ?_⟩
  rcases List.mem_append.1 ha with ha | ha
  · exact hm.2 a ha
  · obtain rfl : a = k := by simpa using ha
    exact ⟨h, fun h => absurd h (Nat.lt_asymm hlt)⟩

theorem bestNode_append (l : List Nat) (k : Nat) :
    bestNode g la (l ++ [k]) = match bestNode g la l with | none => some k | some m => if ranksAbove g la k m then some k else some m :=
  List.foldl_append

/-- Of rising nodes, `bestNode` finds the one that ranks highest, the lowest of equals. -/
theorem bestNode_spec (l : List Nat) (hl : l.Pairwise (· < ·)) : (bestNode g la l = none → l = []) ∧ ∀ n, bestNode g la l = some n → IsBest g la l n := by
  induction l using List.reverseRecOn with
  | nil => exact ⟨fun _ => rfl, fun n h => by simp [bestNode] at h⟩
  | append_singleton l k ih =>
    obtain ⟨hl', -, hlt⟩ := List.pairwise_append.1 hl
    obtain ⟨hnone, hbest⟩ := ih hl'
    rw [bestNode_append]
    cases hm : bestNode g la l with
    | none =>
      obtain rfl := hnone hm
      refine ⟨by simp, fun n hn => ?_⟩
      obtain rfl : k = n := by simpa using hn
      exact ⟨by simp, by simp [ranksAbove_irrefl]⟩
    | some m =>
      refine ⟨by dsimp only; split <;> simp, fun n hn => ?_⟩
      cases hkm : ranksAbove g la k m with
      | true =>
        obtain rfl : k = n := by simpa [hkm] using hn
        exact (hbest m hm).append_above hkm
      | false =>
        obtain rfl : m = n := by simpa [hkm] using hn
        exact (hbest m hm).append_below (hlt m (hbest m hm).1 k (by simp)) hkm

end

/-! The core that takes a dispatch (R56). -/

/-- The element of a rising list that is found first is the least of those that could be. -/
theorem find?_least {l : List Nat} (hl : l.Pairwise (· < ·)) {q : Nat → Bool} {n m : Nat} (hn : l.find? q = some n) (hm : m ∈ l) (hq : q m = true) : n ≤ m := by
  induction l with
  | nil => simp at hm
  | cons a r ih =>
    obtain ⟨ha, hr⟩ := List.pairwise_cons.1 hl
    cases hqa : q a with
    | true =>
      obtain rfl : a = n := by simpa [hqa] using hn
      rcases List.mem_cons.1 hm with rfl | hm
      · exact le_rfl
      · exact (ha m hm).le
    | false =>
      rcases List.mem_cons.1 hm with rfl | hm
      · rw [hqa] at hq; cases hq
      · exact ih hr (by simpa [hqa] using hn) hm

/-- Core n runs a job of the node. -/
def RunsNode (s : State) (p c node n : Nat) : Prop := ∃ j, (coreOf s n).active = some j ∧ (jobOf s n j).part = p ∧ (jobOf s n j).ctx = c ∧ (jobOf s n j).node = node

/-- Of two open cores, m is taken before n: it runs a job of the node, or failing that keeps the node's regions, or failing that is the lower one. -/
def TakenBefore (s : State) (p c node m n : Nat) : Prop :=
  let runs := RunsNode s p c node
  let keeps (n : Nat) : Prop := (coreOf s n).resident = some (node, c)
  (runs m ∧ (runs n → m ≤ n)) ∨ (¬ runs m ∧ ¬ runs n ∧ keeps m ∧ (keeps n → m ≤ n)) ∨ (¬ runs m ∧ ¬ runs n ∧ ¬ keeps m ∧ ¬ keeps n ∧ m ≤ n)

theorem pickCore_spec {s : State} {p c node : Nat} {l : List Nat} (hl : l.Pairwise (· < ·)) {n : Nat} (h : pickCore s p c node l = some n) :
    n ∈ l ∧ ∀ m ∈ l, TakenBefore s p c node n m := by
  unfold pickCore at h
  dsimp only at h
  generalize hruns : (fun n => match (coreOf s n).active with | some j => runsCtx s n p c && (jobOf s n j).node == node | none => false : Nat → Bool) = runs at h
  have hiff (m : Nat) : runs m = true ↔ RunsNode s p c node m := by
    subst hruns
    cases ha : (coreOf s m).active <;> simp [RunsNode, runsCtx, ha, and_assoc]
  cases hr : l.find? runs with
  | some k =>
    obtain rfl : k = n := by simpa [hr] using h
    exact ⟨List.mem_of_find?_eq_some hr, fun m hm => .inl ⟨(hiff k).1 (List.find?_some hr), fun h => find?_least hl hr hm ((hiff m).2 h)⟩⟩
  | none =>
    have hno (m : Nat) (hm : m ∈ l) : ¬ RunsNode s p c node m := fun h => by simpa [(hiff m).2 h] using List.find?_eq_none.1 hr m hm
    simp only [hr] at h
    cases hk : l.find? (fun n => (coreOf s n).resident == some (node, c)) with
    | some k =>
      obtain rfl : k = n := by simpa [hk] using h
      have hmem := List.mem_of_find?_eq_some hk
      exact ⟨hmem, fun m hm => .inr (.inl ⟨hno k hmem, hno m hm, by simpa using List.find?_some hk, fun h => find?_least hl hk hm (by simpa using h)⟩)⟩
    | none =>
      have hnk (m : Nat) (hm : m ∈ l) : ¬ (coreOf s m).resident = some (node, c) := by simpa using List.find?_eq_none.1 hk m hm
      simp only [hk] at h
      obtain ⟨r, rfl⟩ := List.head?_eq_some_iff.1 h
      have hle (m : Nat) (hm : m ∈ n :: r) : n ≤ m := by
        rcases List.mem_cons.1 hm with rfl | hm
        · exact le_rfl
        · exact ((List.pairwise_cons.1 hl).1 m hm).le
      exact ⟨by simp, fun m hm => .inr (.inr ⟨hno n (by simp), hno m hm, hnk n (by simp), hnk m hm, hle m hm⟩)⟩

/-- The cores of a partition, and so its open ones, rise. -/
theorem coresOf_rising (s : State) (p : Nat) : (coresOf s p).Pairwise (· < ·) := List.pairwise_lt_range.filter _

theorem openCores_rising (s : State) (p c die : Nat) : (openCores s p c die).Pairwise (· < ·) := (coresOf_rising s p).filter _

theorem freeSlot_of_open {s : State} {p c die n : Nat} (h : n ∈ openCores s p c die) : ∃ j, freeSlot (coreOf s n) = some j := by
  have h := (List.mem_filter.1 h).2
  simp only [Bool.and_eq_true] at h
  exact Option.isSome_iff_exists.1 h.2

/-! Eligible nodes (R52, R53). -/

theorem oldestTask_spec {s : State} {p c die node k : Nat} {la : Launch} {t : Task} (h : oldestTask s p c la die node = some (k, t)) : taskOf la k = some t ∧ t.st = .ready := by
  unfold oldestTask at h
  split at h
  next k' hk =>
    cases ht : taskOf la k' with
    | none => simp [ht] at h
    | some u =>
      obtain ⟨rfl, rfl⟩ : k' = k ∧ u = t := by simpa [ht] using h
      have hrun := List.find?_some hk
      simp only [canRun, ht, Bool.and_eq_true, beq_iff_eq] at hrun
      exact ⟨ht, hrun.1⟩
  next => cases h

theorem eligible_spec {s : State} {p c die node k : Nat} {t : Task} (h : eligible s p c die node = some (k, t)) :
    oldestTask s p c (launchOf s p c) die node = some (k, t) ∧ (t.reserved = true ∨ outFull (graphOf s p c) (launchOf s p c) node = false) := by
  unfold eligible at h
  dsimp only at h
  split at h
  next => cases h
  next k' t' ho =>
    split at h
    next => cases h
    next hfull =>
      split at h
      next =>
        obtain ⟨rfl, rfl⟩ : k' = k ∧ t' = t := by simpa using h
        exact ⟨ho, by simpa [Decidable.or_iff_not_imp_left] using hfull⟩
      next => cases h

/-! A task dispatched, and a task probed (R52, R60). -/

/-- The launch that a dispatch leaves: the task is taken and dispatched, and the stall window restarted. -/
theorem launchOf_dispatchTask {s : State} {p c n k j : Nat} {t u : Task} (hj : freeSlot (coreOf s n) = some j) (ht : taskOf (launchOf s p c) k = some u) :
    launchOf (dispatchTask s p c n k t) p c = { modTask (takeTask (graphOf s p c) (launchOf s p c) k t) k (fun t => { t with st := .dispatched }) with quietSince := none } := by
  have hslot (v : State) (f : Slot → Slot) : launchOf (modSlot v n j f) p c = launchOf v p c := rfl
  unfold dispatchTask
  simp only [hj]
  rw [launchOf_progress, (prefetchCode_keepsJobs ..).launch, hslot, (keepPrefetch_keepsJobs ..).launch, (layDescs_keepsJobs ..).launch, (wakeColumn_keepsJobs ..).launch,
    launchOf_modLaunch (launch_of_taskOf ht)]

/-- The slot that a dispatch fills holds the task's job, staged. -/
theorem slotOf_dispatchTask {s : State} {p c n k j : Nat} {t : Task} (hj : freeSlot (coreOf s n) = some j) :
    let sl := slotOf (coreOf (dispatchTask s p c n k t) n) j
    sl.st = .staged ∧ sl.job = stagedJob p c k t (nodeOf s p c t.node) ∧ sl.resumed = false := by
  have hprogress (v : State) : coreOf (progress v p c) n = coreOf v n := rfl
  unfold dispatchTask
  simp only [hj]
  rw [hprogress, (prefetchCode_keepsJobs ..).slots, modSlot, coreOf_modCore, slotOf_setSlot_same]
  exact ⟨rfl, rfl, rfl⟩

/-- The launch that the start of a probe leaves: the task is taken and probed, and the probe in flight. -/
theorem launchOf_startProbe {s : State} {p c die k : Nat} {t u : Task} (ht : taskOf (launchOf s p c) k = some u) :
    let la := modTask (takeTask (graphOf s p c) (launchOf s p c) k t) k (fun t => { t with st := .probing })
    launchOf (startProbe s p c die k t) p c = { la with probes := la.probes ++ [{ task := k, die := die, stamp := (ctxOf s p c).arrivals }], quietSince := none } := by
  unfold startProbe
  dsimp only
  rw [launchOf_progress, launchOf_modCtx ?_, launchOf_modLaunch (launch_of_taskOf ht)]
  exact fun _ => rfl

/-! Selections and rounds. -/

theorem selectOnce_eq_some {s t : State} {p c die node : Nat} (h : selectOnce s p c die = some (t, node)) :
    ∃ k tk, eligible s p c die node = some (k, tk) ∧ IsBest (graphOf s p c) (launchOf s p c) (eligibleNodes s p c die) node
      ∧ (awaitsProbe (nodeOf s p c node) tk = true → t = startProbe s p c die k tk)
      ∧ (awaitsProbe (nodeOf s p c node) tk = false → ∃ n, pickCore s p c node (openCores s p c die) = some n ∧ t = dispatchTask s p c n k tk) := by
  have hrise : (eligibleNodes s p c die).Pairwise (· < ·) := List.pairwise_lt_range.filter _
  unfold selectOnce at h
  change (match bestNode (graphOf s p c) (launchOf s p c) (eligibleNodes s p c die) with | none => none | some node => _) = _ at h
  split at h
  next => cases h
  next m hm =>
    have hbest := (bestNode_spec _ hrise).2 m hm
    split at h
    next => cases h
    next k tk he =>
      split at h
      next ha =>
        obtain ⟨rfl, rfl⟩ : startProbe s p c die k tk = t ∧ m = node := by simpa using h
        exact ⟨k, tk, he, hbest, fun _ => rfl, fun hn => by rw [ha] at hn; cases hn⟩
      next ha =>
        split at h
        next n hn =>
          obtain ⟨rfl, rfl⟩ : dispatchTask s p c n k tk = t ∧ m = node := by simpa using h
          exact ⟨k, tk, he, hbest, fun hy => absurd hy ha, fun _ => ⟨n, hn, rfl⟩⟩
        next => cases h

theorem mem_eligibleNodes {s : State} {p c die m : Nat} : m ∈ eligibleNodes s p c die ↔ m < (graphOf s p c).nodes.length ∧ (eligible s p c die m).isSome = true := by
  simp [eligibleNodes]

/-- One selection is as R52 to R56 and R60 have it. -/
theorem selectOnce_selects {s t : State} {p c die node : Nat} (h : selectOnce s p c die = some (t, node)) : selects s p c die t node := by
  obtain ⟨k, tk, he, ⟨hmem, hrank⟩, hprobe, hdispatch⟩ := selectOnce_eq_some h
  obtain ⟨hold, hout⟩ := eligible_spec he
  obtain ⟨htask, hready⟩ := oldestTask_spec hold
  obtain ⟨v, hv⟩ := taskOf_takeTask (g := graphOf s p c) (t := tk) htask
  refine ⟨k, tk, hold, hready, hout, (mem_eligibleNodes.1 hmem).1, fun m hm hel => hrank m (mem_eligibleNodes.2 ⟨hm, hel⟩), fun hnode => ?age, fun ha => ?probed, fun ha hnode => ?dispatched⟩
  case age =>
    cases ha : awaitsProbe (nodeOf s p c node) tk with
    | true => rw [hprobe ha, launchOf_startProbe htask]; simp [hnode]
    | false =>
      obtain ⟨n, hn, rfl⟩ := hdispatch ha
      obtain ⟨j, hj⟩ := freeSlot_of_open (pickCore_spec (openCores_rising ..) hn).1
      rw [launchOf_dispatchTask hj htask]; simp [hnode]
  case probed =>
    rw [hprobe ha, launchOf_startProbe htask]
    exact ⟨⟨_, taskOf_modTask_same hv _, rfl⟩, _, List.mem_append_right _ (List.mem_singleton_self _), rfl, rfl, rfl⟩
  case dispatched =>
    obtain ⟨n, hn, rfl⟩ := hdispatch ha
    obtain ⟨hopen, hbefore⟩ := pickCore_spec (openCores_rising ..) hn
    obtain ⟨j, hj⟩ := freeSlot_of_open hopen
    obtain ⟨hst, hjob, hresumed⟩ := slotOf_dispatchTask (p := p) (c := c) (k := k) (t := tk) hj
    refine ⟨?_, n, hopen, hbefore, j, hj, hst, by rw [hjob]; rfl, by rw [hjob]; exact hnode, by rw [hjob]; rfl, hresumed⟩
    rw [launchOf_dispatchTask hj htask]
    exact ⟨_, taskOf_modTask_same hv _, rfl⟩

theorem selections_length (p c die m : Nat) (s : State) : (selections p c die m s).2.length ≤ m := by
  induction m generalizing s with
  | zero => exact le_rfl
  | succ m ih =>
    unfold selections
    split
    · exact Nat.zero_le _
    · exact Nat.succ_le_succ (ih _)

/-- Fewer selections than there might be leave none to make. -/
theorem selections_exhausts {p c die m : Nat} {s : State} (h : (selections p c die m s).2.length < m) : selectOnce (selections p c die m s).1 p c die = none := by
  induction m generalizing s with
  | zero => exact absurd h (Nat.not_lt_zero _)
  | succ m ih =>
    unfold selections at h ⊢
    split at h
    next e => simp [e]
    next e => simpa [e] using ih (Nat.lt_of_succ_lt_succ h)

/-- The ages after some nodes have each aged by 1, to at most 255: a node counted twice would age twice. -/
theorem tget_foldl_age {l : List Nat} (hl : l.Nodup) (t : Table Nat) (k : Nat) :
    tget 0 (l.foldl (fun t k => tset t k (min 255 (tget 0 t k + 1))) t) k = if k ∈ l then min 255 (tget 0 t k + 1) else tget 0 t k := by
  induction l generalizing t with
  | nil => simp
  | cons a r ih =>
    obtain ⟨ha, hr⟩ := List.nodup_cons.1 hl
    rw [List.foldl_cons, ih hr]
    by_cases hk : k = a
    · subst hk; simp [ha]
    · simp [hk, tget_tset_other _ _ _ hk]

theorem launchOf_ageNodes_ages {t : State} {p c : Nat} (h : (ctxOf t p c).launch ≠ none) {l : List Nat} (hl : l.Nodup) (k : Nat) :
    tget 0 (launchOf (ageNodes t p c l) p c).ages k = if k ∈ l then min 255 (tget 0 (launchOf t p c).ages k + 1) else tget 0 (launchOf t p c).ages k := by
  rw [ageNodes, launchOf_modLaunch h]
  exact tget_foldl_age hl ..

/-- The round of a die is as R52 and R55 have it. -/
theorem dieRound_roundSelects (s : State) (p c die : Nat) : roundSelects s p c die := by
  have hnodup : (dieRound s p c die).2.Nodup := (List.nodup_range.filter _).filter _
  refine ⟨rfl, selections_length .., selections_exhausts, fun k => ?_, fun t k hla => ⟨fun hk => ?_, fun hk => ?_⟩⟩
  · simp [dieRound, mem_eligibleNodes, and_assoc]
  · rw [launchOf_ageNodes_ages hla hnodup, if_pos hk]
  · rw [launchOf_ageNodes_ages hla hnodup, if_neg hk]

end Sys2Proof.Machine

/-! The end of a slice, probes and dispatch rounds as events (R12, R22, R52, R60 to R62, R317). -/

namespace Sys2Proof.Machine

open Sys2Proof.Config

/-! The end of a slice (R22, R317). -/

/-- A task's state may have become ready; nothing else of it has changed. -/
def SameOrReady (t u : Task) : Prop := u = t ∨ u = { t with st := .ready }

theorem taskOf_returnTask {s : State} {p c k : Nat} {t : Task} (h : taskOf (launchOf s p c) k = some t) :
    taskOf (launchOf (returnTask s p c k) p c) k = some { t with st := .ready } := by
  rw [returnTask, launchOf_modLaunch (launch_of_taskOf h)]
  exact taskOf_modTask_same h _

/-- The return of one task leaves every task as it was, or ready. -/
theorem taskOf_returnTask_any {s : State} {p c k q d i : Nat} {t : Task} (h : taskOf (launchOf s q d) i = some t) :
    ∃ u, taskOf (launchOf (returnTask s p c k) q d) i = some u ∧ SameOrReady t u := by
  by_cases hpc : q = p ∧ d = c
  · obtain ⟨rfl, rfl⟩ := hpc
    by_cases hk : i = k
    · exact hk ▸ ⟨_, taskOf_returnTask (hk ▸ h), .inr rfl⟩
    · refine ⟨t, ?_, .inl rfl⟩
      rw [returnTask, launchOf_modLaunch (launch_of_taskOf h), taskOf_modTask_other _ _ hk, h]
  · refine ⟨t, ?_, .inl rfl⟩
    rw [launchOf, returnTask, modLaunch, ctxOf_modCtx_other _ _ hpc]
    exact h

/-- What the return of staged jobs leads to, from s to u: a slot stays as it was or is empty, a task as it was or ready, and the task of a staged job that has been returned is ready. -/
structure Returns (s u : State) : Prop where
  pgran : ∀ p, (partOf u p).pgran = (partOf s p).pgran
  slot : ∀ n j, slotOf (coreOf u n) j = slotOf (coreOf s n) j ∨ (slotOf (coreOf u n) j).st = .empty
  task : ∀ p c k t, taskOf (launchOf s p c) k = some t → ∃ v, taskOf (launchOf u p c) k = some v ∧ SameOrReady t v
  ready : ∀ n j, let sl := slotOf (coreOf s n) j
    sl.st = .staged → sl.resumed = false → (slotOf (coreOf u n) j).st ≠ .staged →
      ∀ t, taskOf (launchOf s sl.job.part sl.job.ctx) sl.job.task = some t → taskOf (launchOf u sl.job.part sl.job.ctx) sl.job.task = some { t with st := .ready }

theorem Returns.refl (s : State) : Returns s s where
  pgran _ := rfl
  slot _ _ := .inl rfl
  task _ _ _ t h := ⟨t, h, .inl rfl⟩
  ready _ _ hst _ hn := absurd hst hn

theorem SameOrReady.trans {t u v : Task} (htu : SameOrReady t u) (huv : SameOrReady u v) : SameOrReady t v := by
  obtain rfl | rfl := htu <;> obtain rfl | rfl := huv <;> simp [SameOrReady]

theorem SameOrReady.ready {t u : Task} (h : SameOrReady t u) : { u with st := .ready } = { t with st := TaskState.ready } := by
  obtain rfl | rfl := h <;> rfl

/-- The task of a staged slot becomes ready, unless its job was put back by `resume`. -/
def taskReturned (s : State) (sl : Slot) : State := if sl.resumed then s else returnTask s sl.job.part sl.job.ctx sl.job.task

theorem taskReturned_cores (s : State) (sl : Slot) : (taskReturned s sl).cores = s.cores := by
  unfold taskReturned; split <;> rfl

theorem taskReturned_pgran (s : State) (sl : Slot) (p : Nat) : (partOf (taskReturned s sl) p).pgran = (partOf s p).pgran := by
  unfold taskReturned returnTask modLaunch modCtx
  split
  · rfl
  · rw [partOf_modPart_any]
    split <;> rfl

theorem taskOf_taskReturned {s : State} {p c k : Nat} {t : Task} (h : taskOf (launchOf s p c) k = some t) (sl : Slot) :
    ∃ u, taskOf (launchOf (taskReturned s sl) p c) k = some u ∧ SameOrReady t u := by
  unfold taskReturned
  split
  · exact ⟨t, h, .inl rfl⟩
  · exact taskOf_returnTask_any h

/-- A staged job that is returned leaves its slot empty. -/
theorem returnStaged_staged {s : State} {n j : Nat} (h : (slotOf (coreOf s n) j).st = .staged) : returnStaged s n j = modSlot (taskReturned s (slotOf (coreOf s n) j)) n j emptySlot := by
  simp [returnStaged, taskReturned, h]

theorem returnStaged_other {s : State} {n j : Nat} (h : (slotOf (coreOf s n) j).st ≠ .staged) : returnStaged s n j = s := by
  simp [returnStaged, h]

theorem slotOf_congr (k : Core) {i j : Nat} (h : (i = 0) = (j = 0)) : slotOf k i = slotOf k j := by simp only [slotOf, h]

theorem slotOf_returnStaged {s : State} {n j : Nat} (h : (slotOf (coreOf s n) j).st = .staged) (m k : Nat) :
    slotOf (coreOf (returnStaged s n j) m) k = if m = n ∧ (j = 0) = (k = 0) then emptySlot (slotOf (coreOf s m) k) else slotOf (coreOf s m) k := by
  have hcore : coreOf (taskReturned s (slotOf (coreOf s n) j)) m = coreOf s m := by simp only [coreOf, taskReturned_cores]
  rw [returnStaged_staged h, slotOf_modSlot, hcore]

theorem Returns.step {s u : State} (h : Returns s u) (n j : Nat) : Returns s (returnStaged u n j) := by
  by_cases hst : (slotOf (coreOf u n) j).st = .staged
  case neg => rwa [returnStaged_other hst]
  have hlaunch (p c : Nat) : launchOf (returnStaged u n j) p c = launchOf (taskReturned u (slotOf (coreOf u n) j)) p c := by rw [returnStaged_staged hst]; rfl
  refine ⟨fun p => ?pgran, fun m k => ?slot, fun p c k t ht => ?task, fun m k hs hres hne t ht => ?ready⟩
  case pgran =>
    rw [returnStaged_staged hst]
    exact (taskReturned_pgran ..).trans (h.pgran p)
  case slot =>
    rw [slotOf_returnStaged hst]
    split
    · exact .inr rfl
    · exact h.slot m k
  case task =>
    obtain ⟨v, hv, htv⟩ := h.task p c k t ht
    obtain ⟨w, hw, hvw⟩ := taskOf_taskReturned hv (slotOf (coreOf u n) j)
    exact ⟨w, by rw [hlaunch, hw], htv.trans hvw⟩
  case ready =>
    by_cases hu : (slotOf (coreOf u m) k).st = .staged
    · -- the slot is returned by this very step
      have hown : m = n ∧ (j = 0) = (k = 0) := by
        by_contra hno
        exact hne (by rw [slotOf_returnStaged hst, if_neg hno]; exact hu)
      have hsl : slotOf (coreOf u n) j = slotOf (coreOf s m) k := by
        rw [slotOf_congr _ hown.2, ← hown.1]
        exact (h.slot m k).resolve_right (by simp [hu])
      obtain ⟨v, hv, htv⟩ := h.task _ _ _ t ht
      rw [hlaunch, hsl, taskReturned, if_neg (by simp [hres]), taskOf_returnTask hv, htv.ready]
    · obtain ⟨w, hw, htw⟩ := taskOf_taskReturned (h.ready m k hs hres hu t ht) (slotOf (coreOf u n) j)
      rw [hlaunch, hw]
      obtain rfl | rfl := htw <;> rfl

/-- Both slots of a core return what they hold staged. -/
def returnCore (s : State) (n : Nat) : State := returnStaged (returnStaged s n 0) n 1

theorem Returns.foldl {s u : State} (h : Returns s u) (l : List Nat) : Returns s (l.foldl returnCore u) := by
  induction l generalizing u with
  | nil => exact h
  | cons n r ih => exact ih ((h.step n 0).step n 1)

/-- A slot that is staged after a return was staged before, and is not the one returned. -/
theorem staged_of_returnStaged {s : State} {n j m k : Nat} (h : (slotOf (coreOf (returnStaged s n j) m) k).st = .staged) :
    (slotOf (coreOf s m) k).st = .staged ∧ ¬ (m = n ∧ (j = 0) = (k = 0)) := by
  by_cases hst : (slotOf (coreOf s n) j).st = .staged
  · rw [slotOf_returnStaged hst] at h
    split at h
    · cases h
    next hno => exact ⟨h, hno⟩
  · rw [returnStaged_other hst] at h
    refine ⟨h, fun ⟨hm, hk⟩ => hst ?_⟩
    rw [slotOf_congr _ hk, ← hm, h]

theorem staged_of_returnCore {s : State} {n m k : Nat} (h : (slotOf (coreOf (returnCore s n) m) k).st = .staged) : (slotOf (coreOf s m) k).st = .staged ∧ m ≠ n := by
  obtain ⟨h1, hne1⟩ := staged_of_returnStaged h
  obtain ⟨h0, hne0⟩ := staged_of_returnStaged h1
  refine ⟨h0, fun hm => ?_⟩
  by_cases hk : k = 0
  · exact hne0 ⟨hm, by simp [hk]⟩
  · exact hne1 ⟨hm, by simp [hk]⟩

theorem staged_of_foldl_returnCore {l : List Nat} {s : State} {m k : Nat} (h : (slotOf (coreOf (l.foldl returnCore s) m) k).st = .staged) :
    (slotOf (coreOf s m) k).st = .staged ∧ m ∉ l := by
  induction l generalizing s with
  | nil => exact ⟨h, List.not_mem_nil⟩
  | cons n r ih =>
    obtain ⟨h1, hr⟩ := ih h
    obtain ⟨h0, hn⟩ := staged_of_returnCore h1
    exact ⟨h0, fun hm => (List.mem_cons.1 hm).elim hn hr⟩

theorem coresOf_congr {s u : State} {p : Nat} (h : (partOf u p).pgran = (partOf s p).pgran) : coresOf u p = coresOf s p := by rw [coresOf, coresOf, h]

/-- Some columns are to switch (R22). -/
theorem foldl_ending_spec {l : List Nat} {s : State} {n : Nat} (h : n ∈ l ∨ (coreOf s n).ending = true) :
    (coreOf (l.foldl (fun s n => modCore s n (fun k => { k with ending := true })) s) n).ending = true := by
  induction l generalizing s with
  | nil => exact h.resolve_left List.not_mem_nil
  | cons m r ih =>
    refine ih ?_
    rw [coreOf_modCore_any]
    by_cases hn : n = m
    · exact .inr (by rw [if_pos hn])
    · rw [if_neg hn]
      exact h.imp_left fun h => (List.mem_cons.1 h).resolve_left hn

theorem endSlice_ending {s : State} {p n : Nat} (h : n ∈ coresOf s p) : (coreOf (endSlice s p) n).ending = true := foldl_ending_spec (.inl h)

theorem endSlice_parts (s : State) (p : Nat) : (endSlice s p).parts = s.parts := by
  refine foldl_keeps State.parts ?_ ..
  exact fun _ _ => rfl

theorem endSlice_keepsJobs (s : State) (p : Nat) : KeepsJobs s (endSlice s p) := by
  refine KeepsJobs.foldl ?_ ..
  exact fun u n => .modCore u n fun _ _ => rfl

/-- The next context of a partition is enabled; there is none only where none is. -/
theorem nextCtx_spec (s : State) (p c : Nat) : (∀ d, nextCtx s p c = some d → (ctxOf s p d).en = true) ∧ (nextCtx s p c = none → ∀ d < 8, (ctxOf s p d).en = false) := by
  refine ⟨fun d h => by simpa using List.find?_some h, fun h d hd => ?_⟩
  have hmem : d ∈ (List.range nCtxs).map (fun i => (c + 1 + i) % nCtxs) :=
    List.mem_map.2 ⟨(d + 8 * (c + 1) - (c + 1)) % 8, List.mem_range.2 (Nat.mod_lt _ (by decide)), by simp only [nCtxs]; omega⟩
  simpa using List.find?_eq_none.1 h d hmem

/-- What the end of a slice leaves before the sequencer goes on. -/
def sliceEnded (s : State) (p : Nat) (nx : Option Nat) : State := endSlice (modPart ((coresOf s p).foldl returnCore s) p (fun q => { q with running := nx })) p

section
variable (s : State) (p : Nat) (nx : Option Nat)

theorem sliceEnded_running : (partOf (sliceEnded s p nx) p).running = nx := by
  rw [sliceEnded, partOf, endSlice_parts]
  exact congrArg Partition.running (partOf_modPart ..)

/-- The end of a slice returns every staged job of the partition's columns, and does nothing else to jobs and launches. -/
theorem sliceEnded_keepsJobs : KeepsJobs ((coresOf s p).foldl returnCore s) (sliceEnded s p nx) := by
  refine KeepsJobs.trans (.modPart _ p ?_) (endSlice_keepsJobs ..)
  exact fun _ => rfl

variable {s p} in
theorem sliceEnded_column {n : Nat} (hn : n ∈ coresOf s p) :
    (coreOf (sliceEnded s p nx) n).ending = true ∧ ∀ j < 2, (slotOf (coreOf (sliceEnded s p nx) n) j).st ≠ .staged
      ∧ ((slotOf (coreOf s n) j).st = .staged → (slotOf (coreOf s n) j).resumed = false →
        let b := (slotOf (coreOf s n) j).job
        ∀ t, taskOf (launchOf s b.part b.ctx) b.task = some t → taskOf (launchOf (sliceEnded s p nx) b.part b.ctx) b.task = some { t with st := .ready }) := by
  have hret := (Returns.refl s).foldl (coresOf s p)
  have hkeep := sliceEnded_keepsJobs s p nx
  have hstaged (j : Nat) : (slotOf (coreOf ((coresOf s p).foldl returnCore s) n) j).st ≠ .staged := fun h => (staged_of_foldl_returnCore h).2 hn
  refine ⟨endSlice_ending ?_, fun j _ => ⟨by rw [hkeep.slots]; exact hstaged j, fun hst hres => ?_⟩⟩
  · rw [coresOf_congr (s := s)]
    · exact hn
    · rw [partOf_modPart]
      exact hret.pgran p
  · intro b t ht
    rw [hkeep.launch]
    exact hret.ready n j hst hres (hstaged j) t ht

end

theorem execSliceEnd_eq {s : State} {p : PartNo} {c : Nat} (h : (partOf s p.toNat).running = some c) :
    let nx := nextCtx s p.toNat c
    let v := sliceEnded s p.toNat nx
    execSliceEnd p s = .next (match nx with | none => v | some d => advanceLoop v p.toNat d) := by
  unfold execSliceEnd
  simp only [h]
  cases nextCtx s p.toNat c <;> rfl

/-! Dispatch rounds (R12, R52). -/

theorem execDispatchRound_idle {s : State} {p : PartNo} {c : Nat} (h : (partOf s p.toNat).running = some c)
    (hx : (ctxOf s p.toNat c).launch = none ∨ (ctxOf s p.toNat c).stopped = true) : execDispatchRound p s = .next s := by
  simp only [execDispatchRound, h]
  rw [if_pos (by simpa using hx)]

theorem execDispatchRound_eq {s : State} {p : PartNo} {c : Nat} (h : (partOf s p.toNat).running = some c)
    (hl : (ctxOf s p.toNat c).launch ≠ none) (hs : (ctxOf s p.toNat c).stopped = false) : execDispatchRound p s = .next (dieRounds p.toNat c (diesOf s p.toNat) s) := by
  simp only [execDispatchRound, h]
  rw [if_neg (by simpa [hs] using hl)]

theorem mem_diesOf {s : State} {p d : Nat} : d ∈ diesOf s p ↔ d < 2 ∧ ∃ n ∈ coresOf s p, n / 128 = d := by
  have h01 : d ∈ [0, 1] ↔ d < 2 := by simp; omega
  simp [diesOf, List.mem_filter, ← h01]

/-! Probes (R60 to R62, R279). -/

section
variable {s u : State} {p : PartNo} {x : CtxNo} {node : BitVec 10} {tile : BitVec 24} {k : Nat} {t : Task} {f : FirnDesc}

section
variable (h : readyProbe s p.toNat x.toNat node.toNat tile.toNat false = some (k, t, f))
include h

theorem execProbeOutcome_struck (hreads : probeReads (ctxOf s p.toNat x.toNat) f t.tile (tget 0#64 (ctxOf s p.toNat x.toNat).k 6) = true) (hstruck : transitError s.tick = true) :
    execProbeOutcome p x node tile s = .next (probeFails s p.toNat x.toNat k t false (.fault cDataUe false (firnRowVa f t.tile 0))) := by
  simp [execProbeOutcome, h, hreads, probeReadsGive, hstruck]

/-- A probe that reads nothing, or that no error strikes, answers with its test. -/
theorem execProbeOutcome_tested (hgood : probeReads (ctxOf s p.toNat x.toNat) f t.tile (tget 0#64 (ctxOf s p.toNat x.toNat).k 6) = false ∨ ¬ transitError s.tick = true) :
    execProbeOutcome p x node tile s =
      match probeTest s { p := p.toNat, c := x.toNat, user := true } f t.tile (tget 0#64 (ctxOf s p.toNat x.toNat).k 0) (tget 0#64 (ctxOf s p.toNat x.toNat).k 6) with
      | (u, .error e) => .next (probeFails u p.toNat x.toNat k t false e)
      | (u, .ok false) => .next (probeMiss u p.toNat x.toNat k)
      | (u, .ok true) => .next (progress (modProbe u p.toNat x.toNat k (fun b => { b with hit := true })) p.toNat x.toNat) := by
  have hgive {α : Type} (r : State × Except VErr α) : (if probeReads (ctxOf s p.toNat x.toNat) f t.tile (tget 0#64 (ctxOf s p.toNat x.toNat).k 6) then probeReadsGive s f t.tile r else r) = r := by
    rcases hgood with hn | hn <;> simp [hn, probeReadsGive]
  simp only [execProbeOutcome, h, hgive]
  rfl

end

section
variable (h : readyProbe s p.toNat x.toNat node.toNat tile.toNat true = some (k, t, f))
include h

theorem execReuseCopyPerformed_struck (hstruck : transitError s.tick = true) :
    execReuseCopyPerformed p x node tile s = .next (probeFails s p.toNat x.toNat k t true (.fault cDataUe false (firnRowVa f t.tile 0))) := by
  simp [execReuseCopyPerformed, h, probeReadsGive, hstruck]

theorem execReuseCopyPerformed_copied (hgood : ¬ transitError s.tick = true) :
    execReuseCopyPerformed p x node tile s =
      match copyResult s { p := p.toNat, c := x.toNat, user := true } f t.tile with
      | (u, .error e) => .next (probeFails u p.toNat x.toNat k t true e)
      | (u, .ok ()) => .next (completeTask (dropProbe (markHit u p.toNat x.toNat f t.tile (tget 0#64 (ctxOf u p.toNat x.toNat).k 0)) p.toNat x.toNat k) p.toNat x.toNat k) := by
  simp only [execReuseCopyPerformed, h, probeReadsGive, if_neg hgood]
  rfl

end

end

/-- Settles O45: the rounds of R52 by `selectOnce_selects` and `dieRound_roundSelects`, the end of a slice by `sliceEnded_column`, and probes by their tests and copies. -/
theorem schedulerEventResults : Obligations.SchedulerEventResults := by
  unfold Obligations.SchedulerEventResults
  intro s p c hrun
  refine ⟨fun hl hs => ?rounds, fun d => mem_diesOf, fun die => ⟨dieRound_roundSelects .., fun t node => selectOnce_selects⟩, execDispatchRound_idle hrun, ?slice,
    fun x node tile k t f => ⟨fun h => ⟨execProbeOutcome_struck h, fun hgood => ⟨fun u hu => ?_, fun u hu => ?_, fun u e hu => ?_⟩⟩, execReuseCopyPerformed_struck,
      fun h hgood u => ⟨fun hu => ?_, fun e hu => ?_⟩⟩⟩
  case rounds =>
    have hexec := execDispatchRound_eq hrun hl hs
    refine ⟨fun hd => ?_, fun hd => ?_, fun hd => ?_, fun hd => ?_⟩ <;> (rw [hd] at hexec; exact hexec)
  case slice =>
    obtain ⟨hen, hnone⟩ := nextCtx_spec s p.toNat c
    exact ⟨execSliceEnd_eq hrun, sliceEnded_running .., hen, hnone, fun n hn => sliceEnded_column _ hn⟩
  · rw [exec_probeOutcome, execProbeOutcome_tested h hgood, hu]
  · rw [exec_probeOutcome, execProbeOutcome_tested h hgood, hu]
  · rw [exec_probeOutcome, execProbeOutcome_tested h hgood, hu]
  · rw [exec_reuseCopyPerformed, execReuseCopyPerformed_copied h hgood, hu]
  · rw [exec_reuseCopyPerformed, execReuseCopyPerformed_copied h hgood, hu]

end Sys2Proof.Machine

/-! R193, R249, R301, R304: what a kill leaves pending of the retry ring. -/

namespace Sys2Proof.Machine

/-- The ring entry that a packet of an intake queue of core 0, taken for context 0, posts as it misses (R249, R301). -/
def intakeEntry : RingEntry :=
  ringFor { who := { p := 0, c := 0, core := some 0 }, n := 0, slot := 0, node := 0x3FF, q := .xhq, sid := .x, intake := true } 0x80000000#64 1 false 0#32

/-- Core 0 of partition 0 runs a job of context 0 in slot 0, which waits behind no ring entry; an intake queue of the core waits behind entry 0. -/
def intakeWaits : State :=
  { cores := [(0, { slot0 := { st := .active }, active := some 0 })], parts := [(0, { pgran := 1#16, ring := [(0, intakeEntry)] })] }

/-- A kill discards the entries of the killed job alone: that of the intake queue stays as it was. -/
theorem killActive_intakeWaits_ring : (partOf (killActive intakeWaits 0 0) 0).ring = [(0, intakeEntry)] := by decide

/-- `killsJob` asks that every entry of the killed job's core, slot and context be complete, and an intake queue's entry names slot 0 of its core as well. -/
theorem not_killsJob_intakeWaits : ¬ killsJob intakeWaits 0 0 (killActive intakeWaits 0 0) := by
  intro ⟨_, _, _, _, _, _, _, _, _, _, _, _, hring⟩
  have hcomplete : intakeEntry.pend = false :=
    hring 0 (by decide) (0, intakeEntry) (by simp [killActive_intakeWaits_ring]) (.inr ⟨rfl, rfl, rfl⟩)
  exact absurd hcomplete (by decide)

/-- Refutes O48: a kill of the job in slot 0 leaves the pending ring entry of an intake queue of its core, against the last clause. -/
theorem not_managementEventResults : ¬ Obligations.ManagementEventResults := by
  unfold Obligations.ManagementEventResults
  intro h
  obtain ⟨-, -, -, -, -, -, -, -, -, hkill⟩ := h intakeWaits 0#4 0#8
  exact not_killsJob_intakeWaits (hkill 0)

end Sys2Proof.Machine

/-! Every instruction and every event answers; how the word of an instruction issues (R34, R115, R141, R142). -/

namespace Sys2Proof.Machine

/-- How an instruction with a word issues: one with a major opcode of 13 or more on the stream of that opcode alone (R34, R142). -/
def IssuesByMajor (i : Instr) (s : State) : Prop :=
  ∃ words ss sup, Issued words ss sup s (exec i s) ∧ ∀ w r, encode i = w :: r → 13 ≤ (fOp w).toNat → ss = [majorSid (fOp w).toNat]

section
variable {i : Instr} {s : State} {words : Nat} {sup : Bool} {w : IWord} {r : List IWord} {op : BitVec 6}

theorem IssuesByMajor.anyStream (h : Issued words allSids sup s (exec i s)) (he : encode i = w :: r) (hop : fOp w = op) (hlow : op.toNat < 13 := by decide) : IssuesByMajor i s := by
  refine ⟨words, allSids, sup, h, fun w' r' he' hhigh => absurd hhigh ?_⟩
  obtain ⟨rfl, -⟩ := List.cons.inj (he.symm.trans he')
  rw [hop]
  exact Nat.not_le.2 hlow

theorem IssuesByMajor.ownStream {t : Sid} (h : Issued words [t] sup s (exec i s)) (he : encode i = w :: r) (hop : fOp w = op) (ht : majorSid op.toNat = t := by decide) : IssuesByMajor i s := by
  refine ⟨words, [t], sup, h, fun w' r' he' _ => ?_⟩
  obtain ⟨rfl, -⟩ := List.cons.inj (he.symm.trans he')
  rw [hop, ht]

end

theorem issuesByMajor {i : Instr} (hword : i.isWord = true) (s : State) : IssuesByMajor i s := by
  cases i with
  | add => exact .anyStream (issued_add ..) rfl (fOp_packR ..)
  | sub => exact .anyStream (issued_sub ..) rfl (fOp_packR ..)
  | and => exact .anyStream (issued_and ..) rfl (fOp_packR ..)
  | or => exact .anyStream (issued_or ..) rfl (fOp_packR ..)
  | xor => exact .anyStream (issued_xor ..) rfl (fOp_packR ..)
  | andn => exact .anyStream (issued_andn ..) rfl (fOp_packR ..)
  | sll => exact .anyStream (issued_sll ..) rfl (fOp_packR ..)
  | srl => exact .anyStream (issued_srl ..) rfl (fOp_packR ..)
  | sra => exact .anyStream (issued_sra ..) rfl (fOp_packR ..)
  | rol => exact .anyStream (issued_rol ..) rfl (fOp_packR ..)
  | mul => exact .anyStream (issued_mul ..) rfl (fOp_packR ..)
  | mulh => exact .anyStream (issued_mulh ..) rfl (fOp_packR ..)
  | mulhu => exact .anyStream (issued_mulhu ..) rfl (fOp_packR ..)
  | div => exact .anyStream (issued_div ..) rfl (fOp_packR ..)
  | divu => exact .anyStream (issued_divu ..) rfl (fOp_packR ..)
  | rem => exact .anyStream (issued_rem ..) rfl (fOp_packR ..)
  | remu => exact .anyStream (issued_remu ..) rfl (fOp_packR ..)
  | min => exact .anyStream (issued_min ..) rfl (fOp_packR ..)
  | minu => exact .anyStream (issued_minu ..) rfl (fOp_packR ..)
  | max => exact .anyStream (issued_max ..) rfl (fOp_packR ..)
  | maxu => exact .anyStream (issued_maxu ..) rfl (fOp_packR ..)
  | seq => exact .anyStream (issued_seq ..) rfl (fOp_packR ..)
  | sne => exact .anyStream (issued_sne ..) rfl (fOp_packR ..)
  | slt => exact .anyStream (issued_slt ..) rfl (fOp_packR ..)
  | sltu => exact .anyStream (issued_sltu ..) rfl (fOp_packR ..)
  | sle => exact .anyStream (issued_sle ..) rfl (fOp_packR ..)
  | sleu => exact .anyStream (issued_sleu ..) rfl (fOp_packR ..)
  | clz => exact .anyStream (issued_clz ..) rfl (fOp_packR ..)
  | ctz => exact .anyStream (issued_ctz ..) rfl (fOp_packR ..)
  | popc => exact .anyStream (issued_popc ..) rfl (fOp_packR ..)
  | bswap => exact .anyStream (issued_bswap ..) rfl (fOp_packR ..)
  | sexb => exact .anyStream (issued_sexb ..) rfl (fOp_packR ..)
  | sexh => exact .anyStream (issued_sexh ..) rfl (fOp_packR ..)
  | sexw => exact .anyStream (issued_sexw ..) rfl (fOp_packR ..)
  | fadd => exact .anyStream (issued_fadd ..) rfl (fOp_packR ..)
  | fsub => exact .anyStream (issued_fsub ..) rfl (fOp_packR ..)
  | fmul => exact .anyStream (issued_fmul ..) rfl (fOp_packR ..)
  | fdiv => exact .anyStream (issued_fdiv ..) rfl (fOp_packR ..)
  | fmin => exact .anyStream (issued_fmin ..) rfl (fOp_packR ..)
  | fmax => exact .anyStream (issued_fmax ..) rfl (fOp_packR ..)
  | fminp => exact .anyStream (issued_fminp ..) rfl (fOp_packR ..)
  | fmaxp => exact .anyStream (issued_fmaxp ..) rfl (fOp_packR ..)
  | fcvtfi => exact .anyStream (issued_fcvtfi ..) rfl (fOp_packR ..)
  | fcvtif => exact .anyStream (issued_fcvtif ..) rfl (fOp_packR ..)
  | feq => exact .anyStream (issued_feq ..) rfl (fOp_packR ..)
  | flt => exact .anyStream (issued_flt ..) rfl (fOp_packR ..)
  | fle => exact .anyStream (issued_fle ..) rfl (fOp_packR ..)
  | addi => exact .anyStream (issued_addi ..) rfl (fOp_packI ..)
  | andi => exact .anyStream (issued_andi ..) rfl (fOp_packI ..)
  | ori => exact .anyStream (issued_ori ..) rfl (fOp_packI ..)
  | xori => exact .anyStream (issued_xori ..) rfl (fOp_packI ..)
  | slli => exact .anyStream (issued_slli ..) rfl (fOp_packI ..)
  | srli => exact .anyStream (issued_srli ..) rfl (fOp_packI ..)
  | srai => exact .anyStream (issued_srai ..) rfl (fOp_packI ..)
  | slti => exact .anyStream (issued_slti ..) rfl (fOp_packI ..)
  | lui => exact .anyStream (issued_lui ..) rfl (fOp_packJ ..)
  | lix => exact .anyStream (issued_lix ..) rfl (fOp_packR ..)
  | lihx => exact .anyStream (issued_lihx ..) rfl (fOp_packR ..)
  | addx => exact .anyStream (issued_addx ..) rfl (fOp_packR ..)
  | beq => exact .anyStream (issued_beq ..) rfl (fOp_packB ..)
  | bne => exact .anyStream (issued_bne ..) rfl (fOp_packB ..)
  | blt => exact .anyStream (issued_blt ..) rfl (fOp_packB ..)
  | bge => exact .anyStream (issued_bge ..) rfl (fOp_packB ..)
  | bltu => exact .anyStream (issued_bltu ..) rfl (fOp_packB ..)
  | bgeu => exact .anyStream (issued_bgeu ..) rfl (fOp_packB ..)
  | bset => exact .anyStream (issued_bset ..) rfl (fOp_packB ..)
  | bclr => exact .anyStream (issued_bclr ..) rfl (fOp_packB ..)
  | jal => exact .anyStream (issued_jal ..) rfl (fOp_packJ ..)
  | jalr => exact .anyStream (issued_jalr ..) rfl (fOp_packI ..)
  | loop => exact .anyStream (issued_loop ..) rfl (fOp_packL ..)
  | loopi => exact .anyStream (issued_loopi ..) rfl (fOp_packL ..)
  | loopk => exact .anyStream (issued_loopk ..) rfl (fOp_packL ..)
  | loopm => exact .anyStream (issued_loopm ..) rfl (fOp_packL ..)
  | qwait => exact .anyStream (issued_qwait ..) rfl (fOp_packQ ..)
  | qroom => exact .anyStream (issued_qroom ..) rfl (fOp_packQ ..)
  | qadv => exact .anyStream (issued_qadv ..) rfl (fOp_packQ ..)
  | qadvp => exact .anyStream (issued_qadvp ..) rfl (fOp_packQ ..)
  | qrst => exact .anyStream (issued_qrst ..) rfl (fOp_packQ ..)
  | qpop => exact .anyStream (issued_qpop ..) rfl (fOp_packR ..)
  | qpeek => exact .anyStream (issued_qpeek ..) rfl (fOp_packR ..)
  | qput => exact .anyStream (issued_qput ..) rfl (fOp_packR ..)
  | qcfg => exact .anyStream (issued_qcfg ..) rfl (fOp_packR ..)
  | qcnt => exact .anyStream (issued_qcnt ..) rfl (fOp_packR ..)
  | bqt => exact .anyStream (issued_bqt ..) rfl (fOp_packB ..)
  | bqf => exact .anyStream (issued_bqf ..) rfl (fOp_packB ..)
  | nop => exact .anyStream (issued_nop ..) rfl (fOp_packR ..)
  | rdv0 => exact .anyStream (issued_rdv0 ..) rfl (fOp_packR ..)
  | rdvEnd => exact .anyStream (issued_rdvEnd ..) rfl (fOp_packR ..)
  | rdvStreamSet => exact .anyStream (issued_rdvStreamSet ..) rfl (fOp_packR ..)
  | pbar => exact .anyStream (issued_pbar ..) rfl (fOp_packR ..)
  | pbara => exact .anyStream (issued_pbara ..) rfl (fOp_packR ..)
  | pbarw => exact .anyStream (issued_pbarw ..) rfl (fOp_packR ..)
  | wfi => exact .anyStream (issued_wfi ..) rfl (fOp_packR ..)
  | ipref => exact .anyStream (issued_ipref ..) rfl (fOp_packR ..)
  | rdc => exact .anyStream (issued_rdc ..) rfl (fOp_packR ..)
  | wrc => exact .anyStream (issued_wrc ..) rfl (fOp_packR ..)
  | rdk => exact .anyStream (issued_rdk ..) rfl (fOp_packR ..)
  | rdcyc => exact .anyStream (issued_rdcyc ..) rfl (fOp_packR ..)
  | rdid => exact .anyStream (issued_rdid ..) rfl (fOp_packR ..)
  | rdloop => exact .anyStream (issued_rdloop ..) rfl (fOp_packR ..)
  | ldb => exact .ownStream (issued_ldb ..) rfl (fOp_packI ..)
  | ldbs => exact .ownStream (issued_ldbs ..) rfl (fOp_packI ..)
  | ldh => exact .ownStream (issued_ldh ..) rfl (fOp_packI ..)
  | ldhs => exact .ownStream (issued_ldhs ..) rfl (fOp_packI ..)
  | ldw => exact .ownStream (issued_ldw ..) rfl (fOp_packI ..)
  | ldws => exact .ownStream (issued_ldws ..) rfl (fOp_packI ..)
  | ldd => exact .ownStream (issued_ldd ..) rfl (fOp_packI ..)
  | stb => exact .ownStream (issued_stb ..) rfl (fOp_packI ..)
  | sth => exact .ownStream (issued_sth ..) rfl (fOp_packI ..)
  | stw => exact .ownStream (issued_stw ..) rfl (fOp_packI ..)
  | std => exact .ownStream (issued_std ..) rfl (fOp_packI ..)
  | lsmark => exact .ownStream (issued_lsmark ..) rfl (fOp_packR ..)
  | l1inv => exact .ownStream (issued_l1inv ..) rfl (fOp_packR ..)
  | l1inva => exact .ownStream (issued_l1inva ..) rfl (fOp_packR ..)
  | pref => exact .ownStream (issued_pref ..) rfl (fOp_packR ..)
  | own => exact .ownStream (issued_own ..) rfl (fOp_packR ..)
  | disown => exact .ownStream (issued_disown ..) rfl (fOp_packR ..)
  | amoadd => exact .ownStream (issued_amoadd ..) rfl (fOp_packR ..)
  | amoand => exact .ownStream (issued_amoand ..) rfl (fOp_packR ..)
  | amoor => exact .ownStream (issued_amoor ..) rfl (fOp_packR ..)
  | amoxor => exact .ownStream (issued_amoxor ..) rfl (fOp_packR ..)
  | amomin => exact .ownStream (issued_amomin ..) rfl (fOp_packR ..)
  | amominu => exact .ownStream (issued_amominu ..) rfl (fOp_packR ..)
  | amomax => exact .ownStream (issued_amomax ..) rfl (fOp_packR ..)
  | amomaxu => exact .ownStream (issued_amomaxu ..) rfl (fOp_packR ..)
  | amoswp => exact .ownStream (issued_amoswp ..) rfl (fOp_packR ..)
  | amocas => exact .ownStream (issued_amocas ..) rfl (fOp_packR ..)
  | amofadd => exact .ownStream (issued_amofadd ..) rfl (fOp_packR ..)
  | fence => exact .ownStream (issued_fence ..) rfl (fOp_packR ..)
  | qfence => exact .ownStream (issued_qfence ..) rfl (fOp_packR ..)
  | spawn => exact .ownStream (issued_spawn ..) rfl (fOp_packR ..)
  | spwait => exact .ownStream (issued_spwait ..) rfl (fOp_packR ..)
  | sptest => exact .ownStream (issued_sptest ..) rfl (fOp_packR ..)
  | depdec => exact .ownStream (issued_depdec ..) rfl (fOp_packR ..)
  | depinc => exact .ownStream (issued_depinc ..) rfl (fOp_packR ..)
  | wlcfg => exact .ownStream (issued_wlcfg ..) rfl (fOp_packR ..)
  | wlpush => exact .ownStream (issued_wlpush ..) rfl (fOp_packR ..)
  | wlins => exact .ownStream (issued_wlins ..) rfl (fOp_packR ..)
  | wlpopb => exact .ownStream (issued_wlpopb ..) rfl (fOp_packR ..)
  | wlcnt => exact .ownStream (issued_wlcnt ..) rfl (fOp_packR ..)
  | wldrain => exact .ownStream (issued_wldrain ..) rfl (fOp_packR ..)
  | frnck => exact .ownStream (issued_frnck ..) rfl (fOp_packR ..)
  | frnput => exact .ownStream (issued_frnput ..) rfl (fOp_packR ..)
  | frninv => exact .ownStream (issued_frninv ..) rfl (fOp_packR ..)
  | frnstat => exact .ownStream (issued_frnstat ..) rfl (fOp_packR ..)
  | frnflush => exact .ownStream (issued_frnflush ..) rfl (fOp_packR ..)
  | vtadd => exact .ownStream (issued_vtadd ..) rfl (fOp_packR ..)
  | vtfadd => exact .ownStream (issued_vtfadd ..) rfl (fOp_packR ..)
  | vtmax => exact .ownStream (issued_vtmax ..) rfl (fOp_packR ..)
  | vtcas => exact .ownStream (issued_vtcas ..) rfl (fOp_packR ..)
  | vtsac => exact .ownStream (issued_vtsac ..) rfl (fOp_packR ..)
  | trap => exact .ownStream (issued_trap ..) rfl (fOp_packR ..)
  | eret => exact .ownStream (issued_eret ..) rfl (fOp_packR ..)
  | uiret => exact .ownStream (issued_uiret ..) rfl (fOp_packR ..)
  | brk => exact .ownStream (issued_brk ..) rfl (fOp_packR ..)
  | sysc => exact .ownStream (issued_sysc ..) rfl (fOp_packR ..)
  | rtfill => exact .ownStream (issued_rtfill ..) rfl (fOp_packR ..)
  | rtnext => exact .ownStream (issued_rtnext ..) rfl (fOp_packR ..)
  | resume => exact .ownStream (issued_resume ..) rfl (fOp_packR ..)
  | kill => exact .ownStream (issued_kill ..) rfl (fOp_packR ..)
  | tlbinv => exact .ownStream (issued_tlbinv ..) rfl (fOp_packR ..)
  | apcfg => exact .ownStream (issued_apcfg ..) rfl (fOp_packR ..)
  | astrm => exact .ownStream (issued_astrm ..) rfl (fOp_packR ..)
  | astro => exact .ownStream (issued_astro ..) rfl (fOp_packR ..)
  | agath => exact .ownStream (issued_agath ..) rfl (fOp_packR ..)
  | ascat => exact .ownStream (issued_ascat ..) rfl (fOp_packR ..)
  | awcfg => exact .ownStream (issued_awcfg ..) rfl (fOp_packR ..)
  | awin => exact .ownStream (issued_awin ..) rfl (fOp_packR ..)
  | awpass => exact .ownStream (issued_awpass ..) rfl (fOp_packR ..)
  | aprf => exact .ownStream (issued_aprf ..) rfl (fOp_packR ..)
  | vadd => exact .ownStream (issued_vadd ..) rfl (fOp_packR ..)
  | vsub => exact .ownStream (issued_vsub ..) rfl (fOp_packR ..)
  | vmul => exact .ownStream (issued_vmul ..) rfl (fOp_packR ..)
  | vfma => exact .ownStream (issued_vfma ..) rfl (fOp_packR ..)
  | vfms => exact .ownStream (issued_vfms ..) rfl (fOp_packR ..)
  | vfnma => exact .ownStream (issued_vfnma ..) rfl (fOp_packR ..)
  | vmin => exact .ownStream (issued_vmin ..) rfl (fOp_packR ..)
  | vmax => exact .ownStream (issued_vmax ..) rfl (fOp_packR ..)
  | vminp => exact .ownStream (issued_vminp ..) rfl (fOp_packR ..)
  | vmaxp => exact .ownStream (issued_vmaxp ..) rfl (fOp_packR ..)
  | vabs => exact .ownStream (issued_vabs ..) rfl (fOp_packR ..)
  | vneg => exact .ownStream (issued_vneg ..) rfl (fOp_packR ..)
  | vdiv => exact .ownStream (issued_vdiv ..) rfl (fOp_packR ..)
  | vsqrt => exact .ownStream (issued_vsqrt ..) rfl (fOp_packR ..)
  | vsgn => exact .ownStream (issued_vsgn ..) rfl (fOp_packR ..)
  | vand => exact .ownStream (issued_vand ..) rfl (fOp_packR ..)
  | vor => exact .ownStream (issued_vor ..) rfl (fOp_packR ..)
  | vxor => exact .ownStream (issued_vxor ..) rfl (fOp_packR ..)
  | vnot => exact .ownStream (issued_vnot ..) rfl (fOp_packR ..)
  | vsll => exact .ownStream (issued_vsll ..) rfl (fOp_packR ..)
  | vsrl => exact .ownStream (issued_vsrl ..) rfl (fOp_packR ..)
  | vsra => exact .ownStream (issued_vsra ..) rfl (fOp_packR ..)
  | vaddsat => exact .ownStream (issued_vaddsat ..) rfl (fOp_packR ..)
  | vsubsat => exact .ownStream (issued_vsubsat ..) rfl (fOp_packR ..)
  | vmulhi => exact .ownStream (issued_vmulhi ..) rfl (fOp_packR ..)
  | vceq => exact .ownStream (issued_vceq ..) rfl (fOp_packR ..)
  | vcne => exact .ownStream (issued_vcne ..) rfl (fOp_packR ..)
  | vclt => exact .ownStream (issued_vclt ..) rfl (fOp_packR ..)
  | vcle => exact .ownStream (issued_vcle ..) rfl (fOp_packR ..)
  | vcgt => exact .ownStream (issued_vcgt ..) rfl (fOp_packR ..)
  | vcge => exact .ownStream (issued_vcge ..) rfl (fOp_packR ..)
  | vcun => exact .ownStream (issued_vcun ..) rfl (fOp_packR ..)
  | vsel => exact .ownStream (issued_vsel ..) rfl (fOp_packR ..)
  | mand => exact .ownStream (issued_mand ..) rfl (fOp_packR ..)
  | mor => exact .ownStream (issued_mor ..) rfl (fOp_packR ..)
  | mxor => exact .ownStream (issued_mxor ..) rfl (fOp_packR ..)
  | mnot => exact .ownStream (issued_mnot ..) rfl (fOp_packR ..)
  | mpop => exact .ownStream (issued_mpop ..) rfl (fOp_packR ..)
  | mfirst => exact .ownStream (issued_mfirst ..) rfl (fOp_packR ..)
  | vcvt => exact .ownStream (issued_vcvt ..) rfl (fOp_packR ..)
  | vrsum => exact .ownStream (issued_vrsum ..) rfl (fOp_packR ..)
  | vrmax => exact .ownStream (issued_vrmax ..) rfl (fOp_packR ..)
  | vrmin => exact .ownStream (issued_vrmin ..) rfl (fOp_packR ..)
  | vscan => exact .ownStream (issued_vscan ..) rfl (fOp_packR ..)
  | vmov => exact .ownStream (issued_vmov ..) rfl (fOp_packR ..)
  | vbcast => exact .ownStream (issued_vbcast ..) rfl (fOp_packR ..)
  | vext => exact .ownStream (issued_vext ..) rfl (fOp_packR ..)
  | vins => exact .ownStream (issued_vins ..) rfl (fOp_packR ..)
  | vperm => exact .ownStream (issued_vperm ..) rfl (fOp_packR ..)
  | vrot => exact .ownStream (issued_vrot ..) rfl (fOp_packR ..)
  | vidx => exact .ownStream (issued_vidx ..) rfl (fOp_packR ..)
  | vpack => exact .ownStream (issued_vpack ..) rfl (fOp_packR ..)
  | vunpk => exact .ownStream (issued_vunpk ..) rfl (fOp_packR ..)
  | vld => exact .ownStream (issued_vld ..) rfl (fOp_packR ..)
  | vst => exact .ownStream (issued_vst ..) rfl (fOp_packR ..)
  | vldq => exact .ownStream (issued_vldq ..) rfl (fOp_packR ..)
  | vstq => exact .ownStream (issued_vstq ..) rfl (fOp_packR ..)
  | vgat => exact .ownStream (issued_vgat ..) rfl (fOp_packR ..)
  | vsct => exact .ownStream (issued_vsct ..) rfl (fOp_packR ..)
  | swait => exact .ownStream (issued_swait ..) rfl (fOp_packR ..)
  | vpart => exact .ownStream (issued_vpart ..) rfl (fOp_packR ..)
  | vcmpk => exact .ownStream (issued_vcmpk ..) rfl (fOp_packR ..)
  | vexpd => exact .ownStream (issued_vexpd ..) rfl (fOp_packR ..)
  | vtcfg => exact .ownStream (issued_vtcfg ..) rfl (fOp_packR ..)
  | vtab => exact .ownStream (issued_vtab ..) rfl (fOp_packR ..)
  | vtabl => exact .ownStream (issued_vtabl ..) rfl (fOp_packR ..)
  | vtabq => exact .ownStream (issued_vtabq ..) rfl (fOp_packR ..)
  | vexp2 => exact .ownStream (issued_vexp2 ..) rfl (fOp_packR ..)
  | vlog2 => exact .ownStream (issued_vlog2 ..) rfl (fOp_packR ..)
  | flmatch => exact .ownStream (issued_flmatch ..) rfl (fOp_packR ..)
  | flmerge => exact .ownStream (issued_flmerge ..) rfl (fOp_packR ..)
  | flunmg => exact .ownStream (issued_flunmg ..) rfl (fOp_packR ..)
  | flsize => exact .ownStream (issued_flsize ..) rfl (fOp_packR ..)
  | flsig => exact .ownStream (issued_flsig ..) rfl (fOp_packR ..)
  | flsave => exact .ownStream (issued_flsave ..) rfl (fOp_packR ..)
  | flload => exact .ownStream (issued_flload ..) rfl (fOp_packR ..)
  | flfree => exact .ownStream (issued_flfree ..) rfl (fOp_packR ..)
  | vsmx => exact .ownStream (issued_vsmx ..) rfl (fOp_packR ..)
  | vsmxs => exact .ownStream (issued_vsmxs ..) rfl (fOp_packR ..)
  | prunepk => exact .ownStream (issued_prunepk ..) rfl (fOp_packR ..)
  | prunepkt => exact .ownStream (issued_prunepkt ..) rfl (fOp_packR ..)
  | mdpack => exact .ownStream (issued_mdpack ..) rfl (fOp_packR ..)
  | mdchk => exact .ownStream (issued_mdchk ..) rfl (fOp_packR ..)
  | mmac => exact .ownStream (issued_mmac ..) rfl (fOp_packM ..)
  | mmacs => exact .ownStream (issued_mmacs ..) rfl (fOp_packM ..)
  | mmacg => exact .ownStream (issued_mmacg ..) rfl (fOp_packM ..)
  | mmacsg => exact .ownStream (issued_mmacsg ..) rfl (fOp_packM ..)
  | mclr => exact .ownStream (issued_mclr ..) rfl (fOp_packM ..)
  | mcfg => exact .ownStream (issued_mcfg ..) rfl (fOp_packM ..)
  | mhdr => exact .ownStream (issued_mhdr ..) rfl (fOp_packM ..)
  | mtrn => exact .ownStream (issued_mtrn ..) rfl (fOp_packM ..)
  | xcpy => exact .ownStream (issued_xcpy ..) rfl (fOp_packR ..)
  | xcp2 => exact .ownStream (issued_xcp2 ..) rfl (fOp_packR ..)
  | xcp3 => exact .ownStream (issued_xcp3 ..) rfl (fOp_packR ..)
  | xcvt => exact .ownStream (issued_xcvt ..) rfl (fOp_packR ..)
  | xmcast => exact .ownStream (issued_xmcast ..) rfl (fOp_packR ..)
  | xflw => exact .ownStream (issued_xflw ..) rfl (fOp_packR ..)
  | xvop => exact .ownStream (issued_xvop ..) rfl (fOp_packR ..)
  | xrem => exact .ownStream (issued_xrem ..) rfl (fOp_packR ..)
  | xwait => exact .ownStream (issued_xwait ..) rfl (fOp_packR ..)
  | xcmpl => exact .ownStream (issued_xcmpl ..) rfl (fOp_packR ..)
  | txinit => exact .ownStream (issued_txinit ..) rfl (fOp_packR ..)
  | txexp => exact .ownStream (issued_txexp ..) rfl (fOp_packR ..)
  | txarr => exact .ownStream (issued_txarr ..) rfl (fOp_packR ..)
  | txwait => exact .ownStream (issued_txwait ..) rfl (fOp_packR ..)
  | txtest => exact .ownStream (issued_txtest ..) rfl (fOp_packR ..)
  | rdvComplete | pennantArrival | pennantCompletion | installation | bankSideOperation | aqOperationPerformed | vqOperationPerformed | mqOperationStart | matrixStep
    | mqOperationPerformed | copyCommandPerformed | completionRecord | intakePacketTake | userInterruptDelivery | dispatchRound | probeOutcome | reuseCopyPerformed
    | jobStart | jobRetire | watchdogDeadlock | stallWindowExpiry | sliceEnd | switchBudgetExpiry | npbudgetExpiry | trapDelivery | calendarSlotIssue | homeSlicePerform
    | readCompletion | writeAck | translationWalkComplete | windowAccessArrival | go | stop | stepRecordArrival | snapshotCommit | rollbackRequest | rollback
    | vaultBankFailure | graphLoad | graphUnload | graphCommandEnd | contextEnable | vaultRangeDeclare | pbsetWrite | releaseDeliver | releaseKill | vacate | throtnWrite
    | sensorUpdate | mgmtTrapEntry | columnEnterC1 | columnEnterDeep | columnWake | flitReceive | remoteStoreAck | ingressRelease | hostRequest | bootgo
    | bootImageLoaded | attgo | attestationDone | warmrst | coldReset | functionLevelReset | packagePowerLoss | registerWrite | illegalEncoding | fabricAccessCompletion
    | repairReplay | frozenPortRelease => cases hword

/-! Events. -/

theorem withJob_answers (s : State) (n : CoreNo) (f : Nat → Job → State) : ∃ t, withJob s n f = .next t := by
  unfold withJob
  split <;> exact ⟨_, rfl⟩

theorem engineMove_answers (s : State) (n : CoreNo) (q : Queue) (way : Travel) (src dst : Nat) : ∃ t, engineMove s n q way src dst = .next t := by
  unfold engineMove
  dsimp only
  repeat' split
  all_goals exact ⟨_, rfl⟩

theorem engineFabric_answers (s : State) (n : CoreNo) (q : Queue) (ur : Bool) : ∃ t, engineFabric s n q ur = .next t := by
  unfold engineFabric
  split
  · exact engineMove_answers ..
  · dsimp only
    split <;> exact ⟨_, rfl⟩

theorem event_answers {i : Instr} (hevent : i.isWord = false) (s : State) : ∃ t, exec i s = .next t := by
  cases i with
  | go | stop | rollbackRequest | vaultRangeDeclare | pbsetWrite | releaseDeliver | releaseKill | vacate | throtnWrite | bootgo | warmrst | coldReset
    | functionLevelReset | packagePowerLoss | repairReplay | frozenPortRelease => exact ⟨_, rfl⟩
  | bankSideOperation => rw [exec_bankSideOperation, execBankSideOperation]; exact withJob_answers ..
  | readCompletion => rw [exec_readCompletion, execReadCompletion]; exact withJob_answers ..
  | writeAck => rw [exec_writeAck, execWriteAck]; exact withJob_answers ..
  | calendarSlotIssue n q =>
    rw [exec_calendarSlotIssue]
    unfold execCalendarSlotIssue
    cases q with
    | aq | xhq => exact engineMove_answers ..
    | lq | sq => exact withJob_answers ..
  | homeSlicePerform n q =>
    rw [exec_homeSlicePerform]
    unfold execHomeSlicePerform
    cases q with
    | aq | xhq => exact engineMove_answers ..
    | lq | sq => exact withJob_answers ..
  | windowAccessArrival n q =>
    rw [exec_windowAccessArrival]
    unfold execWindowAccessArrival
    cases q with
    | aq | xhq => exact engineMove_answers ..
    | lq | sq => exact withJob_answers ..
  | fabricAccessCompletion n q ur =>
    rw [exec_fabricAccessCompletion]
    unfold execFabricAccessCompletion
    cases q with
    | aq | xhq => exact engineFabric_answers ..
    | lq | sq => exact withJob_answers ..
  | rdvComplete | pennantArrival | pennantCompletion | installation | aqOperationPerformed | vqOperationPerformed | mqOperationStart | matrixStep | mqOperationPerformed
    | copyCommandPerformed | completionRecord | intakePacketTake | userInterruptDelivery | dispatchRound | probeOutcome | reuseCopyPerformed | jobStart | jobRetire
    | watchdogDeadlock | stallWindowExpiry | sliceEnd | switchBudgetExpiry | npbudgetExpiry | trapDelivery | translationWalkComplete | stepRecordArrival | snapshotCommit
    | rollback | vaultBankFailure | graphLoad | graphUnload | graphCommandEnd | contextEnable | sensorUpdate | mgmtTrapEntry | columnEnterC1 | columnEnterDeep
    | columnWake | flitReceive | remoteStoreAck | ingressRelease | hostRequest | bootImageLoaded | attgo | attestationDone | registerWrite | illegalEncoding =>
    simp only [exec_rdvComplete, execRdvComplete, exec_pennantArrival, execPennantArrival, exec_pennantCompletion, execPennantCompletion, exec_installation,
      execInstallation, exec_aqOperationPerformed, execAqOperationPerformed, exec_vqOperationPerformed, execVqOperationPerformed, exec_mqOperationStart,
      execMqOperationStart, exec_matrixStep, execMatrixStep, exec_mqOperationPerformed, execMqOperationPerformed, exec_copyCommandPerformed, execCopyCommandPerformed,
      exec_completionRecord, execCompletionRecord, exec_intakePacketTake, execIntakePacketTake, exec_userInterruptDelivery, execUserInterruptDelivery,
      exec_dispatchRound, execDispatchRound, exec_probeOutcome, execProbeOutcome, exec_reuseCopyPerformed, execReuseCopyPerformed, exec_jobStart, execJobStart,
      exec_jobRetire, execJobRetire, exec_watchdogDeadlock, execWatchdogDeadlock, exec_stallWindowExpiry, execStallWindowExpiry, exec_sliceEnd, execSliceEnd,
      exec_switchBudgetExpiry, execSwitchBudgetExpiry, exec_npbudgetExpiry, execNpbudgetExpiry, exec_trapDelivery, execTrapDelivery, exec_translationWalkComplete,
      execTranslationWalkComplete, exec_stepRecordArrival, execStepRecordArrival, exec_snapshotCommit, execSnapshotCommit, exec_rollback, execRollback,
      exec_vaultBankFailure, execVaultBankFailure, exec_graphLoad, execGraphLoad, exec_graphUnload, execGraphUnload, exec_graphCommandEnd, execGraphCommandEnd,
      exec_contextEnable, execContextEnable, exec_sensorUpdate, execSensorUpdate, exec_mgmtTrapEntry, execMgmtTrapEntry, exec_columnEnterC1, execColumnEnterC1,
      exec_columnEnterDeep, execColumnEnterDeep, exec_columnWake, execColumnWake, exec_flitReceive, execFlitReceive, exec_remoteStoreAck, execRemoteStoreAck,
      exec_ingressRelease, execIngressRelease, exec_hostRequest, execHostRequest, exec_bootImageLoaded, execBootImageLoaded, exec_attgo, execAttgo,
      exec_attestationDone, execAttestationDone, exec_registerWrite, execRegisterWrite, exec_illegalEncoding, execIllegalEncoding, illegal]
    repeat' split
    all_goals exact ⟨_, rfl⟩
  | add | sub | and | or | xor | andn | sll | srl | sra | rol | mul | mulh | mulhu | div | divu | rem | remu | min | minu | max | maxu | seq | sne | slt | sltu | sle
    | sleu | clz | ctz | popc | bswap | sexb | sexh | sexw | fadd | fsub | fmul | fdiv | fmin | fmax | fminp | fmaxp | fcvtfi | fcvtif | feq | flt | fle | addi | andi
    | ori | xori | slli | srli | srai | slti | lui | lix | lihx | addx | beq | bne | blt | bge | bltu | bgeu | bset | bclr | jal | jalr | loop | loopi | loopk | loopm
    | qwait | qroom | qadv | qadvp | qrst | qpop | qpeek | qput | qcfg | qcnt | bqt | bqf | nop | rdv0 | rdvEnd | rdvStreamSet | pbar | pbara | pbarw | wfi | ipref | rdc
    | wrc | rdk | rdcyc | rdid | rdloop | ldb | ldbs | ldh | ldhs | ldw | ldws | ldd | stb | sth | stw | std | lsmark | l1inv | l1inva | pref | own | disown | amoadd
    | amoand | amoor | amoxor | amomin | amominu | amomax | amomaxu | amoswp | amocas | amofadd | fence | qfence | spawn | spwait | sptest | depdec | depinc | wlcfg
    | wlpush | wlins | wlpopb | wlcnt | wldrain | frnck | frnput | frninv | frnstat | frnflush | vtadd | vtfadd | vtmax | vtcas | vtsac | trap | eret | uiret | brk
    | sysc | rtfill | rtnext | resume | kill | tlbinv | apcfg | astrm | astro | agath | ascat | awcfg | awin | awpass | aprf | vadd | vsub | vmul | vfma | vfms | vfnma
    | vmin | vmax | vminp | vmaxp | vabs | vneg | vdiv | vsqrt | vsgn | vand | vor | vxor | vnot | vsll | vsrl | vsra | vaddsat | vsubsat | vmulhi | vceq | vcne | vclt
    | vcle | vcgt | vcge | vcun | vsel | mand | mor | mxor | mnot | mpop | mfirst | vcvt | vrsum | vrmax | vrmin | vscan | vmov | vbcast | vext | vins | vperm | vrot
    | vidx | vpack | vunpk | vld | vst | vldq | vstq | vgat | vsct | swait | vpart | vcmpk | vexpd | vtcfg | vtab | vtabl | vtabq | vexp2 | vlog2 | flmatch | flmerge
    | flunmg | flsize | flsig | flsave | flload | flfree | vsmx | vsmxs | prunepk | prunepkt | mdpack | mdchk | mmac | mmacs | mmacg | mmacsg | mclr | mcfg | mhdr | mtrn
    | xcpy | xcp2 | xcp3 | xcvt | xmcast | xflw | xvop | xrem | xwait | xcmpl | txinit | txexp | txarr | txwait | txtest => cases hevent

/-! Registers still to come (R90, R115). -/

/-- An instruction that reads s[a] and s[b] waits while either is still to come. -/
theorem issue_due_pair {s : State} {a b : Reg} {nd : Need} {body : State → Agent → Res} (hi : canIssue s s.turn = true) (hc : issueCheck s s.turn 1 {} = none)
    (hdue : isDue s s.turn a = true ∨ isDue s s.turn b = true) (hreads : nd = { reads := [a, b] } := by rfl) : issue 1 nd s body = waitsIn s s .waiting := by
  subst hreads
  exact issue_due body hi hc (by simpa using hdue)

/-- Settles O57: words by how each issues, events by `event_answers`. -/
theorem instructionChecks : Obligations.InstructionChecks := by
  unfold Obligations.InstructionChecks
  refine ⟨fun i s => ?answers, fun i s hw hi => ?idle, fun i s n j t w r hturn hi hw he hhigh hne => ?stranger, fun s n j d a b hturn hi hsv => ?privilege, fun s d a b hi hc hdue => ?due⟩
  case answers =>
    cases hw : i.isWord with
    | true => obtain ⟨_, _, _, h, -⟩ := issuesByMajor hw s; exact h.answers
    | false => exact event_answers hw s
  case idle =>
    obtain ⟨_, _, _, h, -⟩ := issuesByMajor hw s
    exact h.idle hi
  case stranger =>
    obtain ⟨_, ss, _, h, hmajor⟩ := issuesByMajor hw s
    refine h.stranger hi hturn ?_
    rw [hmajor w r he hhigh]
    simpa using Ne.symm hne
  case privilege =>
    have hpriv {r : Result} (h : Issued 1 [.c] true s r) : r = trapsWith s { cause := cPriv } :=
      h.privilege hi hturn (List.mem_singleton_self _) rfl (by rw [hturn]; exact hsv)
    simp only [List.forall_mem_cons, List.not_mem_nil, IsEmpty.forall_iff, implies_true, and_true]
    exact ⟨hpriv (issued_eret ..), hpriv (issued_rtnext ..), hpriv (issued_rtfill ..), hpriv (issued_resume ..), hpriv (issued_kill ..), hpriv (issued_tlbinv ..)⟩
  case due =>
    simp only [List.forall_mem_cons, List.not_mem_nil, IsEmpty.forall_iff, implies_true, and_true]
    simp only [exec_add, execAdd, exec_sub, execSub, exec_and, execAnd, exec_or, execOr, exec_xor, execXor, exec_mul, execMul, exec_div, execDiv, exec_slt, execSlt, aluOp,
      exec_fadd, execFadd, exec_fmul, execFmul, fpOp, exec_beq, execBeq, exec_bne, execBne, branchOp]
    and_intros <;> exact issue_due_pair hi hc hdue

end Sys2Proof.Machine

/-! Rendezvous, waiting and prefetch (R35, R65, R174, R177, R178, R331). -/

namespace Sys2Proof.Machine

open Sys2Proof.Config

/-! Rendezvous. -/

theorem rdvArrived_iff (b : Job) (set : BitVec 5) (k : Nat) (t : Sid) :
    rdvArrived b set k t = true ↔ (b.streams.get t).run = .ended ∨ (b.streams.get t).atEnd = true ∨ k ≤ tget 0 (b.streams.get t).rdv set.toNat := by
  simp [rdvArrived, or_assoc]

theorem rdvMet_iff (b : Job) (set : BitVec 5) (k : Nat) :
    rdvMet b set k = true ↔ k ≤ tget 0 b.met set.toNat ∨ ∀ t, set.getLsbD (sidNum t) = true → rdvArrived b set k t = true := by
  have hall (t : Sid) : t ∈ allSids := by cases t <;> decide
  simp only [rdvMet, Bool.or_eq_true, decide_eq_true_eq, List.all_eq_true, Bool.not_eq_true', hall, forall_const]
  refine or_congr_right (forall_congr' fun t => ?_)
  cases set.getLsbD (sidNum t) <;> simp

/-- A stream of the set that runs arrives at the set's next instance and waits there. -/
theorem rdvOp_arrives {s : State} {set : BitVec 5} (hr : Ready 1 { mgmt := false } s) (hset : set.getLsbD (sidNum (sidOfAgent s.turn)) = true) (hrun : (streamOf s s.turn).run = .running) :
    let i := tget 0 (streamOf s s.turn).rdv set.toNat + 1
    rdvOp set s = waitsIn s (modStream (began s) s.turn (fun st => { st with rdv := tset st.rdv set.toNat i })) (.atRdv set i) := by
  simp [rdvOp, issue_ready hr, hset, streamOf_began, hrun]

/-- A stream that waits at a rendezvous goes on waiting there. -/
theorem rdvOp_waits {s : State} {set q : BitVec 5} {i : Nat} (hr : Ready 1 { mgmt := false } s) (hset : set.getLsbD (sidNum (sidOfAgent s.turn)) = true)
    (hrun : (streamOf s s.turn).run = .atRdv q i) : rdvOp set s = waitsIn s (began s) (.atRdv q i) := by
  simp [rdvOp, issue_ready hr, hset, streamOf_began, hrun]

theorem rdvOp_stranger {s : State} {set : BitVec 5} (hr : Ready 1 { mgmt := false } s) (hset : set.getLsbD (sidNum (sidOfAgent s.turn)) = false) :
    rdvOp set s = trapsWith s { cause := cIllegal } := by
  simp [rdvOp, issue_ready hr, hset, raise]

theorem all_streams_in_set (t : Sid) : (0x1F#5).getLsbD (sidNum t) = true := by cases t <;> rfl

/-! Prefetch. -/

@[simp] theorem began_core_prefetches (s : State) (m : Nat) : (coreOf (began s) m).prefetches = (coreOf s m).prefetches := by unfold began beginInstr; rw [coreOf_modStream_any]

/-- What an address must meet for its lines to be moved (R65). -/
theorem iprefIgnored_eq_false (s : State) (n : Nat) (b : Job) (va : Word) :
    iprefIgnored s n b va = false ↔ (b.kernel.toNat ≤ va.toNat ∧ va.toNat < b.kernel.toNat + b.codeLen)
      ∧ (∃ pa key, translate s b.part b.ctx (some n) va .fetch true = .ok pa key) ∧ ((coreOf s n).prefetches.filter (s.now < ·)).length < 16 := by
  unfold iprefIgnored
  generalize translate s b.part b.ctx (some n) va .fetch true = x
  cases x <;> simp [and_assoc]

theorem iprefIgnored_eq_true (s : State) (n : Nat) (b : Job) (va : Word) :
    iprefIgnored s n b va = true ↔ ¬ (b.kernel.toNat ≤ va.toNat ∧ va.toNat < b.kernel.toNat + b.codeLen)
      ∨ (∀ pa key, translate s b.part b.ctx (some n) va .fetch true ≠ .ok pa key) ∨ 16 ≤ ((coreOf s n).prefetches.filter (s.now < ·)).length := by
  rw [← Bool.not_eq_false, iprefIgnored_eq_false, not_and_or, not_and_or (a := ∃ _, _), Nat.not_lt]
  simp only [not_exists, ne_eq]

theorem iprefIgnored_began (s : State) (n j : Nat) (va : Word) : iprefIgnored (began s) n (jobOf (began s) n j) va
    = iprefIgnored (began s) n (jobOf s n j) va := by
  unfold iprefIgnored
  simp

theorem execIpref_ignored {s : State} {n j : Nat} {t : Sid} {a : Reg} (k : BitVec 6) (hturn : s.turn = .stream n j t) (hr : Ready 1 { reads := [a] } s)
    (hi : iprefIgnored (began s) n (jobOf s n j) (reg s s.turn a) = true) : exec (.ipref a k) s = completes s 1 (began s) := by
  have hreg := reg_began s a
  rw [hturn] at hi hreg
  rw [exec_ipref, execIpref, issue_ready hr]
  simp [hturn, hreg, hi, iprefIgnored_began, completes]

theorem execIpref_moves {s : State} {n j : Nat} {t : Sid} {a : Reg} (k : BitVec 6) (hturn : s.turn = .stream n j t) (hr : Ready 1 { reads := [a] } s)
    (hi : iprefIgnored (began s) n (jobOf s n j) (reg s s.turn a) = false) :
    exec (.ipref a k) s = completes s 1 (prefetchLines (modCore (began s) n (fun c => { c with prefetches := c.prefetches.filter (s.now < ·) }))
      (jobOf s n j).part (jobOf s n j).ctx n (reg s s.turn a) (k.toNat + 1)) := by
  have hreg := reg_began s a
  rw [hturn] at hi hreg
  rw [exec_ipref, execIpref, issue_ready hr]
  simp [hturn, hreg, hi, iprefIgnored_began, completes]

/-! A stream in `wfi` is woken (R177). -/

/-- How the run of a stream changes where it is woken under a condition. -/
def Woken (r r' : Run) (p : Prop) : Prop := (r = .inWfi false → p → r' = .inWfi true) ∧ (r ≠ .inWfi false ∨ ¬ p → r' = r)

theorem Woken.of_ite {r : Run} {p : Bool} {q : Prop} (h : p = true ↔ q) : Woken r (if p && r == .inWfi false then .inWfi true else r) q := by
  unfold Woken
  constructor
  · rintro rfl hq
    simp [h.2 hq]
  · rintro (hr | hq)
    · simp [hr]
    · simp [Bool.eq_false_iff.2 (mt h.1 hq)]

theorem Woken.refl {r : Run} {p : Prop} (h : ¬ p) : Woken r r p := ⟨fun _ hp => absurd hp h, fun _ => rfl⟩

theorem Woken.trans {r r' r'' : Run} {p q : Prop} (h : Woken r r' p) (h' : Woken r' r'' q) : Woken r r'' (p ∨ q) := by
  unfold Woken at *
  by_cases hr : r = .inWfi false
  · by_cases hp : p
    · have e := h.1 hr hp
      subst e
      exact ⟨fun _ _ => h'.2 (.inl (by simp)), fun hn => absurd hn (by simp [hr, hp])⟩
    · have e := h.2 (.inr hp)
      subst e
      exact ⟨fun _ hpq => h'.1 hr (hpq.resolve_left hp), fun hn => h'.2 (hn.imp id (mt .inr))⟩
  · have e := h.2 (.inl hr)
    subst e
    exact ⟨fun hn => absurd hn hr, fun _ => h'.2 (.inl hr)⟩

/-- The run of a stream of a job. -/
def runOf (s : State) (n j : Nat) (t : Sid) : Run := ((jobOf s n j).streams.get t).run

/-- A stream in `wfi` goes on where its condition holds: what `wakeWfi` does to one stream. -/
def wakeOne (p : Sid → Bool) (fs : Five Stream) (t : Sid) : Five Stream :=
  if p t && (fs.get t).run == .inWfi false then fs.set t { fs.get t with run := .inWfi true } else fs

theorem wakeOne_run_same (p : Sid → Bool) (fs : Five Stream) (t : Sid) :
    ((wakeOne p fs t).get t).run = if p t && (fs.get t).run == .inWfi false then .inWfi true else (fs.get t).run := by
  unfold wakeOne
  split <;> simp

theorem wakeOne_get_other (p : Sid → Bool) (fs : Five Stream) {t u : Sid} (h : u ≠ t) : (wakeOne p fs t).get u = fs.get u := by
  unfold wakeOne
  split
  · rw [Five.get_set_other _ _ h]
  · rfl

theorem wakeAll_run (p : Sid → Bool) (fs : Five Stream) (t : Sid) :
    ((allSids.foldl (wakeOne p) fs).get t).run = if p t && (fs.get t).run == .inWfi false then .inWfi true else (fs.get t).run := by
  simp only [allSids, List.foldl_cons, List.foldl_nil]
  cases t <;> simp [wakeOne_run_same, wakeOne_get_other]

theorem wakeWfi_woken (s : State) (n j : Nat) (p : Sid → Bool) (t : Sid) : Woken (runOf s n j t) (runOf (wakeWfi s n j p) n j t) (p t = true) := by
  have hrun : runOf (wakeWfi s n j p) n j t = ((allSids.foldl (wakeOne p) (jobOf s n j).streams).get t).run := by
    unfold runOf wakeWfi
    rw [jobOf_modJob]
    rfl
  rw [hrun, wakeAll_run]
  exact .of_ite Iff.rfl

/-- A write to a descriptor wakes the streams for whom slots became filled or free. -/
theorem setDesc_woken (s : State) (n j : Nat) (t : Sid) (h : Handle) (off : Nat) (l : List Byte) :
    let d := descOf s n j h
    let e := descOf (setDesc s n j h off l) n j h
    Woken (runOf s n j t) (runOf (setDesc s n j h off l) n j t) ((e.cons = sidNum t ∧ qFilled d < qFilled e) ∨ (e.prod = sidNum t ∧ qFree d < qFree e)) := by
  dsimp only
  unfold setDesc wakeEnds
  generalize hu : ({ s with mem := memWrite s.mem (descAt n j h + off) l } : State) = u
  have hrun : runOf u n j t = runOf s n j t := by rw [← hu]; rfl
  have hdesc (p : Sid → Bool) : descOf (wakeWfi u n j p) n j h = descOf u n j h := rfl
  rw [hdesc, ← hrun]
  have hw := wakeWfi_woken u n j (fun t => ((descOf u n j h).cons == sidNum t && qFilled (descOf s n j h) < qFilled (descOf u n j h))
    || ((descOf u n j h).prod == sidNum t && qFree (descOf s n j h) < qFree (descOf u n j h))) t
  simpa using hw

theorem jobOf_modJob_any (s : State) (n j m k : Nat) (f : Job → Job) :
    jobOf (modJob s n j f) m k = if m = n ∧ (j = 0) = (k = 0) then f (jobOf s m k) else jobOf s m k := by
  unfold jobOf modJob
  rw [slotOf_modSlot]
  split <;> rfl

/-- An update of a job that keeps the runs of its streams. -/
theorem runOf_modJob {s : State} {n j : Nat} {f : Job → Job} (hf : ∀ b x, ((f b).streams.get x).run = (b.streams.get x).run) (m k : Nat) (t : Sid) :
    runOf (modJob s n j f) m k t = runOf s m k t := by
  unfold runOf
  rw [jobOf_modJob_any]
  split
  · exact hf ..
  · rfl

theorem runOf_modStream {s : State} {a : Agent} {f : Stream → Stream} (hf : ∀ st, (f st).run = st.run) (m k : Nat) (t : Sid) :
    runOf (modStream s a f) m k t = runOf s m k t := by
  cases a with
  | mgmt => rfl
  | stream n j x =>
    refine runOf_modJob (fun b y => ?_) m k t
    rcases eq_or_ne y x with rfl | hne
    · simp [hf]
    · simp [Five.get_set_other _ _ hne]

theorem runOf_modAgentJob {s : State} {a : Agent} {f : Job → Job} (hf : ∀ b x, ((f b).streams.get x).run = (b.streams.get x).run) (m k : Nat) (t : Sid) :
    runOf (modAgentJob s a f) m k t = runOf s m k t := by
  cases a with
  | mgmt => rfl
  | stream n j x => exact runOf_modJob hf m k t

@[simp] theorem runOf_writePlace (s : State) (a : Agent) (i : Nat) (v : Word) (m k : Nat) (t : Sid) : runOf (writePlace s a i v) m k t = runOf s m k t := by
  unfold writePlace
  split
  · rfl
  · dsimp only
    split
    · refine runOf_modStream ?_ m k t
      exact fun _ => rfl
    · split
      all_goals
        refine Eq.trans (runOf_modAgentJob ?_ m k t) (runOf_modStream ?_ m k t)
        · exact fun _ _ => rfl
        · exact fun _ => rfl

theorem runOf_foldl {ι : Type} {f : State → ι → State} {m k : Nat} {t : Sid} (hf : ∀ s i, runOf (f s i) m k t = runOf s m k t) (l : List ι) (s : State) :
    runOf (l.foldl f s) m k t = runOf s m k t := by
  induction l generalizing s with
  | nil => rfl
  | cons i l ih => rw [List.foldl_cons, ih, hf]

@[simp] theorem runOf_coreRaw (s : State) (n off : Nat) (l : List Byte) (lo hi m k : Nat) (t : Sid) : runOf (coreRaw s n off l lo hi) m k t = runOf s m k t := by
  unfold coreRaw
  dsimp only
  split <;> rfl

@[simp] theorem runOf_sregWrite (s : State) (n off : Nat) (l : List Byte) (m k : Nat) (t : Sid) : runOf (sregWrite s n off l) m k t = runOf s m k t := by
  refine runOf_foldl (fun s i => ?_) _ s
  extract_lets o
  split
  · rfl
  · extract_lets a
    split
    · exact runOf_writePlace ..
    · rfl

@[simp] theorem runOf_stirJobs (s : State) (n m k : Nat) (t : Sid) : runOf (stirJobs s n) m k t = runOf s m k t := by
  unfold stirJobs
  dsimp only
  rw [runOf_modJob, runOf_modJob]
  all_goals exact fun _ _ => rfl

/-- The STEP mask of a slot written. -/
theorem runOf_modSlot_step (s : State) (n j : Nat) (v : BitVec 5) (m k : Nat) (t : Sid) : runOf (modSlot s n j (fun sl => { sl with step := v })) m k t = runOf s m k t := by
  unfold runOf jobOf
  rw [slotOf_modSlot]
  split <;> rfl

/-- A stream in `wfi` of either slot is woken where both slots are. -/
theorem wakeBoth_wakes {s : State} {n j : Nat} {t : Sid} (hj : j < 2) (hrun : runOf s n j t = .inWfi false) :
    runOf (wakeWfi (wakeWfi s n 0 (fun _ => true)) n 1 (fun _ => true)) n j t = .inWfi true := by
  have hother {u : State} {i k : Nat} (hne : ¬ (i = 0) = (k = 0)) : runOf (wakeWfi u n i (fun _ => true)) n k t = runOf u n k t := by
    unfold runOf wakeWfi
    rw [jobOf_modJob_any, if_neg (fun h => hne h.2)]
  interval_cases j
  · rw [hother (by simp)]
    exact (wakeWfi_woken s n 0 _ t).1 hrun rfl
  · exact (wakeWfi_woken _ n 1 _ t).1 (by rw [hother (by simp), hrun]) rfl

/-- A write that touches the descriptor window of a core wakes its streams in `wfi`. -/
theorem coreWrite_wakes {s : State} {n j off : Nat} {t : Sid} {l : List Byte} (hj : j < 2) (hlow : off < descOffset + 0x1000) (hhigh : descOffset < off + l.length)
    (hrun : runOf s n j t = .inWfi false) : runOf (coreWrite s n off l) n j t = .inWfi true := by
  unfold coreWrite
  dsimp only
  have hsreg {p : Prop} [Decidable p] (u : State) (a : Nat) (r : List Byte) : runOf (if p then sregWrite u n a r else u) n j t = runOf u n j t := by
    split <;> simp
  rw [runOf_foldl (fun s i => by split; exacts [runOf_modSlot_step .., rfl]), hsreg, if_pos (And.intro hlow hhigh)]
  refine wakeBoth_wakes hj ?_
  rw [runOf_stirJobs, runOf_coreRaw]
  split <;> split <;> simpa using hrun

/-- One position woken (R177). -/
def wakePosition (c : Nat) (s : State) (pos : Nat) : State :=
  match (coreOf s (pos / 8)).active with
  | some j => if (jobOf s (pos / 8) j).ctx = c then wakeWfi s (pos / 8) j (fun t => sidNum t == pos % 8) else s
  | none => s

theorem wakePositions_cons (s : State) (c pos : Nat) (who : List Nat) : wakePositions s c (pos :: who) = wakePositions (wakePosition c s pos) c who := rfl

theorem eq_posOf_iff (n : Nat) (t : Sid) (pos : Nat) : pos = posOf n t ↔ pos / 8 = n ∧ sidNum t = pos % 8 := by
  unfold posOf
  have : sidNum t < 8 := by cases t <;> decide
  omega

theorem wakeWfi_active (s : State) (n j m : Nat) (p : Sid → Bool) : (coreOf (wakeWfi s n j p) m).active = (coreOf s m).active := by
  unfold wakeWfi modJob modSlot
  rw [coreOf_modCore_any]
  split <;> simp

theorem wakeWfi_ctx (s : State) (n j m k : Nat) (p : Sid → Bool) : (jobOf (wakeWfi s n j p) m k).ctx = (jobOf s m k).ctx := by
  unfold wakeWfi
  rw [jobOf_modJob_any]
  split <;> rfl

theorem wakePosition_active (s : State) (c pos m : Nat) : (coreOf (wakePosition c s pos) m).active = (coreOf s m).active := by
  unfold wakePosition
  split
  · split
    · exact wakeWfi_active ..
    · rfl
  · rfl

theorem wakePosition_ctx (s : State) (c pos m k : Nat) : (jobOf (wakePosition c s pos) m k).ctx = (jobOf s m k).ctx := by
  unfold wakePosition
  split
  · split
    · exact wakeWfi_ctx ..
    · rfl
  · rfl

theorem wakePosition_woken {s : State} {n j c : Nat} (pos : Nat) (t : Sid) (hactive : (coreOf s n).active = some j) (hctx : (jobOf s n j).ctx = c) :
    Woken (runOf s n j t) (runOf (wakePosition c s pos) n j t) (pos = posOf n t) := by
  rw [eq_posOf_iff]
  unfold wakePosition
  rcases eq_or_ne (pos / 8) n with hn | hn
  · rw [hn, hactive]
    dsimp only
    rw [if_pos hctx]
    simpa using wakeWfi_woken s n j (fun t => sidNum t == pos % 8) t
  · have hsame : runOf (wakePosition c s pos) n j t = runOf s n j t := by
      unfold wakePosition
      split
      · split
        · unfold runOf wakeWfi
          rw [jobOf_modJob_any, if_neg (fun h => hn h.1.symm)]
        · rfl
      · rfl
    unfold wakePosition at hsame
    rw [hsame]
    exact .refl (fun h => hn h.1)

theorem wakePositions_woken {s : State} {n j c : Nat} (who : List Nat) (t : Sid) (hactive : (coreOf s n).active = some j) (hctx : (jobOf s n j).ctx = c) :
    Woken (runOf s n j t) (runOf (wakePositions s c who) n j t) (posOf n t ∈ who) := by
  induction who generalizing s with
  | nil => exact .refl (List.not_mem_nil)
  | cons pos who ih =>
    have hrest := ih (s := wakePosition c s pos) (by rw [wakePosition_active, hactive]) (by rw [wakePosition_ctx, hctx])
    have hboth := (wakePosition_woken pos t hactive hctx).trans hrest
    rw [wakePositions_cons]
    rwa [List.mem_cons, eq_comm (a := posOf n t)]

/-! The completion of a rendezvous (R35), and the statement. -/

theorem execRdvComplete_active {s : State} {n : CoreNo} {j : Nat} (set : BitVec 5) (hactive : (coreOf s n.toNat).active = some j) (hfrozen : (coreOf s n.toNat).frozen = false) :
    let who := allSids.filter (rdvReady (jobOf s n.toNat j) set)
    exec (.rdvComplete n set) s = if who = [] then .next s else .next (who.foldl (fun u t => retire u (.stream n.toNat j t) 1 .seq)
        (modJob s n.toNat j (fun b => { b with rdvDone := tset b.rdvDone set.toNat (tget 0 b.rdvDone set.toNat + 1) }))) := by
  simp only [exec_rdvComplete, execRdvComplete, hactive, hfrozen, Bool.false_eq_true, if_false, List.isEmpty_iff]

theorem execWfi_mgmt {s : State} (hr : Ready 1 {} s) (hturn : s.turn = .mgmt) :
    exec .wfi s = if s.mgmt.mevent = 0#4 then waitsIn s (began s) (.inWfi false) else completes s 1 (began s) := by
  have hm : (began s).mgmt.mevent = s.mgmt.mevent := by unfold began; rw [hturn]; rfl
  rw [exec_wfi, execWfi, issue_ready hr, completes, hturn]
  simp only [hm]
  by_cases he : s.mgmt.mevent = 0#4 <;> simp [he]

theorem execWfi_stream {s : State} (hr : Ready 1 {} s) (hturn : s.turn ≠ .mgmt) :
    exec .wfi s = if (streamOf s s.turn).run = .inWfi true then completes s 1 (began s) else waitsIn s (began s) (.inWfi false) := by
  have hrun : (streamOf (began s) s.turn).run = (streamOf s s.turn).run := by rw [streamOf_began]
  rw [exec_wfi, execWfi, issue_ready hr, completes]
  cases ht : s.turn with
  | mgmt => exact absurd ht hturn
  | stream n j t =>
    rw [ht] at hrun
    simp only [hrun]
    cases hw : (streamOf s (.stream n j t)).run with
    | inWfi w => cases w <;> simp
    | running | onQueue | atRdv | waiting | stopped | ended => simp

/-- Settles O9: the instructions by `issue_ready`, the three wakings by `Woken` and `wakeBoth_wakes`. -/
theorem rendezvousAndWaitResults : Obligations.RendezvousAndWaitResults := by
  unfold Obligations.RendezvousAndWaitResults
  refine ⟨fun s n j t set a k hturn => ⟨fun hr => ?nop, fun hr => ⟨?rdvEnd, fun hrun => ?rdv0, fun hset hrun => ?arrive, fun hset q i hrun => ?waits, fun hset => ?stranger⟩, fun hr => ⟨fun pa key hcode hfound hfew => ?moves, fun h => ?ignored⟩⟩,
    fun s n j set hactive hfrozen => ⟨fun q k => ?met, fun h => ?none, fun h => ?resume⟩,
    fun s hr => ⟨fun ht hrun => ?wfi, fun ht hrun => ?woken, fun ht he => ?mgmt, fun ht he => ?mevent⟩,
    fun s n j t => ⟨fun h off l => setDesc_woken s n j t h off l, fun off l hj hlow hhigh hrun => coreWrite_wakes hj hlow hhigh hrun,
      fun c who hactive hctx => wakePositions_woken who t hactive hctx⟩⟩
  case nop => simp [exec_nop, execNop, issue_ready hr, completes]
  case rdvEnd => simp [exec_rdvEnd, execRdvEnd, issue_ready hr, goesOn]
  case rdv0 => exact rdvOp_arrives hr (all_streams_in_set _) hrun
  case arrive => exact rdvOp_arrives hr (by rw [hturn]; exact hset) hrun
  case waits => exact rdvOp_waits hr (by rw [hturn]; exact hset) hrun
  case stranger => exact rdvOp_stranger hr (by rw [hturn]; exact hset)
  case moves =>
    refine execIpref_moves k hturn hr ((iprefIgnored_eq_false ..).2 ⟨hcode, ⟨pa, key, hfound⟩, ?_⟩)
    simpa using hfew
  case ignored =>
    refine execIpref_ignored k hturn hr ((iprefIgnored_eq_true ..).2 ?_)
    simpa using h
  case met => simp only [rdvMet_iff, rdvArrived_iff]
  case none => exact (execRdvComplete_active set hactive hfrozen).trans (if_pos h)
  case resume => exact (execRdvComplete_active set hactive hfrozen).trans (if_neg h)
  case wfi => rw [execWfi_stream hr ht, if_neg (by rw [hrun]; simp)]
  case woken => rw [execWfi_stream hr ht, if_pos hrun]
  case mgmt => rw [execWfi_mgmt hr ht, if_pos he]
  case mevent => rw [execWfi_mgmt hr ht, if_neg he]

end Sys2Proof.Machine

/-! What a write at a virtual address keeps, wherever it goes (R99): the time, the keep regions that are resident, and what a graph load leaves of each context. A write may reach any register of partition control, so that it may start loops, end slices, and release or kill frozen cores. -/

namespace Sys2Proof.Machine

open Sys2Proof.Config

/-! The frame. -/

/-- What a write keeps of a context: its graph with its generation, its Firn entries, and that it has no launch. -/
structure CtxKept (x y : Context) : Prop where
  graph : y.graph = x.graph
  gen : y.gen = x.gen
  firn : y.firn = x.firn
  idle : x.launch = none → y.launch = none

theorem CtxKept.refl (x : Context) : CtxKept x x := ⟨rfl, rfl, rfl, id⟩

theorem CtxKept.trans {x y z : Context} (h : CtxKept x y) (g : CtxKept y z) : CtxKept x z :=
  ⟨g.graph.trans h.graph, g.gen.trans h.gen, g.firn.trans h.firn, fun hx => g.idle (h.idle hx)⟩

/-- From s to u the time, the resident keep regions and each context's graph stand. -/
structure WriteKeeps (s u : State) : Prop where
  now : u.now = s.now
  resident : ∀ n, (coreOf u n).resident = (coreOf s n).resident
  ctx : ∀ p c, CtxKept (ctxOf s p c) (ctxOf u p c)

namespace WriteKeeps

variable {s u w : State}

theorem refl (s : State) : WriteKeeps s s := ⟨rfl, fun _ => rfl, fun _ _ => .refl _⟩

theorem trans (h : WriteKeeps s u) (g : WriteKeeps u w) : WriteKeeps s w :=
  ⟨g.now.trans h.now, fun n => (g.resident n).trans (h.resident n), fun p c => (h.ctx p c).trans (g.ctx p c)⟩

/-- A state that differs in none of time, cores and partitions. -/
theorem alike (h : WriteKeeps s u) (hnow : w.now = u.now := by rfl) (hcores : w.cores = u.cores := by rfl) (hparts : w.parts = u.parts := by rfl) : WriteKeeps s w := by
  refine h.trans ⟨hnow, fun n => ?_, fun p c => ?_⟩
  · rw [coreOf, coreOf, hcores]
  · rw [ctxOf, ctxOf, partOf, partOf, hparts]
    exact .refl _

theorem modCore (h : WriteKeeps s u) (n : Nat) {f : Core → Core} (hf : ∀ c, (f c).resident = c.resident := by intros; rfl) : WriteKeeps s (modCore u n f) := by
  refine h.trans ⟨rfl, fun m => ?_, fun _ _ => .refl _⟩
  rw [coreOf_modCore_any]
  split
  · exact hf _
  · rfl

theorem modPart (h : WriteKeeps s u) (p : Nat) {f : Partition → Partition} (hf : ∀ q, (f q).ctxs = q.ctxs := by intros; rfl) : WriteKeeps s (modPart u p f) := by
  refine h.trans ⟨rfl, fun _ => rfl, fun q c => ?_⟩
  have hctxs : (partOf (Machine.modPart u p f) q).ctxs = (partOf u q).ctxs := by
    rw [partOf_modPart_any]
    split
    · exact hf _
    · rfl
  rw [ctxOf, ctxOf, hctxs]
  exact .refl _

theorem modCtx (h : WriteKeeps s u) (p c : Nat) {f : Context → Context} (hf : CtxKept (ctxOf u p c) (f (ctxOf u p c))) : WriteKeeps s (modCtx u p c f) := by
  refine h.trans ⟨rfl, fun _ => rfl, fun q d => ?_⟩
  rw [ctxOf_modCtx_any]
  split
  next he => rw [he.1, he.2]; exact hf
  next => exact .refl _

/-- An update of a context that keeps its graph and its launch. -/
theorem modCtx_rest (h : WriteKeeps s u) (p c : Nat) {f : Context → Context} (hgraph : ∀ x, (f x).graph = x.graph := by intros; rfl) (hgen : ∀ x, (f x).gen = x.gen := by intros; rfl)
    (hfirn : ∀ x, (f x).firn = x.firn := by intros; rfl) (hlaunch : ∀ x, (f x).launch = x.launch := by intros; rfl) : WriteKeeps s (Machine.modCtx u p c f) :=
  h.modCtx p c ⟨hgraph _, hgen _, hfirn _, fun hx => (hlaunch _).trans hx⟩

theorem modSlot (h : WriteKeeps s u) (n j : Nat) (f : Slot → Slot) : WriteKeeps s (modSlot u n j f) := h.modCore n (fun _ => setSlot_resident ..)

theorem modJob (h : WriteKeeps s u) (n j : Nat) (f : Job → Job) : WriteKeeps s (modJob u n j f) := h.modSlot n j _

theorem modStream (h : WriteKeeps s u) (a : Agent) (f : Stream → Stream) : WriteKeeps s (modStream u a f) := by
  cases a with
  | mgmt => exact h.alike
  | stream n j t =>
    unfold Machine.modStream
    exact h.modJob n j _

theorem modAgentJob (h : WriteKeeps s u) (a : Agent) (f : Job → Job) : WriteKeeps s (modAgentJob u a f) := by
  cases a with
  | mgmt => exact h
  | stream n j t => exact h.modJob n j _

theorem withMem (h : WriteKeeps s u) (m : Memory) : WriteKeeps s { u with mem := m } := h.alike

theorem foldl {α : Type} {f : State → α → State} (hf : ∀ t x, WriteKeeps t (f t x)) (h : WriteKeeps s u) (l : List α) : WriteKeeps s (l.foldl f u) := by
  induction l generalizing u with
  | nil => exact h
  | cons x r ih => exact ih (h.trans (hf u x))

end WriteKeeps

/-! Recalls, walks and stores. -/

theorem writeBack_keeps (s : State) (x : Line) : WriteKeeps s (writeBack s x) := by
  unfold writeBack
  repeat' split
  · exact (WriteKeeps.refl s).withMem _
  · exact .refl s
  · exact .refl s

theorem recallLine_keeps (s : State) (me : Option Nat) (pa len : Nat) : WriteKeeps s (recallLine s me pa len) := by
  refine .foldl (fun t e => ?_) (.refl s) _
  split
  · exact .refl t
  · exact (WriteKeeps.foldl writeBack_keeps (.refl t) _).modCore _

theorem countCorrected_keeps (s : State) (p k : Nat) : WriteKeeps s (countCorrected s p k) := by
  unfold countCorrected
  split
  · exact .refl s
  · exact (WriteKeeps.refl s).modPart p

theorem walkRecalls_keeps (q : Partition) (va lv : Nat) : ∀ (s : State) (table : Nat), WriteKeeps s (walkRecalls s q va table lv) := by
  induction lv with
  | zero => exact fun s _ => .refl s
  | succ lv ih =>
    intro s table
    have hr := recallLine_keeps s none (walkEntry table va lv) 8
    unfold walkRecalls
    dsimp only
    repeat' split
    · exact .refl s
    · exact hr
    · exact hr
    · exact hr.trans (ih ..)

theorem walkMade_keeps (s : State) (p c : Nat) (va : Word) : WriteKeeps s (walkMade s p c va) := (walkRecalls_keeps ..).trans (countCorrected_keeps ..)

theorem fillTlb_keeps (s : State) (n : Nat) (e : TlbEntry) : WriteKeeps s (fillTlb s n e) := (WriteKeeps.refl s).modCore n

theorem walked_keeps (s : State) (w : Who) (va : Word) : WriteKeeps s (walked s w va) := by
  have hm := @walkMade_keeps
  -- with the walk a variable the kernel evaluates none
  generalize hf : walked = f
  delta walked at hf
  generalize walkMade = made at hm hf
  generalize walkFrom = walk at hf
  as_aux_lemma =>
    subst hf
    dsimp only
    repeat' split
    · exact .refl s
    · exact hm ..
    · exact .refl s
    · exact fillTlb_keeps ..
    · exact ((hm ..).alike).trans (fillTlb_keeps ..)
    · exact hm ..

theorem wakeColumn_keeps (s : State) (n : Nat) : WriteKeeps s (wakeColumn s n) := by
  unfold wakeColumn
  split
  · exact .refl s
  · exact (WriteKeeps.refl s).modCore n

theorem countOwner_keeps (s : State) (pa k : Nat) : WriteKeeps s (countOwner s pa k) := by
  unfold countOwner
  split
  · exact countCorrected_keeps ..
  · exact .refl s

theorem storePut_keeps (s : State) (pa key : Nat) (l : List Byte) : WriteKeeps s (storePut s pa key l).1 := by
  unfold storePut
  split
  · exact countOwner_keeps ..
  · exact ((WriteKeeps.refl s).withMem _).trans (countOwner_keeps ..)

theorem markDirty_keeps (s : State) (n off len : Nat) : WriteKeeps s (markDirty s n off len) := by
  unfold markDirty
  split
  · exact .refl s
  · extract_lets q declared blocks
    split
    · exact .refl s
    · exact (WriteKeeps.refl s).modCore n

/-! A core's window. -/

theorem coreRaw_keeps (s : State) (n off : Nat) (l : List Byte) (lo hi : Nat) : WriteKeeps s (coreRaw s n off l lo hi) := by
  unfold coreRaw
  dsimp only
  split
  · exact .refl s
  · exact (WriteKeeps.refl s).withMem _

theorem writePlace_keeps (s : State) (a : Agent) (i : Nat) (v : Word) : WriteKeeps s (writePlace s a i v) := by
  unfold writePlace
  dsimp only
  repeat' split
  · exact .refl s
  · exact (WriteKeeps.refl s).modStream a _
  · exact ((WriteKeeps.refl s).modStream a _).modAgentJob a _
  · exact ((WriteKeeps.refl s).modStream a _).modAgentJob a _

theorem sregWrite_keeps (s : State) (n off : Nat) (l : List Byte) : WriteKeeps s (sregWrite s n off l) := by
  refine .foldl (fun t i => ?_) (.refl s) _
  dsimp +zeta only
  split
  · exact .refl t
  · split
    · exact writePlace_keeps ..
    · exact .refl t

theorem wakeWfi_keeps (s : State) (n j : Nat) (p : Sid → Bool) : WriteKeeps s (wakeWfi s n j p) := (WriteKeeps.refl s).modJob n j _

theorem stirJobs_keeps (s : State) (n : Nat) : WriteKeeps s (stirJobs s n) := by
  unfold stirJobs
  exact ((WriteKeeps.refl s).modJob n 0 _).modJob n 1 _

theorem WriteKeeps.ite {s u w : State} {p : Prop} [Decidable p] (hu : WriteKeeps s u) (hw : WriteKeeps s w) : WriteKeeps s (if p then u else w) := by
  split
  · exact hu
  · exact hw

theorem coreWrite_keeps (s : State) (n off : Nat) (l : List Byte) : WriteKeeps s (coreWrite s n off l) := by
  unfold coreWrite
  extract_lets hi s1 s2 s3 s4
  have h1 : WriteKeeps s s1 := .ite (coreRaw_keeps ..) (.refl s)
  have h2 : WriteKeeps s s2 := .ite (h1.trans (coreRaw_keeps ..)) h1
  have h3 : WriteKeeps s s3 := .ite ((((h2.trans (coreRaw_keeps ..)).trans (stirJobs_keeps ..)).trans (wakeWfi_keeps ..)).trans (wakeWfi_keeps ..)) h2
  have h4 : WriteKeeps s s4 := .ite (h3.trans (sregWrite_keeps ..)) h3
  refine .foldl (fun t i => ?_) h4 _
  extract_lets at9
  exact .ite ((WriteKeeps.refl t).modSlot n _ _) (.refl t)

/-! Traps, and the release or kill of a frozen core (R297, R304). -/

namespace WriteKeeps

variable {s u : State}

theorem partEvent (h : WriteKeeps s u) (p b : Nat) : WriteKeeps s (partEvent u p b) := by
  unfold Machine.partEvent
  refine .ite h ?_
  exact (h.modPart p (f := fun q => { q with event := q.event ||| BitVec.ofNat 6 (2 ^ b) })).alike

theorem stopErr (h : WriteKeeps s u) (p c : Nat) (cause : Byte) (node : Nat) : WriteKeeps s (stopErr u p c cause node) := (h.modCtx_rest p c).partEvent p 2

theorem stopContext (h : WriteKeeps s u) (p c : Nat) (cause : Byte) (node : Nat) (me : Option Nat) : WriteKeeps s (stopContext u p c cause node me) := by
  unfold Machine.stopContext
  split
  · exact h
  · refine .foldl (fun t n => .ite ((WriteKeeps.refl t).modCore n) (.refl t)) ?_ _
    exact ((h.stopErr p c cause node).modCtx_rest p c).partEvent p 1

theorem freezeCore (h : WriteKeeps s u) (n j : Nat) (double : Bool) : WriteKeeps s (freezeCore u n j double) := by
  have hslot : WriteKeeps s (Machine.modSlot (Machine.modCore u n (fun c => { c with frozen := true, doubleFault := c.doubleFault || double })) n j (fun sl => { sl with st := .frozen })) :=
    (h.modCore n).modSlot n j _
  unfold Machine.freezeCore
  dsimp only
  split
  · exact hslot.partEvent _ 0
  · exact hslot

theorem deliverTrap (h : WriteKeeps s u) (n j : Nat) : WriteKeeps s (deliverTrap u n j) := by
  unfold Machine.deliverTrap
  extract_lets b
  split
  · exact h
  · exact .ite h (h.modSlot n j _)

theorem stopStill (h : WriteKeeps s u) (n j : Nat) (t : Sid) (tr : Trap) (late : Bool) (cmd : BitVec 32) (name : Sid) : WriteKeeps s (stopStill u n j t tr late cmd name) := by
  unfold Machine.stopStill
  extract_lets s1 b double freeze sysc flags s2 s3 s4 s5
  have h4 : WriteKeeps s s4 := (((h.modJob n j _).withMem _).modStream _ _).modJob n j _
  have h5 : WriteKeeps s s5 := .ite (h4.stopContext ..) h4
  exact .ite (h5.freezeCore ..) h5

theorem stopStream (h : WriteKeeps s u) (n j : Nat) (t : Sid) (tr : Trap) (late : Bool) (cmd : BitVec 32) (name : Sid) : WriteKeeps s (stopStream u n j t tr late cmd name) := by
  have hstop := h.stopStill n j t tr late cmd name
  exact .ite (hstop.deliverTrap n j) hstop

theorem raisePending (h : WriteKeeps s u) (n j : Nat) (t : Sid) : WriteKeeps s (raisePending u n j t) := by
  unfold Machine.raisePending
  split
  · exact h
  · exact (h.modStream _ _).stopStream ..

theorem stepTrap (h : WriteKeeps s u) (a : Agent) : WriteKeeps s (stepTrap u a) := by
  cases a with
  | mgmt => exact h
  | stream n j t =>
    unfold Machine.stepTrap
    exact .ite (.ite (h.raisePending n j t) (h.stopStream ..)) h

theorem finishRdv (h : WriteKeeps s u) (n j : Nat) (t : Sid) : WriteKeeps s (finishRdv u n j t) := by
  unfold Machine.finishRdv
  split
  · exact .ite ((h.modJob n j _).stepTrap _) h
  · exact h

theorem deliverDue (h : WriteKeeps s u) (n j : Nat) : WriteKeeps s (deliverDue u n j) := .ite h ((h.finishRdv n j .c).deliverTrap n j)

theorem clearEntries (h : WriteKeeps s u) (p : Nat) (f : Nat → RingEntry → Bool) : WriteKeeps s (clearEntries u p f) := h.modPart p

theorem discardEntries (h : WriteKeeps s u) (p n j : Nat) (b : Job) (kept : List Op) : WriteKeeps s (discardEntries u p n j b kept) := by
  unfold Machine.discardEntries
  exact ((h.clearEntries p _).modPart p).modCtx_rest p b.ctx

theorem killActive (h : WriteKeeps s u) (n j : Nat) : WriteKeeps s (killActive u n j) := by
  unfold Machine.killActive
  extract_lets b s1
  have h1 : WriteKeeps s s1 := h.modSlot n j _
  split
  · exact h1.discardEntries ..
  · exact h1

theorem releaseDeliver (h : WriteKeeps s u) (p n : Nat) : WriteKeeps s (releaseDeliver u p n) := by
  unfold Machine.releaseDeliver
  extract_lets c s1
  have h1 : WriteKeeps s s1 := h.modCore n
  refine .ite h ?_
  split
  · exact (h1.modSlot n _ _).deliverDue ..
  · exact h1

theorem releaseKill (h : WriteKeeps s u) (p n : Nat) : WriteKeeps s (releaseKill u p n) := by
  unfold Machine.releaseKill
  extract_lets c s1
  have h1 : WriteKeeps s s1 := h.modCore n
  refine .ite h ?_
  split
  · exact h1.killActive ..
  · exact h1

/-! Partition control (R40, R316, R317, R318). -/

theorem freePool (h : WriteKeeps s u) (p e : Nat) : WriteKeeps s (freePool u p e) := h.modPart p

theorem discardLaunch (h : WriteKeeps s u) (p c : Nat) : WriteKeeps s (discardLaunch u p c) := by
  unfold Machine.discardLaunch
  extract_lets tasks s1 s2 s3 s4
  have h1 : WriteKeeps s s1 := by
    refine .foldl (fun t e => ?_) h _
    split
    · exact .ite (.refl t) ((WriteKeeps.refl t).freePool p _)
    · exact .refl t
  have h3 : WriteKeeps s s3 := .foldl (fun t n => (WriteKeeps.refl t).modCore n) (h1.clearEntries p _) _
  exact (h3.modPart p).modCtx p c ⟨rfl, rfl, rfl, fun _ => rfl⟩

theorem goLoop (h : WriteKeeps s u) (p c : Nat) (stop : Bool) : WriteKeeps s (goLoop u p c stop) := by
  unfold Machine.goLoop
  extract_lets x s1 y
  have h1 : WriteKeeps s s1 := h.discardLaunch p c
  refine .ite (.ite (h.modCtx_rest p c) h) ?_
  have hy {f : Context → Context} (hgraph : (f (ctxOf s1 p c)).graph = (ctxOf s1 p c).graph) (hgen : (f (ctxOf s1 p c)).gen = (ctxOf s1 p c).gen)
      (hfirn : (f (ctxOf s1 p c)).firn = (ctxOf s1 p c).firn) (hlaunch : (f (ctxOf s1 p c)).launch = (ctxOf s1 p c).launch) : WriteKeeps s (Machine.modCtx s1 p c f) :=
    h1.modCtx p c ⟨hgraph, hgen, hfirn, fun hx => hlaunch.trans hx⟩
  split
  · refine .ite (.ite ?_ (partEvent ?_ p 2)) (partEvent ?_ p 2) <;> exact hy rfl rfl rfl rfl
  · exact (hy rfl rfl rfl rfl).partEvent p 2

theorem endSlice (h : WriteKeeps s u) (p : Nat) : WriteKeeps s (endSlice u p) := .foldl (fun t n => (WriteKeeps.refl t).modCore n) h _

theorem ctxEnable (h : WriteKeeps s u) (p c : Nat) (en : Bool) : WriteKeeps s (ctxEnable u p c en) := by
  have h1 : WriteKeeps s (Machine.modCtx u p c (fun x => { x with en := en })) := h.modCtx_rest p c
  exact .ite ((h1.modPart p).endSlice p) (.ite ((h1.modPart p).endSlice p) h1)

theorem declareRange (h : WriteKeeps s u) (p c : Nat) (v : Word) : WriteKeeps s (declareRange u p c v) := by
  unfold Machine.declareRange
  refine .ite h (.foldl (fun t n => (WriteKeeps.refl t).modCore n) ?_ _)
  exact h.modCtx_rest p c

theorem stopLoop (h : WriteKeeps s u) (p c : Nat) : WriteKeeps s (stopLoop u p c) := by
  refine h.modCtx p c ?_
  split
  · exact ⟨rfl, rfl, rfl, id⟩
  · exact .refl _

theorem glCommand (h : WriteKeeps s u) (p c cmd : Nat) : WriteKeeps s (glCommand u p c cmd) := by
  refine h.modCtx p c ?_
  split
  · exact .refl _
  · exact ⟨rfl, rfl, rfl, id⟩

theorem requestRollback (h : WriteKeeps s u) (p c : Nat) : WriteKeeps s (requestRollback u p c) := by
  refine h.modCtx p c ?_
  split
  · exact .refl _
  · exact ⟨rfl, rfl, rfl, id⟩

theorem writePbset (h : WriteKeeps s u) (p c t : Nat) (v : BitVec 320) : WriteKeeps s (writePbset u p c t v) := by
  unfold Machine.writePbset
  exact h.modCtx_rest p c

theorem ctxWrite (h : WriteKeeps s u) (p c off : Nat) (v : Word) : WriteKeeps s (ctxWrite u p c off v) := by
  unfold Machine.ctxWrite
  extract_lets x set s1 s2 t w old lo new
  have hset {f : Context → Context} (hf : CtxKept (ctxOf u p c) (f (ctxOf u p c))) : WriteKeeps s (set f) := h.modCtx p c hf
  have hfree {q : Prop} [Decidable q] {f : Context → Context} (hf : CtxKept (ctxOf u p c) (f (ctxOf u p c))) : WriteKeeps s (if q then u else set f) := .ite h (hset hf)
  have h1 : WriteKeeps s s1 := h.modCtx_rest p c
  have h2 : WriteKeeps s s2 := .ite (h.requestRollback ..) h
  split
  · exact .ite (h1.goLoop ..) (.ite (h1.stopLoop ..) h1)
  · exact hfree ⟨rfl, rfl, rfl, id⟩
  · exact hfree ⟨rfl, rfl, rfl, id⟩
  · exact hfree ⟨rfl, rfl, rfl, id⟩
  · exact hfree ⟨rfl, rfl, rfl, id⟩
  · exact hfree ⟨rfl, rfl, rfl, id⟩
  · exact .ite h2 (h2.ctxEnable ..)
  · exact hfree ⟨rfl, rfl, rfl, id⟩
  · exact hset ⟨rfl, rfl, rfl, id⟩
  · exact h.declareRange ..
  · exact hfree ⟨rfl, rfl, rfl, id⟩
  · exact hfree ⟨rfl, rfl, rfl, id⟩
  · exact hset ⟨rfl, rfl, rfl, id⟩
  · exact h.glCommand ..
  · exact .ite (h.writePbset ..) h

theorem attGo (h : WriteKeeps s u) (fn : Nat) : WriteKeeps s (attGo u fn) := .ite h (.ite h.alike h.alike)

theorem attWrite (h : WriteKeeps s u) (fn off : Nat) (v : Word) : WriteKeeps s (attWrite u fn off v) := by
  unfold Machine.attWrite
  exact .ite h.alike (.ite h.alike (.ite (.ite (h.attGo fn) h) h))

theorem pctlWrite (h : WriteKeeps s u) (p off : Nat) (v : Word) : WriteKeeps s (pctlWrite u p off v false) := by
  unfold Machine.pctlWrite
  extract_lets set
  have hset {f : Partition → Partition} (hf : ∀ q, (f q).ctxs = q.ctxs) : WriteKeeps s (set f) := h.modPart p hf
  refine .ite (hset fun _ => rfl) (.ite (h.ctxWrite ..) (.ite ?_ (.ite (hset fun _ => rfl) (.ite (h.attWrite ..) ?_))))
  · refine .ite (hset fun q => ?_) (hset fun _ => rfl)
    split <;> rfl
  · split
    · exact h
    · exact h
    · exact h
    · exact h
    · exact h
    · exact .ite (hset fun _ => rfl) h
    · exact .ite (hset fun _ => rfl) h
    · exact hset fun _ => rfl
    · exact hset fun _ => rfl
    · exact hset fun _ => rfl
    · exact hset fun _ => rfl
    · exact .ite (h.releaseKill ..) (h.releaseDeliver ..)
    · exact hset fun _ => rfl
    · exact h

theorem pctlWriteBytes (h : WriteKeeps s u) (p off : Nat) (l : List Byte) : WriteKeeps s (pctlWriteBytes u p off l false) :=
  .ite h (.foldl (fun t _ => (WriteKeeps.refl t).pctlWrite ..) h _)

end WriteKeeps

/-! Writes (R99). -/

theorem physWrite_keeps (s : State) (pa key : Nat) (l : List Byte) : WriteKeeps s (physWrite s pa key l).1 := by
  unfold physWrite
  cases region pa with
  | hbm => exact (recallLine_keeps ..).trans (storePut_keeps ..)
  | record => exact (recallLine_keeps ..).trans (storePut_keeps ..)
  | host =>
    dsimp only
    split
    · exact .refl s
    · exact storePut_keeps ..
  | vault n off =>
    have hw := wakeColumn_keeps s n
    have hput := hw.trans (storePut_keeps (wakeColumn s n) pa 0 l)
    dsimp only
    split
    · exact hw
    · split
      · exact hw
      · split
        next u _ he =>
          rw [he] at hput
          exact hput.trans (markDirty_keeps ..)
        · exact hput
  | core n off => exact (wakeColumn_keeps s n).trans (coreWrite_keeps ..)
  | pctl q off => exact (WriteKeeps.refl s).pctlWriteBytes ..
  | cap => exact .refl s
  | reserved => exact .refl s

theorem vaWriteFrom_keeps (w : Who) (fuel : Nat) (s : State) (va : Word) (l : List Byte) : WriteKeeps s (vaWriteFrom w fuel s va l).1 := by
  induction fuel generalizing s va l with
  | zero => exact .refl s
  | succ fuel ih =>
    have hw := walked_keeps s w va
    rw [vaWriteFrom]
    split
    · exact .refl s
    · generalize translate s w.p w.c w.core va .write w.user = x
      cases x with
      | ok pa key =>
        have hput := hw.trans (physWrite_keeps (walked s w va) pa key (l.take (ruleRun w pa (pageRun va.toNat l.length))))
        dsimp only
        split
        next u _ he => rw [he] at hput; exact hput
        next u _ he => rw [he] at hput; exact hput.trans (ih ..)
      | miss | wpw | refuse | violation | ue => exact hw

theorem vaWrite_keeps (s : State) (w : Who) (va : Word) (l : List Byte) : WriteKeeps s (vaWrite s w va l).1 := vaWriteFrom_keeps ..

/-! Reads (R99). -/

theorem storeGet_keeps (s : State) (p pa len key : Nat) : WriteKeeps s (storeGet s p pa len key).1 := by
  unfold storeGet
  split <;> exact countCorrected_keeps ..

theorem physRead_keeps (s : State) (p pa len key : Nat) : WriteKeeps s (physRead s p pa len key).1 := by
  have hget (t : State) (k : Nat) : WriteKeeps t (match storeGet t p pa len k with | (u, some l) => (u, Except.ok l) | (u, none) => (u, .error cDataUe) : State × Except Byte (List Byte)).1 := by
    have hs := storeGet_keeps t p pa len k
    split <;> simp_all
  unfold physRead
  dsimp only
  cases region pa with
  | hbm => exact (recallLine_keeps ..).trans (hget ..)
  | record => exact (recallLine_keeps ..).trans (hget ..)
  | host =>
    dsimp only
    split
    · exact .refl s
    · exact hget ..
  | vault n off =>
    have hw := wakeColumn_keeps s n
    dsimp only
    split
    · exact hw
    · split
      · exact hw
      · exact hw.trans (hget ..)
  | core n off => exact wakeColumn_keeps s n
  | pctl | cap | reserved => exact .refl s

theorem vaReadFrom_keeps (w : Who) (fuel : Nat) (s : State) (va : Word) (len : Nat) : WriteKeeps s (vaReadFrom w fuel s va len).1 := by
  induction fuel generalizing s va len with
  | zero => exact .refl s
  | succ fuel ih =>
    have hw := walked_keeps s w va
    rw [vaReadFrom]
    split
    · exact .refl s
    · generalize translate s w.p w.c w.core va .read w.user = x
      cases x with
      | ok pa key =>
        have hget := hw.trans (physRead_keeps (walked s w va) w.p pa (ruleRun w pa (pageRun va.toNat len)) key)
        dsimp only
        split
        · exact hget
        · have hr := hget.trans (ih (physRead (walked s w va) w.p pa (ruleRun w pa (pageRun va.toNat len)) key).1 (va + w64 (ruleRun w pa (pageRun va.toNat len))) (len - ruleRun w pa (pageRun va.toNat len)))
          split <;> exact hr
      | miss | wpw | refuse | violation | ue => exact hw

theorem vaRead_keeps (s : State) (w : Who) (va : Word) (len : Nat) : WriteKeeps s (vaRead s w va len).1 := vaReadFrom_keeps ..

end Sys2Proof.Machine

/-! The memory of a core's window that is cleared, filled or laid out as a job starts (R30, R32). -/

namespace Sys2Proof.Machine

open Sys2Proof.Config

/-! Clearing and filling. -/

theorem memRead_memClear_in (m : Memory) {a len x : Nat} (h : a ≤ x) (h' : x < a + len) : memRead (memClear m a len) x = dflt m x := by
  have hnone : tfind (memClear m a len).cells x = none := by
    refine tfind_none fun e he hx => ?_
    have hout := (List.mem_filter.1 he).2
    simp [hx, h, h'] at hout
  rw [memRead, tget, hnone]
  rfl

theorem memRead_memClear_out (m : Memory) {a len x : Nat} (h : x < a ∨ a + len ≤ x) : memRead (memClear m a len) x = memRead m x := by
  have hsame : tfind (memClear m a len).cells x = tfind m.cells x := tfind_filter_kept fun e he => by
    rw [he]
    simp only [Bool.not_eq_true', Bool.and_eq_false_iff, decide_eq_false_iff_not]
    omega
  rw [memRead, memRead, tget, tget, hsame]
  rfl

/-- An unlisted byte of a core's window past its scratchpad is 0. -/
theorem dflt_past_scratch (m : Memory) {n off : Nat} (hlow : scratchSize ≤ off) (hhigh : off < coreStride) : dflt m (coreAt n + off) = 0#8 := by
  refine if_neg fun h => ?_
  have hoff : (coreAt n + off - coreBase) % coreStride = off := by
    rw [coreAt, Nat.add_assoc, Nat.add_sub_cancel_left, Nat.add_comm, Nat.add_mul_mod_self_right, Nat.mod_eq_of_lt hhigh]
  omega

/-- An unlisted byte of a scratchpad is its core's fill pattern. -/
theorem dflt_scratch (m : Memory) {n off : Nat} (hn : n < nCores) (hoff : off < scratchSize) : dflt m (coreAt n + off) = tget 0#8 m.fills n := by
  have hstride : off < coreStride := lt_trans hoff (by decide)
  have hsub : coreAt n + off - coreBase = off + n * coreStride := by rw [coreAt]; omega
  have hmod : (off + n * coreStride) % coreStride = off := by rw [Nat.add_mul_mod_self_right, Nat.mod_eq_of_lt hstride]
  have hdiv : (off + n * coreStride) / coreStride = n := by rw [Nat.add_mul_div_right _ _ (by decide), Nat.div_eq_of_lt hstride, Nat.zero_add]
  have hin : off + n * coreStride < nCores * coreStride := by
    calc off + n * coreStride < (n + 1) * coreStride := by rw [Nat.succ_mul]; omega
      _ ≤ nCores * coreStride := Nat.mul_le_mul_right _ hn
  rw [dflt, hsub, hmod, hdiv, if_pos ⟨by rw [coreAt]; omega, by rw [coreAt] at hsub ⊢; omega, hoff⟩]

theorem memRead_fillScratch (m : Memory) {n i : Nat} (b : Byte) (hn : n < nCores) (hi : i < scratchSize) : memRead (fillScratch m n b) (coreAt n + i) = b := by
  have hnone : tfind (fillScratch m n b).cells (coreAt n + i) = none := by
    refine tfind_none fun e he hx => ?_
    have hout := (List.mem_filter.1 he).2
    simp [hx, hi] at hout
  rw [memRead, tget, hnone, dflt_scratch _ hn hi]
  simp [fillScratch]

theorem memRead_memWrite_zeros (m : Memory) {a len x : Nat} (h : a ≤ x) (h' : x < a + len) : memRead (memWrite m a (zeros len)) x = 0#8 := by
  rw [memRead_memWrite_in _ _ _ _ h (by simpa [zeros] using h')]
  simp [zeros, List.getD_eq_getElem?_getD, List.getElem?_replicate]
  split <;> rfl

theorem memReadN_zero {m : Memory} {a k : Nat} (h : ∀ x, a ≤ x → x < a + k → memRead m x = 0#8) : memReadN m a k = zeros k := by
  induction k generalizing a with
  | zero => rfl
  | succ k ih =>
    rw [memReadN, h a (Nat.le_refl a) (by omega), ih fun x hx hx' => h x (by omega) (by omega)]
    rfl

theorem memReadN_congr {m m' : Memory} {a k : Nat} (h : ∀ x, a ≤ x → x < a + k → memRead m x = memRead m' x) : memReadN m a k = memReadN m' a k := by
  induction k generalizing a with
  | zero => rfl
  | succ k ih => rw [memReadN, memReadN, h a (Nat.le_refl a) (by omega), ih fun x hx hx' => h x (by omega) (by omega)]

/-! The descriptor bank (R32). -/

/-- Descriptors laid one after another. -/
def layAll (f : Nat × List Byte → List Byte) (at0 : Nat) (m : Memory) (l : List (Nat × List Byte)) : Memory :=
  l.foldl (fun m d => memWrite m (at0 + 64 * d.1) (f d)) m

section
variable {f : Nat × List Byte → List Byte} {at0 : Nat} {l : List (Nat × List Byte)}

theorem layAll_cons (m : Memory) (d : Nat × List Byte) : layAll f at0 m (d :: l) = layAll f at0 (memWrite m (at0 + 64 * d.1) (f d)) l := rfl

/-- A descriptor that is not laid stays. -/
theorem memReadN_layAll_other (m : Memory) {h : Nat} (hlen : ∀ d ∈ l, (f d).length = 64) (hne : ∀ d ∈ l, d.1 ≠ h) :
    memReadN (layAll f at0 m l) (at0 + 64 * h) 64 = memReadN m (at0 + 64 * h) 64 := by
  induction l generalizing m with
  | nil => rfl
  | cons d l ih =>
    simp only [List.forall_mem_cons] at hlen hne
    obtain ⟨hd, hlen⟩ := hlen
    obtain ⟨hdne, hne⟩ := hne
    rw [layAll_cons, ih _ hlen hne, memReadN_memWrite_out]
    omega

theorem memReadN_layAll_same (m : Memory) (hlen : ∀ d ∈ l, (f d).length = 64) (hnodup : (l.map (·.1)).Nodup) {d : Nat × List Byte} (hd : d ∈ l) :
    memReadN (layAll f at0 m l) (at0 + 64 * d.1) 64 = f d := by
  induction l generalizing m with
  | nil => cases hd
  | cons e l ih =>
    have hlen' := fun x hx => hlen x (List.mem_cons_of_mem e hx)
    obtain ⟨hnew, hrest⟩ := List.nodup_cons.1 hnodup
    rw [layAll_cons]
    rcases List.mem_cons.1 hd with rfl | hd
    · rw [memReadN_layAll_other _ hlen' fun x hx he => hnew (List.mem_map.2 ⟨x, hx, he⟩)]
      have hsame := memReadN_memWrite_same m (at0 + 64 * d.1) (f d)
      rwa [hlen d (List.mem_cons_self ..)] at hsame
    · exact ih _ hlen' hrest hd

/-- Bytes outside the bank stay. -/
theorem memRead_layAll_out (m : Memory) {x : Nat} (hlen : ∀ d ∈ l, d.1 < 32 ∧ (f d).length = 64) (hx : x < at0 ∨ at0 + 0x800 ≤ x) : memRead (layAll f at0 m l) x = memRead m x := by
  induction l generalizing m with
  | nil => rfl
  | cons d l ih =>
    simp only [List.forall_mem_cons] at hlen
    obtain ⟨hd, hlen⟩ := hlen
    rw [layAll_cons, ih _ hlen, memRead_memWrite_out]
    omega

end

theorem length_leBytes (n v : Nat) : (leBytes n v).length = n := by
  induction n generalizing v with
  | zero => rfl
  | succ n ih => rw [leBytes, List.length_cons, ih]

theorem length_startDesc (k : Core) (c node h : Nat) {l : List Byte} (hl : l.length = 64) : (startDesc k c node h l).length = 64 := by
  unfold startDesc
  simp [length_leBytes, hl]

theorem layDescs_mem (s : State) (n j c node : Nat) (kr : Kernel) : (layDescs s n j c node kr).mem =
    layAll (fun d => startDesc (coreOf s n) c node d.1 d.2) (coreAt n + descOffset + j * 0x800) (memWrite s.mem (coreAt n + descOffset + j * 0x800) (zeros 0x800)) kr.descs := by
  have hfold (u : State) (hu : coreOf u n = coreOf s n) (l : List (Nat × List Byte)) :
      (l.foldl (fun s d => { s with mem := memWrite s.mem (coreAt n + descOffset + j * 0x800 + 64 * d.1) (startDesc (coreOf s n) c node d.1 d.2) }) u).mem
        = layAll (fun d => startDesc (coreOf s n) c node d.1 d.2) (coreAt n + descOffset + j * 0x800) u.mem l := by
    induction l generalizing u with
    | nil => rfl
    | cons d l ih =>
      refine (ih _ ?_).trans ?_
      · exact hu
      · simp only [layAll_cons, hu]
  unfold layDescs
  refine (hfold _ ?_ kr.descs).trans ?_
  · rfl
  · rfl

/-- Descriptors laid out change memory alone. -/
theorem layDescs_eq (s : State) (n j c node : Nat) (kr : Kernel) : layDescs s n j c node kr = { s with mem := (layDescs s n j c node kr).mem } := by
  unfold layDescs
  exact kr.descs.foldlRecOn (motive := fun u : State => u = { s with mem := u.mem }) _ rfl fun u h d _ => by rw [h]

end Sys2Proof.Machine

/-! The start of a job (R30, R32, R39). -/

namespace Sys2Proof.Machine

open Sys2Proof.Config

/-! Keep regions that leave a column, and those that come (R39). -/

theorem keepOut_none {s : State} {p n : Nat} (h : (coreOf s n).resident = none) : keepOut s p n = (s, none) := by
  unfold keepOut
  rw [h]

/-- What `keepOut` leaves: nothing is resident, and time and the contexts' graphs stand. -/
theorem keepOut_keeps (s : State) (p n : Nat) :
    (coreOf (keepOut s p n).1 n).resident = none ∧ (keepOut s p n).1.now = s.now ∧ ∀ q c, CtxKept (ctxOf s q c) (ctxOf (keepOut s p n).1 q c) := by
  cases hr : (coreOf s n).resident with
  | none => rw [keepOut_none hr]; exact ⟨hr, rfl, fun _ _ => .refl _⟩
  | some e =>
    obtain ⟨node, c⟩ := e
    have hfrom {u : State} (h : WriteKeeps (modCore s n (fun k => { k with resident := none })) u) :
        (coreOf u n).resident = none ∧ u.now = s.now ∧ ∀ q c, CtxKept (ctxOf s q c) (ctxOf u q c) :=
      ⟨by rw [h.resident, coreOf_modCore], h.now, h.ctx⟩
    have hw := vaWrite_keeps (modCore s n (fun k => { k with resident := none })) (deviceWho p c) (keepVa s p n (nodeOf s p c node)) (keepRead s n (nodeOf s p c node))
    unfold keepOut
    rw [hr]
    dsimp only
    split
    · exact hfrom (.refl _)
    · split
      next u _ he => rw [he] at hw; exact hfrom hw
      next u _ he => rw [he] at hw; exact hfrom hw

theorem keepFetch_now (s : State) (p c n : Nat) (nd : Node) : (keepFetch s p c n nd).1.now = s.now := by
  unfold keepFetch
  split
  · rfl
  · exact (vaRead_keeps ..).now

theorem keepLay_eq (s : State) (n : Nat) (l : List (Nat × Nat)) (b : List Byte) : keepLay s n l b = { s with mem := (keepLay s n l b).mem } := by
  induction l generalizing s b with
  | nil => rfl
  | cons k l ih => rw [keepLay, ih]; rfl

/-- The handover on a column where nothing foreign is resident. -/
theorem handover_own {s : State} {p c n j node : Nat} (h : (coreOf s n).resident = some (node, c) ∨ (coreOf s n).resident = none) :
    handover s p c n j node = if (nodeOf s p c node).keeps.isEmpty || (coreOf s n).resident == some (node, c) then (s, none)
      else match keepFetch s p c n (nodeOf s p c node) with
        | (s, .error e) => (s, some e)
        | (t, .ok l) => (modCore (keepLay { t with mem := memWrite t.mem (keepBufAt n j) l } n (nodeOf s p c node).keeps l) n (fun k => { k with resident := some (node, c) }), none) := by
  have hout : (if (coreOf s n).resident == some (node, c) then (s, none) else keepOut s p n) = (s, (none : Option VErr)) := by
    split
    · rfl
    next hne => exact keepOut_none (h.resolve_left fun he => hne (by rw [he, beq_self_eq_true]))
  unfold handover
  rw [hout] <;> rfl

/-- After a handover without error a node's keep regions are resident; the time stands. -/
theorem handover_keeps {s : State} {p c n j node : Nat} (h : (coreOf s n).resident = some (node, c) ∨ (coreOf s n).resident = none) :
    (handover s p c n j node).1.now = s.now
    ∧ ((handover s p c n j node).2 = none → (nodeOf s p c node).keeps ≠ [] → (coreOf (handover s p c n j node).1 n).resident = some (node, c))
    ∧ ((nodeOf s p c node).keeps = [] → handover s p c n j node = (s, none)) := by
  have hnow := keepFetch_now s p c n (nodeOf s p c node)
  rw [handover_own h]
  split
  next hskip =>
    refine ⟨rfl, fun _ hne => ?_, fun _ => rfl⟩
    simpa [hne] using hskip
  next hkeep =>
    refine ⟨?_, fun he hne => ?_, fun he => absurd (by rw [he]; rfl) hkeep⟩
    · split
      next u e hf => rw [hf] at hnow; exact hnow
      next u l hf =>
        rw [hf] at hnow
        rw [keepLay_eq]
        exact hnow
    · split
      next u e hf => simp [hf] at he
      next => rw [coreOf_modCore]

/-! The parts of a start (R30, R32). -/

/-- Foreign keep regions leave. -/
def startOut (s : State) (n : Nat) (b : Job) : State × Option VErr :=
  if (coreOf s n).resident = some (b.node, b.ctx) then (s, none) else keepOut s b.part n

/-- The scratchpad of a column whose last job was of another context is filled. -/
def startBase (s : State) (n : Nat) (b : Job) : State :=
  if (coreOf s n).lastCtx = some (b.part, b.ctx) then s else { s with mem := fillScratch s.mem n (partOf s b.part).fill }

/-- The job's own keep regions come. -/
def startIn (s : State) (n j : Nat) (b : Job) : State × Option VErr :=
  if (startOut s n b).2.isSome then (startBase (startOut s n b).1 n b, (startOut s n b).2) else handover (startBase (startOut s n b).1 n b) b.part b.ctx n j b.node

/-- The job stands in its slot. -/
def startLaid (s : State) (n j : Nat) (b : Job) (nd : Node) : State :=
  let s := layDescs (clearStart s n j) n j b.ctx b.node nd.kernel
  let s := modLaunch s b.part b.ctx (fun la => leaveOrder la b.node b.task)
  let s := modCore s n (fun k => { k with active := some j, lastCtx := some (b.part, b.ctx) })
  let s := modSlot s n j (fun sl => { sl with st := .active, job := startFields s sl nd b, intact := false })
  modSlot s n (1 - j) (fun sl => { sl with intact := false })

theorem startJob_eq (s : State) (n j : Nat) :
    let b := (slotOf (coreOf s n) j).job
    startJob s n j = match (startIn s n j b).2 with
      | none => startLaid (startIn s n j b).1 n j b (nodeOf s b.part b.ctx b.node)
      | some x => stopStream (startLaid (startIn s n j b).1 n j b (nodeOf s b.part b.ctx b.node)) n j .c
          { cause := causeOf x, faddr := addrOf x, freeze := match x with | .fault _ fz _ => fz | _ => false } false 0#32 .c := by
  unfold startJob startIn startOut startBase startLaid
  simp only [beq_iff_eq] <;> rfl

/-! What the parts leave. -/

theorem startBase_eq (s : State) (n : Nat) (b : Job) : startBase s n b = { s with mem := (startBase s n b).mem } := by
  unfold startBase
  split <;> rfl

/-- As the job's own keep regions come, nothing foreign is resident; time and the contexts' graphs stand. -/
theorem startOut_keeps (s : State) (n : Nat) (b : Job) :
    ((coreOf (startOut s n b).1 n).resident = some (b.node, b.ctx) ∨ (coreOf (startOut s n b).1 n).resident = none)
    ∧ (startOut s n b).1.now = s.now ∧ ∀ q c, CtxKept (ctxOf s q c) (ctxOf (startOut s n b).1 q c) := by
  unfold startOut
  split
  next h => exact ⟨.inl h, rfl, fun _ _ => .refl _⟩
  next =>
    obtain ⟨hres, hnow, hctx⟩ := keepOut_keeps s b.part n
    exact ⟨.inr hres, hnow, hctx⟩

theorem nodeOf_startBase (s : State) (n : Nat) (b : Job) : nodeOf (startBase (startOut s n b).1 n b) b.part b.ctx b.node = nodeOf s b.part b.ctx b.node := by
  obtain ⟨-, -, hctx⟩ := startOut_keeps s n b
  rw [startBase_eq]
  unfold nodeOf graphOf
  rw [← (hctx b.part b.ctx).graph]
  rfl

theorem startIn_keeps (s : State) (n j : Nat) (b : Job) :
    (startIn s n j b).1.now = s.now
    ∧ ((startIn s n j b).2 = none → (nodeOf s b.part b.ctx b.node).keeps ≠ [] → (coreOf (startIn s n j b).1 n).resident = some (b.node, b.ctx))
    ∧ ((nodeOf s b.part b.ctx b.node).keeps = [] → (startIn s n j b).1 = startBase (startOut s n b).1 n b) := by
  obtain ⟨hres, hnow, -⟩ := startOut_keeps s n b
  have hres' : (coreOf (startBase (startOut s n b).1 n b) n).resident = some (b.node, b.ctx) ∨ (coreOf (startBase (startOut s n b).1 n b) n).resident = none := by
    rw [startBase_eq]
    exact hres
  have hnow' : (startBase (startOut s n b).1 n b).now = s.now := by
    rw [startBase_eq]
    exact hnow
  have hin := handover_keeps (p := b.part) (j := j) hres'
  rw [nodeOf_startBase] at hin
  obtain ⟨htime, hkept, hempty⟩ := hin
  unfold startIn
  split
  next he => exact ⟨hnow', fun h => absurd he (by rw [h]; simp), fun _ => rfl⟩
  next => exact ⟨htime.trans hnow', hkept, fun h => by rw [hempty h]⟩

section
variable (s : State) (n j : Nat) (b : Job) (nd : Node)

/-- Where a slot update of the other slot leaves this one. -/
theorem other_slot {j : Nat} (hj : j < 2) : ¬ ((1 - j = 0) = (j = 0)) := by
  interval_cases j <;> simp

/-- The core as the job stands in its slot. -/
theorem startLaid_core : (coreOf (startLaid s n j b nd) n).active = some j ∧ (coreOf (startLaid s n j b nd) n).lastCtx = some (b.part, b.ctx)
    ∧ (coreOf (startLaid s n j b nd) n).resident = (coreOf s n).resident ∧ (coreOf (startLaid s n j b nd) n).persist = (coreOf s n).persist := by
  have hlaid : coreOf (layDescs (clearStart s n j) n j b.ctx b.node nd.kernel) n = coreOf s n := by rw [layDescs_eq]; rfl
  unfold startLaid modSlot
  simp only [coreOf_modCore, setSlot_active, setSlot_lastCtx, setSlot_resident, setSlot_persist]
  refine ⟨trivial, trivial, ?_, ?_⟩ <;> exact congrArg _ hlaid

theorem startLaid_mem : (startLaid s n j b nd).mem = (layDescs (clearStart s n j) n j b.ctx b.node nd.kernel).mem := by
  unfold startLaid
  simp

theorem startLaid_part (p : Nat) : ∃ t, partOf (startLaid s n j b nd) p = { partOf s p with ctxs := t } := by
  have hlaid : partOf (layDescs (clearStart s n j) n j b.ctx b.node nd.kernel) p = partOf s p := by rw [layDescs_eq]; rfl
  have hpart : partOf (startLaid s n j b nd) p = partOf (modLaunch (layDescs (clearStart s n j) n j b.ctx b.node nd.kernel) b.part b.ctx (fun la => leaveOrder la b.node b.task)) p := rfl
  rw [hpart, modLaunch, modCtx, partOf_modPart_any, hlaid]
  split
  · exact ⟨_, rfl⟩
  · exact ⟨_, rfl⟩

/-- The slot as the job stands in it. -/
theorem startLaid_slot (hj : j < 2) : (slotOf (coreOf (startLaid s n j b nd) n) j).st = .active
    ∧ jobOf (startLaid s n j b nd) n j = { b with
        limit := (partOf (startLaid s n j b nd) b.part).splimit.toNat, trapvec := (partOf (startLaid s n j b nd) b.part).handler, dbgctl := (slotOf (coreOf (startLaid s n j b nd) n) j).step
        npUntil := if nd.np then some (s.now + nd.budget) else none } := by
  have hnow : (layDescs (clearStart s n j) n j b.ctx b.node nd.kernel).now = s.now := by rw [layDescs_eq]; rfl
  have hother (f g : Slot → Slot) (t : State) : slotOf (coreOf (modSlot (modSlot t n j f) n (1 - j) g) n) j = f (slotOf (coreOf t n) j) := by
    rw [slotOf_modSlot, if_neg fun h => other_slot hj h.2, slotOf_modSlot, if_pos ⟨rfl, rfl⟩]
  unfold startLaid jobOf
  simp only [hother]
  refine ⟨trivial, ?_⟩
  simp only [startFields, Job.mk.injEq, true_and, and_true]
  refine ⟨rfl, rfl, ?_⟩
  rw [← hnow]
  rfl

end

/-! The memory of the job's core. -/

/-- The descriptor bank of a slot of a core. -/
def bankAt (n j : Nat) : Nat := coreAt n + descOffset + j * 0x800

section
variable {s : State} {n j : Nat} {b : Job} {nd : Node}

/-- Memory with the accumulator store and the trap records of a slot at 0. -/
theorem clearStart_mem (s : State) (n j : Nat) : (clearStart s n j).mem = memClear (memClear s.mem (coreAt n + accOffset) accSize) (coreAt n + recOffset + j * 0x800) 0x140 := rfl

theorem startLaid_mem_layAll : (startLaid s n j b nd).mem
    = layAll (fun d => startDesc (coreOf s n) b.ctx b.node d.1 d.2) (bankAt n j) (memWrite (clearStart s n j).mem (bankAt n j) (zeros 0x800)) nd.kernel.descs := by
  rw [startLaid_mem, layDescs_mem]
  rfl

section
variable (hdescs : ∀ d ∈ nd.kernel.descs, d.1 < 32 ∧ d.2.length = 64)
include hdescs

theorem startDescs_length : ∀ d ∈ nd.kernel.descs, d.1 < 32 ∧ (startDesc (coreOf s n) b.ctx b.node d.1 d.2).length = 64 :=
  fun d hd => ⟨(hdescs d hd).1, length_startDesc _ _ _ _ (hdescs d hd).2⟩

/-- Past the descriptor bank only what a start clears has changed. -/
theorem startLaid_memRead {x : Nat} (hx : x < bankAt n j ∨ bankAt n j + 0x800 ≤ x) : memRead (startLaid s n j b nd).mem x = memRead (clearStart s n j).mem x := by
  rw [startLaid_mem_layAll, memRead_layAll_out _ (startDescs_length hdescs) hx, memRead_memWrite_out]
  rwa [zeros, List.length_replicate]

theorem startLaid_acc (hj : j < 2) {i : Nat} (hi : i < accSize) : memRead (startLaid s n j b nd).mem (coreAt n + accOffset + i) = 0#8 := by
  have hi' : i < 0x80000 := hi
  rw [startLaid_memRead hdescs (by unfold bankAt accOffset descOffset; omega), clearStart_mem, memRead_memClear_out _ (by unfold accOffset recOffset; omega),
    memRead_memClear_in _ (by omega) (by omega), Nat.add_assoc]
  exact dflt_past_scratch _ (by unfold scratchSize accOffset; omega) (by unfold coreStride accOffset; omega)

theorem startLaid_records (hj : j < 2) {i : Nat} (hi : i < 0x140) : memRead (startLaid s n j b nd).mem (coreAt n + recOffset + j * 0x800 + i) = 0#8 := by
  rw [startLaid_memRead hdescs (by unfold bankAt recOffset descOffset; omega), clearStart_mem, memRead_memClear_in _ (by omega) (by omega), Nat.add_assoc, Nat.add_assoc]
  exact dflt_past_scratch _ (by unfold scratchSize recOffset; omega) (by unfold coreStride recOffset; omega)

theorem startLaid_scratch (hj : j < 2) {i : Nat} (hi : i < scratchSize) : memRead (startLaid s n j b nd).mem (coreAt n + i) = memRead s.mem (coreAt n + i) := by
  have hi' : i < 0x180000 := hi
  rw [startLaid_memRead hdescs (by unfold bankAt descOffset; omega), clearStart_mem, memRead_memClear_out _ (by unfold recOffset; omega), memRead_memClear_out _ (by unfold accOffset; omega)]

theorem startLaid_desc_other {h : Nat} (hh : h < 32) (hne : ∀ d ∈ nd.kernel.descs, d.1 ≠ h) : memReadN (startLaid s n j b nd).mem (bankAt n j + 64 * h) 64 = zeros 64 := by
  rw [startLaid_mem_layAll, memReadN_layAll_other _ (fun d hd => (startDescs_length hdescs d hd).2) hne]
  exact memReadN_zero fun x hx hx' => memRead_memWrite_zeros _ (by omega) (by omega)

theorem startLaid_desc_same (hnodup : (nd.kernel.descs.map (·.1)).Nodup) {d : Nat × List Byte} (hd : d ∈ nd.kernel.descs) :
    memReadN (startLaid s n j b nd).mem (bankAt n j + 64 * d.1) 64 = startDesc (coreOf (startLaid s n j b nd) n) b.ctx b.node d.1 d.2 := by
  have hpersist : startDesc (coreOf (startLaid s n j b nd) n) b.ctx b.node d.1 d.2 = startDesc (coreOf s n) b.ctx b.node d.1 d.2 := by
    unfold startDesc
    rw [(startLaid_core s n j b nd).2.2.2]
  rw [hpersist, startLaid_mem_layAll, memReadN_layAll_same _ (fun d hd => (startDescs_length hdescs d hd).2) hnodup hd]

end
end

/-- A staged slot is one of the two. -/
theorem stagedSlot_lt {k : Core} {j : Nat} (h : stagedSlot k = some j) : j < 2 := by
  unfold stagedSlot at h
  split at h
  · cases h; decide
  · split at h
    · cases h; decide
    · cases h

/-- What a start leaves (R30, R32, R39). -/
theorem startJob_startsJob {s : State} {m j : Nat} (hj : j < 2) : startsJob s m j (startJob s m j) := by
  obtain ⟨hnow, hres, hempty⟩ := startIn_keeps s m j (slotOf (coreOf s m) j).job
  unfold startsJob
  extract_lets k b nd own first other
  obtain ⟨hactive, hlast, hkeep, -⟩ := startLaid_core (startIn s m j b).1 m j b nd
  obtain ⟨hst, hjob⟩ := startLaid_slot (startIn s m j b).1 m j b nd hj
  have hother : other → startBase (startOut s m b).1 m b = { first.1 with mem := fillScratch first.1.mem m (partOf first.1 b.part).fill } := fun h => if_neg h
  refine ⟨startLaid (startIn s m j b).1 m j b nd, startBase (startOut s m b).1 m b, (startIn s m j b).2, fun he => ?_, fun he => ?_, hother, fun h => if_pos (not_not.1 h), startJob_eq s m j,
    hactive, hlast, hst, ?_, fun he hne => hkeep.trans (hres he hne), fun hdescs hm _ => ⟨fun i hi => startLaid_acc hdescs hj hi, fun i hi => startLaid_records hdescs hj hi,
      fun h hh hne => startLaid_desc_other hdescs hh hne, fun hnodup d hd => startLaid_desc_same hdescs hnodup hd, fun ho hkeeps i hi => ?_⟩⟩
  · unfold startIn
    rw [if_pos (show (startOut s m b).2.isSome = true from he)]
    rfl
  · exact congrArg Prod.snd (if_neg (by rw [show (startOut s m b).2 = none from he]; simp))
  · rw [hjob, hnow]
  · obtain ⟨t, ht⟩ := startLaid_part (startIn s m j b).1 m j b nd b.part
    rw [startLaid_scratch hdescs hj hi, ht, hempty hkeeps, hother ho, memRead_fillScratch _ _ hm hi]
    rfl

end Sys2Proof.Machine

/-! The retirement of a job, its task's completion, and a user interrupt (R36, R37, R51, R59, R247). -/

namespace Sys2Proof.Machine

open Sys2Proof.Config

/-! What the steps of a retirement leave of the core. -/

/-- From s to u memory, and of core m the resident keep regions, the owned ranges and the STEP masks stand. -/
structure CoreStands (m : Nat) (s u : State) : Prop where
  mem : u.mem = s.mem
  resident : (coreOf u m).resident = (coreOf s m).resident
  owned : (coreOf u m).owned = (coreOf s m).owned
  step : ∀ j, (slotOf (coreOf u m) j).step = (slotOf (coreOf s m) j).step

namespace CoreStands

variable {m : Nat} {s u w : State}

theorem refl (s : State) : CoreStands m s s := ⟨rfl, rfl, rfl, fun _ => rfl⟩

theorem trans (h : CoreStands m s u) (g : CoreStands m u w) : CoreStands m s w :=
  ⟨g.mem.trans h.mem, g.resident.trans h.resident, g.owned.trans h.owned, fun j => (g.step j).trans (h.step j)⟩

theorem foldl {α : Type} {f : State → α → State} (hf : ∀ s x, CoreStands m s (f s x)) (s : State) (l : List α) : CoreStands m s (l.foldl f s) := by
  induction l generalizing s with
  | nil => exact refl s
  | cons x r ih => exact (hf s x).trans (ih _)

end CoreStands

theorem signalArrival_stands (s : State) (n j tag : Nat) (t : Sid) (m : Nat) : CoreStands m s (signalArrival s n j tag t) := by
  have hcore : coreOf (signalArrival s n j tag t) m = coreOf (modStream s (.stream n j t) (fun st => { st with pbars := st.pbars.filter (fun e => e.tag != tag) })) m := rfl
  refine ⟨?_, ?_, ?_, fun i => ?_⟩
  · simp [signalArrival]
  · rw [hcore, coreOf_modStream_any]
  · rw [hcore, coreOf_modStream_any]
  · rw [hcore, slotOf_modStream_any]

theorem signalAll_stands (s : State) (n j m : Nat) : CoreStands m s (signalAll s n j) :=
  .foldl (fun t _ => .foldl (fun _ _ => signalArrival_stands ..) t _) s _

theorem writeBack_cores (s : State) (x : Line) : (writeBack s x).cores = s.cores := by
  unfold writeBack
  repeat' split
  all_goals rfl

/-- Released ranges are gone; what the core holds besides stands. -/
theorem releaseRanges_core (s : State) (n : Nat) (p : OwnRange → Bool) :
    (coreOf (releaseRanges s n p) n).owned = (coreOf s n).owned.filter (fun r => !p r) ∧ (coreOf (releaseRanges s n p) n).resident = (coreOf s n).resident
    ∧ ∀ j, slotOf (coreOf (releaseRanges s n p) n) j = slotOf (coreOf s n) j := by
  have hback (l : List Line) : coreOf (l.foldl writeBack s) n = coreOf s n := by rw [coreOf, foldl_keeps State.cores writeBack_cores]; rfl
  unfold releaseRanges
  simp only [coreOf_modCore, hback]
  exact ⟨trivial, trivial, fun _ => rfl⟩

/-- A core that owns none of the ranges writes nothing back. -/
theorem releaseRanges_mem {s : State} {n : Nat} {p : OwnRange → Bool} (h : ∀ r ∈ (coreOf s n).owned, p r = false) : (releaseRanges s n p).mem = s.mem := by
  have hnone : (coreOf s n).owned.filter p = [] := List.filter_eq_nil_iff.2 fun r hr => by rw [h r hr]; exact Bool.false_ne_true
  unfold releaseRanges
  simp [hnone]

/-! The pointers of persistent queues (R37). -/

/-- The pointers of one queue are kept. -/
def keepPointer (n j : Nat) (b : Job) (s : State) (h : Nat) : State :=
  let d := descOf s n j (BitVec.ofNat 5 h)
  if d.valid && d.persist then modCore s n (fun k => { k with persist := tset k.persist (persistKey b.ctx b.node h) (d.head, d.tail) }) else s

theorem keepPointers_eq (s : State) (n j : Nat) (b : Job) : keepPointers s n j b = (List.range 32).foldl (keepPointer n j b) s := rfl

theorem keepPointer_stands (n j : Nat) (b : Job) (s : State) (h : Nat) : CoreStands n s (keepPointer n j b s h) := by
  unfold keepPointer
  dsimp only
  split
  · exact ⟨rfl, by rw [coreOf_modCore], by rw [coreOf_modCore], fun i => by rw [coreOf_modCore]; rfl⟩
  · exact .refl s

theorem keepPointers_stands (s : State) (n j : Nat) (b : Job) : CoreStands n s (keepPointers s n j b) := .foldl (keepPointer_stands n j b) s _

/-- The pointers kept for a queue are those of its descriptor. -/
def PointersKept (n j : Nat) (b : Job) (h : Nat) (s : State) : Prop :=
  tget (0, 0) (coreOf s n).persist (persistKey b.ctx b.node h) = ((descOf s n j (BitVec.ofNat 5 h)).head, (descOf s n j (BitVec.ofNat 5 h)).tail)

theorem descOf_congr {s u : State} (hm : u.mem = s.mem) (n j : Nat) (h : Handle) : descOf u n j h = descOf s n j h := by rw [descOf, descOf, hm]

theorem keepPointer_kept {n j h i : Nat} {b : Job} {s : State} (hs : PointersKept n j b h s ∨ i = h ∧ (descOf s n j (BitVec.ofNat 5 h)).valid = true ∧ (descOf s n j (BitVec.ofNat 5 h)).persist = true) :
    PointersKept n j b h (keepPointer n j b s i) := by
  unfold PointersKept
  rw [descOf_congr (keepPointer_stands n j b s i).mem]
  unfold keepPointer
  dsimp only
  rcases eq_or_ne i h with rfl | hne
  · split
    · simp
    next hno =>
      obtain hs | ⟨-, hvalid, hpersist⟩ := hs
      · exact hs
      · simp [hvalid, hpersist] at hno
  · obtain hs | ⟨rfl, -⟩ := hs
    · split
      · rw [coreOf_modCore]
        exact (tget_tset_other _ _ _ (by unfold persistKey; omega)).trans hs
      · exact hs
    · exact absurd rfl hne

theorem keepPointers_kept {s : State} {n j h : Nat} {b : Job} (hh : h < 32) (hvalid : (descOf s n j (BitVec.ofNat 5 h)).valid = true) (hpersist : (descOf s n j (BitVec.ofNat 5 h)).persist = true) :
    PointersKept n j b h (keepPointers s n j b) := by
  have hstays (l : List Nat) (t : State) (ht : PointersKept n j b h t) : PointersKept n j b h (l.foldl (keepPointer n j b) t) := by
    induction l generalizing t with
    | nil => exact ht
    | cons i l ih => exact ih _ (keepPointer_kept (.inl ht))
  have hreach (l : List Nat) (hl : h ∈ l) (t : State) (ht : t.mem = s.mem) : PointersKept n j b h (l.foldl (keepPointer n j b) t) := by
    induction l generalizing t with
    | nil => cases hl
    | cons i l ih =>
      rcases List.mem_cons.1 hl with rfl | hl
      · exact hstays l _ (keepPointer_kept (.inr ⟨rfl, by rw [descOf_congr ht]; exact hvalid, by rw [descOf_congr ht]; exact hpersist⟩))
      · exact ih hl _ ((keepPointer_stands n j b t i).mem.trans ht)
  exact hreach _ (List.mem_range.2 hh) s rfl

/-! Retirement (R36, R37). -/

/-- A job's slot is emptied, its descriptors are 0. -/
def retireClear (s : State) (n j : Nat) : State :=
  modCore (modSlot { s with mem := memClear s.mem (coreAt n + descOffset + j * 0x800) 0x800 } n j emptySlot) n (fun k => { k with active := none, forced := false })

theorem retireClear_core (s : State) (n j : Nat) :
    (coreOf (retireClear s n j) n).active = none ∧ slotOf (coreOf (retireClear s n j) n) j = emptySlot (slotOf (coreOf s n) j)
    ∧ (coreOf (retireClear s n j) n).resident = (coreOf s n).resident ∧ (coreOf (retireClear s n j) n).owned = (coreOf s n).owned
    ∧ (coreOf (retireClear s n j) n).persist = (coreOf s n).persist := by
  have hcore : coreOf (retireClear s n j) n = { setSlot (coreOf s n) j (emptySlot (slotOf (coreOf s n) j)) with active := none, forced := false } := by
    unfold retireClear modSlot
    rw [coreOf_modCore, coreOf_modCore]
    rfl
  rw [hcore]
  refine ⟨rfl, ?_, setSlot_resident .., setSlot_owned .., setSlot_persist ..⟩
  exact slotOf_setSlot_same (coreOf s n) j _

theorem retireClear_mem (s : State) (n j : Nat) : (retireClear s n j).mem = memClear s.mem (coreAt n + descOffset + j * 0x800) 0x800 := rfl

theorem retireJob_retiresJob {s : State} {m j : Nat} (hj : j < 2) : retiresJob s m j (retireJob s m j) := by
  unfold retiresJob
  extract_lets k b mine
  have hsig := signalAll_stands s m j m
  generalize hs1 : signalAll s m j = s1 at hsig
  obtain ⟨howned, hres, hslot⟩ := releaseRanges_core s1 m (fun r => r.owner == (b.ctx, b.task))
  have hnone (h : ∀ r ∈ k.owned, ¬ mine r) : (releaseRanges s1 m (fun r => r.owner == (b.ctx, b.task))).mem = s1.mem :=
    releaseRanges_mem fun r hr => by
      rw [hsig.owned] at hr
      simpa using h r hr
  generalize hs2 : releaseRanges s1 m (fun r => r.owner == (b.ctx, b.task)) = s2 at howned hres hslot hnone
  have hkeep := keepPointers_stands s2 m j b
  have hkept := @keepPointers_kept s2 m j
  generalize hs3 : keepPointers s2 m j b = s3 at hkeep
  obtain ⟨hactive, hempty, hclear, hclearOwned, hpersist⟩ := retireClear_core s3 m j
  refine ⟨retireClear s3 m j, ?_, hactive, ?_, ?_, fun r hr => ?_, fun _ i hi => ?_, fun hfree => ⟨fun x hx => ?_, fun h hh => ?_⟩⟩
  · rw [← hs3, ← hs2, ← hs1]
    rfl
  · rw [hempty, emptySlot, emptySlot, hkeep.step, hslot, hsig.step]
  · rw [hclear, hkeep.resident, hres, hsig.resident]
  · rw [hclearOwned, hkeep.owned, howned] at hr
    simpa using (List.mem_filter.1 hr).2
  · rw [retireClear_mem, memRead_memClear_in _ (by omega) (by omega), Nat.add_assoc, Nat.add_assoc]
    exact dflt_past_scratch _ (by unfold scratchSize descOffset; omega) (by unfold coreStride descOffset; omega)
  · rw [retireClear_mem, memRead_memClear_out _ (by omega), hkeep.mem, hnone hfree, hsig.mem]
  · intro d hvalid hpers
    have hd : descOf s2 m j (BitVec.ofNat 5 h) = d := descOf_congr ((hnone hfree).trans hsig.mem) ..
    have hp := hkept (b := b) hh (by rw [hd]; exact hvalid) (by rw [hd]; exact hpers)
    rw [hs3] at hp
    unfold PointersKept at hp
    rw [hpersist, hp, descOf_congr hkeep.mem, hd]

/-! The completion of a task (R46, R51, R59). -/

/-- A task is complete. -/
def CompleteAt (la : Launch) (k : Nat) : Prop := ∃ u, taskOf la k = some u ∧ u.st = .complete

theorem CompleteAt.decTask {la : Launch} {k : Nat} (h : CompleteAt la k) (i : Nat) : CompleteAt (decTask la i) k := by
  obtain ⟨u, hu, hst⟩ := h
  unfold Machine.decTask
  split
  · exact ⟨u, hu, hst⟩
  next t ht =>
    split
    · exact ⟨u, hu, hst⟩
    next hwait =>
      have hne : k ≠ i := by
        rintro rfl
        rw [hu] at ht
        cases ht
        simp [hst] at hwait
      have hdec : taskOf (modTask la i (fun t => { t with ctr := t.ctr - 1 })) k = some u := by rw [taskOf_modTask_other _ _ hne, hu]
      dsimp only
      split
      · refine ⟨u, ?_, hst⟩
        unfold makeReady
        split
        · exact hdec
        · exact (taskOf_modTask_other _ _ hne).trans hdec
      · exact ⟨u, hdec, hst⟩

theorem CompleteAt.makeTokens {la : Launch} {k : Nat} (h : CompleteAt la k) (g : Graph) (key : Nat) (t : Task) : CompleteAt (makeTokens g la key t) k := by
  unfold Machine.makeTokens
  split
  · exact h
  · refine List.foldlRecOn (motive := fun lb => CompleteAt lb k) _ _ h fun lb hb e _ => ?_
    have hq (q : Table EdgeQ) : CompleteAt { lb with edgeq := q } k := hb
    dsimp only
    split
    · exact (hq _).decTask _
    · exact hq _

/-- What a completion leaves before the step loop goes on. -/
def completed (s : State) (p c key : Nat) (t : Task) : State :=
  let s := modLaunch s p c (fun la => makeTokens (graphOf s p c) (leaveOrder (modTask la key (fun t => { t with st := .complete })) t.node key) key t)
  progress (match t.pool with | some e => freePool s p e | none => s) p c

theorem completeTask_eq {s : State} {p c key : Nat} {t : Task} (ht : taskOf (launchOf s p c) key = some t) (hst : t.st ≠ .complete) :
    completeTask s p c key = advanceLoop (completed s p c key t) p c := by
  unfold completeTask
  simp only [ht, beq_iff_eq, hst, if_false]
  rfl

theorem completed_task {s : State} {p c key : Nat} {t : Task} (ht : taskOf (launchOf s p c) key = some t) : CompleteAt (launchOf (completed s p c key t) p c) key := by
  have hdone : CompleteAt (makeTokens (graphOf s p c) (leaveOrder (modTask (launchOf s p c) key (fun t => { t with st := .complete })) t.node key) key t) key := by
    refine CompleteAt.makeTokens ?_ ..
    exact ⟨_, taskOf_modTask_same ht _, rfl⟩
  have hlaunch : launchOf (completed s p c key t) p c
      = { makeTokens (graphOf s p c) (leaveOrder (modTask (launchOf s p c) key (fun t => { t with st := .complete })) t.node key) key t with quietSince := none } := by
    unfold completed
    rw [launchOf_progress]
    have hmod := launchOf_modLaunch (launch_of_taskOf ht) (fun la => makeTokens (graphOf s p c) (leaveOrder (modTask la key (fun t => { t with st := .complete })) t.node key) key t)
    dsimp only at hmod ⊢
    rw [← hmod]
    split
    · unfold freePool launchOf ctxOf
      rw [partOf_modPart]
    · rfl
  rw [hlaunch]
  exact hdone

theorem completed_pool {s : State} {p c key e : Nat} {t : Task} (he : t.pool = some e) :
    e ∉ (partOf (completed s p c key t) p).poolUsed ∧ tget 0#16 (partOf (completed s p c key t) p).poolGen e = tget 0#16 (partOf s p).poolGen e + 1#16 := by
  unfold completed progress modCtx freePool modLaunch modCtx
  simp only [he, partOf_modPart]
  simp [tmod]

/-! A user interrupt (R145, R168, R247). -/

/-- A stream that issues waits in no instruction: only a held arrival is withdrawn. -/
theorem leaveWait_running {b : Job} (h : b.streams.c.run = .running) : leaveWait b .c = { b with fence := none, streams := b.streams.set .c (leavePbar b.streams.c) } := by
  have hrdv : leaveRdv b .c = b := by
    unfold leaveRdv
    simp only [Five.get, h]
  unfold leaveWait
  rw [hrdv]
  rfl

theorem deliverUser_running {s : State} {n j : Nat} (hrun : (jobOf s n j).streams.c.run = .running) (hready : userReady (jobOf s n j) = true) (hfrozen : (coreOf s n).frozen = false) :
    deliverUser s n j = enterUser s n j := by
  have hrdv : finishRdv s n j .c = s := by
    unfold finishRdv
    rw [show (streamOf s (.stream n j .c)).run = .running from hrun]
  unfold deliverUser
  simp only [hrun, hrdv, hready, hfrozen, Bool.not_false, Bool.and_true, if_true]

theorem enterUser_enters {s : State} {n j : Nat} (hrun : (jobOf s n j).streams.c.run = .running) :
    let b := jobOf s n j
    let c := jobOf (enterUser s n j) n j
    c.inh = true ∧ c.uiret.pc = b.streams.c.pc ∧ c.streams.c.pc = b.uivec ∧ c.streams.c.regs = b.streams.c.regs ∧ (enterUser s n j).mem = s.mem := by
  dsimp only
  unfold enterUser
  rw [jobOf_modJob, leaveWait_running hrun]
  exact ⟨rfl, rfl, rfl, rfl, modJob_mem ..⟩

end Sys2Proof.Machine

/-! The events of a job (R30, R36 to R38, R63, R247, R311). -/

namespace Sys2Proof.Machine

open Sys2Proof.Config

section
variable {s : State} {n : CoreNo} {j : Nat}

/-! An event of a core's active job, case by case. -/

theorem execJobStart_staged (hstaged : stagedSlot (coreOf s n.toNat) = some j) (hhalted : (ctxOf s (slotOf (coreOf s n.toNat) j).job.part (slotOf (coreOf s n.toNat) j).job.ctx).stopped = true) :
    exec (.jobStart n) s = .next s := by
  rw [exec_jobStart, execJobStart]
  simp only [hstaged, hhalted, if_true, ite_self]

section
variable (hfrozen : (coreOf s n.toNat).frozen = false)
include hfrozen

theorem execJobStart_open (hactive : (coreOf s n.toNat).active = none) (hending : (coreOf s n.toNat).ending = false) (hstaged : stagedSlot (coreOf s n.toNat) = some j)
    (hhalted : (ctxOf s (slotOf (coreOf s n.toNat) j).job.part (slotOf (coreOf s n.toNat) j).job.ctx).stopped = false) :
    exec (.jobStart n) s = if (slotOf (coreOf s n.toNat) j).resumed = true then
      match savedOf s (slotOf (coreOf s n.toNat) j).job.part (slotOf (coreOf s n.toNat) j).job.ctx n.toNat j with
      | some (b, fl) => .next (restoreJob s n.toNat j b fl)
      | none => .next s
      else .next (startJob s n.toNat j) := by
  rw [exec_jobStart, execJobStart]
  simp only [hfrozen, hactive, hending, hstaged, hhalted, Option.isSome_none, Bool.or_false, Bool.false_eq_true, if_false] <;> rfl

section
variable (hactive : (coreOf s n.toNat).active = some j)
include hactive

theorem execJobRetire_active : exec (.jobRetire n) s = if canRetire (jobOf s n.toNat j) = true then .next (retireJob s n.toNat j) else .next s := by
  rw [exec_jobRetire, execJobRetire]
  simp only [hactive, hfrozen, Bool.false_or]
  cases canRetire (jobOf s n.toNat j) <;> rfl

theorem execWatchdogDeadlock_dead {t : Sid} {since : Nat} (hdead : deadlocked s n.toNat j = some t) (hsince : (jobOf s n.toNat j).deadSince = some since) :
    exec (.watchdogDeadlock n) s = if s.now < since + 65536 then .next s
      else .next (stopStream s n.toNat j .c { cause := cWatchdog } false (jobOf s n.toNat j).streams.c.cmd t) := by
  rw [exec_watchdogDeadlock, execWatchdogDeadlock]
  simp only [hactive, hfrozen, hdead, hsince, Bool.false_eq_true, if_false]
  rfl

theorem execWatchdogDeadlock_alive (h : deadlocked s n.toNat j = none ∨ (jobOf s n.toNat j).deadSince = none) : exec (.watchdogDeadlock n) s = .next s := by
  rw [exec_watchdogDeadlock, execWatchdogDeadlock]
  simp only [hactive, hfrozen, Bool.false_eq_true, if_false]
  obtain h | h := h
  · simp only [h]
  · simp only [h]
    cases deadlocked s n.toNat j <;> rfl

theorem execNpbudgetExpiry_until {u : Nat} (hu : (jobOf s n.toNat j).npUntil = some u) :
    exec (.npbudgetExpiry n) s = if s.now < u then .next s
      else .next (stopStream (modJob s n.toNat j (fun b => { b with npUntil := none })) n.toNat j .c { cause := cWatchdog } false (jobOf s n.toNat j).streams.c.cmd .c) := by
  rw [exec_npbudgetExpiry, execNpbudgetExpiry]
  simp only [hactive, hfrozen, hu, Bool.false_or, decide_eq_true_eq]
  rfl

theorem execUserInterruptDelivery_ready (hready : userReady (jobOf s n.toNat j) = true) : exec (.userInterruptDelivery n) s = .next (deliverUser s n.toNat j) := by
  rw [exec_userInterruptDelivery, execUserInterruptDelivery]
  simp only [hactive, hfrozen, hready, Bool.not_true, Bool.or_false, Bool.false_eq_true, if_false]

end
end

theorem execSwitchBudgetExpiry_active (hactive : (coreOf s n.toNat).active = some j) :
    exec (.switchBudgetExpiry n) s = if (coreOf s n.toNat).ending = true then .next (modCore s n.toNat (fun k => { k with forced := true })) else .next s := by
  rw [exec_switchBudgetExpiry, execSwitchBudgetExpiry]
  simp only [hactive, Option.isSome_some, Bool.and_true]

end

theorem execStallWindowExpiry_running {s : State} {p : PartNo} {c : Nat} {la : Launch} (hrunning : (partOf s p.toNat).running = some c) (hla : (ctxOf s p.toNat c).launch = some la) :
    exec (.stallWindowExpiry p) s = if stalled s p.toNat c la = true then .next (discardLaunch (stopErr s p.toNat c cWatchdog (stallNode s p.toNat c la)) p.toNat c) else .next s := by
  rw [exec_stallWindowExpiry, execStallWindowExpiry]
  simp only [hrunning, hla]

/-- A stream of a staged job is that of its kernel at job start (R32). -/
theorem stagedJob_stream (q c key : Nat) (t : Task) (nd : Node) (x : Sid) : (stagedJob q c key t nd).streams.get x = startStream nd.kernel x := by
  cases x <;> rfl

theorem startStream_fresh (kr : Kernel) (t : Sid) :
    let y := startStream kr t
    y.regs = [] ∧ y.due = [] ∧ y.fflags = 0#5 ∧ y.slip = 0#32 ∧ y.loops = [] ∧ y.cmd = 0#32 := by
  unfold startStream
  split <;> exact ⟨rfl, rfl, rfl, rfl, rfl, rfl⟩

/-- Settles O44: the events by the equation of each, what a start and a retirement leave by `startJob_startsJob` and `retireJob_retiresJob`. -/
theorem jobEventResults : Obligations.JobEventResults := by
  unfold Obligations.JobEventResults
  intro s n hfrozen m k halted
  refine ⟨fun j hstaged hhalted => execJobStart_staged hstaged hhalted, fun j hactive hending hstaged hhalted hres => ?start, fun j b fl hactive hending hstaged hhalted hres hsaved => ?restore,
    fun j hactive => ?active, fun p c la hrunning hla => ?stall, fun j hstaged => startJob_startsJob (stagedSlot_lt hstaged), fun q c key t nd x => ?fresh,
    fun j hactive hj => retireJob_retiresJob hj, fun w p c key t ht hst => ⟨completed w p c key t, completeTask_eq ht hst, completed_task ht, fun e he => completed_pool he⟩⟩
  case start => rw [execJobStart_open hfrozen hactive hending hstaged hhalted, if_neg (by rw [hres]; exact Bool.false_ne_true)]
  case restore =>
    rw [execJobStart_open hfrozen hactive hending hstaged hhalted, if_pos hres]
    have hsaved' : savedOf s (slotOf (coreOf s n.toNat) j).job.part (slotOf (coreOf s n.toNat) j).job.ctx n.toNat j = some (b, fl) := hsaved
    rw [hsaved']
  case stall =>
    rw [execStallWindowExpiry_running hrunning hla]
    exact ⟨fun h => if_pos h, fun h => if_neg (by rw [h]; exact Bool.false_ne_true)⟩
  case fresh =>
    rw [stagedJob_stream]
    obtain ⟨h1, h2, h3, h4, h5, h6⟩ := startStream_fresh nd.kernel x
    refine ⟨h1, h2, h3, h4, h5, h6, fun hused => ?_, fun hunused => ?_⟩
    · unfold startStream
      rw [if_pos hused]
      exact ⟨rfl, rfl⟩
    · unfold startStream
      rw [if_neg (by rw [hunused]; exact Bool.false_ne_true)]
      exact ⟨rfl, rfl⟩
  case active =>
    intro b
    rw [execJobRetire_active hfrozen hactive, execSwitchBudgetExpiry_active hactive]
    refine ⟨fun h => if_pos h, fun h => if_neg (by rw [h]; exact Bool.false_ne_true), fun t since hdead hsince hold => ?_, fun h => ?_, fun u hu hspent => ?_, fun u hu hleft => ?_,
      fun h => if_pos h, fun h => if_neg (by rw [h]; exact Bool.false_ne_true), fun hpend hsus hinh htraps hsv hrun => ⟨_, ?_, enterUser_enters hrun⟩⟩
    · rw [execWatchdogDeadlock_dead hfrozen hactive hdead hsince, if_neg (Nat.not_lt.2 hold)]
    · cases hdead : deadlocked s m j with
      | none => exact execWatchdogDeadlock_alive hfrozen hactive (.inl hdead)
      | some t =>
        cases hsince : b.deadSince with
        | none => exact execWatchdogDeadlock_alive hfrozen hactive (.inr hsince)
        | some since =>
          have hnow := h.resolve_left (by rw [hdead]; exact Option.some_ne_none t) since hsince
          rw [execWatchdogDeadlock_dead hfrozen hactive hdead hsince, if_pos hnow]
    · rw [execNpbudgetExpiry_until hfrozen hactive hu, if_neg (Nat.not_lt.2 hspent)]
    · rw [execNpbudgetExpiry_until hfrozen hactive hu, if_pos hleft]
    · have hready : userReady (jobOf s m j) = true := by
        have hpend' : ((jobOf s m j).pend &&& ~~~(jobOf s m j).uimask != 0#8) = true := bne_iff_ne.2 hpend
        have hsus' : (jobOf s m j).suspending = none := hsus
        have hinh' : (jobOf s m j).inh = false := hinh
        have htraps' : (jobOf s m j).traps = [] := htraps
        have hsv' : (jobOf s m j).sv = false := hsv
        have hrun' : (jobOf s m j).streams.c.run = .running := hrun
        unfold userReady
        rw [hpend', hsus', hinh', htraps', hsv', hrun']
        rfl
      rw [execUserInterruptDelivery_ready hfrozen hactive hready, deliverUser_running hrun hready hfrozen]

end Sys2Proof.Machine

/-! The Step Sequencer (R23, R26, R29, R40 to R42, R95, R96, R282, R306, R307). -/

namespace Sys2Proof.Machine

open Sys2Proof.Config

/-! Contexts after the operations of partition control. -/

@[simp] theorem ctxOf_modCore (s : State) (n p c : Nat) (f : Core → Core) : ctxOf (modCore s n f) p c = ctxOf s p c := rfl

theorem ctxOf_modPart {s : State} {p : Nat} {f : Partition → Partition} (hf : ∀ q, (f q).ctxs = q.ctxs) (q c : Nat) : ctxOf (modPart s p f) q c = ctxOf s q c :=
  (KeepsJobs.modPart s p hf).ctx q c

/-- Bit b of EVENT of a partition. -/
def raiseBit (b : Nat) (q : Partition) : Partition := { q with event := q.event ||| BitVec.ofNat 6 (2 ^ b) }

theorem partEvent_parts {s : State} {p b : Nat} (h : ¬ (partOf s p).event.getLsbD b = true) : (partEvent s p b).parts = (modPart s p (raiseBit b)).parts := by
  unfold partEvent
  rw [if_neg h]
  rfl

/-- An event raised in a partition touches no context. -/
@[simp] theorem ctxOf_partEvent (s : State) (q b p c : Nat) : ctxOf (partEvent s q b) p c = ctxOf s p c := by
  by_cases h : (partOf s q).event.getLsbD b = true
  · rw [partEvent, if_pos h]
  · have hmod : ctxOf (modPart s q (raiseBit b)) p c = ctxOf s p c := ctxOf_modPart (f := raiseBit b) (fun _ => rfl) p c
    rw [← hmod, ctxOf, ctxOf, partOf, partOf, partEvent_parts h]

/-- Bit b of EVENT is set. -/
theorem partEvent_raised (s : State) (p : Nat) {b : Nat} (hb : b < 6) : (partOf (partEvent s p b) p).event.getLsbD b = true := by
  by_cases h : (partOf s p).event.getLsbD b = true
  · rw [partEvent, if_pos h]
    exact h
  · rw [partOf, partEvent_parts h, ← partOf, partOf_modPart]
    simp only [raiseBit, BitVec.getLsbD_or, BitVec.getLsbD_ofNat, Nat.testBit_two_pow_self, hb, decide_true, Bool.and_self, Bool.or_true]

theorem ctxOf_stopErr (s : State) (p c : Nat) (cause : Byte) (node : Nat) (q d : Nat) : ctxOf (stopErr s p c cause node) q d =
    if q = p ∧ d = c then { ctxOf s q d with busy := false, err := true, stopReq := false, sqerr := BitVec.ofNat 64 (node % 1024 * 2 ^ 32 + cause.toNat) } else ctxOf s q d := by
  unfold stopErr
  rw [ctxOf_partEvent, ctxOf_modCtx_any]

@[simp] theorem ctxOf_freePool (s : State) (q e p c : Nat) : ctxOf (freePool s q e) p c = ctxOf s p c := by
  unfold freePool
  refine ctxOf_modPart ?_ p c
  exact fun _ => rfl

@[simp] theorem ctxOf_clearEntries (s : State) (q : Nat) (f : Nat → RingEntry → Bool) (p c : Nat) : ctxOf (clearEntries s q f) p c = ctxOf s p c := by
  unfold clearEntries
  refine ctxOf_modPart ?_ p c
  exact fun _ => rfl

/-- The context whose launch is discarded. -/
theorem ctxOf_discardLaunch (s : State) (p c : Nat) : ∃ t, ctxOf (discardLaunch s p c) p c = { ctxOf s p c with launch := none, snap := none, saved := [], stopped := false, turns := t } := by
  unfold discardLaunch
  extract_lets tasks s1 s2 s3 s4
  have h1 : ctxOf s1 p c = ctxOf s p c := by
    refine foldl_keeps (fun s => ctxOf s p c) (fun t e => ?_) s tasks
    cases e.2.pool with
    | none => rfl
    | some k =>
      dsimp only
      split
      · rfl
      · exact ctxOf_freePool ..
  have h2 : ctxOf s2 p c = ctxOf s1 p c := ctxOf_clearEntries ..
  have h3 : ctxOf s3 p c = ctxOf s2 p c := by
    refine foldl_keeps (fun s => ctxOf s p c) ?_ s2 _
    exact fun _ _ => rfl
  have h4 : ctxOf s4 p c = ctxOf s3 p c := by
    refine ctxOf_modPart ?_ p c
    exact fun _ => rfl
  rw [ctxOf_modCtx, h4, h3, h2, h1]
  exact ⟨_, rfl⟩

/-! GO (R40). -/

section
variable {s : State} {p c : Nat} {stop : Bool}

/-- The context as GO finds it once the stopped launch is discarded. -/
def goCtx (s : State) (p c : Nat) (stop : Bool) : Context := { ctxOf (discardLaunch s p c) p c with done := false, err := false, sqerr := 0#64, stopReq := stop }

theorem goLoop_idle (h : (ctxOf s p c).busy = false) :
    goLoop s p c stop = match (goCtx s p c stop).graph with
      | some g =>
        if (goCtx s p c stop).sqgraph = w64 g.gen then
          if (goCtx s p c stop).sqstep.toNat < (goCtx s p c stop).sqcount.toNat then modCtx (discardLaunch s p c) p c (fun _ => { goCtx s p c stop with busy := true })
          else partEvent (modCtx (discardLaunch s p c) p c (fun _ => { goCtx s p c stop with done := true })) p 2
        else partEvent (modCtx (discardLaunch s p c) p c (fun _ => { goCtx s p c stop with err := true, stopReq := false, sqerr := w64 (0x3FF * 2 ^ 32 + 1) })) p 2
      | none => partEvent (modCtx (discardLaunch s p c) p c (fun _ => { goCtx s p c stop with err := true, stopReq := false, sqerr := w64 (0x3FF * 2 ^ 32 + 1) })) p 2 := by
  unfold goLoop
  simp only [h, Bool.false_eq_true, if_false] <;> rfl

/-- A loop that GO does not start is still idle. -/
theorem goCtx_busy (stop : Bool) (h : (ctxOf s p c).busy = false) : (goCtx s p c stop).busy = false := by
  obtain ⟨t, ht⟩ := ctxOf_discardLaunch s p c
  unfold goCtx
  rw [ht]
  exact h

theorem goLoop_starts (h : (ctxOf s p c).busy = false) {g : Graph} (hg : (ctxOf (discardLaunch s p c) p c).graph = some g) (hname : (ctxOf (discardLaunch s p c) p c).sqgraph = BitVec.ofNat 64 g.gen)
    (hleft : (ctxOf (discardLaunch s p c) p c).sqstep.toNat < (ctxOf (discardLaunch s p c) p c).sqcount.toNat) :
    let y := ctxOf (goLoop s p c stop) p c
    y.busy = true ∧ y.done = false ∧ y.err = false ∧ y.sqerr = 0#64 ∧ y.stopReq = stop := by
  have hg' : (goCtx s p c stop).graph = some g := hg
  have hname' : (goCtx s p c stop).sqgraph = w64 g.gen := hname
  have hleft' : (goCtx s p c stop).sqstep.toNat < (goCtx s p c stop).sqcount.toNat := hleft
  rw [goLoop_idle h, hg']
  dsimp only
  rw [if_pos hname', if_pos hleft', ctxOf_modCtx]
  exact ⟨rfl, rfl, rfl, rfl, rfl⟩

theorem goLoop_done (h : (ctxOf s p c).busy = false) {g : Graph} (hg : (ctxOf (discardLaunch s p c) p c).graph = some g) (hname : (ctxOf (discardLaunch s p c) p c).sqgraph = BitVec.ofNat 64 g.gen)
    (hnone : (ctxOf (discardLaunch s p c) p c).sqcount.toNat ≤ (ctxOf (discardLaunch s p c) p c).sqstep.toNat) :
    let y := ctxOf (goLoop s p c stop) p c
    y.busy = false ∧ y.done = true ∧ y.err = false ∧ y.sqerr = 0#64 ∧ (partOf (goLoop s p c stop) p).event.getLsbD 2 = true := by
  have hg' : (goCtx s p c stop).graph = some g := hg
  have hname' : (goCtx s p c stop).sqgraph = w64 g.gen := hname
  have hnone' : ¬ (goCtx s p c stop).sqstep.toNat < (goCtx s p c stop).sqcount.toNat := Nat.not_lt.2 hnone
  rw [goLoop_idle h, hg']
  dsimp only
  rw [if_pos hname', if_neg hnone', ctxOf_partEvent, ctxOf_modCtx]
  exact ⟨goCtx_busy stop h, rfl, rfl, rfl, partEvent_raised _ _ (by decide)⟩

theorem goLoop_refused (h : (ctxOf s p c).busy = false)
    (hg : (ctxOf (discardLaunch s p c) p c).graph = none ∨ ∃ g, (ctxOf (discardLaunch s p c) p c).graph = some g ∧ (ctxOf (discardLaunch s p c) p c).sqgraph ≠ BitVec.ofNat 64 g.gen) :
    let y := ctxOf (goLoop s p c stop) p c
    y.busy = false ∧ y.done = false ∧ y.err = true ∧ y.sqerr = BitVec.ofNat 64 (0x3FF * 2 ^ 32 + 1) ∧ (partOf (goLoop s p c stop) p).event.getLsbD 2 = true := by
  have hgo : goLoop s p c stop = partEvent (modCtx (discardLaunch s p c) p c (fun _ => { goCtx s p c stop with err := true, stopReq := false, sqerr := w64 (0x3FF * 2 ^ 32 + 1) })) p 2 := by
    rw [goLoop_idle h]
    obtain hnone | ⟨g, hsome, hname⟩ := hg
    · rw [show (goCtx s p c stop).graph = none from hnone]
    · rw [show (goCtx s p c stop).graph = some g from hsome]
      exact if_neg hname
  rw [hgo]
  dsimp only
  rw [ctxOf_partEvent, ctxOf_modCtx]
  exact ⟨goCtx_busy stop h, rfl, rfl, rfl, partEvent_raised _ _ (by decide)⟩

theorem ctxOf_stopLoop : (ctxOf (stopLoop s p c) p c).stopReq = ((ctxOf s p c).stopReq || (ctxOf s p c).busy) := by
  unfold stopLoop
  rw [ctxOf_modCtx]
  cases hb : (ctxOf s p c).busy <;> simp

theorem ctxOf_requestRollback : (ctxOf (requestRollback s p c) p c).rb = ((ctxOf s p c).rb || !(ctxOf s p c).busy) := by
  unfold requestRollback
  rw [ctxOf_modCtx]
  cases hb : (ctxOf s p c).busy <;> simp

end

/-! Step records and snapshots, of a context that lives (R42, R95). -/

section
variable {s : State} {p : PartNo} {c : CtxNo} (hbusy : (ctxOf s p.toNat c.toNat).busy = true) (hstopped : (ctxOf s p.toNat c.toNat).stopped = false)
  (hrunning : (partOf s p.toNat).running = some c.toNat)
include hbusy hstopped hrunning

theorem execStepRecordArrival_live (hlaunch : (ctxOf s p.toNat c.toNat).launch = none) (hleft : (ctxOf s p.toNat c.toNat).sqstep.toNat < (ctxOf s p.toNat c.toNat).sqcount.toNat) :
    exec (.stepRecordArrival p c) s = if transitError s.tick = true then .next (stopErr s p.toNat c.toNat cDataUe 0x3FF)
      else match vaRead s (deviceWho p.toNat c.toNat) (recordVa (ctxOf s p.toNat c.toNat)) 64 with
      | (s, .error e) => .next (stopErr s p.toNat c.toNat (causeOf e) 0x3FF)
      | (u, .ok w) =>
        if fieldAt w 16 4 / 16 ≠ 0 ∨ !zeroAt w 52 64 then .next (stopErr u p.toNat c.toNat cIllegal 0x3FF)
        else .next (launchGraph (modCtx u p.toNat c.toNat (fun x => { x with k := stepRegs x (recordVa x) w })) p.toNat c.toNat) := by
  rw [exec_stepRecordArrival, execStepRecordArrival]
  simp only [hbusy, hstopped, hrunning, hlaunch, Nat.not_le.2 hleft, Bool.not_true, Option.isSome_none, bne_self_eq_false, decide_false, Bool.or_false, Bool.false_eq_true, if_false] <;> rfl

theorem execSnapshotCommit_live {sn : Snapshot} (hsnap : (ctxOf s p.toNat c.toNat).snap = some sn) :
    exec (.snapshotCommit p c) s = match (if transitError s.tick then (s, .error cDataUe) else copyColumns s p.toNat c.toNat sn.image) with
      | (s, .error e) => .next (modCtx (stopErr s p.toNat c.toNat e 0x3FF) p.toNat c.toNat (fun x => { x with launch := none, snap := none }))
      | (s, .ok _) => .next (stepDone (writeCommit s p.toNat c.toNat sn.image sn.step) p.toNat c.toNat) := by
  rw [exec_snapshotCommit, execSnapshotCommit]
  simp only [hbusy, hstopped, hrunning, hsnap, Bool.not_true, bne_self_eq_false, Bool.or_false, Bool.false_eq_true, if_false] <;> rfl

end

end Sys2Proof.Machine

/-! Activation: the trips of a graph's nodes, and the tasks of its launch (R23, R26, R29, R42, R282). -/

namespace Sys2Proof.Machine

open Sys2Proof.Config

/-! Tables built by parts. -/

/-- A key that one part alone can hold. -/
theorem tfind_flatMap {α : Type} {f : Nat → Table α} {K k : Nat} (h : ∀ i, i ≠ k → tfind (f i) K = none) (l : List Nat) :
    tfind (l.flatMap f) K = if k ∈ l then tfind (f k) K else none := by
  induction l with
  | nil => rfl
  | cons i l ih =>
    rw [List.flatMap_cons, tfind_append, ih]
    rcases eq_or_ne i k with rfl | hne
    · cases tfind (f i) K <;> simp
    · simp [h i hne, Ne.symm hne]

/-- An entry for each of some numbers. -/
theorem tfind_mapAdd {α : Type} (v : Nat → α) (K x : Nat) (l : List Nat) : tfind (l.map (fun t => (K + t, v t))) (K + x) = if x ∈ l then some (v x) else none := by
  induction l with
  | nil => rfl
  | cons t l ih =>
    rw [List.map_cons, tfind, ih]
    rcases eq_or_ne t x with rfl | hne
    · simp
    · simp [hne, Ne.symm hne]

/-- An entry for each number whose list is not empty. -/
theorem tget_nonEmpty {α : Type} (g : Nat → List α) (k : Nat) (l : List Nat) : tget [] (l.filterMap (fun i => if (g i).isEmpty then none else some (i, g i))) k = if k ∈ l then g k else [] := by
  induction l with
  | nil => rfl
  | cons i l ih =>
    unfold tget at ih ⊢
    simp only [List.isEmpty_iff] at ih ⊢
    rw [List.filterMap_cons]
    rcases eq_or_ne i k with rfl | hne
    · by_cases he : g i = []
      · simp [he, ih]
      · simp [he, tfind]
    · by_cases he : g i = []
      · simp [he, ih, Ne.symm hne]
      · simp [he, tfind, hne, ih, Ne.symm hne]

/-! The launch of a graph (R23, R26, R29). -/

section
variable {q : Partition} {g : Graph} {trips : Table (List Nat)}

/-- The tasks of node k of a graph. -/
def tasksOf (q : Partition) (g : Graph) (trips : Table (List Nat)) (k : Nat) : Table Task := nodeTasks q k (g.nodes.getD k {}) (tget [] trips k)

theorem newLaunch_tasks : (newLaunch q g trips).tasks = (List.range g.nodes.length).flatMap (tasksOf q g trips) := by
  unfold newLaunch
  dsimp only
  rw [List.flatMap_map]
  rfl

theorem newLaunch_order : (newLaunch q g trips).order =
    (List.range g.nodes.length).filterMap (fun k => if (((tasksOf q g trips k).filter (fun t => t.2.st == .ready)).map (fun t => t.1)).isEmpty then none
      else some (k, ((tasksOf q g trips k).filter (fun t => t.2.st == .ready)).map (fun t => t.1))) := by
  unfold newLaunch
  dsimp only
  rw [List.filterMap_map]
  rfl

/-- A tile's task, among those of its node. -/
theorem tfind_nodeTasks (k : Nat) (nd : Node) (tr : List Nat) (tile : Nat) : tfind (nodeTasks q k nd tr) (taskKey k tile) =
    if tile < taskCount nd tr ∧ tileHere q nd tr tile = true then some { node := k, tile := tile, ctr := nd.depInit, st := if nd.depInit = 0 then .ready else .waiting } else none := by
  unfold nodeTasks taskKey
  rw [tfind_mapAdd]
  simp only [List.mem_filter, List.mem_range]

/-- Tasks of another node have other keys. -/
theorem tfind_nodeTasks_other {i k tile : Nat} {nd : Node} {tr : List Nat} (hcount : taskCount nd tr ≤ 2 ^ 24) (htile : tile < 2 ^ 24) (hne : i ≠ k) :
    tfind (nodeTasks q i nd tr) (taskKey k tile) = none := by
  refine tfind_none fun e he => ?_
  obtain ⟨t, ht, rfl⟩ := List.mem_map.1 he
  have hlt := List.mem_range.1 (List.mem_filter.1 ht).1
  unfold taskKey
  dsimp only
  omega

theorem taskOf_newLaunch {k tile : Nat} (hcount : ∀ i < g.nodes.length, taskCount (g.nodes.getD i {}) (tget [] trips i) ≤ 2 ^ 24) (hk : k < g.nodes.length) (htile : tile < 2 ^ 24) :
    taskOf (newLaunch q g trips) (taskKey k tile) =
      if tile < taskCount (g.nodes.getD k {}) (tget [] trips k) ∧ tileHere q (g.nodes.getD k {}) (tget [] trips k) tile = true
        then some { node := k, tile := tile, ctr := (g.nodes.getD k {}).depInit, st := if (g.nodes.getD k {}).depInit = 0 then .ready else .waiting } else none := by
  have hwithin : (List.range g.nodes.length).flatMap (tasksOf q g trips) = (List.range g.nodes.length).flatMap (fun i => if i < g.nodes.length then tasksOf q g trips i else []) :=
    List.flatMap_congr fun i hi => (if_pos (List.mem_range.1 hi)).symm
  rw [taskOf, newLaunch_tasks, hwithin, tfind_flatMap (k := k), if_pos (List.mem_range.2 hk), if_pos hk]
  · exact tfind_nodeTasks ..
  · intro i hne
    split
    next hi => exact tfind_nodeTasks_other (hcount i hi) htile hne
    next => rfl

theorem order_newLaunch {k : Nat} (hk : k < g.nodes.length) : tget [] (newLaunch q g trips).order k =
    if (g.nodes.getD k {}).depInit = 0
      then ((List.range (taskCount (g.nodes.getD k {}) (tget [] trips k))).filter (tileHere q (g.nodes.getD k {}) (tget [] trips k))).map (taskKey k) else [] := by
  rw [newLaunch_order, tget_nonEmpty (fun k => ((tasksOf q g trips k).filter (fun t => t.2.st == .ready)).map (fun t => t.1)), if_pos (List.mem_range.2 hk)]
  unfold tasksOf nodeTasks
  rw [List.filter_map]
  split <;> simp_all [Function.comp_def]

end

/-! The checks of an activation (R26, R276, R323). -/

theorem activationError_checks (q : Partition) (nd : Node) (trips : List Nat) : activationChecks q nd trips := by
  unfold activationChecks activationError
  refine ⟨fun h => if_pos h, fun h hg => ?_, fun h hg hs => ?_, fun h hg hs => ?_⟩
  · rw [if_neg h, if_pos hg]
  · obtain ⟨f, hf, hlt⟩ := hs
    rw [if_neg h, if_neg hg, hf]
    exact if_pos hlt
  · rw [if_neg h, if_neg hg]
    cases hf : nd.firn with
    | none => rfl
    | some f => exact if_neg fun hlt => hs ⟨f, hf, hlt⟩

/-- An activation fails at the first node whose trips cannot be read, or whose checks fail. -/
theorem activateNodes_error {P C : Nat} {l : List Node} {k : Nat} {s w : State} {cause : Byte} {i : Nat} (h : activateNodes P C l k s = (w, .error (cause, i))) :
    k ≤ i ∧ i < k + l.length ∧ ∃ v before, activateNodes P C (l.take (i - k)) k s = (v, .ok before)
      ∧ (resolveTrips P C (l.getD (i - k) {}).levels v = (w, .error cause)
        ∨ ∃ trips, resolveTrips P C (l.getD (i - k) {}).levels v = (w, .ok trips) ∧ activationError (partOf w P) (l.getD (i - k) {}) trips = some cause) := by
  induction l generalizing k s with
  | nil => simp [activateNodes] at h
  | cons nd r ih =>
    rw [activateNodes] at h
    split at h
    next u e htrips =>
      simp only [Prod.mk.injEq, Except.error.injEq] at h
      obtain ⟨rfl, rfl, rfl⟩ := h
      refine ⟨Nat.le_refl _, by simp, s, [], ?_, .inl ?_⟩ <;> rw [Nat.sub_self]
      · rfl
      · exact htrips
    next u t htrips =>
      split at h
      next e herr =>
        simp only [Prod.mk.injEq, Except.error.injEq] at h
        obtain ⟨rfl, rfl, rfl⟩ := h
        refine ⟨Nat.le_refl _, by simp, s, [], ?_, .inr ⟨t, ?_⟩⟩ <;> rw [Nat.sub_self]
        · rfl
        · exact ⟨htrips, herr⟩
      next hok =>
        split at h
        next v e hrest =>
          simp only [Prod.mk.injEq, Except.error.injEq] at h
          obtain ⟨rfl, rfl⟩ := h
          obtain ⟨hlow, hhigh, x, before, hbefore, hfail⟩ := ih hrest
          obtain ⟨d, rfl⟩ := Nat.exists_eq_add_of_le hlow
          have hsub : k + 1 + d - k = d + 1 := by omega
          have hsub' : k + 1 + d - (k + 1) = d := by omega
          rw [hsub'] at hbefore hfail
          rw [hsub, List.take_succ_cons, List.getD_cons_succ]
          refine ⟨by omega, by rw [List.length_cons]; omega, x, (k, t) :: before, ?_, hfail⟩
          rw [activateNodes, htrips]
          dsimp only
          rw [hok, hbefore]
        next v rest hrest => simp at h

/-! The launch that a step record starts (R42, R282). -/

/-- The state once the checkpoint that a step asks for is taken. -/
def launchBase (s : State) (p c : Nat) : State :=
  if (tget 0#64 (ctxOf s p c).k 6).getLsbD 3 = true ∧ (vrangeOf (ctxOf s p c)).2 ≠ 0 then modCtx s p c (fun x => takeCheckpoint x (tget 0#64 (ctxOf s p c).k 0).toNat) else s

theorem graphOf_launchBase (s : State) (p c : Nat) : graphOf (launchBase s p c) p c = graphOf s p c := by
  unfold launchBase
  split
  · unfold graphOf
    rw [ctxOf_modCtx]
    unfold takeCheckpoint
    split <;> rfl
  · rfl

theorem launchGraph_eq (s : State) (p c : Nat) : launchGraph s p c = match activateNodes p c (graphOf s p c).nodes 0 (launchBase s p c) with
    | (w, .error (e, k)) => stopErr w p c e k
    | (w, .ok trips) => advanceLoop (progress (modCtx w p c (fun x => { x with launch := some (newLaunch (partOf w p) (graphOf (launchBase s p c) p c) trips) })) p c) p c := by
  rw [← graphOf_launchBase s p c]
  unfold launchGraph launchBase
  simp only [Bool.and_eq_true, bne_iff_ne, ne_eq] <;> rfl

theorem launchGraph_error {s w : State} {p c : Nat} {cause : Byte} {k : Nat} (h : activateNodes p c (graphOf s p c).nodes 0 (launchBase s p c) = (w, .error (cause, k))) :
    launchGraph s p c = stopErr w p c cause k := by
  rw [launchGraph_eq, h]

theorem launchGraph_ok {s w : State} {p c : Nat} {trips : Table (List Nat)} (h : activateNodes p c (graphOf s p c).nodes 0 (launchBase s p c) = (w, .ok trips)) :
    ∃ t, launchGraph s p c = advanceLoop t p c ∧ t.mem = w.mem ∧ (ctxOf t p c).launch = some (newLaunch (partOf w p) (graphOf s p c) trips) := by
  refine ⟨_, by rw [launchGraph_eq, h], by simp [progress], ?_⟩
  rw [graphOf_launchBase]
  unfold progress
  rw [ctxOf_modCtx, ctxOf_modCtx]
  rfl

theorem launches_holds (P C : Nat) : launches P C := by
  unfold launches
  refine ⟨fun s _ => ⟨fun w cause k h => launchGraph_error h, fun w trips h => launchGraph_ok h⟩, fun l k s w cause i h => activateNodes_error h, activationError_checks, ?_⟩
  intro q g trips nd count here la hcount k hk
  exact ⟨fun tile htile => taskOf_newLaunch hcount hk htile, order_newLaunch hk⟩

end Sys2Proof.Machine

/-! Rollback and failed banks, and the statement about the Step Sequencer (R96, R98, R282, R306, R307). -/

namespace Sys2Proof.Machine

open Sys2Proof.Config

/-! Writes to a vault change no job and no context (R74, R95). -/

theorem countOwner_keepsJobs (s : State) (pa k : Nat) : KeepsJobs s (countOwner s pa k) := by
  unfold countOwner
  split
  · exact countCorrected_keepsJobs ..
  · exact .refl s

theorem storePut_keepsJobs (s : State) (pa key : Nat) (l : List Byte) : KeepsJobs s (storePut s pa key l).1 := by
  unfold storePut
  split
  · exact countOwner_keepsJobs ..
  · exact ((KeepsJobs.refl s).withMem _).trans (countOwner_keepsJobs ..)

theorem markDirty_keepsJobs (s : State) (n off len : Nat) : KeepsJobs s (markDirty s n off len) := by
  unfold markDirty
  split
  · exact .refl s
  · extract_lets q declared blocks
    split
    · exact .refl s
    · refine .modCore s n ?_
      exact fun _ _ => rfl

theorem physWrite_vault_keepsJobs {s : State} {pa n off : Nat} (h : region pa = .vault n off) (key : Nat) (l : List Byte) : KeepsJobs s (physWrite s pa key l).1 := by
  have hw := wakeColumn_keepsJobs s n
  have hput := hw.trans (storePut_keepsJobs (wakeColumn s n) pa 0 l)
  unfold physWrite
  rw [h]
  dsimp only
  split
  · exact hw
  · split
    · exact hw
    · split
      next u _ he =>
        rw [he] at hput
        exact hput.trans (markDirty_keepsJobs ..)
      · exact hput

/-- An address of a column's vault window. -/
theorem region_vault {pa n off : Nat} (hn : n < 256) (hoff : off < 0x1000000) (hpa : pa = 0x8000000000 + n * 0x1000000 + off) : region pa = .vault n off := by
  have hhbm : ¬ pa < hbmEnd := by unfold hbmEnd; omega
  have hrecord : ¬ pa < recordBase + recordSize := by unfold recordBase recordSize; omega
  have hvault : ¬ pa < vaultBase := by unfold vaultBase; omega
  have hcore : pa < coreBase := by unfold coreBase; omega
  have hdiv : (pa - vaultBase) / vaultStride = n := by unfold vaultBase vaultStride; omega
  have hmod : (pa - vaultBase) % vaultStride = off := by unfold vaultBase vaultStride; omega
  unfold region
  rw [if_neg hhbm, if_neg hrecord, if_neg hvault, if_pos hcore, hdiv, hmod]

/-- A block of a column's vault range stands in that column's vault window. -/
theorem region_blockAt {n : Nat} (b : Nat) (hn : n < nCores) : region (blockAt n b) = .vault n (min (b * 4096) vaultSize) := by
  have hoff : min (b * 4096) vaultSize < 0x1000000 := (Nat.min_le_right (b * 4096) vaultSize).trans_lt (by decide)
  have hpa : blockAt n b = 0x8000000000 + n * 0x1000000 + min (b * 4096) vaultSize := by
    unfold blockAt vaultAt
    rw [vaultBase, vaultStride]
  exact region_vault hn hoff hpa

theorem restoreBlock_keepsJobs (s : State) (p c image k : Nat) {n : Nat} (o : Nat) (hn : n < nCores) : KeepsJobs s (restoreBlock s p c image k n o) := by
  have hr := vaRead_keepsJobs s (deviceWho p c) (snapVa s p c image k o) 4096
  have hput (u : State) (l : List Byte) : KeepsJobs u (physWrite u (blockAt n ((vrangeOf (ctxOf u p c)).1 + o)) 0 l).1 := physWrite_vault_keepsJobs (region_blockAt _ hn) 0 l
  unfold restoreBlock
  -- the kernel would evaluate the write: with it a variable, it cannot
  generalize vaRead s (deviceWho p c) (snapVa s p c image k o) 4096 = r at hr ⊢
  generalize physWrite = write at hput ⊢
  as_aux_lemma =>
    obtain ⟨u, e | l⟩ := r
    · exact hr
    · exact KeepsJobs.trans hr (hput u l)

theorem columnsOf_lt {s : State} {p : Nat} {e : Nat × Nat} (h : e ∈ columnsOf s p) : e.2 < nCores :=
  List.mem_range.1 (List.mem_filter.1 (List.of_mem_zip (a := e.1) (b := e.2) h).2).1

/-- The blocks of an image copied back change no context. -/
theorem restoreAll_keepsJobs (s : State) (p c image : Nat) {l : List (Nat × Nat)} (hl : ∀ e ∈ l, e.2 < nCores) :
    KeepsJobs s (l.foldl (fun s e => (List.range (vrangeOf (ctxOf s p c)).2).foldl (fun s o => restoreBlock s p c image e.1 e.2 o) s) s) := by
  induction l generalizing s with
  | nil => exact .refl s
  | cons e l ih =>
    simp only [List.forall_mem_cons] at hl
    exact (KeepsJobs.foldl (fun t o => restoreBlock_keepsJobs t p c image e.1 o hl.1) s _).trans (ih _ hl.2)

/-! Rollback (R96, R98, R282, R306). -/

theorem committed_keepsJobs (s : State) (p c image : Nat) : KeepsJobs s (committed s p c image).1 := by
  have hr := vaRead_keepsJobs s (deviceWho p c) (commitVa s p c image) 8
  unfold committed
  split
  · exact .refl s
  · split
    next u l he => rw [he] at hr; exact hr
    next u e he => rw [he] at hr; exact hr

/-- The image whose committed step is larger. -/
def laterImage (a b : Option Nat) : Option (Nat × Nat) :=
  match a, b with
  | some a, some b => if a < b then some (1, b) else some (0, a)
  | some a, none => some (0, a)
  | none, some b => some (1, b)
  | none, none => none

theorem chooseImage_eq (s : State) (p c : Nat) :
    chooseImage s p c = ((committed (committed s p c 0).1 p c 1).1, laterImage (committed s p c 0).2 (committed (committed s p c 0).1 p c 1).2) := by
  unfold chooseImage
  rfl

section
variable (s : State) (p c : Nat)

/-- The state once the stopped launch is discarded and the request answered. -/
def rolled : State := modCtx (discardLaunch s p c) p c (fun x => { x with rb := false })

/-- The state once the commit words are read. -/
def rolledRead : State := (committed (committed (rolled s p c) p c 0).1 p c 1).1

theorem ctxOf_rolledRead : ∃ t, ctxOf (rolledRead s p c) p c = { ctxOf s p c with launch := none, snap := none, saved := [], stopped := false, turns := t, rb := false } := by
  obtain ⟨t, ht⟩ := ctxOf_discardLaunch s p c
  refine ⟨t, ?_⟩
  unfold rolledRead
  rw [((committed_keepsJobs ..).trans (committed_keepsJobs ..)).ctx, rolled, ctxOf_modCtx, ht]

/-- The context after a rollback to an image's committed step. -/
theorem ctxOf_rollBack_image {image step : Nat} (h : laterImage (committed (rolled s p c) p c 0).2 (committed (committed (rolled s p c) p c 0).1 p c 1).2 = some (image, step)) :
    ctxOf (rollBack s p c) p c = { ctxOf (rolledRead s p c) p c with
      firn := if image = 0 then (ctxOf (rolledRead s p c) p c).check0 else (ctxOf (rolledRead s p c) p c).check1, turns := [], sqstep := BitVec.ofNat 16 step } := by
  have hchoose : chooseImage (rolled s p c) p c = (rolledRead s p c, some (image, step)) := by rw [chooseImage_eq, h]; rfl
  unfold rolled at hchoose
  unfold rollBack
  simp only [hchoose]
  rw [ctxOf_modCtx, (restoreAll_keepsJobs _ p c image fun e he => columnsOf_lt he).ctx]

/-- The context after a rollback that finds no committed image. -/
theorem ctxOf_rollBack_none (h : laterImage (committed (rolled s p c) p c 0).2 (committed (committed (rolled s p c) p c 0).1 p c 1).2 = none) :
    ctxOf (rollBack s p c) p c = { ctxOf (rolledRead s p c) p c with stopped := (ctxOf s p c).stopped } := by
  have hchoose : chooseImage (rolled s p c) p c = (rolledRead s p c, none) := by rw [chooseImage_eq, h]; rfl
  unfold rolled at hchoose
  unfold rollBack
  simp only [hchoose]
  rw [ctxOf_modCtx]

theorem rollBack_rollsBack : rollsBack s p c (rollBack s p c) := by
  obtain ⟨t, ht⟩ := ctxOf_rolledRead s p c
  unfold rollsBack
  extract_lets x y d a b becomes
  have himage {image step : Nat} (h : laterImage a.2 b.2 = some (image, step)) : y = { x with
      launch := none, snap := none, saved := [], stopped := false, rb := false, firn := if image = 0 then x.check0 else x.check1, turns := [], sqstep := BitVec.ofNat 16 step } := by
    refine (ctxOf_rollBack_image s p c h).trans ?_
    rw [ht]
  have hbecomes {image step : Nat} (h : laterImage a.2 b.2 = some (image, step)) : becomes image step := by
    unfold becomes
    rw [himage h]
    exact ⟨rfl, rfl, rfl⟩
  have hnone (h : laterImage a.2 b.2 = none) : y = { x with launch := none, snap := none, saved := [], turns := t, rb := false } := by
    refine (ctxOf_rollBack_none s p c h).trans ?_
    rw [ht]
  have hgone : y.launch = none ∧ y.snap = none ∧ y.saved = [] ∧ y.rb = false := by
    cases h : laterImage a.2 b.2 with
    | none => rw [hnone h]; exact ⟨rfl, rfl, rfl, rfl⟩
    | some e => rw [himage (image := e.1) (step := e.2) h]; exact ⟨rfl, rfl, rfl, rfl⟩
  obtain ⟨hlaunch, hsnap, hsaved, hrb⟩ := hgone
  refine ⟨hlaunch, hsnap, hsaved, hrb, fun i k hi hk => ⟨fun hlt => hbecomes ?_, fun hle => hbecomes ?_⟩, fun i hi hk => hbecomes ?_, fun k hi hk => hbecomes ?_, fun hi hk => ?_⟩
  · rw [hi, hk, laterImage, if_pos hlt]
  · rw [hi, hk, laterImage, if_neg (Nat.not_lt.2 hle)]
  · rw [hi, hk, laterImage]
  · rw [hi, hk, laterImage]
  · rw [hnone (by rw [hi, hk, laterImage])]
    exact ⟨rfl, rfl, rfl⟩

end

/-! Failed banks (R307). -/

/-- What a failed bank does to one context of the column's partition. -/
def bankStops (p : Nat) (s : State) (c : Nat) : State :=
  if (vrangeOf (ctxOf s p c)).2 = 0 then s
  else modCtx (stopErr (stopContext s p c cDataUe 0x3FF none) p c cDataUe 0x3FF) p c (fun x => { x with rb := true })

/-- A context stopped for uncorrectable data: its loop is stopped too, and no other context changes. -/
theorem ctxOf_stopContext (s : State) (p c : Nat) (cause : Byte) (node : Nat) (me : Option Nat) :
    (ctxOf (stopContext s p c cause node me) p c).stopped = true ∧ ∀ d, d ≠ c → ctxOf (stopContext s p c cause node me) p d = ctxOf s p d := by
  unfold stopContext
  split
  · exact ⟨‹_›, fun _ _ => rfl⟩
  · have hcores (l : List Nat) (d : Nat) (t : State) : ctxOf (l.foldl (fun s n => if some n != me && runsCtx s n p c then modCore s n (fun k => { k with forced := true }) else s) t) p d = ctxOf t p d := by
      refine foldl_keeps (fun s => ctxOf s p d) (fun u n => ?_) t l
      split
      · exact ctxOf_modCore ..
      · rfl
    refine ⟨?_, fun d hd => ?_⟩
    · rw [hcores, ctxOf_partEvent, ctxOf_modCtx]
    · rw [hcores, ctxOf_partEvent, ctxOf_modCtx_other _ _ (fun h => hd h.2), ctxOf_stopErr, if_neg (fun h => hd h.2)]

theorem bankStops_same {s : State} {p c : Nat} (h : (vrangeOf (ctxOf s p c)).2 ≠ 0) :
    (ctxOf (bankStops p s c) p c).rb = true ∧ (ctxOf (bankStops p s c) p c).stopped = true ∧ (ctxOf (bankStops p s c) p c).sqerr = BitVec.ofNat 64 (0x3FF * 2 ^ 32 + cDataUe.toNat) := by
  obtain ⟨hstop, -⟩ := ctxOf_stopContext s p c cDataUe 0x3FF none
  unfold bankStops
  rw [if_neg h, ctxOf_modCtx, ctxOf_stopErr, if_pos ⟨rfl, rfl⟩]
  exact ⟨rfl, hstop, rfl⟩

theorem bankStops_other {s : State} {p c d : Nat} (h : d ≠ c) : ctxOf (bankStops p s c) p d = ctxOf s p d := by
  obtain ⟨-, hother⟩ := ctxOf_stopContext s p c cDataUe 0x3FF none
  unfold bankStops
  split
  · rfl
  · rw [ctxOf_modCtx_other _ _ (fun e => h e.2), ctxOf_stopErr, if_neg (fun e => h e.2), hother d h]

theorem bankStops_mem (p : Nat) (s : State) (c : Nat) : (bankStops p s c).mem = s.mem := by
  unfold bankStops
  split <;> simp

/-- One of several contexts that the bank's failure stops, each once. -/
theorem bankStops_foldl {s : State} {p c : Nat} {l : List Nat} (hnodup : l.Nodup) (hc : c ∈ l) (h : (vrangeOf (ctxOf s p c)).2 ≠ 0) :
    let y := ctxOf (l.foldl (bankStops p) s) p c
    y.rb = true ∧ y.stopped = true ∧ y.sqerr = BitVec.ofNat 64 (0x3FF * 2 ^ 32 + cDataUe.toNat) := by
  have hrest (r : List Nat) (hr : c ∉ r) (t : State) : ctxOf (r.foldl (bankStops p) t) p c = ctxOf t p c := by
    induction r generalizing t with
    | nil => rfl
    | cons d r ih =>
      rw [List.mem_cons, not_or] at hr
      rw [List.foldl_cons, ih hr.2, bankStops_other hr.1]
  induction l generalizing s with
  | nil => cases hc
  | cons d l ih =>
    obtain ⟨hd, hl⟩ := List.nodup_cons.1 hnodup
    rw [List.foldl_cons]
    rcases List.mem_cons.1 hc with rfl | hmem
    · rw [hrest l hd]
      exact bankStops_same h
    · refine ih hl hmem ?_
      rwa [bankStops_other (ne_of_mem_of_not_mem hmem hd)]

theorem execVaultBankFailure_fails (s : State) (n : CoreNo) (bank : BitVec 6) (all : Bool) (P C : Nat) (hC : C < nCtxs) :
    ∃ u, exec (.vaultBankFailure n bank all) s = .next u ∧ u.mem.cells = s.mem.cells ∧ u.mem.flaws = s.mem.flaws ++ failedRanges n.toNat bank.toNat all
      ∧ (partOfCore s n.toNat = some P → (vrangeOf (ctxOf s P C)).2 ≠ 0 →
        (ctxOf u P C).rb = true ∧ (ctxOf u P C).stopped = true ∧ (ctxOf u P C).sqerr = BitVec.ofNat 64 (0x3FF * 2 ^ 32 + cDataUe.toNat)) := by
  generalize hs1 : ({ s with mem := { s.mem with flaws := s.mem.flaws ++ failedRanges n.toNat bank.toNat all } } : State) = s1
  have hmem : s1.mem.cells = s.mem.cells ∧ s1.mem.flaws = s.mem.flaws ++ failedRanges n.toNat bank.toNat all := by subst hs1; exact ⟨rfl, rfl⟩
  have hpart : partOfCore s1 n.toNat = partOfCore s n.toNat := by subst hs1; rfl
  have hctx : ctxOf s1 P C = ctxOf s P C := by subst hs1; rfl
  have hexec : exec (.vaultBankFailure n bank all) s = match partOfCore s1 n.toNat with | none => .next s1 | some p => .next ((List.range nCtxs).foldl (bankStops p) s1) := by
    subst hs1
    rw [exec_vaultBankFailure, execVaultBankFailure] <;> rfl
  rw [hexec]
  cases hp : partOfCore s1 n.toNat with
  | none => exact ⟨s1, rfl, hmem.1, hmem.2, fun h => by rw [hpart, h] at hp; cases hp⟩
  | some p =>
    have hfold := foldl_keeps State.mem (bankStops_mem p) s1 (List.range nCtxs)
    refine ⟨_, rfl, by rw [hfold, hmem.1], by rw [hfold, hmem.2], fun h hrange => ?_⟩
    rw [hpart, h] at hp
    cases hp
    exact bankStops_foldl List.nodup_range (List.mem_range.2 hC) (by rw [hctx]; exact hrange)

/-! The statement. -/

theorem modCtx_congr {s : State} {p c : Nat} {f g : Context → Context} (h : f (ctxOf s p c) = g (ctxOf s p c)) : modCtx s p c f = modCtx s p c g := by
  unfold modCtx modPart
  exact congrArg (fun x => ({ s with parts := tset s.parts p { partOf s p with ctxs := tset (partOf s p).ctxs c x } } : State)) h

theorem execRollback_eq (s : State) (p : PartNo) (c : CtxNo) :
    exec (.rollback p c) s = if (ctxOf s p.toNat c.toNat).rb = true ∧ ∀ n ∈ coresOf s p.toNat, runsCtx s n p.toNat c.toNat = false then .next (rollBack s p.toNat c.toNat) else .next s := by
  rw [exec_rollback, execRollback]
  by_cases hrb : (ctxOf s p.toNat c.toNat).rb = true
  · by_cases hruns : ∀ n ∈ coresOf s p.toNat, runsCtx s n p.toNat c.toNat = false
    · refine (if_neg ?_).trans (if_pos ⟨hrb, hruns⟩).symm
      simpa [hrb] using hruns
    · refine (if_pos ?_).trans (if_neg fun h => hruns h.2).symm
      simpa [hrb] using hruns
  · refine (if_pos ?_).trans (if_neg fun h => hrb h.1).symm
    simp [hrb]

/-- Settles O46: GO by the context that is left, the events of a living context by their equations, activation by `launches_holds`, rollback by `rollBack_rollsBack`. -/
theorem sequencerEventResults : Obligations.SequencerEventResults := by
  unfold Obligations.SequencerEventResults
  intro s p c x P C live d
  refine ⟨fun stop hidle => ⟨goLoop s P C stop, rfl, fun g hg hname => ⟨goLoop_starts hidle hg hname, goLoop_done hidle hg hname⟩, goLoop_refused hidle⟩,
    ⟨stopLoop s P C, rfl, ctxOf_stopLoop, stopLoop_mem ..⟩, ⟨requestRollback s P C, rfl, ctxOf_requestRollback, requestRollback_mem ..⟩,
    fun hlive hlaunch hleft herr => ?struck, fun hlive hlaunch hleft herr => ⟨fun u w hread => ⟨fun hshape hzero => ?launched, fun hbad => ?bad⟩, fun u e hread => ?unread⟩,
    launches_holds P C, fun hlive sn hsnap herr => ?snapStruck, fun hlive sn u hsnap herr => ⟨fun hcopy => ?committed, fun e hcopy => ?copyFails⟩,
    fun hrb hruns => ?rolls, rollBack_rollsBack s P C, fun h => ?waits, fun n bank all => execVaultBankFailure_fails s n bank all P C c.isLt⟩
  case struck =>
    obtain ⟨hbusy, hstopped, hrunning⟩ := hlive
    rw [execStepRecordArrival_live hbusy hstopped hrunning hlaunch hleft, if_pos herr]
  case launched =>
    obtain ⟨hbusy, hstopped, hrunning⟩ := hlive
    have hctx : ctxOf u P C = x := by
      have hk := vaRead_keepsJobs s (deviceWho P C) (recordVa x) 64
      rw [hread] at hk
      exact hk.ctx P C
    rw [execStepRecordArrival_live hbusy hstopped hrunning hlaunch hleft, if_neg (by rw [herr]; exact Bool.false_ne_true), hread]
    dsimp only
    rw [if_neg (by rw [hzero]; simp; omega), modCtx_congr]
    exact congrArg (fun y : Context => ({ ctxOf u P C with k := stepRegs y (recordVa y) w } : Context)) hctx
  case bad =>
    obtain ⟨hbusy, hstopped, hrunning⟩ := hlive
    rw [execStepRecordArrival_live hbusy hstopped hrunning hlaunch hleft, if_neg (by rw [herr]; exact Bool.false_ne_true), hread]
    exact if_pos (hbad.imp (fun h => by omega) (fun h => by rw [h]; rfl))
  case unread =>
    obtain ⟨hbusy, hstopped, hrunning⟩ := hlive
    rw [execStepRecordArrival_live hbusy hstopped hrunning hlaunch hleft, if_neg (by rw [herr]; exact Bool.false_ne_true), hread]
  case snapStruck =>
    obtain ⟨hbusy, hstopped, hrunning⟩ := hlive
    rw [execSnapshotCommit_live hbusy hstopped hrunning hsnap, if_pos herr]
  case committed =>
    obtain ⟨hbusy, hstopped, hrunning⟩ := hlive
    rw [execSnapshotCommit_live hbusy hstopped hrunning hsnap, if_neg (by rw [herr]; exact Bool.false_ne_true), hcopy]
  case copyFails =>
    obtain ⟨hbusy, hstopped, hrunning⟩ := hlive
    rw [execSnapshotCommit_live hbusy hstopped hrunning hsnap, if_neg (by rw [herr]; exact Bool.false_ne_true), hcopy]
  case rolls => rw [execRollback_eq, if_pos ⟨hrb, hruns⟩]
  case waits =>
    rw [execRollback_eq, if_neg]
    rintro ⟨hrb, hruns⟩
    obtain hno | ⟨n, hn, hrun⟩ := h
    · exact Bool.false_ne_true (hno.symm.trans hrb)
    · exact Bool.false_ne_true ((hruns n hn).symm.trans hrun)

end Sys2Proof.Machine

/-! Graph load: which records are read, and with which cause and node a load is refused (R155 to R157, R275, R276). -/

namespace Sys2Proof.Machine

open Sys2Proof.Config

/-! The parts of a load. -/

section
variable {α β : Type} {x : Load α} {f : State → α → Load β} {s u : State}

@[simp] theorem andThen_ok (s : State) (a : α) (f : State → α → Load β) : andThen (s, .ok a) f = f s a := rfl

@[simp] theorem andThen_error (s : State) (e : Byte × Nat) (f : State → α → Load β) : andThen (s, .error e) f = (s, .error e) := rfl

theorem andThen_eq_ok {b : β} : andThen x f = (u, .ok b) ↔ ∃ s a, x = (s, .ok a) ∧ f s a = (u, .ok b) := by
  obtain ⟨s, e | a⟩ := x
  · simp
  · simp

theorem andThen_eq_error {e : Byte × Nat} : andThen x f = (u, .error e) ↔ x = (u, .error e) ∨ ∃ s a, x = (s, .ok a) ∧ f s a = (u, .error e) := by
  obtain ⟨s, e | a⟩ := x
  · simp
  · simp

theorem loadNeed_eq_ok {ok : Bool} {cause : Byte} {node : Nat} {a : Unit} : loadNeed s ok cause node = (u, .ok a) ↔ s = u ∧ ok = true := by
  cases ok <;> simp [loadNeed]

theorem loadNeed_eq_error {ok : Bool} {cause : Byte} {node : Nat} {e : Byte × Nat} : loadNeed s ok cause node = (u, .error e) ↔ s = u ∧ ok = false ∧ (cause, node) = e := by
  cases ok <;> simp [loadNeed]

end

section
variable {s u : State} {p c : Nat} {va : Word} {len : Nat}

theorem readRecord_ok {l : List Byte} (h : vaRead s (deviceWho p c) va len = (u, .ok l)) (node : Nat) : readRecord s p c va len node = (u, .ok l) := by
  rw [readRecord, h]

theorem readRecord_error {e : VErr} (h : vaRead s (deviceWho p c) va len = (u, .error e)) (node : Nat) : readRecord s p c va len node = (u, .error (causeOf e, node)) := by
  rw [readRecord, h]

/-- A record that cannot be read is refused under the node it belongs to. -/
theorem readRecord_error_node {node : Nat} {e : Byte × Nat} (h : readRecord s p c va len node = (u, .error e)) : e.2 = node := by
  unfold readRecord at h
  generalize vaRead s (deviceWho p c) va len = r at h
  obtain ⟨v, x | l⟩ := r
  · obtain ⟨-, h⟩ := Prod.mk.injEq .. ▸ h
    exact (congrArg Prod.snd (Except.error.inj h)).symm
  · simp at h

end

/-! One node. -/

section
variable {s u : State} {p c node : Nat} {addr va : Word} {l : List Byte}

theorem loadKernel_unread {e : VErr} (h : vaRead s (deviceWho p c) addr 128 = (u, .error e)) : loadKernel s p c node addr = (u, .error (causeOf e, node)) := by
  rw [loadKernel, readRecord_error h, andThen_error]

theorem loadKernel_refused (h : vaRead s (deviceWho p c) addr 128 = (u, .ok l)) {e : Byte} (he : headerError addr l = some e) :
    loadKernel s p c node addr = (u, .error (e, node)) := by
  rw [loadKernel, readRecord_ok h, andThen_ok, he]

/-- What a kernel that loads is: a header without a fault, with descriptors that are well formed. -/
theorem loadKernel_eq_ok {k : Kernel} (h : loadKernel s p c node addr = (u, .ok k)) :
    ∃ l descs, headerError addr l = none ∧ (∀ e ∈ descs, descOk (parseDesc e.2) = true) ∧ k = { headerKernel addr l with descs := descs } := by
  obtain ⟨v, l, -, h⟩ := andThen_eq_ok.1 h
  cases he : headerError addr l with
  | some e => rw [he] at h; simp at h
  | none =>
    rw [he] at h
    obtain ⟨w, d, -, h⟩ := andThen_eq_ok.1 h
    obtain ⟨x, _, hneed, h⟩ := andThen_eq_ok.1 h
    refine ⟨l, _, he, List.all_eq_true.1 (loadNeed_eq_ok.1 hneed).2, ?_⟩
    simp only [Prod.mk.injEq, Except.ok.injEq] at h
    exact h.2.symm

theorem loadKernel_error_node {e : Byte × Nat} (h : loadKernel s p c node addr = (u, .error e)) : e.2 = node := by
  obtain h | ⟨v, l, -, h⟩ := andThen_eq_error.1 h
  · exact readRecord_error_node h
  cases he : headerError addr l with
  | some x =>
    rw [he] at h
    simp only [Prod.mk.injEq, Except.error.injEq] at h
    rw [← h.2]
  | none =>
    rw [he] at h
    obtain h | ⟨w, d, -, h⟩ := andThen_eq_error.1 h
    · exact readRecord_error_node h
    · obtain h | ⟨x, _, -, h⟩ := andThen_eq_error.1 h
      · rw [← (loadNeed_eq_error.1 h).2.2]
      · simp at h

theorem loadFirn_misaligned (h0 : va ≠ 0#64) (h : va.toNat % 64 ≠ 0) : loadFirn s p c node va = (s, .error (cFirnDesc, node)) := by
  rw [loadFirn, if_neg h0, if_pos h]

theorem loadFirn_read (h0 : va ≠ 0#64) (h : va.toNat % 64 = 0) : loadFirn s p c node va = andThen (readRecord s p c va 128 node) (fun s l =>
    match firnRecord va l with
    | some f => (s, .ok (some f))
    | none => (s, .error (cFirnDesc, node))) := by
  rw [loadFirn, if_neg h0, if_neg (not_not.2 h)] <;> rfl

theorem loadFirn_unread (h0 : va ≠ 0#64) (h : va.toNat % 64 = 0) {e : VErr} (hr : vaRead s (deviceWho p c) va 128 = (u, .error e)) :
    loadFirn s p c node va = (u, .error (causeOf e, node)) := by
  rw [loadFirn_read h0 h, readRecord_error hr, andThen_error]

theorem loadFirn_refused (h0 : va ≠ 0#64) (h : va.toNat % 64 = 0) (hr : vaRead s (deviceWho p c) va 128 = (u, .ok l)) (hf : firnRecord va l = none) :
    loadFirn s p c node va = (u, .error (cFirnDesc, node)) := by
  rw [loadFirn_read h0 h, readRecord_ok hr, andThen_ok, hf]

theorem loadFirn_error_node {e : Byte × Nat} (h : loadFirn s p c node va = (u, .error e)) : e.2 = node := by
  by_cases h0 : va = 0#64
  · rw [loadFirn, if_pos h0] at h
    simp at h
  by_cases h1 : va.toNat % 64 = 0
  · rw [loadFirn_read h0 h1] at h
    obtain h | ⟨v, l, -, h⟩ := andThen_eq_error.1 h
    · exact readRecord_error_node h
    · cases hf : firnRecord va l with
      | some f => rw [hf] at h; simp at h
      | none =>
        rw [hf] at h
        simp only [Prod.mk.injEq, Except.error.injEq] at h
        rw [← h.2]
  · rw [loadFirn_misaligned h0 h1] at h
    simp only [Prod.mk.injEq, Except.error.injEq] at h
    rw [← h.2]

/-- The last check of a node: keep regions need a backing address (R24). -/
def backed (node : Nat) (l : List Byte) (k : Kernel) (s : State) (f : Option FirnDesc) : Load Node :=
  andThen (loadNeed s ((nodeRecord l).keeps.isEmpty || (nodeRecord l).backing != 0#64) cIllegal node) (fun s _ => (s, .ok { nodeRecord l with kernel := k, firn := f }))

/-- A node whose record is well formed goes on with its kernel and its Firn descriptor. -/
theorem loadNode_read (h : vaRead s (deviceWho p c) va 128 = (u, .ok l)) (hok : nodeOk l = true) :
    loadNode s p c node va = andThen (loadKernel u p c node (w64 (fieldAt l 0 8))) (fun s k => andThen (loadFirn s p c node (w64 (fieldAt l 24 8))) (backed node l k)) := by
  rw [loadNode, readRecord_ok h, andThen_ok, loadNeed, if_pos hok]
  rfl

theorem loadNode_refused (h : vaRead s (deviceWho p c) va 128 = (u, .ok l)) (hok : nodeOk l = false) : loadNode s p c node va = (u, .error (cIllegal, node)) := by
  rw [loadNode, readRecord_ok h, andThen_ok, loadNeed, if_neg (by simp [hok])]
  rfl

theorem backed_ok {k : Kernel} {f : Option FirnDesc} (h : (nodeRecord l).keeps = [] ∨ (nodeRecord l).backing ≠ 0#64) :
    backed node l k s f = (s, .ok { nodeRecord l with kernel := k, firn := f }) := by
  rw [backed, loadNeed, if_pos (by simpa using h)]
  rfl

theorem backed_error {k : Kernel} {f : Option FirnDesc} (h : (nodeRecord l).keeps ≠ []) (h0 : (nodeRecord l).backing = 0#64) :
    backed node l k s f = (s, .error (cIllegal, node)) := by
  rw [backed, loadNeed, if_neg (by simp [h, h0])]
  rfl

/-- The parts of a node that loads. -/
theorem loadNode_eq_ok {nd : Node} (h : loadNode s p c node va = (u, .ok nd)) :
    ∃ l v w k f, nodeOk l = true ∧ loadKernel v p c node (w64 (fieldAt l 0 8)) = (w, .ok k) ∧ ((nodeRecord l).keeps = [] ∨ (nodeRecord l).backing ≠ 0#64)
      ∧ nd = { nodeRecord l with kernel := k, firn := f } := by
  obtain ⟨v, l, -, h⟩ := andThen_eq_ok.1 h
  obtain ⟨w, _, hok, h⟩ := andThen_eq_ok.1 h
  obtain ⟨x, k, hk, h⟩ := andThen_eq_ok.1 h
  obtain ⟨y, f, -, h⟩ := andThen_eq_ok.1 h
  obtain ⟨z, _, hneed, h⟩ := andThen_eq_ok.1 h
  refine ⟨l, w, x, k, f, (loadNeed_eq_ok.1 hok).2, hk, ?_, ?_⟩
  · have hback := (loadNeed_eq_ok.1 hneed).2
    simpa using hback
  · simp only [Prod.mk.injEq, Except.ok.injEq] at h
    exact h.2.symm

theorem loadNode_error_node {e : Byte × Nat} (h : loadNode s p c node va = (u, .error e)) : e.2 = node := by
  obtain h | ⟨v, l, -, h⟩ := andThen_eq_error.1 h
  · exact readRecord_error_node h
  obtain h | ⟨w, _, -, h⟩ := andThen_eq_error.1 h
  · rw [← (loadNeed_eq_error.1 h).2.2]
  obtain h | ⟨x, k, -, h⟩ := andThen_eq_error.1 h
  · exact loadKernel_error_node h
  obtain h | ⟨y, f, -, h⟩ := andThen_eq_error.1 h
  · exact loadFirn_error_node h
  obtain h | ⟨z, _, -, h⟩ := andThen_eq_error.1 h
  · rw [← (loadNeed_eq_error.1 h).2.2]
  · simp at h

end

theorem loadsNode_holds (P C : Nat) : loadsNode P C := by
  intro s node va
  dsimp only
  refine ⟨fun u e h => ?_, fun u l h => ⟨loadNode_refused h, fun hok => ?_⟩⟩
  · rw [loadNode, readRecord_error h, andThen_error]
  rw [loadNode_read h hok]
  refine ⟨fun v e hk => ?_, fun v hd hk => ?_, fun v k hk => ⟨fun h0 h1 => ?_, fun h0 h1 => ⟨fun w e hf => ?_, fun w d hf hnone => ?_⟩, fun w f hf => ⟨fun hk0 hb => ?_, fun hb => ?_⟩⟩⟩
  · rw [w64, loadKernel_unread hk, andThen_error]
  · have hrefused : ∀ e, headerError (w64 (fieldAt l 0 8)) hd = some e → loadKernel u P C node (w64 (fieldAt l 0 8)) = (v, .error (e, node)) := fun e => loadKernel_refused hk
    refine ⟨fun hm => ?_, fun hm he => ?_, fun e he => ?_⟩
    · rw [hrefused cIllegal (if_pos hm), andThen_error]
    · rw [hrefused cEncMismatch (by rw [headerError, if_neg (not_not.2 hm), if_pos he]), andThen_error]
    · rw [hrefused e he, andThen_error]
  all_goals rw [w64, hk, andThen_ok]
  · rw [w64, loadFirn_misaligned h0 h1, andThen_error]
  · rw [w64, loadFirn_unread h0 h1 hf, andThen_error]
  · rw [w64, loadFirn_refused h0 h1 hf hnone, andThen_error]
  · rw [w64, hf, andThen_ok, backed_error hk0 hb]
  · rw [w64, hf, andThen_ok, backed_ok hb]

end Sys2Proof.Machine

/-! Graph load: the graph that is read (R24, R25, R45, R155 to R157, R276). -/

namespace Sys2Proof.Machine

open Sys2Proof.Config

/-! The node table. -/

section
variable {s u : State} {p c n i : Nat} {table : Word}

theorem loadNodes_length {l : List Node} (h : loadNodes p c table n s i = (u, .ok l)) : l.length = n := by
  induction n generalizing s i l with
  | zero =>
    simp only [loadNodes, Prod.mk.injEq, Except.ok.injEq] at h
    rw [← h.2]
    rfl
  | succ n ih =>
    obtain ⟨v, nd, -, h⟩ := andThen_eq_ok.1 h
    obtain ⟨w, r, hr, h⟩ := andThen_eq_ok.1 h
    simp only [Prod.mk.injEq, Except.ok.injEq] at h
    obtain ⟨rfl, rfl⟩ := h
    rw [List.length_cons, ih hr]

/-- Each node of a table that loads is one that loads. -/
theorem loadNodes_mem {l : List Node} (h : loadNodes p c table n s i = (u, .ok l)) {nd : Node} (hnd : nd ∈ l) : ∃ v w node va, loadNode v p c node va = (w, .ok nd) := by
  induction n generalizing s i l with
  | zero =>
    simp only [loadNodes, Prod.mk.injEq, Except.ok.injEq] at h
    simp [← h.2] at hnd
  | succ n ih =>
    obtain ⟨v, x, hx, h⟩ := andThen_eq_ok.1 h
    obtain ⟨w, r, hr, h⟩ := andThen_eq_ok.1 h
    simp only [Prod.mk.injEq, Except.ok.injEq] at h
    obtain ⟨rfl, rfl⟩ := h
    obtain rfl | hmem := List.mem_cons.1 hnd
    · exact ⟨_, _, _, _, hx⟩
    · exact ih hr hmem

/-- A table is refused at the first node that fails, under its number. -/
theorem loadNodes_error {e : Byte × Nat} (h : loadNodes p c table n s i = (u, .error e)) :
    ∃ d < n, e.2 = i + d ∧ ∃ w before, loadNodes p c table d s i = (w, .ok before) ∧ loadNode w p c (i + d) (table + w64 (128 * (i + d))) = (u, .error e) := by
  induction n generalizing s i with
  | zero => simp [loadNodes] at h
  | succ n ih =>
    obtain h | ⟨v, nd, hnd, h⟩ := andThen_eq_error.1 h
    · exact ⟨0, Nat.succ_pos n, loadNode_error_node h, s, [], rfl, h⟩
    obtain h | ⟨w, r, -, h⟩ := andThen_eq_error.1 h
    · obtain ⟨d, hd, he, w, before, hbefore, hfail⟩ := ih h
      have hpos : i + 1 + d = i + (d + 1) := by omega
      rw [hpos] at he hfail
      refine ⟨d + 1, Nat.succ_lt_succ hd, he, w, nd :: before, ?_, hfail⟩
      rw [loadNodes, hnd, andThen_ok, hbefore, andThen_ok]
    · simp at h

end

/-! The edge table. -/

section
variable {s u : State} {p c nodes n i : Nat} {table : Word}

theorem loadEdges_error_node {e : Byte × Nat} (h : loadEdges p c nodes table n s i = (u, .error e)) : e.2 = 0x3FF := by
  induction n generalizing s i with
  | zero => simp [loadEdges] at h
  | succ n ih =>
    obtain h | ⟨v, l, -, h⟩ := andThen_eq_error.1 h
    · exact readRecord_error_node h
    obtain h | ⟨w, _, -, h⟩ := andThen_eq_error.1 h
    · rw [← (loadNeed_eq_error.1 h).2.2]
    obtain h | ⟨x, r, -, h⟩ := andThen_eq_error.1 h
    · exact ih h
    · simp at h

theorem loadEdges_length {l : List Edge} (h : loadEdges p c nodes table n s i = (u, .ok l)) : l.length = n := by
  induction n generalizing s i l with
  | zero =>
    simp only [loadEdges, Prod.mk.injEq, Except.ok.injEq] at h
    rw [← h.2]
    rfl
  | succ n ih =>
    obtain ⟨v, b, -, h⟩ := andThen_eq_ok.1 h
    obtain ⟨w, _, -, h⟩ := andThen_eq_ok.1 h
    obtain ⟨x, r, hr, h⟩ := andThen_eq_ok.1 h
    simp only [Prod.mk.injEq, Except.ok.injEq] at h
    obtain ⟨rfl, rfl⟩ := h
    rw [List.length_cons, ih hr]

/-- Each edge joins two nodes of the graph and has a capacity of 1 to 64 (R45). -/
theorem loadEdges_mem {l : List Edge} (h : loadEdges p c nodes table n s i = (u, .ok l)) {e : Edge} (he : e ∈ l) :
    e.prod < nodes ∧ e.cons < nodes ∧ e.prod ≠ e.cons ∧ 1 ≤ e.cap ∧ e.cap ≤ 64 := by
  induction n generalizing s i l with
  | zero =>
    simp only [loadEdges, Prod.mk.injEq, Except.ok.injEq] at h
    simp [← h.2] at he
  | succ n ih =>
    obtain ⟨v, b, -, h⟩ := andThen_eq_ok.1 h
    obtain ⟨w, _, hok, h⟩ := andThen_eq_ok.1 h
    obtain ⟨x, r, hr, h⟩ := andThen_eq_ok.1 h
    simp only [Prod.mk.injEq, Except.ok.injEq] at h
    obtain ⟨rfl, rfl⟩ := h
    obtain rfl | hmem := List.mem_cons.1 he
    · have hedge := (loadNeed_eq_ok.1 hok).2
      simp only [edgeOk, Bool.and_eq_true, decide_eq_true_eq, bne_iff_ne, ne_eq] at hedge
      obtain ⟨⟨⟨⟨⟨hprod, hcons⟩, hne⟩, hlow⟩, hhigh⟩, -⟩ := hedge
      exact ⟨hprod, hcons, hne, hlow, hhigh⟩
    · exact ih hr hmem

end

/-! The counts of edges (R45). -/

/-- Node k has more than 8 input or output edges. -/
def wideNode (es : List Edge) (k : Nat) : Prop := 8 < es.countP (fun e => e.prod == k) ∨ 8 < es.countP (fun e => e.cons == k)

theorem crowded_eq_some {n k : Nat} {es : List Edge} (hk : k < n) (hwide : wideNode es k) (hfirst : ∀ i < k, ¬ wideNode es i) : crowded n es = some k := by
  unfold crowded
  rw [List.find?_range_eq_some]
  refine ⟨by simpa [wideNode] using hwide, List.mem_range.2 hk, fun i hi => ?_⟩
  simpa [wideNode] using hfirst i hi

theorem crowded_eq_none {n : Nat} {es : List Edge} : crowded n es = none ↔ ∀ k < n, ¬ wideNode es k := by
  simp [crowded, wideNode]

/-! Reservations (R276). -/

section
variable {s u : State} {p c used : Nat} {nodes : List Node}

theorem reserveLayer_error {e : Nat × Nat} {x : Byte × Nat} (h : reserveLayer s p c nodes used e = (u, .error x)) : (x.1 = cFirnDesc ∨ x.1 = cFirnNores) ∧ x.2 = e.2 := by
  unfold reserveLayer at h
  extract_lets ds n package at h
  split at h
  · simp only [Prod.mk.injEq, Except.error.injEq] at h
    rw [← h.2]
    exact ⟨.inl rfl, rfl⟩
  split at h
  · simp only [Prod.mk.injEq, Except.error.injEq] at h
    rw [← h.2]
    exact ⟨.inr rfl, rfl⟩
  · simp only [Prod.mk.injEq] at h
    obtain ⟨-, h⟩ := h
    split at h
    · simp at h
    · rw [← Except.error.inj h]
      exact ⟨.inr rfl, rfl⟩

/-- A refused reservation names the node of one of the layers. -/
theorem reserveAll_error {l : List (Nat × Nat)} {x : Byte × Nat} (h : reserveAll p c nodes l s used = (u, .error x)) : (x.1 = cFirnDesc ∨ x.1 = cFirnNores) ∧ ∃ layer, (layer, x.2) ∈ l := by
  induction l generalizing s used with
  | nil => simp [reserveAll] at h
  | cons e r ih =>
    obtain h | ⟨v, k, -, h⟩ := andThen_eq_error.1 h
    · obtain ⟨hcause, hnode⟩ := reserveLayer_error h
      refine ⟨hcause, e.1, ?_⟩
      rw [hnode]
      exact List.mem_cons_self
    · obtain ⟨hcause, layer, hmem⟩ := ih h
      exact ⟨hcause, layer, List.mem_cons_of_mem _ hmem⟩

end

/-! What a node that loads keeps to (R24, R25, R155, R156). -/

/-- A region that is not empty lies within the scratchpad, in multiples of 64. -/
def regionFits (r : Nat × Nat) : Prop := r.1 % 64 = 0 ∧ r.2 % 64 = 0 ∧ 0 < r.2 ∧ r.1 + r.2 ≤ scratchSize

theorem regionOk_fits {r : Nat × Nat} (h : regionOk r = true) (h0 : r.2 ≠ 0) : regionFits r := by
  rw [regionOk, if_neg h0] at h
  simp only [Bool.and_eq_true, beq_iff_eq, decide_eq_true_eq] at h
  obtain ⟨⟨hoff, hlen⟩, hend⟩ := h
  exact ⟨hoff, hlen, Nat.pos_of_ne_zero h0, hend⟩

/-- The regions in use, of four that are each empty or fit. -/
theorem regions_fit {l : List (Nat × Nat)} (h : l.all regionOk = true) {r : Nat × Nat} (hr : r ∈ l.filter (fun r => r.2 != 0)) : regionFits r := by
  obtain ⟨hmem, h0⟩ := List.mem_filter.1 hr
  exact regionOk_fits (List.all_eq_true.1 h r hmem) (by simpa using h0)

/-- Regions of length 0 add nothing to a sum of lengths. -/
theorem sum_nonEmpty (l : List (Nat × Nat)) (z : Nat) : (l.filter (fun r => r.2 != 0)).foldl (fun z r => z + r.2) z = l.foldl (fun z r => z + r.2) z := by
  induction l generalizing z with
  | nil => rfl
  | cons r l ih =>
    by_cases h : r.2 = 0
    · simp [h, ih]
    · simp [h, ih]

section
variable {l : List Byte} (h : nodeOk l = true)
include h

theorem nodeRecord_levels : 1 ≤ (nodeRecord l).levels.length ∧ (nodeRecord l).levels.length ≤ 6 ∧ ∃ e ∈ (nodeRecord l).levels, e.1 ≠ 0 := by
  simp only [nodeOk, Bool.and_eq_true, decide_eq_true_eq, List.any_eq_true, List.mem_map, List.mem_range, bne_iff_ne] at h
  have hlow : 1 ≤ fieldAt l 11 1 := by tauto
  have hhigh : fieldAt l 11 1 ≤ 6 := by tauto
  obtain ⟨k, ⟨i, hi, hk⟩, h0⟩ : ∃ k, (∃ i < fieldAt l 11 1, fieldAt l (32 + 8 * i) 8 % 4 = k) ∧ k ≠ 0 := by tauto
  refine ⟨by simpa [nodeRecord] using hlow, by simpa [nodeRecord] using hhigh, ?_⟩
  exact ⟨_, List.mem_map_of_mem (List.mem_range.2 hi), by simpa [hk] using h0⟩

theorem nodeRecord_gang : 1 ≤ (nodeRecord l).gang ∧ (nodeRecord l).gang ≤ 32 := by
  simp only [nodeOk, Bool.and_eq_true, decide_eq_true_eq] at h
  have hlow : 1 ≤ fieldAt l 12 1 := by tauto
  have hhigh : fieldAt l 12 1 ≤ 32 := by tauto
  exact ⟨hlow, hhigh⟩

theorem nodeRecord_budget : ((nodeRecord l).np = true → 1 ≤ (nodeRecord l).budget ∧ (nodeRecord l).budget ≤ 2 ^ 24) ∧ ((nodeRecord l).np = false → (nodeRecord l).budget = 0) := by
  simp only [nodeOk, Bool.and_eq_true] at h
  have hbudget : (if fieldAt l 10 1 / 128 = 1 then decide (1 ≤ fieldAt l 16 4) && decide (fieldAt l 16 4 ≤ 2 ^ 24) else fieldAt l 16 4 == 0) = true := by tauto
  unfold nodeRecord
  dsimp only
  split at hbudget
  next hnp => exact ⟨fun _ => by simpa using hbudget, fun hf => by simp [hnp] at hf⟩
  next hnp => exact ⟨fun ht => absurd (beq_iff_eq.1 ht) hnp, fun _ => beq_iff_eq.1 hbudget⟩

theorem nodeRecord_keeps : (∀ r ∈ (nodeRecord l).keeps, regionFits r) ∧ keepBytes (nodeRecord l) ≤ 262144 := by
  simp only [nodeOk, Bool.and_eq_true, decide_eq_true_eq] at h
  have hall : (regionsAt l 80).all regionOk = true := by tauto
  have hsum : (regionsAt l 80).foldl (fun z r => z + r.2) 0 ≤ 262144 := by tauto
  refine ⟨fun r hr => regions_fit hall hr, ?_⟩
  rw [← sum_nonEmpty] at hsum
  exact hsum

end

theorem headerKernel_fits {addr : Word} {l : List Byte} (h : headerError addr l = none) :
    addr.toNat % 4 = 0 ∧ (∀ e ∈ (headerKernel addr l).entries, e % 4 = 0) ∧ ∀ r ∈ (headerKernel addr l).discards, regionFits r := by
  unfold headerError at h
  extract_lets used at h
  split at h
  · cases h
  split at h
  · cases h
  split at h
  next hok =>
    obtain ⟨haddr, -, -, -, -, hentries, hregions, -⟩ := hok
    refine ⟨haddr, fun e he => ?_, fun r hr => regions_fit hregions hr⟩
    obtain ⟨t, ht, rfl⟩ := List.mem_map.1 he
    have hentry := List.all_eq_true.1 hentries t ht
    simp only [Bool.and_eq_true, beq_iff_eq] at hentry
    exact hentry.1
  · cases h

/-- The limits of a node (R24, R25, R155, R156). -/
def nodeFits (nd : Node) : Prop :=
  1 ≤ nd.levels.length ∧ nd.levels.length ≤ 6 ∧ 1 ≤ nd.gang ∧ nd.gang ≤ 32 ∧ (∃ e ∈ nd.levels, e.1 ≠ 0)
    ∧ (nd.np = true → 1 ≤ nd.budget ∧ nd.budget ≤ 2 ^ 24) ∧ (nd.np = false → nd.budget = 0)
    ∧ (∀ r ∈ nd.keeps ++ nd.kernel.discards, regionFits r)
    ∧ keepBytes nd ≤ 262144 ∧ (nd.keeps ≠ [] → nd.backing ≠ 0#64) ∧ nd.kernel.addr.toNat % 4 = 0 ∧ (∀ e ∈ nd.kernel.entries, e % 4 = 0)
    ∧ ∀ e ∈ nd.kernel.descs, descOk (parseDesc e.2) = true

theorem loadNode_fits {s u : State} {p c node : Nat} {va : Word} {nd : Node} (h : loadNode s p c node va = (u, .ok nd)) : nodeFits nd := by
  obtain ⟨l, v, w, k, f, hok, hk, hback, rfl⟩ := loadNode_eq_ok h
  obtain ⟨hd, descs, hheader, hdescs, rfl⟩ := loadKernel_eq_ok hk
  obtain ⟨hlow, hhigh, hlevel⟩ := nodeRecord_levels hok
  obtain ⟨hgang, hgang'⟩ := nodeRecord_gang hok
  obtain ⟨hnp, hp⟩ := nodeRecord_budget hok
  obtain ⟨hkeeps, hbytes⟩ := nodeRecord_keeps hok
  obtain ⟨haddr, hentries, hdiscards⟩ := headerKernel_fits hheader
  refine ⟨hlow, hhigh, hgang, hgang', hlevel, hnp, hp, fun r hr => ?_, hbytes, fun hne => hback.resolve_left hne, haddr, hentries, hdescs⟩
  exact (List.mem_append.1 hr).elim (hkeeps r) (hdiscards r)

/-! The whole graph (R157). -/

section
variable {s u v w x : State} {p c : Nat} {l : List Byte}

/-- The address of the graph that a context names. -/
def graphBase (s : State) (p c : Nat) : Word := (ctxOf s p c).gladdr

theorem readGraph_unread {e : VErr} (h : vaRead s (deviceWho p c) (graphBase s p c) 64 = (u, .error e)) : readGraph s p c = (u, .error (causeOf e, 0x3FF)) := by
  rw [graphBase] at h
  rw [readGraph, readRecord_error h, andThen_error]

theorem readGraph_refused (h : vaRead s (deviceWho p c) (graphBase s p c) 64 = (u, .ok l)) {e : Byte} (he : graphError l = some e) :
    readGraph s p c = (u, .error (e, 0x3FF)) := by
  rw [graphBase] at h
  rw [readGraph, readRecord_ok h, andThen_ok, he]

/-- What comes behind the edges. -/
def readCounts (p c n : Nat) (nodes : List Node) (s : State) (edges : List Edge) : Load Graph :=
  match crowded n edges with
  | some k => (s, .error (cIllegal, k))
  | none => andThen (reserveAll p c nodes (layersOf nodes) s 0) (fun s _ => (s, .ok { nodes := nodes, edges := edges, gen := 0 }))

theorem readGraph_headed (h : vaRead s (deviceWho p c) (graphBase s p c) 64 = (u, .ok l)) (he : graphError l = none) :
    readGraph s p c = andThen (loadNodes p c (graphBase s p c + w64 (fieldAt l 16 8)) (fieldAt l 8 2) u 0) (fun s' nodes =>
      andThen (loadEdges p c (fieldAt l 8 2) (graphBase s p c + w64 (fieldAt l 24 8)) (fieldAt l 10 2) s' 0) (readCounts p c (fieldAt l 8 2) nodes)) := by
  rw [graphBase] at h ⊢
  rw [readGraph, readRecord_ok h, andThen_ok, he]
  rfl

/-- A header within R156. -/
theorem graphError_eq_none : graphError l = none ↔ fieldAt l 0 4 = 0x47524150 ∧ fieldAt l 4 4 = encid.toNat ∧
    (1 ≤ fieldAt l 8 2 ∧ fieldAt l 8 2 ≤ 1024 ∧ fieldAt l 10 2 ≤ 4096 ∧ zeroAt l 12 16 = true ∧ zeroAt l 32 64 = true) := by
  unfold graphError
  split
  next h => simp [h]
  next h =>
    split
    next h1 => simp [h1]
    next h1 => simp [not_not.1 h, not_not.1 h1]

/-- The parts of a graph that is read. -/
theorem readGraph_eq_ok {g : Graph} (h : readGraph s p c = (u, .ok g)) :
    ∃ l v w x, graphError l = none ∧ loadNodes p c (graphBase s p c + w64 (fieldAt l 16 8)) (fieldAt l 8 2) v 0 = (w, .ok g.nodes)
      ∧ loadEdges p c (fieldAt l 8 2) (graphBase s p c + w64 (fieldAt l 24 8)) (fieldAt l 10 2) w 0 = (x, .ok g.edges) ∧ crowded (fieldAt l 8 2) g.edges = none := by
  obtain ⟨v, l, -, h⟩ := andThen_eq_ok.1 h
  cases he : graphError l with
  | some e => rw [he] at h; simp at h
  | none =>
    rw [he] at h
    obtain ⟨w, nodes, hnodes, h⟩ := andThen_eq_ok.1 h
    obtain ⟨x, edges, hedges, h⟩ := andThen_eq_ok.1 h
    cases hc : crowded (fieldAt l 8 2) edges with
    | some k => rw [hc] at h; simp at h
    | none =>
      rw [hc] at h
      obtain ⟨y, _, -, h⟩ := andThen_eq_ok.1 h
      simp only [Prod.mk.injEq, Except.ok.injEq] at h
      obtain ⟨-, rfl⟩ := h
      exact ⟨l, v, w, x, he, hnodes, hedges, hc⟩

/-- What a graph that is read keeps to. -/
theorem readGraph_fits {g : Graph} (h : readGraph s p c = (u, .ok g)) :
    1 ≤ g.nodes.length ∧ g.nodes.length ≤ 1024 ∧ g.edges.length ≤ 4096
      ∧ (∀ e ∈ g.edges, e.prod < g.nodes.length ∧ e.cons < g.nodes.length ∧ e.prod ≠ e.cons ∧ 1 ≤ e.cap ∧ e.cap ≤ 64)
      ∧ (∀ k < g.nodes.length, ¬ wideNode g.edges k) ∧ ∀ nd ∈ g.nodes, nodeFits nd := by
  obtain ⟨l, v, w, x, he, hnodes, hedges, hc⟩ := readGraph_eq_ok h
  obtain ⟨-, -, hlow, hhigh, hcount, -, -⟩ := graphError_eq_none.1 he
  rw [loadNodes_length hnodes, loadEdges_length hedges]
  refine ⟨hlow, hhigh, hcount, fun e hmem => loadEdges_mem hedges hmem, crowded_eq_none.1 hc, fun nd hnd => ?_⟩
  obtain ⟨y, z, node, va, hnode⟩ := loadNodes_mem hnodes hnd
  exact loadNode_fits hnode

end

theorem readsGraph_holds (P C : Nat) : readsGraph P C := by
  intro s
  dsimp only
  refine ⟨fun u e h => readGraph_unread h, fun u l h => ⟨fun hm => ?_, fun hm he => ?_, fun hm he hr => ?_, fun hm he hr => ?_⟩, fun u g h => ?_⟩
  · exact readGraph_refused h (if_pos hm)
  · exact readGraph_refused h (by rw [graphError, if_neg (not_not.2 hm), if_pos he])
  · exact readGraph_refused h (by rw [graphError, if_neg (not_not.2 hm), if_neg (not_not.2 he), if_neg hr])
  · have hread := readGraph_headed h (graphError_eq_none.2 ⟨hm, he, hr⟩)
    refine ⟨fun v x hn => ?_, fun v nodes hn => ?_⟩
    · refine ⟨by rw [hread, graphBase, w64, hn, andThen_error], ?_⟩
      obtain ⟨d, hd, hnode, w, before, hbefore, hfail⟩ := loadNodes_error hn
      rw [Nat.zero_add] at hnode hfail
      rw [hnode]
      exact ⟨hd, w, before, hbefore, hfail⟩
    · rw [graphBase, w64, hn, andThen_ok] at hread
      refine ⟨fun w x hx => ?_, fun w es hes => ⟨fun k hk hwide hfirst => ?_, fun hnone v' x hx => ?_⟩⟩
      · rw [hread, w64, hx, andThen_error, ← loadEdges_error_node hx]
      · rw [hread, w64, hes, andThen_ok, readCounts, crowded_eq_some hk hwide hfirst]
      · refine ⟨?_, reserveAll_error hx⟩
        rw [hread, w64, hes, andThen_ok, readCounts, crowded_eq_none.2 hnone]
        exact congrArg (andThen · _) hx
  · obtain ⟨hlow, hhigh, hcount, hedges, hnarrow, hnodes⟩ := readGraph_fits h
    refine ⟨hlow, hhigh, hcount, hedges, fun k hk => ?_, hnodes⟩
    have hk' := hnarrow k hk
    rw [wideNode, not_or] at hk'
    exact ⟨Nat.le_of_not_lt hk'.1, Nat.le_of_not_lt hk'.2⟩

end Sys2Proof.Machine

/-! Graph load and unload: what stands in the context and its columns afterwards (R23, R30, R37, R157, R186, R245, R276, R284, R318). -/

namespace Sys2Proof.Machine

open Sys2Proof.Config

/-! Some columns changed alike. -/

theorem coreOf_foldl_modCore (f : Core → Core) {l : List Nat} (hl : l.Nodup) (s : State) (n : Nat) :
    coreOf (l.foldl (fun s m => modCore s m f) s) n = if n ∈ l then f (coreOf s n) else coreOf s n := by
  induction l generalizing s with
  | nil => rfl
  | cons m r ih =>
    obtain ⟨hm, hr⟩ := List.nodup_cons.1 hl
    rw [List.foldl_cons, ih hr, coreOf_modCore_any]
    rcases eq_or_ne n m with rfl | hne
    · simp [hm]
    · simp [hne]

theorem coresOf_nodup (s : State) (p : Nat) : (coresOf s p).Nodup := (coresOf_rising s p).imp Nat.ne_of_lt

/-- Columns alone differ. -/
theorem parts_foldl_modCore (f : Core → Core) (s : State) (l : List Nat) : (l.foldl (fun s m => modCore s m f) s).parts = s.parts := by
  refine foldl_keeps State.parts ?_ s l
  exact fun _ _ => rfl

theorem coresOf_modCtx (s : State) (p c q : Nat) (f : Context → Context) : coresOf (modCtx s p c f) q = coresOf s q := by
  refine coresOf_congr ?_
  rw [modCtx, partOf_modPart_any]
  split <;> rfl

section
variable {s u : State}

theorem partOf_congr (h : u.parts = s.parts) (p : Nat) : partOf u p = partOf s p := by rw [partOf, partOf, h]

theorem ctxOf_congr (h : u.parts = s.parts) (p c : Nat) : ctxOf u p c = ctxOf s p c := by rw [ctxOf, ctxOf, partOf_congr h]

theorem coresOf_of_parts (h : u.parts = s.parts) (p : Nat) : coresOf u p = coresOf s p := coresOf_congr (by rw [partOf_congr h])

end

/-- A launch discarded changes no partition's columns. -/
theorem coresOf_discardLaunch (s : State) (p c : Nat) : coresOf (discardLaunch s p c) p = coresOf s p := by
  refine coresOf_congr ?_
  unfold discardLaunch
  extract_lets tasks s1 s2 s3 s4
  have h1 : (partOf s1 p).pgran = (partOf s p).pgran := by
    refine foldl_keeps (fun s => (partOf s p).pgran) (fun t e => ?_) s tasks
    cases e.2.pool with
    | none => rfl
    | some k =>
      dsimp only
      split
      · rfl
      · rw [freePool, partOf_modPart]
  have h2 : (partOf s2 p).pgran = (partOf s1 p).pgran := by
    unfold s2
    rw [clearEntries, partOf_modPart]
  have h3 : partOf s3 p = partOf s2 p := partOf_congr (parts_foldl_modCore _ s2 _) p
  have h4 : (partOf s4 p).pgran = (partOf s3 p).pgran := by
    unfold s4
    rw [partOf_modPart]
  rw [modCtx, partOf_modPart]
  dsimp only
  rw [h4, h3, h2, h1]

/-! What is freed on the columns (R37, R245, R284). -/

/-- A column without the map handles, the kept queue pointers and the transaction barriers of a context. -/
def freedCore (c : Nat) (k : Core) : Core :=
  { k with
    floe := k.floe.filter (fun e => e.2.owner != some c)
    persist := k.persist.filter (fun e => e.1 / 32768 != c)
    txb := k.txb.filter (fun e => e.1 / 16 != c) }

theorem freeOnCores_eq (s : State) (p c : Nat) : freeOnCores s p c = (coresOf s p).foldl (fun s n => modCore s n (freedCore c)) s := rfl

theorem freeOnCores_parts (s : State) (p c : Nat) : (freeOnCores s p c).parts = s.parts := parts_foldl_modCore ..

theorem freeOnCores_keeps (s : State) (p c : Nat) : WriteKeeps s (freeOnCores s p c) := .foldl (fun t n => (WriteKeeps.refl t).modCore n) (.refl s) _

/-! Installation (R23, R276, R318). -/

theorem fillRange_keeps (p c : Nat) (b : Byte) (fuel : Nat) (s : State) (va : Word) (len : Nat) : WriteKeeps s (fillRange p c b fuel s va len) := by
  induction fuel generalizing s va len with
  | zero => exact .refl s
  | succ n ih =>
    rw [fillRange]
    exact .ite (.refl s) ((vaWrite_keeps s (deviceWho p c) va _).trans (ih ..))

theorem fillBackings_keeps (s : State) (p c : Nat) (g : Graph) : WriteKeeps s (fillBackings s p c g) := by
  refine .foldl (fun t nd => ?_) (.refl s) _
  exact fillRange_keeps ..

/-- A graph before its keep backings are filled. -/
def graphSet (s : State) (p c : Nat) (g : Graph) : State :=
  modCtx s p c (fun x => { x with
    graph := some { g with gen := ((ctxOf s p c).gen + 1#16).toNat }, gen := (ctxOf s p c).gen + 1#16, firn := [], check0 := [], check1 := [], launch := none })

theorem installGraph_eq (s : State) (p c : Nat) (g : Graph) : installGraph s p c g = commandDone (fillBackings (freeOnCores (graphSet s p c g) p c) p c g) p c 0#8 0x3FF := rfl

theorem ctxOf_installGraph (s : State) (p c : Nat) (g : Graph) :
    let x := ctxOf s p c
    let y := ctxOf (installGraph s p c g) p c
    y.gen = x.gen + 1#16 ∧ y.graph = some { g with gen := y.gen.toNat } ∧ y.glcause = 0#8 ∧ y.glnode = 0x3FF ∧ y.glcmd = 0 ∧ y.firn = [] ∧ y.launch = none := by
  have hset : ctxOf (graphSet s p c g) p c = { ctxOf s p c with
      graph := some { g with gen := ((ctxOf s p c).gen + 1#16).toNat }, gen := (ctxOf s p c).gen + 1#16, firn := [], check0 := [], check1 := [], launch := none } := ctxOf_modCtx ..
  obtain ⟨hgraph, hgen, hfirn, hidle⟩ := ((freeOnCores_keeps (graphSet s p c g) p c).trans (fillBackings_keeps _ p c g)).ctx p c
  rw [hset] at hgraph hgen hfirn hidle
  dsimp only
  rw [installGraph_eq, commandDone, ctxOf_modCtx]
  refine ⟨hgen, ?_, rfl, rfl, rfl, hfirn, hidle rfl⟩
  dsimp only
  rw [hgraph, hgen]

/-! Release (R186, R276, R282, R284, R318). -/

/-- A column without the keep regions of a context. -/
def vacatedCore (c : Nat) (k : Core) : Core :=
  match k.resident with
  | some (_, d) => if d == c then { k with resident := none } else k
  | none => k

theorem vacatedCore_resident (c : Nat) (k : Core) (node : Nat) : (vacatedCore c k).resident ≠ some (node, c) := by
  unfold vacatedCore
  split
  next d h =>
    split
    · simp
    next hne => simpa [h] using fun _ => by simpa using hne
  next h => simp [h]

/-- Nothing but keep regions leaves a column so. -/
theorem vacatedCore_rest (c : Nat) (k : Core) : (vacatedCore c k).floe = k.floe ∧ (vacatedCore c k).txb = k.txb ∧ (vacatedCore c k).persist = k.persist := by
  unfold vacatedCore
  split
  · split <;> exact ⟨rfl, rfl, rfl⟩
  · exact ⟨rfl, rfl, rfl⟩

/-- A context without its graph. -/
def graphGone (s : State) (p c : Nat) : State := modCtx (discardLaunch s p c) p c (fun x => { x with graph := none, firn := [], check0 := [], check1 := [], lists := [] })

theorem releaseGraph_eq (s : State) (p c : Nat) : releaseGraph s p c = (coresOf (freeOnCores (graphGone s p c) p c) p).foldl (fun s n => modCore s n (vacatedCore c)) (freeOnCores (graphGone s p c) p c) := rfl

theorem coresOf_graphGone (s : State) (p c : Nat) : coresOf (graphGone s p c) p = coresOf s p := (coresOf_modCtx ..).trans (coresOf_discardLaunch ..)

theorem ctxOf_releaseGraph (s : State) (p c : Nat) :
    let y := ctxOf (releaseGraph s p c) p c
    y.graph = none ∧ y.gen = (ctxOf s p c).gen ∧ y.firn = [] ∧ y.check0 = [] ∧ y.check1 = [] ∧ y.lists = [] ∧ y.launch = none ∧ y.saved = [] := by
  have hparts : (releaseGraph s p c).parts = (graphGone s p c).parts := (parts_foldl_modCore ..).trans (freeOnCores_parts ..)
  obtain ⟨t, ht⟩ := ctxOf_discardLaunch s p c
  dsimp only
  rw [ctxOf_congr hparts, graphGone, ctxOf_modCtx, ht]
  exact ⟨rfl, rfl, rfl, rfl, rfl, rfl, rfl, rfl⟩

theorem coreOf_releaseGraph {s : State} {p n : Nat} (c : Nat) (hn : n ∈ coresOf s p) : coreOf (releaseGraph s p c) n = vacatedCore c (freedCore c (coreOf (graphGone s p c) n)) := by
  have hgone : n ∈ coresOf (graphGone s p c) p := (coresOf_graphGone s p c).symm ▸ hn
  rw [releaseGraph_eq, coreOf_foldl_modCore _ (coresOf_nodup ..), coresOf_of_parts (freeOnCores_parts ..), if_pos hgone,
    freeOnCores_eq, coreOf_foldl_modCore _ (coresOf_nodup ..), if_pos hgone]

theorem releaseGraph_frees {s : State} {p n : Nat} (c : Nat) (hn : n ∈ coresOf s p) :
    let k := coreOf (releaseGraph s p c) n
    (∀ node, k.resident ≠ some (node, c)) ∧ (∀ e ∈ k.floe, e.2.owner ≠ some c) ∧ (∀ e ∈ k.txb, e.1 / 16 ≠ c) ∧ ∀ e ∈ k.persist, e.1 / 32768 ≠ c := by
  rw [coreOf_releaseGraph c hn]
  dsimp only
  obtain ⟨hfloe, htxb, hpersist⟩ := vacatedCore_rest c (freedCore c (coreOf (graphGone s p c) n))
  rw [hfloe, htxb, hpersist]
  refine ⟨vacatedCore_resident c _, fun e he => ?_, fun e he => ?_, fun e he => ?_⟩
  · simpa using (List.mem_filter.1 he).2
  · simpa using (List.mem_filter.1 he).2
  · simpa using (List.mem_filter.1 he).2

/-! The commands of GLCMD (R318). -/

section
variable {s : State} {p : PartNo} {c : CtxNo} (hbusy : (ctxOf s p.toNat c.toNat).glbusy = true)
include hbusy

theorem execGraphLoad_live (hcmd : (ctxOf s p.toNat c.toNat).glcmd = 1) :
    exec (.graphLoad p c) s = if (ctxOf s p.toNat c.toNat).graph.isSome then .next (commandDone s p.toNat c.toNat cIllegal 0x3FF)
      else if transitError s.tick then .next (commandDone s p.toNat c.toNat cDataUe 0x3FF)
      else match readGraph s p.toNat c.toNat with
        | (s, .ok g) => .next (installGraph s p.toNat c.toNat g)
        | (s, .error (cause, node)) => .next (commandDone s p.toNat c.toNat cause node) := by
  rw [exec_graphLoad, execGraphLoad]
  simp only [hbusy, hcmd, Bool.not_true, bne_self_eq_false, Bool.or_false, Bool.false_eq_true, if_false] <;> rfl

theorem execGraphLoad_reads (hcmd : (ctxOf s p.toNat c.toNat).glcmd = 1) (hgraph : (ctxOf s p.toNat c.toNat).graph = none) (htick : transitError s.tick = false) :
    (∀ u g, readGraph s p.toNat c.toNat = (u, .ok g) → exec (.graphLoad p c) s = .next (installGraph u p.toNat c.toNat g))
      ∧ ∀ u cause node, readGraph s p.toNat c.toNat = (u, .error (cause, node)) → exec (.graphLoad p c) s = .next (commandDone u p.toNat c.toNat cause node) := by
  rw [execGraphLoad_live hbusy hcmd, hgraph, htick]
  refine ⟨fun u g h => ?_, fun u cause node h => ?_⟩
  · rw [h]
    rfl
  · rw [h]
    rfl

theorem execGraphUnload_live (hcmd : (ctxOf s p.toNat c.toNat).glcmd = 2) :
    exec (.graphUnload p c) s = .next (if (ctxOf s p.toNat c.toNat).graph.isNone then commandDone s p.toNat c.toNat 0#8 0x3FF
      else if (ctxOf s p.toNat c.toNat).busy || hasJobs s p.toNat c.toNat then commandDone s p.toNat c.toNat cIllegal 0x3FF
      else commandDone (releaseGraph s p.toNat c.toNat) p.toNat c.toNat 0#8 0x3FF) := by
  rw [exec_graphUnload, execGraphUnload]
  simp only [hbusy, hcmd, Bool.not_true, bne_self_eq_false, Bool.or_false, Bool.false_eq_true, if_false]
  split
  · rfl
  · split <;> rfl

theorem execGraphCommandEnd_live (hcmd : (ctxOf s p.toNat c.toNat).glcmd = 0) :
    exec (.graphCommandEnd p c) s = .next (partEvent (modCtx s p.toNat c.toNat (fun x => { x with glbusy := false })) p.toNat 5) := by
  rw [exec_graphCommandEnd, execGraphCommandEnd]
  simp only [hbusy, hcmd, Bool.not_true, bne_self_eq_false, Bool.or_false, Bool.false_eq_true, if_false]

end

end Sys2Proof.Machine

/-! Writes to plain HBM, where no line is owned, nothing is flawed and the key is the one the sectors stand under (R78, R91, R92). -/

namespace Sys2Proof.Machine

open Sys2Proof.Config

/-- No core owns a line (R78). -/
def unowned (s : State) : Prop := ∀ e ∈ s.cores, e.2.owned = []

section
variable {s : State}

theorem recallLine_unowned (h : unowned s) (pa len : Nat) : recallLine s none pa len = s := by
  unfold recallLine
  extract_lets hit
  suffices hfold : ∀ (l : List (Nat × Core)), (∀ e ∈ l, e.2.owned = []) → ∀ (f : State → Nat × Core → State), (∀ e ∈ l, f s e = s) → l.foldl f s = s by
    refine hfold s.cores h _ fun e he => if_pos ?_
    simp [h e he]
  intro l hl f hf
  induction l with
  | nil => rfl
  | cons e r ih =>
    rw [List.foldl_cons, hf e List.mem_cons_self]
    exact ih (fun e he => hl e (List.mem_cons_of_mem _ he)) (fun e he => hf e (List.mem_cons_of_mem _ he))

theorem walkRecalls_unowned (h : unowned s) (q : Partition) (va lv table : Nat) : walkRecalls s q va table lv = s := by
  induction lv generalizing table with
  | zero => rfl
  | succ lv ih =>
    unfold walkRecalls
    dsimp only
    rw [recallLine_unowned h]
    repeat' split
    · rfl
    · rfl
    · rfl
    · exact ih ..

theorem countCorrected_keySlots (s : State) (p k : Nat) : (countCorrected s p k).keySlots = s.keySlots := by
  unfold countCorrected
  split <;> rfl

theorem countCorrected_cores (s : State) (p k : Nat) : (countCorrected s p k).cores = s.cores := by
  unfold countCorrected
  split <;> rfl

/-- A walk of the device where no line is owned counts corrections and does nothing else. -/
theorem walked_unowned (h : unowned s) {w : Who} (hw : w.core = none) (va : Word) : ∃ k, walked s w va = countCorrected s w.p k := by
  unfold walked
  split
  · exact ⟨0, by rw [countCorrected, if_pos rfl]⟩
  · rw [hw]
    dsimp only
    rw [walkMade, walkRecalls_unowned h]
    exact ⟨_, rfl⟩

end

/-! Storage. -/

section
variable {m : Memory} {key : List Byte}

theorem rsDecode_nil : rsDecode [] = some [] := rfl

theorem readSector_plain {a : Nat} (hflaws : m.flaws = []) (hkey : keyAt m a = key) : readSector m a key = some (0, []) := by
  have hwrong : wrongSeen m a key = [] := by
    unfold wrongSeen wrongAt
    rw [hflaws]
    simp
  rw [readSector, if_neg (not_not.2 hkey), hwrong]
  dsimp only
  rw [rsDecode_nil]
  rfl

theorem mergeSector_plain {a : Nat} (hflaws : m.flaws = []) (hkey : keyAt m a = key) : mergeSector m a key = some (m, 0) := by
  rw [mergeSector, readSector_plain hflaws hkey]
  split
  · rfl
  · rw [if_neg (by simp [hkey])]

theorem mergeAll_plain (hflaws : m.flaws = []) {l : List Nat} (hkey : ∀ a ∈ l, keyAt m a = key) : mergeAll key l m = some (m, 0) := by
  induction l with
  | nil => rfl
  | cons a r ih =>
    obtain ⟨ha, hr⟩ := List.forall_mem_cons.1 hkey
    rw [mergeAll, mergeSector_plain hflaws ha]
    dsimp only
    rw [ih hr]
    rfl

/-- A write to plain storage sets the keys of its sectors and its bytes. -/
theorem storeWrite_plain {a : Nat} {l : List Byte} (hflaws : m.flaws = []) (hkey : ∀ x ∈ sectorsOf a l.length, keyAt m x = key) :
    ∃ t, storeWrite m a key l = some (memWrite { m with keyOf := t } a l, 0) := by
  have hmerge : mergeAll key (partSectors a l.length) m = some (m, 0) := mergeAll_plain hflaws fun x hx => hkey x (List.mem_filter.1 hx).1
  unfold storeWrite
  dsimp only
  rw [hmerge]
  have hclean : (decide (m.flaws = []) || decide (l.length = 0)) = true := by simp [hflaws]
  by_cases hk : isKeyed a = true
  · refine ⟨tagSectors m.keyOf key (sectorsOf a l.length), ?_⟩
    simp only [if_pos hk, if_pos hclean]
  · refine ⟨m.keyOf, ?_⟩
    simp only [if_neg hk, if_pos hclean]

theorem writesRuns_memWrite (m : Memory) (t : Table (List Byte)) (a : Nat) (l : List Byte) : writesRuns m (memWrite { m with keyOf := t } a l) [(a, l)] := by
  refine ⟨fun r hr => ?_, fun x hx => ?_⟩
  · rw [List.mem_singleton.1 hr]
    exact memReadN_memWrite_same ..
  · exact memRead_memWrite_out _ _ _ _ (hx (a, l) (List.mem_singleton.2 rfl))

end

/-! Virtual addresses. -/

section
variable {s u : State} {w : Who} {va : Word} {pa key : Nat} {l : List Byte}

theorem physWrite_hbm (h : region pa = .hbm) : physWrite s pa key l = storePut (recallLine s none pa l.length) pa key l := by
  rw [physWrite, h]

theorem storePut_written {m : Memory} {k : Nat} (h : storeWrite s.mem pa (keyBytes s key) l = some (m, k)) : storePut s pa key l = (countOwner { s with mem := m } pa k, .ok ()) := by
  rw [storePut, h]

/-- A piece of a write that goes into one page, as far as one rule of privilege holds. -/
theorem vaWriteFrom_piece (n : Nat) (hl : l ≠ []) (ht : translate s w.p w.c w.core va .write w.user = .ok pa key)
    (hp : physWrite (walked s w va) pa key (l.take (ruleRun w pa (pageRun va.toNat l.length))) = (u, .ok ())) :
    vaWriteFrom w (n + 1) s va l = vaWriteFrom w n u (va + w64 (ruleRun w pa (pageRun va.toNat l.length))) (l.drop (ruleRun w pa (pageRun va.toNat l.length))) := by
  rw [vaWriteFrom, if_neg (by simpa using hl), ht]
  dsimp only
  rw [hp]

theorem vaWriteFrom_nil (n : Nat) : vaWriteFrom w n s va [] = (s, .ok ()) := by
  cases n <;> rfl

/-- A write of the device that one page of plain HBM holds. -/
theorem vaWrite_plain (hw : w.core = none) (hl : l ≠ []) (ht : translate s w.p w.c w.core va .write w.user = .ok pa key) (hr : region pa = .hbm)
    (hfit : va.toNat % 0x10000 + l.length ≤ 0x10000) (hplain : plainAt s pa l.length key) : writesRuns s.mem (vaWrite s w va l).1.mem [(pa, l)] := by
  obtain ⟨hflaws, hkey, hown⟩ := hplain
  have hrun : ruleRun w pa (pageRun va.toNat l.length) = l.length := by
    rw [ruleRun, hr]
    exact Nat.min_eq_left (by omega)
  obtain ⟨k, hk⟩ := walked_unowned (s := s) hown hw va
  obtain ⟨t, hstore⟩ := storeWrite_plain hflaws hkey
  have hput : physWrite (walked s w va) pa key l = (countOwner { walked s w va with mem := memWrite { s.mem with keyOf := t } pa l } pa 0, .ok ()) := by
    have hcores : unowned (walked s w va) := by
      rw [hk, unowned, countCorrected_cores]
      exact hown
    have hbytes : keyBytes (walked s w va) key = keyBytes s key := by rw [hk, keyBytes, keyBytes, countCorrected_keySlots]
    have hmem : (walked s w va).mem = s.mem := by rw [hk, countCorrected_mem]
    rw [physWrite_hbm hr, recallLine_unowned hcores]
    exact storePut_written (by rw [hbytes, hmem, hstore])
  have hpiece : physWrite (walked s w va) pa key (l.take (ruleRun w pa (pageRun va.toNat l.length))) = (countOwner { walked s w va with mem := memWrite { s.mem with keyOf := t } pa l } pa 0, .ok ()) := by
    rw [hrun, List.take_length]
    exact hput
  rw [vaWrite, vaWriteFrom_piece _ hl ht hpiece, hrun, List.drop_length, vaWriteFrom_nil, countOwner_mem]
  exact writesRuns_memWrite ..

end

end Sys2Proof.Machine

/-! Contexts that take and pass the slice, vault ranges, PBSETs, and the statement about graphs (R95, R98, R175, R317, R318). -/

namespace Sys2Proof.Machine

open Sys2Proof.Config

/-! The slice (R317). -/

section
variable {s : State} {p c : Nat}

theorem running_modCtx (s : State) (p c : Nat) (f : Context → Context) : (partOf (modCtx s p c f) p).running = (partOf s p).running := by
  rw [modCtx, partOf_modPart]

/-- The next context is the nearest enabled one. -/
theorem nextCtx_nearest (hc : c < 8) {d : Nat} (h : nextCtx s p c = some d) :
    d < 8 ∧ (ctxOf s p d).en = true ∧ ∀ e < 8, e ≠ c → (e + 8 - c) % 8 < (d + 8 - c) % 8 → (ctxOf s p e).en = false := by
  rw [nextCtx, List.find?_map, Option.map_eq_some_iff] at h
  obtain ⟨i, hi, rfl⟩ := h
  obtain ⟨hen, hmem, hfirst⟩ := List.find?_range_eq_some.1 hi
  have hi8 : i < 8 := List.mem_range.1 hmem
  refine ⟨Nat.mod_lt _ (by decide), hen, fun e he hne hnear => ?_⟩
  have hnear' : (e + 8 - c) % 8 < ((c + 1 + i) % 8 + 8 - c) % 8 := hnear
  obtain ⟨j, hj, hat⟩ : ∃ j < i, (c + 1 + j) % 8 = e := ⟨(e + 7 - c) % 8, by omega, by omega⟩
  have hj' := hfirst j hj
  rw [Function.comp_apply, show (c + 1 + j) % nCtxs = e from hat] at hj'
  simpa using hj'

/-- A context disabled. -/
def disabled (s : State) (p c : Nat) : State := modCtx s p c (fun x => { x with en := false })

/-- The slice of a context that is disabled passes on. -/
def slicePassed (s : State) (p c : Nat) : State := endSlice (modPart (disabled s p c) p (fun q => { q with running := nextCtx (disabled s p c) p c })) p

theorem ctxEnable_takes (h : (partOf s p).running = none) : ctxEnable s p c true = endSlice (modPart (modCtx s p c (fun x => { x with en := true })) p (fun q => { q with running := some c })) p := by
  unfold ctxEnable
  dsimp only
  rw [running_modCtx, h]
  exact if_pos rfl

theorem ctxEnable_leaves (h : (partOf s p).running ≠ some c) : ctxEnable s p c false = disabled s p c := by
  unfold ctxEnable
  dsimp only
  rw [running_modCtx, if_neg (by simp), if_neg (by simpa using h)]
  rfl

theorem ctxEnable_passes (h : (partOf s p).running = some c) : ctxEnable s p c false = slicePassed s p c := by
  unfold ctxEnable
  dsimp only
  rw [running_modCtx, h, if_neg (by simp), if_pos (by simp)]
  rfl

/-- A context disabled leaves the others as they are. -/
theorem ctxOf_disabled_other {d : Nat} (hd : d ≠ c) : ctxOf (disabled s p c) p d = ctxOf s p d := ctxOf_modCtx_other _ _ fun h => hd h.2

theorem ctxOf_slicePassed : (ctxOf (slicePassed s p c) p c).en = false := by
  rw [slicePassed, ctxOf_congr (endSlice_parts ..)]
  refine (congrArg Context.en (ctxOf_modPart ?_ p c)).trans ?_
  · exact fun _ => rfl
  · rw [disabled, ctxOf_modCtx]

theorem slicePassed_mem : (slicePassed s p c).mem = s.mem := endSlice_mem ..

theorem slicePassed_running : (partOf (slicePassed s p c) p).running = nextCtx (disabled s p c) p c := by
  rw [slicePassed, partOf_congr (endSlice_parts ..), partOf_modPart]

theorem slicePassed_ending {n : Nat} (hn : n ∈ coresOf s p) : (coreOf (slicePassed s p c) n).ending = true := by
  refine endSlice_ending ?_
  rw [show coresOf (modPart (disabled s p c) p _) p = coresOf (disabled s p c) p from coresOf_congr (by rw [partOf_modPart]), disabled, coresOf_modCtx]
  exact hn

/-- The slice passes to the nearest enabled context, or to none where there is none. -/
theorem slicePassed_next (hc : c < 8) :
    ((partOf (slicePassed s p c) p).running = none → ∀ d < 8, d ≠ c → (ctxOf s p d).en = false)
      ∧ ∀ d, (partOf (slicePassed s p c) p).running = some d → d < 8 ∧ d ≠ c ∧ (ctxOf s p d).en = true ∧ ∀ e < 8, e ≠ c → (e + 8 - c) % 8 < (d + 8 - c) % 8 → (ctxOf s p e).en = false := by
  rw [slicePassed_running]
  refine ⟨fun hnone d hd hne => ?_, fun d hsome => ?_⟩
  · rw [← ctxOf_disabled_other hne]
    exact (nextCtx_spec _ p c).2 hnone d hd
  · obtain ⟨hd, hen, hfirst⟩ := nextCtx_nearest hc hsome
    have hne : d ≠ c := by
      rintro rfl
      rw [disabled, ctxOf_modCtx] at hen
      exact absurd hen (by simp)
    refine ⟨hd, hne, ctxOf_disabled_other hne ▸ hen, fun e he hec hnear => ?_⟩
    rw [← ctxOf_disabled_other hec]
    exact hfirst e he hec hnear

end

/-! Vault ranges (R95, R317). -/

/-- A column with both dirty bits of some blocks set. -/
def dirtied (blocks : List Nat) (k : Core) : Core :=
  { k with dirty0 := blocks ++ k.dirty0.filter (fun d => !blocks.contains d), dirty1 := blocks ++ k.dirty1.filter (fun d => !blocks.contains d) }

theorem mem_dirtied {blocks l : List Nat} {b : Nat} : b ∈ blocks ++ l.filter (fun d => !blocks.contains d) ↔ b ∈ l ∨ b ∈ blocks := by
  by_cases h : b ∈ blocks <;> simp [h]

theorem mem_dirty_dirtied {blocks : List Nat} {k : Core} {b : Nat} : (b ∈ (dirtied blocks k).dirty0 ↔ b ∈ k.dirty0 ∨ b ∈ blocks) ∧ (b ∈ (dirtied blocks k).dirty1 ↔ b ∈ k.dirty1 ∨ b ∈ blocks) := ⟨mem_dirtied, mem_dirtied⟩

/-- A field of a masked word whose bits the mask keeps. -/
theorem bitsAt_and_mask {v m : Word} {lo w : Nat} (h : ∀ i < w, m.getLsbD (lo + i) = true) : bitsAt (v &&& m) lo w = bitsAt v lo w := by
  refine Nat.eq_of_testBit_eq fun i => ?_
  rw [bitsAt, bitsAt, Nat.testBit_mod_two_pow, Nat.testBit_mod_two_pow]
  by_cases hi : i < w
  · have hm : m.toNat.testBit (lo + i) = true := h i hi
    rw [Nat.testBit_div_two_pow, Nat.testBit_div_two_pow, BitVec.toNat_and, Nat.testBit_and, Nat.add_comm i lo, hm, Bool.and_true]
  · simp [hi]

section
variable {s : State} {p c : Nat} {v : Word}

/-- The range of a declaration, as the context keeps it. -/
theorem vrangeOf_masked {x : Context} (h : x.vrange = v &&& 0x0FFF0FFF#64) : vrangeOf x = (v.toNat % 2 ^ 12, v.toNat / 2 ^ 16 % 2 ^ 12) := by
  rw [vrangeOf, h, bitsAt_and_mask (by decide), bitsAt_and_mask (by decide), bitsAt, bitsAt, Nat.pow_zero, Nat.div_one]

/-- A context with a declared range. -/
def rangeSet (s : State) (p c : Nat) (v : Word) : State := modCtx s p c (fun x => { x with vrange := v &&& 0x0FFF0FFF#64, commitDue := bitsAt v 16 12 != 0 })

theorem ctxOf_rangeSet : ctxOf (rangeSet s p c v) p c = { ctxOf s p c with vrange := v &&& 0x0FFF0FFF#64, commitDue := bitsAt v 16 12 != 0 } := ctxOf_modCtx ..

/-- The blocks of a range. -/
def rangeBlocks (v : Word) : List Nat := (List.range (v.toNat / 2 ^ 16 % 2 ^ 12)).map (v.toNat % 2 ^ 12 + ·)

theorem mem_rangeBlocks {b : Nat} : b ∈ rangeBlocks v ↔ v.toNat % 2 ^ 12 ≤ b ∧ b < v.toNat % 2 ^ 12 + v.toNat / 2 ^ 16 % 2 ^ 12 := by
  rw [rangeBlocks, List.mem_map]
  constructor
  · rintro ⟨i, hi, rfl⟩
    have := List.mem_range.1 hi
    omega
  · rintro ⟨hlow, hhigh⟩
    exact ⟨b - v.toNat % 2 ^ 12, List.mem_range.2 (by omega), by omega⟩

theorem declareRange_enabled (h : (ctxOf s p c).en = true) : declareRange s p c v = s := if_pos h

theorem declareRange_eq (h : (ctxOf s p c).en = false) : declareRange s p c v = (coresOf s p).foldl (fun s n => modCore s n (dirtied (rangeBlocks v))) (rangeSet s p c v) := by
  have hblocks : vrangeOf (ctxOf (rangeSet s p c v) p c) = (v.toNat % 2 ^ 12, v.toNat / 2 ^ 16 % 2 ^ 12) := vrangeOf_masked (by rw [ctxOf_rangeSet])
  have hcores : coresOf (rangeSet s p c v) p = coresOf s p := coresOf_modCtx ..
  unfold declareRange
  rw [if_neg (by simp [h])]
  change (let (b, k) := vrangeOf (ctxOf (rangeSet s p c v) p c)
    (coresOf (rangeSet s p c v) p).foldl (fun s n => modCore s n (dirtied ((List.range k).map (b + ·)))) (rangeSet s p c v)) = _
  rw [hblocks, hcores]
  rfl

theorem ctxOf_declareRange (h : (ctxOf s p c).en = false) :
    (ctxOf (declareRange s p c v) p c).vrange = v &&& 0x0FFF0FFF#64 ∧ (ctxOf (declareRange s p c v) p c).commitDue = decide (v.toNat / 2 ^ 16 % 2 ^ 12 ≠ 0) := by
  rw [declareRange_eq h, ctxOf_congr (parts_foldl_modCore ..), ctxOf_rangeSet]
  refine ⟨rfl, ?_⟩
  rw [Bool.eq_iff_iff]
  simp [bitsAt]

theorem coreOf_declareRange (h : (ctxOf s p c).en = false) {n : Nat} (hn : n ∈ coresOf s p) : coreOf (declareRange s p c v) n = dirtied (rangeBlocks v) (coreOf s n) := by
  rw [declareRange_eq h, coreOf_foldl_modCore _ (coresOf_nodup ..), if_pos hn]
  rfl

/-- The dirty bits of a declared range, in every column. -/
theorem dirty_declareRange (h : (ctxOf s p c).en = false) {n : Nat} (hn : n ∈ coresOf s p) (b : Nat) :
    let first := v.toNat % 2 ^ 12
    let count := v.toNat / 2 ^ 16 % 2 ^ 12
    (b ∈ (coreOf (declareRange s p c v) n).dirty0 ↔ b ∈ (coreOf s n).dirty0 ∨ (first ≤ b ∧ b < first + count))
      ∧ (b ∈ (coreOf (declareRange s p c v) n).dirty1 ↔ b ∈ (coreOf s n).dirty1 ∨ (first ≤ b ∧ b < first + count)) := by
  dsimp only
  rw [coreOf_declareRange h hn, ← mem_rangeBlocks]
  exact mem_dirty_dirtied

end

section
variable {t : State} {n off len b p : Nat}

/-- The blocks of a write to a vault that some context declares. -/
def declaredBlocks (q : Partition) (off len : Nat) : List Nat :=
  ((List.range (if len = 0 then 0 else (off + len - 1) / 4096 - off / 4096 + 1)).map (off / 4096 + ·)).filter (fun k =>
    q.ctxs.any (fun e => (vrangeOf e.2).1 ≤ k && k < (vrangeOf e.2).1 + (vrangeOf e.2).2))

theorem markDirty_eq (h : partOfCore t n = some p) :
    markDirty t n off len = if (declaredBlocks (partOf t p) off len).isEmpty then t else modCore t n (dirtied (declaredBlocks (partOf t p) off len)) := by
  unfold markDirty
  rw [h]
  rfl

theorem mem_declaredBlocks {q : Partition} (hlen : 1 ≤ len) (hlow : off / 4096 ≤ b) (hhigh : b ≤ (off + len - 1) / 4096)
    (hdecl : ∃ e ∈ q.ctxs, e.2.vrange.toNat % 2 ^ 12 ≤ b ∧ b < e.2.vrange.toNat % 2 ^ 12 + e.2.vrange.toNat / 2 ^ 16 % 2 ^ 12) : b ∈ declaredBlocks q off len := by
  refine List.mem_filter.2 ⟨List.mem_map.2 ⟨b - off / 4096, List.mem_range.2 ?_, by omega⟩, ?_⟩
  · rw [if_neg (by omega)]
    omega
  · obtain ⟨e, he, hfirst, hlast⟩ := hdecl
    refine List.any_eq_true.2 ⟨e, he, ?_⟩
    simp only [vrangeOf, bitsAt, Nat.pow_zero, Nat.div_one, Bool.and_eq_true, decide_eq_true_eq]
    exact ⟨hfirst, hlast⟩

/-- A write to a block of a declared range sets its dirty bits (R95). -/
theorem markDirty_declared (hpart : partOfCore t n = some p) (hlen : 1 ≤ len) (hlow : off / 4096 ≤ b) (hhigh : b ≤ (off + len - 1) / 4096)
    (hdecl : ∃ e ∈ (partOf t p).ctxs, e.2.vrange.toNat % 2 ^ 12 ≤ b ∧ b < e.2.vrange.toNat % 2 ^ 12 + e.2.vrange.toNat / 2 ^ 16 % 2 ^ 12) :
    b ∈ (coreOf (markDirty t n off len) n).dirty0 ∧ b ∈ (coreOf (markDirty t n off len) n).dirty1 := by
  have hb := mem_declaredBlocks hlen hlow hhigh hdecl
  rw [markDirty_eq hpart, if_neg (by simpa using List.ne_nil_of_mem hb), coreOf_modCore]
  exact ⟨mem_dirty_dirtied.1.2 (.inr hb), mem_dirty_dirtied.2.2 (.inr hb)⟩

end

/-! Commit words (R95, R98). -/

section
variable {t : State} {p c : Nat}

theorem writeDue_one {y : Context} (h : (partOf t p).ctxs = [(c, y)]) (hdue : y.commitDue = true) :
    writeDue t p = modCtx (writeCommit (writeCommit t p c 0 (2 ^ 64 - 1)) p c 1 (2 ^ 64 - 1)) p c (fun x => { x with commitDue := false }) := by
  rw [writeDue, h, List.foldl_cons, List.foldl_nil, if_pos hdue]

theorem writeCommit_plain {image v pa key : Nat} (ht : translate t p c none (commitVa t p c image) .write false = .ok pa key) (hr : region pa = .hbm)
    (hfit : (commitVa t p c image).toNat % 0x10000 + 8 ≤ 0x10000) (hplain : plainAt t pa 8 key) : writesRuns t.mem (writeCommit t p c image v).mem [(pa, leBytes 8 v)] := by
  have hlen := length_leBytes 8 v
  refine vaWrite_plain rfl ?_ ht hr (by rw [hlen]; exact hfit) (by rw [hlen]; exact hplain)
  exact List.ne_nil_of_length_pos (by rw [hlen]; decide)

end

/-! PBSET (R175). -/

theorem pennantOf_writePbset (s : State) (p c t : Nat) (v : BitVec 320) :
    pennantOf (ctxOf (writePbset s p c t v) p c) t =
      if (pennantOf (ctxOf s p c) t).arrived = [] then { pennantOf (ctxOf s p c) t with set := v &&& pbsetMask (partOf s p), held := none }
      else { pennantOf (ctxOf s p c) t with held := some (v &&& pbsetMask (partOf s p)) } := by
  unfold writePbset
  rw [ctxOf_modCtx, pennantOf, tget_tset_same]
  by_cases h : (pennantOf (ctxOf s p c) t).arrived = []
  · rw [if_pos h, if_pos (List.isEmpty_iff.2 h)]
  · rw [if_neg h, if_neg (mt List.isEmpty_iff.1 h)]

/-! The statement. -/

/-- Settles O47: a load follows `readsGraph` and `loadsNode`; what stands afterwards is read off the installed and released states, which write memory and columns beside the context; and a range, a slice and a PBSET are one update each. -/
theorem graphEventResults : Obligations.GraphEventResults := by
  unfold Obligations.GraphEventResults
  intro s p c
  dsimp only
  refine ⟨fun hb hcmd => ⟨fun hg => ?_, fun hg htick => ?_, fun hg htick => execGraphLoad_reads hb hcmd hg htick⟩, readsGraph_holds _ _, loadsNode_holds _ _,
    fun g => ctxOf_installGraph s p.toNat c.toNat g, ?_, fun hb hcmd => ⟨fun hg => ?_, fun hg hjobs => ?_, fun hg hidle hjobs => ?_⟩, fun hb hcmd => ?_,
    fun en hen => ?_, fun hen hrun => ?_, fun hen hrun => ?_, fun v hen => ?_, fun hen hrun => ?_, fun v hen => ?_, fun t y hctxs hdue => ?_,
    fun t image v pa key ht hr hfit hplain => writeCommit_plain ht hr hfit hplain, fun t n off len b => markDirty_declared, fun tag v => ?_⟩
  · rw [execGraphLoad_live hb hcmd, if_pos (Option.isSome_iff_ne_none.2 hg)]
    rfl
  · rw [execGraphLoad_live hb hcmd, if_neg (by simp [hg]), if_pos htick]
    rfl
  · obtain ⟨hgraph, hgen, hfirn, h0, h1, hlists, hlaunch, hsaved⟩ := ctxOf_releaseGraph s p.toNat c.toNat
    exact ⟨hgraph, hgen, hfirn, h0, h1, hlists, hlaunch, hsaved, releaseGraph_mem .., fun n hn => releaseGraph_frees _ hn⟩
  · rw [execGraphUnload_live hb hcmd, if_pos (by simp [hg])]
    rfl
  · rw [execGraphUnload_live hb hcmd, if_neg (by simp [hg]), if_pos (by simpa using hjobs)]
    rfl
  · rw [execGraphUnload_live hb hcmd, if_neg (by simp [hg]), if_neg (by simp [hidle, hjobs])]
    rfl
  · refine ⟨_, execGraphCommandEnd_live hb hcmd, ?_, partEvent_raised _ _ (by decide)⟩
    rw [ctxOf_partEvent, ctxOf_modCtx]
  · rw [exec_contextEnable, execContextEnable, if_pos (beq_iff_eq.2 hen)]
  · rw [exec_contextEnable, execContextEnable, if_neg (by simp [hen]), ctxEnable_takes hrun]
  · rw [exec_contextEnable, execContextEnable, if_neg (by simp [hen]), ctxEnable_leaves hrun]
    rfl
  · rw [exec_vaultRangeDeclare, execVaultRangeDeclare, declareRange_enabled hen]
  · refine ⟨slicePassed s p.toNat c.toNat, ?_, ctxOf_slicePassed, slicePassed_mem, fun n hn => slicePassed_ending hn, slicePassed_next c.isLt⟩
    rw [exec_contextEnable, execContextEnable, if_neg (by simp [hen]), ctxEnable_passes hrun]
  · obtain ⟨hrange, hdue⟩ := ctxOf_declareRange (v := v) hen
    exact ⟨_, rfl, hrange, declareRange_mem .., hdue, fun n hn b => dirty_declareRange hen hn b⟩
  · rw [writeDue_one hctxs hdue, modCtx_mem, ctxOf_modCtx]
    exact ⟨rfl, rfl⟩
  · refine ⟨_, exec_pbsetWrite p c tag v s, ?_⟩
    rw [pennantOf_writePbset]
    refine ⟨fun hopen => ?_, fun hphase => ?_⟩
    · rw [if_pos hopen]
      exact ⟨rfl, rfl⟩
    · rw [if_neg hphase]
      exact ⟨rfl, rfl⟩

end Sys2Proof.Machine

/-! Fences, cache control and spwait of the C stream, and the statement about them (R59, R101, R104, R181, R184). -/

namespace Sys2Proof.Machine

open Sys2Proof.Config

/-! What a ready instruction of the C stream answers. -/

theorem cPut_began (s : State) (n j : Nat) (q : Queue) (k : OpKind) (d : Nat) :
    cPut (began s) n j q k d =
      .ok (moveC (setDue (enqueue (began s) (.stream n j .c) q k []) (.stream n j .c) d (jobOf s n j).seq) n j) .seq := by
  rw [← began_job_seq]
  rfl

section
variable {s : State} {n j : Nat} (ht : s.turn = .stream n j .c)
include ht

theorem reg_began_c (a : Reg) : reg (began s) (cAgent n j) a = reg s s.turn a := by
  rw [← reg_began s a, ht]
  rfl

section
variable {mgmt : Bool} {reads : List Reg} (hr : Ready 1 { streams := [.c], mgmt := mgmt, reads := reads } s)
  {body : State → Nat → Nat → Job → Res} {alone : State → Res} {t : State}
include hr

theorem cIssue_completes (hb : body (began s) n j (jobOf (began s) n j) = .ok t .seq) : cIssue mgmt reads s body alone = completes s 1 t := by
  rw [cIssue, issue_ready hr, ht]
  simp only [hb, completes, ht]

theorem cIssue_waits {r : Run} (hb : body (began s) n j (jobOf (began s) n j) = .wait t r) : cIssue mgmt reads s body alone = waitsIn s t r := by
  rw [cIssue, issue_ready hr, ht]
  simp only [hb]

end

/-- An operation that enters a queue without a check completes its instruction (R103). -/
theorem cIssue_queues {mgmt : Bool} {reads : List Reg} (hr : Ready 1 { streams := [.c], mgmt := mgmt, reads := reads } s) {body : State → Nat → Nat → Job → Res} {alone : State → Res}
    {q : Queue} {k : OpKind} {d : Nat} (hb : body (began s) n j (jobOf (began s) n j) = cPut (began s) n j q k d) : cIssue mgmt reads s body alone = queuesC s n j q k d :=
  cIssue_completes ht hr (hb.trans (cPut_began s n j q k d))

end

/-! Fences (R104, R184). -/

/-- The fence that the C stream is in: the one in progress, or one that begins now and covers what stands in the queues of its mask. -/
def fenceOf (b : Job) (mask : BitVec 7) : Fence := b.fence.getD { mask := mask, limit := b.seq }

/-- The state in which a fence is over; where it is an acquire, the L1 has lost the lines that are not owned. -/
def unfenced (s : State) (n j : Nat) (acq : Bool) : State :=
  let t := modJob (began s) n j (fun b => { b with fence := none })
  moveC (if acq then acquire t n else t) n j

section
variable {s : State} {n j : Nat} {mgmt acq : Bool} {mask : BitVec 7} (ht : s.turn = .stream n j .c) (hr : Ready 1 { streams := [.c], mgmt := mgmt } s)
include ht hr

theorem fenceOp_completes (hd : mask = 0#7 ∨ fenceDone (jobOf s n j) (fenceOf (jobOf s n j) mask) = true) :
    fenceOp mgmt acq mask s = completes s 1 (unfenced s n j acq) := by
  refine cIssue_completes ht hr ?_
  have hopen : (mask = 0#7 || fenceDone (jobOf (began s) n j) (fenceOf (jobOf (began s) n j) mask)) = true := by
    simpa [fenceOf] using hd
  exact if_pos hopen

theorem fenceOp_waits (hm : mask ≠ 0#7) (hd : fenceDone (jobOf s n j) (fenceOf (jobOf s n j) mask) = false) :
    fenceOp mgmt acq mask s = waitsIn s (modJob (began s) n j (fun b => { b with fence := some (fenceOf (jobOf s n j) mask) })) .waiting := by
  refine cIssue_waits ht hr ?_
  have hfence : fenceOf (jobOf (began s) n j) mask = fenceOf (jobOf s n j) mask := by simp [fenceOf]
  have hshut : ¬ (mask = 0#7 || fenceDone (jobOf (began s) n j) (fenceOf (jobOf (began s) n j) mask)) = true := by
    simp [hfence, hm, hd]
  rw [← hfence]
  exact if_neg hshut

end

/-! Cache control (R101, R181). -/

/-- The state that the walk of a pref leaves: an error that strikes the walk stops it (R17). -/
def prefWalked (s : State) (n j : Nat) (va : Word) : State :=
  let w := (jobVia s n j .lq .c).who
  if walkStruck s w va then s else walked s w va

/-- An error strikes the walk of a pref, or the read of a line that the L1 has not got (R17). -/
def PrefFails (s : State) (n j : Nat) (va : Word) (pa : Nat) : Prop :=
  walkStruck s (jobVia s n j .lq .c).who va = true ∨ (findLine (coreOf s n) (lineAt pa) = none ∧ transitError s.tick = true)

/-- The condition under which pref reads a line. -/
theorem prefReads_iff {s : State} {n j : Nat} {va : Word} {pa : Nat} :
    (region pa == .hbm && !walkStruck s (jobVia s n j .lq .c).who va && ((findLine (coreOf s n) (lineAt pa)).isSome || !transitError s.tick)) = true
      ↔ region pa = .hbm ∧ ¬ PrefFails s n j va pa := by
  unfold PrefFails
  simp [imp_iff_not_or, Option.isSome_iff_ne_none, and_assoc]

section
variable {s : State} {n j : Nat} {a b : Reg} (ht : s.turn = .stream n j .c)
include ht

theorem execLsmark_completes (hr : Ready 1 { streams := [.c] } s) :
    execLsmark s = completes s 1 (moveC (modJob (enqueue (began s) (.stream n j .c) .lq .mark []) n j
      (fun b => { b with sq := b.sq ++ (b.lq.filter (fun o => o.seq + 1 == b.seq)) })) n j) :=
  cIssue_completes ht hr rfl

theorem execL1inva_queues (hr : Ready 1 { streams := [.c] } s) : execL1inva s = queuesC s n j .lq .l1inva 0 :=
  cIssue_queues ht hr rfl

theorem execL1inv_queues (hr : Ready 1 { streams := [.c], reads := [a, b] } s) :
    execL1inv a b s = queuesC s n j .lq
      (if 0x10000 < (reg s s.turn b).toNat then .l1inva else .l1inv (reg s s.turn a).toNat ((reg s s.turn a).toNat + (reg s s.turn b).toNat)) 0 := by
  refine cIssue_queues ht hr ?_
  simp only [reg_began_c ht]

section
variable (hr : Ready 1 { streams := [.c], reads := [a] } s)
include hr

/-- pref brings a readable line of HBM into the L1. -/
theorem execPref_fills {pa key : Nat} {v : State} {l : List Byte}
    (hx : translate (began s) (jobOf s n j).part (jobOf s n j).ctx (some n) (reg s s.turn a) .read (!(jobOf s n j).sv) = .ok pa key)
    (hpa : region pa = .hbm) (hok : ¬ PrefFails (began s) n j (reg s s.turn a) pa)
    (hread : cachedRead (prefWalked (began s) n j (reg s s.turn a)) (jobOf s n j).part n pa 1 key = (v, .ok l)) : execPref a s = completes s 1 v := by
  refine cIssue_completes ht hr ?_
  unfold prefWalked at hread
  simp only [reg_began_c ht, began_job_part, began_job_ctx, began_job_sv, hx, hread]
  exact if_pos (prefReads_iff.2 ⟨hpa, hok⟩)

/-- pref of an address that it may not read, or of no line of HBM, or struck by an error, leaves what its walk fills. -/
theorem execPref_walks
    (h : ∀ pa key, translate (began s) (jobOf s n j).part (jobOf s n j).ctx (some n) (reg s s.turn a) .read (!(jobOf s n j).sv) = .ok pa key →
      region pa ≠ .hbm ∨ PrefFails (began s) n j (reg s s.turn a) pa) : execPref a s = completes s 1 (prefWalked (began s) n j (reg s s.turn a)) := by
  refine cIssue_completes ht hr ?_
  simp only [reg_began_c ht, began_job_part, began_job_ctx, began_job_sv]
  cases hx : translate (began s) (jobOf s n j).part (jobOf s n j).ctx (some n) (reg s s.turn a) .read (!(jobOf s n j).sv) with
  | ok pa key =>
    refine if_neg (mt prefReads_iff.1 ?_)
    rintro ⟨hpa, hok⟩
    exact (h pa key hx).elim (· hpa) hok
  | miss | wpw | refuse | violation | ue => rfl

end

end

/-! spwait (R59, R185). -/

/-- A spawn or an acquire stands in the SQ: a spwait waits behind it (R59, R108). -/
def behindSpawn (b : Job) : Bool := b.sq.any (fun o => isAcq o.kind || (match o.kind with | .spawn _ _ _ => true | _ => false))

/-- The condition under which spwait waits, in terms of the state before it. -/
theorem spwaitHeld_iff {s : State} {n j : Nat} {v : Word} :
    (behindSpawn (jobOf (began s) n j) || !ticketDone (began s) (jobOf (began s) n j).part v) = true
      ↔ behindSpawn (jobOf s n j) = true ∨ ticketDone (began s) (jobOf s n j).part v = false := by
  simp [behindSpawn]

section
variable {s : State} {n j : Nat} {d a : Reg} (ht : s.turn = .stream n j .c) (hr : Ready 1 { streams := [.c], mgmt := false, reads := [a] } s)
include ht hr

theorem execSpwait_bad (hbad : badTicket (reg s s.turn a) = true) : execSpwait d a s = completes s 1 (setReg (began s) s.turn d (BitVec.ofInt 64 (-1))) := by
  refine cIssue_completes ht hr ?_
  simp only [reg_began_c ht, hbad, if_true]
  rw [ht]
  rfl

theorem execSpwait_completes (hgood : badTicket (reg s s.turn a) = false) (hfront : behindSpawn (jobOf s n j) = false) (hdone : ticketDone (began s) (jobOf s n j).part (reg s s.turn a) = true) :
    execSpwait d a s = completes s 1 (setReg (acquire (began s) n) s.turn d 0#64) := by
  refine cIssue_completes ht hr ?_
  simp only [reg_began_c ht, hgood, Bool.false_eq_true, if_false]
  rw [ht] at hdone ⊢
  exact if_neg (mt spwaitHeld_iff.1 (by simp [hfront, hdone]))

theorem execSpwait_waits (hgood : badTicket (reg s s.turn a) = false) (hheld : behindSpawn (jobOf s n j) = true ∨ ticketDone (began s) (jobOf s n j).part (reg s s.turn a) = false) :
    execSpwait d a s = waitsIn s (began s) .waiting := by
  refine cIssue_waits ht hr ?_
  simp only [reg_began_c ht, hgood, Bool.false_eq_true, if_false]
  exact if_pos (spwaitHeld_iff.2 hheld)

end

/-! The statement. -/

/-- Settles O15: each instruction is ready on the C stream, so its body's answer in the begun state decides between going on and waiting. -/
theorem fenceAndCacheResults : Obligations.FenceAndCacheResults := by
  unfold Obligations.FenceAndCacheResults
  intro s n j d a b mask ht
  dsimp only
  refine ⟨fun hr => ⟨fun hd => ?fence, fun hd => ?fenceWaits, ?lsmark, ?l1inva⟩, fun hr => ⟨fun hd => ?qfence, fun hm hd => ?qfenceWaits⟩,
    fun hr => ⟨fun hlen => ?l1inv, fun hlen => ?l1invLong⟩, fun hr => ⟨fun pa key v l hx hpa hok hread => ?pref, fun h => ?prefWalk⟩,
    fun hr => ⟨fun hbad => ?bad, fun hgood hfront hdone => ?spwait, fun hgood hheld => ?spwaitWaits⟩⟩
  case fence => exact fenceOp_completes ht hr (.inr hd)
  case fenceWaits => exact fenceOp_waits ht hr (by decide) hd
  case lsmark => rw [exec_lsmark, execLsmark_completes ht hr, ht]
  case l1inva => exact execL1inva_queues ht hr
  case qfence => exact fenceOp_completes ht hr hd
  case qfenceWaits => exact fenceOp_waits ht hr hm hd
  case l1inv => rw [exec_l1inv, execL1inv_queues ht hr, if_neg (Nat.not_lt.2 hlen)]
  case l1invLong => rw [exec_l1inv, execL1inv_queues ht hr, if_pos hlen]
  case pref => exact execPref_fills ht hr hx hpa hok hread
  case prefWalk => exact execPref_walks ht hr h
  case bad => exact execSpwait_bad ht hr hbad
  case spwait => exact execSpwait_completes ht hr hgood hfront hdone
  case spwaitWaits => exact execSpwait_waits ht hr hgood hheld

end Sys2Proof.Machine

/-! Loads, stores and vault words of the C stream as they issue, and the statements about them (R75, R90, R180, R189, R295, R333). -/

namespace Sys2Proof.Machine

open Sys2Proof.Config

/-! How an instruction of the C stream ends that accesses memory. -/

/-- An instruction of the C stream issues on the management core or on a C stream. -/
theorem turn_of_ready_c {s : State} {words : Nat} {reads : List Reg} (hr : Ready words { streams := [.c], reads := reads } s) :
    s.turn = .mgmt ∨ ∃ n j, s.turn = .stream n j .c := by
  obtain ⟨-, hcheck, -⟩ := hr
  cases ht : s.turn with
  | mgmt => exact .inl rfl
  | stream n j t =>
    cases t with
    | c => exact .inr ⟨n, j, rfl⟩
    | a | v | m | x => simp [ht, issueCheck] at hcheck

section
variable {s : State} {mgmt : Bool} {reads : List Reg} (hr : Ready 1 { streams := [.c], mgmt := mgmt, reads := reads } s)
  {body : State → Nat → Nat → Job → Res} {alone : State → Res}
include hr

section
variable {n j : Nat} (ht : s.turn = .stream n j .c)
include ht

theorem cIssue_traps {t : Trap} (hb : body (began s) n j (jobOf (began s) n j) = .trap t) : cIssue mgmt reads s body alone = trapsWith s t := by
  rw [cIssue, issue_ready hr, ht]
  simp only [hb]

theorem cIssue_trapsIn {w : State} {t : Trap} (hb : body (began s) n j (jobOf (began s) n j) = .trapIn w t) :
    cIssue mgmt reads s body alone = .next (takeTrap w s.turn t) := by
  rw [cIssue, issue_ready hr, ht]
  simp only [hb]

theorem cIssue_queuesIn {u : State} {q : Queue} {k : OpKind} {d : Nat} (hb : body (began s) n j (jobOf (began s) n j) = cPut u n j q k d) :
    cIssue mgmt reads s body alone = queuesIn s u n j q k d := cIssue_completes ht hr hb

theorem cIssue_parks {w : State} {q : Queue} {k : OpKind} {d i : Nat} (hb : body (began s) n j (jobOf (began s) n j) = cPutParked w n j q k d i) :
    cIssue mgmt reads s body alone = parksC s w n j q k d i := cIssue_completes ht hr hb

end

section
variable (ht : s.turn = .mgmt)
include ht

theorem cIssue_mgmt_completes {t : State} (hb : alone (began s) = .ok t .seq) : cIssue mgmt reads s body alone = completes s 1 t := by
  rw [cIssue, issue_ready hr, ht]
  simp only [hb, completes, ht]

theorem cIssue_mgmt_traps {t : Trap} (hb : alone (began s) = .trap t) : cIssue mgmt reads s body alone = trapsWith s t := by
  rw [cIssue, issue_ready hr, ht]
  simp only [hb]

end

end

/-! Addresses and values (R7, R180). -/

/-- The address of a load or store: s[a] + sext(imm11). -/
def accessVa (s : State) (a : Reg) (imm : BitVec 11) : Word := reg s s.turn a + BitVec.ofInt 64 imm.toInt

theorem reg_began_mgmt {s : State} (ht : s.turn = .mgmt) (a : Reg) : reg (began s) .mgmt a = reg s s.turn a := by
  rw [← reg_began s a, ht]

theorem memAddr_c {s : State} {n j : Nat} (ht : s.turn = .stream n j .c) (a : Reg) (imm : BitVec 11) : memAddr (began s) (cAgent n j) a imm = accessVa s a imm := by
  rw [memAddr, reg_began_c ht]
  rfl

theorem memAddr_mgmt {s : State} (ht : s.turn = .mgmt) (a : Reg) (imm : BitVec 11) : memAddr (began s) .mgmt a imm = accessVa s a imm := by
  rw [memAddr, reg_began_mgmt ht]
  rfl

theorem regPlace_began_c {s : State} {n j : Nat} (ht : s.turn = .stream n j .c) (a : Reg) : regPlace (began s) (cAgent n j) a = regPlace s s.turn a := by
  rw [← regPlace_began s a, ht]
  rfl

theorem leNat_lt (l : List Byte) : leNat l < 2 ^ (8 * l.length) := by
  induction l with
  | nil => exact Nat.one_pos
  | cons b r ih =>
    have hb : b.toNat < 256 := b.isLt
    rw [leNat, List.length_cons, show 8 * (r.length + 1) = 8 * r.length + 8 by ring, Nat.pow_add]
    omega

/-- The value of at most 8 bytes, extended from their number of bits. -/
theorem loaded_eq (signed : Bool) {l : List Byte} (hl : l.length ≤ 8) :
    loaded signed l = if signed then BitVec.ofInt 64 (BitVec.ofNat (8 * l.length) (leNat l)).toInt else BitVec.ofNat 64 (leNat l) := by
  have hfit : leNat l < 2 ^ 64 := (leNat_lt l).trans_le (Nat.pow_le_pow_right (by decide) (by omega))
  unfold loaded sextN w64
  rw [BitVec.toNat_ofNat, Nat.mod_eq_of_lt hfit]
  rfl

/-! How many bytes a read gives. -/

theorem length_overlayStore (va : Word) (pa : Nat) (l : List Byte) (q : Op) : (overlayStore va pa l q).length = l.length := by
  unfold overlayStore
  split <;> simp

theorem length_foldl_overlayStore (va : Word) (pa : Nat) (l : List Byte) (ops : List Op) : (ops.foldl (overlayStore va pa) l).length = l.length :=
  foldl_keeps List.length (length_overlayStore va pa) l ops

theorem length_xorAt (l : List Byte) (e : Wrong) : (xorAt l e).length = l.length :=
  foldl_keeps List.length (fun _ _ => List.length_set) l e

theorem length_xorFrom (a : Nat) (l : List Byte) (e : Wrong) : (xorFrom a l e).length = l.length := by
  unfold xorFrom
  split
  · rfl
  · exact length_xorAt ..

theorem storeRead_length_le {m : Memory} {a len k : Nat} {key l : List Byte} (h : storeRead m a len key = some (l, k)) : l.length ≤ len := by
  unfold storeRead at h
  split at h
  · obtain ⟨x, -, hx⟩ := Option.map_eq_some_iff.1 h
    cases hx
    rw [length_xorFrom, length_memReadN]
  · split at h <;> cases h
    · exact List.length_take_le ..
    · rw [length_memReadN]

theorem mgmtRead_length_le {s : State} {a len : Nat} {l : List Byte} (h : mgmtRead s a len = .ok l) : l.length ≤ len := by
  unfold mgmtRead at h
  split at h
  · cases h
    rw [length_memReadN]
  · split at h
    · rename_i hread
      cases h
      exact storeRead_length_le hread
    · cases h
  · cases h
    simp
  · cases h

/-- A hit gives at most the bytes asked for. -/
theorem cachedRead_hit_length_le {s w : State} {p n pa len key : Nat} {l : List Byte} (hline : (findLine (coreOf s n) (lineAt pa)).isSome = true)
    (h : cachedRead s p n pa len key = (w, .ok l)) : l.length ≤ len := by
  obtain ⟨x, hx⟩ := Option.isSome_iff_exists.1 hline
  unfold cachedRead at h
  dsimp only at h
  rw [hx] at h
  cases h
  exact List.length_take_le ..

/-! Loads (R180). -/

section
variable {s : State} {k : Nat} {signed : Bool} {d a : Reg} {imm : BitVec 11} (hr : Ready 1 { streams := [.c], reads := [a] } s)
include hr

theorem loadOp_misaligned (h : (accessVa s a imm).toNat % k ≠ 0) :
    loadOp k signed d a imm s = trapsWith s { cause := cAlign, faddr := accessVa s a imm } := by
  rcases turn_of_ready_c hr with ht | ⟨n, j, ht⟩
  · refine cIssue_mgmt_traps hr ht ?_
    simp only [memAddr_mgmt ht]
    exact if_pos h
  · refine cIssue_traps hr ht ?_
    simp only [memAddr_c ht]
    exact if_pos h

section
variable {n j : Nat} (ht : s.turn = .stream n j .c) (h : (accessVa s a imm).toNat % k = 0)
include ht h

theorem loadOp_queues {v : State} {pa key : Nat} (hat : cAddress (began s) n j .lq (accessVa s a imm) .read = .at v pa key)
    (hmiss : hitsNow v n j (accessVa s a imm) pa k = false) :
    loadOp k signed d a imm s = queuesIn s v n j .lq (.load (accessVa s a imm) pa key k signed (regPlace s s.turn d)) (regPlace s s.turn d) := by
  refine cIssue_queuesIn hr ht ?_
  simp only [memAddr_c ht, regPlace_began_c ht, h, hat, hmiss]
  rfl

theorem loadOp_hits {v w : State} {pa key : Nat} {l : List Byte} (hat : cAddress (began s) n j .lq (accessVa s a imm) .read = .at v pa key)
    (hhit : hitsNow v n j (accessVa s a imm) pa k = true) (hread : cachedRead v (jobOf s n j).part n pa k key = (w, .ok l)) :
    loadOp k signed d a imm s = completes s 1 (writePlace w s.turn (regPlace s s.turn d)
      (loaded signed (((jobOf s n j).sq.filter (fun o => o.seq < (jobOf s n j).seq)).foldl (overlayStore (accessVa s a imm) pa) l))) := by
  refine cIssue_completes ht hr ?_
  simp only [memAddr_c ht, regPlace_began_c ht, h, hat, hhit, began_job_part, began_job_sq, began_job_seq, hread]
  rw [ht]
  rfl

theorem loadOp_parks {w : State} {i : Nat} (hparks : cAddress (began s) n j .lq (accessVa s a imm) .read = .parks w i) :
    loadOp k signed d a imm s = parksC s w n j .lq (.load (accessVa s a imm) 0 0 k signed (regPlace s s.turn d)) (regPlace s s.turn d) i := by
  refine cIssue_parks hr ht ?_
  simp only [memAddr_c ht, regPlace_began_c ht, h, hparks]
  rfl

theorem loadOp_traps {w : State} {t : Trap} (htrap : cAddress (began s) n j .lq (accessVa s a imm) .read = .trap w t) :
    loadOp k signed d a imm s = .next (takeTrap w s.turn t) := by
  refine cIssue_trapsIn hr ht ?_
  simp only [memAddr_c ht, h, htrap]
  rfl

end

section
variable (ht : s.turn = .mgmt) (h : (accessVa s a imm).toNat % k = 0)
include ht h

theorem loadOp_mgmt {l : List Byte} (hread : mgmtRead (began s) (accessVa s a imm).toNat k = .ok l) :
    loadOp k signed d a imm s = completes s 1 (setReg (began s) s.turn d (loaded signed l)) := by
  refine cIssue_mgmt_completes hr ht ?_
  simp only [memAddr_mgmt ht, h, hread]
  rw [ht]
  rfl

theorem loadOp_mgmt_fails {c : Byte} (hread : mgmtRead (began s) (accessVa s a imm).toNat k = .error c) :
    loadOp k signed d a imm s = trapsWith s { cause := c, faddr := accessVa s a imm } := by
  refine cIssue_mgmt_traps hr ht ?_
  simp only [memAddr_mgmt ht, h, hread]
  rfl

end

end

/-- Each form of load is the load of its width and extension. -/
theorem exec_loadForms {d a : Reg} {imm : BitVec 11} {e : Instr × Nat × Bool} (he : e ∈ loadForms d a imm) (s : State) :
    exec e.1 s = loadOp e.2.1 e.2.2 d a imm s ∧ e.2.1 ≤ 8 := by
  simp only [loadForms, List.mem_cons, List.not_mem_nil, or_false] at he
  rcases he with rfl | rfl | rfl | rfl | rfl | rfl | rfl <;> exact ⟨rfl, by simp⟩

/-! Stores (R180). -/

section
variable {s : State} {k : Nat} {d a : Reg} {imm : BitVec 11} (hr : Ready 1 { streams := [.c], reads := [d, a] } s)
include hr

theorem storeOp_misaligned (h : (accessVa s a imm).toNat % k ≠ 0) :
    storeOp k d a imm s = trapsWith s { cause := cAlign, faddr := accessVa s a imm } := by
  rcases turn_of_ready_c hr with ht | ⟨n, j, ht⟩
  · refine cIssue_mgmt_traps hr ht ?_
    simp only [memAddr_mgmt ht]
    exact if_pos h
  · refine cIssue_traps hr ht ?_
    simp only [memAddr_c ht]
    exact if_pos h

section
variable {n j : Nat} (ht : s.turn = .stream n j .c) (h : (accessVa s a imm).toNat % k = 0)
include ht h

theorem storeOp_queues {u : State} {pa key : Nat} (hat : cAddress (began s) n j .sq (accessVa s a imm) .write = .at u pa key) :
    storeOp k d a imm s = queuesIn s u n j .sq (.store (accessVa s a imm) pa key k ((reg s s.turn d).toNat % 2 ^ (8 * k))) 0 := by
  refine cIssue_queuesIn hr ht ?_
  simp only [memAddr_c ht, reg_began_c ht, cAccess, h, hat]
  rfl

theorem storeOp_parks {w : State} {i : Nat} (hparks : cAddress (began s) n j .sq (accessVa s a imm) .write = .parks w i) :
    storeOp k d a imm s = parksC s w n j .sq (.store (accessVa s a imm) 0 0 k ((reg s s.turn d).toNat % 2 ^ (8 * k))) 0 i := by
  refine cIssue_parks hr ht ?_
  simp only [memAddr_c ht, reg_began_c ht, cAccess, h, hparks]
  rfl

theorem storeOp_traps {w : State} {t : Trap} (htrap : cAddress (began s) n j .sq (accessVa s a imm) .write = .trap w t) :
    storeOp k d a imm s = .next (takeTrap w s.turn t) := by
  refine cIssue_trapsIn hr ht ?_
  simp only [memAddr_c ht, cAccess, h, htrap]
  rfl

end

section
variable (ht : s.turn = .mgmt) (h : (accessVa s a imm).toNat % k = 0)
include ht h

theorem storeOp_mgmt {t : State} (hwrite : mgmtWrite (began s) (accessVa s a imm).toNat (leBytes k (reg s s.turn d).toNat) = .ok t) :
    storeOp k d a imm s = completes s 1 t := by
  refine cIssue_mgmt_completes hr ht ?_
  simp only [memAddr_mgmt ht, reg_began_mgmt ht, h, hwrite]
  rfl

theorem storeOp_mgmt_fails {c : Byte} (hwrite : mgmtWrite (began s) (accessVa s a imm).toNat (leBytes k (reg s s.turn d).toNat) = .error c) :
    storeOp k d a imm s = trapsWith s { cause := c, faddr := accessVa s a imm } := by
  refine cIssue_mgmt_traps hr ht ?_
  simp only [memAddr_mgmt ht, reg_began_mgmt ht, h, hwrite]
  rfl

end

end

/-- Each form of store is the store of its width. -/
theorem exec_storeForms {d a : Reg} {imm : BitVec 11} {e : Instr × Nat} (he : e ∈ [(Instr.stb d a imm, 1), (Instr.sth d a imm, 2), (Instr.stw d a imm, 4), (Instr.std d a imm, 8)]) (s : State) :
    exec e.1 s = storeOp e.2 d a imm s := by
  simp only [List.mem_cons, List.not_mem_nil, or_false] at he
  rcases he with rfl | rfl | rfl | rfl <;> rfl

/-- Settles O12: each form by the outcomes of `loadOp` and `storeOp`, of which alignment, then the translation at issue, then the L1 decide. -/
theorem loadAndStoreResults : Obligations.LoadAndStoreResults := by
  unfold Obligations.LoadAndStoreResults
  refine ⟨?load, ?store⟩
  case load =>
    intro s n j d a imm e he hr
    dsimp only
    obtain ⟨hexec, hk⟩ := exec_loadForms he s
    rw [hexec]
    refine ⟨loadOp_misaligned hr, fun ht h => ⟨fun v pa key hat => ⟨loadOp_queues hr ht h hat, fun w l hhit hread => ?hits⟩, fun w i => loadOp_parks hr ht h, fun w t => loadOp_traps hr ht h⟩,
      fun ht h => ⟨fun l hread => ?mgmt, fun c => loadOp_mgmt_fails hr ht h⟩⟩
    case hits =>
      have hline : (findLine (coreOf v n) (lineAt pa)).isSome = true := by
        simp only [hitsNow, Bool.and_eq_true] at hhit
        exact hhit.1.1.2
      have hlen : (((jobOf s n j).sq.filter (fun o => o.seq < (jobOf s n j).seq)).foldl (overlayStore (accessVa s a imm) pa) l).length ≤ 8 := by
        rw [length_foldl_overlayStore]
        exact (cachedRead_hit_length_le hline hread).trans hk
      rw [loadOp_hits hr ht h hat hhit hread, loaded_eq _ hlen]
      rfl
    case mgmt =>
      rw [loadOp_mgmt hr ht h hread, loaded_eq _ ((mgmtRead_length_le hread).trans hk)]
  case store =>
    intro s n j d a imm e he hr
    dsimp only
    rw [exec_storeForms he]
    exact ⟨storeOp_misaligned hr, fun ht h => ⟨fun u pa key => storeOp_queues hr ht h, fun w i => storeOp_parks hr ht h, fun w t => storeOp_traps hr ht h⟩,
      fun ht h => ⟨fun t => storeOp_mgmt hr ht h, fun c => storeOp_mgmt_fails hr ht h⟩⟩

/-! Vault words (R75, R189). -/

/-- The operands of a vault operation, of the values b and d of its registers: the halves of b, and for cas the comparand d before the new word b. -/
def vaultOperands (op : VaultOp) (b d : Word) : BitVec 32 × BitVec 32 :=
  (if op == .cas then d.setWidth 32 else b.setWidth 32, if op == .cas then b.setWidth 32 else (b >>> 32).setWidth 32)

/-- What a vault instruction puts into the SQ for an access of physical address pa. -/
def vaultWordKind (s : State) (op : VaultOp) (d a b : Reg) (pa : Nat) : OpKind :=
  let x := vaultOperands op (reg s s.turn b) (reg s s.turn d)
  .vaultWord op (reg s s.turn a) pa (regPlace s s.turn d) x.1 x.2

section
variable {s : State} {n j : Nat} {op : VaultOp} {d a b : Reg} (ht : s.turn = .stream n j .c)
  (hr : Ready 1 { streams := [.c], mgmt := false, reads := if op == .cas then [d, a, b] else [a, b] } s)
include ht hr

theorem vaultOp_misaligned (h : (reg s s.turn a).toNat % 4 ≠ 0) : vaultOp op d a b s = trapsWith s { cause := cAlign, faddr := reg s s.turn a } := by
  refine cIssue_traps hr ht ?_
  simp only [reg_began_c ht]
  exact if_pos h

section
variable (h : (reg s s.turn a).toNat % 4 = 0)
include h

theorem vaultOp_queues {u : State} {pa key m off : Nat} (hat : cAddress (began s) n j .sq (reg s s.turn a) .write = .at u pa key) (hpa : region pa = .vault m off) :
    vaultOp op d a b s = queuesIn s u n j .sq (vaultWordKind s op d a b pa) (regPlace s s.turn d) := by
  refine cIssue_queuesIn hr ht ?_
  simp only [reg_began_c ht, regPlace_began_c ht, h, hat, hpa]
  rfl

theorem vaultOp_outside {u : State} {pa key : Nat} (hat : cAddress (began s) n j .sq (reg s s.turn a) .write = .at u pa key) (hpa : ∀ m off, region pa ≠ .vault m off) :
    vaultOp op d a b s = .next (takeTrap u s.turn { cause := cXlatPerm, faddr := reg s s.turn a, freeze := true }) := by
  refine cIssue_trapsIn hr ht ?_
  simp only [reg_began_c ht, h, hat]
  cases hreg : region pa with
  | vault m off => exact absurd hreg (hpa m off)
  | hbm | record | core | pctl | cap | host | reserved => rfl

theorem vaultOp_parks {w : State} {i : Nat} (hparks : cAddress (began s) n j .sq (reg s s.turn a) .write = .parks w i) :
    vaultOp op d a b s = parksC s w n j .sq (vaultWordKind s op d a b 0) (regPlace s s.turn d) i := by
  refine cIssue_parks hr ht ?_
  simp only [reg_began_c ht, regPlace_began_c ht, h, hparks]
  rfl

theorem vaultOp_traps {w : State} {t : Trap} (htrap : cAddress (began s) n j .sq (reg s s.turn a) .write = .trap w t) : vaultOp op d a b s = .next (takeTrap w s.turn t) := by
  refine cIssue_trapsIn hr ht ?_
  simp only [reg_began_c ht, h, htrap]
  rfl

end

end

/-- Settles O16: alignment, then the translation at issue, then the region of the address decide. -/
theorem vaultWordResults : Obligations.VaultWordResults := by
  unfold Obligations.VaultWordResults
  intro s n j d a b ht
  dsimp only
  intro e he hr
  suffices hop : ∃ op, exec e.1 s = vaultOp op d a b s ∧ e.2.1 = op ∧ (e.2.2.1, e.2.2.2) = vaultOperands op (reg s s.turn b) (reg s s.turn d) by
    obtain ⟨op, hexec, rfl, hpair⟩ := hop
    obtain ⟨hx, hy⟩ := Prod.mk.inj hpair
    have hready : Ready 1 { streams := [.c], mgmt := false, reads := if e.2.1 == .cas then [d, a, b] else [a, b] } s := by simpa only [beq_iff_eq] using hr
    rw [hexec, hx, hy]
    exact ⟨vaultOp_misaligned ht hready,
      fun u pa key h hat => ⟨fun m off => vaultOp_queues ht hready h hat, vaultOp_outside ht hready h hat⟩,
      fun w i h => vaultOp_parks ht hready h, fun w t h => vaultOp_traps ht hready h⟩
  simp only [List.mem_cons, List.not_mem_nil, or_false] at he
  rcases he with rfl | rfl | rfl | rfl | rfl <;> exact ⟨_, rfl, rfl, rfl⟩

end Sys2Proof.Machine

/-! Reads and writes of plain HBM, where no line is owned, nothing is flawed and the key is the one the sectors stand under (R78, R91, R92, R99), and of the scratchpad in a core window (R70). -/

namespace Sys2Proof.Machine

open Sys2Proof.Config

/-! Bytes of memory. -/

/-- A fold that each element leaves at its start stays there. -/
theorem foldl_stays {α β : Type} {f : β → α → β} {z : β} {l : List α} (h : ∀ x ∈ l, f z x = z) : l.foldl f z = z := by
  induction l with
  | nil => rfl
  | cons x r ih =>
    obtain ⟨hx, hr⟩ := List.forall_mem_cons.1 h
    rw [List.foldl_cons, hx, ih hr]

theorem memReadN_take (m : Memory) (a : Nat) {k len : Nat} (h : k ≤ len) : (memReadN m a len).take k = memReadN m a k := by
  induction k generalizing a len with
  | zero => rfl
  | succ k ih =>
    obtain ⟨len, rfl⟩ : ∃ i, len = i + 1 := ⟨len - 1, by omega⟩
    rw [memReadN, memReadN, List.take_succ_cons, ih _ (by omega)]

theorem memReadN_drop (m : Memory) (a len i : Nat) : (memReadN m a len).drop i = memReadN m (a + i) (len - i) := by
  induction i generalizing a len with
  | zero => rfl
  | succ i ih =>
    cases len with
    | zero => simp [memReadN]
    | succ len => rw [memReadN, List.drop_succ_cons, ih, show a + 1 + i = a + (i + 1) by omega, show len + 1 - (i + 1) = len - i by omega]

/-- A word within a line that has been read. -/
theorem memReadN_within (m : Memory) {a i k len : Nat} (h : i + k ≤ len) : ((memReadN m a len).drop i).take k = memReadN m (a + i) k := by
  rw [memReadN_drop, memReadN_take _ _ (by omega)]

/-! Where nothing is owned (R78). -/

section
variable {s : State}

theorem recallLine_unowned_by (h : unowned s) (me : Option Nat) (pa len : Nat) : recallLine s me pa len = s :=
  foldl_stays fun e he => if_pos (by simp [h e he])

theorem coreOf_mem {n : Nat} (h : coreOf s n ≠ {}) : (n, coreOf s n) ∈ s.cores := by
  unfold coreOf tget at *
  generalize s.cores = t at *
  induction t with
  | nil => exact absurd rfl h
  | cons e r ih =>
    obtain ⟨k, c⟩ := e
    by_cases hk : k = n
    · simp [tfind, hk]
    · simp only [tfind, hk, if_false] at h ⊢
      exact List.mem_cons_of_mem _ (ih h)

theorem owned_unowned (h : unowned s) (n : Nat) : (coreOf s n).owned = [] := by
  by_cases hc : coreOf s n = {}
  · rw [hc]
  · exact h _ (coreOf_mem hc)

theorem lineOwned_unowned (h : unowned s) (n l : Nat) : lineOwned (coreOf s n) l = false := by
  rw [lineOwned, owned_unowned h]
  rfl

end

/-! Plain storage (R91, R92). -/

theorem region_hbm {pa : Nat} (h : region pa = .hbm) : pa < hbmEnd := by
  simp only [region, ite_eq_iff, reduceCtorEq, and_false, or_false, and_true] at h
  exact h

theorem region_of_lt {pa : Nat} (h : pa < hbmEnd) : region pa = .hbm := if_pos h

theorem checkSectors_plain {m : Memory} {a len : Nat} {key : List Byte} (hflaws : m.flaws = []) (hkey : ∀ x ∈ sectorsOf a len, keyAt m x = key) :
    checkSectors m a len key = some (0, []) :=
  foldl_stays fun x hx => by simp [readSector_plain hflaws (hkey x hx)]

theorem storeRead_plain {m : Memory} {a len : Nat} {key : List Byte} (hr : region a = .hbm) (hflaws : m.flaws = []) (hkey : ∀ x ∈ sectorsOf a len, keyAt m x = key) :
    storeRead m a len key = some (memReadN m a len, 0) := by
  have hcoded : isCoded a = true := by
    have := region_hbm hr
    simp only [isCoded, Bool.or_eq_true, decide_eq_true_eq]
    exact .inl (by unfold hbmEnd at this; unfold recordBase recordSize; omega)
  rw [storeRead, if_pos hcoded, checkSectors_plain hflaws hkey]
  rfl

theorem countCorrected_zero (s : State) (p : Nat) : countCorrected s p 0 = s := if_pos rfl

theorem countOwner_zero (s : State) (pa : Nat) : countOwner s pa 0 = s := by
  unfold countOwner
  split
  · exact countCorrected_zero ..
  · rfl

theorem countCorrected_plainAt {s : State} {pa len key : Nat} (h : plainAt s pa len key) (p k : Nat) : plainAt (countCorrected s p k) pa len key := by
  obtain ⟨hflaws, hkey, hown⟩ := h
  refine ⟨?_, ?_, ?_⟩
  · rwa [countCorrected_mem]
  · rwa [countCorrected_mem, keyBytes, countCorrected_keySlots]
  · rwa [countCorrected_cores]

section
variable {s : State} {pa len key : Nat} {l : List Byte}

theorem storeGet_plain (hr : region pa = .hbm) (h : plainAt s pa len key) (p : Nat) : storeGet s p pa len key = (s, some (memReadN s.mem pa len)) := by
  rw [storeGet, storeRead_plain hr h.1 h.2.1]
  dsimp only
  rw [countCorrected_zero]

theorem storePut_plain (h : plainAt s pa l.length key) : ∃ m, storePut s pa key l = ({ s with mem := m }, .ok ()) ∧ writesRuns s.mem m [(pa, l)] := by
  obtain ⟨t, hstore⟩ := storeWrite_plain h.1 h.2.1
  exact ⟨_, (storePut_written hstore).trans (by rw [countOwner_zero]), writesRuns_memWrite ..⟩

theorem physRead_plain (hr : region pa = .hbm) (h : plainAt s pa len key) (p : Nat) : physRead s p pa len key = (s, .ok (memReadN s.mem pa len)) := by
  rw [physRead, hr]
  dsimp only
  rw [recallLine_unowned h.2.2, storeGet_plain hr h]

theorem physWrite_plain (hr : region pa = .hbm) (h : plainAt s pa l.length key) : ∃ m, physWrite s pa key l = ({ s with mem := m }, .ok ()) ∧ writesRuns s.mem m [(pa, l)] := by
  rw [physWrite_hbm hr, recallLine_unowned h.2.2]
  exact storePut_plain h

/-! Through the L1 of a core (R77, R99). -/

/-- A load that misses reads home. -/
theorem cachedRead_plain_miss {n k : Nat} (hr : region pa = .hbm) (hk : pa % 128 + k ≤ 128) (hline : findLine (coreOf s n) (lineAt pa) = none) (h : plainAt s (lineAt pa) 128 key) (p : Nat) :
    ∃ u, cachedRead s p n pa k key = (u, .ok (memReadN s.mem pa k)) := by
  have hle : lineAt pa ≤ pa := Nat.div_mul_le_self ..
  have hoff : pa - lineAt pa = pa % 128 := by unfold lineAt; omega
  have hhome : region (lineAt pa) = .hbm := region_of_lt (hle.trans_lt (region_hbm hr))
  have hbytes : ((memReadN s.mem (lineAt pa) 128).drop (pa - lineAt pa)).take k = memReadN s.mem pa k := by
    rw [memReadN_within _ (by omega), Nat.add_sub_cancel' hle]
  unfold cachedRead
  dsimp only
  rw [hline]
  dsimp only
  rw [recallLine_unowned_by h.2.2, storeGet_plain hhome h]
  dsimp only
  rw [hbytes]
  exact ⟨_, rfl⟩

/-- A store to a line that nobody owns is written through. -/
theorem cachedWrite_plain (h : plainAt s pa l.length key) (n : Nat) : ∃ u, cachedWrite s n pa key l = (u, .ok ()) ∧ writesRuns s.mem u.mem [(pa, l)] := by
  obtain ⟨m, hput, hm⟩ := storePut_plain h
  unfold cachedWrite
  dsimp only
  rw [lineOwned_unowned h.2.2, if_neg Bool.false_ne_true, recallLine_unowned_by h.2.2, hput]
  exact ⟨_, rfl, hm⟩

/-! Through a page (R87). -/

variable {w : Who} {va : Word}

theorem ruleRun_page (hr : region pa = .hbm) (hfit : va.toNat % 0x10000 + len ≤ 0x10000) : ruleRun w pa (pageRun va.toNat len) = len := by
  rw [ruleRun, hr]
  exact Nat.min_eq_left (by omega)

theorem vaCheck_page {acc : Acc} (hlen : 1 ≤ len) (ht : translate s w.p w.c w.core va acc w.user = .ok pa key) (hr : region pa = .hbm) (hfit : va.toNat % 0x10000 + len ≤ 0x10000) :
    vaCheck s w acc va len = none := by
  rw [vaCheck, vaCheckFrom, if_neg (by omega), ht]
  dsimp only
  rw [ruleRun_page hr hfit, Nat.sub_self, vaCheckFrom, if_pos rfl]

/-- A write of the device into one page of plain HBM: it counts the corrections of its walk, and its bytes stand. -/
theorem vaWrite_page (hw : w.core = none) (hl : l ≠ []) (ht : translate s w.p w.c w.core va .write w.user = .ok pa key) (hr : region pa = .hbm)
    (hfit : va.toNat % 0x10000 + l.length ≤ 0x10000) (h : plainAt s pa l.length key) :
    ∃ k m, vaWrite s w va l = ({ countCorrected s w.p k with mem := m }, .ok ()) ∧ writesRuns s.mem m [(pa, l)] := by
  obtain ⟨k, hk⟩ := walked_unowned (s := s) h.2.2 hw va
  obtain ⟨m, hput, hm⟩ := physWrite_plain (l := l) hr (countCorrected_plainAt h w.p k)
  rw [countCorrected_mem] at hm
  have hpiece : physWrite (walked s w va) pa key (l.take (ruleRun w pa (pageRun va.toNat l.length))) = ({ countCorrected s w.p k with mem := m }, .ok ()) := by
    rw [ruleRun_page hr hfit, List.take_length, hk, hput]
  refine ⟨k, m, ?_, hm⟩
  rw [vaWrite, vaWriteFrom_piece _ hl ht hpiece, ruleRun_page hr hfit, List.drop_length, vaWriteFrom_nil]

end

/-! The scratchpad in a core window (R70). -/

theorem region_core {pa c off : Nat} (h : region pa = .core c off) : pa = coreAt c + off := by
  simp only [region, ite_eq_iff, reduceCtorEq, and_false, false_or, or_false, Region.core.injEq] at h
  obtain ⟨-, -, -, hlow, -, rfl, rfl⟩ := h
  rw [coreAt, Nat.mul_comm, Nat.add_assoc, Nat.div_add_mod, Nat.add_sub_cancel' (Nat.le_of_not_lt hlow)]

/-- A write of some bytes into the scratchpad of a window. -/
theorem coreWrite_scratch (s : State) (n : Nat) {off : Nat} {l : List Byte} (hl : l ≠ []) (hfit : off + l.length ≤ scratchSize) :
    coreWrite s n off l = { s with mem := memWrite s.mem (coreAt n + off) l } := by
  have hpos : 0 < l.length := List.length_pos_iff.2 hl
  have hraw : coreRaw s n off l 0 scratchSize = { s with mem := memWrite s.mem (coreAt n + off) l } := by
    have htake : l.take (scratchSize - off) = l := List.take_of_length_le (by omega)
    rw [coreRaw, clipRun, if_neg (Nat.not_lt_zero off), htake]
    exact if_neg (by simpa using hl)
  unfold scratchSize at hfit
  have hacc : ¬ accOffset < off + l.length := by unfold accOffset; omega
  have hdesc : ¬ descOffset < off + l.length := by unfold descOffset; omega
  have hsreg : ¬ sregOffset < off + l.length := by unfold sregOffset; omega
  have hblock : ∀ j, ¬ blockOffset + j * 0x1000 + 9 < off + l.length := by intro j; unfold blockOffset; omega
  have hscratch : off < scratchSize := by unfold scratchSize; omega
  unfold coreWrite
  simp only [hscratch, hraw, hacc, hdesc, hsreg, hblock, and_false, if_true, if_false, List.foldl_cons, List.foldl_nil]

theorem physWrite_scratch {s : State} {pa c off : Nat} {l : List Byte} (hr : region pa = .core c off) (hl : l ≠ []) (hfit : off + l.length ≤ scratchSize) (key : Nat) :
    ∃ u, physWrite s pa key l = (u, .ok ()) ∧ writesRuns s.mem u.mem [(pa, l)] := by
  rw [physWrite, hr]
  dsimp only
  rw [coreWrite_scratch _ _ hl hfit, wakeColumn_mem, ← region_core hr]
  exact ⟨_, rfl, writesRuns_memWrite s.mem s.mem.keyOf pa l⟩

end Sys2Proof.Machine

/-! Flits and host requests, and the statement about them (R71, R107, R114, R183, R242, R304, R310, R316, R319 to R323). -/

namespace Sys2Proof.Machine

open Sys2Proof.Config

/-! Frozen ports (R304). -/

theorem getLsbD_bit {i t : Nat} (hi : i < 16) : (BitVec.ofNat 16 (2 ^ t)).getLsbD i = decide (t = i) := by
  rw [BitVec.getLsbD_ofNat, Nat.testBit_two_pow, decide_eq_true hi, Bool.true_and]

theorem portFrozen_partEvent (s : State) (p b : Nat) : (partOf (partEvent s p b) p).portFrozen = (partOf s p).portFrozen := by
  by_cases h : (partOf s p).event.getLsbD b = true
  · rw [partEvent, if_pos h]
  · rw [partOf_congr (partEvent_parts h), partOf_modPart]
    rfl

theorem freezePort_frozen (s : State) (p : Nat) {port : Nat} (h : port < 16) : (partOf (freezePort s p port) p).portFrozen.getLsbD port = true := by
  rw [freezePort, portFrozen_partEvent, partOf_modPart, BitVec.getLsbD_or, getLsbD_bit h, decide_eq_true rfl, Bool.or_true]

theorem execFrozenPortRelease_releases (s : State) (p : PartNo) (port : BitVec 4) : ∃ u, execFrozenPortRelease p port s = .next u ∧ (partOf u p.toNat).portFrozen.getLsbD port.toNat = false
    ∧ ∀ i, i ≠ port.toNat → (partOf u p.toNat).portFrozen.getLsbD i = (partOf s p.toNat).portFrozen.getLsbD i := by
  refine ⟨_, rfl, ?_, fun i hi => ?_⟩
  · rw [partOf_modPart, BitVec.getLsbD_and, BitVec.getLsbD_not, getLsbD_bit port.isLt, decide_eq_true rfl, Bool.not_true, Bool.and_false, Bool.and_false]
  · rw [partOf_modPart]
    by_cases h16 : i < 16
    · rw [BitVec.getLsbD_and, BitVec.getLsbD_not, getLsbD_bit h16, decide_eq_false hi.symm, decide_eq_true h16, Bool.not_false, Bool.and_true, Bool.and_true]
    · rw [BitVec.getLsbD_of_ge _ i (Nat.le_of_not_lt h16), BitVec.getLsbD_of_ge _ i (Nat.le_of_not_lt h16)]

/-! Remote stores (R242, R243). -/

/-- Whose translation a remote store uses. -/
def flitWho (f : Flit) : Who := { p := f.part.toNat, c := f.ctx.toNat, user := true }

/-- A remote store that stands signals its arrival at a barrier of its partition, where it names one. -/
def flitArrives (s : State) (f : Flit) : State :=
  match f.arrival with
  | none => s
  | some a => if (partOf s f.part.toNat).pgran.getLsbD (a.toNat / 16 / 16) then txbArrive s (a.toNat / 16) f.ctx.toNat (a.toNat % 16) f.bytes.length else s

section
variable {s u : State} {t : Nat} {f : Flit}

theorem performFlit_violation {cause : Byte} {va : Word} (h : vaCheck s (flitWho f) .write f.va f.bytes.length = some (.fault cause true va)) :
    performFlit s t f = freezePort (walkedRange s (flitWho f) f.va f.bytes.length) f.part.toNat t := by
  unfold flitWho at *
  unfold performFlit
  dsimp only
  rw [h]

theorem performFlit_unperformed {e : VErr} (h : vaCheck s (flitWho f) .write f.va f.bytes.length = some e) (he : ∀ cause va, e ≠ .fault cause true va) :
    performFlit s t f = walkedRange s (flitWho f) f.va f.bytes.length := by
  unfold flitWho at *
  unfold performFlit
  dsimp only
  rw [h]
  cases e with
  | miss | wpw | busy => rfl
  | fault cause freeze va =>
    cases freeze with
    | false => rfl
    | true => exact absurd rfl (he cause va)

theorem performFlit_written (h : vaCheck s (flitWho f) .write f.va f.bytes.length = none) (hw : vaWrite s (flitWho f) f.va f.bytes = (u, .ok ())) : performFlit s t f = flitArrives u f := by
  unfold flitWho at *
  unfold performFlit
  dsimp only
  rw [h]
  dsimp only
  rw [hw]
  rfl

theorem flitArrives_none (h : f.arrival = none) : flitArrives u f = u := by rw [flitArrives, h]

theorem flitArrives_some {a : BitVec 12} (h : f.arrival = some a) : flitArrives u f =
    if (partOf u f.part.toNat).pgran.getLsbD (a.toNat / 256) then txbArrive u (a.toNat / 16) f.ctx.toNat (a.toNat % 16) f.bytes.length else u := by
  rw [flitArrives, h]
  dsimp only
  rw [Nat.div_div_eq_div_mul]

theorem countCorrected_pgran (s : State) (p k q : Nat) : (partOf (countCorrected s p k) q).pgran = (partOf s q).pgran := by
  unfold countCorrected
  split
  · rfl
  · rw [partOf_modPart_any]
    split <;> rfl

theorem performFlit_performsFlit (s : State) (t : Nat) (f : Flit) : performsFlit s t f (performFlit s t f) := by
  unfold performsFlit
  dsimp only
  refine ⟨fun e he => ⟨fun cause va hv => ?_, performFlit_unperformed he⟩, fun pa key ht hr hfit hlen hplain => ?_⟩
  · subst hv
    exact performFlit_violation he
  · have hbytes : f.bytes ≠ [] := List.length_pos_iff.1 hlen
    obtain ⟨k, m, hwrite, hm⟩ := vaWrite_page (w := flitWho f) rfl hbytes ht hr hfit hplain
    have hpgran : (partOf { countCorrected s f.part.toNat k with mem := m } f.part.toNat).pgran = (partOf s f.part.toNat).pgran := countCorrected_pgran ..
    have hu := performFlit_written (t := t) (vaCheck_page hlen ht hr hfit) hwrite
    refine ⟨_, hm, fun ha => hu.trans (flitArrives_none ha), fun a ha => ?_⟩
    rw [hu, flitArrives_some ha]
    exact ⟨fun hg => if_pos (hpgran ▸ hg), fun hg => if_neg (by rw [show (flitWho f).p = f.part.toNat from rfl, hpgran, hg]; exact Bool.false_ne_true)⟩

end

/-! Flits in sequence (R114, R310, R323). -/

/-- The next flit of a port is awaited. -/
def flitTaken (t : Nat) (v : State) : State := { v with ports := tset v.ports t { tget {} v.ports t with next := (tget {} v.ports t).next + 1#16, replays := 0 } }

/-- A remote store is held: no column has switched to its context, or one whose window it reaches has not, or it waits for a busy row. -/
def Held (s : State) (f : Flit) : Prop :=
  (∀ n ∈ coresOf s f.part.toNat, (coreOf s n).ctx ≠ some f.ctx.toNat)
    ∨ (∃ va ∈ pageStarts f.va f.bytes.length, ∃ pa key n off, translate s f.part.toNat f.ctx.toNat none va .write true = .ok pa key
        ∧ (region pa = .core n off ∨ region pa = .vault n off) ∧ (coreOf s n).ctx ≠ some f.ctx.toNat)
    ∨ rangeBusy s (flitWho f) .write f.va f.bytes.length = true

theorem hasSwitched_iff {s : State} {c n : Nat} : hasSwitched s c n = true ↔ (coreOf s n).ctx = some c := beq_iff_eq

/-- A page is in a window of a column that has not switched to a context. -/
theorem windowAway_iff {s : State} {c : Nat} (x : Xl) :
    (match x with
      | .ok pa _ => (match region pa with | .core n _ => !hasSwitched s c n | .vault n _ => !hasSwitched s c n | _ => false)
      | _ => false) = true
    ↔ ∃ pa key n off, x = .ok pa key ∧ (region pa = .core n off ∨ region pa = .vault n off) ∧ (coreOf s n).ctx ≠ some c := by
  cases x with
  | miss | wpw | refuse | violation | ue => simp
  | ok pa key =>
    dsimp only
    have hpage : (∃ pa' key' n off, Xl.ok pa key = .ok pa' key' ∧ (region pa' = .core n off ∨ region pa' = .vault n off) ∧ (coreOf s n).ctx ≠ some c)
        ↔ ∃ n off, (region pa = .core n off ∨ region pa = .vault n off) ∧ (coreOf s n).ctx ≠ some c := by
      constructor
      · rintro ⟨_, _, n, off, ⟨⟩, h⟩
        exact ⟨n, off, h⟩
      · rintro ⟨n, off, h⟩
        exact ⟨pa, key, n, off, rfl, h⟩
    rw [hpage]
    cases region pa with
    | hbm | record | pctl | cap | host | reserved => simp
    | core n off | vault n off => simp [hasSwitched]

theorem mustHold_iff {s : State} {f : Flit} : mustHold s f = true ↔ Held s f := by
  unfold mustHold Held flitWho
  simp only [Bool.or_eq_true, Bool.not_eq_true', List.any_eq_false, List.any_eq_true, hasSwitched_iff, or_assoc]
  refine or_congr Iff.rfl (or_congr (exists_congr fun va => and_congr Iff.rfl ?_) Iff.rfl)
  exact windowAway_iff _

section
variable {s : State} {t : Nat} {f : Flit}

theorem acceptFlit_other (h : t = 12 ∨ f.dest ≠ pkgid) : acceptFlit s t f = flitTaken t s := if_pos (by simpa using h)

section
variable (hhere : ¬ (t = 12 ∨ f.dest ≠ pkgid))
include hhere

theorem acceptFlit_here : acceptFlit s t f =
    if (partOf s f.part.toNat).portFrozen.getLsbD t || decide (65536 < heldBytes (partOf s f.part.toNat) + f.bytes.length) then s
    else if mustHold s f || (partOf s f.part.toNat).ingress.any (fun g => g.2.ctx == f.ctx) then
      flitTaken t (modPart s f.part.toNat (fun q => { q with ingress := q.ingress ++ [(t, f)] }))
    else flitTaken t (performFlit s t f) := if_neg (by simpa using hhere)

theorem acceptFlit_refused (h : (partOf s f.part.toNat).portFrozen.getLsbD t = true ∨ 65536 < heldBytes (partOf s f.part.toNat) + f.bytes.length) : acceptFlit s t f = s := by
  rw [acceptFlit_here hhere]
  exact if_pos (by simpa using h)

section
variable (hroom : ¬ ((partOf s f.part.toNat).portFrozen.getLsbD t = true ∨ 65536 < heldBytes (partOf s f.part.toNat) + f.bytes.length))
include hroom

theorem acceptFlit_held (h : Held s f ∨ ∃ g ∈ (partOf s f.part.toNat).ingress, g.2.ctx = f.ctx) :
    acceptFlit s t f = flitTaken t (modPart s f.part.toNat (fun q => { q with ingress := q.ingress ++ [(t, f)] })) := by
  rw [acceptFlit_here hhere, if_neg (by simpa using hroom), if_pos]
  rw [Bool.or_eq_true, mustHold_iff]
  simpa using h

theorem acceptFlit_performed (h : ¬ (Held s f ∨ ∃ g ∈ (partOf s f.part.toNat).ingress, g.2.ctx = f.ctx)) : acceptFlit s t f = flitTaken t (performFlit s t f) := by
  rw [acceptFlit_here hhere, if_neg (by simpa using hroom), if_neg]
  rw [Bool.or_eq_true, mustHold_iff]
  simpa using h

end

end

theorem acceptFlit_acceptsFlit (s : State) (t : Nat) (f : Flit) : acceptsFlit s t f (acceptFlit s t f) := by
  unfold acceptsFlit
  dsimp only
  refine ⟨acceptFlit_other, acceptFlit_refused, fun hhere hroom hheld => acceptFlit_held hhere hroom ?_, fun hhere hroom hfree => acceptFlit_performed hhere hroom fun h => hfree ?_⟩
  · simpa only [Held, flitWho, or_assoc] using hheld
  · simpa only [Held, flitWho, or_assoc] using h

end

/-! Reception (R114, R322). -/

theorem flitOk_iff {l : List Byte} : flitOk l = true ↔ l.length = 256 ∧ fieldAt l 252 4 = (crc32c 0#32 (l.take 252)).toNat := by simp [flitOk]

section
variable {s : State} {port : BitVec 4} {raw : List Byte} {f : Flit}

theorem execFlitReceive_shut (h : 12 < port.toNat ∨ (tget {} s.ports port.toNat).down = true ∨ (tget {} s.ports port.toNat).enabled = false) : execFlitReceive port raw f s = .next s :=
  if_pos (by simpa [or_assoc] using h)

section
variable (hport : port.toNat ≤ 12) (hdown : (tget {} s.ports port.toNat).down = false) (hon : (tget {} s.ports port.toNat).enabled = true)
include hport hdown hon

theorem execFlitReceive_open : execFlitReceive port raw f s =
    if flitOk raw = true then
      (let u := { s with ports := tset s.ports port.toNat { tget {} s.ports port.toNat with acked := BitVec.ofNat 16 (fieldAt raw 2 2) } }
      if fieldAt raw 0 2 = (tget {} s.ports port.toNat).next.toNat then .next (acceptFlit u port.toNat f) else .next u)
    else if 16 ≤ (tget {} s.ports port.toNat).replays then .next (portDown s port.toNat)
    else .next { s with ports := tset s.ports port.toNat { tget {} s.ports port.toNat with replays := (tget {} s.ports port.toNat).replays + 1 } } := by
  unfold execFlitReceive
  dsimp only
  rw [if_neg (by simp [hdown, hon, hport])]
  cases flitOk raw <;> simp [ite_not]

end

end

/-! Requests of the host (R319, R320). -/

section
variable {s : State} {p off len : Nat}

theorem bar2At_reach (h : off + len ≤ (hbmRange (partOf s p)).2 ∧ ownsKey (partOf s p) (partOf s p).hkey.toNat = true) :
    bar2At s p off len = some ((hbmRange (partOf s p)).1 + off, (partOf s p).hkey.toNat) := if_pos (by simpa using h)

theorem bar2At_outside (h : ¬ (off + len ≤ (hbmRange (partOf s p)).2 ∧ ownsKey (partOf s p) (partOf s p).hkey.toNat = true)) : bar2At s p off len = none :=
  if_neg (by simpa using h)

end

section
variable {s u : State} {p pa key : Nat} {fn : BitVec 5} {off : BitVec 39}

theorem partRequest_bar2Read {n : BitVec 7} {l : List Byte} (h : bar2At s p off.toNat n.toNat = some (pa, key)) (hread : physRead s p pa n.toNat key = (u, .ok l)) :
    partRequest s p (.bar2Read fn off n) = reply u (p + 1) (some l) := by
  rw [partRequest, h]
  dsimp only
  rw [hread]

theorem partRequest_bar2Write {l : List Byte} (h : bar2At s p off.toNat l.length = some (pa, key)) (hwrite : physWrite s pa key l = (u, .ok ())) :
    partRequest s p (.bar2Write fn off l) = u := by
  rw [partRequest, h]
  dsimp only
  rw [hwrite]

end

/-- The bytes of a host AtomicOp. -/
def widthBytes (wd : Width) : Nat := if wd = .w then 4 else 8

section
variable {s : State} {p op off : Nat} {wd : Width} {v c : Word}

theorem hostOp_misaligned (h : off % widthBytes wd ≠ 0) : hostOp s p op off wd v c = reply s (p + 1) none := by
  unfold widthBytes at h
  unfold hostOp
  simp only [beq_iff_eq]
  exact if_pos h

section
variable (halign : off % widthBytes wd = 0)
include halign

theorem hostOp_violates (h : bar2At s p off (widthBytes wd) = none) : hostOp s p op off wd v c = hostViolation s p := by
  unfold widthBytes at *
  unfold hostOp
  simp only [beq_iff_eq]
  rw [if_neg (not_not.2 halign), h]

/-- An AtomicOp on a plain word answers the old word, and the new one stands. -/
theorem hostOp_swaps {pa key : Nat} (h : bar2At s p off (widthBytes wd) = some (pa, key)) (hr : region pa = .hbm) (hplain : plainAt s pa (widthBytes wd) key) {new : Nat}
    (hnew : amoWord op (8 * widthBytes wd) (leNat (memReadN s.mem pa (widthBytes wd))) (v.toNat % 2 ^ (8 * widthBytes wd)) (c.toNat % 2 ^ (8 * widthBytes wd)) = new) :
    ∃ u, hostOp s p op off wd v c = reply u (p + 1) (some (memReadN s.mem pa (widthBytes wd))) ∧ writesRuns s.mem u.mem [(pa, leBytes (widthBytes wd) new)] ∧ u.hostReplies = s.hostReplies := by
  have hlen : (leBytes (widthBytes wd) new).length = widthBytes wd := length_leBytes ..
  obtain ⟨m, hput, hm⟩ := storePut_plain (l := leBytes (widthBytes wd) new) (hlen.symm ▸ hplain)
  have hatomic : hostAtomic s p pa key op (widthBytes wd) v c = ({ s with mem := m }, some (memReadN s.mem pa (widthBytes wd))) := by
    unfold hostAtomic
    dsimp only
    rw [recallLine_unowned hplain.2.2, storeGet_plain hr hplain]
    dsimp only
    rw [hnew, hput]
  refine ⟨{ s with mem := m }, ?_, hm, rfl⟩
  unfold widthBytes at *
  unfold hostOp
  simp only [beq_iff_eq]
  rw [if_neg (not_not.2 halign), h]
  dsimp only
  rw [hatomic]

end

end

theorem answersRequests_holds (s : State) (p : Nat) : answersRequests s p := by
  unfold answersRequests
  dsimp only
  refine ⟨freezePort_frozen s p (by decide), fun fn off n => ⟨fun h => ?bar0Read, fun h => if_pos h⟩, fun fn off l => ⟨fun h => ?bar0Write, fun h => if_pos h⟩,
    fun fn off n => ⟨fun ⟨hreach, hr, hplain⟩ => ?bar2Read, fun h => ?bar2ReadOut⟩, fun fn off l => ⟨fun ⟨hreach, hr, hplain⟩ => ?bar2Write, fun h => ?bar2WriteOut⟩,
    fun fn off wd v c => ⟨fun h => ?misaligned, fun h hout => ?outside, fun h ⟨hreach, hr, hplain⟩ => ?swaps⟩, fun fn => rfl⟩
  case bar0Read => exact if_neg (Nat.not_lt.2 h)
  case bar0Write => exact if_neg (Nat.not_lt.2 h)
  case bar2Read => exact partRequest_bar2Read (bar2At_reach hreach) (physRead_plain hr hplain p)
  case bar2ReadOut => rw [partRequest, bar2At_outside h]; rfl
  case bar2Write =>
    obtain ⟨m, hput, hm⟩ := physWrite_plain hr hplain
    exact ⟨_, partRequest_bar2Write (bar2At_reach hreach) hput, hm, rfl⟩
  case bar2WriteOut => rw [partRequest, bar2At_outside h]; rfl
  case misaligned => exact ⟨hostOp_misaligned h, hostOp_misaligned h, hostOp_misaligned h⟩
  case outside =>
    have hviolates (op : Nat) (v c : Word) : hostOp s p op off.toNat wd v c = hostViolation s p := hostOp_violates h (bar2At_outside hout)
    exact ⟨hviolates .., hviolates .., hviolates ..⟩
  case swaps =>
    exact ⟨hostOp_swaps h (bar2At_reach hreach) hr hplain (Nat.add_mod_mod ..), hostOp_swaps h (bar2At_reach hreach) hr hplain rfl, hostOp_swaps h (bar2At_reach hreach) hr hplain rfl⟩

/-! Requests by function (R319, R332). -/

/-- A request of a virtual function. -/
theorem execHostRequest_function {s : State} {r : HostReq} {p : PartNo} (hup : hostDown s = false) (hfn : reqFn r = p.toNat + 1) : execHostRequest r s =
    if (partOf s p.toNat).pgran = 0#16 then .next (reply s (p.toNat + 1) none)
    else if (partOf s p.toNat).portFrozen.getLsbD 12 = true then .next s
    else .next (partRequest s p.toNat r) := by
  have hp : p.toNat < 16 := p.isLt
  unfold execHostRequest
  dsimp only
  rw [hfn, hup, if_neg Bool.false_ne_true, if_neg (Nat.succ_ne_zero _), Nat.add_sub_cancel]
  simp [show ¬ 16 < p.toNat + 1 by omega]

/-- Settles O49: flits by `performFlit_performsFlit` and `acceptFlit_acceptsFlit`, requests by `answersRequests_holds`, and each event by the equation of its step. -/
theorem linkEventResults : Obligations.LinkEventResults := by
  unfold Obligations.LinkEventResults
  intro s port f p
  dsimp only
  refine ⟨fun v => ⟨performFlit_performsFlit .., acceptFlit_acceptsFlit ..⟩, answersRequests_holds .., fun raw h => execFlitReceive_shut h, fun raw hport hdown hon => ?receive,
    fun rest t g h => ?release, fun h => ?empty, execFrozenPortRelease_releases .., fun h r => if_pos h, fun hup r hfn => ?request, fun hup off len => ?functionZero⟩
  case receive =>
    rw [exec_flitReceive, execFlitReceive_open hport hdown hon, ← flitOk_iff]
    refine ⟨fun hbad hleft => ?_, fun hbad hspent => ?_, fun hgood hseq => ?_, fun hgood hseq => ?_⟩
    · rw [if_neg hbad, if_neg (Nat.not_le.2 hleft)]
    · rw [if_neg hbad, if_pos hspent]
    · rw [if_pos hgood]
      exact if_neg hseq
    · rw [if_pos hgood]
      exact if_pos hseq
  case release => rw [exec_ingressRelease, execIngressRelease, h]
  case empty => rw [exec_ingressRelease, execIngressRelease, h]
  case request =>
    rw [exec_hostRequest, execHostRequest_function hup hfn]
    refine ⟨fun hnone => if_pos hnone, fun hsome hfrozen => ?_, fun hsome hopen => ?_⟩
    · rw [if_neg hsome, if_pos hfrozen]
    · rw [if_neg hsome, if_neg (ne_true_of_eq_false hopen)]
  case functionZero =>
    rw [exec_hostRequest, execHostRequest, hup]
    rfl

end Sys2Proof.Machine

/-! Accesses, atomics and vault words of the C stream as they are performed (R77, R99, R101, R107, R180, R183, R189). -/

namespace Sys2Proof.Machine

open Sys2Proof.Config

section
variable {s u : State} {n j : Nat} {o : Op} {direct : Bool}

/-! Errors on the mesh or the seam (R17). -/

theorem accessStruck_free (h : transitError s.tick = false) (n pa : Nat) (write : Bool) : accessStruck s n pa write = false := by
  rw [accessStruck, h, Bool.and_false]

/-- An access that the L1 does not serve is struck where an error comes. -/
theorem accessStruck_outside {pa : Nat} {write : Bool} (h : inL1 s n pa write = false) : accessStruck s n pa write = transitError s.tick := by
  rw [accessStruck, h]
  rfl

theorem lineOwned_eq_false {c : Core} {l : Nat} (h : ∀ r ∈ c.owned, l ∉ r.lines) : lineOwned c l = false := by
  simpa [lineOwned] using h

theorem inL1_write_unowned {pa : Nat} (h : region pa = .hbm → ∀ r ∈ (coreOf s n).owned, lineAt pa ∉ r.lines) : inL1 s n pa true = false := by
  unfold inL1
  by_cases hr : region pa = .hbm
  · rw [lineOwned_eq_false (h hr)]
    simp
  · simp [hr]

theorem inL1_read_miss {pa : Nat} (h : findLine (coreOf s n) (lineAt pa) = none) : inL1 s n pa false = false := by
  rw [inL1, h]
  simp

/-! Stores (R77, R99). -/

section
variable {va : Word} {pa key k v : Nat} (hk : o.kind = .store va pa key k v)
include hk

theorem sqPerform_store_struck (h : accessStruck s n pa true = true) : sqPerform s n j o direct = .fault s { cause := cDataUe, cmd := o.cmd, faddr := va } := by
  unfold sqPerform
  simp only [hk, h, if_true]

/-- What is still to come of a store that has been performed changes no byte. -/
theorem sqPerform_store_written (hok : accessStruck s n pa true = false) (hw : cWrite s n pa key (leBytes k v) = (u, .ok ())) :
    ∃ t, sqPerform s n j o direct = .done t ∧ t.mem = u.mem := by
  unfold sqPerform
  simp only [hk, hok, Bool.false_eq_true, if_false, hw]
  split
  · exact ⟨_, rfl, rfl⟩
  · split <;> exact ⟨_, rfl, rfl⟩

end

theorem leBytes_ne_nil {k : Nat} (h : 1 ≤ k) (v : Nat) : leBytes k v ≠ [] := List.length_pos_iff.1 (by rwa [length_leBytes])

/-- A store into plain HBM, or into the scratchpad of a window. -/
theorem cWrite_writes {pa key k : Nat} (v : Nat) (hk : 1 ≤ k) (h : (region pa = .hbm ∧ plainAt s pa k key) ∨ ∃ c off, region pa = .core c off ∧ off + k ≤ scratchSize) :
    ∃ u, cWrite s n pa key (leBytes k v) = (u, .ok ()) ∧ writesRuns s.mem u.mem [(pa, leBytes k v)] := by
  unfold cWrite
  obtain ⟨hr, hplain⟩ | ⟨c, off, hr, hfit⟩ := h
  · rw [if_pos (by simp [hr])]
    exact cachedWrite_plain (by rwa [length_leBytes]) n
  · rw [if_neg (by simp [hr])]
    exact physWrite_scratch hr (leBytes_ne_nil hk v) (by rwa [length_leBytes]) key

/-! Loads (R77, R99, R101). -/

theorem overlayStore_other {q : Op} (h : ∀ va pa key k v, q.kind ≠ .store va pa key k v) (va : Word) (pa : Nat) (l : List Byte) : overlayStore va pa l q = l := by
  unfold overlayStore
  split
  next he => exact absurd he (h _ _ _ _ _)
  · rfl

/-- A load of plain HBM that misses, with no earlier store in the SQ, brings the bytes of home. -/
theorem loadPerform_plain {va : Word} {pa key k d : Nat} {signed : Bool} (hk : o.kind = .load va pa key k signed d) (hr : region pa = .hbm) (hfit : pa % 128 + k ≤ 128)
    (hplain : plainAt s (lineAt pa) 128 key) (hline : findLine (coreOf s n) (lineAt pa) = none)
    (hstores : ∀ q ∈ (jobOf s n j).sq, q.seq < o.seq → ∀ va' pa' key' k' v, q.kind ≠ .store va' pa' key' k' v) :
    ∃ t, ∀ direct, loadPerform s n j o direct = deliver t n j o d
      (if signed then sextN (8 * k) (w64 (leNat (memReadN s.mem pa k))) else w64 (leNat (memReadN s.mem pa k))) direct false (hostBase ≤ pa) (transitError s.tick) va := by
  obtain ⟨t, hread⟩ := cachedRead_plain_miss hr hfit hline hplain (jobOf s n j).part
  have hlaid : ((jobOf s n j).sq.filter (fun q => q.seq < o.seq)).foldl (overlayStore va pa) (memReadN s.mem pa k) = memReadN s.mem pa k :=
    foldl_stays fun q hq => overlayStore_other (hstores q (List.mem_filter.1 hq).1 (of_decide_eq_true (List.mem_filter.1 hq).2)) ..
  refine ⟨t, fun direct => ?_⟩
  unfold loadPerform
  simp only [hk, hr, beq_self_eq_true, if_true, hread, hlaid, accessStruck_outside (inL1_read_miss hline)]
  rfl

/-! Atomics (R183). -/

/-- An atomic on a plain word of k bytes gives the old word, and the new one stands. -/
theorem amoPerform_plain {pa key : Nat} (hr : region pa = .hbm) (p op k v c : Nat) (hplain : plainAt s pa k key) :
    ∃ u, amoPerform s p n pa key op (8 * k) v c = (u, .ok (leNat (memReadN s.mem pa k)))
      ∧ writesRuns s.mem u.mem [(pa, leBytes k (amoWord op (8 * k) (leNat (memReadN s.mem pa k)) (v % 2 ^ (8 * k)) (c % 2 ^ (8 * k))))] := by
  obtain ⟨u, hwrite, hu⟩ := cachedWrite_plain (l := leBytes k (amoWord op (8 * k) (leNat (memReadN s.mem pa k)) (v % 2 ^ (8 * k)) (c % 2 ^ (8 * k)))) (by rwa [length_leBytes]) n
  have hk : 8 * k / 8 = k := Nat.mul_div_cancel_left k (by decide)
  refine ⟨u, ?_, hu⟩
  unfold amoPerform
  dsimp only
  rw [lineOwned_unowned hplain.2.2, if_neg Bool.false_ne_true, recallLine_unowned_by hplain.2.2, hk, storeGet_plain hr hplain]
  dsimp only
  rw [hwrite]

/-- The SQ performs an atomic through `amoPerform`, and what it delivers leaves the memory. -/
theorem sqPerform_atomic {op : BitVec 4} {wd : Width} {ord : Order} {va : Word} {pa key d old : Nat} {v c : Word} (hk : o.kind = .atomic op wd ord va pa key d v c)
    (h : amoPerform s (jobOf s n j).part n pa key op.toNat (8 * widthBytes wd) v.toNat c.toNat = (u, .ok old)) :
    ∃ t, sqPerform s n j o direct = .done (deliver t n j o d (w64 old) direct false false (accessStruck s n pa true) va) ∧ t.mem = u.mem := by
  have hbits : (if wd == .w then 32 else 64) = 8 * widthBytes wd := by cases wd <;> rfl
  unfold sqPerform
  simp only [hk, hbits, h]
  split
  · exact ⟨_, rfl, acquire_mem ..⟩
  · exact ⟨_, rfl, rfl⟩

theorem sqPerform_atomic_plain {op : BitVec 4} {wd : Width} {ord : Order} {va : Word} {pa key d : Nat} {v c : Word} (hk : o.kind = .atomic op wd ord va pa key d v c)
    (hr : region pa = .hbm) (hplain : plainAt s pa (widthBytes wd) key) :
    ∃ t, sqPerform s n j o direct = .done (deliver t n j o d (w64 (leNat (memReadN s.mem pa (widthBytes wd)))) direct false false (accessStruck s n pa true) va)
      ∧ writesRuns s.mem t.mem [(pa, leBytes (widthBytes wd)
          (amoWord op.toNat (8 * widthBytes wd) (leNat (memReadN s.mem pa (widthBytes wd))) (v.toNat % 2 ^ (8 * widthBytes wd)) (c.toNat % 2 ^ (8 * widthBytes wd))))] := by
  obtain ⟨u, hamo, hu⟩ := amoPerform_plain (n := n) hr (jobOf s n j).part op.toNat (widthBytes wd) v.toNat c.toNat hplain
  obtain ⟨t, ht, hmem⟩ := sqPerform_atomic (direct := direct) hk hamo
  exact ⟨t, ht, hmem ▸ hu⟩

/-! Vault words (R189). -/

theorem sqPerform_vaultWord {op : VaultOp} {va : Word} {pa d : Nat} {x y old : BitVec 32} (hk : o.kind = .vaultWord op va pa d x y) (h : bankApply s (jobOf s n j).part pa op x y = (u, .ok old)) :
    sqPerform s n j o direct = .done (deliver u n j o d (old.setWidth 64) direct true false (transitError u.tick) va) := by
  unfold sqPerform
  simp only [hk, h]

/-! Values that arrive (R90, R101). -/

theorem arrive_due {a : Agent} {i op : Nat} {v : Word} (h : tfind (streamOf s a).due i = some op) : arrive s a i op v = writePlace s a i v := if_pos h

theorem arrive_overtaken {a : Agent} {i op : Nat} {v : Word} (h : tfind (streamOf s a).due i ≠ some op) : arrive s a i op v = s := if_neg h

end

theorem memMoves_holds : MemMoves := by
  unfold MemMoves
  refine ⟨?store, ?struck, ?load, ?atomic, ?vault, ?arrive⟩
  case store =>
    intro s n j o va pa key k v direct hk hlen hown hplace hfree
    obtain ⟨u, hwrite, hu⟩ := cWrite_writes (n := n) v hlen hplace
    obtain ⟨t, ht, hmem⟩ := sqPerform_store_written (j := j) (direct := direct) hk (accessStruck_free hfree ..) hwrite
    exact ⟨t, ht, hmem ▸ hu⟩
  case struck =>
    intro s n j o va pa key k v direct hk hown hstruck
    exact sqPerform_store_struck hk ((accessStruck_outside (inL1_write_unowned hown)).trans hstruck)
  case load =>
    intro s n j o va pa key k d signed hk hr hfit hlen hplain hline hstores
    obtain ⟨t, ht⟩ := loadPerform_plain hk hr hfit hplain hline hstores
    refine ⟨fun hfree => ⟨t, ?_⟩, fun hstruck => ⟨t, ?_⟩, t, _, ht false⟩
    · rw [ht true, hfree]
      rfl
    · rw [ht true, hstruck]
      rfl
  case atomic =>
    intro s n j o op wd ord va pa key d v c direct hk k
    have hwidth : k = widthBytes wd := by cases wd <;> rfl
    clear_value k
    subst hwidth
    exact fun hr hplain => sqPerform_atomic_plain hk hr hplain
  case vault =>
    intro s u n j o op va pa d x y old direct hk h
    exact sqPerform_vaultWord hk h
  case arrive =>
    intro s n j t d op v hd
    refine ⟨fun hdue => ?_, fun hdue => arrive_overtaken hdue⟩
    rw [arrive_due hdue]
    exact ⟨reg_setReg_same s n j t d v hd, fun r hr => reg_setReg_other s _ d r v hr⟩

end Sys2Proof.Machine

/-! Ranges that `own` registers and `disown` ends (R78, R182). -/

namespace Sys2Proof.Machine

open Sys2Proof.Config

section
variable {s : State} {n j : Nat} {o : Op} {b : Job} {va sz : Word}

theorem sqGives_own {d : Nat} (hk : o.kind = .own va sz d) {t : State} {w : Word}
    (h : (if ownStruck s n (jobOf s n j) va sz then (s, -3#64) else ownPerform s n (jobOf s n j) va sz) = (t, w)) : sqGives s n j o t d w := by
  intro direct
  unfold sqPerform
  simp only [hk, h]
  rfl

theorem sqGives_own_free {d : Nat} (hk : o.kind = .own va sz d) (hfree : ownStruck s n (jobOf s n j) va sz = false) {t : State} {w : Word}
    (h : ownPerform s n (jobOf s n j) va sz = (t, w)) : sqGives s n j o t d w :=
  sqGives_own hk (by rw [hfree]; exact h)

theorem sqGives_disown {d : Nat} (hk : o.kind = .disown va d) {t : State} {w : Word} (h : disownPerform s n va = (t, w)) : sqGives s n j o t d w := by
  intro direct
  unfold sqPerform
  simp only [hk, h]
  rfl

/-! The order of the statuses. -/

theorem ownShape_iff : ownShape va sz = true ↔ va.toNat % 128 = 0 ∧ sz.toNat % 128 = 0 ∧ 128 ≤ sz.toNat ∧ sz.toNat ≤ 2 ^ 20 := by
  simp [ownShape, and_assoc]

theorem ownStruck_full (h : 64 ≤ (coreOf s n).owned.length) : ownStruck s n b va sz = false := by
  simp [ownStruck, Nat.not_lt.2 h]

theorem ownStruck_misshapen (h : ownShape va sz = false) : ownStruck s n b va sz = false := by
  simp [ownStruck, h]

theorem ownPerform_full (h : 64 ≤ (coreOf s n).owned.length) : ownPerform s n b va sz = (s, -1#64) := if_pos h

theorem ownPerform_misshapen (hroom : (coreOf s n).owned.length < 64) (h : ownShape va sz = false) : ownPerform s n b va sz = (s, -2#64) := by
  simp [ownPerform, Nat.not_le.2 hroom, h]

/-! The lines of a range. -/

/-- Page `i` of 128 bytes of a range translates to the line `pa` of HBM, with RD and W. -/
def OwnsLine (s : State) (n : Nat) (b : Job) (va : Word) (i pa : Nat) : Prop :=
  region pa = .hbm ∧ (∃ x, translate s b.part b.ctx (some n) (va + BitVec.ofNat 64 (128 * i)) .read false = .ok pa x)
    ∧ ∃ q x, translate s b.part b.ctx (some n) (va + BitVec.ofNat 64 (128 * i)) .write false = .ok q x
      ∨ translate s b.part b.ctx (some n) (va + BitVec.ofNat 64 (128 * i)) .write false = .wpw q x

/-- What `ownLines` adds for one line of the range. -/
def ownStep (s : State) (b : Job) (n : Nat) (va : Word) (r : Option (List Nat)) (i : Nat) : Option (List Nat) :=
  match r with
  | none => none
  | some l =>
    let a := va + w64 (128 * i)
    let writes := match translate s b.part b.ctx (some n) a .write false with | .ok _ _ => true | .wpw _ _ => true | _ => false
    match translate s b.part b.ctx (some n) a .read false with
    | .ok pa _ => if writes && region pa == .hbm then some (l ++ [pa]) else none
    | _ => none

theorem ownLines_eq (va : Word) (len : Nat) : ownLines s b n va len = (List.range (len / 128)).foldl (ownStep s b n va) (some []) := rfl

theorem ownStep_line {i pa : Nat} (h : OwnsLine s n b va i pa) (l : List Nat) : ownStep s b n va (some l) i = some (l ++ [pa]) := by
  obtain ⟨hr, ⟨x, hread⟩, q, y, hwrite⟩ := h
  unfold ownStep w64
  obtain hwrite | hwrite := hwrite <;> simp [hread, hwrite, hr]

theorem ownStep_some {r : Option (List Nat)} {i : Nat} {l : List Nat} (h : ownStep s b n va r i = some l) : r ≠ none ∧ ∃ pa, OwnsLine s n b va i pa := by
  unfold ownStep w64 at h
  split at h
  · cases h
  · dsimp only at h
    split at h
    next pa x hread =>
      split_ifs at h with hc
      obtain ⟨hw, hr⟩ := Bool.and_eq_true_iff.1 hc
      refine ⟨nofun, pa, eq_of_beq hr, ⟨x, hread⟩, ?_⟩
      split at hw
      next q y hwrite => exact ⟨q, y, .inl hwrite⟩
      next q y hwrite => exact ⟨q, y, .inr hwrite⟩
      · cases hw
    · cases h

theorem foldl_ownStep_some {is : List Nat} {r : Option (List Nat)} {l : List Nat} (h : is.foldl (ownStep s b n va) r = some l) : r ≠ none ∧ ∀ i ∈ is, ∃ pa, OwnsLine s n b va i pa := by
  induction is generalizing r with
  | nil => exact ⟨Option.ne_none_iff_exists'.2 ⟨l, h⟩, nofun⟩
  | cons i is ih =>
    obtain ⟨hstep, hrest⟩ := ih h
    obtain ⟨l', hl'⟩ := Option.ne_none_iff_exists'.1 hstep
    obtain ⟨hr, hi⟩ := ownStep_some hl'
    exact ⟨hr, List.forall_mem_cons.2 ⟨hi, hrest⟩⟩

/-- A range with a line that may not be owned has no lines. -/
theorem ownLines_none {len i : Nat} (hi : i < len / 128) (h : ∀ pa, ¬ OwnsLine s n b va i pa) : ownLines s b n va len = none := by
  by_contra hsome
  obtain ⟨l, hl⟩ := Option.ne_none_iff_exists'.1 hsome
  obtain ⟨pa, hpa⟩ := (foldl_ownStep_some hl).2 i (List.mem_range.2 hi)
  exact h pa hpa

theorem foldl_ownStep_take {lines : List Nat} (h : ∀ i < lines.length, OwnsLine s n b va i (lines.getD i 0)) {m : Nat} (hm : m ≤ lines.length) :
    (List.range m).foldl (ownStep s b n va) (some []) = some (lines.take m) := by
  induction m with
  | zero => rfl
  | succ m ih =>
    have hline : lines.getD m 0 = lines[m] := by simp [Nat.lt_of_succ_le hm]
    rw [List.range_succ, List.foldl_append, ih (Nat.le_of_lt hm), List.foldl_cons, List.foldl_nil, ownStep_line (h m hm), hline, List.take_append_getElem]

theorem ownLines_some {lines : List Nat} {len : Nat} (hlen : lines.length = len / 128) (h : ∀ i < len / 128, OwnsLine s n b va i (lines.getD i 0)) :
    ownLines s b n va len = some lines := by
  rw [ownLines_eq, ← hlen, foldl_ownStep_take (hlen ▸ h) (Nat.le_refl _), List.take_length]

/-! A range that is registered. -/

theorem ownPerform_untranslated (hroom : (coreOf s n).owned.length < 64) (hshape : ownShape va sz = true) (h : ownLines s b n va sz.toNat = none) :
    ownPerform s n b va sz = (walkedRange s (jobWho b n) va sz.toNat, -3#64) := by
  simp [ownPerform, Nat.not_le.2 hroom, hshape, h]

/-- The range at `va` overlaps `r`, or has a line of it. -/
def MeetsRange (va : Word) (len : Nat) (lines : List Nat) (r : OwnRange) : Prop :=
  (r.va.toNat < va.toNat + len ∧ va.toNat < r.va.toNat + r.len) ∨ ∃ a ∈ r.lines, a ∈ lines

theorem meetsRange_iff {len : Nat} {lines : List Nat} {r : OwnRange} :
    (overlap r.va.toNat r.len va.toNat len || r.lines.any lines.contains) = true ↔ MeetsRange va len lines r := by
  simp [overlap, MeetsRange]

theorem ownPerform_meets {lines : List Nat} (hroom : (coreOf s n).owned.length < 64) (hshape : ownShape va sz = true) (hlines : ownLines s b n va sz.toNat = some lines)
    (h : ∃ r ∈ (coreOf s n).owned, MeetsRange va sz.toNat lines r) : ownPerform s n b va sz = (walkedRange s (jobWho b n) va sz.toNat, -4#64) := by
  obtain ⟨r, hr, hmeets⟩ := h
  have hany : (coreOf s n).owned.any (fun r => overlap r.va.toNat r.len va.toNat sz.toNat || r.lines.any lines.contains) = true :=
    List.any_eq_true.2 ⟨r, hr, meetsRange_iff.2 hmeets⟩
  simp only [ownPerform, Nat.not_le.2 hroom, hshape, hlines, hany, if_false, if_true, Bool.not_true, Bool.false_eq_true]

theorem coreOf_foldl_writeBack (s : State) (l : List Line) (n : Nat) : coreOf (l.foldl writeBack s) n = coreOf s n := by
  rw [coreOf, foldl_keeps State.cores writeBack_cores]
  rfl

theorem dropLines_owned (s : State) (n : Nat) (p : Line → Bool) : (coreOf (dropLines s n p) n).owned = (coreOf s n).owned := by
  unfold dropLines
  dsimp only
  rw [coreOf_modCore]
  rw [coreOf_foldl_writeBack]

/-- The lines of other cores are recalled; a core keeps its own ranges. -/
theorem recallLine_keeps_own (s : State) (n pa len : Nat) : coreOf (recallLine s (some n) pa len) n = coreOf s n := by
  unfold recallLine
  refine foldl_keeps (coreOf · n) (fun t e => ?_) ..
  dsimp only
  split_ifs with h
  · rfl
  · have hn : n ≠ e.1 := by
      rintro rfl
      simp at h
    rw [coreOf_modCore_other _ _ hn, coreOf_foldl_writeBack]

theorem ownPerform_registers {lines : List Nat} (hroom : (coreOf s n).owned.length < 64) (hshape : ownShape va sz = true) (hlines : ownLines s b n va sz.toNat = some lines)
    (h : ∀ r ∈ (coreOf s n).owned, ¬ MeetsRange va sz.toNat lines r) :
    ∃ t, ownPerform s n b va sz = (t, 0#64)
      ∧ (coreOf t n).owned = (coreOf (walkedRange s (jobWho b n) va sz.toNat) n).owned ++ [{ owner := (b.ctx, b.task), va := va, len := sz.toNat, lines := lines }] := by
  have hany : (coreOf s n).owned.any (fun r => overlap r.va.toNat r.len va.toNat sz.toNat || r.lines.any lines.contains) = false :=
    List.any_eq_false.2 fun r hr hm => h r hr (meetsRange_iff.1 hm)
  simp only [ownPerform, Nat.not_le.2 hroom, hshape, hlines, hany, if_false, Bool.not_true, Bool.false_eq_true]
  refine ⟨_, rfl, ?_⟩
  rw [coreOf_modCore]
  have hkept := foldl_keeps (coreOf · n) (fun t a => recallLine_keeps_own t n a 128) (dropLines (walkedRange s (jobWho b n) va sz.toNat) n (fun x => lines.contains x.addr)) lines
  dsimp only at hkept ⊢
  rw [hkept, dropLines_owned]

/-! Ranges that end. -/

theorem disownPerform_unknown (h : ∀ r ∈ (coreOf s n).owned, r.va ≠ va) : disownPerform s n va = (s, -1#64) := by
  have hany : ¬ (coreOf s n).owned.any (fun r => r.va == va) = true := by simpa using h
  exact if_neg hany

theorem disownPerform_known (h : ∃ r ∈ (coreOf s n).owned, r.va = va) :
    ∃ t, disownPerform s n va = (t, 0#64) ∧ (coreOf t n).owned = (coreOf s n).owned.filter (fun r => r.va != va) := by
  have hany : (coreOf s n).owned.any (fun r => r.va == va) = true := by simpa using h
  exact ⟨_, if_pos hany, (releaseRanges_core ..).1⟩

end

theorem ownMoves_holds : OwnMoves := by
  intro s n j o va sz d b k len shape line w meets
  refine ⟨fun hk => ⟨fun hfull => ?_, fun hroom hshape => ?_, fun hstruck => ?_, fun hroom hshape hfree hnone => ?_, fun lines hroom hshape hfree hlen hlines => ?_⟩,
    fun hk => ⟨fun hunknown => ?_, fun hknown => ?_⟩⟩
  · exact sqGives_own_free hk (ownStruck_full hfull) (ownPerform_full hfull)
  · have hbad : ownShape va sz = false := Bool.eq_false_iff.2 (mt ownShape_iff.1 hshape)
    exact sqGives_own_free hk (ownStruck_misshapen hbad) (ownPerform_misshapen hroom hbad)
  · exact sqGives_own hk (if_pos hstruck)
  · obtain ⟨i, hi, hline⟩ := hnone
    exact sqGives_own_free hk hfree (ownPerform_untranslated hroom (ownShape_iff.2 hshape) (ownLines_none hi hline))
  · have hsome : ownLines s b n va len = some lines := ownLines_some hlen hlines
    refine ⟨fun hmeets => ?_, fun hmeets => ?_⟩
    · exact sqGives_own_free hk hfree (ownPerform_meets hroom (ownShape_iff.2 hshape) hsome hmeets)
    · obtain ⟨t, ht, howned⟩ := ownPerform_registers hroom (ownShape_iff.2 hshape) hsome hmeets
      exact ⟨t, sqGives_own_free hk hfree ht, howned⟩
  · exact sqGives_disown hk (disownPerform_unknown hunknown)
  · obtain ⟨t, ht, howned⟩ := disownPerform_known hknown
    exact ⟨t, sqGives_disown hk ht, howned⟩

end Sys2Proof.Machine

/-! Spawned tasks, their tickets, and the counters of tasks (R49, R50, R57 to R59, R185). -/

namespace Sys2Proof.Machine

open Sys2Proof.Config

/-! Tasks of a launch. -/

section
variable {la : Launch} {k : Nat} {t : Task}

@[simp] theorem modTask_order (la : Launch) (k : Nat) (f : Task → Task) : (modTask la k f).order = la.order := by
  unfold modTask
  split <;> rfl

theorem makeReady_eq (h : taskOf la k = some t) :
    makeReady la k = { modTask la k (fun t => { t with st := .ready }) with order := tset la.order t.node (tget [] la.order t.node ++ [k]) } := by
  rw [makeReady, h]
  dsimp only
  rw [modTask_order]

/-- A task made ready is at the tail of its node's ready order. -/
theorem makeReady_spec (h : taskOf la k = some t) :
    taskOf (makeReady la k) k = some { t with st := .ready } ∧ tget [] (makeReady la k).order t.node = tget [] la.order t.node ++ [k] := by
  rw [makeReady_eq h]
  exact ⟨taskOf_modTask_same h _, tget_tset_same ..⟩

theorem decTask_still (h : taskOf la k = some t) (hst : t.st ≠ .waiting) : decTask la k = la := by
  rw [decTask, h]
  exact if_pos (bne_iff_ne.2 hst)

theorem decTask_waiting (h : taskOf la k = some t) (hst : t.st = .waiting) :
    decTask la k = if t.ctr ≤ 1 then makeReady (modTask la k (fun t => { t with ctr := t.ctr - 1 })) k else modTask la k (fun t => { t with ctr := t.ctr - 1 }) := by
  rw [decTask, h]
  simp [hst]

/-- A decrement of a waiting task makes it ready where its counter was 0 or 1. -/
theorem decTask_spec (h : taskOf la k = some t) (hst : t.st = .waiting) :
    taskOf (decTask la k) k = some { t with ctr := t.ctr - 1, st := if t.ctr ≤ 1 then .ready else .waiting }
    ∧ tget [] (decTask la k).order t.node = if t.ctr ≤ 1 then tget [] la.order t.node ++ [k] else tget [] la.order t.node := by
  have hdec := taskOf_modTask_same h (fun t => { t with ctr := t.ctr - 1 })
  rw [decTask_waiting h hst]
  split_ifs with hc
  · obtain ⟨htask, horder⟩ := makeReady_spec hdec
    exact ⟨htask, by simpa using horder⟩
  · exact ⟨by rw [hdec, ← hst], by rw [modTask_order]⟩

end

section
variable {s : State} {n j p c : Nat} {o : Op} {d : Nat} {a b : Word}

/-! What the SQ gives for each. -/

theorem sqGives_spawn (hk : o.kind = .spawn d a b) {t : State} {w : Word} (h : spawnTask s (jobOf s n j).part (jobOf s n j).ctx (jobOf s n j).depth a b = (t, w)) : sqGives s n j o t d w := by
  intro direct
  unfold sqPerform
  simp only [hk, h]
  rfl

theorem sqGives_sptest (hk : o.kind = .sptest d a) {w : Word} (h : (if badTicket a then -1#64 else boolWord (ticketDone s (jobOf s n j).part a)) = w) : sqGives s n j o s d w := by
  intro direct
  unfold sqPerform
  simp only [hk, h]
  rfl

theorem sqGives_depdec (hk : o.kind = .depdec d a) {t : State} {w : Word} (h : depDec s (jobOf s n j).part (jobOf s n j).ctx a = (t, w)) : sqGives s n j o t d w := by
  intro direct
  unfold sqPerform
  simp only [hk, h]
  rfl

theorem sqGives_depinc (hk : o.kind = .depinc d a) {t : State} {w : Word} (h : depInc s (jobOf s n j).part (jobOf s n j).ctx a = (t, w)) : sqGives s n j o t d w := by
  intro direct
  unfold sqPerform
  simp only [hk, h]
  rfl

/-! spawn (R57 to R59). -/

theorem freeEntry_none {q : Partition} (h : ∀ i < 4096, i ∈ q.poolUsed) : freeEntry q = none := by
  refine List.find?_range_eq_none.2 fun i hi => ?_
  simp [h i hi]

theorem freeEntry_some {q : Partition} {e : Nat} (he : e < 4096) (hfree : e ∉ q.poolUsed) (h : ∀ i < e, i ∈ q.poolUsed) : freeEntry q = some e := by
  refine List.find?_range_eq_some.2 ⟨by simp [hfree], List.mem_range.2 he, fun i hi => ?_⟩
  simp [h i hi]

/-- A node of a context's launch. -/
def NodeStands (s : State) (p c node : Nat) : Prop := node < (graphOf s p c).nodes.length ∧ (ctxOf s p c).launch ≠ none

theorem nodeStands_iff {node : Nat} : ¬ NodeStands s p c node ↔ (graphOf s p c).nodes.length ≤ node ∨ (ctxOf s p c).launch.isNone = true := by
  simp [NodeStands, imp_iff_not_or]

theorem spawnTask_nowhere {depth : Nat} (h : ¬ NodeStands s p c a.toNat) : spawnTask s p c depth a b = (s, -1#64) := if_pos (nodeStands_iff.1 h)

section
variable {depth : Nat} (hnode : NodeStands s p c a.toNat)
include hnode

theorem spawnTask_deep (hdeep : (partOf s p).splimit.toNat < depth + 1) : spawnTask s p c depth a b = (s, -2#64) := by
  unfold spawnTask
  dsimp only
  rw [if_neg (mt nodeStands_iff.2 (not_not_intro hnode)), if_pos hdeep]

variable (hdepth : depth + 1 ≤ (partOf s p).splimit.toNat)
include hdepth

theorem spawnTask_crowded (hfull : ¬ spawnQueue (launchOf s p c) a.toNat < 64) : spawnTask s p c depth a b = (s, -3#64) := by
  unfold spawnTask
  dsimp only
  rw [if_neg (mt nodeStands_iff.2 (not_not_intro hnode)), if_neg (Nat.not_lt.2 hdepth), if_pos (Nat.not_lt.1 hfull)]

variable (hroom : spawnQueue (launchOf s p c) a.toNat < 64)
include hroom

theorem spawnTask_noEntry (hfull : freeEntry (partOf s p) = none) : spawnTask s p c depth a b = (s, -4#64) := by
  unfold spawnTask
  dsimp only
  rw [if_neg (mt nodeStands_iff.2 (not_not_intro hnode)), if_neg (Nat.not_lt.2 hdepth), if_neg (Nat.not_le.2 hroom), hfull]

end

/-- A launch with a ready task more. -/
def spawned (a b : Word) (depth e : Nat) (la : Launch) : Launch :=
  makeReady { la with tasks := tset la.tasks (spawnKey a.toNat e) { node := a.toNat, tile := bitsAt b 0 24, depth := depth + 1, pool := some e } } (spawnKey a.toNat e)

theorem spawnTask_spawns {depth e : Nat} (hnode : NodeStands s p c a.toNat) (hdepth : depth + 1 ≤ (partOf s p).splimit.toNat)
    (hroom : spawnQueue (launchOf s p c) a.toNat < 64) (hfree : freeEntry (partOf s p) = some e) :
    spawnTask s p c depth a b = (modLaunch (modPart s p (fun q => { q with poolUsed := e :: q.poolUsed })) p c (spawned a b depth e),
      w64 ((tget 0#16 (partOf s p).poolGen e).toNat * 4096 + e)) := by
  unfold spawnTask
  dsimp only
  rw [if_neg (mt nodeStands_iff.2 (not_not_intro hnode)), if_neg (Nat.not_lt.2 hdepth), if_neg (Nat.not_le.2 hroom), hfree]
  rfl

theorem spawned_spec (a b : Word) (depth e : Nat) (la : Launch) :
    taskOf (spawned a b depth e la) (spawnKey a.toNat e) = some { node := a.toNat, tile := b.toNat % 2 ^ 24, st := .ready, depth := depth + 1, pool := some e }
    ∧ tget [] (spawned a b depth e la).order a.toNat = tget [] la.order a.toNat ++ [spawnKey a.toNat e] := by
  have hbits : b.toNat % 2 ^ 24 = bitsAt b 0 24 := by simp [bitsAt]
  rw [hbits]
  exact makeReady_spec (la := { la with tasks := tset la.tasks (spawnKey a.toNat e) { node := a.toNat, tile := bitsAt b 0 24, depth := depth + 1, pool := some e } }) (tfind_tset_same ..)

theorem modLaunch_poolUsed (s : State) (p c : Nat) (f : Launch → Launch) : (partOf (modLaunch s p c f) p).poolUsed = (partOf s p).poolUsed := by
  unfold modLaunch modCtx
  rw [partOf_modPart]

theorem launchOf_takePool (hlaunch : (ctxOf s p c).launch ≠ none) (e : Nat) (f : Launch → Launch) :
    launchOf (modLaunch (modPart s p (fun q => { q with poolUsed := e :: q.poolUsed })) p c f) p c = f (launchOf s p c) := by
  have hctx : ctxOf (modPart s p (fun q => { q with poolUsed := e :: q.poolUsed })) p c = ctxOf s p c := ctxOf_modPart (by intro q; rfl) ..
  rw [launchOf_modLaunch (by rwa [hctx]), launchOf, hctx]
  rfl

/-! sptest (R185). -/

theorem sptest_bad (h : 2 ^ 28 ≤ a.toNat) : (if badTicket a then -1#64 else boolWord (ticketDone s p a)) = -1#64 := by
  have hbad : badTicket a = true := by
    unfold badTicket
    exact decide_eq_true h
  rw [hbad]
  rfl

theorem sptest_good (h : a.toNat < 2 ^ 28) :
    (if badTicket a then -1#64 else boolWord (ticketDone s p a)) = if (tget 0#16 (partOf s p).poolGen (a.toNat % 4096)).toNat = a.toNat / 4096 then 0#64 else 1#64 := by
  have hgood : badTicket a = false := by
    unfold badTicket
    exact decide_eq_false (Nat.not_le.2 h)
  rw [hgood, boolWord, ticketDone]
  simp

/-! depdec and depinc (R50). -/

theorem depDec_unnamed (h : namedTask s p c a = none) : depDec s p c a = (s, -2#64) := by rw [depDec, h]

theorem depInc_unnamed (h : namedTask s p c a = none) : depInc s p c a = (s, -2#64) := by rw [depInc, h]

section
variable {k : Nat} {t : Task} (hname : namedTask s p c a = some k) (htask : taskOf (launchOf s p c) k = some t)
include hname htask

theorem depDec_still (hst : t.st ≠ .waiting) : depDec s p c a = (s, -1#64) := by
  unfold depDec
  simp only [hname, htask]
  exact if_pos (bne_iff_ne.2 hst)

theorem depInc_still (hst : t.st ≠ .waiting) : depInc s p c a = (s, -1#64) := by
  unfold depInc
  simp only [hname, htask]
  exact if_pos (bne_iff_ne.2 hst)

theorem depDec_waiting (hst : t.st = .waiting) : depDec s p c a = (modLaunch s p c (fun la => decTask la k), if t.ctr ≤ 1 then 1#64 else 0#64) := by
  simp [depDec, hname, htask, hst]

theorem depInc_full (hst : t.st = .waiting) (hfull : 65535 ≤ t.ctr) : depInc s p c a = (s, -3#64) := by
  simp [depInc, hname, htask, hst, hfull]

theorem depInc_waiting (hst : t.st = .waiting) (hroom : t.ctr < 65535) : depInc s p c a = (modLaunch s p c (fun la => modTask la k (fun t => { t with ctr := t.ctr + 1 })), 0#64) := by
  simp [depInc, hname, htask, hst, Nat.not_le.2 hroom]

end

end

theorem taskMoves_holds : TaskMoves := by
  refine ⟨?ops, fun la k t ht => ⟨decTask_still ht, decTask_spec ht⟩⟩
  intro s n j o d a b p c depth q node exists' room
  refine ⟨fun hk => ⟨fun hnode => ?_, fun hnode hdeep => ?_, fun hnode hdepth hroom => ?_, fun hnode hdepth hroom hfull => ?_, fun e he hnode hdepth hroom hfree hlow => ?_⟩,
    fun hk => ⟨fun hbad => ?_, fun hgood => ?_⟩, fun hk hname => ?_, fun k t hname htask => ?_⟩
  · exact sqGives_spawn hk (spawnTask_nowhere hnode)
  · exact sqGives_spawn hk (spawnTask_deep hnode hdeep)
  · exact sqGives_spawn hk (spawnTask_crowded hnode hdepth hroom)
  · exact sqGives_spawn hk (spawnTask_noEntry hnode hdepth hroom (freeEntry_none hfull))
  · refine ⟨_, sqGives_spawn hk (spawnTask_spawns hnode hdepth hroom (freeEntry_some he hfree hlow)), rfl, ?_, ?_⟩
    · rw [modLaunch_poolUsed, partOf_modPart]
    · rw [launchOf_takePool hnode.2]
      exact spawned_spec ..
  · exact sqGives_sptest hk (sptest_bad hbad)
  · exact sqGives_sptest hk (sptest_good hgood)
  · obtain hk | hk := hk
    · exact sqGives_depdec hk (depDec_unnamed hname)
    · exact sqGives_depinc hk (depInc_unnamed hname)
  · have hlaunch := launch_of_taskOf htask
    refine ⟨fun hk hst => ?_, fun hk hst => ?_, fun hk hst hfull => ?_, fun hk hst hroom => ?_⟩
    · obtain hk | hk := hk
      · exact sqGives_depdec hk (depDec_still hname htask hst)
      · exact sqGives_depinc hk (depInc_still hname htask hst)
    · exact ⟨_, sqGives_depdec hk (depDec_waiting hname htask hst), launchOf_modLaunch hlaunch _⟩
    · exact sqGives_depinc hk (depInc_full hname htask hst hfull)
    · refine ⟨_, sqGives_depinc hk (depInc_waiting hname htask hst hroom), ?_⟩
      rw [launchOf_modLaunch hlaunch]
      exact taskOf_modTask_same htask _

end Sys2Proof.Machine

/-! The work-lists of a job's context (R187). -/

namespace Sys2Proof.Machine

open Sys2Proof.Config

section
variable {s : State} {n j : Nat} {o : Op} {d : Nat} {a b : Word}

theorem sqGives_wlpush (hk : o.kind = .wlpush d a b) {t : State} {w : Word} (h : wlPush s (jobOf s n j).part (jobOf s n j).ctx a b = (t, w)) : sqGives s n j o t d w := by
  intro direct
  unfold sqPerform
  simp only [hk, h]
  rfl

theorem sqGives_wlins (hk : o.kind = .wlins d a b) {t : State} {w : Word} (h : wlIns s (jobOf s n j).part (jobOf s n j).ctx a b = (t, w)) : sqGives s n j o t d w := by
  intro direct
  unfold sqPerform
  simp only [hk, h]
  rfl

theorem sqGives_wlcnt (hk : o.kind = .wlcnt d a) {w : Word} (h : wlCnt s (jobOf s n j).part (jobOf s n j).ctx a = w) : sqGives s n j o s d w := by
  intro direct
  unfold sqPerform
  simp only [hk, h]
  rfl

theorem sqGives_wldrain (hk : o.kind = .wldrain d a) {t : State} {w : Word} (h : wlDrain s (jobOf s n j).part (jobOf s n j).ctx a = (t, w)) : sqGives s n j o t d w := by
  intro direct
  unfold sqPerform
  simp only [hk, h]
  rfl

/-- Who performs a work-list operation: the job, at the privilege of issue. -/
def opWho (s : State) (n j : Nat) (o : Op) : Who := { p := (jobOf s n j).part, c := (jobOf s n j).ctx, core := some n, user := !o.sup }

theorem sqGives_wlcfg (hk : o.kind = .wlcfg d a b) {t : State} {w : Word} (h : wlCfg s (opWho s n j o) a b = (t, w)) : sqGives s n j o t d w := by
  intro direct
  unfold opWho at h
  unfold sqPerform jobWho
  simp only [hk, h]
  rfl

theorem sqGives_wlpopb (hk : o.kind = .wlpopb d a b) {t : State} {w : Word} (h : wlPopb s (opWho s n j o) a b = (t, .ok w)) : sqGives s n j o t d w := by
  intro direct
  unfold opWho at h
  unfold sqPerform jobWho
  simp only [hk, h]
  rfl

theorem sqPerform_wlpopb_faults (hk : o.kind = .wlpopb d a b) {t : State} {e : VErr} (h : wlPopb s (opWho s n j o) a b = (t, .error e)) (direct : Bool) :
    ∃ f, sqPerform s n j o direct = .fault t f ∧ f.cause = causeOf e ∧ f.faddr = addrOf e := by
  unfold opWho at h
  unfold sqPerform jobWho
  simp only [hk, h]
  exact ⟨_, rfl, rfl, rfl⟩

variable {p c k : Nat} {w : Who} {l : WorkList}

theorem setList_bound (s : State) (p c k : Nat) (l : WorkList) : tfind (ctxOf (setList s p c k l) p c).lists k = some l := by
  rw [setList, ctxOf_modCtx]
  exact tfind_tset_same ..

theorem unset_bound (s : State) (p c k : Nat) : tfind (ctxOf (modCtx s p c (fun x => { x with lists := tdel x.lists k })) p c).lists k = none := by
  rw [ctxOf_modCtx]
  exact tfind_tdel_same ..

/-! The list that an operand names. -/

theorem wlNamed_outside (h : 16 ≤ a.toNat) : wlNamed s p c a = .error (-4#64) := if_pos h

theorem wlNamed_unbound (hk : a.toNat < 16) (h : tfind (ctxOf s p c).lists a.toNat = none) : wlNamed s p c a = .error (-2#64) := by
  rw [wlNamed, if_neg (Nat.not_le.2 hk), listOf, h]

theorem wlNamed_bound (hk : a.toNat < 16) (h : tfind (ctxOf s p c).lists a.toNat = some l) : wlNamed s p c a = .ok (a.toNat, l) := by
  rw [wlNamed, if_neg (Nat.not_le.2 hk), listOf, h]

/-- An operation on a list that is not there changes nothing, and its value says why. -/
theorem sqGives_refused {e : Word} (h : wlNamed s (jobOf s n j).part (jobOf s n j).ctx a = .error e)
    (hk : o.kind = .wlpush d a b ∨ o.kind = .wlins d a b ∨ o.kind = .wlcnt d a ∨ o.kind = .wldrain d a) : sqGives s n j o s d e := by
  obtain hk | hk | hk | hk := hk
  · exact sqGives_wlpush hk (by rw [wlPush, h])
  · exact sqGives_wlins hk (by rw [wlIns, h])
  · exact sqGives_wlcnt hk (by rw [wlCnt, h])
  · exact sqGives_wldrain hk (by rw [wlDrain, h])

theorem bitsAt_word (b : Word) : bitsAt b 0 32 = b.toNat % 2 ^ 32 := by simp [bitsAt]

section
variable (h : wlNamed s p c a = .ok (k, l))
include h

theorem wlPush_full (hfull : l.cap ≤ l.entries.length) : wlPush s p c a b = (s, -1#64) := by
  rw [wlPush, h]
  exact if_pos hfull

theorem wlPush_adds (hroom : l.entries.length < l.cap) : wlPush s p c a b = (setList s p c k { l with entries := l.entries ++ [b.toNat % 2 ^ 32] }, 0#64) := by
  rw [wlPush, h, bitsAt_word]
  exact if_neg (Nat.not_le.2 hroom)

theorem wlIns_outside (hv : l.domain ≤ b.toNat % 2 ^ 32) : wlIns s p c a b = (s, -3#64) := by
  rw [wlIns, h, bitsAt_word]
  exact if_pos hv

section
variable (hv : b.toNat % 2 ^ 32 < l.domain)
include hv

theorem wlIns_held (hin : b.toNat % 2 ^ 32 ∈ l.bits) : wlIns s p c a b = (s, 1#64) := by
  rw [wlIns, h, bitsAt_word]
  dsimp only
  rw [if_neg (Nat.not_le.2 hv), if_pos (List.contains_iff_mem.2 hin)]

theorem wlIns_full (hnew : b.toNat % 2 ^ 32 ∉ l.bits) (hfull : l.cap ≤ l.entries.length) : wlIns s p c a b = (s, -1#64) := by
  rw [wlIns, h, bitsAt_word]
  dsimp only
  rw [if_neg (Nat.not_le.2 hv), if_neg (mt List.contains_iff_mem.1 hnew), if_pos hfull]

theorem wlIns_adds (hnew : b.toNat % 2 ^ 32 ∉ l.bits) (hroom : l.entries.length < l.cap) :
    wlIns s p c a b = (setList s p c k { l with entries := l.entries ++ [b.toNat % 2 ^ 32], bits := (b.toNat % 2 ^ 32) :: l.bits }, 0#64) := by
  rw [wlIns, h, bitsAt_word]
  dsimp only
  rw [if_neg (Nat.not_le.2 hv), if_neg (mt List.contains_iff_mem.1 hnew), if_neg (Nat.not_le.2 hroom)]

end

theorem wlCnt_counts : wlCnt s p c a = w64 l.entries.length := by rw [wlCnt, h]

theorem wlDrain_empties : wlDrain s p c a = (setList s p c k { l with entries := [], bits := clearBits l l.entries }, w64 l.entries.length) := by rw [wlDrain, h]

end

/-! wlcfg. -/

theorem wlCfg_outside (h : 16 ≤ b.toNat) : wlCfg s w a b = (s, -4#64) := if_pos h

section
variable (hk : b.toNat < 16)
include hk

theorem wlCfg_nothing (ha : a = 0#64) (h : tfind (ctxOf s w.p w.c).lists b.toNat = none) : wlCfg s w a b = (s, -1#64) := by
  simp [wlCfg, Nat.not_le.2 hk, listOf, h, ha]

theorem wlCfg_taken (ha : a ≠ 0#64) (h : tfind (ctxOf s w.p w.c).lists b.toNat ≠ none) : wlCfg s w a b = (s, -1#64) := by
  obtain ⟨l, hl⟩ := Option.ne_none_iff_exists'.1 h
  simp [wlCfg, Nat.not_le.2 hk, listOf, hl, ha]

theorem wlCfg_unbinds (ha : a = 0#64) (h : tfind (ctxOf s w.p w.c).lists b.toNat ≠ none) :
    wlCfg s w a b = (modCtx s w.p w.c (fun x => { x with lists := tdel x.lists b.toNat }), 0#64) := by
  obtain ⟨l, hl⟩ := Option.ne_none_iff_exists'.1 h
  simp [wlCfg, Nat.not_le.2 hk, listOf, hl, ha]

theorem wlCfg_unread (ha : a ≠ 0#64) (h : tfind (ctxOf s w.p w.c).lists b.toNat = none) {t : State} (hread : readList s w a = (t, none)) : wlCfg s w a b = (t, -2#64) := by
  simp [wlCfg, Nat.not_le.2 hk, listOf, h, ha, hread]

theorem wlCfg_binds (ha : a ≠ 0#64) (h : tfind (ctxOf s w.p w.c).lists b.toNat = none) {t : State} (hread : readList s w a = (t, some l)) :
    wlCfg s w a b = (setList t w.p w.c b.toNat l, 0#64) := by
  simp [wlCfg, Nat.not_le.2 hk, listOf, h, ha, hread]

end

/-! wlpopb. -/

theorem bitsAt_list (a : Word) : bitsAt a 0 4 = a.toNat % 16 := by simp [bitsAt]

theorem bitsAt_count (a : Word) : bitsAt a 8 8 = a.toNat / 256 % 256 := by simp [bitsAt]

theorem wlPopb_unclean (h : a.toNat ≠ a.toNat % 16 + 256 * (a.toNat / 256 % 256)) : wlPopb s w a b = (s, .ok (-4#64)) := by
  rw [wlPopb, bitsAt_list, bitsAt_count, if_pos (by rwa [Nat.mul_comm])]

section
variable (hclean : a.toNat = a.toNat % 16 + 256 * (a.toNat / 256 % 256))
include hclean

theorem wlPopb_unbound (h : tfind (ctxOf s w.p w.c).lists (a.toNat % 16) = none) : wlPopb s w a b = (s, .ok (-2#64)) := by
  rw [wlPopb, bitsAt_list, bitsAt_count, if_neg (by rwa [Nat.mul_comm, not_not]), listOf, h]

variable (h : tfind (ctxOf s w.p w.c).lists (a.toNat % 16) = some l)
include h

theorem wlPopb_miscounted (hcnt : a.toNat / 256 % 256 = 0 ∨ 64 < a.toNat / 256 % 256) : wlPopb s w a b = (s, .ok (-3#64)) := by
  rw [wlPopb, bitsAt_list, bitsAt_count, if_neg (by rwa [Nat.mul_comm, not_not]), listOf, h]
  exact if_pos (hcnt.imp_left Nat.lt_one_iff.2)

variable (hcnt : 1 ≤ a.toNat / 256 % 256 ∧ a.toNat / 256 % 256 ≤ 64)
include hcnt

/-- A count that is allowed: what is left to do once the list is found. -/
theorem wlPopb_counted : wlPopb s w a b =
    let out := l.entries.take (a.toNat / 256 % 256)
    match vaCheck s w .write b (4 * out.length) with
    | some e => (walkedRange s w b (4 * out.length), .error e)
    | none =>
      if transitError s.tick then (walkedRange s w b (4 * out.length), .error (.fault cDataUe false b))
      else match vaWrite s w b (bytesOf 4 out) with
      | (s, .error e) => (s, .error e)
      | (s, .ok _) => (setList s w.p w.c (a.toNat % 16) { l with entries := l.entries.drop (a.toNat / 256 % 256), bits := clearBits l out }, .ok (w64 out.length)) := by
  have hcount : ¬ (a.toNat / 256 % 256 < 1 ∨ 64 < a.toNat / 256 % 256) := by omega
  rw [wlPopb, bitsAt_list, bitsAt_count, if_neg (by rwa [Nat.mul_comm, not_not]), listOf, h]
  exact if_neg hcount

theorem wlPopb_barred {e : VErr} (hcheck : vaCheck s w .write b (4 * (l.entries.take (a.toNat / 256 % 256)).length) = some e) :
    wlPopb s w a b = (walkedRange s w b (4 * (l.entries.take (a.toNat / 256 % 256)).length), .error e) := by
  rw [wlPopb_counted hclean h hcnt]
  dsimp only
  rw [hcheck]

theorem wlPopb_pops (hfree : transitError s.tick = false) (hcheck : vaCheck s w .write b (4 * (l.entries.take (a.toNat / 256 % 256)).length) = none) {t : State}
    (hwrite : vaWrite s w b ((l.entries.take (a.toNat / 256 % 256)).flatMap (leBytes 4)) = (t, .ok ())) :
    wlPopb s w a b = (setList t w.p w.c (a.toNat % 16) { l with entries := l.entries.drop (a.toNat / 256 % 256), bits := clearBits l (l.entries.take (a.toNat / 256 % 256)) },
      .ok (w64 (l.entries.take (a.toNat / 256 % 256)).length)) := by
  rw [wlPopb_counted hclean h hcnt]
  dsimp only
  rw [hcheck]
  dsimp only
  rw [hfree, if_neg Bool.false_ne_true, bytesOf, hwrite]

end

end

theorem workListMoves_holds : WorkListMoves := by
  intro s n j o d a b p c w bound v named leaves
  refine ⟨fun hk hout => sqGives_refused (wlNamed_outside hout) hk, fun hk hin hnone => sqGives_refused (wlNamed_unbound hin hnone) hk, fun l hin hl => ?named, fun hk => ?cfg, fun hk => ?popb⟩
  case named =>
    have hname : wlNamed s p c a = .ok (a.toNat, l) := wlNamed_bound hin hl
    refine ⟨fun hk => ⟨fun hfull => ?_, fun hroom => ?_⟩, fun hk => ⟨fun hv => ?_, fun hv hold => ?_, fun hv hnew hfull => ?_, fun hv hnew hroom => ?_⟩, fun hk => ?_, fun hk => ?_⟩
    · exact sqGives_wlpush hk (wlPush_full hname hfull)
    · exact ⟨_, sqGives_wlpush hk (wlPush_adds hname hroom), setList_bound .., rfl⟩
    · exact sqGives_wlins hk (wlIns_outside hname hv)
    · exact sqGives_wlins hk (wlIns_held hname hv hold)
    · exact sqGives_wlins hk (wlIns_full hname hv hnew hfull)
    · exact ⟨_, sqGives_wlins hk (wlIns_adds hname hv hnew hroom), setList_bound .., rfl⟩
    · exact sqGives_wlcnt hk (wlCnt_counts hname)
    · exact ⟨_, sqGives_wldrain hk (wlDrain_empties hname), setList_bound .., rfl⟩
  case cfg =>
    refine ⟨fun hout => sqGives_wlcfg hk (wlCfg_outside hout), fun hin => ⟨fun ha hnone => ?_, fun ha hsome => ?_, fun ha hsome => ?_, fun ha hnone => ⟨fun t hread => ?_, fun t l hread => ?_⟩⟩⟩
    · exact sqGives_wlcfg hk (wlCfg_nothing hin ha hnone)
    · exact sqGives_wlcfg hk (wlCfg_taken hin ha hsome)
    · exact ⟨_, sqGives_wlcfg hk (wlCfg_unbinds hin ha hsome), unset_bound .., rfl⟩
    · exact sqGives_wlcfg hk (wlCfg_unread hin ha hnone hread)
    · exact ⟨_, sqGives_wlcfg hk (wlCfg_binds hin ha hnone hread), setList_bound .., rfl⟩
  case popb =>
    intro k cnt clean
    refine ⟨fun hbad => sqGives_wlpopb hk (wlPopb_unclean hbad), fun hclean hnone => sqGives_wlpopb hk (wlPopb_unbound hclean hnone), fun l hclean hl =>
      ⟨fun hcnt => sqGives_wlpopb hk (wlPopb_miscounted hclean hl hcnt), fun hpos hle => ⟨fun e hcheck => ?_, fun t hfree hcheck hwrite => ?_⟩⟩⟩
    · exact sqPerform_wlpopb_faults hk (wlPopb_barred hclean hl ⟨hpos, hle⟩ hcheck)
    · exact ⟨_, sqGives_wlpopb hk (wlPopb_pops hclean hl ⟨hpos, hle⟩ hfree hcheck hwrite), rfl, setList_bound ..⟩

end Sys2Proof.Machine

/-! The Firn instructions as they are performed (R274, R277, R279, R281 to R283). -/

namespace Sys2Proof.Machine

open Sys2Proof.Config

section
variable {s u : State} {n j : Nat} {o : Op} {d : Nat} {a b : Word} {f : FirnDesc}

theorem bitsAt_tile (b : Word) : bitsAt b 0 24 = b.toNat % 2 ^ 24 := by simp [bitsAt]

/-- The descriptor and the tile that a Firn instruction of a tile names. -/
theorem firnNamed_found (hdesc : descByVa s (jobOf s n j).part (jobOf s n j).ctx a = some f)
    (hk : o.kind = .frninv d a b ∨ o.kind = .frnstat d a b ∨ o.kind = .frnck d a b ∨ o.kind = .frnput d a b) :
    firnNamed s (jobOf s n j) o.kind = some (f, b.toNat % 2 ^ 24) := by
  rw [← bitsAt_tile]
  obtain hk | hk | hk | hk := hk <;> simp [firnNamed, hk, hdesc]

/-- No page that the instruction touches has a pending entry. -/
def Unblocked (s : State) (n j : Nat) : Prop := ∀ l, firnBlocked s n j l = none

/-- An instruction that is neither blocked nor struck goes on. -/
theorem firnTouches_goes (hsound : Unblocked s n j) (hreads : firnReads s (jobOf s n j) o.kind = [] ∨ transitError s.tick = false) (t : Nat) (writes : Bool) (body : Unit → Perf) :
    firnTouches s n j o t writes body = body () := by
  have hfree : (!(firnReads s (jobOf s n j) o.kind).isEmpty && transitError s.tick) = false := by
    obtain h | h := hreads <;> simp [h]
  unfold firnTouches
  simp only [hsound _, hfree, Bool.false_eq_true, if_false]

/-! frninv and frnstat (R282). -/

theorem sqGives_frninv (hk : o.kind = .frninv d a b) (hdesc : descByVa s (jobOf s n j).part (jobOf s n j).ctx a = some f) :
    sqGives s n j o (emptyEntry s (jobOf s n j).part (jobOf s n j).ctx f.layer (b.toNat % 2 ^ 24)).1 d
      (boolWord (firnEntry (ctxOf s (jobOf s n j).part (jobOf s n j).ctx) f.layer (b.toNat % 2 ^ 24)).valid) := by
  have hname := firnNamed_found hdesc (.inl hk)
  intro direct
  rw [hk] at hname
  unfold sqPerform firnPerform
  simp only [hk, hname]
  rfl

theorem tfind_tdel_other {α : Type} (t : Table α) {k x : Nat} (h : x ≠ k) : tfind (tdel t k) x = tfind t x :=
  tfind_filter_kept fun e he => by simp [he, h]

/-- An emptied entry is gone, and the others stand. -/
theorem emptyEntry_firn (s : State) (p c layer t : Nat) :
    tfind (ctxOf (emptyEntry s p c layer t).1 p c).firn (firnKey layer t) = none
    ∧ ∀ x, x ≠ firnKey layer t → tfind (ctxOf (emptyEntry s p c layer t).1 p c).firn x = tfind (ctxOf s p c).firn x := by
  unfold emptyEntry
  dsimp only
  rw [ctxOf_modCtx]
  exact ⟨tfind_tdel_same .., fun x hx => tfind_tdel_other _ hx⟩

theorem sqGives_frnstat (hk : o.kind = .frnstat d a b) (hdesc : descByVa s (jobOf s n j).part (jobOf s n j).ctx a = some f) :
    sqGives s n j o s d (firnStat (firnEntry (ctxOf s (jobOf s n j).part (jobOf s n j).ctx) f.layer (b.toNat % 2 ^ 24))) := by
  have hname := firnNamed_found hdesc (.inr (.inl hk))
  intro direct
  rw [hk] at hname
  unfold sqPerform firnPerform
  simp only [hk, hname]
  rfl

/-! frnput (R281). -/

theorem sqGives_frnput (hk : o.kind = .frnput d a b) (hdesc : descByVa s (jobOf s n j).part (jobOf s n j).ctx a = some f) (hsound : Unblocked s n j)
    (hreads : firnReads s (jobOf s n j) o.kind = [] ∨ transitError s.tick = false)
    (h : installEntry s (firnWho (jobOf s n j).part (jobOf s n j).ctx (some n)) f (b.toNat % 2 ^ 24) (kOf s (jobOf s n j) 0) = (u, .ok ())) : sqGives s n j o u d 0#64 := by
  have hname := firnNamed_found hdesc (.inr (.inr (.inr hk)))
  intro direct
  rw [hk] at hname
  unfold sqPerform firnPerform
  simp only [hk, hname, firnTouches_goes hsound hreads, h]
  rfl

/-! frnck (R279, R283). -/

section
variable (hk : o.kind = .frnck d a b) (hdesc : descByVa s (jobOf s n j).part (jobOf s n j).ctx a = some f) (hsound : Unblocked s n j)
    (hreads : firnReads s (jobOf s n j) o.kind = [] ∨ transitError s.tick = false)
include hk hdesc hsound hreads

theorem sqGives_frnck_miss
    (h : probeTest s (firnWho (jobOf s n j).part (jobOf s n j).ctx (some n)) f (b.toNat % 2 ^ 24) (kOf s (jobOf s n j) 0) (kOf s (jobOf s n j) 6) = (u, .ok false)) :
    sqGives s n j o u d 0#64 := by
  have hname := firnNamed_found hdesc (.inr (.inr (.inl hk)))
  intro direct
  rw [hk] at hname
  unfold sqPerform firnPerform
  simp only [hk, hname, firnTouches_goes hsound hreads, h]
  rfl

theorem sqGives_frnck_hit {w : State}
    (h : probeTest s (firnWho (jobOf s n j).part (jobOf s n j).ctx (some n)) f (b.toNat % 2 ^ 24) (kOf s (jobOf s n j) 0) (kOf s (jobOf s n j) 6) = (u, .ok true))
    (hsound' : Unblocked u n j) (hcopy : copyResult u (firnWho (jobOf s n j).part (jobOf s n j).ctx (some n)) f (b.toNat % 2 ^ 24) = (w, .ok ())) :
    sqGives s n j o (dropResult (markHit w (jobOf s n j).part (jobOf s n j).ctx f (b.toNat % 2 ^ 24) (kOf s (jobOf s n j) 0)) (jobOf s n j) n f (b.toNat % 2 ^ 24)) d 1#64 := by
  have hname := firnNamed_found hdesc (.inr (.inr (.inl hk)))
  intro direct
  rw [hk] at hname
  unfold sqPerform firnPerform
  simp only [hk, hname, firnTouches_goes hsound hreads, h, hsound' _, hcopy]
  rfl

end

theorem dropLines_keepsJobs (s : State) (n : Nat) (p : Line → Bool) : KeepsJobs s (dropLines s n p) := by
  unfold dropLines
  exact (KeepsJobs.foldl writeBack_keepsJobs s _).trans (.modCore _ _ fun _ _ => rfl)

theorem walkedRange_keepsJobs (s : State) (w : Who) (va : Word) (len : Nat) : KeepsJobs s (walkedRange s w va len) := .foldl (fun t x => walked_keepsJobs t w x) s _

/-- Invalidated lines leave the contexts and the jobs. -/
theorem invalidateRange_keepsJobs (s : State) (b : Job) (n lo hi : Nat) : KeepsJobs s (invalidateRange s b n lo hi) := by
  refine (walkedRange_keepsJobs s (jobWho b n) (w64 lo) (hi - lo)).trans (.foldl (fun t r => ?_) _ _)
  split
  · exact dropLines_keepsJobs ..
  · exact .refl t

/-- A hit marks the bit of its step. -/
theorem firnEntry_markHit (s : State) (p c : Nat) (f : FirnDesc) (t : Nat) (k0 : Word) :
    firnEntry (ctxOf (markHit s p c f t k0) p c) f.layer t =
      { firnEntry (ctxOf s p c) f.layer t with bitmap := (firnEntry (ctxOf s p c) f.layer t).bitmap ||| 2 ^ (k0.toNat - (firnEntry (ctxOf s p c) f.layer t).stamp) } := by
  rw [markHit, ctxOf_modCtx]
  exact tget_tset_same ..

theorem firnEntry_hit (s : State) (p c : Nat) (f : FirnDesc) (t : Nat) (k0 : Word) (b : Job) (n : Nat) :
    firnEntry (ctxOf (dropResult (markHit s p c f t k0) b n f t) p c) f.layer t =
      { firnEntry (ctxOf s p c) f.layer t with bitmap := (firnEntry (ctxOf s p c) f.layer t).bitmap ||| 2 ^ (k0.toNat - (firnEntry (ctxOf s p c) f.layer t).stamp) } := by
  rw [← firnEntry_markHit]
  exact congrArg (firnEntry · f.layer t) ((invalidateRange_keepsJobs ..).ctx p c)

/-! frnflush (R282). -/

/-- The entries of a layer, or of all. -/
def ofLayer (layer : Option Nat) (x : Nat × FirnEntry) : Bool :=
  match layer with
  | some l => x.1 / 2 ^ 24 == l
  | none => true

/-- The context without the entries of a layer. -/
def flushed (s : State) (p c : Nat) (layer : Option Nat) : State := modCtx s p c (fun x => { x with firn := x.firn.filter (fun e => !ofLayer layer e) })

theorem sqGives_frnflush (hk : o.kind = .frnflush d a) :
    let p := (jobOf s n j).part
    let c := (jobOf s n j).ctx
    let layer := (descByVa s p c a).map (·.layer)
    sqGives s n j o (flushed s p c layer) d (BitVec.ofNat 64 ((ctxOf s p c).firn.countP (fun x => ofLayer layer x && x.2.valid))) := by
  intro p c layer direct
  rw [List.countP_eq_length_filter]
  unfold sqPerform firnPerform
  simp only [hk]
  rfl

theorem flushed_firn (s : State) (p c : Nat) (layer : Option Nat) : (ctxOf (flushed s p c layer) p c).firn = (ctxOf s p c).firn.filter (fun x => !ofLayer layer x) := by
  rw [flushed, ctxOf_modCtx]

/-! The entry that frnput installs. -/

theorem length_retainedSlots (x : Context) (key : Nat) : (retainedSlots x key).length ≤ 2 :=
  (List.length_filterMap_le ..).trans (List.length_filterMap_le ..)

/-- Two checkpoints retain at most two of the three slots. -/
theorem exists_freeSlot (x : Context) (key : Nat) : ∃ q < 3, q ∉ retainedSlots x key := by
  by_contra hnone
  have hall : List.range 3 ⊆ retainedSlots x key := fun q hq => by_contra fun h => hnone ⟨q, List.mem_range.1 hq, h⟩
  have hlen := (List.subperm_of_subset List.nodup_range hall).length_le
  have := length_retainedSlots x key
  rw [List.length_range] at hlen
  omega

/-- The slot is the lowest that no checkpoint retains. -/
theorem installSlot_spec (x : Context) (key : Nat) :
    installSlot x key < 3 ∧ installSlot x key ∉ retainedSlots x key ∧ ∀ h < installSlot x key, h ∈ retainedSlots x key := by
  obtain ⟨q, hq, hfree⟩ := exists_freeSlot x key
  have hsome : (List.range 3).find? (fun q => !(retainedSlots x key).contains q) ≠ none := by
    rw [ne_eq, List.find?_range_eq_none]
    exact fun hnone => by simpa [hfree] using hnone q hq
  obtain ⟨r, hr⟩ := Option.ne_none_iff_exists'.1 hsome
  have hslot : installSlot x key = r := by rw [installSlot, hr]; rfl
  obtain ⟨hout, hmem, hlow⟩ := List.find?_range_eq_some.1 hr
  rw [hslot]
  exact ⟨List.mem_range.1 hmem, by simpa using hout, fun h hh => by simpa using hlow h hh⟩

/-- frnput keeps input and result in its slot. -/
theorem installEntry_installs {w : Who} {t : Nat} {k0 : Word} {i r g x y : State} {inp res : List Byte} {sig : Word}
    (hinp : firnInput s w f t = (i, .ok inp)) (hres : vaRead i w (firnResultVa f t) f.rbytes = (r, .ok res)) (hsig : firnSignature r w f t = (g, .ok sig))
    (hcheck : arenaCheck g w f t (installSlot (ctxOf s w.p w.c) (firnKey f.layer t)) = none)
    (hin : arenaWrite g w f t (installSlot (ctxOf s w.p w.c) (firnKey f.layer t)) 0 inp = (x, .ok ()))
    (hout : arenaWrite x w f t (installSlot (ctxOf s w.p w.c) (firnKey f.layer t)) (roundUp (firnIn f) 64) res = (y, .ok ())) :
    ∃ u, installEntry s w f t k0 = (u, .ok ()) ∧ u.mem = y.mem
      ∧ firnEntry (ctxOf u w.p w.c) f.layer t =
        { valid := true, stamp := k0.toNat % 65536, bitmap := 0, sig := sig, hash := f.hash, slot := installSlot (ctxOf s w.p w.c) (firnKey f.layer t) } := by
  unfold installEntry
  simp only [hinp, hres, hsig, hcheck, hin, hout]
  refine ⟨_, rfl, rfl, ?_⟩
  rw [ctxOf_modCtx]
  exact tget_tset_same ..

end

theorem firnMoves_holds : FirnMoves := by
  refine ⟨?tile, ?flush, ?install⟩
  case tile =>
    intro s n j o d a b f p c t who e k0 k6 sound hdesc hsound hreads
    refine ⟨fun hk => ?_, fun hk => ?_, fun hk => ⟨fun u hprobe => ?_, fun u w hprobe hsound' hcopy => ?_⟩, fun hk u hinstall => ?_⟩
    · exact ⟨_, sqGives_frninv hk hdesc, emptyEntry_mem .., emptyEntry_firn ..⟩
    · exact sqGives_frnstat hk hdesc
    · exact sqGives_frnck_miss hk hdesc hsound hreads hprobe
    · exact ⟨_, sqGives_frnck_hit hk hdesc hsound hreads hprobe hsound' hcopy, firnEntry_hit ..⟩
    · exact sqGives_frnput hk hdesc hsound hreads hinstall
  case flush =>
    intro s n j o d a hk p c layer hit
    exact ⟨_, sqGives_frnflush hk, flushed_firn .., rfl⟩
  case install =>
    intro s p c core f t k0 i r g x y inp res sig w key q
    exact ⟨installSlot_spec .., installEntry_installs⟩

end Sys2Proof.Machine

/-! The turns of the SQ (R101, R102, R281). -/

namespace Sys2Proof.Machine

open Sys2Proof.Config

section
variable {s : State} {n j : Nat} {o : Op}

/-- An operation that needs no travel is performed where no operation of the LQ can be. -/
theorem advanceOne_sq (hhead : headOp (jobOf s n j).sq = some o) (halone : performsAlone o.kind = true) (hmark : o.kind ≠ .mark) (hready : sqReady s n j o = true)
    (hlq : (headOp (jobOf s n j).lq).filter (fun p => atOnce s p && lqReady s n j p) = none) : advanceOne s n j = some (sqEnd n j o (sqPerform s n j o (o.filled != 0))) := by
  have hpass : (atOnce s o && o.kind != .mark && sqReady s n j o) = true := by simp [atOnce, halone, hmark, hready]
  unfold advanceOne
  simp only [hlq, hhead, Option.filter_some, hpass, if_true]

section
variable {m : CoreNo} {d : Nat} {a b : Word} (hactive : (coreOf s m.toNat).active = some j) (hhead : headOp (jobOf s m.toNat j).sq = some o) (hk : o.kind = .frnput d a b)
include hactive hhead hk

/-- An installation that is ready is performed. -/
theorem execInstallation_performs (hready : sqReady s m.toNat j o = true) :
    execInstallation m s = .next (moveC (sqEnd m.toNat j o (sqPerform s m.toNat j o false)) m.toNat j) := by
  unfold execInstallation
  simp only [hactive, hhead, hk, hready, if_true]

theorem execInstallation_waits (hready : sqReady s m.toNat j o = false) : execInstallation m s = .next s := by
  unfold execInstallation
  simp only [hactive, hhead, hk, hready, Bool.false_eq_true, if_false]

end

theorem leavePlace_jobs (s : State) (n j seq : Nat) : jobOf (leavePlace s n j seq) n j = jobOf s n j := by
  unfold leavePlace
  dsimp only
  split <;> rfl

/-- An operation that is done leaves the SQ. -/
theorem sqEnd_done_sq (t : State) (n j : Nat) (o : Op) : (jobOf (sqEnd n j o (.done t)) n j).sq = (jobOf t n j).sq.filter (fun p => p.seq != o.seq) := by
  rw [sqEnd, leavePlace_jobs, jobOf_modJob]
  rfl

theorem sqEnd_done_mem (t : State) (n j : Nat) (o : Op) : (sqEnd n j o (.done t)).mem = t.mem := leavePlace_mem ..

end

theorem sqTurns_holds : SqTurns :=
  ⟨fun _ _ _ _ => advanceOne_sq, fun _ _ _ _ _ _ _ hactive hhead hk => ⟨execInstallation_performs hactive hhead hk, execInstallation_waits hactive hhead hk⟩,
    fun t n j o => ⟨sqEnd_done_sq t n j o, sqEnd_done_mem t n j o⟩⟩

/-- Settles O41: what each operation of the C stream's queues moves, family by family, and the turns in which they are performed. -/
theorem storeWritesItsBytes : Obligations.StoreWritesItsBytes :=
  ⟨memMoves_holds, ownMoves_holds, taskMoves_holds, workListMoves_holds, firnMoves_holds, sqTurns_holds⟩

end Sys2Proof.Machine

/-! Queue control: what a `qwait`, `qroom`, `qadv`, `qadvp` or `qrst` that may issue answers (R106, R170, R171). They share the look-up of the named queues, so that is settled first; each then decides by the descriptors found. -/

namespace Sys2Proof.Machine

/-! The named queues. -/

/-- Every named queue passes R170 for the end. -/
def QueuesFit (s : State) (n j : Nat) (hs : List Handle) (e : QEnd) : Prop := ∀ h ∈ hs, queueFor s s.turn h e = some (descOf s n j h)

/-- The named queues with their descriptors. -/
def described (s : State) (n j : Nat) (hs : List Handle) : List (Handle × QDesc) := hs.map (fun h => (h, descOf s n j h))

theorem lookup_fit {s : State} {n j : Nat} {hs : List Handle} {e : QEnd} (hfit : QueuesFit s n j hs e) :
    hs.filterMap (fun h => (queueFor s s.turn h e).map (fun d => (h, d))) = described s n j hs :=
  List.filterMap_eq_map_iff_forall_eq_some.2 fun h hh => by rw [hfit h hh]; rfl

theorem lookup_short {s : State} {hs : List Handle} {e : QEnd} (hbad : ∃ h ∈ hs, queueFor s s.turn h e = none) :
    (hs.filterMap (fun h => (queueFor s s.turn h e).map (fun d => (h, d)))).length ≠ hs.length := by
  obtain ⟨h, hh, hnone⟩ := hbad
  rw [ne_eq, List.filterMap_length_eq_length]
  exact fun hall => by simpa [hnone] using hall h hh

theorem queueFor_descOk {s : State} {a : Agent} {h : Handle} {e : QEnd} {d : QDesc} (hq : queueFor s a h e = some d) : descOk d = true := by
  unfold queueFor at hq
  split at hq
  · contradiction
  · dsimp only at hq
    split at hq
    next hok =>
      rw [← Option.some.inj hq]
      exact (Bool.and_eq_true_iff.1 hok).1
    · contradiction

theorem qFilled_le_qCount {d : QDesc} (hok : descOk d = true) : qFilled d ≤ qCount d := by
  simp only [descOk, Bool.and_eq_true, decide_eq_true_eq] at hok
  obtain ⟨⟨⟨-, hle⟩, -⟩, -⟩ := hok
  exact hle

/-- The end of a queue that an instruction is for: its consumer's, or its producer's. -/
def endFor (head : Bool) : QEnd := if head then .consumer else .producer

/-- The slots that the end may use: filled ones for the consumer, free ones for the producer (R169). -/
def slotsFor (head : Bool) (d : QDesc) : Nat := if head then qFilled d else qFree d

/-- The pointer of the end: HEAD, or TAIL. -/
def pointerFor (head : Bool) (d : QDesc) : Nat := if head then d.head else d.tail

/-- The pointer of the end moved on by k from where the descriptor has it (R169). -/
def advance (head : Bool) (n j k : Nat) (w : State) (h : Handle) (d : QDesc) : State :=
  if head then setHead w n j h (bump d d.head k) else setTail w n j h (bump d d.tail k)

theorem slotsFor_le_qCount {d : QDesc} (head : Bool) (hok : descOk d = true) : slotsFor head d ≤ qCount d := by
  cases head with
  | true => exact qFilled_le_qCount hok
  | false => exact Nat.sub_le ..

section
variable {s : State} {n j : Nat} {t : Sid} {hs : List Handle} (hturn : s.turn = .stream n j t) (hr : Ready 1 { mgmt := false } s)
include hturn hr

/-! What a queue control instruction answers, by what its body says of the descriptors. -/

section
variable {e : QEnd} {body : State → Nat → Nat → Sid → List (Handle × QDesc) → Res}

theorem qctlOp_unfit (hbad : ∃ h ∈ hs, queueFor s s.turn h e = none) : qctlOp hs e body s = trapsWith s { cause := cQueue } := by
  have hshort := lookup_short hbad
  rw [qctlOp, issue_ready hr]
  simp only [queueFor_began]
  rw [hturn] at hshort ⊢
  simp only [hshort, ne_eq, not_false_eq_true, if_true, raise]

section
variable (hfit : QueuesFit s n j hs e)
include hfit

theorem qctlOp_issues {r : Res} (hb : body (began s) n j t (described s n j hs) = r) : qctlOp hs e body s = issue 1 { mgmt := false } s (fun _ _ => r) := by
  have hfound := lookup_fit hfit
  have hlen : (described s n j hs).length = hs.length := List.length_map ..
  rw [qctlOp, issue_ready hr, issue_ready hr]
  simp only [queueFor_began]
  rw [hturn] at hfound ⊢
  simp only [hfound, hlen, ne_eq, not_true_eq_false, if_false, hb]

theorem qctlOp_completes {u : State} (hb : body (began s) n j t (described s n j hs) = .ok u .seq) : qctlOp hs e body s = completes s 1 u := by
  rw [qctlOp_issues hturn hr hfit hb, issue_ready hr]
  rfl

theorem qctlOp_waits {u : State} {r : Run} (hb : body (began s) n j t (described s n j hs) = .wait u r) : qctlOp hs e body s = waitsIn s u r := by
  rw [qctlOp_issues hturn hr hfit hb, issue_ready hr]

theorem qctlOp_traps {x : Trap} (hb : body (began s) n j t (described s n j hs) = .trap x) : qctlOp hs e body s = trapsWith s x := by
  rw [qctlOp_issues hturn hr hfit hb, issue_ready hr]

end
end

/-! qwait and qroom, qadv and qadvp: one instruction for each end. -/

section
variable {head : Bool} {k : Nat}

theorem qwaitOp_unfit (hbad : ∃ h ∈ hs, queueFor s s.turn h (endFor head) = none) : qwaitOp hs head k s = trapsWith s { cause := cQueue } :=
  qctlOp_unfit hturn hr hbad

theorem qadvOp_unfit (hbad : ∃ h ∈ hs, queueFor s s.turn h (endFor head) = none) : qadvOp hs head k s = trapsWith s { cause := cQueue } :=
  qctlOp_unfit hturn hr hbad

variable (hfit : QueuesFit s n j hs (endFor head))
include hfit

theorem qwaitOp_traps (hsmall : ∃ h ∈ hs, qCount (descOf s n j h) < k) : qwaitOp hs head k s = trapsWith s { cause := cQueue } :=
  qctlOp_traps hturn hr hfit (if_pos (by simpa [described] using hsmall))

theorem qwaitOp_waits {h : Handle} (hlarge : ∀ h ∈ hs, k ≤ qCount (descOf s n j h))
    (hfind : hs.find? (fun h => decide (slotsFor head (descOf s n j h) < k)) = some h) : qwaitOp hs head k s = waitsIn s (began s) (.onQueue h k (!head)) := by
  have hfound : (described s n j hs).find? (fun x => decide (slotsFor head x.2 < k)) = some (h, descOf s n j h) := by
    rw [described, List.find?_map, Function.comp_def, hfind]
    rfl
  unfold slotsFor at hfound
  refine qctlOp_waits hturn hr hfit ((if_neg (by simpa [described] using hlarge)).trans ?_)
  simp only [hfound]

theorem qwaitOp_completes (hall : ∀ h ∈ hs, k ≤ slotsFor head (descOf s n j h)) : qwaitOp hs head k s = completes s 1 (began s) := by
  have hlarge : ∀ h ∈ hs, k ≤ qCount (descOf s n j h) := fun h hh => (hall h hh).trans (slotsFor_le_qCount head (queueFor_descOk (hfit h hh)))
  have hfound : (described s n j hs).find? (fun x => decide (slotsFor head x.2 < k)) = none := by simpa [described] using hall
  unfold slotsFor at hfound
  refine qctlOp_completes hturn hr hfit ((if_neg (by simpa [described] using hlarge)).trans ?_)
  simp only [hfound]

theorem qadvOp_traps (hfew : ∃ h ∈ hs, slotsFor head (descOf s n j h) < k) : qadvOp hs head k s = trapsWith s { cause := cQueue } :=
  qctlOp_traps hturn hr hfit (if_pos (by simpa [described, slotsFor] using hfew))

section
variable (hall : ∀ h ∈ hs, k ≤ slotsFor head (descOf s n j h))
include hall

theorem qadvOp_waits (hbusy : ∃ h ∈ hs, slotsBusy (began s) n j t h (pointerFor head (descOf s n j h)) k head ≠ false) :
    qadvOp hs head k s = waitsIn s (began s) .waiting :=
  qctlOp_waits hturn hr hfit ((if_neg (by simpa [described, slotsFor] using hall)).trans (if_pos (by simpa [described, pointerFor] using hbusy)))

theorem qadvOp_completes (hquiet : ∀ h ∈ hs, slotsBusy (began s) n j t h (pointerFor head (descOf s n j h)) k head = false) :
    qadvOp hs head k s = completes s 1 (hs.foldl (fun u h => advance head n j k u h (descOf s n j h)) (began s)) := by
  refine qctlOp_completes hturn hr hfit ((if_neg (by simpa [described, slotsFor] using hall)).trans ((if_neg (by simpa [described, pointerFor] using hquiet)).trans ?_))
  rw [described, List.foldl_map]
  rfl

end
end

/-! qrst. -/

section
variable {qa : Handle} {qb qd : Option Handle}

theorem execQrst_unfit (hbad : ∃ h ∈ qNamed qa qb qd, queueFor s s.turn h .either = none) : execQrst qa qb qd s = trapsWith s { cause := cQueue } :=
  qctlOp_unfit hturn hr hbad

variable (hfit : QueuesFit s n j (qNamed qa qb qd) .either)
include hfit

theorem execQrst_waits (hnamed : ∃ h ∈ qNamed qa qb qd, names (jobOf s n j) h = true) : execQrst qa qb qd s = waitsIn s (began s) .waiting :=
  qctlOp_waits hturn hr hfit (if_pos (by simpa [described] using hnamed))

theorem execQrst_completes (hfree : ∀ h ∈ qNamed qa qb qd, names (jobOf s n j) h = false) :
    execQrst qa qb qd s = completes s 1 ((qNamed qa qb qd).foldl (fun u h => setDesc u n j h 8 [0#8, 0#8, 0#8, 0#8]) (began s)) := by
  refine qctlOp_completes hturn hr hfit ((if_neg (by simpa [described] using hfree)).trans ?_)
  rw [described, List.foldl_map]
  rfl

end
end

/-- Settles O7: qwait and qroom are one operation, and so are qadv and qadvp, so each clause is the consumer's or the producer's case of one of their answers. -/
theorem queueControlResults : Obligations.QueueControlResults := by
  unfold Obligations.QueueControlResults
  intro s n j t qa qb qd k3 hturn hr
  exact ⟨qwaitOp_completes (head := true) hturn hr, fun hfit hlarge _ => qwaitOp_waits (head := true) hturn hr hfit hlarge,
    qwaitOp_completes (head := false) hturn hr, fun hfit hlarge _ => qwaitOp_waits (head := false) hturn hr hfit hlarge,
    qadvOp_completes (head := true) hturn hr, qadvOp_completes (head := false) hturn hr,
    qadvOp_waits (head := true) hturn hr, qadvOp_waits (head := false) hturn hr,
    execQrst_waits hturn hr, execQrst_completes hturn hr,
    fun hbad => ⟨qwaitOp_unfit (head := true) hturn hr hbad, qadvOp_unfit (head := true) hturn hr hbad⟩,
    fun hbad => ⟨qwaitOp_unfit (head := false) hturn hr hbad, qadvOp_unfit (head := false) hturn hr hbad⟩,
    execQrst_unfit hturn hr,
    qadvOp_traps (head := true) hturn hr, qadvOp_traps (head := false) hturn hr,
    qwaitOp_traps (head := true) hturn hr, qwaitOp_traps (head := false) hturn hr⟩

end Sys2Proof.Machine

/-! Pennant barriers (R112, R175 to R177): what each of the three instructions answers in terms of its tag's pennant and its stream's arrivals, and the two events. -/

namespace Sys2Proof.Machine

/-! What an instruction reads of its tag and its stream, and what it adds. -/

/-- The pennant of a tag in a job's context. -/
def jobPennant (s : State) (n j tag : Nat) : Pennant := pennantOf (ctxOf s (jobOf s n j).part (jobOf s n j).ctx) tag

/-- An arrival of the stream at the tag is still to be signalled, or the phase of its latest one is open (R176). -/
def arrivalOpen (s : State) (n j : Nat) (t : Sid) (tag : Nat) : Bool :=
  ((jobOf s n j).streams.get t).pbars.any (fun e => e.tag == tag) || phaseOpen (jobPennant s n j tag) (posOf n t)

/-- The arrivals of a stream with one at the tag added, behind the operations that the job has outstanding (R112). -/
def arrivedAt (b : Job) (tag : Nat) (held : Bool) (st : Stream) : Stream :=
  { st with pbars := st.pbars ++ [{ tag := tag, limit := b.seq, words := wordsOut b, held := held }] }

theorem jobPennant_began (s : State) (n j tag : Nat) :
    pennantOf (ctxOf (began s) (jobOf (began s) n j).part (jobOf (began s) n j).ctx) tag = jobPennant s n j tag := by simp [jobPennant]

theorem wordsOut_began (s : State) (n j : Nat) : wordsOut (jobOf (began s) n j) = wordsOut (jobOf s n j) := by simp [wordsOut]

theorem pbaraOpen_iff (st : Stream) (w : Pennant) (tag pos : Nat) :
    pbaraOpen st w tag pos = true ↔ (∃ e ∈ st.pbars, e.tag = tag ∧ e.held = false) ∨ ∃ k, tfind w.lastSplit pos = some k ∧ w.phase ≤ k := by
  unfold pbaraOpen
  cases tfind w.lastSplit pos <;> simp

section
variable {s : State} {n j : Nat} {t : Sid} (hturn : s.turn = .stream n j t)
include hturn

theorem pbars_began : ((jobOf (began s) n j).streams.get t).pbars = ((jobOf s n j).streams.get t).pbars := by rw [get_began hturn]
theorem inPbar_began : ((jobOf (began s) n j).streams.get t).inPbar = ((jobOf s n j).streams.get t).inPbar := by rw [get_began hturn]
theorem streamPc_began : ((jobOf (began s) n j).streams.get t).pc = ((jobOf s n j).streams.get t).pc := by rw [get_began hturn]
theorem streamRun_began : ((jobOf (began s) n j).streams.get t).run = ((jobOf s n j).streams.get t).run := by rw [get_began hturn]

theorem arrivalOpen_began (tag : Nat) :
    (((jobOf (began s) n j).streams.get t).pbars.any (fun e => e.tag == tag) || phaseOpen (jobPennant s n j tag) (posOf n t)) = arrivalOpen s n j t tag := by
  rw [pbars_began hturn, arrivalOpen]

theorem pbaraOpen_began (w : Pennant) (tag pos : Nat) :
    pbaraOpen ((jobOf (began s) n j).streams.get t) w tag pos = pbaraOpen ((jobOf s n j).streams.get t) w tag pos := by
  unfold pbaraOpen
  rw [pbars_began hturn]

section
variable {tag : BitVec 3} (hr : Ready 1 { mgmt := false } s)
include hr

/-! What a stream outside the set gets. -/

section
variable (hout : participates (jobPennant s n j tag.toNat) n t = false)
include hout

theorem execPbar_stranger (hnew : ((jobOf s n j).streams.get t).inPbar.contains (tag.toNat, ((jobOf s n j).streams.get t).pc) = false) :
    execPbar tag s = trapsWith s { cause := cIllegal } := by
  rw [execPbar, pbarOp, issue_ready hr, hturn]
  simp only [jobPennant_began, inPbar_began hturn, streamPc_began hturn, hout, hnew, Bool.not_false, Bool.and_self, if_true, raise]

theorem execPbara_stranger : execPbara tag s = trapsWith s { cause := cIllegal } := by
  rw [execPbara, pbarOp, issue_ready hr, hturn]
  simp only [jobPennant_began, hout, Bool.not_false, Bool.and_self, if_true, raise]

theorem execPbarw_stranger (hrun : ((jobOf s n j).streams.get t).run = .running) : execPbarw tag s = trapsWith s { cause := cIllegal } := by
  have hnew : (Run.running == Run.waiting) = false := rfl
  rw [execPbarw, pbarOp, issue_ready hr, hturn]
  simp only [jobPennant_began, streamRun_began hturn, hout, hrun, hnew, Bool.not_false, Bool.and_self, if_true, raise]

end

/-! What a stream of the set gets. -/

section
variable (hin : participates (jobPennant s n j tag.toNat) n t = true)
include hin

theorem execPbarw_answers : execPbarw tag s =
    if pbaraOpen ((jobOf s n j).streams.get t) (jobPennant s n j tag.toNat) tag.toNat (posOf n t) = true then waitsIn s (began s) .waiting
    else completes s 1 (acquire (began s) n) := by
  rw [execPbarw, pbarOp, issue_ready hr, completes, hturn]
  simp only [jobPennant_began, pbaraOpen_began hturn, hin, Bool.not_true, Bool.false_and, Bool.false_eq_true, if_false]
  cases pbaraOpen ((jobOf s n j).streams.get t) (jobPennant s n j tag.toNat) tag.toNat (posOf n t) <;> rfl

theorem execPbara_answers : execPbara tag s =
    if arrivalOpen s n j t tag.toNat = true then waitsIn s (began s) .waiting
    else completes s 1 (modStream (began s) s.turn (arrivedAt (jobOf s n j) tag.toNat false)) := by
  rw [execPbara, pbarOp, issue_ready hr, completes, hturn]
  simp only [jobPennant_began, arrivalOpen_began hturn, began_job_seq, wordsOut_began, hin, Bool.not_true, Bool.false_and, Bool.false_eq_true, if_false]
  cases arrivalOpen s n j t tag.toNat <;> rfl

theorem execPbar_answers :
    let key := (tag.toNat, ((jobOf s n j).streams.get t).pc)
    execPbar tag s =
      if arrivalOpen s n j t tag.toNat = true then waitsIn s (began s) .waiting
      else if ((jobOf s n j).streams.get t).inPbar.contains key = true then
        completes s 1 (acquire (modStream (began s) s.turn (fun st => { st with inPbar := st.inPbar.filter (fun e => e != key) })) n)
      else waitsIn s (modStream (began s) s.turn (fun st => { arrivedAt (jobOf s n j) tag.toNat true st with inPbar := st.inPbar ++ [key] })) .waiting := by
  intro key
  rw [execPbar, pbarOp, issue_ready hr, completes, hturn]
  simp only [jobPennant_began, arrivalOpen_began hturn, inPbar_began hturn, streamPc_began hturn, began_job_seq, wordsOut_began, hin,
    Bool.not_true, Bool.false_and, Bool.false_eq_true, if_false]
  cases arrivalOpen s n j t tag.toNat <;> cases ((jobOf s n j).streams.get t).inPbar.contains key <;> rfl

end
end
end

/-! The events. -/

theorem execPennantArrival_active {s : State} {n : CoreNo} {j : Nat} (tag : BitVec 3) (hactive : (coreOf s n.toNat).active = some j) :
    execPennantArrival n tag s = .next (((allSids.find? (canSignal (jobOf s n.toNat j) tag.toNat)).map (signalArrival s n.toNat j tag.toNat)).getD s) := by
  rw [execPennantArrival, hactive]
  cases h : allSids.find? (canSignal (jobOf s n.toNat j) tag.toNat) <;> simp [h]

section
variable {s : State} {p : PartNo} {c : CtxNo} {tag : BitVec 3} {w : Pennant} (hw : pennantOf (ctxOf s p.toNat c.toNat) tag.toNat = w)
include hw

theorem execPennantCompletion_completes (hsome : w.arrived ≠ []) (hall : ∀ x ∈ setPositions w.set, x ∈ w.arrived) :
    execPennantCompletion p c tag s = .next (wakePositions (modCtx s p.toNat c.toNat (fun x => { x with
      pennants := tset x.pennants tag.toNat { w with set := w.held.getD w.set, held := none, phase := w.phase + 1, arrived := [], split := [] } })) c.toNat w.split) := by
  subst hw
  exact if_neg (by simpa [hsome] using hall)

theorem execPennantCompletion_waits (hleft : ∃ x ∈ setPositions w.set, x ∉ w.arrived) : execPennantCompletion p c tag s = .next s := by
  subst hw
  exact if_pos (by simpa using .inr hleft)

end

/-- Settles O10: what an instruction answers turns on whether the stream participates, then on what of its arrivals is open; the events on who may signal and who has arrived. -/
theorem pennantResults : Obligations.PennantResults := by
  unfold Obligations.PennantResults
  refine ⟨fun s n j t tag hturn hr => ⟨fun hin hopen => ⟨fun hnew => ?arrives, fun hheld => ?goesOn, ?arrivesSplit⟩, fun hin => ⟨fun hsplit => ?awaits, fun hsplit => ?passes⟩,
      fun hin hopen => ⟨(execPbar_answers hturn hr hin).trans (if_pos hopen), (execPbara_answers hturn hr hin).trans (if_pos hopen)⟩,
      fun hout => ⟨execPbara_stranger hturn hr hout, execPbar_stranger hturn hr hout, execPbarw_stranger hturn hr hout⟩⟩,
    fun s n tag j hactive => ⟨fun u hu => ?signals, fun hnone => ?silent⟩,
    fun s p c tag => ⟨execPennantCompletion_completes rfl, execPennantCompletion_waits rfl⟩⟩
  case arrives => exact (execPbar_answers hturn hr hin).trans ((if_neg (Bool.eq_false_iff.1 hopen)).trans (if_neg (Bool.eq_false_iff.1 hnew)))
  case goesOn => exact (execPbar_answers hturn hr hin).trans ((if_neg (Bool.eq_false_iff.1 hopen)).trans (if_pos hheld))
  case arrivesSplit => exact (execPbara_answers hturn hr hin).trans (if_neg (Bool.eq_false_iff.1 hopen))
  case awaits => exact (execPbarw_answers hturn hr hin).trans (if_pos ((pbaraOpen_iff ..).2 hsplit))
  case passes => exact (execPbarw_answers hturn hr hin).trans (if_neg (mt (pbaraOpen_iff ..).1 hsplit))
  case signals =>
    rw [exec_pennantArrival, execPennantArrival_active tag hactive, hu]
    rfl
  case silent =>
    rw [exec_pennantArrival, execPennantArrival_active tag hactive, hnone]
    rfl

end Sys2Proof.Machine

/-! Patterns of a floating-point format as a grid of numbers (R116): the value of each pattern, its order, and the step from one to the next. -/

namespace Sys2Proof.Machine

/-- What the formats of R116 have in common: the largest finite pattern is no code of an infinity or a NaN, and it is not the first of its binade. -/
structure Fmt.Regular (f : Fmt) : Prop where
  one_le_mb : 1 ≤ f.mb
  mb_le : f.mb ≤ 23
  maxFin_lt_inf : f.eb ≠ 4 → f.maxFin < (2 ^ f.eb - 1) * 2 ^ f.mb
  maxFin_lt_nan : f.eb = 4 → f.mb = 3 ∧ f.maxFin < 0x7F
  lt_maxFin : 2 ^ f.mb < f.maxFin
  maxFin_within : f.maxFin % 2 ^ f.mb ≠ 0

theorem Fmt.regular_of_mem {f : Fmt} (hf : f ∈ [fmtF32, fmtBf16, fmtF16, fmtE4, fmtE5]) : f.Regular := by
  simp only [List.mem_cons, List.not_mem_nil, or_false] at hf
  rcases hf with rfl | rfl | rfl | rfl | rfl <;> exact ⟨by decide, by decide, by decide, by decide, by decide, by decide⟩

theorem Fmt.regular_f32 : fmtF32.Regular := Fmt.regular_of_mem (by decide)

/-- The integer significand of a pattern's magnitude b. -/
def significand (f : Fmt) (b : Nat) : Nat := if b / 2 ^ f.mb = 0 then b % 2 ^ f.mb else 2 ^ f.mb + b % 2 ^ f.mb

/-- The exponent of its unit. -/
def unitExp (f : Fmt) (b : Nat) : Int := fMin f + (b / 2 ^ f.mb - 1 : Nat)

/-- The number that a pattern's magnitude b stands for, with no code set aside for infinities and NaNs. -/
noncomputable def gridValue (f : Fmt) (b : Nat) : ℝ := (significand f b : ℝ) * (2 : ℝ) ^ unitExp f b

/-- A number with a sign bit. -/
def withSign (neg : Bool) (x : ℝ) : ℝ := if neg then -x else x

@[simp] theorem withSign_withSign (neg : Bool) (x : ℝ) : withSign neg (withSign neg x) = x := by cases neg <;> simp [withSign]
theorem abs_withSign (neg : Bool) (x : ℝ) : |withSign neg x| = |x| := by cases neg <;> simp [withSign]
theorem withSign_sub (neg : Bool) (x y : ℝ) : withSign neg x - withSign neg y = withSign neg (x - y) := by cases neg <;> simp [withSign]; ring
theorem withSign_inj {neg : Bool} {x y : ℝ} : withSign neg x = withSign neg y ↔ x = y := by cases neg <;> simp [withSign]

/-- A number carries the sign that R119 gives its result where the sign bit is the one of its own sign. -/
theorem eq_withSign_abs {z : ℝ} {zero neg : Bool} (h : signed z zero neg) : z = withSign neg |z| := by
  obtain ⟨hneg, hpos, -⟩ := h
  rcases lt_trichotomy z 0 with hz | rfl | hz
  · rw [hneg hz, abs_of_neg hz]; simp [withSign]
  · cases neg <;> simp [withSign]
  · rw [hpos hz, abs_of_pos hz]; simp [withSign]

/-! The grid. -/

variable (f : Fmt)

theorem two_zpow_pos (q : ℤ) : (0 : ℝ) < (2 : ℝ) ^ q := zpow_pos two_pos q

/-- A multiple n of the unit 2^q is on the grid where the unit is the lowest one or n has the leading bit. -/
theorem bits_significand {q : ℤ} {n : Nat} (hq : fMin f ≤ q) (hn : n < 2 ^ (f.mb + 1)) (hlead : q = fMin f ∨ 2 ^ f.mb ≤ n) :
    significand f ((q - fMin f).toNat * 2 ^ f.mb + n) = n ∧ unitExp f ((q - fMin f).toNat * 2 ^ f.mb + n) = q := by
  have hpos : 0 < 2 ^ f.mb := by positivity
  unfold significand unitExp
  rcases Nat.lt_or_ge n (2 ^ f.mb) with hlow | hhigh
  · obtain rfl : q = fMin f := hlead.resolve_right (by omega)
    simp [Nat.div_eq_of_lt hlow, Nat.mod_eq_of_lt hlow]
  · obtain ⟨r, rfl⟩ := Nat.exists_eq_add_of_le hhigh
    have hr : r < 2 ^ f.mb := by rw [pow_succ] at hn; omega
    have hsplit : (q - fMin f).toNat * 2 ^ f.mb + (2 ^ f.mb + r) = r + ((q - fMin f).toNat + 1) * 2 ^ f.mb := by ring
    rw [hsplit, Nat.add_mul_div_right _ _ hpos, Nat.add_mul_mod_self_right, Nat.div_eq_of_lt hr, Nat.mod_eq_of_lt hr]
    constructor
    · simp
    · omega

/-- The next pattern is one unit further. -/
theorem gridValue_succ (b : Nat) : gridValue f (b + 1) = gridValue f b + (2 : ℝ) ^ unitExp f b := by
  have hpos : 0 < 2 ^ f.mb := by positivity
  have hb := Nat.div_add_mod b (2 ^ f.mb)
  have hr := Nat.mod_lt b hpos
  set c := b / 2 ^ f.mb with hc
  set r := b % 2 ^ f.mb with hrdef
  rcases Nat.lt_or_ge (r + 1) (2 ^ f.mb) with hin | hout
  · have hdiv : (b + 1) / 2 ^ f.mb = c := by rw [← hb, add_assoc, Nat.mul_add_div hpos, Nat.div_eq_of_lt hin, add_zero]
    have hmod : (b + 1) % 2 ^ f.mb = r + 1 := by rw [← hb, add_assoc, Nat.mul_add_mod, Nat.mod_eq_of_lt hin]
    unfold gridValue significand unitExp
    rw [hdiv, hmod, ← hc, ← hrdef]
    split <;> push_cast <;> ring
  · have hnext : b + 1 = 2 ^ f.mb * (c + 1) := by rw [mul_add, mul_one]; omega
    have hdiv : (b + 1) / 2 ^ f.mb = c + 1 := by rw [hnext, Nat.mul_div_cancel_left _ hpos]
    have hmod : (b + 1) % 2 ^ f.mb = 0 := by rw [hnext, Nat.mul_mod_right]
    have hr' : (r : ℝ) + 1 = 2 ^ f.mb := by exact_mod_cast (by omega : r + 1 = 2 ^ f.mb)
    unfold gridValue significand unitExp
    rw [hdiv, hmod, ← hc, ← hrdef]
    rcases Nat.eq_zero_or_pos c with h0 | hpos'
    · simp only [h0]
      push_cast
      rw [← hr']
      simp
      ring
    · obtain ⟨k, hk⟩ := Nat.exists_eq_add_of_le' hpos'
      rw [if_neg (by omega), if_neg (by omega), hk]
      simp only [Nat.add_sub_cancel]
      push_cast
      rw [← add_assoc, zpow_add_one₀ two_ne_zero, ← hr']
      ring

theorem gridValue_strictMono : StrictMono (gridValue f) :=
  strictMono_nat_of_lt_succ fun b => by rw [gridValue_succ]; linarith [two_zpow_pos (unitExp f b)]

@[simp] theorem gridValue_zero : gridValue f 0 = 0 := by simp [gridValue, significand]

theorem gridValue_nonneg (b : Nat) : 0 ≤ gridValue f b := by
  rw [← gridValue_zero f]
  exact (gridValue_strictMono f).monotone (Nat.zero_le b)

theorem gridValue_bits {q : ℤ} {n : Nat} (hq : fMin f ≤ q) (hn : n < 2 ^ (f.mb + 1)) (hlead : q = fMin f ∨ 2 ^ f.mb ≤ n) :
    gridValue f ((q - fMin f).toNat * 2 ^ f.mb + n) = n * (2 : ℝ) ^ q
    ∧ gridValue f ((q - fMin f).toNat * 2 ^ f.mb + n + 1) = (n + 1) * (2 : ℝ) ^ q := by
  obtain ⟨hs, hu⟩ := bits_significand f hq hn hlead
  rw [gridValue_succ, gridValue, hs, hu]
  exact ⟨rfl, by ring⟩

/-- The smallest normal number. -/
theorem gridValue_normal : gridValue f (2 ^ f.mb) = 2 ^ f.mb * (2 : ℝ) ^ fMin f := by
  have h := (gridValue_bits f le_rfl (n := 2 ^ f.mb) (by rw [pow_succ]; linarith [show 0 < 2 ^ f.mb by positivity]) (.inl rfl)).1
  simpa using h

variable {f}

/-- The largest finite pattern is one unit away from both of its neighbours. -/
theorem gridValue_maxFin_step (hf : f.Regular) : gridValue f (f.maxFin + 1) - gridValue f f.maxFin = gridValue f f.maxFin - gridValue f (f.maxFin - 1) := by
  have hpos : 0 < 2 ^ f.mb := by positivity
  obtain ⟨k, hk⟩ : ∃ k, f.maxFin = k + 1 := Nat.exists_eq_succ_of_ne_zero (by have := hf.lt_maxFin; omega)
  have hsame : (k + 1) / 2 ^ f.mb = k / 2 ^ f.mb := by
    rw [Nat.succ_div, if_neg, add_zero]
    have := hf.maxFin_within
    rwa [hk, ne_eq, ← Nat.dvd_iff_mod_eq_zero] at this
  have hunit : unitExp f (k + 1) = unitExp f k := by unfold unitExp; rw [hsame]
  rw [hk, Nat.add_sub_cancel, gridValue_succ f (k + 1), gridValue_succ f k, hunit]
  ring

/-! Patterns and numbers. -/

theorem valued_unique {v : Fv} {x y : ℝ} (hx : valued v x) (hy : valued v y) : x = y := by
  obtain ⟨n, m, e, rfl, rfl⟩ := hx
  obtain ⟨n', m', e', h, rfl⟩ := hy
  cases h
  rfl

theorem valued_fin (neg : Bool) (m : Nat) (e : Int) : valued (.fin neg m e) (withSign neg (m * (2 : ℝ) ^ e)) :=
  ⟨neg, m, e, rfl, by cases neg <;> simp [withSign]⟩

theorem valued_fin_iff {neg : Bool} {m : Nat} {e : Int} {z : ℝ} : valued (.fin neg m e) z ↔ z = withSign neg (m * (2 : ℝ) ^ e) :=
  ⟨fun h => valued_unique h (valued_fin neg m e), fun h => h ▸ valued_fin neg m e⟩

/-- A pattern up to the largest finite one is the number of its magnitude on the grid, with its sign (R116). -/
theorem fDec_finite (hf : f.Regular) {x : Nat} (hx : x % 2 ^ fSign f ≤ f.maxFin) :
    fDec f x = .fin (x.testBit (fSign f)) (significand f (x % 2 ^ fSign f)) (unitExp f (x % 2 ^ fSign f)) := by
  have hpos : 0 < 2 ^ f.mb := by positivity
  set b := x % 2 ^ fSign f with hb
  have hex : x / 2 ^ f.mb % 2 ^ f.eb = b / 2 ^ f.mb := by rw [hb, fSign, add_comm, pow_add, Nat.mod_mul_right_div_self]
  have hfr : x % 2 ^ f.mb = b % 2 ^ f.mb := by rw [hb, fSign, Nat.mod_mod_of_dvd _ (pow_dvd_pow 2 (Nat.le_add_left ..))]
  have hnan : ¬ (f.eb = 4 ∧ b / 2 ^ f.mb = 15 ∧ b % 2 ^ f.mb = 7) := by
    rintro ⟨he, hd, hm⟩
    obtain ⟨hmb, hlt⟩ := hf.maxFin_lt_nan he
    rw [hmb] at hd hm
    omega
  have hinf : ¬ (f.eb ≠ 4 ∧ b / 2 ^ f.mb = 2 ^ f.eb - 1) := by
    rintro ⟨he, hd⟩
    have := (Nat.div_lt_iff_lt_mul hpos).2 (hx.trans_lt (hf.maxFin_lt_inf he))
    omega
  unfold fDec significand unitExp
  simp only [hex, hfr, if_neg hnan, if_neg hinf]
  by_cases h0 : b / 2 ^ f.mb = 0 <;> simp [h0]

theorem valued_grid (hf : f.Regular) {x : Nat} (hx : x % 2 ^ fSign f ≤ f.maxFin) {z : ℝ} :
    valued (fDec f x) z ↔ z = withSign (x.testBit (fSign f)) (gridValue f (x % 2 ^ fSign f)) := by
  rw [fDec_finite hf hx, valued_fin_iff, gridValue]

theorem maxFin_lt_sign (hf : f.Regular) : f.maxFin < 2 ^ fSign f := by
  have hpos : 0 < 2 ^ f.mb := by positivity
  by_cases he : f.eb = 4
  · obtain ⟨hmb, hlt⟩ := hf.maxFin_lt_nan he
    rw [fSign, he, hmb]
    omega
  · calc f.maxFin < (2 ^ f.eb - 1) * 2 ^ f.mb := hf.maxFin_lt_inf he
      _ ≤ 2 ^ f.eb * 2 ^ f.mb := Nat.mul_le_mul_right _ (Nat.sub_le ..)
      _ = 2 ^ fSign f := by rw [fSign, pow_add]

/-- A positive pattern up to the largest finite one is the number of its place on the grid. -/
theorem valued_grid_pos (hf : f.Regular) {b : Nat} (hb : b ≤ f.maxFin) {z : ℝ} : valued (fDec f b) z ↔ z = gridValue f b := by
  have hlt := hb.trans_lt (maxFin_lt_sign hf)
  have hmod := Nat.mod_eq_of_lt hlt
  rw [valued_grid hf (by rwa [hmod]), hmod, Nat.testBit_lt_two_pow hlt]
  rfl

end Sys2Proof.Machine

/-! Rounding on the grid (R121): which of its neighbours a number is rounded to, and what that makes of it. -/

namespace Sys2Proof.Machine

/-- The mode picks the upper neighbour c + 1 of a magnitude a that lies from grid place c up to the next (R121). -/
def picksUpper (f : Fmt) (neg : Bool) (a : ℝ) (c : Nat) : Mode → Prop
  | .rne => gridValue f c + gridValue f (c + 1) < 2 * a ∨ (2 * a = gridValue f c + gridValue f (c + 1) ∧ c % 2 = 1)
  | .rdn => neg = true ∧ gridValue f c ≠ a
  | .rup => neg = false ∧ gridValue f c ≠ a
  | .rtz | .sr _ => False

/-- The mode rounds a magnitude a to the grid place b. -/
def RoundsAt (f : Fmt) (md : Mode) (neg : Bool) (a : ℝ) (b : Nat) : Prop :=
  ∃ c, gridValue f c ≤ a ∧ a < gridValue f (c + 1) ∧ ((¬ picksUpper f neg a c md ∧ b = c) ∨ (picksUpper f neg a c md ∧ b = c + 1))

/-- The mode rounds towards zero: always, or what has this sign (R121). -/
def Inward (md : Mode) (neg : Bool) : Prop := md = .rtz ∨ (md = .rdn ∧ neg = false) ∨ (md = .rup ∧ neg = true)

/-- A magnitude overflows: rounded with an unbounded exponent it is past the largest finite number M, where the unit is U (R121, R124). -/
def Overflows (f : Fmt) (md : Mode) (neg : Bool) (a M U : ℝ) : Prop :=
  (Inward md neg ∧ M + U ≤ a) ∨ (¬ Inward md neg ∧ md ≠ .rne ∧ M < a) ∨ (md = .rne ∧ (M + U / 2 < a ∨ (M + U / 2 = a ∧ f.maxFin % 2 = 1)))

section
variable {f : Fmt} {md : Mode} {neg : Bool} {a : ℝ} {b : Nat}

theorem gridValue_le_iff {b c : Nat} : gridValue f b ≤ gridValue f c ↔ b ≤ c := (gridValue_strictMono f).le_iff_le
theorem gridValue_lt_iff {b c : Nat} : gridValue f b < gridValue f c ↔ b < c := (gridValue_strictMono f).lt_iff_lt

theorem not_picksUpper_of_inward (hin : Inward md neg) (c : Nat) : ¬ picksUpper f neg a c md := by
  rcases hin with rfl | ⟨rfl, rfl⟩ | ⟨rfl, rfl⟩ <;> simp [picksUpper]

theorem picksUpper_outward (hout : ¬ Inward md neg) (hrne : md ≠ .rne) (hsr : ∀ k, md ≠ .sr k) (c : Nat) : picksUpper f neg a c md ↔ gridValue f c ≠ a := by
  cases md <;> simp_all [picksUpper, Inward]

/-- Inward, a magnitude goes to the last place at or below it. -/
theorem RoundsAt.inward (h : RoundsAt f md neg a b) (hin : Inward md neg) : gridValue f b ≤ a ∧ a < gridValue f (b + 1) := by
  obtain ⟨c, hle, hlt, ⟨-, rfl⟩ | ⟨hup, -⟩⟩ := h
  · exact ⟨hle, hlt⟩
  · exact absurd hup (not_picksUpper_of_inward hin c)

/-- Outward, to the first place at or above it. -/
theorem RoundsAt.outward (h : RoundsAt f md neg a b) (hout : ¬ Inward md neg) (hrne : md ≠ .rne) (hsr : ∀ k, md ≠ .sr k) :
    a ≤ gridValue f b ∧ ∀ k, a ≤ gridValue f k → b ≤ k := by
  obtain ⟨c, hle, hlt, ⟨hup, rfl⟩ | ⟨hup, rfl⟩⟩ := h
  · rw [picksUpper_outward hout hrne hsr, not_not] at hup
    exact ⟨hup.ge, fun k hk => gridValue_le_iff.1 (hup.le.trans hk)⟩
  · rw [picksUpper_outward hout hrne hsr] at hup
    exact ⟨hlt.le, fun k hk => gridValue_lt_iff.1 ((hle.lt_of_ne hup).trans_le hk)⟩

/-- To nearest, no place is nearer, and of two alike the even one is taken. -/
theorem RoundsAt.nearest (h : RoundsAt f .rne neg a b) (k : Nat) :
    |a - gridValue f b| ≤ |a - gridValue f k| ∧ (|a - gridValue f b| = |a - gridValue f k| → k ≠ b → b % 2 = 0) := by
  obtain ⟨c, hle, hlt, h⟩ := h
  have hfar (k : Nat) : k ≤ c ∧ a - gridValue f c ≤ |a - gridValue f k| ∧ (k ≠ c → a - gridValue f c < |a - gridValue f k|)
      ∨ c + 1 ≤ k ∧ gridValue f (c + 1) - a ≤ |a - gridValue f k| ∧ (k ≠ c + 1 → gridValue f (c + 1) - a < |a - gridValue f k|) := by
    rcases Nat.lt_or_ge c k with hk | hk
    · refine .inr ⟨hk, ?_, fun hne => ?_⟩
      · have := gridValue_le_iff (f := f).2 (Nat.succ_le_of_lt hk)
        exact (by linarith : _ ≤ -(a - gridValue f k)).trans (neg_le_abs _)
      · have := gridValue_lt_iff (f := f).2 (lt_of_le_of_ne (Nat.succ_le_of_lt hk) (Ne.symm hne))
        exact (by linarith : _ < -(a - gridValue f k)).trans_le (neg_le_abs _)
    · refine .inl ⟨hk, ?_, fun hne => ?_⟩
      · have := gridValue_le_iff (f := f).2 hk
        exact (by linarith : _ ≤ a - gridValue f k).trans (le_abs_self _)
      · have := gridValue_lt_iff (f := f).2 (lt_of_le_of_ne hk hne)
        exact (by linarith : _ < a - gridValue f k).trans_le (le_abs_self _)
  rcases h with ⟨hup, rfl⟩ | ⟨hup, rfl⟩
  · simp only [picksUpper, not_or, not_lt, not_and] at hup
    obtain ⟨hmid, htie⟩ := hup
    rw [abs_of_nonneg (by linarith : 0 ≤ a - gridValue f b)]
    rcases hfar k with ⟨-, hk, hk'⟩ | ⟨-, hk, hk'⟩
    · exact ⟨hk, fun he hne => absurd he (hk' hne).ne⟩
    · exact ⟨by linarith, fun he hne => by have := htie (by linarith); omega⟩
  · rw [abs_sub_comm, abs_of_nonneg (by linarith : 0 ≤ gridValue f (c + 1) - a)]
    rcases hup with hup | ⟨hup, hodd⟩ <;> rcases hfar k with ⟨-, hk, hk'⟩ | ⟨-, hk, hk'⟩
    · exact ⟨by linarith, fun he => by linarith⟩
    · exact ⟨hk, fun he hne => absurd he (hk' hne).ne⟩
    · exact ⟨by linarith, fun _ _ => by omega⟩
    · exact ⟨hk, fun he hne => absurd he (hk' hne).ne⟩

/-- A place of the grid is rounded to itself. -/
theorem RoundsAt.of_grid {b : Nat} : RoundsAt f md neg (gridValue f b) b := by
  have hstep := gridValue_lt_iff (f := f).2 (Nat.lt_succ_self b)
  refine ⟨b, le_rfl, hstep, .inl ⟨?_, rfl⟩⟩
  cases md with
  | rne =>
    simp only [picksUpper, not_or, not_lt, not_and]
    exact ⟨by linarith, fun h => by linarith⟩
  | _ => simp [picksUpper]

/-- Past the largest finite pattern is where the rule says that the result overflows. -/
theorem RoundsAt.overflows_iff (hf : f.Regular) (h : RoundsAt f md neg a b) (hsr : ∀ k, md ≠ .sr k) {M U : ℝ}
    (hM : M = gridValue f f.maxFin) (hU : M - U = gridValue f (f.maxFin - 1)) : Overflows f md neg a M U ↔ f.maxFin < b := by
  have hstep := gridValue_maxFin_step hf
  have hup : M + U = gridValue f (f.maxFin + 1) := by linarith
  have hnext : f.maxFin < b ↔ f.maxFin + 1 ≤ b := Iff.rfl
  by_cases hin : Inward md neg
  · obtain ⟨hle, hlt⟩ := h.inward hin
    have hrne : md ≠ .rne := by rcases hin with rfl | ⟨rfl, -⟩ | ⟨rfl, -⟩ <;> simp
    simp only [Overflows, hin, hrne, not_true_eq_false, true_and, false_and, or_false]
    rw [hup]
    constructor
    · exact fun h => Nat.lt_of_succ_lt_succ (gridValue_lt_iff.1 (h.trans_lt hlt))
    · exact fun h => (gridValue_le_iff.2 h).trans hle
  · by_cases hrne : md = .rne
    · subst hrne
      simp only [Overflows, hin, ne_eq, not_true_eq_false, false_and, and_false, true_and, false_or]
      obtain ⟨c, hle, hlt, hc⟩ := h
      simp only [picksUpper] at hc
      rcases lt_trichotomy c f.maxFin with hlow | rfl | hhigh
      · have h1 : a < M := hM ▸ hlt.trans_le (gridValue_le_iff.2 hlow)
        have h2 : 0 < U := by
          have := gridValue_lt_iff (f := f).2 (show f.maxFin - 1 < f.maxFin by omega)
          linarith
        refine iff_of_false (not_or.2 ⟨by linarith, fun h => by linarith [h.1]⟩) (by omega)
      · have hmid : gridValue f f.maxFin + gridValue f (f.maxFin + 1) = 2 * (M + U / 2) := by rw [← hM, ← hup]; ring
        rw [hmid] at hc
        rcases hc with ⟨hno, rfl⟩ | ⟨hyes, rfl⟩
        · refine iff_of_false (fun h => hno ?_) (lt_irrefl _)
          exact h.imp (fun h => by linarith) fun ⟨h, ho⟩ => ⟨by linarith, ho⟩
        · refine iff_of_true ?_ (Nat.lt_succ_self _)
          exact hyes.imp (fun h => by linarith) fun ⟨h, ho⟩ => ⟨by linarith, ho⟩
      · have h1 : M + U ≤ a := hup ▸ (gridValue_le_iff.2 hhigh).trans hle
        have h2 : 0 < U := by
          have := gridValue_lt_iff (f := f).2 (Nat.lt_succ_self f.maxFin)
          linarith
        exact iff_of_true (.inl (by linarith)) (by omega)
    · obtain ⟨hle, hmin⟩ := h.outward hin hrne hsr
      simp only [Overflows, hin, hrne, not_false_eq_true, ne_eq, false_and, true_and, false_or, or_false]
      rw [hM]
      constructor
      · exact fun h => gridValue_lt_iff.1 (h.trans_le hle)
      · exact fun h => lt_of_not_ge fun hge => absurd (hmin _ hge) (Nat.not_le.2 h)

/-! Grid numbers of either sign. -/

/-- A number of either sign whose magnitude is on the grid. -/
def OnGrid (f : Fmt) (w : ℝ) : Prop := ∃ (s : Bool) (k : Nat), w = withSign s (gridValue f k)

theorem OnGrid.negated {w : ℝ} (h : OnGrid f w) : OnGrid f (-w) := by
  obtain ⟨s, k, rfl⟩ := h
  exact ⟨!s, k, by cases s <;> simp [withSign]⟩

theorem OnGrid.abs {w : ℝ} (h : OnGrid f w) : ∃ k, |w| = gridValue f k := by
  obtain ⟨s, k, rfl⟩ := h
  exact ⟨k, by rw [abs_withSign, abs_of_nonneg (gridValue_nonneg f k)]⟩

theorem OnGrid.withSign {w : ℝ} (h : OnGrid f w) (neg : Bool) : OnGrid f (withSign neg w) := by
  cases neg with
  | true => exact h.negated
  | false => exact h

theorem RoundsAt.inward_greatest (h : RoundsAt f md neg a b) (hin : Inward md neg) {w : ℝ} (hw : OnGrid f w) (hle : w ≤ a) : w ≤ gridValue f b := by
  obtain ⟨s, k, rfl⟩ := hw
  cases s with
  | true => exact (neg_nonpos.2 (gridValue_nonneg f k)).trans (gridValue_nonneg f b)
  | false => exact gridValue_le_iff.2 (Nat.lt_succ_iff.1 (gridValue_lt_iff.1 (hle.trans_lt (h.inward hin).2)))

theorem RoundsAt.outward_least (h : RoundsAt f md neg a b) (ha : 0 ≤ a) (hout : ¬ Inward md neg) (hrne : md ≠ .rne) (hsr : ∀ k, md ≠ .sr k) {w : ℝ} (hw : OnGrid f w)
    (hle : a ≤ w) : gridValue f b ≤ w := by
  obtain ⟨k, hk⟩ := hw.abs
  rw [abs_of_nonneg (ha.trans hle)] at hk
  rw [hk] at hle ⊢
  exact gridValue_le_iff.2 ((h.outward hout hrne hsr).2 k hle)

/-- The nearest of the grid numbers of either sign; the zeros count as one. -/
theorem RoundsAt.nearest_signed (h : RoundsAt f .rne neg a b) (ha : 0 ≤ a) {w : ℝ} (hw : OnGrid f w) :
    |a - gridValue f b| ≤ |a - w| ∧ (|a - gridValue f b| = |a - w| → w ≠ gridValue f b → b % 2 = 0) := by
  obtain ⟨s, k, rfl⟩ := hw
  cases s with
  | false => exact ⟨(h.nearest k).1, fun he hne => (h.nearest k).2 he fun hk => hne (hk ▸ rfl)⟩
  | true =>
    obtain ⟨hnear, htie⟩ := h.nearest 0
    have hk := gridValue_nonneg f k
    simp only [gridValue_zero, sub_zero, abs_of_nonneg ha] at hnear htie
    simp only [Sys2Proof.Machine.withSign, if_true, sub_neg_eq_add, abs_of_nonneg (add_nonneg ha hk)]
    refine ⟨by linarith, fun he hne => htie (by linarith) fun h0 => hne ?_⟩
    rw [← h0, gridValue_zero] at he ⊢
    rw [sub_zero, abs_of_nonneg ha] at he
    linarith

end

/-! Numbers of either sign, rounded. -/

section
variable {f : Fmt} {neg : Bool} {b : Nat} {z : ℝ}

theorem RoundsAt.rtz_greatest (h : RoundsAt f .rtz neg |z| b) :
    |withSign neg (gridValue f b)| ≤ |z| ∧ ∀ w, OnGrid f w → |w| ≤ |z| → |w| ≤ |withSign neg (gridValue f b)| := by
  rw [abs_withSign, abs_of_nonneg (gridValue_nonneg f b)]
  refine ⟨(h.inward (.inl rfl)).1, fun w hw hle => ?_⟩
  obtain ⟨k, hk⟩ := hw.abs
  exact h.inward_greatest (.inl rfl) ⟨false, k, hk⟩ hle

variable (hz : z = withSign neg |z|)
include hz

theorem RoundsAt.rne_nearest (h : RoundsAt f .rne neg |z| b) {w : ℝ} (hw : OnGrid f w) :
    |z - withSign neg (gridValue f b)| ≤ |z - w| ∧ (|z - withSign neg (gridValue f b)| = |z - w| → w ≠ withSign neg (gridValue f b) → b % 2 = 0) := by
  have hdist (x : ℝ) : |z - withSign neg x| = |(|z| - x)| := by
    conv_lhs => rw [hz]
    rw [withSign_sub, abs_withSign]
  obtain ⟨hnear, htie⟩ := h.nearest_signed (abs_nonneg z) (hw.withSign neg)
  rw [← hdist, ← hdist, withSign_withSign] at hnear htie
  exact ⟨hnear, fun he hne => htie he fun heq => hne (by rw [← heq, withSign_withSign])⟩

theorem RoundsAt.rdn_greatest (h : RoundsAt f .rdn neg |z| b) :
    withSign neg (gridValue f b) ≤ z ∧ ∀ w, OnGrid f w → w ≤ z → w ≤ withSign neg (gridValue f b) := by
  cases neg with
  | false =>
    have hin : Inward .rdn false := .inr (.inl ⟨rfl, rfl⟩)
    exact ⟨(h.inward hin).1.trans hz.ge, fun w hw hle => h.inward_greatest hin hw (hle.trans hz.le)⟩
  | true =>
    have hz' : -z = |z| := by linarith [show z = -|z| from hz]
    have hout : ¬ Inward .rdn true := by simp [Inward]
    refine ⟨?_, fun w hw hle => ?_⟩
    · have := (h.outward hout (by simp) (by simp)).1
      exact (neg_le_neg this).trans hz.ge
    · have := h.outward_least (abs_nonneg z) hout (by simp) (by simp) hw.negated (by linarith)
      exact le_neg.1 this

theorem RoundsAt.rup_least (h : RoundsAt f .rup neg |z| b) :
    z ≤ withSign neg (gridValue f b) ∧ ∀ w, OnGrid f w → z ≤ w → withSign neg (gridValue f b) ≤ w := by
  cases neg with
  | false =>
    have hout : ¬ Inward .rup false := by simp [Inward]
    exact ⟨hz.le.trans (h.outward hout (by simp) (by simp)).1, fun w hw hle => h.outward_least (abs_nonneg z) hout (by simp) (by simp) hw (hz.ge.trans hle)⟩
  | true =>
    have hz' : -z = |z| := by linarith [show z = -|z| from hz]
    have hin : Inward .rup true := .inr (.inr ⟨rfl, rfl⟩)
    refine ⟨hz.le.trans (neg_le_neg (h.inward hin).1), fun w hw hle => ?_⟩
    exact neg_le.1 (h.inward_greatest hin hw.negated (by linarith))

end

end Sys2Proof.Machine

/-! round_to (R121, R122): the bits and flags of `fRound`, held against the grid. -/

namespace Sys2Proof.Machine

section
variable {f : Fmt} {md : Mode} {sat neg : Bool} {a z : ℝ} {b : Nat}

/-- The flags of a magnitude a that went to the finite place b: inexact where it is not the number there; underflow only below the smallest normal, and wherever it is inexact and not above the largest subnormal (R122). -/
def FlagsRounding (f : Fmt) (a : ℝ) (b : Nat) (fl : BitVec 5) : Prop :=
  ∃ inexact tiny : Bool, fl = roundFlags inexact false tiny ∧ (inexact = true ↔ gridValue f b ≠ a)
    ∧ (tiny = true → a < gridValue f (2 ^ f.mb)) ∧ (a ≤ gridValue f (2 ^ f.mb - 1) → inexact = true → tiny = true)

/-- The bits and flags r are what rounding a magnitude a with a sign gives: those of its place on the grid, or of an overflow (R121, R122). -/
def Rounds (f : Fmt) (md : Mode) (sat neg : Bool) (a : ℝ) (r : Nat × BitVec 5) : Prop :=
  ∃ b, RoundsAt f md neg a b
    ∧ (f.maxFin < b → r = (overBits f md neg sat, fOF ||| fNX))
    ∧ (b ≤ f.maxFin → r.1 = (if neg then 2 ^ fSign f else 0) + b ∧ FlagsRounding f a b r.2)

theorem roundFlags_false_iff {inexact tiny : Bool} :
    ((roundFlags inexact false tiny).getLsbD 0 = true ↔ inexact = true) ∧ ((roundFlags inexact false tiny).getLsbD 1 = true ↔ inexact = true ∧ tiny = true)
    ∧ (roundFlags inexact false tiny).toNat < 4 := by
  revert inexact tiny; decide

theorem overBits_saturated (h : sat = true ∨ Inward md neg) : overBits f md neg sat = (if neg then 2 ^ fSign f else 0) + f.maxFin := by
  unfold overBits
  cases sat with
  | true => rfl
  | false => rcases h.resolve_left (by simp) with rfl | ⟨rfl, rfl⟩ | ⟨rfl, rfl⟩ <;> rfl

theorem overBits_infinite (hsat : sat = false) (hout : ¬ Inward md neg) :
    overBits f md neg sat = if f.eb = 4 then fNan f else (if neg then 2 ^ fSign f else 0) + fInf f := by
  subst hsat
  unfold overBits
  cases md <;> cases neg <;> simp_all [Inward]

theorem signBits_split (hf : f.Regular) (neg : Bool) (hb : b ≤ f.maxFin) :
    let x := (if neg then 2 ^ fSign f else 0) + b
    x < 2 ^ (fSign f + 1) ∧ x % 2 ^ fSign f = b ∧ x.testBit (fSign f) = neg := by
  have hlt := hb.trans_lt (maxFin_lt_sign hf)
  have hbit := Nat.testBit_lt_two_pow hlt
  cases neg with
  | false => exact ⟨by simp [pow_succ]; omega, by simp [Nat.mod_eq_of_lt hlt], by simpa using hbit⟩
  | true => exact ⟨by simp [pow_succ]; omega, by simp [Nat.mod_eq_of_lt hlt], by simp [Nat.testBit_two_pow_add_eq, hbit]⟩

theorem signBits_even (hf : f.Regular) : ((if neg then 2 ^ fSign f else 0) + b) % 2 = b % 2 := by
  have h : 2 ^ fSign f % 2 = 0 := by
    rw [Nat.pow_mod, Nat.mod_self, Nat.zero_pow, Nat.zero_mod]
    have := hf.one_le_mb
    unfold fSign
    omega
  cases neg <;> simp [Nat.add_mod, h]

/-- A bit pattern of a finite number of the format is that number of the grid. -/
theorem onGrid_of_valued (hf : f.Regular) {x : Nat} {w : ℝ} (hx : x % 2 ^ fSign f ≤ f.maxFin) (hw : valued (fDec f x) w) : OnGrid f w :=
  ⟨_, _, (valued_grid hf hx).1 hw⟩

/-- Bits and flags that come of rounding on the grid are as R121 and R122 say. -/
theorem roundsTo_of_rounds (hf : f.Regular) (hsr : ∀ k, md ≠ .sr k) (hz : z = withSign neg |z|) {r : Nat × BitVec 5} (h : Rounds f md sat neg |z| r) :
    roundsTo f md sat neg z r := by
  obtain ⟨b, hat, hover, hfin⟩ := h
  intro M U normal subnormal hM hU hnormal hsubnormal
  have hmax := hf.lt_maxFin
  rw [valued_grid_pos hf (by omega)] at hM hU hnormal hsubnormal
  have hpast : Overflows f md neg |z| M U ↔ f.maxFin < b := hat.overflows_iff hf hsr hM hU
  refine ⟨fun hp => ?_, fun hp => ?_⟩
  · rw [hover (hpast.1 hp)]
    exact ⟨rfl, overBits_saturated, overBits_infinite⟩
  · have hb : b ≤ f.maxFin := Nat.not_lt.1 (mt hpast.2 hp)
    obtain ⟨hbits, inexact, tiny, hflags, hinexact, htiny, hunder⟩ := hfin hb
    obtain ⟨hlt, hmod, hsign⟩ := signBits_split hf neg hb
    rw [← hbits] at hlt hmod hsign
    obtain ⟨hbit0, hbit1, hflt⟩ := roundFlags_false_iff (inexact := inexact) (tiny := tiny)
    rw [← hflags] at hbit0 hbit1 hflt
    have hval : valued (fDec f r.1) (withSign neg (gridValue f b)) := by rw [valued_grid hf (by omega), hmod, hsign]
    have hne : withSign neg (gridValue f b) ≠ z ↔ gridValue f b ≠ |z| := by
      conv_lhs => rw [hz]
      rw [ne_eq, withSign_inj]
    have heven : r.1 % 2 = b % 2 := by rw [hbits, signBits_even hf]
    refine ⟨_, ⟨hlt, by omega, hval⟩, hsign, ?nearest, ?zero, ?down, ?up, ?inexact, ?under, ?tiny, hflt⟩
    case nearest =>
      rintro rfl x w ⟨-, hx, hw⟩
      rw [heven]
      exact hat.rne_nearest hz (onGrid_of_valued hf hx hw)
    case zero =>
      rintro rfl
      obtain ⟨hle, hgreatest⟩ := hat.rtz_greatest
      exact ⟨hle, fun x w ⟨_, hx, hw⟩ => hgreatest w (onGrid_of_valued hf hx hw)⟩
    case down =>
      rintro rfl
      obtain ⟨hle, hgreatest⟩ := hat.rdn_greatest hz
      exact ⟨hle, fun x w ⟨_, hx, hw⟩ => hgreatest w (onGrid_of_valued hf hx hw)⟩
    case up =>
      rintro rfl
      obtain ⟨hle, hleast⟩ := hat.rup_least hz
      exact ⟨hle, fun x w ⟨_, hx, hw⟩ => hleast w (onGrid_of_valued hf hx hw)⟩
    case inexact => rw [hbit0, hinexact, hne]
    case under =>
      rw [hbit1, hne, hnormal, ← hinexact]
      exact fun h => ⟨h.1, htiny h.2⟩
    case tiny =>
      rw [hbit1, hne, hsubnormal, ← hinexact]
      exact fun h hle => ⟨h, hunder hle h⟩

end

end Sys2Proof.Machine

/-! What `fRound` computes: it splits the magnitude at the unit of its binade and picks one of the two neighbours (R121, R122). -/

namespace Sys2Proof.Machine

theorem bitLen_pos {m : Nat} (hm : m ≠ 0) : 2 ^ (bitLen m - 1) ≤ m ∧ m < 2 ^ bitLen m ∧ 1 ≤ bitLen m := by
  rw [bitLen, if_neg hm]
  exact ⟨Nat.log2_self_le hm, Nat.lt_log2_self, Nat.le_add_left ..⟩

/-- A magnitude a of m whole units 2^e and a part s of one more, s being 0 unless `sticky` says otherwise. -/
structure Magnitude (a : ℝ) (m : Nat) (e : Int) (sticky : Bool) (s : ℝ) : Prop where
  nonneg : 0 ≤ s
  lt_one : s < 1
  sticky_iff : sticky = true ↔ s ≠ 0
  eq : a = (m + s) * (2 : ℝ) ^ e

theorem Magnitude.exact {a : ℝ} {m : Nat} {e : Int} (h : a = m * (2 : ℝ) ^ e) : Magnitude a m e false 0 :=
  ⟨le_rfl, one_pos, by simp, by rw [h, add_zero]⟩

/-- A remainder of 2^(k+1) parts and a sticky rest s, against a half. -/
theorem half_lt_iff {rem k : Nat} {s : ℝ} (h0 : 0 ≤ s) (h1 : s < 1) :
    (1 < 2 * ((rem + s) / 2 ^ (k + 1)) ↔ 2 ^ k < rem ∨ (rem = 2 ^ k ∧ s ≠ 0)) ∧ (2 * ((rem + s) / 2 ^ (k + 1)) = 1 ↔ rem = 2 ^ k ∧ s = 0) := by
  have hP : (0 : ℝ) < 2 ^ k := by positivity
  have hhalf : 2 * (((rem : ℝ) + s) / 2 ^ (k + 1)) = (rem + s) / 2 ^ k := by rw [pow_succ]; field_simp
  rw [hhalf, one_lt_div hP, div_eq_one_iff_eq hP.ne']
  rcases lt_trichotomy rem (2 ^ k) with hr | rfl | hr
  · have hr' : (rem : ℝ) + 1 ≤ 2 ^ k := by exact_mod_cast hr
    refine ⟨iff_of_false (not_lt.2 (by linarith)) (by omega), iff_of_false (fun h => by linarith) (by omega)⟩
  · push_cast
    refine ⟨?_, by simp⟩
    rw [lt_add_iff_pos_right, h0.lt_iff_ne']
    simp
  · have hr' : (2 : ℝ) ^ k + 1 ≤ rem := by exact_mod_cast hr
    exact ⟨iff_of_true (by linarith) (.inl hr), iff_of_false (fun h => by linarith) (by omega)⟩

section
variable {a s : ℝ} {m : Nat} {e : Int} {sticky : Bool} (h : Magnitude a m e sticky s)
include h

/-- The leading bit of the whole units is the leading bit of the magnitude. -/
theorem Magnitude.binade (hm : m ≠ 0) : (2 : ℝ) ^ (e + bitLen m - 1) ≤ a ∧ a < (2 : ℝ) ^ (e + bitLen m) := by
  obtain ⟨hlow, hhigh, hone⟩ := bitLen_pos hm
  have hlow' : ((2 : ℝ) ^ (bitLen m - 1)) ≤ m := by exact_mod_cast hlow
  have hhigh' : (m : ℝ) + 1 ≤ (2 : ℝ) ^ bitLen m := by exact_mod_cast hhigh
  have hexp : e + (bitLen m : ℤ) - 1 = ((bitLen m - 1 : ℕ) : ℤ) + e := by omega
  rw [hexp, add_comm e, zpow_add₀ two_ne_zero, zpow_add₀ two_ne_zero, zpow_natCast, zpow_natCast, h.eq]
  have hpos := two_zpow_pos e
  exact ⟨mul_le_mul_of_nonneg_right (by linarith [h.nonneg]) hpos.le, mul_lt_mul_of_pos_right (by linarith [h.lt_one]) hpos⟩

/-- Split at a unit 2^q, the magnitude has n whole units, and of the rest t `pickUp` sees whether it is nothing, and how it compares with a half. -/
theorem Magnitude.split {q : Int} (hq : sticky = true → e < q) {n rem sh : Nat} (hsplit : splitAt m e q = (n, rem, sh)) :
    ∃ t : ℝ, 0 ≤ t ∧ t < 1 ∧ a = (n + t) * (2 : ℝ) ^ q ∧ ((decide (rem ≠ 0) || sticky) = true ↔ t ≠ 0)
      ∧ (∀ neg, pickUp .rne neg n rem sh sticky = true ↔ 1 < 2 * t ∨ (2 * t = 1 ∧ n % 2 = 1)) := by
  have hs := h.nonneg
  have hs1 := h.lt_one
  unfold splitAt at hsplit
  split at hsplit
  next hle =>
    obtain ⟨rfl, rfl, rfl⟩ : _ ∧ _ ∧ _ := by simpa using hsplit
    have hst : sticky = false := Bool.eq_false_iff.2 fun hst => absurd (hq hst) (not_lt.2 hle)
    have hs0 : s = 0 := not_not.1 (mt h.sticky_iff.2 (by simp [hst]))
    refine ⟨0, le_rfl, one_pos, ?_, by simp [hst], fun neg => by simp [pickUp]⟩
    rw [h.eq, hs0, add_zero, add_zero, Nat.cast_mul, Nat.cast_pow, Nat.cast_two, mul_assoc, ← zpow_natCast, ← zpow_add₀ two_ne_zero]
    congr 2
    omega
  next hlt =>
    obtain ⟨rfl, rfl, rfl⟩ : _ ∧ _ ∧ _ := by simpa using hsplit
    obtain ⟨k, hk⟩ : ∃ k, (q - e).toNat = k + 1 := Nat.exists_eq_succ_of_ne_zero (by omega)
    have hqe : q = e + ((k + 1 : ℕ) : ℤ) := by omega
    rw [hk]
    have hpos : 0 < 2 ^ (k + 1) := by positivity
    have hrem := Nat.mod_lt m hpos
    have hdiv : (m : ℝ) = 2 ^ (k + 1) * (m / 2 ^ (k + 1) : ℕ) + (m % 2 ^ (k + 1) : ℕ) := by exact_mod_cast (Nat.div_add_mod m (2 ^ (k + 1))).symm
    set n := m / 2 ^ (k + 1)
    set rem := m % 2 ^ (k + 1)
    set P : ℝ := 2 ^ (k + 1) with hP
    have hP0 : 0 < P := by positivity
    have hrem' : (rem : ℝ) + 1 ≤ P := by rw [hP]; exact_mod_cast hrem
    have ht {c : ℝ} : (rem + s) / P = c ↔ rem + s = c * P := div_eq_iff hP0.ne'
    refine ⟨(rem + s) / P, by positivity, (div_lt_one hP0).2 (by linarith), ?_, ?_, fun neg => ?_⟩
    · rw [h.eq, hdiv, hqe, zpow_add₀ two_ne_zero, zpow_natCast, ← hP]
      field_simp
      ring
    · rw [Bool.or_eq_true, decide_eq_true_eq, h.sticky_iff, ne_eq ((_ : ℝ) / _), ht, zero_mul]
      constructor
      · rintro (h0 | h0) hsum
        · have : (1 : ℝ) ≤ rem := by exact_mod_cast Nat.one_le_iff_ne_zero.2 h0
          linarith
        · exact h0 (by linarith [(Nat.cast_nonneg rem : (0 : ℝ) ≤ rem)])
      · intro hsum
        by_contra! hboth
        exact hsum (by simp [hboth])
    · obtain ⟨hhalf, htie⟩ := half_lt_iff (rem := rem) (k := k) hs hs1
      have hs0 : s = 0 ↔ sticky = false := by rw [← not_iff_not, ← ne_eq, ← h.sticky_iff, Bool.not_eq_false]
      have htwo : 2 ^ (k + 1) = 2 * 2 ^ k := by ring
      rw [hhalf, htie, ne_eq, hs0]
      cases sticky <;> simp [pickUp, htwo]

end

theorem picksUpper_ne {f : Fmt} {md : Mode} {neg : Bool} {a : ℝ} {c : Nat} (hup : picksUpper f neg a c md) : gridValue f c ≠ a := by
  have hstep := gridValue_lt_iff (f := f).2 (Nat.lt_succ_self c)
  cases md with
  | rne =>
    rintro rfl
    rcases hup with hup | ⟨hup, -⟩ <;> linarith
  | rdn => exact hup.2
  | rup => exact hup.2
  | _ => exact hup.elim

section
variable {f : Fmt} {md : Mode} {sat neg : Bool} {a s : ℝ} {m : Nat} {e : Int} {sticky : Bool}

/-- `pickUp` decides as the mode does between two neighbours on the grid. -/
theorem pickUp_iff_picksUpper (hsr : ∀ k, md ≠ .sr k) {n rem sh c : Nat} {q : Int} {t : ℝ} (ha : a = (n + t) * (2 : ℝ) ^ q)
    (hc : gridValue f c = n * (2 : ℝ) ^ q) (hc1 : gridValue f (c + 1) = (n + 1) * (2 : ℝ) ^ q) (hodd : c % 2 = n % 2)
    (hinexact : (decide (rem ≠ 0) || sticky) = true ↔ t ≠ 0) (hrne : pickUp .rne neg n rem sh sticky = true ↔ 1 < 2 * t ∨ (2 * t = 1 ∧ n % 2 = 1)) :
    pickUp md neg n rem sh sticky = true ↔ picksUpper f neg a c md := by
  have hpos := two_zpow_pos q
  have hne : gridValue f c ≠ a ↔ t ≠ 0 := by
    rw [hc, ha, ne_eq, mul_left_inj' hpos.ne']
    simp
  cases md with
  | rne =>
    have hsum : gridValue f c + gridValue f (c + 1) = (2 * n + 1) * (2 : ℝ) ^ q := by rw [hc, hc1]; ring
    have htwo : 2 * a = (2 * n + 2 * t) * (2 : ℝ) ^ q := by rw [ha]; ring
    rw [hrne, picksUpper, hsum, htwo, hodd, mul_lt_mul_iff_left₀ hpos, mul_left_inj' hpos.ne', add_lt_add_iff_left, add_right_inj]
  | rtz => simp [pickUp, picksUpper]
  | rdn => rw [picksUpper, hne, ← hinexact]; simp [pickUp]
  | rup => rw [picksUpper, hne, ← hinexact]; simp [pickUp]
  | sr k => exact absurd rfl (hsr k)

/-- The magnitude lies between the place that the bits of its whole units name and the next one (R121). -/
theorem Magnitude.between (h : Magnitude a m e sticky s) (hm : m ≠ 0) {q : Int} (hq : q = max (e + bitLen m - 1 - f.mb) (fMin f)) {n : Nat} {t : ℝ} (ht0 : 0 ≤ t) (ht1 : t < 1)
    (ha : a = (n + t) * (2 : ℝ) ^ q) :
    gridValue f ((q - fMin f).toNat * 2 ^ f.mb + n) = n * (2 : ℝ) ^ q ∧ gridValue f ((q - fMin f).toNat * 2 ^ f.mb + n + 1) = (n + 1) * (2 : ℝ) ^ q := by
  obtain ⟨hlow, hhigh⟩ := h.binade hm
  have hpos := two_zpow_pos q
  have hn : n < 2 ^ (f.mb + 1) := by
    have hle : (2 : ℝ) ^ (e + bitLen m) ≤ 2 ^ (f.mb + 1) * (2 : ℝ) ^ q := by
      rw [← zpow_natCast, ← zpow_add₀ two_ne_zero]
      exact zpow_le_zpow_right₀ one_le_two (by push_cast; omega)
    have : (n : ℝ) * 2 ^ q < 2 ^ (f.mb + 1) * (2 : ℝ) ^ q := by nlinarith
    exact_mod_cast lt_of_mul_lt_mul_right this hpos.le
  refine gridValue_bits f (by omega) hn ?_
  rcases max_choice (e + bitLen m - 1 - f.mb) (fMin f) with hmax | hmax
  · right
    have hlead : 2 ^ f.mb * (2 : ℝ) ^ q = (2 : ℝ) ^ (e + bitLen m - 1) := by
      rw [← zpow_natCast, ← zpow_add₀ two_ne_zero]
      congr 1
      omega
    have : (2 : ℝ) ^ f.mb * 2 ^ q < (n + 1) * (2 : ℝ) ^ q := by rw [hlead]; nlinarith
    exact Nat.lt_succ_iff.1 (by exact_mod_cast lt_of_mul_lt_mul_right this hpos.le)
  · exact .inl (hq.trans hmax)

theorem Magnitude.lt_normal (h : Magnitude a m e sticky s) (hm : m ≠ 0) (htop : e + bitLen m - 1 < fMin f + f.mb) : a < gridValue f (2 ^ f.mb) := by
  rw [gridValue_normal, ← zpow_natCast, ← zpow_add₀ two_ne_zero]
  exact (h.binade hm).2.trans_le (zpow_le_zpow_right₀ one_le_two (by omega))

/-- Up to the largest subnormal, the leading bit is below that of the smallest normal, and rounding to the format's precision does not reach it (R122). -/
theorem Magnitude.tiny_of_le_subnormal (h : Magnitude a m e sticky s) (hm : m ≠ 0) (hsub : a ≤ gridValue f (2 ^ f.mb - 1)) :
    e + bitLen m - 1 < fMin f + f.mb
    ∧ ∀ (k : Nat) (t : ℝ), 0 ≤ t → a = (k + t) * (2 : ℝ) ^ (e + bitLen m - 1 - f.mb) → e + bitLen m - 1 = fMin f + f.mb - 1 → k + 1 < 2 ^ (f.mb + 1) := by
  have hone : 1 ≤ 2 ^ f.mb := Nat.one_le_two_pow
  have hval : gridValue f (2 ^ f.mb - 1) = (2 ^ f.mb - 1) * (2 : ℝ) ^ fMin f := by
    have := (gridValue_bits f le_rfl (n := 2 ^ f.mb - 1) (by rw [pow_succ]; omega) (.inl rfl)).1
    simpa [Nat.cast_sub hone] using this
  rw [hval] at hsub
  constructor
  · have hlt : (2 : ℝ) ^ (e + bitLen m - 1) < (2 : ℝ) ^ (fMin f + f.mb) := by
      rw [zpow_add₀ two_ne_zero (fMin f), zpow_natCast]
      linarith [(h.binade hm).1, two_zpow_pos (fMin f)]
    exact (zpow_lt_zpow_iff_right₀ one_lt_two).1 hlt
  · intro k t ht ha htop
    have hexp : fMin f = e + bitLen m - 1 - f.mb + 1 := by omega
    rw [hexp, zpow_add_one₀ two_ne_zero, ha] at hsub
    have hle : (k : ℝ) + t ≤ (2 ^ f.mb - 1) * 2 := by
      refine le_of_mul_le_mul_right ?_ (two_zpow_pos (e + bitLen m - 1 - f.mb))
      linarith
    have : (k : ℝ) + 1 < 2 ^ (f.mb + 1) := by rw [pow_succ]; linarith
    exact_mod_cast this

/-- `fRound` rounds a magnitude as R121 and R122 say, where what is sticky lies below the bits that the format keeps. -/
theorem fRound_rounds (hf : f.Regular) (hsr : ∀ k, md ≠ .sr k) (h : Magnitude a m e sticky s) (hlow : sticky = true → f.mb + 1 < bitLen m) :
    Rounds f md sat neg a (fRound f md sat neg m e sticky) := by
  by_cases hm : m = 0
  · subst hm
    have hst : sticky = false := Bool.eq_false_iff.2 fun hst => by simpa [bitLen] using hlow hst
    have hs : s = 0 := not_not.1 (mt h.sticky_iff.2 (by simp [hst]))
    obtain rfl : a = gridValue f 0 := by rw [h.eq, hs, gridValue_zero]; simp
    refine ⟨0, .of_grid, by simp, fun _ => ⟨by simp [fRound, hst], false, false, by simp [fRound, hst, roundFlags, flagIf], by simp, by simp, by simp⟩⟩
  · set qn := e + bitLen m - 1 - f.mb with hqn
    obtain ⟨n, rem, sh, hsplit⟩ : ∃ n rem sh, splitAt m e (max qn (fMin f)) = (n, rem, sh) := ⟨_, _, _, rfl⟩
    obtain ⟨k, r, d, hsplit'⟩ : ∃ k r d, splitAt m e qn = (k, r, d) := ⟨_, _, _, rfl⟩
    obtain ⟨t, ht0, ht1, ha, hinexact, hrne⟩ := h.split (by intro hst; have := hlow hst; omega) hsplit
    obtain ⟨t', ht0', ht1', ha', hinexact', hrne'⟩ := h.split (by intro hst; have := hlow hst; omega) hsplit'
    obtain ⟨hc, hc1⟩ := h.between hm rfl ht0 ht1 ha
    set c := (max qn (fMin f) - fMin f).toNat * 2 ^ f.mb + n with hcdef
    have hodd : c % 2 = n % 2 := by
      have : 2 ^ f.mb % 2 = 0 := by rw [Nat.pow_mod, Nat.mod_self, Nat.zero_pow hf.one_le_mb]
      rw [hcdef, Nat.add_mod, Nat.mul_mod, this]
      simp
    have hpick := pickUp_iff_picksUpper hsr ha hc hc1 hodd hinexact (hrne neg)
    have hpos := two_zpow_pos (max qn (fMin f))
    have hlt : a < gridValue f (c + 1) := by rw [hc1, ha]; exact mul_lt_mul_of_pos_right (by linarith) hpos
    have hne : gridValue f c ≠ a ↔ t ≠ 0 := by rw [hc, ha, ne_eq, mul_left_inj' hpos.ne']; simp
    have hat : RoundsAt f md neg a (c + if pickUp md neg n rem sh sticky then 1 else 0) := by
      refine ⟨c, ?_, hlt, ?_⟩
      · rw [hc, ha]
        exact mul_le_mul_of_nonneg_right (by linarith) hpos.le
      · by_cases hup : pickUp md neg n rem sh sticky = true
        · exact .inr ⟨hpick.1 hup, by rw [if_pos hup]⟩
        · exact .inl ⟨mt hpick.2 hup, by rw [if_neg hup, add_zero]⟩
    have hbits : (max qn (fMin f) - fMin f).toNat * 2 ^ f.mb + (if pickUp md neg n rem sh sticky then n + 1 else n) = c + if pickUp md neg n rem sh sticky then 1 else 0 := by
      rw [hcdef]
      split <;> rfl
    refine ⟨_, hat, fun hover => ?_, fun hfin => ?_⟩
    · simp only [fRound, hm, false_and, if_false, ← hqn, hsplit, hbits, if_pos hover]
      rfl
    · simp only [fRound, hm, false_and, if_false, ← hqn, hsplit, hbits, if_neg (Nat.not_lt.2 hfin), hsplit']
      refine ⟨trivial, _, _, rfl, ?_, fun htiny => ?_, fun hsub _ => ?_⟩
      · rw [hinexact, ← hne]
        split
        next hup => exact iff_of_true (picksUpper_ne (hpick.1 hup)) hlt.ne'
        next => rfl
      · refine h.lt_normal hm (not_le.1 fun hge => ?_)
        simp [not_lt.2 hge] at htiny
      · obtain ⟨htop, hreach⟩ := h.tiny_of_le_subnormal hm hsub
        have hk := hreach k t' ht0' ha'
        simp only [htop, if_true, Bool.not_eq_true', Bool.and_eq_false_iff, decide_eq_false_iff_not]
        refine or_iff_not_imp_left.2 fun heq => ?_
        have := hk (not_not.1 heq)
        split <;> omega

end

end Sys2Proof.Machine

/-! Numbers rounded once: results of `fRound` as R121 and R122 say, integers (R125), quotients (R119), and numbers that a format holds exactly. -/

namespace Sys2Proof.Machine

section
variable {f : Fmt} {md : Mode} {sat neg zero : Bool} {z s : ℝ} {m : Nat} {e : Int} {sticky : Bool}

theorem fRound_roundsTo (hf : f.Regular) (hsr : ∀ k, md ≠ .sr k) (hz : z = withSign neg |z|) (h : Magnitude |z| m e sticky s) (hlow : sticky = true → f.mb + 1 < bitLen m) :
    roundsTo f md sat neg z (fRound f md sat neg m e sticky) :=
  roundsTo_of_rounds hf hsr hz (fRound_rounds hf hsr h hlow)

/-- An integer is rounded once (R125). -/
theorem fRound_int_roundsTo (hf : f.Regular) (hsr : ∀ k, md ≠ .sr k) {k : Int} (hk : signed (k : ℝ) false neg) :
    roundsTo f md sat neg k (fRound f md sat (k < 0) k.natAbs 0 false) := by
  have hneg : decide (k < 0) = neg := by
    obtain ⟨h1, h2, h3⟩ := hk
    rcases lt_trichotomy k 0 with h | rfl | h
    · rw [h1 (by exact_mod_cast h), decide_eq_true h]
    · rw [h3 Int.cast_zero]; rfl
    · rw [h2 (by exact_mod_cast h), decide_eq_false h.not_gt]
  rw [hneg]
  exact fRound_roundsTo hf hsr (eq_withSign_abs hk) (.exact (by simp [Nat.cast_natAbs])) (by simp)

/-! Numbers that the format holds. -/

theorem RoundsAt.eq_of_grid {b c : Nat} (h : RoundsAt f .rne neg (gridValue f c) b) : b = c := by
  have := (h.nearest c).1
  rw [sub_self, abs_zero, abs_nonpos_iff, sub_eq_zero] at this
  exact ((gridValue_strictMono f).injective this).symm

/-- No more bits than the format keeps, and none below its lowest unit: the number is on the grid. -/
theorem exists_gridValue_eq (he : fMin f ≤ e) (hm : m < 2 ^ (f.mb + 1)) : ∃ c, gridValue f c = m * (2 : ℝ) ^ e := by
  by_cases h0 : m = 0
  · exact ⟨0, by simp [h0, gridValue_zero]⟩
  · have hlen : bitLen m ≤ f.mb + 1 := by
      rw [bitLen, if_neg h0]
      exact (Nat.log2_lt h0).2 hm
    have hmag : Magnitude (m * (2 : ℝ) ^ e) m e false 0 := .exact rfl
    have hsplit : splitAt m e (max (e + bitLen m - 1 - f.mb) (fMin f)) = (m * 2 ^ (e - max (e + bitLen m - 1 - f.mb) (fMin f)).toNat, 0, 0) := by rw [splitAt, if_pos (by omega)]
    obtain ⟨t, ht0, ht1, ha, hexact, -⟩ := hmag.split (by simp) hsplit
    have ht : t = 0 := by simpa using hexact
    exact ⟨_, ((hmag.between h0 rfl ht0 ht1 ha).1.trans (by rw [ha, ht, add_zero]))⟩

/-- Such a number keeps its value, with no flag, up to the largest finite one. -/
theorem fRound_exact (hf : f.Regular) (he : fMin f ≤ e) (hm : m < 2 ^ (f.mb + 1)) (hmax : m * (2 : ℝ) ^ e ≤ gridValue f f.maxFin) :
    ∃ b ≤ f.maxFin, gridValue f b = m * (2 : ℝ) ^ e ∧ fRound f .rne sat neg m e false = ((if neg then 2 ^ fSign f else 0) + b, 0#5) := by
  obtain ⟨c, hc⟩ := exists_gridValue_eq he hm
  obtain ⟨b, hat, -, hfin⟩ := fRound_rounds (sat := sat) (neg := neg) (md := .rne) hf (by simp) (.exact rfl : Magnitude (m * (2 : ℝ) ^ e) m e false 0) (by simp)
  rw [← hc] at hat hmax hfin
  obtain rfl := hat.eq_of_grid
  have hb := gridValue_le_iff.1 hmax
  obtain ⟨hbits, inexact, tiny, hflags, hinexact, -⟩ := hfin hb
  have hno : inexact = false := Bool.eq_false_iff.2 fun h => hinexact.1 h rfl
  refine ⟨b, hb, hc, Prod.ext hbits ?_⟩
  rw [hflags, hno]
  cases tiny <;> rfl

/-! Quotients (R119). -/

theorem bitLen_quotient {m1 m2 : Nat} (h1 : m1 ≠ 0) (h2 : m2 ≠ 0) : 25 < bitLen (m1 * 2 ^ (bitLen m2 + 64) / m2) := by
  have hbig : 2 ^ 64 ≤ m1 * 2 ^ (bitLen m2 + 64) / m2 := by
    rw [Nat.le_div_iff_mul_le (Nat.pos_of_ne_zero h2), mul_comm, pow_add]
    have := (bitLen_pos h2).2.1
    nlinarith [Nat.one_le_iff_ne_zero.2 h1, Nat.mul_le_mul this.le (le_refl (2 ^ 64))]
  have hne : m1 * 2 ^ (bitLen m2 + 64) / m2 ≠ 0 := by omega
  have := (bitLen_pos hne).2.1
  by_contra! hle
  have := Nat.pow_le_pow_right two_pos hle
  omega

/-- The quotient of two numbers, as the whole part of a division whose remainder is sticky. -/
theorem Magnitude.quotient {m1 m2 : Nat} (e1 e2 : Int) (k : Nat) (h2 : m2 ≠ 0) :
    Magnitude (m1 * (2 : ℝ) ^ e1 / (m2 * (2 : ℝ) ^ e2)) (m1 * 2 ^ k / m2) (e1 - e2 - k) (decide (m1 * 2 ^ k % m2 ≠ 0)) ((m1 * 2 ^ k % m2 : ℕ) / m2) := by
  have h2' : (0 : ℝ) < m2 := by exact_mod_cast Nat.pos_of_ne_zero h2
  have hmod : ((m1 * 2 ^ k % m2 : ℕ) : ℝ) < m2 := by exact_mod_cast Nat.mod_lt _ (Nat.pos_of_ne_zero h2)
  have hdiv : (m1 * 2 ^ k : ℝ) = m2 * (m1 * 2 ^ k / m2 : ℕ) + (m1 * 2 ^ k % m2 : ℕ) := by exact_mod_cast (Nat.div_add_mod (m1 * 2 ^ k) m2).symm
  refine ⟨by positivity, (div_lt_one h2').2 hmod, ?_, ?_⟩
  · rw [decide_eq_true_eq, ne_eq, ne_eq, div_eq_zero_iff, Nat.cast_eq_zero, Nat.cast_eq_zero, or_iff_left h2]
  · have hsum : ((m1 * 2 ^ k / m2 : ℕ) + ((m1 * 2 ^ k % m2 : ℕ) : ℝ) / m2) = m1 * 2 ^ k / m2 := by
      rw [hdiv]
      field_simp
    rw [hsum, zpow_sub₀ two_ne_zero, zpow_sub₀ two_ne_zero, zpow_natCast]
    field_simp

/-- The sign bit of a number that is not zero. -/
theorem signed_eq {n : Bool} {a : ℝ} (ha : 0 < a) (h : signed (withSign n a) zero neg) : neg = n := by
  cases n with
  | true => exact h.1 (neg_lt_zero.2 ha)
  | false => exact h.2.1 ha

/-- A quotient of numbers, the divisor not zero, is rounded once from its exact value (R119). -/
theorem divV_roundsTo (hf : f.Regular) {n1 n2 : Bool} {m1 m2 : Nat} {e1 e2 : Int} {x y : ℝ} (hx : valued (.fin n1 m1 e1) x) (hy : valued (.fin n2 m2 e2) y) (hne : y ≠ 0)
    (hneg : signed (x / y) (n1 != n2) neg) : roundsTo f .rne false neg (x / y) (divV f (.fin n1 m1 e1) (.fin n2 m2 e2)) := by
  rw [valued_fin_iff] at hx hy
  have h2 : m2 ≠ 0 := by
    rintro rfl
    exact hne (by rw [hy]; cases n2 <;> simp [withSign])
  have hxy : x / y = withSign (n1 != n2) (m1 * (2 : ℝ) ^ e1 / (m2 * (2 : ℝ) ^ e2)) := by
    rw [hx, hy]
    cases n1 <;> cases n2 <;> simp [withSign, neg_div, div_neg]
  have hz := eq_withSign_abs hneg
  by_cases h1 : m1 = 0
  · subst h1
    have h0 : x / y = 0 := by rw [hxy]; simp [withSign]
    simp only [divV, h2, if_true, if_false]
    rw [← hneg.2.2 h0]
    exact fRound_roundsTo hf (by simp) hz (.exact (by simp [h0])) (by simp)
  · have h1' : (0 : ℝ) < m1 := by exact_mod_cast Nat.pos_of_ne_zero h1
    have h2' : (0 : ℝ) < m2 := by exact_mod_cast Nat.pos_of_ne_zero h2
    have hpos : 0 < m1 * (2 : ℝ) ^ e1 / (m2 * (2 : ℝ) ^ e2) := by positivity
    have habs : |x / y| = m1 * (2 : ℝ) ^ e1 / (m2 * (2 : ℝ) ^ e2) := by rw [hxy, abs_withSign, abs_of_pos hpos]
    simp only [divV, h1, h2, if_false]
    have hn : neg = (n1 != n2) := signed_eq hpos (by rwa [← hxy])
    rw [← hn]
    refine fRound_roundsTo hf (by simp) hz (by rw [habs]; exact Magnitude.quotient e1 e2 _ h2) fun _ => ?_
    have := hf.mb_le
    have := bitLen_quotient h1 h2
    omega

end

end Sys2Proof.Machine

/-! Widening of 16-bit lanes (R129), and halving trees: what they answer, and what a property of lanes gives of the answer. -/

namespace Sys2Proof.Machine

/-! Patterns by what they stand for. -/

/-- The three kinds of patterns of a format with infinities (R116). -/
theorem fDec_cases {f : Fmt} (heb : f.eb ≠ 4) (x : Nat) :
    (x % 2 ^ f.mb = 0 ∧ fDec f x = .inf (x.testBit (fSign f)))
    ∨ (x % 2 ^ f.mb ≠ 0 ∧ fDec f x = .nan (!(x % 2 ^ f.mb).testBit (f.mb - 1)))
    ∨ ∃ m e, fDec f x = .fin (x.testBit (fSign f)) m e ∧ m < 2 ^ (f.mb + 1) ∧ fMin f ≤ e ∧ e ≤ fMin f + (2 ^ f.eb - 3 : Nat) := by
  have hfr := Nat.mod_lt x (show 0 < 2 ^ f.mb by positivity)
  have hex := Nat.mod_lt (x / 2 ^ f.mb) (show 0 < 2 ^ f.eb by positivity)
  have hmb : 2 ^ (f.mb + 1) = 2 ^ f.mb + 2 ^ f.mb := by ring
  simp only [fDec, heb, false_and, if_false, ne_eq, not_false_eq_true, true_and]
  split
  next =>
    split
    next h0 => exact .inl ⟨h0, rfl⟩
    next h0 => exact .inr (.inl ⟨h0, rfl⟩)
  next =>
    split
    next => exact .inr (.inr ⟨_, _, rfl, by omega, le_rfl, by omega⟩)
    next => exact .inr (.inr ⟨_, _, rfl, by omega, by omega, by omega⟩)

/-- An f32 pattern of the highest exponent whose fraction is not zero. -/
theorem fDec_f32_nan {b y : Nat} (hy : y < 2 ^ 23) (h0 : y ≠ 0) : fDec fmtF32 (b * 2 ^ 31 + 0x7F800000 + y) = .nan (!y.testBit 22) := by
  have hex : (b * 2 ^ 31 + 0x7F800000 + y) / 2 ^ 23 % 2 ^ 8 = 2 ^ 8 - 1 := by omega
  have hfr : (b * 2 ^ 31 + 0x7F800000 + y) % 2 ^ 23 = y := by omega
  simp only [fDec, fmtF32, hex, hfr, h0]
  simp

/-! Widening (R129). -/

/-- A number of no more bits than f32 keeps, in its range, goes to the f32 pattern of that number. -/
theorem fRound_f32_widens {neg : Bool} {m : Nat} {e : Int} (he : -149 ≤ e) (hm : m < 2 ^ 24) (hmax : m * (2 : ℝ) ^ e ≤ (2 ^ 24 - 1) * (2 : ℝ) ^ (104 : ℤ)) :
    let r := fRound fmtF32 .rne false neg m e false
    r.2 = 0#5 ∧ r.1.testBit 31 = neg ∧ valued (fDec fmtF32 r.1) (withSign neg (m * (2 : ℝ) ^ e)) := by
  have hlast : gridValue fmtF32 fmtF32.maxFin = (2 ^ 24 - 1) * (2 : ℝ) ^ (104 : ℤ) := by
    have hs : significand fmtF32 fmtF32.maxFin = 2 ^ 24 - 1 := by decide
    have hu : unitExp fmtF32 fmtF32.maxFin = 104 := by decide
    rw [gridValue, hs, hu]
    norm_num
  obtain ⟨b, hb, hval, hr⟩ := fRound_exact (sat := false) (neg := neg) Fmt.regular_f32 he hm (by rwa [hlast])
  obtain ⟨-, hmod, hsign⟩ := signBits_split Fmt.regular_f32 neg hb
  rw [hr]
  exact ⟨rfl, hsign, by rw [valued_grid Fmt.regular_f32 (by rw [hmod]; exact hb), hmod, hsign, hval]⟩

/-- A lane of a 16-bit tile and its widened pattern stand for the same, with the same sign bit. -/
theorem widenF_widens {code : Nat} (hcode : code = 1 ∨ code = 2) (x : Nat) :
    let w := widenF code x
    w.2 = 0#5 ∧ w.1.testBit 31 = x.testBit 15 ∧ (∀ p, valued (fDec (fmtOf code) x) p → valued (fDec fmtF32 w.1) p)
    ∧ (∀ n, fDec (fmtOf code) x = .inf n → fDec fmtF32 w.1 = .inf n) ∧ ∀ sg, fDec (fmtOf code) x = .nan sg → fDec fmtF32 w.1 = .nan sg := by
  have hne : code ≠ 0 := by rintro rfl; simp at hcode
  have heb : (fmtOf code).eb ≠ 4 := by rcases hcode with rfl | rfl <;> decide
  have hsign : (fmtOf code).eb + (fmtOf code).mb = 15 := by rcases hcode with rfl | rfl <;> rfl
  have hmb : 1 ≤ (fmtOf code).mb ∧ (fmtOf code).mb ≤ 23 := by rcases hcode with rfl | rfl <;> decide
  have hs : fSign (fmtOf code) = 15 := hsign
  rcases fDec_cases heb x with ⟨-, hx⟩ | ⟨h0, hx⟩ | ⟨m, e, hx, hm, hlow, hhigh⟩
  · simp only [widenF, hne, if_false, hx, hs, cvtFF]
    cases x.testBit 15 <;> exact ⟨rfl, by decide, fun p ⟨_, _, _, h, _⟩ => by simp at h, fun n h => by rw [← h]; decide, fun sg h => by simp at h⟩
  · simp only [widenF, hne, if_false, hx, hsign]
    set y := x % 2 ^ (fmtOf code).mb * 2 ^ (23 - (fmtOf code).mb) with hy
    have hfr := Nat.mod_lt x (show 0 < 2 ^ (fmtOf code).mb by positivity)
    have hpow : 2 ^ (fmtOf code).mb * 2 ^ (23 - (fmtOf code).mb) = 2 ^ 23 := by rw [← pow_add]; congr 1; omega
    have hlt : y < 2 ^ 23 := by rw [hy, ← hpow]; exact Nat.mul_lt_mul_of_pos_right hfr (by positivity)
    have hy0 : y ≠ 0 := Nat.mul_ne_zero h0 (by positivity)
    have hquiet : y.testBit 22 = (x % 2 ^ (fmtOf code).mb).testBit ((fmtOf code).mb - 1) := by
      rw [hy, Nat.testBit_mul_two_pow, decide_eq_true (by omega), Bool.true_and]
      congr 1
      omega
    refine ⟨trivial, ?_, fun p ⟨_, _, _, h, _⟩ => by simp at h, fun n h => by simp at h, fun sg h => ?_⟩
    · rw [Nat.testBit_eq_decide_div_mod_eq, Nat.testBit_eq_decide_div_mod_eq]
      refine decide_eq_decide.2 ?_
      omega
    · rw [fDec_f32_nan hlt hy0, hquiet, h]
  · have hrange : -149 ≤ e ∧ m < 2 ^ 24 ∧ m * (2 : ℝ) ^ e ≤ (2 ^ 24 - 1) * (2 : ℝ) ^ (104 : ℤ) := by
      have hm1 : (m : ℝ) ≤ 2 ^ ((fmtOf code).mb + 1) - 1 := by
        rw [le_sub_iff_add_le]
        exact_mod_cast hm
      obtain ⟨E, hE, hmin, hbits, hmax⟩ : ∃ E : ℤ, e ≤ E ∧ -149 ≤ fMin (fmtOf code) ∧ 2 ^ ((fmtOf code).mb + 1) ≤ 2 ^ 24
          ∧ ((2 : ℝ) ^ ((fmtOf code).mb + 1) - 1) * (2 : ℝ) ^ E ≤ (2 ^ 24 - 1) * (2 : ℝ) ^ (104 : ℤ) := by
        rcases hcode with rfl | rfl
        · exact ⟨120, hhigh, by decide, by decide, by norm_num [fmtOf, fmtBf16]⟩
        · exact ⟨5, hhigh, by decide, by decide, by norm_num [fmtOf, fmtF16]⟩
      exact ⟨hmin.trans hlow, hm.trans_le hbits, (mul_le_mul hm1 (zpow_le_zpow_right₀ one_le_two hE) (two_zpow_pos e).le ((Nat.cast_nonneg m).trans hm1)).trans hmax⟩
    obtain ⟨hflags, hbit, hval⟩ := fRound_f32_widens (neg := x.testBit 15) hrange.1 hrange.2.1 hrange.2.2
    simp only [widenF, hne, if_false, hx, hs, cvtFF]
    exact ⟨hflags, hbit, fun p hp => by rwa [valued_fin_iff.1 hp], fun n h => by simp at h, fun sg h => by simp at h⟩

end Sys2Proof.Machine

/-! Halving trees (R129): what `halve` answers, and what a property of the lanes gives of the answer; the reductions and scans over them (R208, R209). -/

namespace Sys2Proof.Machine

section
variable {α : Type} {op : α → α → α} {k : Nat} {v v' : Nat → α} {r : α}

theorem treeOf_congr (h : ∀ i < 2 ^ k, v i = v' i) (ht : treeOf op k v r) : treeOf op k v' r := by
  obtain ⟨t, h0, hstep, hr⟩ := ht
  exact ⟨t, fun i hi => (h0 i hi).trans (h i hi), hstep, hr⟩

/-- A tree of one more level first takes the upper half of the lanes into the lower. -/
theorem treeOf_succ (ht : treeOf op k (fun i => op (v i) (v (i + 2 ^ k))) r) : treeOf op (k + 1) v r := by
  obtain ⟨t, h0, hstep, hr⟩ := ht
  refine ⟨fun h => match h with | 0 => v | h + 1 => t h, fun _ _ => rfl, fun h hh i hi => ?_, hr⟩
  cases h with
  | zero => exact h0 i (by simpa using hi)
  | succ h =>
    have hlevel : k + 1 - (h + 1) - 1 = k - h - 1 := by omega
    rw [hlevel] at hi ⊢
    exact hstep h (by omega) i hi

/-- `halve` is the halving tree of a list of 2^k lanes. -/
theorem treeOf_halve (d e : α) {l : List α} (hl : l.length = 2 ^ k) : treeOf op k (fun i => l.getD i d) ((halve op k l).headD e) := by
  induction k generalizing l with
  | zero =>
    obtain ⟨x, rfl⟩ := List.length_eq_one_iff.1 (by simpa using hl)
    exact ⟨fun _ _ => x, by simp, by simp, rfl⟩
  | succ k ih =>
    have hhalf : l.length / 2 = 2 ^ k := by rw [hl, pow_succ]; omega
    have hlen : l.length = 2 ^ k + 2 ^ k := by rw [hl]; ring
    refine treeOf_succ (treeOf_congr (fun i hi => ?_) (ih (l := List.zipWith op (l.take (2 ^ k)) (l.drop (2 ^ k))) (by simp [hlen])))
      |> fun h => by simpa only [halve, hhalf] using h
    have h1 : i < l.length := by omega
    have h2 : i + 2 ^ k < l.length := by omega
    simp [List.getD_eq_getElem?_getD, List.getElem?_zipWith, hi, h1, h2, add_comm]

/-- What every lane has and the operation keeps, the answer has. -/
theorem treeOf_all {P : α → Prop} (hop : ∀ x y, P x → P y → P (op x y)) (hv : ∀ i < 2 ^ k, P (v i)) (ht : treeOf op k v r) : P r := by
  obtain ⟨t, h0, hstep, rfl⟩ := ht
  have hall : ∀ h ≤ k, ∀ i < 2 ^ (k - h), P (t h i) := by
    intro h
    induction h with
    | zero => exact fun _ i hi => by rw [h0 i hi]; exact hv i hi
    | succ h ih =>
      intro hh i hi
      have hpow : 2 ^ (k - h) = 2 ^ (k - h - 1) + 2 ^ (k - h - 1) := by rw [← two_mul, ← pow_succ']; congr 1; omega
      have hi' : i < 2 ^ (k - h - 1) := by rwa [Nat.sub_sub]
      rw [hstep h hh i hi']
      exact hop _ _ (ih (by omega) _ (by omega)) (ih (by omega) _ (by omega))
  exact hall k le_rfl 0 (by simp)

/-- What one lane has and the operation takes over from either side, the answer has. -/
theorem treeOf_absorbs {P : α → Prop} (hop : ∀ x y, P x ∨ P y → P (op x y)) (hv : ∃ i < 2 ^ k, P (v i)) (ht : treeOf op k v r) : P r := by
  obtain ⟨t, h0, hstep, rfl⟩ := ht
  have hsome : ∀ h ≤ k, ∃ i < 2 ^ (k - h), P (t h i) := by
    intro h
    induction h with
    | zero =>
      obtain ⟨i, hi, hP⟩ := hv
      exact fun _ => ⟨i, hi, by rwa [h0 i hi]⟩
    | succ h ih =>
      intro hh
      obtain ⟨i, hi, hP⟩ := ih (by omega)
      have hpow : 2 ^ (k - h) = 2 ^ (k - h - 1) + 2 ^ (k - h - 1) := by rw [← two_mul, ← pow_succ']; congr 1; omega
      rw [← Nat.sub_sub]
      rcases Nat.lt_or_ge i (2 ^ (k - h - 1)) with hlow | hhigh
      · exact ⟨i, hlow, by rw [hstep h hh i hlow]; exact hop _ _ (.inl hP)⟩
      · refine ⟨i - 2 ^ (k - h - 1), by omega, ?_⟩
        rw [hstep h hh _ (by omega), Nat.sub_add_cancel hhigh]
        exact hop _ _ (.inr hP)
  obtain ⟨i, hi, hP⟩ := hsome k le_rfl
  obtain rfl : i = 0 := by simpa using hi
  exact hP

end

/-! Reductions and scans (R208, R209). -/

theorem toInt_ofInt (z : Int) : toInt 32 (ofInt 32 z) = z.bmod (2 ^ 32) := by
  have h0 := Int.emod_nonneg z (show (2 ^ 32 : Int) ≠ 0 by decide)
  have h1 := Int.emod_lt_of_pos z (show (0 : Int) < 2 ^ 32 by decide)
  unfold toInt ofInt Int.bmod
  dsimp only
  split <;> split <;> omega

/-- What a running state of a scan over lanes, and each lane's output, come to: the state moves on by `next`, the output is `out` of the state before it. -/
theorem exists_running {α β : Type} {next : Nat → α → Nat → α} {out : Nat → α → Nat → β} {scan : Nat → α → List Nat → List β} (hnil : ∀ i a, scan i a [] = [])
    (hcons : ∀ i a x l, scan i a (x :: l) = out i a x :: scan (i + 1) (next i a x) l) (d : β) (l : List Nat) (j : Nat) (a : α) :
    ∃ r : Nat → α, r 0 = a ∧ (scan j a l).length = l.length
      ∧ ∀ i < l.length, r (i + 1) = next (j + i) (r i) (l.getD i 0) ∧ (scan j a l).getD i d = out (j + i) (r i) (l.getD i 0) := by
  induction l generalizing j a with
  | nil => exact ⟨fun _ => a, rfl, by simp [hnil], by simp⟩
  | cons x l ih =>
    obtain ⟨r, h0, hlen, hr⟩ := ih (j + 1) (next j a x)
    refine ⟨fun i => match i with | 0 => a | i + 1 => r i, rfl, by simp [hcons, hlen], fun i hi => ?_⟩
    rw [hcons]
    cases i with
    | zero => exact ⟨h0, rfl⟩
    | succ i =>
      obtain ⟨hnext, hout⟩ := hr i (by simpa using hi)
      rw [add_right_comm] at hnext hout
      exact ⟨hnext, hout⟩

/-- The lanes that a mask selects, and an identity for the others. -/
def maskedLanes {α : Type} (m : BitVec 256) (f : Nat → α) (one : α) (l : List Nat) (i : Nat) : α := if m.getLsbD i then f (l.getD i 0) else one

theorem treeOf_halve_masked {α : Type} {op : α → α → α} {k : Nat} (m : BitVec 256) (f : Nat → α) (one : α) {l : List Nat} (hl : l.length = 2 ^ k) :
    treeOf op k (maskedLanes m f one l) ((halve op (Nat.log2 l.length) ((List.range l.length).map (maskedLanes m f one l))).headD one) := by
  rw [hl, Nat.log2_two_pow]
  refine treeOf_congr (fun i hi => ?_) (treeOf_halve one one (by simp))
  simp [hi]

/-- The reductions and the scan are as R129, R208 and R209 say. -/
theorem reductionsFold_holds : reductionsFold := by
  intro o code k m l hl op one both iop ione lane
  have hboth : withFl (redF o) = both := by cases o <;> rfl
  have hiop : redI o = iop := by
    cases o with
    | add => exact funext₂ fun x y => toInt_ofInt _
    | _ => rfl
  have hone : idF o = one := by cases o <;> rfl
  have hione : idI o = ione := by cases o <;> rfl
  refine ⟨fun hfloat => ⟨⟨_, treeOf_halve_masked m (widenF code) (one, 0#5) hl, ?_⟩, ?_⟩, fun hint => ⟨⟨_, treeOf_halve_masked m (toInt 32) ione hl, ?_⟩, ?_⟩⟩
  · rw [reduceRow, if_pos hfloat, hboth, hone]
    rfl
  · have := exists_running (next := fun i r x => (if m.getLsbD i then both (r, 0#5) (widenF code x) else (r, 0#5)).1)
      (out := fun i r x => roundedTo code (if m.getLsbD i then both (r, 0#5) (widenF code x) else (r, 0#5))) (scan := scanF o code m) (fun _ _ => rfl)
      (fun i r x l => by rw [scanF, hboth]; rfl) (0, 0#5) l 0 (idF o)
    simpa only [hone, zero_add] using this
  · rw [reduceRow, if_neg (by simp [hint]), hiop, hione]
    rfl
  · have := exists_running (next := fun i r x => if m.getLsbD i then iop r (toInt 32 x) else r) (out := fun i r x => intLane (if m.getLsbD i then iop r (toInt 32 x) else r))
      (scan := scanI o m) (fun _ _ => rfl) (fun i r x l => by rw [scanI, hiop]; rfl) (0, 0#5) l 0 (idI o)
    obtain ⟨r, h0, hlen, hr⟩ := this
    refine ⟨r, h0.trans hione, hlen, fun i hi => ?_⟩
    obtain ⟨hnext, hout⟩ := hr i hi
    rw [zero_add] at hnext hout
    exact ⟨hnext, by rw [hout, hnext]; rfl⟩

end Sys2Proof.Machine

/-! What a ready instruction of the V stream answers (R197, R199). -/

namespace Sys2Proof.Machine

@[simp] theorem rowsOf_began (s : State) (n j : Nat) (rows : List VReg) : rowsOf (jobOf (began s) n j) rows = rowsOf (jobOf s n j) rows := by simp [rowsOf]

@[simp] theorem getD_rowsOf_zero (b : Job) (v : VReg) (vs : List VReg) : (rowsOf b (v :: vs)).getD 0 0 = rowOf b v := rfl
@[simp] theorem getD_rowsOf_one (b : Job) (v w : VReg) (vs : List VReg) : (rowsOf b (v :: w :: vs)).getD 1 0 = rowOf b w := rfl

section
variable {s t : State} {n j words : Nat} {reads : List Reg} {rows : List VReg} {same : Bool} {c : Byte}

section
variable {body : State → Nat → Nat → Job → List Nat → Res} (h : VReady words reads rows same s n j)
include h

theorem vecIssue_issues : vecIssue words reads rows same s body
    = issue words { streams := [.v], reads := reads } s (fun _ _ => body (began s) n j (jobOf (began s) n j) (rowsOf (jobOf s n j) rows)) := by
  obtain ⟨hturn, hready, hrows, hsame⟩ := h
  have hvalid : ((rowsOf (jobOf s n j) rows).map (rowCode (jobOf s n j))).all validCode = true := by
    simpa [rowsOf, List.all_eq_true] using fun v hv => (hrows v hv).1
  have hone : (same && !((rowsOf (jobOf s n j) rows).map (rowCode (jobOf s n j))).all (· == ((rowsOf (jobOf s n j) rows).map (rowCode (jobOf s n j))).headD 0)) = false := by
    cases same with
    | false => rfl
    | true =>
      cases rows with
      | nil => rfl
      | cons v vs => simpa [rowsOf] using fun w hw => hsame rfl w (List.mem_cons_of_mem _ hw) v (List.mem_cons_self ..)
  have hfree : (rowsOf (jobOf s n j) rows).any (fun r => tileBusy (jobOf s n j) (tileOf r)) = false := by
    simpa [rowsOf] using fun v hv => (hrows v hv).2
  have hcode : rowCode (jobOf (began s) n j) = rowCode (jobOf s n j) := funext (rowCode_began s n j)
  rw [vecIssue, issue_ready hready, issue_ready hready, hturn]
  simp only [rowsOf_began, hcode, tileBusy_began, hvalid, hone, hfree, Bool.not_true, Bool.or_self, Bool.false_eq_true, if_false]

theorem vecIssue_completes (hb : body (began s) n j (jobOf (began s) n j) (rowsOf (jobOf s n j) rows) = .ok t .seq) :
    vecIssue words reads rows same s body = completes s words t := by
  rw [vecIssue_issues h, issue_ready h.2.1]
  simp only [hb, completes]

theorem vecIssue_traps (hb : body (began s) n j (jobOf (began s) n j) (rowsOf (jobOf s n j) rows) = raise c) :
    vecIssue words reads rows same s body = trapsWith s { cause := c } := by
  rw [vecIssue_issues h, issue_ready h.2.1]
  simp only [hb, raise]

end

/-- Lane results put into a row complete the instruction with the row and the flags of every lane (R199). -/
theorem vecIssue_lanewise {body : State → Nat → Nat → Job → List Nat → Res} (h : VReady 1 reads rows same s n j) {row w : Nat} {l : List (Nat × BitVec 5)}
    (hb : body (began s) n j (jobOf (began s) n j) (rowsOf (jobOf s n j) rows) = putLanes (began s) n j row w l) : vecIssue 1 reads rows same s body = lanewise s n row w l := by
  rw [vecIssue_completes h (hb.trans rfl), lanewise, h.1, vAgent]

/-- A mask instruction names no tile (R206). -/
theorem maskOp_completes {body : State → Nat → Nat → Job → Res} (hturn : s.turn = .stream n j .v) (hready : Ready 1 { streams := [.v] } s)
    (hb : body (began s) n j (jobOf (began s) n j) = .ok t .seq) : maskOp s body = completes s 1 t := by
  rw [maskOp, issue_ready hready, hturn]
  simp only [hb, completes, hturn]

end

end Sys2Proof.Machine

/-! Comparisons into mask registers, mask instructions and vsel (R120, R205, R206). -/

namespace Sys2Proof.Machine

/-! Masks as lists of bits. -/

theorem testBit_maskBits (l : List Bool) (i : Nat) : (maskBits l).testBit i = l.getD i false := by
  induction l generalizing i with
  | nil => simp [maskBits]
  | cons b l ih =>
    cases i with
    | zero => cases b <;> simp [maskBits, Nat.testBit_zero]
    | succ i =>
      have hhalf : ((if b then 1 else 0) + 2 * maskBits l) / 2 = maskBits l := by split <;> omega
      rw [maskBits, Nat.testBit_succ, hhalf, ih]
      rfl

theorem popBelow_eq_countP (x n : Nat) : popBelow x n = (List.range n).countP x.testBit := by
  induction n with
  | zero => rfl
  | succ n ih => rw [popBelow, ih, List.range_succ, List.countP_append, List.countP_singleton]

/-- `lowBit` finds the first set bit of the n from i on, or gives the end i + n. -/
theorem lowBit_first (x n i : Nat) :
    lowBit x (i + n) n i ≤ i + n ∧ (∀ h, i ≤ h → h < lowBit x (i + n) n i → x.testBit h = false) ∧ (lowBit x (i + n) n i < i + n → x.testBit (lowBit x (i + n) n i) = true) := by
  induction n generalizing i with
  | zero => exact ⟨le_rfl, fun h hi hlt => absurd hlt (Nat.not_lt.2 hi), fun h => absurd h (lt_irrefl _)⟩
  | succ n ih =>
    rw [lowBit]
    split
    next hset => exact ⟨Nat.le_add_right .., fun h hi hlt => absurd hlt (Nat.not_lt.2 hi), fun _ => hset⟩
    next hclear =>
      obtain ⟨hle, hbelow, hfound⟩ := ih (i + 1)
      rw [Nat.add_assoc, Nat.add_comm 1 n] at hle hbelow hfound
      refine ⟨hle, fun h hi hlt => ?_, hfound⟩
      rcases Nat.eq_or_lt_of_le hi with rfl | hi'
      · exact Bool.eq_false_iff.2 hclear
      · exact hbelow h hi' hlt

/-! Rows. -/

@[simp] theorem length_lanesOf (w k : Nat) (l : List Byte) : (lanesOf w k l).length = k := by
  induction k generalizing l with
  | zero => rfl
  | succ k ih => rw [lanesOf, List.length_cons, ih]

@[simp] theorem length_readRow (s : State) (n row w : Nat) : (readRow s n row w).length = 512 / w := length_lanesOf ..

/-! Comparisons (R205). -/

/-- A relation of two lanes of a tile, with its flags. -/
def laneRel (code : Nat) (r : Rel) (x y : Nat) : Bool × BitVec 5 :=
  if isFloat code then relV r (fDec (fmtOf code) x) (fDec (fmtOf code) y) else (relI r (toInt 32 x) (toInt 32 y), 0#5)

theorem cmpOp_ready {s : State} {n j : Nat} {a b : VReg} (h : VReady 1 [] [a, b] true s n j) (d : MReg) (r : Rel) :
    let k := jobOf s n j
    let code := rowCode k (rowOf k a)
    let l := List.zipWith (laneRel code r) (readRow s n (rowOf k a) (laneW code)) (readRow s n (rowOf k b) (laneW code))
    cmpOp d a b r s = completes s 1 (setFlags (modJob (began s) n j (fun b => setMask b d (BitVec.ofNat 256 (maskBits (l.map Prod.fst))))) s.turn (l.foldl (fun z x => z ||| x.2) 0#5)) := by
  intro k code l
  refine vecIssue_completes h ?_
  simp only [getD_rowsOf_zero, getD_rowsOf_one, rowCode_began, readRow_began, h.1]
  rfl

theorem laneRel_eq (code : Nat) (r : Rel) (x y : Nat) :
    laneRel code r x y = if isFloat code then relV r (fDec (fmtOf code) x) (fDec (fmtOf code) y)
      else (match r with
        | .eq => toInt 32 x = toInt 32 y | .ne => toInt 32 x ≠ toInt 32 y | .lt => toInt 32 x < toInt 32 y | .le => toInt 32 x ≤ toInt 32 y
        | .gt => toInt 32 x > toInt 32 y | .ge => toInt 32 x ≥ toInt 32 y | .un => false, 0#5) := by
  cases r <;> simp [laneRel, relI, bne, beq_eq_decide]

/-! Mask instructions and vsel (R206). -/

section
variable {s : State} {n j : Nat} (hturn : s.turn = .stream n j .v) (hready : Ready 1 { streams := [.v] } s) (a : MReg) (r : Reg)
include hturn hready

theorem execMpop_ready :
    execMpop r a s = completes s 1 (setReg (began s) s.turn r (BitVec.ofNat 64 ((List.range 256).countP (fun i => (maskOf (jobOf s n j) a).getLsbD i)))) := by
  refine maskOp_completes hturn hready ?_
  simp only [maskOf_began, popBelow_eq_countP, hturn]
  rfl

theorem execMfirst_ready :
    execMfirst r a s = completes s 1 (setReg (began s) s.turn r (BitVec.ofNat 64 (lowBit (maskOf (jobOf s n j) a).toNat 256 256 0))) := by
  refine maskOp_completes hturn hready ?_
  simp only [maskOf_began, hturn]
  rfl

end

theorem execVsel_ready {s : State} {n j : Nat} {v x : VReg} (h : VReady 1 [] [v, x] true s n j) (b : MReg) :
    let k := jobOf s n j
    let w := laneW (rowCode k (rowOf k v))
    execVsel v x b s = completes s 1 (writeRow (began s) n (rowOf k v) w (selLanes (maskOf k b) (readRow s n (rowOf k v) w) (readRow s n (rowOf k x) w))) := by
  intro k w
  refine vecIssue_completes h ?_
  simp only [getD_rowsOf_zero, getD_rowsOf_one, rowCode_began, readRow_began, maskOf_began]
  rfl

/-- Settles O28: a comparison by the relation of its lanes, whose bits its mask register takes; the mask instructions by their counts and searches over the bits. -/
theorem compareAndMaskResults : Obligations.CompareAndMaskResults := by
  unfold Obligations.CompareAndMaskResults
  refine ⟨fun s n j d a b h => ?compares, fun s n j d a b r v x => ⟨fun hturn hready => ⟨?_, ?_, ?_, ?_, ?_, ?first⟩, fun h => ?selects⟩⟩
  case compares =>
    intro k code R rel e he l
    have hexec : exec e.1 s = cmpOp d a b e.2 s := by
      simp only [List.mem_cons, List.not_mem_nil, or_false] at he
      rcases he with rfl | rfl | rfl | rfl | rfl | rfl | rfl
      exacts [exec_vceq .., exec_vcne .., exec_vclt .., exec_vcle .., exec_vcgt .., exec_vcge .., exec_vcun ..]
    have hl : List.zipWith (laneRel code e.2) (R a) (R b) = l := congrArg (List.zipWith · (R a) (R b)) (funext₂ (laneRel_eq code e.2))
    refine ⟨BitVec.ofNat 256 (maskBits (l.map Prod.fst)), fun i hi => ?_, hexec.trans ?_⟩
    · rw [BitVec.getLsbD_ofNat, decide_eq_true hi, Bool.true_and, testBit_maskBits]
    · rw [← hl]
      exact cmpOp_ready h d e.2
  · rw [exec_mand]
    exact maskOp_completes hturn hready (by simp only [maskOf_began])
  · rw [exec_mor]
    exact maskOp_completes hturn hready (by simp only [maskOf_began])
  · rw [exec_mxor]
    exact maskOp_completes hturn hready (by simp only [maskOf_began])
  · rw [exec_mnot]
    exact maskOp_completes hturn hready (by simp only [maskOf_began])
  · exact (exec_mpop ..).trans (execMpop_ready hturn hready a r)
  case first =>
    obtain ⟨hle, hbelow, hfound⟩ := lowBit_first (maskOf (jobOf s n j) a).toNat 256 0
    exact ⟨_, hle, (exec_mfirst ..).trans (execMfirst_ready hturn hready a r), fun i hi => hbelow i (Nat.zero_le i) hi, hfound⟩
  case selects =>
    rw [exec_vsel, execVsel_ready h, selLanes, length_readRow]

end Sys2Proof.Machine

/-! vcvt, the reductions and vscan (R207 to R209), and the statement about them. -/

namespace Sys2Proof.Machine

/-! Conversions of a lane (R207). -/

theorem isFloat_iff (code : Nat) : isFloat code = true ↔ code = 0 ∨ code = 1 ∨ code = 2 := by simp [isFloat, or_assoc]

theorem regular_fmtOf {code : Nat} (h : isFloat code = true) : (fmtOf code).Regular := by
  rcases (isFloat_iff code).1 h with rfl | rfl | rfl <;> exact Fmt.regular_of_mem (by decide)

theorem modeOf_ne_sr (rm : Rounding) (k : Nat) : modeOf rm ≠ .sr k := by cases rm <;> simp [modeOf]

theorem toInt_eq_bitVec (x : Nat) : toInt 32 x = (BitVec.ofNat 32 x).toInt := by
  rw [BitVec.toInt_eq_toNat_cond, BitVec.toNat_ofNat, toInt]
  rfl

section
variable {src dst : Nat} {md : Mode} {sat : Bool} (x : Nat)

theorem cvtLane_floats (hs : isFloat src = true) (hd : isFloat dst = true) (hne : src ≠ dst) : cvtLane src dst md sat x = cvtFF (fmtOf src) (fmtOf dst) md sat x := by
  rw [cvtLane, if_pos hs, if_pos hd, if_neg hne]

/-- Between tiles of one floating type a lane stays, a NaN becoming canonical. -/
theorem cvtLane_same (hs : isFloat src = true) :
    (isNan (fDec (fmtOf src) x) = false → cvtLane src src md sat x = (x, 0#5))
    ∧ (isNan (fDec (fmtOf src) x) = true → cvtLane src src md sat x = (fNan (fmtOf src), if isSnan (fDec (fmtOf src) x) then fNV else 0#5)) := by
  rw [cvtLane, if_pos hs, if_pos hs, if_pos rfl]
  cases fDec (fmtOf src) x with
  | nan signalling => cases signalling <;> simp [isNan, isSnan, nanOut, flagIf]
  | _ => simp [isNan]

theorem cvtLane_ints (hs : isFloat src = false) (hd : isFloat dst = false) : cvtLane src dst md sat x = (x, 0#5) := by
  simp [cvtLane, hs, hd]

theorem cvtLane_to_int (hs : isFloat src = true) (hd : isFloat dst = false) : cvtLane src dst md sat x = cvtFI (fmtOf src) 32 md x := by
  simp [cvtLane, hs, hd]

theorem cvtLane_of_int (hs : isFloat src = false) (hd : isFloat dst = true) (hsr : ∀ k, md ≠ .sr k) {neg : Bool} (hneg : signed ((BitVec.ofNat 32 x).toInt : ℝ) false neg) :
    roundsTo (fmtOf dst) md sat neg ((BitVec.ofNat 32 x).toInt : ℝ) (cvtLane src dst md sat x) := by
  simp only [cvtLane, hs, hd, if_true, Bool.false_eq_true, if_false, s32, toInt_eq_bitVec]
  exact fRound_int_roundsTo (regular_fmtOf hd) hsr hneg

end

/-! vcvt (R207). -/

section
variable {s : State} {n j : Nat} {d a : VReg} {h : BitVec 1} {t : CvtType} {rm : Rounding} {sat : Bool} (hv : VReady 1 [] [d, a] false s n j)
include hv

theorem execVcvt_wrongTile (hcode : rowCode (jobOf s n j) (rowOf (jobOf s n j) d) ≠ cvtCode t) : execVcvt d a h t rm sat s = trapsWith s { cause := cTileType } := by
  refine vecIssue_traps hv ?_
  simp only [getD_rowsOf_zero, rowCode_began]
  exact if_pos hcode

section
variable (hcode : rowCode (jobOf s n j) (rowOf (jobOf s n j) d) = cvtCode t)
include hcode

theorem execVcvt_sameWidth_half (hw : laneW (rowCode (jobOf s n j) (rowOf (jobOf s n j) a)) = laneW (cvtCode t)) (hh : h ≠ 0#1) :
    execVcvt d a h t rm sat s = trapsWith s { cause := cIllegal } := by
  refine vecIssue_traps hv ?_
  simp only [getD_rowsOf_zero, getD_rowsOf_one, rowCode_began, hcode, hw, hh, ne_eq, not_true_eq_false, not_false_eq_true, if_true, if_false]

theorem execVcvt_sameWidth (hw : laneW (rowCode (jobOf s n j) (rowOf (jobOf s n j) a)) = laneW (cvtCode t)) (hh : h = 0#1) :
    let src := rowCode (jobOf s n j) (rowOf (jobOf s n j) a)
    execVcvt d a h t rm sat s
      = lanewise s n (rowOf (jobOf s n j) d) (laneW (cvtCode t)) ((readRow s n (rowOf (jobOf s n j) a) (laneW src)).map (cvtLane src (cvtCode t) (modeOf rm) sat)) := by
  refine vecIssue_lanewise hv ?_
  simp only [getD_rowsOf_zero, getD_rowsOf_one, rowCode_began, readRow_began, hcode, hw, hh, ne_eq, not_true_eq_false, if_true, if_false]

theorem execVcvt_narrows (hs : laneW (rowCode (jobOf s n j) (rowOf (jobOf s n j) a)) = 4) (hd : laneW (cvtCode t) = 2) :
    let rd := rowOf (jobOf s n j) d
    let r := (readRow s n (rowOf (jobOf s n j) a) 4).map (cvtLane (rowCode (jobOf s n j) (rowOf (jobOf s n j) a)) (cvtCode t) (modeOf rm) sat)
    let l := if h = 0#1 then r.map Prod.fst ++ (readRow s n rd 2).drop 128 else (readRow s n rd 2).take 128 ++ r.map Prod.fst
    execVcvt d a h t rm sat s = completes s 1 (setFlags (writeRow (began s) n rd 2 l) s.turn (flagsOf r)) := by
  refine vecIssue_completes hv ?_
  simp only [getD_rowsOf_zero, getD_rowsOf_one, rowCode_began, readRow_began, hcode, hs, hd, hv.1, vAgent, ne_eq, not_true_eq_false, if_true, if_false,
    Nat.reduceEqDiff]

theorem execVcvt_widens (hs : laneW (rowCode (jobOf s n j) (rowOf (jobOf s n j) a)) = 2) (hd : laneW (cvtCode t) = 4) :
    execVcvt d a h t rm sat s = lanewise s n (rowOf (jobOf s n j) d) 4
      ((((readRow s n (rowOf (jobOf s n j) a) 2).drop (128 * h.toNat)).take 128).map (cvtLane (rowCode (jobOf s n j) (rowOf (jobOf s n j) a)) (cvtCode t) (modeOf rm) sat)) := by
  refine vecIssue_lanewise hv ?_
  simp only [getD_rowsOf_zero, getD_rowsOf_one, rowCode_began, readRow_began, hcode, hs, hd, ne_eq, not_true_eq_false, if_false, Nat.reduceEqDiff]

end
end

/-! Reductions and scans (R208, R209). -/

section
variable {s : State} {n j : Nat} {d a : VReg} (hv : VReady 1 [] [d, a] true s n j) (m : MReg) (o : ScanOp)
include hv

theorem redOp_ready :
    let k := jobOf s n j
    let code := rowCode k (rowOf k d)
    let r := reduceRow o code (maskOf k m) (readRow s n (rowOf k a) (laneW code))
    redOp d a m o s = completes s 1 (setFlags (writeRow (began s) n (rowOf k d) (laneW code) (r.1 :: (readRow s n (rowOf k d) (laneW code)).drop 1)) s.turn r.2) := by
  refine vecIssue_completes hv ?_
  simp only [getD_rowsOf_zero, getD_rowsOf_one, rowCode_began, readRow_began, maskOf_began, hv.1, vAgent]

theorem execVscan_ready :
    let k := jobOf s n j
    let code := rowCode k (rowOf k d)
    let l := readRow s n (rowOf k a) (laneW code)
    execVscan d a o m s = lanewise s n (rowOf k d) (laneW code) (if isFloat code then scanF o code (maskOf k m) 0 (idF o) l else scanI o (maskOf k m) 0 (idI o) l) := by
  refine vecIssue_lanewise hv ?_
  simp only [getD_rowsOf_zero, getD_rowsOf_one, rowCode_began, readRow_began, maskOf_began]

end

theorem widensExactly_holds : widensExactly :=
  ⟨fun _ => rfl, fun code hcode x => widenF_widens (by simpa using hcode) x⟩

/-- Settles O29: lanes of 16 bits by `widenF_widens`, trees and scans by `reductionsFold_holds`, vcvt by the widths of its two tiles, and an integer's lane by one rounding. -/
theorem vectorConvertReduceResults : Obligations.VectorConvertReduceResults := by
  unfold Obligations.VectorConvertReduceResults
  refine ⟨widensExactly_holds, reductionsFold_holds, fun s n j d a m h t rm sat o => ⟨fun hv => ?converts, fun x => ?lane, fun hv => ?folds⟩⟩
  case converts =>
    rw [exec_vcvt]
    exact ⟨execVcvt_wrongTile hv, execVcvt_sameWidth_half hv, execVcvt_sameWidth hv, execVcvt_narrows hv, execVcvt_widens hv⟩
  case lane =>
    refine ⟨cvtLane_floats x, fun hs heq => ?_, cvtLane_ints x, cvtLane_to_int x, fun hs hd neg hneg => cvtLane_of_int x hs hd (modeOf_ne_sr rm) hneg⟩
    rw [← heq]
    exact cvtLane_same x hs
  case folds => exact ⟨redOp_ready hv m .add, redOp_ready hv m .max, redOp_ready hv m .min, execVscan_ready hv m o⟩

end Sys2Proof.Machine

/-! The softmax of one row (R134): its two trees, its quotients, its flags, and its special lanes. -/

namespace Sys2Proof.Machine

/-! Special values. -/

/-- exp, where it is exact or no number (R134). -/
theorem expV_special (x : Fv) :
    (isNan x = true → expV x = (fNan fmtF32, if isSnan x then fNV else 0#5)) ∧ (x = .inf true → expV x = (0, 0#5)) ∧ (x = .inf false → expV x = (infBits fmtF32 false, 0#5))
    ∧ (valued x 0 → roundsTo fmtF32 .rne false false 1 (expV x)) := by
  refine ⟨fun hx => ?_, by rintro rfl; rfl, by rintro rfl; rfl, ?_⟩
  · cases x with
    | nan signalling => cases signalling <;> rfl
    | _ => simp [isNan] at hx
  · rintro ⟨neg, m, e, rfl, h0⟩
    have hm : m = 0 := by
      have := two_zpow_pos e
      cases neg <;> simpa [this.ne'] using h0.symm
    have hone : (1 : ℝ) = withSign false |1| := by simp [withSign]
    simp only [expV, hm, if_true]
    exact fRound_roundsTo Fmt.regular_f32 (by simp) hone (.exact (by simp)) (by simp)

theorem isNan_fNan : isNan (fDec fmtF32 (fNan fmtF32)) = true := by decide

theorem minmaxF_nan {mx : Bool} {a b : Nat} (h : isNan (fDec fmtF32 a) = true ∨ isNan (fDec fmtF32 b) = true) : (minmaxF mx true fmtF32 a b).1 = fNan fmtF32 := by
  unfold minmaxF
  dsimp only
  split
  · rfl
  · split
    · rfl
    · rcases h with h | h
      · rw [if_pos h]; rfl
      · rw [if_pos h]; split <;> rfl

theorem minmaxF_number {mx prop : Bool} {a b : Nat} (ha : isNan (fDec fmtF32 a) = false) (hb : isNan (fDec fmtF32 b) = false) :
    (minmaxF mx prop fmtF32 a b).1 = a ∨ (minmaxF mx prop fmtF32 a b).1 = b := by
  have hquiet {v : Fv} (h : isNan v = false) : isSnan v = false := by cases v <;> simp_all [isNan, isSnan]
  simp only [minmaxF, ha, hb, hquiet ha, hquiet hb, Bool.or_self, Bool.and_self, Bool.false_eq_true, if_false, pickMax]
  split
  · exact .inl rfl
  · exact .inr rfl

theorem subF_nan {f : Fmt} {a b : Nat} (h : isNan (fDec f b) = true) : (subF f a b).1 = fNan f := by
  unfold subF
  cases hb : fDec f b with
  | nan t => cases fDec f a <;> rfl
  | _ => simp [hb, isNan] at h

theorem divV_nan {f : Fmt} {x y : Fv} (h : isNan x = true) : (divV f x y).1 = fNan f := by
  cases x with
  | nan t => cases y <;> rfl
  | _ => simp [isNan] at h

theorem fDec_sign {f : Fmt} {x m : Nat} {neg : Bool} {e : Int} (h : fDec f x = .fin neg m e) : neg = x.testBit (fSign f) := by
  unfold fDec at h
  dsimp only at h
  split at h
  · simp at h
  · split at h
    · split at h <;> simp at h
    · split at h <;> (injection h with h1; exact h1.symm)

/-! The trees over a padded row. -/

theorem treeOf_halve_padTo {op : Fl → Fl → Fl} {k : Nat} {z : List Fl} (hz : z.length ≤ 2 ^ k) (e : Nat) (d : Fl) :
    treeOf op k (fun i => if i < z.length then z.getD i (0, 0#5) else (e, 0#5)) ((halve op k (padTo z (2 ^ k) e)).headD d) := by
  refine treeOf_congr (fun i hi => ?_) (treeOf_halve (0, 0#5) d (by simp [padTo]; omega))
  split
  next hin => simp [padTo, List.getD_eq_getElem?_getD, List.getElem?_append_left hin]
  next hout => simp [padTo, List.getD_eq_getElem?_getD, List.getElem?_append_right (Nat.not_lt.1 hout), show i - z.length < 2 ^ k - z.length by omega]

theorem getLsbD_foldl_or {α : Type} {w : Nat} (g : α → BitVec w) (l : List α) (a : BitVec w) (b : Nat) :
    (l.foldl (fun f x => f ||| g x) a).getLsbD b = true ↔ a.getLsbD b = true ∨ ∃ x ∈ l, (g x).getLsbD b = true := by
  induction l generalizing a with
  | nil => simp
  | cons x l ih => simp [ih, or_assoc]

/-! The steps. -/

/-- The maximum of the lanes, behind them −∞. -/
def smxMax (k : Nat) (z : List Fl) : Fl := (halve (withFl (minmaxF true true fmtF32)) k (padTo z (2 ^ k) 0xFF800000)).headD (0, 0#5)

/-- exp of a lane less the maximum m, with the flags on the way. -/
def smxExp (m : Nat) (x : Fl) : Fl :=
  let d := subF fmtF32 x.1 m
  let e := expV (fDec fmtF32 d.1)
  (e.1, x.2 ||| d.2 ||| e.2)

/-- The sum of the powers, behind them −0. -/
def smxSum (k : Nat) (e : List Fl) : Fl := (halve (withFl (addF fmtF32)) k (padTo e (2 ^ k) 0x80000000)).headD (0, 0#5)

/-- A power divided by the sum, in the tile's type. -/
def smxQuot (code q : Nat) (e : Fl) : Nat × BitVec 5 := divV (fmtOf code) (fDec fmtF32 e.1) (fDec fmtF32 q)

theorem softmax_eq (code k : Nat) (z : List Fl) :
    let m := smxMax k z
    let e := z.map (smxExp m.1)
    let q := smxSum k e
    softmax code (2 ^ k) z = (e.map (fun x => (smxQuot code q.1 x).1), e.foldl (fun f x => f ||| (x.2 ||| (smxQuot code q.1 x).2)) (m.2 ||| q.2)) := by
  unfold softmax
  simp only [Nat.log2_two_pow, List.map_map, List.foldl_map]
  rfl

/-- A flag that a lane brings along is among those of the tree. -/
theorem treeOf_withFl_flags {op : Nat → Nat → Nat × BitVec 5} {k : Nat} {v : Nat → Fl} {r : Fl} {b i : Nat} (ht : treeOf (withFl op) k v r) (hi : i < 2 ^ k) (hb : (v i).2.getLsbD b = true) :
    r.2.getLsbD b = true := by
  refine treeOf_absorbs (P := fun x => x.2.getLsbD b = true) (fun x y hxy => ?_) ⟨i, hi, hb⟩ ht
  simp only [withFl, BitVec.getLsbD_or, Bool.or_eq_true]
  exact .inl hxy

section
variable (code k : Nat) {z : List Fl} (hlen : z.length ≤ 2 ^ k)
include hlen

theorem smxMax_tree :
    treeOf (withFl (minmaxF true true fmtF32)) k (fun i => if i < z.length then z.getD i (0, 0#5) else (0xFF800000, 0#5)) (smxMax k z) :=
  treeOf_halve_padTo hlen ..

theorem smxSum_tree (m : Nat) :
    treeOf (withFl (addF fmtF32)) k (fun i => if i < z.length then smxExp m (z.getD i (0, 0#5)) else (0x80000000, 0#5)) (smxSum k (z.map (smxExp m))) := by
  refine treeOf_congr (fun i _ => ?_) (treeOf_halve_padTo (z := z.map (smxExp m)) (by simpa using hlen) 0x80000000 (0, 0#5))
  rw [List.length_map]
  split
  next hi => simp [List.getD_eq_getElem?_getD, hi]
  next => rfl

/-- The flags of a softmax are those of its two trees and of its quotients: a lane's flags on the way to its power are in the tree of the sum. -/
theorem softmax_flags (b : Nat) :
    let m := smxMax k z
    let q := smxSum k (z.map (smxExp m.1))
    (softmax code (2 ^ k) z).2.getLsbD b = true
      ↔ m.2.getLsbD b = true ∨ q.2.getLsbD b = true ∨ ∃ i < z.length, (smxQuot code q.1 (smxExp m.1 (z.getD i (0, 0#5)))).2.getLsbD b = true := by
  intro m q
  have hsum := smxSum_tree k hlen m.1
  have hinto {i : Nat} (hi : i < z.length) (hb : (smxExp m.1 (z.getD i (0, 0#5))).2.getLsbD b = true) : q.2.getLsbD b = true :=
    treeOf_withFl_flags hsum (hi.trans_le hlen) (by simpa only [if_pos hi] using hb)
  rw [softmax_eq, getLsbD_foldl_or]
  simp only [List.mem_map, exists_exists_and_eq_and, BitVec.getLsbD_or, Bool.or_eq_true, or_assoc]
  refine or_congr_right ⟨?_, ?_⟩
  · rintro (h | ⟨x, hx, h⟩)
    · exact .inl h
    · obtain ⟨i, hi, rfl⟩ := List.mem_iff_getElem.1 hx
      rw [← List.getD_eq_getElem z (0, 0#5) hi] at h
      exact h.imp (hinto hi) fun h => ⟨i, hi, h⟩
  · rintro (h | ⟨i, hi, h⟩)
    · exact .inl h
    · refine .inr ⟨z.getD i (0, 0#5), by rw [List.getD_eq_getElem z _ hi]; exact List.getElem_mem hi, .inr h⟩

end

/-! Lanes that are no numbers (R134). -/

section
variable (code k : Nat) {z : List Fl} (hlen : z.length ≤ 2 ^ k)

/-- Where the difference of a lane and the maximum is a NaN, so is what the lane becomes. -/
theorem smxQuot_nan {m : Nat} {x : Fl} (q : Nat) (h : isNan (fDec fmtF32 (subF fmtF32 x.1 m).1) = true) : (smxQuot code q (smxExp m x)).1 = fNan (fmtOf code) := by
  refine divV_nan ?_
  rw [smxExp, (expV_special _).1 h]
  exact isNan_fNan

theorem mem_softmax {y : Nat} (hy : y ∈ (softmax code (2 ^ k) z).1) :
    ∃ x ∈ z, y = (smxQuot code (smxSum k (z.map (smxExp (smxMax k z).1))).1 (smxExp (smxMax k z).1 x)).1 := by
  rw [softmax_eq, List.map_map] at hy
  obtain ⟨x, hx, rfl⟩ := List.mem_map.1 hy
  exact ⟨x, hx, rfl⟩

include hlen

theorem softmax_nan (hnan : ∃ x ∈ z, isNan (fDec fmtF32 x.1) = true) : ∀ y ∈ (softmax code (2 ^ k) z).1, y = fNan (fmtOf code) := by
  intro y hy
  have hmax : isNan (fDec fmtF32 (smxMax k z).1) = true := by
    obtain ⟨x, hx, hxnan⟩ := hnan
    obtain ⟨i, hi, rfl⟩ := List.mem_iff_getElem.1 hx
    refine treeOf_absorbs (P := fun x : Fl => isNan (fDec fmtF32 x.1) = true) (fun x y hxy => ?_) ⟨i, hi.trans_le hlen, ?_⟩ (smxMax_tree k hlen)
    · rw [withFl, minmaxF_nan hxy]
      exact isNan_fNan
    · rwa [if_pos hi, List.getD_eq_getElem z _ hi]
  obtain ⟨x, -, rfl⟩ := mem_softmax code k hy
  refine smxQuot_nan code _ ?_
  rw [subF_nan hmax]
  exact isNan_fNan

/-- Where every lane is −∞, the difference of two infinities is invalid. -/
theorem softmax_noLane (hinf : ∀ x ∈ z, fDec fmtF32 x.1 = .inf true) {x : Fl} (hx : x ∈ z) : subF fmtF32 x.1 (smxMax k z).1 = (fNan fmtF32, fNV) := by
  have hmax : fDec fmtF32 (smxMax k z).1 = .inf true := by
    refine treeOf_all (P := fun x : Fl => fDec fmtF32 x.1 = .inf true) (fun x y hx hy => ?_) (fun i _ => ?_) (smxMax_tree k hlen)
    · rcases minmaxF_number (mx := true) (prop := true) (a := x.1) (b := y.1) (by rw [hx]; rfl) (by rw [hy]; rfl) with h | h <;> simp only [withFl, h, hx, hy]
    · split
      next hi => rw [List.getD_eq_getElem z _ hi]; exact hinf _ (List.getElem_mem hi)
      next => decide
  rw [subF, hinf x hx, hmax]
  rfl

end

/-! The statement about one softmax. -/

/-- R134, step by step. -/
theorem softmaxSteps_holds : softmaxSteps := by
  refine ⟨expV_special, fun code k z hfloat hne hlen => ?_⟩
  intro out T lane both
  refine ⟨⟨smxMax k z, smxSum k (z.map (smxExp (smxMax k z).1)), smxMax_tree k hlen, smxSum_tree k hlen _, ?lanes, softmax_flags code k hlen, ?quotients⟩,
    softmax_nan code k hlen, fun hinf => ⟨fun y hy => ?nans, ?invalid⟩⟩
  case lanes =>
    refine (congrArg Prod.fst (softmax_eq code k z)).trans ?_
    refine List.ext_getElem (by simp) fun i hi _ => ?_
    have hi' : i < z.length := by simpa using hi
    simp only [List.getElem_map, List.getElem_range, lane, List.getD_eq_getElem z _ hi']
    rfl
  case quotients =>
    rintro i - x y ⟨n1, m1, e1, h1, hx⟩ ⟨n2, m2, e2, h2, hy⟩ hy0 neg hneg
    have hdiv := divV_roundsTo (regular_fmtOf hfloat) ⟨n1, m1, e1, rfl, hx⟩ ⟨n2, m2, e2, rfl, hy⟩ hy0 (neg := neg) (by rwa [fDec_sign h1, fDec_sign h2])
    rwa [← h1, ← h2] at hdiv
  case nans =>
    obtain ⟨x, hx, rfl⟩ := mem_softmax code k hy
    refine smxQuot_nan code _ ?_
    rw [softmax_noLane k hlen hinf hx]
    exact isNan_fNan
  case invalid =>
    refine (softmax_flags code k hlen 4).2 (.inr (.inl ?_))
    have hpos : 0 < z.length := List.length_pos_iff.2 hne
    refine treeOf_withFl_flags (smxSum_tree k hlen _) (hpos.trans_le hlen) ?_
    rw [if_pos hpos, smxExp, List.getD_eq_getElem z _ hpos, softmax_noLane k hlen hinf (List.getElem_mem hpos)]
    simp [fNV]

end Sys2Proof.Machine

/-! vsmx and vsmxs (R289), and the statement about them. -/

namespace Sys2Proof.Machine

theorem laneN_eq (code : Nat) : laneN code = 512 / laneW code := by
  unfold laneN laneW
  split <;> rfl

/-- The logits of a softmax: the first lanes of row a, widened (R289). -/
def smxLogits (s : State) (n : Nat) (row code cnt : Nat) : List Fl := ((readRow s n row (laneW code)).take cnt).map (widenF code)

/-- The logits with the logarithms of the sizes added, from the size rows in turn (R289). -/
def sizedLogits (s : State) (n : Nat) (rows : List Nat) (cnt : Nat) (logit : List Fl) : List Fl :=
  List.zipWith (fun x z => let l := lnSize z; let y := addF fmtF32 x.1 l.1; (y.1, x.2 ||| l.2 ||| y.2)) logit ((rows.flatMap (fun r => readRow s n r 4)).take cnt)

/-- n of a softmax: s[b][8:0] (R289). -/
def smxCount (s : State) (b : Reg) : Nat := (reg s s.turn b).toNat % 512

@[simp] theorem sizeRows_began (s : State) (n j : Nat) (a : VReg) (cnt : Nat) : sizeRows (jobOf (began s) n j) a cnt = sizeRows (jobOf s n j) a cnt := by simp [sizeRows]

section
variable {s : State} {n j : Nat} {d a : VReg} {b : Reg} (h : VReady 1 [b] [d, a] true s n j) (sizes : Bool)
include h

theorem bitsAt_smxCount : bitsAt (reg (began s) (vAgent n j) b) 0 9 = smxCount s b := by
  have hturn : vAgent n j = s.turn := h.1.symm
  rw [hturn, reg_began, bitsAt, pow_zero, Nat.div_one]
  rfl

/-- n of 0 or past the row comes first (R289, log entry 77). -/
theorem smxOp_illegal (hcnt : smxCount s b = 0 ∨ laneN (rowCode (jobOf s n j) (rowOf (jobOf s n j) d)) < smxCount s b) :
    smxOp sizes d a b s = trapsWith s { cause := cIllegal } := by
  refine vecIssue_traps h ?_
  simp only [getD_rowsOf_zero, rowCode_began, bitsAt_smxCount h]
  exact if_pos hcnt

section
variable (hcnt : 1 ≤ smxCount s b) (hlane : smxCount s b ≤ laneN (rowCode (jobOf s n j) (rowOf (jobOf s n j) d)))
include hcnt hlane

/-- Then the type of the tiles: the row's, and those of the size rows. -/
theorem smxOp_wrongTile (htile : isFloat (rowCode (jobOf s n j) (rowOf (jobOf s n j) d)) = false
      ∨ (sizes = true ∧ ∃ r ∈ sizeRows (jobOf s n j) a (smxCount s b), rowCode (jobOf s n j) r ≠ 0)) :
    smxOp sizes d a b s = trapsWith s { cause := cTileType } := by
  refine vecIssue_traps h ?_
  have hlegal : ¬ (smxCount s b = 0 ∨ laneN (rowCode (jobOf s n j) (rowOf (jobOf s n j) d)) < smxCount s b) := by omega
  simp only [getD_rowsOf_zero, rowCode_began, bitsAt_smxCount h, if_neg hlegal, sizeRows_began]
  refine if_pos ?_
  rcases htile with htile | ⟨rfl, hrow⟩
  · simp [htile]
  · simpa using .inr hrow

/-- Else the softmax is written, with zeros behind it. -/
theorem smxOp_writes (hfloat : isFloat (rowCode (jobOf s n j) (rowOf (jobOf s n j) d)) = true)
    (hrows : sizes = true → ∀ r ∈ sizeRows (jobOf s n j) a (smxCount s b), rowCode (jobOf s n j) r = 0 ∧ tileBusy (jobOf s n j) (tileOf r) = false) :
    let k := jobOf s n j
    let code := rowCode k (rowOf k d)
    let logit := smxLogits s n (rowOf k a) code (smxCount s b)
    let o := softmax code (laneN code) (if sizes then sizedLogits s n (sizeRows k a (smxCount s b)) (smxCount s b) logit else logit)
    smxOp sizes d a b s
      = completes s 1 (setFlags (writeRow (began s) n (rowOf k d) (laneW code) (o.1 ++ List.replicate (laneN code - smxCount s b) 0)) s.turn o.2) := by
  refine vecIssue_completes h ?_
  have hlegal : ¬ (smxCount s b = 0 ∨ laneN (rowCode (jobOf s n j) (rowOf (jobOf s n j) d)) < smxCount s b) := by omega
  have hcodes : ((if sizes then sizeRows (jobOf s n j) a (smxCount s b) else []).all (fun x => rowCode (jobOf s n j) x == 0)) = true := by
    cases sizes with
    | true => simpa using fun r hr => (hrows rfl r hr).1
    | false => rfl
  have hfree : ((if sizes then sizeRows (jobOf s n j) a (smxCount s b) else []).any (fun x => tileBusy (jobOf s n j) (tileOf x))) = false := by
    cases sizes with
    | true => simpa using fun r hr => (hrows rfl r hr).2
    | false => rfl
  simp only [getD_rowsOf_zero, getD_rowsOf_one, rowCode_began, bitsAt_smxCount h, if_neg hlegal, sizeRows_began,
    tileBusy_began, readRow_began, hcodes, hfree, hfloat, Bool.not_true, Bool.or_self, Bool.false_eq_true, if_false, List.zip_eq_zipWith, List.map_zipWith, h.1]
  cases sizes <;> rfl

end
end

/-- Settles O34: the causes in the order of log entry 77, and past them the softmax that `softmaxSteps_holds` is about. -/
theorem softmaxResults : Obligations.SoftmaxResults := by
  unfold Obligations.SoftmaxResults
  refine ⟨softmaxSteps_holds, fun s n j d a b h => ?_⟩
  intro k code w N cnt logit done
  have hN : laneN code = N := laneN_eq code
  rw [exec_vsmx, exec_vsmxs, ← hN]
  refine ⟨fun hcnt => ⟨smxOp_illegal h false hcnt, smxOp_illegal h true hcnt⟩, fun hcnt hlane hint => ?i32, fun hcnt hlane hfloat => ⟨?plain, fun hrows => ?sized, fun hrow => ?sizeTile⟩⟩
  case i32 =>
    have hno : isFloat code = false := by rw [hint]; rfl
    exact ⟨smxOp_wrongTile h false hcnt hlane (.inl hno), smxOp_wrongTile h true hcnt hlane (.inl hno)⟩
  case plain =>
    refine (smxOp_writes h false hcnt hlane hfloat (by simp)).trans ?_
    simp only [done, ← hN]
    rfl
  case sized =>
    refine (smxOp_writes h true hcnt hlane hfloat fun _ => hrows).trans ?_
    simp only [done, ← hN]
    rfl
  case sizeTile => exact smxOp_wrongTile h true hcnt hlane (.inr ⟨rfl, hrow⟩)

end Sys2Proof.Machine

/-! Decoding what `encode` writes (R135 to R144), and the worked encodings. -/

namespace Sys2Proof.Laws.RoundTrip

/-- One lemma for each constructor, in the order of `Instr`. -/
theorem decode_encode (i : Instr) : Statement i :=
  Instr.casesOn (motive := Statement) i
    add sub and or xor andn sll srl sra rol mul mulh mulhu div divu rem remu min minu max maxu seq sne slt sltu sle sleu clz ctz popc bswap sexb sexh
    sexw fadd fsub fmul fdiv fmin fmax fminp fmaxp fcvtfi fcvtif feq flt fle addi andi ori xori slli srli srai slti lui lix lihx addx
    beq bne blt bge bltu bgeu bset bclr jal jalr loop loopi loopk loopm
    qwait qroom qadv qadvp qrst qpop qpeek qput qcfg qcnt bqt bqf nop rdv0 rdvEnd rdvStreamSet rdvComplete pbar pbara pbarw
    pennantArrival pennantCompletion wfi ipref rdc wrc rdk rdcyc rdid rdloop
    ldb ldbs ldh ldhs ldw ldws ldd stb sth stw std lsmark l1inv l1inva pref own disown
    amoadd amoand amoor amoxor amomin amominu amomax amomaxu amoswp amocas amofadd fence qfence spawn spwait sptest depdec depinc
    wlcfg wlpush wlins wlpopb wlcnt wldrain frnck frnput frninv frnstat frnflush installation vtadd vtfadd vtmax vtcas vtsac bankSideOperation
    trap eret uiret brk sysc rtfill rtnext resume kill tlbinv
    apcfg astrm astro agath ascat awcfg awin awpass aprf aqOperationPerformed
    vadd vsub vmul vfma vfms vfnma vmin vmax vminp vmaxp vabs vneg vdiv vsqrt vsgn vand vor vxor vnot vsll vsrl vsra vaddsat vsubsat vmulhi
    vceq vcne vclt vcle vcgt vcge vcun vsel mand mor mxor mnot mpop mfirst vcvt vrsum vrmax vrmin vscan
    vmov vbcast vext vins vperm vrot vidx vpack vunpk vld vst vldq vstq vgat vsct swait vqOperationPerformed vpart vcmpk vexpd
    vtcfg vtab vtabl vtabq vexp2 vlog2 flmatch flmerge flunmg flsize flsig flsave flload flfree vsmx vsmxs prunepk prunepkt mdpack mdchk
    mmac mmacs mmacg mmacsg mclr mcfg mhdr mtrn mqOperationStart matrixStep mqOperationPerformed
    xcpy xcp2 xcp3 xcvt xmcast xflw xvop xrem xwait xcmpl copyCommandPerformed completionRecord txinit txexp txarr txwait txtest
    intakePacketTake userInterruptDelivery dispatchRound probeOutcome reuseCopyPerformed jobStart jobRetire watchdogDeadlock stallWindowExpiry
    sliceEnd switchBudgetExpiry npbudgetExpiry trapDelivery calendarSlotIssue homeSlicePerform readCompletion writeAck translationWalkComplete
    windowAccessArrival go stop stepRecordArrival snapshotCommit rollbackRequest rollback vaultBankFailure graphLoad graphUnload graphCommandEnd
    contextEnable vaultRangeDeclare pbsetWrite releaseDeliver releaseKill vacate throtnWrite sensorUpdate mgmtTrapEntry columnEnterC1 columnEnterDeep
    columnWake flitReceive remoteStoreAck ingressRelease hostRequest bootgo bootImageLoaded attgo attestationDone warmrst coldReset functionLevelReset
    packagePowerLoss registerWrite illegalEncoding fabricAccessCompletion repairReplay frozenPortRelease

/-- Settles O56, constructor by constructor. -/
theorem decodeEncode : Obligations.DecodeEncode := decode_encode

/-- The word of a well-formed instruction of one word decodes to it. -/
theorem decode_word {i : Instr} {w : IWord} (he : encode i = [w]) (hwf : i.wf = true) (hword : i.isWord = true) : decode (bytesOfIWord w) = .ok (i, []) := by
  simpa [bytesOf, he] using decode_encode i hwf hword []

/-- Settles O55: each word is the one that `encode` writes of its instruction; of the words that do not decode, two have an unassigned major opcode and the third sets a reserved field. -/
theorem decodeWords : Obligations.DecodeWords := by
  unfold Obligations.DecodeWords
  refine ⟨fun e he => ?encoded, ?undecodable⟩
  case encoded =>
    obtain ⟨henc, hwf, hword⟩ : encode e.2 = [e.1] ∧ e.2.wf = true ∧ e.2.isWord = true := by
      revert e
      decide
    exact decode_word henc hwf hword
  case undecodable =>
    simp only [List.forall_mem_cons, List.not_mem_nil, IsEmpty.forall_iff, implies_true, and_true]
    exact ⟨⟨.unassignedMajor, rfl⟩, ⟨.unassignedMajor, rfl⟩, ⟨.reservedField, rfl⟩⟩

end Sys2Proof.Laws.RoundTrip

/-! The checks of lane instructions (R148, R197, R199): where the codes of the rows are bad or differ, and where a tile is busy. -/

namespace Sys2Proof.Machine

/-- Whether rows hold an invalid code, or codes that differ (R197). -/
def codesRefused (b : Job) (vs : List VReg) : Bool :=
  !((rowsOf b vs).map (rowCode b)).all validCode || !((rowsOf b vs).map (rowCode b)).all (· == ((rowsOf b vs).map (rowCode b)).headD 0)

theorem codesRefused_iff (b : Job) (d : VReg) (vs : List VReg) :
    codesRefused b (d :: vs) = true ↔ ∃ v ∈ d :: vs, validCode (rowCode b (rowOf b v)) = false ∨ rowCode b (rowOf b v) ≠ rowCode b (rowOf b d) := by
  simp [codesRefused, rowsOf, exists_or, and_or_left]

@[simp] theorem codesRefused_began (s : State) (n j : Nat) (vs : List VReg) : codesRefused (jobOf (began s) n j) vs = codesRefused (jobOf s n j) vs := by
  simp only [codesRefused, rowsOf_began, funext (rowCode_began s n j)]

section
variable {s : State} {n j words : Nat} {reads : List Reg} {body : State → Nat → Nat → Job → List Nat → Res} {d : VReg} {vs : List VReg}
  (hturn : s.turn = .stream n j .v) (hready : Ready words { streams := [.v], reads := reads } s)
include hturn hready

/-- A row of an invalid code, or of another code than the destination's, is refused, busy or not (log entry 91). -/
theorem vecIssue_tileType (hbad : ∃ v ∈ d :: vs, validCode (rowCode (jobOf s n j) (rowOf (jobOf s n j) v)) = false
      ∨ rowCode (jobOf s n j) (rowOf (jobOf s n j) v) ≠ rowCode (jobOf s n j) (rowOf (jobOf s n j) d)) :
    vecIssue words reads (d :: vs) true s body = trapsWith s { cause := cTileType } := by
  have hrefused : codesRefused (jobOf (began s) n j) (d :: vs) = true := by
    rw [codesRefused_began]
    exact (codesRefused_iff ..).2 hbad
  rw [codesRefused] at hrefused
  rw [vecIssue, issue_ready hready, hturn]
  simp only [Bool.true_and, hrefused, if_true, raise]

/-- Rows of one valid code wait where a tile of theirs is busy. -/
theorem vecIssue_waits (hcodes : ∀ v ∈ d :: vs, validCode (rowCode (jobOf s n j) (rowOf (jobOf s n j) v)) = true
      ∧ rowCode (jobOf s n j) (rowOf (jobOf s n j) v) = rowCode (jobOf s n j) (rowOf (jobOf s n j) d))
    (hbusy : ∃ v ∈ d :: vs, tileBusy (jobOf s n j) (tileOf (rowOf (jobOf s n j) v)) = true) :
    vecIssue words reads (d :: vs) true s body = waitsIn s (began s) .waiting := by
  have haccepted : codesRefused (jobOf (began s) n j) (d :: vs) = false := by
    rw [codesRefused_began, ← Bool.not_eq_true, codesRefused_iff]
    rintro ⟨v, hv, hinvalid | hdiffers⟩
    · exact Bool.false_ne_true (hinvalid.symm.trans (hcodes v hv).1)
    · exact hdiffers (hcodes v hv).2
  have hwait : (rowsOf (jobOf (began s) n j) (d :: vs)).any (fun r => tileBusy (jobOf (began s) n j) (tileOf r)) = true := by
    obtain ⟨v, hv, hbusy⟩ := hbusy
    simp only [rowsOf_began, tileBusy_began]
    exact List.any_eq_true.2 ⟨_, List.mem_map_of_mem hv, hbusy⟩
  rw [codesRefused] at haccepted
  rw [vecIssue, issue_ready hready, hturn]
  simp only [Bool.true_and, haccepted, hwait, Bool.false_eq_true, if_false, if_true]

end

/-- Settles O25: each lane instruction issues over its rows, whose codes are checked before their tiles are waited for. -/
theorem vectorRowChecks : Obligations.VectorRowChecks := by
  unfold Obligations.VectorRowChecks
  intro s n j d a b hturn hready k code busy two one
  refine ⟨fun i hi => ?two, fun i hi => ?one⟩
  case two =>
    obtain ⟨f, hlanes⟩ : ∃ f, exec i s = laneOp d a b f s := by
      revert i
      simp only [two, List.forall_mem_cons, List.not_mem_nil, IsEmpty.forall_iff, implies_true, and_true]
      simp only [exec_vadd, execVadd, exec_vsub, execVsub, exec_vmul, execVmul, exec_vfma, execVfma, exec_vfms, execVfms, exec_vfnma, execVfnma, exec_vmin, execVmin,
        exec_vmax, execVmax, exec_vminp, execVminp, exec_vmaxp, execVmaxp, exec_vdiv, execVdiv, exec_vand, execVand, exec_vor, execVor, exec_vxor, execVxor,
        exec_vsll, execVsll, exec_vsrl, execVsrl, exec_vsra, execVsra, exec_vaddsat, execVaddsat, exec_vsubsat, execVsubsat, exec_vmulhi, execVmulhi]
      and_intros <;> exact ⟨_, rfl⟩
    rw [hlanes, laneOp]
    exact ⟨vecIssue_tileType hturn hready, vecIssue_waits hturn hready⟩
  case one =>
    obtain ⟨f, hlanes⟩ | rfl : (∃ f, exec i s = laneOp d a a f s) ∨ i = .vmov d a := by
      revert i
      simp only [one, List.forall_mem_cons, List.not_mem_nil, IsEmpty.forall_iff, implies_true, and_true, or_true]
      simp only [exec_vabs, execVabs, exec_vneg, execVneg, exec_vsqrt, execVsqrt, exec_vsgn, execVsgn, exec_vnot, execVnot, exec_vexp2, execVexp2, exec_vlog2,
        execVlog2, floatLane, laneOp1]
      exact ⟨.inl ⟨_, rfl⟩, .inl ⟨_, rfl⟩, .inl ⟨_, rfl⟩, .inl ⟨_, rfl⟩, .inl ⟨_, rfl⟩, .inl ⟨_, rfl⟩, .inl ⟨_, rfl⟩⟩
    · rw [hlanes, laneOp]
      exact ⟨fun h => vecIssue_tileType hturn hready (by simpa using h), fun h g => vecIssue_waits hturn hready (by simpa using h) (by simpa using g)⟩
    · rw [exec_vmov, execVmov]
      exact ⟨vecIssue_tileType hturn hready, vecIssue_waits hturn hready⟩

end Sys2Proof.Machine

/-! Control registers: what a write leaves of them, number by number (R151, R196). -/

namespace Sys2Proof.Machine

/-! Cores, partitions and contexts after an update of a job, and jobs after one of a partition. -/

@[simp] theorem gated_modJob (s : State) (n j : Nat) (f : Job → Job) : (coreOf (modJob s n j f) n).gated = (coreOf s n).gated := by
  simp [modJob, modSlot]

@[simp] theorem partOf_modJob (s : State) (n j p : Nat) (f : Job → Job) : partOf (modJob s n j f) p = partOf s p := rfl
@[simp] theorem ctxOf_modJob (s : State) (n j p c : Nat) (f : Job → Job) : ctxOf (modJob s n j f) p c = ctxOf s p c := rfl
@[simp] theorem jobOf_modPart (s : State) (n j p : Nat) (f : Partition → Partition) : jobOf (modPart s p f) n j = jobOf s n j := rfl
@[simp] theorem jobOf_modCtx (s : State) (n j p c : Nat) (f : Context → Context) : jobOf (modCtx s p c f) n j = jobOf s n j := rfl
@[simp] theorem coreOf_modPart (s : State) (n p : Nat) (f : Partition → Partition) : coreOf (modPart s p f) n = coreOf s n := rfl
@[simp] theorem coreOf_modCtx (s : State) (n p c : Nat) (f : Context → Context) : coreOf (modCtx s p c f) n = coreOf s n := rfl

theorem rtring_modCtx (s : State) (p c : Nat) (f : Context → Context) : (partOf (modCtx s p c f) p).rtring = (partOf s p).rtring := by
  simp [modCtx]

/-! The numbers of R151. -/

theorem isCreg_eq (m : Nat) : isCreg m = decide (m ∈ [0x00, 0x01, 0x02, 0x03, 0x04, 0x10, 0x11, 0x12, 0x13, 0x20, 0x21, 0x22, 0x30, 0x40, 0x41, 0x42, 0x43, 0x44, 0x50, 0x60, 0x70, 0x71, 0x80, 0x81,
    0x90, 0x91, 0x92, 0x93, 0x94, 0x95, 0x96, 0x97]) := by
  rw [Bool.eq_iff_iff]
  simp only [isCreg, Bool.or_eq_true, Bool.and_eq_true, decide_eq_true_eq, beq_iff_eq, List.mem_cons, List.not_mem_nil, or_false]
  constructor <;> omega

theorem privileges_creg {m : Nat} (hm : isCreg m = true) :
    privRead m = decide (m ∈ [0x40, 0x41, 0x42, 0x43, 0x44, 0x50, 0x60, 0x80]) ∧ privWrite m = (privRead m || m == 0x71) := by
  rw [isCreg_eq, decide_eq_true_eq] at hm
  revert m
  decide

/-! Loop counts (R150, R196). -/

theorem loopOf_writeLcnt (st : Stream) (m l : Nat) (v : Word) :
    loopOf (writeLcnt st m v) l = if m % 2 = 0 ∧ l = (m - 0x90) / 2 then { loopOf st l with cnt := v.setWidth 32 } else loopOf st l := by
  unfold writeLcnt
  by_cases heven : m % 2 = 0
  · by_cases hl : l = (m - 0x90) / 2
    · simp [heven, hl, loopOf]
    · simp [heven, hl, loopOf, tget_tset_other]
  · simp [heven]

theorem writeLcnt_loops (st : Stream) (m : Nat) (v : Word) : writeLcnt st m v = { st with loops := (writeLcnt st m v).loops } := by
  unfold writeLcnt
  split <;> rfl

/-- LCNT and LEND of the levels, by number (R150). -/
theorem cregRead_loop {s : State} {n j : Nat} {t : Sid} {i : Nat} (hlow : 0x90 ≤ i) (hhigh : i ≤ 0x97) :
    cregRead s n j t i = if i % 2 = 0 then (loopOf ((jobOf s n j).streams.get t) ((i - 0x90) / 2)).cnt.setWidth 64
      else lendWord (loopOf ((jobOf s n j).streams.get t) ((i - 0x90) / 2)) := by
  interval_cases i <;> rfl

/-- A write of a count leaves what every other number reads, the LEND of its level among them. -/
theorem cregRead_loop_other {s : State} {n j : Nat} {t : Sid} {m i : Nat} (hm : 0x90 ≤ m) (hi : isCreg i = true) (hne : i ≠ m) (v : Word) :
    cregRead (modStream s (.stream n j t) (fun st => writeLcnt st m v)) n j t i = cregRead s n j t i := by
  rw [isCreg_eq, decide_eq_true_eq] at hi
  by_cases hloop : 0x90 ≤ i
  · have hhigh : i ≤ 0x97 := List.le_max_of_mem hi
    rw [cregRead_loop hloop hhigh, cregRead_loop hloop hhigh, jobOf_modStream, Five.get_set_same, loopOf_writeLcnt]
    by_cases hsame : m % 2 = 0 ∧ (i - 0x90) / 2 = (m - 0x90) / 2
    · have hodd : ¬ i % 2 = 0 := by omega
      rw [if_neg hodd, if_neg hodd, if_pos hsame]
      rfl
    · rw [if_neg hsame]
  · unfold cregRead
    simp only [modStream, jobOf_modJob, Five.get_set_same, cycleOf, gated_modJob, partOf_modJob, ctxOf_modJob]
    rw [writeLcnt_loops]
    split
    case h_25 =>
      exfalso
      simp_all
      omega
    all_goals rfl

theorem ctxOf_setRtring (s : State) (p q c : Nat) (v : Word) : ctxOf (modPart s p (fun x => { x with rtring := v })) q c = ctxOf s q c := by
  refine ctxOf_modPart ?_ q c
  exact fun _ => rfl

/-- A write to a control register leaves what every other number reads (R151). -/
theorem cregRead_cregWrite_other (s : State) (n j : Nat) (t : Sid) {m i : Nat} (hi : isCreg i = true) (hne : i ≠ m) (v : Word) :
    cregRead (cregWrite s n j t m v) n j t i = cregRead s n j t i := by
  unfold cregWrite
  split
  case h_1 =>
    split
    · unfold cregRead
      simp only [jobOf_modJob, cycleOf, gated_modJob, partOf_modJob, ctxOf_modJob]
      split <;> trivial
    · rfl
  case h_13 =>
    split
    next hm => exact cregRead_loop_other hm.1 hi hne v
    next => rfl
  all_goals
    unfold cregRead
    simp only [modStream, jobOf_modJob, Five.get_set_same, cycleOf, gated_modJob, partOf_modJob, ctxOf_modJob, partOf_modPart, rtring_modCtx, ctxOf_modCtx, ctxOf_setRtring,
      jobOf_modPart, jobOf_modCtx, coreOf_modPart, coreOf_modCtx]
    split <;> trivial

/-! What a write keeps. -/

theorem setWidth_setWidth_word {w : Nat} (v : Word) : (v.setWidth w).setWidth 64 = BitVec.ofNat 64 (v.toNat % 2 ^ w) := by
  apply BitVec.eq_of_toNat_eq
  simp only [BitVec.toNat_setWidth, BitVec.toNat_ofNat]

/-- A write to PEND clears the bits that its operand names, of the low eight (R247). -/
theorem pend_kept (inh : Bool) (p : BitVec 8) (v : Word) :
    boolWord inh <<< 63 ||| (p &&& ~~~(v.setWidth 8)).setWidth 64 = (boolWord inh <<< 63 ||| p.setWidth 64) &&& ~~~(BitVec.ofNat 64 (v.toNat % 2 ^ 8)) := by
  rw [← setWidth_setWidth_word]
  ext i hi
  simp only [BitVec.getElem_or, BitVec.getElem_and, BitVec.getElem_not, BitVec.getElem_shiftLeft, BitVec.getElem_setWidth, BitVec.getLsbD_and, BitVec.getLsbD_not, BitVec.getLsbD_setWidth]
  by_cases hlow : i < 8
  · have hinh : i < 63 := by omega
    simp [hlow, hinh]
  · simp [hlow, BitVec.getLsbD_of_ge p i (by omega)]

/-- Where a number is read-only, or is VWB of another stream than V, a write does nothing. -/
theorem cregWrite_readOnly (s : State) (n j : Nat) {t : Sid} {m : Nat} (v : Word)
    (h : m ∈ [0x00, 0x01, 0x02, 0x03, 0x04, 0x12, 0x13, 0x41, 0x42, 0x44, 0x70, 0x81] ∨ (m = 0x10 ∧ t ≠ .v)) : cregWrite s n j t m v = s := by
  obtain h | ⟨rfl, ht⟩ := h
  · revert m
    simp only [List.forall_mem_cons, List.not_mem_nil, IsEmpty.forall_iff, implies_true, and_true]
    and_intros <;> rfl
  · exact if_neg (by simpa using ht)

/-- A write to LEND changes nothing of the job (R150). -/
theorem jobOf_cregWrite_lend (s : State) (n j : Nat) (t : Sid) {m : Nat} (v : Word) (h : m ∈ [0x91, 0x93, 0x95, 0x97]) :
    jobOf (cregWrite s n j t m v) n j = jobOf s n j := by
  have hsame : jobOf (modStream s (.stream n j t) id) n j = jobOf s n j := by
    rw [jobOf_modStream]
    cases t <;> rfl
  revert m
  simp only [List.forall_mem_cons, List.not_mem_nil, IsEmpty.forall_iff, implies_true, and_true]
  and_intros <;> exact hsame

theorem cregWrite_kept {s : State} {n j : Nat} {t : Sid} {m : Nat} (v : Word) :
    let kept (z : Word) : Prop := cregRead (cregWrite s n j t m v) n j t m = z
    let low (w : Nat) : Word := BitVec.ofNat 64 (v.toNat % 2 ^ w)
    (m = 0x10 → t = .v → kept (low 10)) ∧ (m = 0x11 ∨ m = 0x60 → kept (low 5)) ∧ (m = 0x22 → kept (low 8)) ∧ (m ∈ [0x30, 0x90, 0x92, 0x94, 0x96] → kept (low 32))
      ∧ (m ∈ [0x20, 0x40, 0x43] → kept (v &&& 0x00FFFFFFFFFFFFFC#64)) ∧ (m = 0x21 → kept (cregRead s n j t m &&& ~~~(low 8)))
      ∧ (m = 0x50 → kept (v &&& 0x00FFFFFFFFFE0001#64)) ∧ (m = 0x71 → kept v) ∧ (m = 0x80 → kept (low 25)) := by
  intro kept low
  have hlow {w : Nat} : (v.setWidth w).setWidth 64 = low w := setWidth_setWidth_word v
  refine ⟨?vwb, ?low5, ?low8, ?low32, ?address, ?pend, ?rtring, ?capbase, ?npbudget⟩
  case vwb =>
    rintro rfl rfl
    simp [kept, cregWrite, cregRead, hlow]
  case low5 =>
    rintro (rfl | rfl) <;> simp [kept, cregWrite, cregRead, hlow]
  case low8 =>
    rintro rfl
    simp [kept, cregWrite, cregRead, hlow]
  case low32 =>
    revert m
    simp [cregWrite, cregRead, hlow, loopOf_writeLcnt]
  case address =>
    revert m
    simp [cregWrite, cregRead]
  case pend =>
    rintro rfl
    simp only [kept, cregWrite, cregRead, jobOf_modJob]
    exact pend_kept ..
  case rtring =>
    rintro rfl
    simp [kept, cregWrite, cregRead]
  case capbase =>
    rintro rfl
    simp [kept, cregWrite, cregRead]
  case npbudget =>
    rintro rfl
    have hbits : bitsAt v 0 25 = v.toNat % 2 ^ 25 := by rw [bitsAt, Nat.pow_zero, Nat.div_one]
    simp only [kept, cregWrite, cregRead, jobOf_modJob, modJob_now, hbits]
    split
    next u hu =>
      obtain ⟨-, rfl⟩ : ¬ v.toNat % 2 ^ 25 = 0 ∧ s.now + v.toNat % 2 ^ 25 = u := by simpa using hu
      rw [Nat.add_sub_cancel_left]
      rfl
    next hu =>
      have hzero : v.toNat % 2 ^ 25 = 0 := by simpa using hu
      simp only [low, hzero]

/-- A write changes no other stream of the job. -/
theorem streams_cregWrite_other (s : State) (n j m : Nat) {t u : Sid} (hu : u ≠ t) (v : Word) :
    (jobOf (cregWrite s n j t m v) n j).streams.get u = (jobOf s n j).streams.get u := by
  unfold cregWrite
  repeat' split
  all_goals simp [Five.get_set_other _ _ hu]

/-! What a number reads. -/

theorem cregRead_table (s : State) (n j : Nat) (t : Sid) :
    let b := jobOf s n j
    let rd := cregRead s n j t
    let st := b.streams.get t
    rd 0x00 = jobId b j ∧ rd 0x01 = BitVec.ofNat 64 n ∧ rd 0x02 = BitVec.ofNat 64 (sidNum t) ∧ rd 0x03 = BitVec.ofNat 64 b.part
      ∧ rd 0x04 = BitVec.ofNat 64 (s.now - (coreOf s n).gated) ∧ rd 0x10 = (if t = .v then b.vwb.setWidth 64 else 0#64)
      ∧ rd 0x11 = st.fflags.setWidth 64 ∧ rd 0x12 = st.slip.setWidth 64
      ∧ rd 0x13 = (if t = .v then BitVec.ofNat 64 ((b.vq.filter (fun o => o.sid == .v)).length) else 0#64)
      ∧ rd 0x20 = b.uivec ∧ rd 0x21 = b.pend.setWidth 64 ||| (if b.inh then 0x8000000000000000#64 else 0#64) ∧ rd 0x22 = b.uimask.setWidth 64
      ∧ rd 0x30 = b.tiletype.setWidth 64 ∧ rd 0x40 = b.trapvec ∧ rd 0x41 = (if b.sv then BitVec.ofNat 64 (recordAt n j b.ts) else 0#64)
      ∧ rd 0x42 = statusWord b ∧ rd 0x43 = b.epc ∧ rd 0x44 = b.ecause.setWidth 64 ∧ rd 0x50 = (partOf s b.part).rtring ∧ rd 0x60 = b.dbgctl.setWidth 64
      ∧ rd 0x70 = Config.encid.setWidth 64 ∧ rd 0x71 = (ctxOf s b.part b.ctx).capbase
      ∧ rd 0x80 = (match b.npUntil with | some u => BitVec.ofNat 64 (u - s.now) | none => 0#64) ∧ rd 0x81 = BitVec.ofNat 64 (b.limit * 256 + b.depth)
      ∧ ∀ i < 4, rd (0x90 + 2 * i) = (loopOf st i).cnt.setWidth 64
          ∧ rd (0x91 + 2 * i) = ((loopOf st i).stop &&& 0x00FFFFFFFFFFFFFC#64) ||| (if (loopOf st i).act then 1#64 else 0#64) := by
  intro b rd st
  refine ⟨rfl, rfl, rfl, rfl, rfl, ?vwb, rfl, rfl, ?swc, rfl, ?pend, rfl, rfl, rfl, rfl, rfl, rfl, rfl, rfl, rfl, rfl, rfl, rfl, rfl, ?loops⟩
  case vwb => simp [rd, cregRead, b]
  case swc => simp [rd, cregRead, b, swc, w64]
  case pend =>
    rw [BitVec.or_comm]
    change boolWord b.inh <<< 63 ||| b.pend.setWidth 64 = _
    cases b.inh <;> rfl
  case loops =>
    intro i hi
    interval_cases i <;> exact ⟨rfl, rfl⟩

/-! The instructions (R179). -/

@[simp] theorem tiletypeBlocked_began (s : State) (n j : Nat) (v : Word) : tiletypeBlocked (jobOf (began s) n j) v = tiletypeBlocked (jobOf s n j) v := by
  simp [tiletypeBlocked, changedTiles]

section
variable {s : State} {n j : Nat} {t : Sid} {d : Reg} (hturn : s.turn = .stream n j t)
include hturn

theorem rdc_answers (h : Ready 1 {} s) (num : BitVec 12) : exec (.rdc d num) s =
    if isCreg num.toNat = false then trapsWith s { cause := cIllegal }
    else if privRead num.toNat = true ∧ supervisor s s.turn = false then trapsWith s { cause := cPriv }
    else completes s 1 (setReg (began s) s.turn d (cregRead (began s) n j t num.toNat)) := by
  have hsv : supervisor (began s) (.stream n j t) = supervisor s (.stream n j t) := hturn ▸ supervisor_began s
  rw [exec_rdc, execRdc, issue_ready h, hturn]
  cases hlisted : isCreg num.toNat with
  | false => simp [raise]
  | true =>
    by_cases hpriv : privRead num.toNat = true ∧ supervisor s (.stream n j t) = false
    · simp [hpriv, hsv, raise]
    · simp [hpriv, hsv, completes, hturn]

theorem wrc_answers (h : Ready 1 { reads := [d] } s) (num : BitVec 12) : exec (.wrc d num) s =
    if isCreg num.toNat = false then trapsWith s { cause := cIllegal }
    else if privWrite num.toNat = true ∧ supervisor s s.turn = false then trapsWith s { cause := cPriv }
    else if num.toNat = 0x30 ∧ tiletypeBlocked (jobOf s n j) (reg s s.turn d) = true then waitsIn s (began s) .waiting
    else completes s 1 (cregWrite (began s) n j t num.toNat (reg s s.turn d)) := by
  have hsv : supervisor (began s) (.stream n j t) = supervisor s (.stream n j t) := hturn ▸ supervisor_began s
  have hreg : reg (began s) (.stream n j t) d = reg s (.stream n j t) d := hturn ▸ reg_began s d
  have htile : num = 0x30#12 ↔ num.toNat = 0x30 := by rw [← BitVec.toNat_inj]; rfl
  rw [exec_wrc, execWrc, issue_ready h, hturn]
  simp only [hreg, hsv, tiletypeBlocked_began]
  cases hlisted : isCreg num.toNat with
  | false => simp [raise]
  | true =>
    by_cases hpriv : privWrite num.toNat = true ∧ supervisor s (.stream n j t) = false
    · simp [hpriv, raise]
    · by_cases hwait : num.toNat = 0x30 ∧ tiletypeBlocked (jobOf s n j) (reg s (.stream n j t) d) = true
      · have hopen : privWrite 0x30 = false := rfl
        simp [htile, hwait, hopen]
      · simp [hpriv, htile, hwait, completes, hturn]

theorem rdcyc_completes (h : Ready 1 {} s) : exec (.rdcyc d) s = completes s 1 (setReg (began s) s.turn d (BitVec.ofNat 64 (s.now - (coreOf s n).gated))) := by
  rw [exec_rdcyc, execRdcyc, issue_ready h, hturn]
  simp [cycleOf, completes, hturn, w64]

theorem rdk_completes (h : Ready 1 { mgmt := false } s) (k : BitVec 4) :
    exec (.rdk d k) s = completes s 1 (setReg (began s) s.turn d (tget 0#64 (ctxOf s (jobOf s n j).part (jobOf s n j).ctx).k k.toNat)) := by
  rw [exec_rdk, execRdk, issue_ready h, hturn]
  simp [agentJob, kOf, completes, hturn]

theorem rdid_completes (h : Ready 1 { mgmt := false } s) (w : IdReg) : exec (.rdid d w) s = completes s 1 (setReg (began s) s.turn d (match w with
    | .coreid => BitVec.ofNat 64 n | .streamid => BitVec.ofNat 64 (sidNum t) | .jobid => jobId (jobOf s n j) j | .part => BitVec.ofNat 64 (jobOf s n j).part)) := by
  rw [exec_rdid]
  unfold execRdid
  rw [issue_ready h, hturn]
  cases w <;> simp [cregRead, jobId, completes, hturn, w64]

theorem rdloop_completes (h : Ready 1 { mgmt := false } s) (l : BitVec 3) :
    exec (.rdloop d l) s = completes s 1 (setReg (began s) s.turn d (BitVec.ofNat 64 (rdloopValue s (jobOf s n j) l.toNat))) := by
  rw [exec_rdloop, execRdloop, issue_ready h, hturn]
  simp [agentJob, rdloopValue, completes, hturn, w64]

end

/-- Settles O11: what each instruction answers, then what each number reads, keeps and leaves of the others. -/
theorem controlRegisterResults : Obligations.ControlRegisterResults := by
  unfold Obligations.ControlRegisterResults
  intro s n j t d num k w l hturn m v b wr
  refine ⟨fun h => ⟨fun hc hp => ?reads, fun hc => ?unlistedRead, fun hc hp hs => ?privateRead, rdcyc_completes hturn h⟩,
    fun h => ⟨fun hc hp hw => ?writes, fun hw => ?blocked, fun hc => ?unlistedWrite, fun hc hp hs => ?privateWrite⟩,
    fun h => ⟨rdk_completes hturn h k, rdid_completes hturn h w, rdloop_completes hturn h l⟩, isCreg_eq m, privileges_creg, cregRead_table s n j t, fun hc => ?state⟩
  case reads =>
    rw [rdc_answers hturn h, if_neg (by simpa using hc), if_neg]
    rcases hp with hp | hp <;> simp [m, hp]
  case unlistedRead => rw [rdc_answers hturn h, if_pos hc]
  case privateRead => rw [rdc_answers hturn h, if_neg (by simpa using hc), if_pos ⟨hp, hs⟩]
  case writes =>
    rw [wrc_answers hturn h, if_neg (by simpa using hc), if_neg, if_neg]
    · rcases hw with hw | hw
      · exact fun g => hw g.1
      · exact fun g => Bool.false_ne_true (hw.symm.trans g.2)
    · rcases hp with hp | hp <;> simp [m, hp]
  case blocked => rw [wrc_answers hturn h, if_neg (by decide), if_neg (by simp [privWrite]), if_pos ⟨rfl, hw⟩]
  case unlistedWrite => rw [wrc_answers hturn h, if_pos hc]
  case privateWrite => rw [wrc_answers hturn h, if_neg (by simpa using hc), if_pos ⟨hp, hs⟩]
  case state =>
    obtain ⟨hvwb, hlow5, hlow8, hlow32, haddress, hpend, hrtring, hcapbase, hnpbudget⟩ := cregWrite_kept (s := s) (n := n) (j := j) (t := t) (m := m) v
    exact ⟨cregWrite_readOnly s n j v, jobOf_cregWrite_lend s n j t v, hvwb, hlow5, hlow8, hlow32, haddress, hpend, hrtring, hcapbase, hnpbudget,
      fun i hi hlisted => cregRead_cregWrite_other s n j t hlisted hi v, fun _ hu => streams_cregWrite_other s n j m hu v, cregWrite_mem ..⟩

end Sys2Proof.Machine

/-! What a fetch leaves (R64, R78, R88, R91): registers, PC and whose turn it is; memory where no line is owned; the partitions but for CECOUNT, and all of them where no sector is flawed. -/

namespace Sys2Proof.Machine

/-! Corrections where nothing is flawed (R91). -/

section

variable {m : Memory}

theorem mergeSector_flaws {a : Nat} {key : List Byte} {r : Memory × Nat} (h : mergeSector m a key = some r) : r.1.flaws = m.flaws := by
  unfold mergeSector at h
  split at h
  · obtain ⟨x, -, rfl⟩ := Option.map_eq_some_iff.1 h
    dsimp only
    split <;> rfl
  · split at h <;> (cases h; rfl)

theorem mergeAll_flaws {key : List Byte} {l : List Nat} {r : Memory × Nat} (h : mergeAll key l m = some r) : r.1.flaws = m.flaws := by
  induction l generalizing m r with
  | nil => cases h; rfl
  | cons a l ih =>
    unfold mergeAll at h
    split at h
    · cases h
    next w k hw =>
      obtain ⟨x, hx, rfl⟩ := Option.map_eq_some_iff.1 h
      exact (ih hx).trans (mergeSector_flaws hw)

variable (hflaws : m.flaws = [])
include hflaws

theorem readSector_unflawed {a : Nat} {key : List Byte} {r : Nat × Wrong} (h : readSector m a key = some r) : r.1 = 0 := by
  by_cases hkey : keyAt m a = key
  · rw [readSector_plain hflaws hkey, Option.some.injEq] at h
    rw [← h]
  · rw [readSector, if_pos hkey] at h
    cases h

theorem checkSectors_unflawed {a len : Nat} {key : List Byte} {r : Nat × Wrong} (h : checkSectors m a len key = some r) : r.1 = 0 := by
  refine List.foldlRecOn (motive := fun z : Option (Nat × Wrong) => ∀ x, z = some x → x.1 = 0) _ _ (by simp) (fun z hz b _ x hx => ?_) r h
  split at hx
  · cases hx
  next k e =>
    obtain ⟨y, hy, rfl⟩ := Option.map_eq_some_iff.1 hx
    have hk : k = 0 := hz _ rfl
    rw [hk, readSector_unflawed hflaws hy]

theorem storeRead_unflawed {a len : Nat} {key : List Byte} {r : List Byte × Nat} (h : storeRead m a len key = some r) : r.2 = 0 := by
  unfold storeRead at h
  split at h
  · obtain ⟨x, hx, rfl⟩ := Option.map_eq_some_iff.1 h
    exact checkSectors_unflawed hflaws hx
  · split at h <;> (cases h; rfl)

theorem fixesOf_unflawed (key : List Byte) (l : List Nat) : fixesOf m key l = 0 := by
  refine foldl_stays fun a _ => ?_
  split
  · split
    next x hx => rw [readSector_unflawed hflaws hx]
    next => rfl
  · rfl

theorem storeWrite_unflawed {a : Nat} {key l : List Byte} {r : Memory × Nat} (h : storeWrite m a key l = some r) : r.1.flaws = [] := by
  unfold storeWrite at h
  dsimp only at h
  split at h
  · cases h
  next w k hw =>
    have hnone : w.flaws = [] := (mergeAll_flaws hw).trans hflaws
    cases h
    split <;> simp [memWrite, hnone]

end

/-! Recalls and walks (R78, R86, R89). -/

/-- From s to u neither the turn nor a partition changes, and no sector becomes flawed. -/
structure KeepsParts (s u : State) : Prop where
  turn : u.turn = s.turn
  parts : u.parts = s.parts
  flaws : s.mem.flaws = [] → u.mem.flaws = []

namespace KeepsParts

variable {s u w : State}

theorem refl (s : State) : KeepsParts s s := ⟨rfl, rfl, id⟩

theorem trans (h : KeepsParts s u) (g : KeepsParts u w) : KeepsParts s w := ⟨g.turn.trans h.turn, g.parts.trans h.parts, g.flaws ∘ h.flaws⟩

theorem foldl {α : Type} {f : State → α → State} (hf : ∀ s x, KeepsParts s (f s x)) (s : State) (l : List α) : KeepsParts s (l.foldl f s) := by
  induction l generalizing s with
  | nil => exact refl s
  | cons x r ih => exact (hf s x).trans (ih _)

end KeepsParts

theorem writeBack_keepsParts (s : State) (x : Line) : KeepsParts s (writeBack s x) := by
  unfold writeBack
  split
  · split
    next hw => exact ⟨rfl, rfl, fun h => storeWrite_unflawed h hw⟩
    next => exact .refl s
  · exact .refl s

theorem recallLine_keepsParts (s : State) (me : Option Nat) (pa len : Nat) : KeepsParts s (recallLine s me pa len) := by
  refine .foldl (fun t e => ?_) s _
  split
  · exact .refl t
  · exact (KeepsParts.foldl writeBack_keepsParts t _).trans ⟨rfl, rfl, id⟩

theorem walkRecalls_keepsParts (q : Partition) (va lv : Nat) : ∀ (s : State) (table : Nat), KeepsParts s (walkRecalls s q va table lv) := by
  induction lv with
  | zero => exact fun s _ => .refl s
  | succ lv ih =>
    intro s table
    have hr := recallLine_keepsParts s none (walkEntry table va lv) 8
    unfold walkRecalls
    dsimp only
    repeat' split
    · exact .refl s
    · exact hr
    · exact hr
    · exact hr.trans (ih ..)

theorem tableEntry_unflawed {s : State} (hflaws : s.mem.flaws = []) {pa : Nat} {r : Word × Nat} (h : tableEntry s pa = some r) : r.2 = 0 := by
  unfold tableEntry at h
  dsimp only at h
  split at h
  · cases h; rfl
  · obtain ⟨x, hx, rfl⟩ := Option.map_eq_some_iff.1 h
    exact storeRead_unflawed hflaws hx

theorem walkCounted_unflawed {s : State} (hflaws : s.mem.flaws = []) (q : Partition) (va lv : Nat) : ∀ table, (walkCounted s q va table lv).2 = 0 := by
  have hentry (pa : Nat) (r : Word × Nat) : tableEntry s pa = some r → r.2 = 0 := tableEntry_unflawed hflaws
  induction lv with
  | zero => exact fun _ => rfl
  | succ lv ih =>
    intro table
    rw [walkCounted]
    dsimp only
    split
    · rfl
    · split
      · rfl
      next e k he =>
        have hk : k = 0 := hentry _ _ he
        split
        · exact hk
        · dsimp only
          rw [hk, ih]

/-- What a read of an agent keeps on its way: the turn, memory where no line is owned, each partition but for CECOUNT, and all of them where nothing is flawed. -/
structure ReadKeeps (s u : State) : Prop where
  turn : u.turn = s.turn
  part : ∀ p, partOf u p = { partOf s p with cecount := (partOf u p).cecount }
  unowned : unowned s → unowned u ∧ u.mem = s.mem
  unflawed : s.mem.flaws = [] → u.mem.flaws = [] ∧ u.parts = s.parts

namespace ReadKeeps

variable {s u w : State}

theorem refl (s : State) : ReadKeeps s s := ⟨rfl, fun _ => rfl, fun h => ⟨h, rfl⟩, fun h => ⟨h, rfl⟩⟩

theorem trans (h : ReadKeeps s u) (g : ReadKeeps u w) : ReadKeeps s w := by
  refine ⟨g.turn.trans h.turn, fun p => ?_, fun hown => ?_, fun hflaws => ?_⟩
  · rw [g.part p, h.part p]
  · obtain ⟨hu, hmem⟩ := h.unowned hown
    exact ⟨(g.unowned hu).1, (g.unowned hu).2.trans hmem⟩
  · obtain ⟨hu, hparts⟩ := h.unflawed hflaws
    exact ⟨(g.unflawed hu).1, (g.unflawed hu).2.trans hparts⟩

theorem ofKeepsParts (h : KeepsParts s u) (hown : Machine.unowned s → u = s) : ReadKeeps s u := by
  refine ⟨h.turn, fun p => ?_, fun hs => ?_, fun hflaws => ⟨h.flaws hflaws, h.parts⟩⟩
  · have hp : partOf u p = partOf s p := by rw [partOf, partOf, h.parts]
    rw [hp]
  · rw [hown hs]
    exact ⟨hs, rfl⟩

end ReadKeeps

theorem mem_tset {α : Type} {t : Table α} {k : Nat} {x : α} {e : Nat × α} (h : e ∈ tset t k x) : e = (k, x) ∨ e ∈ t := by
  induction t with
  | nil => exact .inl (by simpa [tset] using h)
  | cons d r ih =>
    obtain ⟨i, y⟩ := d
    unfold tset at h
    split at h
    · simpa using h
    · split at h
      · rcases List.mem_cons.1 h with h | h
        · exact .inl h
        · exact .inr (List.mem_cons_of_mem _ h)
      · rcases List.mem_cons.1 h with h | h
        · exact .inr (h ▸ List.mem_cons_self)
        · exact (ih h).imp id (List.mem_cons_of_mem _)

theorem modCore_readKeeps (s : State) (n : Nat) {f : Core → Core} (hf : ∀ c, (f c).owned = c.owned) : ReadKeeps s (modCore s n f) := by
  refine ⟨rfl, fun _ => rfl, fun h => ⟨fun e he => ?_, rfl⟩, fun h => ⟨h, rfl⟩⟩
  rcases mem_tset he with rfl | he
  · exact (hf _).trans (owned_unowned h n)
  · exact h e he

theorem modStream_readKeeps (s : State) (n j : Nat) (t : Sid) (f : Stream → Stream) : ReadKeeps s (modStream s (.stream n j t) f) :=
  modCore_readKeeps s n fun _ => setSlot_owned ..

theorem recallLine_readKeeps (s : State) (me : Option Nat) (pa len : Nat) : ReadKeeps s (recallLine s me pa len) :=
  .ofKeepsParts (recallLine_keepsParts ..) fun h => recallLine_unowned_by h ..

theorem countCorrected_turn (s : State) (p k : Nat) : (countCorrected s p k).turn = s.turn := by
  unfold countCorrected
  split <;> rfl

theorem partOf_countCorrected (s : State) (p k q : Nat) : partOf (countCorrected s p k) q = { partOf s q with cecount := (partOf (countCorrected s p k) q).cecount } := by
  unfold countCorrected
  split
  · rfl
  · rw [partOf_modPart_any]
    split <;> rfl

/-- What was read and then corrections counted, of which there are none where nothing was flawed. -/
theorem ReadKeeps.counted {s u : State} (h : ReadKeeps s u) (p : Nat) {k : Nat} (hk : s.mem.flaws = [] → k = 0) : ReadKeeps s (countCorrected u p k) := by
  refine ⟨(countCorrected_turn ..).trans h.turn, fun q => ?_, fun hown => ?_, fun hflaws => ?_⟩
  · rw [partOf_countCorrected, h.part q]
  · obtain ⟨hu, hmem⟩ := h.unowned hown
    rw [Machine.unowned, countCorrected_cores, countCorrected_mem]
    exact ⟨hu, hmem⟩
  · rw [hk hflaws, countCorrected_zero]
    exact h.unflawed hflaws

theorem walkRecalls_readKeeps (s : State) (q : Partition) (va table lv : Nat) : ReadKeeps s (walkRecalls s q va table lv) :=
  .ofKeepsParts (walkRecalls_keepsParts ..) fun h => walkRecalls_unowned h ..

theorem walkMade_readKeeps (s : State) (p c : Nat) (va : Word) : ReadKeeps s (walkMade s p c va) := by
  have hr := walkRecalls_readKeeps s (partOf s p) va.toNat (ctxOf s p c).xroot 4
  have hk : s.mem.flaws = [] → (walkCounted s (partOf s p) va.toNat (ctxOf s p c).xroot 4).2 = 0 := fun h => walkCounted_unflawed h ..
  unfold walkMade
  dsimp only
  generalize walkRecalls s (partOf s p) va.toNat (ctxOf s p c).xroot 4 = u at hr
  generalize (walkCounted s (partOf s p) va.toNat (ctxOf s p c).xroot 4).2 = k at hk
  exact hr.counted p hk

theorem ReadKeeps.withDieXlat {s u : State} (h : ReadKeeps s u) (t : Table (List TlbEntry)) : ReadKeeps s { u with dieXlat := t } :=
  ⟨h.turn, h.part, h.unowned, h.unflawed⟩

theorem fillTlb_readKeeps (s : State) (n : Nat) (e : TlbEntry) : ReadKeeps s (fillTlb s n e) := modCore_readKeeps s n fun _ => rfl

theorem walked_readKeeps (s : State) (w : Who) (va : Word) : ReadKeeps s (walked s w va) := by
  have hm := @walkMade_readKeeps
  -- the kernel would evaluate a walk of four levels: with the walk a variable, it cannot
  generalize hf : walked = f
  delta walked at hf
  generalize walkMade = made at hm hf
  generalize walkFrom = walk at hf
  as_aux_lemma =>
    subst hf
    dsimp only
    repeat' split
    · exact .refl s
    · exact hm ..
    · exact .refl s
    · exact fillTlb_readKeeps ..
    · exact ((hm ..).withDieXlat _).trans (fillTlb_readKeeps ..)
    · exact hm ..

/-! Reads and the fetch. -/

theorem wakeColumn_readKeeps (s : State) (n : Nat) : ReadKeeps s (wakeColumn s n) := by
  unfold wakeColumn
  split
  · exact .refl s
  · exact modCore_readKeeps s n fun _ => rfl

theorem storeGet_readKeeps (s : State) (p pa len key : Nat) : ReadKeeps s (storeGet s p pa len key).1 := by
  unfold storeGet
  split
  next hr => exact (ReadKeeps.refl s).counted p fun h => storeRead_unflawed h hr
  next => exact (ReadKeeps.refl s).counted p fun h => fixesOf_unflawed h ..

theorem physRead_readKeeps (s : State) (p pa len key : Nat) : ReadKeeps s (physRead s p pa len key).1 := by
  have hget (t : State) (k : Nat) : ReadKeeps t (match storeGet t p pa len k with | (u, some l) => (u, Except.ok l) | (u, none) => (u, .error cDataUe) : State × Except Byte (List Byte)).1 := by
    have := storeGet_readKeeps t p pa len k
    split <;> simp_all
  unfold physRead
  dsimp only
  cases region pa with
  | hbm => exact (recallLine_readKeeps ..).trans (hget ..)
  | record => exact (recallLine_readKeeps ..).trans (hget ..)
  | host =>
    dsimp only
    split
    · exact .refl s
    · exact hget ..
  | vault n off =>
    have hw := wakeColumn_readKeeps s n
    dsimp only
    split
    · exact hw
    · split
      · exact hw
      · exact hw.trans (hget ..)
  | core n off => exact wakeColumn_readKeeps s n
  | pctl q off => exact .refl s
  | cap off => exact .refl s
  | reserved => exact .refl s

/-- What a fetch of agent a keeps: what a read keeps, and its registers and PC. -/
structure FetchKeeps (a : Agent) (s u : State) : Prop where
  read : ReadKeeps s u
  regs : ∀ r, reg u a r = reg s a r
  pc : (streamOf u a).pc = (streamOf s a).pc

namespace FetchKeeps

variable {a : Agent} {s u w : State}

theorem refl (a : Agent) (s : State) : FetchKeeps a s s := ⟨.refl s, fun _ => rfl, rfl⟩

theorem trans (h : FetchKeeps a s u) (g : FetchKeeps a u w) : FetchKeeps a s w :=
  ⟨h.read.trans g.read, fun r => (g.regs r).trans (h.regs r), g.pc.trans h.pc⟩

/-- A stream's registers and its PC stand in its job. -/
theorem ofKeepsJobs {n j : Nat} {t : Sid} (h : ReadKeeps s u) (hjobs : KeepsJobs s u) : FetchKeeps (.stream n j t) s u := by
  have hjob : jobOf u n j = jobOf s n j := by rw [jobOf, jobOf, hjobs.slots]
  refine ⟨h, fun r => ?_, ?_⟩
  · have hplace : regPlace u (.stream n j t) r = regPlace s (.stream n j t) r := by cases t <;> simp only [regPlace, hjob]
    simp only [reg, readPlace, hplace, streamOf, agentJob, hjob]
  · rw [streamOf, streamOf, hjob]

end FetchKeeps

theorem touchLine_slotOf (c : Core) (l j : Nat) : slotOf (touchLine c l) j = slotOf c j := rfl

theorem fetchLine_fetchKeeps (s : State) (n j : Nat) (t : Sid) (pa : Nat) : FetchKeeps (.stream n j t) s (fetchLine s (.stream n j t) n pa) := by
  have htouch (u : State) (l : Nat) : FetchKeeps (.stream n j t) u (modCore u n (fun k => touchLine k l)) :=
    .ofKeepsJobs (modCore_readKeeps u n fun _ => rfl) (.modCore u n fun c i => touchLine_slotOf c l i)
  unfold fetchLine
  dsimp only
  split
  · exact htouch ..
  · refine .trans ⟨modStream_readKeeps .., fun r => reg_modStream _ _ _ r rfl, ?_⟩ (htouch ..)
    rw [streamOf_modStream]

theorem walked_fetchKeeps (s : State) (w : Who) (va : Word) (n j : Nat) (t : Sid) : FetchKeeps (.stream n j t) s (walked s w va) :=
  .ofKeepsJobs (walked_readKeeps ..) (walked_keepsJobs ..)

theorem physRead_fetchKeeps (s : State) (p pa len key n j : Nat) (t : Sid) : FetchKeeps (.stream n j t) s (physRead s p pa len key).1 :=
  .ofKeepsJobs (physRead_readKeeps ..) (physRead_keepsJobs ..)

theorem fetchWord_fetchKeeps (s : State) (a : Agent) (va : Word) : FetchKeeps a s (fetchWord s a va).1 := by
  cases a with
  | mgmt =>
    unfold fetchWord
    dsimp only
    split <;> exact .refl ..
  | stream n j t =>
    unfold fetchWord
    dsimp only
    generalize (⟨(jobOf s n j).part, (jobOf s n j).ctx, some n, !supervisor s (.stream n j t)⟩ : Who) = w
    have hwalked := walked_fetchKeeps s w va n j t
    split
    · exact .refl ..
    · split
      next pa key _ =>
        have hline := fetchLine_fetchKeeps s n j t pa
        have hread := (hline.trans (walked_fetchKeeps _ w va n j t)).trans (physRead_fetchKeeps _ (jobOf s n j).part pa 4 key n j t)
        split
        · exact hwalked
        · split
          next hr => rw [hr] at hread; exact hread
          next hr => rw [hr] at hread; exact hread
      next => exact hwalked

theorem fetchInstr_fetchKeeps (s : State) (a : Agent) : FetchKeeps a s (fetchInstr s a).1 := by
  have hfirst := fetchWord_fetchKeeps s a (streamOf s a).pc
  unfold fetchInstr
  dsimp only
  split
  next hu => rw [hu] at hfirst; exact hfirst
  next u l hu =>
    rw [hu] at hfirst
    split
    · have hsecond := hfirst.trans (fetchWord_fetchKeeps u a ((streamOf s a).pc + 4#64))
      split
      next hw => rw [hw] at hsecond; exact hsecond
      next hw => rw [hw] at hsecond; exact hsecond
    · exact hfirst

/-! A step that runs what it fetches (R135, R141). -/

theorem stepWith_attempts {dec : List Byte → Except DecodeError (Instr × List Byte)} {s : State} (hpower : s.powered = true) (hidle : s.agenda = [])
    (hissue : canIssue (tickOn s) (tickOn s).turn = true) (hwait : inWait (tickOn s) (tickOn s).turn = false) :
    stepWith dec s = afterMove (attempt dec (tickOn s)) := by
  have hagenda : (tickOn s).agenda = [] := hidle
  rw [stepWith, if_neg (by simp [hpower])]
  dsimp only
  rw [hagenda]
  dsimp only
  rw [takeTurn, if_pos (by simp [hissue, hwait])]

section

variable {s v : State} {dec : List Byte → Except DecodeError (Instr × List Byte)} {l : List Byte} (hissue : canIssue s s.turn = true) (hbound : boundary s s.turn = none)
include hissue hbound

theorem attempt_unfetched (hfetch : fetchInstr s s.turn = (v, none)) :
    attempt dec s = .next (takeTrap v v.turn { cause := cFetch, faddr := (streamOf v v.turn).pc }) := by
  simp only [attempt, hissue, hbound, hfetch, Bool.not_true, Bool.false_eq_true, if_false]

theorem attempt_decoded {i : Instr} {r : List Byte} (hfetch : fetchInstr s s.turn = (v, some l)) (hdec : dec l = .ok (i, r)) : attempt dec s = exec i v := by
  simp only [attempt, hissue, hbound, hfetch, hdec, Bool.not_true, Bool.false_eq_true, if_false]

theorem attempt_undecoded {e : DecodeError} (hfetch : fetchInstr s s.turn = (v, some l)) (hdec : dec l = .error e) : attempt dec s = illegal v := by
  simp only [attempt, hissue, hbound, hfetch, hdec, Bool.not_true, Bool.false_eq_true, if_false]

end

/-- A tick moves the clock alone. -/
theorem tickOn_readKeeps (s : State) : ReadKeeps s (tickOn s) := ⟨rfl, fun _ => rfl, fun h => ⟨h, rfl⟩, fun h => ⟨h, rfl⟩⟩

theorem tickOn_fetchKeeps (s : State) (a : Agent) : FetchKeeps a s (tickOn s) := by
  cases a <;> exact ⟨tickOn_readKeeps s, fun _ => rfl, rfl⟩

/-- Settles O54: the fetch keeps what FetchKeeps names, and the step is then what the decoder's answer says. -/
theorem stepRunsDecoded : Obligations.StepRunsDecoded := by
  unfold Obligations.StepRunsDecoded
  intro s v hpower hidle u hissue hwait hbound
  have hstep : step s = afterMove (attempt decode u) := stepWith_attempts hpower hidle hissue hwait
  refine ⟨fun l hfetch => ?_, fun hfetch => ?_⟩
  · obtain ⟨hread, hregs, hpc⟩ : FetchKeeps s.turn s v := by
      have hkeeps := (tickOn_fetchKeeps s s.turn).trans (fetchInstr_fetchKeeps u s.turn)
      rwa [show fetchInstr u s.turn = (v, some l) from hfetch] at hkeeps
    refine ⟨fun h => (hread.unowned h).2, hread.part, fun h => (hread.unflawed h).2, hread.turn, hregs, hpc, fun i r hdec => ?_, fun e hdec t hill => ?_⟩
    · rw [attempt_decoded hissue hbound hfetch hdec] at hstep
      refine ⟨fun t hexec => ?_, fun f hexec => ?_, fun f hexec => ?_⟩ <;> exact hstep.trans (congrArg afterMove hexec)
    · rw [attempt_undecoded hissue hbound hfetch hdec, hill] at hstep
      exact hstep
  · rw [attempt_unfetched hissue hbound hfetch] at hstep
    exact hstep

end Sys2Proof.Machine
